-- ==== Sys2Proof/Word.lean ====
section
/-!
DEFINITION. The plain types that every other file names: words, bytes, the numbers of the parts of the module
(spec 01 R22, R23) and the sorted association list that holds every sparse piece of state.
-/
namespace Sys2Proof

/-- A 64-bit scalar register, instruction word or descriptor field. -/
abbrev Word := BitVec 64

/-- One byte of memory. -/
abbrev Byte := BitVec 8

/-- Compute tile t0 to t255 (R23, R24). -/
abbrev Tid := Fin 256

/-- Compute die C0 to C3 (R22). -/
abbrev Die := Fin 4

/-- Cluster of 16 tiles (R25); cluster c lies on die c / 4. -/
abbrev Cluster := Fin 16

/-- Scalar register s0 to s63 (R82). -/
abbrev SReg := Fin 64

/-- Fabric port O0 to O15 (R22). -/
abbrev Port := Fin 16

/-- Optical engine O0 to O15, or 16 for OT (R22). -/
abbrev Eng := Fin 17

/-- Lane of a port (R29: 32 WDM lanes). -/
abbrev Lane := Fin 32

/-- Pigeonhole number (R42). -/
abbrev Ph := Fin 16384

/-- A sparse table: key and value pairs, keys strictly rising, no entry equal to its key's default.
`Sys2Proof.Machine.mget` and `mset` read and write it. -/
abbrev SMap (V : Type) := List (Nat × V)

end Sys2Proof
end

