-- ==== Sys2Proof/Machine/OperandTypes.lean ====
section
/-!
DEFINITION. The operand types of the commands.
-/
namespace Sys2Proof

/-- The width of a register access (R11): 8, 16, 32 or 64 bits. -/
inductive AccessWidth where
  | byte | half | word | wide
deriving DecidableEq, Repr

/-- The second operand of a scalar ALU instruction (R102): an s register (format SR) or IMM40 (format SI). -/
inductive SrcB where
  | reg (sb : SReg)
  | imm (v : BitVec 40)
deriving DecidableEq, Repr

/-- The amount of a scalar shift (R102): IMM40[39:6] must be 0, so an immediate has 6 bits. -/
inductive ShiftB where
  | reg (sb : SReg)
  | imm (n : BitVec 6)
deriving DecidableEq, Repr

/-- The pigeonhole of a message instruction (R114): PH, or s(SB) with REG = 1. -/
inductive PhSel where
  | ph (p : BitVec 14)
  | reg (sb : SReg)
deriving DecidableEq, Repr

/-- A unit of a tile that can wait (R118): 0 control core, 1 matrix, 2 vector, 3 stream, 4 message. -/
abbrev UnitNo := Fin 5

/-- What an instruction of the vector engine finds when it reads its registers: nothing wrong, or an uncorrectable error in
a v register, a k register (R204) or an accumulator element (R170). -/
inductive RegErr where
  | ok
  | vreg (n : Fin 32)
  | kreg (n : Fin 8)
  | acc (n : Fin 2)
deriving DecidableEq, Repr

/-- A word of a tile's register SRAM: block b of a v register, a k register, or element (m, n) of an accumulator tile, as 128m + n. -/
inductive RegWord where
  | vreg (n : Fin 32) (b : Fin 2)
  | kreg (n : Fin 8)
  | acc (n : Fin 2) (k : Fin 16384)
deriving DecidableEq, Repr

/-- A tile whose vector engine executes its replay buffer again; `ue`: an error in a word of the register SRAM that an entry reads (R170, R204). -/
structure VecUse where
  tile : Tid
  ue : RegErr
  deriving DecidableEq, Repr

/-- A word that carries the SEC-DED code: an SRAM word that a scrubber reads (R297, R298), one that its user meets, or a word of the B network's
datapath. -/
inductive SramAt where
  /-- A word of the Eddy line with this number (address / 256). -/
  | eddy (line : Nat)
  /-- The word of a tile-directory entry. -/
  | directory (e : Nat)
  /-- A word of the i-th entry of a prefetch stream of a tile. -/
  | streamBuf (t : Tid) (slot : Fin 8) (i : Nat)
  /-- A 32-bit word of a tile's operand cache. -/
  | operandCache (t : Tid) (w : Fin 524288)
  /-- A word of an accumulator tile or of a vector register file. -/
  | registers (t : Tid) (w : RegWord)
  /-- A word of the Postmaster's SRAM, its log buffer among it (R535, R547). -/
  | postmaster
  /-- A word of the i-th unit that the replay buffer holds for a next hop (R441). -/
  | replay (hop i : Nat)
  /-- A word of the data of access unit u, at its next transfer over the B network. -/
  | datapath (u : Nat)
deriving DecidableEq, Repr

/-- Accumulator tile a0 or a1. -/
abbrev AccNo := Fin 2

/-- What the shadow engines send to each other (R461, R466, R467): IMAGE block i, LOG block j of a step, the header of a log
slot, a step-record copy. -/
inductive ShadowItem where
  | image (i : Nat)
  | log (step j : Nat)
  | header (step : Nat) (nf : Bool)
  | record (step : Nat)
deriving DecidableEq, Repr

/-- What reaches the shadow engine from the twin: the acknowledgement of an item that this module sent, or an item with its
64 KiB (a step record: 32 KiB) and the numbers of its 64-byte units that carry poison. -/
inductive ShadowMsg where
  | acked (x : ShadowItem)
  | arrived (x : ShadowItem) (data : List Byte) (poison : List Nat)
  /-- The twin's epoch has landed (DESIGN CHOICE, assumption log 92: R477 gives no message for it). -/
  | landed
deriving DecidableEq, Repr

/-- MCTP control messages (DSP0236): Set Endpoint ID with its operation, Get Endpoint ID, Get Version Support for a message type, Get
Message Type Support, Get Vendor Defined Message Support with its selector, and any other command code. -/
inductive MctpCtl where
  | setEid (op : Fin 4) (eid : BitVec 8)
  | getEid
  | getVersion (typ : BitVec 8)
  | getTypes
  | getVendor (sel : BitVec 8)
  | other (code : BitVec 8)
deriving DecidableEq, Repr

/-- The MCTP binding over which a message comes (R568): 0 PCIe VDM, 1 I3C, 2 SGMII. -/
abbrev Via := Fin 3

/-- The bindings that carry SPDM (R548): 0 PCIe VDM, 1 I3C. -/
abbrev SpdmVia := Fin 2

/-- Which kind of item the shadow engine sends next; `restore` is the next item of a restore (R476). -/
inductive ShadowKind where
  | image | log | header | record | restore
deriving DecidableEq, Repr

/-- Where and how wide a register read is (R11, R13). -/
structure FieldRead where
  off : BitVec 27
  width : AccessWidth
  deriving DecidableEq, Repr

/-- What a write that sets TILE_CTL.START says besides (R126, R201): `both` where it sets ABORT too, `replay` where the Postmaster starts the
task for a recovery replay. -/
structure StartWrite where
  both : Bool
  replay : Bool
  deriving DecidableEq, Repr

/-- A fold of an accumulator tile (R152); `ue`: an element that it reads has an uncorrectable error in the accumulator SRAM (R170). -/
structure FoldOf where
  acc : AccNo
  ue : Bool
  deriving DecidableEq, Repr

/-- A tile whose matrix unit reads accumulator elements; `ue`: one of them has an uncorrectable error in the accumulator SRAM (R170). -/
structure AccUse where
  tile : Tid
  ue : Bool
  deriving DecidableEq, Repr

/-- What happens to an access unit and to its data on a read: `unit` is what the stored codeword has suffered since its last access (R291),
`path` the error of a word of the data on its way to the requester (R297). -/
structure ReadErr where
  unit : List (Fin 67 × BitVec 8)
  path : BitVec 39
  deriving DecidableEq, Repr

/-- What happens to the data of a write: `poison` where it carries poisoned data (R294), `path` the error of a word of it on its way (R297). -/
structure WriteErr where
  poison : Bool
  path : BitVec 39
  deriving DecidableEq, Repr

/-- A wear-levelling move (R329): the block's erases above the mean, the bytes it moves, and the life used that the flash reports. -/
structure WearBlock where
  excess : Nat
  bytes : Nat
  life : BitVec 8
  deriving DecidableEq, Repr

/-- The inputs TMS and TRST_N of the JTAG port (R589); `trst`: TRST_N is low. -/
structure TestIn where
  tms : Bool
  trst : Bool
  deriving DecidableEq, Repr

/-- A block under way: the place of its request among those that run, and of the engine among the request's (R357). -/
structure BlockAt where
  run : Nat
  part : Nat
  deriving DecidableEq, Repr

end Sys2Proof
end

