-- ==== Sys2Proof/Syntax.lean ====
section
/-!
DEFINITION. The commands of the block: one constructor for each row of spec/opcode_table.json, in the table's order, with the
row's operands. Nothing here has a meaning; Sys2Proof.Machine.exec gives it.
-/
namespace Sys2Proof

/-- The commands that the module can be given: register accesses, Dakor instructions, events of its engines, packets
and link units, pins and firmware actions. -/
inductive Instr where
  /-- CSR_WRITE (R13): A host or management write to a register field that has no row of its own sets, clears or ignores the field by its access type. -/
  | csrWrite (off : BitVec 27) (width : AccessWidth) (v : Word)
  /-- CSR_LOW_HALF_READ (R12): A 32-bit read of the low half of a 64-bit register returns it and latches the high half. -/
  | csrLowHalfRead (off : BitVec 27)
  /-- CSR_LOW_HALF_WRITE (R12): A 32-bit write of the low half of a 64-bit register is held without effect. -/
  | csrLowHalfWrite (off : BitVec 27) (v : BitVec 32)
  /-- CSR_HIGH_HALF_WRITE (R12): A 32-bit write of the high half commits any held low half with it, or writes the high half alone. -/
  | csrHighHalfWrite (off : BitVec 27) (v : BitVec 32)
  /-- RC_FIELD_READ (R13): A host or management read of an RC field returns its value and clears it. -/
  | rcFieldRead (at_ : FieldRead)
  /-- ILLEGAL (R117): The control core decodes an illegal instruction word and the task traps with ILLEGAL before issue. -/
  | illegal (t : Tid) (w : Word)
  /-- QUEUE_ISSUE (R85): The control core issues an instruction into its engine queue in the cycle the queue has a free entry, capturing its s-register operands. -/
  | queueIssue (t : Tid) (w : Word)
  /-- ADD (R102): Scalar ADD writes a + b. -/
  | add (t : Tid) (sd : SReg) (sa : SReg) (b : SrcB)
  /-- SUB (R102): Scalar SUB writes a − b. -/
  | sub (t : Tid) (sd : SReg) (sa : SReg) (b : SrcB)
  /-- AND (R102): Scalar AND writes a AND b. -/
  | and (t : Tid) (sd : SReg) (sa : SReg) (b : SrcB)
  /-- OR (R102): Scalar OR writes a OR b. -/
  | or (t : Tid) (sd : SReg) (sa : SReg) (b : SrcB)
  /-- XOR (R102): Scalar XOR writes a XOR b. -/
  | xor (t : Tid) (sd : SReg) (sa : SReg) (b : SrcB)
  /-- ANDN (R102): Scalar ANDN writes a AND NOT b. -/
  | andn (t : Tid) (sd : SReg) (sa : SReg) (b : SrcB)
  /-- SHL (R102): Scalar SHL shifts a left by b[5:0]. -/
  | shl (t : Tid) (sd : SReg) (sa : SReg) (b : ShiftB)
  /-- SHR (R102): Scalar SHR shifts a right logically by b[5:0]. -/
  | shr (t : Tid) (sd : SReg) (sa : SReg) (b : ShiftB)
  /-- SRA (R102): Scalar SRA shifts a right arithmetically by b[5:0]. -/
  | sra (t : Tid) (sd : SReg) (sa : SReg) (b : ShiftB)
  /-- MUL (R102): Scalar MUL writes the low 64 bits of a × b. -/
  | mul (t : Tid) (sd : SReg) (sa : SReg) (b : SrcB)
  /-- MULH (R102): Scalar MULH writes the high 64 bits of the signed product. -/
  | mulh (t : Tid) (sd : SReg) (sa : SReg) (sb : SReg)
  /-- MULHU (R102): Scalar MULHU writes the high 64 bits of the unsigned product. -/
  | mulhu (t : Tid) (sd : SReg) (sa : SReg) (sb : SReg)
  /-- DIV (R103): Scalar DIV writes the signed quotient, aborting with DIV_ZERO for b = 0. -/
  | div (t : Tid) (sd : SReg) (sa : SReg) (b : SrcB)
  /-- DIVU (R103): Scalar DIVU writes the unsigned quotient, aborting with DIV_ZERO for b = 0. -/
  | divu (t : Tid) (sd : SReg) (sa : SReg) (b : SrcB)
  /-- REM (R103): Scalar REM writes the signed remainder, aborting with DIV_ZERO for b = 0. -/
  | rem (t : Tid) (sd : SReg) (sa : SReg) (b : SrcB)
  /-- REMU (R103): Scalar REMU writes the unsigned remainder, aborting with DIV_ZERO for b = 0. -/
  | remu (t : Tid) (sd : SReg) (sa : SReg) (b : SrcB)
  /-- SLT (R102): Scalar SLT writes 1 if a < b signed. -/
  | slt (t : Tid) (sd : SReg) (sa : SReg) (b : SrcB)
  /-- SLTU (R102): Scalar SLTU writes 1 if a < b unsigned. -/
  | sltu (t : Tid) (sd : SReg) (sa : SReg) (b : SrcB)
  /-- SEQ (R102): Scalar SEQ writes 1 if a = b. -/
  | seq (t : Tid) (sd : SReg) (sa : SReg) (b : SrcB)
  /-- MIN (R102): Scalar MIN writes the signed minimum. -/
  | min (t : Tid) (sd : SReg) (sa : SReg) (b : SrcB)
  /-- MAX (R102): Scalar MAX writes the signed maximum. -/
  | max (t : Tid) (sd : SReg) (sa : SReg) (b : SrcB)
  /-- MINU (R102): Scalar MINU writes the unsigned minimum. -/
  | minu (t : Tid) (sd : SReg) (sa : SReg) (b : SrcB)
  /-- MAXU (R102): Scalar MAXU writes the unsigned maximum. -/
  | maxu (t : Tid) (sd : SReg) (sa : SReg) (b : SrcB)
  /-- POPC (R102): Scalar POPC writes the number of 1 bits of a. -/
  | popc (t : Tid) (sd : SReg) (sa : SReg)
  /-- CLZ (R102): Scalar CLZ writes the leading zero count of a. -/
  | clz (t : Tid) (sd : SReg) (sa : SReg)
  /-- CTZ (R102): Scalar CTZ writes the trailing zero count of a. -/
  | ctz (t : Tid) (sd : SReg) (sa : SReg)
  /-- LI (R104): LI loads the sign-extended 46-bit immediate. -/
  | li (t : Tid) (sd : SReg) (imm : BitVec 46)
  /-- LIH (R104): LIH sets bits [63:46] of SD from the immediate. -/
  | lih (t : Tid) (sd : SReg) (imm : BitVec 18)
  /-- LD8U (R105): Scalar load of a zero-extended byte from device memory. -/
  | ld8u (t : Tid) (sd : SReg) (sa : SReg) (hint : BitVec 2) (offs : BitVec 34)
  /-- LD16U (R105): Scalar load of zero-extended 16 bits from device memory. -/
  | ld16u (t : Tid) (sd : SReg) (sa : SReg) (hint : BitVec 2) (offs : BitVec 34)
  /-- LD32U (R105): Scalar load of zero-extended 32 bits from device memory. -/
  | ld32u (t : Tid) (sd : SReg) (sa : SReg) (hint : BitVec 2) (offs : BitVec 34)
  /-- LD64 (R105): Scalar load of 64 bits from device memory. -/
  | ld64 (t : Tid) (sd : SReg) (sa : SReg) (hint : BitVec 2) (offs : BitVec 34)
  /-- LD8S (R105): Scalar load of a sign-extended byte from device memory. -/
  | ld8s (t : Tid) (sd : SReg) (sa : SReg) (hint : BitVec 2) (offs : BitVec 34)
  /-- LD16S (R105): Scalar load of sign-extended 16 bits from device memory. -/
  | ld16s (t : Tid) (sd : SReg) (sa : SReg) (hint : BitVec 2) (offs : BitVec 34)
  /-- LD32S (R105): Scalar load of sign-extended 32 bits from device memory. -/
  | ld32s (t : Tid) (sd : SReg) (sa : SReg) (hint : BitVec 2) (offs : BitVec 34)
  /-- LDO64 (R105): Scalar load of 64 bits from the operand cache. -/
  | ldo64 (t : Tid) (sd : SReg) (sa : SReg) (offs : BitVec 34)
  /-- ST8 (R105): Scalar store of a byte to device memory. -/
  | st8 (t : Tid) (sd : SReg) (sa : SReg) (hint : BitVec 2) (offs : BitVec 34)
  /-- ST16 (R105): Scalar store of 16 bits to device memory. -/
  | st16 (t : Tid) (sd : SReg) (sa : SReg) (hint : BitVec 2) (offs : BitVec 34)
  /-- ST32 (R105): Scalar store of 32 bits to device memory. -/
  | st32 (t : Tid) (sd : SReg) (sa : SReg) (hint : BitVec 2) (offs : BitVec 34)
  /-- ST64 (R105): Scalar store of 64 bits to device memory. -/
  | st64 (t : Tid) (sd : SReg) (sa : SReg) (hint : BitVec 2) (offs : BitVec 34)
  /-- STO64 (R105): Scalar store of 64 bits into the operand cache, aborting with CODE_WRITE in the code window. -/
  | sto64 (t : Tid) (sd : SReg) (sa : SReg) (offs : BitVec 34)
  /-- AADD (R107): Atomic add at the memory controller, returning the old word. -/
  | aadd (t : Tid) (sd : SReg) (sa : SReg) (sb : SReg)
  /-- ASWAP (R107): Atomic swap at the memory controller, returning the old word. -/
  | aswap (t : Tid) (sd : SReg) (sa : SReg) (sb : SReg)
  /-- ACAS (R107): Atomic compare-and-swap at the memory controller, returning the old word. -/
  | acas (t : Tid) (sd : SReg) (sa : SReg) (sb : SReg)
  /-- AOR (R107): Atomic OR at the memory controller, returning the old word. -/
  | aor (t : Tid) (sd : SReg) (sa : SReg) (sb : SReg)
  /-- SCALAR_MEMORY_COMPLETE (R106): Data or completion of a scalar load, store or atomic returns from B, writing SD or faulting the task. -/
  | scalarMemoryComplete (t : Tid) (i : Nat)
  /-- BEQ (R108): Branch if equal. -/
  | beq (t : Tid) (sa : SReg) (sb : SReg) (offs : BitVec 40)
  /-- BNE (R108): Branch if not equal. -/
  | bne (t : Tid) (sa : SReg) (sb : SReg) (offs : BitVec 40)
  /-- BLT (R108): Branch if less, signed. -/
  | blt (t : Tid) (sa : SReg) (sb : SReg) (offs : BitVec 40)
  /-- BGE (R108): Branch if greater or equal, signed. -/
  | bge (t : Tid) (sa : SReg) (sb : SReg) (offs : BitVec 40)
  /-- BLTU (R108): Branch if less, unsigned. -/
  | bltu (t : Tid) (sa : SReg) (sb : SReg) (offs : BitVec 40)
  /-- BGEU (R108): Branch if greater or equal, unsigned. -/
  | bgeu (t : Tid) (sa : SReg) (sb : SReg) (offs : BitVec 40)
  /-- JAL (R108): Jump and link relative to PC. -/
  | jal (t : Tid) (sd : SReg) (imm : BitVec 46)
  /-- JALR (R108): Jump and link to a register target. -/
  | jalr (t : Tid) (sd : SReg) (sa : SReg) (imm : BitVec 40)
  /-- NOP (R109): No operation. -/
  | nop (t : Tid)
  /-- HALT (R109): HALT stops issue and awaits empty queues. -/
  | halt (t : Tid)
  /-- HALT_COMPLETE (R109): Once all queues are empty and effects visible after HALT, the task ends, the tile enters HALTED and the notice is posted. -/
  | haltComplete (t : Tid)
  /-- ABORT (R109): The program aborts its task with PROGRAM_ABORT. -/
  | abort (t : Tid) (sa : SReg)
  /-- BRK (R109): The program aborts its task with BREAK. -/
  | brk (t : Tid) (imm : BitVec 24)
  /-- FENCE (R109): The control core waits until the named scopes are complete. -/
  | fence (t : Tid) (scopes : BitVec 5)
  /-- TKSIG (R110): Adds 1 to a token counter. -/
  | tksig (t : Tid) (tk : Fin 16)
  /-- TKWAIT (R110): Waits until a token counter is at least 1, then subtracts 1. -/
  | tkwait (t : Tid) (tk : Fin 16)
  /-- TKADD (R110): Adds an immediate to a token counter. -/
  | tkadd (t : Tid) (tk : Fin 16) (n : BitVec 16)
  /-- TKRD (R110): Reads a token counter into SD. -/
  | tkrd (t : Tid) (sd : SReg) (tk : Fin 16)
  /-- TKWAITN (R110): Waits until a token counter is at least n, then subtracts n. -/
  | tkwaitn (t : Tid) (tk : Fin 16) (n : BitVec 16)
  /-- TKCLR (R110): Sets a token counter to 0. -/
  | tkclr (t : Tid) (tk : Fin 16)
  /-- RDSYS (R112): Reads a system register into SD. -/
  | rdsys (t : Tid) (sd : SReg) (sys : BitVec 12)
  /-- WRSP (R113): Writes a vector special register in vector program order. -/
  | wrsp (t : Tid)
  /-- RDSP (R111): Reads a vector special register back to SD through the vector queue. -/
  | rdsp (t : Tid)
  /-- MSEND (R398): A queued send of a descriptor to a pigeonhole starts and waits for what its kind needs. -/
  | msend (t : Tid)
  /-- MSEND_ACCEPT (R398): The Mailroom accepts a waiting send once its condition holds, and its signal is applied. -/
  | msendAccept (t : Tid)
  /-- MRECV (R400): Takes the oldest untaken descriptor of a local ring, waiting while it is empty. -/
  | mrecv (t : Tid)
  /-- MCREDIT (R401): Frees the n oldest held slots of a ring and returns credit to their channels. -/
  | mcredit (t : Tid)
  /-- GARRIVE (R429): Adds one arrival to the module's current instance of a Gauge barrier. -/
  | garrive (t : Tid)
  /-- GWAIT (R430): Waits until the current instance of a Gauge barrier closes. -/
  | gwait (t : Tid)
  /-- MCOLL (R418): Reserves collective resources and starts one instance of a collective. -/
  | mcoll (t : Tid)
  /-- MCOUNT (R400): Returns the descriptor count or credit of a pigeonhole. -/
  | mcount (t : Tid) (sd : SReg) (sel : PhSel)
  /-- MTRY (R400): Takes a descriptor if one is present, without waiting. -/
  | mtry (t : Tid) (sd : SReg) (sa : SReg) (sel : PhSel)
  /-- WAIT_TIMEOUT (R92): A wait still unsatisfied 64 ns after its deadline aborts the task. -/
  | waitTimeout (t : Tid) (u : UnitNo)
  /-- TASK_ABORT_END (R119): The abort sequence completes: queues and engines stopped, the notice posted, the leaf set and the tile ABORTED. -/
  | taskAbortEnd (t : Tid)
  /-- START (R126): A write of TILE_CTL.START starts a task or is rejected with START_REJ. -/
  | start (t : Tid) (how : StartWrite)
  /-- HOST_ABORT (R119): A write of TILE_CTL.ABORT aborts the running task with HOST_ABORT. -/
  | hostAbort (t : Tid)
  /-- DB_LOAD (R559): A ring of the load doorbell starts the image loader, which runs checks of steps 1 and 3–5. -/
  | dbLoad
  /-- IMAGE_DIGEST_DONE (R132): The SHA-384 of step 2 completes and is compared with DIGEST. -/
  | imageDigestDone
  /-- IMAGE_COPY_DONE (R132): Step 6 copying ends and step 7 hands sections to their owners, starting the first redraw and power-table builds. -/
  | imageCopyDone
  /-- IMAGE_TAKEOVER_DONE (R132): Step 7 ends once the redraw and tables are complete; step 8 records PORT_SPLIT and sets T_s. -/
  | imageTakeoverDone
  /-- LOAD_TASK_START (R133): At T_s every start-at-load task begins issue and the load ends IMAGE_OK. -/
  | loadTaskStart
  /-- SETTINGS_WRITE (R368): Firmware writes the recorded PORT_SPLIT to the module settings block in NOR. -/
  | settingsWrite
  /-- MM (R143): A matrix product starts on an accumulator tile. -/
  | mm (t : Tid)
  /-- MM_CHUNK_STEP (R148): One chunk step of a product adds its terms into every element and advances the term counter. -/
  | mmChunkStep (t : Tid) (ue : Bool)
  /-- FOLD (R152): When L1 reaches 2^20 the level-one pairs fold into level two. -/
  | fold (t : Tid) (f : FoldOf)
  /-- MM_COMPLETE (R137): A matrix instruction completes 40 cycles after its last chunk step and applies its signal. -/
  | mmComplete (t : Tid)
  /-- MZERO (R142): Clears an accumulator tile in one cycle. -/
  | mzero (t : Tid)
  /-- MSAVE (R146): Writes an accumulator image to device memory. -/
  | msave (t : Tid)
  /-- MMERGE (R160): Adds a saved accumulator image into a tile. -/
  | mmerge (t : Tid)
  /-- MRESTORE (R147): Replaces a tile with a saved image after checking it. -/
  | mrestore (t : Tid)
  /-- VADD (R182): Vector add. -/
  | vadd (t : Tid) (ue : RegErr)
  /-- VSUB (R182): Vector subtract. -/
  | vsub (t : Tid) (ue : RegErr)
  /-- VMUL (R182): Vector multiply. -/
  | vmul (t : Tid) (ue : RegErr)
  /-- VMULH (R182): Vector multiply-high in normal form. -/
  | vmulh (t : Tid) (ue : RegErr)
  /-- VFMA (R202): Reference-personality fused multiply-add. -/
  | vfma (t : Tid) (ue : RegErr)
  /-- VMIN (R182): Vector minimum. -/
  | vmin (t : Tid) (ue : RegErr)
  /-- VMAX (R182): Vector maximum. -/
  | vmax (t : Tid) (ue : RegErr)
  /-- VABS (R182): Vector absolute value. -/
  | vabs (t : Tid) (ue : RegErr)
  /-- VNEG (R182): Vector negation. -/
  | vneg (t : Tid) (ue : RegErr)
  /-- VAND (R182): Vector bitwise AND of mantissas. -/
  | vand (t : Tid) (ue : RegErr)
  /-- VOR (R182): Vector bitwise OR of mantissas. -/
  | vor (t : Tid) (ue : RegErr)
  /-- VXOR (R182): Vector bitwise XOR of mantissas. -/
  | vxor (t : Tid) (ue : RegErr)
  /-- VANDN (R182): Vector AND NOT of mantissas. -/
  | vandn (t : Tid) (ue : RegErr)
  /-- VSHL (R182): Vector saturating left shift of mantissas. -/
  | vshl (t : Tid) (ue : RegErr)
  /-- VSRA (R182): Vector arithmetic right shift of mantissas. -/
  | vsra (t : Tid) (ue : RegErr)
  /-- VSRR (R182): Vector rounding right shift of mantissas. -/
  | vsrr (t : Tid) (ue : RegErr)
  /-- VCMPLT (R182): Vector less-than comparison into a mask. -/
  | vcmplt (t : Tid) (ue : RegErr)
  /-- VCMPLE (R182): Vector less-or-equal comparison into a mask. -/
  | vcmple (t : Tid) (ue : RegErr)
  /-- VCMPEQ (R182): Vector equality comparison into a mask. -/
  | vcmpeq (t : Tid) (ue : RegErr)
  /-- VSEL (R182): Vector select under a mask. -/
  | vsel (t : Tid) (ue : RegErr)
  /-- VMOV (R182): Vector move. -/
  | vmov (t : Tid) (ue : RegErr)
  /-- VSCALE (R182): Vector scale by a power of two. -/
  | vscale (t : Tid) (ue : RegErr)
  /-- VALIGN (R182): Vector repack at another block's exponent. -/
  | valign (t : Tid) (ue : RegErr)
  /-- VNORM (R182): Vector renormalisation under R66. -/
  | vnorm (t : Tid) (ue : RegErr)
  /-- VKAND (R182): Mask AND. -/
  | vkand (t : Tid) (ue : RegErr)
  /-- VKOR (R182): Mask OR. -/
  | vkor (t : Tid) (ue : RegErr)
  /-- VKXOR (R182): Mask XOR. -/
  | vkxor (t : Tid) (ue : RegErr)
  /-- VRSUB (R182): Vector reverse subtract. -/
  | vrsub (t : Tid) (ue : RegErr)
  /-- VLD (R185): Vector load and conversion into BFX. -/
  | vld (t : Tid) (ue : RegErr)
  /-- VECTOR_LOAD_RETURN (R185): Device-memory data of a VLD returns and the destination blocks are written. -/
  | vectorLoadReturn (t : Tid) (i : Nat)
  /-- VST (R186): Vector store with conversion, optionally with scale prediction. -/
  | vst (t : Tid) (ue : RegErr)
  /-- VRDACC (R188): Reads a strip of an accumulator tile into a vector register. -/
  | vrdacc (t : Tid) (ue : RegErr)
  /-- VSEED (R190): Computes a table seed of RCP, RSQ, EXP2 or LOG2. -/
  | vseed (t : Tid) (ue : RegErr)
  /-- VRSUM (R189): Sums over lanes. -/
  | vrsum (t : Tid) (ue : RegErr)
  /-- VRMAX (R189): Maximum over lanes. -/
  | vrmax (t : Tid) (ue : RegErr)
  /-- VSPLAT (R187): Broadcasts one lane across a block. -/
  | vsplat (t : Tid) (ue : RegErr)
  /-- WINDOW_REPLAY (R199): After a failed verification and recompute, the engine restores its shadow and re-executes the replay buffer. -/
  | windowReplay (t : VecUse)
  /-- SMOVE (R245): Stream transfer between endpoints, optionally capturing a block-maximum record. -/
  | smove (t : Tid)
  /-- SCVT (R264): Stream format conversion, optionally with scale prediction. -/
  | scvt (t : Tid)
  /-- SFLASH (R245): Stream read of flash tiles into a destination. -/
  | sflash (t : Tid)
  /-- SGET (R255): Stream read from a remote module, with optional version checks. -/
  | sget (t : Tid)
  /-- SPUT (R245): Stream write to a remote module. -/
  | sput (t : Tid)
  /-- SVFENCE (R256): Writes a version word after every earlier write of the tile. -/
  | svfence (t : Tid)
  /-- SRETAIN (R263): Writes a mask record of a predicate over the source. -/
  | sretain (t : Tid)
  /-- SEXPAND (R263): Expands a mask record into BFX blocks in the operand cache. -/
  | sexpand (t : Tid)
  /-- SVERIFY (R268): Verifies the skipped slabs of the oldest unpaired sparsity-predicted MM and rewrites its zero-history bits. -/
  | sverify (t : Tid)
  /-- VERIFY_RECOMPUTE (R269): After a failed slab the matrix unit restores or clears the tile and re-executes the chain without skipping. -/
  | verifyRecompute (a : AccUse)
  /-- PFSET (R248): Configures and starts a prefetch stream. -/
  | pfset (t : Tid)
  /-- PFSTOP (R252): Stops a prefetch stream. -/
  | pfstop (t : Tid)
  /-- PREFETCH_FILL_RETURN (R249): A prefetch fill returns into its stream-buffer entry, or is dropped and counted. -/
  | prefetchFillReturn (t : Tid) (slot : Fin 8) (i : Nat)
  /-- TRANSFER_COMPLETE (R247): A stream transfer completes when its writes are visible and applies its signal. -/
  | transferComplete (t : Tid)
  /-- TRANSFER_LATE (R259): A lower-tier transfer with segments not counted 64 ns after its deadline is late. -/
  | transferLate (t : Tid) (i : Nat)
  /-- TRANSFER_ERROR_END (R261): A failing transfer with its error token enabled ends alone, signals ETK and records the error. -/
  | transferErrorEnd (t : Tid)
  /-- PRODUCT (R216): A deferral PRODUCT item reaches the head and acts on the resident block. -/
  | product (t : Tid)
  /-- BIND (R216): A deferral BIND item binds an accumulator tile to the queue. -/
  | bind (t : Tid)
  /-- DRAIN (R216): A deferral DRAIN item writes back the resident block. -/
  | drain (t : Tid)
  /-- RELEASE (R216): A deferral RELEASE item writes back and unbinds the tile. -/
  | release (t : Tid)
  /-- RESIDENT_TRANSFER_DONE (R218): A resident-block write-back or load over the accumulator port completes. -/
  | residentTransferDone (a : AccUse)
  /-- IDLE_FILL_START (R225): After 64 idle cycles of a unit, the tile starts fill level 1, 2 or 3. -/
  | idleFillStart (t : Tid)
  /-- FILL_SLICE (R220): The array runs one slice of the head PRODUCT. -/
  | fillSlice (a : AccUse)
  /-- OPT_FILL_UPDATE (R226): An optimizer fill UPDATE item reaches the head of the fill queue. -/
  | optFillUpdate (t : Tid)
  /-- FILL_OPT_BLOCK (R360): The optimizer fill computes one block and completes the item after its last block. -/
  | fillOptBlock (t : Tid)
  /-- FILL_YIELD (R228): A filling unit yields to a main instruction that can start. -/
  | fillYield (t : Tid)
  /-- PHASE_ENTER (R210): The next phase is entered when the last redrawn port returns, completing the GWAIT. -/
  | phaseEnter
  /-- REDRAW_DRAIN_END (R376): A changed port's drain step ends. -/
  | redrawDrainEnd (p : Port)
  /-- REDRAW_RETUNE_END (R376): A changed port's rings reach their new lines. -/
  | redrawRetuneEnd (p : Port) (ue : Bool)
  /-- REDRAW_LOCK_END (R376): Moved rings of a changed port acquire lock. -/
  | redrawLockEnd (p : Port)
  /-- REDRAW_CHECK_END (R378): The lane check of a changed port ends and each lane is sorted into its state. -/
  | redrawCheckEnd (p : Port) (passed : BitVec 32)
  /-- PORT_RETURN (R376): A redrawn port exchanges credits and sequences and enters service. -/
  | portReturn (p : Port)
  /-- WAVE2_START (R377): Wave 2 of a redraw starts 100 µs after wave 1 returns. -/
  | wave2Start
  /-- LATE_PEER_RETRY (R378): A LATE_PEER lane repeats lock and check every 100 µs. -/
  | latePeerRetry (p : Port) (l : Lane) (pass : Bool)
  /-- LANE_UNPAIRED (R378): A lane not passed 10 ms after its port returns becomes LANE_UNPAIRED. -/
  | laneUnpaired (p : Port) (l : Lane)
  /-- MEM_READ (R291): A controller reads an access unit and decodes its symbol code. -/
  | memRead (a : Nat) (err : ReadErr)
  /-- MEM_WRITE (R294): A controller writes an access unit, merging partial writes and snooping stream buffers. -/
  | memWrite (a : Nat) (b : List Byte) (err : WriteErr)
  /-- CORRECTIVE_WRITE (R292): A queued write of a corrected unit, skipped if the unit was written since. -/
  | correctiveWrite (a : Nat)
  /-- EDDY_ACCESS (R285): An Eddy slice serves an access under its hint, allocating and evicting lines. -/
  | eddyAccess (a : Nat) (n : Nat) (hint : Fin 4) (w : Option (List Byte))
  /-- DRAM_SCRUB (R299): A scrubber reads, corrects and writes back one access unit. -/
  | dramScrub (a : Nat) (err : List (Fin 67 × BitVec 8)) (last : Bool)
  /-- SRAM_SCRUB (R298): A scrubber reads and corrects one SRAM word. -/
  | sramScrub (w : SramAt) (e : BitVec 39) (last : Bool)
  /-- MEM_QUAD_WRITE (R281): A write changing a quad's mode or Eddy bit flushes the quad and applies the new mode. -/
  | memQuadWrite (q : Fin 34) (v : BitVec 32)
  /-- TIER_LOAD (R308): TIER_CTL.LOAD validates the region table and starts a load. -/
  | tierLoad (v : BitVec 32)
  /-- REGION_LOAD_DONE (R309): The region load completes, setting entries EMPTY and READY. -/
  | regionLoadDone
  /-- PIN (R317): A directory PIN request. -/
  | pin
  /-- UNPIN (R313): A directory UNPIN request. -/
  | unpin
  /-- HINT (R313): A directory HINT request. -/
  | hint
  /-- EVICT (R319): A directory EVICT request. -/
  | evict
  /-- FREE (R313): A directory FREE request. -/
  | free
  /-- SETVER (R311): A directory SETVER request. -/
  | setver
  /-- ATTACH (R313): A directory ATTACH request. -/
  | attach
  /-- QUERY (R313): A directory QUERY request returns the entry's fields. -/
  | query
  /-- FLASH_WRITE (R313): A directory FLASH_WRITE request writes flash tiles. -/
  | flashWrite
  /-- FLASH_TRIM (R313): A directory FLASH_TRIM request trims flash tiles. -/
  | flashTrim
  /-- MOVE_COMPLETE (R320): A directory move between tiers completes and any waiting PIN is served or replied. -/
  | moveComplete (e : Nat)
  /-- BACKGROUND_EVICT (R320): The directory starts a background eviction of a pool below its free-slot target. -/
  | backgroundEvict (i : Nat) (tier : Fin 2)
  /-- USE_DECAY (R320): Every 10 ms the directory halves every entry's USE. -/
  | useDecay
  /-- PIN_LATE (R325): A PIN whose move has not counted 64 ns after its deadline completes with LOWER_LATE. -/
  | pinLate (i : Nat)
  /-- FLASH_TILE_READ_DONE (R327): A flash tile read ends after the recovery ladder, delivering data or FLASH_READ_FAIL. -/
  | flashTileReadDone (i : Nat) (retried : Fin 17) (fail : Option (Fin 16))
  /-- FLASH_PROGRAM_DONE (R328): A flash tile write completes and the tile becomes present. -/
  | flashProgramDone (i : Nat) (full : Bool) (spare : BitVec 8) (low : Bool)
  /-- WEAR_MOVE (R329): Wear levelling moves a flash block. -/
  | wearMove (w : WearBlock) (spare : BitVec 8) (low : Bool)
  /-- UPDATE (R357): An update-engine UPDATE request. -/
  | update
  /-- RESOLVE (R341): An update-engine RESOLVE request records a step's non-finite flag. -/
  | resolve
  /-- COMMIT (R342): An update-engine COMMIT request waits for started work of its step. -/
  | commit
  /-- COMMIT_TAKE_EFFECT (R342): Once started work is complete, the COMMIT advances counters, flips banks, writes the step record and replies. -/
  | commitTakeEffect
  /-- UPD_QUERY (R357): An update-engine QUERY request returns group state. -/
  | updQuery
  /-- SETSTEP (R357): An update-engine SETSTEP request sets T_G or C. -/
  | setstep
  /-- UPDATE_BLOCK (R348): An update engine updates one block of 32 elements. -/
  | updateBlock (b : BlockAt)
  /-- UPDATE_DONE (R357): An UPDATE request completes when every write is visible and replies. -/
  | updateDone (i : Nat)
  /-- DISC_START (R383): OPT_FAB_CTL.DISC_START starts discovery afresh. -/
  | discStart
  /-- DISC_CLOSE (R383): OPT_FAB_CTL.DISC_CLOSE ends discovery no sooner than t0 + 24 ms. -/
  | discClose
  /-- DISC_SWEEP_SET (R380): A port's rings move to the next discovery line set. -/
  | discSweepSet (p : Port) (tx : Bool)
  /-- BEACON_SEND (R380): A tuned lane sends a beacon every 10 µs. -/
  | beaconSend (e : Eng) (l : Lane)
  /-- BEACON (R381): A received beacon is checked and its peer and self-index recorded. -/
  | beacon (e : Eng) (l : Lane)
  /-- DISC_END (R383): The sweep stops at the window or close and discovery ends COMPLETE or FAILED. -/
  | discEnd (halfRows : Fin 24) (cols : Fin 48)
  /-- APPLY (R388): OPT_ROUTE_CTL.APPLY stages route tables for a boundary, or applies them at once. -/
  | apply (phase : Fin 16)
  /-- MAIL (R399): A MAIL packet is delivered into a ring slot or reply reservation. -/
  | mail (i : Nat)
  /-- BULK (R399): A BULK packet lands in a bulk buffer. -/
  | bulk (i : Nat)
  /-- WRITE (R409): A remote WRITE packet is written into memory. -/
  | write (i : Nat)
  /-- READ (R322): A remote READ packet is served with version, after any skew check. -/
  | read (i : Nat)
  /-- READ_DATA (R409): READ_DATA returns into a stream engine's read buffer. -/
  | readData (i : Nat)
  /-- ACK (R407): An end-to-end ACK retires outstanding packets and echoes backwater marks. -/
  | ack (i : Nat)
  /-- CREDIT (R401): A CREDIT packet returns channel credit to a sender. -/
  | credit (i : Nat)
  /-- COLL (R425): A collective packet is added into an instance buffer or late-folded or discarded. -/
  | coll (i : Nat)
  /-- BARRIER (R429): A barrier arrival packet is counted, held for a later instance or discarded. -/
  | barrier (i : Nat)
  /-- VFENCE (R256): A remote version write is applied after earlier writes from the tile. -/
  | vfence (i : Nat)
  /-- HELD_DROP (R406): A packet held past HOLD_MS is dropped and its message fails. -/
  | heldDrop (hop : Nat) (i : Nat)
  /-- E2E_TIMEOUT (R407): A packet not acknowledged within E2E_US is treated as dropped. -/
  | e2eTimeout (i : Nat)
  /-- RATE_WINDOW (R413): A quiet window raises a destination's send rate. -/
  | rateWindow (dest : Nat)
  /-- MC_STALL_REMOVE (R415): A multicast receiver stalled past its limit is removed from the group. -/
  | mcStallRemove (coll : Bool) (i : Nat)
  /-- CATCHUP_SEND (R415): A removed receiver regains ring credit and receives a catch-up descriptor. -/
  | catchupSend (coll : Bool) (i : Nat)
  /-- COLL_CLOSE (R424): An instance closes at E + 64 ns, writing output, resolving NF and posting the notice. -/
  | collClose (id : Fin 256)
  /-- AG_PART_END (R419): An all-gather part ends when all shards are written, posting the notice. -/
  | agPartEnd (id : Fin 256)
  /-- BARRIER_STAGE_CLOSE (R428): An axis stage of a barrier instance closes under the postmark rule. -/
  | barrierStageClose (b : Fin 1024)
  /-- RING_OVERRUN_INTERVAL_END (R403): The 1 s loss interval of a pigeonhole ends and one log record is written. -/
  | ringOverrunIntervalEnd (p : Ph)
  /-- SYNC_EXCHANGE (R431): Every 1 ms a parent and child exchange sync frames. -/
  | syncExchange (p : Port)
  /-- SYNC (R432): A received sync frame updates the child's offset and rate. -/
  | sync (p : Port) (l : Lane) (ns : Nat) (half : Bool)
  /-- SYNC_LOST (R433): No sync frame for 10 ms clears LOCKED and logs SYNC_LOST. -/
  | syncLost
  /-- CODEWORD_RECEIVE (R438): A lane decodes one FEC codeword, gaining or losing codeword lock. -/
  | codewordReceive (e : Eng) (l : Lane) (cw : List (Fin 4))
  /-- PACKET (R441): A PACKET link unit is received and delivered once by LSEQ. -/
  | packet (e : Eng) (l : Lane)
  /-- LINK_ACK (R440): A LINK_ACK unit releases or schedules replay of link units. -/
  | linkAck (e : Eng) (l : Lane)
  /-- IDENTITY (R452): An identity unit starts a lane check. -/
  | identity (e : Eng) (l : Lane)
  /-- LINK_ACK_SEND (R440): A receiver sends a LINK_ACK every 0.5 µs or on a gap of 16. -/
  | linkAckSend (hop : Nat)
  /-- LINK_REPLAY (R440): An unacknowledged unit is resent after 4 µs, or 1 µs after a gap is shown. -/
  | linkReplay (hop : Nat) (i : Nat)
  /-- FEEDFORWARD_UPDATE (R444): Every 1 µs the heater feed-forward is recomputed from die power. -/
  | feedforwardUpdate (e : Eng) (temp : BitVec 8) (lock : List (BitVec 8))
  /-- LANE_DROP (R445): A lane is dropped for lock error, codeword lock loss or uncorrectable codewords. -/
  | laneDrop (e : Eng) (l : Lane) (cause : Fin 3)
  /-- LANE_RELOCK (R445): A dropped lane relocks, passes its check and returns to service. -/
  | laneRelock (e : Eng) (l : Lane) (pass : Bool)
  /-- LANE_HOLDOUT_END (R445): A lane held out 10 s after three drops retries. -/
  | laneHoldoutEnd (e : Eng) (l : Lane)
  /-- COMB_CALIBRATION (R448): Every 10 s each source is trimmed against the etalon. -/
  | combCalibration (n : Fin 20) (ok : Bool)
  /-- MARGIN_SCAN (R449): A lane leaves service for a margin scan. -/
  | marginScan (e : Eng) (l : Lane)
  /-- LASER_FADING (R451): A source enters FADING and schedules a swap. -/
  | laserFading (n : Fin 20) (ber : Bool)
  /-- LASER_FAILING (R451): A source enters FAILING and a swap starts at once. -/
  | laserFailing (n : Fin 20) (ber : Bool)
  /-- FADING_SWAP_DUE (R451): A FADING swap falls due at a phase boundary or 60 s after entry. -/
  | fadingSwapDue (n : Fin 20)
  /-- SWAP_START (R452): A swap starts draining the affected port. -/
  | swapStart (n : Fin 20)
  /-- SWAP_SWITCH_DONE (R452): The switch moves to the spare and rings relock. -/
  | swapSwitchDone (e : Eng)
  /-- SWAP_CHECK_END (R452): The swap checks of the port's lanes end. -/
  | swapCheckEnd (e : Eng) (passed : BitVec 32)
  /-- SWAP_RETURN (R452): The swapped port exchanges state and enters service. -/
  | swapReturn (e : Eng)
  /-- LANE_RECHECK (R454): With no spare left, every lane is rechecked every 10 s. -/
  | laneRecheck (e : Eng) (passed : BitVec 32)
  /-- SWAP (R455): LAS_CTL.SWAP requests a swap of a source. -/
  | swap (n : Fin 20)
  /-- OPTICAL_ENABLE (R456): Firmware enables the optical subsystem and bring-up begins. -/
  | opticalEnable
  /-- OPTICAL_READY (R456): Engines report ready for discovery, ending start-up at READY. -/
  | opticalReady
  /-- TWN_LOAD (R460): TWN_CTL.LOAD validates and loads the shadow map. -/
  | twnLoad (ranges : BitVec 7)
  /-- EN (R471): TWN_CTL.EN switches shadowing, agreement and the update gate. -/
  | en (on : Bool)
  /-- MAP_EXCHANGE (R462): Twin shadow engines exchange map sizes and CRC when the path is up. -/
  | mapExchange (i : Nat) (l : Nat) (crc : BitVec 32)
  /-- SHADOW_BLOCK_SEND (R464): The shadow engine sends a dirty IMAGE or LOG block. -/
  | shadowBlockSend (k : ShadowKind)
  /-- SHADOW_BLOCK_ACK (R466): The twin acknowledges a shadow block, landing it in the non-current bank. -/
  | shadowBlockAck (m : ShadowMsg)
  /-- AGREEMENT_ARRIVE (R468): A module arrives at the agreement of a step. -/
  | agreementArrive
  /-- AGREEMENT_MESSAGE (R469): An agreement message of a row or column stage is counted. -/
  | agreementMessage (col : Bool) (j : Fin 64) (step : BitVec 32)
  /-- AGREEMENT_CLOSE (R470): The agreement closes: pending bits flip, a log slot frees and held writes are released. -/
  | agreementClose
  /-- FORCE (R473): TWN_CTL.FORCE closes the agreement of the recovery target. -/
  | force
  /-- TWIN_LOST (R475): A receiver declares its twin lost after 50 µs of silence or an unacknowledged shadow packet. -/
  | twinLost
  /-- RESTORE_TX (R476): TWN_CTL.RESTORE_TX sends the shadow as a restore. -/
  | restoreTx
  /-- RESTORE_RX (R476): TWN_CTL.RESTORE_RX receives a restore. -/
  | restoreRx
  /-- RESTORE_END (R476): A restore ends and the spare sets its update state and AGREED. -/
  | restoreEnd
  /-- WEIR_FLIT (R490): A weir flit is received and accepted, or discarded with a NAK. -/
  | weirFlit (d : Die) (link : Fin 42) (down : Bool) (flit : List Byte) (err : List (Nat × Byte))
  /-- WEIR_NAK (R490): A NAK makes the sender resend its unacknowledged flits. -/
  | weirNak (d : Die) (link : Fin 42) (down : Bool)
  /-- WEIR_LINK_FAIL (R491): A weir link fails on NAK, retry or silence counts and its die is lost. -/
  | weirLinkFail (d : Die) (link : Fin 42) (silent : Bool)
  /-- CLOCK_LOST (R497): The clock monitor sees no edge for 160 ns and the die is lost. -/
  | clockLost (d : Die)
  /-- DIE_LOSS_FENCE (R498): B marks a die LOST, fences its links and settles its work. -/
  | dieLossFence (d : Die)
  /-- DIE_LOST_NOTICE (R121): B posts DIE_LOST notices, sets DEGRADED and logs the loss. -/
  | dieLostNotice (d : Die)
  /-- RESET_ATTEMPT_START (R500): A die-local reset attempt starts. -/
  | resetAttemptStart (d : Die)
  /-- ATTEMPT_RESET_END (R500): The reset stage of an attempt ends. -/
  | attemptResetEnd (d : Die) (ok : Bool)
  /-- ATTEMPT_CLOCK_LOCK (R500): The die PLL locks in an attempt. -/
  | attemptClockLock (d : Die) (ok : Bool)
  /-- ATTEMPT_TRAIN_END (R500): Link training of an attempt ends. -/
  | attemptTrainEnd (d : Die) (failing : List (Fin 42))
  /-- ATTEMPT_CLEAR_END (R500): The SRAM clear of an attempt ends. -/
  | attemptClearEnd (d : Die) (ok : Bool)
  /-- ATTEMPT_SELF_TEST_END (R500): The self-test of an attempt ends against its signatures. -/
  | attemptSelfTestEnd (d : Die) (ok : Bool)
  /-- ATTEMPT_CHECK (R500): The Check stage passes to READY or fails to FAILED. -/
  | attemptCheck (d : Die) (stepping : BitVec 8) (features : BitVec 64)
  /-- RESET (R502): PKG_DIE_CTL.RESET loses an UP die or restarts a FAILED one. -/
  | reset (d : Die)
  /-- REF_LOST (R504): A missing reference for 1 µs switches the always-on domain and PLLs to the local oscillator. -/
  | refLost
  /-- REF_RESTORE (R504): A reference present for 10 ms switches clocks back and PCIe retrains. -/
  | refRestore
  /-- GATE_ENTRY (R507): A cluster enters GATE after 64 idle cycles. -/
  | gateEntry (c : Cluster)
  /-- NAP_ENTRY (R507): A cluster in GATE for NAP_AFTER_US enters NAP. -/
  | napEntry (c : Cluster)
  /-- WAKE_EVENT (R507): A wake event brings a cluster out of GATE or NAP. -/
  | wakeEvent (c : Cluster)
  /-- CLUSTER_WAKE_DONE (R509): A woken cluster's rail ramp ends and it runs its first cycle. -/
  | clusterWakeDone (c : Cluster)
  /-- REQ_OFF (R508): PKG_CLUSTER.REQ = 1 puts an idle cluster in OFF. -/
  | reqOff (c : Cluster)
  /-- REQ_LEAVE_OFF (R508): PKG_CLUSTER.REQ = 2 takes a cluster out of OFF. -/
  | reqLeaveOff (c : Cluster)
  /-- RAIL_TRIP (R513): A rail threshold crossed for 1 µs turns regulators off. -/
  | railTrip (mon : Fin 24) (kind : Fin 3) (reading : BitVec 32)
  /-- DVFS_DECIDE (R517): Every 100 µs the DVFS loop chooses each die's FCODE. -/
  | dvfsDecide (d : Die) (power : Nat) (tj tjMax : Int)
  /-- DVFS_PIN_WRITE (R516): A write of CLK_DVFS_PIN re-evaluates the die's FCODE. -/
  | dvfsPinWrite (d : Die) (value : BitVec 32)
  /-- FCODE_CHANGE_DONE (R515): A rail ramp and frequency change of an FCODE step completes. -/
  | fcodeChangeDone (d : Die)
  /-- TELEMETRY_COPY (R520): Every 100 µs sensor values are copied into their registers. -/
  | telemetryCopy (temps : List Int) (volts : List Nat) (currs : List Nat) (engines : List Nat) (stackTemps : List Int)
  /-- THERM_THROTTLE (R522): The thermal throttle lowers or raises a die's ceiling. -/
  | thermThrottle (d : Die) (tj : Int) (base : Int) (eng : Int) (stackA : Int) (stackB : Int)
  /-- THERM_GATE_ROTATION (R523): At ceiling 0 and 103 °C clusters gate in rotation. -/
  | thermGateRotation (d : Die) (tj : Int)
  /-- THERM_LIMIT (R524): At 105 °C every cluster of a die is held in GATE. -/
  | thermLimit (d : Die) (tj : Int)
  /-- THERM_TRIP (R524): At 115 °C regulators are turned off. -/
  | thermTrip (diode : Fin 40) (temp : Int)
  /-- STACK_REFRESH_CHANGE (R525): A stack at 85 °C doubles its refresh, or returns at 82 °C. -/
  | stackRefreshChange (k : Fin 8) (temp : Int)
  /-- BUCKET_UPDATE (R526): Every 1 µs the energy bucket and run timer are updated. -/
  | bucketUpdate (power : Nat)
  /-- RUN_TIMER_EXPIRY (R527): The run timer reaching 9.8 ms or an empty bucket starts ceiling lowering. -/
  | runTimerExpiry
  /-- CURR_CEILING_LOWER (R527): Every 50 µs curr_ceiling is lowered while power stays high. -/
  | currCeilingLower
  /-- RUN_TIMER_REMOVAL (R527): At 9.95 ms clusters begin removing clock pulses. -/
  | runTimerRemoval
  /-- CURR_CEILING_RAISE (R527): Every 1 ms curr_ceiling is raised while the bucket holds 1 J. -/
  | currCeilingRaise
  /-- FAST_PATH (R528): Input above 1,650 W removes one pulse in four. -/
  | fastPath
  /-- SLUICE_ESTIMATE (R529): Every 8 cycles Sluice estimates die current and sets pulse removal. -/
  | sluiceEstimate (d : Die) (issue : List (Nat × Nat)) (port : List Nat)
  /-- SLUICE_CALIBRATION (R529): Every 1 ms firmware recalibrates the Sluice current table. -/
  | sluiceCalibration (d : Die) (table : List Nat)
  /-- COUPLING_REFINE (R444): Every 1 s firmware refines the heater coupling model. -/
  | couplingRefine (model : List Nat)
  /-- DROOP_STRETCH (R531): A droop removes every second clock pulse of a cluster. -/
  | droopStretch (c : Cluster) (mv : Nat)
  /-- VIN_RANGE (R596): Input outside 48.0–59.5 V for 100 µs sets VIN_RANGE. -/
  | vinRange (mv : Nat)
  /-- VIN_SHUTDOWN (R596): Input beyond the shutdown limits turns regulators off and flash finishes its operations. -/
  | vinShutdown (mv : Nat)
  /-- VIN_LOSS (R596): Input below 40.0 V turns VAON off. -/
  | vinLoss
  /-- PWR_EN_RISE (R537): PWR_EN rises and start-up begins with VAON. -/
  | pwrEnRise (slot : Fin 64) (testEn : Bool)
  /-- VAON_READY (R537): VAON is in regulation and the always-on domain leaves reset. -/
  | vaonReady (ramp : Nat)
  /-- BOOT_BANK_SELECT (R545): The boot ROM selects, verifies and boots a firmware bank. -/
  | bootBankSelect
  /-- RAIL_SEQUENCE_DONE (R594): Every rail is in regulation and PWR_GOOD is released. -/
  | railSequenceDone
  /-- BASE_RESET_RELEASE (R537): B leaves reset, its PLL locks and die attempts and optics start. -/
  | baseResetRelease (stepping : BitVec 8) (present : BitVec 4)
  /-- MEMORY_TRAINING_DONE (R537): HBM4 and LPDDR-5X training completes. -/
  | memoryTrainingDone (ok : Bool)
  /-- STACKED_ZERO_DONE (R537): Stacked DRAM is written with zeros. -/
  | stackedZeroDone
  /-- STEPPING_CHECK (R494): Die attempts end and steppings are checked, possibly entering limited mode. -/
  | steppingCheck
  /-- FTL_REBUILD_DONE (R537): The flash translation layer is rebuilt from metadata. -/
  | ftlRebuildDone (excluded : Fin 17)
  /-- LPDDR_ZERO_DONE (R538): LPDDR is written with zeros and the staging window opens. -/
  | lpddrZeroDone
  /-- PWR_EN_FALL (R595): PWR_EN falls and clusters are forced to GATE. -/
  | pwrEnFall
  /-- RAILS_OFF (R595): Rails are off in reverse order during power-down. -/
  | railsOff
  /-- VAON_OFF (R595): VAON turns off and the module is unpowered. -/
  | vaonOff
  /-- MOD_RST_N_ASSERT (R592): MOD_RST_N low turns every rail but VAON off. -/
  | modRstNAssert
  /-- MOD_RST_N_DEASSERT (R592): MOD_RST_N deasserts and start-up runs, sampling straps. -/
  | modRstNDeassert (slot : Fin 64) (testEn : Bool)
  /-- TEST_EN_RISE (R591): TEST_EN rises after READY and the module enters test mode. -/
  | testEnRise
  /-- PERST_N (R556): PERST_N resets only the PCIe endpoint. -/
  | perstN (low : Bool)
  /-- FUNCTION_LEVEL_RESET (R556): Function Level Reset resets only the PCIe endpoint. -/
  | functionLevelReset
  /-- HOST_STAGING_WRITE (R558): A host posted write through the staging window enters LPDDR. -/
  | hostStagingWrite (off : BitVec 36) (data : List (BitVec 8))
  /-- HOST_STAGING_READ (R558): A host read through the staging window returns data or a poisoned completion. -/
  | hostStagingRead (off : BitVec 36) (n : Fin 4097)
  /-- HST_STAGE_WRITE (R557): A write of HST_STAGE.QUAD moves the staging window or is rejected. -/
  | hstStageWrite (v : BitVec 32)
  /-- STR_SPLIT_WRITE (R273): A write of TILE_STR_SPLIT sets the port shares or is rejected. -/
  | strSplitWrite (t : Tid) (v : BitVec 32)
  /-- DB_SLOT_RING (R561): A doorbell slot ring posts its request from the host doorbell. -/
  | dbSlotRing (n : Fin 512)
  /-- DB_SLOT_DONE (R561): A slot's request completes, writing REPLY and setting DONE. -/
  | dbSlotDone (n : Fin 512)
  /-- MSIX_UNMASK (R565): Unmasking the MSI-X vector sends a pending message if the condition holds. -/
  | msixUnmask
  /-- MCTP_CONTROL (R569): An MCTP control message is answered. -/
  | mctpControl (via : Via) (c : MctpCtl)
  /-- DYNAMIC_ADDRESS (R568): The I3C controller assigns a dynamic address by ENTDAA. -/
  | dynamicAddress (addr : BitVec 7) (ibi : Bool)
  /-- GET_SUMMARY (R569): Vendor command returning summary registers. -/
  | getSummary (via : Via)
  /-- READ_CSR (R569): Vendor command reading a CSR. -/
  | readCsr (via : Via) (off : BitVec 32) (width : BitVec 8)
  /-- WRITE_CSR (R569): Vendor command writing a CSR with host rights. -/
  | writeCsr (via : Via) (off : BitVec 32) (width : BitVec 8) (v : Word)
  /-- READ_LOG (R569): Vendor command returning log records. -/
  | readLog (via : Via) (first : BitVec 32) (n : BitVec 8)
  /-- FW_WRITE (R569): Vendor command writing firmware image bytes to the staging window or bank 0. -/
  | fwWrite (via : Via) (off : BitVec 32) (data : List (BitVec 8))
  /-- FW_LOAD (R571): Vendor command acting as PM_FW_CTL.LOAD, or verifying bank 0 in recovery. -/
  | fwLoad (via : Via)
  /-- GET_VERSION (R548): SPDM GET_VERSION request. -/
  | getVersion (via : SpdmVia)
  /-- GET_CAPABILITIES (R548): SPDM GET_CAPABILITIES request. -/
  | getCapabilities (via : SpdmVia)
  /-- NEGOTIATE_ALGORITHMS (R548): SPDM NEGOTIATE_ALGORITHMS request. -/
  | negotiateAlgorithms (via : SpdmVia) (asym : BitVec 32) (hash : BitVec 32)
  /-- GET_DIGESTS (R548): SPDM GET_DIGESTS request. -/
  | getDigests (via : SpdmVia)
  /-- GET_CERTIFICATE (R548): SPDM GET_CERTIFICATE request. -/
  | getCertificate (via : SpdmVia) (slot : BitVec 8) (off : BitVec 16) (len : BitVec 16)
  /-- CHALLENGE (R548): SPDM CHALLENGE request. -/
  | challenge (via : SpdmVia) (slot : BitVec 8)
  /-- GET_MEASUREMENTS (R549): SPDM GET_MEASUREMENTS request. -/
  | getMeasurements (via : SpdmVia) (op : BitVec 8) (sig : Bool)
  /-- PM_FW_LOAD (R546): PM_FW_CTL.LOAD starts staging a firmware image. -/
  | pmFwLoad
  /-- FW_VERIFY_DONE (R546): Verification of a staged image ends and erase begins or the load fails. -/
  | fwVerifyDone
  /-- FW_ERASE_DONE (R546): Erase of the inactive bank ends and programming begins. -/
  | fwEraseDone (ok : Bool)
  /-- FW_PROGRAM_DONE (R546): Programming ends and readback begins. -/
  | fwProgramDone (ok : Bool)
  /-- FW_READBACK_DONE (R546): Readback matches DIGEST and the image is STAGED. -/
  | fwReadbackDone (ok : Bool)
  /-- ACTIVATE (R546): PM_FW_CTL.ACTIVATE sets the trial bank and restarts the Postmaster. -/
  | activate (pc : BitVec 32)
  /-- FW_COMMIT (R546): PM_FW_CTL.COMMIT makes the trial bank active and raises the rollback counter. -/
  | fwCommit
  /-- TRIAL_AUTO_COMMIT (R546): Trial firmware commits itself after 60 s without restart. -/
  | trialAutoCommit
  /-- WATCHDOG (R535): The watchdog expires after 1 s and restarts the Postmaster. -/
  | watchdog (pc : BitVec 32)
  /-- POSTMASTER_RESTART (R547): The Postmaster core and SRAM reset except the log buffer. -/
  | postmasterRestart (sram : Bool) (pc : BitVec 32)
  /-- FIRMWARE_RESUME (R547): Firmware runs again, logs PM_RESTART and resumes paused work. -/
  | firmwareResume
  /-- LOG_RECORD_WRITE (R540): Firmware converts a queued event into a log record in the buffer. -/
  | logRecordWrite
  /-- LOG_PERSIST (R543): Firmware appends buffered records to the NOR log area, erasing blocks as needed. -/
  | logPersist (n : Nat)
  /-- PM_LOG_SEL (R552): A write of PM_LOG_SEL selects a record. -/
  | pmLogSel (seq : BitVec 32)
  /-- LOG_SEL_DATA_READY (R552): The selected record's data becomes valid 20 µs after selection. -/
  | logSelDataReady
  /-- SNAP (R578): OBS_CTL.SNAP copies every enabled selector's register. -/
  | snap
  /-- SNAP_DONE (R578): The snapshot copy completes and SNAP_BUSY clears. -/
  | snapDone
  /-- TRACE_START (R579): TRACE_EN rising validates the ring and starts a session. -/
  | traceStart
  /-- TRACE_STOP (R579): TRACE_EN cleared stops new records. -/
  | traceStop
  /-- TRACE_DRAIN_DONE (R579): The staging SRAM drains and ACTIVE reads 0. -/
  | traceDrainDone
  /-- SAMPLER_FIRE (R577): The sampler writes SAMPLE records for every enabled selector. -/
  | samplerFire
  /-- TRACE_RECORD_WRITE (R580): The trace unit writes a record into the ring or drops it. -/
  | traceRecordWrite
  /-- OBS_TRACE_SEL (R582): A write of OBS_TRACE_SEL selects a trace record. -/
  | obsTraceSel (seq : BitVec 32)
  /-- OBS_TRACE_READ (R582): A write of OBS_TRACE_READ releases records below a SEQ. -/
  | obsTraceRead (seq : BitVec 32)
  /-- ACC_IMAGE_TRANSFER_DONE (R146): The memory transfer of an MSAVE, MMERGE or MRESTORE completes, its data visible or loaded, and its signal is applied. -/
  | accImageTransferDone (t : Tid) (ue : Bool)
  /-- VECTOR_STORE_VISIBLE (R89): The stores of a VST to device memory become visible at B and the instruction's signal is applied. -/
  | vectorStoreVisible (t : Tid) (i : Nat)
  /-- QUAD_MODE_CHANGE_DONE (R281): After the Eddy write-back and outstanding requests of a quad finish, the new mode applies and waiting requests proceed. -/
  | quadModeChangeDone (q : Fin 34)
  /-- MARGIN_SCAN_END (R449): A lane's margin scan of at most 20 µs ends and the lane returns to service or is marked MARGIN_FAIL. -/
  | marginScanEnd (e : Eng) (l : Lane) (ok : Bool)
  /-- TRACE_SEL_DATA_READY (R582): The trace record selected by OBS_TRACE_SEL becomes valid in OBS_TRACE_DATA 20 µs after the write. -/
  | traceSelDataReady
  /-- VIN_APPLY (R593): VIN appears or returns at J1 and the input limiter charges the input capacitance at 1 V/ms. -/
  | vinApply
  /-- BOUNDARY_SCAN_TCK (R591): A TCK edge in boundary-scan mode advances the IEEE 1149.1 TAP and drives TDO. -/
  | boundaryScanTck (tms : TestIn) (tdi : Bool)
  /-- ACK_BATCH_SEND (R407): The destination endpoint sends a batched end-to-end ACK at most 1 µs after the packets it covers. -/
  | ackBatchSend (dest : Nat)
  /-- LASER_DRIVE_ADJUST (R450): Every 1 ms each source's drive loop adjusts its drive current to hold delivered line power at P0. -/
  | laserDriveAdjust (n : Fin 20) (power : BitVec 16) (drive : Fin 101)
deriving DecidableEq, Repr

end Sys2Proof
end

