-- ==== Sys2Proof/Decode.lean ====
section
/-!
DEFINITION. The command that a word spells by the table's bits. Every row of spec/opcode_table.json gives no bits: the module
takes commands, not words, and its Dakor instruction words are data of its queues (Sys2Proof.Machine.Dakor reads them).
-/
namespace Sys2Proof

/-- No row of the table gives bits, so no word spells a command. -/
def decodeTableWord (_nbits _w : Nat) : Option Instr := none

end Sys2Proof
end

