-- ==== Sys2Proof/Config.lean ====
section
/-!
DEFINITION. What one implementation fixes and the spec leaves open: the free values (opaque constants with no body) that
stand where the spec says a value is undefined or states none, and the fixed identity of the module where the spec says
only that it has one (assumption log 1).
-/
namespace Sys2Proof

/-- A fresh undefined byte, by the counter of State. -/
opaque Config.freeByte : Nat → BitVec 8

/-- A fresh undefined 64-bit value, by the counter of State. -/
opaque Config.freeWord : Nat → BitVec 64

/-- A fresh undefined choice, by the counter of State. -/
opaque Config.freeBool : Nat → Bool

/-- R259: how long after its start a transfer's segment is stamped at the stream port, by tile, transfer number and device address. The
spec gives no time for a memory access. -/
opaque Config.portDelay : Nat → Nat → Nat → Nat

/-- The module's serial number in its fuses (R535, OPT_SERIAL). -/
opaque Config.serial : Nat

/-- The heater feed-forward of an engine by the coupling model, for the currents and the rail voltages of the four compute dies (R444). -/
opaque Config.feedForward : List Nat → List (Nat × Nat) → Nat → Nat

/-- The 31 bits at which the PRBS31 of a lane check begins (R452). -/
opaque Config.prbsSeed : Nat

/-- The commissioned line power P0 of Wellspring source n, held in the calibration of the NOR device (R450, R536). -/
opaque Config.sourceP0 : Nat → Nat

/-- What the manufacture put into the calibration area (R536): the coupling model of R444, the Sluice table of die d, and the ring heater
maps and diode offsets. -/
opaque Config.coupling : List Nat
opaque Config.sluiceTable : Nat → List Nat
opaque Config.calibration : List Nat

/-- The device identity seed in the fuses (R535), from which the module identity key derives (R548). -/
opaque Config.identitySeed : Nat

/-- Bits [47:6] of the 48-bit I3C provisional ID (R568). -/
opaque Config.provisionalId : Nat

/-- The lengths of the JTAG instruction register beyond its two least bits and of the boundary register (R591, IEEE 1149.1). -/
opaque Config.irMore : Nat
opaque Config.boundaryCells : Nat

/-- The 48-byte public-key hash in fuse slot k (R535). -/
opaque Config.keyHash : Nat → List (BitVec 8)

/-- Header fields of the firmware that the manufacture put into bank 0 (R544): VERSION, SVN, KEY. -/
opaque Config.factoryVersion : Nat
opaque Config.factorySvn : Nat
opaque Config.factoryKey : Nat

/-- The digest reported for measurement block i over contents whose bytes the spec does not lay out (R549). -/
opaque Config.measure : Nat → List Nat → List (BitVec 8)

/-- The certificate chain of slot 0 for an identity seed and the firmware with a measurement (R548). -/
opaque Config.certChain : Nat → List (BitVec 8) → List (BitVec 8)

/-- The Woand enterprise number of MCTP vendor-defined messages (R569). -/
opaque Config.enterprise : Nat

/-- Which unit's message a flit carries: the die-local number of its tile, and whether it is one of the stream port. The spec does not lay out
MSG (R487). -/
opaque Config.flitUnit : List (BitVec 8) → Nat × Bool

/-- The setpoint in µV of a rail of R512 that its table leaves to JEDEC standards, and the budget current in 0.1 A of a rail, by voltage monitor
(R513). -/
opaque Config.railSetpoint : Nat → Nat
opaque Config.railBudget : Nat → Nat

/-- The current in mA of one cluster by Sluice's table, for its matrix issue, vector issue and stream port weights (R529). -/
opaque Config.sluiceCurrent : List Nat → Nat → Nat → Nat → Nat

/-- The errata mask that firmware holds for a stepping (R495). -/
opaque Config.errata : Nat → Nat

end Sys2Proof
end

