-- ==== Sys2Proof/Machine/EventTypes.lean ====
section
/-!
DEFINITION. Events that the blocks post: hardware events for the log (R540), trace records (R575), and the messages that
the device itself sends to a pigeonhole (R397).
-/
namespace Sys2Proof.Machine

/-- An event in the event queue of R535, or a record before it has its SEQ (R540, R541). -/
structure LogEvent where
  time : Nat
  status : Nat
  sev : Nat
  synced : Bool
  hw : Bool
  source : Nat
  arg0 : Nat
  inst : Nat
  arg1 : Nat
deriving DecidableEq, Repr

/-- A log record with its SEQ (R540). -/
structure LogRec where
  seq : Nat
  ev : LogEvent
deriving DecidableEq, Repr

/-- A trace record before it has its SEQ (R575, R576). -/
structure TraceRec where
  time : Nat
  typ : Nat
  synced : Bool
  inst : Nat
  arg0 : Nat
  arg1 : Nat
deriving DecidableEq, Repr

/-- A message that the device sends itself (R397): its pigeonhole, class and 32-byte inline payload. -/
structure DevMsg where
  ph : Nat
  cls : Nat
  inline : List Byte
deriving DecidableEq, Repr

end Sys2Proof.Machine
end

