-- ==== Sys2Proof/Machine/MemTypes.lean ====
section
/-!
DEFINITION. What device memory and its protection hold (spec 08): bytes, stored errors of the symbol code, the queue of
corrective writes, the recent corrections of each controller, and the Eddy cache's lines.
-/
namespace Sys2Proof.Machine

/-- The outcome of decoding an access unit (R291). -/
inductive UnitOutcome where
  | clean | corrected | poisoned | uncorrectable
deriving DecidableEq, Repr

/-- A line held by an Eddy slice (R282 to R286): its address, retention, dirtiness, use stamp; and `bad`, the error pattern that each of its units
was fetched or written with, by unit of the line, where that pattern is uncorrectable or the poison pattern (R293). -/
structure EddyLine where
  line : Nat
  keep : Bool
  victim : Bool
  dirty : Bool
  bad : SMap (SMap Nat)
  used : Nat
deriving DecidableEq, Repr

/-- A scrubber's passes (R298 to R300): the instant the last one began, the period that it took over then, in nanoseconds, and whether it is
still under way. -/
structure ScrubPass where
  start : Nat
  period : Nat
  running : Bool
deriving DecidableEq, Repr

/-- The passes after reset: one begins at once, with a period in seconds. -/
def ScrubPass.reset (seconds : Nat) : ScrubPass := ⟨0, seconds * 10 ^ 9, true⟩

/-- The scrubber is to read a word at `now`: a pass is under way, or the next one is due. -/
def ScrubPass.due (p : ScrubPass) (now : Nat) : Bool := p.running || decide (p.start + p.period ≤ now)

/-- The passes after that word: a pass that begins takes the period in force over, and `last` ends one. -/
def ScrubPass.next (p : ScrubPass) (now seconds : Nat) (last : Bool) : ScrubPass :=
  if p.running then { p with running := !last } else ⟨now, seconds * 10 ^ 9, !last⟩

/-- Device memory. `bytes` is what a correct read returns, by device address; an unlisted byte reads 0 (R537: the rows
that write zeros), or in a quad listed in `undef` a free value, since a mode change left its contents undefined (R281). `err` is the error that the stored codeword of a unit carries, by unit number (address / 64): pairs
of code symbol and XOR pattern (R290). `net` is the error that the next transfer of a unit's data over the B network suffers in a word, by unit
(R297), and `dram` and `sram` are the passes of B's scrubbers. -/
structure Mem where
  bytes : List Host.Cell
  undef : SMap Nat
  err : SMap (SMap Nat)
  corrective : List Nat
  recent : SMap (List (Nat × Bool))
  eddy : List EddyLine
  eddyTick : Nat
  quadChange : List (Nat × Nat × Nat)
  ready : Bool
  lpddrReady : Bool
  net : SMap (BitVec 39)
  dram : ScrubPass
  sram : ScrubPass
deriving DecidableEq, Repr

def Mem.reset : Mem := ⟨[], [], [], [], [], [], 0, [], false, false, [], .reset 28800, .reset 10⟩

end Sys2Proof.Machine
end

