-- ==== Sys2Proof/Machine/PhaseTypes.lean ====
section
/-!
DEFINITION. Phases and map tables (spec 06 R205 to R208) as the MAP_TABLES section of the last accepted image gives them.
-/
namespace Sys2Proof.Machine

/-- A phase entry (R206). -/
structure PhaseEntry where
  kind : Nat
  map : Nat
  barrier : Nat
  next : Nat
  alt : Nat
  every : Nat
  hold : Bool
deriving DecidableEq, Repr

/-- Phases, and map tables of 512 lane bytes each (R205, R208). -/
structure Phases where
  entries : List PhaseEntry
  tables : List (List Nat)
deriving DecidableEq, Repr

def Phases.reset : Phases := ⟨[], []⟩

end Sys2Proof.Machine
end

