-- ==== Sys2Proof/Machine/PkgTypes.lean ====
section
/-!
DEFINITION. What the package holds besides its registers (spec 15): the link layer of the weir links, the loss and the reset
attempts of the dies, and the clock controllers of the clusters. Plain data only.
-/
namespace Sys2Proof.Machine

/-- One direction of a weir link (R487 to R491): the sender's next SEQ, its unacknowledged flits with their SEQ (the replay buffer), the SEQs that a
NAK makes it resend, in order, and its credits by VC; the receiver's expected SEQ, whether it discards until that SEQ arrives, whether a NAK
must still reach the sender, the buffers by VC whose credit it has not returned, and the instant of its last flit with a good CRC; and of the
NAKs that the sender received: the SEQ and length of the last run, and the instants of the retries of the last 1 ms. -/
structure WeirDir where
  next : Nat
  unacked : List (Nat × List Byte)
  resend : List Nat
  credit : List Nat
  expect : Nat
  naking : Bool
  nakDue : Bool
  owed : List Nat
  goodAt : Nat
  nakSeq : Nat
  nakRun : Nat
  retries : List Nat
deriving DecidableEq, Repr

/-- A direction after training: credits are the receive buffers of R489. -/
def WeirDir.start : WeirDir := ⟨0, [], [], [16, 16, 8, 4, 4], 0, false, false, [0, 0, 0, 0, 0], 0, 0, 0, []⟩

/-- The stages of a reset attempt (R500). -/
inductive Stage where
  | reset | clock | train | clear | selfTest | check
deriving DecidableEq, Repr

/-- One compute die: whether its loss was fenced and notified, the tiles whose tasks ran on it, the running attempt's start and
stage, LOCKED when its loss was detected, the instant from which the next attempt may start, and the clusters that were woken from NAP or OFF with the instant of
their wake event and the start of their ramp, and the first ramp slot that is free after finished wakes (R509); whether its regulator
is off (R513), the links that the spares 40 and 41 replace since the last training (R485, R500), since when it is UP, and the passes of its scrubber (R298). -/
structure DieRt where
  fenced : Bool
  ran : Option (List Nat)
  sync : Bool
  attempt : Option (Nat × Stage)
  due : Option Nat
  wakes : List (Nat × Nat × Nat)
  slotFree : Nat
  railOff : Bool
  spares : List (Option Nat)
  upAt : Nat
  scrub : ScrubPass
deriving DecidableEq, Repr

def DieRt.start : DieRt := ⟨false, none, false, none, none, [], 0, false, [none, none], 0, .reset 10⟩

/-- One cluster: since when it is in GATE, the tiles whose task begins when it has woken (R508), and whether a thermal loop or
the power-down holds it in GATE (R523, R524, R595), the thermal loops among these (R519), and whether it runs when the hold ends; the
consecutive tile cycles in which all its tiles were idle (R507); since when its droop detector removes pulses (R531). -/
structure ClusterRt where
  since : Nat
  starts : List Nat
  forced : Bool
  byLoop : Bool
  woken : Bool
  idle : Nat
  droop : Option Nat
deriving DecidableEq, Repr

def ClusterRt.start : ClusterRt := ⟨0, [], false, false, false, 0, none⟩

/-- The package: dies by number, clusters by number, weir directions by 84 · die + 2 · link + (1 for B to die). -/
structure PkgSt where
  dies : SMap DieRt
  clusters : SMap ClusterRt
  weir : SMap WeirDir
deriving DecidableEq, Repr

def PkgSt.reset : PkgSt := ⟨[], [], []⟩

end Sys2Proof.Machine
end

