-- ==== Sys2Proof/Machine/PmTypes.lean ====
section
/-!
DEFINITION. What the Postmaster, the module's power and pins, the host interface and the trace unit hold (spec 17 to 20). Plain
data only.
-/
namespace Sys2Proof.Machine

/-- The contents of a firmware bank (R544): the image of the manufacture, whose bytes the spec does not give, or bytes that
were programmed; nothing where it was erased. -/
inductive FwBank where
  | factory
  | bytes (l : List Byte)
deriving DecidableEq, Repr

/-- A copy of the bank selector (R545): its 32-bit sequence number, ACTIVE, TRIAL, TRIALS, and whether its CRC-32 holds. -/
structure SelCopy where
  seq : Nat
  active : Nat
  trial : Option Nat
  trials : Nat
  valid : Bool
deriving DecidableEq, Repr

/-- A copy of the module settings block (R536): its sequence number, PORT_SPLIT, and whether its CRC-32 holds. -/
structure SetCopy where
  seq : Nat
  split : Nat
  valid : Bool
deriving DecidableEq, Repr

/-- The NOR device (R536): the banks, both copies of the selector and of the settings, the records of the log area in order with the
number ever appended (R543), and of the calibration area the coupling model (R444) and the Sluice table of each die (R529), none while they are
as at manufacture. The rest of that area, which nothing in the module rewrites, is of the manufacture: Config.calibration and Config.sourceP0. -/
structure Nor where
  bank0 : FwBank
  bank1 : FwBank
  sel0 : SelCopy
  sel1 : SelCopy
  set0 : SetCopy
  set1 : SetCopy
  log : List LogRec
  appended : Nat
  coupling : Option (List Nat)
  sluice : SMap (Option (List Nat))
deriving DecidableEq, Repr

/-- The NOR device as manufactured: bank 0 active, a settings block that was never written, an empty log area. -/
def Nor.factory : Nor :=
  ⟨.factory, .bytes [], ⟨1, 0, none, 0, true⟩, ⟨0, 0, none, 0, true⟩, ⟨0, 0, false⟩, ⟨0, 0, false⟩, [], 0, none, []⟩

/-- What the boot ROM runs for: a start-up, or a Postmaster restart with its cause (R541 PM_RESTART) and the PC. -/
inductive Rom where
  | idle
  | cold
  | restart (cause pc : Nat)
deriving DecidableEq, Repr

/-- The firmware operation under way (R546): the image read from the window, and whether a unit of it was bad (R293). -/
structure FwJob where
  image : List Byte
  poison : Bool
deriving DecidableEq, Repr

/-- States of the JTAG test access port (IEEE 1149.1). -/
inductive Tap where
  | testLogicReset | runTestIdle | selectDr | captureDr | shiftDr | exit1Dr | pauseDr | exit2Dr | updateDr
  | selectIr | captureIr | shiftIr | exit1Ir | pauseIr | exit2Ir | updateIr
deriving DecidableEq, Repr

/-- The JTAG port (R591): the controller's state, the instruction in force, the stage that shifts, the boundary cells' output latches, and
TDO, none while it is at high impedance. -/
structure Jtag where
  tap : Tap
  ir : List Bool
  shift : List Bool
  cells : List Bool
  tdo : Option Bool
deriving DecidableEq, Repr

def Jtag.reset : Jtag := ⟨.testLogicReset, [], [], [], none⟩

/-- The module's input, pins and straps (R589 to R596). `rst` is MOD_RST_N low, `perst` PERST_N low, `slot` the
sampled SLOT_ID, `again` the straps of a rise of PWR_EN that waits for the end of a power-down; `aon` says that the always-on domain is out of reset, `rails` that the other rails are on,
`good` that every regulator of the module apart from those of single dies is in regulation, `down` that the power-down of R595 runs. -/
structure Pins where
  vin : Bool
  pwrEn : Bool
  rst : Bool
  perst : Bool
  slot : Nat
  again : Option (Nat × Bool)
  aon : Bool
  rails : Bool
  good : Bool
  down : Bool
  scan : Bool
  test : Bool
  jtag : Jtag
deriving DecidableEq, Repr

def Pins.reset : Pins := ⟨false, false, false, false, 0, none, false, false, false, false, false, false, .reset⟩

/-- Progress of start-up (R537): the time from t0 to the start of the timebase, the timebase at which it began, the SEQ of the last
record persisted before it, the STAGE in which the Postmaster halted, whether a rail tripped in start-up, the dies that answered (bit d), and the rows
that have completed. -/
structure Boot where
  ramp : Nat
  from_ : Nat
  lastSeq : Option Nat
  held : Nat
  tripped : Bool
  present : Nat
  trained : Bool
  stacked : Bool
  checked : Bool
  ftl : Bool
  lpddr : Bool
  optics : Bool
deriving DecidableEq, Repr

def Boot.start : Boot := ⟨0, 0, none, 0, false, 0, false, false, false, false, false, false⟩

/-- The Postmaster (spec 17). `evq` is the event queue, `buf` the log buffer oldest first, `saved` the SEQ below which every record is
persisted; `dropN` and `lostN` count losses since the last LOG_OVERFLOW record, `persists` the recent appends (instant, records);
`chosen` the bank that the boot ROM chose; `fwFrom` when firmware last began to run; `spdm` the SPDM exchange: 0 none, 1 version, 2
capabilities, 3 algorithms; `eid` the MCTP endpoint ID, `i3c` the dynamic address; `recovery` says that FW_WRITE has erased
bank 0. -/
structure Pm where
  pins : Pins
  boot : Boot
  rom : Rom
  chosen : Option Nat
  evq : List LogEvent
  buf : List LogRec
  nextSeq : Nat
  saved : Nat
  dropN : Nat
  lostN : Nat
  persists : List (Nat × Nat)
  selAt : Option Nat
  nor : Nor
  revoked : Nat
  rollback : Nat
  job : Option FwJob
  fwFrom : Nat
  spdm : Nat
  eid : Nat
  i3c : Option Nat
  recovery : Bool
  couplingAt : Option Nat
  splitDue : Bool
  /-- When the bank selector was last written: a power loss at that instant comes during the write (R545). -/
  selWrote : Option Nat
  /-- Nanoseconds since the last 25 MHz edge, and how many of them the timebase has counted (R505). -/
  edge : Nat
  frac : Nat
  /-- VERSION of the firmware that R545 step 2 gave up, until firmware runs and logs it. -/
  rolled : Option Nat
deriving DecidableEq, Repr

def Pm.reset : Pm :=
  { pins := .reset, boot := .start, rom := .idle, chosen := none, evq := [], buf := [], nextSeq := 0, saved := 0, dropN := 0, lostN := 0, persists := [],
    selAt := none, nor := .factory, revoked := 0, rollback := 0, job := none, fwFrom := 0, spdm := 0, eid := 0, i3c := none,
    recovery := false, couplingAt := none, splitDue := false, selWrote := none, edge := 0, frac := 0, rolled := none }

/-- The host interface (spec 18): the MSI-X table entry and its pending bit, in-band interrupts enabled, the PCIe link, and the slots. -/
structure HostIf where
  msixAddr : Nat
  msixData : Nat
  msixMask : Bool
  msixPend : Bool
  ibi : Bool
  /-- The PCIe link is up and the endpoint completes requests (R538, R600); the lanes and the generation (1 for 2.5 to 6 for 64 GT/s) to which
  it last trained (R553). -/
  link : Bool
  lanes : Nat
  gen : Nat
  /-- REQ and REPLY of each doorbell slot as 32-byte numbers, and the replies of completed requests that DB_SLOT_DONE has
  still to deliver (R560, R561). -/
  slotReq : SMap Nat
  slotReply : SMap Nat
  slotDone : List (Nat × List Byte)
deriving DecidableEq, Repr

def HostIf.reset : HostIf := ⟨0, 0, true, false, false, false, 0, 0, [], [], []⟩

/-- The trace unit and the snapshot (spec 19): whether a session runs or drains, the staging SRAM, records dropped since the last LOST
record, the next SEQ of the session, the instants of the running snapshot, of the selection, of the sampler's last firing and of the last write of the ring. -/
structure Obs where
  active : Bool
  stage : List TraceRec
  dropped : Nat
  nextSeq : Nat
  snapAt : Option Nat
  selAt : Option Nat
  firedAt : Option Nat
  wroteAt : Option Nat
deriving DecidableEq, Repr

def Obs.reset : Obs := ⟨false, [], 0, 0, none, none, none, none⟩

end Sys2Proof.Machine
end

