-- ==== Sys2Proof/Machine/PwrTypes.lean ====
section
/-!
DEFINITION. What the power, thermal and adaptive loops hold besides their registers (spec 16). Plain data only.
-/
namespace Sys2Proof.Machine

/-- The loops of one die: the voltage of its rail in µV (R514, R515); DVFS (its last decision, the SLEEP cycles and all cycles of the die's tiles
since then and in each of the up to ten periods before, newest first, its last raise), the
thermal throttle (its last lowering and raising), the rotation of R523 (cluster in its slot, start of the slot), the hold of
R524, Sluice's removal in 16 pulses, its estimate in mA and that estimate's instant, and the instant of the last calibration of its table. -/
structure DieLoop where
  uv : Nat
  dvfsAt : Option Nat
  sleepN : Nat
  cycN : Nat
  window : List (Nat × Nat)
  raisedAt : Option Nat
  lowerAt : Option Nat
  raiseAt : Option Nat
  rot : Option (Nat × Nat)
  limit : Bool
  sluice : Nat
  current : Nat
  currentAt : Nat
  tableAt : Option Nat
deriving DecidableEq, Repr

def DieLoop.start : DieLoop := ⟨0, none, 0, 0, [], none, none, none, none, false, 0, 0, 0, none⟩

/-- An override episode (R519): loop (0 thermal throttle, 1 current limit, 2 forced GATE), object (die or cluster), and since when
the loop has left the object at its pinned value. -/
structure Episode where
  loop : Nat
  obj : Nat
  leftAt : Option Nat
deriving DecidableEq, Repr

/-- The loops. `bucket` is in nJ, `run` the run timer in µs, `power` the 1 µs means of input power in mW, newest first, of the last
1 ms; `removal` and `quiet` are the run-timer removal and the µs since power fell, `fast` and `fastQuiet` those of the fast path;
`hot` are the stacks with doubled refresh. -/
structure PwrSt where
  bucket : Nat
  run : Nat
  power : List Nat
  bucketAt : Option Nat
  lowering : Bool
  curLowerAt : Option Nat
  curRaiseAt : Option Nat
  removal : Nat
  quiet : Nat
  fast : Bool
  fastQuiet : Nat
  dies : SMap DieLoop
  eps : List Episode
  teleAt : Option Nat
  hot : List Nat
deriving DecidableEq, Repr

/-- The bucket is full (R526). -/
def PwrSt.reset : PwrSt := ⟨2000000000, 0, [], none, false, none, none, 0, 0, false, 0, [], [], none, []⟩

end Sys2Proof.Machine
end

