-- ==== Sys2Proof/Machine/Map.lean ====
section
/-!
DEFINITION. Reading and writing the sparse tables of State. Every table has a default function `d`: what an unlisted
key reads as. A write of the default removes the entry, so that equal tables are equal lists.
-/
namespace Sys2Proof.Machine

/-- What key `k` holds in `m`; an unlisted key holds its default. -/
def mget {V : Type} (d : Nat → V) : SMap V → Nat → V
  | [], k => d k
  | (j, v) :: r, k => if j = k then v else mget d r k

/-- Enter `v` at `k`, in rising key order, replacing what stood there. -/
def mins {V : Type} : SMap V → Nat → V → SMap V
  | [], k, v => [(k, v)]
  | (j, w) :: r, k, v =>
    if j < k then (j, w) :: mins r k v
    else if j = k then (k, v) :: r
    else (k, v) :: (j, w) :: r

/-- Remove every entry at `k`. -/
def mdel {V : Type} : SMap V → Nat → SMap V
  | [], _ => []
  | (j, w) :: r, k => if j = k then mdel r k else (j, w) :: mdel r k

/-- Write `v` at `k`: the default is not listed. -/
def mset {V : Type} [DecidableEq V] (d : Nat → V) (m : SMap V) (k : Nat) (v : V) : SMap V :=
  if v = d k then mdel m k else mins m k v

/-- Remove every entry whose key satisfies `p` (a reset of those keys to their defaults). -/
def mclear {V : Type} (p : Nat → Bool) (m : SMap V) : SMap V :=
  m.filter fun kv => !p kv.1

/-- Keys strictly rising. -/
def msorted {V : Type} : SMap V → Bool
  | [] => true
  | [_] => true
  | (j, _) :: (k, w) :: r => decide (j < k) && msorted ((k, w) :: r)

/-- The canonical form: keys strictly rising, no entry equal to its default. -/
def mwf {V : Type} [DecidableEq V] (d : Nat → V) (m : SMap V) : Bool :=
  msorted m && m.all fun kv => decide (kv.2 ≠ d kv.1)

end Sys2Proof.Machine
end

