-- ==== Sys2Proof/Machine/Regs.lean ====
section
/-!
DEFINITION. The register map: every register of the CSR window (BAR 0) and of the doorbell window (BAR 2, placed here at
0x400_0000, above the 64 MiB CSR window) with its offset, width, fields, access types and reset values, as the register
tables of spec chapters 03 to 19 give them (R11 to R16, R40 to R42); and one accessor for each named field.
A reset column of `live` stands as 0 here.
-/
namespace Sys2Proof.Machine

/-- The access types of R13; `rsv` is a reserved field of R14. -/
inductive Access where
  | ro | rw | w1c | rwl | wo | rc | rsv
deriving DecidableEq, Repr

/-- One field of a register: its bits, access type and reset value. -/
structure FieldDef where
  name : String
  hi : Nat
  lo : Nat
  access : Access
  reset : Nat
deriving DecidableEq, Repr

/-- A register, or an array of registers with two strides: offset base + s1·i + s2·j for i < n1 and j < n2. -/
structure RegDef where
  name : String
  base : Nat
  s1 : Nat
  n1 : Nat
  s2 : Nat
  n2 : Nat
  width : Nat
  fields : List FieldDef
deriving DecidableEq, Repr

/-- A field's place: the byte offset of its register and its bits. -/
structure Fld where
  off : Nat
  hi : Nat
  lo : Nat
deriving DecidableEq, Repr

/-- Register table, part 0. -/
def regTable0 : List RegDef := [
  ⟨"TILE_CTL", 0x400000, 0x100000000, 1, 0x1000, 256, 32, [⟨"-", 31, 2, .rsv, 0⟩, ⟨"ABORT", 1, 1, .wo, 0⟩, ⟨"START", 0, 0, .wo, 0⟩]⟩,
  ⟨"TILE_STATUS", 0x400004, 0x100000000, 1, 0x1000, 256, 32, [⟨"-", 31, 11, .rsv, 0⟩, ⟨"START_REJ", 10, 10, .w1c, 0⟩, ⟨"CLK", 9, 8, .ro, 0⟩, ⟨"QNE", 7, 4, .ro, 0⟩, ⟨"WAITING", 3, 3, .ro, 0⟩, ⟨"STATE", 2, 0, .ro, 0⟩]⟩,
  ⟨"TILE_TRAP_CAUSE", 0x400008, 0x100000000, 1, 0x1000, 256, 32, [⟨"VALID", 31, 31, .ro, 0⟩, ⟨"MULTI", 30, 30, .ro, 0⟩, ⟨"-", 29, 11, .rsv, 0⟩, ⟨"UNIT", 10, 8, .ro, 0⟩, ⟨"CODE", 7, 0, .ro, 0⟩]⟩,
  ⟨"TILE_TRAP_PC", 0x400010, 0x100000000, 1, 0x1000, 256, 64, [⟨"-", 63, 21, .rsv, 0⟩, ⟨"PC", 20, 0, .ro, 0⟩]⟩,
  ⟨"TILE_TRAP_INFO", 0x400018, 0x100000000, 1, 0x1000, 256, 64, [⟨"INFO", 63, 0, .ro, 0⟩]⟩,
  ⟨"TILE_WAIT_LIMIT", 0x400020, 0x100000000, 1, 0x1000, 256, 32, [⟨"LIMIT", 31, 0, .rw, 0x5f5e100⟩]⟩,
  ⟨"TILE_REPORT_PH", 0x400024, 0x100000000, 1, 0x1000, 256, 32, [⟨"EN", 31, 31, .rw, 0⟩, ⟨"-", 30, 14, .rsv, 0⟩, ⟨"PH", 13, 0, .rw, 0⟩]⟩,
  ⟨"TILE_START_WIN", 0x400028, 0x100000000, 1, 0x1000, 256, 32, [⟨"-", 31, 23, .rsv, 0⟩, ⟨"SIZE", 22, 16, .rw, 0⟩, ⟨"-", 15, 9, .rsv, 0⟩, ⟨"BASE", 8, 0, .rw, 0⟩]⟩,
  ⟨"TILE_START_ENTRY", 0x40002C, 0x100000000, 1, 0x1000, 256, 32, [⟨"-", 31, 18, .rsv, 0⟩, ⟨"ENTRY", 17, 0, .rw, 0⟩]⟩,
  ⟨"TILE_START_ARG0", 0x400030, 0x100000000, 1, 0x1000, 256, 64, [⟨"ARG", 63, 0, .rw, 0⟩]⟩,
  ⟨"TILE_START_ARG1", 0x400038, 0x100000000, 1, 0x1000, 256, 64, [⟨"ARG", 63, 0, .rw, 0⟩]⟩,
  ⟨"TILE_TOKEN", 0x400040, 0x1000, 256, 0x4, 16, 32, [⟨"-", 31, 16, .rsv, 0⟩, ⟨"COUNT", 15, 0, .ro, 0⟩]⟩,
  ⟨"TILE_QOCC", 0x400080, 0x100000000, 1, 0x1000, 256, 32, [⟨"-", 31, 30, .rsv, 0⟩, ⟨"MSG", 29, 24, .ro, 0⟩, ⟨"-", 23, 22, .rsv, 0⟩, ⟨"STR", 21, 16, .ro, 0⟩, ⟨"-", 15, 13, .rsv, 0⟩, ⟨"VEC", 12, 6, .ro, 0⟩, ⟨"-", 5, 5, .rsv, 0⟩, ⟨"MAT", 4, 0, .ro, 0⟩]⟩,
  ⟨"TILE_PC", 0x400088, 0x100000000, 1, 0x1000, 256, 64, [⟨"-", 63, 21, .rsv, 0⟩, ⟨"PC", 20, 0, .ro, 0⟩]⟩,
  ⟨"TILE_MAT_CTL", 0x400100, 0x100000000, 1, 0x1000, 256, 32, [⟨"-", 31, 1, .rsv, 0⟩, ⟨"LAPSE_TRAP", 0, 0, .rw, 0⟩]⟩,
  ⟨"TILE_ACC0_STATUS", 0x400108, 0x100000000, 1, 0x1000, 256, 32, [⟨"-", 31, 6, .rsv, 0⟩, ⟨"UNVERIFIED", 5, 5, .ro, 0⟩, ⟨"WRITING", 4, 4, .ro, 0⟩, ⟨"OVF16", 3, 3, .ro, 0⟩, ⟨"NONFIN", 2, 2, .ro, 0⟩, ⟨"BOUND_LAPSED", 1, 1, .ro, 0⟩, ⟨"FOLDED", 0, 0, .ro, 0⟩]⟩]

/-- Register table, part 1. -/
def regTable1 : List RegDef := [
  ⟨"TILE_ACC1_STATUS", 0x40010C, 0x100000000, 1, 0x1000, 256, 32, [⟨"-", 31, 6, .rsv, 0⟩, ⟨"UNVERIFIED", 5, 5, .ro, 0⟩, ⟨"WRITING", 4, 4, .ro, 0⟩, ⟨"OVF16", 3, 3, .ro, 0⟩, ⟨"NONFIN", 2, 2, .ro, 0⟩, ⟨"BOUND_LAPSED", 1, 1, .ro, 0⟩, ⟨"FOLDED", 0, 0, .ro, 0⟩]⟩,
  ⟨"TILE_ACC0_COUNT", 0x400110, 0x100000000, 1, 0x1000, 256, 64, [⟨"-", 63, 41, .rsv, 0⟩, ⟨"L2", 40, 20, .ro, 0⟩, ⟨"L1", 19, 0, .ro, 0⟩]⟩,
  ⟨"TILE_ACC1_COUNT", 0x400118, 0x100000000, 1, 0x1000, 256, 64, [⟨"-", 63, 41, .rsv, 0⟩, ⟨"L2", 40, 20, .ro, 0⟩, ⟨"L1", 19, 0, .ro, 0⟩]⟩,
  ⟨"CMP_MODE", 0x500000, 0x100000000, 1, 0x100000000, 1, 32, [⟨"-", 31, 1, .rsv, 0⟩, ⟨"DETERM", 0, 0, .ro, 0⟩]⟩,
  ⟨"TILE_VEC_REFEN", 0x400400, 0x100000000, 1, 0x1000, 256, 32, [⟨"-", 31, 2, .rsv, 0⟩, ⟨"REASON", 1, 0, .ro, 0⟩]⟩,
  ⟨"TILE_VEC_STATUS", 0x400404, 0x100000000, 1, 0x1000, 256, 32, [⟨"-", 31, 23, .rsv, 0⟩, ⟨"HELD_KIB", 22, 16, .ro, 0⟩, ⟨"-", 15, 15, .rsv, 0⟩, ⟨"REPLAY_N", 14, 6, .ro, 0⟩, ⟨"-", 5, 4, .rsv, 0⟩, ⟨"OCM", 3, 3, .ro, 0⟩, ⟨"PERS", 2, 2, .ro, 0⟩, ⟨"REPLAYING", 1, 1, .ro, 0⟩, ⟨"WINDOW", 0, 0, .ro, 0⟩]⟩,
  ⟨"TILE_VEC_END_BSTAT", 0x400408, 0x100000000, 1, 0x1000, 256, 32, [⟨"-", 31, 2, .rsv, 0⟩, ⟨"NONFIN", 1, 1, .ro, 0⟩, ⟨"SAT", 0, 0, .ro, 0⟩]⟩,
  ⟨"TILE_VEC_WINDOWS", 0x400410, 0x100000000, 1, 0x1000, 256, 64, [⟨"REPLAYS", 63, 32, .ro, 0⟩, ⟨"OPENED", 31, 0, .ro, 0⟩]⟩,
  ⟨"TILE_FILL_STATUS", 0x400A00, 0x100000000, 1, 0x1000, 256, 32, [⟨"-", 31, 24, .rsv, 0⟩, ⟨"OPT_N", 23, 19, .ro, 0⟩, ⟨"DEFER_N", 18, 12, .ro, 0⟩, ⟨"WB", 11, 11, .ro, 0⟩, ⟨"RES_V", 10, 10, .ro, 0⟩, ⟨"BOUND", 9, 9, .ro, 0⟩, ⟨"BACC", 8, 8, .ro, 0⟩, ⟨"-", 7, 3, .rsv, 0⟩, ⟨"HOLD", 2, 2, .ro, 0⟩, ⟨"LEVEL", 1, 0, .ro, 0⟩]⟩,
  ⟨"TILE_DEFER_RESIDENT", 0x400A08, 0x100000000, 1, 0x1000, 256, 64, [⟨"GROUP", 63, 52, .ro, 0⟩, ⟨"ADDR", 51, 0, .ro, 0⟩]⟩,
  ⟨"TILE_DEFER_FOREIGN", 0x400A10, 0x100000000, 1, 0x1000, 256, 32, [⟨"COUNT", 31, 0, .rc, 0⟩]⟩,
  ⟨"TILE_STALL", 0x400A40, 0x1000, 256, 0x8, 12, 64, [⟨"COUNT", 63, 0, .ro, 0⟩]⟩,
  ⟨"CMP_PHASE", 0x501000, 0x100000000, 1, 0x100000000, 1, 32, [⟨"-", 31, 18, .rsv, 0⟩, ⟨"REDRAWING", 17, 17, .ro, 0⟩, ⟨"VALID", 16, 16, .ro, 0⟩, ⟨"-", 15, 4, .rsv, 0⟩, ⟨"CUR", 3, 0, .ro, 0⟩]⟩,
  ⟨"CMP_REDRAW_LAST", 0x501004, 0x100000000, 1, 0x100000000, 1, 32, [⟨"NS", 31, 0, .ro, 0⟩]⟩,
  ⟨"CMP_PHASE_START", 0x501100, 0x100000000, 1, 0x10, 16, 64, [⟨"START", 63, 0, .ro, 0⟩]⟩,
  ⟨"CMP_PHASE_LAST", 0x501108, 0x100000000, 1, 0x10, 16, 32, [⟨"NS", 31, 0, .ro, 0⟩]⟩]

/-- Register table, part 2. -/
def regTable2 : List RegDef := [
  ⟨"CMP_PHASE_COUNT", 0x50110C, 0x100000000, 1, 0x10, 16, 32, [⟨"COUNT", 31, 0, .ro, 0⟩]⟩,
  ⟨"TILE_STR_SPLIT", 0x400700, 0x100000000, 1, 0x1000, 256, 32, [⟨"-", 31, 15, .rsv, 0⟩, ⟨"REMOTE", 14, 10, .rw, 3⟩, ⟨"WRITE", 9, 5, .rw, 5⟩, ⟨"READ", 4, 0, .rw, 0xc⟩]⟩,
  ⟨"TILE_STR_STATUS", 0x400704, 0x100000000, 1, 0x1000, 256, 32, [⟨"SPLIT_REJ", 31, 31, .w1c, 0⟩, ⟨"VER_STALE", 30, 30, .ro, 0⟩, ⟨"NONFIN", 29, 29, .ro, 0⟩, ⟨"SAT", 28, 28, .ro, 0⟩, ⟨"-", 27, 27, .rsv, 0⟩, ⟨"REMOUT", 26, 18, .ro, 0⟩, ⟨"MEMOUT", 17, 9, .ro, 0⟩, ⟨"-", 8, 8, .rsv, 0⟩, ⟨"PFACT", 7, 0, .ro, 0⟩]⟩,
  ⟨"TILE_STR_ERR", 0x400708, 0x100000000, 1, 0x1000, 256, 32, [⟨"VALID", 31, 31, .ro, 0⟩, ⟨"-", 30, 29, .rsv, 0⟩, ⟨"PC", 28, 8, .ro, 0⟩, ⟨"CODE", 7, 0, .ro, 0⟩]⟩,
  ⟨"TILE_STR_ERR_ADDR", 0x400710, 0x100000000, 1, 0x1000, 256, 64, [⟨"ADDR", 63, 0, .ro, 0⟩]⟩,
  ⟨"TILE_STR_LASTVER", 0x400718, 0x100000000, 1, 0x1000, 256, 32, [⟨"VERSION", 31, 0, .ro, 0⟩]⟩,
  ⟨"TILE_VERIFY_STATUS", 0x400720, 0x100000000, 1, 0x1000, 256, 32, [⟨"-", 31, 9, .rsv, 0⟩, ⟨"RECOMPUTING", 8, 8, .ro, 0⟩, ⟨"SNAP_ACC", 7, 7, .ro, 0⟩, ⟨"SNAP_BUSY", 6, 6, .ro, 0⟩, ⟨"CHAIN1", 5, 3, .ro, 0⟩, ⟨"CHAIN0", 2, 0, .ro, 0⟩]⟩,
  ⟨"TILE_PF", 0x400740, 0x1000, 256, 0x8, 8, 64, [⟨"ROUNDS", 63, 32, .ro, 0⟩, ⟨"-", 31, 15, .rsv, 0⟩, ⟨"REMOTE", 14, 14, .ro, 0⟩, ⟨"HELD", 13, 8, .ro, 0⟩, ⟨"ACTIVE", 7, 7, .ro, 0⟩, ⟨"PERSIST", 6, 6, .ro, 0⟩, ⟨"DEPTH", 5, 0, .ro, 0⟩]⟩,
  ⟨"TILE_STR_STALL", 0x400780, 0x1000, 256, 0x8, 16, 64, [⟨"COUNT", 63, 0, .ro, 0⟩]⟩,
  ⟨"MEM_CTL", 0x600000, 0x100000000, 1, 0x100000000, 1, 32, [⟨"-", 31, 1, .rsv, 0⟩, ⟨"LOCK", 0, 0, .rw, 0⟩]⟩,
  ⟨"MEM_EDDY_CTL", 0x600010, 0x100000000, 1, 0x100000000, 1, 32, [⟨"-", 31, 4, .rsv, 0⟩, ⟨"KEEP_WAYS", 3, 0, .rw, 0xc⟩]⟩,
  ⟨"MEM_SCRUB_CTL", 0x600014, 0x100000000, 1, 0x100000000, 1, 32, [⟨"-", 31, 28, .rsv, 0⟩, ⟨"SRAM_S", 27, 16, .rw, 0xa⟩, ⟨"-", 15, 8, .rsv, 0⟩, ⟨"DRAM_H", 7, 0, .rw, 8⟩]⟩,
  ⟨"MEM_ERR_STATUS", 0x600020, 0x100000000, 1, 0x100000000, 1, 32, [⟨"-", 31, 6, .rsv, 0⟩, ⟨"DP_UE", 5, 5, .w1c, 0⟩, ⟨"SRAM_UE", 4, 4, .w1c, 0⟩, ⟨"HARD_CE", 3, 3, .w1c, 0⟩, ⟨"POISON_READ", 2, 2, .w1c, 0⟩, ⟨"UE", 1, 1, .w1c, 0⟩, ⟨"CE", 0, 0, .w1c, 0⟩]⟩,
  ⟨"MEM_ERR_ADDR", 0x600028, 0x100000000, 1, 0x100000000, 1, 64, [⟨"VALID", 63, 63, .w1c, 0⟩, ⟨"POISON", 62, 62, .ro, 0⟩, ⟨"SCRUB", 61, 61, .ro, 0⟩, ⟨"-", 60, 52, .rsv, 0⟩, ⟨"ADDR", 51, 0, .ro, 0⟩]⟩,
  ⟨"MEM_CE_COUNT", 0x600030, 0x100000000, 1, 0x100000000, 1, 64, [⟨"SRAM", 63, 32, .ro, 0⟩, ⟨"DRAM", 31, 0, .ro, 0⟩]⟩,
  ⟨"MEM_UE_COUNT", 0x600038, 0x100000000, 1, 0x100000000, 1, 64, [⟨"SRAM", 63, 32, .ro, 0⟩, ⟨"DRAM", 31, 0, .ro, 0⟩]⟩]

/-- Register table, part 3. -/
def regTable3 : List RegDef := [
  ⟨"MEM_EDDY_KEEP_OVER", 0x600040, 0x100000000, 1, 0x100000000, 1, 32, [⟨"COUNT", 31, 0, .ro, 0⟩]⟩,
  ⟨"MEM_SCRUB_PASSES", 0x600048, 0x100000000, 1, 0x100000000, 1, 32, [⟨"SRAM", 31, 16, .ro, 0⟩, ⟨"DRAM", 15, 0, .ro, 0⟩]⟩,
  ⟨"MEM_QUAD", 0x600100, 0x100000000, 1, 0x4, 34, 32, [⟨"-", 31, 3, .rsv, 0⟩, ⟨"EDDY", 2, 2, .rwl, 1⟩, ⟨"MODE", 1, 0, .rwl, 0⟩]⟩,
  ⟨"TIER_CTL", 0x700000, 0x100000000, 1, 0x100000000, 1, 32, [⟨"-", 31, 15, .rsv, 0⟩, ⟨"REGIONS", 14, 8, .rw, 0⟩, ⟨"-", 7, 1, .rsv, 0⟩, ⟨"LOAD", 0, 0, .wo, 0⟩]⟩,
  ⟨"TIER_STATUS", 0x700004, 0x100000000, 1, 0x100000000, 1, 32, [⟨"-", 31, 30, .rsv, 0⟩, ⟨"FAIL_REGION", 29, 24, .ro, 0⟩, ⟨"LOAD_CODE", 23, 16, .ro, 0⟩, ⟨"-", 15, 2, .rsv, 0⟩, ⟨"LOADING", 1, 1, .ro, 0⟩, ⟨"READY", 0, 0, .ro, 0⟩]⟩,
  ⟨"TIER_REGION_TAB", 0x700008, 0x100000000, 1, 0x100000000, 1, 64, [⟨"-", 63, 52, .rsv, 0⟩, ⟨"ADDR", 51, 0, .rw, 0⟩]⟩,
  ⟨"TIER_DIR_PH", 0x700010, 0x100000000, 1, 0x100000000, 1, 32, [⟨"VALID", 31, 31, .ro, 0⟩, ⟨"-", 30, 14, .rsv, 0⟩, ⟨"PH", 13, 0, .ro, 0⟩]⟩,
  ⟨"TIER_FLASH_INFO", 0x700018, 0x100000000, 1, 0x100000000, 1, 64, [⟨"-", 63, 48, .rsv, 0⟩, ⟨"LIFE", 47, 40, .ro, 0⟩, ⟨"SPARE", 39, 32, .ro, 0⟩, ⟨"TILES", 31, 0, .ro, 0xda475ab⟩]⟩,
  ⟨"TIER_FLASH_CTL", 0x700020, 0x100000000, 1, 0x100000000, 1, 32, [⟨"-", 31, 13, .rsv, 0⟩, ⟨"WEAR_MBPS", 12, 0, .rw, 0x1f4⟩]⟩,
  ⟨"TIER_ERR", 0x700028, 0x100000000, 1, 0x100000000, 1, 32, [⟨"-", 31, 4, .rsv, 0⟩, ⟨"SPARE_LOW", 3, 3, .w1c, 0⟩, ⟨"FLASH_FULL", 2, 2, .w1c, 0⟩, ⟨"FLASH_READ_FAIL", 1, 1, .w1c, 0⟩, ⟨"ENTRY_LOST", 0, 0, .w1c, 0⟩]⟩,
  ⟨"TIER_EVENT", 0x700100, 0x100000000, 1, 0x8, 13, 64, [⟨"COUNT", 63, 0, .ro, 0⟩]⟩,
  ⟨"UPD_STEP", 0x800000, 0x100000000, 1, 0x100000000, 1, 64, [⟨"OPEN", 63, 32, .ro, 0⟩, ⟨"COMMITTED", 31, 0, .ro, 0⟩]⟩,
  ⟨"UPD_STATUS", 0x800008, 0x100000000, 1, 0x100000000, 1, 32, [⟨"-", 31, 17, .rsv, 0⟩, ⟨"VALID", 16, 16, .ro, 0⟩, ⟨"-", 15, 15, .rsv, 0⟩, ⟨"EVAL", 14, 14, .ro, 0⟩, ⟨"ENG_BUSY", 13, 8, .ro, 0⟩, ⟨"-", 7, 4, .rsv, 0⟩, ⟨"RES2_NONFIN", 3, 3, .ro, 0⟩, ⟨"RES2_V", 2, 2, .ro, 0⟩, ⟨"RES1_NONFIN", 1, 1, .ro, 0⟩, ⟨"RES1_V", 0, 0, .ro, 0⟩]⟩,
  ⟨"UPD_PH", 0x80000C, 0x100000000, 1, 0x100000000, 1, 32, [⟨"VALID", 31, 31, .ro, 0⟩, ⟨"-", 30, 14, .rsv, 0⟩, ⟨"PH", 13, 0, .ro, 0⟩]⟩,
  ⟨"UPD_ERR", 0x800010, 0x100000000, 1, 0x100000000, 1, 32, [⟨"-", 31, 4, .rsv, 0⟩, ⟨"RESOLVE_ORDER", 3, 3, .w1c, 0⟩, ⟨"STEP_REJECT", 2, 2, .w1c, 0⟩, ⟨"NONFIN_LATE", 1, 1, .w1c, 0⟩, ⟨"NONFIN_SKIP", 0, 0, .w1c, 0⟩]⟩,
  ⟨"UPD_ERR_INFO", 0x800018, 0x100000000, 1, 0x100000000, 1, 64, [⟨"VALID", 63, 63, .w1c, 0⟩, ⟨"-", 62, 62, .rsv, 0⟩, ⟨"KIND", 61, 60, .ro, 0⟩, ⟨"GROUP", 59, 48, .ro, 0⟩, ⟨"-", 47, 32, .rsv, 0⟩, ⟨"STEP", 31, 0, .ro, 0⟩]⟩]

/-- Register table, part 4. -/
def regTable4 : List RegDef := [
  ⟨"UPD_STEP_REC", 0x800020, 0x100000000, 1, 0x100000000, 1, 64, [⟨"-", 63, 52, .rsv, 0⟩, ⟨"ADDR", 51, 0, .ro, 0⟩]⟩,
  ⟨"UPD_EVENT", 0x800100, 0x100000000, 1, 0x8, 12, 64, [⟨"COUNT", 63, 0, .ro, 0⟩]⟩,
  ⟨"UPD_GROUP", 0x808000, 0x100000000, 1, 0x8, 4096, 64, [⟨"-", 63, 35, .rsv, 0⟩, ⟨"PRIV", 34, 34, .ro, 0⟩, ⟨"FALLBACK", 33, 33, .ro, 0⟩, ⟨"BANK", 32, 32, .ro, 0⟩, ⟨"T", 31, 0, .ro, 0⟩]⟩,
  ⟨"OPT_FAB_CTL", 0xA00000, 0x100000000, 1, 0x100000000, 1, 32, [⟨"-", 31, 24, .rsv, 0⟩, ⟨"WINDOW_MS", 23, 8, .rw, 0x1f4⟩, ⟨"-", 7, 2, .rsv, 0⟩, ⟨"DISC_CLOSE", 1, 1, .wo, 0⟩, ⟨"DISC_START", 0, 0, .wo, 0⟩]⟩,
  ⟨"OPT_FAB_STATUS", 0xA00004, 0x100000000, 1, 0x100000000, 1, 32, [⟨"-", 31, 11, .rsv, 0⟩, ⟨"DEGRADED", 10, 10, .ro, 0⟩, ⟨"PENDING", 9, 9, .ro, 0⟩, ⟨"SUBST", 8, 8, .ro, 0⟩, ⟨"SPARE", 7, 7, .ro, 0⟩, ⟨"-", 6, 6, .rsv, 0⟩, ⟨"SPLIT", 5, 4, .ro, 0⟩, ⟨"-", 3, 3, .rsv, 0⟩, ⟨"DSTATE", 2, 0, .ro, 0⟩]⟩,
  ⟨"OPT_POS", 0xA00008, 0x100000000, 1, 0x100000000, 1, 32, [⟨"-", 31, 31, .rsv, 0⟩, ⟨"LCOL", 30, 24, .ro, 0x7f⟩, ⟨"-", 23, 23, .rsv, 0⟩, ⟨"LROW", 22, 16, .ro, 0x7f⟩, ⟨"-", 15, 15, .rsv, 0⟩, ⟨"COL", 14, 8, .ro, 0x7f⟩, ⟨"-", 7, 7, .rsv, 0⟩, ⟨"ROW", 6, 0, .ro, 0x7f⟩]⟩,
  ⟨"OPT_SERIAL", 0xA00010, 0x100000000, 1, 0x100000000, 1, 64, [⟨"SERIAL", 63, 0, .ro, 0⟩]⟩,
  ⟨"OPT_FAB_ERR", 0xA00020, 0x100000000, 1, 0x100000000, 1, 32, [⟨"-", 31, 9, .rsv, 0⟩, ⟨"ROUTE_LATE", 8, 8, .w1c, 0⟩, ⟨"SUBST_DUP", 7, 7, .w1c, 0⟩, ⟨"ROUTE_NONE", 6, 6, .w1c, 0⟩, ⟨"LANE_UNPAIRED", 5, 5, .w1c, 0⟩, ⟨"TWIN_MISMATCH", 4, 4, .w1c, 0⟩, ⟨"POSITION_CONFLICT", 3, 3, .w1c, 0⟩, ⟨"SPLIT_MISMATCH", 2, 2, .w1c, 0⟩, ⟨"MISCABLED", 1, 1, .w1c, 0⟩, ⟨"DISC_FAILED", 0, 0, .w1c, 0⟩]⟩,
  ⟨"OPT_FAB_EVENT", 0xA00040, 0x100000000, 1, 0x8, 8, 64, [⟨"COUNT", 63, 0, .ro, 0⟩]⟩,
  ⟨"OPT_PORT", 0xA00100, 0x100000000, 1, 0x4, 16, 32, [⟨"-", 31, 23, .rsv, 0⟩, ⟨"WAVE2", 22, 22, .ro, 0⟩, ⟨"LANES", 21, 16, .ro, 0⟩, ⟨"-", 15, 15, .rsv, 0⟩, ⟨"SELF", 14, 8, .ro, 0x7f⟩, ⟨"-", 7, 5, .rsv, 0⟩, ⟨"PSTATE", 4, 2, .ro, 0⟩, ⟨"ROLE", 1, 0, .ro, 0⟩]⟩,
  ⟨"OPT_PEERS_LO", 0xA00200, 0x100000000, 1, 0x10, 16, 64, [⟨"PEERS", 63, 0, .ro, 0⟩]⟩,
  ⟨"OPT_PEERS_HI", 0xA00208, 0x100000000, 1, 0x10, 16, 32, [⟨"-", 31, 1, .rsv, 0⟩, ⟨"PEER64", 0, 0, .ro, 0⟩]⟩,
  ⟨"OPT_TWIN", 0xA00300, 0x100000000, 1, 0x100000000, 1, 32, [⟨"-", 31, 19, .rsv, 0⟩, ⟨"VIA_FABRIC", 18, 18, .ro, 0⟩, ⟨"TSTATE", 17, 16, .ro, 3⟩, ⟨"-", 15, 15, .rsv, 0⟩, ⟨"COL", 14, 8, .ro, 0x7f⟩, ⟨"-", 7, 7, .rsv, 0⟩, ⟨"ROW", 6, 0, .ro, 0x7f⟩]⟩,
  ⟨"OPT_ROUTE_CTL", 0xA00400, 0x100000000, 1, 0x100000000, 1, 32, [⟨"-", 31, 12, .rsv, 0⟩, ⟨"AT_PHASE", 11, 8, .rw, 0⟩, ⟨"-", 7, 1, .rsv, 0⟩, ⟨"APPLY", 0, 0, .wo, 0⟩]⟩,
  ⟨"OPT_ROUTE_AT", 0xA00404, 0x100000000, 1, 0x100000000, 1, 32, [⟨"AT_COUNT", 31, 0, .rw, 0⟩]⟩,
  ⟨"OPT_ROWSUB", 0xA00500, 0x100000000, 1, 0x4, 64, 32, [⟨"-", 31, 8, .rsv, 0⟩, ⟨"V", 7, 7, .rw, 0⟩, ⟨"COL", 6, 0, .rw, 0⟩]⟩]

/-- Register table, part 5. -/
def regTable5 : List RegDef := [
  ⟨"OPT_COLSUB", 0xA00600, 0x100000000, 1, 0x4, 64, 32, [⟨"-", 31, 8, .rsv, 0⟩, ⟨"V", 7, 7, .rw, 0⟩, ⟨"ROW", 6, 0, .rw, 0⟩]⟩,
  ⟨"OPT_DEAD", 0xA00800, 0x100000000, 1, 0x4, 133, 32, [⟨"DEAD", 31, 0, .rw, 0⟩]⟩,
  ⟨"MBX_CFG", 0x900000, 0x100000000, 1, 0x40, 16384, 32, [⟨"-", 31, 16, .rsv, 0⟩, ⟨"OWNER", 15, 8, .ro, 0⟩, ⟨"-", 7, 6, .rsv, 0⟩, ⟨"SEAL", 5, 5, .ro, 0⟩, ⟨"STAGE", 4, 4, .ro, 0⟩, ⟨"KIND", 3, 0, .ro, 0⟩]⟩,
  ⟨"MBX_COUNT", 0x900004, 0x100000000, 1, 0x40, 16384, 32, [⟨"-", 31, 17, .rsv, 0⟩, ⟨"COUNT", 16, 0, .ro, 0⟩]⟩,
  ⟨"MBX_HELD", 0x900008, 0x100000000, 1, 0x40, 16384, 32, [⟨"RESV", 31, 17, .ro, 0⟩, ⟨"HELD", 16, 0, .ro, 0⟩]⟩,
  ⟨"MBX_ERR", 0x90000C, 0x100000000, 1, 0x40, 16384, 32, [⟨"-", 31, 5, .rsv, 0⟩, ⟨"MC_REMOVED", 4, 4, .w1c, 0⟩, ⟨"NO_RESV", 3, 3, .w1c, 0⟩, ⟨"UNREACH", 2, 2, .w1c, 0⟩, ⟨"FOREIGN", 1, 1, .w1c, 0⟩, ⟨"OVERRUN", 0, 0, .w1c, 0⟩]⟩,
  ⟨"MBX_TOTAL", 0x900010, 0x100000000, 1, 0x40, 16384, 64, [⟨"TAKEN", 63, 32, .ro, 0⟩, ⟨"ARRIVED", 31, 0, .ro, 0⟩]⟩,
  ⟨"CMP_MBX_STATUS", 0x502000, 0x100000000, 1, 0x100000000, 1, 32, [⟨"VALID", 31, 31, .ro, 0⟩, ⟨"-", 30, 27, .rsv, 0⟩, ⟨"BARS", 26, 16, .ro, 0⟩, ⟨"-", 15, 9, .rsv, 0⟩, ⟨"COLLS", 8, 0, .ro, 0⟩]⟩,
  ⟨"CMP_FAB_OUT", 0x502008, 0x100000000, 1, 0x100000000, 1, 64, [⟨"-", 63, 48, .rsv, 0⟩, ⟨"COLL", 47, 32, .ro, 0⟩, ⟨"REPLY", 31, 16, .ro, 0⟩, ⟨"REQ", 15, 0, .ro, 0⟩]⟩,
  ⟨"CMP_FAB_LIMITS", 0x502010, 0x100000000, 1, 0x100000000, 1, 32, [⟨"HOLD_MS", 31, 16, .rw, 0xa⟩, ⟨"E2E_US", 15, 0, .rw, 0x3e8⟩]⟩,
  ⟨"CMP_MC_STALL", 0x502014, 0x100000000, 1, 0x100000000, 1, 32, [⟨"-", 31, 20, .rsv, 0⟩, ⟨"LIMIT_NS", 19, 0, .rw, 0x4e20⟩]⟩,
  ⟨"CMP_CC_CTL", 0x502018, 0x100000000, 1, 0x100000000, 1, 32, [⟨"ADD", 31, 24, .rw, 4⟩, ⟨"WINDOW_US", 23, 16, .rw, 4⟩, ⟨"CUT", 15, 8, .rw, 0x40⟩, ⟨"MARK_PCT", 7, 0, .rw, 0x32⟩]⟩,
  ⟨"CMP_CC_PIN", 0x50201C, 0x100000000, 1, 0x100000000, 1, 32, [⟨"EN", 31, 31, .rw, 0⟩, ⟨"-", 30, 9, .rsv, 0⟩, ⟨"RATE", 8, 0, .rw, 0x190⟩]⟩,
  ⟨"CMP_FAB_ERR", 0x502020, 0x100000000, 1, 0x100000000, 1, 32, [⟨"-", 31, 6, .rsv, 0⟩, ⟨"SYNC_LOST", 5, 5, .w1c, 0⟩, ⟨"BAR_SKEW", 4, 4, .w1c, 0⟩, ⟨"COLL_AHEAD", 3, 3, .w1c, 0⟩, ⟨"NO_RESV", 2, 2, .w1c, 0⟩, ⟨"RING_OVERRUN", 1, 1, .w1c, 0⟩, ⟨"MSG_UNREACH", 0, 0, .w1c, 0⟩]⟩,
  ⟨"CMP_TB_STATUS", 0x502028, 0x100000000, 1, 0x100000000, 1, 32, [⟨"LOCKED", 31, 31, .ro, 0⟩, ⟨"ROOT", 30, 30, .ro, 0⟩, ⟨"LEVEL", 29, 28, .ro, 0⟩, ⟨"-", 27, 16, .rsv, 0⟩, ⟨"OFFSET", 15, 0, .ro, 0⟩]⟩,
  ⟨"CMP_FAB_EVENT", 0x502100, 0x100000000, 1, 0x8, 12, 64, [⟨"COUNT", 63, 0, .ro, 0⟩]⟩]

/-- Register table, part 6. -/
def regTable6 : List RegDef := [
  ⟨"CMP_GAUGE", 0x503000, 0x100000000, 1, 0x4, 1024, 32, [⟨"VALID", 31, 31, .ro, 0⟩, ⟨"BY_DEADLINE", 30, 30, .ro, 0⟩, ⟨"-", 29, 24, .rsv, 0⟩, ⟨"CLOSURES", 23, 0, .ro, 0⟩]⟩,
  ⟨"CMP_COLL", 0x504000, 0x100000000, 1, 0x10, 256, 64, [⟨"-", 63, 42, .rsv, 0⟩, ⟨"VALID", 41, 41, .ro, 0⟩, ⟨"NF", 40, 40, .ro, 0⟩, ⟨"BY_DEADLINE", 39, 39, .ro, 0⟩, ⟨"COUNTED", 38, 32, .ro, 0⟩, ⟨"STEP", 31, 0, .ro, 0⟩]⟩,
  ⟨"CMP_COLL_LATE", 0x504008, 0x100000000, 1, 0x10, 256, 64, [⟨"COUNT", 63, 0, .ro, 0⟩]⟩,
  ⟨"OPT_ENG", 0xA10000, 0x100000000, 1, 0x4, 17, 32, [⟨"-", 31, 17, .rsv, 0⟩, ⟨"HOT", 16, 16, .ro, 0⟩, ⟨"-", 15, 14, .rsv, 0⟩, ⟨"LANES", 13, 8, .ro, 0⟩, ⟨"TEMP", 7, 0, .ro, 0⟩]⟩,
  ⟨"OPT_LINK_ERR", 0xA10100, 0x100000000, 1, 0x100000000, 1, 32, [⟨"-", 31, 4, .rsv, 0⟩, ⟨"CAL_FAIL", 3, 3, .w1c, 0⟩, ⟨"PORT_NARROW", 2, 2, .w1c, 0⟩, ⟨"ENG_HOT", 1, 1, .w1c, 0⟩, ⟨"LANE_DROP", 0, 0, .w1c, 0⟩]⟩,
  ⟨"OPT_SCAN_CTL", 0xA10110, 0x100000000, 1, 0x100000000, 1, 32, [⟨"-", 31, 12, .rsv, 0⟩, ⟨"PERIOD_S", 11, 0, .rw, 0x3c⟩]⟩,
  ⟨"OPT_LINK_EVENT", 0xA10200, 0x100000000, 1, 0x8, 8, 64, [⟨"COUNT", 63, 0, .ro, 0⟩]⟩,
  ⟨"OPT_LANE", 0xA11000, 0x80, 17, 0x4, 32, 32, [⟨"ERRS", 31, 20, .ro, 0⟩, ⟨"LOCKERR", 19, 12, .ro, 0⟩, ⟨"LINE", 11, 4, .ro, 0⟩, ⟨"LSTATE", 3, 0, .ro, 0⟩]⟩,
  ⟨"LAS_CTL", 0xB00000, 0x100000000, 1, 0x100000000, 1, 32, [⟨"-", 31, 6, .rsv, 0⟩, ⟨"SRC", 5, 1, .rw, 0⟩, ⟨"SWAP", 0, 0, .wo, 0⟩]⟩,
  ⟨"LAS_STATUS", 0xB00004, 0x100000000, 1, 0x100000000, 1, 32, [⟨"-", 31, 17, .rsv, 0⟩, ⟨"REQ_REJ", 16, 16, .w1c, 0⟩, ⟨"SWAPS", 15, 8, .ro, 0⟩, ⟨"-", 7, 2, .rsv, 0⟩, ⟨"SPARES_FREE", 1, 0, .ro, 0⟩]⟩,
  ⟨"LAS_ERR", 0xB00010, 0x100000000, 1, 0x100000000, 1, 32, [⟨"-", 31, 3, .rsv, 0⟩, ⟨"SPARES_EXHAUSTED", 2, 2, .w1c, 0⟩, ⟨"LASER_FAILING", 1, 1, .w1c, 0⟩, ⟨"LASER_FADING", 0, 0, .w1c, 0⟩]⟩,
  ⟨"LAS_MAP", 0xB00100, 0x100000000, 1, 0x4, 17, 32, [⟨"-", 31, 9, .rsv, 0⟩, ⟨"SPARED", 8, 8, .ro, 0⟩, ⟨"-", 7, 5, .rsv, 0⟩, ⟨"SRC", 4, 0, .ro, 0⟩]⟩,
  ⟨"LAS_SRC", 0xB00200, 0x100000000, 1, 0x8, 20, 64, [⟨"P0", 63, 48, .ro, 0⟩, ⟨"POWER", 47, 32, .ro, 0⟩, ⟨"DRIVE", 31, 24, .ro, 0⟩, ⟨"-", 23, 13, .rsv, 0⟩, ⟨"ENGINE", 12, 8, .ro, 0⟩, ⟨"-", 7, 3, .rsv, 0⟩, ⟨"STAGE", 2, 0, .ro, 0⟩]⟩,
  ⟨"TWN_CTL", 0xC00000, 0x100000000, 1, 0x100000000, 1, 32, [⟨"-", 31, 15, .rsv, 0⟩, ⟨"RANGES", 14, 8, .rw, 0⟩, ⟨"-", 7, 6, .rsv, 0⟩, ⟨"FORCE", 5, 5, .wo, 0⟩, ⟨"RESTORE_RX", 4, 4, .wo, 0⟩, ⟨"RESTORE_TX", 3, 3, .wo, 0⟩, ⟨"-", 2, 2, .rsv, 0⟩, ⟨"LOAD", 1, 1, .wo, 0⟩, ⟨"EN", 0, 0, .rw, 0⟩]⟩,
  ⟨"TWN_STATUS", 0xC00004, 0x100000000, 1, 0x100000000, 1, 32, [⟨"-", 31, 7, .rsv, 0⟩, ⟨"TARGET_REJ", 6, 6, .w1c, 0⟩, ⟨"MAP_OK", 5, 5, .ro, 0⟩, ⟨"EXPOSED", 4, 4, .ro, 0⟩, ⟨"ARRIVED", 3, 3, .ro, 0⟩, ⟨"STATE", 2, 0, .ro, 0⟩]⟩,
  ⟨"TWN_MAP_ADDR", 0xC00008, 0x100000000, 1, 0x100000000, 1, 64, [⟨"-", 63, 52, .rsv, 0⟩, ⟨"ADDR", 51, 0, .rw, 0⟩]⟩]

/-- Register table, part 7. -/
def regTable7 : List RegDef := [
  ⟨"TWN_RX_BASE", 0xC00010, 0x100000000, 1, 0x100000000, 1, 64, [⟨"-", 63, 52, .rsv, 0⟩, ⟨"ADDR", 51, 0, .rw, 0⟩]⟩,
  ⟨"TWN_STEPS", 0xC00018, 0x100000000, 1, 0x100000000, 1, 64, [⟨"LANDED", 63, 32, .ro, 0⟩, ⟨"AGREED", 31, 0, .ro, 0⟩]⟩,
  ⟨"TWN_TARGET", 0xC00020, 0x100000000, 1, 0x100000000, 1, 32, [⟨"T", 31, 0, .rw, 0⟩]⟩,
  ⟨"TWN_OWED", 0xC00028, 0x100000000, 1, 0x100000000, 1, 64, [⟨"-", 63, 45, .rsv, 0⟩, ⟨"LOG", 44, 24, .ro, 0⟩, ⟨"IMAGE", 23, 0, .ro, 0⟩]⟩,
  ⟨"TWN_ERR", 0xC00030, 0x100000000, 1, 0x100000000, 1, 32, [⟨"-", 31, 5, .rsv, 0⟩, ⟨"RESTORE_FAIL", 4, 4, .w1c, 0⟩, ⟨"SHADOW_UE", 3, 3, .w1c, 0⟩, ⟨"MAP_MISMATCH", 2, 2, .w1c, 0⟩, ⟨"MAP_BAD", 1, 1, .w1c, 0⟩, ⟨"TWIN_LOST", 0, 0, .w1c, 0⟩]⟩,
  ⟨"TWN_EVENT", 0xC00100, 0x100000000, 1, 0x8, 6, 64, [⟨"COUNT", 63, 0, .ro, 0⟩]⟩,
  ⟨"PKG_STATUS", 0x300000, 0x100000000, 1, 0x100000000, 1, 32, [⟨"-", 31, 10, .rsv, 0⟩, ⟨"DEGRADED", 9, 9, .ro, 0⟩, ⟨"LIMITED", 8, 8, .ro, 0⟩, ⟨"UP", 7, 4, .ro, 0⟩, ⟨"PRESENT", 3, 0, .ro, 0⟩]⟩,
  ⟨"PKG_BASE_ID", 0x300004, 0x100000000, 1, 0x100000000, 1, 32, [⟨"-", 31, 8, .rsv, 0⟩, ⟨"STEPPING", 7, 0, .ro, 0⟩]⟩,
  ⟨"PKG_FEATURE_EFF", 0x300008, 0x100000000, 1, 0x100000000, 1, 64, [⟨"FEATURES", 63, 0, .ro, 0⟩]⟩,
  ⟨"PKG_ERR", 0x300010, 0x100000000, 1, 0x100000000, 1, 32, [⟨"-", 31, 6, .rsv, 0⟩, ⟨"REF_LOST", 5, 5, .w1c, 0⟩, ⟨"COMPAT", 4, 4, .w1c, 0⟩, ⟨"REJOIN_REJ", 3, 3, .w1c, 0⟩, ⟨"DIE_FAILED", 2, 2, .w1c, 0⟩, ⟨"WEIR_FAIL", 1, 1, .w1c, 0⟩, ⟨"DIE_LOST", 0, 0, .w1c, 0⟩]⟩,
  ⟨"PKG_AON", 0x300014, 0x100000000, 1, 0x100000000, 1, 32, [⟨"-", 31, 1, .rsv, 0⟩, ⟨"ON_LOCAL", 0, 0, .ro, 0⟩]⟩,
  ⟨"PKG_CLK_CTL", 0x300018, 0x100000000, 1, 0x100000000, 1, 32, [⟨"-", 31, 14, .rsv, 0⟩, ⟨"NAP_AFTER_US", 13, 0, .rw, 0x64⟩]⟩,
  ⟨"PKG_DIE_STATUS", 0x300100, 0x100000000, 1, 0x40, 4, 32, [⟨"STEPPING", 31, 24, .ro, 0⟩, ⟨"-", 23, 20, .rsv, 0⟩, ⟨"SPARES_USED", 19, 18, .ro, 0⟩, ⟨"ATTEMPTS", 17, 16, .ro, 0⟩, ⟨"-", 15, 12, .rsv, 0⟩, ⟨"REASON", 11, 8, .ro, 0⟩, ⟨"-", 7, 3, .rsv, 0⟩, ⟨"STATE", 2, 0, .ro, 0⟩]⟩,
  ⟨"PKG_DIE_CTL", 0x300104, 0x100000000, 1, 0x40, 4, 32, [⟨"-", 31, 3, .rsv, 0⟩, ⟨"JOIN", 2, 2, .rw, 0⟩, ⟨"HOLD", 1, 1, .rw, 0⟩, ⟨"RESET", 0, 0, .wo, 0⟩]⟩,
  ⟨"PKG_DIE_FEATURE", 0x300108, 0x100000000, 1, 0x40, 4, 64, [⟨"FEATURES", 63, 0, .ro, 0⟩]⟩,
  ⟨"PKG_DIE_ERRATA", 0x300110, 0x100000000, 1, 0x40, 4, 64, [⟨"MASK", 63, 0, .ro, 0⟩]⟩]

/-- Register table, part 8. -/
def regTable8 : List RegDef := [
  ⟨"PKG_DIE_LOST_AT", 0x300118, 0x100000000, 1, 0x40, 4, 64, [⟨"TIME", 63, 0, .ro, 0⟩]⟩,
  ⟨"PKG_WEIR", 0x300120, 0x100000000, 1, 0x40, 4, 64, [⟨"RETRIES", 63, 32, .ro, 0⟩, ⟨"CRC_ERRS", 31, 0, .ro, 0⟩]⟩,
  ⟨"PKG_CLUSTER", 0x300400, 0x100000000, 1, 0x4, 16, 32, [⟨"-", 31, 12, .rsv, 0⟩, ⟨"REQ_REJ", 11, 11, .w1c, 0⟩, ⟨"RETAIN", 10, 10, .rw, 0⟩, ⟨"REQ", 9, 8, .wo, 0⟩, ⟨"-", 7, 6, .rsv, 0⟩, ⟨"MODE", 5, 4, .rw, 0⟩, ⟨"-", 3, 2, .rsv, 0⟩, ⟨"STATE", 1, 0, .ro, 0⟩]⟩,
  ⟨"PWR_STATUS", 0x200000, 0x100000000, 1, 0x100000000, 1, 32, [⟨"-", 31, 28, .rsv, 0⟩, ⟨"INPUT_W", 27, 16, .ro, 0⟩, ⟨"BUCKET", 15, 8, .ro, 0xc8⟩, ⟨"FAST", 7, 7, .ro, 0⟩, ⟨"RUN_EXPIRED", 6, 6, .ro, 0⟩, ⟨"CURR_LIM", 5, 5, .ro, 0⟩, ⟨"THERM_LIM", 4, 4, .ro, 0⟩, ⟨"-", 3, 0, .rsv, 0⟩]⟩,
  ⟨"PWR_ERR", 0x200004, 0x100000000, 1, 0x100000000, 1, 32, [⟨"-", 31, 8, .rsv, 0⟩, ⟨"THERM_TRIP", 7, 7, .w1c, 0⟩, ⟨"PIN_OVERRIDE", 6, 6, .w1c, 0⟩, ⟨"COOLANT_HOT", 5, 5, .w1c, 0⟩, ⟨"STACK_HOT", 4, 4, .w1c, 0⟩, ⟨"POWER_LIMIT", 3, 3, .w1c, 0⟩, ⟨"THERM_LIMIT", 2, 2, .w1c, 0⟩, ⟨"RAIL_FAULT", 1, 1, .w1c, 0⟩, ⟨"VIN_RANGE", 0, 0, .w1c, 0⟩]⟩,
  ⟨"PWR_CONFLICT", 0x200010, 0x100000000, 1, 0x4, 3, 32, [⟨"COUNT", 31, 0, .ro, 0⟩]⟩,
  ⟨"CLK_FMAX", 0x200020, 0x100000000, 1, 0x100000000, 1, 32, [⟨"-", 31, 5, .rsv, 0⟩, ⟨"FCODE", 4, 0, .rw, 0x18⟩]⟩,
  ⟨"CLK_DROOP_CTL", 0x200040, 0x100000000, 1, 0x100000000, 1, 32, [⟨"-", 31, 6, .rsv, 0⟩, ⟨"TH_MV", 5, 0, .rw, 0x28⟩]⟩,
  ⟨"CLK_DIE", 0x200100, 0x100000000, 1, 0x20, 4, 32, [⟨"-", 31, 29, .rsv, 0⟩, ⟨"CURR", 28, 24, .ro, 0x1e⟩, ⟨"-", 23, 21, .rsv, 0⟩, ⟨"THERM", 20, 16, .ro, 0x1e⟩, ⟨"-", 15, 13, .rsv, 0⟩, ⟨"CHOICE", 12, 8, .ro, 0x18⟩, ⟨"-", 7, 5, .rsv, 0⟩, ⟨"FCODE", 4, 0, .ro, 0x18⟩]⟩,
  ⟨"CLK_DVFS_PIN", 0x200104, 0x100000000, 1, 0x20, 4, 32, [⟨"EN", 31, 31, .rw, 0⟩, ⟨"-", 30, 24, .rsv, 0⟩, ⟨"BUDGET", 23, 16, .rw, 0xbe⟩, ⟨"-", 15, 5, .rsv, 0⟩, ⟨"FCODE", 4, 0, .rw, 0x18⟩]⟩,
  ⟨"CLK_STRETCH", 0x200108, 0x100000000, 1, 0x20, 4, 64, [⟨"DROOP", 63, 32, .ro, 0⟩, ⟨"SLUICE", 31, 0, .ro, 0⟩]⟩,
  ⟨"PWR_TEMP", 0x200400, 0x100000000, 1, 0x4, 48, 32, [⟨"VALID", 31, 31, .ro, 0⟩, ⟨"-", 30, 12, .rsv, 0⟩, ⟨"TEMP", 11, 0, .ro, 0⟩]⟩,
  ⟨"PWR_VOLT", 0x200500, 0x100000000, 1, 0x4, 24, 32, [⟨"VALID", 31, 31, .ro, 0⟩, ⟨"-", 30, 16, .rsv, 0⟩, ⟨"MV", 15, 0, .ro, 0⟩]⟩,
  ⟨"PWR_CURR", 0x200580, 0x100000000, 1, 0x4, 12, 32, [⟨"VALID", 31, 31, .ro, 0⟩, ⟨"-", 30, 16, .rsv, 0⟩, ⟨"DA", 15, 0, .ro, 0⟩]⟩,
  ⟨"PM_STATUS", 0x0, 0x100000000, 1, 0x100000000, 1, 32, [⟨"-", 31, 24, .rsv, 0⟩, ⟨"RESTARTS", 23, 16, .ro, 0⟩, ⟨"-", 15, 8, .rsv, 0⟩, ⟨"TRIAL", 7, 7, .ro, 0⟩, ⟨"BANK", 6, 6, .ro, 0⟩, ⟨"FW_RUNNING", 5, 5, .ro, 0⟩, ⟨"-", 4, 4, .rsv, 0⟩, ⟨"STAGE", 3, 0, .ro, 0⟩]⟩,
  ⟨"PM_FW_VERSION", 0x4, 0x100000000, 1, 0x100000000, 1, 32, [⟨"VERSION", 31, 0, .ro, 0⟩]⟩]

/-- Register table, part 9. -/
def regTable9 : List RegDef := [
  ⟨"PM_START_TIME", 0x8, 0x100000000, 1, 0x100000000, 1, 64, [⟨"TIME", 63, 0, .ro, 0⟩]⟩,
  ⟨"PM_FW_CTL", 0x10, 0x100000000, 1, 0x100000000, 1, 32, [⟨"-", 31, 3, .rsv, 0⟩, ⟨"COMMIT", 2, 2, .wo, 0⟩, ⟨"ACTIVATE", 1, 1, .wo, 0⟩, ⟨"LOAD", 0, 0, .wo, 0⟩]⟩,
  ⟨"PM_FW_SRC", 0x18, 0x100000000, 1, 0x100000000, 1, 64, [⟨"-", 63, 36, .rsv, 0⟩, ⟨"OFFSET", 35, 0, .rw, 0⟩]⟩,
  ⟨"PM_FW_SIZE", 0x20, 0x100000000, 1, 0x100000000, 1, 32, [⟨"-", 31, 25, .rsv, 0⟩, ⟨"SIZE", 24, 0, .rw, 0⟩]⟩,
  ⟨"PM_FW_STATUS", 0x24, 0x100000000, 1, 0x100000000, 1, 32, [⟨"-", 31, 18, .rsv, 0⟩, ⟨"TRIALS", 17, 16, .ro, 0⟩, ⟨"RESULT", 15, 8, .ro, 0⟩, ⟨"-", 7, 3, .rsv, 0⟩, ⟨"STATE", 2, 0, .ro, 0⟩]⟩,
  ⟨"PM_FW_BANK", 0x28, 0x100000000, 1, 0x8, 2, 64, [⟨"VALID", 63, 63, .ro, 0⟩, ⟨"-", 62, 39, .rsv, 0⟩, ⟨"SVN", 38, 32, .ro, 0⟩, ⟨"VERSION", 31, 0, .ro, 0⟩]⟩,
  ⟨"PM_FUSE", 0x40, 0x100000000, 1, 0x100000000, 1, 32, [⟨"-", 31, 20, .rsv, 0⟩, ⟨"REVOKED", 19, 16, .ro, 0⟩, ⟨"-", 15, 7, .rsv, 0⟩, ⟨"ROLLBACK", 6, 0, .ro, 0⟩]⟩,
  ⟨"PM_ERR", 0x48, 0x100000000, 1, 0x100000000, 1, 32, [⟨"-", 31, 4, .rsv, 0⟩, ⟨"LOG_OVERFLOW", 3, 3, .w1c, 0⟩, ⟨"PM_RESTART", 2, 2, .w1c, 0⟩, ⟨"FW_REJECTED", 1, 1, .w1c, 0⟩, ⟨"FW_ROLLBACK", 0, 0, .w1c, 0⟩]⟩,
  ⟨"PM_LOG_HEAD", 0x100, 0x100000000, 1, 0x100000000, 1, 32, [⟨"SEQ", 31, 0, .ro, 0⟩]⟩,
  ⟨"PM_LOG_TAIL", 0x104, 0x100000000, 1, 0x100000000, 1, 32, [⟨"SEQ", 31, 0, .ro, 0⟩]⟩,
  ⟨"PM_LOG_SEL", 0x108, 0x100000000, 1, 0x100000000, 1, 32, [⟨"SEQ", 31, 0, .rw, 0⟩]⟩,
  ⟨"PM_LOG_STATUS", 0x10C, 0x100000000, 1, 0x100000000, 1, 32, [⟨"SEL_MISS", 31, 31, .w1c, 0⟩, ⟨"HW_LOST", 30, 16, .ro, 0⟩, ⟨"DROPPED", 15, 0, .ro, 0⟩]⟩,
  ⟨"PM_LOG_DATA", 0x120, 0x100000000, 1, 0x8, 4, 64, [⟨"DATA", 63, 0, .ro, 0⟩]⟩,
  ⟨"DB_LOAD", 0x4000000, 0x100000000, 1, 0x100000000, 1, 32, [⟨"-", 31, 1, .rsv, 0⟩, ⟨"RING", 0, 0, .wo, 0⟩]⟩,
  ⟨"DB_SLOT_CTL", 0x4010040, 0x100000000, 1, 0x80, 512, 32, [⟨"-", 31, 1, .rsv, 0⟩, ⟨"RING", 0, 0, .wo, 0⟩]⟩,
  ⟨"DB_SLOT_STATUS", 0x4010044, 0x100000000, 1, 0x80, 512, 32, [⟨"-", 31, 2, .rsv, 0⟩, ⟨"BUSY", 1, 1, .ro, 0⟩, ⟨"DONE", 0, 0, .w1c, 0⟩]⟩]

/-- Register table, part 10. -/
def regTable10 : List RegDef := [
  ⟨"HST_STAGE", 0xE00000, 0x100000000, 1, 0x100000000, 1, 32, [⟨"REJ", 31, 31, .w1c, 0⟩, ⟨"-", 30, 4, .rsv, 0⟩, ⟨"QUAD", 3, 0, .rw, 0xf⟩]⟩,
  ⟨"HST_LOAD_OFF", 0xE00008, 0x100000000, 1, 0x100000000, 1, 64, [⟨"-", 63, 36, .rsv, 0⟩, ⟨"OFFSET", 35, 0, .rw, 0⟩]⟩,
  ⟨"HST_LOAD_SIZE", 0xE00010, 0x100000000, 1, 0x100000000, 1, 64, [⟨"-", 63, 37, .rsv, 0⟩, ⟨"SIZE", 36, 0, .rw, 0⟩]⟩,
  ⟨"HST_LOAD_STATUS", 0xE00018, 0x100000000, 1, 0x100000000, 1, 32, [⟨"-", 31, 18, .rsv, 0⟩, ⟨"SPLIT", 17, 16, .ro, 0⟩, ⟨"CODE", 15, 8, .ro, 0⟩, ⟨"STEP", 7, 4, .ro, 0⟩, ⟨"-", 3, 2, .rsv, 0⟩, ⟨"STATE", 1, 0, .ro, 0⟩]⟩,
  ⟨"INT_SUMSTAT", 0x100000, 0x100000000, 1, 0x100000000, 1, 32, [⟨"-", 31, 12, .rsv, 0⟩, ⟨"SUB", 11, 0, .ro, 0⟩]⟩,
  ⟨"INT_SUMMASK", 0x100004, 0x100000000, 1, 0x100000000, 1, 32, [⟨"-", 31, 12, .rsv, 0⟩, ⟨"MASK", 11, 0, .rw, 0xfff⟩]⟩,
  ⟨"INT_CAUSE", 0x100100, 0x100000000, 1, 0x8, 12, 32, [⟨"LEAF", 31, 0, .w1c, 0⟩]⟩,
  ⟨"INT_MASK", 0x100104, 0x100000000, 1, 0x8, 12, 32, [⟨"MASK", 31, 0, .rw, 0⟩]⟩,
  ⟨"INT_CAUSE_TILE", 0x100200, 0x100000000, 1, 0x8, 8, 32, [⟨"LEAF", 31, 0, .w1c, 0⟩]⟩,
  ⟨"INT_MASK_TILE", 0x100204, 0x100000000, 1, 0x8, 8, 32, [⟨"MASK", 31, 0, .rw, 0⟩]⟩,
  ⟨"OBS_CTL", 0xD00000, 0x100000000, 1, 0x100000000, 1, 32, [⟨"-", 31, 18, .rsv, 0⟩, ⟨"SNAP", 17, 17, .wo, 0⟩, ⟨"WRAP", 16, 16, .rw, 1⟩, ⟨"-", 15, 9, .rsv, 0⟩, ⟨"TYPES", 8, 0, .rw, 0x1ff⟩]⟩,
  ⟨"OBS_TRACE_CTL", 0xD00004, 0x100000000, 1, 0x100000000, 1, 32, [⟨"-", 31, 1, .rsv, 0⟩, ⟨"TRACE_EN", 0, 0, .rw, 0⟩]⟩,
  ⟨"OBS_STATUS", 0xD00008, 0x100000000, 1, 0x100000000, 1, 32, [⟨"-", 31, 6, .rsv, 0⟩, ⟨"SEL_MISS", 5, 5, .w1c, 0⟩, ⟨"SEL_BAD", 4, 4, .w1c, 0⟩, ⟨"RING_BAD", 3, 3, .w1c, 0⟩, ⟨"SNAP_BUSY", 2, 2, .ro, 0⟩, ⟨"FULL", 1, 1, .ro, 0⟩, ⟨"ACTIVE", 0, 0, .ro, 0⟩]⟩,
  ⟨"OBS_TRACE_BASE", 0xD00010, 0x100000000, 1, 0x100000000, 1, 64, [⟨"-", 63, 52, .rsv, 0⟩, ⟨"ADDR", 51, 0, .rw, 0⟩]⟩,
  ⟨"OBS_TRACE_SIZE", 0xD00018, 0x100000000, 1, 0x100000000, 1, 32, [⟨"-", 31, 21, .rsv, 0⟩, ⟨"PAGES", 20, 0, .rw, 0⟩]⟩,
  ⟨"OBS_TRACE_HEAD", 0xD00020, 0x100000000, 1, 0x100000000, 1, 32, [⟨"SEQ", 31, 0, .ro, 0⟩]⟩]

/-- Register table, part 11. -/
def regTable11 : List RegDef := [
  ⟨"OBS_TRACE_READ", 0xD00024, 0x100000000, 1, 0x100000000, 1, 32, [⟨"SEQ", 31, 0, .rw, 0⟩]⟩,
  ⟨"OBS_TRACE_LOST", 0xD00028, 0x100000000, 1, 0x100000000, 1, 64, [⟨"COUNT", 63, 0, .ro, 0⟩]⟩,
  ⟨"OBS_SAMPLE_CTL", 0xD00030, 0x100000000, 1, 0x100000000, 1, 32, [⟨"-", 31, 16, .rsv, 0⟩, ⟨"PERIOD_US", 15, 0, .rw, 0x3e8⟩]⟩,
  ⟨"OBS_SNAP_TIME", 0xD00038, 0x100000000, 1, 0x100000000, 1, 64, [⟨"TIME", 63, 0, .ro, 0⟩]⟩,
  ⟨"OBS_SEL", 0xD00100, 0x100000000, 1, 0x4, 16, 32, [⟨"EN", 31, 31, .rw, 0⟩, ⟨"W64", 30, 30, .rw, 0⟩, ⟨"-", 29, 26, .rsv, 0⟩, ⟨"OFFSET", 25, 0, .rw, 0⟩]⟩,
  ⟨"OBS_SNAP", 0xD00200, 0x100000000, 1, 0x8, 16, 64, [⟨"VALUE", 63, 0, .ro, 0⟩]⟩,
  ⟨"OBS_TRACE_SEL", 0xD00300, 0x100000000, 1, 0x100000000, 1, 32, [⟨"SEQ", 31, 0, .rw, 0⟩]⟩,
  ⟨"OBS_TRACE_DATA", 0xD00308, 0x100000000, 1, 0x8, 4, 64, [⟨"DATA", 63, 0, .ro, 0⟩]⟩,
  ⟨"OBS_SP", 0xD10000, 0x20, 256, 0x8, 3, 64, [⟨"COUNT", 63, 0, .ro, 0⟩]⟩]

/-- Every register the spec gives the CSR and doorbell windows. -/
def regTable : List RegDef :=
  regTable0 ++ regTable1 ++ regTable2 ++ regTable3 ++ regTable4 ++ regTable5 ++ regTable6 ++ regTable7 ++ regTable8 ++ regTable9 ++ regTable10 ++ regTable11

def fTILE_CTL_ABORT (i : Nat) : Fld := ⟨0x400000 + 0x1000 * i, 1, 1⟩
def fTILE_CTL_START (i : Nat) : Fld := ⟨0x400000 + 0x1000 * i, 0, 0⟩
def fTILE_STATUS_START_REJ (i : Nat) : Fld := ⟨0x400004 + 0x1000 * i, 10, 10⟩
def fTILE_STATUS_CLK (i : Nat) : Fld := ⟨0x400004 + 0x1000 * i, 9, 8⟩
def fTILE_STATUS_QNE (i : Nat) : Fld := ⟨0x400004 + 0x1000 * i, 7, 4⟩
def fTILE_STATUS_WAITING (i : Nat) : Fld := ⟨0x400004 + 0x1000 * i, 3, 3⟩
def fTILE_STATUS_STATE (i : Nat) : Fld := ⟨0x400004 + 0x1000 * i, 2, 0⟩
def fTILE_TRAP_CAUSE_VALID (i : Nat) : Fld := ⟨0x400008 + 0x1000 * i, 31, 31⟩
def fTILE_TRAP_CAUSE_MULTI (i : Nat) : Fld := ⟨0x400008 + 0x1000 * i, 30, 30⟩
def fTILE_TRAP_CAUSE_UNIT (i : Nat) : Fld := ⟨0x400008 + 0x1000 * i, 10, 8⟩
def fTILE_TRAP_CAUSE_CODE (i : Nat) : Fld := ⟨0x400008 + 0x1000 * i, 7, 0⟩
def fTILE_TRAP_PC_PC (i : Nat) : Fld := ⟨0x400010 + 0x1000 * i, 20, 0⟩
def fTILE_TRAP_INFO_INFO (i : Nat) : Fld := ⟨0x400018 + 0x1000 * i, 63, 0⟩
def fTILE_WAIT_LIMIT_LIMIT (i : Nat) : Fld := ⟨0x400020 + 0x1000 * i, 31, 0⟩
def fTILE_REPORT_PH_EN (i : Nat) : Fld := ⟨0x400024 + 0x1000 * i, 31, 31⟩
def fTILE_REPORT_PH_PH (i : Nat) : Fld := ⟨0x400024 + 0x1000 * i, 13, 0⟩
def fTILE_START_WIN_SIZE (i : Nat) : Fld := ⟨0x400028 + 0x1000 * i, 22, 16⟩
def fTILE_START_WIN_BASE (i : Nat) : Fld := ⟨0x400028 + 0x1000 * i, 8, 0⟩
def fTILE_START_ENTRY_ENTRY (i : Nat) : Fld := ⟨0x40002C + 0x1000 * i, 17, 0⟩
def fTILE_START_ARG0_ARG (i : Nat) : Fld := ⟨0x400030 + 0x1000 * i, 63, 0⟩
def fTILE_START_ARG1_ARG (i : Nat) : Fld := ⟨0x400038 + 0x1000 * i, 63, 0⟩
def fTILE_TOKEN_COUNT (i j : Nat) : Fld := ⟨0x400040 + 0x1000 * i + 0x4 * j, 15, 0⟩
def fTILE_QOCC_MSG (i : Nat) : Fld := ⟨0x400080 + 0x1000 * i, 29, 24⟩
def fTILE_QOCC_STR (i : Nat) : Fld := ⟨0x400080 + 0x1000 * i, 21, 16⟩
def fTILE_QOCC_VEC (i : Nat) : Fld := ⟨0x400080 + 0x1000 * i, 12, 6⟩
def fTILE_QOCC_MAT (i : Nat) : Fld := ⟨0x400080 + 0x1000 * i, 4, 0⟩
def fTILE_PC_PC (i : Nat) : Fld := ⟨0x400088 + 0x1000 * i, 20, 0⟩
def fTILE_MAT_CTL_LAPSE_TRAP (i : Nat) : Fld := ⟨0x400100 + 0x1000 * i, 0, 0⟩
def fTILE_ACC0_STATUS_UNVERIFIED (i : Nat) : Fld := ⟨0x400108 + 0x1000 * i, 5, 5⟩
def fTILE_ACC0_STATUS_WRITING (i : Nat) : Fld := ⟨0x400108 + 0x1000 * i, 4, 4⟩
def fTILE_ACC0_STATUS_OVF16 (i : Nat) : Fld := ⟨0x400108 + 0x1000 * i, 3, 3⟩
def fTILE_ACC0_STATUS_NONFIN (i : Nat) : Fld := ⟨0x400108 + 0x1000 * i, 2, 2⟩
def fTILE_ACC0_STATUS_BOUND_LAPSED (i : Nat) : Fld := ⟨0x400108 + 0x1000 * i, 1, 1⟩
def fTILE_ACC0_STATUS_FOLDED (i : Nat) : Fld := ⟨0x400108 + 0x1000 * i, 0, 0⟩
def fTILE_ACC1_STATUS_UNVERIFIED (i : Nat) : Fld := ⟨0x40010C + 0x1000 * i, 5, 5⟩
def fTILE_ACC1_STATUS_WRITING (i : Nat) : Fld := ⟨0x40010C + 0x1000 * i, 4, 4⟩
def fTILE_ACC1_STATUS_OVF16 (i : Nat) : Fld := ⟨0x40010C + 0x1000 * i, 3, 3⟩
def fTILE_ACC1_STATUS_NONFIN (i : Nat) : Fld := ⟨0x40010C + 0x1000 * i, 2, 2⟩
def fTILE_ACC1_STATUS_BOUND_LAPSED (i : Nat) : Fld := ⟨0x40010C + 0x1000 * i, 1, 1⟩
def fTILE_ACC1_STATUS_FOLDED (i : Nat) : Fld := ⟨0x40010C + 0x1000 * i, 0, 0⟩
def fTILE_ACC0_COUNT_L2 (i : Nat) : Fld := ⟨0x400110 + 0x1000 * i, 40, 20⟩
def fTILE_ACC0_COUNT_L1 (i : Nat) : Fld := ⟨0x400110 + 0x1000 * i, 19, 0⟩
def fTILE_ACC1_COUNT_L2 (i : Nat) : Fld := ⟨0x400118 + 0x1000 * i, 40, 20⟩
def fTILE_ACC1_COUNT_L1 (i : Nat) : Fld := ⟨0x400118 + 0x1000 * i, 19, 0⟩
def fCMP_MODE_DETERM : Fld := ⟨0x500000, 0, 0⟩
def fTILE_VEC_REFEN_REASON (i : Nat) : Fld := ⟨0x400400 + 0x1000 * i, 1, 0⟩
def fTILE_VEC_STATUS_HELD_KIB (i : Nat) : Fld := ⟨0x400404 + 0x1000 * i, 22, 16⟩
def fTILE_VEC_STATUS_REPLAY_N (i : Nat) : Fld := ⟨0x400404 + 0x1000 * i, 14, 6⟩
def fTILE_VEC_STATUS_OCM (i : Nat) : Fld := ⟨0x400404 + 0x1000 * i, 3, 3⟩
def fTILE_VEC_STATUS_PERS (i : Nat) : Fld := ⟨0x400404 + 0x1000 * i, 2, 2⟩
def fTILE_VEC_STATUS_REPLAYING (i : Nat) : Fld := ⟨0x400404 + 0x1000 * i, 1, 1⟩
def fTILE_VEC_STATUS_WINDOW (i : Nat) : Fld := ⟨0x400404 + 0x1000 * i, 0, 0⟩
def fTILE_VEC_END_BSTAT_NONFIN (i : Nat) : Fld := ⟨0x400408 + 0x1000 * i, 1, 1⟩
def fTILE_VEC_END_BSTAT_SAT (i : Nat) : Fld := ⟨0x400408 + 0x1000 * i, 0, 0⟩
def fTILE_VEC_WINDOWS_REPLAYS (i : Nat) : Fld := ⟨0x400410 + 0x1000 * i, 63, 32⟩
def fTILE_VEC_WINDOWS_OPENED (i : Nat) : Fld := ⟨0x400410 + 0x1000 * i, 31, 0⟩
def fTILE_FILL_STATUS_OPT_N (i : Nat) : Fld := ⟨0x400A00 + 0x1000 * i, 23, 19⟩
def fTILE_FILL_STATUS_DEFER_N (i : Nat) : Fld := ⟨0x400A00 + 0x1000 * i, 18, 12⟩
def fTILE_FILL_STATUS_WB (i : Nat) : Fld := ⟨0x400A00 + 0x1000 * i, 11, 11⟩
def fTILE_FILL_STATUS_RES_V (i : Nat) : Fld := ⟨0x400A00 + 0x1000 * i, 10, 10⟩
def fTILE_FILL_STATUS_BOUND (i : Nat) : Fld := ⟨0x400A00 + 0x1000 * i, 9, 9⟩
def fTILE_FILL_STATUS_BACC (i : Nat) : Fld := ⟨0x400A00 + 0x1000 * i, 8, 8⟩
def fTILE_FILL_STATUS_HOLD (i : Nat) : Fld := ⟨0x400A00 + 0x1000 * i, 2, 2⟩
def fTILE_FILL_STATUS_LEVEL (i : Nat) : Fld := ⟨0x400A00 + 0x1000 * i, 1, 0⟩
def fTILE_DEFER_RESIDENT_GROUP (i : Nat) : Fld := ⟨0x400A08 + 0x1000 * i, 63, 52⟩
def fTILE_DEFER_RESIDENT_ADDR (i : Nat) : Fld := ⟨0x400A08 + 0x1000 * i, 51, 0⟩
def fTILE_DEFER_FOREIGN_COUNT (i : Nat) : Fld := ⟨0x400A10 + 0x1000 * i, 31, 0⟩
def fTILE_STALL_COUNT (i j : Nat) : Fld := ⟨0x400A40 + 0x1000 * i + 0x8 * j, 63, 0⟩
def fCMP_PHASE_REDRAWING : Fld := ⟨0x501000, 17, 17⟩
def fCMP_PHASE_VALID : Fld := ⟨0x501000, 16, 16⟩
def fCMP_PHASE_CUR : Fld := ⟨0x501000, 3, 0⟩
def fCMP_REDRAW_LAST_NS : Fld := ⟨0x501004, 31, 0⟩
def fCMP_PHASE_START_START (i : Nat) : Fld := ⟨0x501100 + 0x10 * i, 63, 0⟩
def fCMP_PHASE_LAST_NS (i : Nat) : Fld := ⟨0x501108 + 0x10 * i, 31, 0⟩
def fCMP_PHASE_COUNT_COUNT (i : Nat) : Fld := ⟨0x50110C + 0x10 * i, 31, 0⟩
def fTILE_STR_SPLIT_REMOTE (i : Nat) : Fld := ⟨0x400700 + 0x1000 * i, 14, 10⟩
def fTILE_STR_SPLIT_WRITE (i : Nat) : Fld := ⟨0x400700 + 0x1000 * i, 9, 5⟩
def fTILE_STR_SPLIT_READ (i : Nat) : Fld := ⟨0x400700 + 0x1000 * i, 4, 0⟩
def fTILE_STR_STATUS_SPLIT_REJ (i : Nat) : Fld := ⟨0x400704 + 0x1000 * i, 31, 31⟩
def fTILE_STR_STATUS_VER_STALE (i : Nat) : Fld := ⟨0x400704 + 0x1000 * i, 30, 30⟩
def fTILE_STR_STATUS_NONFIN (i : Nat) : Fld := ⟨0x400704 + 0x1000 * i, 29, 29⟩
def fTILE_STR_STATUS_SAT (i : Nat) : Fld := ⟨0x400704 + 0x1000 * i, 28, 28⟩
def fTILE_STR_STATUS_REMOUT (i : Nat) : Fld := ⟨0x400704 + 0x1000 * i, 26, 18⟩
def fTILE_STR_STATUS_MEMOUT (i : Nat) : Fld := ⟨0x400704 + 0x1000 * i, 17, 9⟩
def fTILE_STR_STATUS_PFACT (i : Nat) : Fld := ⟨0x400704 + 0x1000 * i, 7, 0⟩
def fTILE_STR_ERR_VALID (i : Nat) : Fld := ⟨0x400708 + 0x1000 * i, 31, 31⟩
def fTILE_STR_ERR_PC (i : Nat) : Fld := ⟨0x400708 + 0x1000 * i, 28, 8⟩
def fTILE_STR_ERR_CODE (i : Nat) : Fld := ⟨0x400708 + 0x1000 * i, 7, 0⟩
def fTILE_STR_ERR_ADDR_ADDR (i : Nat) : Fld := ⟨0x400710 + 0x1000 * i, 63, 0⟩
def fTILE_STR_LASTVER_VERSION (i : Nat) : Fld := ⟨0x400718 + 0x1000 * i, 31, 0⟩
def fTILE_VERIFY_STATUS_RECOMPUTING (i : Nat) : Fld := ⟨0x400720 + 0x1000 * i, 8, 8⟩
def fTILE_VERIFY_STATUS_SNAP_ACC (i : Nat) : Fld := ⟨0x400720 + 0x1000 * i, 7, 7⟩
def fTILE_VERIFY_STATUS_SNAP_BUSY (i : Nat) : Fld := ⟨0x400720 + 0x1000 * i, 6, 6⟩
def fTILE_VERIFY_STATUS_CHAIN1 (i : Nat) : Fld := ⟨0x400720 + 0x1000 * i, 5, 3⟩
def fTILE_VERIFY_STATUS_CHAIN0 (i : Nat) : Fld := ⟨0x400720 + 0x1000 * i, 2, 0⟩
def fTILE_PF_ROUNDS (i j : Nat) : Fld := ⟨0x400740 + 0x1000 * i + 0x8 * j, 63, 32⟩
def fTILE_PF_REMOTE (i j : Nat) : Fld := ⟨0x400740 + 0x1000 * i + 0x8 * j, 14, 14⟩
def fTILE_PF_HELD (i j : Nat) : Fld := ⟨0x400740 + 0x1000 * i + 0x8 * j, 13, 8⟩
def fTILE_PF_ACTIVE (i j : Nat) : Fld := ⟨0x400740 + 0x1000 * i + 0x8 * j, 7, 7⟩
def fTILE_PF_PERSIST (i j : Nat) : Fld := ⟨0x400740 + 0x1000 * i + 0x8 * j, 6, 6⟩
def fTILE_PF_DEPTH (i j : Nat) : Fld := ⟨0x400740 + 0x1000 * i + 0x8 * j, 5, 0⟩
def fTILE_STR_STALL_COUNT (i j : Nat) : Fld := ⟨0x400780 + 0x1000 * i + 0x8 * j, 63, 0⟩
def fMEM_CTL_LOCK : Fld := ⟨0x600000, 0, 0⟩
def fMEM_EDDY_CTL_KEEP_WAYS : Fld := ⟨0x600010, 3, 0⟩
def fMEM_SCRUB_CTL_SRAM_S : Fld := ⟨0x600014, 27, 16⟩
def fMEM_SCRUB_CTL_DRAM_H : Fld := ⟨0x600014, 7, 0⟩
def fMEM_ERR_STATUS_DP_UE : Fld := ⟨0x600020, 5, 5⟩
def fMEM_ERR_STATUS_SRAM_UE : Fld := ⟨0x600020, 4, 4⟩
def fMEM_ERR_STATUS_HARD_CE : Fld := ⟨0x600020, 3, 3⟩
def fMEM_ERR_STATUS_POISON_READ : Fld := ⟨0x600020, 2, 2⟩
def fMEM_ERR_STATUS_UE : Fld := ⟨0x600020, 1, 1⟩
def fMEM_ERR_STATUS_CE : Fld := ⟨0x600020, 0, 0⟩
def fMEM_ERR_ADDR_VALID : Fld := ⟨0x600028, 63, 63⟩
def fMEM_ERR_ADDR_POISON : Fld := ⟨0x600028, 62, 62⟩
def fMEM_ERR_ADDR_SCRUB : Fld := ⟨0x600028, 61, 61⟩
def fMEM_ERR_ADDR_ADDR : Fld := ⟨0x600028, 51, 0⟩
def fMEM_CE_COUNT_SRAM : Fld := ⟨0x600030, 63, 32⟩
def fMEM_CE_COUNT_DRAM : Fld := ⟨0x600030, 31, 0⟩
def fMEM_UE_COUNT_SRAM : Fld := ⟨0x600038, 63, 32⟩
def fMEM_UE_COUNT_DRAM : Fld := ⟨0x600038, 31, 0⟩
def fMEM_EDDY_KEEP_OVER_COUNT : Fld := ⟨0x600040, 31, 0⟩
def fMEM_SCRUB_PASSES_SRAM : Fld := ⟨0x600048, 31, 16⟩
def fMEM_SCRUB_PASSES_DRAM : Fld := ⟨0x600048, 15, 0⟩
def fMEM_QUAD_EDDY (i : Nat) : Fld := ⟨0x600100 + 0x4 * i, 2, 2⟩
def fMEM_QUAD_MODE (i : Nat) : Fld := ⟨0x600100 + 0x4 * i, 1, 0⟩
def fTIER_CTL_REGIONS : Fld := ⟨0x700000, 14, 8⟩
def fTIER_CTL_LOAD : Fld := ⟨0x700000, 0, 0⟩
def fTIER_STATUS_FAIL_REGION : Fld := ⟨0x700004, 29, 24⟩
def fTIER_STATUS_LOAD_CODE : Fld := ⟨0x700004, 23, 16⟩
def fTIER_STATUS_LOADING : Fld := ⟨0x700004, 1, 1⟩
def fTIER_STATUS_READY : Fld := ⟨0x700004, 0, 0⟩
def fTIER_REGION_TAB_ADDR : Fld := ⟨0x700008, 51, 0⟩
def fTIER_DIR_PH_VALID : Fld := ⟨0x700010, 31, 31⟩
def fTIER_DIR_PH_PH : Fld := ⟨0x700010, 13, 0⟩
def fTIER_FLASH_INFO_LIFE : Fld := ⟨0x700018, 47, 40⟩
def fTIER_FLASH_INFO_SPARE : Fld := ⟨0x700018, 39, 32⟩
def fTIER_FLASH_INFO_TILES : Fld := ⟨0x700018, 31, 0⟩
def fTIER_FLASH_CTL_WEAR_MBPS : Fld := ⟨0x700020, 12, 0⟩
def fTIER_ERR_SPARE_LOW : Fld := ⟨0x700028, 3, 3⟩
def fTIER_ERR_FLASH_FULL : Fld := ⟨0x700028, 2, 2⟩
def fTIER_ERR_FLASH_READ_FAIL : Fld := ⟨0x700028, 1, 1⟩
def fTIER_ERR_ENTRY_LOST : Fld := ⟨0x700028, 0, 0⟩
def fTIER_EVENT_COUNT (i : Nat) : Fld := ⟨0x700100 + 0x8 * i, 63, 0⟩
def fUPD_STEP_OPEN : Fld := ⟨0x800000, 63, 32⟩
def fUPD_STEP_COMMITTED : Fld := ⟨0x800000, 31, 0⟩
def fUPD_STATUS_VALID : Fld := ⟨0x800008, 16, 16⟩
def fUPD_STATUS_EVAL : Fld := ⟨0x800008, 14, 14⟩
def fUPD_STATUS_ENG_BUSY : Fld := ⟨0x800008, 13, 8⟩
def fUPD_STATUS_RES2_NONFIN : Fld := ⟨0x800008, 3, 3⟩
def fUPD_STATUS_RES2_V : Fld := ⟨0x800008, 2, 2⟩
def fUPD_STATUS_RES1_NONFIN : Fld := ⟨0x800008, 1, 1⟩
def fUPD_STATUS_RES1_V : Fld := ⟨0x800008, 0, 0⟩
def fUPD_PH_VALID : Fld := ⟨0x80000C, 31, 31⟩
def fUPD_PH_PH : Fld := ⟨0x80000C, 13, 0⟩
def fUPD_ERR_RESOLVE_ORDER : Fld := ⟨0x800010, 3, 3⟩
def fUPD_ERR_STEP_REJECT : Fld := ⟨0x800010, 2, 2⟩
def fUPD_ERR_NONFIN_LATE : Fld := ⟨0x800010, 1, 1⟩
def fUPD_ERR_NONFIN_SKIP : Fld := ⟨0x800010, 0, 0⟩
def fUPD_ERR_INFO_VALID : Fld := ⟨0x800018, 63, 63⟩
def fUPD_ERR_INFO_KIND : Fld := ⟨0x800018, 61, 60⟩
def fUPD_ERR_INFO_GROUP : Fld := ⟨0x800018, 59, 48⟩
def fUPD_ERR_INFO_STEP : Fld := ⟨0x800018, 31, 0⟩
def fUPD_STEP_REC_ADDR : Fld := ⟨0x800020, 51, 0⟩
def fUPD_EVENT_COUNT (i : Nat) : Fld := ⟨0x800100 + 0x8 * i, 63, 0⟩
def fUPD_GROUP_PRIV (i : Nat) : Fld := ⟨0x808000 + 0x8 * i, 34, 34⟩
def fUPD_GROUP_FALLBACK (i : Nat) : Fld := ⟨0x808000 + 0x8 * i, 33, 33⟩
def fUPD_GROUP_BANK (i : Nat) : Fld := ⟨0x808000 + 0x8 * i, 32, 32⟩
def fUPD_GROUP_T (i : Nat) : Fld := ⟨0x808000 + 0x8 * i, 31, 0⟩
def fOPT_FAB_CTL_WINDOW_MS : Fld := ⟨0xA00000, 23, 8⟩
def fOPT_FAB_CTL_DISC_CLOSE : Fld := ⟨0xA00000, 1, 1⟩
def fOPT_FAB_CTL_DISC_START : Fld := ⟨0xA00000, 0, 0⟩
def fOPT_FAB_STATUS_DEGRADED : Fld := ⟨0xA00004, 10, 10⟩
def fOPT_FAB_STATUS_PENDING : Fld := ⟨0xA00004, 9, 9⟩
def fOPT_FAB_STATUS_SUBST : Fld := ⟨0xA00004, 8, 8⟩
def fOPT_FAB_STATUS_SPARE : Fld := ⟨0xA00004, 7, 7⟩
def fOPT_FAB_STATUS_SPLIT : Fld := ⟨0xA00004, 5, 4⟩
def fOPT_FAB_STATUS_DSTATE : Fld := ⟨0xA00004, 2, 0⟩
def fOPT_POS_LCOL : Fld := ⟨0xA00008, 30, 24⟩
def fOPT_POS_LROW : Fld := ⟨0xA00008, 22, 16⟩
def fOPT_POS_COL : Fld := ⟨0xA00008, 14, 8⟩
def fOPT_POS_ROW : Fld := ⟨0xA00008, 6, 0⟩
def fOPT_SERIAL_SERIAL : Fld := ⟨0xA00010, 63, 0⟩
def fOPT_FAB_ERR_ROUTE_LATE : Fld := ⟨0xA00020, 8, 8⟩
def fOPT_FAB_ERR_SUBST_DUP : Fld := ⟨0xA00020, 7, 7⟩
def fOPT_FAB_ERR_ROUTE_NONE : Fld := ⟨0xA00020, 6, 6⟩
def fOPT_FAB_ERR_LANE_UNPAIRED : Fld := ⟨0xA00020, 5, 5⟩
def fOPT_FAB_ERR_TWIN_MISMATCH : Fld := ⟨0xA00020, 4, 4⟩
def fOPT_FAB_ERR_POSITION_CONFLICT : Fld := ⟨0xA00020, 3, 3⟩
def fOPT_FAB_ERR_SPLIT_MISMATCH : Fld := ⟨0xA00020, 2, 2⟩
def fOPT_FAB_ERR_MISCABLED : Fld := ⟨0xA00020, 1, 1⟩
def fOPT_FAB_ERR_DISC_FAILED : Fld := ⟨0xA00020, 0, 0⟩
def fOPT_FAB_EVENT_COUNT (i : Nat) : Fld := ⟨0xA00040 + 0x8 * i, 63, 0⟩
def fOPT_PORT_WAVE2 (i : Nat) : Fld := ⟨0xA00100 + 0x4 * i, 22, 22⟩
def fOPT_PORT_LANES (i : Nat) : Fld := ⟨0xA00100 + 0x4 * i, 21, 16⟩
def fOPT_PORT_SELF (i : Nat) : Fld := ⟨0xA00100 + 0x4 * i, 14, 8⟩
def fOPT_PORT_PSTATE (i : Nat) : Fld := ⟨0xA00100 + 0x4 * i, 4, 2⟩
def fOPT_PORT_ROLE (i : Nat) : Fld := ⟨0xA00100 + 0x4 * i, 1, 0⟩
def fOPT_PEERS_LO_PEERS (i : Nat) : Fld := ⟨0xA00200 + 0x10 * i, 63, 0⟩
def fOPT_PEERS_HI_PEER64 (i : Nat) : Fld := ⟨0xA00208 + 0x10 * i, 0, 0⟩
def fOPT_TWIN_VIA_FABRIC : Fld := ⟨0xA00300, 18, 18⟩
def fOPT_TWIN_TSTATE : Fld := ⟨0xA00300, 17, 16⟩
def fOPT_TWIN_COL : Fld := ⟨0xA00300, 14, 8⟩
def fOPT_TWIN_ROW : Fld := ⟨0xA00300, 6, 0⟩
def fOPT_ROUTE_CTL_AT_PHASE : Fld := ⟨0xA00400, 11, 8⟩
def fOPT_ROUTE_CTL_APPLY : Fld := ⟨0xA00400, 0, 0⟩
def fOPT_ROUTE_AT_AT_COUNT : Fld := ⟨0xA00404, 31, 0⟩
def fOPT_ROWSUB_V (i : Nat) : Fld := ⟨0xA00500 + 0x4 * i, 7, 7⟩
def fOPT_ROWSUB_COL (i : Nat) : Fld := ⟨0xA00500 + 0x4 * i, 6, 0⟩
def fOPT_COLSUB_V (i : Nat) : Fld := ⟨0xA00600 + 0x4 * i, 7, 7⟩
def fOPT_COLSUB_ROW (i : Nat) : Fld := ⟨0xA00600 + 0x4 * i, 6, 0⟩
def fOPT_DEAD_DEAD (i : Nat) : Fld := ⟨0xA00800 + 0x4 * i, 31, 0⟩
def fMBX_CFG_OWNER (i : Nat) : Fld := ⟨0x900000 + 0x40 * i, 15, 8⟩
def fMBX_CFG_SEAL (i : Nat) : Fld := ⟨0x900000 + 0x40 * i, 5, 5⟩
def fMBX_CFG_STAGE (i : Nat) : Fld := ⟨0x900000 + 0x40 * i, 4, 4⟩
def fMBX_CFG_KIND (i : Nat) : Fld := ⟨0x900000 + 0x40 * i, 3, 0⟩
def fMBX_COUNT_COUNT (i : Nat) : Fld := ⟨0x900004 + 0x40 * i, 16, 0⟩
def fMBX_HELD_RESV (i : Nat) : Fld := ⟨0x900008 + 0x40 * i, 31, 17⟩
def fMBX_HELD_HELD (i : Nat) : Fld := ⟨0x900008 + 0x40 * i, 16, 0⟩
def fMBX_ERR_MC_REMOVED (i : Nat) : Fld := ⟨0x90000C + 0x40 * i, 4, 4⟩
def fMBX_ERR_NO_RESV (i : Nat) : Fld := ⟨0x90000C + 0x40 * i, 3, 3⟩
def fMBX_ERR_UNREACH (i : Nat) : Fld := ⟨0x90000C + 0x40 * i, 2, 2⟩
def fMBX_ERR_FOREIGN (i : Nat) : Fld := ⟨0x90000C + 0x40 * i, 1, 1⟩
def fMBX_ERR_OVERRUN (i : Nat) : Fld := ⟨0x90000C + 0x40 * i, 0, 0⟩
def fMBX_TOTAL_TAKEN (i : Nat) : Fld := ⟨0x900010 + 0x40 * i, 63, 32⟩
def fMBX_TOTAL_ARRIVED (i : Nat) : Fld := ⟨0x900010 + 0x40 * i, 31, 0⟩
def fCMP_MBX_STATUS_VALID : Fld := ⟨0x502000, 31, 31⟩
def fCMP_MBX_STATUS_BARS : Fld := ⟨0x502000, 26, 16⟩
def fCMP_MBX_STATUS_COLLS : Fld := ⟨0x502000, 8, 0⟩
def fCMP_FAB_OUT_COLL : Fld := ⟨0x502008, 47, 32⟩
def fCMP_FAB_OUT_REPLY : Fld := ⟨0x502008, 31, 16⟩
def fCMP_FAB_OUT_REQ : Fld := ⟨0x502008, 15, 0⟩
def fCMP_FAB_LIMITS_HOLD_MS : Fld := ⟨0x502010, 31, 16⟩
def fCMP_FAB_LIMITS_E2E_US : Fld := ⟨0x502010, 15, 0⟩
def fCMP_MC_STALL_LIMIT_NS : Fld := ⟨0x502014, 19, 0⟩
def fCMP_CC_CTL_ADD : Fld := ⟨0x502018, 31, 24⟩
def fCMP_CC_CTL_WINDOW_US : Fld := ⟨0x502018, 23, 16⟩
def fCMP_CC_CTL_CUT : Fld := ⟨0x502018, 15, 8⟩
def fCMP_CC_CTL_MARK_PCT : Fld := ⟨0x502018, 7, 0⟩
def fCMP_CC_PIN_EN : Fld := ⟨0x50201C, 31, 31⟩
def fCMP_CC_PIN_RATE : Fld := ⟨0x50201C, 8, 0⟩
def fCMP_FAB_ERR_SYNC_LOST : Fld := ⟨0x502020, 5, 5⟩
def fCMP_FAB_ERR_BAR_SKEW : Fld := ⟨0x502020, 4, 4⟩
def fCMP_FAB_ERR_COLL_AHEAD : Fld := ⟨0x502020, 3, 3⟩
def fCMP_FAB_ERR_NO_RESV : Fld := ⟨0x502020, 2, 2⟩
def fCMP_FAB_ERR_RING_OVERRUN : Fld := ⟨0x502020, 1, 1⟩
def fCMP_FAB_ERR_MSG_UNREACH : Fld := ⟨0x502020, 0, 0⟩
def fCMP_TB_STATUS_LOCKED : Fld := ⟨0x502028, 31, 31⟩
def fCMP_TB_STATUS_ROOT : Fld := ⟨0x502028, 30, 30⟩
def fCMP_TB_STATUS_LEVEL : Fld := ⟨0x502028, 29, 28⟩
def fCMP_TB_STATUS_OFFSET : Fld := ⟨0x502028, 15, 0⟩
def fCMP_FAB_EVENT_COUNT (i : Nat) : Fld := ⟨0x502100 + 0x8 * i, 63, 0⟩
def fCMP_GAUGE_VALID (i : Nat) : Fld := ⟨0x503000 + 0x4 * i, 31, 31⟩
def fCMP_GAUGE_BY_DEADLINE (i : Nat) : Fld := ⟨0x503000 + 0x4 * i, 30, 30⟩
def fCMP_GAUGE_CLOSURES (i : Nat) : Fld := ⟨0x503000 + 0x4 * i, 23, 0⟩
def fCMP_COLL_VALID (i : Nat) : Fld := ⟨0x504000 + 0x10 * i, 41, 41⟩
def fCMP_COLL_NF (i : Nat) : Fld := ⟨0x504000 + 0x10 * i, 40, 40⟩
def fCMP_COLL_BY_DEADLINE (i : Nat) : Fld := ⟨0x504000 + 0x10 * i, 39, 39⟩
def fCMP_COLL_COUNTED (i : Nat) : Fld := ⟨0x504000 + 0x10 * i, 38, 32⟩
def fCMP_COLL_STEP (i : Nat) : Fld := ⟨0x504000 + 0x10 * i, 31, 0⟩
def fCMP_COLL_LATE_COUNT (i : Nat) : Fld := ⟨0x504008 + 0x10 * i, 63, 0⟩
def fOPT_ENG_HOT (i : Nat) : Fld := ⟨0xA10000 + 0x4 * i, 16, 16⟩
def fOPT_ENG_LANES (i : Nat) : Fld := ⟨0xA10000 + 0x4 * i, 13, 8⟩
def fOPT_ENG_TEMP (i : Nat) : Fld := ⟨0xA10000 + 0x4 * i, 7, 0⟩
def fOPT_LINK_ERR_CAL_FAIL : Fld := ⟨0xA10100, 3, 3⟩
def fOPT_LINK_ERR_PORT_NARROW : Fld := ⟨0xA10100, 2, 2⟩
def fOPT_LINK_ERR_ENG_HOT : Fld := ⟨0xA10100, 1, 1⟩
def fOPT_LINK_ERR_LANE_DROP : Fld := ⟨0xA10100, 0, 0⟩
def fOPT_SCAN_CTL_PERIOD_S : Fld := ⟨0xA10110, 11, 0⟩
def fOPT_LINK_EVENT_COUNT (i : Nat) : Fld := ⟨0xA10200 + 0x8 * i, 63, 0⟩
def fOPT_LANE_ERRS (i j : Nat) : Fld := ⟨0xA11000 + 0x80 * i + 0x4 * j, 31, 20⟩
def fOPT_LANE_LOCKERR (i j : Nat) : Fld := ⟨0xA11000 + 0x80 * i + 0x4 * j, 19, 12⟩
def fOPT_LANE_LINE (i j : Nat) : Fld := ⟨0xA11000 + 0x80 * i + 0x4 * j, 11, 4⟩
def fOPT_LANE_LSTATE (i j : Nat) : Fld := ⟨0xA11000 + 0x80 * i + 0x4 * j, 3, 0⟩
def fLAS_CTL_SRC : Fld := ⟨0xB00000, 5, 1⟩
def fLAS_CTL_SWAP : Fld := ⟨0xB00000, 0, 0⟩
def fLAS_STATUS_REQ_REJ : Fld := ⟨0xB00004, 16, 16⟩
def fLAS_STATUS_SWAPS : Fld := ⟨0xB00004, 15, 8⟩
def fLAS_STATUS_SPARES_FREE : Fld := ⟨0xB00004, 1, 0⟩
def fLAS_ERR_SPARES_EXHAUSTED : Fld := ⟨0xB00010, 2, 2⟩
def fLAS_ERR_LASER_FAILING : Fld := ⟨0xB00010, 1, 1⟩
def fLAS_ERR_LASER_FADING : Fld := ⟨0xB00010, 0, 0⟩
def fLAS_MAP_SPARED (i : Nat) : Fld := ⟨0xB00100 + 0x4 * i, 8, 8⟩
def fLAS_MAP_SRC (i : Nat) : Fld := ⟨0xB00100 + 0x4 * i, 4, 0⟩
def fLAS_SRC_P0 (i : Nat) : Fld := ⟨0xB00200 + 0x8 * i, 63, 48⟩
def fLAS_SRC_POWER (i : Nat) : Fld := ⟨0xB00200 + 0x8 * i, 47, 32⟩
def fLAS_SRC_DRIVE (i : Nat) : Fld := ⟨0xB00200 + 0x8 * i, 31, 24⟩
def fLAS_SRC_ENGINE (i : Nat) : Fld := ⟨0xB00200 + 0x8 * i, 12, 8⟩
def fLAS_SRC_STAGE (i : Nat) : Fld := ⟨0xB00200 + 0x8 * i, 2, 0⟩
def fTWN_CTL_RANGES : Fld := ⟨0xC00000, 14, 8⟩
def fTWN_CTL_FORCE : Fld := ⟨0xC00000, 5, 5⟩
def fTWN_CTL_RESTORE_RX : Fld := ⟨0xC00000, 4, 4⟩
def fTWN_CTL_RESTORE_TX : Fld := ⟨0xC00000, 3, 3⟩
def fTWN_CTL_LOAD : Fld := ⟨0xC00000, 1, 1⟩
def fTWN_CTL_EN : Fld := ⟨0xC00000, 0, 0⟩
def fTWN_STATUS_TARGET_REJ : Fld := ⟨0xC00004, 6, 6⟩
def fTWN_STATUS_MAP_OK : Fld := ⟨0xC00004, 5, 5⟩
def fTWN_STATUS_EXPOSED : Fld := ⟨0xC00004, 4, 4⟩
def fTWN_STATUS_ARRIVED : Fld := ⟨0xC00004, 3, 3⟩
def fTWN_STATUS_STATE : Fld := ⟨0xC00004, 2, 0⟩
def fTWN_MAP_ADDR_ADDR : Fld := ⟨0xC00008, 51, 0⟩
def fTWN_RX_BASE_ADDR : Fld := ⟨0xC00010, 51, 0⟩
def fTWN_STEPS_LANDED : Fld := ⟨0xC00018, 63, 32⟩
def fTWN_STEPS_AGREED : Fld := ⟨0xC00018, 31, 0⟩
def fTWN_TARGET_T : Fld := ⟨0xC00020, 31, 0⟩
def fTWN_OWED_LOG : Fld := ⟨0xC00028, 44, 24⟩
def fTWN_OWED_IMAGE : Fld := ⟨0xC00028, 23, 0⟩
def fTWN_ERR_RESTORE_FAIL : Fld := ⟨0xC00030, 4, 4⟩
def fTWN_ERR_SHADOW_UE : Fld := ⟨0xC00030, 3, 3⟩
def fTWN_ERR_MAP_MISMATCH : Fld := ⟨0xC00030, 2, 2⟩
def fTWN_ERR_MAP_BAD : Fld := ⟨0xC00030, 1, 1⟩
def fTWN_ERR_TWIN_LOST : Fld := ⟨0xC00030, 0, 0⟩
def fTWN_EVENT_COUNT (i : Nat) : Fld := ⟨0xC00100 + 0x8 * i, 63, 0⟩
def fPKG_STATUS_DEGRADED : Fld := ⟨0x300000, 9, 9⟩
def fPKG_STATUS_LIMITED : Fld := ⟨0x300000, 8, 8⟩
def fPKG_STATUS_UP : Fld := ⟨0x300000, 7, 4⟩
def fPKG_STATUS_PRESENT : Fld := ⟨0x300000, 3, 0⟩
def fPKG_BASE_ID_STEPPING : Fld := ⟨0x300004, 7, 0⟩
def fPKG_FEATURE_EFF_FEATURES : Fld := ⟨0x300008, 63, 0⟩
def fPKG_ERR_REF_LOST : Fld := ⟨0x300010, 5, 5⟩
def fPKG_ERR_COMPAT : Fld := ⟨0x300010, 4, 4⟩
def fPKG_ERR_REJOIN_REJ : Fld := ⟨0x300010, 3, 3⟩
def fPKG_ERR_DIE_FAILED : Fld := ⟨0x300010, 2, 2⟩
def fPKG_ERR_WEIR_FAIL : Fld := ⟨0x300010, 1, 1⟩
def fPKG_ERR_DIE_LOST : Fld := ⟨0x300010, 0, 0⟩
def fPKG_AON_ON_LOCAL : Fld := ⟨0x300014, 0, 0⟩
def fPKG_CLK_CTL_NAP_AFTER_US : Fld := ⟨0x300018, 13, 0⟩
def fPKG_DIE_STATUS_STEPPING (i : Nat) : Fld := ⟨0x300100 + 0x40 * i, 31, 24⟩
def fPKG_DIE_STATUS_SPARES_USED (i : Nat) : Fld := ⟨0x300100 + 0x40 * i, 19, 18⟩
def fPKG_DIE_STATUS_ATTEMPTS (i : Nat) : Fld := ⟨0x300100 + 0x40 * i, 17, 16⟩
def fPKG_DIE_STATUS_REASON (i : Nat) : Fld := ⟨0x300100 + 0x40 * i, 11, 8⟩
def fPKG_DIE_STATUS_STATE (i : Nat) : Fld := ⟨0x300100 + 0x40 * i, 2, 0⟩
def fPKG_DIE_CTL_JOIN (i : Nat) : Fld := ⟨0x300104 + 0x40 * i, 2, 2⟩
def fPKG_DIE_CTL_HOLD (i : Nat) : Fld := ⟨0x300104 + 0x40 * i, 1, 1⟩
def fPKG_DIE_CTL_RESET (i : Nat) : Fld := ⟨0x300104 + 0x40 * i, 0, 0⟩
def fPKG_DIE_FEATURE_FEATURES (i : Nat) : Fld := ⟨0x300108 + 0x40 * i, 63, 0⟩
def fPKG_DIE_ERRATA_MASK (i : Nat) : Fld := ⟨0x300110 + 0x40 * i, 63, 0⟩
def fPKG_DIE_LOST_AT_TIME (i : Nat) : Fld := ⟨0x300118 + 0x40 * i, 63, 0⟩
def fPKG_WEIR_RETRIES (i : Nat) : Fld := ⟨0x300120 + 0x40 * i, 63, 32⟩
def fPKG_WEIR_CRC_ERRS (i : Nat) : Fld := ⟨0x300120 + 0x40 * i, 31, 0⟩
def fPKG_CLUSTER_REQ_REJ (i : Nat) : Fld := ⟨0x300400 + 0x4 * i, 11, 11⟩
def fPKG_CLUSTER_RETAIN (i : Nat) : Fld := ⟨0x300400 + 0x4 * i, 10, 10⟩
def fPKG_CLUSTER_REQ (i : Nat) : Fld := ⟨0x300400 + 0x4 * i, 9, 8⟩
def fPKG_CLUSTER_MODE (i : Nat) : Fld := ⟨0x300400 + 0x4 * i, 5, 4⟩
def fPKG_CLUSTER_STATE (i : Nat) : Fld := ⟨0x300400 + 0x4 * i, 1, 0⟩
def fPWR_STATUS_INPUT_W : Fld := ⟨0x200000, 27, 16⟩
def fPWR_STATUS_BUCKET : Fld := ⟨0x200000, 15, 8⟩
def fPWR_STATUS_FAST : Fld := ⟨0x200000, 7, 7⟩
def fPWR_STATUS_RUN_EXPIRED : Fld := ⟨0x200000, 6, 6⟩
def fPWR_STATUS_CURR_LIM : Fld := ⟨0x200000, 5, 5⟩
def fPWR_STATUS_THERM_LIM : Fld := ⟨0x200000, 4, 4⟩
def fPWR_ERR_THERM_TRIP : Fld := ⟨0x200004, 7, 7⟩
def fPWR_ERR_PIN_OVERRIDE : Fld := ⟨0x200004, 6, 6⟩
def fPWR_ERR_COOLANT_HOT : Fld := ⟨0x200004, 5, 5⟩
def fPWR_ERR_STACK_HOT : Fld := ⟨0x200004, 4, 4⟩
def fPWR_ERR_POWER_LIMIT : Fld := ⟨0x200004, 3, 3⟩
def fPWR_ERR_THERM_LIMIT : Fld := ⟨0x200004, 2, 2⟩
def fPWR_ERR_RAIL_FAULT : Fld := ⟨0x200004, 1, 1⟩
def fPWR_ERR_VIN_RANGE : Fld := ⟨0x200004, 0, 0⟩
def fPWR_CONFLICT_COUNT (i : Nat) : Fld := ⟨0x200010 + 0x4 * i, 31, 0⟩
def fCLK_FMAX_FCODE : Fld := ⟨0x200020, 4, 0⟩
def fCLK_DROOP_CTL_TH_MV : Fld := ⟨0x200040, 5, 0⟩
def fCLK_DIE_CURR (i : Nat) : Fld := ⟨0x200100 + 0x20 * i, 28, 24⟩
def fCLK_DIE_THERM (i : Nat) : Fld := ⟨0x200100 + 0x20 * i, 20, 16⟩
def fCLK_DIE_CHOICE (i : Nat) : Fld := ⟨0x200100 + 0x20 * i, 12, 8⟩
def fCLK_DIE_FCODE (i : Nat) : Fld := ⟨0x200100 + 0x20 * i, 4, 0⟩
def fCLK_DVFS_PIN_EN (i : Nat) : Fld := ⟨0x200104 + 0x20 * i, 31, 31⟩
def fCLK_DVFS_PIN_BUDGET (i : Nat) : Fld := ⟨0x200104 + 0x20 * i, 23, 16⟩
def fCLK_DVFS_PIN_FCODE (i : Nat) : Fld := ⟨0x200104 + 0x20 * i, 4, 0⟩
def fCLK_STRETCH_DROOP (i : Nat) : Fld := ⟨0x200108 + 0x20 * i, 63, 32⟩
def fCLK_STRETCH_SLUICE (i : Nat) : Fld := ⟨0x200108 + 0x20 * i, 31, 0⟩
def fPWR_TEMP_VALID (i : Nat) : Fld := ⟨0x200400 + 0x4 * i, 31, 31⟩
def fPWR_TEMP_TEMP (i : Nat) : Fld := ⟨0x200400 + 0x4 * i, 11, 0⟩
def fPWR_VOLT_VALID (i : Nat) : Fld := ⟨0x200500 + 0x4 * i, 31, 31⟩
def fPWR_VOLT_MV (i : Nat) : Fld := ⟨0x200500 + 0x4 * i, 15, 0⟩
def fPWR_CURR_VALID (i : Nat) : Fld := ⟨0x200580 + 0x4 * i, 31, 31⟩
def fPWR_CURR_DA (i : Nat) : Fld := ⟨0x200580 + 0x4 * i, 15, 0⟩
def fPM_STATUS_RESTARTS : Fld := ⟨0x0, 23, 16⟩
def fPM_STATUS_TRIAL : Fld := ⟨0x0, 7, 7⟩
def fPM_STATUS_BANK : Fld := ⟨0x0, 6, 6⟩
def fPM_STATUS_FW_RUNNING : Fld := ⟨0x0, 5, 5⟩
def fPM_STATUS_STAGE : Fld := ⟨0x0, 3, 0⟩
def fPM_FW_VERSION_VERSION : Fld := ⟨0x4, 31, 0⟩
def fPM_START_TIME_TIME : Fld := ⟨0x8, 63, 0⟩
def fPM_FW_CTL_COMMIT : Fld := ⟨0x10, 2, 2⟩
def fPM_FW_CTL_ACTIVATE : Fld := ⟨0x10, 1, 1⟩
def fPM_FW_CTL_LOAD : Fld := ⟨0x10, 0, 0⟩
def fPM_FW_SRC_OFFSET : Fld := ⟨0x18, 35, 0⟩
def fPM_FW_SIZE_SIZE : Fld := ⟨0x20, 24, 0⟩
def fPM_FW_STATUS_TRIALS : Fld := ⟨0x24, 17, 16⟩
def fPM_FW_STATUS_RESULT : Fld := ⟨0x24, 15, 8⟩
def fPM_FW_STATUS_STATE : Fld := ⟨0x24, 2, 0⟩
def fPM_FW_BANK_VALID (i : Nat) : Fld := ⟨0x28 + 0x8 * i, 63, 63⟩
def fPM_FW_BANK_SVN (i : Nat) : Fld := ⟨0x28 + 0x8 * i, 38, 32⟩
def fPM_FW_BANK_VERSION (i : Nat) : Fld := ⟨0x28 + 0x8 * i, 31, 0⟩
def fPM_FUSE_REVOKED : Fld := ⟨0x40, 19, 16⟩
def fPM_FUSE_ROLLBACK : Fld := ⟨0x40, 6, 0⟩
def fPM_ERR_LOG_OVERFLOW : Fld := ⟨0x48, 3, 3⟩
def fPM_ERR_PM_RESTART : Fld := ⟨0x48, 2, 2⟩
def fPM_ERR_FW_REJECTED : Fld := ⟨0x48, 1, 1⟩
def fPM_ERR_FW_ROLLBACK : Fld := ⟨0x48, 0, 0⟩
def fPM_LOG_HEAD_SEQ : Fld := ⟨0x100, 31, 0⟩
def fPM_LOG_TAIL_SEQ : Fld := ⟨0x104, 31, 0⟩
def fPM_LOG_SEL_SEQ : Fld := ⟨0x108, 31, 0⟩
def fPM_LOG_STATUS_SEL_MISS : Fld := ⟨0x10C, 31, 31⟩
def fPM_LOG_STATUS_HW_LOST : Fld := ⟨0x10C, 30, 16⟩
def fPM_LOG_STATUS_DROPPED : Fld := ⟨0x10C, 15, 0⟩
def fPM_LOG_DATA_DATA (i : Nat) : Fld := ⟨0x120 + 0x8 * i, 63, 0⟩
def fDB_LOAD_RING : Fld := ⟨0x4000000, 0, 0⟩
def fDB_SLOT_CTL_RING (i : Nat) : Fld := ⟨0x4010040 + 0x80 * i, 0, 0⟩
def fDB_SLOT_STATUS_BUSY (i : Nat) : Fld := ⟨0x4010044 + 0x80 * i, 1, 1⟩
def fDB_SLOT_STATUS_DONE (i : Nat) : Fld := ⟨0x4010044 + 0x80 * i, 0, 0⟩
def fHST_STAGE_REJ : Fld := ⟨0xE00000, 31, 31⟩
def fHST_STAGE_QUAD : Fld := ⟨0xE00000, 3, 0⟩
def fHST_LOAD_OFF_OFFSET : Fld := ⟨0xE00008, 35, 0⟩
def fHST_LOAD_SIZE_SIZE : Fld := ⟨0xE00010, 36, 0⟩
def fHST_LOAD_STATUS_SPLIT : Fld := ⟨0xE00018, 17, 16⟩
def fHST_LOAD_STATUS_CODE : Fld := ⟨0xE00018, 15, 8⟩
def fHST_LOAD_STATUS_STEP : Fld := ⟨0xE00018, 7, 4⟩
def fHST_LOAD_STATUS_STATE : Fld := ⟨0xE00018, 1, 0⟩
def fINT_SUMSTAT_SUB : Fld := ⟨0x100000, 11, 0⟩
def fINT_SUMMASK_MASK : Fld := ⟨0x100004, 11, 0⟩
def fINT_CAUSE_LEAF (i : Nat) : Fld := ⟨0x100100 + 0x8 * i, 31, 0⟩
def fINT_MASK_MASK (i : Nat) : Fld := ⟨0x100104 + 0x8 * i, 31, 0⟩
def fINT_CAUSE_TILE_LEAF (i : Nat) : Fld := ⟨0x100200 + 0x8 * i, 31, 0⟩
def fINT_MASK_TILE_MASK (i : Nat) : Fld := ⟨0x100204 + 0x8 * i, 31, 0⟩
def fOBS_CTL_SNAP : Fld := ⟨0xD00000, 17, 17⟩
def fOBS_CTL_WRAP : Fld := ⟨0xD00000, 16, 16⟩
def fOBS_CTL_TYPES : Fld := ⟨0xD00000, 8, 0⟩
def fOBS_TRACE_CTL_TRACE_EN : Fld := ⟨0xD00004, 0, 0⟩
def fOBS_STATUS_SEL_MISS : Fld := ⟨0xD00008, 5, 5⟩
def fOBS_STATUS_SEL_BAD : Fld := ⟨0xD00008, 4, 4⟩
def fOBS_STATUS_RING_BAD : Fld := ⟨0xD00008, 3, 3⟩
def fOBS_STATUS_SNAP_BUSY : Fld := ⟨0xD00008, 2, 2⟩
def fOBS_STATUS_FULL : Fld := ⟨0xD00008, 1, 1⟩
def fOBS_STATUS_ACTIVE : Fld := ⟨0xD00008, 0, 0⟩
def fOBS_TRACE_BASE_ADDR : Fld := ⟨0xD00010, 51, 0⟩
def fOBS_TRACE_SIZE_PAGES : Fld := ⟨0xD00018, 20, 0⟩
def fOBS_TRACE_HEAD_SEQ : Fld := ⟨0xD00020, 31, 0⟩
def fOBS_TRACE_READ_SEQ : Fld := ⟨0xD00024, 31, 0⟩
def fOBS_TRACE_LOST_COUNT : Fld := ⟨0xD00028, 63, 0⟩
def fOBS_SAMPLE_CTL_PERIOD_US : Fld := ⟨0xD00030, 15, 0⟩
def fOBS_SNAP_TIME_TIME : Fld := ⟨0xD00038, 63, 0⟩
def fOBS_SEL_EN (i : Nat) : Fld := ⟨0xD00100 + 0x4 * i, 31, 31⟩
def fOBS_SEL_W64 (i : Nat) : Fld := ⟨0xD00100 + 0x4 * i, 30, 30⟩
def fOBS_SEL_OFFSET (i : Nat) : Fld := ⟨0xD00100 + 0x4 * i, 25, 0⟩
def fOBS_SNAP_VALUE (i : Nat) : Fld := ⟨0xD00200 + 0x8 * i, 63, 0⟩
def fOBS_TRACE_SEL_SEQ : Fld := ⟨0xD00300, 31, 0⟩
def fOBS_TRACE_DATA_DATA (i : Nat) : Fld := ⟨0xD00308 + 0x8 * i, 63, 0⟩
def fOBS_SP_COUNT (i j : Nat) : Fld := ⟨0xD10000 + 0x20 * i + 0x8 * j, 63, 0⟩

end Sys2Proof.Machine
end

