-- ==== Sys2Proof/Machine/FabTypes.lean ====
section
/-!
DEFINITION. What the fabric holds (spec 11, 12, 13): packets and their endpoints' pools, the outstanding packets, the send
rates, the lanes and their link layer, discovery, redraws and route tables, and the laser sources. Plain data only.
-/
namespace Sys2Proof.Machine

/-! ### Packets (R405) -/

/-- A fabric packet: its header without the CRC, and its payload. Positions are row + 256·column as in GRID_POS; `typ` is
TYPE of R405; `cls` is the class: 0 request, 1 reply, 3 collective (R114). -/
structure Packet where
  dest : Nat
  src : Nat
  cls : Nat
  sealed : Bool
  fwd : Bool
  mark : Bool
  nf : Bool
  typ : Nat
  seq : Nat
  step : Nat
  addr : Nat
  id : Nat
  payload : List Byte
deriving DecidableEq, Repr

def tMAIL : Nat := 0
def tBULK : Nat := 1
def tWRITE : Nat := 2
def tREAD : Nat := 3
def tREADDATA : Nat := 4
def tACK : Nat := 5
def tCREDIT : Nat := 6
def tCOLL : Nat := 7
def tBARRIER : Nat := 8
def tVFENCE : Nat := 9

/-- Which agent of the module a packet serves, so that its acknowledgement or its loss reaches that agent. -/
inductive PktFor where
  /-- A message of the SEND or MCAST pigeonhole, or of pigeonhole 0 for a reply: pigeonhole, message number. -/
  | mail (ph msg : Nat)
  /-- A stream transfer of a tile: tile, transfer number. -/
  | stream (t run : Nat)
  /-- A prefetch fill: tile, stream, tag of the entry. -/
  | prefetch (t slot tag : Nat)
  /-- A collective: number, step, member. -/
  | coll (id step member : Nat)
  /-- The catch-up of a collective that this module pulls (R419). -/
  | pull
  /-- Barriers, acknowledgements, credits, read data, twin traffic. -/
  | system
deriving DecidableEq, Repr

/-- A packet that has not been acknowledged end to end (R407), or that waits for its injection (R409 rank 4). -/
structure OutPkt where
  p : Packet
  owner : PktFor
  /-- The instant of injection; none while it waits. -/
  sentAt : Option Nat
  /-- Its place in the order in which agents made packets ready (R411). -/
  born : Nat
  /-- A sealed packet that has already been counted as waiting (R411). -/
  waited : Bool
deriving DecidableEq, Repr

/-- A packet in an ingress pool (R408): its port, its ingress stamp and the packet. -/
structure InPkt where
  port : Nat
  stamp : Nat
  p : Packet
deriving DecidableEq, Repr

/-- The congestion loop of one destination module (R413). The rate is num / 2^sh GB/s. -/
structure Rate where
  num : Nat
  sh : Nat
  lastCut : Option Nat
  quietFrom : Nat
  nextFree : Nat
deriving DecidableEq, Repr

def Rate.start : Rate := ⟨400, 0, none, 0, 0⟩

/-- End-to-end acknowledgements owed to a source (R407): sequence numbers with their backwater mark. -/
structure AckOwed where
  src : Nat
  items : List (Nat × Bool)
deriving DecidableEq, Repr

/-! ### Link units and lanes (R437 to R445) -/

/-- A link unit as received: UTYPE, LSEQ and body. -/
structure LinkUnit where
  utype : Nat
  lseq : Nat
  body : List Byte
deriving DecidableEq, Repr

/-- A PACKET unit in the replay buffer of a next hop, or one that waits for a lane (R406, R440): its LSEQ once it was sent,
since when it is held, its last send and its port, since when a LINK_ACK shows a later number received, and for a relayed packet the
port whose forward pool holds it until it is sent. -/
structure TxUnit where
  p : Packet
  inPort : Option Nat
  lseq : Option Nat
  heldFrom : Nat
  sentAt : Option Nat
  port : Nat
  shown : Option Nat
deriving DecidableEq, Repr

/-- The link layer of one next hop (R440, R441). Received numbers are kept from `cum` on. -/
structure Hop where
  nextLseq : Nat
  tx : List TxUnit
  rot : Nat
  cum : Nat
  got : List Nat
  high : Nat
  ackedAt : Nat
  unacked : Bool
deriving DecidableEq, Repr

def Hop.start : Hop := ⟨0, [], 0, 0, [], 0, 0, false⟩

/-- The running state of one lane besides OPT_LANE: DEST and LINE byte of the map (R208), codeword lock and its counts, the
byte stream, the received units, error instants, drops, and the lane check. -/
structure LaneRt where
  byte : Nat
  /-- The physical index of the far end and the comb line that the rings hold; none while unused or dark. -/
  tgt : Option (Nat × Nat)
  good : Nat
  bad : Nat
  cwLock : Bool
  inStep : Bool
  rx : List Byte
  rxBad : Bool
  units : List LinkUnit
  uncorr : List Nat
  errBits : List (Nat × Nat)
  drops : List Nat
  logged : Option Nat
  holdFrom : Option Nat
  identity : Bool
  moved : Bool
  beacons : Nat
  /-- When its last margin scan began (R449). -/
  scanFrom : Option Nat
  /-- Since when its lock error exceeds 2 GHz (R445). -/
  offFrom : Option Nat
  /-- The state that the lane left for its retune (R376). -/
  prior : Nat
  /-- When the lane last tried its lock and check in the background (R378). -/
  retryAt : Nat
  /-- When it last sent a beacon (R380). -/
  beaconAt : Option Nat
  /-- The rest of the link unit on its way, the framed units behind it, and the codewords sent since one began with a unit header (R439). -/
  txPart : List Byte
  txUnits : List (List Byte)
  sinceHead : Nat
  /-- When its lock error was last beyond 0.5 GHz, or its rings last moved (R443). -/
  outAt : Option Nat
  /-- The lane check (R452): the 31 bits of the PRBS31 sent (0: none yet) and of the last codeword of it received, since when it comes without an
  error, and whether 20 µs of it have come so. -/
  prbsTx : Nat
  prbsRx : Option Nat
  prbsFrom : Option Nat
  prbsPass : Bool
deriving DecidableEq, Repr

/-- A lane byte of 0x7F or any value above with the same low bits names no lane (R208: 0x7F and 0xFF unused). -/
def LaneRt.start : LaneRt := ⟨0x7F, none, 0, 0, false, false, [], false, [], [], [], [], none, none, false, false, 0, none, none, 0, 0, none, [], [], 0, none, 0, none, none, false⟩

/-! ### Discovery (R380 to R384) -/

/-- A peer heard on a port: serial number, index that it claims, whether its HEARD holds the module's own index. -/
structure Peer where
  serial : Nat
  index : Nat
  hearsMe : Bool
deriving DecidableEq, Repr

/-- Discovery on one port: the line sets that its rings hold, since when, and the peers heard. -/
structure DiscPort where
  txSet : Nat
  rxSet : Nat
  txAt : Nat
  rxAt : Nat
  peers : List Peer
  conflict : List Nat
deriving DecidableEq, Repr

def DiscPort.start : DiscPort := ⟨0, 0, 0, 0, [], []⟩

/-- A running discovery: its start, its window in ms, and whether a close was written. -/
structure Disc where
  t0 : Nat
  window : Nat
  close : Bool
deriving DecidableEq, Repr

/-! ### Redraw (R376 to R379) -/

/-- Where a changed port stands in its redraw. -/
inductive PortStep where
  | drain | retune | lock | check
deriving DecidableEq, Repr

/-- A redraw of the module: when it started, the map it draws (none: every lane unused), the phase that is entered at its
end, all changed ports and those of wave 2, the ports of each wave still to return, when wave 1 returned, and the ports that
run their steps with the start of their drain. -/
structure Redraw where
  start : Nat
  map : Option Nat
  enter : Option Nat
  changed : List Nat
  second : List Nat
  wave1 : List Nat
  wave2 : List Nat
  wave1End : Option Nat
  running : List (Nat × Nat × PortStep)
deriving DecidableEq, Repr

/-- A swap of a laser source on an engine (R452): engine, old source, spare, start and step (0 drain, 1 switched, 2 checked), and the old source's
stage and the engine's width before it, which the registers show until it is over (R457). -/
structure Swap where
  eng : Nat
  old : Nat
  spare : Nat
  start : Nat
  step : Nat
  was : Nat
  lanes : Nat
deriving DecidableEq, Repr

/-- A Wellspring source (R450, R451): stage 0 NORMAL, 1 FADING, 2 FAILING, 3 SPARE, 4 RETIRED as LAS_SRC reports it; the
instant of its entry to FADING; whether a swap of it was requested or is due; since when the error rate of its engine's worst lane has been above
1e-6. -/
structure LaserSrc where
  stage : Nat
  fadingAt : Option Nat
  due : Bool
  berFrom : Option Nat
deriving DecidableEq, Repr

/-- Staged route tables that await their boundary (R388). -/
structure Staged where
  phase : Nat
  count : Nat
deriving DecidableEq, Repr

/-- Synchronisation on the ports of one role (R431), all stamps in half nanoseconds: when this module last sent its frame and the frame's stamp,
when it received the last frame of a child, and, as a child, the stamps t1 and t2 of the parent's last frame and t3 of the answer. -/
structure SyncLink where
  sentAt : Option Nat
  got : Nat
  t1 : Nat
  t2 : Nat
  heard : Bool
  t3 : Option Nat
deriving DecidableEq, Repr

def SyncLink.start : SyncLink := ⟨none, 0, 0, 0, false, none⟩

/-- The fabric of the module. Registers of spec 11, 12 and 13 that hold plain values live in the register file. -/
structure Fab where
  lanes : SMap LaneRt
  hops : SMap Hop
  inq : List InPkt
  /-- Gradient packets of step OPEN + 1 that have left their pool and are held for that step, with the version writes that follow them, oldest
  first (R345, R256). -/
  ahead : List Packet
  wait : List OutPkt
  out : List OutPkt
  nextBorn : Nat
  seqs : SMap Nat
  rates : SMap Rate
  acks : List AckOwed
  disc : Option Disc
  discPorts : SMap DiscPort
  map : Option Nat
  rowSub : SMap (Option Nat)
  colSub : SMap (Option Nat)
  dead : SMap Nat
  redraw : Option Redraw
  staged : Option Staged
  unpairedAt : SMap Nat
  swaps : List Swap
  lasers : SMap LaserSrc
  opticsOn : Option Nat
  ready : Bool
  /-- R and C of the system (R365), from the end of discovery. -/
  shape : Nat × Nat
  /-- The cause of R379 holds: a map table word was uncorrectable. -/
  mapBad : Bool
  /-- The start of the wait of R433: the last accepted exchange, or the end of discovery; none once the loss was reported. -/
  syncAt : Option Nat
  /-- No exchange was accepted since discovery (R432). -/
  syncFirst : Bool
  syncLinks : SMap SyncLink
  /-- The rate correction of the timebase in parts per 10^9 (R432), and what has gathered of it, below 10^9. -/
  rate : Int
  rateAcc : Int
  /-- When a periodic action last took place: the feed-forward of engine e (key e), the calibration of source n (32 + n), the recheck of
  the lanes of engine e (64 + e). -/
  doneAt : SMap (Option Nat)
  /-- When the twin port last carried a link unit, or entered service (R475). -/
  twinHeard : Option Nat
  narrow : List Nat
  /-- The heater feed-forward of each engine (R444), and a sample of each engine's temperature, at most 1 ms old when the next one comes: its
  instant and °C. -/
  feed : SMap Nat
  temps : SMap (Option (Nat × Int))
deriving DecidableEq, Repr

/-- Source n before any event: NORMAL for 0 to 16, SPARE for 17 to 19 (R450). -/
def LaserSrc.start (n : Nat) : LaserSrc := ⟨if n < 17 then 0 else 3, none, false, none⟩

def Fab.reset : Fab :=
  { lanes := [], hops := [], inq := [], ahead := [], wait := [], out := [], nextBorn := 0, seqs := [], rates := [], acks := [],
    disc := none, discPorts := [], map := none, rowSub := [], colSub := [], dead := [], redraw := none, staged := none, unpairedAt := [], swaps := [], lasers := [],
    opticsOn := none, ready := false, shape := (64, 64), mapBad := false, syncAt := none, syncFirst := false, syncLinks := [], rate := 0, rateAcc := 0, doneAt := [], twinHeard := none,
    narrow := [], feed := [], temps := [] }

end Sys2Proof.Machine
end

