-- ==== Sys2Proof/Machine/MailTypes.lean ====
section
/-!
DEFINITION. What the Mailroom, the collectives and the Gauge barriers hold (spec 12). Plain data only.
-/
namespace Sys2Proof.Machine

/-- A pigeonhole entry (R393). Kinds are those of R391. -/
structure PhEntry where
  kind : Nat
  stage : Bool
  sealed : Bool
  depth : Nat
  ring : Nat
  buf : Nat
  bufSize : Nat
  owner : Nat
  /-- SEND: destination position; MCAST: the mask of 65 bits. -/
  target : Nat
  axis : Nat
  destPh : Nat
deriving DecidableEq, Repr

/-- Kind NONE: a pigeonhole that the section does not name (R391). -/
def PhEntry.none : PhEntry := ⟨0, false, false, 0, 0, 0, 0, 0, 0, 0, 0⟩

/-- A descriptor in a ring: its slot and the channel that filled it (source position, pigeonhole there, message number), none for a
local or device message; and its ingress stamp. -/
structure RingItem where
  slot : Nat
  chan : Option (Nat × Nat × Nat)
  stamp : Nat
deriving DecidableEq, Repr

/-- A message of a channel that is arriving: source, channel, the message number that its packets carry, the slot that it
fills (none: no slot was free, and it will be discarded), the bulk bytes landed, and its descriptor once that has come. -/
structure Partial where
  src : Nat
  sph : Nat
  tag : Nat
  slot : Option Nat
  got : Nat
  mail : Option (List Byte × Nat)
deriving DecidableEq, Repr

/-- The running state of a pigeonhole: descriptors not yet taken, oldest first; held slots, oldest first; reply
reservations, each with the senders whose reply it admits and the key of its request (R402); arriving messages; the slot to try next; credit of a channel by receiver position; the loss interval of R403: its
start, LOCKED at its start, and the descriptors lost. -/
structure PhRt where
  queue : List RingItem
  held : List RingItem
  resv : List (List Nat × Nat)
  parts : List Partial
  nextSlot : Nat
  credit : SMap Nat
  lossFrom : Option Nat
  lossSync : Bool
  lossN : Nat
deriving DecidableEq, Repr

def PhRt.start : PhRt := ⟨[], [], [], [], 0, [], none, false, 0⟩

/-- Where one receiver of a message stands (R398, R407, R415, R416): packets are being sent; all are acknowledged; the
receiver was removed; its catch-up descriptor was sent; the message failed. -/
inductive MsgState where
  | sending | acked | removed | caughtUp | failed
deriving DecidableEq, Repr

/-- A message on its way to one receiver: its number, the number of its MSEND (one for all receivers of an MCAST), the
sending pigeonhole and tile, the receiver's position and pigeonhole, class, seal, delivered form, where its bulk is read
from (MCAST) or its bulk as read at the start (SEND), its length, the next bulk byte to send, packets in flight, whether its
descriptor packet was made, since when the receiver is stalled (R415), whether a credit was taken for it (no: it was removed
before the start for want of one), and of a reply the key of the request that it answers (R402). -/
structure OutMsg where
  no : Nat
  group : Nat
  ph : Nat
  tile : Nat
  dest : Nat
  destPh : Nat
  cls : Nat
  sealed : Bool
  mcast : Bool
  desc : List Byte
  bulk : Nat
  data : List Byte
  len : Nat
  next : Nat
  flying : Nat
  mailMade : Bool
  state : MsgState
  stallFrom : Option Nat
  took : Bool
  re : Nat
deriving DecidableEq, Repr

/-- A barrier entry (R427). -/
structure BarEntry where
  axis : Nat
  k : Nat
  localN : Nat
  limit : Nat
deriving DecidableEq, Repr

/-- An instance of a barrier (R428, R429): stamps of local arrivals, the closure of the local stage, row arrivals by index
with their stamps, the closure of the row stage, column arrivals. -/
structure BarInst where
  no : Nat
  loc : List Nat
  locAt : Option Nat
  row : List (Nat × Nat)
  rowAt : Option Nat
  col : List (Nat × Nat)
deriving DecidableEq, Repr

def BarInst.start (n : Nat) : BarInst := ⟨n, [], none, [], none, []⟩

/-- A configured barrier with its current instance and the two after it. -/
structure Bar where
  e : BarEntry
  cur : Nat
  insts : List BarInst
deriving DecidableEq, Repr

/-- A collective entry (R417). -/
structure CollEntry where
  kind : Nat
  grad : Bool
  final : Bool
  determ : Bool
  axis : Nat
  k : Nat
  fmtIn : Nat
  fmtOut : Nat
  limit : Nat
  shard : Nat
  acc : Nat
  out : Nat
  stage : Nat
  donePh : Nat
deriving DecidableEq, Repr

/-- What an open instance has received of one contributor: its member index, elements, the stamp of its last packet. -/
structure Contrib where
  idx : Nat
  elems : Nat
  last : Nat
deriving DecidableEq, Repr

/-- An instance of a collective (R418 to R426): its step, the TAG of the own MCOLL and whether it started, contributors, the
earliest stamp, NF so far, contributors late-folded into it, each with the step that tags it (R345, R425), how its reduction closed (E, by deadline, contributors counted),
and the elements landed of each gathered shard. -/
structure CollInst where
  step : Nat
  tag : Nat
  own : Bool
  parts : List Contrib
  first : Option Nat
  nf : Bool
  late : List (Nat × Nat)
  closed : Option (Nat × Bool × Nat)
  gather : List (Nat × Nat)
deriving DecidableEq, Repr

def CollInst.start (step : Nat) : CollInst := ⟨step, 0, false, [], none, false, [], none, []⟩

/-- A configured collective: its entry, the oldest open step once one is known, whether no instance has closed yet, its
instances, the steps whose instance counted NF (R426), and how the last instance closed. -/
structure Coll where
  e : CollEntry
  oldest : Option Nat
  fresh : Bool
  insts : List CollInst
  nfSteps : List Nat
  last : Option CollInst
deriving DecidableEq, Repr

/-- The window of one member in an instance that this module sends (R418, R419): collective, step, member and its position,
the NF flag that its packets carry, whether its gather part is under way, the source of that part, the next byte, packets in
flight, the stall of R415, whether the member was removed, and whether a reduce-then-gather window owes a gather part because the
reduction has closed here. -/
structure CollSend where
  id : Nat
  step : Nat
  member : Nat
  dest : Nat
  nf : Bool
  gather : Bool
  src : Nat
  next : Nat
  flying : Nat
  stallFrom : Option Nat
  removed : Bool
  due : Bool
deriving DecidableEq, Repr

/-- A part of a shard that the endpoint of a removed member asks for (R419): the sender's position, the request's ID, its address there,
the collective, the step, and the offset within the shard. -/
structure CollPull where
  src : Nat
  id : Nat
  addr : Nat
  coll : Nat
  step : Nat
  off : Nat
deriving DecidableEq, Repr

/-- The Mailroom, barriers and collectives. -/
structure MailSt where
  phs : SMap PhEntry
  rts : SMap PhRt
  msgs : List OutMsg
  nextMsg : Nat
  bars : SMap Bar
  colls : SMap Coll
  sends : List CollSend
  heldClose : List (Nat × Nat)
  pulls : List CollPull
deriving DecidableEq, Repr

def MailSt.reset : MailSt := ⟨[], [], [], 1, [], [], [], [], []⟩

end Sys2Proof.Machine
end

