-- ==== Sys2Proof/Machine/TierTypes.lean ====
section
/-!
DEFINITION. What the tile directory, the flash translation layer and the update engines hold (spec 09, 10). Plain data only.
-/
namespace Sys2Proof.Machine

/-! ### The directory (spec 09) -/

/-- A region descriptor (R306). -/
structure Region where
  first : Nat
  count : Nat
  size : Nat
  hint : Nat
  skew : Bool
  flash : Bool
  lowFree : Nat
  stackBase : Nat
  stackSlots : Nat
  lpddrSlots : Nat
  lpddrBase : Nat
  ownerBase : Nat
  flashBase : Nat
deriving DecidableEq, Repr

/-- States of R310. -/
inductive DirState where
  | empty | resident | promoting | evicting | lost
deriving DecidableEq, Repr

/-- A directory entry (R310); its REGION is the region whose range holds its number. -/
structure DirEntry where
  state : DirState
  tier : Nat
  dirty : Bool
  fback : Bool
  hint : Nat
  discard : Bool
  pin : Nat
  use : Nat
  version : Nat
  slot : Nat
  last : Nat
deriving DecidableEq, Repr

/-- SLOT of an entry without a slot (R310). -/
def noSlot : Nat := 0xFFFFFFFF

/-- An EMPTY entry with version 0 (R309). -/
def DirEntry.empty : DirEntry := ⟨.empty, 0, false, false, 0, false, 0, 0, 0, noSlot, 0⟩

/-- Who sent a request to the directory or to the update engines (R321, R561): a tile, the device, or a doorbell slot. -/
inductive ReqFrom where
  | tile (t : Nat)
  | device
  | doorbell (slot : Nat)
deriving DecidableEq, Repr

/-- A request: its sender, its 32-byte payload, its ingress stamp. -/
structure Request where
  sender : ReqFrom
  payload : List Byte
  stamp : Nat
deriving DecidableEq, Repr

/-- Why a move runs: for a PIN, for an EVICT request, or as an eviction that the directory chose itself. -/
inductive MoveWhy where
  | pin
  | evict (r : Request)
  | background
  | victim
deriving DecidableEq, Repr

/-- A running move (R320): entry, target tier and slot, why, and the status that its flash operations or its source gave it. -/
structure Move where
  entry : Nat
  tier : Nat
  slot : Nat
  why : MoveWhy
  bad : Nat
deriving DecidableEq, Repr

/-- A PIN that waits for a move (R318, R321, R325): its request; whether the entry's move is or was its own; whether it has
already completed with LOWER_LATE, so that only the move it asked for is left. -/
structure WaitPin where
  entry : Nat
  r : Request
  own : Bool
  late : Bool
  leaving : Option Nat
deriving DecidableEq, Repr

/-- What a flash operation serves: a read for a transfer of a tile's stream engine or for a move, a write for a FLASH_WRITE
request or for a move. -/
inductive FlashFor where
  | stream (t run : Nat)
  | moveRead (entry : Nat)
  | request (r : Request)
  | moveWrite (entry : Nat)
deriving DecidableEq, Repr

/-- The contents of a present flash tile: data, and the units that hold poisoned data (R324). -/
structure FlashTile where
  data : List Byte
  poison : List Nat
deriving DecidableEq, Repr

/-- A flash tile read or write under way (R327, R328), in the order in which it reached the translation layer (R305). -/
structure FlashOp where
  n : Nat
  who : FlashFor
  write : Option FlashTile
deriving DecidableEq, Repr

/-- The directory and the translation layer. Present flash tiles are the listed ones (R304). -/
structure TierSt where
  regions : List Region
  ents : SMap DirEntry
  hands : SMap Nat
  reqs : List Request
  waits : List WaitPin
  moves : List Move
  pending : Option (List Region)
  flash : SMap (Option FlashTile)
  fops : List FlashOp
  ftlReady : Bool
  /-- When the directory last halved the USE of every entry (R320). -/
  useAt : Nat
  /-- Flash tiles that the translation layer still has to rewrite elsewhere (R327), and the earliest instant of the next wear move
  under WEAR_MBPS (R329). -/
  rewrites : List Nat
  wearAt : Nat
  /-- LIFE and SPARE of TIER_FLASH_INFO, which the flash keeps, and the packages that did not answer at the rebuild (R537). -/
  life : Nat
  spare : Nat
  absent : Nat
deriving DecidableEq, Repr

def TierSt.reset : TierSt := ⟨[], [], [], [], [], [], none, [], [], false, 0, [], 0, 0, 100, 0⟩

/-- What the flash keeps without power. -/
def TierSt.kept (x : TierSt) : TierSt := { TierSt.reset with flash := x.flash, life := x.life, spare := x.spare }

/-! ### The update engines (spec 10) -/

/-- A group entry (R334). -/
structure Group where
  kind : Nat
  lzy : Bool
  priv : Bool
  frozen : Bool
  copy : Bool
  wFmt : Nat
  mFmt : Nat
  vFmt : Nat
  gFmt : Nat
  cFmt : Nat
  sched : Nat
  pt1 : Nat
  pt2 : Nat
  nblk : Nat
  rowBlocks : Nat
  t0 : Nat
  lr : Nat
  wd : Nat
  eps : Nat
  gscale : Nat
  wBase : Nat
  mBase : Nat
  vBase : Nat
  gBase : Nat
  cBase : Nat
  bankOff : Nat
  hdrBase : Nat
deriving DecidableEq, Repr

/-- An unconfigured group. -/
def Group.none : Group :=
  ⟨0, false, false, false, false, 0, 0, 0, 0, 0, 0, 0, 0, 0, 0, 0, 0, 0, 0, 0, 0, 0, 0, 0, 0, 0, 0⟩

/-- A power table (R333): BETA and its address. -/
structure PowTable where
  beta : Nat
  base : Nat
deriving DecidableEq, Repr

/-- A breakpoint of a schedule curve (R338). -/
structure CurvePt where
  step : Nat
  lrm : Nat
  wdm : Nat
deriving DecidableEq, Repr

/-- A lazy row whose header is claimed (R350): its number, its next block, nb, and the patterns of p1 and p2. -/
structure RowRun where
  row : Nat
  next : Nat
  nb : Nat
  p1 : Nat
  p2 : Nat
deriving DecidableEq, Repr

/-- An update engine at work on a part of a request: the next block or touch-list entry, counted from FIRST, the end of the part, and
the claimed row. -/
structure UpdPart where
  next : Nat
  stop : Nat
  row : Option RowRun
deriving DecidableEq, Repr

/-- A running UPDATE request (R357): the request, the blocks or entries handed out to engines so far, the parts that engines work on,
the end of what is to be updated (COUNT, or the first block that failed), blocks or rows written, and the status so far. -/
structure UpdRun where
  r : Request
  given : Nat
  parts : List UpdPart
  stop : Nat
  written : Nat
  status : Nat
deriving DecidableEq, Repr

/-- A request of which no engine has taken a part. -/
def UpdRun.start (r : Request) (count : Nat) : UpdRun := ⟨r, 0, [], count, 0, 0⟩

/-- Nothing is left to do. -/
def UpdRun.done (q : UpdRun) : Bool := q.parts.isEmpty && decide (q.stop ≤ q.given)

/-- The update engines. C, OPEN, resolutions, T_G, banks and FALLBACK stand in the UPD_ registers. `waits` holds UPDATE
requests that wait under R344 or R471, each with whether it was counted as waiting under R471, `commit` a COMMIT that waits for started work; `started` says that work of step C + 1 has started; `late` keeps, for each gradient WRITE that was late-folded
into step OPEN, the group, the sender and the step that tags it (R345). -/
structure UpdSt where
  groups : SMap Group
  tables : List PowTable
  curves : List (List CurvePt)
  reqs : List Request
  waits : List (Request × Bool)
  runs : List UpdRun
  commit : Option Request
  started : Bool
  late : List (Nat × Nat × Nat)
deriving DecidableEq, Repr

def UpdSt.reset : UpdSt := ⟨[], [], [], [], [], [], none, false, []⟩

end Sys2Proof.Machine
end

