-- ==== Sys2Proof/Machine/Numbers.lean ====
section
/-!
DEFINITION. Number formats and block scaling (spec 02, R48 to R76): exact values, round to nearest with ties to even,
the storage formats, block fixed point and the conversions between them, bit for bit.
-/
namespace Sys2Proof.Machine

/-- The exact value of an element: a NaN, a signed infinity, or (−1)^neg · m · 2^e (−0 is kept, R63). -/
inductive Val where
  | nan
  | inf (neg : Bool)
  | fin (neg : Bool) (m : Nat) (e : Int)
deriving DecidableEq, Repr

/-- m / 2^k to nearest, ties to even (R59). -/
def rneShift (m k : Nat) : Nat :=
  let q := m >>> k
  let r := m % 2 ^ k
  if 2 ^ k < 2 * r ∨ (2 * r = 2 ^ k ∧ q % 2 = 1) then q + 1 else q

/-- m · 2^k to the nearest integer, ties to even (R59). -/
def rneScale (m : Nat) (k : Int) : Nat :=
  if 0 ≤ k then m <<< k.toNat else rneShift m (-k).toNat

/-- A signed integer from sign and magnitude. -/
def signed (neg : Bool) (m : Nat) : Int := if neg then -(m : Int) else m

/-- sat_s(x, w): clamp to the signed w-bit range (spec 00 pseudocode). -/
def satS (x : Int) (w : Nat) : Int :=
  max (-(2 ^ (w - 1) : Int)) (min x (2 ^ (w - 1) - 1))

/-- x · 2^k to the nearest integer, ties to even, for a signed x. -/
def rneScaleInt (x : Int) (k : Int) : Int := signed (decide (x < 0)) (rneScale x.natAbs k)

/-- floor(log2(m · 2^e)) for m > 0. -/
def expOf (m : Nat) (e : Int) : Int := (Nat.log2 m : Int) + e

/-- An exact value as a dyadic pair (mantissa, exponent); none for a NaN or an infinity. -/
def Val.dyadic : Val → Option (Int × Int)
  | .fin n m e => some (signed n m, e)
  | _ => none

/-- Sum of two dyadics x·2^a + y·2^b, exactly. -/
def dyAdd (p q : Int × Int) : Int × Int :=
  let e := min p.2 q.2
  (p.1 * 2 ^ (p.2 - e).toNat + q.1 * 2 ^ (q.2 - e).toNat, e)

/-- Product of two dyadics, exactly. -/
def dyMul (p q : Int × Int) : Int × Int := (p.1 * q.1, p.2 + q.2)

/-- p < q for dyadics. -/
def dyLt (p q : Int × Int) : Bool :=
  let e := min p.2 q.2
  decide (p.1 * 2 ^ (p.2 - e).toNat < q.1 * 2 ^ (q.2 - e).toNat)

/-- The element types of R48 and R50; `int8` is the integer of R51. -/
inductive Elem where
  | f32 | bf16 | f16 | e4m3 | e5m2 | e2m1 | int8
deriving DecidableEq, Repr

/-- Fraction bits, exponent bits and bias of a floating element type (R50). -/
def Elem.fracBits : Elem → Nat
  | .f32 => 23 | .bf16 => 7 | .f16 => 10 | .e4m3 => 3 | .e5m2 => 2 | .e2m1 => 1 | .int8 => 7
def Elem.bias : Elem → Nat
  | .f32 => 127 | .bf16 => 127 | .f16 => 15 | .e4m3 => 7 | .e5m2 => 15 | .e2m1 => 1 | .int8 => 0
/-- Bits of one element (R48, R54). -/
def Elem.bits : Elem → Nat
  | .f32 => 32 | .bf16 => 16 | .f16 => 16 | .e4m3 => 8 | .e5m2 => 8 | .e2m1 => 4 | .int8 => 8
/-- Magnitude code of the largest finite value (R50). -/
def Elem.maxCode : Elem → Nat
  | .f32 => 0x7F7FFFFF | .bf16 => 0x7F7F | .f16 => 0x7BFF | .e4m3 => 0x7E | .e5m2 => 0x7B | .e2m1 => 7 | .int8 => 127
/-- Canonical NaN of a plain format (R60). E2M1 and INT8 have none. -/
def Elem.nanCode : Elem → Nat
  | .f32 => 0x7FC00000 | .bf16 => 0x7FC0 | .f16 => 0x7E00 | .e4m3 => 0x7F | .e5m2 => 0x7E | .e2m1 => 0 | .int8 => 0
/-- emax_f of R70; for the plain formats, not used. -/
def Elem.emax : Elem → Nat
  | .e4m3 => 8 | .e5m2 => 15 | .e2m1 => 2 | _ => 0

/-- The value of an element's bits (R50, R51). -/
def decodeElem (t : Elem) (w : Nat) : Val :=
  match t with
  | .int8 =>
    let k : Int := if w % 256 < 128 then (w % 256 : Nat) else (w % 256 : Nat) - 256
    .fin (decide (k < 0)) k.natAbs (-6)
  | t =>
    let b := t.bits
    let neg := decide (2 ^ (b - 1) ≤ w % 2 ^ b)
    let c := w % 2 ^ (b - 1)
    let f := c % 2 ^ t.fracBits
    let e := c / 2 ^ t.fracBits
    let top := 2 ^ (b - 1 - t.fracBits) - 1
    let num : Val :=
      if e = 0 then .fin neg f (1 - (t.bias : Int) - t.fracBits)
      else .fin neg (f + 2 ^ t.fracBits) ((e : Int) - t.bias - t.fracBits)
    match t with
    | .e2m1 => num
    | .e4m3 => if c = 0x7F then .nan else num
    | _ => if e = top then (if f = 0 then .inf neg else .nan) else num

/-- The magnitude code that m · 2^e rounds to, as if the type had no largest value (R59, R64). -/
def roundCode (t : Elem) (m : Nat) (e : Int) : Nat :=
  if m = 0 then 0 else
  let f : Int := t.fracBits
  let q := max (expOf m e - f) (1 - (t.bias : Int) - f)
  let n := rneScale m (e - q)
  if n < 2 ^ t.fracBits then n
  else if n = 2 ^ (t.fracBits + 1) then (q + f + 1 + t.bias).toNat * 2 ^ t.fracBits
  else (q + f + t.bias).toNat * 2 ^ t.fracBits + (n - 2 ^ t.fracBits)

/-- A converted element: its bits, whether the conversion saturated and whether its result is non-finite (R64). -/
structure Conv where
  bits : Nat
  sat : Bool
  nonfin : Bool
deriving DecidableEq, Repr

/-- The sign bit of a floating element type. -/
def signBit (t : Elem) (neg : Bool) : Nat := if neg then 2 ^ (t.bits - 1) else 0

/-- The infinity of a type that has one (FP32, BF16, FP16, FP8 E5M2). -/
def infCode (t : Elem) (neg : Bool) : Nat := signBit t neg + (t.maxCode / 2 ^ t.fracBits + 1) * 2 ^ t.fracBits

/-- Conversion of a value into a plain format (R59 to R61, R63 to R65). A value that rounds past the range of a format with
infinities becomes one: that is no clamp, and it sets only the non-finite flag (assumption log 73). -/
def toPlain (t : Elem) (v : Val) : Conv :=
  match v with
  | .nan => ⟨t.nanCode, false, true⟩
  | .inf n =>
    if t = .e4m3 then ⟨t.nanCode, false, true⟩ else ⟨infCode t n, false, true⟩
  | .fin n m e =>
    let c := roundCode t m e
    if c ≤ t.maxCode then ⟨signBit t n + c, false, false⟩
    else match t with
      | .e4m3 => ⟨signBit t n + t.maxCode, true, false⟩
      | .e5m2 => ⟨signBit t n + t.maxCode, true, false⟩
      | _ => ⟨infCode t n, false, true⟩

/-- Conversion of a finite value into an element of a scaled block (R61, R63, R71). -/
def toScaledElem (t : Elem) (v : Val) : Conv :=
  match v with
  | .fin n m e =>
    match t with
    | .int8 =>
      let k := rneScale m (e + 6)
      if k ≤ 127 then ⟨if n then (256 - k) % 256 else k, false, false⟩
      else ⟨if n then 0x81 else 0x7F, true, false⟩
    | t =>
      let c := roundCode t m e
      if c ≤ t.maxCode then ⟨signBit t n + c, false, false⟩
      else ⟨signBit t n + t.maxCode, true, false⟩
  | _ => ⟨0, false, true⟩

/-- A storage format (R48): element type, block length (0 for a plain format). -/
structure Fmt where
  elem : Elem
  block : Nat
deriving DecidableEq, Repr

/-- The format of a code 0x0 to 0xC; BFX (0xD) and the reserved codes have no entry (R48, R49). -/
def fmtOf : Nat → Option Fmt
  | 0 => some ⟨.f32, 0⟩ | 1 => some ⟨.bf16, 0⟩ | 2 => some ⟨.f16, 0⟩ | 3 => some ⟨.e4m3, 0⟩ | 4 => some ⟨.e5m2, 0⟩
  | 5 => some ⟨.e4m3, 32⟩ | 6 => some ⟨.e5m2, 32⟩ | 7 => some ⟨.e2m1, 32⟩ | 8 => some ⟨.int8, 32⟩
  | 9 => some ⟨.e4m3, 16⟩ | 10 => some ⟨.e5m2, 16⟩ | 11 => some ⟨.e2m1, 16⟩ | 12 => some ⟨.int8, 16⟩
  | _ => none

/-- Bits of one element of a format code, 32 for BFX (R48). -/
def fmtBits (code : Nat) : Nat :=
  match fmtOf code with
  | some f => f.elem.bits
  | none => 32

/-- Block length of a format code: 32 for BFX, 0 for a plain format (R48). -/
def fmtBlock (code : Nat) : Nat :=
  match fmtOf code with
  | some f => f.block
  | none => 32

/-- Width class of a matrix operand format: 16, 8 or 4 bits; 0 where it is no matrix operand (R48, R77). -/
def widthClass (code : Nat) : Nat :=
  if code = 0 then 0 else
  match fmtOf code with
  | some f => f.elem.bits
  | none => 0

/-- Multiply a value by 2^k. -/
def Val.scale (v : Val) (k : Int) : Val :=
  match v with
  | .fin n m e => .fin n m (e + k)
  | v => v

/-- The value of an element of a scaled block with scale byte x (R52, R53). -/
def scaledVal (t : Elem) (w x : Nat) : Val :=
  if x = 0xFF then .nan else (decodeElem t w).scale ((x : Int) - 127)

/-- A BFX block (R55): 32 signed mantissas and one exponent; E = 255 is non-finite (R56). -/
structure Blk where
  e : Nat
  m : List Int
deriving DecidableEq, Repr

/-- The canonical zero (R57). -/
def Blk.zero : Blk := ⟨0, List.replicate 32 0⟩
/-- The non-finite block (R56, R60). -/
def Blk.nonfinite : Blk := ⟨255, List.replicate 32 0⟩
/-- Is the block non-finite (R56)? -/
def Blk.isNonfin (b : Blk) : Bool := b.e == 255
/-- The value of lane i (R55, R56). -/
def Blk.val (b : Blk) (i : Nat) : Val :=
  if b.e = 255 then .nan else
  let m := b.m.getD i 0
  .fin (decide (m < 0)) m.natAbs ((b.e : Int) - 156)

/-- max |m_i|. -/
def Blk.amax (ms : List Int) : Nat := ms.foldl (fun a x => max a x.natAbs) 0

/-- The larger of two magnitudes given as (mantissa, exponent). -/
def magMax (a b : Nat × Int) : Nat × Int :=
  let e := min a.2 b.2
  if a.1 * 2 ^ (a.2 - e).toNat < b.1 * 2 ^ (b.2 - e).toNat then b else a

/-- to_bfx of R66, with the SAT flag of R64. R67 says that a block whose largest value is at least 2^128 saturates, R66 and R64 that one does whose mantissa
passes 32 bits at the greatest exponent 254, near 2^129: this follows R66 and R64, without SAT in between (DESIGN CHOICE, assumption log 92). -/
def toBfx (vs : List Val) : Blk × Bool :=
  let fins := vs.filterMap fun v => match v with | .fin _ m e => some (m, e) | _ => none
  if fins.length < vs.length then (.nonfinite, false) else
  let am := fins.foldl magMax (0, 0)
  if am.1 = 0 then (.zero, false) else
  let e0 := expOf am.1 am.2 + 127
  let e : Nat := (max 0 (min e0 254)).toNat
  let raw := vs.map fun v => match v with
    | .fin n m x => signed n (rneScale m (x + 156 - e))
    | _ => 0
  let ms := raw.map fun x => satS x 32
  (⟨e, ms⟩, decide (raw ≠ ms))

/-- e_cur of R69 over the given mantissas under exponent e (e < 255). -/
def eCur (e : Nat) (ms : List Int) : Nat :=
  let a := Blk.amax ms
  if a = 0 then 0 else (max 0 (min ((e : Int) + Nat.log2 a - 29) 254)).toNat

/-- The selected scale of R70, and the predicted scale of R72 from a history byte. -/
def selScale (t : Elem) (ec : Nat) : Nat := min (ec - t.emax) 254

/-- The history byte after the final emission (R74). -/
def histNew (hOld ec d : Nat) : Nat := max ec (hOld - d)

/-- One output block of a scaled format: its elements, its scale byte and its flags. -/
structure ScaledOut where
  elems : List Nat
  scale : Nat
  sat : Bool
  nonfin : Bool
deriving DecidableEq, Repr

/-- Emission of mantissas under a chosen scale x (R71). -/
def emitScaled (t : Elem) (e : Nat) (ms : List Int) (x : Nat) : ScaledOut :=
  let cs := ms.map fun m => toScaledElem t (.fin (decide (m < 0)) m.natAbs ((e : Int) - 156 + 127 - x))
  ⟨cs.map (·.bits), x, cs.any (·.sat), false⟩

/-- Unpredicted conversion of mantissas of a BFX block into one scaled block (R61, R70, R71). -/
def toScaled (t : Elem) (e : Nat) (ms : List Int) : ScaledOut :=
  if e = 255 then ⟨ms.map fun _ => 0, 0xFF, false, true⟩
  else emitScaled t e ms (selScale t (eCur e ms))

/-- The three outcomes a predicted conversion is counted as (R76). -/
inductive PredOutcome where
  | reemit | coarse | exact
deriving DecidableEq, Repr

/-- Predicted conversion under history byte hOld and decay d (R72 to R74): output, new history byte, outcome. -/
def toScaledPred (t : Elem) (e : Nat) (ms : List Int) (hOld d : Nat) : ScaledOut × Nat × Option PredOutcome :=
  if e = 255 then (toScaled t e ms, hOld, none)
  else
    let ec := eCur e ms
    let sel := selScale t ec
    let pred := selScale t hOld
    if pred < sel then (emitScaled t e ms sel, histNew hOld ec d, some .reemit)
    else (emitScaled t e ms pred, histNew hOld ec d, some (if sel < pred then .coarse else .exact))

/-- FP32 rounding of an exact dyadic: rn32 of the arithmetic chapters, under R59 to R61; a zero result takes the given sign. -/
def rn32 (p : Int × Int) (zneg : Bool) : Nat :=
  if p.1 = 0 then signBit .f32 zneg
  else (toPlain .f32 (.fin (decide (p.1 < 0)) p.1.natAbs p.2)).bits

/-- The elements of a packed little-endian run: element i of width b bits within the bytes' value w. -/
def unpackElem (b : Nat) (w i : Nat) : Nat := (w / 2 ^ (b * i)) % 2 ^ b

/-- Pack elements of width b bits into one value, element 0 lowest (R54). -/
def packElems (b : Nat) : List Nat → Nat
  | [] => 0
  | x :: r => x % 2 ^ b + 2 ^ b * packElems b r

end Sys2Proof.Machine
end

