-- ==== Sys2Proof/Machine/TileTypes.lean ====
section
/-!
DEFINITION. What one compute tile holds (spec 03, 04, 05, 06, 07): the control core, the token unit, the four queues,
the matrix unit with its two accumulator tiles, the vector engine with its verification window, the stream engine with
its prefetch streams, and the deferral and optimizer fill queues. Plain data only.
-/
namespace Sys2Proof.Machine

/-- Tile states of R80. -/
inductive TaskState where
  | idle | running | halted | aborted | fenced
deriving DecidableEq, Repr

/-- The four queues of R85; the unit numbers of R118 are 1 to 4 in this order. -/
inductive Engine where
  | matrix | vector | stream | message
deriving DecidableEq, Repr

/-- An instruction waiting in a queue: its word, the address the core issued it from, the s registers as they stood
at issue (R85), its place in the tile's program order, the instant its token wait began (R92), whether its token wait is already satisfied, and since when and
on what the instruction is held for something else (R92): the instant and the INFO of a timeout. -/
structure QEntry where
  word : Word
  pc : Nat
  sregs : SMap Word
  ord : Nat
  waitFrom : Option Nat
  tokenTaken : Bool
  held : Option (Nat × Nat)
deriving DecidableEq, Repr

/-- A scalar memory instruction that the core has issued and that B has not answered yet (R105 to R107). -/
inductive ScalarKind where
  | load (bytes : Nat) (signed : Bool)
  | store (bytes : Nat) (data : Word)
  | aadd (b : Word)
  | aswap (b : Word)
  | acas (b old : Word)
  | aor (b : Word)
  /-- A signal of the core that waits for its earlier stores (R89): token and amount. -/
  | signal (n k : Nat)
deriving DecidableEq, Repr

structure ScalarOp where
  pc : Nat
  ord : Nat
  sd : Nat
  addr : Nat
  hint : Nat
  kind : ScalarKind
deriving DecidableEq, Repr

/-- One accumulator element: four FP32 patterns (R136). -/
structure AccElem where
  s1 : Nat
  c1 : Nat
  s2 : Nat
  c2 : Nat
deriving DecidableEq, Repr

def AccElem.zero : AccElem := ⟨0, 0, 0, 0⟩

/-- The operands of a matrix product (R143), decoded from the word and the captured s registers. -/
structure MMOp where
  acc : Nat
  ovw : Bool
  a16 : Bool
  spr : Bool
  ta : Bool
  tb : Bool
  aOff : Nat
  aScale : Nat
  bOff : Nat
  bScale : Nat
  zOff : Nat
  kLen : Nat
  m : Nat
  n : Nat
  fa : Nat
  fb : Nat
deriving DecidableEq, Repr

/-- An MM of an unverified chain (R266): its operands, the slabs it skipped, and whether its skips are verified (an MM
without SPR skips nothing). -/
structure ChainMM where
  op : MMOp
  skip : List Bool
  passed : Bool
  pc : Nat
deriving DecidableEq, Repr

/-- An MM with SPR = 1 that started and that no SVERIFY has paired with yet (R268): its tile, and its place in the tile's
chain unless that chain was recomputed (R269). -/
structure SprMM where
  acc : Nat
  op : MMOp
  skip : List Bool
  place : Option Nat
  /-- When the MM started. -/
  start : Nat
deriving DecidableEq, Repr

/-- An accumulator tile (R136): elements by 128·m + n, counters, sticky bits, the unverified chain (R266). -/
structure Acc where
  elems : SMap AccElem
  l1 : Nat
  l2 : Nat
  folded : Bool
  lapsed : Bool
  nonfin : Bool
  ovf16 : Bool
  chain : List ChainMM
deriving DecidableEq, Repr

def Acc.zero : Acc := ⟨[], 0, 0, false, false, false, false, []⟩

/-- What a started matrix instruction still has to do: chunk steps of a product from `step` on, a transfer of an
accumulator image, or, for an MZERO, its signal alone. -/
inductive MatWork where
  | product (op : MMOp) (skip : List Bool) (step : Nat)
  | save (acc : Nat) (addr : Nat)
  | merge (acc : Nat) (addr : Nat)
  | restore (acc : Nat) (addr : Nat)
  | cleared
deriving DecidableEq, Repr

/-- A started matrix instruction, oldest first. -/
structure MatRun where
  e : QEntry
  work : MatWork
deriving DecidableEq, Repr

/-- The matrix unit (R135 to R172, R266 to R269). -/
structure MatUnit where
  queue : List QEntry
  run : List MatRun
  a0 : Acc
  a1 : Acc
  unpaired : List SprMM
  /-- The snapshot buffer and the tile that holds it (R267). -/
  snap : Option (Nat × Acc)
  /-- The accumulator tiles that wait for their recompute (R269), oldest first. -/
  recompute : List Nat
  /-- When the unit last executed an instruction of its queue (R225). -/
  busyAt : Nat
deriving DecidableEq, Repr

def MatUnit.reset : MatUnit := ⟨[], [], .zero, .zero, [], none, [], 0⟩

/-- A block of a vector register with its poison bit (R173). -/
structure VBlk where
  b : Blk
  poison : Bool
deriving DecidableEq, Repr

def VBlk.zero : VBlk := ⟨.zero, false⟩

/-- The registers that the vector engine owns (R82) and that a window shadows (R196): blocks by 2·register + half. -/
structure VecRegs where
  v : SMap VBlk
  k : SMap Word
  kPoison : SMap Bool
  p : SMap Nat
  vl : Nat
  vmode : Nat
  bstat : Nat
deriving DecidableEq, Repr

/-- The values at task start (R81, R177, R178). -/
def VecRegs.start : VecRegs := ⟨[], [], [], [], 64, 0, 0⟩

/-- A write of the vector engine: into the operand cache or into device memory. -/
structure VWrite where
  oc : Bool
  addr : Nat
  bytes : List Byte
deriving DecidableEq, Repr

/-- An open verification window (R196, R198): shadow, replay buffer, held writes, held signals (token and PC), the outcomes
of its predicted conversions, the accumulator tiles read in it, and whether a verification of one of them failed. -/
structure Window where
  shadow : VecRegs
  replay : List QEntry
  held : List VWrite
  sigs : List (Nat × Nat)
  outcomes : List Nat
  accs : List Nat
  failed : Bool
deriving DecidableEq, Repr

/-- One block of a load from device memory: the block, its elements (address, bytes) and its scales (address, bytes). -/
structure VLoadBlk where
  blk : Nat
  addr : Nat
  len : Nat
  saddr : Nat
  slen : Nat
deriving DecidableEq, Repr

/-- A VLD from device memory whose data has not returned: destination, format, blocks, active lanes, personality, poison
of its mask, the held writes before it, and whether a window was open when it started. -/
structure VLoad where
  dest : Nat
  fmt : Nat
  blks : List VLoadBlk
  act : List Bool
  pers : Nat
  poison : Bool
  heldN : Nat
  inWin : Bool
deriving DecidableEq, Repr

/-- A started vector instruction that is not complete: a load; or a store, whose list is empty once its writes are
visible and only its signal waits (R89). -/
inductive VMemKind where
  | load (l : VLoad)
  | store (writes : List VWrite)
deriving DecidableEq, Repr

structure VMem where
  pc : Nat
  sig : Option Nat
  kind : VMemKind
deriving DecidableEq, Repr

/-- The vector engine (R173 to R204). -/
structure VecUnit where
  queue : List QEntry
  r : VecRegs
  out : List VMem
  win : Option Window
  /-- The entries of the replay buffer that are still to be executed again (R199). -/
  redo : List QEntry
  /-- When the unit last executed an instruction of its queue (R225). -/
  busyAt : Nat
deriving DecidableEq, Repr

def VecUnit.reset : VecUnit := ⟨[], .start, [], none, [], 0⟩

/-- A read of a range on another module (R255, R258), in segments numbered from 0: the next segment to request, those
outstanding, those that are read a second time, and the bytes received by offset. For a versioned region `step` is 0 for the
first read of the version word, 1 for the data, 2 for the second read and 3 once both agree; other reads start at 1. `hits` are the
prefetch entries that served segments: stream, fill number, offset, length (R250, R251). -/
structure RRead where
  next : Nat
  pend : List Nat
  again : List Nat
  got : SMap Byte
  step : Nat
  ver : Nat
  attempt : Nat
  hits : List (Nat × Nat × Nat × Nat)
deriving DecidableEq, Repr

def RRead.start (vregion : Bool) : RRead := ⟨0, [], [], [], if vregion then 0 else 1, 0, 1, []⟩

/-- A prefetch entry (R248 to R253): its fill number, its address, whether it is still filling, whether a write passed while
it filled, its data, and the remote read that fills it; the tag that its requests carry, 0 before the first, and by segment the
directory versions that came with them (R255). -/
structure PfEntry where
  no : Nat
  addr : Nat
  filling : Bool
  stale : Bool
  data : List Byte
  rr : RRead
  tag : Nat
  vers : List (Nat × Nat)
deriving DecidableEq, Repr

/-- A prefetch stream (R248 to R252). `issued` counts the fills issued and `freed` the entries freed, dropped or
invalidated, over all rounds; `rounds` is what TILE_PF reports, since task start. -/
structure PfStream where
  active : Bool
  base : Nat
  depth : Nat
  persist : Bool
  adv : Int
  rwrap : Nat
  rlen : Nat
  rows : Nat
  rstride : Nat
  remote : Bool
  module : Nat
  vregion : Bool
  issued : Nat
  freed : Nat
  rounds : Nat
  entries : List PfEntry
deriving DecidableEq, Repr

def PfStream.off : PfStream :=
  ⟨false, 0, 0, false, 0, 0, 0, 0, 0, false, 0, false, 0, 0, 0, []⟩

/-- A started transfer that is not complete (R247): its number, its instruction, its start and deadline T_d (R259), the remote
read or the packets of a remote write, the flash tiles still to be read, the lowest of those that came after T_d, and the first
failure with its address. -/
structure StrRun where
  no : Nat
  e : QEntry
  start : Nat
  deadline : Option Nat
  rr : RRead
  flash : List Nat
  tardy : Option Nat
  fail : Option (Nat × Nat)
deriving DecidableEq, Repr

/-- The stream engine (R240 to R273). `loose` holds the identifiers of the outstanding remote requests that no started transfer waits
for: those of prefetch fills, also of streams that stopped since (R252), and those of transfers that ended before them (R261, R119). -/
structure StrUnit where
  queue : List QEntry
  run : List StrRun
  nextNo : Nat
  pf : SMap PfStream
  loose : List Nat
deriving DecidableEq, Repr

def StrUnit.reset : StrUnit := ⟨[], [], 0, [], []⟩

/-- What follows a write-back of the resident block (R218, R216, R227). -/
inductive WbNext where
  | toLoad | toClear | drain | release | idle
deriving DecidableEq, Repr

/-- What moves over the accumulator port for the deferral queue (R218). -/
inductive ResMove where
  | writeBack (next : WbNext)
  | load
deriving DecidableEq, Repr

/-- Progress of the started optimizer fill item at the head (R226, R360): the next block or touch-list entry counted from FIRST;
and of a claimed lazy row (R350) its number, its next block, nb, and the patterns of p1 and p2. -/
structure OptRun where
  next : Nat
  row : Option (Nat × Nat × Nat × Nat × Nat)
deriving DecidableEq, Repr

/-- The deferral queue and the optimizer fill queue (R214 to R229). Items are 32-byte little-endian numbers; `slice` is the
next slice of the head PRODUCT once it has acted on the resident block, and `quads` the quadrants that it computes; `res` is the resident block's address and group. -/
structure FillUnit where
  defer : List Nat
  slice : Option Nat
  quads : List (Nat × Nat)
  bound : Option Nat
  res : Option (Nat × Nat)
  move : Option ResMove
  opt : List Nat
  optHead : Option OptRun
  optGated : Bool
  level : Nat
deriving DecidableEq, Repr

def FillUnit.reset : FillUnit := ⟨[], none, [], none, none, none, [], none, false, 0⟩

/-- A GWAIT at the head of the message queue (R430): barrier, instance, T_w, the stamp of that instance's closure, and
whether the closure has been acted on (R210). -/
structure GaugeWait where
  bar : Nat
  inst : Nat
  since : Nat
  closed : Option Nat
  go : Bool
deriving DecidableEq, Repr

/-- The message unit (R85, R398): its queue; for an MSEND at the head that has started, the number of its message, with 0
where nothing is left to wait for; and a GWAIT at the head. -/
structure MsgUnit where
  queue : List QEntry
  started : Option Nat
  gw : Option GaugeWait
deriving DecidableEq, Repr

def MsgUnit.reset : MsgUnit := ⟨[], none, none⟩

/-- One tile. Its TILE_ registers that hold plain values live in State's register file. -/
structure Tile where
  phase : TaskState
  aborting : Bool
  halting : Bool
  haltPc : Nat
  trapTime : Nat
  trapCycles : Nat
  pc : Nat
  winBase : Nat
  winSize : Nat
  s : SMap Word
  rdspWait : Bool
  /-- The core's token wait (R92): the instant it began, the token and the amount. -/
  coreWait : Option (Nat × Nat × Nat)
  ops : List ScalarOp
  /-- Token counters as their increments not yet taken away: (stamp, amount), oldest first (R92). -/
  tk : SMap (List (Nat × Nat))
  /-- CYCLES up to `cycSince`, in thousandths of a cycle. -/
  cycBase : Nat
  cycSince : Nat
  /-- Instructions that the core has handed to queues or to memory since task start. -/
  issued : Nat
  oc : SMap Byte
  /-- 32-bit words of the operand cache that hold an uncorrectable error (R27, R297). -/
  ocBad : List Nat
  /-- Words of the accumulator tiles and of the vector register file that hold an uncorrectable error (R297). -/
  regBad : List RegWord
  mat : MatUnit
  vec : VecUnit
  str : StrUnit
  fill : FillUnit
  msg : MsgUnit
deriving DecidableEq, Repr

/-- A tile after reset (R80: IDLE; the register files as DESIGN CHOICE zeros, assumption log 2). -/
def Tile.reset : Tile :=
  ⟨.idle, false, false, 0, 0, 0, 0, 0, 0, [], false, none, [], [], 0, 0, 0, [], [], [], .reset, .reset, .reset, .reset, .reset⟩

end Sys2Proof.Machine
end

