-- ==== Sys2Proof/Machine/TwinTypes.lean ====
section
/-!
DEFINITION. What the shadow engine holds (spec 14): the loaded map, what it still has to send, the receiver's bits, and the
agreement. Plain data only.
-/
namespace Sys2Proof

namespace Machine

/-- A range of the shadow map (R459). -/
structure ShadowRange where
  base : Nat
  log : Bool
  blocks : Nat
deriving DecidableEq, Repr

/-- An item to send: still owed, sends not acknowledged yet, sent before, and written again after it was listed, so that it
stands at the back of the order (R464). -/
structure ShadowOwed where
  item : ShadowItem
  owed : Bool
  flying : Nat
  ever : Bool
  back : Bool
deriving DecidableEq, Repr

/-- The agreement of a step (R468, R469): own arrival, row arrivals, whether the row stage is complete, column arrivals. -/
structure Agreement where
  step : Nat
  own : Bool
  row : List Nat
  rowDone : Bool
  col : List Nat
deriving DecidableEq, Repr

/-- A running restore (R476): what is left to send or to receive, sends not acknowledged yet, and on the spare the header of
the log slot. -/
structure Restore where
  left : List ShadowItem
  flying : Nat
  header : Option (Nat × Bool)
deriving DecidableEq, Repr

/-- The shadow engine. `image`, `log` and `extra` (headers and the step-record copy) are what is not acknowledged; `record` is
the step-record copy; `held` are the blocks of R465; `gdata` holds the reduced-gradient bytes of R467. As receiver: `cur` are
the blocks whose current bit is 1, `pend` those whose pending bit is 1, `slots` the log slots in use. `sends` are the sends that were not
acknowledged, oldest first, with their instants (R475). `recBad` are the poisoned units of the step-record copy; `sent` the blocks sent in
their epoch or step, acknowledged or not (R464); `ownLanded` and `peerLanded`: since the pair is exposed, the epoch of this module, and that of its
twin, has landed (R477). -/
structure TwinSt where
  ranges : List ShadowRange
  crc : Nat
  lost : Bool
  image : List ShadowOwed
  log : List ShadowOwed
  extra : List ShadowOwed
  record : Nat × List Byte
  held : List Nat
  gdata : List Host.Cell
  cur : List Nat
  pend : List Nat
  slots : List Nat
  agrees : List Agreement
  restore : Option Restore
  sends : List (ShadowItem × Nat)
  recBad : List Nat
  sent : List ShadowItem
  ownLanded : Bool
  peerLanded : Bool
deriving DecidableEq, Repr

def TwinSt.reset : TwinSt := ⟨[], 0, false, [], [], [], (0, []), [], [], [], [], [], [], none, [], [], [], false, false⟩

end Machine
end Sys2Proof
end

