-- ==== Sys2Proof/Machine/State.lean ====
section
/-!
DEFINITION. The state of the module as plain data, the reasons a command can stop, and the state after reset.
-/
namespace Sys2Proof.Machine

/-- Faults: the block stops. -/
inductive Fault where
  /-- Raised by the controller rows MEM_READ, MEM_WRITE, CORRECTIVE_WRITE and DRAM_SCRUB for an access unit that R37
  leaves unmapped: no controller serves it, so the row cannot occur. Safe: the spec gives it no effect. -/
  | unmappedUnit
deriving DecidableEq, Repr

/-- Refusals: a command without a meaning. -/
inductive Refusal where
  /-- Raised by an arm of exec that has no meaning yet, with its row's mnemonic. Safe. -/
  | notModelled (mnemonic : String)
deriving DecidableEq, Repr

/-- Half-register accesses (R12): the held low half and the latched high half of one 64-bit register. -/
structure Halves where
  low : Option Nat
  high : Option Nat
deriving DecidableEq, Repr

/-- What leaves the module: nothing inside reads it (assumption log 3). -/
inductive Out where
  | msix (addr data : Nat)
  | ibi (data : Nat)
  | unit (eng lane utype lseq : Nat) (body : List Byte)
  /-- Light of a lane: the 1,360 PAM4 levels of one codeword (R437, R438). Codewords of IDLE units alone, which a lane with nothing to send
  sends without pause, are not listed. -/
  | light (eng lane : Nat) (levels : List (Fin 4))
  /-- An item of the shadow engine for the twin: whether it takes the fabric (VIA_FABRIC, R385) and not the twin port, its data and the
  numbers of its poisoned units; and the acknowledgement of one that came from the twin. The spec gives these messages no packet layout. -/
  | shadow (fabric : Bool) (x : ShadowItem) (data : List Byte) (poison : List Nat)
  | shadowAck (fabric : Bool) (x : ShadowItem)
  /-- The module's own I, Lg and CRC over its map table, for the twin (R462). -/
  | shadowMap (fabric : Bool) (i l crc : Nat)
  /-- The module tells its twin that its epoch has landed (DESIGN CHOICE, assumption log 92). -/
  | shadowLanded (fabric : Bool)
  /-- A completion of a host read of the staging window: its data, and EP = 1 where its unit was bad (R558). -/
  | completion (data : List Byte) (ep : Bool)
  /-- An error that the endpoint reports through AER: a completion that it had to poison (R553, R558). -/
  | aer
  /-- The 48-bit provisional ID that the I3C target sends when it is given its dynamic address (R568). -/
  | i3cId (id : Nat)
  /-- A response of the MCTP endpoint over binding `via` (0 PCIe, 1 I3C, 2 SGMII), from its address on that binding: message type 0, 5 or
  0x7F, command or response code, completion code or parameters, and contents. -/
  | mctp (src via typ cmd code : Nat) (data : List Byte)
deriving DecidableEq, Repr

/-- A running image load (R132): the device address and the size of the image, the step that completes next (2 digest, 6 copy,
7 take-over, 9 start), its header, the TASKS entries of 32 bytes copied so far, whether it has MAP_TABLES, and T_s. -/
structure LoadRun where
  base : Nat
  size : Nat
  next : Nat
  head : List Byte
  tasks : List (List Byte)
  map : Bool
  ts : Nat
deriving DecidableEq, Repr

/-- The image loader (spec 03 R128 to R133) and what accepted images left: the effective feature word of R123 once an image was
loaded, JOB_ID, and DIGEST and JOB_ID of the last image that reached IMAGE_OK (R549). -/
structure Loader where
  feat : Option Nat
  jobId : Nat
  /-- The tiles that the running load targets (R126). -/
  targets : List Nat
  /-- FLAGS[1] of the image most recently accepted was set in test mode (R201). -/
  refpers : Bool
  run : Option LoadRun
  lastOk : Option (List Byte × Nat)
deriving DecidableEq, Repr

def Loader.reset : Loader := ⟨none, 0, [], false, none, none⟩

structure State where
  now : Nat
  free : Nat
  wire : List Out
  readData : Nat
  csr : SMap Nat
  halves : SMap Halves
  tiles : SMap Tile
  mem : Mem
  devq : List DevMsg
  load : Loader
  phases : Phases
  fab : Fab
  mail : MailSt
  tier : TierSt
  upd : UpdSt
  twin : TwinSt
  pkg : PkgSt
  pwr : PwrSt
  host : HostIf
  pm : Pm
  obs : Obs
  pending : List Instr
deriving DecidableEq, Repr

/-- The machine right after reset. -/
def State.reset : State :=
  { now := 0, free := 0, wire := [], readData := 0, csr := [], halves := [], tiles := [], mem := .reset, devq := [], load := .reset, phases := .reset,
    fab := .reset, mail := .reset, tier := .reset, upd := .reset, twin := .reset,
    pkg := .reset, pwr := .reset, host := .reset, pm := .reset, obs := .reset, pending := [] }

end Sys2Proof.Machine
end

