-- ==== Sys2Proof/Machine/Ops.lean ====
section
/-!
DEFINITION. The named operations that every family uses: register fields, tiles, free values, bits and bytes, the cause
tree (R562 to R566), events for the log and the trace, and messages that the device sends itself.
-/
namespace Sys2Proof.Machine

/-! ### Register fields -/

/-- The key of a field in State's register file: its register's byte offset and its lowest bit. -/
def fldKey (f : Fld) : Nat := f.off * 64 + f.lo

/-- Does the register array hold a register at this offset? -/
def RegDef.covers (r : RegDef) (off : Nat) : Bool :=
  decide (r.base ≤ off) &&
  (let d := off - r.base
   decide (d / r.s1 < r.n1) && decide (d % r.s1 / r.s2 < r.n2) && decide (d % r.s1 % r.s2 = 0))

/-- The register at an offset (R40 to R42). -/
def regAt (off : Nat) : Option RegDef := regTable.find? fun r => r.covers off

/-- What a field holds when it was never written: its reset value (R17); LAS_MAP_n resets to n. -/
def csrDefault (key : Nat) : Nat :=
  match regAt (key / 64) with
  | none => 0
  | some r =>
    if r.name == "LAS_MAP" && key % 64 == 0 then (key / 64 - r.base) / 4 else
    match r.fields.find? fun f => f.lo == key % 64 with
    | some f => f.reset
    | none => 0

/-- The value of a field. -/
def getF (s : State) (f : Fld) : Nat := mget csrDefault s.csr (fldKey f)

/-- Write a field, cut to its width. -/
def setF (s : State) (f : Fld) (v : Nat) : State :=
  { s with csr := mset csrDefault s.csr (fldKey f) (v % 2 ^ (f.hi + 1 - f.lo)) }

/-- Is a one-bit field set? -/
def bitF (s : State) (f : Fld) : Bool := getF s f == 1

/-- The largest value of a field. -/
def Fld.top (f : Fld) : Nat := 2 ^ (f.hi + 1 - f.lo) - 1

/-- Add to a counter that wraps at its width. -/
def addF (s : State) (f : Fld) (n : Nat) : State := setF s f (getF s f + n)

/-- Add to a counter that saturates at its width. -/
def satF (s : State) (f : Fld) (n : Nat) : State := setF s f (min f.top (getF s f + n))

/-- Several field writes in order. -/
def setFs (s : State) (l : List (Fld × Nat)) : State := l.foldl (fun s p => setF s p.1 p.2) s

/-- Reset every register whose offset satisfies `p`. -/
def resetRegs (s : State) (p : Nat → Bool) : State := { s with csr := mclear (fun k => p (k / 64)) s.csr }

/-! ### Tiles -/

/-- Tile t. -/
def State.tile (s : State) (t : Nat) : Tile := mget (fun _ => Tile.reset) s.tiles t

/-- Replace tile t. -/
def State.setTile (s : State) (t : Nat) (x : Tile) : State :=
  { s with tiles := mset (fun _ => Tile.reset) s.tiles t x }

/-- Change tile t. -/
def State.onTile (s : State) (t : Nat) (f : Tile → Tile) : State := s.setTile t (f (s.tile t))

/-! ### Free values -/

/-- A fresh undefined word. -/
def freshWord (s : State) : Word × State := (Config.freeWord s.free, { s with free := s.free + 1 })

/-- A list of fresh undefined bytes. -/
def freshBytes (s : State) (n : Nat) : List Byte × State :=
  ((List.range n).map fun i => Config.freeByte (s.free + i), { s with free := s.free + n })

/-- A fresh undefined choice. -/
def freshBool (s : State) : Bool × State := (Config.freeBool s.free, { s with free := s.free + 1 })

/-! ### Bits and bytes -/

/-- Bits hi to lo of a number (R18). -/
def bits (x hi lo : Nat) : Nat := (x / 2 ^ lo) % 2 ^ (hi + 1 - lo)

/-- Bit i of a number. -/
def bit (x i : Nat) : Bool := (x / 2 ^ i) % 2 == 1

/-- Set bit i. -/
def setBit (x i : Nat) : Nat := if bit x i then x else x + 2 ^ i

/-- Clear bit i. -/
def clrBit (x i : Nat) : Nat := if bit x i then x - 2 ^ i else x

/-- A little-endian number as n bytes (R8). -/
def toBytes : Nat → Nat → List Byte
  | 0, _ => []
  | n + 1, x => BitVec.ofNat 8 x :: toBytes n (x / 256)

/-- Bytes as a little-endian number (R8). -/
def ofBytes : List Byte → Nat
  | [] => 0
  | b :: r => b.toNat + 256 * ofBytes r

/-- The two's-complement value of an n-bit number. -/
def sx (n x : Nat) : Int := if 2 ^ (n - 1) ≤ x % 2 ^ n then (x % 2 ^ n : Nat) - (2 ^ n : Nat) else (x % 2 ^ n : Nat)

/-- n bytes of a byte list from offset o; bytes past the end read 0. -/
def slice (l : List Byte) (o n : Nat) : List Byte := (List.range n).map fun i => l.getD (o + i) 0

/-- A little-endian field of a byte list. -/
def leAt (l : List Byte) (o n : Nat) : Nat := ofBytes (slice l o n)

/-- Overlay bytes at an offset of a byte list. -/
def overlay (l : List Byte) (o : Nat) (b : List Byte) : List Byte := l.take o ++ b ++ l.drop (o + b.length)

/-- Do the ranges [a, a+m) and [b, b+n) overlap? -/
def rangesMeet (a m b n : Nat) : Bool := decide (0 < m) && decide (0 < n) && decide (a < b + n) && decide (b < a + m)

/-- Index of the first element that satisfies p. -/
def firstIdx {α : Type} (p : α → Bool) : List α → Option Nat
  | [] => none
  | x :: r => if p x then some 0 else (firstIdx p r).map (· + 1)

/-- Remove the element at index i. -/
def removeAt {α : Type} : List α → Nat → List α
  | [], _ => []
  | _ :: r, 0 => r
  | x :: r, i + 1 => x :: removeAt r i

/-- Replace the element at index i. -/
def replaceAt {α : Type} : List α → Nat → α → List α
  | [], _, _ => []
  | _ :: r, 0, y => y :: r
  | x :: r, i + 1, y => x :: replaceAt r i y

/-! ### Log events and trace records -/

/-- CMP_TB_STATUS.LOCKED, which FLAGS.SYNCED of records copies (R540, R575). -/
def synced (s : State) : Bool := bitF s fCMP_TB_STATUS_LOCKED

/-- A block posts an event into the event queue; an event that finds the queue of 1,024 full is lost and counted (R535,
R543). `time` is the instant at which the hardware detected the event, `sync` LOCKED at that instant, `src` the reporting block's range
(R540). -/
def postEventAt (s : State) (time : Nat) (sync : Bool) (status sev src inst arg0 arg1 : Nat) : State :=
  if s.pm.evq.length < 1024 then
    { s with pm := { s.pm with evq := s.pm.evq ++ [⟨time, status, sev, sync, true, src, arg0, inst, arg1⟩] } }
  else satF { s with pm := { s.pm with lostN := s.pm.lostN + 1 } } fPM_LOG_STATUS_HW_LOST 1

/-- An event that is detected now. -/
def postEvent (s : State) (status sev src inst arg0 arg1 : Nat) : State :=
  postEventAt s s.now (synced s) status sev src inst arg0 arg1

/-- The trace unit takes a record into its staging SRAM of 8,192 records while a session runs and its type is enabled;
a full staging SRAM drops it (R576, R580). -/
def postTrace (s : State) (typ inst arg0 arg1 : Nat) : State :=
  if s.obs.active && bit (getF s fOBS_CTL_TYPES) typ then
    if s.obs.stage.length < 8192 then
      { s with obs := { s.obs with stage := s.obs.stage ++ [⟨s.now, typ, synced s, inst, arg0, arg1⟩] } }
    else addF { s with obs := { s.obs with dropped := s.obs.dropped + 1 } } fOBS_TRACE_LOST_COUNT 1
  else s

/-! ### The cause tree -/

/-- Bit w of the TILE summary: an unmasked leaf of INT_CAUSE_TILE_w (R564). -/
def tileSummary (s : State) : Nat :=
  (List.range 8).foldl (fun a w =>
    if getF s (fINT_CAUSE_TILE_LEAF w) &&& (0xFFFFFFFF - getF s (fINT_MASK_TILE_MASK w)) = 0 then a else a + 2 ^ w) 0

/-- The leaves of subsystem i that are not masked (R562); TILE is the summary of R564. -/
def unmaskedLeaves (s : State) (i : Nat) : Nat :=
  if i = 3 then tileSummary s
  else getF s (fINT_CAUSE_LEAF i) &&& (0xFFFFFFFF - getF s (fINT_MASK_MASK i))

/-- INT_SUMSTAT.SUB (R562). -/
def sumstat (s : State) : Nat :=
  (List.range 12).foldl (fun a i => if unmaskedLeaves s i = 0 then a else a + 2 ^ i) 0

/-- The interrupt condition (R562); INT_N is low while it holds (R565). -/
def intCond (s : State) : Bool := (sumstat s &&& (0xFFF - getF s fINT_SUMMASK_MASK)) != 0

/-- One MSI-X message on vector 0, or the pending bit while the vector is masked; and the I3C in-band interrupt
(R565, R568). -/
def fireInterrupt (s : State) : State :=
  let s := if s.host.msixMask then { s with host := { s.host with msixPend := true } }
    else { s with wire := .msix s.host.msixAddr s.host.msixData :: s.wire }
  if s.host.ibi then { s with wire := .ibi (sumstat s % 256) :: s.wire } else s

/-- A message is sent at each transition of the condition from false to true; a message that still waits for the vector to be unmasked is
dropped when the condition ends (R565). -/
def edge (before after : State) : State :=
  if intCond before == intCond after then after
  else if intCond after then fireInterrupt after
  else { after with host := { after.host with msixPend := false } }

/-- An event sets leaf k of subsystem i (R563); a leaf that goes from 0 to 1 writes a LEAF record (R576). -/
def setLeaf (s : State) (i k : Nat) : State :=
  let f := fINT_CAUSE_LEAF i
  if bit (getF s f) k then s
  else edge s (postTrace (setF s f (setBit (getF s f) k)) 5 i k 0)

/-- The abort leaf of tile t (R564, R119). -/
def setTileLeaf (s : State) (t : Nat) : State :=
  let f := fINT_CAUSE_TILE_LEAF (t / 32)
  if bit (getF s f) (t % 32) then s
  else edge s (postTrace (setF s f (setBit (getF s f) (t % 32))) 5 3 (t % 32) t)

/-- The subsystem and the first leaf that mirror an error register (R564). -/
def mirrorOf (off : Nat) : Option (Nat × Nat) :=
  if off = 0x48 then some (0, 0)
  else if off = 0x300010 then some (1, 0)
  else if off = 0x200004 then some (2, 0)
  else if off = 0x600020 then some (5, 0)
  else if off = 0x700028 then some (6, 0)
  else if off = 0x800010 then some (7, 0)
  else if off = 0x502020 then some (8, 0)
  else if off = 0xA00020 then some (9, 0)
  else if off = 0xA10100 then some (9, 16)
  else if off = 0xB00010 then some (9, 24)
  else if off = 0xC00030 then some (10, 0)
  else none

/-- An event sets a source bit, and with it the leaf that mirrors it (R563, R564). -/
def raise (s : State) (f : Fld) : State :=
  let s := setF s f 1
  match mirrorOf f.off with
  | some (i, b) => setLeaf s i (b + f.lo)
  | none => s

/-- Raise only where the condition holds. -/
def raiseIf (c : Bool) (s : State) (f : Fld) : State := if c then raise s f else s

/-! ### Messages of the device -/

/-- The device sends a message to a pigeonhole (R397); the Mailroom takes it from `devq`. -/
def sendDev (s : State) (ph cls : Nat) (inline : List Byte) : State :=
  { s with devq := s.devq ++ [⟨ph, cls, inline⟩] }

end Sys2Proof.Machine
end

