-- ==== Sys2Proof/Machine/Dakor.lean ====
section
/-!
DEFINITION. The Dakor instruction word (spec 03 R96 to R101, R609; 04 R142 to R145; 05 R179 to R187; 07 R243 to R248): its
fields, and which words are legal under an effective feature word (R116, R117, R125).
-/
namespace Sys2Proof.Machine

/-- Bits hi to lo of an instruction word. -/
def wf (w : Word) (hi lo : Nat) : Nat := bits w.toNat hi lo

def wMaj (w : Word) : Nat := wf w 63 58
def wMin (w : Word) : Nat := wf w 57 52
def wSD (w : Word) : Nat := wf w 51 46
def wSA (w : Word) : Nat := wf w 45 40
def wSB (w : Word) : Nat := wf w 39 34

/-- The SYNC field of R97. -/
def wWE (w : Word) : Bool := bit w.toNat 9
def wWTK (w : Word) : Nat := wf w 8 5
def wSE (w : Word) : Bool := bit w.toNat 4
def wSTK (w : Word) : Nat := wf w 3 0

/-- FMT_A and FMT_B of format E. -/
def wFA (w : Word) : Nat := wf w 17 14
def wFB (w : Word) : Nat := wf w 13 10

/-- Fields of format MS (R114). -/
def wPH (w : Word) : Nat := wf w 33 20
def wSEAL (w : Word) : Bool := bit w.toNat 19
def wCLASS (w : Word) : Nat := wf w 18 17
def wREG (w : Word) : Bool := bit w.toNat 16

/-- Fields of format CT. -/
def wSYS (w : Word) : Nat := wf w 39 28
def wTK (w : Word) : Nat := wf w 27 24
def wIMM24 (w : Word) : Nat := wf w 23 0

/-- Fields of format VR (R179). -/
def wVD (w : Word) : Nat := wf w 51 47
def wVA (w : Word) : Nat := wf w 46 42
def wVB (w : Word) : Nat := wf w 41 37
def wKM (w : Word) : Nat := wf w 36 34
def wBS (w : Word) : Bool := bit w.toNat 33
def wSS (w : Word) : Nat := wf w 32 27
def wIMM6 (w : Word) : Nat := wf w 26 21

/-- Fields of format VM (R179). -/
def wmSX (w : Word) : Nat := wf w 46 41
def wmSY (w : Word) : Nat := wf w 40 35
def wmSH (w : Word) : Nat := wf w 34 29
def wmOC (w : Word) : Bool := bit w.toNat 28
def wmKM (w : Word) : Nat := wf w 27 25
def wmPRED (w : Word) : Bool := bit w.toNat 24
def wmDEC (w : Word) : Nat := wf w 23 22

/-- Fields of format ST (R243). -/
def wsSX (w : Word) : Nat := wf w 51 46
def wsSY (w : Word) : Nat := wf w 45 40
def wsSZ (w : Word) : Nat := wf w 39 34
def wsSW (w : Word) : Nat := wf w 33 28
def wsHINT (w : Word) : Nat := wf w 27 26
def wsSEAL (w : Word) : Bool := bit w.toNat 25
def wsEE (w : Word) : Bool := bit w.toNat 24
def wsETK (w : Word) : Nat := wf w 23 20
def wsOPT (w : Word) : Bool := bit w.toNat 19

/-- A word of format CT from its fields. -/
def ctWord (maj min sd sa sys tk imm : Nat) : Word :=
  BitVec.ofNat 64 (maj * 2 ^ 58 + min * 2 ^ 52 + sd * 2 ^ 46 + sa * 2 ^ 40 + sys * 2 ^ 28 + tk * 2 ^ 24 + imm)

/-- A word of format SR (R96). -/
def srWord (maj min sd sa sb : Nat) : Word :=
  BitVec.ofNat 64 (maj * 2 ^ 58 + min * 2 ^ 52 + sd * 2 ^ 46 + sa * 2 ^ 40 + sb * 2 ^ 34)

/-- A word of format SI (R96); `imm` is the pattern of IMM40. -/
def siWord (maj min sd sa imm : Nat) : Word :=
  BitVec.ofNat 64 (maj * 2 ^ 58 + min * 2 ^ 52 + sd * 2 ^ 46 + sa * 2 ^ 40 + imm)

/-- A word of format SL (R96). -/
def slWord (maj min sd imm : Nat) : Word :=
  BitVec.ofNat 64 (maj * 2 ^ 58 + min * 2 ^ 52 + sd * 2 ^ 46 + imm)

/-- A word of format SM (R96). -/
def smWord (maj min sd sa hint offs : Nat) : Word :=
  BitVec.ofNat 64 (maj * 2 ^ 58 + min * 2 ^ 52 + sd * 2 ^ 46 + sa * 2 ^ 40 + hint * 2 ^ 38 + offs)

/-- A word of format SB (R96). -/
def sbWord (maj min sa sb offs : Nat) : Word :=
  BitVec.ofNat 64 (maj * 2 ^ 58 + min * 2 ^ 52 + sa * 2 ^ 46 + sb * 2 ^ 40 + offs)

/-- A word of an immediate message instruction, format MS with FLAGS 0 but for REG (R114, R115). -/
def msWord (min sd sa : Nat) (sel : PhSel) : Word :=
  BitVec.ofNat 64 (0x28 * 2 ^ 58 + min * 2 ^ 52 + sd * 2 ^ 46 + sa * 2 ^ 40 +
    (match sel with | .ph p => p.toNat * 2 ^ 20 | .reg sb => sb.val * 2 ^ 34 + 2 ^ 16))

/-- Feature bits of R124. -/
def featFMT4 : Nat := 1
def featACC16 : Nat := 2
def featB16 : Nat := 3
def featSPARSE : Nat := 4
def featSCALEPRED : Nat := 5
def featINFAB : Nat := 6
def featREFPERS : Nat := 7
def featDETERM : Nat := 8

/-- Is a format code legal under the effective feature word (R98, R124)? -/
def fmtLegal (feat code : Nat) : Bool :=
  decide (code < 14) && (!(code == 7 || code == 11) || bit feat featFMT4) &&
  (!(decide (9 ≤ code) && decide (code ≤ 12)) || bit feat featB16)

/-- SYNC of R97. -/
def syncLegal (w : Word) : Bool := (wWE w || wWTK w == 0) && (wSE w || wSTK w == 0)

/-- Scalar, control, token and system words (R102 to R113, R609). -/
def scalarLegal (w : Word) : Bool :=
  let min := wMin w
  match wMaj w with
  | 1 => wf w 33 0 == 0 && (decide (min ≤ 0x16) || (decide (min ≤ 0x19) && wSB w == 0))
  | 2 =>
    decide (min ≤ 0x16) && min != 0x0A && min != 0x0B &&
    (!(decide (6 ≤ min) && decide (min ≤ 8)) || wf w 39 6 == 0)
  | 3 => min == 0 || (min == 1 && wf w 45 18 == 0)
  | 4 => wf w 37 34 == 0 && (decide (min ≤ 6) || (min == 8 && wf w 39 38 == 0))
  | 5 => wf w 37 34 == 0 && (decide (min ≤ 3) || (min == 8 && wf w 39 38 == 0))
  | 6 => decide (min ≤ 3) && wf w 33 0 == 0
  | 7 => decide (min ≤ 5)
  | 8 => min == 0
  | 9 => min == 0
  | 0x30 =>
    wSYS w == 0 && wTK w == 0 &&
    (match min with
     | 0 => wSD w == 0 && wSA w == 0 && wIMM24 w == 0
     | 1 => wSD w == 0 && wSA w == 0 && wIMM24 w == 0
     | 2 => wSD w == 0 && wIMM24 w == 0
     | 3 => wSD w == 0 && wSA w == 0
     | 4 => wSD w == 0 && wSA w == 0 && wf w 23 5 == 0 && wf w 4 0 != 0
     | _ => false)
  | 0x31 =>
    wSYS w == 0 && wSA w == 0 &&
    (match min with
     | 0 => wSD w == 0 && wIMM24 w == 0
     | 1 => wSD w == 0 && wIMM24 w == 0
     | 2 => wSD w == 0 && wf w 23 16 == 0
     | 3 => wIMM24 w == 0
     | 4 => wSD w == 0 && wf w 23 16 == 0 && wf w 15 0 != 0
     | 5 => wSD w == 0 && wIMM24 w == 0
     | _ => false)
  | 0x32 =>
    let sp := (decide (0x800 ≤ wSYS w) && decide (wSYS w ≤ 0x802)) || (decide (0x810 ≤ wSYS w) && decide (wSYS w ≤ 0x81F))
    wTK w == 0 && wIMM24 w == 0 &&
    (match min with
     | 0 => wSA w == 0 && decide (wSYS w ≤ 8)
     | 1 => wSD w == 0 && sp
     | 2 => wSA w == 0 && sp
     | _ => false)
  | _ => false

/-- Message words (R114, R115, R402, R609). -/
def messageLegal (w : Word) : Bool :=
  let phSel := if wREG w then wPH w == 0 else wSB w == 0
  let flags0 := wf w 19 12 == 0
  wMaj w == 0x28 && wf w 15 10 == 0 && syncLegal w &&
  (match wMin w with
   | 0 => wSD w == 0 && phSel && wCLASS w != 2 && !(wCLASS w == 1 && (wPH w != 0 || wREG w))
   | 1 => wSD w == 0 && phSel && !wSEAL w && wCLASS w == 0
   | 2 => wSD w == 0 && wSA w == 0 && flags0
   | 3 => wSD w == 0 && wSA w == 0 && wSB w == 0 && flags0 && wf w 33 30 == 0
   | 4 => wSD w == 0 && wSA w == 0 && wSB w == 0 && flags0 && wf w 33 30 == 0
   | 5 => wSD w == 0 && wSB w == 0 && wPH w == 0 && flags0
   | 8 => wSA w == 0 && phSel && !wSEAL w && wCLASS w == 0 && wf w 9 0 == 0
   | 9 => phSel && !wSEAL w && wCLASS w == 0 && wf w 9 0 == 0
   | _ => false)

/-- Matrix words (R142 to R145). -/
def matrixLegal (feat : Nat) (w : Word) : Bool :=
  wMaj w == 0x10 && syncLegal w &&
  (match wMin w with
   | 0 =>
     let fa := wFA w
     let fb := wFB w
     let a16 := bit w.toNat 49
     let spr := bit w.toNat 48
     wf w 21 18 == 0 && fmtLegal feat fa && fmtLegal feat fb && widthClass fa != 0 && widthClass fb != 0 &&
     (!a16 || (bit feat featACC16 && widthClass fa != 16 && widthClass fb != 16)) &&
     (if spr then bit feat featSPARSE else wf w 27 22 == 0)
   | 1 => wf w 50 10 == 0
   | 2 => wf w 50 46 == 0 && wf w 39 10 == 0
   | 3 => wf w 50 46 == 0 && wf w 39 10 == 0
   | 4 => wf w 50 46 == 0 && wf w 39 10 == 0
   | _ => false)

/-- Vector words (R179, R180, R182 to R187). -/
def vectorLegal (feat : Nat) (w : Word) : Bool :=
  let min := wMin w
  let bOk := if wBS w then wVB w == 0 else wSS w == 0
  let noB := wVB w == 0 && !wBS w && wSS w == 0
  let vr := wf w 20 10 == 0
  syncLegal w &&
  (match wMaj w with
   | 0x18 =>
     vr &&
     (if min ≤ 0x06 then bOk && wIMM6 w == 0
      else if min ≤ 0x08 then noB && wIMM6 w == 0
      else if min ≤ 0x0C then bOk && wIMM6 w == 0
      else if min ≤ 0x0F then noB && !bit w.toNat 26
      else if min ≤ 0x12 then bOk && wIMM6 w == 0 && decide (wVD w < 8)
      else if min = 0x13 then bOk && decide (wIMM6 w < 8)
      else if min = 0x14 then noB && wIMM6 w == 0
      else if min = 0x15 then noB
      else if min = 0x16 then bOk && wIMM6 w == 0
      else if min = 0x17 then noB && wIMM6 w == 0
      else if min ≤ 0x1A then
        !wBS w && wSS w == 0 && wKM w == 0 && wIMM6 w == 0 && decide (wVD w < 8) && decide (wVA w < 8) && decide (wVB w < 8)
      else if min = 0x1B then bOk && wIMM6 w == 0
      else false)
   | 0x19 =>
     wf w 21 18 == 0 && wf w 13 10 == 0 && fmtLegal feat (wFA w) && (decide (5 ≤ wFA w) || wmSY w == 0) &&
     (match min with
      | 0 => !wmPRED w && wmSH w == 0 && wmDEC w == 0
      | 1 => if wmPRED w then decide (5 ≤ wFA w) && decide (wFA w ≤ 12) && bit feat featSCALEPRED
             else wmSH w == 0 && wmDEC w == 0
      | _ => false)
   | 0x1A =>
     vr && wVB w == 0 && !wBS w &&
     (match min with
      | 0 => wVA w == 0 && decide (wIMM6 w < 4)
      | 1 => wSS w == 0 && decide (wIMM6 w < 4)
      | 2 => wSS w == 0 && decide (wIMM6 w < 2)
      | 3 => wSS w == 0 && decide (wIMM6 w < 4)
      | 4 => wSS w == 0 && decide (wIMM6 w < 32)
      | _ => false)
   | _ => false)

/-- Stream words (R243 to R246). A SEAL outside SGET and SPUT, an ETK that equals STK, and every unused field are illegal;
HINT is used by the transfers that touch device memory, EE and ETK by the transfers (assumption log 12). -/
def streamLegal (feat : Nat) (w : Word) : Bool :=
  let min := wMin w
  let fmt0 := wFA w == 0 && wFB w == 0
  let ee := (wsEE w || wsETK w == 0) && !(wsEE w && wSE w && wsETK w == wSTK w)
  syncLegal w && !bit w.toNat 18 && ee &&
  (match wMaj w with
   | 0x20 =>
     (min == 3 || min == 4 || !wsSEAL w) &&
     (match min with
      | 0 => wFB w == 0 && (if wsOPT w then decide (1 ≤ wFA w) && decide (wFA w ≤ 12) && fmtLegal feat (wFA w) else wFA w == 0)
      | 1 => fmtLegal feat (wFA w) && fmtLegal feat (wFB w) &&
             (if wsOPT w then decide (5 ≤ wFB w) && decide (wFB w ≤ 12) && bit feat featSCALEPRED else wsSW w == 0)
      | 2 => fmt0 && !wsOPT w
      | 3 => fmt0
      | 4 => fmt0 && !wsOPT w
      | 5 => fmt0 && !wsOPT w && wsSZ w == 0
      | 6 => wFB w == 0 && !wsOPT w && decide (1 ≤ wFA w) && fmtLegal feat (wFA w)
      | 7 => fmt0 && !wsOPT w && wsSW w == 0
      | 8 => fmt0 && wsSY w == 0 && wsSZ w == 0 && wsSW w == 0 && wsHINT w == 0 && bit feat featSPARSE
      | _ => false)
   | 0x21 =>
     fmt0 && !wsOPT w && !wsSEAL w && wsHINT w == 0 && !wsEE w &&
     (match min with
      | 0 => true
      | 1 => wsSX w == 0 && wsSY w == 0 && wsSZ w == 0
      | _ => false)
   | _ => false)

/-- The engine queue that a legal word is bound for (R85): WRSP and RDSP go to the vector queue. -/
def queueOf (w : Word) : Option Engine :=
  match wMaj w with
  | 0x10 => some .matrix
  | 0x18 => some .vector
  | 0x19 => some .vector
  | 0x1A => some .vector
  | 0x20 => some .stream
  | 0x21 => some .stream
  | 0x28 => if wMin w < 6 then some .message else none
  | 0x32 => if wMin w = 0 then none else some .vector
  | _ => none

/-- Is the word legal under the effective feature word (R116, R117)? -/
def legal (feat : Nat) (w : Word) : Bool :=
  match wMaj w with
  | 0x10 => matrixLegal feat w
  | 0x18 => vectorLegal feat w
  | 0x19 => vectorLegal feat w
  | 0x1A => vectorLegal feat w
  | 0x20 => streamLegal feat w
  | 0x21 => streamLegal feat w
  | 0x28 => messageLegal w
  | _ => scalarLegal w

end Sys2Proof.Machine
end

