-- ==== Sys2Proof/Machine/SecDed.lean ====
section
/-!
DEFINITION. The SEC-DED (39,32) code of SRAM words and of the words of the B network's datapath (spec 01 R27; spec 08 R295, R296): its
columns, its check bits, the codeword of a word, and what decoding one gives.
-/
namespace Sys2Proof.Machine

/-- The column patterns P_0 to P_31 of R295. -/
def columns : List Nat :=
  [0x07, 0x0B, 0x0D, 0x0E, 0x13, 0x15, 0x16, 0x19,
   0x1A, 0x1C, 0x23, 0x25, 0x26, 0x29, 0x2A, 0x2C,
   0x31, 0x32, 0x34, 0x38, 0x43, 0x45, 0x46, 0x49,
   0x4A, 0x4C, 0x51, 0x52, 0x54, 0x58, 0x61, 0x62]

/-- The check bits of a word: h_j is bit j, the XOR of every data bit k whose P_k has bit j set (R295). -/
def checkBits (d : BitVec 32) : Nat :=
  columns.zipIdx.foldl (fun h p => if d.getLsbD p.2 then h ^^^ p.1 else h) 0

/-- The codeword of a word: data at bits 31 to 0, check bits at bits 38 to 32 (R295). -/
def encodeWord (d : BitVec 32) : BitVec 39 := BitVec.ofNat 39 (checkBits d * 2 ^ 32 + d.toNat)

/-- The syndrome of a codeword: the recomputed check bits XOR the stored ones (R296). -/
def wordSyndrome (w : BitVec 39) : Nat := checkBits (w.setWidth 32) ^^^ w.toNat / 2 ^ 32

/-- What decoding a codeword finds (R296): nothing, one bit to correct, or an error that it cannot correct. -/
inductive WordRead where
  | clean
  | corrected (bit : Nat)
  | uncorrectable
deriving DecidableEq, Repr

/-- The decision of R296. -/
def decodeWord (w : BitVec 39) : WordRead :=
  let s := wordSyndrome w
  if s = 0 then .clean
  else match columns.zipIdx.find? fun p => p.1 == s with
    | some p => .corrected p.2
    | none => match (List.range 7).find? fun j => 2 ^ j == s with
      | some j => .corrected (32 + j)
      | none => .uncorrectable

/-- The data of a codeword after the correction of R296. -/
def wordData (w : BitVec 39) : BitVec 32 :=
  match decodeWord w with
  | .corrected k => (w ^^^ BitVec.ofNat 39 (2 ^ k)).setWidth 32
  | _ => w.setWidth 32

end Sys2Proof.Machine
end

