-- ==== Sys2Proof/Machine/ShadowOps.lean ====
section
/-!
DEFINITION. The shadow map and the watch over writes to its ranges (spec 14 R459, R464, R465, R467).
-/
namespace Sys2Proof.Machine

/-- The length of a shadow block. -/
def shBlock : Nat := 65536

/-- The ranges of one kind, in table order. -/
def shRanges (s : State) (log : Bool) : List ShadowRange := s.twin.ranges.filter fun r => r.log == log

/-- I or Lg: all blocks of a kind. -/
def shCount (s : State) (log : Bool) : Nat := (shRanges s log).foldl (fun a r => a + r.blocks) 0

/-- The number of the block of a kind that holds an address. -/
def shIndex (s : State) (log : Bool) (a : Nat) : Option Nat :=
  let r := (shRanges s log).foldl (fun (acc : Nat × Option Nat) r =>
    (acc.1 + r.blocks,
     if r.base ≤ a ∧ a < r.base + r.blocks * shBlock then some (acc.1 + (a - r.base) / shBlock) else acc.2)) (0, none)
  r.2

/-- The address of block i of a kind. -/
def shAddr (s : State) (log : Bool) (i : Nat) : Nat :=
  ((shRanges s log).foldl (fun (acc : Nat × Nat) r =>
    (acc.1 + r.blocks, if acc.1 ≤ i ∧ i < acc.1 + r.blocks then r.base + (i - acc.1) * shBlock else acc.2)) (0, 0)).2

/-- Shadowing runs as a sender: ACTIVE, or ACTIVE while it also sends a restore. -/
def shActive (s : State) : Bool := getF s fTWN_STATUS_STATE == 1 || getF s fTWN_STATUS_STATE == 2

/-- The number that orders items of one kind. -/
def shKey : ShadowItem → Nat
  | .image i => i
  | .log _ j => j
  | .header n _ => n
  | .record n => n

/-- Insert an item in ascending order before those that stand at the back. -/
def shInsert (x : ShadowOwed) : List ShadowOwed → List ShadowOwed
  | [] => [x]
  | y :: r => if y.back || decide (shKey x.item < shKey y.item) then x :: y :: r else y :: shInsert x r

/-- An item is owed: a new one takes its place in ascending order; one already listed, or among the `sent` ones of its epoch or step, goes to the
back, to be sent again (R464). -/
def shMark (sent : List ShadowItem) (l : List ShadowOwed) (it : ShadowItem) : List ShadowOwed :=
  match l.find? fun x => x.item == it with
  | some x => l.filter (fun y => y.item != it) ++ [{ x with owed := true, back := true }]
  | none => if sent.contains it then l ++ [⟨it, true, 0, true, true⟩] else shInsert ⟨it, true, 0, false, false⟩ l

/-- The block of an address is dirty: a LOG block belongs to the open step; an IMAGE block to the epoch after the last agreed
step, unless the in-fabric path wrote it before the agreement of its step (R465). -/
def shTouch (s : State) (infab : Bool) (a : Nat) : State :=
  match shIndex s true a, shIndex s false a with
  | some j, _ => { s with twin := { s.twin with log := shMark s.twin.sent s.twin.log (.log (getF s fUPD_STEP_OPEN) j) } }
  | none, some i =>
    if infab && decide (getF s fTWN_STEPS_AGREED ≤ getF s fUPD_STEP_COMMITTED) then
      { s with twin := { s.twin with held := if s.twin.held.contains i then s.twin.held else s.twin.held ++ [i] } }
    else { s with twin := { s.twin with image := shMark s.twin.sent s.twin.image (.image i) } }
  | none, none => s

/-- The shadow engine sees a write of n bytes (R464). -/
def shWatch (s : State) (infab : Bool) (a n : Nat) : State :=
  if n = 0 ∨ !shActive s then s
  else (List.range ((a + n - 1) / shBlock + 1 - a / shBlock)).foldl
    (fun s k => shTouch s infab ((a / shBlock + k) * shBlock)) s

/-- The gate of R471 for update work of a step: closed while EN is 1 and the agreement of the step has not closed. -/
def gateShut (s : State) (step : Nat) : Bool := bitF s fTWN_CTL_EN && decide (getF s fTWN_STEPS_AGREED < step)

/-- The module has resolved a step, or changed its resolution (R467): the header of its log slot is owed. -/
def shResolved (s : State) (step : Nat) (nf : Bool) : State :=
  if !shActive s then s
  else
    let keep := s.twin.extra.filter fun x => match x.item with | .header n _ => n != step | _ => true
    { s with twin := { s.twin with extra := shMark [] keep (.header step nf) } }

/-- COMMIT copies the step record, with the numbers of its units that are bad, into the shadow engine (R466). -/
def shCommitted (s : State) (step : Nat) (rec0 : List Byte) (bad : List Nat) : State :=
  if !shActive s then s
  else
    let keep := s.twin.extra.filter fun x => match x.item with | .record _ => false | _ => true
    { s with twin := { s.twin with record := (step, rec0), recBad := bad, extra := shMark [] keep (.record step) } }

/-- SETSTEP takes the module back to a step (R480): what was agreed on and had landed after it is to be again, and the arrivals for it are
forgotten (DESIGN CHOICE, assumption log 92). -/
def shRewind (s : State) (c : Nat) : State :=
  if getF s fTWN_STEPS_AGREED ≤ c then s
  else
    let s := setFs s [(fTWN_STEPS_AGREED, c), (fTWN_STEPS_LANDED, min (getF s fTWN_STEPS_LANDED) c)]
    { s with twin := { s.twin with agrees := s.twin.agrees.filter fun a => decide (a.step ≤ c) } }

end Sys2Proof.Machine
end

