-- ==== Sys2Proof/Machine/MemOps.lean ====
section
/-!
DEFINITION. Device memory (spec 01 R37, R38; spec 08): the address map, the interleave modes, the symbol code, reads and
writes of access units with their error handling, and the snoop of the stream buffers (spec 07 R253).
-/
namespace Sys2Proof.Machine

/-! ### The address map and the interleave -/

/-- Is the device address mapped (R37)? -/
def mapped (a : Nat) : Bool := decide (a < 0x9000000000) || (decide (0x10000000000 ≤ a) && decide (a < 0x20000000000))

/-- Is the whole range of n bytes mapped? A range that is mapped at both ends and does not bridge the hole. -/
def mappedRange (a n : Nat) : Bool :=
  n == 0 || (decide (a + n ≤ 0x9000000000)) || (decide (0x10000000000 ≤ a) && decide (a + n ≤ 0x20000000000))

/-- Is the address in LPDDR? -/
def isLpddr (a : Nat) : Bool := decide (0x10000000000 ≤ a)

/-- The quad register index of an address: 0 to 17 stacked, 18 to 33 LPDDR (R277, MEM_QUAD). -/
def quadOf (a : Nat) : Nat := if isLpddr a then 18 + (a - 0x10000000000) / 0x1000000000 else a / 0x800000000

/-- Where a granule lies: the stack or package (its controller), the pseudo-channel or channel, the bank, and its position among the
quad's granules in that bank. -/
structure Place where
  ctl : Nat
  chan : Nat
  bank : Nat
  pos : Nat
deriving DecidableEq, Repr

/-- The interleave of R278 under a quad mode; the position is the remaining high bits of g. Controllers 0 to 7 are the stacks, 8 to 23 the LPDDR packages. -/
def placeOf (mode a : Nat) : Place :=
  if isLpddr a then
    let o := (a - 0x10000000000) % 0x1000000000
    let g := o / 256
    match mode with
    | 1 =>
      let d := o / 0x400000000
      let g := g % 2 ^ 26
      let c := 16 * d + (bits g 3 0 ^^^ bits g 25 22)
      ⟨8 + c / 4, c % 4, bits g 7 4 ^^^ bits g 21 18, bits g 25 8⟩
    | 2 =>
      let p := o / 0x100000000
      let g := g % 2 ^ 24
      ⟨8 + p, bits g 1 0 ^^^ bits g 23 22, bits g 5 2 ^^^ bits g 21 18, bits g 23 6⟩
    | _ =>
      let c := bits g 5 0 ^^^ bits g 27 22
      ⟨8 + c / 4, c % 4, bits g 9 6 ^^^ bits g 21 18, bits g 27 10⟩
  else
    let o := a % 0x800000000
    let g := o / 256
    match mode with
    | 1 =>
      let d := o / 0x200000000
      let g := g % 2 ^ 25
      ⟨2 * d + (bits g 0 0 ^^^ bits g 24 24), bits g 6 1 ^^^ bits g 23 18, bits g 10 7 ^^^ bits g 17 14, bits g 24 11⟩
    | 2 =>
      let st := o / 0x100000000
      let g := g % 2 ^ 24
      ⟨st, bits g 5 0 ^^^ bits g 23 18, bits g 9 6 ^^^ bits g 17 14, bits g 23 10⟩
    | _ =>
      ⟨bits g 2 0 ^^^ bits g 26 24, bits g 8 3 ^^^ bits g 23 18, bits g 12 9 ^^^ bits g 17 14 ^^^ bits g 13 13, bits g 26 13⟩

/-- The controller that serves an address, under its quad's mode in force. -/
def controllerOf (s : State) (a : Nat) : Nat := (placeOf (getF s (fMEM_QUAD_MODE (quadOf a))) a).ctl

/-- The stack or package number that log records name (R541). -/
def memInstance (s : State) (a : Nat) : Nat :=
  let c := controllerOf s a
  if c < 8 then c else c - 8

/-! ### The symbol code (R290, R291, R293) -/

/-- Multiply by α in GF(2^8) with the polynomial 0x11D. -/
def gfX (a : Nat) : Nat := if a < 128 then 2 * a else (2 * a) ^^^ 0x11D

/-- Product in GF(2^8). -/
def gfMul (a b : Nat) : Nat :=
  ((List.range 8).foldl (fun (acc : Nat × Nat) i => ((if bit b i then acc.1 ^^^ acc.2 else acc.1), gfX acc.2)) (0, a)).1

/-- α^i. -/
def gfPow (i : Nat) : Nat := (List.range i).foldl (fun a _ => gfX a) 1

/-- S_j of the error pattern (R291): a correct codeword contributes 0. -/
def syndrome (err : SMap Nat) (j : Nat) : Nat :=
  err.foldl (fun a p => a ^^^ gfMul p.2 (gfPow (p.1 * j % 255))) 0

/-- The poison pattern (R293). -/
def poisonErr : SMap Nat := [(0, 0xFF), (1, 0xFF)]

/-- The inverse of the code's check matrix: what the check symbols c_0, c_1 and c_2 add to S_0, S_1 and S_2 is a product with the powers of 1, α and
α^2, and these rows take it back. -/
def checkRows : List (List Nat) := [[0xC4, 0x53, 0x96], [0x53, 0x8E, 0xDD], [0x96, 0xDD, 0x4B]]

/-- The pattern that the poison pattern stored over data with the error `e` makes with the codeword of the data without it: the data symbols of `e`,
and check symbols that give the syndromes of the poison pattern (R290, R293). -/
def poisonOver (e : SMap Nat) : SMap Nat :=
  let d := e.filter fun p => decide (3 ≤ p.1)
  let c (i : Nat) : Nat := (List.range 3).foldl (fun a j =>
    a ^^^ gfMul ((checkRows.getD i []).getD j 0) (syndrome poisonErr j ^^^ syndrome d j)) 0
  ((List.range 3).filter fun i => c i != 0).map (fun i => (i, c i)) ++ d

/-- The decision of R291, with the symbol and the XOR of a correction. -/
def decodeUnit (err : SMap Nat) : UnitOutcome × Option (Nat × Nat) :=
  let s0 := syndrome err 0
  let s1 := syndrome err 1
  let s2 := syndrome err 2
  if s0 = 0 ∧ s1 = 0 ∧ s2 = 0 then (.clean, none)
  else
    let hit := (List.range 67).find? fun i => gfMul s0 (gfPow i) == s1
    if s0 ≠ 0 ∧ s1 ≠ 0 ∧ s2 ≠ 0 ∧ gfMul s1 s1 = gfMul s0 s2 ∧ hit.isSome then (.corrected, hit.map fun i => (i, s0))
    else if s0 = syndrome poisonErr 0 ∧ s1 = syndrome poisonErr 1 ∧ s2 = syndrome poisonErr 2 then (.poisoned, none)
    else (.uncorrectable, none)

/-- XOR of two error patterns. -/
def errXor (a b : SMap Nat) : SMap Nat :=
  b.foldl (fun m p => mset (fun _ => 0) m p.1 (mget (fun _ => 0) m p.1 ^^^ p.2 % 256)) a

/-! ### Bytes and units -/

/-- What an unlisted byte of an SRAM or of device memory reads as: zero, which the start-up rows write (R537; assumption log
4). -/
def memDefault (_ : Nat) : Byte := 0

/-- What an unlisted byte of device memory reads as: zero, or a free value in a quad whose mode was changed (R281). -/
def devDefault (undef : SMap Nat) (a : Nat) : Byte :=
  match mget (fun _ => 0) undef (quadOf a) with
  | 0 => 0
  | g + 1 => Config.freeByte (g + a % 2 ^ 36)

/-- The byte that a correct read of the address returns. -/
def memByte (s : State) (a : Nat) : Byte := mget (devDefault s.mem.undef) s.mem.bytes a

/-- n bytes from an address, as correct reads return them. -/
def memBytes (s : State) (a n : Nat) : List Byte := (List.range n).map fun i => memByte s (a + i)

/-- The canonical form of memory. -/
def Memory.wf (m : Mem) : Bool := mwf (devDefault m.undef) m.bytes

/-- Enter bytes from an address upward in a table with default `d`. -/
def putBytesD (d : Nat → Byte) (m : List Host.Cell) (a : Nat) : List Byte → List Host.Cell
  | [] => m
  | b :: r => putBytesD d (mset d m a b) (a + 1) r

/-- Enter bytes in an SRAM. -/
def putBytes (m : List Host.Cell) (a : Nat) (b : List Byte) : List Host.Cell := putBytesD memDefault m a b

/-- Enter bytes in device memory. -/
def putMem (s : State) (a : Nat) (b : List Byte) : State :=
  { s with mem := { s.mem with bytes := putBytesD (devDefault s.mem.undef) s.mem.bytes a b } }

/-- The stored error pattern of a unit. -/
def unitErr (s : State) (u : Nat) : SMap Nat := mget (fun _ => []) s.mem.err u

/-- Replace the stored error pattern of a unit. -/
def setErr (s : State) (u : Nat) (e : SMap Nat) : State :=
  { s with mem := { s.mem with err := mset (fun _ => []) s.mem.err u e } }

/-- The data bytes of a unit with an error pattern over them. -/
def applyErr (d : List Byte) (e : SMap Nat) : List Byte :=
  (List.range 64).map fun i => d.getD i 0 ^^^ BitVec.ofNat 8 (mget (fun _ => 0) e (i + 3))

/-- The error pattern that unit i of a line is held with. -/
def EddyLine.held (l : EddyLine) (i : Nat) : SMap Nat := mget (fun _ => []) l.bad i

/-- Unit i of a line is held with an error pattern from now on. -/
def EddyLine.hold (l : EddyLine) (i : Nat) (e : SMap Nat) : EddyLine := { l with bad := mset (fun _ => []) l.bad i e }

/-- The Eddy line that holds an address, if a slice holds it. -/
def eddyLine (s : State) (a : Nat) : Option EddyLine := s.mem.eddy.find? fun l => l.line == a / 256

/-- Remember a correction in the controller's list of its last 64 corrected units (R292). `written` marks a correction
whose corrective write has been done. -/
def noteCorrection (s : State) (u : Nat) (written : Bool) : State :=
  let c := controllerOf s (u * 64)
  let l := mget (fun _ => []) s.mem.recent c
  let put (s : State) (l : List (Nat × Bool)) : State :=
    { s with mem := { s.mem with recent := mset (fun _ => []) s.mem.recent c l } }
  match l.find? fun p => p.1 == u with
  | some (_, true) =>
    let s := put s (l.filter fun p => p.1 != u)
    let s := raise s fMEM_ERR_STATUS_HARD_CE
    postEvent s 0x117 1 6 (memInstance s (u * 64)) (u * 64) 0
  | some (_, false) => put s (l.map fun p => if p.1 = u then (u, written) else p)
  | none => put s ((l ++ [(u, written)]).drop (l.length + 1 - 64))

/-- The effects of a read that corrected a unit (R292): count, status; the caller queues or replaces the write. -/
def countCorrected (s : State) : State := raise (satF s fMEM_CE_COUNT_DRAM 1) fMEM_ERR_STATUS_CE

/-- The effects of a read that found a unit uncorrectable or poisoned (R293, R299). -/
def countBad (s : State) (u : Nat) (poison scrub : Bool) : State :=
  let s := satF s fMEM_UE_COUNT_DRAM 1
  let s := if bitF s fMEM_ERR_ADDR_VALID then s else
    setFs s [(fMEM_ERR_ADDR_VALID, 1), (fMEM_ERR_ADDR_POISON, poison.toNat), (fMEM_ERR_ADDR_SCRUB, scrub.toNat),
      (fMEM_ERR_ADDR_ADDR, u * 64)]
  let s := raise s (if poison then fMEM_ERR_STATUS_POISON_READ else fMEM_ERR_STATUS_UE)
  postEvent s 0x09 2 6 (memInstance s (u * 64)) (u * 64) scrub.toNat

/-- The events of an uncorrectable SRAM word (R297): count, status, record. The numbering of the SRAM blocks is not stated, so
INSTANCE is a free value (assumption log 13). -/
def sramUe (s : State) : State :=
  let r := freshWord (satF s fMEM_UE_COUNT_SRAM 1)
  postEvent (raise r.2 fMEM_ERR_STATUS_SRAM_UE) 0x09 2 6 (r.1.toNat % 65536) 0 2

/-- A correction of a SEC-DED word (R297). -/
def sramCe (s : State) : State := satF s fMEM_CE_COUNT_SRAM 1

/-- The oldest change of quad q takes effect (R281): its Eddy lines are written back and invalidated, the new mode applies, and
the contents of the quad are undefined: free values. -/
def quadApply (s : State) (q : Nat) : State :=
  match firstIdx (fun c : Nat × Nat × Nat => c.1 == q) s.mem.quadChange with
  | none => s
  | some i => match s.mem.quadChange[i]? with
    | none => s
    | some c =>
      let inQ (a : Nat) : Bool := quadOf a == q
      let m : Mem := { s.mem with
        quadChange := removeAt s.mem.quadChange i
        eddy := s.mem.eddy.filter fun l => !inQ (l.line * 256)
        bytes := mclear inQ s.mem.bytes
        err := mclear (fun u => inQ (u * 64)) s.mem.err
        corrective := s.mem.corrective.filter fun u => !inQ (u * 64)
        undef := mset (fun _ => 0) s.mem.undef q (s.free + 1) }
      setFs { s with mem := m, free := s.free + 2 ^ 36 } [(fMEM_QUAD_MODE q, c.2.1), (fMEM_QUAD_EDDY q, c.2.2)]

/-- A word of the data of address a crosses the datapath of the B network with the error `e` in its codeword (R297): corrected and
counted at the receiving hop, or the data is poisoned, with DP_UE and a log record. The number that the record gives as INSTANCE is free
(assumption log 86). The answer says whether the data arrives poisoned. -/
def crossNetwork (s : State) (a : Nat) (e : BitVec 39) : Bool × State :=
  match decodeWord e with
  | .clean => (false, s)
  | .corrected _ => (false, sramCe s)
  | .uncorrectable =>
    let r := freshWord (satF s fMEM_UE_COUNT_SRAM 1)
    (true, postEvent (raise r.2 fMEM_ERR_STATUS_DP_UE) 0x09 2 6 (r.1.toNat % 65536) a 3)

/-- The data of the range of n bytes at a crosses the B network with the errors that wait for its units. The units whose data arrives
poisoned. -/
def crossRange (s : State) (a n : Nat) : List Nat × State :=
  let ps := s.mem.net.filter fun p => rangesMeet (p.1 * 64) 64 a n
  if ps.isEmpty then ([], s)
  else ps.foldl (fun x p =>
      let r := crossNetwork x.2 (p.1 * 64) p.2
      (if r.1 then x.1 ++ [p.1] else x.1, r.2))
    ([], { s with mem := { s.mem with net := s.mem.net.filter fun p => !rangesMeet (p.1 * 64) 64 a n } })

/-- No change of the quad that holds access unit u is under way. -/
def quadSteady (s : State) (u : Nat) : Bool := !s.mem.quadChange.any fun c => c.1 == quadOf (u * 64)

/-- A request for access unit u that arrives during a change of its quad waits until the change is done (R281): the change ends, and then
the request is served. -/
def afterChange (s : State) (u : Nat) : State :=
  if quadSteady s u then s
  else (s.mem.quadChange.filter fun c => c.1 == quadOf (u * 64)).foldl (fun s _ => quadApply s (quadOf (u * 64))) s

/-- What reading one access unit returns. -/
structure UnitRead where
  data : List Byte
  outcome : UnitOutcome
  s : State
deriving DecidableEq, Repr

/-- A controller's read of access unit u with the decision of R291 and the effects of R292 and R293. A unit whose line an
Eddy slice holds is answered by the slice (R283), which reports the condition that the unit was fetched or written with, at every read (R293). -/
def readUnit (s : State) (u : Nat) (scrub : Bool) : UnitRead :=
  let s := afterChange s u
  let d := memBytes s (u * 64) 64
  match (if scrub then none else eddyLine s (u * 64)) with
  | some l =>
    let e := l.held (u % 4)
    if e = [] then ⟨d, .clean, s⟩
    else
      let o := (decodeUnit e).1
      ⟨applyErr d e, o, countBad s u (o == .poisoned) scrub⟩
  | none =>
    let e := unitErr s u
    match decodeUnit e with
    | (.clean, _) => ⟨applyErr d e, .clean, s⟩
    | (.corrected, c) =>
      let e' := match c with | some (i, x) => errXor e [(i, x)] | none => e
      let s := noteCorrection (countCorrected s) u false
      let s := if s.mem.corrective.contains u then s
        else { s with mem := { s.mem with corrective := s.mem.corrective ++ [u] } }
      ⟨applyErr d e', .corrected, s⟩
    | (o, _) => ⟨applyErr d e, o, countBad s u (o == .poisoned) scrub⟩

/-- What reading a range returns: the bytes, and the first unit found uncorrectable or poisoned. -/
structure MemRead where
  data : List Byte
  bad : Option Nat
  s : State
deriving DecidableEq, Repr

/-- The bytes of a range that lie in one unit's data. -/
def cutUnit (d : List Byte) (u a n : Nat) : List Byte :=
  (d.zipIdx.filter fun p => decide (a ≤ u * 64 + p.2) && decide (u * 64 + p.2 < a + n)).map (·.1)

/-- Read k units from unit u on, for the range of n bytes at a. -/
def readUnits : Nat → Nat → Nat → Nat → State → List (List Byte) → Option Nat → MemRead
  | 0, _, _, _, s, acc, bad => ⟨acc.reverse.flatten, bad, s⟩
  | k + 1, u, a, n, s, acc, bad =>
    let x := readUnit s u false
    let isBad := x.outcome == .poisoned || x.outcome == .uncorrectable
    readUnits k (u + 1) a n x.s (cutUnit x.data u a n :: acc)
      (match bad with | some b => some b | none => if isBad then some (u * 64) else none)

/-- Read n bytes from device memory through the controllers and over the B network. -/
def memRead (s : State) (a n : Nat) : MemRead :=
  if n = 0 then ⟨[], none, s⟩
  else
    let r := readUnits ((a + n - 1) / 64 + 1 - a / 64) (a / 64) a n s [] none
    let w := crossRange r.s a n
    ⟨r.data, (match r.bad with | some b => some b | none => w.1.head?.map (64 * ·)), w.2⟩

/-- Read n bytes from device memory, with every unit found uncorrectable or poisoned. -/
def memReadAll (s : State) (a n : Nat) : List Byte × List Nat × State :=
  let us := if n = 0 then [] else (List.range ((a + n - 1) / 64 + 1 - a / 64)).map (a / 64 + ·)
  let r := us.foldl (fun (x : List (List Byte) × List Nat × State) u =>
    let q := readUnit x.2.2 u false
    let bad := q.outcome == .poisoned || q.outcome == .uncorrectable
    (cutUnit q.data u a n :: x.1, (if bad then u :: x.2.1 else x.2.1), q.s)) ([], [], s)
  let w := crossRange r.2.2 a n
  (r.1.reverse.flatten, r.2.1 ++ w.1, w.2)

/-! ### Writes -/

/-- Entries of one round of a stream's pattern. -/
def PfStream.perRound (p : PfStream) : Nat := p.rlen * p.rows

/-- The address of fill n of a stream (R248, R251); negative where ADV leads below address 0. -/
def PfStream.fillAddr (p : PfStream) (n : Nat) : Int :=
  let r := n / p.perRound
  let i := n % p.perRound
  let r := if p.rwrap = 0 then r else r % p.rwrap
  let stride := if p.rstride = 0 then p.rlen else p.rstride
  (p.base : Int) + p.adv * r * 4096 + ((i / p.rlen * stride + i % p.rlen) * 4096 : Nat)

/-- The entries whose data a version read accepts together (R258): those of a round, or where a round is larger than DEPTH those of one
part of it that the stream can hold (DESIGN CHOICE, assumption log 85). The first fill of fill n's part, and the number of its fills. -/
def PfStream.batch (p : PfStream) (n : Nat) : Nat × Nat :=
  let k := n % p.perRound / p.depth * p.depth
  (n / p.perRound * p.perRound + k, min p.depth (p.perRound - k))

/-- Issue fills in pattern order into free entries (R249, R251). -/
def PfStream.refill : Nat → PfStream → PfStream
  | 0, p => p
  | f + 1, p =>
    if !p.active || p.perRound == 0 || decide (p.depth ≤ p.entries.length) || (!p.persist && decide (p.perRound ≤ p.issued)) then p
    else
      let a := p.fillAddr p.issued
      let addr := if a < 0 then 2 ^ 52 else a.toNat
      PfStream.refill f { p with
        issued := p.issued + 1, entries := p.entries ++ [⟨p.issued, addr, true, false, [], RRead.start p.vregion, 0, []⟩] }

/-- Entries leave a stream: they count as freed, a stream without PERSIST stops after its last one, and free entries fill
again (R251). -/
def PfStream.remove (p : PfStream) (gone : PfEntry → Bool) : PfStream :=
  let n := (p.entries.filter gone).length
  if n = 0 then p else
  let fr := p.freed + n
  let rounds := (p.rounds + fr / p.perRound - p.freed / p.perRound) % 2 ^ 32
  if !p.persist && decide (p.perRound ≤ fr) then { PfStream.off with rounds := rounds }
  else PfStream.refill 32 { p with freed := fr, rounds := rounds, entries := p.entries.filter fun e => !gone e }

/-- Every write that reaches device memory is checked against the local stream-buffer entries (R253). -/
def snoopTile (a n : Nat) (x : Tile) : Tile × Nat :=
  let hit (e : PfEntry) : Bool := !e.filling && rangesMeet e.addr 4096 a n
  let hits := x.str.pf.foldl (fun c p => if p.2.remote then c else c + (p.2.entries.filter hit).length) 0
  let mark (e : PfEntry) : PfEntry := if e.filling && rangesMeet e.addr 4096 a n then { e with stale := true } else e
  let pf := x.str.pf.map fun p =>
    if p.2.remote then p else (p.1, PfStream.remove { p.2 with entries := p.2.entries.map mark } hit)
  ({ x with str := { x.str with pf := pf.filter fun p => p.2 != PfStream.off } }, hits)

/-- Snoop of every tile's stream buffer. -/
def snoop (s : State) (a n : Nat) : State :=
  s.tiles.foldl (fun s p =>
    if p.2.str.pf.isEmpty then s
    else
      let r := snoopTile a n (s.tile p.1)
      let s := s.setTile p.1 r.1
      if r.2 = 0 then s else addF s (fTILE_STR_STALL_COUNT p.1 12) r.2) s

/-- The write of bytes into one unit: whole units replace the codeword, a partial write into a unit in error follows
R292 and R294, in memory as in a line of the Eddy cache. -/
def writeUnit (s : State) (a : Nat) (b : List Byte) : State :=
  let u := a / 64
  let full := b.length == 64
  let s := afterChange s u
  let s := { s with mem := { s.mem with corrective := s.mem.corrective.filter (· != u) } }
  match eddyLine s a with
  | some l =>
    let e := l.held (u % 4)
    let touch (l : EddyLine) : EddyLine :=
      if l.line = a / 256 then { (if e = [] then l else l.hold (u % 4) (if full then [] else poisonErr)) with dirty := true } else l
    let s := putMem (if e = [] then s else putMem s (u * 64) (applyErr (memBytes s (u * 64) 64) e)) a b
    { s with mem := { s.mem with eddy := s.mem.eddy.map touch } }
  | none =>
    let e := unitErr s u
    let s :=
      if full then setErr s u []
      else match decodeUnit e with
        | (.clean, _) => s
        | (.corrected, c) =>
          let e' := match c with | some (i, x) => errXor e [(i, x)] | none => e
          let s := noteCorrection (countCorrected s) u true
          let s := putMem s (u * 64) (applyErr (memBytes s (u * 64) 64) e')
          setErr s u []
        | _ =>
          let s := putMem s (u * 64) (applyErr (memBytes s (u * 64) 64) e)
          setErr s u poisonErr
    putMem s a b

/-- Split a range at the unit boundaries: (address, bytes of the unit). The fuel bounds the units. -/
def splitUnits : Nat → Nat → List Byte → List (Nat × List Byte)
  | 0, _, _ => []
  | _, _, [] => []
  | f + 1, a, b =>
    let k := 64 - a % 64
    (a, b.take k) :: splitUnits f (a + k) (b.drop k)

/-- The poison pattern is stored over access unit u; what stood there keeps its bytes, with the error that it had (R293, R294). -/
def poisonUnit (s : State) (u : Nat) : State :=
  let s := afterChange s u
  let s := { s with mem := { s.mem with corrective := s.mem.corrective.filter (· != u) } }
  match eddyLine s (u * 64) with
  | some l =>
    let e := l.held (u % 4)
    let mark (l : EddyLine) : EddyLine := if l.line = u / 4 then { l.hold (u % 4) poisonErr with dirty := true } else l
    let s := if e.isEmpty then s else putMem s (u * 64) (applyErr (memBytes s (u * 64) 64) e)
    { s with mem := { s.mem with eddy := s.mem.eddy.map mark } }
  | none =>
    let e := unitErr s u
    setErr (if e.isEmpty then s else putMem s (u * 64) (applyErr (memBytes s (u * 64) 64) e)) u poisonErr

/-- Write bytes to device memory: visible at B (R94), after the snoop of R253 and under the watch of R464; `infab` marks
a write of the in-fabric path (R465). A unit whose data an error on the B network has poisoned is stored so (R294, R297). -/
def memWriteBy (infab : Bool) (s : State) (a : Nat) (b : List Byte) : State :=
  let w := crossRange (shWatch (snoop s a b.length) infab a b.length) a b.length
  w.1.foldl poisonUnit ((splitUnits (b.length + 1) a b).foldl (fun s p => writeUnit s p.1 p.2) w.2)

/-- Write bytes to device memory by any other agent. -/
def memWrite (s : State) (a : Nat) (b : List Byte) : State := memWriteBy false s a b

/-- Write zeros to n whole units from unit u on, none of which lies in a quad with undefined contents: what writeUnit does to each of
them, for all at once. -/
def zeroUnits (s : State) (u n : Nat) : State :=
  let has (k : Nat) : Bool := decide (u ≤ k) && decide (k < u + n)
  let touch (l : EddyLine) : EddyLine :=
    if (List.range 4).any fun i => has (4 * l.line + i) then { l with dirty := true, bad := l.bad.filter fun p => !has (4 * l.line + p.1) } else l
  { s with mem := { s.mem with
      bytes := mclear (fun a => has (a / 64)) s.mem.bytes
      err := mclear (fun k => has k && !(s.mem.eddy.any fun l => l.line == k / 4)) s.mem.err
      corrective := s.mem.corrective.filter fun k => !has k
      eddy := s.mem.eddy.map touch } }

/-- Write n zero bytes to device memory: memWrite of n zeros. -/
def memZero (s : State) (a n : Nat) : State :=
  let u := (a + 63) / 64
  let k := (a + n) / 64 - u
  if (a + n) / 64 ≤ u ∨ !s.mem.undef.isEmpty ∨ !s.mem.quadChange.isEmpty ∨ !s.mem.net.isEmpty then memWrite s a (List.replicate n 0)
  else
    let s := shWatch (snoop s a n) false a n
    let s := if a % 64 = 0 then s else writeUnit s a (List.replicate (64 - a % 64) 0)
    let s := zeroUnits s u k
    if (a + n) % 64 = 0 then s else writeUnit s ((u + k) * 64) (List.replicate ((a + n) % 64) 0)

/-- Store the poison pattern over the units of a range (R294: a write that carries poisoned data). -/
def memPoison (s : State) (a n : Nat) : State :=
  (List.range ((a + n + 63) / 64 - a / 64)).foldl (fun s i => poisonUnit s (a / 64 + i)) (shWatch (snoop s a n) false a n)

/-- A write of bytes of which those in some units are poisoned (R294). -/
def memWriteM (s : State) (a : Nat) (b : List Byte) (bad : List Nat) : State :=
  if bad.isEmpty then memWrite s a b
  else (splitUnits (b.length + 1) a b).foldl (fun s p =>
    let s := memWrite s p.1 p.2
    if bad.contains (p.1 / 64) then memPoison s p.1 p.2.length else s) s

/-- A write of bytes that may be poisoned (R294). -/
def memWriteP (s : State) (a : Nat) (b : List Byte) (poison : Bool) : State :=
  if poison then memPoison (memWrite s a b) a b.length else memWrite s a b

end Sys2Proof.Machine
end

