-- ==== Sys2Proof/Machine/Eddy.lean ====
section
/-!
DEFINITION. The Eddy cache (spec 08 R282 to R286): slices and sets, replacement, hits and allocation under the hints of R100, and reads
and writes of device memory by agents whose accesses carry a hint.
-/
namespace Sys2Proof.Machine

/-- The slice of an address (R282). -/
def eddySlice (a : Nat) : Nat :=
  bits a 12 8 ^^^ bits a 17 13 ^^^ bits a 22 18 ^^^ bits a 27 23 ^^^ bits a 32 28 ^^^ bits a 37 33 ^^^ bits a 42 38 ^^^
  bits a 47 43 ^^^ bits a 51 48

/-- The set of an address within its slice (R282). -/
def eddySet (a : Nat) : Nat := bits a 24 13 ^^^ bits a 36 25

/-- Do two lines share a set? -/
def sameSet (l m : Nat) : Bool := eddySlice (l * 256) == eddySlice (m * 256) && eddySet (l * 256) == eddySet (m * 256)

/-- A dirty line is written back: its units stored whole, with the poison pattern over those that it holds as uncorrectable or poisoned (R284,
R294). -/
def writeBackLine (s : State) (l : EddyLine) (allPoison : Bool) : State :=
  if !l.dirty && !allPoison then s
  else (List.range 4).foldl (fun s i =>
    let u := 4 * l.line + i
    let s := { s with mem := { s.mem with corrective := s.mem.corrective.filter (· != u) } }
    setErr s u (if allPoison || l.held i != [] then poisonOver (l.held i) else [])) s

/-- Remove a line from the cache. -/
def dropLine (s : State) (line : Nat) : State :=
  { s with mem := { s.mem with eddy := s.mem.eddy.filter fun l => l.line != line } }

/-- The least recently used of some lines. -/
def lruOf : List EddyLine → Option EddyLine
  | [] => none
  | a :: r => match lruOf r with
    | none => some a
    | some b => if a.used ≤ b.used then some a else some b

/-- A keep allocation or promotion beyond KEEP_WAYS demotes the least recently used other keep line of the set (R286). -/
def keepLimit (s : State) (line : Nat) : State :=
  let ks := s.mem.eddy.filter fun l => l.keep && sameSet l.line line
  if ks.length ≤ getF s fMEM_EDDY_CTL_KEEP_WAYS then s
  else match lruOf (if ks.length = 1 then ks else ks.filter fun l => l.line != line) with
    | none => s
    | some v =>
      let eddy := s.mem.eddy.map fun l => if l.line = v.line then { l with keep := false } else l
      satF { s with mem := { s.mem with eddy := eddy } } fMEM_EDDY_KEEP_OVER_COUNT 1

/-- Make room in the set of a line (R286): an invalid way, a victim-marked line, else the least recently used line that is not
keep. A keep line is never evicted, marked or not. -/
def makeRoom (s : State) (line : Nat) : State :=
  let ws := s.mem.eddy.filter fun l => sameSet l.line line
  if ws.length < 16 then s
  else
    let v := match ws.find? fun l => l.victim && !l.keep with
      | some v => some v
      | none => lruOf (ws.filter fun l => !l.keep)
    match v with
    | none => s
    | some v => dropLine (writeBackLine s v false) v.line

/-- Allocate a line. -/
def allocLine (s : State) (line : Nat) (keep dirty : Bool) (bad : SMap (SMap Nat)) : State :=
  let s := makeRoom s line
  let l : EddyLine := ⟨line, keep, false, dirty, bad, s.mem.eddyTick⟩
  keepLimit { s with mem := { s.mem with eddy := s.mem.eddy ++ [l], eddyTick := s.mem.eddyTick + 1 } } line

/-- A hit under a hint (R285). A promotion to keep takes a victim mark away. -/
def hitLine (s : State) (line hint : Nat) (write : Bool) : State :=
  let tick := s.mem.eddyTick
  let promoted := hint == 2 && s.mem.eddy.any fun l => l.line == line && !l.keep
  let f (l : EddyLine) : EddyLine :=
    if l.line ≠ line then l
    else match hint with
      | 0 => { l with used := tick }
      | 1 => l
      | 2 => { l with used := if write then l.used else tick, keep := true, victim := false }
      | _ => { l with victim := true, keep := l.keep && write }
  let s := { s with mem := { s.mem with eddy := s.mem.eddy.map f, eddyTick := tick + 1 } }
  if promoted then keepLimit s line else s

/-! ### Accesses under a hint (R284, R285) -/

/-- Hints 0 and 2 allocate on a miss (R285). -/
def allocates (hint : Nat) : Bool := hint % 2 == 0

/-- Does the quad of an address use the cache (R282)? -/
def usesEddy (s : State) (a : Nat) : Bool := bitF s (fMEM_QUAD_EDDY (quadOf a))

/-- Read the four units of a line from memory to allocate it: (unit of the line, bytes, the pattern that it is held with where it is bad). -/
def fetchLine (s : State) (line : Nat) : List (Nat × List Byte × SMap Nat) × State :=
  (List.range 4).foldl (fun x i =>
    let r := readUnit x.2 (4 * line + i) false
    (x.1 ++ [(i, r.data, if r.outcome == .poisoned || r.outcome == .uncorrectable then unitErr r.s (4 * line + i) else [])], r.s)) ([], s)

/-- A read of n bytes at a, within one line, under a hint. A miss that allocates takes its answer from the units that it fetches. -/
def lineRead (s : State) (a n hint : Nat) : MemRead :=
  let line := a / 256
  let hit := (eddyLine s a).isSome
  if usesEddy s a && !hit && allocates hint then
    let f := fetchLine s line
    let bad := f.1.filter fun u => u.2.2 != []
    let s := allocLine f.2 line (hint == 2) false (bad.map fun u => (u.1, u.2.2))
    let u := (f.1.map fun u => cutUnit u.2.1 (4 * line + u.1) a n).flatten
    let w := crossRange s a n
    ⟨u, (match bad.find? fun u => rangesMeet ((4 * line + u.1) * 64) 64 a n with
      | some u => some ((4 * line + u.1) * 64)
      | none => w.1.head?.map (64 * ·)), w.2⟩
  else
    let r := memRead s a n
    if usesEddy s a && hit then { r with s := hitLine r.s line hint false } else r

/-- A write of bytes at a, within one line, under a hint. Only a full line allocates (R284). -/
def lineWrite (infab : Bool) (s : State) (a : Nat) (b : List Byte) (hint : Nat) : State :=
  let line := a / 256
  let hit := (eddyLine s a).isSome
  if usesEddy s a && !hit && b.length == 256 && allocates hint then
    memWriteBy infab (allocLine s line (hint == 2) true []) a b
  else
    let s := memWriteBy infab s a b
    if usesEddy s a && hit then hitLine s line hint true else s

/-- The part of n bytes at a that lies in the line of a. -/
def inLine (a n : Nat) : Nat := min n (256 - a % 256)

/-- Read n bytes line by line; the fuel bounds the lines. -/
def readLines : Nat → State → Nat → Nat → Nat → List (List Byte) → Option Nat → MemRead
  | 0, s, _, _, _, acc, bad => ⟨acc.reverse.flatten, bad, s⟩
  | f + 1, s, a, n, hint, acc, bad =>
    if n = 0 then ⟨acc.reverse.flatten, bad, s⟩
    else
      let k := inLine a n
      let r := lineRead s a k hint
      readLines f r.s (a + k) (n - k) hint (r.data :: acc) (match bad with | some b => some b | none => r.bad)

/-- Write bytes line by line; the fuel bounds the lines. -/
def writeLines (infab : Bool) : Nat → State → Nat → List Byte → Nat → State
  | 0, s, _, _, _ => s
  | f + 1, s, a, b, hint =>
    if b.isEmpty then s
    else
      let k := inLine a b.length
      writeLines infab f (lineWrite infab s a (b.take k) hint) (a + k) (b.drop k) hint

/-- A request for n bytes at a waits for a change of its quad (R281); the answer also says whether it meets a quad that uses the cache. -/
def reachQuad (s : State) (a n : Nat) : Bool × State :=
  let s := afterChange (afterChange s (a / 64)) ((a + n - 1) / 64)
  (usesEddy s a || usesEddy s (a + n - 1), s)

/-- Read n bytes of device memory under a hint. -/
def memReadH (s : State) (a n hint : Nat) : MemRead :=
  let q := reachQuad s a n
  if n = 0 ∨ !q.1 then memRead s a n else readLines (n / 256 + 2) q.2 a n hint [] none

/-- Write bytes to device memory under a hint; `infab` as for memWriteBy. -/
def memWriteH (infab : Bool) (s : State) (a : Nat) (b : List Byte) (hint : Nat) : State :=
  let q := reachQuad s a b.length
  if b.isEmpty ∨ !q.1 then memWriteBy infab s a b else writeLines infab (b.length / 256 + 2) q.2 a b hint

end Sys2Proof.Machine
end

