-- ==== Sys2Proof/Machine/TileOps.lean ====
section
/-!
DEFINITION. What the units of a tile share (spec 03): the effective feature word, the tile clock, registers, tokens and
waits, traps and the abort, the code window, the queues and how an engine starts the instruction at a queue's head.
-/
namespace Sys2Proof.Machine

/-! ### Dies, features and clocks -/

/-- The die of a tile (R23, R25). -/
def dieOf (t : Nat) : Nat := t / 64

/-- The cluster of a tile, 0 to 15. -/
def clusterOf (t : Nat) : Nat := t / 16

/-- PKG_DIE_STATUS_d.STATE (R496). -/
def dieState (s : State) (d : Nat) : Nat := getF s (fPKG_DIE_STATUS_STATE d)

/-- Is the die UP? -/
def dieUp (s : State) (d : Nat) : Bool := dieState s d == 1

/-- The AND of the feature words of the dies that satisfy p, with bit 0; the word 1 where none does (R123). -/
def featAnd (s : State) (p : Nat → Bool) : Nat :=
  let l := (List.range 4).filter p
  if l.isEmpty then 1
  else setBit (l.foldl (fun a d => a &&& getF s (fPKG_DIE_FEATURE_FEATURES d)) (2 ^ 64 - 1)) 0

/-- The effective feature word (R123): 0 in limited mode, fixed by the last image load, before that from the UP dies. -/
def featureEff (s : State) : Nat :=
  if bitF s fPKG_STATUS_LIMITED then 0
  else match s.load.feat with
    | some w => w
    | none => featAnd s (dieUp s)

/-- The tile clock of a die in MHz: FCODE k is 600 + 50k (R514). -/
def tileMHz (s : State) (d : Nat) : Nat := 600 + 50 * getF s (fCLK_DIE_FCODE d)

/-- CYCLES: tile cycles since task start; they advance at the die PLL rate in every clock state (R81, R506). -/
def cyclesOf (s : State) (t : Nat) : Nat :=
  let x := s.tile t
  (x.cycBase + (s.now - x.cycSince) * tileMHz s (dieOf t)) / 1000

/-- The clock state of a tile's cluster: RUN (R506). -/
def clkRuns (s : State) (t : Nat) : Bool := getF s (fPKG_CLUSTER_STATE (clusterOf t)) == 0

/-! ### The state of a tile -/

/-- The state that TILE_STATUS reports (R80): FENCED while the die is not UP (R496). -/
def tileState (s : State) (t : Nat) : TaskState := if dieUp s (dieOf t) then (s.tile t).phase else .fenced

/-- A tile whose task runs: its die is UP and the state is RUNNING. -/
def isRunning (s : State) (t : Nat) : Bool := tileState s t == .running

/-- A running task in which no abort is under way: its engines may start and apply signals (R119). -/
def isLive (s : State) (t : Nat) : Bool := isRunning s t && !(s.tile t).aborting

/-- s register n; s0 reads 0 (R82). -/
def readS (x : Tile) (n : Nat) : Word := if n = 0 then 0 else mget (fun _ => 0) x.s n

/-- Write s register n; a write of s0 is discarded (R82). -/
def writeS (x : Tile) (n : Nat) (v : Word) : Tile := if n = 0 then x else { x with s := mset (fun _ => 0) x.s n v }

/-- s register n as captured at issue (R85). -/
def capS (e : QEntry) (n : Nat) : Nat := if n = 0 then 0 else (mget (fun _ => 0) e.sregs n).toNat

/-- Is the value of s register n still pending (R87)? -/
def isPending (x : Tile) (n : Nat) : Bool :=
  n != 0 && x.ops.any fun o => o.sd == n && (match o.kind with | .store _ _ => false | .signal _ _ => false | _ => true)

/-- The operand cache holds 2 MiB (R23). -/
def ocSize : Nat := 0x200000

/-- n bytes of the operand cache. -/
def ocBytes (x : Tile) (o n : Nat) : List Byte := (List.range n).map fun i => mget memDefault x.oc (o + i)

/-- Write bytes into the operand cache. A word that is written whole loses its error. -/
def ocPut (x : Tile) (o : Nat) (b : List Byte) : Tile :=
  { x with
    oc := putBytes x.oc o b
    ocBad := x.ocBad.filter fun w => !(decide (o ≤ 4 * w) && decide (4 * w + 4 ≤ o + b.length)) }

/-- The first word with an uncorrectable error among the words that ranges of the operand cache meet: its offset. -/
def ocUe (x : Tile) (l : List (Nat × Nat)) : Option Nat :=
  (x.ocBad.find? fun w => l.any fun p => rangesMeet (4 * w) 4 p.1 p.2).map (4 * ·)

/-- Does a range of the operand cache meet the code window of the task (R134)? -/
def inCode (x : Tile) (o n : Nat) : Bool := rangesMeet o n x.winBase x.winSize

/-! ### Traps (R116 to R119) -/

/-- Cause codes of R116, R171, R203, R238 and R272. -/
def cILLEGAL : Nat := 0x01
def cFETCH_FAULT : Nat := 0x02
def cMISALIGNED : Nat := 0x03
def cADDR_UNMAPPED : Nat := 0x04
def cDIV_ZERO : Nat := 0x05
def cTOKEN_OVERFLOW : Nat := 0x06
def cWAIT_TIMEOUT : Nat := 0x07
def cCODE_WRITE : Nat := 0x08
def cMEM_UNCORRECTABLE : Nat := 0x09
def cBAD_FORMAT : Nat := 0x0A
def cBAD_OPERAND : Nat := 0x0B
def cVERSION_SKEW : Nat := 0x0C
def cDIE_LOST : Nat := 0x0D
def cPROGRAM_ABORT : Nat := 0x0E
def cHOST_ABORT : Nat := 0x0F
def cBREAK : Nat := 0x10
def cOC_RANGE : Nat := 0x11
def cBOUND_LAPSED : Nat := 0x20
def cVEC_PERSONALITY : Nat := 0x28
def cFLASH_READ_FAIL : Nat := 0x40
def cLOWER_LATE : Nat := 0x41
def cREMOTE_FAIL : Nat := 0x42
def cREGION_TORN : Nat := 0x43
def cPH_UNCONFIGURED : Nat := 0x60
def cPH_KIND : Nat := 0x61
def cMSG_BAD : Nat := 0x62
def cDEFER_BAD : Nat := 0x80
def cDEFER_CONFLICT : Nat := 0x81
def cDEFER_UNBOUND : Nat := 0x82
def cOPT_BAD : Nat := 0x83

/-- A unit of a running task detects a trap (R118, R119): the first one is recorded and the abort begins; a later one
sets MULTI, and where a lower-numbered unit detects it at the instant of the first, it is the one recorded. The tile issues and
starts nothing from then on (the bounds of R119 admit this instant). -/
def trap (s : State) (t unit code pc info : Nat) : State :=
  let x := s.tile t
  let rec0 := [(fTILE_TRAP_CAUSE_UNIT t, unit), (fTILE_TRAP_CAUSE_CODE t, code), (fTILE_TRAP_PC_PC t, pc), (fTILE_TRAP_INFO_INFO t, info)]
  if !isRunning s t then s
  else if x.aborting then
    let s := setF s (fTILE_TRAP_CAUSE_MULTI t) 1
    if x.trapTime = s.now ∧ unit < getF s (fTILE_TRAP_CAUSE_UNIT t) then setFs s rec0 else s
  else
    let s := setFs s ((fTILE_TRAP_CAUSE_VALID t, 1) :: rec0)
    s.onTile t fun x => { x with aborting := true, trapTime := s.now, trapCycles := cyclesOf s t }

/-- What a unit does at the instant at which a trap of the tile was detected (R118): a trap that this unit detects itself then
counts. Otherwise `f` is what it does (assumption log 76). -/
def sameCycle (s : State) (t unit : Nat) (f : State → State) : State :=
  let x := s.tile t
  if isRunning s t && x.aborting && x.trapTime == s.now && getF s (fTILE_TRAP_CAUSE_UNIT t) != unit then
    let r := f (s.setTile t { x with aborting := false })
    if (r.tile t).aborting then
      trap s t unit (getF r (fTILE_TRAP_CAUSE_CODE t)) (getF r (fTILE_TRAP_PC_PC t)) (getF r (fTILE_TRAP_INFO_INFO t))
    else f s
  else f s

/-- A task consumes an uncorrectable SRAM word (R297, R106, R170, R204). -/
def trapSram (s : State) (t unit pc info : Nat) : State := trap (sramUe s) t unit cMEM_UNCORRECTABLE pc info

/-! ### Tokens (R88 to R92) -/

/-- The value of a token counter. -/
def tkCount (x : Tile) (n : Nat) : Nat := (mget (fun _ => []) x.tk n).foldl (fun a p => a + p.2) 0

/-- The increments of a counter stamped at or before an instant. -/
def tkBy (x : Tile) (n deadline : Nat) : Nat :=
  (mget (fun _ => []) x.tk n).foldl (fun a p => if p.1 ≤ deadline then a + p.2 else a) 0

/-- Take k from a counter's increments, oldest first. -/
def tkTake : List (Nat × Nat) → Nat → List (Nat × Nat)
  | [], _ => []
  | (st, a) :: r, k => if k < a then (st, a - k) :: r else tkTake r (k - a)

def setTk (x : Tile) (n : Nat) (l : List (Nat × Nat)) : Tile := { x with tk := mset (fun _ => []) x.tk n l }

/-- Subtract k from counter n. -/
def tkSub (x : Tile) (n k : Nat) : Tile := setTk x n (tkTake (mget (fun _ => []) x.tk n) k)

/-- Add k to counter n (R110, R91): above 65,535 the counter stays there and the tile aborts with TOKEN_OVERFLOW, recorded
for the unit and the instruction that signalled. -/
def tkAdd (s : State) (t n k unit pc : Nat) : State :=
  if !isLive s t || k == 0 then s else
  let c := tkCount (s.tile t) n
  let k' := min k (65535 - c)
  let s := if k' = 0 then s else
    s.onTile t fun x => setTk x n (mget (fun _ => []) x.tk n ++ [(s.now, k')])
  if k' < k then trap s t unit cTOKEN_OVERFLOW pc n else s

/-- TILE_WAIT_LIMIT of the tile. -/
def waitLimit (s : State) (t : Nat) : Nat := getF s (fTILE_WAIT_LIMIT_LIMIT t)

/-- The deadline of a wait that began at an instant; none while the limit is 0 (R92). -/
def waitDeadline (s : State) (t from_ : Nat) : Option Nat :=
  if waitLimit s t = 0 then none else some (from_ + waitLimit s t)

/-- Can a wait for k on counter n be served now (R92)? Past its deadline, only increments stamped by the deadline count. -/
def waitServed (s : State) (t n k : Nat) (from_ : Option Nat) : Bool :=
  match from_ with
  | none => decide (k ≤ tkCount (s.tile t) n)
  | some f => match waitDeadline s t f with
    | none => decide (k ≤ tkCount (s.tile t) n)
    | some d => decide (k ≤ tkBy (s.tile t) n d)

/-- The signal of a queued instruction, at its completion (R88, R89). -/
def applySignal (s : State) (t unit : Nat) (e : QEntry) : State :=
  if wSE e.word then tkAdd s t (wSTK e.word) 1 unit e.pc else s

/-! ### Queues (R85, R86) -/

def Engine.unit : Engine → Nat
  | .matrix => 1 | .vector => 2 | .stream => 3 | .message => 4

/-- Queue depths of R85. -/
def Engine.depth : Engine → Nat
  | .matrix => 16 | .vector => 64 | .stream => 32 | .message => 32

def getQueue (x : Tile) : Engine → List QEntry
  | .matrix => x.mat.queue
  | .vector => x.vec.queue
  | .stream => x.str.queue
  | .message => x.msg.queue

def setQueue (x : Tile) (e : Engine) (q : List QEntry) : Tile :=
  match e with
  | .matrix => { x with mat := { x.mat with queue := q } }
  | .vector => { x with vec := { x.vec with queue := q } }
  | .stream => { x with str := { x.str with queue := q } }
  | .message => { x with msg := { x.msg with queue := q } }

/-- Change the head of a queue. -/
def onHead (x : Tile) (e : Engine) (f : QEntry → QEntry) : Tile :=
  match getQueue x e with
  | [] => x
  | h :: r => setQueue x e (f h :: r)

/-- A unit that is filling must yield before its queue's head starts (R228): the array at level 1, the vector engine at
level 2, both at level 3. -/
def fillHolds (x : Tile) : Engine → Bool
  | .matrix => x.fill.level == 1 || x.fill.level == 3
  | .vector => x.fill.level == 2 || x.fill.level == 3
  | _ => false

/-- The vector engine is executing a replay buffer again, and goes on with its queue afterwards (R199). -/
def replaying (x : Tile) : Engine → Bool
  | .vector => !x.vec.redo.isEmpty
  | _ => false

/-- The head of an engine's queue, if the engine can consider it: a live task, a unit that is not filling or replaying, and a word of
the given opcodes. -/
def headOf (s : State) (t : Nat) (e : Engine) (maj min : Nat) : Option QEntry :=
  if !isLive s t || !clkRuns s t || fillHolds (s.tile t) e || replaying (s.tile t) e then none
  else match getQueue (s.tile t) e with
    | [] => none
    | h :: _ => if wMaj h.word = maj ∧ wMin h.word = min then some h else none

/-- What a wait on token n that a unit has begun takes of the count, where `used` of it is taken before: of the control core (none), or of
the head of an engine's queue; 0 where it cannot be served. -/
def waitTakes (s : State) (t n used : Nat) : Option Engine → Nat
  | none => match (s.tile t).coreWait with
    | some (f, tk, k) => if tk == n && waitServed s t n (used + k) (some f) then k else 0
    | none => 0
  | some e => match getQueue (s.tile t) e with
    | h :: _ => if wWE h.word && wWTK h.word == n && !h.tokenTaken && h.waitFrom.isSome && waitServed s t n (used + 1) h.waitFrom then 1 else 0
    | [] => 0

/-- The units in the order in which R90 serves waits on one counter. -/
def serveOrder : List (Option Engine) := [none, some .matrix, some .vector, some .stream, some .message]

/-- What the waits on token n of the units that R90 serves before unit `e` take of its count. -/
def takenBefore (s : State) (t n : Nat) (e : Option Engine) : Nat :=
  (serveOrder.takeWhile (· != e)).foldl (fun a u => a + waitTakes s t n a u) 0

/-- The token wait of a queue head can be served: the count suffices for it and for the waits before it in the order of R90. -/
def headServed (s : State) (t : Nat) (e : Engine) (h : QEntry) : Bool :=
  waitServed s t (wWTK h.word) (takenBefore s t (wWTK h.word) (some e) + 1) h.waitFrom

/-- The token wait of a queue head (R86, R88, R92): served, it takes one away; not served, the wait begins or goes on. -/
def takeToken (s : State) (t : Nat) (e : Engine) (h : QEntry) : Bool × State :=
  if !wWE h.word || h.tokenTaken then (true, s)
  else if headServed s t e h then
    (true, s.onTile t fun x => onHead (tkSub x (wWTK h.word) 1) e fun q => { q with tokenTaken := true, waitFrom := none })
  else (false, s.onTile t fun x => onHead x e fun q =>
    { q with waitFrom := match q.waitFrom with | none => some s.now | some f => some f })

/-- Remove the head of a queue. -/
def popHead (s : State) (t : Nat) (e : Engine) : State :=
  s.onTile t fun x => setQueue x e (getQueue x e).tail

/-- An engine starts the instruction at its queue's head (R86): its token wait is served, which takes the token (R90), and once `body` can
start (it answers none while the overlap rules of its chapter hold it) the instruction leaves the queue. -/
def engineStart (s : State) (t : Nat) (e : Engine) (maj min : Nat) (body : QEntry → State → Option State) : State :=
  sameCycle s t e.unit fun s =>
    match headOf s t e maj min with
    | none => s
    | some h =>
      match takeToken s t e h with
      | (false, s1) => s1
      | (true, s1) =>
        match body h (popHead s1 t e) with
        | some s2 => s2
        | none => s1

/-- The deadline of a head that is held (R92). -/
def headDeadline (s : State) (t : Nat) (h : QEntry) : Option Nat := h.held.bind fun x => waitDeadline s t x.1

/-! ### Issue (R84, R87) -/

/-- The code window holds the pc (R116: FETCH_FAULT). -/
def inWindow (x : Tile) (pc : Nat) : Bool := decide (x.winBase ≤ pc) && decide (pc < x.winBase + x.winSize)

/-- Move past the current instruction; the pc has 21 bits (R82). -/
def advance (s : State) (t : Nat) : State := s.onTile t fun x => { x with pc := (x.pc + 8) % 0x200000 }

/-- The instruction word at the pc, little-endian in the operand cache (R84, R96). -/
def fetched (x : Tile) : Word := BitVec.ofNat 64 (ofBytes (ocBytes x x.pc 8))

/-- The control core executes the instruction of word `w`, which reads the s registers `reads`: nothing happens while the task
is not live, its cluster's clock is stopped, it has halted, waits (R87) or has a pending source; a pc outside the code window
traps; and a word other than the one at the pc is not executed. -/
def coreStep (s : State) (t : Nat) (w : Word) (reads : List Nat) (body : State → Tile → State) : State :=
  sameCycle s t 0 fun s =>
    let x := s.tile t
    if !isLive s t || !clkRuns s t || x.halting || x.rdspWait || x.coreWait.isSome || reads.any (isPending x) then s
    else if !inWindow x x.pc then trap s t 0 cFETCH_FAULT x.pc 0
    else match ocUe x [(x.pc, 8)] with
      | some o => trapSram s t 0 x.pc o
      | none => if fetched x = w then body s x else s

/-- A core instruction whose only effect is a new value of one s register. -/
def coreWrite (s : State) (t : Nat) (w : Word) (reads : List Nat) (sd : Nat) (f : Tile → Word) : State :=
  coreStep s t w (sd :: reads) fun s x => advance (s.setTile t (writeS x sd (f x))) t

/-! ### Phases -/

/-- The current phase's entry (R205), while a MAP_TABLES section is accepted. -/
def curPhase (s : State) : Option PhaseEntry :=
  if bitF s fCMP_PHASE_VALID then s.phases.entries[getF s fCMP_PHASE_CUR]? else none

/-- The current phase is of kind EVAL (R207, R235). -/
def inEval (s : State) : Bool :=
  match curPhase s with
  | some p => p.kind == 5
  | none => false

/-- The current phase holds fill (R206, R207). -/
def phaseHolds (s : State) : Bool :=
  match curPhase s with
  | some p => p.hold || p.kind == 5
  | none => false

/-! ### Task start and task end (R81, R120) -/

/-- The registers of a tile's CSR block that hold plain values and that task start clears (R81 and the register headings
of spec 03, 04, 05, 07); the registers kept are not listed. -/
def taskStartClears (t : Nat) : List Fld :=
  [fTILE_TRAP_CAUSE_VALID t, fTILE_TRAP_CAUSE_MULTI t, fTILE_TRAP_CAUSE_UNIT t, fTILE_TRAP_CAUSE_CODE t, fTILE_TRAP_PC_PC t,
    fTILE_TRAP_INFO_INFO t, fTILE_STR_STATUS_VER_STALE t, fTILE_STR_STATUS_NONFIN t, fTILE_STR_STATUS_SAT t,
    fTILE_STR_ERR_VALID t, fTILE_STR_ERR_PC t, fTILE_STR_ERR_CODE t, fTILE_STR_ERR_ADDR_ADDR t, fTILE_STR_LASTVER_VERSION t]
  ++ (List.range 16).map (fTILE_STR_STALL_COUNT t) ++ (List.range 12).map (fTILE_STALL_COUNT t)

/-- Task start: every piece of tile state takes the value of R81, and only the operand cache and the kept registers
survive. `reason` is what TILE_VEC_REFEN reports for the task (R201). -/
def startTask (s : State) (t base size entry arg0 arg1 reason : Nat) : State :=
  let s := setFs s ((taskStartClears t).map fun f => (f, 0))
  let s := setF s (fTILE_VEC_REFEN_REASON t) reason
  let x : Tile := { Tile.reset with
    phase := .running, pc := (base + entry) % 0x200000, winBase := base, winSize := size,
    oc := (s.tile t).oc, ocBad := (s.tile t).ocBad, cycSince := s.now,
    str := { StrUnit.reset with nextNo := (s.tile t).str.nextNo, loose := (s.tile t).str.loose } }
  s.setTile t (writeS (writeS x 1 (BitVec.ofNat 64 arg0)) 2 (BitVec.ofNat 64 arg1))

/-- The 32-byte inline payload of a task-end notice (R120). -/
def noticePayload (t code unit pc info time cycles : Nat) (multi byB : Bool) : List Byte :=
  toBytes 2 t ++ toBytes 1 code ++ toBytes 1 (unit % 8 + multi.toNat * 64 + byB.toNat * 128) ++ toBytes 4 pc ++
  toBytes 8 info ++ toBytes 8 time ++ toBytes 8 cycles

/-- Post a task-end notice when TILE_REPORT_PH has EN = 1 (R120). -/
def postNotice (s : State) (t : Nat) (payload : List Byte) : State :=
  if bitF s (fTILE_REPORT_PH_EN t) then sendDev s (getF s (fTILE_REPORT_PH_PH t)) 0 payload else s

/-- Every prefetch stream of a tile stops: entries are freed, ROUNDS stays (R252, TILE_PF_n). -/
def stopStreams (x : Tile) : Tile :=
  { x with str := { x.str with pf := (x.str.pf.map fun p =>
      (p.1, { PfStream.off with rounds := p.2.rounds })).filter fun p => p.2 != PfStream.off } }

/-- What every task end does besides the notice: BSTAT is kept in TILE_VEC_END_BSTAT, REASON clears (R201), the prefetch
streams stop (R252), and a TASK_END record is written (R576). -/
def taskEnd (s : State) (t code unit : Nat) (multi : Bool) (cycles : Nat) : State :=
  let b := (s.tile t).vec.r.bstat
  let s := setFs s [(fTILE_VEC_END_BSTAT_NONFIN t, b / 2 % 2), (fTILE_VEC_END_BSTAT_SAT t, b % 2),
    (fTILE_VEC_REFEN_REASON t, 0)]
  let s := s.onTile t stopStreams
  postTrace s 2 t (code + unit * 256 + multi.toNat * 2048) cycles

end Sys2Proof.Machine
end

