-- ==== Sys2Proof/Machine/ClockOps.lean ====
section
/-!
DEFINITION. The clock states of the clusters (spec 15 R506 to R510).
-/
namespace Sys2Proof.Machine

def kRUN : Nat := 0
def kGATE : Nat := 1
def kNAP : Nat := 2
def kOFF : Nat := 3

def dieRt (s : State) (d : Nat) : DieRt := mget (fun _ => DieRt.start) s.pkg.dies d

def setDie (s : State) (d : Nat) (x : DieRt) : State :=
  { s with pkg := { s.pkg with dies := mset (fun _ => DieRt.start) s.pkg.dies d x } }

def clusterRt (s : State) (c : Nat) : ClusterRt := mget (fun _ => ClusterRt.start) s.pkg.clusters c

def setCluster (s : State) (c : Nat) (x : ClusterRt) : State :=
  { s with pkg := { s.pkg with clusters := mset (fun _ => ClusterRt.start) s.pkg.clusters c x } }

def clusterState (s : State) (c : Nat) : Nat := getF s (fPKG_CLUSTER_STATE c)

/-- The tiles of a cluster (R25). -/
def clusterTiles (c : Nat) : List Nat := (List.range 16).map (16 * c + ·)

/-- Is the cluster woken from NAP or OFF and its ramp not over? -/
def waking (s : State) (c : Nat) : Bool := (dieRt s (c / 4)).wakes.any fun w => w.1 == c

/-- Insert by cluster number. -/
def insertWake (x : Nat × Nat) : List (Nat × Nat) → List (Nat × Nat)
  | [] => [x]
  | y :: r => if x.1 < y.1 then x :: y :: r else y :: insertWake x r

/-- Ramp starts 0.5 µs apart from `slot` on. -/
def rampSlots : Nat → List (Nat × Nat) → List (Nat × Nat × Nat)
  | _, [] => []
  | slot, (c, w) :: r => (c, w, slot) :: rampSlots (slot + 500) r

/-- A cluster in NAP or OFF is woken: it takes the next free ramp slot of its die, and clusters woken at one instant ramp in
ascending order (R509). -/
def wakeRamp (s : State) (c : Nat) : State :=
  if waking s c then s
  else
    let x := dieRt s (c / 4)
    let old := x.wakes.filter fun w => decide (w.2.1 < s.now)
    let same := insertWake (c, s.now) ((x.wakes.filter fun w => decide (s.now ≤ w.2.1)).map fun w => (w.1, w.2.1))
    let slot := old.foldl (fun a w => max a (w.2.2 + 500)) (max s.now x.slotFree)
    setDie s (c / 4) { x with wakes := old ++ rampSlots slot same }

/-- A wake event for a cluster in GATE or NAP (R507); a cluster that a loop holds in GATE stays there and runs when the hold
ends (R533). -/
def wakeEvent (s : State) (c : Nat) : State :=
  if clusterState s c = kGATE then
    if (clusterRt s c).forced then setCluster s c { clusterRt s c with woken := true }
    else setF s (fPKG_CLUSTER_STATE c) kRUN
  else if clusterState s c = kNAP then wakeRamp s c
  else s

/-- START reaches a tile: its cluster wakes, and from OFF the task begins after the wake (R508). -/
def wakeForStart (s : State) (t : Nat) : State :=
  let c := clusterOf t
  if clusterState s c = kOFF then
    let x := clusterRt s c
    wakeRamp (setCluster s c { x with starts := t :: x.starts }) c
  else wakeEvent s c

/-- A loop (`loop`) or the power-down holds a cluster in GATE (R523, R524, R595): a running one enters GATE, and one in NAP or OFF will
when it is woken. -/
def forceGate (loop : Bool) (s : State) (c : Nat) : State :=
  let x := clusterRt s c
  if x.forced then s
  else if clusterState s c = kRUN then
    setCluster (setF s (fPKG_CLUSTER_STATE c) kGATE) c { x with since := s.now, forced := true, byLoop := loop, woken := true, idle := 0 }
  else setCluster s c { x with forced := true, byLoop := loop, woken := false }

/-- The hold ends: a cluster that ran before it, or was woken during it, runs. -/
def freeGate (s : State) (c : Nat) : State :=
  let x := clusterRt s c
  if x.forced then
    setCluster (if x.woken && clusterState s c == kGATE then setF s (fPKG_CLUSTER_STATE c) kRUN else s) c
      { x with forced := false, byLoop := false, woken := false }
  else s

/-- The ramp of a woken cluster is over: it runs, or enters GATE while it is held there. -/
def rampOver (s : State) (c : Nat) : State :=
  let x := clusterRt s c
  if x.forced then setCluster (setF s (fPKG_CLUSTER_STATE c) kGATE) c { x with since := s.now, starts := [], woken := true }
  else setCluster (setF s (fPKG_CLUSTER_STATE c) kRUN) c { x with starts := [] }

end Sys2Proof.Machine
end

