-- ==== Sys2Proof/Machine/FabOps.lean ====
section
/-!
DEFINITION. The operations of the fabric (spec 11, 12, 13): CRC-32 and packet bytes, positions and substitution, lines and
lanes, routes, the link layer's sending side, and the injection of packets with the outstanding shares, the seal rule and the
send rates.
-/
namespace Sys2Proof.Machine

/-! ### CRC-32 of IEEE 802.3 and the bytes of a packet (R405) -/

/-- One bit of the reflected CRC. -/
def crcBit (c : Nat) : Nat := if c % 2 = 1 then (c / 2) ^^^ 0xEDB88320 else c / 2

def crcByte (c : Nat) (b : Byte) : Nat :=
  (List.range 8).foldl (fun c _ => crcBit c) (c ^^^ b.toNat)

/-- CRC-32 of IEEE 802.3. -/
def crc32 (l : List Byte) : Nat := l.foldl crcByte 0xFFFFFFFF ^^^ 0xFFFFFFFF

/-- PFLAGS of R405. -/
def Packet.flags (p : Packet) : Nat :=
  p.cls % 4 + 4 * p.sealed.toNat + 8 * p.fwd.toNat + 16 * p.mark.toNat + 32 * p.nf.toNat

/-- Bytes 0x00 to 0x1B of the header. -/
def Packet.head (p : Packet) : List Byte :=
  toBytes 2 p.dest ++ toBytes 2 p.src ++ toBytes 1 p.flags ++ toBytes 1 p.typ ++ toBytes 2 p.payload.length ++
  toBytes 4 p.seq ++ toBytes 4 p.step ++ toBytes 8 p.addr ++ toBytes 4 p.id

/-- A packet as it travels. -/
def Packet.bytes (p : Packet) : List Byte := p.head ++ toBytes 4 (crc32 p.head) ++ p.payload

/-- A packet read from bytes; none where HCRC is wrong or the payload is not whole (R405). -/
def packetOf (b : List Byte) : Option Packet :=
  let n := leAt b 6 2
  let f := leAt b 4 1
  if b.length < 32 + n ∨ 512 < n ∨ crc32 (b.take 28) ≠ leAt b 28 4 then none
  else some ⟨leAt b 0 2, leAt b 2 2, f % 4, bit f 2, bit f 3, bit f 4, bit f 5, leAt b 5 1, leAt b 8 4, leAt b 12 4, leAt b 16 8,
    leAt b 24 4, (b.drop 32).take n⟩

/-! ### Positions (R364 to R366, R386) -/

/-- A position as GRID_POS spells it. -/
def posOf (row col : Nat) : Nat := row + 256 * col
def posRow (p : Nat) : Nat := p % 256
def posCol (p : Nat) : Nat := p / 256 % 256

/-- The module's logical position (R366, R112), 0x7F7F before discovery completes. -/
def ownLog (s : State) : Nat := posOf (getF s fOPT_POS_LROW) (getF s fOPT_POS_LCOL)

/-- The module's physical position. -/
def ownPhys (s : State) : Nat := posOf (getF s fOPT_POS_ROW) (getF s fOPT_POS_COL)

/-- Is discovery COMPLETE? -/
def discovered (s : State) : Bool := getF s fOPT_FAB_STATUS_DSTATE == 3

/-- ROWSUB[x] and COLSUB[y] in force (R386). -/
def rowSub (s : State) (x : Nat) : Option Nat := mget (fun _ => none) s.fab.rowSub x
def colSub (s : State) (y : Nat) : Option Nat := mget (fun _ => none) s.fab.colSub y

/-- The physical position of a logical one (R386). -/
def physOf (s : State) (p : Nat) : Nat :=
  let x := posRow p
  let y := posCol p
  if x < 64 ∧ y < 64 ∧ rowSub s x = some y then posOf x 64
  else if x < 64 ∧ y < 64 ∧ colSub s y = some x then posOf 64 y
  else p

/-- Is the physical position marked dead (R386)? -/
def isDead (s : State) (p : Nat) : Bool :=
  let i := 65 * posRow p + posCol p
  bit (mget (fun _ => 0) s.fab.dead (i / 32)) (i % 32)

/-! ### Ports, roles and lines (R367 to R372, R387) -/

/-- The number of row ports under a split (R368). -/
def rowPorts (split : Nat) : Nat := match split with | 1 => 12 | 2 => 4 | _ => 8

/-- Role of a port: 0 row, 1 column (R368). -/
def portRole (s : State) (p : Nat) : Nat := if p < rowPorts (getF s fOPT_FAB_STATUS_SPLIT) then 0 else 1

/-- The module's index on a port's plane: its physical column on a row plane, its physical row on a column plane (R367). -/
def ownIndex (s : State) (role : Nat) : Nat := if role = 0 then getF s fOPT_POS_COL else getF s fOPT_POS_ROW

/-- The module is in place on the planes of a role (R387). -/
def inPlace (s : State) (role : Nat) : Bool :=
  (!bitF s fOPT_FAB_STATUS_SPARE || bitF s fOPT_FAB_STATUS_SUBST) &&
  (if role = 0 then getF s fOPT_POS_LROW == getF s fOPT_POS_ROW else getF s fOPT_POS_LCOL == getF s fOPT_POS_COL)

/-- The physical index that DEST j names on a port of a role; none where the lane is dark (R387). -/
def resolveDest (s : State) (role j : Nat) : Option Nat :=
  if j = 64 then some 64
  else if inPlace s role then
    if role = 0 then
      let q := physOf s (posOf (getF s fOPT_POS_LROW) j)
      if posRow q = getF s fOPT_POS_ROW then some (posCol q) else none
    else
      let q := physOf s (posOf j (getF s fOPT_POS_LCOL))
      if posCol q = getF s fOPT_POS_COL then some (posRow q) else none
  else some j

/-- What a lane byte (R208) means on a port: the physical index of its far end and its comb line (R370); none where the byte
names no destination or the lane is dark. -/
def byteTarget (s : State) (role byte : Nat) : Option (Nat × Nat) :=
  if 64 < byte % 128 then none
  else match resolveDest s role (byte % 128) with
    | none => none
    | some j => some (j, (ownIndex s role + j) % 65 + 65 * (byte / 128 % 2))

/-- The lane key of engine e, lane l. -/
def laneKey (e l : Nat) : Nat := e * 32 + l

def laneRt (s : State) (e l : Nat) : LaneRt := mget (fun _ => LaneRt.start) s.fab.lanes (laneKey e l)

def setLane (s : State) (e l : Nat) (x : LaneRt) : State :=
  { s with fab := { s.fab with lanes := mset (fun _ => LaneRt.start) s.fab.lanes (laneKey e l) x } }

def onLane (s : State) (e l : Nat) (f : LaneRt → LaneRt) : State := setLane s e l (f (laneRt s e l))

/-- The targets of the lanes of a port under a list of lane bytes: where two lanes name one line, the higher one is dark (R387). -/
def portTargets (s : State) (role : Nat) (bytes : List Nat) : List (Option (Nat × Nat)) :=
  (bytes.foldl (fun (acc : List (Option (Nat × Nat)) × List Nat) b =>
    match byteTarget s role b with
    | none => (none :: acc.1, acc.2)
    | some (j, k) => if acc.2.contains k then (none :: acc.1, acc.2) else (some (j, k) :: acc.1, k :: acc.2)) ([], [])).1.reverse

/-- The lane bytes of a port as its lanes hold them. -/
def portBytes (s : State) (p : Nat) : List Nat := (List.range 32).map fun l => (laneRt s p l).byte

/-- Lane states of OPT_LANE (spec 13). -/
def lOFF : Nat := 0
def lRETUNE : Nat := 1
def lLOCKING : Nat := 2
def lCHECK : Nat := 3
def lINSERVICE : Nat := 4
def lLATEPEER : Nat := 5
def lUNPAIRED : Nat := 6
def lDROPPED : Nat := 7
def lMARGINFAIL : Nat := 8
def lDARK : Nat := 9
def lSCAN : Nat := 10

def laneState (s : State) (e l : Nat) : Nat := getF s (fOPT_LANE_LSTATE e l)

/-- Port states of OPT_PORT (spec 11). -/
def pDOWN : Nat := 0
def pSWEEP : Nat := 1
def pINSERVICE : Nat := 2
def pDRAINING : Nat := 3
def pREDRAWING : Nat := 4
def pMISCABLED : Nat := 5
def pSPLITMISMATCH : Nat := 6
def pNOECHO : Nat := 7

/-- Lanes in service of an engine. -/
def lanesUp (s : State) (e : Nat) : Nat := ((List.range 32).filter fun l => laneState s e l == lINSERVICE).length

/-- Enter a lane state, and the widths that OPT_PORT and OPT_ENG report. -/
def setLaneState (s : State) (e l v : Nat) : State :=
  let s := setF s (fOPT_LANE_LSTATE e l) v
  let n := lanesUp s e
  let s := setF s (fOPT_ENG_LANES e) n
  if e < 16 then setF s (fOPT_PORT_LANES e) n else s

/-! ### Routes (R373) -/

/-- A row of A_R and a column of A_C (R365). -/
def activeRow (s : State) (x : Nat) : Bool := decide (32 ≤ x + s.fab.shape.1 / 2) && decide (x < 32 + s.fab.shape.1 / 2)
def activeCol (s : State) (y : Nat) : Bool := decide (y < s.fab.shape.2)

/-- A position installed in the system (R364, R365). -/
def isInstalled (s : State) (r c : Nat) : Bool := (r == 64 || activeRow s r) && (c == 64 || activeCol s c)

/-- Index j is confirmed on some port of the role (R383). -/
def peerSeen (s : State) (role j : Nat) : Bool :=
  (List.range 16).any fun p => portRole s p == role &&
    (if j = 64 then bitF s (fOPT_PEERS_HI_PEER64 p) else decide (j < 64) && bit (getF s (fOPT_PEERS_LO_PEERS p)) j)

/-- A next hop: role of the ports and index of the far module on their planes. -/
structure NextHop where
  role : Nat
  index : Nat
deriving DecidableEq, Repr

/-- A module that can relay on the way to another row and column: installed, discovered on a port of the role, and not marked dead (R373). -/
def relays (s : State) (role row col : Nat) : Bool :=
  isInstalled s row col && peerSeen s role (if role = 0 then col else row) && !isDead s (posOf row col)

/-- The route from this module to a logical destination: its next hop, and whether it goes column first as a fallback. -/
def route (s : State) (dest : Nat) : Option (NextHop × Bool) :=
  let p := ownPhys s
  let q := physOf s dest
  if p = q ∨ !discovered s then none
  else if posRow p = posRow q then some (⟨0, posCol q⟩, false)
  else if posCol p = posCol q then some (⟨1, posRow q⟩, false)
  else if relays s 0 (posRow p) (posCol q) then some (⟨0, posCol q⟩, false)
  else if relays s 1 (posRow q) (posCol p) then some (⟨1, posRow q⟩, true)
  else none

/-! ### The link layer's sending side (R406, R440) -/

def NextHop.key (h : NextHop) : Nat := h.role * 65 + h.index

def hopSt (s : State) (k : Nat) : Hop := mget (fun _ => Hop.start) s.fab.hops k

def setHop (s : State) (k : Nat) (h : Hop) : State :=
  { s with fab := { s.fab with hops := mset (fun _ => Hop.start) s.fab.hops k h } }

/-- A swap runs on the engine (R452). -/
def inSwap (s : State) (e : Nat) : Bool := s.fab.swaps.any fun w => w.eng == e

/-- The in-service lanes toward a next hop: (port, lane) over all ports of the hop's role that are in service (R406); hop 130 is
the twin behind the twin port, which carries no traffic under MISMATCH (R384) nor while its source is swapped (R452). -/
def lanesTo (s : State) (k : Nat) : List (Nat × Nat) :=
  if k = 130 then
    if getF s fOPT_TWIN_TSTATE = 2 ∨ inSwap s 16 then [] else ((List.range 32).filter fun l => laneState s 16 l == lINSERVICE).map fun l => (16, l)
  else
    ((List.range 16).filter fun p => portRole s p == k / 65 && getF s (fOPT_PORT_PSTATE p) == pINSERVICE).flatMap fun p =>
      ((List.range 32).filter fun l => laneState s p l == lINSERVICE &&
        (match (laneRt s p l).tgt with | some (j, _) => j == k % 65 | none => false)).map fun l => (p, l)

/-- Pre-FEC bit errors of a lane in the last 1 ms, saturating (OPT_LANE.ERRS). -/
def laneErrs (s : State) (e l : Nat) : Nat :=
  min 4095 (((laneRt s e l).errBits.filter fun x => decide (s.now < x.1 + 1000000)).foldl (fun a x => a + x.2) 0)

/-- The rings of a lane are locked (R443): within 0.5 GHz, for 10 µs. -/
def ringLocked (s : State) (e l : Nat) : Bool :=
  let v := sx 8 (getF s (fOPT_LANE_LOCKERR e l))
  decide (-10 ≤ v) && decide (v ≤ 10) && (match (laneRt s e l).outAt with | none => true | some t => decide (t + 10000 ≤ s.now))

/-- A lane that stands in a lane check, or tries one: CHECK, LATE_PEER or DROPPED. -/
def isChecking (s : State) (e l : Nat) : Bool :=
  let v := laneState s e l
  v == lCHECK || v == lLATEPEER || v == lDROPPED

/-- A lane passes its lane check (R452): its rings are locked, the identity unit has come, and 20 µs of PRBS31 after it without an error. -/
def laneChecked (s : State) (e l : Nat) : Bool := ringLocked s e l && (laneRt s e l).identity && (laneRt s e l).prbsPass

/-- The error rate of a lane over the last 100 µs, before the FEC, is at most 1e-6: at most 10 wrong bits of the 10.6 million, and no codeword
beyond correction (R452, R454). -/
def laneQuiet (s : State) (e l : Nat) : Bool :=
  let r := laneRt s e l
  decide (((r.errBits.filter fun x => decide (s.now < x.1 + 100000)).foldl (fun a x => a + x.2) 0) ≤ 10) &&
  r.uncorr.all fun t => decide (t + 100000 ≤ s.now)

/-! ### Laser sources (R450, R451) -/

def laserSrc (s : State) (n : Nat) : LaserSrc := mget LaserSrc.start s.fab.lasers n

def setLaser (s : State) (n : Nat) (x : LaserSrc) : State :=
  { s with fab := { s.fab with lasers := mset LaserSrc.start s.fab.lasers n x } }

/-- The engine that a source feeds, by LAS_MAP. -/
def engineOf (s : State) (n : Nat) : Option Nat := (List.range 17).find? fun e => getF s (fLAS_MAP_SRC e) == n

/-- The worst in-service lane of the engine that a source feeds has a pre-FEC bit error rate above k / 1.0625 × 10^8 over the last 1 ms. -/
def berAbove (s : State) (n k : Nat) : Bool :=
  match engineOf s n with
  | some e => (List.range 32).any fun l => laneState s e l == lINSERVICE && decide (k < laneErrs s e l)
  | none => false

/-- The engine's source keeps since when the worst lane's error rate has been above 1e-6 (R451). -/
def noteBer (s : State) (e : Nat) : State :=
  let n := getF s (fLAS_MAP_SRC e)
  let x := laserSrc s n
  let v := if berAbove s n 106 then some (x.berFrom.getD s.now) else none
  if v = x.berFrom then s else setLaser s n { x with berFrom := v }

/-- A link unit as the bytes of a lane (R439): header, body, CRC-32 and zeros up to a multiple of 64 bytes. -/
def frameUnit (utype lseq : Nat) (body : List Byte) : List Byte :=
  let flits := (12 + body.length + 63) / 64
  let b := toBytes 1 utype ++ toBytes 1 flits ++ toBytes 3 lseq ++ toBytes 3 0 ++ body
  b ++ toBytes 4 (crc32 b) ++ List.replicate (64 * flits - 12 - body.length) 0

/-- Put a link unit on a lane. -/
def sendUnit (s : State) (eng lane utype lseq : Nat) (body : List Byte) : State :=
  onLane { s with wire := .unit eng lane utype lseq body :: s.wire } eng lane fun r =>
    { r with txUnits := r.txUnits ++ [frameUnit utype lseq body] }

/-- The hop of a packet to next hop k ends at a relay (R374, R408). -/
def endsAtRelay (s : State) (p : Packet) : Bool :=
  let q := physOf s p.dest
  !p.fwd && posRow q != posRow (ownPhys s) && posCol q != posCol (ownPhys s)

/-- The link-level credit left for a packet on a port toward next hop k (R408): the pool of its class at the far port has 128 places, a
forward pool 64; a place is taken by a unit sent there and free once a LINK_ACK covers the unit (assumption log 61). -/
def hasCredit (s : State) (k port : Nat) (p : Packet) : Bool :=
  let relay := k != 130 && endsAtRelay s p
  let used := ((hopSt s k).tx.filter fun u =>
    u.lseq.isSome && u.port == port && u.p.cls == p.cls && (k != 130 && endsAtRelay s u.p) == relay).length
  decide (used < if relay then 64 else 128)

/-- The bytes that a PACKET unit takes in the replay buffer: its whole flits (R439, R441). -/
def unitSize (p : Packet) : Nat := 64 * ((12 + 32 + p.payload.length + 63) / 64)

/-- The bytes that the sent units of all next hops take in the replay buffer of 32 MiB (R441). -/
def replayUsed (s : State) : Nat :=
  s.fab.hops.foldl (fun a h => a + (h.2.tx.filter fun u => u.lseq.isSome).foldl (fun a u => a + unitSize u.p) 0) 0

/-- The lanes on which a unit may leave now: of those toward its next hop, for its first send, the ones whose far port has credit, once the
replay buffer has room for the unit (R441). -/
def lanesFor (s : State) (k : Nat) (u : TxUnit) : List (Nat × Nat) :=
  if u.lseq.isNone && decide (2 ^ 25 < replayUsed s + unitSize u.p) then []
  else (lanesTo s k).filter fun c => u.lseq.isSome || hasCredit s k c.1 u.p

/-- Packets of a class that wait in the forward pool of a port for their second hop (R408). -/
def forwardHeld (s : State) (port cls : Nat) : Nat :=
  s.fab.hops.foldl (fun a h => a + (h.2.tx.filter fun u => u.inPort == some port && u.lseq.isNone && u.p.cls == cls).length) 0

/-- MARK of a packet that leaves a forward pool: the pool is fuller than MARK_PCT of its 64 places (R412). -/
def forwardMark (s : State) (u : TxUnit) : Bool :=
  match u.inPort with
  | some p => u.lseq.isNone && u.p.cls != 1 && decide (getF s fCMP_CC_CTL_MARK_PCT * 64 < 100 * forwardHeld s p u.p.cls)
  | none => false

/-- Send unit i of a next hop's list on the next lane of the rotation; it stays held while no lane is in service or no far port has credit
for it. -/
def sendTx (s : State) (k i : Nat) : State :=
  let h := hopSt s k
  match h.tx[i]? with
  | none => s
  | some u =>
    match lanesFor s k u with
    | [] => s
    | l :: ls =>
      let c := (l :: ls).getD (h.rot % (l :: ls).length) l
      let (q, nx) := match u.lseq with
        | some q => (q, h.nextLseq)
        | none => (h.nextLseq, (h.nextLseq + 1) % 2 ^ 24)
      let u := { u with p := { u.p with mark := u.p.mark || forwardMark s u }
                        lseq := some q, sentAt := some s.now, port := c.1, shown := none }
      sendUnit (setHop s k { h with tx := replaceAt h.tx i u, nextLseq := nx, rot := (h.rot + 1) % 65536 }) c.1 c.2 1 q u.p.bytes

/-- The oldest unit of a next hop that was not sent yet and can leave: while 65,536 numbers are unacknowledged only one that has its number
(R441). -/
def firstHeld (s : State) (k : Nat) : Option Nat :=
  let h := hopSt s k
  let full := decide (65536 ≤ (h.tx.filter fun u => u.lseq.isSome).length)
  firstIdx (fun u : TxUnit => u.sentAt.isNone && !(full && u.lseq.isNone) && !(lanesFor s k u).isEmpty) h.tx

/-- Send the held units of a next hop that can leave. -/
def sendHeld : Nat → State → Nat → State
  | 0, s, _ => s
  | f + 1, s, k =>
    match firstHeld s k with
    | none => s
    | some i => sendHeld f (sendTx s k i) k

/-- The next hop that a lane reaches: 130 names the twin behind the twin port. -/
def laneHop (s : State) (e l : Nat) : Option Nat :=
  if e = 16 then some 130
  else (laneRt s e l).tgt.map fun x => portRole s e * 65 + x.1

/-- A LINK_ACK for a next hop leaves on a lane (R440): CUM and the bitmap of the 64 numbers above it. It also tells the far port which places
of its pools the sender may use again (assumption log 61). -/
def sendLinkAck (s : State) (k e l : Nat) : State :=
  let h := hopSt s k
  let map := h.got.foldl (fun a n => if h.cum < n ∧ n ≤ h.cum + 64 then setBit a (n - h.cum - 1) else a) 0
  sendUnit (setHop s k { h with unacked := false, ackedAt := s.now }) e l 2 0 (toBytes 4 (h.cum % 2 ^ 24) ++ toBytes 8 map)

/-- A port that enters service exchanges credits and link sequence numbers with each far end (R376, R452): a LINK_ACK for the next hop of
every one of its lanes in service. Which units carry them the spec does not say (DESIGN CHOICE, assumption log 92). -/
def shareHops (s : State) (p : Nat) : State :=
  (List.range 32).foldl (fun s l => match laneState s p l == lINSERVICE, laneHop s p l with
    | true, some k => sendLinkAck s k p l
    | _, _ => s) s

/-- Every next hop sends what it holds. -/
def sendAllHeld (s : State) : State :=
  s.fab.hops.foldl (fun s p => sendHeld p.2.tx.length s p.1) s

/-- Hand a packet to the link layer of its next hop; `inPort` is the port whose forward pool holds a relayed one. -/
def transmit (s : State) (k : Nat) (p : Packet) (inPort : Option Nat) : State :=
  let h := hopSt s k
  let s := setHop s k { h with tx := h.tx ++ [⟨p, inPort, none, s.now, none, 0, none⟩] }
  sendHeld (h.tx.length + 1) s k

/-! ### Outstanding packets and send rates (R407, R410 to R414) -/

/-- The shares of R407 by class. -/
def shareOf (cls : Nat) : Nat := match cls with | 0 => 49152 | _ => 8192

/-- Outstanding packets of a class. -/
def outCount (s : State) (cls : Nat) : Nat := (s.fab.out.filter fun o => o.p.cls == cls).length

def rateOf (s : State) (dest : Nat) : Rate := mget (fun _ => Rate.start) s.fab.rates dest

def setRate (s : State) (dest : Nat) (r : Rate) : State :=
  { s with fab := { s.fab with rates := mset (fun _ => Rate.start) s.fab.rates dest r } }

/-- The rate in force: r_d, or the pinned rate (R414), as num / 2^sh GB/s. -/
def rateNow (s : State) (r : Rate) : Nat × Nat :=
  if bitF s fCMP_CC_PIN_EN then (getF s fCMP_CC_PIN_RATE, 0) else (r.num, r.sh)

/-- Nanoseconds that n bytes take at a rate, rounded up. -/
def rateTime (r : Nat × Nat) (n : Nat) : Nat := (n * 2 ^ r.2 + r.1 - 1) / r.1

/-- A request has link credit at its next hop, which it needs before it is injected (R409); while no lane reaches the hop it goes on to be held
there (R406). -/
def linkCredit (s : State) (p : Packet) : Bool :=
  match p.cls, route s p.dest with
  | 0, some (h, _) => (lanesTo s h.key).isEmpty || (lanesTo s h.key).any fun c => hasCredit s h.key c.1 p
  | _, _ => true

/-- May a waiting packet be injected now: its share has room, its send rate allows it, what R411 makes a sealed packet wait for is
acknowledged, and a request has link credit (R409)? -/
def canInject (s : State) (o : OutPkt) : Bool :=
  decide (outCount s o.p.cls < shareOf o.p.cls) && linkCredit s o.p &&
  (o.p.cls == 1 || decide ((rateOf s o.p.dest).nextFree ≤ s.now)) &&
  (!o.p.sealed || !((s.fab.out ++ s.fab.wait).any fun x => x.p.dest == o.p.dest && decide (x.born < o.born)))

/-! ### What an acknowledgement or a loss does to the agent (R398, R407) -/

/-- Find a transfer by its number. -/
def runIdx (x : Tile) (no : Nat) : Option Nat := firstIdx (fun r : StrRun => r.no == no) x.str.run

/-- Change a transfer of a tile. -/
def onRun (s : State) (t no : Nat) (f : StrRun → StrRun) : State :=
  s.onTile t fun x => { x with str := { x.str with run := x.str.run.map fun r => if r.no = no then f r else r } }

/-- The first failure of a transfer is kept. -/
def failRun (s : State) (t no code addr : Nat) : State :=
  onRun s t no fun r => { r with fail := match r.fail with | none => some (code, addr) | some f => some f }

/-- Change an out-going message by its number. -/
def onMsg (s : State) (no : Nat) (f : OutMsg → OutMsg) : State :=
  { s with mail := { s.mail with msgs := s.mail.msgs.map fun m => if m.no = no then f m else m } }

/-- Drop the filling prefetch entry of a tag (R249); of a versioned region, the entries that one version read would accept (R258). -/
def dropEntry (s : State) (t slot tag : Nat) : State :=
  let x := s.tile t
  let p := mget (fun _ => PfStream.off) x.str.pf slot
  match p.entries.find? fun e => e.filling && e.tag == tag with
  | none => s
  | some d =>
    let out (e : PfEntry) : Bool := e.filling && (e.tag == tag || (p.vregion && p.batch e.no == p.batch d.no))
    addF (s.setTile t { x with str := { x.str with pf := mset (fun _ => PfStream.off) x.str.pf slot (p.remove out) } })
      (fTILE_STR_STALL_COUNT t 11) (p.entries.filter out).length

/-- A remote request is no longer outstanding for the engine of a tile. -/
def notLoose (s : State) (t id : Nat) : State :=
  s.onTile t fun x => { x with str := { x.str with loose := x.str.loose.filter (· != id) } }

/-- A segment of a transfer is no longer awaited. -/
def notPending (s : State) (t no id : Nat) : State :=
  onRun (notLoose s t id) t no fun r => { r with rr := { r.rr with pend := r.rr.pend.filter (· % 65536 != id % 65536) } }

/-- A packet was acknowledged end to end (R407). -/
def pktAcked (s : State) (o : OutPkt) : State :=
  match o.owner with
  | .stream t no =>
    if o.p.typ = tREAD then s else notPending s t no o.p.id
  | .mail _ no => onMsg s no fun m =>
      let fl := m.flying - 1
      let st := if m.state = .sending ∧ m.mailMade ∧ fl = 0 then .acked else m.state
      { m with flying := fl, stallFrom := none, state := st }
  | .coll id step member =>
      { s with mail := { s.mail with sends := s.mail.sends.map fun c =>
          if c.id = id ∧ c.step = step ∧ c.member = member then { c with flying := c.flying - 1, stallFrom := none } else c } }
  | _ => s

/-- A packet was dropped: its message or request fails (R406, R407); what the endpoint pulls for a collective it asks for again. -/
def pktLost (s : State) (o : OutPkt) : State :=
  match o.owner with
  | .stream t no => failRun (notPending s t no o.p.id) t no cREMOTE_FAIL o.p.addr
  | .prefetch t slot tag => dropEntry (notLoose s t o.p.id) t slot tag
  | .mail ph no =>
    let s := onMsg s no fun m => { m with state := .failed, flying := m.flying - 1 }
    raise (setF s (fMBX_ERR_UNREACH ph) 1) fCMP_FAB_ERR_MSG_UNREACH
  | .coll id step member =>
      { s with mail := { s.mail with sends := s.mail.sends.map fun c =>
          if c.id = id ∧ c.step = step ∧ c.member = member then { c with flying := c.flying - 1 } else c } }
  | .pull => { s with fab := { s.fab with wait := s.fab.wait ++ [{ o with sentAt := none, born := s.fab.nextBorn }], nextBorn := s.fab.nextBorn + 1 } }
  | _ => s

/-- A packet has no route (R373): the request fails. -/
def noRoute (s : State) (o : OutPkt) : State :=
  pktLost (addF (raise s fOPT_FAB_ERR_ROUTE_NONE) (fOPT_FAB_EVENT_COUNT 6) 1) o

/-! ### Injection -/

/-- The sequence number of the next packet to a destination (R405). -/
def nextSeq (s : State) (dest : Nat) : Nat := mget (fun _ => 0) s.fab.seqs dest

/-- Inject a waiting packet: number it, count it, and hand it to its next hop. -/
def inject (s : State) (o : OutPkt) : State :=
  match route s o.p.dest with
  | none => noRoute s o
  | some (h, fb) =>
    let q := nextSeq s o.p.dest
    let p : Packet := { o.p with seq := q, src := ownLog s }
    let r := rateOf s p.dest
    let s := if p.cls = 1 then s else
      setRate s p.dest { r with nextFree := max s.now r.nextFree + rateTime (rateNow s r) (32 + p.payload.length) }
    let seqs := mset (fun _ => 0) s.fab.seqs p.dest ((q + 1) % 2 ^ 32)
    let out : List OutPkt := if p.typ = tACK then s.fab.out else s.fab.out ++ [{ o with p := p, sentAt := some s.now }]
    let s := { s with fab := { s.fab with seqs := seqs, out := out } }
    let s := addF s (fCMP_FAB_EVENT_COUNT 0) 1
    transmit (if fb then addF s (fOPT_FAB_EVENT_COUNT 5) 1 else s) h.key p none

/-- Inject the waiting packets that may go, oldest first; a sealed packet that must wait is counted once (R411). -/
def pumpWait : Nat → State → List OutPkt → State
  | 0, s, _ => s
  | _, s, [] => s
  | f + 1, s, o :: rest =>
    if !s.fab.wait.contains o then pumpWait f s rest
    else if canInject s o then
      pumpWait f (inject { s with fab := { s.fab with wait := s.fab.wait.filter (· != o) } } o) rest
    else if o.p.sealed && !o.waited then
      let s := addF s (fCMP_FAB_EVENT_COUNT 1) 1
      pumpWait f { s with fab := { s.fab with wait := s.fab.wait.map fun x => if x = o then { x with waited := true } else x } } rest
    else pumpWait f s rest

/-- Inject what may be injected. -/
def pump (s : State) : State := pumpWait s.fab.wait.length s s.fab.wait

/-- An agent makes a packet ready. -/
def ready (s : State) (owner : PktFor) (p : Packet) : State :=
  { s with fab := { s.fab with wait := s.fab.wait ++ [⟨p, owner, none, s.fab.nextBorn, false⟩], nextBorn := s.fab.nextBorn + 1 } }

/-- A request-class packet without payload, to be filled in. -/
def blankPacket (dest typ : Nat) : Packet :=
  ⟨dest, 0, 0, false, false, false, false, typ, 0, 0, 0, 0, []⟩

/-- The packet of an agreement message (R469): a BARRIER packet whose ID has bit 30 set, bit 31 in the column stage, with the step in ADDR (DESIGN
CHOICE, assumption log 92: the spec gives no TYPE for it). -/
def agreePacket (dest : Nat) (col : Bool) (step : Nat) : Packet :=
  { blankPacket dest tBARRIER with cls := 3, addr := step, id := 2 ^ 30 + 2 ^ 31 * col.toNat }

/-- Is a packet one of an agreement? -/
def isAgree (p : Packet) : Bool := p.typ == tBARRIER && bit p.id 30

end Sys2Proof.Machine
end

