-- ==== Sys2Proof/Machine/PkgOps.lean ====
section
/-!
DEFINITION. The states of the compute dies (spec 15 R496, R501).
-/
namespace Sys2Proof.Machine

def dABSENT : Nat := 0
def dUP : Nat := 1
def dLOST : Nat := 2
def dRESETTING : Nat := 3
def dREADY : Nat := 4
def dFAILED : Nat := 5
def dHELD : Nat := 6

/-- A die changes state (R496, trace record DIE of R576). -/
def setDieState (s : State) (d st : Nat) : State :=
  if dieState s d = st then s
  else postTrace (setF s (fPKG_DIE_STATUS_STATE d) st) 6 d st (getF s (fPKG_DIE_STATUS_REASON d))

/-- PKG_STATUS.DEGRADED: a die that is not ABSENT is not UP. -/
def anyDown (s : State) : Bool := (List.range 4).any fun d => dieState s d != dABSENT && dieState s d != dUP

/-- OPT_FAB_STATUS.DEGRADED clears unless a die is not UP or the cause of R379 holds (R501). -/
def clearDegraded (s : State) : State :=
  if anyDown s || s.fab.mapBad then s else setF s fOPT_FAB_STATUS_DEGRADED 0

/-- A READY die rejoins unless it is held: it becomes UP, its tiles are IDLE (R501), and it starts at min(24, its ceilings)
(R533). -/
def rejoinDie (s : State) (d : Nat) : State :=
  if dieState s d = dREADY ∧ !bitF s (fPKG_DIE_CTL_HOLD d) then
    let s := setF s (fCLK_DIE_FCODE d) (min 24 (min (getF s (fCLK_DIE_THERM d)) (getF s (fCLK_DIE_CURR d))))
    setDie (clearDegraded (setDieState s d dUP)) d { dieRt s d with upAt := s.now }
  else s

/-- An instant at which READY dies rejoin. -/
def rejoinDies (s : State) : State := (List.range 4).foldl rejoinDie s

/-- A READY die rejoins at once while no phase is valid (R501). -/
def rejoinNow (s : State) (d : Nat) : State := if bitF s fCMP_PHASE_VALID then s else rejoinDie s d

/-- The tiles of a die. -/
def dieTiles (d : Nat) : List Nat := (List.range 64).map (64 * d + ·)

/-- TILE_VEC_REFEN of the tiles of a die: 1 during its self-test (R201, R500). -/
def setReason (s : State) (d v : Nat) : State := (dieTiles d).foldl (fun s t => setF s (fTILE_VEC_REFEN_REASON t) v) s

/-- A die in service, or one that waits to rejoin, becomes LOST for a reason of R497: the instant of detection is kept (R498). The tiles
of RUNNING tasks are remembered for the notices of R121, and their ends are traced with the notice's cause, unit and CYCLES (R121, R576). -/
def dropDie (s : State) (d reason : Nat) : State :=
  let ran := (dieTiles d).filter fun t => isRunning s t
  let s := setFs s [(fPKG_DIE_STATUS_REASON d, reason), (fPKG_DIE_LOST_AT_TIME d, s.now), (fPKG_DIE_STATUS_ATTEMPTS d, 0)]
  let s := setDie s d { dieRt s d with fenced := false, ran := some ran, sync := synced s, attempt := none, due := some (s.now + 999800) }
  ran.foldl (fun s t => postTrace s 2 t cDIE_LOST 0) (setDieState s d dLOST)

/-- Die d becomes LOST if it is UP. -/
def loseDie (s : State) (d reason : Nat) : State := if dieState s d = dUP then dropDie s d reason else s

/-- A stage of an attempt fails: the next attempt comes 1 ms later; after the third failure the die is FAILED (R500). -/
def failAttempt (s : State) (d stage : Nat) : State :=
  let s := if stage = 4 then setReason s d 0 else s
  let n := getF s (fPKG_DIE_STATUS_ATTEMPTS d)
  let s := setDie s d { dieRt s d with attempt := none, due := some (s.now + 1000000) }
  if n < 3 then setDieState s d dLOST
  else postEvent (setDieState (raise s fPKG_ERR_DIE_FAILED) d dFAILED) 0x110 2 3 d stage n

/-- The number of a stage in the log record of DIE_FAILED (R541). -/
def Stage.no : Stage → Nat
  | .reset => 0 | .clock => 1 | .train => 2 | .clear => 3 | .selfTest => 4 | .check => 5

/-- The regulator of die d goes off (R513): a die that is UP or READY becomes LOST with reason RAIL_FAULT, and so does one whose attempt it
ends, as a failure at the attempt's stage; a die in another state does not run (assumption log 92). -/
def railOffDie (s : State) (d : Nat) : State :=
  let s := setDie s d { dieRt s d with railOff := true }
  let st := dieState s d
  if st = dUP ∨ st = dREADY then dropDie s d 3
  else match (dieRt s d).attempt with
    | some (_, g) => failAttempt (setFs s [(fPKG_DIE_STATUS_REASON d, 3), (fPKG_DIE_LOST_AT_TIME d, s.now)]) d g.no
    | none => s

/-- PWR_GOOD (R589): every rail but VAON is in regulation. -/
def pwrGood (s : State) : Bool := s.pm.pins.good && !(List.range 4).any fun d => (dieRt s d).railOff

/-- The feature word of a stepping of a compute die (R493); the spec lists no other stepping. -/
def stepFeatures : Nat → Option Nat
  | 0x10 => some 0x1CF
  | 0x11 => some 0x1EF
  | 0x20 => some 0x1FF
  | _ => none

/-- The steppings of B and of the compute dies present lead to Limited mode (R494). -/
def stepsBad (b : Nat) (dies : List Nat) : Bool :=
  dies.any (fun x => x != 0x11 && x != 0x20) || !(b == 0x11 || (b == 0x10 && dies.all (· == 0x11)))

/-- A tile after the reset of its die. Its transfers keep counting from the number they had, and the remote requests that they left stay
outstanding at B until they are answered or end (R119, R252). -/
def Tile.fresh (x : Tile) : Tile := { Tile.reset with str := { StrUnit.reset with nextNo := x.str.nextNo, loose := x.str.loose } }

/-- The tiles of a die return to reset: the registers of their blocks, their SRAM, their state (R483, R500). -/
def resetTiles (s : State) (d : Nat) : State :=
  let s := resetRegs s fun off => decide (0x400000 + 0x40000 * d ≤ off) && decide (off < 0x440000 + 0x40000 * d)
  (dieTiles d).foldl (fun s t => s.onTile t Tile.fresh) s

end Sys2Proof.Machine
end

