-- ==== Sys2Proof/Machine/RedrawOps.lean ====
section
/-!
DEFINITION. Redraws, phase boundaries and route tables (spec 06 R210, R211; spec 11 R376 to R379, R385 to R390), and the drop
of a lane (spec 13 R445).
-/
namespace Sys2Proof.Machine

/-! ### Lanes that drop (R445) -/

/-- A lane begins a check: nothing of an earlier one counts. -/
def LaneRt.uncheck (r : LaneRt) : LaneRt :=
  { r with identity := false, prbsTx := 0, prbsRx := none, prbsFrom := none, prbsPass := false }

/-- A lane is dropped: it leaves service at once; the third drop within 1 s keeps it out for 10 s; the log holds the first
drop of a lane in each second. Cause: 0 lock error, 1 codeword lock, 2 uncorrectable codewords. -/
def dropLane (s : State) (e l cause : Nat) : State :=
  let r := laneRt s e l
  let recent := r.drops.filter fun t => decide (s.now < t + 1000000000)
  let log := match r.logged with | none => true | some t => decide (t + 1000000000 ≤ s.now)
  let hold := if 2 ≤ recent.length then some s.now else none
  let s := setLane s e l { r.uncheck with
    drops := s.now :: recent
    holdFrom := hold
    logged := if log then some s.now else r.logged
    txPart := [], txUnits := [], sinceHead := 0 }
  let s := addF (setLaneState s e l lDROPPED) (fOPT_LINK_EVENT_COUNT 0) 1
  let s := raise s fOPT_LINK_ERR_LANE_DROP
  if log then postEvent s 0x120 1 0xA (32 * e + l) cause (laneErrs s e l) else s

/-! ### Changed ports -/

/-- The port carries no lanes until the next discovery (R382). -/
def isMarked (s : State) (p : Nat) : Bool := decide (pMISCABLED ≤ getF s (fOPT_PORT_PSTATE p))

/-- The lane bytes of a port under a map table (R208); without a table every lane is unused. -/
def mapBytes (s : State) (m : Option Nat) (p : Nat) : List Nat :=
  match m with
  | none => List.replicate 32 0x7F
  | some m => (List.range 32).map fun l => ((s.phases.tables[m]?).getD []).getD (32 * p + l) 0x7F

/-- The lane bytes and the targets that a port takes under a map table and the route tables in force. -/
def newLanes (s : State) (m : Option Nat) (p : Nat) : List (Nat × Option (Nat × Nat)) :=
  let b := mapBytes s m p
  b.zip (portTargets s (portRole s p) b)

/-- Does a lane's physical line or its state of being in use change? A lane that only goes dark needs no retune (R387). -/
def laneChanges (old : LaneRt) (n : Nat × Option (Nat × Nat)) : Bool :=
  ((old.byte % 128 == 0x7F) != (n.1 % 128 == 0x7F)) ||
  (match n.2 with | some x => old.tgt.map (·.2) != some x.2 | none => false)

/-- The changed lanes of a port. -/
def changedLanes (s : State) (m : Option Nat) (p : Nat) : List Nat :=
  ((newLanes s m p).zipIdx.filter fun x => laneChanges (laneRt s p x.2) x.1).map (·.2)

/-- The ports that a redraw changes; a marked port carries no lanes, and a port in a swap redraws with its swap (R379). -/
def changedPorts (s : State) (m : Option Nat) : List Nat :=
  (List.range 16).filter fun p => !isMarked s p && !inSwap s p && !(changedLanes s m p).isEmpty

/-- Give a lane its new byte and line. A changed lane moves (LOCKING), an unused one is OFF, a dark one DARK; an unchanged
lane keeps its state, but for an UNPAIRED one in a redraw of its port (`again`), whose retries start afresh (R378). -/
def tuneLane (s : State) (p l : Nat) (n : Nat × Option (Nat × Nat)) (locking : Nat) (again : Bool) : State :=
  let old := laneRt s p l
  let ch := laneChanges old n || (again && laneState s p l == lUNPAIRED)
  let base := if ch then { old.uncheck with outAt := some s.now } else old
  let s := setLane s p l { base with byte := n.1, tgt := n.2, moved := ch && n.2.isSome,
                                     holdFrom := if ch then none else old.holdFrom
                                     txPart := if ch then [] else old.txPart
                                     txUnits := if ch then [] else old.txUnits
                                     sinceHead := if ch then 0 else old.sinceHead }
  let s := match n.2 with | some x => setF s (fOPT_LANE_LINE p l) x.2 | none => s
  if n.1 % 128 = 0x7F then setLaneState s p l lOFF
  else if n.2.isNone then setLaneState s p l lDARK
  else if ch then setLaneState s p l locking
  else s

/-- Give every lane of a port its new byte and line. -/
def tunePort (s : State) (m : Option Nat) (p locking : Nat) (again : Bool) : State :=
  (newLanes s m p).zipIdx.foldl (fun s x => tuneLane s p x.2 x.1 locking again) s

/-- A lane sends its identity unit, which starts the lane check at its far end (R376, R452). The spec gives the unit's body no layout: it
holds the module's serial number (assumption log 90). -/
def sendIdentity (s : State) (e l : Nat) : State := sendUnit s e l 3 0 (toBytes 8 (getF s fOPT_SERIAL_SERIAL))

/-- Every lane of an engine that stands in its check and holds lock sends its identity unit. -/
def sendIdentities (s : State) (e : Nat) : State :=
  (List.range 32).foldl (fun s l => if laneState s e l = lCHECK ∧ ringLocked s e l = true then sendIdentity s e l else s) s

/-- The units sent on a port and not acknowledged by the far end's link layer are held, and go out again on lanes of other
ports (R376, R452). -/
def holdPort (s : State) (p : Nat) : State :=
  let f : TxUnit → TxUnit := fun u => if u.port = p then { u with sentAt := none } else u
  sendAllHeld { s with fab := { s.fab with hops := s.fab.hops.map fun h => (h.1, { h.2 with tx := h.2.tx.map f }) } }

/-! ### Phases (R210) -/

/-- Let every GWAIT on a barrier that has closed complete. -/
def releaseGwaits (s : State) (b : Nat) : State :=
  s.tiles.foldl (fun s p => match p.2.msg.gw with
    | some g => if g.bar = b ∧ g.closed.isSome then
        s.onTile p.1 fun x => { x with msg := { x.msg with gw := some { g with go := true } } } else s
    | none => s) s

/-- Enter phase q at this instant, from phase p: its start, the current phase, the trace record, the dies that rejoin, and
the GWAITs on the barrier of p. -/
def enterPhase (s : State) (p q : Nat) : State :=
  let s := setFs s [(fCMP_PHASE_START_START q, s.now), (fCMP_PHASE_CUR, q)]
  let s := postTrace s 0 q (getF s (fCMP_PHASE_LAST_NS p) + p * 2 ^ 32) (getF s (fCMP_PHASE_COUNT_COUNT p))
  releaseGwaits (rejoinDies s) (((s.phases.entries[p]?).map (·.barrier)).getD 0)

/-! ### Route tables (R386, R388) -/

/-- The staged entries. -/
def stagedRow (s : State) (x : Nat) : Option Nat := if bitF s (fOPT_ROWSUB_V x) then some (getF s (fOPT_ROWSUB_COL x)) else none
def stagedCol (s : State) (y : Nat) : Option Nat := if bitF s (fOPT_COLSUB_V y) then some (getF s (fOPT_COLSUB_ROW y)) else none
def stagedDead (s : State) (r c : Nat) : Bool := bit (getF s (fOPT_DEAD_DEAD ((65 * r + c) / 32))) ((65 * r + c) % 32)

/-- The staged tables break a rule of R388. -/
def substBad (s : State) : Bool :=
  (List.range 64).any (fun x => match stagedRow s x with
    | none => false
    | some y => !activeRow s x || !activeCol s y || stagedCol s y == some x || stagedDead s x 64) ||
  (List.range 64).any (fun y => match stagedCol s y with
    | none => false
    | some x => !activeRow s x || !activeCol s y || stagedDead s 64 y) ||
  (List.range 65).any (fun r => (List.range 65).any fun c => stagedDead s r c &&
    ((r != 64 && !activeRow s r) || (c != 64 && !activeCol s c)))

/-- The twin's logical position (R366). -/
def twinPos (p : Nat) : Nat := posOf (63 - posRow p) (posCol p)

/-- Is the logical position an active one? -/
def isActive (s : State) (p : Nat) : Bool := activeRow s (posRow p) && activeCol s (posCol p)

/-- VIA_FABRIC (R385): the module has a twin, and one of the two is moved or the twin state is not OK. -/
def viaFabric (s : State) : Bool :=
  discovered s && isActive s (ownLog s) &&
  !(ownLog s == ownPhys s && physOf s (twinPos (ownLog s)) == twinPos (ownLog s) && getF s fOPT_TWIN_TSTATE == 1)

/-- SPARE, SUBST, the logical position and VIA_FABRIC under the active tables (R364, R366, R386). -/
def placeModule (s : State) : State :=
  if !discovered s then s else
  let r := getF s fOPT_POS_ROW
  let c := getF s fOPT_POS_COL
  let (sub, lr, lc) :=
    if c = 64 ∧ r < 64 then match rowSub s r with | some y => (1, r, y) | none => (0, r, c)
    else if r = 64 ∧ c < 64 then match colSub s c with | some x => (1, x, c) | none => (0, r, c)
    else (0, r, c)
  let s := setFs s [(fOPT_FAB_STATUS_SPARE, (r == 64 || c == 64).toNat), (fOPT_FAB_STATUS_SUBST, sub),
    (fOPT_POS_LROW, lr), (fOPT_POS_LCOL, lc)]
  setF s fOPT_TWIN_VIA_FABRIC (viaFabric s).toNat

/-- The staged tables become the active ones. -/
def takeTables (s : State) : State :=
  let rows := (List.range 64).foldl (fun m x => mset (fun _ => none) m x (stagedRow s x)) []
  let cols := (List.range 64).foldl (fun m y => mset (fun _ => none) m y (stagedCol s y)) []
  let dead := (List.range 133).foldl (fun m w => mset (fun _ => 0) m w (getF s (fOPT_DEAD_DEAD w))) []
  let s := { s with fab := { s.fab with rowSub := rows, colSub := cols, dead := dead, staged := none } }
  placeModule (setF s fOPT_FAB_STATUS_PENDING 0)

/-! ### The redraw -/

/-- The instant after which a port's LATE_PEER lanes are unpaired (R378); 0 while it redraws or its source is swapped. -/
def setUnpaired (s : State) (p t : Nat) : State :=
  { s with fab := { s.fab with unpairedAt := mset (fun _ => 0) s.fab.unpairedAt p t } }

/-- Ports begin their drain: the endpoint starts no new packet on them. -/
def drainPorts (s : State) (l : List Nat) : State :=
  l.foldl (fun s p => setUnpaired (setF s (fOPT_PORT_PSTATE p) pDRAINING) p 0) s

/-- Lanes whose rings have not moved yet in the redraw of a port stand again where they stood before it. -/
def unretune (s : State) (p : Nat) : State :=
  (List.range 32).foldl (fun s l => if laneState s p l = lRETUNE then setLaneState s p l (laneRt s p l).prior else s) s

/-- The redraw has ended: its duration, which CMP_REDRAW_LAST holds where a phase boundary began it (R238), its trace record; a redraw
that enters no phase is over. -/
def redrawEnded (s : State) (r : Redraw) : State :=
  let bm := fun (l : List Nat) => l.foldl (fun a p => setBit a p) 0
  let s := if r.enter.isSome then setF s fCMP_REDRAW_LAST_NS (min fCMP_REDRAW_LAST_NS.top (s.now - r.start)) else s
  let s := postTrace s 1 (bm r.changed) (s.now - r.start) (bm r.second)
  let keep : Option Redraw := if r.enter.isSome then some { r with running := [], wave1 := [], wave2 := [] } else none
  { s with fab := { s.fab with redraw := keep } }

/-- Draw map m: unchanged ports take their bytes at once; changed ports form one wave, or two when more than 8 change
(R377). With no changed port the redraw is over, and `enter` is not awaited. A redraw that still runs, under a map that an image load replaces,
gives way to it: its ports that have not returned run their steps again with the changed ones (DESIGN CHOICE, assumption log 92). -/
def beginRedraw (s : State) (m enter : Option Nat) : State :=
  let again := ((s.fab.redraw.map (·.running)).getD []).map (·.1)
  let s := again.foldl unretune s
  let ch := (List.range 16).filter fun p => again.contains p || (changedPorts s m).contains p
  let quietPorts := (List.range 16).filter fun p => !isMarked s p && !inSwap s p && !ch.contains p
  let s := quietPorts.foldl (fun s p => tunePort s m p lLOCKING false) s
  let s := { s with fab := { s.fab with map := m, mapBad := false } }
  if ch.isEmpty then sendAllHeld { s with fab := { s.fab with redraw := none } }
  else
    let run := (ch.take 8).map fun p => (p, s.now, PortStep.drain)
    let r : Redraw := ⟨s.now, m, enter, ch, ch.drop 8, ch.take 8, ch.drop 8, none, run⟩
    let s := { s with fab := { s.fab with redraw := some r } }
    drainPorts (addF s (fOPT_FAB_EVENT_COUNT 0) 1) (ch.take 8)

/-- New route tables during a redraw: ports that they change and that have not retuned yet take them at their retune; the
others join wave 2. -/
def extendRedraw (s : State) (r : Redraw) : State :=
  let busy := r.wave2 ++ (r.running.filter fun x => x.2.2 == .drain || x.2.2 == .retune).map (·.1)
  let more := (changedPorts s r.map).filter fun p => !busy.contains p
  let r : Redraw := { r with changed := r.changed ++ more.filter (fun p => !r.changed.contains p),
                             second := r.second ++ more, wave2 := r.wave2 ++ more }
  { s with fab := { s.fab with redraw := some r } }

/-- Is a closure of barrier b one that R210 acts on: of the current phase, or during a redraw of the phase to be entered? -/
def isPhaseBarrier (s : State) (b : Nat) : Bool :=
  bitF s fCMP_PHASE_VALID &&
  (match s.fab.redraw.bind (·.enter) with
   | some q => (s.phases.entries[q]?).map (·.barrier) == some b
   | none => (curPhase s).map (·.barrier) == some b)

/-- The Gauge barrier of the current phase has closed (R210); a boundary that redraws no port leaves 0 in CMP_REDRAW_LAST (R238). -/
def phaseBoundary (s : State) : State :=
  let p := getF s fCMP_PHASE_CUR
  match s.phases.entries[p]? with
  | none => s
  | some e =>
    let last := s.now - getF s (fCMP_PHASE_START_START p)
    let s := setF s (fCMP_PHASE_LAST_NS p) (min (fCMP_PHASE_LAST_NS p).top last)
    let s := addF s (fCMP_PHASE_COUNT_COUNT p) 1
    let c := getF s (fCMP_PHASE_COUNT_COUNT p)
    let q := if e.every ≠ 0 ∧ c % e.every = 0 then e.alt else e.next
    let m := (s.phases.entries[q]?).map (·.map)
    let due : SMap LaserSrc := s.fab.lasers.map fun x => (x.1, { x.2 with due := x.2.due || x.2.fadingAt.isSome })
    let s := { s with fab := { s.fab with lasers := due } }
    let apply := match s.fab.staged with | some g => g.phase == p && g.count == c | none => false
    let s := if apply then takeTables s else s
    let quiet (s : State) : State := enterPhase (setF s fCMP_REDRAW_LAST_NS 0) p q
    if m = some e.map ∧ !apply then quiet s
    else
      let s := beginRedraw s m (some q)
      if s.fab.redraw.isSome then s else quiet s

/-- R210 acts on the closures held during a redraw, oldest first, once it has ended (R379), until one of them begins another. A closure that is
of no phase barrier any more lets its GWAITs complete. -/
def releaseHeld : Nat → State → State
  | 0, s => s
  | f + 1, s =>
    match s.fab.redraw, s.mail.heldClose with
    | none, h :: rest =>
      let s := { s with mail := { s.mail with heldClose := rest } }
      releaseHeld f (if isPhaseBarrier s h.1 then phaseBoundary s else releaseGwaits s h.1)
    | _, _ => s

/-- The last port of a redraw has returned: the redraw ends, and where it enters no phase the closures held meanwhile act at once (R379). -/
def redrawOver (s : State) (r : Redraw) : State :=
  let s := redrawEnded s r
  releaseHeld s.mail.heldClose.length s

end Sys2Proof.Machine
end

