-- ==== Sys2Proof/Machine/MatrixOps.lean ====
section
/-!
DEFINITION. The arithmetic of the matrix unit (spec 04): operands in squares, chunk terms, the 16-bit partial format,
the compensated add step, folds, the lapse event and accumulator images.
-/
namespace Sys2Proof.Machine

/-! ### Exact values with the special cases of IEEE 754 (R149) -/

def Val.add (a b : Val) : Val :=
  match a, b with
  | .nan, _ => .nan
  | _, .nan => .nan
  | .inf x, .inf y => if x = y then .inf x else .nan
  | .inf x, _ => .inf x
  | _, .inf y => .inf y
  | .fin n m e, .fin n' m' e' =>
    let p := dyAdd (signed n m, e) (signed n' m', e')
    .fin (decide (p.1 < 0)) p.1.natAbs p.2

def Val.mul (a b : Val) : Val :=
  match a, b with
  | .nan, _ => .nan
  | _, .nan => .nan
  | .inf x, .inf y => .inf (x != y)
  | .inf x, .fin n m _ => if m = 0 then .nan else .inf (x != n)
  | .fin n m _, .inf y => if m = 0 then .nan else .inf (n != y)
  | .fin n m e, .fin n' m' e' => .fin (n != n') (m * m') (e + e')

/-- Is the value a NaN or an infinity? -/
def Val.special : Val → Bool
  | .fin _ _ _ => false
  | _ => true

/-- The FP32 pattern of an exact value under R59 to R61. -/
def rn32v (v : Val) : Nat := (toPlain .f32 v).bits

/-- The value of an FP32 pattern. -/
def f32v (w : Nat) : Val := decodeElem .f32 w

/-- Is the FP32 pattern a NaN or an infinity? -/
def f32special (w : Nat) : Bool := (f32v w).special

/-! ### Compensated accumulation (R151 to R153) -/

/-- plus0 of R151: −0 becomes +0. -/
def plus0 (w : Nat) : Nat := if w = 0x80000000 then 0 else w

/-- The difference of two finite exact values. -/
def Val.sub (a b : Val) : Val := a.add (b.mul (.fin true 1 0))

/-- add_step of R151. -/
def addStep (p : Nat × Nat) (x : Nat) : Nat × Nat :=
  let sum := (f32v p.1).add (f32v x)
  let t := rn32v sum
  if f32special t then (t, 0) else
  let e := sum.sub (f32v t)
  let cc := rn32v ((f32v p.2).add e)
  let tot := (f32v t).add (f32v cc)
  let sNew := rn32v tot
  if f32special sNew then (sNew, 0) else (plus0 sNew, plus0 (rn32v (tot.sub (f32v sNew))))

/-- A term enters an element's level-one pair. -/
def AccElem.term (a : AccElem) (x : Nat) : AccElem :=
  let p := addStep (a.s1, a.c1) x
  { a with s1 := p.1, c1 := p.2 }

/-- fold of R152. -/
def AccElem.fold (a : AccElem) : AccElem :=
  let p := addStep (addStep (a.s2, a.c2) a.s1) a.c1
  ⟨0, 0, p.1, p.2⟩

/-- acc_value of R153, as an FP32 pattern. -/
def AccElem.value (a : AccElem) : Nat := (addStep (addStep (a.s2, a.c2) a.s1) a.c1).1

/-- An element holds a ±∞ or a NaN (TILE_ACCn_STATUS.NONFIN). -/
def AccElem.special (a : AccElem) : Bool := f32special a.s1 || f32special a.s2

/-! ### Accumulator tiles -/

/-- Accumulator tile a0 or a1. -/
def Tile.acc (x : Tile) (n : Nat) : Acc := if n = 0 then x.mat.a0 else x.mat.a1

def Tile.setAcc (x : Tile) (n : Nat) (a : Acc) : Tile :=
  if n = 0 then { x with mat := { x.mat with a0 := a } } else { x with mat := { x.mat with a1 := a } }

/-- The element (m, n). -/
def Acc.elem (a : Acc) (m n : Nat) : AccElem := mget (fun _ => AccElem.zero) a.elems (128 * m + n)

/-- Apply f to the elements k, k+1, … of a sparse tile; the first argument counts them. -/
def sweep (f : Nat → AccElem → AccElem) : Nat → Nat → SMap AccElem → SMap AccElem
  | 0, _, l => l
  | c + 1, k, [] =>
    let v := f k .zero
    if v = .zero then sweep f c (k + 1) [] else (k, v) :: sweep f c (k + 1) []
  | c + 1, k, (j, w) :: r =>
    if j = k then
      let v := f k w
      if v = .zero then sweep f c (k + 1) r else (k, v) :: sweep f c (k + 1) r
    else
      let v := f k .zero
      if v = .zero then sweep f c (k + 1) ((j, w) :: r) else (k, v) :: sweep f c (k + 1) ((j, w) :: r)

/-- Apply f to every element of a tile; NONFIN is set where an element becomes ±∞ or NaN. -/
def Acc.map (a : Acc) (f : Nat → AccElem → AccElem) : Acc :=
  let es := sweep f 16384 0 a.elems
  let became := es.any fun p => p.2.special && !(mget (fun _ => AccElem.zero) a.elems p.1).special
  { a with elems := es, nonfin := a.nonfin || became }

/-- An uncorrectable word stands among the elements of accumulator tile a that `p` selects (R170). -/
def accBad (x : Tile) (a : Nat) (p : Nat → Bool) : Bool :=
  x.regBad.any fun w => match w with | .acc n k => n.val == a && p k.val | _ => false

/-- Every element of accumulator tile a is written, so that its words hold no error any more. -/
def healAcc (x : Tile) (a : Nat) : Tile :=
  if x.regBad.isEmpty then x
  else { x with regBad := x.regBad.filter fun w => match w with | .acc n _ => n.val != a | _ => true }

/-- Accumulator tile a is replaced. -/
def Tile.putAcc (x : Tile) (n : Nat) (a : Acc) : Tile := (healAcc x n).setAcc n a

/-- A clear of the whole tile (R142, R163): its chain stays. -/
def Acc.clear (a : Acc) : Acc := { Acc.zero with chain := a.chain }

/-- The fold of a tile (R152). -/
def Acc.fold (a : Acc) : Acc :=
  { a.map fun _ x => x.fold with l1 := 0, l2 := min (a.l2 + 1) (2 ^ 20), folded := true }

/-- The tile awaits verification (R166). -/
def Acc.unverified (a : Acc) : Bool := !a.chain.isEmpty

/-! ### Operands (R138, R139, R148 to R150) -/

/-- D of R135: products of one chunk. -/
def MMOp.d (op : MMOp) : Nat :=
  let w := max (widthClass op.fa) (widthClass op.fb)
  (if w = 16 then 1 else if w = 8 then 2 else 4) * (if op.a16 then 2 else 1)

/-- The chunk steps that a product counts (R150). -/
def MMOp.steps (op : MMOp) : Nat := if op.a16 then (op.kLen + 127) / 128 else op.kLen / op.d

/-- The byte ranges of square (i, j) of a stored operand with C columns: its elements, and its scales where the format has them (R138). -/
def squareRanges (off soff fmt cols i j : Nat) : List (Nat × Nat) :=
  let sq := i * (cols / 32) + j
  (off + sq * (128 * fmtBits fmt), 128 * fmtBits fmt) ::
    (if fmt ≤ 4 then [] else [(soff + sq * (1024 / fmtBlock fmt), 1024 / fmtBlock fmt)])

/-- What the array reads for the 32 values of k of step `kk` (R140): the squares of B, and those of A outside the slabs that are
skipped (R165). -/
def MMOp.kRanges (op : MMOp) (skip : List Bool) (kk : Nat) : List (Nat × Nat) :=
  (((List.range (op.m / 32)).filter fun r => !skip.getD (r / 2 * (op.kLen / 32) + kk) false).flatMap fun r =>
    if op.ta then squareRanges op.aOff op.aScale op.fa op.m kk r else squareRanges op.aOff op.aScale op.fa op.kLen r kk) ++
  (List.range (op.n / 32)).flatMap fun r =>
    if op.tb then squareRanges op.bOff op.bScale op.fb op.n kk r else squareRanges op.bOff op.bScale op.fb op.kLen r kk

/-- What chunk step i reads of the operand cache: the squares of its values of k (R138, R140, R157). -/
def MMOp.stepRanges (op : MMOp) (skip : List Bool) (i : Nat) : List (Nat × Nat) :=
  if op.a16 then ((List.range 4).filter fun j => decide (4 * i + j < op.kLen / 32)).flatMap fun j => op.kRanges skip (4 * i + j)
  else op.kRanges skip (op.d * i / 32)

/-- An element of a stored operand with C columns (R138), with its scale byte (127 where the format has no scales, R144). -/
def sqElem (x : Tile) (off soff fmt cols i j : Nat) : Val × Nat :=
  let sq := i / 32 * (cols / 32) + j / 32
  let e := 32 * (i % 32) + j % 32
  let b := fmtBits fmt
  let p := off + sq * (128 * b) + e * b / 8
  let raw := ofBytes (ocBytes x p (if b = 16 then 2 else 1))
  let w := if b = 4 then raw / 2 ^ (4 * (e % 2)) % 16 else raw
  match fmtOf fmt with
  | none => (.nan, 127)
  | some f =>
    let v := match decodeElem f.elem w with
      | .fin n m q => if (f.elem = .bf16 ∨ f.elem = .f16) ∧ m < 2 ^ f.elem.fracBits then .fin n 0 q else .fin n m q
      | v => v
    let sc := match f.block with
      | 32 => (mget memDefault x.oc (soff + sq * 32 + i % 32)).toNat
      | 16 => (mget memDefault x.oc (soff + sq * 64 + 2 * (i % 32) + j % 32 / 16)).toNat
      | _ => 127
    (v, sc)

/-- A(m, k) (R139). -/
def MMOp.aAt (op : MMOp) (x : Tile) (m k : Nat) : Val × Nat :=
  if op.ta then sqElem x op.aOff op.aScale op.fa op.m k m else sqElem x op.aOff op.aScale op.fa op.kLen m k

/-- B(k, n) (R139). -/
def MMOp.bAt (op : MMOp) (x : Tile) (k n : Nat) : Val × Nat :=
  if op.tb then sqElem x op.bOff op.bScale op.fb op.n k n else sqElem x op.bOff op.bScale op.fb op.kLen n k

/-- The value of an element with its scale (R53). -/
def withScale (p : Val × Nat) : Val := if p.2 = 0xFF then .nan else p.1.scale ((p.2 : Int) - 127)

/-- The term of R148 from the D pairs of a chunk. -/
def term32 (l : List ((Val × Nat) × (Val × Nat))) : Nat :=
  rn32v (l.foldl (fun a p => a.add ((withScale p.1).mul (withScale p.2))) (.fin false 0 0))

/-- Rounding into the 16-bit partial format (R156), and whether it overflowed. -/
def rn16p (v : Val) : Val × Bool :=
  match v with
  | .fin n m e =>
    if m = 0 then (.fin n 0 0, false) else
    let q := max (expOf m e - 9) (-39)
    let c := rneScale m (e - q)
    if c ≠ 0 ∧ 32 ≤ (Nat.log2 c : Int) + q then (.inf n, true) else (.fin n c q, false)
  | v => (v, false)

/-- One level of the balanced tree of R157. -/
def treeLevel : List (Val × Bool) → List (Val × Bool)
  | a :: b :: r =>
    let v := rn16p (a.1.add b.1)
    (v.1, v.2 || a.2 || b.2) :: treeLevel r
  | l => l

/-- fold16 of R157: the term, and whether a leaf or node overflowed. A pair that is `zeroed` is a product of a skipped slab. -/
def term16 (l : List ((Val × Nat) × (Val × Nat) × Bool)) : Nat × Bool :=
  let r := l.foldl (fun a p => max a (p.1.2 + p.2.1.2)) 0
  let leaves := l.map fun p =>
    if p.2.2 then (Val.fin false 0 0, false)
    else if p.1.2 = 0xFF ∨ p.2.1.2 = 0xFF then (Val.nan, false)
    else rn16p ((p.1.1.mul p.2.1.1).scale ((p.1.2 + p.2.1.2 : Nat) - (r : Int)))
  let leaves := leaves ++ List.replicate (128 - leaves.length) (Val.fin false 0 0, false)
  let top := (List.range 7).foldl (fun l _ => treeLevel l) leaves
  match top.head? with
  | some (f, o) => (rn32v (f.scale ((r : Int) - 254)), o)
  | none => (0, false)

/-- The slab of an element row and a value of k was skipped (R165). -/
def skipped (op : MMOp) (skip : List Bool) (m k : Nat) : Bool := skip.getD (m / 64 * (op.kLen / 32) + k / 32) false

/-- The term of chunk step i for element (m, n): none where every product lies in a skipped slab (R165). The flag says
that a 16-bit leaf or node overflowed. -/
def stepTerm (x : Tile) (op : MMOp) (skip : List Bool) (i m n : Nat) : Option (Nat × Bool) :=
  if op.a16 then
    let ks := (List.range (min 128 (op.kLen - 128 * i))).map (128 * i + ·)
    if ks.all fun k => skipped op skip m k then none
    else some (term16 (ks.map fun k => (op.aAt x m k, op.bAt x k n, skipped op skip m k)))
  else
    let k0 := op.d * i
    if skipped op skip m k0 then none
    else some (term32 ((List.range op.d).map fun j => (op.aAt x m (k0 + j), op.bAt x (k0 + j) n)), false)

/-! ### The lapse event (R154) -/

/-- BOUND_LAPSED of tile t's accumulator `acc`, for the instruction at pc. The log record names the compute range 5 as its SOURCE
(DESIGN CHOICE, assumption log 80). -/
def lapse (s : State) (t acc pc info : Nat) : State :=
  let s := s.onTile t fun x => x.setAcc acc { x.acc acc with lapsed := true }
  let s := setLeaf s 4 0
  let s := postEvent s 0x20 1 5 t acc 0
  if bitF s (fTILE_MAT_CTL_LAPSE_TRAP t) then trap s t 1 cBOUND_LAPSED pc info else s

/-- One chunk step of a product into its tile, for every element of M × N (R148 to R151), with the lapse event. -/
def chunkStep (s : State) (t : Nat) (op : MMOp) (skip : List Bool) (i pc : Nat) : State :=
  let x := s.tile t
  let a := x.acc op.acc
  let termOf (key : Nat) : Option (Nat × Bool) :=
    if key / 128 < op.m ∧ key % 128 < op.n then stepTerm x op skip i (key / 128) (key % 128) else none
  let ovf := op.a16 && (List.range 16384).any fun k => match termOf k with | some (_, o) => o | none => false
  let b := a.map fun k e => match termOf k with | some (v, _) => e.term v | none => e
  let s := s.setTile t (x.setAcc op.acc { b with l1 := a.l1 + 1, ovf16 := a.ovf16 || ovf })
  if a.l2 = 2 ^ 20 ∧ !a.lapsed then lapse s t op.acc pc op.acc else s

/-- The fold that is due when a term has brought L1 to 2^20 (R152). -/
def foldDue (s : State) (t acc : Nat) : State :=
  let x := s.tile t
  if (x.acc acc).l1 = 2 ^ 20 then s.setTile t (x.setAcc acc (x.acc acc).fold) else s

/-- A whole product without skipping, from step i on; the first argument counts the steps left (R269). An uncorrectable word of an
operand that a step reads ends it. -/
def wholeProduct : Nat → State → Nat → MMOp → Nat → Nat → State
  | 0, s, _, _, _, _ => s
  | c + 1, s, t, op, i, pc =>
    match ocUe (s.tile t) (op.stepRanges [] i) with
    | some o => trapSram s t 1 pc o
    | none => wholeProduct c (foldDue (chunkStep s t op [] i pc) t op.acc) t op (i + 1) pc

/-! ### Accumulator images (R146, R147, R160) -/

/-- Bytes of an accumulator image. -/
def imageBytes : Nat := 262208

/-- The sticky bits in the positions of TILE_ACC0_STATUS. -/
def Acc.sticky (a : Acc) : Nat := a.folded.toNat + 2 * a.lapsed.toNat + 4 * a.nonfin.toNat + 8 * a.ovf16.toNat

/-- The 16 bytes of element k. -/
def elemBytes (e : AccElem) : List Byte := toBytes 4 e.s1 ++ toBytes 4 e.c1 ++ toBytes 4 e.s2 ++ toBytes 4 e.c2

/-- The elements k, k+1, … of a sparse tile, dense; the first argument counts them. -/
def denseElems : Nat → Nat → SMap AccElem → List AccElem
  | 0, _, _ => []
  | c + 1, k, [] => .zero :: denseElems c (k + 1) []
  | c + 1, k, (j, w) :: r => if j = k then w :: denseElems c (k + 1) r else .zero :: denseElems c (k + 1) ((j, w) :: r)

/-- The image of a tile. -/
def Acc.image (a : Acc) : List Byte :=
  toBytes 8 (a.l1 + a.l2 * 2 ^ 20) ++ toBytes 4 a.sticky ++ List.replicate 52 0 ++
  ((denseElems 16384 0 a.elems).map elemBytes).flatten

/-- Read elements from consecutive 16-byte groups. -/
def readElems : Nat → Nat → List Byte → SMap AccElem
  | 0, _, _ => []
  | c + 1, k, b =>
    let e : AccElem := ⟨leAt b 0 4, leAt b 4 4, leAt b 8 4, leAt b 12 4⟩
    if e = .zero then readElems c (k + 1) (b.drop 16) else (k, e) :: readElems c (k + 1) (b.drop 16)

/-- The tile that an image holds. -/
def accOfImage (b : List Byte) : Acc :=
  let w := leAt b 0 8
  let st := leAt b 8 4
  { elems := readElems 16384 0 (b.drop 64), l1 := w % 2 ^ 20, l2 := bits w 40 20, folded := bit st 0, lapsed := bit st 1,
    nonfin := bit st 2, ovf16 := bit st 3, chain := [] }

/-- The checks of R147. -/
def imageBad (b : List Byte) : Bool :=
  let w := leAt b 0 8
  decide (2 ^ 20 < bits w 40 20) || bits w 63 41 != 0 || leAt b 8 4 / 16 != 0 || (slice b 12 52).any (· != 0)

/-- MMERGE of an image into a tile (R160): four terms to each element, each a term of R150, with the fold where L1
reaches 2^20. -/
def mergeAcc (a img : Acc) : Acc :=
  let pick (i : Nat) (e : AccElem) : Nat := match i with | 0 => e.s2 | 1 => e.c2 | 2 => e.s1 | _ => e.c1
  let oneTerm (a : Acc) (i : Nat) : Acc :=
    let b := a.map fun k e => e.term (pick i (mget (fun _ => AccElem.zero) img.elems k))
    let b := { b with l1 := b.l1 + 1 }
    if b.l1 = 2 ^ 20 then b.fold else b
  let r := (List.range 4).foldl oneTerm a
  { r with nonfin := r.nonfin || img.nonfin, ovf16 := r.ovf16 || img.ovf16 }

/-- Terms that a tile has received since its last clear, by its counters. -/
def Acc.terms (a : Acc) : Nat := a.l2 * 2 ^ 20 + a.l1

end Sys2Proof.Machine
end

