-- ==== Sys2Proof/Machine/Convert.lean ====
section
/-!
DEFINITION. Blocks of 32 elements in memory: what the bytes of a block mean in each storage format (spec 02 R52 to R58) and
the bytes that a block fixed point block becomes (R68 to R76), for the vector engine, the stream engine and the update
engines.
-/
namespace Sys2Proof.Machine

/-- Bytes of the elements of one 32-element block (R54, R58, R183). -/
def runBytes (fmt : Nat) : Nat := 4 * fmtBits fmt

/-- Scale or exponent bytes of one 32-element block: 0 for a plain format, 2 for block length 16, else 1 (R54, R58). -/
def scaleBytes (fmt : Nat) : Nat :=
  match fmtBlock fmt with
  | 0 => 0
  | 16 => 2
  | _ => 1

/-- A 32-bit pattern as a signed mantissa. -/
def sgn32 (w : Nat) : Int := sx 32 w

/-- The 32-bit pattern of a mantissa. -/
def pat32 (m : Int) : Nat := (BitVec.ofInt 32 m).toNat

/-- A BFX block in memory: 32 little-endian mantissas and an exponent (R55, R56, R58). -/
def bfxOf (b : List Byte) (e : Nat) : Blk :=
  if e = 255 then .nonfinite else ⟨e, (List.range 32).map fun i => sgn32 (leAt b (4 * i) 4)⟩

/-- The 128 mantissa bytes of a block; those of a non-finite block are 0 (R56). -/
def bfxBytes (b : Blk) : List Byte :=
  ((List.range 32).map fun i => toBytes 4 (if b.e = 255 then 0 else pat32 (b.m.getD i 0))).flatten

/-- The exact values of a block's 32 elements (R50 to R56, R65). -/
def blockVals (fmt : Nat) (b sc : List Byte) : List Val :=
  match fmtOf fmt with
  | none => let k := bfxOf b (leAt sc 0 1); (List.range 32).map k.val
  | some f =>
    let w := f.elem.bits
    (List.range 32).map fun i =>
      let raw := if w = 4 then leAt b (i / 2) 1 / 2 ^ (4 * (i % 2)) % 16 else leAt b (i * w / 8) (w / 8)
      match f.block with
      | 0 => decodeElem f.elem raw
      | n => scaledVal f.elem raw (leAt sc (i / n) 1)

/-- The BFX block made from the bytes of a block, with the SAT flag of R64: BFX is taken as it stands (R185, R264). -/
def blockBfx (fmt : Nat) (b sc : List Byte) : Blk × Bool :=
  if fmt = 13 then (bfxOf b (leAt sc 0 1), false) else toBfx (blockVals fmt b sc)

/-- What storing one 32-element block writes: element bytes, scale bytes, history bytes, the flags of R64, and the outcome
of each predicted conversion (R76: 0 re-emission, 1 coarse, 2 exact). -/
structure Emit where
  run : List Byte
  scales : List Byte
  hist : List Byte
  sat : Bool
  nonfin : Bool
  outs : List Nat
deriving DecidableEq, Repr

def PredOutcome.code : PredOutcome → Nat
  | .reemit => 0 | .coarse => 1 | .exact => 2

/-- Values stored in a plain format. -/
def emitPlain (el : Elem) (vs : List Val) : Emit :=
  let cs := vs.map (toPlain el)
  let b := el.bits
  ⟨toBytes (4 * b) (packElems b (cs.map (·.bits))), [], [], cs.any (·.sat), cs.any (·.nonfin), []⟩

/-- One scaled block with an optional prediction: history byte and decay (R70 to R74). -/
def emitOne (el : Elem) (e : Nat) (ms : List Int) (p : Option (Nat × Nat)) : ScaledOut × List Nat × List Nat :=
  match p with
  | none => (toScaled el e ms, [], [])
  | some (h, d) =>
    let r := toScaledPred el e ms h d
    (r.1, [r.2.1], match r.2.2 with | some o => [o.code] | none => [])

/-- A BFX block stored in a format (R68 to R76). `hist` holds the old history bytes and the decay of a predicted one. -/
def emitBlk (fmt : Nat) (b : Blk) (hist : Option (List Byte × Nat)) : Emit :=
  match fmtOf fmt with
  | none => ⟨bfxBytes b, toBytes 1 b.e, [], false, b.e == 255, []⟩
  | some f =>
    match f.block with
    | 0 => emitPlain f.elem ((List.range 32).map b.val)
    | n =>
      let parts := (List.range (32 / n)).map fun i =>
        emitOne f.elem b.e ((b.m.drop (i * n)).take n) (hist.map fun p => (leAt p.1 i 1, p.2))
      let el := (parts.map fun p => p.1.elems).flatten
      ⟨toBytes (4 * f.elem.bits) (packElems f.elem.bits el), (parts.map fun p => toBytes 1 p.1.scale).flatten,
        ((parts.map fun p => p.2.1).flatten.map fun h => toBytes 1 h).flatten, parts.any fun p => p.1.sat,
        parts.any fun p => p.1.nonfin, (parts.map fun p => p.2.2).flatten⟩

end Sys2Proof.Machine
end

