-- ==== Sys2Proof/Machine/SeedTables.lean ====
section
/-!
DEFINITION. The seed tables of spec 05 R191. The entries of rcp_t are computed from their formula; those of rsq_t, exp_t and
log_t are the reals of the rule, rounded once under rne, written out.
-/
namespace Sys2Proof.Machine

/-- rcp_t[j] = rne(2^39 / (513 + 2j)) (R191). The divisor is odd, so no tie occurs. -/
def rcpT (j : Nat) : Nat := (2 * 2 ^ 39 / (513 + 2 * j) + 1) / 2

def rsqTPart0 : List Nat := [1071650796, 1067505129, 1063407206, 1059356116, 1055350975, 1051390920, 1047475111, 1043602731, 1039772984, 1035985091, 1032238298, 1028531865, 1024865073, 1021237220, 1017647623, 1014095614]
def rsqTPart1 : List Nat := [1010580540, 1007101767, 1003658674, 1000250655, 996877119, 993537488, 990231198, 986957697, 983716448, 980506924, 977328611, 974181007, 971063620, 967975969, 964917586, 961888010]
def rsqTPart2 : List Nat := [958886792, 955913492, 952967681, 950048937, 947156848, 944291011, 941451032, 938636523, 935847107, 933082412, 930342076, 927625743, 924933065, 922263700, 919617314, 916993578]
def rsqTPart3 : List Nat := [914392173, 911812782, 909255098, 906718816, 904203641, 901709282, 899235452, 896781872, 894348266, 891934367, 889539908, 887164630, 884808279, 882470604, 880151361, 877850307]
def rsqTPart4 : List Nat := [875567208, 873301830, 871053945, 868823329, 866609763, 864413030, 862232918, 860069218, 857921726, 855790241, 853674563, 851574500, 849489859, 847420453, 845366097, 843326610]
def rsqTPart5 : List Nat := [841301814, 839291532, 837295592, 835313824, 833346062, 831392141, 829451900, 827525180, 825611825, 823711680, 821824594, 819950420, 818089009, 816240218, 814403904, 812579929]
def rsqTPart6 : List Nat := [810768155, 808968445, 807180667, 805404690, 803640384, 801887622, 800146279, 798416231, 796697356, 794989536, 793292651, 791606586, 789931227, 788266459, 786612173, 784968259]
def rsqTPart7 : List Nat := [783334608, 781711115, 780097675, 778494183, 776900539, 775316643, 773742394, 772177696, 770622452, 769076568, 767539950, 766012506, 764494145, 762984777, 761484314, 759992668]
def rsqTPart8 : List Nat := [757771545, 754840116, 751942447, 749077893, 746245831, 743445649, 740676754, 737938568, 735230528, 732552083, 729902700, 727281856, 724689043, 722123764, 719585535, 717073885]
def rsqTPart9 : List Nat := [714588353, 712128489, 709693855, 707284021, 704898571, 702537095, 700199195, 697884480, 695592571, 693323095, 691075688, 688849996, 686645670, 684462372, 682299768, 680157534]
def rsqTPart10 : List Nat := [678035353, 675932912, 673849909, 671786046, 669741030, 667714578, 665706409, 663716251, 661743836, 659788901, 657851191, 655930453, 654026442, 652138916, 650267639, 648412378]
def rsqTPart11 : List Nat := [646572906, 644749001, 642940445, 641147024, 639368526, 637604748, 635855486, 634120543, 632399724, 630692839, 628999701, 627320126, 625653934, 624000948, 622360996, 620733905]
def rsqTPart12 : List Nat := [619119510, 617517646, 615928151, 614350868, 612785640, 611232315, 609690743, 608160777, 606642271, 605135082, 603639073, 602154103, 600680040, 599216749, 597764100, 596321965]
def rsqTPart13 : List Nat := [594890217, 593468733, 592057391, 590656069, 589264652, 587883021, 586511063, 585148667, 583795720, 582452115, 581117744, 579792502, 578476286, 577168993, 575870523, 574580778]
def rsqTPart14 : List Nat := [573299660, 572027073, 570762923, 569507118, 568259565, 567020175, 565788860, 564565531, 563350103, 562142492, 560942613, 559750385, 558565727, 557388559, 556218802, 555056379]
def rsqTPart15 : List Nat := [553901213, 552753230, 551612356, 550478516, 549351640, 548231656, 547118494, 546012085, 544912362, 543819257, 542732704, 541652637, 540578994, 539511710, 538450722, 537395969]

/-- rsq_t[i] = rne(2^30 / sqrt(g_i)) (R191). -/
def rsqT (i : Nat) : Nat :=
  ([rsqTPart0, rsqTPart1, rsqTPart2, rsqTPart3, rsqTPart4, rsqTPart5, rsqTPart6, rsqTPart7,
    rsqTPart8, rsqTPart9, rsqTPart10, rsqTPart11, rsqTPart12, rsqTPart13, rsqTPart14, rsqTPart15].getD (i / 16) []).getD (i % 16) 0

def expTPart0 : List Nat := [537598222, 539055798, 540517327, 541982818, 543452283, 544925731, 546403175, 547884624, 549370090, 550859583, 552353115, 553850696, 555352338, 556858051, 558367846, 559881735]
def expTPart1 : List Nat := [561399728, 562921837, 564448073, 565978447, 567512971, 569051654, 570594510, 572141549, 573692782, 575248221, 576807877, 578371762, 579939887, 581512263, 583088903, 584669817]
def expTPart2 : List Nat := [586255018, 587844516, 589438325, 591036454, 592638916, 594245724, 595856887, 597472419, 599092331, 600716635, 602345343, 603978467, 605616019, 607258010, 608904454, 610555361]
def expTPart3 : List Nat := [612210745, 613870617, 615534989, 617203873, 618877283, 620555229, 622237725, 623924783, 625616415, 627312633, 629013450, 630718878, 632428931, 634143620, 635862957, 637586957]
def expTPart4 : List Nat := [639315630, 641048991, 642787051, 644529823, 646277321, 648029557, 649786543, 651548293, 653314820, 655086136, 656862255, 658643189, 660428952, 662219556, 664015016, 665815343]
def expTPart5 : List Nat := [667620551, 669430654, 671245665, 673065597, 674890463, 676720276, 678555051, 680394800, 682239538, 684089277, 685944031, 687803814, 689668639, 691538521, 693413472, 695293506]
def expTPart6 : List Nat := [697178638, 699068881, 700964249, 702864756, 704770416, 706681242, 708597250, 710518452, 712444863, 714376497, 716313368, 718255490, 720202879, 722155547, 724113509, 726076780]
def expTPart7 : List Nat := [728045374, 730019305, 731998588, 733983238, 735973268, 737968694, 739969530, 741975791, 743987492, 746004646, 748027270, 750055378, 752088984, 754128104, 756172753, 758222945]
def expTPart8 : List Nat := [760278696, 762340021, 764406934, 766479452, 768557588, 770641359, 772730780, 774825866, 776926632, 779033094, 781145267, 783263166, 785386808, 787516208, 789651381, 791792343]
def expTPart9 : List Nat := [793939110, 796091697, 798250121, 800414396, 802584540, 804760567, 806942495, 809130338, 811324113, 813523835, 815729522, 817941189, 820158853, 822382529, 824612234, 826847985]
def expTPart10 : List Nat := [829089797, 831337688, 833591673, 835851769, 838117993, 840390362, 842668891, 844953598, 847244500, 849541613, 851844954, 854154540, 856470387, 858792514, 861120937, 863455673]
def expTPart11 : List Nat := [865796739, 868144152, 870497929, 872858089, 875224647, 877597622, 879977030, 882362890, 884755218, 887154033, 889559352, 891971192, 894389571, 896814507, 899246018, 901684121]
def expTPart12 : List Nat := [904128835, 906580177, 909038165, 911502818, 913974152, 916452188, 918936942, 921428433, 923926678, 926431698, 928943509, 931462130, 933987580, 936519878, 939059041, 941605088]
def expTPart13 : List Nat := [944158038, 946717910, 949284723, 951858495, 954439245, 957026993, 959621756, 962223554, 964832407, 967448333, 970071352, 972701482, 975338743, 977983155, 980634736, 983293507]
def expTPart14 : List Nat := [985959486, 988632693, 991313148, 994000871, 996695881, 999398197, 1002107841, 1004824831, 1007549187, 1010280930, 1013020080, 1015766656, 1018520679, 1021282168, 1024051145, 1026827629]
def expTPart15 : List Nat := [1029611642, 1032403202, 1035202331, 1038009049, 1040823377, 1043645336, 1046474945, 1049312227, 1052157201, 1055009888, 1057870310, 1060738488, 1063614442, 1066498193, 1069389763, 1072289173]

/-- exp_t[i] = rne(2^29 × 2^((2i + 1) / 512)) (R191). -/
def expT (i : Nat) : Nat :=
  ([expTPart0, expTPart1, expTPart2, expTPart3, expTPart4, expTPart5, expTPart6, expTPart7,
    expTPart8, expTPart9, expTPart10, expTPart11, expTPart12, expTPart13, expTPart14, expTPart15].getD (i / 16) []).getD (i % 16) 0

def logTPart0 : List Nat := [3022600, 9050164, 15054365, 21035384, 26993399, 32928587, 38841121, 44731173, 50598915, 56444515, 62268138, 68069950, 73850114, 79608789, 85346137, 91062313]
def logTPart1 : List Nat := [96757474, 102431773, 108085363, 113718395, 119331017, 124923377, 130495621, 136047892, 141580333, 147093087, 152586291, 158060085, 163514604, 168949985, 174366362, 179763865]
def logTPart2 : List Nat := [185142628, 190502778, 195844446, 201167757, 206472837, 211759812, 217028803, 222279934, 227513324, 232729093, 237927360, 243108241, 248271852, 253418309, 258547724, 263660211]
def logTPart3 : List Nat := [268755880, 273834842, 278897206, 283943080, 288972571, 293985786, 298982829, 303963805, 308928815, 313877963, 318811350, 323729074, 328631237, 333517935, 338389266, 343245326]
def logTPart4 : List Nat := [348086211, 352912016, 357722834, 362518757, 367299878, 372066288, 376818077, 381555334, 386278149, 390986609, 395680800, 400360810, 405026723, 409678624, 414316598, 418940727]
def logTPart5 : List Nat := [423551093, 428147779, 432730865, 437300432, 441856559, 446399325, 450928807, 455445085, 459948233, 464438329, 468915448, 473379664, 477831052, 482269686, 486695637, 491108979]
def logTPart6 : List Nat := [495509783, 499898121, 504274061, 508637676, 512989032, 517328201, 521655248, 525970243, 530273251, 534564339, 538843574, 543111021, 547366743, 551610806, 555843273, 560064208]
def logTPart7 : List Nat := [564273672, 568471729, 572658440, 576833865, 580998067, 585151104, 589293037, 593423925, 597543826, 601652799, 605750902, 609838192, 613914726, 617980561, 622035751, 626080354]
def logTPart8 : List Nat := [630114424, 634138016, 638151184, 642153982, 646146464, 650128682, 654100689, 658062538, 662014280, 665955967, 669887649, 673809378, 677721203, 681623175, 685515343, 689397756]
def logTPart9 : List Nat := [693270463, 697133512, 700986952, 704830830, 708665193, 712490089, 716305564, 720111664, 723908436, 727695924, 731474175, 735243233, 739003142, 742753948, 746495694, 750228423]
def logTPart10 : List Nat := [753952180, 757667007, 761372946, 765070041, 768758333, 772437865, 776108677, 779770811, 783424308, 787069209, 790705553, 794333381, 797952733, 801563649, 805166167, 808760326]
def logTPart11 : List Nat := [812346166, 815923724, 819493039, 823054148, 826607090, 830151902, 833688620, 837217283, 840737925, 844250584, 847755296, 851252097, 854741022, 858222106, 861695386, 865160895]
def logTPart12 : List Nat := [868618669, 872068741, 875511147, 878945920, 882373094, 885792703, 889204779, 892609356, 896006467, 899396145, 902778421, 906153329, 909520900, 912881166, 916234158, 919579909]
def logTPart13 : List Nat := [922918449, 926249810, 929574021, 932891115, 936201120, 939504068, 942799989, 946088911, 949370866, 952645882, 955913989, 959175215, 962429590, 965677143, 968917901, 972151894]
def logTPart14 : List Nat := [975379150, 978599695, 981813560, 985020770, 988221354, 991415338, 994602751, 997783619, 1000957968, 1004125826, 1007287219, 1010442173, 1013590715, 1016732870, 1019868665, 1022998125]
def logTPart15 : List Nat := [1026121275, 1029238141, 1032348749, 1035453122, 1038551287, 1041643268, 1044729090, 1047808777, 1050882354, 1053949844, 1057011272, 1060066661, 1063116036, 1066159420, 1069196837, 1072228309]

/-- log_t[j] = rne(2^30 × log2(1 + (2j + 1) / 512)) (R191). -/
def logT (i : Nat) : Nat :=
  ([logTPart0, logTPart1, logTPart2, logTPart3, logTPart4, logTPart5, logTPart6, logTPart7,
    logTPart8, logTPart9, logTPart10, logTPart11, logTPart12, logTPart13, logTPart14, logTPart15].getD (i / 16) []).getD (i % 16) 0

end Sys2Proof.Machine
end

