-- ==== Sys2Proof/Machine/VectorOps.lean ====
section
/-!
DEFINITION. What the vector instructions share (spec 05): active lanes, register and operand-cache operands, poison, the
packing step, the verification window, held and outstanding writes, and how an instruction starts and commits.
-/
namespace Sys2Proof.Machine

/-! ### Registers -/

/-- Block b of register vn. -/
def VecRegs.blk (r : VecRegs) (n b : Nat) : VBlk := mget (fun _ => VBlk.zero) r.v (2 * n + b)

def VecRegs.setBlk (r : VecRegs) (n b : Nat) (v : VBlk) : VecRegs :=
  { r with v := mset (fun _ => VBlk.zero) r.v (2 * n + b) v }

/-- Mask register kn; k0 reads all ones (R82, R174). -/
def VecRegs.mask (r : VecRegs) (n : Nat) : Word := if n = 0 then BitVec.allOnes 64 else mget (fun _ => 0) r.k n

/-- Is mask register kn poisoned (R197)? -/
def VecRegs.maskPoison (r : VecRegs) (n : Nat) : Bool := mget (fun _ => false) r.kPoison n

/-- A write to k0 is discarded (R182). -/
def VecRegs.setMask (r : VecRegs) (n : Nat) (v : Word) (p : Bool) : VecRegs :=
  if n = 0 then r else
  { r with k := mset (fun _ => 0) r.k n v, kPoison := mset (fun _ => false) r.kPoison n p }

/-- Pointer register pn. -/
def VecRegs.ptr (r : VecRegs) (n : Nat) : Nat := mget (fun _ => 0) r.p n

def VecRegs.setPtr (r : VecRegs) (n v : Nat) : VecRegs := { r with p := mset (fun _ => 0) r.p n (v % 2 ^ 21) }

def VecRegs.pers (r : VecRegs) : Nat := r.vmode % 2
def VecRegs.ocm (r : VecRegs) : Bool := bit r.vmode 1
def VecRegs.pinc (r : VecRegs) : Bool := bit r.vmode 2

/-- Set BSTAT's sticky flags (R178: NONFIN bit 1, SAT bit 0). -/
def VecRegs.flags (r : VecRegs) (sat nonfin : Bool) : VecRegs :=
  { r with bstat := ((r.bstat % 2 == 1) || sat).toNat + 2 * (bit r.bstat 1 || nonfin).toNat }

/-- Lane i of block b is active (R174). -/
def VecRegs.active (r : VecRegs) (km b i : Nat) : Bool :=
  decide (32 * b + i < r.vl) && (r.mask km).getLsbD (32 * b + i)

/-- The active lanes of block b. -/
def VecRegs.act (r : VecRegs) (km b : Nat) : List Bool := (List.range 32).map (r.active km b)

/-- Has block b an active lane? -/
def VecRegs.hasActive (r : VecRegs) (km b : Nat) : Bool := (r.act km b).any (·)

/-- The blocks with an active lane. -/
def VecRegs.blocks (r : VecRegs) (km : Nat) : List Nat := (List.range 2).filter (r.hasActive km)

/-- The blocks of a destination whose old contents an instruction of the reference personality reads: those with an inactive lane beside
an active one (R202). -/
def VecRegs.partialBlocks (r : VecRegs) (km : Nat) : List Nat :=
  if r.pers = 0 then [] else (r.blocks km).filter fun b => !(r.act km b).all (·)

/-! ### What the engine reads -/

/-- Overlay one write over n bytes from address a. -/
def overlayWrite (a : Nat) (d : List Byte) (w : VWrite) : List Byte :=
  d.zipIdx.map fun p => if w.addr ≤ a + p.2 ∧ a + p.2 < w.addr + w.bytes.length then w.bytes.getD (a + p.2 - w.addr) 0 else p.1

/-- The operand cache as the engine sees it: its own held writes apply (R198). -/
def ocView (x : Tile) (a n : Nat) : List Byte :=
  match x.vec.win with
  | none => ocBytes x a n
  | some w => (w.held.filter (·.oc)).foldl (overlayWrite a) (ocBytes x a n)

/-- Device memory as the engine sees it, after its own earlier writes `ws` that are not visible yet (R93). -/
def devView (s : State) (a n : Nat) (ws : List VWrite) : MemRead :=
  let r := memRead s a n
  { r with data := ws.foldl (overlayWrite a) r.data }

/-- The writes of the engine that are outstanding, in order. -/
def outWrites (l : List VMem) : List VWrite :=
  (l.map fun m => match m.kind with | .store ws => ws | .load _ => []).flatten

/-- The device writes held by the window, the first k held writes considered. -/
def heldDev (x : Tile) (k : Nat) : List VWrite :=
  match x.vec.win with
  | none => []
  | some w => (w.held.take k).filter (!·.oc)

/-- Is a field of VD, VA or VB an operand-cache operand (R193)? -/
def isOc (r : VecRegs) (n : Nat) : Bool := r.ocm && decide (n < 8)

/-- Block b of the operand that a field names (R193). -/
def vGet (x : Tile) (n b : Nat) : VBlk :=
  let r := x.vec.r
  if isOc r n then
    ⟨bfxOf (ocView x (r.ptr n + 128 * b) 128) (leAt (ocView x (r.ptr (n + 8) + b) 1) 0 1), false⟩
  else r.blk n b

/-! ### Effects -/

/-- What an instruction does once it starts: blocks of the destination field, a mask register, writes, flags, other
register updates, and a load to wait for. -/
structure VEff where
  blocks : List (Nat × Nat × VBlk)
  k : Option (Nat × Word × Bool)
  writes : List VWrite
  regs : VecRegs → VecRegs
  sat : Bool
  nonfin : Bool
  outcomes : List Nat
  load : Option VLoad

/-- No effect. -/
def VEff.none : VEff := ⟨[], .none, [], id, false, false, [], .none⟩

/-- The outcome of trying to start an instruction: it waits, it faults with a cause and a TILE_TRAP_INFO, or it takes effect. -/
inductive VRes where
  | wait (s : State)
  | fault (code info : Nat) (s : State)
  | ok (e : VEff) (s : State)

/-- The token wait does not matter here: the word, its captured registers, and the state. -/
abbrev VRun := Nat → QEntry → State → VRes

/-- The fault of an access to an operand-cache operand (R193, R203): read or write of the given blocks. A read meets an uncorrectable
word of the operand cache. -/
def ocFault (x : Tile) (n : Nat) (blocks : List Nat) (write : Bool) : Option (Nat × Nat) :=
  let r := x.vec.r
  if !isOc r n || blocks.isEmpty then none else
  let p := r.ptr n
  let q := r.ptr (n + 8)
  if p % 128 ≠ 0 then some (cMISALIGNED, p) else
  blocks.findSome? fun b =>
    if ocSize < p + 128 * b + 128 then some (cOC_RANGE, p + 128 * b)
    else if ocSize < q + b + 1 then some (cOC_RANGE, q + b)
    else if write && inCode x (p + 128 * b) 128 then some (cCODE_WRITE, p + 128 * b)
    else if write && inCode x (q + b) 1 then some (cCODE_WRITE, q + b)
    else if write then none
    else (ocUe x [(p + 128 * b, 128), (q + b, 1)]).map fun o => (cMEM_UNCORRECTABLE, o)

/-- A fault that `ocFault` found: an uncorrectable word of the operand cache is recorded as one (R297). -/
def VRes.ocTrap (code info : Nat) (s : State) : VRes := .fault code info (if code = cMEM_UNCORRECTABLE then sramUe s else s)

/-- A vector register that an outstanding load will write (the engine interlocks, R195). -/
def loadBusy (x : Tile) (n : Nat) : Bool :=
  x.vec.out.any fun m => match m.kind with | .load l => l.dest == n | _ => false

/-- Bytes of the store buffer in use (R198). -/
def heldBytes (w : Window) : Nat := w.held.foldl (fun a v => a + v.bytes.length) 0

/-- Drop the entries whose writes are visible and whose signals no earlier store holds, applying those signals (R89). -/
def vflush (t : Nat) : List VMem → Bool → State → List VMem × State
  | [], _, s => ([], s)
  | m :: r, blocked, s =>
    match m.kind with
    | .store [] =>
      if blocked then
        let p := vflush t r blocked s
        (m :: p.1, p.2)
      else
        let s := match m.sig with | some k => tkAdd s t k 1 2 m.pc | none => s
        vflush t r blocked s
    | .store (_ :: _) =>
      let p := vflush t r true s
      (m :: p.1, p.2)
    | .load _ =>
      let p := vflush t r blocked s
      (m :: p.1, p.2)

/-- Replace the outstanding list and apply the signals that became free. -/
def setOut (s : State) (t : Nat) (l : List VMem) : State :=
  let p := vflush t l false s
  p.2.onTile t fun x => { x with vec := { x.vec with out := p.1 } }

/-- The signal token of a word, if it signals. -/
def sigOf (h : QEntry) : Option Nat := if wSE h.word then some (wSTK h.word) else none

/-- Count predicted conversions (R583). -/
def countOutcomes (s : State) (t : Nat) (l : List Nat) : State :=
  l.foldl (fun s e => addF s (fOBS_SP_COUNT t e) 1) s

/-- Write a block of the destination field: a register, or the operand cache (R193). -/
def writeBlk (r : VecRegs) (n b : Nat) (v : VBlk) : VecRegs × List VWrite :=
  if isOc r n then
    (r, [⟨true, r.ptr n + 128 * b, bfxBytes v.b⟩, ⟨true, r.ptr (n + 8) + b, toBytes 1 v.b.e⟩])
  else (r.setBlk n b v, [])

/-- The post-increments of R194 for the operand-cache fields of an instruction. -/
def postInc (r : VecRegs) (fields : List Nat) : VecRegs :=
  if r.pinc && r.ocm && decide (0 < r.vl) then
    ((List.range 8).filter fields.contains).foldl (fun r n =>
      (r.setPtr n (r.ptr n + 256)).setPtr (n + 8) (r.ptr (n + 8) + 2)) r
  else r

/-- All writes of an effect and the registers after it. -/
def effParts (r : VecRegs) (e : VEff) (fields : List Nat) : VecRegs × List VWrite :=
  let p := e.blocks.foldl (fun (a : VecRegs × List VWrite) b =>
    let q := writeBlk r b.1 b.2.1 b.2.2
    let regs := if isOc r b.1 then a.1 else a.1.setBlk b.1 b.2.1 b.2.2
    (regs, a.2 ++ q.2)) (r, [])
  let regs := match e.k with | some (n, v, q) => p.1.setMask n v q | none => p.1
  (e.regs (postInc (regs.flags e.sat e.nonfin) fields), p.2 ++ e.writes)

/-- Commit the effect of an instruction (R175, R198): while a window is open its writes, its signal and its counts are
held and the instruction joins the replay buffer. -/
def vCommit (s : State) (t : Nat) (h : QEntry) (e : VEff) (fields : List Nat) : State :=
  let x := s.tile t
  let p := effParts x.vec.r e fields
  let ldEntry (inWin : Bool) (heldN : Nat) : List VMem :=
    match e.load with
    | some l => [⟨h.pc, sigOf h, .load { l with inWin := inWin, heldN := heldN }⟩]
    | none => []
  match x.vec.win with
  | some w =>
    let w := { w with
      replay := w.replay ++ [h], held := w.held ++ p.2, outcomes := w.outcomes ++ e.outcomes,
      sigs := if e.load.isSome then w.sigs else w.sigs ++ ((sigOf h).toList.map fun k => (k, h.pc)) }
    s.setTile t { x with vec := { x.vec with
      r := p.1, win := some w, out := x.vec.out ++ ldEntry true w.held.length, busyAt := s.now } }
  | none =>
    let dev := p.2.filter (!·.oc)
    let x := (p.2.filter (·.oc)).foldl (fun x w => ocPut x w.addr w.bytes) x
    let s := s.setTile t { x with vec := { x.vec with r := p.1, busyAt := s.now } }
    let s := countOutcomes s t e.outcomes
    match e.load with
    | some _ => setOut s t ((s.tile t).vec.out ++ ldEntry false 0)
    | none => setOut s t ((s.tile t).vec.out ++ [⟨h.pc, sigOf h, .store dev⟩])

/-- The engine starts nothing: the store buffer or the replay buffer of the open window is full (R198), or the window failed (R199). -/
def windowFull (x : Tile) : Bool :=
  match x.vec.win with
  | none => false
  | some w => w.failed || decide (256 ≤ w.replay.length) || decide (65536 ≤ heldBytes w)

/-- Room in the store buffer of an open window for the writes of an instruction (R198). -/
def windowRoom (x : Tile) (bytes : Nat) : Bool :=
  match x.vec.win with
  | none => true
  | some w => decide (heldBytes w + bytes ≤ 65536)

/-- The v fields that an instruction reads as sources: VA and VB of formats VR, and VD of a store. -/
def vSources (h : QEntry) : List Nat :=
  let w := h.word
  let maj := wMaj w
  let min := wMin w
  let one := [0x07, 0x08, 0x0D, 0x0E, 0x0F, 0x14, 0x15, 0x17].contains min
  if maj = 0x18 then
    (if 0x18 ≤ min ∧ min ≤ 0x1A then [] else wVA w :: (if one || wBS w then [] else [wVB w]))
  else if maj = 0x19 then (if min = 1 then [wVD w] else [])
  else if maj = 0x1A then (if min = 0 then [] else [wVA w])
  else []

/-- The words of the register SRAM that an instruction reads (R170, R204): its sources in blocks with an active lane, the destination where its old
contents count (R202), its masks, and the accumulator elements of a VRDACC. k0 is no word of it. -/
def vReads (x : Tile) (h : QEntry) : List RegWord :=
  let r := x.vec.r
  let w := h.word
  let maj := wMaj w
  let min := wMin w
  let km := if maj = 0x19 then wmKM w else wKM w
  let vm := decide (maj = 0x19)
  let bl := r.blocks km
  let blk (n b : Nat) : RegWord := .vreg (Fin.ofNat 32 n) (Fin.ofNat 2 b)
  let regs (n : Nat) (bs : List Nat) : List RegWord := if !vm && isOc r n then [] else bs.map (blk n)
  let mask (n : Nat) : List RegWord := if n = 0 then [] else [.kreg (Fin.ofNat 8 n)]
  let kk := decide (maj = 0x18) && decide (0x18 ≤ min) && decide (min ≤ 0x1A)
  let dest := decide (maj = 0x18 ∧ min < 0x10) || decide (maj = 0x18 ∧ 0x13 ≤ min ∧ min ≠ 0x18 ∧ min ≠ 0x19 ∧ min ≠ 0x1A) ||
    decide (maj = 0x19 ∧ min = 0) || decide (maj = 0x1A)
  let a := wIMM6 w % 2
  let v := capS h (wSS w)
  (if maj = 0x32 then [] else if kk then mask (wVA w % 8) ++ mask (wVB w % 8) else mask km) ++
  (if maj = 0x18 ∧ min = 0x13 then mask (wIMM6 w % 8) else []) ++
  ((vSources h).flatMap fun n => regs n bl) ++
  (if dest then regs (wVD w) (if maj = 0x18 ∧ min = 0x04 then bl else r.partialBlocks km) else []) ++
  (if maj = 0x1A ∧ min = 0 then bl.flatMap fun b => (List.range 32).map fun i =>
    let j := 64 * bits v 7 7 + 32 * b + i
    .acc (Fin.ofNat 2 a) (Fin.ofNat 16384 (if bit (wIMM6 w) 1 then 128 * j + v % 128 else 128 * (v % 128) + j))
   else [])

/-- The error that a command reports in a word of the register SRAM. -/
def regHit (e : RegErr) (w : RegWord) : Bool :=
  match e, w with
  | .vreg n, .vreg m _ => n == m
  | .kreg n, .kreg m => n == m
  | .acc n, .acc m _ => n == m
  | _, _ => false

/-- The TILE_TRAP_INFO of an instruction that reads an uncorrectable word of the register SRAM (R170, R204): one that a scrubber found, or that has
gone bad now. -/
def regFault (x : Tile) (ue : RegErr) (h : QEntry) : Option Nat :=
  if ue = .ok ∧ x.regBad = [] then none
  else ((vReads x h).find? fun w => regHit ue w || x.regBad.contains w).map fun w =>
    match w with
    | .vreg n _ => 0x100 + n.val
    | .kreg n => 0x200 + n.val
    | .acc n _ => n.val

/-- What an instruction writes whole holds no error any more: blocks of v registers, and a mask register. -/
def healRegs (x : Tile) (blocks : List (Nat × Nat)) (k : Option Nat) : Tile :=
  if x.regBad.isEmpty then x
  else { x with regBad := x.regBad.filter fun w =>
    match w with
    | .vreg n b => !blocks.contains (n.val, b.val)
    | .kreg n => k != some n.val
    | .acc _ _ => true }

/-- The blocks of v registers that the effect of an instruction writes; those of a load that waits for its data come with the data. -/
def vWrites (x : Tile) (h : QEntry) (e : VEff) : List (Nat × Nat) :=
  if wMaj h.word = 0x19 then
    (if wMin h.word = 0 ∧ wmOC h.word then (x.vec.r.blocks (wmKM h.word)).map fun b => (wVD h.word, b) else [])
  else (e.blocks.filter fun p => !isOc x.vec.r p.1).map fun p => (p.1, p.2.1)

/-- Start a vector instruction: interlocks, the window's buffers, personality (R203), uncorrectable words among those that it reads (R170, R204) once
nothing makes it wait, and then its own run. `fields` are the v fields that it names; format VM has no operand-cache operands (R183). -/
def vStep (t : Nat) (ue : RegErr) (pb pr : Bool) (fields : QEntry → List Nat) (run : VRun) (h : QEntry) (s : State) :
    Option State :=
  let x := s.tile t
  let r := x.vec.r
  if (fields h).any (loadBusy x) || windowFull x then none
  else if (r.pers = 0 ∧ !pb) ∨ (r.pers = 1 ∧ !pr) then some (trap s t 2 cVEC_PERSONALITY h.pc h.word.toNat)
  else match run t h s, regFault x ue h with
    | .wait _, _ => none
    | _, some i => some (trapSram s t 2 h.pc i)
    | .fault c i s, none => some (trap s t 2 c h.pc i)
    | .ok e s, none =>
      let s := if x.regBad = [] then s else s.onTile t fun x => healRegs x (vWrites x h e) (e.k.map (·.1))
      let x := s.tile t
      let inc := if wMaj h.word = 0x19 then [] else fields h
      let bytes := (effParts x.vec.r e inc).2.foldl (fun a w => a + w.bytes.length) 0
      if windowRoom x bytes then some (vCommit s t h e inc) else none

/-! ### Arithmetic -/

/-- pack of R181 over exact dyadic results. -/
def pack (act : List Bool) (rs : List (Int × Int)) (eRule : Int) : Blk × Bool :=
  let e : Nat := (max 0 (min eRule 254)).toNat
  let raw := (rs.zip act).map fun p => if p.2 then rneScaleInt p.1.1 (p.1.2 + 156 - e) else 0
  let ms := raw.map fun x => satS x 32
  (⟨e, ms⟩, decide (raw ≠ ms))

/-- Mantissas of a block as exact dyadic values. -/
def dyads (b : Blk) : List (Int × Int) := (List.range 32).map fun i => (b.m.getD i 0, (b.e : Int) - 156)

/-- A block with the mantissas of inactive lanes at 0. -/
def maskBlk (act : List Bool) (b : Blk) : Blk :=
  ⟨b.e, (List.range 32).map fun i => if act.getD i false then b.m.getD i 0 else 0⟩

/-- Values with the inactive lanes at 0. -/
def maskVals (act : List Bool) (vs : List Val) : List Val :=
  (List.range 32).map fun i => if act.getD i false then vs.getD i .nan else .fin false 0 0

/-- Operand b of an instruction: VB, or the broadcast of s(SS) (R180). -/
def bOperand (x : Tile) (h : QEntry) (b : Nat) : VBlk :=
  if wBS h.word then
    let v := capS h (wSS h.word)
    ⟨⟨if x.vec.r.pers = 0 then bits v 39 32 else 0, List.replicate 32 (sgn32 (v % 2 ^ 32))⟩, false⟩
  else vGet x (wVB h.word) b

/-- The fault of a broadcast value (R180). -/
def bcastFault (x : Tile) (h : QEntry) : Option (Nat × Nat) :=
  if !wBS h.word then none else
  let v := capS h (wSS h.word)
  if x.vec.r.pers = 0 then
    if bits v 63 40 ≠ 0 ∨ bits v 39 32 = 0xFF then some (cBAD_OPERAND, v) else none
  else if bits v 63 32 ≠ 0 then some (cBAD_OPERAND, v) else none

/-- The first fault of a list. -/
def firstFault (l : List (Option (Nat × Nat))) : Option (Nat × Nat) := l.findSome? id

/-- A block result in the BFX personality: non-finite where an input is (R176), else the computed block. -/
def bfxResult (ins : List VBlk) (poison : Bool) (f : Unit → Blk × Bool) : VBlk × Bool × Bool :=
  let p := poison || ins.any (·.poison)
  if ins.any (·.b.isNonfin) then (⟨.nonfinite, p⟩, false, true)
  else let r := f (); (⟨r.1, p⟩, r.2, r.1.isNonfin)

/-- A block result in the reference personality (R202): active lanes take the pattern f gives, inactive lanes keep theirs,
the exponent is 0. -/
def refResult (act : List Bool) (old : VBlk) (ins : List VBlk) (poison : Bool) (f : Nat → Nat) : VBlk × Bool × Bool :=
  let lanes := (List.range 32).map fun i => if act.getD i false then sgn32 (f i) else old.b.m.getD i 0
  let nf := (List.range 32).any fun i => act.getD i false && f32special (f i)
  (⟨⟨0, lanes⟩, poison || ins.any (·.poison)⟩, false, nf)

/-- The pattern of lane i of a block. -/
def lanePat (b : VBlk) (i : Nat) : Nat := pat32 (b.b.m.getD i 0)

/-- Assemble the effect of an instruction that writes the blocks of VD with an active lane. -/
def blocksEff (vd : Nat) (l : List (Nat × VBlk × Bool × Bool)) : VEff :=
  { VEff.none with blocks := l.map fun p => (vd, p.1, p.2.1), sat := l.any fun p => p.2.2.1, nonfin := l.any fun p => p.2.2.2 }

/-- An instruction of MAJ 0x18 that writes VD (R182, R202). `useB`: it has operand b; `sel`: it reads the mask of IMM6.
`bf` gives the BFX block from a, b and the selection; `rf` the FP32 pattern from a, b, d and the selection. -/
def arith (useB sel useD : Bool) (bf : List Bool → Nat → Blk → Blk → (Nat → Bool) → Blk × Bool)
    (rf : Nat → Nat → Nat → Bool → Nat) : VRun := fun t h s =>
  let x := s.tile t
  let r := x.vec.r
  let w := h.word
  let bl := r.blocks (wKM w)
  let fault := firstFault [if useB then bcastFault x h else none, ocFault x (wVA w) bl false,
    if useB && !wBS w then ocFault x (wVB w) bl false else none, ocFault x (wVD w) bl true,
    ocFault x (wVD w) (if useD then bl else r.partialBlocks (wKM w)) false]
  match fault with
  | some (c, i) => .ocTrap c i s
  | none =>
    let kp := r.maskPoison (wKM w) || (sel && r.maskPoison (wIMM6 w % 8))
    let one (b : Nat) : Nat × VBlk × Bool × Bool :=
      let a := vGet x (wVA w) b
      let bb := bOperand x h b
      let d := vGet x (wVD w) b
      let act := r.act (wKM w) b
      let sl (i : Nat) : Bool := (r.mask (wIMM6 w % 8)).getLsbD (32 * b + i)
      let ins := (if useB then [a, bb] else [a]) ++ (if useD then [d] else [])
      if r.pers = 0 then (b, bfxResult ins kp fun _ => bf act (wIMM6 w) a.b bb.b sl)
      else (b, refResult act d (ins ++ (if act.all (·) then [] else [d])) kp
        fun i => rf (lanePat a i) (lanePat bb i) (lanePat d i) (sl i))
    .ok (blocksEff (wVD w) (bl.map one)) s

/-- A comparison (R176, R182, R202): a mask bit per lane. -/
def compare (bf : (Int × Int) → (Int × Int) → Bool) (rf : Val → Val → Bool) : VRun := fun t h s =>
  let x := s.tile t
  let r := x.vec.r
  let w := h.word
  let bl := r.blocks (wKM w)
  let fault := firstFault [bcastFault x h, ocFault x (wVA w) bl false, if wBS w then none else ocFault x (wVB w) bl false]
  match fault with
  | some (c, i) => .ocTrap c i s
  | none =>
    if r.vl = 0 then .ok VEff.none s else
    let bitOf (j : Nat) : Bool :=
      let b := j / 32
      let a := vGet x (wVA w) b
      let bb := bOperand x h b
      r.active (wKM w) b (j % 32) &&
      (if r.pers = 0 then
        !a.b.isNonfin && !bb.b.isNonfin && bf ((dyads a.b).getD (j % 32) (0, 0)) ((dyads bb.b).getD (j % 32) (0, 0))
       else rf (f32v (lanePat a (j % 32))) (f32v (lanePat bb (j % 32))))
    let v := (List.range 64).foldl (fun a j => if bitOf j then a + 2 ^ j else a) 0
    let p := r.maskPoison (wKM w) || bl.any fun b => (vGet x (wVA w) b).poison || (bOperand x h b).poison
    .ok { VEff.none with k := some (wVD w, BitVec.ofNat 64 v, p) } s

/-- A mask operation (R182): all 64 bits, whatever VL is. -/
def maskOp (f : Word → Word → Word) : VRun := fun t h s =>
  let r := (s.tile t).vec.r
  let w := h.word
  .ok { VEff.none with k := some (wVD w, f (r.mask (wVA w)) (r.mask (wVB w)),
    r.maskPoison (wVA w) || r.maskPoison (wVB w)) } s

/-- The v fields that an instruction of format VR names: VD, VA and VB as it uses them. -/
def fieldsVR (d a b : Bool) (h : QEntry) : List Nat :=
  (if d then [wVD h.word] else []) ++ (if a then [wVA h.word] else []) ++
  (if b && !wBS h.word then [wVB h.word] else [])

end Sys2Proof.Machine
end

