-- ==== Sys2Proof/Machine/StreamOps.lean ====
section
/-!
DEFINITION. The stream engine (spec 07): endpoints and shapes, the faults of an instruction at its start, the bytes that each
local transfer reads and writes, prefetch service, and the requests of remote transfers.
-/
namespace Sys2Proof.Machine

/-! ### Endpoints and shapes (R244) -/

/-- An endpoint in the operand cache. -/
def epOc (v : Nat) : Bool := bit v 63

/-- The offset or device address that an endpoint names. -/
def epAddr (v : Nat) : Nat := if epOc v then bits v 20 0 else bits v 51 0

/-- Bits that R244 requires to be 0. -/
def epBad (v : Nat) : Bool := if epOc v then bits v 62 21 != 0 else bits v 62 52 != 0

/-- A shape in bytes: run length, number of runs, distance of run starts. -/
structure Shape where
  len : Nat
  rep : Nat
  stride : Nat
deriving DecidableEq, Repr

def shapeOf (z : Nat) : Shape :=
  let n := 64 * bits z 23 0
  ⟨n, bits z 39 24 + 1, if bits z 63 40 = 0 then n else 64 * bits z 63 40⟩

def Shape.total (h : Shape) : Nat := h.len * h.rep

/-- The runs of a device-memory range under a shape. -/
def Shape.runs (h : Shape) (a : Nat) : List (Nat × Nat) := (List.range h.rep).map fun r => (a + r * h.stride, h.len)

/-- The ranges that an endpoint covers: an operand-cache endpoint is contiguous. -/
def epRuns (v : Nat) (h : Shape) : List (Nat × Nat) := if epOc v then [(epAddr v, h.total)] else h.runs (epAddr v)

/-- The captured operands of a stream instruction. -/
def stX (e : QEntry) : Nat := capS e (wsSX e.word)
def stY (e : QEntry) : Nat := capS e (wsSY e.word)
def stZ (e : QEntry) : Nat := capS e (wsSZ e.word)
def stW (e : QEntry) : Nat := capS e (wsSW e.word)

/-- A module given as row and column (R244). -/
def moduleOf (w : Nat) : Nat := posOf (bits w 6 0) (bits w 14 8)

/-! ### Faults at start (R134, R244, R245, R260, R263, R264, R304) -/

/-- The checks of an access to ranges of one side: operand-cache range, mapped memory, code window. -/
def rangeFault (x : Tile) (oc write : Bool) (l : List (Nat × Nat)) : Option (Nat × Nat) :=
  if oc then
    match l.find? fun p => decide (ocSize < p.1 + p.2) with
    | some p => some (cOC_RANGE, p.1)
    | none => if write then (l.find? fun p => inCode x p.1 p.2).map fun p => (cCODE_WRITE, p.1) else none
  else (l.find? fun p => !mappedRange p.1 p.2).map fun p => (cADDR_UNMAPPED, p.1)

/-- The checks of an endpoint with the ranges that it covers. BFX blocks at it have no wider alignment than R244's (DESIGN CHOICE,
assumption log 81). -/
def epFault (x : Tile) (v : Nat) (write : Bool) (l : List (Nat × Nat)) : Option (Nat × Nat) :=
  if epAddr v % 64 ≠ 0 then some (cMISALIGNED, epAddr v) else rangeFault x (epOc v) write l

/-- BAD_OPERAND with an operand, where the condition holds. -/
def badOp (c : Bool) (v : Nat) : Option (Nat × Nat) := if c then some (cBAD_OPERAND, v) else none

/-- Bytes of the block-maximum record that an SMOVE writes: one for each block among the moved bytes, which hold the elements
followed by their scales (R265). -/
def bmaxBlocks (fmt total : Nat) : Nat := total / (runBytes fmt + scaleBytes fmt) * (if fmtBlock fmt = 16 then 2 else 1)

/-- Elements of an SCVT or SRETAIN source (R264). -/
def srcElems (fmt total : Nat) : Nat := total * 8 / fmtBits fmt

/-- Scale bytes of N elements, those of a last partial block included. -/
def scaleLen (fmt n : Nat) : Nat := (n + 31) / 32 * scaleBytes fmt

/-- The end of a shaped source, where its scales begin (R263, R264). -/
def Shape.past (h : Shape) (v : Nat) : Nat :=
  if epOc v then epAddr v + h.total else epAddr v + (h.rep - 1) * h.stride + h.len

/-- The largest flash tile number (R303). -/
def flashMax : Nat := 228881834

/-- A range on another module, whose device addresses are mapped as this module's are (R37): ADDR_UNMAPPED (R38, R260). -/
def farFault (x : Tile) (l : List (Nat × Nat)) : Option (Nat × Nat) := rangeFault x false false l

/-- The fault of a transfer at its start: cause and TILE_TRAP_INFO. -/
def strFault (s : State) (x : Tile) (e : QEntry) : Option (Nat × Nat) :=
  let vx := stX e
  let vy := stY e
  let z := stZ e
  let w := stW e
  let h := shapeOf z
  let fa := wFA e.word
  let fb := wFB e.word
  let opt := wsOPT e.word
  let noLen := badOp (h.len == 0) z
  let modBad := badOp (bit w 7 || moduleOf w == ownLog s) w
  match wMin e.word with
  | 0 => firstFault [badOp (epBad vx) vx, badOp (epBad vy) vy, noLen,
      badOp (if opt then bits w 63 53 != 0 else bits w 63 32 != 0) w,
      epFault x vx false (epRuns vx h), epFault x vy true (epRuns vy h),
      if opt then rangeFault x true true [(bits w 52 32, bmaxBlocks fa h.total)] else none]
  | 1 =>
    let n := srcElems fa h.len
    let out := n * fmtBits fb / 8
    firstFault [badOp (epBad vx) vx, badOp (epBad vy) vy, noLen, badOp (h.rep != 1) z, badOp (n % 32 != 0) z,
      badOp (opt && bits w 63 54 != 0) w,
      epFault x vx false [(epAddr vx, h.len + scaleLen fa n)], epFault x vy true [(epAddr vy, out + scaleLen fb n)],
      if opt then rangeFault x false true [(bits w 51 0, scaleLen fb n)] else none]
  | 2 => firstFault [badOp (bits vx 63 32 != 0) vx, badOp (epBad vy) vy, badOp (bits z 63 16 != 0 || z == 0) z,
      badOp (bits w 63 32 != 0) w, badOp (decide (flashMax < vx + z - 1)) vx, epFault x vy true [(epAddr vy, z * 65536)]]
  | 3 => firstFault [badOp (bits vx 63 52 != 0) vx, badOp (epBad vy) vy, noLen, badOp (bits w 63 48 != 0) w, modBad,
      if vx % 64 ≠ 0 then some (cMISALIGNED, vx) else none, farFault x (h.runs (vx + if opt then 64 else 0)), epFault x vy true (epRuns vy h)]
  | 4 => firstFault [badOp (epBad vx) vx, badOp (bits vy 63 52 != 0) vy, noLen, badOp (bits w 63 15 != 0) w, modBad,
      epFault x vx false (epRuns vx h), if vy % 64 ≠ 0 then some (cMISALIGNED, vy) else none, farFault x (h.runs vy)]
  | 5 =>
    let loc := bit w 15
    firstFault [badOp (bits vy 63 52 != 0) vy, badOp (bits w 63 16 != 0 || (loc && bits w 14 0 != 0)) w,
      if loc then none else modBad, if vy % 8 ≠ 0 then some (cMISALIGNED, vy) else none,
      rangeFault x false true [(vy, 8)]]
  | 6 =>
    let n := srcElems fa h.total
    let rec0 := (n + 31) / 32 * 4
    firstFault [badOp (epBad vx) vx, badOp (epBad vy) vy, noLen, badOp (bits w 63 2 != 0) w,
      epFault x vx false (epRuns vx h), rangeFault x (epOc vx) false [(h.past vx, scaleLen fa n)],
      epFault x vy true [(epAddr vy, rec0)]]
  | 7 => firstFault [badOp (epBad vx) vx, badOp (!epOc vy || epBad vy) vy, badOp (bits z 63 24 != 0) z,
      epFault x vx false [(epAddr vx, 4 * z)], epFault x vy true [(epAddr vy, 129 * z)]]
  | _ => badOp (bits vx 63 21 != 0) vx

/-! ### Prefetch service (R250, R251) -/

def pfOf (x : Tile) (slot : Nat) : PfStream := mget (fun _ => PfStream.off) x.str.pf slot

def setPf (x : Tile) (slot : Nat) (p : PfStream) : Tile :=
  { x with str := { x.str with pf := mset (fun _ => PfStream.off) x.str.pf slot p } }

/-- The entry that serves an address: of the streams that hold it, the one with the lowest number. `rem` is the module of a
remote source. -/
def pfServe (x : Tile) (rem : Option Nat) (a : Nat) : Option (Nat × PfEntry) :=
  (List.range 8).findSome? fun i =>
    let p := pfOf x i
    if p.active && (match rem with | none => !p.remote | some m => p.remote && p.module == m) then
      (p.entries.find? fun e => decide (e.addr ≤ a) && decide (a < e.addr + 4096)).map fun e => (i, e)
    else none

/-- Pieces of a range that lie in one 64-byte unit each: address, length. The fuel bounds the pieces. -/
def pieces64 : Nat → Nat → Nat → List (Nat × Nat)
  | 0, _, _ => []
  | f + 1, a, n => if n = 0 then [] else let k := min n (64 - a % 64); (a, k) :: pieces64 f (a + k) (n - k)

def cut64 (l : List (Nat × Nat)) : List (Nat × Nat) := l.flatMap fun p => pieces64 (p.2 / 64 + 2) p.1 p.2

/-- Some stream of the tile is active. -/
def pfAny (x : Tile) : Bool := x.str.pf.any fun p => p.2.active

/-- A source part whose entry is still filling. -/
def pfBlocked (x : Tile) (l : List (Nat × Nat)) : Bool :=
  pfAny x && (cut64 l).any fun p => match pfServe x none p.1 with | some (_, e) => e.filling | none => false

/-- What reading a source gives: bytes, first bad unit, the entries that served (stream, fill number, offset, length), the state after. -/
structure SrcRead where
  data : List Byte
  bad : Option Nat
  hits : List (Nat × Nat × Nat × Nat)
  s : State
deriving DecidableEq, Repr

/-- Read device-memory pieces, each from the prefetch entry that serves it or from memory. -/
def readPieces (t hint : Nat) : List (Nat × Nat) → State → List (List Byte) → Option Nat → List (Nat × Nat × Nat × Nat) → SrcRead
  | [], s, acc, bad, hits => ⟨acc.reverse.flatten, bad, hits, s⟩
  | (a, n) :: r, s, acc, bad, hits =>
    match pfServe (s.tile t) none a with
    | some (i, e) => readPieces t hint r s (slice e.data (a - e.addr) n :: acc) bad ((i, e.no, a - e.addr, n) :: hits)
    | none =>
      let m := memReadH s a n hint
      readPieces t hint r m.s (m.data :: acc) (match bad with | some b => some b | none => m.bad) hits

/-- Read a source directly: operand cache, or device memory. -/
def readDirect (s : State) (t hint : Nat) (oc : Bool) (l : List (Nat × Nat)) : SrcRead :=
  if oc then
    let bad := ocUe (s.tile t) l
    ⟨l.flatMap fun p => ocBytes (s.tile t) p.1 p.2, bad, [], if bad.isSome then sramUe s else s⟩
  else
    let step (a : List (List Byte) × Option Nat × State) (p : Nat × Nat) : List (List Byte) × Option Nat × State :=
      let m := memReadH a.2.2 p.1 p.2 hint
      (m.data :: a.1, (match a.2.1 with | some b => some b | none => m.bad), m.s)
    let r := l.foldl step ([], none, s)
    ⟨r.1.reverse.flatten, r.2.1, [], r.2.2⟩

/-- Read the source of an SMOVE, SCVT or SRETAIN: operand cache, or device memory with prefetch service (R250). -/
def readSrc (s : State) (t hint : Nat) (oc : Bool) (l : List (Nat × Nat)) : SrcRead :=
  if oc || !pfAny (s.tile t) then readDirect s t hint oc l else readPieces t hint (cut64 l) s [] none []

/-- The reads of a transfer from fill no of stream i cover the last 256 bytes of the entry. -/
def lastRead (hits : List (Nat × Nat × Nat × Nat)) (i no : Nat) : Bool :=
  hits.foldl (fun m h => if h.1 = i ∧ h.2.1 = no then m ||| (2 ^ (h.2.2.1 + h.2.2.2 - 3840) - 2 ^ (h.2.2.1 - 3840)) else m) 0 == 2 ^ 256 - 1

/-- Free what a consumer, a transfer, has used up: the entries whose last 256 bytes it has read, and every entry that lies before one that
it read in the same stream's pattern; each entry that served, and that had not served the same transfer before (`seen`), counts as PF_HIT
(R251, R271). -/
def pfConsume (s : State) (t : Nat) (seen hits : List (Nat × Nat × Nat × Nat)) : State :=
  let slots := (hits.map (·.1)).eraseDups
  slots.foldl (fun s i =>
    let mine := (hits.filter fun h => h.1 == i).map (·.2)
    let top := mine.foldl (fun a h => max a h.1) 0
    let ended := (mine.map (·.1)).filter (lastRead (seen ++ hits) i)
    let n := ((mine.map (·.1)).eraseDups.filter fun k => !seen.any fun h => h.1 == i && h.2.1 == k).length
    let x := s.tile t
    let p := pfOf x i
    addF (s.setTile t (setPf x i (p.remove fun e => decide (e.no < top) || ended.contains e.no))) (fTILE_STR_STALL_COUNT t 10) n) s

/-! ### What a local transfer writes -/

/-- The outcome of a local transfer: its writes in order, the first bad unit of its source, the entries that served, flags
and predicted outcomes, and the state after its reads. -/
structure Plan where
  writes : List VWrite
  bad : Option Nat
  hits : List (Nat × Nat × Nat × Nat)
  sat : Bool
  nonfin : Bool
  outs : List Nat
  s : State
deriving DecidableEq, Repr

/-- Deal bytes out over ranges. -/
def deal (oc : Bool) : List (Nat × Nat) → List Byte → List VWrite
  | [], _ => []
  | (a, n) :: r, b => ⟨oc, a, b.take n⟩ :: deal oc r (b.drop n)

/-- One byte of a block-maximum record (R265). -/
def bmaxByte (vs : List Val) (scale : Nat) : Nat :=
  let zero := vs.all fun v => match v with | .fin _ m _ => m == 0 | _ => false
  if zero && scale != 0xFF then 0
  else if scale == 0xFF || vs.any (·.special) then 0xFF
  else
    let am := (vs.filterMap fun v => match v with | .fin _ m e => some (m, e) | _ => none).foldl magMax (0, 0)
    (1 + min (max (expOf am.1 am.2 + 127) 0) 253).toNat

/-- The block-maximum record of moved bytes in a format. -/
def bmaxRecord (fmt : Nat) (b : List Byte) : List Byte :=
  let n := b.length / (runBytes fmt + scaleBytes fmt)
  (List.range n).flatMap fun k =>
    let run := slice b (k * runBytes fmt) (runBytes fmt)
    let sc := slice b (n * runBytes fmt + k * scaleBytes fmt) (scaleBytes fmt)
    let vs := blockVals fmt run sc
    match fmtBlock fmt with
    | 16 => toBytes 1 (bmaxByte (vs.take 16) (leAt sc 0 1)) ++ toBytes 1 (bmaxByte (vs.drop 16) (leAt sc 1 1))
    | 32 => toBytes 1 (bmaxByte vs (leAt sc 0 1))
    | _ => toBytes 1 (bmaxByte vs 0)

/-- SMOVE (R245, R265). -/
def planMove (s : State) (t : Nat) (e : QEntry) : Plan :=
  let h := shapeOf (stZ e)
  let r := readSrc s t (wsHINT e.word) (epOc (stX e)) (epRuns (stX e) h)
  let w := deal (epOc (stY e)) (epRuns (stY e) h) r.data
  let w := if wsOPT e.word then w ++ [⟨true, bits (stW e) 52 32, bmaxRecord (wFA e.word) r.data⟩] else w
  ⟨w, r.bad, r.hits, false, false, [], r.s⟩

/-- SCVT (R264): every block through BFX, with scale prediction when OPT = 1. -/
def planCvt (s : State) (t : Nat) (e : QEntry) : Plan :=
  let fa := wFA e.word
  let fb := wFB e.word
  let h := shapeOf (stZ e)
  let n := srcElems fa h.len
  let nb := n / 32
  let vx := stX e
  let vy := stY e
  let hist := bits (stW e) 51 0
  let d := bits (stW e) 53 52
  let r := readSrc s t (wsHINT e.word) (epOc vx) [(epAddr vx, h.len), (epAddr vx + h.len, scaleLen fa n)]
  let m : MemRead := if wsOPT e.word then memReadH r.s hist (scaleLen fb n) (wsHINT e.word) else ⟨[], none, r.s⟩
  let one (k : Nat) : Emit × Bool :=
    let b := blockBfx fa (slice r.data (k * runBytes fa) (runBytes fa)) (slice r.data (h.len + k * scaleBytes fa) (scaleBytes fa))
    (emitBlk fb b.1 (if wsOPT e.word then some (slice m.data (k * scaleBytes fb) (scaleBytes fb), d) else none), b.2)
  let es := (List.range nb).map one
  let run := es.flatMap fun p => p.1.run
  let w : List VWrite := [⟨epOc vy, epAddr vy, run⟩, ⟨epOc vy, epAddr vy + n * fmtBits fb / 8, es.flatMap fun p => p.1.scales⟩] ++
    (if wsOPT e.word then [⟨false, hist, es.flatMap fun p => p.1.hist⟩] else [])
  ⟨w, (match r.bad with | some b => some b | none => m.bad), r.hits, es.any fun p => p.1.sat || p.2, es.any fun p => p.1.nonfin,
    es.flatMap fun p => p.1.outs, m.s⟩

/-- A predicate of R231 on an exact value. -/
def retainPred (code : Nat) (v : Val) : Bool :=
  match v with
  | .nan => false
  | .inf n => if code = 0 ∨ code = 3 then !n else if code = 1 then true else n
  | .fin n m _ =>
    match code with
    | 0 => m != 0 && !n
    | 1 => m != 0
    | 2 => m != 0 && n
    | _ => m == 0 || !n

/-- SRETAIN (R230, R231, R263). -/
def planRetain (s : State) (t : Nat) (e : QEntry) : Plan :=
  let f := wFA e.word
  let h := shapeOf (stZ e)
  let n := srcElems f h.total
  let vx := stX e
  let r := readSrc s t (wsHINT e.word) (epOc vx) (epRuns vx h ++ [(h.past vx, scaleLen f n)])
  let word (k : Nat) : Nat × Bool :=
    let vs := blockVals f (slice r.data (k * runBytes f) (runBytes f)) (slice r.data (h.total + k * scaleBytes f) (scaleBytes f))
    let vs := vs.take (n - 32 * k)
    (vs.zipIdx.foldl (fun a p => if retainPred (bits (stW e) 1 0) p.1 then a + 2 ^ p.2 else a) 0, vs.any (·.special))
  let ws := (List.range ((n + 31) / 32)).map word
  ⟨[⟨epOc (stY e), epAddr (stY e), ws.flatMap fun p => toBytes 4 p.1⟩], r.bad, r.hits, false, ws.any (·.2), [], r.s⟩

/-- SEXPAND (R232, R263). -/
def planExpand (s : State) (t : Nat) (e : QEntry) : Plan :=
  let w := stZ e
  let r := readDirect s t (wsHINT e.word) (epOc (stX e)) [(epAddr (stX e), 4 * w)]
  let blk (k : Nat) : List Byte :=
    let v := leAt r.data (4 * k) 4
    (List.range 32).flatMap fun i => toBytes 4 (if bit v i then 0xFFFFFFFF else 0)
  let a := epAddr (stY e)
  ⟨[⟨true, a, (List.range w).flatMap blk⟩, ⟨true, a + 128 * w, List.replicate w 0x9C⟩], r.bad, r.hits, false, false, [], r.s⟩

/-- Bytes received, as a list. -/
def gotBytes (m : SMap Byte) (n : Nat) : List Byte := (List.range n).map fun i => mget (fun _ => 0) m i

/-- What a transfer whose data is complete writes. -/
def planOf (s : State) (t : Nat) (r : StrRun) : Plan :=
  let e := r.e
  match wMin e.word with
  | 0 => planMove s t e
  | 1 => planCvt s t e
  | 2 => ⟨[⟨epOc (stY e), epAddr (stY e), gotBytes r.rr.got (stZ e * 65536)⟩], none, [], false, false, [], s⟩
  | 3 =>
    let h := shapeOf (stZ e)
    ⟨deal (epOc (stY e)) (epRuns (stY e) h) (gotBytes r.rr.got h.total), none, [], false, false, [], s⟩
  | 5 => ⟨if bit (stW e) 15 then [⟨false, stY e, toBytes 8 (stX e)⟩] else [], none, [], false, false, [], s⟩
  | 6 => planRetain s t e
  | 7 => planExpand s t e
  | _ => ⟨[], none, [], false, false, [], s⟩

/-- Perform writes under a hint: operand cache or device memory. -/
def doWrites (s : State) (t hint : Nat) (l : List VWrite) : State :=
  l.foldl (fun s w => if w.oc then s.onTile t fun x => ocPut x w.addr w.bytes else memWriteH false s w.addr w.bytes hint) s

/-! ### Ranges of a transfer, for the order of R93 -/

/-- The bytes that a transfer accesses: operand cache or not, address, length, whether it writes. Ranges of several runs are
taken from the first to the last. -/
def runRanges (r : StrRun) : List (Bool × Nat × Nat × Bool) :=
  let e := r.e
  let h := shapeOf (stZ e)
  let span (v : Nat) : Nat := h.past v - epAddr v
  let fa := wFA e.word
  let n := srcElems fa h.len
  match wMin e.word with
  | 0 => [(epOc (stX e), epAddr (stX e), span (stX e), false), (epOc (stY e), epAddr (stY e), span (stY e), true)] ++
      (if wsOPT e.word then [(true, bits (stW e) 52 32, bmaxBlocks fa h.total, true)] else [])
  | 1 => [(epOc (stX e), epAddr (stX e), h.len + scaleLen fa n, false),
      (epOc (stY e), epAddr (stY e), n * fmtBits (wFB e.word) / 8 + scaleLen (wFB e.word) n, true)] ++
      (if wsOPT e.word then [(false, bits (stW e) 51 0, scaleLen (wFB e.word) n, true)] else [])
  | 2 => [(epOc (stY e), epAddr (stY e), stZ e * 65536, true)]
  | 3 => [(epOc (stY e), epAddr (stY e), span (stY e), true)]
  | 4 => [(epOc (stX e), epAddr (stX e), span (stX e), false)]
  | 5 => if bit (stW e) 15 then [(false, stY e, 8, true)] else []
  | 6 => let n := srcElems fa h.total
    [(epOc (stX e), epAddr (stX e), span (stX e) + scaleLen fa n, false), (epOc (stY e), epAddr (stY e), (n + 31) / 32 * 4, true)]
  | 7 => [(epOc (stX e), epAddr (stX e), 4 * stZ e, false), (true, epAddr (stY e), 129 * stZ e, true)]
  | _ => []

/-- Must transfer b wait for the earlier transfer a (R93)? -/
def runsMeet (a b : StrRun) : Bool :=
  (runRanges a).any fun p => (runRanges b).any fun q =>
    p.1 == q.1 && (p.2.2.2 || q.2.2.2) && rangesMeet p.2.1 p.2.2.1 q.2.1 q.2.2.1

/-- Device-memory ranges that a transfer reads. -/
def devSources (r : StrRun) : List (Nat × Nat) :=
  let e := r.e
  let h := shapeOf (stZ e)
  let vx := stX e
  match wMin e.word with
  | 0 => if epOc vx then [] else h.runs (epAddr vx)
  | 1 => if epOc vx then [] else [(epAddr vx, h.len + scaleLen (wFA e.word) (srcElems (wFA e.word) h.len))]
  | 6 => if epOc vx then [] else h.runs (epAddr vx) ++ [(h.past vx, scaleLen (wFA e.word) (srcElems (wFA e.word) h.total))]
  | _ => []

/-! ### Remote requests (R240, R242, R255, R256, R258) -/

/-- Segments of at most 256 bytes that cross no 256-byte boundary (R240): address, length. The fuel bounds them. -/
def split256 : Nat → Nat → Nat → List (Nat × Nat)
  | 0, _, _ => []
  | f + 1, a, n => if n = 0 then [] else let k := min n (256 - a % 256); (a, k) :: split256 f (a + k) (n - k)

/-- The segments of a remote range with their offsets in the transferred bytes: address, length, offset. -/
def segsOf (l : List (Nat × Nat)) : List (Nat × Nat × Nat) :=
  ((l.flatMap fun p => split256 (p.2 / 256 + 2) p.1 p.2).foldl (fun (a : List (Nat × Nat × Nat) × Nat) p =>
    ((p.1, p.2, a.2) :: a.1, a.2 + p.2)) ([], 0)).1.reverse

/-- The remote segments of a transfer: the data of a versioned region begins 64 bytes after its version word (R255). -/
def runSegs (r : StrRun) : List (Nat × Nat × Nat) :=
  let e := r.e
  let h := shapeOf (stZ e)
  if wMin e.word = 3 then segsOf (h.runs (stX e + if wsOPT e.word then 64 else 0))
  else segsOf (h.runs (stY e))

/-- Outstanding remote requests of a tile's engine. -/
def remOut (x : Tile) : Nat := x.str.run.foldl (fun a r => a + r.rr.pend.length) 0 + x.str.loose.length

/-! ### Requests to memory and flash (R242) -/

/-- Device-memory ranges that a local transfer reads beside those of `devSources`, and those that it writes. -/
def devOthers (r : StrRun) : List (Nat × Nat) × List (Nat × Nat) :=
  let e := r.e
  let vx := stX e
  let vy := stY e
  let h := shapeOf (stZ e)
  let fb := wFB e.word
  match wMin e.word with
  | 0 => ([], if epOc vy then [] else epRuns vy h)
  | 1 =>
    let n := srcElems (wFA e.word) h.len
    (if wsOPT e.word then [(bits (stW e) 51 0, scaleLen fb n)] else [],
      if epOc vy then [] else [(epAddr vy, n * fmtBits fb / 8 + scaleLen fb n)])
  | 5 => ([], if bit (stW e) 15 then [(vy, 8)] else [])
  | 6 => ([], if epOc vy then [] else [(epAddr vy, (srcElems (wFA e.word) h.total + 31) / 32 * 4)])
  | 7 => (if epOc vx then [] else [(epAddr vx, 4 * stZ e)], [])
  | _ => ([], [])

/-- Requests of a started transfer to device memory and flash, of at most 256 bytes each: its reads, or where it reads none its writes.
A flash tile is 256 of them; a segment that a prefetch entry serves is none. -/
def memDemand (x : Tile) (r : StrRun) : Nat :=
  if wMaj r.e.word = 0x21 then 0
  else if wMin r.e.word = 2 then 256 * r.flash.length
  else
    let segs (l : List (Nat × Nat)) : List (Nat × Nat) := l.flatMap fun p => split256 (p.2 / 256 + 2) p.1 p.2
    let far (p : Nat × Nat) : Bool := (pfServe x none p.1).isNone
    let o := devOthers r
    if (devSources r ++ o.1).isEmpty then (segs o.2).length else ((segs (devSources r)).filter far).length + (segs o.1).length

/-- The limit of R242. -/
def memLimit : Nat := 384

/-- Outstanding requests of a tile's engine to device memory and flash: those of its transfers and of its local fills, up to the limit
(assumption log 85). -/
def memOut (x : Tile) : Nat :=
  let fills := x.str.pf.foldl (fun a p => if p.2.remote then a else a + 16 * (p.2.entries.filter (·.filling)).length) 0
  min memLimit (x.str.run.foldl (fun a r => a + memDemand x r) fills)

/-- The engine asks for the next flash tile of its transfers, where its limit leaves room for the requests of one (R242). -/
def issueFlash (s : State) (t : Nat) : State :=
  let mine (o : FlashOp) : Bool := match o.who with | .stream u _ => u == t | _ => false
  let next := (s.tile t).str.run.findSome? fun r =>
    if wMaj r.e.word = 0x20 ∧ wMin r.e.word = 2 ∧ r.fail.isNone then
      (r.flash.find? fun n => !s.tier.fops.any fun o => o.n == n && o.who == .stream t r.no).map fun n => (r.no, n)
    else none
  match next with
  | some (no, n) =>
    if memLimit < 256 * ((s.tier.fops.filter mine).length + 1) then s
    else { s with tier := { s.tier with fops := s.tier.fops ++ [⟨n, .stream t no, none⟩] } }
  | none => s

/-- The READ packet of a segment: the expected version travels with VCHK = 1 (R322). -/
def readPacket (dest : Nat) (sealed : Bool) (addr len id : Nat) (vchk : Option Nat) : Packet :=
  { blankPacket dest tREAD with
    sealed := sealed, addr := addr, id := id,
    payload := toBytes 2 len ++ toBytes 1 (if vchk.isSome then 1 else 0) ++ [0] ++ toBytes 4 (vchk.getD 0) }

/-- The request identifier that READ_DATA and ACK return: tile, transfer or prefetch stream, segment. -/
def reqId (t sub seg : Nat) : Nat := seg % 65536 + 65536 * (sub % 256) + 16777216 * (t % 256)

/-- What a prefetch entry gives for a segment of an SGET: the bytes, the directory version that came with them, and the entry. -/
structure Served where
  data : List Byte
  ver : Option Nat
  hit : Nat × Nat × Nat × Nat
deriving DecidableEq, Repr

/-- Advance one remote read: request segments while fewer than 256 requests are outstanding. `segs` are the data segments, `ver` the
address of the version word of a versioned region, `base` what the identifiers of its segments count from; `serve` gives a segment
that a prefetch entry holds (none: not held; some none: still filling). A served segment of another version than VCHK expects is read
directly (R255), by a read that the owner checks as it would have the first (R322). -/
def issueReads (t : Nat) (owner : PktFor) (dest : Nat) (sealed : Bool) (sub base : Nat) (segs : List (Nat × Nat × Nat))
    (vreg : Bool) (ver : Nat) (vchk : Option Nat) (serve : Nat → Nat → Option (Option Served)) :
    Nat → RRead → State → Nat → RRead × State
  | 0, rr, s, _ => (rr, s)
  | f + 1, rr, s, room =>
    if room = 0 then (rr, s)
    else if rr.step = 0 ∨ rr.step = 2 then
      if rr.next = 0 then ({ rr with next := 1, pend := [0] }, ready s owner (readPacket dest sealed ver 8 (reqId t sub base) none))
      else (rr, s)
    else if rr.step = 1 then
      match segs[rr.next]? with
      | none =>
        if vreg && rr.pend.isEmpty then
          issueReads t owner dest sealed sub base segs vreg ver vchk serve f { rr with step := 2, next := 0 } s room
        else (rr, s)
      | some (a, n, o) =>
        let id := reqId t sub (base + rr.next)
        match serve a n with
        | some none => (rr, s)
        | some (some v) =>
          let rr := { rr with next := rr.next + 1, hits := rr.hits ++ [v.hit] }
          if vchk.isSome && v.ver.isSome && vchk != v.ver then
            let k := rr.next - 1
            issueReads t owner dest sealed sub base segs vreg ver vchk serve f { rr with pend := rr.pend ++ [k], again := rr.again ++ [k] }
              (ready s owner (readPacket dest sealed a n id vchk)) (room - 1)
          else issueReads t owner dest sealed sub base segs vreg ver vchk serve f { rr with got := putBytes rr.got o v.data } s room
        | none =>
          issueReads t owner dest sealed sub base segs vreg ver vchk serve f { rr with next := rr.next + 1, pend := rr.pend ++ [rr.next] }
            (ready s owner (readPacket dest sealed a n id vchk)) (room - 1)
    else (rr, s)

/-- What a REMOTE prefetch entry of the same module gives for a segment (R250). -/
def remoteServe (x : Tile) (dest a n : Nat) : Option (Option Served) :=
  match pfServe x (some dest) a with
  | none => none
  | some (i, e) => some (if e.filling then none else some
      ⟨slice e.data (a - e.addr) n, (e.vers.find? fun v => v.1 == (a - e.addr) / 256).map (·.2), (i, e.no, a - e.addr, n)⟩)

/-- The next segment of a transfer lies in a remote entry that is still filling (R250). -/
def farBlocked (x : Tile) (r : StrRun) : Bool :=
  wMin r.e.word == 3 && r.rr.step == 1 && pfAny x &&
  (match (runSegs r)[r.rr.next]? with
   | some (a, n, _) => remoteServe x (moduleOf (stW r.e)) a n == some none
   | none => false)

/-- The expected version of an SGET with VCHK = 1 (R255). -/
def expectVer (r : StrRun) : Option Nat := if bit (stW r.e) 15 then some (bits (stW r.e) 47 16) else none

/-- The WRITE packets of an SPUT: one segment from `next` on, its data read from the local source. -/
def issueWrites (t : Nat) (r : StrRun) (segs : List (Nat × Nat × Nat)) : Nat → RRead → State → Nat → RRead × State × Option Nat
  | 0, rr, s, _ => (rr, s, none)
  | f + 1, rr, s, room =>
    if room = 0 then (rr, s, none) else
    match segs[rr.next]? with
    | none => (rr, s, none)
    | some (a, n, o) =>
      let h := shapeOf (stZ r.e)
      let v := stX r.e
      let loc := if epOc v then epAddr v + o else epAddr v + o / h.len * h.stride + o % h.len
      let d := readDirect s t (wsHINT r.e.word) (epOc v) [(loc, n)]
      match d.bad with
      | some u => (rr, d.s, some u)
      | none =>
        let p : Packet := { blankPacket (moduleOf (stW r.e)) tWRITE with
          sealed := wsSEAL r.e.word, addr := a, id := reqId t (r.no % 128) rr.next, payload := d.data }
        issueWrites t r segs f { rr with next := rr.next + 1, pend := rr.pend ++ [rr.next] } (ready d.s (.stream t r.no) p) (room - 1)

/-- Replace the remote read of a transfer. -/
def setRr (s : State) (t no : Nat) (rr : RRead) : State := onRun s t no fun r => { r with rr := rr }

/-- A transfer meets an uncorrectable unit (R260): in LPDDR under its error token, otherwise the task aborts. -/
def sourceBad (s : State) (t : Nat) (r : StrRun) (u : Nat) : State :=
  if isLpddr u && wsEE r.e.word then failRun s t r.no cMEM_UNCORRECTABLE u else trap s t 3 cMEM_UNCORRECTABLE r.e.pc u

/-- The module that a remote transfer names. -/
def runDest (r : StrRun) : Nat := moduleOf (stW r.e)

/-- A remote version fence (R256). -/
def remoteFence (r : StrRun) : Bool := wMin r.e.word == 5 && !bit (stW r.e) 15

/-- A packet of a type that the tile's engine has sent to a module has not been acknowledged: also one of a transfer that ended. -/
def unackedTo (s : State) (t dest : Nat) (typs : List Nat) : Bool :=
  (s.fab.wait ++ s.fab.out).any fun o =>
    o.p.dest == dest && typs.contains o.p.typ && (match o.owner with | .stream u _ => u == t | _ => false)

/-- Advance one transfer of a tile: its remote requests. `before` are the earlier transfers that are not complete. A version write
follows every earlier write of the tile to its module, and every later write follows it (R256). -/
def advanceRun (s : State) (t : Nat) (before : List StrRun) (r : StrRun) : State :=
  if r.fail.isSome then s else
  let room := 256 - remOut (s.tile t)
  let dest := runDest r
  let sub := r.no % 128
  match wMin r.e.word with
  | 3 =>
    let segs := runSegs r
    let q := issueReads t (.stream t r.no) dest (wsSEAL r.e.word) sub 0 segs (wsOPT r.e.word)
      (stX r.e) (if wsOPT r.e.word then none else expectVer r)
      (remoteServe (s.tile t) dest) (segs.length + 3) r.rr s room
    pfConsume (setRr q.2 t r.no q.1) t r.rr.hits (q.1.hits.drop r.rr.hits.length)
  | 4 =>
    if before.any (fun b => (remoteFence b && runDest b == dest) || runsMeet b r) || unackedTo s t dest [tVFENCE] then s else
    let segs := runSegs r
    let q := issueWrites t r segs (segs.length + 1) r.rr s room
    let s := setRr q.2.1 t r.no q.1
    (match q.2.2 with | some u => sourceBad s t r u | none => s)
  | 5 =>
    if bit (stW r.e) 15 || r.rr.next != 0 || room == 0 || unackedTo s t dest [tWRITE, tVFENCE] ||
       before.any (fun b => (wMin b.e.word == 4 || remoteFence b) && runDest b == dest) then s
    else
      let p : Packet := { blankPacket dest tVFENCE with
        addr := stY r.e, id := reqId t sub 0, payload := toBytes 8 (stX r.e) }
      setRr (ready s (.stream t r.no) p) t r.no { r.rr with next := 1, pend := [0] }
  | _ => s

/-- Advance every transfer of a tile in order. -/
def advanceRuns (t : Nat) : Nat → List StrRun → State → State
  | 0, _, s => s
  | f + 1, before, s =>
    match (s.tile t).str.run[before.length]? with
    | none => s
    | some r =>
      let s := advanceRun s t before r
      advanceRuns t f (before ++ [r]) s

/-- A tag for the requests of a prefetch entry that no outstanding request of the tile carries. -/
def freeTag (x : Tile) : Option Nat :=
  ((List.range 2047).map (· + 1)).find? fun g =>
    !x.str.loose.any (fun id => decide (128 ≤ id / 65536 % 256) && id % 65536 / 32 == g) &&
    !x.str.pf.any fun p => p.2.entries.any fun e => e.tag == g

/-- The first entry of the part of a versioned round that entry e belongs to: it carries the version reads (R258). -/
def PfStream.leader (p : PfStream) (e : PfEntry) : Option PfEntry := p.entries.find? fun d => p.batch d.no == p.batch e.no

/-- Every segment of a remote fill has come. -/
def fillDone (e : PfEntry) : Bool := decide (16 ≤ e.rr.next) && e.rr.pend.isEmpty

/-- Every fill of a versioned part has been issued, and all their data has come. -/
def PfStream.batchDone (p : PfStream) (e : PfEntry) : Bool :=
  let b := p.batch e.no
  decide (b.1 + b.2 ≤ p.issued) && p.entries.all fun d => p.batch d.no != b || (d.rr.step == 1 && fillDone d)

/-- Put the remote read of an entry, and the identifiers of the requests that it has issued since. -/
def putFill (s : State) (t i : Nat) (old : PfEntry) (rr : RRead) (tag : Nat) : State :=
  s.onTile t fun x =>
    let p := pfOf x i
    let new := (rr.pend.filter fun k => tag != old.tag || rr.step != old.rr.step || !old.rr.pend.contains k).map fun k => reqId t (128 + i) (32 * tag + k)
    let x := setPf x i { p with entries := p.entries.map fun d => if d.no = old.no then { d with rr := rr, tag := tag } else d }
    { x with str := { x.str with loose := x.str.loose ++ new } }

/-- Advance the fill of one entry of remote stream i: an entry of a versioned region waits for its part's first version read, and the
part's first entry reads the version word again when all the data of the part has come (R258). -/
def advanceFill (s : State) (t i no : Nat) : State :=
  let x := s.tile t
  let p := pfOf x i
  match p.entries.find? fun e => e.no == no && e.filling with
  | none => s
  | some e =>
    match (if e.tag = 0 then freeTag x else some e.tag) with
    | none => s
    | some tag =>
      let lead := p.vregion && (p.leader e).any (·.no == e.no)
      let rr := if p.vregion && !lead && e.rr.step == 0 then
          (match p.leader e with | some d => if d.rr.step = 1 then { e.rr with step := 1 } else e.rr | none => e.rr)
        else if lead && e.rr.step == 1 && p.batchDone e then { e.rr with step := 2, next := 0 } else e.rr
      if p.vregion && !lead && rr.step == 0 then s else
      let ver := (p.fillAddr (e.no / p.perRound * p.perRound)).toNat
      let q := issueReads t (.prefetch t i tag) p.module false (128 + i) (32 * tag) (segsOf [(e.addr, 4096)]) false ver none
        (fun _ _ => none) 20 rr s (256 - remOut x)
      putFill q.2 t i e q.1 tag

/-- Advance the remote fills of the tile's prefetch streams. -/
def advanceFills (s : State) (t : Nat) : State :=
  (List.range 8).foldl (fun s i =>
    let p := pfOf (s.tile t) i
    if !p.active || !p.remote then s else p.entries.foldl (fun s e => advanceFill s t i e.no) s) s

/-- Whatever the tile's stream engine can send, it sends; then the endpoint injects what it may. -/
def pumpStream (s : State) (t : Nat) : State :=
  if !isLive s t then pump s
  else pump (advanceFills (advanceRuns t (s.tile t).str.run.length [] (issueFlash s t)) t)

end Sys2Proof.Machine
end

