-- ==== Sys2Proof/Machine/Matrix.lean ====
section
/-!
DEFINITION. The meanings of the matrix class (spec 04 R137 to R171; 07 R266, R267, R269): start, chunk steps, folds and
completion of products, MZERO, the transfers of accumulator images, and the recompute after a failed verification.
-/
namespace Sys2Proof.Machine

/-- The operands of an MM, decoded from its word and captured registers (R143). -/
def mmOp (h : QEntry) : MMOp :=
  let w := h.word
  let x := capS h (wSA w)
  let y := capS h (wSB w)
  let k := capS h (wf w 33 28)
  let z := capS h (wf w 27 22)
  { acc := wf w 51 51, ovw := bit w.toNat 50, a16 := bit w.toNat 49, spr := bit w.toNat 48, ta := bit w.toNat 47,
    tb := bit w.toNat 46, aOff := bits x 20 0, aScale := bits x 41 21, bOff := bits y 20 0, bScale := bits y 41 21,
    zOff := bits z 20 0, kLen := bits k 15 0, m := 32 * (bits k 17 16 + 1), n := 32 * (bits k 19 18 + 1),
    fa := wFA w, fb := wFB w }

/-- The zero-history bits of an MM with SPR = 1 (R165): offset and length. -/
def historyRange (op : MMOp) : Nat × Nat := (op.zOff, ((op.m + 63) / 64 * (op.kLen / 32) + 7) / 8)

/-- The byte ranges of the operand cache that a product reads (R144): offset and length. -/
def mmRanges (op : MMOp) : List (Nat × Nat) :=
  let scales (fmt cnt off : Nat) : List (Nat × Nat) := if fmt ≤ 4 then [] else [(off, cnt / fmtBlock fmt)]
  [(op.aOff, op.m * op.kLen * fmtBits op.fa / 8)] ++ scales op.fa (op.m * op.kLen) op.aScale ++
  [(op.bOff, op.n * op.kLen * fmtBits op.fb / 8)] ++ scales op.fb (op.n * op.kLen) op.bScale ++
  (if op.spr then [historyRange op] else [])

/-- The fault of the operands of an MM at its start (R144): cause and TILE_TRAP_INFO. Where several hold, SK is looked at first, then
SX, SY, SZ and the ranges; OC_RANGE reports the start of its range; and no alignment of an offset is a fault (DESIGN CHOICE, assumption
log 80). -/
def mmFault (h : QEntry) : Option (Nat × Nat) :=
  let w := h.word
  let x := capS h (wSA w)
  let y := capS h (wSB w)
  let k := capS h (wf w 33 28)
  let z := capS h (wf w 27 22)
  let op := mmOp h
  if op.kLen % 32 ≠ 0 ∨ op.kLen < 32 ∨ 16384 < op.kLen ∨ bits k 63 20 ≠ 0 then some (cBAD_OPERAND, k)
  else if bits x 63 42 ≠ 0 then some (cBAD_OPERAND, x)
  else if bits y 63 42 ≠ 0 then some (cBAD_OPERAND, y)
  else if op.spr ∧ bits z 63 21 ≠ 0 then some (cBAD_OPERAND, z)
  else match (mmRanges op).find? fun r => decide (ocSize < r.1 + r.2) with
    | some r => some (cOC_RANGE, r.1)
    | none => none

/-- The slabs that an MM with SPR = 1 skips: its zero-history bits as they stand at its start (R165). -/
def skipBits (x : Tile) (op : MMOp) : List Bool :=
  if op.spr then
    (List.range ((op.m + 63) / 64 * (op.kLen / 32))).map fun i => (mget memDefault x.oc (op.zOff + i / 8)).getLsbD (i % 8)
  else []

/-- A run item that is a product with chunk steps left, or with a fold due (R152). -/
def MatRun.stepping (x : Tile) (r : MatRun) : Bool :=
  match r.work with
  | .product op _ i => decide (i < op.steps) || (x.acc op.acc).l1 == 2 ^ 20
  | _ => false

/-- The accumulator tile of a run item; none for an MZERO, which has written its own. -/
def MatRun.acc (r : MatRun) : Nat :=
  match r.work with
  | .product op _ _ => op.acc
  | .save a _ => a
  | .merge a _ => a
  | .restore a _ => a
  | .cleared => 2

/-- A run item that moves an accumulator image. -/
def MatRun.moves (r : MatRun) : Bool :=
  match r.work with
  | .product _ _ _ => false
  | .cleared => false
  | _ => true

/-- A matrix write of the tile is in progress (R161, TILE_ACCn_STATUS.WRITING): a running product, merge or restore, or a
load of the deferral queue; or a recompute is due (R269). -/
def accWriting (x : Tile) (a : Nat) : Bool :=
  x.mat.run.any (fun r => r.acc == a && (match r.work with | .save _ _ => false | _ => true)) ||
  (x.fill.bound == some a && (match x.fill.move with | some .load => true | _ => false)) || x.mat.recompute.contains a

/-- The tile is bound to the deferral queue (R217). -/
def accBound (x : Tile) (a : Nat) : Bool := x.fill.bound == some a

/-- An MM starts (R143, R144, R163 to R166, R266, R267). It waits while the array has chunk steps left, an image transfer of
its tile is in progress, its chain holds 4 MMs, the snapshot buffer it needs is held, or a recompute is due; its faults are found when
it starts. An image transfer of the other tile does not hold it (DESIGN CHOICE, assumption log 80). -/
def startMM (t : Nat) (h : QEntry) (s : State) : Option State :=
  let x := s.tile t
  let op := mmOp h
  let a := x.acc op.acc
  let first := op.spr && a.chain.isEmpty
  if !x.mat.recompute.isEmpty || x.mat.run.any (·.stepping x) || x.mat.run.any (fun r => r.moves && r.acc == op.acc) ||
     decide (4 ≤ a.chain.length) || (first && !op.ovw && x.mat.snap.isSome) then none
  else if accBound x op.acc then some (trap s t 1 cDEFER_CONFLICT h.pc 0)
  else match mmFault h with
    | some (c, i) => some (trap s t 1 c h.pc i)
    | none =>
      match (if op.spr then ocUe x [historyRange op] else none) with
      | some o => some (trapSram s t 1 h.pc o)
      | none =>
        let skip := skipBits x op
        let b := if op.ovw then a.clear else a
        let chain := if first || !a.chain.isEmpty then a.chain ++ [⟨op, skip, !op.spr, h.pc⟩] else []
        let x := (if op.ovw then healAcc x op.acc else x).setAcc op.acc { b with chain := chain }
        let un := if op.spr then x.mat.unpaired ++ [⟨op.acc, op, skip, some a.chain.length, s.now⟩] else x.mat.unpaired
        some (s.setTile t { x with mat := { x.mat with
          run := x.mat.run ++ [⟨h, .product op skip 0⟩], unpaired := un, busyAt := s.now,
          snap := if first && !op.ovw then some (op.acc, a) else x.mat.snap } })

def execMm (t : Tid) (s : State) : Host.Outcome State Fault Refusal :=
  .next (engineStart s t .matrix 0x10 0 (startMM t))

/-- One chunk step of the running product (R148 to R150). `ue`: an element that it reads has an uncorrectable error in the
accumulator SRAM (R170). -/
def execMmChunkStep (t : Tid) (ue : Bool) (s : State) : Host.Outcome State Fault Refusal :=
  .next (sameCycle s t 1 fun s =>
    let x := s.tile t
    if !isLive s t || !clkRuns s t then s else
    match firstIdx (fun r => r.stepping x) x.mat.run with
    | none => s
    | some i => match x.mat.run[i]? with
      | some ⟨e, .product op skip k⟩ =>
        if (x.acc op.acc).l1 = 2 ^ 20 then s
        else if ue || accBad x op.acc (fun k => decide (k / 128 < op.m) && decide (k % 128 < op.n)) then trapSram s t 1 e.pc op.acc
        else match ocUe x (op.stepRanges skip k) with
        | some o => trapSram s t 1 e.pc o
        | none =>
          let s := s.setTile t { x with mat := { x.mat with
            run := replaceAt x.mat.run i ⟨e, .product op skip (k + 1)⟩, busyAt := s.now } }
          chunkStep s t op skip k e.pc
      | _ => s)

/-- The fold of accumulator tile a that is due (R152). `ue`: an element has an uncorrectable error in the accumulator SRAM (R170); the
product that the fold belongs to traps. -/
def execFold (t : Tid) (f : FoldOf) (s : State) : Host.Outcome State Fault Refusal :=
  .next (sameCycle s t 1 fun s =>
    let x := s.tile t
    if !isLive s t || !clkRuns s t || (x.acc f.acc.val).l1 != 2 ^ 20 then s
    else if f.ue || accBad x f.acc.val (fun _ => true) then trapSram s t 1 (match x.mat.run.find? fun r => r.stepping x && r.acc == f.acc.val with | some r => r.e.pc | none => 0) f.acc.val
    else foldDue s t f.acc.val)

/-- A matrix instruction's signal waits for an earlier MSAVE of the unit, whose writes are not visible yet (R89). -/
def saveBefore (l : List MatRun) : Bool := l.any fun r => match r.work with | .save _ _ => true | _ => false

/-- The oldest product whose last chunk step is done completes and applies its signal (R137, R89). -/
def execMmComplete (t : Tid) (s : State) : Host.Outcome State Fault Refusal :=
  .next (
    let x := s.tile t
    if !isLive s t || !clkRuns s t then s else
    match firstIdx (fun r : MatRun => !r.moves && !r.stepping x) x.mat.run with
    | none => s
    | some i => match x.mat.run[i]? with
      | none => s
      | some r =>
        if saveBefore (x.mat.run.take i) then s
        else applySignal (s.setTile t { x with mat := { x.mat with run := removeAt x.mat.run i } }) t 1 r.e)

/-- MZERO: clears the tile and completes at once (R142); it waits for earlier matrix instructions on the tile, and while
the tile is UNVERIFIED (R266). Behind an MSAVE of the other tile only its signal waits (R89). -/
def startMzero (t : Nat) (h : QEntry) (s : State) : Option State :=
  let x := s.tile t
  let a := wf h.word 51 51
  if !x.mat.recompute.isEmpty || (x.acc a).unverified || x.mat.run.any (·.acc == a) then none
  else if accBound x a then some (trap s t 1 cDEFER_CONFLICT h.pc 0)
  else
    let x := x.putAcc a (x.acc a).clear
    if saveBefore x.mat.run && wSE h.word then
      some (s.setTile t { x with mat := { x.mat with busyAt := s.now, run := x.mat.run ++ [⟨h, .cleared⟩] } })
    else some (applySignal (s.setTile t { x with mat := { x.mat with busyAt := s.now } }) t 1 h)

def execMzero (t : Tid) (s : State) : Host.Outcome State Fault Refusal :=
  .next (engineStart s t .matrix 0x10 1 (startMzero t))

/-- Start of MSAVE, MMERGE and MRESTORE (R146, R161, R166, R266). A product on the other tile that still has chunk steps does not hold
it; MISALIGNED is looked at before ADDR_UNMAPPED, and both report the image's address (DESIGN CHOICE, assumption log 80). -/
def startImage (t : Nat) (h : QEntry) (work : Nat → Nat → MatWork) (s : State) : Option State :=
  let x := s.tile t
  let a := wf h.word 51 51
  let addr := capS h (wSA h.word)
  if !x.mat.recompute.isEmpty || (x.acc a).unverified || x.mat.run.any (·.acc == a) then none
  else if accBound x a then some (trap s t 1 cDEFER_CONFLICT h.pc 0)
  else if addr % 64 ≠ 0 then some (trap s t 1 cMISALIGNED h.pc addr)
  else if !mappedRange addr imageBytes then some (trap s t 1 cADDR_UNMAPPED h.pc addr)
  else some (s.setTile t { x with mat := { x.mat with run := x.mat.run ++ [⟨h, work a addr⟩], busyAt := s.now } })

def execMsave (t : Tid) (s : State) : Host.Outcome State Fault Refusal :=
  .next (engineStart s t .matrix 0x10 2 fun h s => startImage t h .save s)

def execMmerge (t : Tid) (s : State) : Host.Outcome State Fault Refusal :=
  .next (engineStart s t .matrix 0x10 3 fun h s => startImage t h .merge s)

def execMrestore (t : Tid) (s : State) : Host.Outcome State Fault Refusal :=
  .next (engineStart s t .matrix 0x10 4 fun h s => startImage t h .restore s)

/-- The effect of an image read by MMERGE (R160): the lapse event where the two chains and 4 terms pass 2^40, and the
sticky bit alone where it comes from the image. -/
def mergeImage (s : State) (t acc : Nat) (b : List Byte) (pc : Nat) : State :=
  let x := s.tile t
  let a := x.acc acc
  let img := accOfImage b
  let s := s.setTile t (x.setAcc acc (mergeAcc a img))
  let s := if 2 ^ 40 < a.terms + img.terms + 4 ∧ !a.lapsed then lapse s t acc pc acc else s
  if img.lapsed then s.onTile t fun x => x.setAcc acc { x.acc acc with lapsed := true } else s

/-- The oldest image transfer completes: MSAVE's bytes are visible, MMERGE's terms have entered, MRESTORE's contents are
loaded, and the signal is applied (R146, R147, R160, R89). `ue`: an element that MSAVE or MMERGE reads has an uncorrectable error
in the accumulator SRAM (R170). -/
def execAccImageTransferDone (t : Tid) (ue : Bool) (s : State) : Host.Outcome State Fault Refusal :=
  .next (sameCycle s t 1 fun s =>
    let x := s.tile t
    if !isLive s t || !clkRuns s t then s else
    match firstIdx (fun r : MatRun => r.moves) x.mat.run with
    | none => s
    | some i => match x.mat.run[i]? with
      | none => s
      | some r =>
        let s1 := s.setTile t { x with mat := { x.mat with run := removeAt x.mat.run i, busyAt := s.now } }
        match r.work with
        | .save a addr =>
          if ue || accBad x a (fun _ => true) then trapSram s t 1 r.e.pc a
          else applySignal (memWriteH false s1 addr (x.acc a).image 0) t 1 r.e
        | .merge a addr =>
          let m := memReadH s1 addr imageBytes 0
          if ue || accBad x a (fun _ => true) then trapSram s t 1 r.e.pc a else
          (match m.bad with
           | some u => trap m.s t 1 cMEM_UNCORRECTABLE r.e.pc u
           | none => applySignal (mergeImage m.s t a m.data r.e.pc) t 1 r.e)
        | .restore a addr =>
          let m := memReadH s1 addr imageBytes 0
          (match m.bad with
           | some u => trap m.s t 1 cMEM_UNCORRECTABLE r.e.pc u
           | none =>
             if imageBad m.data then trap m.s t 1 cBAD_OPERAND r.e.pc addr
             else applySignal (m.s.onTile t fun x => x.putAcc a (accOfImage m.data)) t 1 r.e)
        | _ => s)

/-- The chain of a tile ends: UNVERIFIED is 0 and its snapshot is freed (R267, R268, R269). -/
def endChain (x : Tile) (a : Nat) : Tile :=
  let y := x.setAcc a { x.acc a with chain := [] }
  { y with mat := { y.mat with
      snap := (match y.mat.snap with | some (n, v) => if n = a then none else some (n, v) | none => none),
      unpaired := y.mat.unpaired.map fun u => if u.acc = a then { u with place := none } else u } }

/-- After a failed slab, once the instructions in progress have ended, the matrix unit restores or clears the tile and
executes the chain's MMs again without skipping (R269). `ue`: an element that they read has an uncorrectable error in the accumulator
SRAM (R170), for the first MM of the chain. -/
def execVerifyRecompute (u : AccUse) (s : State) : Host.Outcome State Fault Refusal :=
  let t := u.tile
  .next (sameCycle s t 1 fun s =>
    let x := s.tile t
    if !isLive s t || !clkRuns s t || x.mat.run.any (fun r => r.stepping x || r.moves) then s else
    match x.mat.recompute with
    | [] => s
    | a :: rest =>
      let chain := (x.acc a).chain
      if u.ue then trapSram s t 1 ((chain.head?.map (·.pc)).getD 0) a else
      let base := match x.mat.snap with
        | some (n, v) => if n = a then v else .zero
        | none => .zero
      let x := x.putAcc a { base with chain := chain }
      let s := s.setTile t { x with mat := { x.mat with recompute := rest, busyAt := s.now } }
      let one (s : State) (c : ChainMM) : State :=
        if !isLive s t then s else
        let s := if c.op.ovw then s.onTile t fun x => x.putAcc a (x.acc a).clear else s
        wholeProduct c.op.steps s t c.op 0 c.pc
      let s := chain.foldl one s
      if !isLive s t then s else
      let s := s.onTile t fun x => endChain x a
      let s := s.onTile t fun x => match x.vec.win with
        | some w => if w.accs.contains a then { x with vec := { x.vec with win := some { w with failed := true } } } else x
        | none => x
      addF s (fTILE_STR_STALL_COUNT t 14) 1)

end Sys2Proof.Machine
end

