-- ==== Sys2Proof/Machine/Scalar.lean ====
section
/-!
DEFINITION. The meanings of the scalar class (spec 03 R102 to R108): ALU, long immediates, loads, stores, atomics, the
completion of their memory accesses, branches and jumps.
-/
namespace Sys2Proof.Machine

/-- The sign-extended value of an immediate as a 64-bit operand (R96). -/
def srcB (x : Tile) : SrcB → Word
  | .reg n => readS x n.val
  | .imm v => v.signExtend 64

/-- The registers that operand b reads. -/
def srcRegs : SrcB → List Nat
  | .reg n => [n.val]
  | .imm _ => []

/-- A shift amount: b[5:0] (R102). -/
def shiftB (x : Tile) : ShiftB → Nat
  | .reg n => (readS x n.val).toNat % 64
  | .imm n => n.toNat

def shiftRegs : ShiftB → List Nat
  | .reg n => [n.val]
  | .imm _ => []

/-- The word of an ALU instruction: MAJ 0x01 in format SR, MAJ 0x02 in format SI (R101, R102). -/
def aluWord (min : Nat) (sd sa : SReg) : SrcB → Word
  | .reg n => srWord 1 min sd.val sa.val n.val
  | .imm v => siWord 2 min sd.val sa.val v.toNat

def shiftWord (min : Nat) (sd sa : SReg) : ShiftB → Word
  | .reg n => srWord 1 min sd.val sa.val n.val
  | .imm n => siWord 2 min sd.val sa.val n.toNat

/-- A two-operand ALU instruction: SD := f a b (R102). -/
def aluOp (t : Tid) (min : Nat) (sd sa : SReg) (b : SrcB) (f : Word → Word → Word) (s : State) : State :=
  coreWrite s t (aluWord min sd sa b) (sa.val :: srcRegs b) sd.val fun x => f (readS x sa.val) (srcB x b)

/-- A shift (R102). -/
def shiftOp (t : Tid) (min : Nat) (sd sa : SReg) (b : ShiftB) (f : Word → Nat → Word) (s : State) : State :=
  coreWrite s t (shiftWord min sd sa b) (sa.val :: shiftRegs b) sd.val fun x => f (readS x sa.val) (shiftB x b)

/-- A one-operand ALU instruction. -/
def unaryOp (t : Tid) (min : Nat) (sd sa : SReg) (f : Word → Word) (s : State) : State :=
  coreWrite s t (srWord 1 min sd.val sa.val 0) [sa.val] sd.val fun x => f (readS x sa.val)

/-- A division (R103): b = 0 aborts the task with DIV_ZERO. -/
def divOp (t : Tid) (min : Nat) (sd sa : SReg) (b : SrcB) (f : Word → Word → Word) (s : State) : State :=
  coreStep s t (aluWord min sd sa b) (sd.val :: sa.val :: srcRegs b) fun s x =>
    if srcB x b = 0 then trap s t 0 cDIV_ZERO x.pc 0
    else advance (s.setTile t (writeS x sd.val (f (readS x sa.val) (srcB x b)))) t

/-- A truth value as a register value. -/
def boolW (b : Bool) : Word := if b then 1 else 0

/-- Number of 1 bits. -/
def popc (a : Word) : Nat := (List.range 64).foldl (fun c i => if a.getLsbD i then c + 1 else c) 0

/-- Leading zeros, 0 to 64. -/
def clz (a : Word) : Nat := if a = 0 then 64 else 63 - Nat.log2 a.toNat

/-- Trailing zeros, 0 to 64. -/
def ctz (a : Word) : Nat := ((List.range 64).find? fun i => a.getLsbD i).getD 64

def execAdd (t : Tid) (sd sa : SReg) (b : SrcB) (s : State) : Host.Outcome State Fault Refusal :=
  .next (aluOp t 0x00 sd sa b (· + ·) s)

def execSub (t : Tid) (sd sa : SReg) (b : SrcB) (s : State) : Host.Outcome State Fault Refusal :=
  .next (aluOp t 0x01 sd sa b (· - ·) s)

def execAnd (t : Tid) (sd sa : SReg) (b : SrcB) (s : State) : Host.Outcome State Fault Refusal :=
  .next (aluOp t 0x02 sd sa b (· &&& ·) s)

def execOr (t : Tid) (sd sa : SReg) (b : SrcB) (s : State) : Host.Outcome State Fault Refusal :=
  .next (aluOp t 0x03 sd sa b (· ||| ·) s)

def execXor (t : Tid) (sd sa : SReg) (b : SrcB) (s : State) : Host.Outcome State Fault Refusal :=
  .next (aluOp t 0x04 sd sa b (· ^^^ ·) s)

def execAndn (t : Tid) (sd sa : SReg) (b : SrcB) (s : State) : Host.Outcome State Fault Refusal :=
  .next (aluOp t 0x05 sd sa b (fun a b => a &&& ~~~b) s)

def execShl (t : Tid) (sd sa : SReg) (b : ShiftB) (s : State) : Host.Outcome State Fault Refusal :=
  .next (shiftOp t 0x06 sd sa b (· <<< ·) s)

def execShr (t : Tid) (sd sa : SReg) (b : ShiftB) (s : State) : Host.Outcome State Fault Refusal :=
  .next (shiftOp t 0x07 sd sa b (· >>> ·) s)

def execSra (t : Tid) (sd sa : SReg) (b : ShiftB) (s : State) : Host.Outcome State Fault Refusal :=
  .next (shiftOp t 0x08 sd sa b (fun a n => a.sshiftRight n) s)

def execMul (t : Tid) (sd sa : SReg) (b : SrcB) (s : State) : Host.Outcome State Fault Refusal :=
  .next (aluOp t 0x09 sd sa b (· * ·) s)

def execMulh (t : Tid) (sd sa sb : SReg) (s : State) : Host.Outcome State Fault Refusal :=
  .next (aluOp t 0x0A sd sa (.reg sb) (fun a b => BitVec.ofInt 64 (a.toInt * b.toInt / 2 ^ 64)) s)

def execMulhu (t : Tid) (sd sa sb : SReg) (s : State) : Host.Outcome State Fault Refusal :=
  .next (aluOp t 0x0B sd sa (.reg sb) (fun a b => BitVec.ofNat 64 (a.toNat * b.toNat / 2 ^ 64)) s)

def execDiv (t : Tid) (sd sa : SReg) (b : SrcB) (s : State) : Host.Outcome State Fault Refusal :=
  .next (divOp t 0x0C sd sa b (fun a b => BitVec.ofInt 64 (a.toInt.tdiv b.toInt)) s)

def execDivu (t : Tid) (sd sa : SReg) (b : SrcB) (s : State) : Host.Outcome State Fault Refusal :=
  .next (divOp t 0x0D sd sa b (fun a b => BitVec.ofNat 64 (a.toNat / b.toNat)) s)

def execRem (t : Tid) (sd sa : SReg) (b : SrcB) (s : State) : Host.Outcome State Fault Refusal :=
  .next (divOp t 0x0E sd sa b (fun a b => BitVec.ofInt 64 (a.toInt.tmod b.toInt)) s)

def execRemu (t : Tid) (sd sa : SReg) (b : SrcB) (s : State) : Host.Outcome State Fault Refusal :=
  .next (divOp t 0x0F sd sa b (fun a b => BitVec.ofNat 64 (a.toNat % b.toNat)) s)

def execSlt (t : Tid) (sd sa : SReg) (b : SrcB) (s : State) : Host.Outcome State Fault Refusal :=
  .next (aluOp t 0x10 sd sa b (fun a b => boolW (a.slt b)) s)

def execSltu (t : Tid) (sd sa : SReg) (b : SrcB) (s : State) : Host.Outcome State Fault Refusal :=
  .next (aluOp t 0x11 sd sa b (fun a b => boolW (a.ult b)) s)

def execSeq (t : Tid) (sd sa : SReg) (b : SrcB) (s : State) : Host.Outcome State Fault Refusal :=
  .next (aluOp t 0x12 sd sa b (fun a b => boolW (a == b)) s)

def execMin (t : Tid) (sd sa : SReg) (b : SrcB) (s : State) : Host.Outcome State Fault Refusal :=
  .next (aluOp t 0x13 sd sa b (fun a b => if a.slt b then a else b) s)

def execMax (t : Tid) (sd sa : SReg) (b : SrcB) (s : State) : Host.Outcome State Fault Refusal :=
  .next (aluOp t 0x14 sd sa b (fun a b => if a.slt b then b else a) s)

def execMinu (t : Tid) (sd sa : SReg) (b : SrcB) (s : State) : Host.Outcome State Fault Refusal :=
  .next (aluOp t 0x15 sd sa b (fun a b => if a.ult b then a else b) s)

def execMaxu (t : Tid) (sd sa : SReg) (b : SrcB) (s : State) : Host.Outcome State Fault Refusal :=
  .next (aluOp t 0x16 sd sa b (fun a b => if a.ult b then b else a) s)

def execPopc (t : Tid) (sd sa : SReg) (s : State) : Host.Outcome State Fault Refusal :=
  .next (unaryOp t 0x17 sd sa (fun a => BitVec.ofNat 64 (popc a)) s)

def execClz (t : Tid) (sd sa : SReg) (s : State) : Host.Outcome State Fault Refusal :=
  .next (unaryOp t 0x18 sd sa (fun a => BitVec.ofNat 64 (clz a)) s)

def execCtz (t : Tid) (sd sa : SReg) (s : State) : Host.Outcome State Fault Refusal :=
  .next (unaryOp t 0x19 sd sa (fun a => BitVec.ofNat 64 (ctz a)) s)

/-- LI: SD := IMM46 sign-extended (R104). -/
def execLi (t : Tid) (sd : SReg) (imm : BitVec 46) (s : State) : Host.Outcome State Fault Refusal :=
  .next (coreWrite s t (slWord 3 0 sd.val imm.toNat) [] sd.val fun _ => imm.signExtend 64)

/-- LIH: SD[63:46] := IMM46[17:0] (R104). -/
def execLih (t : Tid) (sd : SReg) (imm : BitVec 18) (s : State) : Host.Outcome State Fault Refusal :=
  .next (coreWrite s t (slWord 3 1 sd.val imm.toNat) [sd.val] sd.val fun x =>
    BitVec.ofNat 64 (imm.toNat * 2 ^ 46 + (readS x sd.val).toNat % 2 ^ 46))

/-! ### Loads, stores and atomics -/

/-- The effective address s(SA) + OFF34 (R105). -/
def effAddr (x : Tile) (sa : SReg) (offs : BitVec 34) : Nat := (readS x sa.val + offs.signExtend 64).toNat

/-- The core issues an access to device memory, after the checks of R106 in the order of its table. -/
def memIssue (s : State) (t : Tid) (w : Word) (reads : List Nat) (sd : Nat) (size hint : Nat) (addr : Tile → Nat)
    (kind : Tile → ScalarKind) : State :=
  coreStep s t w reads fun s x =>
    let a := addr x
    if a % size ≠ 0 then trap s t 0 cMISALIGNED x.pc a
    else if !mapped a then trap s t 0 cADDR_UNMAPPED x.pc a
    else advance (s.setTile t { x with ops := x.ops ++ [⟨x.pc, x.issued, sd, a, hint, kind x⟩], issued := x.issued + 1 }) t

def loadOp (t : Tid) (min : Nat) (sd sa : SReg) (hint : BitVec 2) (offs : BitVec 34) (size : Nat) (sgn : Bool) (s : State) : State :=
  memIssue s t (smWord 4 min sd.val sa.val hint.toNat offs.toNat) [sd.val, sa.val] sd.val size hint.toNat (fun x => effAddr x sa offs) fun _ => .load size sgn

def storeOp (t : Tid) (min : Nat) (sd sa : SReg) (hint : BitVec 2) (offs : BitVec 34) (size : Nat) (s : State) : State :=
  memIssue s t (smWord 5 min sd.val sa.val hint.toNat offs.toNat) [sd.val, sa.val] sd.val size hint.toNat (fun x => effAddr x sa offs) fun x => .store size (readS x sd.val)

def execLd8u (t : Tid) (sd sa : SReg) (hint : BitVec 2) (offs : BitVec 34) (s : State) : Host.Outcome State Fault Refusal :=
  .next (loadOp t 0 sd sa hint offs 1 false s)

def execLd16u (t : Tid) (sd sa : SReg) (hint : BitVec 2) (offs : BitVec 34) (s : State) : Host.Outcome State Fault Refusal :=
  .next (loadOp t 1 sd sa hint offs 2 false s)

def execLd32u (t : Tid) (sd sa : SReg) (hint : BitVec 2) (offs : BitVec 34) (s : State) : Host.Outcome State Fault Refusal :=
  .next (loadOp t 2 sd sa hint offs 4 false s)

def execLd64 (t : Tid) (sd sa : SReg) (hint : BitVec 2) (offs : BitVec 34) (s : State) : Host.Outcome State Fault Refusal :=
  .next (loadOp t 3 sd sa hint offs 8 false s)

def execLd8s (t : Tid) (sd sa : SReg) (hint : BitVec 2) (offs : BitVec 34) (s : State) : Host.Outcome State Fault Refusal :=
  .next (loadOp t 4 sd sa hint offs 1 true s)

def execLd16s (t : Tid) (sd sa : SReg) (hint : BitVec 2) (offs : BitVec 34) (s : State) : Host.Outcome State Fault Refusal :=
  .next (loadOp t 5 sd sa hint offs 2 true s)

def execLd32s (t : Tid) (sd sa : SReg) (hint : BitVec 2) (offs : BitVec 34) (s : State) : Host.Outcome State Fault Refusal :=
  .next (loadOp t 6 sd sa hint offs 4 true s)

/-- LDO64: from the operand cache (R105, R106). -/
def execLdo64 (t : Tid) (sd sa : SReg) (offs : BitVec 34) (s : State) : Host.Outcome State Fault Refusal :=
  .next (coreStep s t (smWord 4 8 sd.val sa.val 0 offs.toNat) [sd.val, sa.val] fun s x =>
    let a := effAddr x sa offs
    if a % 8 ≠ 0 then trap s t 0 cMISALIGNED x.pc a
    else if ocSize ≤ a then trap s t 0 cOC_RANGE x.pc a
    else match ocUe x [(a, 8)] with
      | some _ => trapSram s t 0 x.pc a
      | none => advance (s.setTile t (writeS x sd.val (BitVec.ofNat 64 (ofBytes (ocBytes x a 8))))) t)

def execSt8 (t : Tid) (sd sa : SReg) (hint : BitVec 2) (offs : BitVec 34) (s : State) : Host.Outcome State Fault Refusal :=
  .next (storeOp t 0 sd sa hint offs 1 s)

def execSt16 (t : Tid) (sd sa : SReg) (hint : BitVec 2) (offs : BitVec 34) (s : State) : Host.Outcome State Fault Refusal :=
  .next (storeOp t 1 sd sa hint offs 2 s)

def execSt32 (t : Tid) (sd sa : SReg) (hint : BitVec 2) (offs : BitVec 34) (s : State) : Host.Outcome State Fault Refusal :=
  .next (storeOp t 2 sd sa hint offs 4 s)

def execSt64 (t : Tid) (sd sa : SReg) (hint : BitVec 2) (offs : BitVec 34) (s : State) : Host.Outcome State Fault Refusal :=
  .next (storeOp t 3 sd sa hint offs 8 s)

/-- STO64: into the operand cache (R105, R106, R134). -/
def execSto64 (t : Tid) (sd sa : SReg) (offs : BitVec 34) (s : State) : Host.Outcome State Fault Refusal :=
  .next (coreStep s t (smWord 5 8 sd.val sa.val 0 offs.toNat) [sd.val, sa.val] fun s x =>
    let a := effAddr x sa offs
    if a % 8 ≠ 0 then trap s t 0 cMISALIGNED x.pc a
    else if ocSize ≤ a then trap s t 0 cOC_RANGE x.pc a
    else if inCode x a 8 then trap s t 0 cCODE_WRITE x.pc a
    else advance (s.setTile t (ocPut x a (toBytes 8 (readS x sd.val).toNat))) t)

/-- An atomic (R107): its operands are read at issue. -/
def atomicOp (t : Tid) (min : Nat) (sd sa sb : SReg) (kind : Tile → ScalarKind) (s : State) : State :=
  memIssue s t (srWord 6 min sd.val sa.val sb.val) [sd.val, sa.val, sb.val] sd.val 8 0 (fun x => (readS x sa.val).toNat) kind

def execAadd (t : Tid) (sd sa sb : SReg) (s : State) : Host.Outcome State Fault Refusal :=
  .next (atomicOp t 0 sd sa sb (fun x => .aadd (readS x sb.val)) s)

def execAswap (t : Tid) (sd sa sb : SReg) (s : State) : Host.Outcome State Fault Refusal :=
  .next (atomicOp t 1 sd sa sb (fun x => .aswap (readS x sb.val)) s)

def execAcas (t : Tid) (sd sa sb : SReg) (s : State) : Host.Outcome State Fault Refusal :=
  .next (atomicOp t 2 sd sa sb (fun x => .acas (readS x sb.val) (readS x sd.val)) s)

def execAor (t : Tid) (sd sa sb : SReg) (s : State) : Host.Outcome State Fault Refusal :=
  .next (atomicOp t 3 sd sa sb (fun x => .aor (readS x sb.val)) s)

/-- Bytes that an outstanding operation accesses. -/
def ScalarOp.size (o : ScalarOp) : Nat :=
  match o.kind with
  | .load n _ => n
  | .store n _ => n
  | .signal _ _ => 0
  | _ => 8

/-- Does the operation write memory (R107: an atomic is ordered as a store)? -/
def ScalarOp.writes (o : ScalarOp) : Bool :=
  match o.kind with
  | .load _ _ => false
  | .signal _ _ => false
  | _ => true

/-- The tile without its outstanding operation i. -/
def withoutOp (x : Tile) (i : Nat) : Tile := { x with ops := removeAt x.ops i }

/-- The operation is a signal that waits. -/
def ScalarOp.isSignal (o : ScalarOp) : Bool :=
  match o.kind with
  | .signal _ _ => true
  | _ => false

/-- The core's own stores and atomics are visible (R89, R109). -/
def storesDone (x : Tile) : Bool := !x.ops.any (·.writes)

/-- Apply the core's signals that no earlier store holds any longer (R89). The fuel is the list's length. -/
def flushSignals : Nat → Nat → State → State
  | 0, _, s => s
  | f + 1, t, s =>
    let x := s.tile t
    match firstIdx ScalarOp.isSignal x.ops with
    | none => s
    | some i =>
      if (x.ops.take i).any (·.writes) then s
      else match x.ops[i]? with
        | some ⟨pc, _, _, _, _, .signal n k⟩ =>
          flushSignals f t (tkAdd (s.setTile t (withoutOp x i)) t n k 0 pc)
        | _ => s

/-- A local SVFENCE of the tile that comes before place `ord` in program order has started and its version write is not
visible (R256). -/
def fenced (x : Tile) (ord : Nat) : Bool :=
  (x.str.queue ++ x.str.run.map (·.e)).any fun e =>
    wMaj e.word == 0x20 && wMin e.word == 5 && bit (capS e (wsSW e.word)) 15 && decide (e.ord < ord)

/-- A word's new value under an atomic (R107). -/
def atomicNew (k : ScalarKind) (old : Word) : Word :=
  match k with
  | .aadd b => old + b
  | .aswap b => b
  | .acas b e => if old = e then b else old
  | .aor b => old ||| b
  | _ => old

/-- The data of operation i returns from B, or its store becomes visible (R105 to R107). Accesses of the core to
overlapping bytes take effect in program order (R93). During an abort, a store already issued lands and a load's data is
discarded (R119). -/
def execScalarMemoryComplete (t : Tid) (i : Nat) (s : State) : Host.Outcome State Fault Refusal :=
  .next (sameCycle s t 0 fun s =>
    let x := s.tile t
    if !isRunning s t then s else
    match x.ops[i]? with
    | none => s
    | some o =>
      if (x.ops.take i).any (fun p => rangesMeet p.addr p.size o.addr o.size) || (o.writes && fenced x o.ord) then s else
      let s1 := s.setTile t (withoutOp x i)
      match o.kind with
      | .signal _ _ => s
      | .load n sgn =>
        let r := memReadH s1 o.addr n o.hint
        if x.aborting then r.s
        else match r.bad with
          | some _ => trap r.s t 0 cMEM_UNCORRECTABLE o.pc o.addr
          | none =>
            let v := ofBytes r.data
            let w : Word := if sgn then BitVec.ofInt 64 (sx (8 * n) v) else BitVec.ofNat 64 v
            r.s.onTile t fun x => writeS x o.sd w
      | .store n d => flushSignals (x.ops.length + 1) t (memWriteH false s1 o.addr (toBytes n d.toNat) o.hint)
      | k =>
        let r := memReadH s1 o.addr 8 o.hint
        match r.bad with
        | some _ => if x.aborting then r.s else trap r.s t 0 cMEM_UNCORRECTABLE o.pc o.addr
        | none =>
          let old : Word := BitVec.ofNat 64 (ofBytes r.data)
          let s2 := memWriteH false r.s o.addr (toBytes 8 (atomicNew k old).toNat) o.hint
          let s3 := if x.aborting then s2 else s2.onTile t fun x => writeS x o.sd old
          flushSignals (x.ops.length + 1) t s3)

/-! ### Branches and jumps (R108) -/

/-- Go to a target in the code window; outside it the task aborts with FETCH_FAULT at the branch. -/
def goTo (s : State) (t : Nat) (x : Tile) (target : Int) : State :=
  if 0 ≤ target ∧ inWindow x target.toNat then s.setTile t { x with pc := target.toNat }
  else trap s t 0 cFETCH_FAULT (s.tile t).pc 0

def branchOp (t : Tid) (min : Nat) (sa sb : SReg) (offs : BitVec 40) (c : Word → Word → Bool) (s : State) : State :=
  coreStep s t (sbWord 7 min sa.val sb.val offs.toNat) [sa.val, sb.val] fun s x =>
    if c (readS x sa.val) (readS x sb.val) then goTo s t x ((x.pc : Int) + 8 * offs.toInt) else advance s t

def execBeq (t : Tid) (sa sb : SReg) (offs : BitVec 40) (s : State) : Host.Outcome State Fault Refusal :=
  .next (branchOp t 0 sa sb offs (· == ·) s)

def execBne (t : Tid) (sa sb : SReg) (offs : BitVec 40) (s : State) : Host.Outcome State Fault Refusal :=
  .next (branchOp t 1 sa sb offs (· != ·) s)

def execBlt (t : Tid) (sa sb : SReg) (offs : BitVec 40) (s : State) : Host.Outcome State Fault Refusal :=
  .next (branchOp t 2 sa sb offs (fun a b => a.slt b) s)

def execBge (t : Tid) (sa sb : SReg) (offs : BitVec 40) (s : State) : Host.Outcome State Fault Refusal :=
  .next (branchOp t 3 sa sb offs (fun a b => !a.slt b) s)

def execBltu (t : Tid) (sa sb : SReg) (offs : BitVec 40) (s : State) : Host.Outcome State Fault Refusal :=
  .next (branchOp t 4 sa sb offs (fun a b => a.ult b) s)

def execBgeu (t : Tid) (sa sb : SReg) (offs : BitVec 40) (s : State) : Host.Outcome State Fault Refusal :=
  .next (branchOp t 5 sa sb offs (fun a b => !a.ult b) s)

/-- JAL: SD := PC + 8; PC := PC + 8·IMM46. -/
def execJal (t : Tid) (sd : SReg) (imm : BitVec 46) (s : State) : Host.Outcome State Fault Refusal :=
  .next (coreStep s t (slWord 8 0 sd.val imm.toNat) [sd.val] fun s x =>
    goTo s t (writeS x sd.val (BitVec.ofNat 64 (x.pc + 8))) ((x.pc : Int) + 8 * imm.toInt))

/-- JALR: the target is computed before SD is written; one that is no multiple of 8 aborts with MISALIGNED. -/
def execJalr (t : Tid) (sd sa : SReg) (imm : BitVec 40) (s : State) : Host.Outcome State Fault Refusal :=
  .next (coreStep s t (siWord 9 0 sd.val sa.val imm.toNat) [sd.val, sa.val] fun s x =>
    let target := (readS x sa.val + 8 * imm.signExtend 64).toNat
    if target % 8 ≠ 0 then trap s t 0 cMISALIGNED x.pc target
    else goTo s t (writeS x sd.val (BitVec.ofNat 64 (x.pc + 8))) target)

end Sys2Proof.Machine
end

