-- ==== Sys2Proof/Machine/Vector.lean ====
section
/-!
DEFINITION. The meanings of the vector class (spec 05): arithmetic, comparisons and mask operations, loads and stores,
accumulator reads, seeds and reductions, special registers, and the replay of a verification window.
-/
namespace Sys2Proof.Machine

/-! ### Lane functions -/

/-- Pack a lane function of a and b at an exponent. -/
def packAB (f : Int × Int → Int × Int → Int × Int) (er : Blk → Blk → Int) (act : List Bool) (a b : Blk) : Blk × Bool :=
  pack act (((dyads a).zip (dyads b)).map fun p => f p.1 p.2) (er a b)

def dyNeg (p : Int × Int) : Int × Int := (-p.1, p.2)
def maxE (a b : Blk) : Int := max (a.e : Int) b.e

/-- A bitwise operation of the mantissas, at Ea (R182). -/
def logicAB (f : Nat → Nat → Nat) (act : List Bool) (a b : Blk) : Blk × Bool :=
  (maskBlk act ⟨a.e, (List.range 32).map fun i => sgn32 (f (pat32 (a.m.getD i 0)) (pat32 (b.m.getD i 0)))⟩, false)

/-- FP32 result of a lane operation on values (R202). -/
def ref2 (f : Val → Val → Val) (a b _d : Nat) (_s : Bool) : Nat := rn32v (f (f32v a) (f32v b))

/-- rn32 of a sum, with the sign of an exact zero of IEEE 754 round to nearest: −0 only from two negative zeros. -/
def refAdd (a b _d : Nat) (_s : Bool) : Nat := if a = 0x80000000 ∧ b = 0x80000000 then a else rn32v ((f32v a).add (f32v b))

/-- Flip the sign of a pattern. -/
def negPat (a : Nat) : Nat := if a < 2 ^ 31 then a + 2 ^ 31 else a - 2 ^ 31

/-- IEEE order of two values that are no NaN, with −0 below +0 when `strictZero`. -/
def valLt (strictZero : Bool) (a b : Val) : Bool :=
  match a, b with
  | .nan, _ => false
  | _, .nan => false
  | .inf x, .inf y => x && !y
  | .inf x, _ => x
  | _, .inf y => !y
  | .fin n m e, .fin n' m' e' =>
    if m = 0 ∧ m' = 0 then strictZero && n && !n' else dyLt (signed n m, e) (signed n' m', e')

/-- IEEE minimum and maximum (R202). -/
def refMin (a b _d : Nat) (_s : Bool) : Nat :=
  if f32v a = .nan ∨ f32v b = .nan then 0x7FC00000 else if valLt true (f32v b) (f32v a) then b else a
def refMax (a b _d : Nat) (_s : Bool) : Nat :=
  if f32v a = .nan ∨ f32v b = .nan then 0x7FC00000 else if valLt true (f32v a) (f32v b) then b else a

def dyMin (p q : Int × Int) : Int × Int := if dyLt q p then q else p
def dyMax (p q : Int × Int) : Int × Int := if dyLt p q then q else p

/-- No result in the personality that the row does not list. -/
def noRef (_a _b _d : Nat) (_s : Bool) : Nat := 0
def noBfx (_act : List Bool) (_n : Nat) (a _b : Blk) (_s : Nat → Bool) : Blk × Bool := (a, false)

/-! ### MAJ 0x18 -/

def runVadd : VRun := arith true false false (fun act _ a b _ => packAB dyAdd maxE act a b) refAdd
def runVsub : VRun := arith true false false (fun act _ a b _ => packAB (fun p q => dyAdd p (dyNeg q)) maxE act a b)
  fun a b d s => refAdd a (negPat b) d s
def runVmul : VRun := arith true false false
  (fun act _ a b _ => packAB dyMul (fun a b => (a.e : Int) + b.e - 156) act a b) (ref2 Val.mul)
def runVmulh : VRun := arith true false false
  (fun act _ a b _ => packAB dyMul (fun a b => (a.e : Int) + b.e - 127) act a b) noRef
/-- VFMA: one rounding of x_a · x_b + x_d (R202). -/
def refFma (a b d : Nat) (_s : Bool) : Nat :=
  let p := (f32v a).mul (f32v b)
  let q := f32v d
  match p, q with
  | .fin n 0 _, .fin n' 0 _ => if n && n' then 0x80000000 else 0
  | _, _ => rn32v (p.add q)
def runVfma : VRun := arith true false true noBfx refFma
def runVmin : VRun := arith true false false (fun act _ a b _ => packAB dyMin maxE act a b) refMin
def runVmax : VRun := arith true false false (fun act _ a b _ => packAB dyMax maxE act a b) refMax
def runVabs : VRun := arith false false false
  (fun act _ a _ _ => pack act ((dyads a).map fun p => (p.1.natAbs, p.2)) a.e) noRef
def runVneg : VRun := arith false false false (fun act _ a _ _ => pack act ((dyads a).map dyNeg) a.e) noRef
def runVand : VRun := arith true false false (fun act _ a b _ => logicAB (· &&& ·) act a b) noRef
def runVor : VRun := arith true false false (fun act _ a b _ => logicAB (· ||| ·) act a b) noRef
def runVxor : VRun := arith true false false (fun act _ a b _ => logicAB (· ^^^ ·) act a b) noRef
def runVandn : VRun := arith true false false (fun act _ a b _ => logicAB (fun p q => p &&& (0xFFFFFFFF - q)) act a b) noRef

/-- Integer shifts at Ea: the raw results, saturated to 32 bits (R182). -/
def shiftBlk (f : Int → Int) (act : List Bool) (a : Blk) : Blk × Bool :=
  let raw := (maskBlk act a).m.map f
  (⟨a.e, raw.map fun x => satS x 32⟩, raw.any fun x => decide (satS x 32 ≠ x))

def runVshl : VRun := arith false false false (fun act n a _ _ => shiftBlk (· * 2 ^ (n % 32)) act a) noRef
def runVsra : VRun := arith false false false (fun act n a _ _ => shiftBlk (fun m => Int.fdiv m (2 ^ (n % 32))) act a) noRef
def runVsrr : VRun := arith false false false (fun act n a _ _ => shiftBlk (fun m => rneScaleInt m (-((n % 32 : Nat) : Int))) act a)
  noRef
def runVcmplt : VRun := compare dyLt (valLt false)
def runVcmple : VRun := compare (fun p q => !dyLt q p) fun a b => a != .nan && b != .nan && !valLt false b a
def runVcmpeq : VRun := compare (fun p q => !dyLt p q && !dyLt q p)
  fun a b => a != .nan && b != .nan && !valLt false a b && !valLt false b a
def runVsel : VRun := arith true true false
  (fun act _ a b sl => pack act ((List.range 32).map fun i =>
    (if sl i then dyads a else dyads b).getD i (0, 0)) (maxE a b))
  fun a b _ s => if s then a else b
def runVmov : VRun := arith false false false (fun act _ a _ _ => (maskBlk act a, false)) fun a _ _ _ => a
def runVscale : VRun := arith false false false
  (fun act n a _ _ => pack act ((dyads a).map fun p => (p.1, p.2 + sx 6 n)) (a.e + sx 6 n)) noRef
def runValign : VRun := arith true false false (fun act _ a b _ => pack act (dyads a) b.e) noRef
def runVnorm : VRun := arith false false false
  (fun act _ a _ _ => toBfx (maskVals act ((List.range 32).map a.val))) noRef
def runVkand : VRun := maskOp (· &&& ·)
def runVkor : VRun := maskOp (· ||| ·)
def runVkxor : VRun := maskOp (· ^^^ ·)
def runVrsub : VRun := arith true false false (fun act _ a b _ => packAB (fun p q => dyAdd q (dyNeg p)) maxE act a b)
  fun a b d s => refAdd b (negPat a) d s

/-! ### Loads and stores (R183 to R186) -/

/-- A stride field, or its default where it is 0. -/
def strideOr (field unit dflt : Nat) : Nat := if field = 0 then dflt else field * unit

/-- The elements and scales of block b that a VLD or VST addresses (R183, R184). -/
def vmBlk (h : QEntry) (b : Nat) : VLoadBlk :=
  let w := h.word
  let fmt := wFA w
  let x := capS h (wmSX w)
  let y := capS h (wmSY w)
  { blk := b, addr := bits x 51 0 + b * strideOr (bits x 63 52) 64 (runBytes fmt), len := runBytes fmt,
    saddr := bits y 51 0 + b * strideOr (bits y 63 52) 1 (scaleBytes fmt), slen := scaleBytes fmt }

/-- The fault of the addresses of a VLD or VST for the given blocks (R183, R184, R38, R134). -/
def vmFault (x : Tile) (h : QEntry) (bl : List Nat) (write : Bool) : Option (Nat × Nat) :=
  let w := h.word
  let sx := capS h (wmSX w)
  let sy := capS h (wmSY w)
  let scaled := decide (5 ≤ wFA w)
  let high : Option (Nat × Nat) :=
    if wmOC w && bits sx 51 21 != 0 then some (cOC_RANGE, bits sx 51 0)
    else if wmOC w && scaled && bits sy 51 21 != 0 then some (cOC_RANGE, bits sy 51 0) else none
  let range (a n : Nat) : Option (Nat × Nat) :=
    if n = 0 then none
    else if wmOC w then
      if ocSize < a + n then some (cOC_RANGE, a) else if write && inCode x a n then some (cCODE_WRITE, a) else none
    else if mappedRange a n then none else some (cADDR_UNMAPPED, a)
  firstFault (high :: (bl.map fun b =>
    let k := vmBlk h b
    if k.addr % k.len ≠ 0 then some (cMISALIGNED, k.addr)
    else firstFault [range k.addr k.len, range k.saddr k.slen]))

/-- The destination block of a load from its bytes (R185, R202). -/
def loadedBlk (pers fmt : Nat) (act : List Bool) (old : VBlk) (poison : Bool) (b sc : List Byte) : VBlk × Bool × Bool :=
  if pers = 0 then
    let r :=
      if fmt = 13 then (let k := bfxOf b (leAt sc 0 1); (if k.isNonfin then k else maskBlk act k, false))
      else toBfx (maskVals act (blockVals fmt b sc))
    (⟨r.1, poison⟩, r.2, r.1.isNonfin)
  else
    let vs := blockVals fmt b sc
    refResult act old (if act.all (·) then [] else [old]) poison fun i => rn32v (vs.getD i .nan)

/-- The blocks that a load writes, from the bytes that `rd` gives. -/
def loadBlocks (r : VecRegs) (l : VLoad) (rd : Nat → Nat → List Byte) : List (Nat × VBlk × Bool × Bool) :=
  l.blks.map fun k =>
    (k.blk, loadedBlk l.pers l.fmt ((l.act.drop (32 * k.blk)).take 32) (r.blk l.dest k.blk) l.poison (rd k.addr k.len)
      (rd k.saddr k.slen))

/-- Write the blocks of a load into the v register, which operand-cache mode does not touch (R183). -/
def putLoaded (r : VecRegs) (dest : Nat) (l : List (Nat × VBlk × Bool × Bool)) : VecRegs :=
  (l.foldl (fun r p => r.setBlk dest p.1 p.2.1) r).flags (l.any fun p => p.2.2.1) (l.any fun p => p.2.2.2)

def runVld : VRun := fun t h s =>
  let x := s.tile t
  let r := x.vec.r
  let w := h.word
  let bl := r.blocks (wmKM w)
  match vmFault x h bl false with
  | some (c, i) => .fault c i s
  | none =>
    let l : VLoad := ⟨wVD w, wFA w, bl.map (vmBlk h), r.act (wmKM w) 0 ++ r.act (wmKM w) 1, r.pers, r.maskPoison (wmKM w), 0, false⟩
    if wmOC w then
      match ocUe x (l.blks.flatMap fun k => [(k.addr, k.len), (k.saddr, k.slen)]) with
      | some o => .fault cMEM_UNCORRECTABLE o (sramUe s)
      | none => .ok { VEff.none with regs := fun r => putLoaded r l.dest (loadBlocks r l (ocView x)) } s
    else if bl.isEmpty then .ok VEff.none s
    else .ok { VEff.none with load := some l } s

/-- The history bytes of block b: address and count (R183, R184). -/
def histAt (h : QEntry) (b : Nat) : Nat × Nat :=
  let z := capS h (wmSH h.word)
  let n := scaleBytes (wFA h.word)
  (bits z 51 0 + b * strideOr (bits z 63 52) 1 n, n)

/-- What a VST writes for one block (R186, R202), with the old history bytes of a predicted one. -/
def storedBlk (pers fmt : Nat) (act : List Bool) (v : VBlk) (hist : Option (List Byte × Nat)) : Emit :=
  if pers = 0 then
    match fmtOf fmt with
    | some ⟨el, 0⟩ => emitPlain el (maskVals act ((List.range 32).map v.b.val))
    | _ => emitBlk fmt (if v.b.isNonfin then v.b else maskBlk act v.b) hist
  else
    let vs := maskVals act ((List.range 32).map fun i => f32v (lanePat v i))
    match fmtOf fmt with
    | some ⟨el, 0⟩ => { emitPlain el vs with sat := false }
    | _ => { emitBlk fmt (toBfx vs).1 hist with sat := false }

def runVst : VRun := fun t h s =>
  let x := s.tile t
  let r := x.vec.r
  let w := h.word
  let bl := r.blocks (wmKM w)
  let hFault := firstFault (bl.map fun b =>
    let a := histAt h b
    if wmPRED w && !mappedRange a.1 a.2 then some (cADDR_UNMAPPED, a.1) else none)
  match firstFault [vmFault x h bl true, hFault] with
  | some (c, i) => .fault c i s
  | none =>
    let pend := outWrites x.vec.out ++ heldDev x (match x.vec.win with | some v => v.held.length | none => 0)
    let one (a : VEff × State × Option Nat) (b : Nat) : VEff × State × Option Nat :=
      let k := vmBlk h b
      let ha := histAt h b
      let m := devView a.2.1 ha.1 (if wmPRED w then ha.2 else 0) pend
      let em := storedBlk r.pers (wFA w) (r.act (wmKM w) b) (r.blk (wVD w) b)
        (if wmPRED w then some (m.data, wmDEC w) else none)
      let ws := [⟨wmOC w, k.addr, em.run⟩] ++ (if k.slen = 0 then [] else [⟨wmOC w, k.saddr, em.scales⟩]) ++
        (if wmPRED w then [⟨false, ha.1, em.hist⟩] else [])
      ({ a.1 with writes := a.1.writes ++ ws, sat := a.1.sat || em.sat, nonfin := a.1.nonfin || em.nonfin,
                  outcomes := a.1.outcomes ++ em.outs }, m.s, (match a.2.2 with | some u => some u | none => m.bad))
    let e := bl.foldl one (VEff.none, s, none)
    match e.2.2 with
    | some u => .fault cMEM_UNCORRECTABLE u e.2.1
    | none => .ok e.1 e.2.1

/-! ### MAJ 0x1A -/

/-- Open a verification window (R196): the shadow, an empty replay buffer, and the count. -/
def openWindow (s : State) (t acc : Nat) : State :=
  let s := addF s (fTILE_VEC_WINDOWS_OPENED t) 1
  s.onTile t fun x => { x with vec := { x.vec with win := some ⟨x.vec.r, [], [], [], [], [acc], false⟩ } }

/-- A read of an UNVERIFIED tile joins the open window. -/
def joinWindow (s : State) (t acc : Nat) : State :=
  s.onTile t fun x => match x.vec.win with
    | none => x
    | some w => { x with vec := { x.vec with win := some { w with accs := if w.accs.contains acc then w.accs else acc :: w.accs } } }

/-- Is a load from device memory outstanding? -/
def anyLoad (l : List VMem) : Bool := l.any fun m => match m.kind with | .load _ => true | _ => false

/-- VRDACC (R188, R196). It waits under R161; the window opens once no earlier load is outstanding. -/
def runVrdacc : VRun := fun t h s =>
  let x := s.tile t
  let r := x.vec.r
  let w := h.word
  let a := wIMM6 w % 2
  let col := bit (wIMM6 w) 1
  let v := capS h (wSS w)
  let bl := r.blocks (wKM w)
  if accBound x a then .fault cDEFER_CONFLICT 0 s
  else if v ≠ v % 256 then .fault cBAD_OPERAND v s
  else match firstFault [ocFault x (wVD w) bl true, ocFault x (wVD w) (r.partialBlocks (wKM w)) false] with
  | some (c, i) => .ocTrap c i s
  | none =>
    let unv := (x.acc a).unverified
    if accWriting x a || (unv && x.vec.win.isNone && anyLoad x.vec.out) then .wait s
    else
      let q := v % 128
      let hh := bit v 7
      let pat (b i : Nat) : Nat :=
        let j := 64 * hh.toNat + 32 * b + i
        (if col then (x.acc a).elem j q else (x.acc a).elem q j).value
      let kp := r.maskPoison (wKM w)
      let one (b : Nat) : Nat × VBlk × Bool × Bool :=
        let act := r.act (wKM w) b
        if r.pers = 0 then
          let k := toBfx (maskVals act ((List.range 32).map fun i => f32v (pat b i)))
          (b, ⟨k.1, unv || kp⟩, k.2, k.1.isNonfin)
        else (b, refResult act (vGet x (wVD w) b) (if act.all (·) then [] else [vGet x (wVD w) b]) (unv || kp) (pat b))
      let s := if unv then (if x.vec.win.isNone then openWindow s t a else joinWindow s t a) else s
      .ok (blocksEff (wVD w) (bl.map one)) s

/-- One seed (R190): the exact real as a dyadic, or none where the lane is invalid. -/
def seedOne (fn : Nat) (m : Int) (e : Nat) : Option (Int × Int) :=
  let a := m.natAbs
  let p := Nat.log2 a
  let c : Int := (e : Int) - 156 + p
  let j := (a * 2 ^ 8) / 2 ^ p - 256
  match fn with
  | 0 => if m = 0 then none else some (signed (decide (m < 0)) (rcpT j), -30 - c)
  | 1 =>
    if m ≤ 0 then none else
    let hf := Int.fdiv c 2
    some ((rsqT ((c % 2).toNat * 128 + j / 2) : Nat), -30 - hf)
  | 2 =>
    let k : Int := (e : Int) - 156
    let n : Int := if 0 ≤ k then m * 2 ^ k.toNat else Int.fdiv m (2 ^ (-k).toNat)
    let i : Nat := if 0 ≤ k then 0 else (Int.fdiv ((m - n * 2 ^ (-k).toNat) * 256) (2 ^ (-k).toNat)).toNat
    some ((expT i : Nat), max (-400) (min 400 n) - 29)
  | _ => if m ≤ 0 then none else some (dyAdd (c, 0) ((logT j : Nat), -30))

/-- A source block of a one-operand instruction of MAJ 0x1A. -/
def runVseed : VRun := fun t h s =>
  let x := s.tile t
  let r := x.vec.r
  let w := h.word
  let bl := r.blocks (wKM w)
  match firstFault [ocFault x (wVA w) bl false, ocFault x (wVD w) bl true, ocFault x (wVD w) (r.partialBlocks (wKM w)) false] with
  | some (c, i) => .ocTrap c i s
  | none =>
    let one (b : Nat) : Nat × VBlk × Bool × Bool :=
      let a := vGet x (wVA w) b
      let act := r.act (wKM w) b
      (b, bfxResult [a] (r.maskPoison (wKM w)) fun _ =>
        toBfx ((List.range 32).map fun i =>
          if act.getD i false then
            match seedOne (wIMM6 w % 4) (a.b.m.getD i 0) a.b.e with
            | some p => .fin (decide (p.1 < 0)) p.1.natAbs p.2
            | none => .nan
          else .fin false 0 0))
    .ok (blocksEff (wVD w) (bl.map one)) s

/-- A reduction over the lanes of each block, or of both (R189). `f` gives the block of a destination from the active
lanes of its span and the exponent. With SPAN = 1 a source block without an active lane feeds nothing: it makes no destination
non-finite or poisoned (DEDUCED, assumption log 83). -/
def reduce (f : List Bool → List (Int × Int) → Int → Blk × Bool) : VRun := fun t h s =>
  let x := s.tile t
  let r := x.vec.r
  let w := h.word
  let bl := r.blocks (wKM w)
  match firstFault [ocFault x (wVA w) bl false, ocFault x (wVD w) bl true, ocFault x (wVD w) (r.partialBlocks (wKM w)) false] with
  | some (c, i) => .ocTrap c i s
  | none =>
    let span (b : Nat) : List Nat := if wIMM6 w % 2 = 1 then bl else [b]
    let lanes (b : Nat) : List (Int × Int) :=
      ((List.range 32).filter (r.active (wKM w) b)).map fun i => (dyads (vGet x (wVA w) b).b).getD i (0, 0)
    let one (b : Nat) : Nat × VBlk × Bool × Bool :=
      let ins := (span b).map (vGet x (wVA w))
      (b, bfxResult ins (r.maskPoison (wKM w)) fun _ =>
        f (r.act (wKM w) b) ((span b).map lanes).flatten (ins.foldl (fun e v => max e (v.b.e : Int)) 0))
    .ok (blocksEff (wVD w) (bl.map one)) s

/-- VRSUM (R189): R66 of the exact sum in every active lane. -/
def runVrsum : VRun := reduce fun act ls _ =>
  let sum := ls.foldl dyAdd (0, 0)
  toBfx (maskVals act (List.replicate 32 (.fin (decide (sum.1 < 0)) sum.1.natAbs sum.2)))

/-- VRMAX (R189): the maximum, or of the magnitudes with IMM6[1] = 1. -/
def runVrmax : VRun := fun t h s =>
  reduce (fun act ls e =>
    let ls := if bit (wIMM6 h.word) 1 then ls.map fun p => ((p.1.natAbs : Int), p.2) else ls
    let top := match ls with | [] => (0, 0) | p :: r => r.foldl dyMax p
    pack act (List.replicate 32 top) e) t h s

/-- VSPLAT (R187): lane IMM6 of each block, exactly. -/
def runVsplat : VRun := fun t h s =>
  arith false false false
    (fun act n a _ _ => (maskBlk act ⟨a.e, List.replicate 32 (a.m.getD (n % 32) 0)⟩, false))
    (fun a _ _ _ => a) t h s

/-- VSPLAT in the reference personality copies the lane's pattern. -/
def runVsplatRef : VRun := fun t h s =>
  let x := s.tile t
  let r := x.vec.r
  let w := h.word
  let bl := r.blocks (wKM w)
  match firstFault [ocFault x (wVA w) bl false, ocFault x (wVD w) bl true, ocFault x (wVD w) (r.partialBlocks (wKM w)) false] with
  | some (c, i) => .ocTrap c i s
  | none =>
    let one (b : Nat) : Nat × VBlk × Bool × Bool :=
      let a := vGet x (wVA w) b
      let act := r.act (wKM w) b
      let d := vGet x (wVD w) b
      (b, refResult act d ([a] ++ (if act.all (·) then [] else [d])) (r.maskPoison (wKM w)) fun _ => lanePat a (wIMM6 w % 32))
    .ok (blocksEff (wVD w) (bl.map one)) s

def runSplat : VRun := fun t h s => if (s.tile t).vec.r.pers = 0 then runVsplat t h s else runVsplatRef t h s

/-! ### Special registers (R111 to R113, R177, R178, R201) -/

/-- WRSP: the fault of the value, or the new registers. A write of BSTAT waits for the outstanding loads, whose flags come before it
in the order of R86. -/
def runWrsp : VRun := fun t h s =>
  let v := capS h (wSA h.word)
  let n := wSYS h.word
  let bad := VRes.fault cBAD_OPERAND v s
  let set (f : VecRegs → VecRegs) : VRes := .ok { VEff.none with regs := f } s
  if n = 0x800 then (if 64 < v then bad else set fun r => { r with vl := v })
  else if n = 0x801 then
    if 8 ≤ v ∨ (v % 2 = 1 ∧ (!bit (featureEff s) featREFPERS ∨ getF s (fTILE_VEC_REFEN_REASON t) = 0)) then bad
    else set fun r => { r with vmode := v }
  else if n = 0x802 then (if 4 ≤ v then bad else if anyLoad (s.tile t).vec.out then .wait s else set fun r => { r with bstat := v })
  else if 2 ^ 21 ≤ v then bad
  else set fun r => r.setPtr (n - 0x810) v

/-- The value that RDSP returns. -/
def spValue (r : VecRegs) (n : Nat) : Nat :=
  if n = 0x800 then r.vl else if n = 0x801 then r.vmode else if n = 0x802 then r.bstat else r.ptr (n - 0x810)

/-! ### The table of runs, for the replay -/

/-- Allowed personalities (BFX, reference), the v fields named, and the run of a vector word. -/
structure VRow where
  pb : Bool
  pr : Bool
  fields : QEntry → List Nat
  run : VRun

/-- The rows of R182, R183, R187 and R111. -/
def vRow (maj min : Nat) : Option VRow :=
  let ab := fieldsVR true true true
  let a := fieldsVR true true false
  let c := fieldsVR false true true
  let none' (_ : QEntry) : List Nat := []
  let vd (h : QEntry) : List Nat := [wVD h.word]
  match maj, min with
  | 0x18, 0x00 => some ⟨true, true, ab, runVadd⟩
  | 0x18, 0x01 => some ⟨true, true, ab, runVsub⟩
  | 0x18, 0x02 => some ⟨true, true, ab, runVmul⟩
  | 0x18, 0x03 => some ⟨true, false, ab, runVmulh⟩
  | 0x18, 0x04 => some ⟨false, true, ab, runVfma⟩
  | 0x18, 0x05 => some ⟨true, true, ab, runVmin⟩
  | 0x18, 0x06 => some ⟨true, true, ab, runVmax⟩
  | 0x18, 0x07 => some ⟨true, false, a, runVabs⟩
  | 0x18, 0x08 => some ⟨true, false, a, runVneg⟩
  | 0x18, 0x09 => some ⟨true, false, ab, runVand⟩
  | 0x18, 0x0A => some ⟨true, false, ab, runVor⟩
  | 0x18, 0x0B => some ⟨true, false, ab, runVxor⟩
  | 0x18, 0x0C => some ⟨true, false, ab, runVandn⟩
  | 0x18, 0x0D => some ⟨true, false, a, runVshl⟩
  | 0x18, 0x0E => some ⟨true, false, a, runVsra⟩
  | 0x18, 0x0F => some ⟨true, false, a, runVsrr⟩
  | 0x18, 0x10 => some ⟨true, true, c, runVcmplt⟩
  | 0x18, 0x11 => some ⟨true, true, c, runVcmple⟩
  | 0x18, 0x12 => some ⟨true, true, c, runVcmpeq⟩
  | 0x18, 0x13 => some ⟨true, true, ab, runVsel⟩
  | 0x18, 0x14 => some ⟨true, true, a, runVmov⟩
  | 0x18, 0x15 => some ⟨true, false, a, runVscale⟩
  | 0x18, 0x16 => some ⟨true, false, ab, runValign⟩
  | 0x18, 0x17 => some ⟨true, false, a, runVnorm⟩
  | 0x18, 0x18 => some ⟨true, true, none', runVkand⟩
  | 0x18, 0x19 => some ⟨true, true, none', runVkor⟩
  | 0x18, 0x1A => some ⟨true, true, none', runVkxor⟩
  | 0x18, 0x1B => some ⟨true, true, ab, runVrsub⟩
  | 0x19, 0x00 => some ⟨true, true, vd, runVld⟩
  | 0x19, 0x01 => some ⟨true, true, vd, runVst⟩
  | 0x1A, 0x00 => some ⟨true, true, vd, runVrdacc⟩
  | 0x1A, 0x01 => some ⟨true, false, a, runVseed⟩
  | 0x1A, 0x02 => some ⟨true, false, a, runVrsum⟩
  | 0x1A, 0x03 => some ⟨true, false, a, runVrmax⟩
  | 0x1A, 0x04 => some ⟨true, true, a, runSplat⟩
  | 0x32, 0x01 => some ⟨true, true, none', runWrsp⟩
  | _, _ => none

/-- The v fields that post-increment: those of MAJ 0x18 and 0x1A only (R183, R193). -/
def VRow.start (v : VRow) (t : Nat) (ue : RegErr) (h : QEntry) (s : State) : Option State :=
  vStep t ue v.pb v.pr v.fields v.run h s

/-- The engine starts the vector instruction at its queue's head, of the given opcodes. -/
def vecCmd (t : Nat) (ue : RegErr) (maj min : Nat) (s : State) : Host.Outcome State Fault Refusal :=
  .next (match vRow maj min with
    | none => s
    | some v => engineStart s t .vector maj min (v.start t ue))

end Sys2Proof.Machine
end

