-- ==== Sys2Proof/Machine/VectorCmds.lean ====
section
/-!
DEFINITION. The commands of the vector engine (spec 05): the start of each instruction, the return of loads, the visibility
of stores, special registers, and the end of a verification window.
-/
namespace Sys2Proof.Machine

def execVadd (t : Tid) (ue : RegErr) (s : State) : Host.Outcome State Fault Refusal :=
  vecCmd t ue 0x18 0x00 s

def execVsub (t : Tid) (ue : RegErr) (s : State) : Host.Outcome State Fault Refusal :=
  vecCmd t ue 0x18 0x01 s

def execVmul (t : Tid) (ue : RegErr) (s : State) : Host.Outcome State Fault Refusal :=
  vecCmd t ue 0x18 0x02 s

def execVmulh (t : Tid) (ue : RegErr) (s : State) : Host.Outcome State Fault Refusal :=
  vecCmd t ue 0x18 0x03 s

def execVfma (t : Tid) (ue : RegErr) (s : State) : Host.Outcome State Fault Refusal :=
  vecCmd t ue 0x18 0x04 s

def execVmin (t : Tid) (ue : RegErr) (s : State) : Host.Outcome State Fault Refusal :=
  vecCmd t ue 0x18 0x05 s

def execVmax (t : Tid) (ue : RegErr) (s : State) : Host.Outcome State Fault Refusal :=
  vecCmd t ue 0x18 0x06 s

def execVabs (t : Tid) (ue : RegErr) (s : State) : Host.Outcome State Fault Refusal :=
  vecCmd t ue 0x18 0x07 s

def execVneg (t : Tid) (ue : RegErr) (s : State) : Host.Outcome State Fault Refusal :=
  vecCmd t ue 0x18 0x08 s

def execVand (t : Tid) (ue : RegErr) (s : State) : Host.Outcome State Fault Refusal :=
  vecCmd t ue 0x18 0x09 s

def execVor (t : Tid) (ue : RegErr) (s : State) : Host.Outcome State Fault Refusal :=
  vecCmd t ue 0x18 0x0A s

def execVxor (t : Tid) (ue : RegErr) (s : State) : Host.Outcome State Fault Refusal :=
  vecCmd t ue 0x18 0x0B s

def execVandn (t : Tid) (ue : RegErr) (s : State) : Host.Outcome State Fault Refusal :=
  vecCmd t ue 0x18 0x0C s

def execVshl (t : Tid) (ue : RegErr) (s : State) : Host.Outcome State Fault Refusal :=
  vecCmd t ue 0x18 0x0D s

def execVsra (t : Tid) (ue : RegErr) (s : State) : Host.Outcome State Fault Refusal :=
  vecCmd t ue 0x18 0x0E s

def execVsrr (t : Tid) (ue : RegErr) (s : State) : Host.Outcome State Fault Refusal :=
  vecCmd t ue 0x18 0x0F s

def execVcmplt (t : Tid) (ue : RegErr) (s : State) : Host.Outcome State Fault Refusal :=
  vecCmd t ue 0x18 0x10 s

def execVcmple (t : Tid) (ue : RegErr) (s : State) : Host.Outcome State Fault Refusal :=
  vecCmd t ue 0x18 0x11 s

def execVcmpeq (t : Tid) (ue : RegErr) (s : State) : Host.Outcome State Fault Refusal :=
  vecCmd t ue 0x18 0x12 s

def execVsel (t : Tid) (ue : RegErr) (s : State) : Host.Outcome State Fault Refusal :=
  vecCmd t ue 0x18 0x13 s

def execVmov (t : Tid) (ue : RegErr) (s : State) : Host.Outcome State Fault Refusal :=
  vecCmd t ue 0x18 0x14 s

def execVscale (t : Tid) (ue : RegErr) (s : State) : Host.Outcome State Fault Refusal :=
  vecCmd t ue 0x18 0x15 s

def execValign (t : Tid) (ue : RegErr) (s : State) : Host.Outcome State Fault Refusal :=
  vecCmd t ue 0x18 0x16 s

def execVnorm (t : Tid) (ue : RegErr) (s : State) : Host.Outcome State Fault Refusal :=
  vecCmd t ue 0x18 0x17 s

def execVkand (t : Tid) (ue : RegErr) (s : State) : Host.Outcome State Fault Refusal :=
  vecCmd t ue 0x18 0x18 s

def execVkor (t : Tid) (ue : RegErr) (s : State) : Host.Outcome State Fault Refusal :=
  vecCmd t ue 0x18 0x19 s

def execVkxor (t : Tid) (ue : RegErr) (s : State) : Host.Outcome State Fault Refusal :=
  vecCmd t ue 0x18 0x1A s

def execVrsub (t : Tid) (ue : RegErr) (s : State) : Host.Outcome State Fault Refusal :=
  vecCmd t ue 0x18 0x1B s

def execVld (t : Tid) (ue : RegErr) (s : State) : Host.Outcome State Fault Refusal :=
  vecCmd t ue 0x19 0x00 s

def execVst (t : Tid) (ue : RegErr) (s : State) : Host.Outcome State Fault Refusal :=
  vecCmd t ue 0x19 0x01 s

def execVrdacc (t : Tid) (ue : RegErr) (s : State) : Host.Outcome State Fault Refusal :=
  vecCmd t ue 0x1A 0x00 s

def execVseed (t : Tid) (ue : RegErr) (s : State) : Host.Outcome State Fault Refusal :=
  vecCmd t ue 0x1A 0x01 s

def execVrsum (t : Tid) (ue : RegErr) (s : State) : Host.Outcome State Fault Refusal :=
  vecCmd t ue 0x1A 0x02 s

def execVrmax (t : Tid) (ue : RegErr) (s : State) : Host.Outcome State Fault Refusal :=
  vecCmd t ue 0x1A 0x03 s

def execVsplat (t : Tid) (ue : RegErr) (s : State) : Host.Outcome State Fault Refusal :=
  vecCmd t ue 0x1A 0x04 s

/-- WRSP (R111, R113). -/
def execWrsp (t : Tid) (s : State) : Host.Outcome State Fault Refusal :=
  vecCmd t .ok 0x32 1 s

/-- RDSP returns the value to the control core (R87, R111); it waits while a window is open (R198), and RDSP of BSTAT for the
outstanding loads, whose flags it observes (R86). -/
def startRdsp (t : Nat) (h : QEntry) (s : State) : Option State :=
  let x := s.tile t
  if x.vec.win.isSome || (wSYS h.word == 0x802 && anyLoad x.vec.out) then none
  else
    let y := writeS x (wSD h.word) (BitVec.ofNat 64 (spValue x.vec.r (wSYS h.word)))
    some (s.setTile t { y with rdspWait := false, vec := { y.vec with busyAt := s.now } })

def execRdsp (t : Tid) (s : State) : Host.Outcome State Fault Refusal :=
  .next (engineStart s t .vector 0x32 2 (startRdsp t))

/-- The data of outstanding item i returns, a VLD from device memory: its destination blocks are written (R185). The
engine's own earlier writes apply to the data (R93). -/
def loadReturn (s : State) (t i : Nat) : State :=
  let x := s.tile t
  match x.vec.out[i]? with
  | some ⟨pc, sig, .load l⟩ =>
    let ws := outWrites (x.vec.out.take i) ++ heldDev x l.heldN
    let ranges := (l.blks.map fun k => [(k.addr, k.len), (k.saddr, k.slen)]).flatten
    let chk (a : State × Option Nat) (p : Nat × Nat) : State × Option Nat :=
      let m := memReadH a.1 p.1 p.2 0
      (m.s, match a.2 with | some u => some u | none => m.bad)
    let r := ranges.foldl chk (s, none)
    match r.2 with
    | some u => trap r.1 t 2 cMEM_UNCORRECTABLE pc u
    | none =>
      let rd (a n : Nat) : List Byte := (devView s a n ws).data
      let x := r.1.tile t
      let x := healRegs { x with vec := { x.vec with r := putLoaded x.vec.r l.dest (loadBlocks x.vec.r l rd) } } (l.blks.map fun k => (l.dest, k.blk)) none
      match x.vec.win, l.inWin with
      | some w, true =>
        let w := { w with sigs := w.sigs ++ (sig.toList.map fun k => (k, pc)) }
        r.1.setTile t { x with vec := { x.vec with win := some w, out := removeAt x.vec.out i } }
      | _, _ => setOut (r.1.setTile t x) t (replaceAt x.vec.out i ⟨pc, sig, .store []⟩)
  | _ => s

def execVectorLoadReturn (t : Tid) (i : Nat) (s : State) : Host.Outcome State Fault Refusal :=
  .next (sameCycle s t 2 fun s => if isLive s t then loadReturn s t i else s)

/-- Bytes that an outstanding item of the engine accesses: address and length. -/
def VMem.ranges (m : VMem) : List (Nat × Nat) :=
  match m.kind with
  | .load l => (l.blks.map fun k => [(k.addr, k.len), (k.saddr, k.slen)]).flatten
  | .store ws => ws.map fun w => (w.addr, w.bytes.length)

/-- Do two items access common bytes? -/
def VMem.meets (a b : VMem) : Bool := a.ranges.any fun p => b.ranges.any fun q => rangesMeet p.1 p.2 q.1 q.2

/-- The stores of outstanding item i become visible at B and signals that waited for them are applied (R89, R93). During an
abort, stores already issued land (R119). -/
def execVectorStoreVisible (t : Tid) (i : Nat) (s : State) : Host.Outcome State Fault Refusal :=
  .next (
    let x := s.tile t
    if !isRunning s t then s else
    match x.vec.out[i]? with
    | some ⟨pc, sig, .store (w :: ws)⟩ =>
      let me : VMem := ⟨pc, sig, .store (w :: ws)⟩
      if (x.vec.out.take i).any me.meets then s else
      let s := (w :: ws).foldl (fun s v => memWriteH false s v.addr v.bytes 0) s
      setOut s t (replaceAt (s.tile t).vec.out i ⟨pc, sig, .store []⟩)
    | _ => s)

/-- Execute entries of a replay buffer again, in order, until one must wait (R199): what is left, and the state. `ue` is an error in a word that one of
them reads (R170, R204). -/
def replayFrom (t : Nat) (ue : RegErr) : List QEntry → State → List QEntry × State
  | [], s => ([], s)
  | h :: r, s =>
    if !isLive s t then ([], s)
    else match vRow (wMaj h.word) (wMin h.word) with
      | none => replayFrom t ue r s
      | some v => match v.start t ue h s with
        | none => (h :: r, s)
        | some s1 => replayFrom t ue r s1

/-- The engine goes on with the entries of `l`. -/
def replayGo (s : State) (t : Nat) (ue : RegErr) (l : List QEntry) : State :=
  let p := replayFrom t ue l s
  p.2.onTile t fun x => { x with vec := { x.vec with redo := p.1 } }

/-- After a failed verification and its recompute, the engine restores its shadow, drops what the window held, and executes
the replay buffer again in order, without poison (R199); entries that must wait stay, and the next WINDOW_REPLAY goes on with them. The rule names the
recompute of the failed tile alone; where the window has read both tiles and the other is still UNVERIFIED, the engine waits for that too, since its poison
would otherwise enter the re-execution (DESIGN CHOICE, assumption log 92). -/
def execWindowReplay (u : VecUse) (s : State) : Host.Outcome State Fault Refusal :=
  let t := u.tile
  .next (sameCycle s t 2 fun s =>
    let x := s.tile t
    if !isLive s t || !clkRuns s t then s else
    if !x.vec.redo.isEmpty then replayGo s t u.ue x.vec.redo else
    match x.vec.win with
    | none => s
    | some w =>
      if !w.failed || !x.mat.recompute.isEmpty || w.accs.any (fun a => (x.acc a).unverified || accWriting x a) then s else
      let keep := x.vec.out.filter fun m => match m.kind with | .load l => !l.inWin | _ => true
      let bad := x.regBad.filter fun w => match w with | .acc _ _ => true | _ => false
      let s := s.setTile t { x with regBad := bad, vec := { x.vec with r := w.shadow, win := none, out := keep, busyAt := s.now } }
      replayGo (addF s (fTILE_VEC_WINDOWS_REPLAYS t) 1) t u.ue w.replay)

/-- The outstanding list once a window closes: the held writes to device memory take their places between the loads of the window, each
of which saw the first `heldN` held writes; the loads no longer give poison. `k` counts the held writes placed so far. -/
def placeHeld (held : List VWrite) : List VMem → Nat → List VMem
  | [], k => storeOf (held.drop k)
  | m :: r, k =>
    match m.kind with
    | .load l =>
      if l.inWin then
        storeOf ((held.take l.heldN).drop k) ++
          { m with kind := .load { l with inWin := false, heldN := 0, poison := false } } :: placeHeld held r (max k l.heldN)
      else m :: placeHeld held r k
    | .store _ => m :: placeHeld held r k
where
  storeOf (l : List VWrite) : List VMem :=
    let dev := l.filter (!·.oc)
    if dev.isEmpty then [] else [⟨0, none, .store dev⟩]

/-- When every tile read in the window is verified, the window closes (R199): poison clears, the held writes go to memory in
order, and the held signals are applied under R89. A tile that a later chain, which the window has not read, has made UNVERIFIED again keeps the window
open: the present UNVERIFIED bit decides (DESIGN CHOICE, assumption log 92). -/
def closeWindow (s : State) (t : Nat) : State :=
  let x := s.tile t
  match x.vec.win with
  | none => s
  | some w =>
    if w.failed || w.accs.any (fun a => (x.acc a).unverified) then s else
    let r := { x.vec.r with
      v := (x.vec.r.v.map fun p => (p.1, { p.2 with poison := false })).filter fun p => p.2 != VBlk.zero, kPoison := [] }
    let y := (w.held.filter (·.oc)).foldl (fun x v => ocPut x v.addr v.bytes) x
    let sigs : List VMem := w.sigs.map fun k => ⟨k.2, some k.1, .store []⟩
    let s := s.setTile t { y with vec := { y.vec with r := r, win := none } }
    setOut (countOutcomes s t w.outcomes) t (placeHeld w.held y.vec.out 0 ++ sigs)

end Sys2Proof.Machine
end

