-- ==== Sys2Proof/Machine/Stream.lean ====
section
/-!
DEFINITION. The meanings of the stream class (spec 07 R240 to R273): the start of each transfer, its completion, lateness and
ending through the error token, prefetch streams, and the verification of skipped slabs.
-/
namespace Sys2Proof.Machine

/-! ### Start -/

/-- T_d of R259: an SMOVE with an LPDDR source, or an SFLASH. -/
def deadlineOf (s : State) (e : QEntry) : Option Nat :=
  let d := bits (stW e) 31 0
  if d = 0 || wMaj e.word == 0x21 then none
  else match wMin e.word with
    | 0 => if !epOc (stX e) && isLpddr (epAddr (stX e)) then some (s.now + d) else none
    | 2 => some (s.now + d)
    | _ => none

/-- The first transfer number from n on whose requests no outstanding request and no started transfer of the tile can be taken for. -/
def freeNo (x : Tile) (n : Nat) : Nat :=
  (((List.range 128).map (n + ·)).find? fun k =>
    !x.str.run.any (fun r => r.no % 128 == k % 128) && !x.str.loose.any (fun id => id / 65536 % 256 == k % 128)).getD n

/-- Enter a started instruction into the list of those that are not complete. -/
def pushRun (s : State) (t : Nat) (e : QEntry) (flash : List Nat) : State :=
  s.onTile t fun x =>
    let vreg := wMaj e.word == 0x20 && wMin e.word == 3 && wsOPT e.word
    let r : StrRun := ⟨x.str.nextNo, e, s.now, deadlineOf s e, RRead.start vreg, flash, none, none⟩
    let x := { x with str := { x.str with run := x.str.run ++ [r] } }
    { x with str := { x.str with nextNo := freeNo x (x.str.nextNo + 1) } }

/-- A transfer starts, after the checks of its operands. -/
def startXfer (t : Nat) (e : QEntry) (s : State) : Option State :=
  match strFault s (s.tile t) e with
  | some (c, i) => some (trap s t 3 c e.pc i)
  | none => some (pumpStream (pushRun s t e []) t)

/-- A stream transfer instruction of minor opcode min. -/
def strCmd (t min : Nat) (s : State) : Host.Outcome State Fault Refusal :=
  .next (engineStart s t .stream 0x20 min (startXfer t))

def execSmove (t : Tid) (s : State) : Host.Outcome State Fault Refusal := strCmd t 0 s
def execScvt (t : Tid) (s : State) : Host.Outcome State Fault Refusal := strCmd t 1 s
def execSget (t : Tid) (s : State) : Host.Outcome State Fault Refusal := strCmd t 3 s
def execSput (t : Tid) (s : State) : Host.Outcome State Fault Refusal := strCmd t 4 s
def execSvfence (t : Tid) (s : State) : Host.Outcome State Fault Refusal := strCmd t 5 s
def execSretain (t : Tid) (s : State) : Host.Outcome State Fault Refusal := strCmd t 6 s
def execSexpand (t : Tid) (s : State) : Host.Outcome State Fault Refusal := strCmd t 7 s

/-- SFLASH: its flash tiles are read by the translation layer (R245, R304), as the limit of R242 lets the engine ask for them. -/
def startFlash (t : Nat) (e : QEntry) (s : State) : Option State :=
  match strFault s (s.tile t) e with
  | some (c, i) => some (trap s t 3 c e.pc i)
  | none =>
    some (pumpStream (pushRun s t e ((List.range (stZ e)).map (stX e + ·))) t)

def execSflash (t : Tid) (s : State) : Host.Outcome State Fault Refusal :=
  .next (engineStart s t .stream 0x20 2 (startFlash t))

/-! ### SVERIFY (R268, R269) -/

/-- Bytes of one square in a block-maximum record. -/
def recSquare (op : MMOp) : Nat := if fmtBlock op.fa = 16 then 64 else 32

/-- The record bytes of the squares that cover slab i of an MM (R268). -/
def slabBytes (x : Tile) (op : MMOp) (off i : Nat) : List Byte :=
  let nk := op.kLen / 32
  let kk := i % nk
  let rows := ([2 * (i / nk), 2 * (i / nk) + 1]).filter fun r => decide (32 * r < op.m)
  rows.flatMap fun r =>
    let sq := if op.ta then kk * (op.m / 32) + r else r * nk + kk
    ocBytes x (off + sq * recSquare op) (recSquare op)

/-- Slabs of an MM. -/
def slabCount (op : MMOp) : Nat := (op.m + 63) / 64 * (op.kLen / 32)

/-- Write the zero-history bits of an MM. -/
def putHistory (x : Tile) (op : MMOp) (l : List Bool) : Tile :=
  let n := (l.length + 7) / 8
  let old := ocBytes x op.zOff n
  let byte (j : Nat) : Byte :=
    BitVec.ofNat 8 ((List.range 8).foldl (fun a b =>
      if (l[8 * j + b]?).getD ((old.getD j 0).getLsbD b) then a + 2 ^ b else a) 0)
  ocPut x op.zOff ((List.range n).map byte)

/-- The slabs that were skipped have all passed: the MM at place i of the chain has passed. -/
def passMM (x : Tile) (a i : Nat) : Tile :=
  let c := x.acc a
  x.setAcc a { c with chain := (c.chain.zipIdx).map fun p => if p.2 = i then { p.1 with passed := true } else p.1 }

/-- An earlier transfer that is not complete writes bytes of the record that SVERIFY reads, or accesses zero-history bits that it rewrites
(R93). -/
def verifyHeld (x : Tile) (rec0 hist : Nat × Nat) : Bool :=
  x.str.run.any fun r => (runRanges r).any fun p =>
    p.1 && (rangesMeet p.2.1 p.2.2.1 hist.1 hist.2 || (p.2.2.2 && rangesMeet p.2.1 p.2.2.1 rec0.1 rec0.2))

/-- The place of the MM that an SVERIFY pairs with: the oldest unpaired one of ACC, which a wait that has begun takes only if it started by
its deadline (R92, R268). -/
def verifyPair (s : State) (t : Nat) (e : QEntry) : Option Nat :=
  let l := (s.tile t).mat.unpaired
  match firstIdx (fun u : SprMM => u.acc == (wsOPT e.word).toNat) l with
  | none => none
  | some i => match l[i]?, headDeadline s t e with
    | some u, some d => if u.start ≤ d then some i else none
    | some _, none => some i
    | none, _ => none

/-- SVERIFY starts: it pairs with the oldest unpaired MM of ACC; without one it waits at the head under R92, whose table of
TILE_TRAP_INFO names no such wait: bits 19 to 0 are free (assumption log 85). -/
def startVerify (t : Nat) (e : QEntry) (s : State) : Option State :=
  let x := s.tile t
  let a := (wsOPT e.word).toNat
  match strFault s x e with
  | some (c, i) => some (trap s t 3 c e.pc i)
  | none =>
    match verifyPair s t e with
    | none =>
      let w : (Nat × Nat) × State := match e.held with
        | some w => (w, s)
        | none => let f := freshWord s
          ((s.now, f.1.toNat % 2 ^ 20), f.2)
      let h := { e with tokenTaken := true, waitFrom := none, held := some w.1 }
      some (w.2.setTile t { x with str := { x.str with queue := h :: x.str.queue } })
    | some i => match x.mat.unpaired[i]? with
      | none => none
      | some u =>
        let off := bits (stX e) 20 0
        let sqs := u.op.m / 32 * (u.op.kLen / 32) * recSquare u.op
        let n := slabCount u.op
        if verifyHeld x (off, sqs) (u.op.zOff, (n + 7) / 8) then none
        else if ocSize < off + sqs then some (trap s t 3 cOC_RANGE e.pc off)
        else if inCode x u.op.zOff ((n + 7) / 8) then some (trap s t 3 cCODE_WRITE e.pc u.op.zOff)
        else
          let zero := (List.range n).map fun j => (slabBytes x u.op off j).all (· == 0)
          let bad := (List.range n).any fun j => u.skip.getD j false && !(zero.getD j false)
          let x := { x with mat := { x.mat with unpaired := removeAt x.mat.unpaired i } }
          let x := putHistory x u.op zero
          let s := pushRun (s.setTile t x) t e []
          match u.place with
          | none => some s
          | some k =>
            if bad then
              some (s.onTile t fun x =>
                let x := { x with mat := { x.mat with recompute := if x.mat.recompute.contains a then x.mat.recompute else x.mat.recompute ++ [a] } }
                match x.vec.win with
                | some w => if w.accs.contains a then { x with vec := { x.vec with win := some { w with failed := true } } } else x
                | none => x)
            else
              let s := s.onTile t fun x => passMM x a k
              if ((s.tile t).acc a).chain.all (·.passed) ∧ !(s.tile t).mat.recompute.contains a then
                some (closeWindow (s.onTile t fun x => endChain x a) t)
              else some s

def execSverify (t : Tid) (s : State) : Host.Outcome State Fault Refusal :=
  .next (engineStart s t .stream 0x20 8 (startVerify t))

/-! ### Prefetch control (R248, R252) -/

/-- The fault of a PFSET (R248). -/
def pfsetFault (s : State) (x : Tile) (e : QEntry) : Option (Nat × Nat) :=
  let vx := stX e
  let vy := stY e
  let z := stZ e
  let w := stW e
  let rem := bit w 3
  let other := (List.range 8).foldl (fun a i => if i = bits w 2 0 then a else a + (pfOf x i).depth) 0
  firstFault [badOp (bits vx 63 52 != 0 || vx % 4096 != 0) vx,
    badOp (bits vy 63 48 != 0 || bit vy 7 || bits vy 5 0 == 0 || decide (32 < bits vy 5 0)) vy,
    badOp (bits z 63 56 != 0 || bits z 15 0 == 0 || bits z 31 16 == 0) z,
    badOp (bits w 63 20 != 0 || bit w 11 || (!rem && (bits w 19 4 != 0)) || (rem && posOf (bits w 10 4) (bits w 18 12) == ownLog s)) w,
    badOp (decide (32 < other + bits vy 5 0)) vy]

/-- The stream that a PFSET configures. -/
def pfsetStream (e : QEntry) (rounds : Nat) : PfStream :=
  let vy := stY e
  let z := stZ e
  let w := stW e
  ⟨true, stX e, bits vy 5 0, bit vy 6, sx 24 (bits vy 31 8), bits vy 47 32, bits z 15 0, bits z 31 16, bits z 55 32, bit w 3,
    posOf (bits w 10 4) (bits w 18 12), bit w 19, 0, 0, rounds, []⟩

/-- PFSET and PFSTOP complete at once; the signal follows those of earlier transfers (R89). -/
def pfDone (s : State) (t : Nat) (e : QEntry) : State :=
  if (s.tile t).str.run.isEmpty then applySignal s t 3 e else pushRun s t e []

def startPfset (t : Nat) (e : QEntry) (s : State) : Option State :=
  let x := s.tile t
  match pfsetFault s x e with
  | some (c, i) => some (trap s t 3 c e.pc i)
  | none =>
    let i := bits (stW e) 2 0
    let p := PfStream.refill 32 (pfsetStream e (pfOf x i).rounds)
    some (pumpStream (pfDone (s.setTile t (setPf x i p)) t e) t)

def execPfset (t : Tid) (s : State) : Host.Outcome State Fault Refusal :=
  .next (engineStart s t .stream 0x21 0 (startPfset t))

def startPfstop (t : Nat) (e : QEntry) (s : State) : Option State :=
  let x := s.tile t
  let i := bits (stW e) 2 0
  if bits (stW e) 63 3 ≠ 0 then some (trap s t 3 cBAD_OPERAND e.pc (stW e))
  else some (pfDone (s.setTile t (setPf x i { PfStream.off with rounds := (pfOf x i).rounds })) t e)

def execPfstop (t : Tid) (s : State) : Host.Outcome State Fault Refusal :=
  .next (engineStart s t .stream 0x21 1 (startPfstop t))

/-- A remote fill has come: all its segments, and with VREGION the version read that accepts them. -/
def fillWhole (p : PfStream) (e : PfEntry) : Bool := if p.vregion then e.rr.step == 3 else fillDone e

/-- The i-th entry of a stream has its fill return (R249): it becomes valid, it is invalidated because a write passed while it
filled (R253), or it is dropped and counted. A remote fill returns once its segments have come. -/
def execPrefetchFillReturn (t : Tid) (slot : Fin 8) (i : Nat) (s : State) : Host.Outcome State Fault Refusal :=
  .next (
    let x := s.tile t
    let p := pfOf x slot.val
    match p.entries[i]? with
    | none => s
    | some e =>
      if !e.filling || !isRunning s t then s
      else
        let put (s : State) (data : List Byte) : State := s.onTile t fun x =>
          let p := pfOf x slot.val
          setPf x slot.val { p with entries := p.entries.map fun d => if d.no = e.no then { d with filling := false, data := data } else d }
        let gone (s : State) (n : Nat) : State :=
          addF (s.onTile t fun x => setPf x slot.val ((pfOf x slot.val).remove fun d => d.no == e.no)) (fTILE_STR_STALL_COUNT t n) 1
        if p.remote then (if fillWhole p e then pumpStream (put s (gotBytes e.rr.got 4096)) t else s)
        else if !mappedRange e.addr 4096 then pumpStream (gone s 11) t
        else if e.stale then pumpStream (gone s 12) t
        else
          let m := memReadH s e.addr 4096 0
          pumpStream (match m.bad with | some _ => gone m.s 11 | none => put m.s m.data) t)

/-! ### Completion (R247, R89) -/

/-- The address of the first segment of a transfer's device source that is not stamped at the stream port by instant d; one that a filled
prefetch entry holds counts as arrived (R259). A transfer's segments are stamped whatever becomes of those before it. -/
def unstamped (x : Tile) (t : Nat) (r : StrRun) (d : Nat) : Option Nat :=
  (((devSources r).flatMap fun p => split256 (p.2 / 256 + 2) p.1 p.2).find? fun p =>
    !(match pfServe x none p.1 with | some (_, e) => !e.filling | none => false) && decide (d < r.start + Config.portDelay t r.no p.1)).map (·.1)

/-- The oldest transfer's data has come and what it must wait for is done. -/
def runReady (s : State) (x : Tile) (t : Nat) (r : StrRun) : Bool :=
  let inTime := match r.deadline with
    | none => true
    | some d => if wMin r.e.word = 2 then r.tardy.isNone else (unstamped x t r (min d s.now)).isNone
  if wMaj r.e.word = 0x21 then true
  else inTime && r.fail.isNone &&
    (match wMin r.e.word with
     | 2 => r.flash.isEmpty
     | 3 => if wsOPT r.e.word then r.rr.step == 3 else decide ((runSegs r).length ≤ r.rr.next) && r.rr.pend.isEmpty
     | 4 => decide ((runSegs r).length ≤ r.rr.next) && r.rr.pend.isEmpty
     | 5 => if bit (stW r.e) 15 then !x.ops.any fun o => o.writes && decide (o.ord < r.e.ord)
            else r.rr.next != 0 && r.rr.pend.isEmpty
     | 8 => !(s.tile t).mat.recompute.contains (wsOPT r.e.word).toNat
     | _ => !pfBlocked x (devSources r))

/-- The identifiers of the outstanding requests of a transfer. -/
def pendIds (t : Nat) (r : StrRun) : List Nat := r.rr.pend.map fun k => reqId t (r.no % 128) k

/-- A transfer ends before its requests: they stay outstanding (R261, R119). -/
def leaveLoose (s : State) (t : Nat) (r : StrRun) : State :=
  s.onTile t fun x => { x with str := { x.str with loose := x.str.loose ++ pendIds t r } }

/-- Remove the oldest transfer. -/
def popRun (s : State) (t : Nat) : State :=
  s.onTile t fun x => { x with str := { x.str with run := x.str.run.tail } }

/-- Cut a write into the 64-byte units of its destination. -/
def cutWrite (w : VWrite) : List VWrite :=
  (pieces64 (w.bytes.length / 64 + 2) w.addr w.bytes.length).map fun p => ⟨w.oc, p.1, slice w.bytes (p.1 - w.addr) p.2⟩

/-- After an ending without completion, the destination holds any mixture, unit by unit, of its old contents and the new data
(R262): free choices. -/
def mixture (s : State) (t hint : Nat) (l : List VWrite) : State :=
  (l.flatMap cutWrite).foldl (fun s w =>
    let b := freshBool s
    if b.1 then doWrites b.2 t hint [w] else b.2) s

/-- The bytes of a remote read that have come, as writes of whole 64-byte units (R262). -/
def gotWrites (r : StrRun) (v total : Nat) (h : Shape) : List VWrite :=
  (deal (epOc v) (epRuns v h) (gotBytes r.rr.got total)).flatMap cutWrite |>.zipIdx.filterMap fun p =>
    if (List.range 64).all fun i => r.rr.got.any fun q => q.1 == 64 * p.2 + i then some p.1 else none

/-- The mixture that an unfinished transfer leaves. -/
def endMixture (s : State) (t : Nat) (r : StrRun) : State :=
  if wMaj r.e.word = 0x21 then s else
  match wMin r.e.word with
  | 2 => mixture s t (wsHINT r.e.word) (gotWrites r (stY r.e) (stZ r.e * 65536) ⟨stZ r.e * 65536, 1, stZ r.e * 65536⟩)
  | 3 => mixture s t (wsHINT r.e.word) (gotWrites r (stY r.e) (shapeOf (stZ r.e)).total (shapeOf (stZ r.e)))
  | 5 => s
  | 8 => s
  | _ => let p := planOf s t r
    mixture p.s t (wsHINT r.e.word) p.writes

/-- The oldest transfer of the tile completes (R247): its bytes are written and visible, and its signal is applied. -/
def execTransferComplete (t : Tid) (s : State) : Host.Outcome State Fault Refusal :=
  .next (sameCycle s t 3 fun s =>
    let x := s.tile t
    match x.str.run with
    | [] => s
    | r :: _ =>
      if !isLive s t || !runReady s x t r then s
      else
        let p := if wMaj r.e.word = 0x21 then ⟨[], none, [], false, false, [], s⟩ else planOf s t r
        match p.bad with
        | some u => sourceBad (pfConsume p.s t [] p.hits) t r u
        | none =>
          let s := doWrites p.s t (wsHINT r.e.word) p.writes
          let s := pfConsume s t [] p.hits
          let s := if p.sat then setF s (fTILE_STR_STATUS_SAT t) 1 else s
          let s := if p.nonfin then setF s (fTILE_STR_STATUS_NONFIN t) 1 else s
          let s := countOutcomes s t p.outs
          let s := addF s (fTILE_STR_STALL_COUNT t 13) (p.outs.filter (· == 0)).length
          pumpStream (applySignal (popRun s t) t 3 r.e) t)

/-- A transfer's failure under R260: with EE = 1 it waits for its ending through the error token, else the task aborts. -/
def runFails (s : State) (t : Nat) (r : StrRun) (code addr : Nat) : State :=
  if wsEE r.e.word then failRun s t r.no code addr
  else trap s t 3 code r.e.pc (if code = cMEM_UNCORRECTABLE then addr else 0)

/-- The first flash tile of a transfer that has not come in time. -/
def lateTile (r : StrRun) : Option Nat :=
  match r.flash.head?, r.tardy with
  | some a, some b => some (min a b)
  | a, none => a
  | none, b => b

/-- Transfer i of the tile is late 64 ns after T_d, if a segment has not counted (R259). -/
def execTransferLate (t : Tid) (i : Nat) (s : State) : Host.Outcome State Fault Refusal :=
  .next (sameCycle s t 3 fun s =>
    let x := s.tile t
    match x.str.run[i]? with
    | none => s
    | some r => match r.deadline with
      | none => s
      | some d =>
        if !isLive s t || decide (s.now < d + 64) || r.fail.isSome then s
        else if wMin r.e.word = 2 then
          (match lateTile r with | some n => runFails s t r cLOWER_LATE n | none => s)
        else match unstamped x t r d with
          | some a => runFails s t r cLOWER_LATE a
          | none => s)

/-- The oldest transfer has failed (R260, R261): with EE = 1 it ends alone, signals ETK and records the error; otherwise the
task aborts. -/
def execTransferErrorEnd (t : Tid) (s : State) : Host.Outcome State Fault Refusal :=
  .next (sameCycle s t 3 fun s =>
    match (s.tile t).str.run with
    | [] => s
    | r :: _ => match r.fail with
      | none => s
      | some (code, addr) =>
        if !isLive s t then s
        else if !wsEE r.e.word then trap s t 3 code r.e.pc (if code = cMEM_UNCORRECTABLE then addr else 0)
        else
          let s := popRun (leaveLoose (endMixture s t r) t r) t
          let s := setFs s [(fTILE_STR_ERR_VALID t, 1), (fTILE_STR_ERR_PC t, r.e.pc), (fTILE_STR_ERR_CODE t, code),
            (fTILE_STR_ERR_ADDR_ADDR t, addr)]
          pumpStream (tkAdd s t (wsETK r.e.word) 1 3 r.e.pc) t)

/-! ### READ_DATA for the stream engine (R255, R258, R322, R323) -/

/-- What READ_DATA carries: status, whether a directory version came with it, the version, the data. -/
structure ReadReply where
  status : Nat
  managed : Bool
  ver : Nat
  data : List Byte
deriving DecidableEq, Repr

def readReply (b : List Byte) : ReadReply := ⟨leAt b 0 1, leAt b 1 1 != 0, leAt b 4 4, b.drop 8⟩

/-- A version word of a versioned region has come for a read (R258): the next step of the read; none after the fourth failed
attempt. -/
def verStep (rr : RRead) (v : Nat) (expect : Option Nat) : Option RRead :=
  if rr.step = 0 then some { rr with step := 1, next := 0, pend := [], ver := v }
  else if v == rr.ver && v % 2 == 0 && (match expect with | some e => v == e | none => true) then
    some { rr with step := 3, pend := [] }
  else if 4 ≤ rr.attempt then none
  else some { RRead.start true with attempt := rr.attempt + 1, hits := rr.hits }

/-- A data segment of a transfer has come. -/
def runData (s : State) (t : Nat) (r : StrRun) (k : Nat) (q : ReadReply) : State :=
  let rr := r.rr
  match (runSegs r)[k]? with
  | none => s
  | some (a, n, o) =>
    let differs := !wsOPT r.e.word && q.managed && (match expectVer r with | some v => v != q.ver | none => false)
    if differs && !rr.again.contains k then
      ready (setRr s t r.no { rr with again := rr.again ++ [k] }) (.stream t r.no)
        (readPacket (runDest r) (wsSEAL r.e.word) a n (reqId t (r.no % 128) k) none)
    else
      let s := setRr s t r.no { rr with
        pend := rr.pend.filter (· != k), again := rr.again.filter (· != k), got := putBytes rr.got o (q.data.take n) }
      if differs then
        addF (setFs s [(fTILE_STR_STATUS_VER_STALE t, 1), (fTILE_STR_LASTVER_VERSION t, q.ver)]) (fTILE_STR_STALL_COUNT t 15) 1
      else s

/-- READ_DATA for transfer r of a tile, segment number `seg`. -/
def runReadData (s : State) (t : Nat) (r : StrRun) (seg : Nat) (addr : Nat) (q : ReadReply) : State :=
  match r.rr.pend.find? (· % 65536 == seg) with
  | none => s
  | some k =>
    if q.status = cVERSION_SKEW then trap s t 3 cVERSION_SKEW r.e.pc addr
    else if q.status ≠ 0 then failRun s t r.no cREMOTE_FAIL addr
    else if r.rr.step = 1 then pumpStream (runData s t r k q) t
    else match verStep r.rr (leAt q.data 0 8) (expectVer r) with
      | some rr => pumpStream (setRr s t r.no rr) t
      | none => failRun s t r.no cREGION_TORN (stX r.e)

/-- Change the remote reads of the entries of the versioned part that entry e belongs to. -/
def onBatch (s : State) (t i : Nat) (e : PfEntry) (f : PfEntry → RRead) : State :=
  s.onTile t fun x =>
    let p := pfOf x i
    setPf x i { p with entries := p.entries.map fun d => if p.batch d.no = p.batch e.no then { d with rr := f d } else d }

/-- READ_DATA for the fill of entry e of remote stream i, segment k: data, or a version word, whose second read accepts the part of the
round or has it read again (R258). -/
def fillReadData (s : State) (t i : Nat) (e : PfEntry) (k : Nat) (q : ReadReply) : State :=
  let setE (f : PfEntry → PfEntry) : State := s.onTile t fun x =>
    let p := pfOf x i
    setPf x i { p with entries := p.entries.map fun d => if d.no = e.no then f d else d }
  if q.status ≠ 0 then dropEntry s t i e.tag
  else if e.rr.step = 1 then
    setE fun d => { d with
      rr := { d.rr with pend := d.rr.pend.filter (· != k), got := putBytes d.rr.got (256 * k) q.data }
      vers := if q.managed then (k, q.ver) :: d.vers else d.vers }
  else match verStep e.rr (leAt q.data 0 8) none with
    | none => dropEntry s t i e.tag
    | some rr =>
      if e.rr.step = 0 then setE fun d => { d with rr := { rr with got := d.rr.got } }
      else if rr.step = 3 then onBatch s t i e fun d => { d.rr with step := 3, pend := [] }
      else onBatch s t i e fun _ => rr

/-- READ_DATA reaches the read buffer of a tile's stream engine; one of a stream that stopped, or of a transfer that ended, is discarded
(R252, R261). -/
def strReadData (s : State) (p : Packet) : State :=
  let seg := p.id % 65536
  let sub := p.id / 65536 % 256
  let t := p.id / 16777216 % 256
  let q := readReply p.payload
  let s := notLoose s t p.id
  let x := s.tile t
  if sub < 128 then
    match x.str.run.find? fun r => wMin r.e.word == 3 && r.no % 128 == sub && r.rr.pend.any (· % 65536 == seg) with
    | some r =>
      if r.fail.isSome then pumpStream (setRr s t r.no { r.rr with pend := r.rr.pend.filter (· % 65536 != seg) }) t
      else runReadData s t r seg p.addr q
    | none => pumpStream s t
  else
    let i := sub - 128
    match (pfOf x i).entries.find? fun e => e.filling && e.tag == seg / 32 && e.rr.pend.contains (seg % 32) with
    | some e => pumpStream (fillReadData s t i e (seg % 32) q) t
    | none => pumpStream s t

/-! ### TILE_STR_SPLIT (R273) -/

/-- A write of TILE_STR_SPLIT: three shares of 1 to 18 with a sum of 20, while the tile is not RUNNING; else SPLIT_REJ. -/
def execStrSplitWrite (t : Tid) (v : BitVec 32) (s : State) : Host.Outcome State Fault Refusal :=
  .next (
    if !dieUp s (dieOf t.val) then s else
    let r := bits v.toNat 4 0
    let w := bits v.toNat 9 5
    let m := bits v.toNat 14 10
    let ok (n : Nat) : Bool := decide (1 ≤ n) && decide (n ≤ 18)
    if ok r && ok w && ok m && r + w + m == 20 && tileState s t != .running then
      setFs s [(fTILE_STR_SPLIT_READ t, r), (fTILE_STR_SPLIT_WRITE t, w), (fTILE_STR_SPLIT_REMOTE t, m)]
    else setF s (fTILE_STR_STATUS_SPLIT_REJ t) 1)

end Sys2Proof.Machine
end

