-- ==== Sys2Proof/Machine/TierOps.lean ====
section
/-!
DEFINITION. The tile directory (spec 09): requests and replies, entries, slots and owner words, the choice of a victim, moves
between the tiers, and the service of PIN requests.
-/
namespace Sys2Proof.Machine

/-! ### Requests and replies (R312 to R315, R561) -/

def Request.op (r : Request) : Nat := leAt r.payload 0 1
def Request.flags (r : Request) : Nat := leAt r.payload 1 1
def Request.rph (r : Request) : Nat := leAt r.payload 2 2
def Request.entry (r : Request) : Nat := leAt r.payload 4 4
def Request.arg (r : Request) : Nat := leAt r.payload 8 4
def Request.deadline (r : Request) : Nat := leAt r.payload 0xC 4
def Request.addr (r : Request) : Nat := leAt r.payload 0x10 8
def Request.count (r : Request) : Nat := leAt r.payload 0x18 4
def Request.tag (r : Request) : Nat := leAt r.payload 0x1C 2

/-- Status codes of R315. -/
def stMEM : Nat := 0x09
def stBAD : Nat := 0x0B
def stSKEW : Nat := 0x0C
def stREADFAIL : Nat := 0x40
def stLATE : Nat := 0x41
def stABSENT : Nat := 0x50
def stBUSY : Nat := 0x51
def stFULL : Nat := 0x52
def stPINLIMIT : Nat := 0x53
def stLOST : Nat := 0x54
def stFLASHFULL : Nat := 0x55
def stNOTPINNED : Nat := 0x56
def stORDER : Nat := 0x57
def stNOFLASH : Nat := 0x58
def stINVALID : Nat := 0x59

/-- A request completes with a reply: into its doorbell slot (R561), or as a reply-class descriptor on REPLY_PH unless NOREPLY
is set (R314, R358). -/
def sendReply (s : State) (r : Request) (payload : List Byte) : State :=
  match r.sender with
  | .doorbell n => { s with host := { s.host with slotDone := s.host.slotDone ++ [(n, payload)] } }
  | _ => if bit r.rph 15 then s else sendDev s (r.rph % 16384) 1 payload

/-- Count a directory event (TIER_EVENT_n). -/
def tierEvent (s : State) (n : Nat) : State := addF s (fTIER_EVENT_COUNT n) 1

/-! ### Regions and entries (R306 to R310) -/

/-- The entry e. -/
def dirEnt (s : State) (e : Nat) : DirEntry := mget (fun _ => DirEntry.empty) s.tier.ents e

def setEnt (s : State) (e : Nat) (d : DirEntry) : State :=
  { s with tier := { s.tier with ents := mset (fun _ => DirEntry.empty) s.tier.ents e d } }

/-- Does the region hold entry e? -/
def Region.holds (g : Region) (e : Nat) : Bool := decide (g.first ≤ e) && decide (e < g.first + g.count)

/-- The region of an entry, with its number. -/
def regionOf (s : State) (e : Nat) : Option (Nat × Region) :=
  match firstIdx (fun g : Region => g.holds e) s.tier.regions with
  | none => none
  | some i => (s.tier.regions[i]?).map fun g => (i, g)

/-- Bytes of a directory tile, and flash tiles that back it. -/
def Region.tileBytes (g : Region) : Nat := if g.size = 1 then 0x40000 else 0x10000
def Region.flashTiles (g : Region) : Nat := if g.size = 1 then 4 else 1

/-- The backing tiles of an entry. -/
def Region.backing (g : Region) (e : Nat) : List Nat :=
  if g.flash then (List.range g.flashTiles).map fun i => g.flashBase + (e - g.first) * g.flashTiles + i else []

/-- Slots of a pool: 0 stacked, 1 LPDDR. -/
def Region.slots (g : Region) (tier : Nat) : Nat := if tier = 0 then g.stackSlots else g.lpddrSlots

/-- The device address of a slot. -/
def Region.slotAddr (g : Region) (tier slot : Nat) : Nat :=
  (if tier = 0 then g.stackBase else g.lpddrBase) + slot * g.tileBytes

/-- Write the owner word of a slot (R307). -/
def setOwner (s : State) (g : Region) (tier slot v : Nat) : State :=
  memWrite s (g.ownerBase + 4 * (if tier = 0 then slot else g.stackSlots + slot)) (toBytes 4 v)

/-- Is a slot held by an entry's copy or promised to a move? -/
def slotTaken (s : State) (i : Nat) (g : Region) (tier slot : Nat) : Bool :=
  s.tier.ents.any (fun p => g.holds p.1 && p.2.state != .empty && p.2.tier == tier && p.2.slot == slot) ||
  s.tier.moves.any (fun m => (match regionOf s m.entry with | some (j, _) => j == i | none => false) && m.tier == tier && m.slot == slot)

/-- The free slots of a pool. -/
def freeSlots (s : State) (i : Nat) (g : Region) (tier : Nat) : List Nat :=
  (List.range (g.slots tier)).filter fun n => !slotTaken s i g tier n

/-- A free slot of a pool. Which one is not stated: a free choice (assumption log 14). -/
def takeSlot (s : State) (i : Nat) (g : Region) (tier : Nat) : Option (Nat × State) :=
  match freeSlots s i g tier with
  | [] => none
  | l =>
    let r := freshWord s
    some (l.getD (r.1.toNat % l.length) 0, r.2)

/-- Bits [41:10] of the timebase (R310). -/
def stamp32 (s : State) : Nat := bits s.now 41 10

/-- The reply to a directory request (R314). The fields of a LOST entry are not known: free values. -/
def dirPayload (s : State) (r : Request) (status e : Nat) : List Byte × State :=
  let d := dirEnt s e
  let body (st tier : Nat) (d : DirEntry) (addr : Nat) : List Byte :=
    toBytes 1 status ++ toBytes 1 (st + 8 * tier + 32 * d.dirty.toNat + 64 * d.fback.toNat) ++ toBytes 2 r.tag ++ toBytes 4 e ++
    toBytes 4 d.version ++ toBytes 1 d.pin ++ toBytes 1 d.hint ++ toBytes 2 0 ++ toBytes 8 addr ++ toBytes 8 s.now
  let addr : Nat := match regionOf s e with
    | some (_, g) => if d.state = .empty ∨ 2 ≤ d.tier then 0 else g.slotAddr d.tier d.slot
    | none => 0
  match d.state with
  | .lost =>
    let a := freshWord s
    let b := freshWord a.2
    let f := a.1.toNat
    (body 4 (f % 4) { d with dirty := bit f 2, fback := bit f 3, version := bits f 35 4, pin := bits f 43 36, hint := bits f 45 44 }
      b.1.toNat, b.2)
  | .empty => (body 0 d.tier d addr, s)
  | .resident => (body 1 d.tier d addr, s)
  | .promoting => (body 2 d.tier d addr, s)
  | .evicting => (body 3 d.tier d addr, s)

/-- Complete a directory request with a status; BUSY and FULL are counted. -/
def dirReply (s : State) (r : Request) (status : Nat) : State :=
  let s := if status = stBUSY then tierEvent s 3 else if status = stFULL then tierEvent s 4 else s
  let p := dirPayload s r status r.entry
  sendReply p.2 r p.1

/-- An entry becomes LOST (R326). -/
def entryLost (s : State) (e : Nat) : State :=
  let i := match regionOf s e with | some (i, _) => i | none => 0
  let s := setEnt s e { dirEnt s e with state := .lost }
  let s := raise s fTIER_ERR_ENTRY_LOST
  postEvent (tierEvent s 10) 0x54 2 7 i e 0

/-! ### Choosing a victim (R318, R319) -/

/-- The class of an entry for a pool. -/
def victimClass (d : DirEntry) (tier : Nat) : Nat :=
  match d.hint with
  | 3 => 0
  | 2 => if tier = 0 then 1 else 2
  | 1 => 3
  | _ => 2

/-- The RESIDENT entry whose copy occupies a slot. -/
def slotEntry (s : State) (g : Region) (tier slot : Nat) : Option (Nat × DirEntry) :=
  s.tier.ents.find? fun p => g.holds p.1 && p.2.state != .empty && p.2.tier == tier && p.2.slot == slot

/-- Candidate a leaves before candidate b: class, use, larger age, lower slot. -/
def leavesBefore (s : State) (tier : Nat) (a b : Nat × DirEntry) : Bool :=
  let k (p : Nat × DirEntry) : Nat × Nat × Nat :=
    (victimClass p.2 tier, p.2.use, 2 ^ 32 - 1 - (stamp32 s + 2 ^ 32 - p.2.last) % 2 ^ 32)
  let x := k a
  let y := k b
  if x.1 ≠ y.1 then decide (x.1 < y.1)
  else if x.2.1 ≠ y.2.1 then decide (x.2.1 < y.2.1)
  else if x.2.2 ≠ y.2.2 then decide (x.2.2 < y.2.2)
  else decide (a.2.slot < b.2.slot)

/-- The victim among candidates. -/
def bestVictim (s : State) (tier : Nat) : List (Nat × DirEntry) → Option (Nat × DirEntry)
  | [] => none
  | a :: r => match bestVictim s tier r with
    | none => some a
    | some b => if leavesBefore s tier a b then some a else some b

/-- Look at 64 occupied slots at a time; the fuel bounds the windows. -/
def victimIn (s : State) (tier : Nat) (keepOk : Bool) : Nat → List (Nat × DirEntry) → Option (Nat × DirEntry)
  | 0, _ => none
  | f + 1, l =>
    if l.isEmpty then none else
    match bestVictim s tier ((l.take 64).filter fun p => p.2.state == .resident && p.2.pin == 0 && (keepOk || p.2.hint != 1)) with
    | some v => some v
    | none => victimIn s tier keepOk f (l.drop 64)

def handKey (i tier : Nat) : Nat := 2 * i + tier

/-- choose_victim (R318): the victim, and the hand after it. -/
def chooseVictim (s : State) (i : Nat) (g : Region) (tier : Nat) (keepOk : Bool) : Option (Nat × State) :=
  let n := g.slots tier
  let h := mget (fun _ => 0) s.tier.hands (handKey i tier)
  let l := (List.range n).filterMap fun k => slotEntry s g tier ((h + k) % n)
  match victimIn s tier keepOk (l.length + 1) l with
  | none => none
  | some (e, d) =>
    some (e, { s with tier := { s.tier with hands := mset (fun _ => 0) s.tier.hands (handKey i tier) ((d.slot + 1) % n) } })

/-! ### Moves (R319, R320, R324) -/

/-- At most 16 moves run at once (R320). -/
def movesFull (s : State) : Bool := decide (16 ≤ s.tier.moves.length)

/-- Start a move of an entry into a slot of a higher or lower tier; moves from and to flash start their flash operations. -/
def startMove (s : State) (g : Region) (e tier slot : Nat) (why : MoveWhy) : State :=
  let d := dirEnt s e
  let s := setEnt s e { d with state := if tier < d.tier then .promoting else .evicting }
  let fops : List FlashOp := if d.tier = 2 then (g.backing e).map fun n => ⟨n, .moveRead e, none⟩ else []
  let r : List FlashOp × State × Nat :=
    if tier = 2 then
      (g.backing e).zipIdx.foldl (fun (a : List FlashOp × State × Nat) p =>
        let m := (List.range 1024).foldl (fun (b : List (List Byte) × List Nat × State) u =>
          let x := readUnit b.2.2 ((g.slotAddr d.tier d.slot + p.2 * 65536) / 64 + u) false
          (x.data :: b.1, (if x.outcome = .poisoned ∨ x.outcome = .uncorrectable then u :: b.2.1 else b.2.1), x.s)) ([], [], a.2.1)
        (a.1 ++ [⟨p.1, .moveWrite e, some ⟨m.1.reverse.flatten, m.2.1⟩⟩], m.2.2, if m.2.1.isEmpty then a.2.2 else stMEM))
        (fops, s, 0)
    else (fops, s, 0)
  let s := r.2.1
  let m : Move := ⟨e, tier, slot, why, r.2.2⟩
  { s with tier := { s.tier with moves := s.tier.moves ++ [m], fops := s.tier.fops ++ r.1 } }

/-- An entry leaves its slot: the owner word reads free. -/
def leaveSlot (s : State) (g : Region) (d : DirEntry) : State :=
  if d.tier < 2 ∧ d.slot ≠ noSlot then setOwner s g d.tier d.slot 0xFFFFFFFF else s

/-- An eviction to flash is done: TIER 2, FBACK 1, DIRTY 0 (R319). -/
def nowFlash (s : State) (g : Region) (e : Nat) : State :=
  let d := dirEnt s e
  tierEvent (setEnt (leaveSlot s g d) e { d with state := .resident, tier := 2, slot := noSlot, fback := true, dirty := false }) 2

/-- Evict an entry by R319, for the given reason: to LPDDR if that pool has a free slot, otherwise to flash; a slot whose
contents the backing tiles hold is freed at once. None: no target. -/
def evict (s : State) (i : Nat) (g : Region) (e target : Nat) (why : MoveWhy) : Option (Bool × State) :=
  let d := dirEnt s e
  let toFlash (s : State) : Option (Bool × State) :=
    if !g.flash then none
    else if d.fback then some (true, nowFlash s g e)
    else some (false, startMove s g e 2 noSlot why)
  if d.tier = 0 ∧ target = 1 then
    match takeSlot s i g 1 with
    | some (n, s) => some (false, startMove s g e 1 n why)
    | none => toFlash s
  else toFlash s

/-- The contents of an entry are dropped (R313): EMPTY, without slot; the version stays. -/
def makeEmpty (s : State) (g : Region) (e : Nat) : State :=
  let d := dirEnt s e
  setEnt (leaveSlot s g d) e
    { d with state := .empty, tier := 0, slot := noSlot, dirty := false, fback := false, discard := false, pin := 0 }

/-- An entry whose pin count is 0 with DISCARD set becomes EMPTY, unless it moves (R313, R321). -/
def applyDiscard (s : State) (e : Nat) : State :=
  let d := dirEnt s e
  match regionOf s e with
  | some (_, g) => if d.pin = 0 ∧ d.discard ∧ d.state = .resident then makeEmpty s g e else s
  | none => s

/-! ### PIN (R317, R318, R321, R324, R325) -/

def Request.must (r : Request) : Bool := bit r.flags 2
def Request.target (r : Request) : Nat := r.flags % 4

/-- Pins on an entry besides those of waiting PINs and of the one being served. -/
def otherPins (s : State) (e : Nat) : Nat :=
  (dirEnt s e).pin - 1 - (s.tier.waits.filter fun w => w.entry == e && !w.late).length

/-- A PIN completes without its pin. -/
def failPin (s : State) (e : Nat) (r : Request) (status : Nat) : State :=
  let d := dirEnt s e
  dirReply (applyDiscard (setEnt s e { d with pin := d.pin - 1 }) e) r status

/-- A PIN waits. -/
def waitPin (s : State) (w : WaitPin) : State := { s with tier := { s.tier with waits := s.tier.waits ++ [w] } }

/-- A PIN is granted. -/
def grantPin (s : State) (r : Request) (hit : Bool) : State := dirReply (if hit then tierEvent s 0 else s) r 0

/-- A pin of an EMPTY entry fills a slot with zeros (R317). -/
def fillEmpty (s : State) (g : Region) (e tier slot : Nat) : State :=
  let d := dirEnt s e
  let s := memZero s (g.slotAddr tier slot) g.tileBytes
  setOwner (setEnt s e { d with state := .resident, tier := tier, slot := slot, dirty := true, fback := false }) g tier slot e

/-- What ends now comes after the PIN's deadline, and does not count (R325). -/
def pastDeadline (s : State) (w : WaitPin) : Bool := w.r.deadline != 0 && decide (w.r.stamp + w.r.deadline < s.now)

/-- The PIN takes a slot: an EMPTY entry is filled, another starts its promotion. -/
def pinInto (s : State) (g : Region) (w : WaitPin) (tier slot : Nat) : State :=
  let e := w.entry
  if (dirEnt s e).state = .empty then
    let s := fillEmpty s g e tier slot
    if w.late then s else if pastDeadline s w then waitPin s { w with own := true } else grantPin s w.r false
  else
    let s := startMove s g e tier slot .pin
    if w.late then s else waitPin s { w with own := true }

/-- Serve a PIN whose pin is counted, on an EMPTY or RESIDENT entry. -/
def servePin (s : State) (w : WaitPin) : State :=
  let e := w.entry
  let d := dirEnt s e
  if d.state = .lost then (if w.late then s else dirReply s w.r stLOST) else
  match regionOf s e with
  | none => if w.late then s else failPin s e w.r stINVALID
  | some (i, g) =>
    let tgt := w.r.target
    if d.state = .resident ∧ d.tier ≤ tgt then (if w.late then s else grantPin s w.r true)
    else if d.state = .resident ∧ (if w.late then d.pin else otherPins s e) ≠ 0 then
      if w.late then s else if w.r.must then failPin s e w.r stBUSY else grantPin s w.r true
    else if movesFull s ∧ d.state = .resident then waitPin s w
    else match takeSlot s i g tgt with
      | some (n, s) => pinInto s g w tgt n
      | none =>
        let none' (s : State) : State :=
          if w.late then s
          else if w.r.must then failPin s e w.r stFULL
          else
            let low := if tgt = 0 ∧ (d.state = .empty ∨ d.tier = 2) then takeSlot s i g 1 else none
            match low with
            | some (n, s) => pinInto s g w 1 n
            | none => if d.state = .resident ∧ d.tier < 2 then grantPin s w.r true else failPin s e w.r stFULL
        if movesFull s || s.tier.moves.any (fun m => some m.entry == w.leaving && m.why == .victim) then waitPin s w else
        match chooseVictim s i g tgt true with
        | none => none' s
        | some (v, s1) =>
          let s1 := if (dirEnt s1 v).hint = 1 then tierEvent s1 5 else s1
          match evict s1 i g v (tgt + 1) .victim with
          | none => none' s1
          | some (false, s2) => waitPin s2 { w with leaving := some v }
          | some (true, s2) =>
            match takeSlot s2 i g tgt with
            | some (n, s3) => pinInto s3 g w tgt n
            | none => waitPin s2 w

/-- Can the PINs of an entry be served: it does not move? -/
def settled (s : State) (e : Nat) : Bool :=
  match (dirEnt s e).state with
  | .promoting => false
  | .evicting => false
  | _ => true

/-- An earlier PIN of the entry still waits to be served (R321). -/
def pinBefore (l : List WaitPin) (e : Nat) : Bool := l.any fun w => w.entry == e && !w.late && !w.own

/-- Serve every waiting PIN whose entry does not move, in order (R321); one that must wait on keeps its place, and those of the same
entry behind it wait too. A PIN whose own move was late waits for its ending (R325). -/
def serveWaits : Nat → Nat → State → State
  | 0, _, s => s
  | f + 1, i, s =>
    match s.tier.waits[i]? with
    | none => s
    | some w =>
      if (w.own && (dirEnt s w.entry).state != .lost) || !settled s w.entry || pinBefore (s.tier.waits.take i) w.entry then
        serveWaits f (i + 1) s
      else
        let rest := removeAt s.tier.waits i
        let s1 := servePin { s with tier := { s.tier with waits := rest } } w
        match s1.tier.waits[rest.length]? with
        | some v => serveWaits f (i + 1) { s1 with tier := { s1.tier with waits := rest.take i ++ v :: rest.drop i } }
        | none => serveWaits f i s1

/-- Serve the waiting PINs once each. -/
def retryWaits (s : State) : State := serveWaits s.tier.waits.length 0 s

/-! ### The directory's answer to remote reads (R307, R322, R323) -/

/-- The region, pool and slot that an address lies in. -/
def slotAt (s : State) (a : Nat) : Option (Region × Nat × Nat) :=
  s.tier.regions.findSome? fun g =>
    if g.stackBase ≤ a ∧ a < g.stackBase + g.stackSlots * g.tileBytes then some (g, 0, (a - g.stackBase) / g.tileBytes)
    else if g.lpddrBase ≤ a ∧ a < g.lpddrBase + g.lpddrSlots * g.tileBytes then some (g, 1, (a - g.lpddrBase) / g.tileBytes)
    else none

/-- The owner word of a slot. -/
def ownerWord (s : State) (g : Region) (tier slot : Nat) : Nat :=
  ofBytes (memBytes s (g.ownerBase + 4 * (if tier = 0 then slot else g.stackSlots + slot)) 4)

/-- A read of the owner word of slot n of a region, stacked slots first (R308): none where its unit is uncorrectable or poisoned (R293). -/
def readOwner (s : State) (g : Region) (n : Nat) : Option Nat × State :=
  let r := memRead s (g.ownerBase + 4 * n) 4
  (if r.bad.isSome then none else some (ofBytes r.data), r.s)

/-- The first of k slots from n on whose owner word names entry e. A word that cannot be read names none (DESIGN CHOICE, assumption log 92). -/
def findOwner : Nat → Nat → State → Region → Nat → Option Nat × State
  | 0, _, s, _, _ => (none, s)
  | k + 1, n, s, g, e =>
    let r := readOwner s g n
    if r.1 = some e then (some n, r.2) else findOwner k (n + 1) r.2 g e

end Sys2Proof.Machine
end

