-- ==== Sys2Proof/Machine/Tier.lean ====
section
/-!
DEFINITION. The meanings of the memory tiers and the tile directory (spec 09): loading the region table, directory requests,
moves, background work, and flash.
-/
namespace Sys2Proof.Machine

/-! ### TIER_CTL.LOAD (R306 to R309) -/

/-- A region descriptor, and whether a reserved field of it is not 0. -/
def regionFrom (b : List Byte) : Region × Bool :=
  let fl := leAt b 9 1
  (⟨leAt b 0 4, leAt b 4 4, leAt b 8 1, fl % 4, bit fl 2, bit fl 3, leAt b 0xA 1, leAt b 0x10 8, leAt b 0x18 4, leAt b 0x1C 4,
    leAt b 0x20 8, leAt b 0x28 8, leAt b 0x30 4⟩,
   fl / 16 != 0 || decide (1 < leAt b 8 1) || leAt b 0xB 5 != 0 || leAt b 0x34 12 != 0)

/-- The pools and the owner table of a region: address, length. -/
def Region.areas (g : Region) : List (Nat × Nat) :=
  [(g.stackBase, g.stackSlots * g.tileBytes), (g.lpddrBase, g.lpddrSlots * g.tileBytes),
   (g.ownerBase, 4 * (g.stackSlots + g.lpddrSlots))]

/-- Flash tiles of a region's flash range. -/
def Region.flashLen (g : Region) : Nat := if g.flash then g.count * g.flashTiles else 0

/-- The checks of R308 on one descriptor, given those before it: the code of the first that fails, 0 if none (assumption log 15
for the order and the code of each). -/
def regionCode (before : List Region) (p : Region × Bool) : Nat :=
  let g := p.1
  if 2097152 < g.first + g.count ∨ g.count = 0 then 1
  else if before.any (fun h => rangesMeet g.first g.count h.first h.count) ||
    before.any (fun h => g.areas.any fun a => h.areas.any fun b => rangesMeet a.1 a.2 b.1 b.2) ||
    (g.areas.zipIdx.any fun a => g.areas.zipIdx.any fun b => decide (a.2 < b.2) && rangesMeet a.1.1 a.1.2 b.1.1 b.1.2) ||
    before.any (fun h => rangesMeet g.flashBase g.flashLen h.flashBase h.flashLen) then 2
  else if g.stackBase % g.tileBytes ≠ 0 ∨ g.lpddrBase % g.tileBytes ≠ 0 ∨ g.ownerBase % 64 ≠ 0 ∨
    0x9000000000 < g.stackBase + g.stackSlots * g.tileBytes ∨
    (0 < g.lpddrSlots ∧ (g.lpddrBase < 0x10000000000 ∨ 0x20000000000 < g.lpddrBase + g.lpddrSlots * g.tileBytes)) ∨
    !mappedRange g.ownerBase (4 * (g.stackSlots + g.lpddrSlots)) ∨
    (g.flash ∧ flashMax + 1 < g.flashBase + g.flashLen) ∨ (!g.flash ∧ g.flashBase ≠ 0) ∨
    (!g.flash ∧ g.stackSlots + g.lpddrSlots < g.count) then 3
  else if 16 < g.lowFree ∨ p.2 then 5
  else 0

/-- The first failing descriptor and its code. -/
def regionFail : Nat → List Region → List (Region × Bool) → Option (Nat × Nat)
  | _, _, [] => none
  | i, before, p :: r => match regionCode before p with
    | 0 => regionFail (i + 1) (before ++ [p.1]) r
    | c => some (i, c)

/-- Something of the directory is outstanding (R308). -/
def dirBusy (s : State) : Bool :=
  !s.tier.reqs.isEmpty || !s.tier.waits.isEmpty || !s.tier.moves.isEmpty ||
  s.tier.ents.any (fun p => (regionOf s p.1).isSome && (p.2.pin != 0 || p.2.state == .promoting || p.2.state == .evicting)) ||
  s.tier.fops.any fun o => match o.who with | .request _ => true | _ => false

/-- A write of TIER_CTL: REGIONS, and with LOAD = 1 the load of the region table. -/
def execTierLoad (v : BitVec 32) (s : State) : Host.Outcome State Fault Refusal :=
  .next (
    let n := bits v.toNat 14 8
    let s := setF s fTIER_CTL_REGIONS n
    if !v.getLsbD 0 || bitF s fTIER_STATUS_LOADING || n == 0 || decide (64 < n) then s
    else
      let fail (s : State) (i c : Nat) : State := setFs s [(fTIER_STATUS_FAIL_REGION, i), (fTIER_STATUS_LOAD_CODE, c)]
      if dirBusy s then fail s 0 4
      else
        let m := memRead s (getF s fTIER_REGION_TAB_ADDR) (64 * n)
        match m.bad with
        | some _ => fail m.s 0 stMEM
        | none =>
          let l := (List.range n).map fun i => regionFrom (slice m.data (64 * i) 64)
          match regionFail 0 [] l with
          | some (i, c) => fail m.s i c
          | none =>
            let s := setF (fail m.s 0 0) fTIER_STATUS_LOADING 1
            { s with tier := { s.tier with pending := some (l.map (·.1)) } })

/-- The load ends (R309): every entry EMPTY with version 0 and the default hint of its region, every owner word free. -/
def execRegionLoadDone (s : State) : Host.Outcome State Fault Refusal :=
  .next (match s.tier.pending with
    | none => s
    | some l =>
      let ents : SMap DirEntry := l.foldl (fun m g => (List.range g.count).foldl (fun m e =>
        mset (fun _ => DirEntry.empty) m (g.first + e) { DirEntry.empty with hint := g.hint }) m) []
      let s := { s with tier := { s.tier with regions := l, ents := ents, hands := [], pending := none, moves := [], waits := [] } }
      let s := l.foldl (fun s g =>
        memWrite s g.ownerBase (List.replicate (4 * (g.stackSlots + g.lpddrSlots)) 0xFF)) s
      setFs s [(fTIER_STATUS_LOADING, 0), (fTIER_STATUS_READY, 1)])

/-! ### Requests (R312, R313, R317, R321) -/

/-- Flag bits that an operation may use, and the values that R313 gives them. -/
def dirFlagsOk (op f : Nat) : Bool :=
  match op with
  | 1 => f / 16 == 0 && decide (f % 4 < 2)
  | 2 => f / 8 == 0
  | 3 => f / 4 == 0
  | 4 => f == 1 || f == 2
  | _ => f == 0

/-- Fields that R312 and R313 require: BAD_OPERAND. -/
def dirBad (r : Request) : Bool :=
  !dirFlagsOk r.op r.flags || bit r.rph 14 || leAt r.payload 0x1E 2 != 0 ||
  (match r.sender with | .doorbell _ => r.rph != 0 | _ => false) ||
  (r.op == 9 && (r.addr % 65536 != 0 || !mappedRange r.addr (r.count * 65536))) ||
  ((r.op == 9 || r.op == 10) && (r.count == 0 || decide (65535 < r.count) || decide (flashMax + 1 < r.arg + r.count)))

/-- A request arrives at the directory (R309, R312, R313): an unknown OP and a request during a load complete at once, the others
wait for their turn. -/
def dirArrive (s : State) (r : Request) : State :=
  if bitF s fTIER_STATUS_LOADING then dirReply s r stINVALID
  else if r.op = 0 ∨ 10 < r.op then dirReply s r stBAD
  else { s with tier := { s.tier with reqs := s.tier.reqs ++ [r] } }

/-- Take the oldest request if it has the given OP; one with bad fields completes with BAD_OPERAND. -/
def dirTake (op : Nat) (body : Request → State → State) (s : State) : Host.Outcome State Fault Refusal :=
  .next (match s.tier.reqs with
    | [] => s
    | r :: rest =>
      if r.op ≠ op then s
      else
        let s := { s with tier := { s.tier with reqs := rest } }
        if dirBad r then dirReply s r stBAD else body r s)

/-- A request that names an entry: unused entries and LOST ones are answered here. -/
def onEntry (lostOk : Bool) (body : Region → DirEntry → Request → State → State) (r : Request) (s : State) : State :=
  match regionOf s r.entry with
  | none => dirReply s r stINVALID
  | some (_, g) =>
    let d := dirEnt s r.entry
    if d.state = .lost ∧ !lostOk then dirReply s r stLOST else body g d r s

/-- The tile whose request fails with VERSION_SKEW aborts, with B writing on its behalf: no unit detects it, so it is recorded with
unit 0 (R118; assumption log 65). The PC that its trap reports is not stated: a free value. -/
def skewAbort (s : State) (r : Request) (info : Nat) : State :=
  match r.sender with
  | .tile t => let p := freshWord s
    trap p.2 t 0 cVERSION_SKEW (p.1.toNat % 0x200000) info
  | _ => s

def execPin (s : State) : Host.Outcome State Fault Refusal :=
  dirTake 1 (onEntry false fun _ d r s =>
    if bit r.flags 3 && d.version / 256 != r.arg / 256 then
      skewAbort (dirReply (tierEvent s 9) r stSKEW) r r.entry
    else if d.pin = 255 then dirReply s r stPINLIMIT
    else
      let s := setEnt s r.entry { d with pin := d.pin + 1, use := min 255 (d.use + 1), last := stamp32 s }
      let w : WaitPin := ⟨r.entry, r, false, false, none⟩
      if settled s r.entry && !pinBefore s.tier.waits r.entry then servePin s w else waitPin s w) s

def execUnpin (s : State) : Host.Outcome State Fault Refusal :=
  dirTake 2 (onEntry false fun _ d r s =>
    let wrote := bit r.flags 0
    if d.pin = 0 then dirReply s r stNOTPINNED
    else if wrote ∧ r.arg ≤ d.version then dirReply s r stORDER
    else
      let d := { d with pin := if bit r.flags 2 then 0 else d.pin - 1, discard := d.discard || bit r.flags 1 }
      let d := if wrote then { d with version := r.arg, dirty := true, fback := false } else d
      dirReply (applyDiscard (setEnt s r.entry d) r.entry) r 0) s

def execHint (s : State) : Host.Outcome State Fault Refusal :=
  dirTake 3 (onEntry false fun _ d r s => dirReply (setEnt s r.entry { d with hint := r.flags % 4 }) r 0) s

/-- EVICT (R313, R319, R321). An entry already at or below the target tier needs no move. -/
def execEvict (s : State) : Host.Outcome State Fault Refusal :=
  dirTake 4 (onEntry false fun _ d r s =>
    match regionOf s r.entry with
    | none => dirReply s r stINVALID
    | some (i, g) =>
      if d.pin ≠ 0 ∨ d.state ≠ .resident then dirReply s r stBUSY
      else if r.flags = 2 ∧ !g.flash then dirReply s r stNOFLASH
      else if r.flags ≤ d.tier then dirReply s r 0
      else if movesFull s then { s with tier := { s.tier with reqs := r :: s.tier.reqs } }
      else match evict s i g r.entry r.flags (.evict r) with
        | none => dirReply s r stFULL
        | some (true, s) => retryWaits (dirReply s r 0)
        | some (false, s) => s) s

/-- What still runs or waits for a LOST entry ends with ENTRY_LOST (R321): its move, the EVICT behind that, and waiting PINs. -/
def endLost (s : State) (e : Nat) : State :=
  let s := s.tier.moves.foldl (fun s m => match m.why with
    | .evict r => if m.entry = e then dirReply s r stLOST else s
    | _ => s) s
  let s := s.tier.waits.foldl (fun s w => if w.entry = e ∧ !w.late then dirReply s w.r stLOST else s) s
  { s with tier := { s.tier with
      moves := s.tier.moves.filter fun m => m.entry != e
      fops := s.tier.fops.filter fun o => o.who != .moveRead e && o.who != .moveWrite e
      waits := s.tier.waits.filter fun w => w.entry != e } }

/-- FREE (R313, R321, R326): a LOST entry finds its slot through the owner table. -/
def execFree (s : State) : Host.Outcome State Fault Refusal :=
  dirTake 5 (onEntry true fun g d r s =>
    if d.state = .lost then
      let s := endLost s r.entry
      let own := findOwner (g.stackSlots + g.lpddrSlots) 0 s g r.entry
      let s := match own.1 with
        | some n => memWrite own.2 (g.ownerBase + 4 * n) (toBytes 4 0xFFFFFFFF)
        | none => own.2
      retryWaits (dirReply (setEnt s r.entry { DirEntry.empty with hint := g.hint }) r 0)
    else if d.pin ≠ 0 ∨ d.state = .promoting ∨ d.state = .evicting then dirReply s r stBUSY
    else retryWaits (dirReply (makeEmpty s g r.entry) r 0)) s

def execSetver (s : State) : Host.Outcome State Fault Refusal :=
  dirTake 6 (onEntry false fun _ d r s =>
    if d.state = .empty then dirReply s r stBUSY
    else if r.arg ≤ d.version then dirReply s r stORDER
    else dirReply (setEnt s r.entry { d with version := r.arg }) r 0) s

/-- Is a flash tile present (R304)? -/
def present (s : State) (n : Nat) : Bool := (mget (fun _ => none) s.tier.flash n).isSome

def execAttach (s : State) : Host.Outcome State Fault Refusal :=
  dirTake 7 (onEntry false fun g d r s =>
    if d.state ≠ .empty ∨ d.pin ≠ 0 then dirReply s r stBUSY
    else if !g.flash then dirReply s r stNOFLASH
    else if (g.backing r.entry).any fun n => !present s n then dirReply s r stABSENT
    else dirReply (setEnt s r.entry { d with state := .resident, tier := 2, slot := noSlot, fback := true, dirty := false }) r 0) s

def execQuery (s : State) : Host.Outcome State Fault Refusal :=
  dirTake 8 (onEntry false fun _ _ r s => dirReply s r 0) s

/-- A flash tile that backs an entry that is not EMPTY (R313). -/
def backs (s : State) (n : Nat) : Bool :=
  s.tier.regions.any fun g => g.flash && decide (g.flashBase ≤ n) && decide (n < g.flashBase + g.flashLen) &&
    (dirEnt s (g.first + (n - g.flashBase) / g.flashTiles)).state != .empty

/-- FLASH_WRITE (R313, R328): its source is read when it starts; each tile is written by FLASH_PROGRAM_DONE. -/
def execFlashWrite (s : State) : Host.Outcome State Fault Refusal :=
  dirTake 9 (fun r s =>
    let l := (List.range r.count).map (r.arg + ·)
    if l.any (backs s) then dirReply s r stBUSY
    else
      let m := memRead s r.addr (r.count * 65536)
      match m.bad with
      | some _ => dirReply m.s r stMEM
      | none =>
        let more : List FlashOp := l.zipIdx.map fun p => ⟨p.1, .request r, some ⟨slice m.data (65536 * p.2) 65536, []⟩⟩
        { m.s with tier := { m.s.tier with fops := m.s.tier.fops ++ more } }) s

/-- FLASH_TRIM (R304, R305, R313); it waits behind operations on the tiles that it names. -/
def execFlashTrim (s : State) : Host.Outcome State Fault Refusal :=
  dirTake 10 (fun r s =>
    let l := (List.range r.count).map (r.arg + ·)
    if l.any (backs s) then dirReply s r stBUSY
    else if s.tier.fops.any fun o => l.contains o.n then { s with tier := { s.tier with reqs := r :: s.tier.reqs } }
    else dirReply { s with tier := { s.tier with
      flash := l.foldl (fun m n => mset (fun _ => none) m n none) s.tier.flash, rewrites := s.tier.rewrites.filter fun n => !l.contains n } } r 0) s

/-! ### Moves, background eviction, decay and lateness (R320, R324, R325) -/

/-- Copy a slot unit by unit; units in error are copied with poison (R324). The third component: a bad unit was met. -/
def copySlot (s : State) (src dst n : Nat) : State × Bool :=
  (List.range (n / 64)).foldl (fun (a : State × Bool) i =>
    let x := readUnit a.1 (src / 64 + i) false
    let s := memWrite x.s (dst + 64 * i) x.data
    if x.outcome = .poisoned ∨ x.outcome = .uncorrectable then (memPoison s (dst + 64 * i) 64, true) else (s, a.2)) (s, false)

/-- A move of the entry has ended with a status: its PIN or its EVICT completes, then the PINs that waited are served. -/
def moveEnds (s : State) (m : Move) (status : Nat) : State :=
  let s := applyDiscard s m.entry
  let s := match m.why with
    | .evict r => dirReply s r status
    | .pin =>
      (match firstIdx (fun w : WaitPin => w.entry == m.entry && w.own && !w.late) s.tier.waits with
       | none => s
       | some i => match s.tier.waits[i]? with
         | none => s
         | some w =>
           if pastDeadline s w then s
           else
             let s := { s with tier := { s.tier with waits := removeAt s.tier.waits i } }
             if status = 0 then grantPin s w.r false else failPin s m.entry w.r status)
    | _ => s
  retryWaits s

/-- The move of entry e completes (R320): copy, owner words, state, counters, and what waited for it. -/
def execMoveComplete (e : Nat) (s : State) : Host.Outcome State Fault Refusal :=
  .next (
    match s.tier.moves.find? (fun m => m.entry == e), regionOf s e with
    | some m, some (_, g) =>
      if s.tier.fops.any (fun o => o.who == .moveRead e || o.who == .moveWrite e) then s
      else
        let s := { s with tier := { s.tier with moves := s.tier.moves.filter fun n => n.entry != e } }
        let d := dirEnt s e
        if d.state = .lost then retryWaits (match m.why with | .evict r => dirReply s r stLOST | _ => s)
        else if m.bad ≠ 0 ∧ m.bad ≠ stMEM then moveEnds (setEnt s e { d with state := .resident }) m m.bad
        else if m.tier = 2 then moveEnds (nowFlash s g e) m m.bad
        else
          let r := if d.tier < 2 then copySlot s (g.slotAddr d.tier d.slot) (g.slotAddr m.tier m.slot) g.tileBytes
            else (s, m.bad == stMEM)
          let s := setOwner (leaveSlot r.1 g d) g m.tier m.slot e
          let s := tierEvent (setEnt s e { d with state := .resident, tier := m.tier, slot := m.slot }) (if m.tier < d.tier then 1 else 2)
          moveEnds s m (if r.2 then stMEM else 0)
    | _, _ => s)

/-- Background moves in flight out of a pool. -/
def backgroundOf (s : State) (i tier : Nat) : Nat :=
  (s.tier.moves.filter fun m => m.why == .background &&
    (match regionOf s m.entry with | some (j, _) => j == i | none => false) && (dirEnt s m.entry).tier == tier).length

/-- A background eviction of pool `tier` of region i starts (R318 to R320). -/
def execBackgroundEvict (i : Nat) (tier : Fin 2) (s : State) : Host.Outcome State Fault Refusal :=
  .next (match s.tier.regions[i]? with
    | none => s
    | some g =>
      if bitF s fTIER_STATUS_LOADING ∨ g.lowFree = 0 ∨ g.lowFree * g.slots tier.val ≤ 64 * (freeSlots s i g tier.val).length ∨ movesFull s ∨
         4 ≤ backgroundOf s i tier.val then s
      else match chooseVictim s i g tier.val false with
        | none => s
        | some (v, s1) => match evict s1 i g v (tier.val + 1) .background with
          | none => s1
          | some (true, s2) => retryWaits s2
          | some (false, s2) => s2)

/-- Every 10 ms the USE of every entry is halved (R320): once for each whole period since the last time; nothing before one has passed. -/
def execUseDecay (s : State) : Host.Outcome State Fault Refusal :=
  let n := (s.now - s.tier.useAt) / 10000000
  .next (if n = 0 then s
    else { s with tier := { s.tier with
      ents := (s.tier.ents.map fun p => (p.1, { p.2 with use := p.2.use / 2 ^ min n 64 })).filter fun p => p.2 != DirEntry.empty
      useAt := s.tier.useAt + 10000000 * n } })

/-- The i-th waiting PIN is late 64 ns after its deadline (R325): it completes with LOWER_LATE; the move that it asked for
goes on. -/
def execPinLate (i : Nat) (s : State) : Host.Outcome State Fault Refusal :=
  .next (match s.tier.waits[i]? with
    | none => s
    | some w =>
      if w.late ∨ w.r.deadline = 0 ∨ s.now < w.r.stamp + w.r.deadline + 64 then s
      else
        let l := if w.own then removeAt s.tier.waits i else replaceAt s.tier.waits i { w with late := true }
        let s := { s with tier := { s.tier with waits := l } }
        retryWaits (failPin (tierEvent s 6) w.entry w.r stLATE))

/-! ### Flash (R303 to R305, R327 to R329) -/

/-- May flash operation i end now: no earlier operation on its tile stands in the way (R305)? -/
def fopMayEnd (s : State) (i : Nat) (o : FlashOp) : Bool :=
  !(s.tier.fops.take i).any fun p => p.n == o.n && (p.write.isSome || o.write.isSome)

/-- A move's flash operation ended badly: a failure stays the move's, a poisoned unit gives way to one (R324, R327, R328). -/
def moveBad (s : State) (e code : Nat) : State :=
  let bad (b : Nat) : Nat := if b = 0 ∨ b = stMEM then code else b
  { s with tier := { s.tier with moves := s.tier.moves.map fun m => if m.entry = e then { m with bad := bad m.bad } else m } }

/-- A flash tile has been read for a transfer: its bytes, or a failure. A tile that comes after T_d makes the transfer tardy
(R259). -/
def flashToStream (s : State) (t no n : Nat) (res : Option FlashTile) (code : Nat) : State :=
  match (s.tile t).str.run.find? fun r => r.no == no with
  | none => s
  | some r =>
    let late := match r.deadline with | some d => decide (d < s.now) | none => false
    let tardy (o : Option Nat) : Option Nat := if !late then o else match o with | some m => some (min m n) | none => some n
    let s := onRun s t no fun r => { r with flash := r.flash.filter (· != n), tardy := tardy r.tardy }
    pumpStream (match res with
      | none => failRun s t no code n
      | some f =>
        if f.poison.isEmpty then
          onRun s t no fun r => { r with rr := { r.rr with got := putBytes r.rr.got ((n - stX r.e) * 65536) f.data } }
        else failRun s t no stMEM n) t

/-- A flash tile has been read for a move: it goes to its place in the slot, poisoned units with poison. -/
def flashToMove (s : State) (e n : Nat) (res : Option FlashTile) (code : Nat) : State :=
  match res, s.tier.moves.find? (fun m => m.entry == e), regionOf s e with
  | some f, some m, some (_, g) =>
    let a := g.slotAddr m.tier m.slot + (n - (g.flashBase + (e - g.first) * g.flashTiles)) * 65536
    let s := memWrite s a f.data
    let s := f.poison.foldl (fun s u => memPoison s (a + 64 * u) 64) s
    if f.poison.isEmpty then s else moveBad s e stMEM
  | none, _, _ => moveBad s e code
  | _, _, _ => s

/-- Flash operation i, a read, ends (R327): `retried` codewords needed level 2 or 3, and `fail` is the first codeword that failed
every level. -/
def execFlashTileReadDone (i : Nat) (retried : Fin 17) (fail : Option (Fin 16)) (s : State) : Host.Outcome State Fault Refusal :=
  .next (match s.tier.fops[i]? with
    | none => s
    | some o =>
      if o.write.isSome || !fopMayEnd s i o then s
      else
        let s := { s with tier := { s.tier with fops := removeAt s.tier.fops i } }
        let s := addF s (fTIER_EVENT_COUNT 7) retried.val
        let s := if retried.val = 0 ∨ s.tier.rewrites.contains o.n then s
          else { s with tier := { s.tier with rewrites := s.tier.rewrites ++ [o.n] } }
        let cur := mget (fun _ => none) s.tier.flash o.n
        let r : Option FlashTile × Nat × State :=
          match cur, fail with
          | none, _ => (none, stABSENT, s)
          | some _, some c =>
            let p := freshWord (tierEvent (raise s fTIER_ERR_FLASH_READ_FAIL) 8)
            (none, stREADFAIL, postEvent p.2 0x40 2 7 (p.1.toNat % 65536) o.n c.val)
          | some f, none => (some f, 0, s)
        match o.who with
        | .stream t no => flashToStream r.2.2 t no o.n r.1 r.2.1
        | .moveRead e => flashToMove r.2.2 e o.n r.1 r.2.1
        | _ => r.2.2)

/-- What the translation layer reports of its spare (R328, TIER_FLASH_INFO). -/
def flashSpare (s : State) (spare : BitVec 8) (low : Bool) : State :=
  raiseIf low { s with tier := { s.tier with spare := spare.toNat } } fTIER_ERR_SPARE_LOW

/-- Is there a place for the contents of flash tile n? The packages hold 10^12 bytes each (R4, R303), less those that did not answer (R537); a tile
that is present gives its old place back. -/
def flashRoom (s : State) (n : Nat) : Bool :=
  (mget (fun _ => none) s.tier.flash n).isSome || decide (65536 * (s.tier.flash.length + 1) ≤ (16 - s.tier.absent) * 10 ^ 12)

/-- Flash operation i, a whole-tile write, ends (R304, R328): the tile becomes present with its new contents, or no free space
was found: the operand `full` says so, or the packages that answer are full. `spare` and `low` are the remaining spare in percent of that at manufacture and whether it is below 1 % of raw capacity. -/
def execFlashProgramDone (i : Nat) (full : Bool) (spare : BitVec 8) (low : Bool) (s : State) : Host.Outcome State Fault Refusal :=
  .next (match s.tier.fops[i]? with
    | none => s
    | some o => match o.write with
      | none => s
      | some f =>
        if !fopMayEnd s i o then s
        else
          let full := full || !flashRoom s o.n
          let s := flashSpare { s with tier := { s.tier with fops := removeAt s.tier.fops i } } spare low
          let s := if full then raise s fTIER_ERR_FLASH_FULL
            else { s with tier := { s.tier with
              flash := mset (fun _ => none) s.tier.flash o.n (some f), rewrites := s.tier.rewrites.filter (· != o.n) } }
          match o.who with
          | .request r =>
            let more := s.tier.fops.any fun p => p.who == FlashFor.request r
            if full then
              let rest := s.tier.fops.filter fun p => p.who != FlashFor.request r
              dirReply { s with tier := { s.tier with fops := rest } } r stFLASHFULL
            else if more then s
            else dirReply s r 0
          | .moveWrite e => if full then moveBad s e stFLASHFULL else s
          | _ => s)

/-- A wear move (R327, R329): a flash tile with a retried codeword is rewritten elsewhere, or where none waits for that, a block of
`bytes` bytes whose erase count exceeds the module's least by `excess`, at least 1,000, is moved. No flash tile changes its contents. The
moves stay under WEAR_MBPS; the wear figures are what TIER_FLASH_INFO reports afterwards. Firmware selects the moves, and pauses during
a restart (R547). -/
def execWearMove (w : WearBlock) (spare : BitVec 8) (low : Bool) (s : State) : Host.Outcome State Fault Refusal :=
  .next (
    let tile := s.tier.rewrites.find? fun n => !s.tier.fops.any fun o => o.n == n
    let due := tile.isSome || decide (1000 ≤ w.excess)
    if !bitF s fPM_STATUS_FW_RUNNING || !due || decide (s.now < s.tier.wearAt) then s
    else
      let n := if tile.isNone then w.bytes else 65536
      let next := s.now + (1000 * n + getF s fTIER_FLASH_CTL_WEAR_MBPS - 1) / getF s fTIER_FLASH_CTL_WEAR_MBPS
      let s := { s with tier := { s.tier with rewrites := s.tier.rewrites.filter (some · != tile), wearAt := next, life := w.life.toNat } }
      flashSpare (tierEvent s 11) spare low)

end Sys2Proof.Machine
end

