-- ==== Sys2Proof/Machine/Fill.lean ====
section
/-!
DEFINITION. The meanings of the deferral queue and of the idle-fill order (spec 06 R214 to R229).
-/
namespace Sys2Proof.Machine

/-! ### Items (R215) -/

/-- Bits hi to lo of the byte field at an offset of an item. -/
def itemB (i o hi lo : Nat) : Nat := bits (i / 2 ^ (8 * o)) hi lo

def itemType (i : Nat) : Nat := itemB i 0 3 0
def itemStk (i : Nat) : Nat := itemB i 0 7 4
def itemOvw (i : Nat) : Bool := bit i 8
def itemSe (i : Nat) : Bool := bit i 12
def itemImg (i : Nat) : Nat := itemB i 0x18 51 0
def itemGroup (i : Nat) : Nat := itemB i 0x18 63 52
def itemRmen (i : Nat) : Bool := itemB i 0x10 63 63 == 1
def itemMask (i : Nat) : Nat := itemB i 0x10 62 42

/-- The product that a PRODUCT item describes, into the bound tile (R215, R216). -/
def itemOp (i acc : Nat) : MMOp :=
  { acc := acc, ovw := itemOvw i, a16 := bit i 11, spr := false, ta := bit i 9, tb := bit i 10,
    aOff := itemB i 0x08 20 0, aScale := itemB i 0x08 41 21, bOff := itemB i 0x10 20 0, bScale := itemB i 0x10 41 21,
    zOff := 0, kLen := itemB i 0x04 15 0, m := 32 * (itemB i 3 1 0 + 1), n := 32 * (itemB i 3 3 2 + 1),
    fa := itemB i 2 3 0, fb := itemB i 2 7 4 }

/-- The fault of a PRODUCT's fields and operands (R222): its cause. STK is a field of every type, so STK ≠ 0 with SE = 0 is no unused
field (DESIGN CHOICE, assumption log 84). -/
def productFault (s : State) (i : Nat) : Option Nat :=
  let feat := featureEff s
  let op := itemOp i 0
  let noFmt (c : Nat) : Bool := decide (14 ≤ c) || (decide (c < 13) && !fmtLegal feat c)
  if noFmt op.fa || noFmt op.fb || (op.a16 && !bit feat featACC16) then some cBAD_FORMAT
  else if itemB i 1 7 5 ≠ 0 ∨ itemB i 3 7 4 ≠ 0 ∨ itemB i 0x08 63 42 ≠ 0 ∨
    op.kLen % 32 ≠ 0 ∨ op.kLen < 32 ∨ 16384 < op.kLen ∨ widthClass op.fa = 0 ∨ widthClass op.fb = 0 ∨
    (op.a16 ∧ (widthClass op.fa = 16 ∨ widthClass op.fb = 16)) then some cDEFER_BAD
  else if (mmRanges op).any (fun r => decide (ocSize < r.1 + r.2)) || (itemRmen i && decide (ocSize < itemMask i + 16)) then
    some cOC_RANGE
  else if itemImg i % 64 ≠ 0 ∨ (itemRmen i ∧ itemMask i % 16 ≠ 0) then some cMISALIGNED
  else if !mappedRange (itemImg i) imageBytes then some cADDR_UNMAPPED
  else none

/-- A deferral fault: unit 1, PC 0, and bytes 0 to 7 of the item (R222). -/
def deferTrap (s : State) (t i code : Nat) : State := trap s t 1 code 0 (i % 2 ^ 64)

/-- An unused field of a BIND, DRAIN or RELEASE item is not 0 (R215). `ovw` says that the type uses OVW; STK counts as used
(assumption log 84). -/
def shortItemBad (i : Nat) (ovw : Bool) : Bool :=
  decide (0x2000 ≤ i) || bits i 11 9 != 0 || (!ovw && itemOvw i)

/-- Change the fill unit of a tile. -/
def State.onFill (s : State) (t : Nat) (f : FillUnit → FillUnit) : State := s.onTile t fun x => { x with fill := f x.fill }

/-- The head item completes: it leaves the queue and its signal is applied (R216, R89); level 1 ends
with the last item. -/
def itemDone (s : State) (t i : Nat) : State :=
  let s := s.onFill t fun f =>
    { f with defer := f.defer.tail, slice := none, quads := [], level := if f.level = 1 ∧ f.defer.length ≤ 1 then 0 else f.level }
  if itemSe i then tkAdd s t (itemStk i) 1 1 0 else s

/-- The head item of a live task's deferral queue that no transfer holds, while the phase is no EVAL phase (R235). -/
def deferHead (s : State) (t : Nat) : Option Nat :=
  let x := s.tile t
  if !isLive s t || !clkRuns s t || x.fill.move.isSome || inEval s then none else x.fill.defer.head?

/-- A frozen element (R219). -/
def frozen (x : Tile) (i m n : Nat) : Bool :=
  bit (itemB i 0x06 15 0) (4 * (m / 32) + n / 32) ||
  (itemRmen i && (mget memDefault x.oc (itemMask i + m / 8)).getLsbD (m % 8))

/-- The quadrants of an item that hold an element that is not frozen: their row and column offsets. -/
def quadrants (x : Tile) (i : Nat) (op : MMOp) : List (Nat × Nat) :=
  let all := ((List.range ((op.m + 63) / 64)).map fun h => (List.range ((op.n + 63) / 64)).map fun v => (64 * h, 64 * v)).flatten
  all.filter fun q => (List.range (min 64 (op.m - q.1))).any fun m => (List.range (min 64 (op.n - q.2))).any fun n =>
    !frozen x i (q.1 + m) (q.2 + n)

/-- The operand-cache bytes of the row mask of a PRODUCT. -/
def maskRanges (i : Nat) : List (Nat × Nat) := if itemRmen i then [(itemMask i, 16)] else []

/-- The head PRODUCT has acted on the resident block, which is now its own: its slices begin, over the quadrants that its masks leave
at that instant (R221). A row mask that cannot be read is an operand fault (R222). -/
def beginSlices (s : State) (t i a : Nat) : State :=
  let s := s.onTile t fun x => { x with fill := { x.fill with
    slice := some 0, quads := quadrants x i (itemOp i a), move := none, res := some (itemImg i, itemGroup i) } }
  if (ocUe (s.tile t) (maskRanges i)).isSome then deferTrap (sramUe s) t i cMEM_UNCORRECTABLE else s

/-- The next token wait of a queue's head is not served, or the queue is empty. -/
def tokenStuck (s : State) (t : Nat) (e : Engine) : Bool :=
  match getQueue (s.tile t) e with
  | [] => true
  | h :: _ => wWE h.word && !h.tokenTaken && !headServed s t e h

/-- The overlap rules of its chapter let the matrix or vector instruction of a queue's head start. -/
def headMayStart (s : State) (t : Nat) (e : Engine) (h : QEntry) : Bool :=
  let s := popHead s t e
  match e with
  | .matrix =>
    (match wMin h.word with
     | 0 => startMM t h s
     | 1 => startMzero t h s
     | 2 => startImage t h .save s
     | 3 => startImage t h .merge s
     | _ => startImage t h .restore s).isSome
  | .vector =>
    !replaying (s.tile t) .vector &&
    (if wMaj h.word = 0x32 ∧ wMin h.word = 2 then startRdsp t h s
     else match vRow (wMaj h.word) (wMin h.word) with
      | some v => v.start t .ok h s
      | none => none).isSome
  | _ => true

/-- The queue is empty or its head cannot start (R225). -/
def queueStuck (s : State) (t : Nat) (e : Engine) : Bool :=
  tokenStuck s t e || (match getQueue (s.tile t) e with | [] => true | h :: _ => !headMayStart s t e h)

/-- The parameter group of an optimizer fill item (R226). -/
def optGroup (i : Nat) : Nat := itemB i 2 11 0

/-- The head optimizer fill item belongs to the group of the resident block, which R227 forbids. -/
def optHeld (x : Tile) : Bool :=
  match x.fill.opt.head?, x.fill.res with
  | some i, some (_, g) => optGroup i == g
  | _, _ => false

/-! ### Item commands -/

/-- A PRODUCT, or an item of a reserved type, reaches the head: it is checked, and at level 1 it acts on the resident block
(R217, R218, R222, R225), unless R227 asks for its write-back first. -/
def execProduct (t : Tid) (s : State) : Host.Outcome State Fault Refusal :=
  .next (sameCycle s t 1 fun s => match deferHead s t with
    | none => s
    | some i =>
      let x := s.tile t
      if x.fill.slice.isSome || (decide (1 ≤ itemType i) && decide (itemType i ≤ 3)) then s
      else if 4 ≤ itemType i then deferTrap s t i cDEFER_BAD
      else match productFault s i, x.fill.bound with
        | some c, _ => deferTrap s t i c
        | none, none => deferTrap s t i cDEFER_UNBOUND
        | none, some a =>
          if x.fill.level ≠ 1 ∨ phaseHolds s ∨ optHeld x ∨ !queueStuck s t .matrix then s else
          let ready (s : State) : State := beginSlices s t i a
          let clear (s : State) : State := s.onTile t fun x => x.putAcc a (x.acc a).clear
          let hit := match x.fill.res with | some (ad, _) => ad == itemImg i | none => false
          if hit then
            let s := addF s (fTILE_STALL_COUNT t 10) 1
            ready (if itemOvw i then clear s else s)
          else
            let s := addF s (fTILE_STALL_COUNT t 11) 1
            match x.fill.res, itemOvw i with
            | some _, false => s.onFill t fun f => { f with move := some (.writeBack .toLoad) }
            | some _, true => s.onFill t fun f => { f with move := some (.writeBack .toClear) }
            | none, false => s.onFill t fun f => { f with move := some .load }
            | none, true => ready (clear s))

/-- BIND binds the accumulator tile that OVW selects (R216, R217); it waits while the tile is UNVERIFIED (R266) or a matrix
instruction on it is in progress. -/
def execBind (t : Tid) (s : State) : Host.Outcome State Fault Refusal :=
  .next (sameCycle s t 1 fun s => match deferHead s t with
    | none => s
    | some i =>
      let x := s.tile t
      let a := (itemOvw i).toNat
      if itemType i ≠ 1 then s
      else if shortItemBad i true || x.fill.bound.isSome then deferTrap s t i cDEFER_BAD
      else if (x.acc a).unverified || x.mat.run.any (·.acc == a) then s
      else itemDone (s.onFill t fun f => { f with bound := some a }) t i)

/-- DRAIN starts the write-back of the resident block, or completes where none is held (R216, R217). R225 names the write-back of a PRODUCT alone
as level-1 work; that of a DRAIN or RELEASE starts as soon as the item is at the head, at any level, whatever the matrix unit does and in a phase that
holds fill, but in no EVAL phase (DESIGN CHOICE, assumption log 92). -/
def execDrain (t : Tid) (s : State) : Host.Outcome State Fault Refusal :=
  .next (sameCycle s t 1 fun s => match deferHead s t with
    | none => s
    | some i =>
      let x := s.tile t
      if itemType i ≠ 2 then s
      else if shortItemBad i false then deferTrap s t i cDEFER_BAD
      else match x.fill.bound, x.fill.res with
        | none, _ => deferTrap s t i cDEFER_UNBOUND
        | some _, none => itemDone s t i
        | some _, some _ => s.onFill t fun f => { f with move := some (.writeBack .drain) })

/-- RELEASE writes the resident block back and unbinds the tile (R216). -/
def execRelease (t : Tid) (s : State) : Host.Outcome State Fault Refusal :=
  .next (sameCycle s t 1 fun s => match deferHead s t with
    | none => s
    | some i =>
      let x := s.tile t
      if itemType i ≠ 3 then s
      else if shortItemBad i false then deferTrap s t i cDEFER_BAD
      else match x.fill.bound, x.fill.res with
        | some _, some _ => s.onFill t fun f => { f with move := some (.writeBack .release) }
        | _, _ => itemDone (s.onFill t fun f => { f with bound := none }) t i)

/-- The write-back of the resident block lands: its image is visible. -/
def writeBackLands (s : State) (t : Nat) : State :=
  let x := s.tile t
  match x.fill.bound, x.fill.res with
  | some a, some (ad, _) => memWriteH false s ad (x.acc a).image 0
  | _, _ => s

/-- A load that a task abort finds started completes (R223): the image enters the bound tile, unless it cannot be read or R147 refuses
it, which an aborting task no longer reports. -/
def loadLands (s : State) (t : Nat) : State :=
  let x := s.tile t
  match x.fill.bound, x.fill.defer.head? with
  | some a, some i =>
    let m := memReadH s (itemImg i) imageBytes 0
    if m.bad.isSome || imageBad m.data then m.s else m.s.onTile t fun x => x.putAcc a (accOfImage m.data)
  | _, _ => s

/-- A write-back or a load over the accumulator port completes (R218, R147). `ue`: an element that a write-back reads has an
uncorrectable error in the accumulator SRAM (R170), which is a fault of the head item, or of the tile where R227 asks for the write-back
(assumption log 84). The load or clear that follows a PRODUCT's write-back belongs to the same start under R225: it begins at once, also where the phase
has come to hold fill or the level has yielded since (DESIGN CHOICE, assumption log 92). -/
def execResidentTransferDone (u : AccUse) (s : State) : Host.Outcome State Fault Refusal :=
  let t := u.tile
  .next (sameCycle s t 1 fun s =>
    let x := s.tile t
    if !isLive s t then s else
    match x.fill.move, x.fill.bound with
    | some (.writeBack n), some a =>
      let i := x.fill.defer.headD 0
      if u.ue || accBad x a (fun _ => true) then (match n with | .idle => trapSram s t 1 0 a | _ => deferTrap (sramUe s) t i cMEM_UNCORRECTABLE) else
      let s := writeBackLands s t
      let s := s.onFill t fun f => { f with move := none, res := none }
      (match n with
       | .toLoad => s.onFill t fun f => { f with move := some .load }
       | .toClear =>
         beginSlices (s.onTile t fun x => x.putAcc a (x.acc a).clear) t i a
       | .drain => itemDone s t i
       | .release => itemDone (s.onFill t fun f => { f with bound := none }) t i
       | .idle => s.onFill t fun f => { f with level := if f.defer.isEmpty then 0 else f.level })
    | some .load, some a =>
      let i := x.fill.defer.headD 0
      let m := memReadH s (itemImg i) imageBytes 0
      (match m.bad with
       | some _ => deferTrap m.s t i cMEM_UNCORRECTABLE
       | none =>
         if imageBad m.data then deferTrap m.s t i cBAD_OPERAND
         else
           beginSlices (m.s.onTile t fun x => x.putAcc a (accOfImage m.data)) t i a)
    | _, _ => s)

/-! ### Slices (R219, R220) -/

/-- The chunk steps that 32 values of k complete (R150): 32/D, or with 16-bit accumulation the fold that they end. -/
def stepsOf (op : MMOp) (kk : Nat) : List Nat :=
  if op.a16 then (if kk % 4 = 3 ∨ kk + 1 = op.kLen / 32 then [kk / 4] else [])
  else (List.range (32 / op.d)).map (kk * (32 / op.d) + ·)

/-- One slice: the chunks of 32 values of k into each element of one quadrant, with the fold of R152 at its place. -/
def sliceElem (x : Tile) (op : MMOp) (l1 m n : Nat) (steps : List Nat) (e : AccElem) : AccElem × Bool :=
  steps.zipIdx.foldl (fun (a : AccElem × Bool) p =>
    match stepTerm x op [] p.1 m n with
    | none => a
    | some (v, o) =>
      let e := a.1.term v
      (if (l1 + p.2 + 1) % 2 ^ 20 = 0 then e.fold else e, a.2 || o)) (e, false)

/-- The counters advance by one chunk step of item i (R150, R152, R154); the elements that it computes have been folded with their terms,
and a fold folds the elements outside its M × N too, but no frozen one (R219). BOUND_LAPSED is recorded with PC 0 and the accumulator's
number as INFO (DESIGN CHOICE, assumption log 84). -/
def countStep (s : State) (t acc i : Nat) : State :=
  let x := s.tile t
  let a := x.acc acc
  let op := itemOp i acc
  let s := if a.l2 = 2 ^ 20 ∧ !a.lapsed then lapse s t acc 0 acc else s
  s.onTile t fun x =>
    let a := x.acc acc
    let apart (key : Nat) : Bool := (decide (op.m ≤ key / 128) || decide (op.n ≤ key % 128)) && !frozen x i (key / 128) (key % 128)
    x.setAcc acc (if a.l1 + 1 = 2 ^ 20 then
        { (a.map fun key e => if apart key then e.fold else e) with l1 := 0, l2 := min (a.l2 + 1) (2 ^ 20), folded := true }
      else { a with l1 := a.l1 + 1 })

/-- Count several chunk steps. -/
def countSteps : Nat → State → Nat → Nat → Nat → State
  | 0, s, _, _, _ => s
  | c + 1, s, t, acc, i => countSteps c (countStep s t acc i) t acc i

/-- The operand-cache bytes that the 32 values of k at 32kk of a PRODUCT read: its squares and its row mask. -/
def sliceRanges (i : Nat) (op : MMOp) (kk : Nat) : List (Nat × Nat) :=
  op.kRanges [] kk ++ maskRanges i

/-- The array computes the chunks of 32 values of k at 32kk into quadrant q of the tile bound to item i (R220). -/
def runSlice (x : Tile) (i acc kk : Nat) (q : Nat × Nat) : Tile :=
  let op := itemOp i acc
  let a := x.acc acc
  let steps := stepsOf op kk
  let inQ (m n : Nat) : Bool :=
    decide (q.1 ≤ m) && decide (m < q.1 + 64) && decide (m < op.m) && decide (q.2 ≤ n) && decide (n < q.2 + 64) &&
    decide (n < op.n) && !frozen x i m n
  let b := a.map fun key e => if inQ (key / 128) (key % 128) then (sliceElem x op a.l1 (key / 128) (key % 128) steps e).1 else e
  let ovf := op.a16 && (List.range 16384).any fun key =>
    inQ (key / 128) (key % 128) && (sliceElem x op a.l1 (key / 128) (key % 128) steps .zero).2
  x.setAcc acc { b with ovf16 := a.ovf16 || ovf }

/-- The array runs one slice of the head PRODUCT at level 1 (R220); after the last one the item completes. `ue`: an element that it reads
has an uncorrectable error in the accumulator SRAM (R170). -/
def execFillSlice (u : AccUse) (s : State) : Host.Outcome State Fault Refusal :=
  let t := u.tile
  .next (sameCycle s t 1 fun s => match deferHead s t with
    | none => s
    | some i =>
      let x := s.tile t
      match x.fill.slice, x.fill.bound with
      | some k, some acc =>
        if x.fill.level ≠ 1 ∨ phaseHolds s ∨ !queueStuck s t .matrix then s else
        let op := itemOp i acc
        let qs := x.fill.quads
        if qs.isEmpty then itemDone (countSteps op.steps s t acc i) t i else
        let kk := k / qs.length
        let q := qs.getD (k % qs.length) (0, 0)
        let reads (e : Nat) : Bool :=
          decide (q.1 ≤ e / 128 ∧ e / 128 < q.1 + 64 ∧ e / 128 < op.m ∧ q.2 ≤ e % 128 ∧ e % 128 < q.2 + 64 ∧ e % 128 < op.n) &&
          !frozen x i (e / 128) (e % 128)
        if u.ue || accBad x acc reads || (ocUe x (sliceRanges i op kk)).isSome then deferTrap (sramUe s) t i cMEM_UNCORRECTABLE else
        let s := s.setTile t (runSlice x i acc kk q)
        let s := if (k + 1) % qs.length = 0 then countSteps (stepsOf op kk).length s t acc i else s
        if k + 1 = qs.length * (op.kLen / 32) then itemDone s t i
        else s.onFill t fun f => { f with slice := some (k + 1) }
      | _, _ => s)

end Sys2Proof.Machine
end

