-- ==== Sys2Proof/Machine/UpdOps.lean ====
section
/-!
DEFINITION. Parameter update (spec 10): the GROUPS and SCHEDULES sections and their checks, power tables, schedule curves, the
constants of a step, block arithmetic, resolutions, the step record, and the update of one block or lazy row.
-/
namespace Sys2Proof.Machine

/-! ### FP32 operations with one rounding each (R59) -/

/-- The pattern of 1.0. -/
def f1 : Nat := 0x3F800000

def fAdd (a b : Nat) : Nat := rn32v ((f32v a).add (f32v b))
def fSub (a b : Nat) : Nat := fAdd a (negPat b)
def fMul (a b : Nat) : Nat := rn32v ((f32v a).mul (f32v b))

/-- The value m / d of two natural numbers as a dyadic with a sticky bit that keeps every rounding to at most 60 bits right. -/
def quotVal (neg : Bool) (m d : Nat) (e : Int) : Val :=
  let k := Nat.log2 d + 66
  let q := m * 2 ^ k / d
  .fin neg (2 * q + (if m * 2 ^ k % d = 0 then 0 else 1)) (e - k - 1)

/-- Quotient of two patterns. -/
def fDiv (a b : Nat) : Nat :=
  match f32v a, f32v b with
  | .fin n m e, .fin n' m' e' => if m' = 0 then 0x7FC00000 else rn32v (quotVal (n != n') m m' (e - e'))
  | .inf n, .fin n' _ _ => rn32v (.inf (n != n'))
  | .fin n _ _, .inf n' => rn32v (.fin (n != n') 0 0)
  | _, _ => 0x7FC00000

/-- The quotient of two natural numbers with one rounding. -/
def fRatio (m d : Nat) : Nat := rn32v (quotVal false m d 0)

/-- Square root of a pattern that is not negative. -/
def fSqrt (a : Nat) : Nat :=
  match f32v a with
  | .fin n m e =>
    if m = 0 then a
    else if n then 0x7FC00000
    else
      let odd := (e % 2).toNat
      let m := m * 2 ^ (odd + 80)
      let r := Nat.sqrt m
      rn32v (.fin false (2 * r + (if r * r = m then 0 else 1)) ((e - odd - 80) / 2 - 1))
  | .inf n => if n then 0x7FC00000 else 0x7F800000
  | .nan => 0x7FC00000

/-! ### Block arithmetic (R348) -/

def allAct : List Bool := List.replicate 32 true

/-- A two-operand block operation: a non-finite input makes the result non-finite (R176). -/
def blk2 (f : Blk → Blk → Blk × Bool) (a b : Blk) : Blk := if a.isNonfin || b.isNonfin then .nonfinite else (f a b).1

def bAdd : Blk → Blk → Blk := blk2 fun a b => packAB dyAdd maxE allAct a b
def bSub : Blk → Blk → Blk := blk2 fun a b => packAB (fun p q => dyAdd p (dyNeg q)) maxE allAct a b
def bMulh : Blk → Blk → Blk := blk2 fun a b => packAB dyMul (fun a b => (a.e : Int) + b.e - 127) allAct a b

def bHalf (a : Blk) : Blk :=
  if a.isNonfin then .nonfinite else (pack allAct ((dyads a).map fun p => (p.1, p.2 - 1)) ((a.e : Int) - 1)).1

def bNorm (a : Blk) : Blk := if a.isNonfin then .nonfinite else (toBfx ((List.range 32).map a.val)).1

def bFloor1 (a : Blk) : Blk := if a.isNonfin then .nonfinite else ⟨a.e, (List.range 32).map fun i => max (a.m.getD i 0) 1⟩

/-- rsq: the block of R190 with function RSQ. -/
def bRsq (a : Blk) : Blk :=
  if a.isNonfin then .nonfinite
  else (toBfx ((List.range 32).map fun i => match seedOne 1 (a.m.getD i 0) a.e with
    | some p => .fin (decide (p.1 < 0)) p.1.natAbs p.2
    | none => .nan)).1

/-- bcast: the block that R66 makes from 32 copies of a value. -/
def bCast (x : Nat) : Blk := (toBfx (List.replicate 32 (f32v x))).1

/-! ### Groups (R334 to R336) -/

def Group.adamw (g : Group) : Bool := g.kind == 2

def groupOf (s : State) (n : Nat) : Group := mget (fun _ => Group.none) s.upd.groups n

/-- The scale bytes of an array lie after its runs (R336). -/
def arrScales (fmt nblk : Nat) : Nat := (nblk * runBytes fmt + 63) / 64 * 64

/-- The length of an array. -/
def arrLen (fmt nblk : Nat) : Nat := arrScales fmt nblk + nblk * scaleBytes fmt

/-- The groups of the GROUPS section from one entry's bytes. -/
def groupFrom (b : List Byte) : Group :=
  let k := leAt b 0 1
  ⟨k % 4, bit k 2, bit k 3, bit k 4, bit k 5, leAt b 1 1 % 16, leAt b 1 1 / 16, leAt b 2 1 % 16, leAt b 2 1 / 16, leAt b 3 1,
    leAt b 4 1, leAt b 5 1, leAt b 6 1, leAt b 8 4, leAt b 0xC 2, leAt b 0x10 4, leAt b 0x14 4, leAt b 0x18 4, leAt b 0x1C 4,
    leAt b 0x20 4, leAt b 0x30 8, leAt b 0x38 8, leAt b 0x40 8, leAt b 0x48 8, leAt b 0x50 8, leAt b 0x58 8, leAt b 0x60 8⟩

/-- The arrays of a group in both banks: base, length. -/
def Group.arrays (g : Group) : List (Nat × Nat) :=
  let banked := [(g.wBase, arrLen g.wFmt g.nblk), (g.mBase, arrLen g.mFmt g.nblk)] ++
    (if g.adamw then [(g.vBase, arrLen g.vFmt g.nblk)] else []) ++ (if g.copy then [(g.cBase, arrLen g.cFmt g.nblk)] else [])
  banked ++ (if g.priv then banked.map fun p => (p.1 + g.bankOff, p.2) else []) ++ [(g.gBase, arrLen g.gFmt g.nblk)] ++
  (if g.lzy then [(g.hdrBase, 8 * (g.nblk / max 1 g.rowBlocks))] else [])

/-- Pairwise disjoint ranges. -/
def disjoint : List (Nat × Nat) → Bool
  | [] => true
  | a :: r => !(r.any fun b => rangesMeet a.1 a.2 b.1 b.2) && disjoint r

/-- A pattern that is finite and at least 0. -/
def fNonneg (x : Nat) : Bool := match f32v x with | .fin n m _ => !n || m == 0 | _ => false

/-- Does the feature word have every feature that the entry needs (R124, R125)? The formats of the arrays that its kind has, and INFAB
for a privileged group (assumption log 82). -/
def Group.supported (g : Group) (feat : Nat) : Bool :=
  ([g.wFmt, g.mFmt, g.gFmt] ++ (if g.adamw then [g.vFmt] else []) ++ (if g.copy then [g.cFmt] else [])).all (fmtLegal feat) &&
  (!g.priv || bit feat featINFAB)

/-- The checks of R337 on one entry. A format field that the entry's kind does not use (V_FMT of SGDM, COPY_FMT with COPY = 0) is not
looked at, whatever it holds (assumption log 82). -/
def groupOk (ptCount curves : Nat) (tables : List PowTable) (b : List Byte) : Bool :=
  let g := groupFrom b
  let k := leAt b 0 1
  if k = 0 then b.all (· == 0)
  else
    k / 64 == 0 && (g.kind == 1 || g.kind == 2) && leAt b 7 1 == 0 && leAt b 0xE 2 == 0 && leAt b 0x24 4 == 0 &&
    leAt b 0x28 8 == 0 && leAt b 0x68 8 == 0 && leAt b 0x70 8 == 0 && leAt b 0x78 8 == 0 && decide (g.cFmt < 16) &&
    [0, 1, 13].contains g.wFmt && [0, 1, 8, 12, 13].contains g.mFmt && (!g.adamw || [0, 1, 5, 9, 13].contains g.vFmt) &&
    (if g.lzy || g.priv then decide (g.gFmt ≤ 1) else decide (g.gFmt ≤ 13)) &&
    (!g.copy || (decide (1 ≤ g.cFmt) && decide (g.cFmt ≤ 12))) &&
    decide (g.pt1 < ptCount) && decide (g.pt2 < ptCount) && (g.adamw || g.pt2 == 0) &&
    (g.sched == 0xFF || decide (g.sched < curves)) &&
    decide (1 ≤ g.nblk) && decide (g.nblk ≤ 2 ^ 30) &&
    (if g.lzy then decide (1 ≤ g.rowBlocks) && decide (g.rowBlocks ≤ 1024) && g.nblk % g.rowBlocks == 0 else g.rowBlocks == 0) &&
    fNonneg g.lr && fNonneg g.wd && (if g.adamw then (match f32v g.eps with | .fin n m _ => !n && m != 0 | _ => false) else g.eps == 0) &&
    (match f32v g.gscale with | .fin _ m _ => m != 0 | _ => false) &&
    (g.adamw || g.vBase == 0) && (g.copy || g.cBase == 0) &&
    (if g.priv then g.bankOff % 65536 == 0 else g.bankOff == 0) && (if g.lzy then g.hdrBase % 64 == 0 else g.hdrBase == 0) &&
    [g.wBase, g.mBase, g.vBase, g.gBase, g.cBase].all (fun a => a % 128 == 0) && !(g.lzy && g.priv) &&
    g.arrays.all (fun p => mappedRange p.1 p.2) && disjoint g.arrays &&
    tables.all (fun t => g.arrays.all fun p => !rangesMeet t.base 0x80000 p.1 p.2)

/-- What the owner takes from the GROUPS and SCHEDULES sections. -/
structure GroupsSec where
  groups : SMap Group
  tables : List PowTable
  curves : List (List CurvePt)
  stepRec : Nat
  c0 : Nat
deriving DecidableEq, Repr

/-- A schedule curve (R338), or none where its checks fail. -/
def curveFrom (b : List Byte) : Option (List CurvePt) :=
  let pts := (List.range 64).map fun i => slice b (16 * i) 16
  let used := pts.takeWhile fun p => leAt p 0 4 != 0xFFFFFFFF
  let rest := pts.drop used.length
  let l : List CurvePt := used.map fun p => ⟨leAt p 0 4, leAt p 4 4, leAt p 8 4⟩
  let rising := (l.zip (l.drop 1)).all fun p => decide (p.1.step < p.2.step)
  if used.isEmpty || !rising || !(used.all fun p => fNonneg (leAt p 4 4) && fNonneg (leAt p 8 4) && leAt p 0xC 4 == 0) ||
     !(rest.all fun p => leAt p 0 4 == 0xFFFFFFFF && leAt p 4 8 == 0 && leAt p 0xC 4 == 0) then none else some l

/-- Curves of the SCHEDULES section. -/
def curvesFrom (b : List Byte) : Option (List (List CurvePt)) :=
  let n := leAt b 0 1
  if n = 0 ∨ 64 < n ∨ b.length < 0x40 + 1024 * n ∨ (List.range 63).any (fun i => leAt b (1 + i) 1 != 0) then none
  else (List.range n).mapM fun c => curveFrom (slice b (0x40 + 1024 * c) 1024)

/-- The validation of GROUPS and SCHEDULES together (R332 to R338). -/
def groupsFrom (gs sch : List Byte) : Option GroupsSec :=
  match curvesFrom sch with
  | none => none
  | some curves =>
    let n := leAt gs 0 2
    let pt := leAt gs 2 1
    let rec0 := leAt gs 8 8
    let entry (g : Nat) : List Byte := slice gs (0x440 + 128 * g) 128
    let tabs : List PowTable := (List.range pt).map fun i => ⟨leAt gs (0x40 + 16 * i) 4, leAt gs (0x48 + 16 * i) 8⟩
    if n = 0 ∨ 4096 < n ∨ 64 < pt ∨ gs.length < 0x440 + 128 * n ∨ leAt gs 3 5 ≠ 0 ∨ (List.range 44).any (fun i => leAt gs (0x14 + i) 1 != 0) ∨
       rec0 % 4096 ≠ 0 ∨ !mappedRange rec0 0x8000 then none
    else if (List.range pt).any (fun i => leAt gs (0x44 + 16 * i) 4 != 0) ∨
       tabs.any (fun t => !fNonneg t.beta || !(valLt false (f32v t.beta) (f32v f1)) || t.base % 64 != 0 || !mappedRange t.base 0x80000) ∨
       !disjoint (tabs.map fun t => (t.base, 0x80000)) then none
    else if !((List.range n).all fun g => groupOk pt curves.length tabs (entry g)) then none
    else
      let groups : SMap Group := (List.range n).foldl (fun m g => mset (fun _ => Group.none) m g (groupFrom (entry g))) []
      if 256 < (groups.filter fun p => p.2.priv).length then none
      else some ⟨groups, tabs, curves, rec0, leAt gs 0x10 4⟩

/-! ### Power tables (R333) -/

/-- n successive values, each the rounded product of the one before with x, from v on. -/
def powList (x : Nat) : Nat → Nat → List Nat
  | 0, _ => []
  | n + 1, v => v :: powList x n (fMul v x)

/-- Build a power table in memory. -/
def buildPower (s : State) (t : PowTable) : State :=
  let l := powList t.beta 65536 f1
  let u1 := fMul (l.getLastD f1) t.beta
  memWrite s t.base ((l ++ powList u1 65536 f1).flatMap (toBytes 4))

/-- pow_t(n), with the first bad unit of its reads. -/
def powT (s : State) (i n : Nat) : Nat × Option Nat × State :=
  let base := match s.upd.tables[i]? with | some t => t.base | none => 0
  let u := memRead s (base + 0x40000 + 4 * (n / 65536)) 4
  let t := memRead u.s (base + 4 * (n % 65536)) 4
  (fMul (ofBytes u.data) (ofBytes t.data), (match u.bad with | some b => some b | none => t.bad), t.s)

def betaOf (s : State) (i : Nat) : Nat := match s.upd.tables[i]? with | some t => t.beta | none => 0

/-! ### Curves and constants (R339, R346) -/

/-- The multipliers of a curve at update number n. -/
def curveAt (l : List CurvePt) (n : Nat) : Nat × Nat :=
  let first := l.headD ⟨0, f1, f1⟩
  let last := l.getLastD first
  if l.length ≤ 1 ∨ n ≤ first.step then (first.lrm, first.wdm)
  else if last.step ≤ n then (last.lrm, last.wdm)
  else match (l.zip (l.drop 1)).find? fun p => decide (p.1.step ≤ n) && decide (n < p.2.step) with
    | none => (last.lrm, last.wdm)
    | some (p, q) =>
      let f := fRatio (n - p.step) (q.step - p.step)
      (fAdd p.lrm (fMul f (fSub q.lrm p.lrm)), fAdd p.wdm (fMul f (fSub q.wdm p.wdm)))

/-- The constants of R346 as patterns. -/
structure Consts where
  lr : Nat
  keep : Nat
  b1 : Nat
  c1 : Nat
  b2 : Nat
  c2 : Nat
  a : Nat
  e2 : Nat
deriving DecidableEq, Repr

/-- constants(g, n, nb), with the first bad unit of the power tables. -/
def constants (s : State) (g : Group) (n nb : Nat) : Consts × Option Nat × State :=
  let m := if g.sched = 0xFF then (f1, f1) else curveAt ((s.upd.curves[g.sched]?).getD []) n
  let lr := fMul g.lr m.1
  let keep := fSub f1 (fMul lr (fMul g.wd m.2))
  let b1 := betaOf s g.pt1
  let c1 := fSub f1 b1
  if !g.adamw then (⟨lr, keep, b1, c1, 0, 0, 0, 0⟩, none, s)
  else
    let b2 := betaOf s g.pt2
    let p1 := powT s g.pt1 nb
    let p2 := powT p1.2.2 g.pt2 nb
    let bc1 := fSub f1 p1.1
    let bc2 := fSub f1 p2.1
    let a := fMul (fDiv lr bc1) (fSqrt bc2)
    (⟨lr, keep, b1, c1, b2, fSub f1 b2, a, fMul (fMul g.eps g.eps) bc2⟩,
      (match p1.2.1 with | some b => some b | none => p2.2.1), p2.2.2)

/-! ### One block (R347, R348) -/

def sgdm (k : Consts) (gs : Nat) (w m g : Blk) : Blk × Blk :=
  let g := bMulh g (bCast gs)
  let m := bNorm (bAdd (bMulh m (bCast k.b1)) g)
  (bNorm (bSub (bMulh w (bCast k.keep)) (bMulh m (bCast k.lr))), m)

def adamw (k : Consts) (gs : Nat) (w m v g : Blk) : Blk × Blk × Blk :=
  let g := bMulh g (bCast gs)
  let m := bNorm (bAdd (bMulh m (bCast k.b1)) (bMulh g (bCast k.c1)))
  let v := bNorm (bAdd (bMulh v (bCast k.b2)) (bMulh (bMulh g g) (bCast k.c2)))
  let q := bFloor1 (bNorm (bAdd v (bCast k.e2)))
  let newton (y : Blk) : Blk := bMulh y (bSub (bCast 0x3FC00000) (bHalf (bMulh q (bMulh y y))))
  let y := newton (newton (bRsq q))
  (bNorm (bSub (bMulh w (bCast k.keep)) (bMulh (bMulh m y) (bCast k.a))), m, v)

/-- The hint of an access to a state array, and that of a write to a working copy (R331). -/
def hintState : Nat := 1
def hintCopy : Nat := 0

/-- Read block b of an array as BFX, with the stream-through hint (R331). -/
def readArr (s : State) (base fmt nblk b : Nat) : Blk × Option Nat × State :=
  let r := memReadH s (base + b * runBytes fmt) (runBytes fmt) hintState
  let c := memReadH r.s (base + arrScales fmt nblk + b * scaleBytes fmt) (scaleBytes fmt) hintState
  ((blockBfx fmt r.data c.data).1, (match r.bad with | some u => some u | none => c.bad), c.s)

/-- Write block b of an array under a hint; `infab` marks the in-fabric path. -/
def writeArr (infab : Bool) (hint : Nat) (s : State) (base fmt nblk b : Nat) (v : Blk) : State :=
  let e := emitBlk fmt v none
  let s := memWriteH infab s (base + b * runBytes fmt) e.run hint
  if scaleBytes fmt = 0 then s else memWriteH infab s (base + arrScales fmt nblk + b * scaleBytes fmt) e.scales hint

/-- How the update of a block ended. -/
inductive BlockEnd where
  | written | nonfin
  | bad (u : Nat)
deriving DecidableEq, Repr

/-- The current bank of a group (R354). -/
def bankOf (s : State) (n : Nat) : Nat := getF s (fUPD_GROUP_BANK n)

/-- Update block b of group n with a gradient block under the constants of (n, nb); `decay` is (p1, p2) of a lazy row (R350).
A non-finite gradient in a step that is not to be skipped leaves the block as it is (R353). -/
def updateBlock (s : State) (n b : Nat) (grad : Blk) (nb : Nat) (decay : Option (Nat × Nat)) (guard infab : Bool) : BlockEnd × State :=
  if guard && grad.isNonfin then (.nonfin, s) else
  let g := groupOf s n
  let bk := bankOf s n
  let src := if g.priv && bk == 1 then g.bankOff else 0
  let dst := if g.priv && bk == 0 then g.bankOff else 0
  let k := constants s g (getF s (fUPD_GROUP_T n) + 1) nb
  let w := readArr k.2.2 (g.wBase + src) g.wFmt g.nblk b
  let m := readArr w.2.2 (g.mBase + src) g.mFmt g.nblk b
  let v := if g.adamw then readArr m.2.2 (g.vBase + src) g.vFmt g.nblk b else (.zero, none, m.2.2)
  match [k.2.1, w.2.1, m.2.1, v.2.1].findSome? id with
  | some u => (.bad u, v.2.2)
  | none =>
    let mb := match decay with | some (p1, _) => bMulh m.1 (bCast p1) | none => m.1
    let vb := match decay with | some (_, p2) => bMulh v.1 (bCast p2) | none => v.1
    let s := v.2.2
    let r : Blk × Blk × Blk :=
      if g.adamw then adamw k.1 g.gscale w.1 mb vb grad
      else let q := sgdm k.1 g.gscale w.1 mb grad
        (q.1, q.2, .zero)
    let s := writeArr infab hintState s (g.wBase + dst) g.wFmt g.nblk b r.1
    let s := writeArr infab hintState s (g.mBase + dst) g.mFmt g.nblk b r.2.1
    let s := if g.adamw then writeArr infab hintState s (g.vBase + dst) g.vFmt g.nblk b r.2.2 else s
    let s := if g.copy then writeArr infab hintCopy s (g.cBase + dst) g.cFmt g.nblk b r.1 else s
    (.written, addF s (fUPD_EVENT_COUNT 0) 1)

/-! ### Status of steps (R340 to R345, R352, R353) -/

def cmtStep (s : State) : Nat := getF s fUPD_STEP_COMMITTED
def openStep (s : State) : Nat := getF s fUPD_STEP_OPEN

/-- Hold the first event in UPD_ERR_INFO. -/
def updInfo (s : State) (kind group step : Nat) : State :=
  if bitF s fUPD_ERR_INFO_VALID then s
  else setFs s [(fUPD_ERR_INFO_VALID, 1), (fUPD_ERR_INFO_KIND, kind), (fUPD_ERR_INFO_GROUP, group), (fUPD_ERR_INFO_STEP, step)]

/-- The events of a late non-finite (R353). -/
def nonfinLate (s : State) (group step : Nat) : State :=
  postEvent (updInfo (raise s fUPD_ERR_NONFIN_LATE) 1 group step) 0x96 2 8 group step 0

/-- A packet's step is rejected (R345). -/
def stepReject (s : State) (group step sender : Nat) : State :=
  postEvent (updInfo (raise (addF s (fUPD_EVENT_COUNT 4) 1) fUPD_ERR_STEP_REJECT) 2 group step) 0x94 1 8 group step sender

/-- A step is recorded as non-finite (R352). -/
def nonfinStep (s : State) : State := raise (addF s (fUPD_EVENT_COUNT 2) 1) fUPD_ERR_NONFIN_SKIP

def stNONFINLATE : Nat := 0x96
def stNONFINSKIP : Nat := 0x95
def stRESOLVEORDER : Nat := 0x9A

/-- A resolution of a step (R341): the status that it completes with. The shadow engine learns of an accepted one (R467). -/
def resolve (s : State) (step : Nat) (nf : Bool) : Nat × State :=
  let c := cmtStep s
  let go (v f : Fld) (started : Bool) : Nat × State :=
    if !bitF s v then
      let s := setFs s [(v, 1), (f, nf.toNat), (fUPD_STEP_OPEN, step + 1)]
      (0, shResolved (if nf then nonfinStep s else s) step nf)
    else if !nf || bitF s f then (0, shResolved s step (bitF s f))
    else if started then (stNONFINLATE, nonfinLate s 0 step)
    else (0, shResolved (nonfinStep (setF s f 1)) step true)
  if step = (c + 1) % 2 ^ 32 then go fUPD_STATUS_RES1_V fUPD_STATUS_RES1_NONFIN s.upd.started
  else if step = (c + 2) % 2 ^ 32 then go fUPD_STATUS_RES2_V fUPD_STATUS_RES2_NONFIN false
  else
    let s := raise s fUPD_ERR_RESOLVE_ORDER
    (stRESOLVEORDER, postEvent (updInfo s 3 0 step) 0x9A 2 8 0 step c)

/-- What a step named by update work is now (R344). -/
inductive StepNow where
  | stale | runs | skipped | waits
deriving DecidableEq, Repr

def stepNow (s : State) (step : Nat) : StepNow :=
  if step ≤ cmtStep s then .stale
  else if step = cmtStep s + 1 ∧ bitF s fUPD_STATUS_RES1_V then
    (if bitF s fUPD_STATUS_RES1_NONFIN then .skipped else .runs)
  else .waits

/-- The bank bitmap of the step record. -/
def bankBitmap (s : State) : Nat :=
  s.upd.groups.foldl (fun a p => if bankOf s p.1 = 1 then setBit a p.1 else a) 0

/-- Write the device's areas of the step record (R343). -/
def writeStepRec (s : State) : State :=
  let r := getF s fUPD_STEP_REC_ADDR
  let s := memWrite s r (toBytes 8 (cmtStep s) ++ toBytes 8 (openStep s) ++ List.replicate 48 0)
  let s := memWrite s (r + 0x440) (toBytes 512 (bankBitmap s))
  let s := memWrite s (r + 0x1000) ((List.range 4096).flatMap fun g => toBytes 4 (getF s (fUPD_GROUP_T g)))
  memZero s (r + 0x5000) 12288

/-- The owner takes the sections over (R337): groups, counters, banks, C, OPEN, and the step record. Contributions held for a step of the replaced
sections are dropped (DESIGN CHOICE, assumption log 92). -/
def takeGroups (s : State) (g : GroupsSec) : State :=
  let s := resetRegs s fun off => decide (0x808000 ≤ off) && decide (off < 0x810000)
  let s := g.groups.foldl (fun s p => setFs s [(fUPD_GROUP_T p.1, p.2.t0), (fUPD_GROUP_PRIV p.1, p.2.priv.toNat)]) s
  let s := setFs s [(fUPD_STEP_COMMITTED, g.c0), (fUPD_STEP_OPEN, g.c0 + 1), (fUPD_STATUS_VALID, 1), (fUPD_STATUS_RES1_V, 0),
    (fUPD_STATUS_RES1_NONFIN, 0), (fUPD_STATUS_RES2_V, 0), (fUPD_STATUS_RES2_NONFIN, 0), (fUPD_STEP_REC_ADDR, g.stepRec)]
  writeStepRec { s with fab := { s.fab with ahead := [] }, upd := { s.upd with groups := g.groups, tables := g.tables, curves := g.curves, started := false, late := [] } }

/-- Update engines at work (UPD_STATUS.ENG_BUSY). -/
def engBusy (s : State) : Nat := s.upd.runs.foldl (fun n q => n + q.parts.length) 0

/-! ### Work items (R224, R350, R351, R357, R360) -/

/-- A deferral queue of the module holds a PRODUCT of the group, or a resident block of it is not written back (R224). -/
def deferPending (s : State) (group : Nat) : Bool :=
  s.tiles.any fun p =>
    p.2.fill.defer.any (fun i => i % 16 == 0 && bits i 255 244 == group) ||
    (match p.2.fill.res with | some (_, g) => g == group | none => false)

/-- A work item: group, gradient base or touch list, FIRST, COUNT. -/
structure UpdItem where
  group : Nat
  addr : Nat
  first : Nat
  count : Nat
deriving DecidableEq, Repr

/-- Progress of an item: next block or entry, claimed row. -/
structure UpdPos where
  next : Nat
  row : Option RowRun
deriving DecidableEq, Repr

/-- What one block step of an item did: the progress after it, blocks or rows completed, and a failure status. -/
structure UpdOne where
  pos : UpdPos
  wrote : Nat
  late : Bool
  fail : Option (Nat × Nat)
  s : State
deriving DecidableEq, Repr

/-- The gradient block i of an item: from its own base or G_BASE (R347, R351). -/
def gradBlock (s : State) (g : Group) (base i : Nat) : Blk × Option Nat × State := readArr s base g.gFmt g.nblk i

/-- The next block of an item of a group that is not LAZY. -/
def plainStep (s : State) (it : UpdItem) (p : UpdPos) : UpdOne :=
  let g := groupOf s it.group
  let b := it.first + p.next
  let gr := gradBlock s g (if it.addr = 0 then g.gBase else it.addr) b
  match gr.2.1 with
  | some u => ⟨p, 0, false, some (stMEM, u), gr.2.2⟩
  | none =>
    let r := updateBlock gr.2.2 it.group b gr.1 (getF s (fUPD_GROUP_T it.group) + 1) none true false
    match r.1 with
    | .bad u => ⟨p, 0, false, some (stMEM, u), r.2⟩
    | .nonfin => ⟨⟨p.next + 1, none⟩, 0, true, none, nonfinLate r.2 it.group (cmtStep s + 1)⟩
    | .written => ⟨⟨p.next + 1, none⟩, 1, false, none, r.2⟩

/-- The next block of a claimed row. -/
def rowStep (s : State) (it : UpdItem) (next : Nat) (w : RowRun) : UpdOne :=
  let g := groupOf s it.group
  let gr := gradBlock s g g.gBase ((it.first + next) * g.rowBlocks + w.next)
  let after : UpdPos := if w.next + 1 = g.rowBlocks then ⟨next + 1, none⟩ else ⟨next, some { w with next := w.next + 1 }⟩
  let fin : Nat := if w.next + 1 = g.rowBlocks then 1 else 0
  match gr.2.1 with
  | some u => ⟨⟨next, some w⟩, 0, false, some (stMEM, u), gr.2.2⟩
  | none =>
    let r := updateBlock gr.2.2 it.group (w.row * g.rowBlocks + w.next) gr.1 w.nb (some (w.p1, w.p2)) true false
    match r.1 with
    | .bad u => ⟨⟨next, some w⟩, 0, false, some (stMEM, u), r.2⟩
    | .nonfin => ⟨after, fin, true, none, nonfinLate r.2 it.group (cmtStep s + 1)⟩
    | .written => ⟨after, fin, false, none, r.2⟩

/-- A lazy row is claimed (R350), then its first block is updated; a row already updated at this n is passed over. -/
def claimStep (s : State) (it : UpdItem) (next : Nat) : UpdOne :=
  let g := groupOf s it.group
  let e := memRead s (it.addr + 4 * (it.first + next)) 4
  let r := ofBytes e.data
  let p : UpdPos := ⟨next, none⟩
  match e.bad with
  | some u => ⟨p, 0, false, some (stMEM, u), e.s⟩
  | none =>
    if g.nblk / max 1 g.rowBlocks ≤ r then ⟨p, 0, false, some (stBAD, r), e.s⟩
    else
      let h := memRead e.s (g.hdrBase + 8 * r) 8
      match h.bad with
      | some u => ⟨p, 0, false, some (stMEM, u), h.s⟩
      | none =>
        let n := (getF s (fUPD_GROUP_T it.group) + 1) % 2 ^ 32
        let count := leAt h.data 0 4
        let last := leAt h.data 4 4
        if last = n then ⟨⟨next + 1, none⟩, 0, false, none, addF h.s (fUPD_EVENT_COUNT 6) 1⟩
        else
          let nb := (count + 1) % 2 ^ 32
          let s := memWrite h.s (g.hdrBase + 8 * r) (toBytes 4 nb ++ toBytes 4 n)
          let delta := if count = 0 then 0 else (n + 2 ^ 32 - last - 1) % 2 ^ 32
          let p1 := powT s g.pt1 delta
          let p2 := if g.adamw then powT p1.2.2 g.pt2 delta else (f1, none, p1.2.2)
          match [p1.2.1, p2.2.1].findSome? id with
          | some u => ⟨p, 0, false, some (stMEM, u), p2.2.2⟩
          | none => rowStep (addF p2.2.2 (fUPD_EVENT_COUNT 5) 1) it next ⟨r, 0, nb, p1.1, p2.1⟩

/-- One block of an item. -/
def itemStep (s : State) (it : UpdItem) (p : UpdPos) : UpdOne :=
  if (groupOf s it.group).lzy then
    match p.row with
    | some w => rowStep s it p.next w
    | none => claimStep s it p.next
  else plainStep s it p

/-- Blocks that an item stands for. -/
def UpdItem.blocks (s : State) (it : UpdItem) : Nat :=
  let g := groupOf s it.group
  if g.lzy then it.count * g.rowBlocks else it.count

end Sys2Proof.Machine
end

