-- ==== Sys2Proof/Machine/Update.lean ====
section
/-!
DEFINITION. The meanings of the parameter update (spec 10): requests to the update engines, resolutions and commits, the update
of blocks by the engines, and the optimizer fill items of a tile (spec 06 R226).
-/
namespace Sys2Proof.Machine

/-! ### Requests (R356 to R359) -/

def Request.group (r : Request) : Nat := leAt r.payload 4 2
def Request.utag (r : Request) : Nat := leAt r.payload 6 2
def Request.step (r : Request) : Nat := leAt r.payload 8 4
def Request.first (r : Request) : Nat := leAt r.payload 0xC 4
def Request.ucount (r : Request) : Nat := leAt r.payload 0x10 4
def Request.uaddr (r : Request) : Nat := leAt r.payload 0x18 8

def stDEFER : Nat := 0x90
def stEVAL : Nat := 0x91
def cUPD_STALE : Nat := 0x92
def stGROUPBAD : Nat := 0x97
def stNOTRESOLVED : Nat := 0x99

/-- The reply of R358. -/
def updReply (s : State) (r : Request) (status written : Nat) : State :=
  let g := r.group
  let own := decide (g < 4096)
  let get (f : Nat → Fld) : Nat := if own then getF s (f g) else 0
  let s := if status = stDEFER then addF s (fUPD_EVENT_COUNT 9) 1 else s
  sendReply s r (toBytes 1 status ++
    toBytes 1 ((if status = stNONFINSKIP then 1 else 0) + 2 * get fUPD_GROUP_BANK + 4 * get fUPD_GROUP_FALLBACK) ++
    toBytes 2 r.utag ++ toBytes 2 g ++ toBytes 2 0 ++ toBytes 4 (cmtStep s) ++ toBytes 4 (get fUPD_GROUP_T) ++
    toBytes 8 written ++ toBytes 8 s.now)

/-- Fields that an operation does not use must be 0, and those it uses lie in range (R356). -/
def updBad (r : Request) : Bool :=
  let op := r.op
  let z (c : Bool) (v : Nat) : Bool := !c && v != 0
  (if op = 2 then decide (1 < r.flags) else r.flags != 0) || bit r.rph 14 || leAt r.payload 0x14 4 != 0 ||
  (match r.sender with | .doorbell _ => r.rph != 0 | _ => false) ||
  z (op == 1 || op == 4 || op == 5) r.group || z (op != 4) r.step || z (op == 1) r.first || z (op == 1) r.ucount || z (op == 1) r.uaddr ||
  (decide (4096 ≤ r.group) && !(op == 5 && r.group == 0xFFFF)) ||
  (op == 1 && (r.ucount == 0 || decide (2 ^ 30 < r.ucount) || bits r.uaddr 63 52 != 0))

/-- A request arrives at the update engines. -/
def updArrive (s : State) (r : Request) : State :=
  if r.op = 0 ∨ 5 < r.op then updReply s r stBAD 0
  else { s with upd := { s.upd with reqs := s.upd.reqs ++ [r] } }

/-- Take the oldest request if it has the given OP. -/
def updTake (op : Nat) (body : Request → State → State) (s : State) : Host.Outcome State Fault Refusal :=
  .next (match s.upd.reqs with
    | [] => s
    | r :: rest =>
      if r.op ≠ op then s
      else
        let s := { s with upd := { s.upd with reqs := rest } }
        if updBad r then updReply s r stBAD 0 else body r s)

/-- What is wrong with the operands of a request or fill item (R351, R359, R360). -/
def itemFault (s : State) (it : UpdItem) : Option Nat :=
  let g := groupOf s it.group
  if g.kind = 0 ∨ g.frozen then some stGROUPBAD
  else if !g.supported (featureEff s) then some cBAD_FORMAT
  else if g.lzy then
    (if it.addr = 0 then some stBAD else if !mappedRange (it.addr + 4 * it.first) (4 * it.count) then some cADDR_UNMAPPED else none)
  else if g.nblk < it.first + it.count then some stBAD
  else if it.addr ≠ 0 ∧ !mappedRange it.addr (arrLen g.gFmt g.nblk) then some cADDR_UNMAPPED
  else none

def Request.item (r : Request) : UpdItem := ⟨r.group, bits r.uaddr 51 0, r.first, r.ucount⟩

/-- An UPDATE request waits; at most 64 do (R344, R357). -/
def updWait (s : State) (r : Request) (gated : Bool) : State :=
  if 64 ≤ s.upd.waits.length then updReply s r stBUSY 0
  else { s with upd := { s.upd with waits := s.upd.waits ++ [(r, gated)] } }

/-- The blocks or entries of one part: a run of 64 blocks, in whole rows for a LAZY group (R357; assumption log 88). -/
def partLen (s : State) (group : Nat) : Nat :=
  let g := groupOf s group
  if g.lzy then max 1 (64 / max 1 g.rowBlocks) else 64

/-- A free engine takes the next part of the oldest request that has one, as often as the fuel allows (R357). -/
def spread : Nat → State → State
  | 0, s => s
  | f + 1, s =>
    if 32 ≤ engBusy s then s
    else match firstIdx (fun q : UpdRun => decide (q.given < q.stop)) s.upd.runs with
      | none => s
      | some i => match s.upd.runs[i]? with
        | none => s
        | some q =>
          let e := min q.stop (q.given + partLen s q.r.group)
          let q := { q with given := e, parts := q.parts ++ [⟨q.given, e, none⟩] }
          spread f { s with upd := { s.upd with runs := replaceAt s.upd.runs i q } }

/-- Act on an UPDATE request whose operands are good (R344, R352, R359); work of a step whose agreement is open waits (R471),
and is counted once. In an EVAL phase UPDATE alone completes with EVAL_PHASE: R235 and R359 speak of a request, but the other operations start no group
update (DESIGN CHOICE, assumption log 92). -/
def updateReq (s : State) (r : Request) (gated : Bool) : State :=
  if inEval s then updReply s r stEVAL 0
  else match stepNow s r.step with
    | .stale => updReply s r cUPD_STALE 0
    | .waits => updWait s r gated
    | st =>
      if gateShut s r.step then updWait (if gated then s else addF s (fTWN_EVENT_COUNT 3) 1) r true
      else if st = .skipped then updReply (addF s (fUPD_EVENT_COUNT 1) (r.item.blocks s)) r stNONFINSKIP 0
      else if deferPending s r.group then updReply s r stDEFER 0
      else
        spread 32 { s with upd := { s.upd with runs := s.upd.runs ++ [UpdRun.start r r.ucount], started := true } }

/-- A resolution, a commit or an agreement has changed what waiting requests find: each is looked at again. -/
def updRetry (s : State) : State :=
  s.upd.waits.foldl (fun s w => updateReq s w.1 w.2) { s with upd := { s.upd with waits := [] } }

def execUpdate (s : State) : Host.Outcome State Fault Refusal :=
  updTake 1 (fun r s => match itemFault s r.item with
    | some c => updReply s r (if c = cADDR_UNMAPPED then stBAD else c) 0
    | none => updateReq s r false) s

/-! ### Gradient WRITEs (R345) -/

/-- The sum of two elements of a gradient array of FP32 (format 0) or BF16 (format 1). -/
def gradSum (fmt a b : Nat) : Nat :=
  if fmt = 0 then fAdd a b else (toPlain .bf16 ((decodeElem .bf16 a).add (decodeElem .bf16 b))).bits

/-- A gradient WRITE of the step before OPEN is late-folded into step OPEN (R345): its elements are added to those that stand there, and
the group keeps its step as tag. A format whose blocks have scales cannot be added packet by packet: the packet's bytes replace those that
stand there (assumption log 89). -/
def foldWrite (s : State) (n : Nat) (g : Group) (p : Packet) : State :=
  let s := { s with upd := { s.upd with late := s.upd.late ++ [(n, p.src, p.step)] } }
  let k := if g.gFmt = 0 then 4 else 2
  if 1 < g.gFmt ∨ p.payload.length % k ≠ 0 then memWrite s p.addr p.payload
  else
    let r := memReadAll s p.addr p.payload.length
    let new := (List.range (p.payload.length / k)).flatMap fun j => toBytes k (gradSum g.gFmt (leAt r.1 (k * j) k) (leAt p.payload (k * j) k))
    memWriteM r.2.2 p.addr new r.2.1

/-- The packet must stay behind a held one of the same engine: a version write behind any, any behind a version write (R256). -/
def followsHeld (s : State) (p : Packet) : Bool :=
  s.fab.ahead.any fun o => o.src == p.src && o.id / 16777216 == p.id / 16777216 && (o.typ == tVFENCE || p.typ == tVFENCE)

/-- The packet leaves its pool, which must not wait on the program (R409), and is held for step OPEN + 1. -/
def holdAhead (s : State) (p : Packet) : State := { s with fab := { s.fab with ahead := s.fab.ahead ++ [p] } }

/-- What a WRITE does (R345, R409). One that carries a step is gradient traffic: a step that is not within one of OPEN is rejected; one step
behind it is late-folded, one step ahead it is held until OPEN reaches it; `again`: it was held, and has been counted. -/
def putWrite (s : State) (p : Packet) (again : Bool) : State :=
  let open_ := openStep s
  let group := s.upd.groups.find? fun g => decide (g.2.gBase ≤ p.addr) && decide (p.addr < g.2.gBase + arrLen g.2.gFmt g.2.nblk)
  let lands (s : State) : State := if mappedRange p.addr p.payload.length then memWrite s p.addr p.payload else s
  let plain := p.step == 0 || p.step == open_ || (match group with | some g => g.2.lzy | none => false)
  if !plain && p.step == open_ + 1 then
    (let s := holdAhead s p; if again then s else addF s (fUPD_EVENT_COUNT 3) 1)
  else if followsHeld s p then holdAhead s p
  else if plain then lands s
  else if p.step + 1 = open_ then
    addF (match group with
      | some (n, g) => if mappedRange p.addr p.payload.length then foldWrite s n g p else s
      | none => lands s) (fUPD_EVENT_COUNT 3) 1
  else stepReject s ((group.map (·.1)).getD 0) p.step (p.src % 65536)

/-- What a remote version write does (R256). -/
def putVersion (s : State) (p : Packet) : State :=
  if followsHeld s p then holdAhead s p
  else if mappedRange p.addr 8 then memWrite s p.addr (slice p.payload 0 8) else s

/-- OPEN has changed: each held packet is looked at again, oldest first (R345). -/
def takeAhead (s : State) : State :=
  s.fab.ahead.foldl (fun s p => if p.typ = tVFENCE then putVersion s p else putWrite s p true) { s with fab := { s.fab with ahead := [] } }

def execResolve (s : State) : Host.Outcome State Fault Refusal :=
  updTake 2 (fun r s =>
    let q := resolve s r.step (bit r.flags 0)
    updRetry (updReply (takeAhead q.2) r q.1 0)) s

/-- COMMIT (R342): the next step, resolved; it then waits for started work. A second COMMIT waits behind it. -/
def execCommit (s : State) : Host.Outcome State Fault Refusal :=
  if s.upd.commit.isSome then .next s
  else updTake 3 (fun r s =>
    if r.step = cmtStep s + 1 ∧ bitF s fUPD_STATUS_RES1_V then { s with upd := { s.upd with commit := some r } }
    else updReply s r stNOTRESOLVED 0) s

/-- An optimizer fill item of some tile has started and is not complete. -/
def fillStarted (s : State) : Bool := s.tiles.any fun p => p.2.fill.optHead.isSome

/-- The step record as the shadow engine copies it: its bytes, the numbers of its units that are bad, and the state after the read (R293). -/
def readRecord (s : State) : List Byte × List Nat × State :=
  let a := getF s fUPD_STEP_REC_ADDR
  let r := memReadAll s a 32768
  (r.1, r.2.1.map fun u => u - a / 64, r.2.2)

/-- The effects of a COMMIT of step C + 1 (R342, R343, R352, R466). -/
def commitEffect (s : State) : State :=
  let fin := !bitF s fUPD_STATUS_RES1_NONFIN
  let s := s.upd.groups.foldl (fun s p =>
    let n := p.1
    let g := p.2
    let s := if fin && g.kind != 0 && !g.frozen then addF s (fUPD_GROUP_T n) 1 else s
    let s := if fin && g.priv then setF s (fUPD_GROUP_BANK n) (1 - bankOf s n) else s
    setF s (fUPD_GROUP_FALLBACK n) 0) s
  let s := setFs s [(fUPD_STEP_COMMITTED, cmtStep s + 1),
    (fUPD_STATUS_RES1_V, getF s fUPD_STATUS_RES2_V), (fUPD_STATUS_RES1_NONFIN, getF s fUPD_STATUS_RES2_NONFIN),
    (fUPD_STATUS_RES2_V, 0), (fUPD_STATUS_RES2_NONFIN, 0)]
  let s := writeStepRec { s with upd := { s.upd with started := false } }
  let r := readRecord s
  addF (shCommitted r.2.2 (cmtStep s) r.1 r.2.1) (fUPD_EVENT_COUNT 10) 1

/-- Started work of step C + 1 is complete and the agreement of that step has closed: the COMMIT takes effect and replies
(R342, R471). -/
def execCommitTakeEffect (s : State) : Host.Outcome State Fault Refusal :=
  .next (match s.upd.commit with
    | none => s
    | some r =>
      if !s.upd.runs.isEmpty || fillStarted s || gateShut s (cmtStep s + 1) then s
      else
        let s := commitEffect { s with upd := { s.upd with commit := none } }
        updRetry (updReply s r 0 0))

def execUpdQuery (s : State) : Host.Outcome State Fault Refusal :=
  updTake 4 (fun r s => updReply s r (if (groupOf s r.group).kind = 0 then stGROUPBAD else 0) 0) s

/-- SETSTEP (R357, R359). -/
def execSetstep (s : State) : Host.Outcome State Fault Refusal :=
  updTake 5 (fun r s =>
    if bitF s fUPD_STATUS_RES1_V || bitF s fUPD_STATUS_RES2_V || s.upd.started then updReply s r stBUSY 0
    else if r.group = 0xFFFF then
      updReply (updRetry (takeAhead (writeStepRec (shRewind (setFs s [(fUPD_STEP_COMMITTED, r.step), (fUPD_STEP_OPEN, r.step + 1)]) r.step)))) r 0 0
    else if (groupOf s r.group).kind = 0 then updReply s r stGROUPBAD 0
    else updReply (writeStepRec (setF s (fUPD_GROUP_T r.group) r.step)) r 0 0) s

/-! ### The engines at work (R348, R350, R353, R354) -/

/-- Block `off` of a request, counted from FIRST, is still to be updated: no engine has come to it. -/
def UpdRun.owes (q : UpdRun) (off : Nat) : Bool :=
  decide (off < q.stop) && (decide (q.given ≤ off) || q.parts.any fun p => decide (p.next ≤ off) && decide (off < p.stop))

/-- A block that an earlier request of the same group still has to update: updates of one block keep their order (R354). -/
def blockHeld (s : State) (i group b : Nat) : Bool :=
  (s.upd.runs.take i).any fun q => q.r.group == group && !(groupOf s group).lzy && decide (q.r.first ≤ b) && q.owes (b - q.r.first)

/-- The j-th engine of a request has done one block or row step: the part goes on or is over. A failure ends the request at its block;
the engines that work on earlier blocks go on (R359). -/
def UpdRun.stepped (q : UpdRun) (j : Nat) (p : UpdPart) (o : UpdOne) : UpdRun :=
  match o.fail with
  | some (c, _) =>
    let left := (removeAt q.parts j).filter fun x => decide (x.next < p.next)
    { q with stop := p.next, status := c, parts := left.map fun x => { x with stop := min x.stop p.next } }
  | none =>
    let ended := o.pos.row.isNone && decide (p.stop ≤ o.pos.next)
    { q with parts := if ended then removeAt q.parts j else replaceAt q.parts j { p with next := o.pos.next, row := o.pos.row }
             written := q.written + o.wrote
             status := if o.late && q.status == 0 then stNONFINLATE else q.status }

/-- The j-th engine that works on running request i updates its next block; for a LAZY group it first claims the row. An engine that
becomes free takes the next part. -/
def execUpdateBlock (k : BlockAt) (s : State) : Host.Outcome State Fault Refusal :=
  .next (match s.upd.runs[k.run]? with
    | none => s
    | some q => match q.parts[k.part]? with
      | none => s
      | some p =>
        if blockHeld s k.run q.r.group (q.r.first + p.next) then s
        else
          let o := itemStep s q.r.item ⟨p.next, p.row⟩
          spread 1 { o.s with upd := { o.s.upd with runs := replaceAt o.s.upd.runs k.run (q.stepped k.part p o) } })

/-- Running request i has all its writes visible: it replies. -/
def execUpdateDone (i : Nat) (s : State) : Host.Outcome State Fault Refusal :=
  .next (match s.upd.runs[i]? with
    | none => s
    | some q =>
      if !q.done then s
      else updReply { s with upd := { s.upd with runs := removeAt s.upd.runs i } } q.r q.status q.written)

/-! ### The in-fabric path (R355) -/

/-- The privileged group whose G array holds an address, with the block (R355). -/
def infabGroup (s : State) (a : Nat) : Option (Nat × Nat) :=
  (s.upd.groups.find? fun p => p.2.priv && p.2.supported (featureEff s) && decide (p.2.gBase ≤ a) && decide (a < p.2.gBase + arrLen p.2.gFmt p.2.nblk)).map
    fun p => (p.1, (a - p.2.gBase) / runBytes p.2.gFmt)

/-- The shadow engine takes a reduced-gradient block as a write to its G block (R467); memory is not written. -/
def shGradient (s : State) (a : Nat) (grad : List Byte) : State :=
  if !shActive s ∨ shIndex s true a = none then s
  else shWatch { s with twin := { s.twin with gdata := putBytes s.twin.gdata a grad } } true a grad.length

/-- A reduced-gradient block of a privileged group goes to an update engine, at once (R355): also while a deferral queue holds a PRODUCT of the group or its
resident block is not written back, since R224 speaks of requests and leaves the rest to the program (DESIGN CHOICE, assumption log 92). -/
def infabBlock (s : State) (n b : Nat) (grad : List Byte) : State :=
  let g := groupOf s n
  let s := shGradient s (g.gBase + b * runBytes g.gFmt) grad
  let gb := (blockBfx g.gFmt grad []).1
  let guard := bitF s fUPD_STATUS_RES1_V && !bitF s fUPD_STATUS_RES1_NONFIN
  let r := updateBlock s n b gb (getF s (fUPD_GROUP_T n) + 1) none guard true
  match r.1 with
  | .written => addF r.2 (fUPD_EVENT_COUNT 7) 1
  | .nonfin => nonfinLate r.2 n (cmtStep s + 1)
  | .bad _ => r.2

/-- The group falls back (R355). -/
def infabFallback (s : State) (n : Nat) : State :=
  if bitF s (fUPD_GROUP_FALLBACK n) then s else addF (setF s (fUPD_GROUP_FALLBACK n) 1) (fUPD_EVENT_COUNT 8) 1

/-! ### Optimizer fill items (R226, R359, R360, R361) -/

/-- The item of an optimizer fill queue entry. -/
def optItem (i : Nat) : UpdItem := ⟨optGroup i, itemB i 0x10 51 0, itemB i 4 31 0, itemB i 8 31 0⟩

/-- The job step of an optimizer fill item. -/
def optStep (i : Nat) : Nat := itemB i 0x0C 31 0

/-- A fault of an optimizer fill item: unit 2, and as for deferral items PC 0 and bytes 0 to 7 of the item (assumption log 16). -/
def optTrap (s : State) (t i code : Nat) : State := trap s t 2 code 0 (i % 2 ^ 64)

/-- The fields of an optimizer fill item are bad (R226, R360). STK ≠ 0 with SE = 0 is in range (assumption log 84). -/
def optBad (i : Nat) : Bool :=
  itemType i != 0 || itemB i 1 7 1 != 0 || itemB i 2 15 12 != 0 || itemB i 8 31 0 == 0 || decide (65536 < itemB i 8 31 0) ||
  itemB i 0x10 63 52 != 0 || itemB i 0x18 63 0 != 0

/-- The item at the head completes: it leaves the queue and signals (R361). -/
def optDone (s : State) (t i : Nat) : State :=
  let s := s.onFill t fun f =>
    { f with opt := f.opt.tail, optHead := none, optGated := false, level := if f.level = 2 ∧ f.opt.length ≤ 1 then 0 else f.level }
  if bit i 8 then tkAdd s t (itemStk i) 1 2 0 else s

/-- An item whose fields are good is free to start: its step is resolved and agreed, and its group has no deferred work left (R224,
R359). -/
def optFree (s : State) (i : Nat) : Bool :=
  (match stepNow s (optStep i) with | .waits => false | _ => true) && !gateShut s (optStep i) && !deferPending s (optGroup i)

/-- 64 tile cycles have passed since an instant. -/
def idle64 (s : State) (t since : Nat) : Bool := decide (64 * 1000 ≤ (s.now - since) * tileMHz s (dieOf t))

/-- The vector engine has been idle for 64 consecutive cycles. -/
def vecIdle (s : State) (t : Nat) : Bool :=
  queueStuck s t .vector && (s.tile t).vec.redo.isEmpty && idle64 s t (s.tile t).vec.busyAt

/-- An UPDATE item at the head of the optimizer fill queue is checked, and at level 2 it starts (R226, R227, R359). One of a step that is
resolved non-finite completes at once (R352). In an EVAL phase nothing looks at the queue (R235; for a bad or stale item a DESIGN CHOICE,
assumption log 84). -/
def execOptFillUpdate (t : Tid) (s : State) : Host.Outcome State Fault Refusal :=
  .next (sameCycle s t 2 fun s =>
    let x := s.tile t
    match x.fill.opt with
    | [] => s
    | i :: _ =>
      if !isLive s t || !clkRuns s t || inEval s || x.fill.optHead.isSome then s
      else if optBad i then optTrap s t i cOPT_BAD
      else if (itemFault s (optItem i)).isSome then
        optTrap s t i (match itemFault s (optItem i) with
          | some c => if c = cADDR_UNMAPPED ∨ c = cBAD_FORMAT then c else cOPT_BAD
          | none => cOPT_BAD)
      else match stepNow s (optStep i) with
        | .stale => optTrap s t i cUPD_STALE
        | .waits => s
        | st =>
          if gateShut s (optStep i) then
            (if x.fill.optGated then s
             else addF (s.onFill t fun f => { f with optGated := true }) (fTWN_EVENT_COUNT 3) 1)
          else if st = .skipped then optDone (addF s (fUPD_EVENT_COUNT 1) ((optItem i).blocks s)) t i
          else if x.fill.level ≠ 2 ∨ phaseHolds s ∨ optHeld x ∨ deferPending s (optGroup i) then s
          else
            let s := s.onFill t fun f => { f with optHead := some ⟨0, none⟩ }
            { s with upd := { s.upd with started := true } })

/-- The vector engine computes one block of the started item; after its last block the item completes (R360, R361). No block starts
while the deferral queue holds an item, a window is open, or the head of the vector queue can start (R225, R228). -/
def execFillOptBlock (t : Tid) (s : State) : Host.Outcome State Fault Refusal :=
  .next (sameCycle s t 2 fun s =>
    let x := s.tile t
    match x.fill.opt, x.fill.optHead with
    | i :: _, some h =>
      if !isLive s t || !clkRuns s t || x.fill.level ≠ 2 || phaseHolds s || !x.fill.defer.isEmpty || x.vec.win.isSome ||
        !queueStuck s t .vector then s
      else
        let row : Option RowRun := h.row.map fun r => ⟨r.1, r.2.1, r.2.2.1, r.2.2.2.1, r.2.2.2.2⟩
        let o := itemStep s (optItem i) ⟨h.next, row⟩
        match o.fail with
        | some (c, _) => optTrap o.s t i (if c = stBAD then cOPT_BAD else c)
        | none =>
          if o.pos.row.isNone && decide ((optItem i).count ≤ o.pos.next) then optDone o.s t i
          else
            let r := o.pos.row.map fun w => (w.row, w.next, w.nb, w.p1, w.p2)
            o.s.onFill t fun f => { f with optHead := some ⟨o.pos.next, r⟩ }
    | _, _ => s)

end Sys2Proof.Machine
end

