-- ==== Sys2Proof/Machine/MailOps.lean ====
section
/-!
DEFINITION. The Mailroom (spec 12 R391 to R404, R415, R416): rings, slots and credit, the delivered form, messages that the
device sends, and the packets of messages.
-/
namespace Sys2Proof.Machine

/-! ### Kinds and rings -/

def kNONE : Nat := 0
def kRECV : Nat := 1
def kSEND : Nat := 2
def kMCAST : Nat := 3
def kDEFER : Nat := 4
def kOPT : Nat := 5
def kDIRECTORY : Nat := 6
def kUPDATE : Nat := 7

/-- The entry and the running state of a pigeonhole. -/
def phEntry (s : State) (p : Nat) : PhEntry := mget (fun _ => PhEntry.none) s.mail.phs p
def phRt (s : State) (p : Nat) : PhRt := mget (fun _ => PhRt.start) s.mail.rts p

def setPhRt (s : State) (p : Nat) (r : PhRt) : State :=
  { s with mail := { s.mail with rts := mset (fun _ => PhRt.start) s.mail.rts p r } }

def onPhRt (s : State) (p : Nat) (f : PhRt → PhRt) : State := setPhRt s p (f (phRt s p))

/-- The slots of a ring that hold a descriptor, are held by the module, or are being filled. -/
def PhRt.taken (r : PhRt) : List Nat :=
  r.queue.map (·.slot) ++ r.held.map (·.slot) ++ r.parts.filterMap (·.slot)

/-- Does the ring have a slot that is neither taken nor reserved (R401, R402)? -/
def slotFree (s : State) (p : Nat) : Bool :=
  let r := phRt s p
  decide (r.taken.length + r.resv.length < (phEntry s p).depth)

/-- The next slot of the rotation that is not taken. -/
def pickSlot (s : State) (p : Nat) : Option Nat :=
  let d := (phEntry s p).depth
  let r := phRt s p
  ((List.range d).map fun i => (r.nextSlot + i) % d).find? fun i => !r.taken.contains i

/-- The senders of replies that are no positions: the device, and a tile of this module. -/
def fromDevice : Nat := 0x10000
def fromOwn : Nat := 0x10001

/-- The key of a request (R402): its sending tile and the pigeonhole that its MSEND named, which the delivered form carries and a reply's
REPLY_TO gives back (DESIGN CHOICE, assumption log 92: two requests of one tile on one pigeonhole to one module have one key). -/
def requestKey (tile sph : Nat) : Nat := tile % 256 + 256 * (sph % 16384)

/-- Take a slot for a descriptor: any free one, or for a reply, by its sender and the key of its request, the one that was reserved for
that request (R402). -/
def takeRing (s : State) (p : Nat) (reply : Option (Nat × Nat)) : Option (Nat × State) :=
  let r := phRt s p
  match reply with
  | some who =>
    match firstIdx (fun l : List Nat × Nat => l.1.contains who.1 && l.2 == who.2) r.resv with
    | none => none
    | some k => (pickSlot s p).map fun i => (i, setPhRt s p { r with resv := removeAt r.resv k, nextSlot := (i + 1) % (phEntry s p).depth })
  | none =>
    if slotFree s p then
      (pickSlot s p).map fun i => (i, setPhRt s p { r with nextSlot := (i + 1) % (phEntry s p).depth })
    else none

/-- Reserve a slot of a RECV ring for a reply from one of the senders to the request with the key (R402). -/
def reserve (s : State) (p : Nat) (who : List Nat) (key : Nat) : Option State :=
  if (phEntry s p).kind = kRECV ∧ slotFree s p then some (onPhRt s p fun r => { r with resv := r.resv ++ [(who, key)] }) else none

/-- The delivered form (R397). -/
def delivered (src rph tile dflags sph stamp bulk len user : Nat) (inline : List Byte) : List Byte :=
  toBytes 2 src ++ toBytes 2 rph ++ toBytes 1 tile ++ toBytes 1 dflags ++ toBytes 2 sph ++ toBytes 8 stamp ++ toBytes 8 bulk ++
  toBytes 4 len ++ toBytes 4 user ++ inline

/-- The bulk buffer of a slot. -/
def bufAddr (e : PhEntry) (slot : Nat) : Nat := e.buf + slot * e.bufSize

/-- A descriptor becomes visible in its slot. -/
def fillSlot (s : State) (p slot : Nat) (chan : Option (Nat × Nat × Nat)) (stamp : Nat) (desc : List Byte) : State :=
  let s := memWrite s ((phEntry s p).ring + 64 * slot) desc
  addF (onPhRt s p fun r => { r with queue := r.queue ++ [⟨slot, chan, stamp⟩] }) (fMBX_TOTAL_ARRIVED p) 1

/-- A descriptor finds no free slot (R403): it is lost; the first loss opens an interval of 1 s. -/
def ringOverrun (s : State) (p : Nat) : State :=
  let s := addF (raise (setF s (fMBX_ERR_OVERRUN p) 1) fCMP_FAB_ERR_RING_OVERRUN) (fCMP_FAB_EVENT_COUNT 9) 1
  onPhRt s p fun r => match r.lossFrom with
    | none => { r with lossFrom := some s.now, lossSync := synced s, lossN := 1 }
    | some _ => { r with lossN := r.lossN + 1 }

/-- A reply finds no reservation (R402); a pigeonhole that is no ring holds none (assumption log 77). -/
def noResv (s : State) (p : Nat) : State :=
  addF (raise (setF s (fMBX_ERR_NO_RESV p) 1) fCMP_FAB_ERR_NO_RESV) (fCMP_FAB_EVENT_COUNT 10) 1

/-- A descriptor for a DEFER or OPT pigeonhole from another source is discarded and counted (R214, R226). -/
def foreignItem (s : State) (p : Nat) : State :=
  satF (setF s (fMBX_ERR_FOREIGN p) 1) (fTILE_DEFER_FOREIGN_COUNT (phEntry s p).owner) 1

/-- A reply that names a pigeonhole that is no RECV is discarded: it finds no reservation (R402), and for a deferral or fill queue it comes
from a source other than its owner (R214, R226). -/
def strayReply (s : State) (p : Nat) : State :=
  let k := (phEntry s p).kind
  noResv (if k = kDEFER ∨ k = kOPT then foreignItem s p else s) p

/-- A message that the device sent enters its ring (R397); a pigeonhole that is not RECV takes none, and a tile's item queue counts it. -/
def deliverDev (s : State) (m : DevMsg) : State :=
  let k := (phEntry s m.ph).kind
  if k ≠ kRECV then (if m.cls = 1 then strayReply s m.ph else if k = kDEFER ∨ k = kOPT then foreignItem s m.ph else s)
  else match takeRing s m.ph (if m.cls = 1 then some (fromDevice, 0) else none) with
    | some (slot, s1) =>
      fillSlot s1 m.ph slot none s.now (delivered (ownLog s) 0 0xFF (m.cls + 16) 0 s.now 0 0 0 m.inline)
    | none => if m.cls = 1 then noResv s m.ph else ringOverrun s m.ph

/-- The Mailroom takes the messages that the device has sent. -/
def pumpDev (s : State) : State :=
  s.devq.foldl deliverDev { s with devq := [] }

/-! ### Messages on their way -/

/-- The message number that packets carry: four bits spread over the free bits of ID. -/
def pktId (dph sph tag : Nat) : Nat :=
  dph % 16384 + 16384 * (tag % 4) + 65536 * (sph % 16384) + 2 ^ 30 * (tag / 4 % 4)

def idDest (id : Nat) : Nat := id % 16384
def idSrc (id : Nat) : Nat := id / 65536 % 16384
def idTag (id : Nat) : Nat := id / 16384 % 4 + 4 * (id / 2 ^ 30 % 4)

/-- A packet of a message. A reply names no pigeonhole of its sender: it carries the key of its request in the place, the pigeonhole in ID
and the tile in bits 39:32 of ADDR (DESIGN CHOICE, assumption log 92). -/
def msgPacket (m : OutMsg) (typ addr : Nat) (payload : List Byte) : Packet :=
  { blankPacket m.dest typ with
    cls := m.cls, sealed := m.sealed, payload := payload
    addr := addr + 2 ^ 32 * (m.re % 256)
    id := pktId m.destPh (if m.cls = 1 then m.re / 256 else m.ph) m.no }

/-- The key of the request that a reply packet answers. -/
def replyKey (p : Packet) : Nat := requestKey (p.addr / 2 ^ 32) (idSrc p.id)

/-- What tells the arriving messages of one source apart: the channel, or for a reply the key of its request. -/
def chanKey (p : Packet) : Nat := if p.cls = 1 then 2 ^ 14 + replyKey p else idSrc p.id

/-- Packets of a message that may be unacknowledged: 64 for each receiver of a multicast (R415). -/
def OutMsg.window (m : OutMsg) : Nat := if m.mcast then 64 else 1000000

/-- One more packet of a message is in flight; one that fills the window begins a stall (R415). -/
def OutMsg.launched (m : OutMsg) (now : Nat) : OutMsg :=
  { m with flying := m.flying + 1, stallFrom := if m.mcast ∧ m.window ≤ m.flying + 1 then some now else m.stallFrom }

/-- Make the packets of a message ready: its bulk in 512-byte packets, then its descriptor. -/
def sendMsg : Nat → State → OutMsg → State × OutMsg
  | 0, s, m => (s, m)
  | f + 1, s, m =>
    if m.state ≠ .sending ∨ m.mailMade ∨ m.window ≤ m.flying then (s, m)
    else if m.len ≤ m.next then
      (ready s (.mail m.ph m.no) (msgPacket m tMAIL 0 m.desc), { m.launched s.now with mailMade := true })
    else
      let n := min 512 (m.len - m.next)
      let r := if m.mcast then memRead s (m.bulk + m.next) n else ⟨slice m.data m.next n, none, s⟩
      match r.bad with
      | some u => (trap r.s m.tile 4 cMEM_UNCORRECTABLE (((r.s.tile m.tile).msg.queue.head?.map (·.pc)).getD 0) u, { m with state := .failed })
      | none => sendMsg f (ready r.s (.mail m.ph m.no) (msgPacket m tBULK m.next r.data)) { m.launched s.now with next := m.next + n }

/-- Is the message still on its way to its receiver's ring: packets to make or to be acknowledged, its catch-up descriptor to be sent,
or that descriptor in flight? -/
def OutMsg.onWay (m : OutMsg) : Bool :=
  m.state == .sending || m.state == .removed || (m.state == .caughtUp && m.flying != 0)

/-- Messages of one channel go one after another (R399), so that they fill the ring in the order sent: an earlier message of the channel
is still on its way to the same receiver. -/
def channelBusy (before : List OutMsg) (m : OutMsg) : Bool :=
  before.any fun b => b.ph == m.ph && b.dest == m.dest && b.destPh == m.destPh && b.onWay

/-- Advance every message in order. -/
def sendMsgs : List OutMsg → List OutMsg → State → State
  | _, [], s => s
  | before, m :: rest, s =>
    if channelBusy before m then sendMsgs (before ++ [m]) rest s
    else
      let q := sendMsg (m.len / 512 + 4) s m
      sendMsgs (before ++ [q.2]) rest (onMsg q.1 m.no fun _ => q.2)

/-- Forget the messages of SEND channels and replies that are over. -/
def dropMsgs (s : State) : State :=
  { s with mail := { s.mail with msgs := s.mail.msgs.filter fun m => m.mcast || m.state == .sending } }

/-! ### The packets of collectives (R418, R419) -/

/-- The position of member j of the axis (0 row, 1 column): members are the active logical positions in ascending order. -/
def memberPos (s : State) (axis j : Nat) : Nat :=
  if axis = 0 then posOf (posRow (ownLog s)) j else posOf (32 - s.fab.shape.1 / 2 + j) (posCol (ownLog s))

/-- The number of members of an axis: C for rows, R for columns. -/
def axisN (s : State) (axis : Nat) : Nat := if axis = 0 then s.fab.shape.2 else s.fab.shape.1

/-- The member index of a position on an axis. -/
def memberOf (s : State) (axis pos : Nat) : Nat := if axis = 0 then posCol pos else posRow pos - (32 - s.fab.shape.1 / 2)

/-- The bytes of an element: FP32 or BF16. -/
def elemSize (fmt : Nat) : Nat := if fmt = 0 then 4 else 2

def collOf (s : State) (id : Nat) : Option Coll := (s.mail.colls.find? fun p => p.1 == id).map (·.2)

/-- The bytes of an element in the packets of a collective: an all-gather moves the contribution format, a gather part the
output format. -/
def CollEntry.pktSize (e : CollEntry) (gather : Bool) : Nat :=
  elemSize (if gather && e.kind != 1 then e.fmtOut else e.fmtIn)

/-- Make the packets of one window ready: at most 64 unacknowledged. -/
def sendColl : Nat → State → CollSend → State × CollSend
  | 0, s, c => (s, c)
  | f + 1, s, c =>
    match collOf s c.id with
    | none => (s, c)
    | some k =>
      let total := k.e.shard * k.e.pktSize c.gather
      if c.removed ∨ total ≤ c.next then (s, c)
      else if 64 ≤ c.flying then (s, c)
      else
        let n := min 512 (total - c.next)
        let r := memRead s (c.src + c.next) n
        let p : Packet := { blankPacket c.dest tCOLL with
          cls := 3, step := c.step, addr := c.next, id := c.id + (if c.gather then 2 ^ 31 else 0), payload := r.data
          nf := c.nf || (k.e.grad && r.bad.isSome) }
        sendColl f (ready r.s (.coll c.id c.step c.member) p) { c with
          next := c.next + n, flying := c.flying + 1, stallFrom := if 64 ≤ c.flying + 1 then some s.now else c.stallFrom }

/-- The instance of a step. -/
def instOf (c : Coll) (step : Nat) : Option CollInst := c.insts.find? fun i => i.step == step

/-- The windows of reduce-then-gather instances whose reduction has closed here go on to the gather part (R419). -/
def startGather (s : State) (w : CollSend) : CollSend :=
  match collOf s w.id with
  | none => w
  | some c =>
    if c.e.kind = 2 ∧ !w.gather ∧ w.due ∧ c.e.shard * c.e.pktSize false ≤ w.next then
      { w with gather := true, next := 0
               src := c.e.out + memberOf s c.e.axis (ownLog s) * c.e.shard * elemSize c.e.fmtOut }
    else w

/-- A window that has sent everything, the gather part that it owes included, and that no instance needs any more is over, and its
reservation with it. -/
def windowOver (s : State) (w : CollSend) : Bool :=
  match collOf s w.id with
  | none => true
  | some c => (instOf c w.step).isNone && w.flying == 0 && decide (c.e.shard * c.e.pktSize w.gather ≤ w.next) && (w.gather || !w.due)

/-- Advance every window. -/
def sendColls (s : State) : State :=
  let ws := (s.mail.sends.filter fun w => !windowOver s w).map (startGather s)
  let s := { s with mail := { s.mail with sends := ws } }
  s.mail.sends.foldl (fun s c =>
    let q := sendColl 66 s c
    { q.1 with mail := { q.1.mail with sends := q.1.mail.sends.map fun x =>
        if x.id = c.id ∧ x.step = c.step ∧ x.member = c.member then q.2 else x } }) s

/-- Everything that the Mailroom can send, it sends; then the endpoint injects what it may. -/
def pumpMail (s : State) : State := pump (dropMsgs (sendMsgs [] s.mail.msgs (sendColls s)))

end Sys2Proof.Machine
end

