-- ==== Sys2Proof/Machine/Message.lean ====
section
/-!
DEFINITION. The message instructions on pigeonholes (spec 03 R114, R115; spec 12 R398 to R404, R415, R416).
-/
namespace Sys2Proof.Machine

/-! ### The head of the message queue -/

/-- What a wait of the message unit is on, as TILE_TRAP_INFO names it (R92): the kind in bits 19 to 16, the number in bits 15 to 0. -/
def waitInfo (kind n : Nat) : Nat := kind % 16 * 65536 + n % 65536

/-- The message unit tries the instruction at its queue's head, once its token is taken: `body` answers the state after it acted, or what
it lacks; then it stays at the head and the wait for that begins. An instruction that was held acts by its deadline only, unless `body` looks at the
stamp of what it waits for. -/
def msgHead (s : State) (t min : Nat) (byStamp : Bool) (body : QEntry → State → Except Nat State) : State :=
  sameCycle s t 4 fun s =>
    match headOf s t .message 0x28 min with
    | none => s
    | some h =>
      match takeToken s t .message h with
      | (false, s1) => s1
      | (true, s1) =>
        let late := match headDeadline s t h with | some d => decide (d < s.now) | none => false
        if late && !byStamp then s1 else
        match body h s1 with
        | .ok s2 => s2
        | .error info =>
          s1.onTile t fun x => onHead x .message fun q =>
            { q with held := some ((match q.held with | some (f, _) => f | none => s.now), info) }

/-- The instruction at the head is complete: its signal is applied and it leaves the queue. -/
def msgDone (s : State) (t : Nat) (h : QEntry) : State :=
  applySignal (popHead s t .message) t 4 h

/-- The pigeonhole that an instruction names (R114); none where s(SB) has a bit of [63:14] set. -/
def namedPh (h : QEntry) : Option Nat :=
  if wREG h.word then (if capS h (wSB h.word) < 16384 then some (capS h (wSB h.word)) else none) else some (wPH h.word)

/-- Trap of the message unit. -/
def msgTrap (s : State) (t : Nat) (h : QEntry) (code info : Nat) : Except Nat State := .ok (trap s t 4 code h.pc info)

/-- What is wrong with a device range of the message unit (R116): alignment, then mapping. -/
def devFault (a n align : Nat) : Option Nat :=
  if a % align ≠ 0 then some cMISALIGNED else if !mappedRange a n then some cADDR_UNMAPPED else none

/-! ### The send form (R396) -/

structure SendForm where
  replyTo : Nat
  rph : Nat
  pad : Nat
  bulk : Nat
  len : Nat
  user : Nat
  inline : List Byte
deriving DecidableEq, Repr

def sendForm (b : List Byte) : SendForm :=
  ⟨leAt b 0 8, leAt b 8 2, leAt b 10 6, leAt b 0x10 8, leAt b 0x18 4, leAt b 0x1C 4, slice b 0x20 32⟩

/-- RESV. -/
def SendForm.resv (f : SendForm) : Bool := bit f.rph 15

/-- What R404 calls MSG_BAD. -/
def formBad (s : State) (cls limit : Nat) (f : SendForm) : Bool :=
  cls == 3 || (cls == 0 && f.replyTo != 0) || (cls == 1 && (f.rph != 0 || !bit f.replyTo 31)) || bit f.rph 14 || f.pad != 0 ||
  f.bulk % 64 != 0 || f.len % 64 != 0 || (f.len == 0 && f.bulk != 0) || decide (limit < f.len) ||
  (f.resv && (phEntry s (f.rph % 16384)).kind != kRECV)

/-- Read and check the send form of an MSEND (R404), then go on with it. -/
def withForm (s : State) (t : Nat) (h : QEntry) (cls limit : Nat) (go : SendForm → State → Except Nat State) : Except Nat State :=
  let a := capS h (wSA h.word)
  match devFault a 64 64 with
  | some c => msgTrap s t h c a
  | none =>
    let r := memRead s a 64
    match r.bad with
    | some u => msgTrap r.s t h cMEM_UNCORRECTABLE u
    | none =>
      let f := sendForm r.data
      if formBad s cls limit f then msgTrap r.s t h cMSG_BAD 0
      else if !mappedRange f.bulk f.len then msgTrap r.s t h cADDR_UNMAPPED f.bulk
      else go f r.s

/-- Make the reply reservation of a request with RESV = 1, for a reply from one of its receivers (R402), or wait for it. -/
def withResv (s : State) (f : SendForm) (who : List Nat) (key : Nat) (go : State → Except Nat State) : Except Nat State :=
  if f.resv then
    match reserve s (f.rph % 16384) who key with
    | some s => go s
    | none => .error (waitInfo 1 (f.rph % 16384))
  else go s

/-- The seal of a message: FLAGS.SEAL or the pigeonhole's SEAL. -/
def sealedBy (h : QEntry) (e : PhEntry) : Bool := wSEAL h.word || e.sealed

/-- DFLAGS of the delivered form. -/
def dflags (cls : Nat) (seal_ catchup loc : Bool) : Nat := cls + 4 * seal_.toNat + 8 * catchup.toNat + 16 * loc.toNat

/-- MSEND has started: it stays at the head until it is accepted. -/
def msgStarted (s : State) (t group : Nat) : State :=
  s.onTile t fun x => { onHead x .message (fun q => { q with held := none }) with msg := { (onHead x .message (fun q => { q with held := none })).msg with started := some group } }

/-- A local message goes into its slot, bulk first (R398, R399). A reply names no pigeonhole (R402), so its seal is its own. -/
def sendLocal (s : State) (t p slot : Nat) (h : QEntry) (f : SendForm) (cls sph : Nat) : Except Nat State :=
  let e := phEntry s p
  let r := memRead s f.bulk f.len
  match r.bad with
  | some u => msgTrap r.s t h cMEM_UNCORRECTABLE u
  | none =>
    let b := if f.len = 0 then 0 else bufAddr e slot
    let s := if f.len = 0 then r.s else memWrite r.s b r.data
    let d := delivered (ownLog s) f.rph t (dflags cls (sealedBy h (if cls = 1 then PhEntry.none else phEntry s sph)) false true) sph s.now b f.len f.user f.inline
    .ok (msgStarted (fillSlot s p slot none s.now d) t 0)

/-- The key of the request that a reply answers: TILE and SPH of the header that its REPLY_TO repeats (R396, R397). -/
def SendForm.answers (f : SendForm) : Nat := requestKey (f.replyTo / 2 ^ 32) (f.replyTo / 2 ^ 48)

/-- A message for a RECV pigeonhole of another module: SEND, or a reply. -/
def sendRemote (s : State) (t : Nat) (h : QEntry) (f : SendForm) (cls sph dest destPh : Nat) : Except Nat State :=
  let r := memRead s f.bulk f.len
  match r.bad with
  | some u => msgTrap r.s t h cMEM_UNCORRECTABLE u
  | none =>
    let sl := sealedBy h (if cls = 1 then PhEntry.none else phEntry s sph)
    let d := delivered (ownLog s) f.rph t (dflags cls sl false false) sph 0 0 f.len f.user f.inline
    let no := r.s.mail.nextMsg
    let m : OutMsg := ⟨no, no, sph, t, dest, destPh, cls, sl, false, d, 0, r.data, f.len, 0, 0, false, .sending, none, true, if cls = 1 then f.answers else 0⟩
    let s := { r.s with mail := { r.s.mail with msgs := r.s.mail.msgs ++ [m], nextMsg := no + 1 } }
    .ok (pumpMail (msgStarted s t 0))

/-- A reply (R402): its destination comes from REPLY_TO. -/
def sendReplyMsg (s : State) (t : Nat) (h : QEntry) : Except Nat State :=
  withForm s t h 1 (2 ^ 28) fun f s =>
    let dest := f.replyTo % 65536
    let p := f.replyTo / 65536 % 16384
    if dest = ownLog s then
      let e := phEntry s p
      if e.kind ≠ kRECV then .ok (msgStarted (if e.owner = t then noResv s p else strayReply s p) t 0)
      else if e.bufSize < f.len then msgTrap s t h cMSG_BAD 0
      else match takeRing s p (some (fromOwn, f.answers)) with
        | some (slot, s1) => sendLocal s1 t p slot h f 1 0
        | none => .ok (msgStarted (noResv s p) t 0)
    else sendRemote s t h f 1 0 dest p

/-- The credit that a channel holds for a receiver. -/
def creditOf (s : State) (p dest : Nat) : Nat := mget (fun _ => 0) (phRt s p).credit dest

def setCredit (s : State) (p dest n : Nat) : State :=
  onPhRt s p fun r => { r with credit := mset (fun _ => 0) r.credit dest n }

/-- The receivers of an MCAST pigeonhole (R393). -/
def mcastDests (s : State) (e : PhEntry) : List Nat :=
  ((List.range 65).filter fun i => bit e.target i).map fun i =>
    if e.axis = 0 then posOf (posRow (ownLog s)) i else posOf i (posCol (ownLog s))

/-- The receivers of an MCAST pigeonhole for which the channel holds no credit. -/
def lacking (s : State) (p : Nat) : List Nat := (mcastDests s (phEntry s p)).filter fun d => creditOf s p d == 0

/-- The head has waited for ring credit longer than LIMIT_NS: the receivers that still withhold it are removed (R415). -/
def creditStalled (s : State) (h : QEntry) : Bool :=
  match h.held with | some (f, _) => decide (f + getF s fCMP_MC_STALL_LIMIT_NS < s.now) | none => false

/-- MSEND on an MCAST pigeonhole (R415): one credit of every receiver; one that has withheld it too long starts as removed. -/
def sendMcast (s : State) (t p : Nat) (h : QEntry) (f : SendForm) : Except Nat State :=
  let e := phEntry s p
  let out := lacking s p
  let ds := mcastDests s e
  let sl := sealedBy h e
  let d := delivered (ownLog s) f.rph t (dflags 0 sl false false) p 0 0 f.len f.user f.inline
  let g := s.mail.nextMsg
  let s := ds.foldl (fun s x => setCredit s p x (creditOf s p x - 1)) s
  let s := if out.isEmpty then s else addF (setF s (fMBX_ERR_MC_REMOVED p) 1) (fCMP_FAB_EVENT_COUNT 4) out.length
  let msgs : List OutMsg := ds.zipIdx.map fun x =>
    ⟨g + x.2, g, p, t, x.1, e.destPh, 0, sl, true, d, f.bulk, [], f.len, 0, 0, false, if out.contains x.1 then .removed else .sending, none,
      !out.contains x.1, 0⟩
  let s := { s with mail := { s.mail with msgs := s.mail.msgs ++ msgs, nextMsg := g + ds.length + 1 } }
  .ok (pumpMail (msgStarted (addF s (fMBX_TOTAL_TAKEN p) 1) t g))

/-- A request to the directory or to the update engines enters its slot (R398). -/
def sendService (s : State) (t p : Nat) (h : QEntry) (f : SendForm) : Except Nat State :=
  let e := phEntry s p
  let rph := leAt f.inline 2 2
  let go (s : State) : Except Nat State :=
    match pickSlot s p with
    | none => .error (waitInfo 1 p)
    | some slot =>
      let d := delivered (ownLog s) f.rph t (dflags 0 (sealedBy h e) false true) p s.now 0 0 f.user f.inline
      let s := memWrite s (e.ring + 64 * slot) d
      let s := addF (onPhRt s p fun r => { r with nextSlot := (slot + 1) % e.depth }) (fMBX_TOTAL_ARRIVED p) 1
      let r : Request := ⟨.tile t, f.inline, s.now⟩
      .ok (msgStarted (if e.kind = kDIRECTORY then dirArrive s r else updArrive s r) t 0)
  if bit rph 15 then go s
  else if (phEntry s (rph % 16384)).kind ≠ kRECV then msgTrap s t h cMSG_BAD 0
  else match reserve s (rph % 16384) [fromDevice] 0 with
    | some s => go s
    | none => .error (waitInfo 1 (rph % 16384))

/-- Requests of tiles that still occupy the ring of the directory or of the update engines. -/
def serviceUsed (s : State) (kind : Nat) : Nat :=
  ((if kind = kDIRECTORY then s.tier.reqs else s.upd.reqs).filter fun r => match r.sender with | .tile _ => true | _ => false).length

/-- An item for the deferral queue or the optimizer fill queue of a tile (R214, R226). -/
def sendItem (s : State) (t p : Nat) (f : SendForm) : State :=
  let e := phEntry s p
  if e.owner ≠ t then foreignItem s p
  else
    let i := ofBytes f.inline
    s.onFill t fun u => if e.kind = kDEFER then { u with defer := u.defer ++ [i] } else { u with opt := u.opt ++ [i] }

/-- Has the queue of a DEFER or OPT pigeonhole a free entry? -/
def itemRoom (s : State) (e : PhEntry) : Bool :=
  let u := (s.tile e.owner).fill
  if e.kind = kDEFER then decide (u.defer.length < 64) else decide (u.opt.length < 16)

/-- MSEND on a pigeonhole (R398, R404): what its kind needs, then the send form, then the reply reservation. -/
def sendTo (s : State) (t p : Nat) (h : QEntry) : Except Nat State :=
  let e := phEntry s p
  let cls := wCLASS h.word
  if e.kind = kNONE then msgTrap s t h cPH_UNCONFIGURED 0
  else if e.kind = kRECV then
    if !slotFree s p then .error (waitInfo 1 p)
    else withForm s t h cls e.bufSize fun f s => withResv s f [fromOwn] (requestKey t p) fun s =>
      match takeRing s p none with
      | some (slot, s1) => sendLocal s1 t p slot h f cls p
      | none => .error (waitInfo 1 p)
  else if e.kind = kSEND then
    if creditOf s p e.target = 0 then .error (waitInfo 1 p)
    else withForm s t h cls (2 ^ 28) fun f s => withResv s f [e.target] (requestKey t p) fun s =>
      sendRemote (addF (setCredit s p e.target (creditOf s p e.target - 1)) (fMBX_TOTAL_TAKEN p) 1) t h f cls p e.target e.destPh
  else if e.kind = kMCAST then
    if !(lacking s p).isEmpty && !creditStalled s h then .error (waitInfo 1 p)
    else withForm s t h cls (2 ^ 28) fun f s => withResv s f (mcastDests s e) (requestKey t p) fun s => sendMcast s t p h f
  else if e.kind = kDEFER ∨ e.kind = kOPT then
    if e.owner = t ∧ !itemRoom s e then .error (waitInfo 1 p)
    else withForm s t h cls 0 fun f s => withResv s f [] (requestKey t p) fun s => .ok (msgStarted (sendItem s t p f) t 0)
  else
    if e.depth ≤ serviceUsed s e.kind then .error (waitInfo 1 p)
    else withForm s t h cls 0 fun f s => withResv s f [] (requestKey t p) fun s => sendService s t p h f

/-- What a held MSEND waits for has come: credit of its channel, a free slot of its ring, an entry of its queue (R398, R507). -/
def creditBack (s : State) (h : QEntry) : Bool :=
  match namedPh h with
  | none => false
  | some p =>
    let e := phEntry s p
    if e.kind = kRECV then slotFree s p
    else if e.kind = kSEND then creditOf s p e.target != 0
    else if e.kind = kMCAST then (lacking s p).isEmpty
    else if e.kind = kDEFER ∨ e.kind = kOPT then itemRoom s e
    else decide (serviceUsed s e.kind < e.depth)

def execMsend (t : Tid) (s : State) : Host.Outcome State Fault Refusal :=
  .next (let s := pumpDev s
    if (s.tile t).msg.started.isSome then s
    else msgHead s t 0 false fun h s =>
      if wCLASS h.word = 1 then sendReplyMsg s t h
      else match namedPh h with
        | none => msgTrap s t h cBAD_OPERAND (capS h (wSB h.word))
        | some p => sendTo s t p h)

/-- The Mailroom accepts a started MSEND: for an MCAST once every receiver has acknowledged (R398, R416). -/
def execMsendAccept (t : Tid) (s : State) : Host.Outcome State Fault Refusal :=
  .next (match headOf s t .message 0x28 0, (s.tile t).msg.started with
    | some h, some g =>
      let open_ := s.mail.msgs.any fun m => m.group == g && m.mcast && m.state != .acked && m.state != .failed
      if open_ then s
      else
        let s := { s with mail := { s.mail with msgs := s.mail.msgs.filter fun m => !(m.group == g && m.mcast) } }
        msgDone (s.onTile t fun x => { x with msg := { x.msg with started := none } }) t h
    | _, _ => s)

/-! ### Taking descriptors (R400) -/

/-- What is wrong with the pigeonhole that MRECV, MTRY, MCREDIT or MCOUNT names. -/
def takeFault (s : State) (p : Nat) (ok : Nat → Bool) : Option Nat :=
  let k := (phEntry s p).kind
  if k = kNONE then some cPH_UNCONFIGURED else if ok k then none else some cPH_KIND

/-- Take the oldest descriptor of a ring: the copy of its slot; the slot becomes held. -/
def takeDesc (s : State) (p : Nat) : Option (RingItem × MemRead) :=
  match (phRt s p).queue with
  | [] => none
  | i :: _ => some (i, memRead s ((phEntry s p).ring + 64 * i.slot) 64)

/-- The slot of the oldest descriptor becomes held. -/
def holdSlot (s : State) (p : Nat) : State :=
  addF (onPhRt s p fun r => match r.queue with
    | [] => r
    | i :: q => { r with queue := q, held := r.held ++ [i] }) (fMBX_TOTAL_TAKEN p) 1

/-- Has an MRECV of another tile on the pigeonhole reached the Mailroom before this instant, or before the wait of tile t's own MRECV began,
and does it still wait for the oldest descriptor, which came by its deadline? Then that tile takes it first (R400). Of two that began to
wait at one instant the lower tile is first (DESIGN CHOICE, assumption log 92). -/
def earlierRecv (s : State) (t p : Nat) (since : Option Nat) : Bool :=
  s.tiles.any fun y =>
    y.1 != t &&
    match headOf s y.1 .message 0x28 1 with
    | none => false
    | some g => namedPh g == some p &&
      (match g.held with
       | none => false
       | some (f, _) =>
         (match since with | none => true | some n => decide (f < n) || (f == n && decide (y.1 < t))) &&
         (match headDeadline s y.1 g, (phRt s p).queue with | some d, i :: _ => decide (i.stamp ≤ d) | _, _ => true))

def execMrecv (t : Tid) (s : State) : Host.Outcome State Fault Refusal :=
  .next (msgHead (pumpDev s) t 1 true fun h s =>
    match namedPh h with
    | none => msgTrap s t h cBAD_OPERAND (capS h (wSB h.word))
    | some p =>
      match takeFault s p (· == kRECV) with
      | some c => msgTrap s t h c 0
      | none =>
        let a := capS h (wSA h.word)
        match devFault a 64 64 with
        | some c => msgTrap s t h c a
        | none =>
          match takeDesc s p with
          | none => .error (waitInfo 1 p)
          | some (i, r) =>
            if (match headDeadline s t h with | some d => decide (d < i.stamp) | none => false) || earlierRecv s t p (h.held.map (·.1)) then
              .error (waitInfo 1 p)
            else match r.bad with
              | some u => msgTrap r.s t h cMEM_UNCORRECTABLE u
              | none => .ok (msgDone (memWrite (holdSlot r.s p) a r.data) t h))

/-- An immediate message instruction executes after every earlier message instruction has been accepted by the Mailroom (R85): until
then the core does nothing. -/
def whenAccepted (x : Tile) (s go : State) : State := if x.msg.queue.isEmpty then go else s

/-- An earlier access of the core to bytes of the range has not taken effect yet (R93). -/
def coreAccesses (x : Tile) (a n : Nat) : Bool := x.ops.any fun o => rangesMeet o.addr o.size a n

/-- MTRY: as MRECV, without waiting (R115), behind the core's earlier accesses to the bytes that it writes (R93). -/
def execMtry (t : Tid) (sd sa : SReg) (sel : PhSel) (s : State) : Host.Outcome State Fault Refusal :=
  .next (coreStep (pumpDev s) t (msWord 9 sd.val sa.val sel) ([sd.val, sa.val] ++ (match sel with | .ph _ => [] | .reg sb => [sb.val])) fun s x =>
    let v := match sel with | .ph p => p.toNat | .reg sb => (readS x sb.val).toNat
    let a := (readS x sa.val).toNat
    whenAccepted x s <|
    if 16384 ≤ v then trap s t 0 cBAD_OPERAND x.pc v
    else match takeFault s v (· == kRECV) with
      | some c => trap s t 0 c x.pc 0
      | none =>
        match devFault a 64 64 with
        | some c => trap s t 0 c x.pc a
        | none =>
          if coreAccesses x a 64 then s else
          match takeDesc s v with
          | none => advance (s.onTile t fun x => writeS x sd.val 0) t
          | some (_, r) =>
            if earlierRecv s t v none then s else
            match r.bad with
            | some u => trap r.s t 0 cMEM_UNCORRECTABLE x.pc u
            | none => advance ((memWrite (holdSlot r.s v) a r.data).onTile t fun x => writeS x sd.val 1) t)

/-- The count that MCOUNT and MBX_COUNT give (R400). -/
def phCount (s : State) (p : Nat) : Nat :=
  let e := phEntry s p
  if e.kind = kRECV then (phRt s p).queue.length
  else if e.kind = kSEND then creditOf s p e.target
  else if e.kind = kMCAST then
    match (mcastDests s e).map (creditOf s p) with
    | [] => 0
    | c :: r => r.foldl min c
  else 0

def execMcount (t : Tid) (sd : SReg) (sel : PhSel) (s : State) : Host.Outcome State Fault Refusal :=
  .next (coreStep (pumpDev s) t (msWord 8 sd.val 0 sel) (sd.val :: (match sel with | .ph _ => [] | .reg sb => [sb.val])) fun s x =>
    let v := match sel with | .ph p => p.toNat | .reg sb => (readS x sb.val).toNat
    whenAccepted x s <|
    if 16384 ≤ v then trap s t 0 cBAD_OPERAND x.pc v
    else match takeFault s v (fun k => k == kRECV || k == kSEND || k == kMCAST) with
      | some c => trap s t 0 c x.pc 0
      | none => advance (s.onTile t fun x => writeS x sd.val (BitVec.ofNat 64 (phCount s v))) t)

/-- A freed slot that a channel filled returns one credit to it (R401); the packet tells which message it was (assumption log 58). -/
def returnCredit (s : State) (i : RingItem) : State :=
  match i.chan with
  | none => s
  | some (src, sph, tag) => ready s .system { blankPacket src tCREDIT with cls := 1, addr := 1 + 65536 * tag, id := sph }

def execMcredit (t : Tid) (s : State) : Host.Outcome State Fault Refusal :=
  .next (msgHead (pumpDev s) t 2 false fun h s =>
    let p := wPH h.word
    let n := capS h (wSB h.word)
    match takeFault s p (· == kRECV) with
    | some c => msgTrap s t h c 0
    | none =>
      let held := (phRt s p).held
      if n = 0 ∨ 65535 < n ∨ held.length < n then msgTrap s t h cBAD_OPERAND n
      else
        let s := onPhRt s p fun r => { r with held := r.held.drop n }
        let s := (held.take n).foldl returnCredit s
        .ok (msgDone (pump s) t h))

end Sys2Proof.Machine
end

