-- ==== Sys2Proof/Machine/Transport.lean ====
section
/-!
DEFINITION. Packets at their destination, end-to-end acknowledgement, drops, send rates and multicast stalls (spec 12 R399 to
R416; spec 07 R255, R256; spec 09 R322, R323; spec 10 R345).
-/
namespace Sys2Proof.Machine

/-! ### Ingress (R407, R408, R412) -/

/-- A packet leaves its pool: MARK where the pool is fuller than MARK_PCT of its 128 places; reply packets are never marked. -/
def poolMark (s : State) (q : InPkt) : Bool :=
  let n := (s.fab.inq.filter fun x => x.port == q.port && x.p.cls == q.p.cls).length
  q.p.cls != 1 && decide (getF s fCMP_CC_CTL_MARK_PCT * 128 < 100 * n)

/-- The endpoint owes the source an acknowledgement (R407). -/
def oweAck (s : State) (src seq : Nat) (mark : Bool) : State :=
  let l := s.fab.acks
  let l := if l.any fun a => a.src == src then
      l.map fun a => if a.src = src then { a with items := a.items ++ [(seq, mark)] } else a
    else l ++ [⟨src, [(seq, mark)]⟩]
  { s with fab := { s.fab with acks := l } }

/-- The i-th packet of the ingress pools, if it has the type: it leaves its pool and is acknowledged, unless it is an ACK. -/
def takeIn (s : State) (i typ : Nat) (body : InPkt → State → State) : State :=
  match s.fab.inq[i]? with
  | none => s
  | some q =>
    if q.p.typ ≠ typ then s
    else
      let mark := q.p.mark || poolMark s q
      let s1 := { s with fab := { s.fab with inq := removeAt s.fab.inq i } }
      body q (if typ = tACK then s1 else oweAck s1 q.p.src q.p.seq mark)

/-- The endpoint sends the acknowledgements that it owes a module, at most 64 in one packet (R407). -/
def execAckBatchSend (dest : Nat) (s : State) : Host.Outcome State Fault Refusal :=
  .next (match s.fab.acks.find? fun a => a.src == dest with
    | none => s
    | some a =>
      let now_ := a.items.take 64
      let rest := a.items.drop 64
      let keep := s.fab.acks.filter fun x => x.src != dest
      let keep := if rest.isEmpty then keep else keep ++ [⟨dest, rest⟩]
      let s1 := { s with fab := { s.fab with acks := keep } }
      let pay := now_.flatMap fun x => toBytes 4 x.1 ++ toBytes 4 x.2.toNat
      pump (ready s1 .system { blankPacket dest tACK with cls := 1, payload := pay }))

/-! ### Messages (R399, R402, R403) -/

/-- A descriptor whose bulk has landed whole enters its slot, or is lost. -/
def endPartial (s : State) (p : Nat) (w : Partial) (reply : Bool) : State :=
  let s1 := onPhRt s p fun r => { r with parts := r.parts.filter (· != w) }
  match w.slot, w.mail with
  | some slot, some (d, stamp) =>
    let len := leAt d 0x18 4
    let catchup := bit (leAt d 5 1) 3
    let b := if len = 0 then 0 else if catchup then leAt d 0x10 8 else bufAddr (phEntry s p) slot
    let desc := overlay (overlay d 8 (toBytes 8 stamp)) 0x10 (toBytes 8 b)
    let undef := if catchup then freshBytes s1 (min len (phEntry s p).bufSize) else ([], s1)
    let s2 := if catchup then memWrite undef.2 (bufAddr (phEntry s p) slot) undef.1 else s1
    fillSlot s2 p slot (if reply then none else some (w.src, w.sph, w.tag)) stamp desc
  | none, some _ => if reply then noResv s1 p else ringOverrun s1 p
  | _, none => s

/-- The arriving message of a packet: found by source, channel (of a reply, the key of its request) and message number, else begun. A
message that its sender gave up leaves its slot to the next one of the channel. -/
def findPartial (s : State) (p : Nat) (q : Packet) : Partial × State :=
  let r := phRt s p
  let src := q.src
  let sph := chanKey q
  let tag := idTag q.id
  match r.parts.find? fun w => w.src == src && w.sph == sph with
  | some w =>
    if w.tag = tag then (w, s)
    else
      let n : Partial := ⟨src, sph, tag, w.slot, 0, none⟩
      (n, setPhRt s p { r with parts := r.parts.map fun x => if x = w then n else x })
  | none =>
    match takeRing s p (if q.cls = 1 then some (src, replyKey q) else none) with
    | some (slot, s) =>
      let n : Partial := ⟨src, sph, tag, some slot, 0, none⟩
      (n, onPhRt s p fun r => { r with parts := r.parts ++ [n] })
    | none =>
      let n : Partial := ⟨src, sph, tag, none, 0, none⟩
      (n, onPhRt s p fun r => { r with parts := r.parts ++ [n] })

/-- Replace an arriving message; once its descriptor has come and its bulk has landed it is delivered. -/
def stepPartial (s : State) (p : Nat) (old new : Partial) (reply : Bool) : State :=
  let s := onPhRt s p fun r => { r with parts := r.parts.map fun x => if x = old then new else x }
  match new.mail with
  | some (d, _) => if leAt d 0x18 4 ≤ new.got ∨ bit (leAt d 5 1) 3 then endPartial s p new reply else s
  | none => s

/-- A MAIL packet (R399): delivered into a ring slot or a reply reservation. A descriptor of another module for a service or
an item queue is discarded and counted. -/
def execMail (i : Nat) (s : State) : Host.Outcome State Fault Refusal :=
  .next (takeIn (pumpDev s) i tMAIL fun q s =>
    let p := idDest q.p.id
    let k := (phEntry s p).kind
    if k = kRECV then
      let r := findPartial s p q.p
      stepPartial r.2 p r.1 { r.1 with mail := some (q.p.payload, q.stamp) } (q.p.cls == 1)
    else if k = kDEFER ∨ k = kOPT then (if q.p.cls = 1 then strayReply s p else foreignItem s p)
    else if k = kDIRECTORY then addF (setF s (fMBX_ERR_FOREIGN p) 1) (fTIER_EVENT_COUNT 12) 1
    else if k = kUPDATE then addF (setF s (fMBX_ERR_FOREIGN p) 1) (fUPD_EVENT_COUNT 11) 1
    else if q.p.cls = 1 then noResv s p
    else s)

/-- A BULK packet lands in the bulk buffer of its message's slot. -/
def execBulk (i : Nat) (s : State) : Host.Outcome State Fault Refusal :=
  .next (takeIn s i tBULK fun q s =>
    let p := idDest q.p.id
    let e := phEntry s p
    if e.kind ≠ kRECV then s else
    let r := findPartial s p q.p
    let n := q.p.payload.length
    let s := match r.1.slot with
      | some slot =>
        let o := q.p.addr % 2 ^ 32
        if o + n ≤ e.bufSize then memWrite r.2 (bufAddr e slot + o) q.p.payload else r.2
      | none => r.2
    stepPartial s p r.1 { r.1 with got := r.1.got + n } (q.p.cls == 1))

/-- A CREDIT packet returns credit to a channel (R401); with the credit of its catch-up descriptor's slot a removed receiver
acknowledges (R416). ADDR holds the credit in [15:0] and the message number in [19:16] (assumption log 58). -/
def execCredit (i : Nat) (s : State) : Host.Outcome State Fault Refusal :=
  .next (takeIn s i tCREDIT fun q s =>
    let p := q.p.id % 16384
    let n := q.p.addr % 65536
    let k := (phEntry s p).kind
    if k ≠ kSEND ∧ k ≠ kMCAST then s else
    let s := addF (setCredit s p q.p.src (creditOf s p q.p.src + n)) (fMBX_TOTAL_ARRIVED p) n
    match s.mail.msgs.find? fun m => m.ph == p && m.dest == q.p.src && m.state == .caughtUp && m.no % 16 == q.p.addr / 65536 % 16 with
    | some m => onMsg s m.no fun m => { m with state := .acked }
    | none => s)

/-! ### Remote requests of stream engines -/

/-- Packet q of a tile's stream engine must wait at the endpoint: it is a version write behind an earlier write of the same tile, or
follows an earlier version write of it (R256). -/
def fenceHeld (s : State) (q : InPkt) : Bool :=
  s.fab.inq.any fun o =>
    o.p.src == q.p.src && o.p.id / 16777216 == q.p.id / 16777216 &&
    (o.p.typ == tVFENCE || (o.p.typ == tWRITE && q.p.typ == tVFENCE)) &&
    o.p.seq != q.p.seq && decide ((q.p.seq + 2 ^ 32 - o.p.seq) % 2 ^ 32 < 2 ^ 31)

/-- A WRITE packet lands in memory (R409), or, as gradient traffic, where R345 puts it. -/
def execWrite (i : Nat) (s : State) : Host.Outcome State Fault Refusal :=
  .next (match s.fab.inq[i]? with
    | none => s
    | some q => if q.p.typ ≠ tWRITE ∨ fenceHeld s q then s else takeIn s i tWRITE fun q s => putWrite s q.p false)

/-- READ_DATA for a request. -/
def readDataPacket (q : Packet) (status : Nat) (managed : Bool) (ver : Nat) (data : List Byte) : Packet :=
  { blankPacket q.src tREADDATA with
    cls := 1, step := q.step, nf := q.nf, addr := q.addr, id := q.id
    payload := toBytes 1 status ++ toBytes 1 managed.toNat ++ toBytes 2 0 ++ toBytes 4 ver ++ data }

/-- A READ packet is served (R322, R323): the data with the entry's version; a version that differs in [31:8] under SKEWCHK, a
LOST entry, an unmapped range or an uncorrectable unit fails it. -/
def serveRead (s : State) (q : Packet) : State :=
  let n := leAt q.payload 0 2
  let vchk := bit (leAt q.payload 2 1) 0
  let want := leAt q.payload 4 4
  let fail (s : State) (status : Nat) : State := ready s .system (readDataPacket q status false 0 [])
  if !mappedRange q.addr n then fail s cADDR_UNMAPPED else
  let serve (s : State) (managed : Bool) (ver : Nat) : State :=
    let r := memRead s q.addr n
    match r.bad with
    | some _ => fail r.s cMEM_UNCORRECTABLE
    | none => ready r.s .system (readDataPacket q 0 managed ver r.data)
  match slotAt s q.addr with
  | none => serve s false 0
  | some (g, tier, slot) =>
    match readOwner s g (if tier = 0 then slot else g.stackSlots + slot) with
    | (none, s) => fail s cMEM_UNCORRECTABLE
    | (some o, s) =>
      if o = 0xFFFFFFFF then serve s true 0
      else
        let d := dirEnt s o
        if d.state = .lost then fail s stLOST
        else if vchk && g.skew && decide (d.version / 256 ≠ want / 256) then fail (tierEvent s 9) cVERSION_SKEW
        else serve s true d.version

def execRead (i : Nat) (s : State) : Host.Outcome State Fault Refusal :=
  .next (pump (takeIn s i tREAD fun q s => serveRead s q.p))

/-- A remote version write (R256). -/
def execVfence (i : Nat) (s : State) : Host.Outcome State Fault Refusal :=
  .next (if s.fab.inq[i]?.any (fenceHeld s) then s else takeIn s i tVFENCE fun q s => putVersion s q.p)

/-! ### Acknowledgement, drops and rates -/

/-- The window of the congestion loop in ns. -/
def ccWindow (s : State) : Nat := getF s fCMP_CC_CTL_WINDOW_US * 1000

/-- A backwater mark from a destination (R413, R414): the rate is cut at most once in a window. -/
def backwater (s : State) (d : Nat) : State :=
  let s := addF s (fCMP_FAB_EVENT_COUNT 2) 1
  let r := rateOf s d
  let due := match r.lastCut with | none => true | some t => decide (t + ccWindow s ≤ s.now)
  if due && !bitF s fCMP_CC_PIN_EN then
    let num := r.num * (256 - getF s fCMP_CC_CTL_CUT)
    let sh := r.sh + 8
    let q := if num < 2 ^ sh then (1, 0) else (num, sh)
    addF (setRate s d { r with num := q.1, sh := q.2, lastCut := some s.now, quietFrom := s.now }) (fCMP_FAB_EVENT_COUNT 3) 1
  else setRate s d { r with quietFrom := s.now }

/-- A whole window without a mark from a destination raises its rate (R413). -/
def execRateWindow (dest : Nat) (s : State) : Host.Outcome State Fault Refusal :=
  .next (
    let r := rateOf s dest
    if bitF s fCMP_CC_PIN_EN ∨ s.now < r.quietFrom + ccWindow s then s
    else
      let num := r.num + getF s fCMP_CC_CTL_ADD * 2 ^ r.sh
      let q := if 400 * 2 ^ r.sh ≤ num then (400, 0) else (num, r.sh)
      pump (setRate s dest { r with num := q.1, sh := q.2, quietFrom := s.now }))

/-- One acknowledged sequence number. -/
def ackOne (src : Nat) (s : State) (x : Nat × Bool) : State :=
  let s1 := match s.fab.out.find? fun o => o.p.dest == src && o.p.seq == x.1 with
    | some o => pktAcked { s with fab := { s.fab with out := s.fab.out.filter (· != o) } } o
    | none => s
  if x.2 then backwater s1 src else s1

/-- The sequence numbers and marks of an ACK packet. -/
def ackItems (b : List Byte) : List (Nat × Bool) :=
  (List.range (b.length / 8)).map fun i => (leAt b (8 * i) 4, leAt b (8 * i + 4) 4 != 0)

/-- Every stream engine and the Mailroom go on. -/
def pumpAll (s : State) : State := pumpMail (s.tiles.foldl (fun s p => pumpStream s p.1) s)

/-- An end-to-end ACK (R407). -/
def execAck (i : Nat) (s : State) : Host.Outcome State Fault Refusal :=
  .next (takeIn s i tACK fun q s => pumpAll ((ackItems q.p.payload).foldl (ackOne q.p.src) s))

/-- A packet is dropped (R406, R407): its outstanding record goes, and its message or request fails. -/
def dropPacket (s : State) (p : Packet) : State :=
  let s := addF s (fCMP_FAB_EVENT_COUNT 11) 1
  match s.fab.out.find? fun o => o.p.dest == p.dest && o.p.seq == p.seq && o.p.src == p.src with
  | some o => pumpAll (pktLost { s with fab := { s.fab with out := s.fab.out.filter (· != o) } } o)
  | none => s

/-- A packet held past HOLD_MS toward a next hop is dropped (R406, R441). -/
def execHeldDrop (hop i : Nat) (s : State) : Host.Outcome State Fault Refusal :=
  .next (
    let h := hopSt s hop
    match h.tx[i]? with
    | none => s
    | some u =>
      if s.now ≤ u.heldFrom + getF s fCMP_FAB_LIMITS_HOLD_MS * 1000000 then s
      else dropPacket (setHop s hop { h with tx := removeAt h.tx i }) u.p)

/-- A packet not acknowledged within E2E_US is treated as dropped (R407). -/
def execE2eTimeout (i : Nat) (s : State) : Host.Outcome State Fault Refusal :=
  .next (match s.fab.out[i]? with
    | none => s
    | some o =>
      match o.sentAt with
      | some t => if t + getF s fCMP_FAB_LIMITS_E2E_US * 1000 ≤ s.now then dropPacket s o.p else s
      | none => s)

/-! ### Multicast stalls (R415) -/

/-- Has a stall lasted longer than LIMIT_NS? -/
def stalled (s : State) (from_ : Option Nat) : Bool :=
  match from_ with | some t => decide (t + getF s fCMP_MC_STALL_LIMIT_NS < s.now) | none => false

/-- The receiver of the i-th message (or of the i-th collective window, `coll`) is removed from its group. -/
def execMcStallRemove (coll : Bool) (i : Nat) (s : State) : Host.Outcome State Fault Refusal :=
  .next (if coll then
      match s.mail.sends[i]? with
      | some c =>
        if !c.removed && c.gather && stalled s c.stallFrom then
          let s := { s with mail := { s.mail with sends := replaceAt s.mail.sends i { c with removed := true } } }
          addF s (fCMP_FAB_EVENT_COUNT 4) 1
        else s
      | none => s
    else
      match s.mail.msgs[i]? with
      | some m =>
        if m.mcast && m.state == .sending && stalled s m.stallFrom then
          let s := onMsg s m.no fun m => { m with state := .removed }
          addF (setF s (fMBX_ERR_MC_REMOVED m.ph) 1) (fCMP_FAB_EVENT_COUNT 4) 1
        else s
      | none => s)

/-- A receiver that was removed while it had no ring credit has some again, and one removed for its unacknowledged packets has room
for another (R415). -/
def mayCatchUp (s : State) (m : OutMsg) : Bool :=
  decide (m.flying < m.window) && (m.took || decide (0 < creditOf s m.ph m.dest))

/-- The packet that tells a removed member of a collective where the rest of the shard stands (R419, assumption log 18). -/
def pullPacket (k : Coll) (c : CollSend) : Packet :=
  { blankPacket c.dest tCOLL with
    cls := 3, step := c.step, addr := c.next, id := c.id + 2 ^ 31 + 2 ^ 30, nf := c.nf
    payload := toBytes 8 c.src ++ toBytes 8 (k.e.shard * k.e.pktSize true) }

/-- A removed receiver takes packets again: it is sent its catch-up descriptor, with the credit taken for the message or one that it
has now (assumption log 18). A member of a collective is told to pull the rest of the shard. -/
def execCatchupSend (coll : Bool) (i : Nat) (s : State) : Host.Outcome State Fault Refusal :=
  .next (if coll then
      match s.mail.sends[i]? with
      | some c =>
        match collOf s c.id with
        | some k =>
          if c.removed && decide (c.flying < 64) && decide (c.next < k.e.shard * k.e.pktSize true) then
            let d := { c with removed := false, stallFrom := none, next := k.e.shard * k.e.pktSize true, flying := c.flying + 1 }
            pumpMail (ready { s with mail := { s.mail with sends := replaceAt s.mail.sends i d } } (.coll c.id c.step c.member) (pullPacket k c))
          else s
        | none => s
      | none => s
    else
      match s.mail.msgs[i]? with
      | some m =>
        if m.state == .removed && mayCatchUp s m then
          let s := if m.took then s else setCredit s m.ph m.dest (creditOf s m.ph m.dest - 1)
          let d := overlay (overlay m.desc 5 (toBytes 1 (setBit (leAt m.desc 5 1) 3))) 0x10 (toBytes 8 m.bulk)
          let s := onMsg s m.no fun m => { m with state := .caughtUp, mailMade := true, took := true, flying := m.flying + 1 }
          pump (ready s (.mail m.ph m.no) (msgPacket m tMAIL 0 d))
        else s
      | none => s)

/-- The loss interval of a pigeonhole ends: one record with the time of the first loss (R403). -/
def execRingOverrunIntervalEnd (p : Ph) (s : State) : Host.Outcome State Fault Refusal :=
  .next (
    let r := phRt s p.val
    match r.lossFrom with
    | none => s
    | some t =>
      if s.now < t + 1000000000 then s
      else
        setPhRt (postEventAt s t r.lossSync 0x64 1 9 p.val r.lossN 0) p.val { r with lossFrom := none, lossN := 0 })

end Sys2Proof.Machine
end

