-- ==== Sys2Proof/Machine/Barrier.lean ====
section
/-!
DEFINITION. The closure rule of R424 and the Gauge barrier (spec 12 R427 to R430).
-/
namespace Sys2Proof.Machine

/-! ### Closure (R424) -/

/-- Insert into an ascending list. -/
def insertNat (x : Nat) : List Nat → List Nat
  | [] => [x]
  | y :: r => if x ≤ y then x :: y :: r else y :: insertNat x r

/-- Sort ascending. -/
def sortNat (l : List Nat) : List Nat := l.foldl (fun a x => insertNat x a) []

/-- The effective deadline E from T_first, the completion stamps, K and LIMIT_NS, and whether it is D rather than T_k. -/
def effective (first : Option Nat) (done : List Nat) (k limit : Nat) : Option (Nat × Bool) :=
  let d := if limit = 0 then none else first.map (· + limit)
  let tk := if k = 0 then none else (sortNat done)[k - 1]?
  match d, tk with
  | none, none => none
  | some d, none => some (d, true)
  | none, some t => some (t, false)
  | some d, some t => if d < t then some (d, true) else some (t, false)

/-- The smallest of a list. -/
def minNat (l : List Nat) : Option Nat := (sortNat l).head?

/-- K of an axis stage: min(K, n), with n for 0. -/
def stageK (k n : Nat) : Nat := if k = 0 then n else min k n

/-! ### Barriers -/

def barOf (s : State) (b : Nat) : Option Bar := (s.mail.bars.find? fun p => p.1 == b).map (·.2)

def setBar (s : State) (b : Nat) (x : Bar) : State :=
  { s with mail := { s.mail with bars := s.mail.bars.map fun p => if p.1 = b then (b, x) else p } }

/-- Instance n of a barrier. -/
def barInst (x : Bar) (n : Nat) : BarInst := (x.insts.find? fun i => i.no == n).getD (BarInst.start n)

def setInst (x : Bar) (i : BarInst) : Bar := { x with insts := i :: x.insts.filter fun j => j.no != i.no }

/-- The module multicasts its arrival at a stage to the other members of the axis (R428). -/
def sendArrivals (s : State) (b inst axis : Nat) : State :=
  let own := ownLog s
  (List.range (axisN s axis)).foldl (fun s j =>
    let d := memberPos s axis j
    if d = own then s
    else ready s .system { blankPacket d tBARRIER with cls := 3, addr := inst, id := b + (if axis = 1 then 2 ^ 31 else 0) }) s

/-- A local arrival at an instance; the last one closes the local stage of a barrier with an axis. -/
def arriveLocal (s : State) (b : Nat) (x : Bar) (n : Nat) : State :=
  let i := barInst x n
  let i := { i with loc := i.loc ++ [s.now] }
  if x.e.axis ≠ 0 ∧ i.loc.length = x.e.localN then
    let s := setBar s b (setInst x { i with locAt := some s.now })
    pump (sendArrivals s b n (if x.e.axis = 2 then 1 else 0))
  else setBar s b (setInst x i)

/-- GARRIVE (R429): the arrival goes to the first instance, from the current one on, whose local arrivals are not complete; three
instances ahead it is held. -/
def execGarrive (t : Tid) (s : State) : Host.Outcome State Fault Refusal :=
  .next (msgHead s t 3 false fun h s =>
    let b := wPH h.word % 1024
    match barOf s b with
    | none => msgTrap s t h 0x65 0
    | some x =>
      match [x.cur, x.cur + 1, x.cur + 2].find? fun n => decide ((barInst x n).loc.length < x.e.localN) with
      | none => .error (waitInfo 2 b)
      | some n => .ok (msgDone (arriveLocal s b x n) t h))

/-- The last instant at which a closure satisfies a GWAIT (R430). -/
def gwDeadline (s : State) (t : Nat) (g : GaugeWait) : Option Nat :=
  if waitLimit s t = 0 then none
  else some (g.since + waitLimit s t + (match barOf s g.bar with | some x => x.e.limit | none => 0))

/-- GWAIT begins at the head of the queue and completes once its instance has closed, by its deadline (R430), and for a phase
barrier once the next phase is entered (R210). -/
def execGwait (t : Tid) (s : State) : Host.Outcome State Fault Refusal :=
  .next (msgHead s t 4 true fun h s =>
    let b := wPH h.word % 1024
    match barOf s b, (s.tile t).msg.gw with
    | none, _ => msgTrap s t h 0x65 0
    | some x, none => .ok (s.onTile t fun y => { y with msg := { y.msg with gw := some ⟨b, x.cur, s.now, none, false⟩ } })
    | some _, some g =>
      let inTime := match g.closed, gwDeadline s t g with
        | some c, some d => decide (c ≤ d)
        | some _, none => true
        | none, _ => false
      if g.go && inTime then .ok (msgDone (s.onTile t fun y => { y with msg := { y.msg with gw := none } }) t h) else .ok s)

/-- A barrier closes: its registers, its trace record, the GWAITs on it, and the phase boundary (R210, R379). -/
def barrierClosed (s : State) (b : Nat) (x : Bar) (byD : Bool) : State :=
  let n := x.cur
  let s := setBar s b { x with cur := n + 1, insts := x.insts.filter fun i => decide (n < i.no) }
  let s := addF (setF s (fCMP_GAUGE_BY_DEADLINE b) byD.toNat) (fCMP_GAUGE_CLOSURES b) 1
  let s := postTrace s 3 b (getF s (fCMP_GAUGE_CLOSURES b)) byD.toNat
  let ph := isPhaseBarrier s b
  let s := s.tiles.foldl (fun s p => match p.2.msg.gw with
    | some g => if g.bar = b ∧ g.inst = n then
        s.onTile p.1 fun y => { y with msg := { y.msg with gw := some { g with closed := some s.now, go := !ph } } } else s
    | none => s) s
  if !ph then s
  else if s.fab.redraw.isSome then { s with mail := { s.mail with heldClose := s.mail.heldClose ++ [(b, s.now)] } }
  else phaseBoundary s

/-- E of the stage that the current instance is in, with its K-th arrival rule. -/
def stageE (s : State) (x : Bar) : Option (Nat × Bool) :=
  let i := barInst x x.cur
  let go (own : Option Nat) (others : List (Nat × Nat)) (axis : Nat) : Option (Nat × Bool) :=
    match own with
    | none => none
    | some t =>
      let l := t :: others.map (·.2)
      effective (minNat l) l (stageK x.e.k (axisN s axis)) x.e.limit
  match x.e.axis with
  | 0 => effective (minNat i.loc) i.loc (if x.e.k = 0 then x.e.localN else x.e.k) x.e.limit
  | 1 => go i.locAt i.row 0
  | 2 => go i.locAt i.col 1
  | _ => if i.rowAt.isNone then go i.locAt i.row 0 else go i.rowAt i.col 1

/-- A stage of the current instance closes 64 ns after E (R424, R428): the row stage of a JOB barrier starts its column stage,
every other stage is the last. -/
def execBarrierStageClose (b : Fin 1024) (s : State) : Host.Outcome State Fault Refusal :=
  .next (match barOf s b.val with
    | none => s
    | some x =>
      match stageE s x with
      | none => s
      | some (e, byD) =>
        if s.now < e + 64 then s
        else
          let i := barInst x x.cur
          if x.e.axis = 3 ∧ i.rowAt.isNone then
            pump (sendArrivals (setBar s b.val (setInst x { i with rowAt := some s.now })) b.val x.cur 1)
          else pumpAll (barrierClosed s b.val x byD))

/-- A barrier arrival packet (R429). -/
def execBarrier (i : Nat) (s : State) : Host.Outcome State Fault Refusal :=
  .next (if s.fab.inq[i]?.any (fun q => isAgree q.p) then s else takeIn s i tBARRIER fun q s =>
    let b := q.p.id % 1024
    let col := bit q.p.id 31
    match barOf s b with
    | none => s
    | some x =>
      let n := q.p.addr
      if n < x.cur then addF s (fCMP_FAB_EVENT_COUNT 7) 1
      else if x.cur + 3 ≤ n then addF (raise s fCMP_FAB_ERR_BAR_SKEW) (fCMP_FAB_EVENT_COUNT 8) 1
      else
        let y := barInst x n
        let j := memberOf s col.toNat q.p.src
        let add (l : List (Nat × Nat)) : List (Nat × Nat) := if l.any fun p => p.1 == j then l else l ++ [(j, q.stamp)]
        setBar s b (setInst x (if col then { y with col := add y.col } else { y with row := add y.row })))

end Sys2Proof.Machine
end

