-- ==== Sys2Proof/Machine/Collective.lean ====
section
/-!
DEFINITION. Collectives (spec 12 R417 to R426): MCOLL, the reduction of contributions, closure under the postmark rule,
late-fold, the gather part and the completion notice.
-/
namespace Sys2Proof.Machine

def setColl (s : State) (id : Nat) (c : Coll) : State :=
  { s with mail := { s.mail with colls := s.mail.colls.map fun p => if p.1 = id then (id, c) else p } }

/-- Replace or add an instance. -/
def putInst (c : Coll) (i : CollInst) : Coll :=
  if c.insts.any fun j => j.step == i.step then { c with insts := c.insts.map fun j => if j.step = i.step then i else j }
  else { c with insts := c.insts ++ [i] }

/-- K of a collective: 0 means n (R417). -/
def collK (s : State) (c : Coll) : Nat := stageK c.e.k (axisN s c.e.axis)

/-- The elements of a payload as FP32 patterns: BF16 widens exactly, with the canonical NaN (R420, R60, R65). -/
def elemsOf (fmt : Nat) (b : List Byte) : List Nat :=
  let n := elemSize fmt
  (List.range (b.length / n)).map fun i => if fmt = 0 then leAt b (n * i) n else rn32v (decodeElem .bf16 (leAt b (n * i) n))

/-- Output elements as bytes (R65, R61). -/
def outBytes (fmt : Nat) (l : List Nat) : List Byte :=
  l.flatMap fun x => if fmt = 0 then toBytes 4 x else toBytes 2 (toPlain .bf16 (f32v x)).bits

/-- Does a contribution hold a non-finite element (R426)? -/
def anySpecial (fmt : Nat) (b : List Byte) : Bool := (elemsOf fmt b).any f32special

/-- The accumulation buffer of a step: the two alternate by parity (R425). -/
def accBase (c : Coll) (step : Nat) : Nat := c.e.acc + step % 2 * (8 * c.e.shard)

/-- Pairs (s, c) as bytes and back. -/
def pairBytes (p : Nat × Nat) : List Byte := toBytes 4 p.1 ++ toBytes 4 p.2
def pairsOf (b : List Byte) : List (Nat × Nat) := (List.range (b.length / 8)).map fun i => (leAt b (8 * i) 4, leAt b (8 * i + 4) 4)

/-- The units that elements of `size` bytes from address `a` on lie in, for some of them. -/
def unitsOf (a size : Nat) (which : List Nat) : List Nat := which.map fun k => (a + size * k) / 64

/-- The elements of `size` bytes from address `a` on, n in all, that lie in one of the units. -/
def elemsIn (a size n : Nat) (units : List Nat) : List Nat :=
  if units.isEmpty then [] else (List.range n).filter fun k => units.contains ((a + size * k) / 64)

/-- Add elements into a buffer from element `o` on (R420). `bad` names the elements whose data is poisoned: their sums, and those of
elements whose buffer could not be read, are stored poisoned (R294). -/
def addElems (s : State) (base o : Nat) (l : List Nat) (bad : List Nat) : State :=
  let a := base + 8 * o
  let r := memReadAll s a (8 * l.length)
  let new := ((pairsOf r.1).zip l).map fun p => addStep p.1 p.2
  memWriteM r.2.2 a (new.flatMap pairBytes) (r.2.1 ++ unitsOf a 8 bad)

/-- The staging address of a member's element (DETERM, R422). -/
def stageAddr (s : State) (c : Coll) (step idx o : Nat) : Nat :=
  c.e.stage + step % 2 * (4 * axisN s c.e.axis * c.e.shard) + idx * (4 * c.e.shard) + 4 * o

/-- E of an instance (R424). -/
def instE (s : State) (c : Coll) (i : CollInst) : Option (Nat × Bool) :=
  effective i.first ((i.parts.filter fun p => p.elems == c.e.shard).map (·.last)) (collK s c) c.e.limit

/-- Elements of a contributor count in the instance of a step. -/
def countElems (s : State) (id : Nat) (c : Coll) (i : CollInst) (idx o stamp : Nat) (l bad : List Nat) (nf : Bool) : State :=
  let old := (i.parts.find? fun p => p.idx == idx).getD ⟨idx, 0, 0⟩
  let new : Contrib := ⟨idx, old.elems + l.length, max old.last stamp⟩
  let first := match i.first with | some t => some (min t stamp) | none => some stamp
  let st := stageAddr s c i.step idx o
  let s := if c.e.determ then memWriteM s st (l.flatMap (toBytes 4)) (unitsOf st 4 bad) else addElems s (accBase c i.step) o l bad
  setColl s id (putInst c { i with
    parts := new :: i.parts.filter fun p => p.idx != idx
    first := first
    nf := i.nf || nf })

/-- Elements of a late packet of step `tag` fold into a later instance, which keeps the tag (R345, R425). -/
def foldElems (s : State) (id : Nat) (c : Coll) (i : CollInst) (tag idx o : Nat) (l bad : List Nat) (nf : Bool) : State :=
  let s := addElems s (accBase c i.step) o l bad
  let late := if i.late.contains (idx, tag) then i.late else i.late ++ [(idx, tag)]
  let s := setColl s id (putInst c { i with late := late, nf := i.nf || nf })
  addF (addF s (fCMP_FAB_EVENT_COUNT 5) 1) (fCMP_COLL_LATE_COUNT id) 1

/-- A packet outside the two open instances (R425). -/
def collAhead (s : State) : State := addF (raise s fCMP_FAB_ERR_COLL_AHEAD) (fCMP_FAB_EVENT_COUNT 6) 1

/-- The group whose G array holds the output of a collective. -/
def gradGroup (s : State) (c : Coll) : Option (Nat × Group) :=
  s.upd.groups.find? fun p => decide (p.2.gBase ≤ c.e.out) && decide (c.e.out < p.2.gBase + arrLen p.2.gFmt p.2.nblk)

/-- What R345 makes of the step of a GRAD packet: rejected, or the step that counts, whether it is late-folded, and whether the
skew is counted. -/
def gradStep (s : State) (c : Coll) (p : Nat) : Option (Nat × Bool × Bool) :=
  let o := openStep s
  if (match gradGroup s c with | some g => g.2.lzy | none => false) then some (o, false, false)
  else if p = o then some (p, false, false)
  else if p + 1 = o then some (o, true, true)
  else if p = o + 1 then some (p, false, true)
  else none

/-- The oldest open step s_o; until an instance is known, OPEN for a GRAD collective and the step at hand for another. A first
step one earlier lowers it while nothing has closed. -/
def oldestFor (s : State) (c : Coll) (step : Nat) : Nat :=
  match c.oldest with
  | none => if c.e.grad then openStep s else step
  | some o => if c.fresh ∧ !c.e.grad ∧ step + 1 = o then step else o

/-- Elements of one contributor reach the owner of a shard (R420, R424, R425); `bad` names those whose data is poisoned. -/
def collElems (s : State) (id : Nat) (c : Coll) (pstep idx o stamp src : Nat) (l bad : List Nat) (nf : Bool) : State :=
  let nf := nf && c.e.grad
  let g := if c.e.grad then gradStep s c pstep else some (pstep, false, false)
  match g with
  | none => stepReject s (((gradGroup s c).map (·.1)).getD 0) pstep src
  | some (step, fold, skew) =>
    let s := if skew then addF s (fUPD_EVENT_COUNT 3) 1 else s
    let so := oldestFor s c step
    let c := { c with oldest := some so }
    let inst (n : Nat) : CollInst := (instOf c n).getD (CollInst.start n)
    let past (i : CollInst) : Bool := match instE s c i with | some (e, _) => decide (e < stamp) | none => false
    let foldAt (n : Nat) : State :=
      if past (inst n) then (if n = so then foldElems s id c (inst (so + 1)) pstep idx o l bad nf else collAhead (setColl s id c))
      else foldElems s id c (inst n) pstep idx o l bad nf
    if step = so ∨ step = so + 1 then
      if fold then foldAt step
      else if past (inst step) then (if step = so then foldAt (so + 1) else collAhead (setColl s id c))
      else countElems s id c (inst step) idx o stamp l bad nf
    else if step + 1 = so then foldAt so
    else collAhead (setColl s id c)

/-- The instance to which a gathered shard of step p belongs, and whether the skew is counted; none where R345 rejects it. A shard that
comes while OPEN is one ahead stays one of its own step (assumption log 89). -/
def gatherStep (s : State) (c : Coll) (p : Nat) : Option (Nat × Bool) :=
  if !c.e.grad then some (p, false)
  else (gradStep s c p).map fun x => (if x.2.1 || (instOf c p).isSome then p else x.1, x.2.2)

/-- A shard of a gather part lands (R419); `bad` names the units of its destination whose data is poisoned. -/
def gatherLands (s : State) (id : Nat) (c : Coll) (pstep idx off src : Nat) (b : List Byte) (bad : List Nat) (nf : Bool) : State :=
  match gatherStep s c pstep with
  | none => stepReject s (((gradGroup s c).map (·.1)).getD 0) pstep src
  | some (step, skew) =>
    let s := if skew then addF s (fUPD_EVENT_COUNT 3) 1 else s
    let so := oldestFor s c step
    let known := (instOf c step).isSome
    if !known && step != so && step != so + 1 then collAhead s
    else
      let size := c.e.pktSize true
      let s := memWriteM s (c.e.out + idx * c.e.shard * size + off) b bad
      let i := (instOf c step).getD (CollInst.start step)
      let n := b.length / size
      let g := if i.gather.any fun p => p.1 == idx then i.gather.map fun p => if p.1 = idx then (idx, p.2 + n) else p
        else i.gather ++ [(idx, n)]
      setColl s id (putInst { c with oldest := some so } { i with gather := g, nf := i.nf || (nf && c.e.grad) })

/-- This module was removed from the group of a gather part: it pulls the rest of the shard from the sender in 512-byte parts (R419,
assumption log 18). -/
def startPull (s : State) (q : InPkt) : State :=
  let id := q.p.id % 256
  let src := leAt q.p.payload 0 8
  let total := leAt q.p.payload 8 8
  (List.range ((total - q.p.addr + 511) / 512)).foldl (fun s k =>
    let off := q.p.addr + 512 * k
    let p : Packet := { blankPacket q.p.src tREAD with
      nf := true, step := q.p.step, addr := src + off, id := id, payload := toBytes 2 (min 512 (total - off)) ++ toBytes 6 0 }
    ready { s with mail := { s.mail with pulls := s.mail.pulls ++ [⟨q.p.src, id, src + off, id, q.p.step, off⟩] } } .pull p) s

/-- A contribution packet of collective `id` in the ingress pools, not one of a gather part. -/
def isContrib (id : Nat) (q : InPkt) : Bool := q.p.typ == tCOLL && q.p.id % 256 == id && !bit q.p.id 31

/-- A contribution packet reaches the owner. -/
def contribLands (q : InPkt) (s : State) : State :=
  let id := q.p.id % 256
  match collOf s id with
  | none => s
  | some c =>
    collElems s id c q.p.step (memberOf s c.e.axis q.p.src) (q.p.addr / elemSize c.e.fmtIn) q.stamp q.p.src
      (elemsOf c.e.fmtIn q.p.payload) [] q.p.nf

/-- The contribution packet of a collective in the pools with the earliest stamp. -/
def firstContrib (s : State) (id : Nat) : Option Nat :=
  let l := s.fab.inq.filter (isContrib id)
  firstIdx (fun q => isContrib id q && l.all fun o => decide (q.stamp ≤ o.stamp)) s.fab.inq

/-- Every contribution packet of a collective that the pools hold counts or folds, in the order of the stamps: only stamps decide
(R424). -/
def drainContribs (id : Nat) : Nat → State → State
  | 0, s => s
  | f + 1, s => match firstContrib s id with
    | none => s
    | some i => drainContribs id f (takeIn s i tCOLL contribLands)

/-- A collective packet (R425). A contribution waits for those of its collective that were stamped before it. -/
def execColl (i : Nat) (s : State) : Host.Outcome State Fault Refusal :=
  .next (match s.fab.inq[i]? with
    | none => s
    | some q =>
      let id := q.p.id % 256
      if isContrib id q then
        if s.fab.inq.any fun o => isContrib id o && decide (o.stamp < q.stamp) then s else takeIn s i tCOLL contribLands
      else takeIn s i tCOLL fun q s =>
        match collOf s id with
        | none => s
        | some c =>
          let s := gatherLands s id c q.p.step (memberOf s c.e.axis q.p.src) q.p.addr q.p.src (if bit q.p.id 30 then [] else q.p.payload) [] q.p.nf
          if bit q.p.id 30 then pump (startPull s q) else s)

/-- Data that the endpoint pulled for a collective comes (R419). -/
def pullData (s : State) (p : Packet) : State :=
  match s.mail.pulls.find? fun x => x.src == p.src && x.id == p.id && x.addr == p.addr && x.step == p.step with
  | none => s
  | some x =>
    let s := { s with mail := { s.mail with pulls := s.mail.pulls.filter (· != x) } }
    match collOf s x.coll with
    | none => s
    | some c =>
      if leAt p.payload 0 1 ≠ 0 then s
      else gatherLands s x.coll c x.step (memberOf s c.e.axis p.src) x.off p.src (p.payload.drop 8) [] false

/-- READ_DATA returns to the stream engine that asked (R255, R258), or to the endpoint for a collective. -/
def execReadData (i : Nat) (s : State) : Host.Outcome State Fault Refusal :=
  .next (takeIn s i tREADDATA fun q s => if q.p.nf then pullData s q.p else strReadData s q.p)

/-! ### The end of an instance (R423) -/

/-- Contributors late-folded into an instance. -/
def CollInst.lateCount (i : CollInst) : Nat := (i.late.map (·.1)).eraseDups.length

/-- The inline payload of a completion notice. -/
def collNotice (s : State) (id : Nat) (i : CollInst) (e : Nat) (byD : Bool) (n : Nat) : List Byte :=
  toBytes 1 id ++ toBytes 1 (i.nf.toNat + 2 * byD.toNat) ++ toBytes 2 i.tag ++ toBytes 4 i.step ++ toBytes 1 n ++
  toBytes 1 i.lateCount ++ toBytes 6 0 ++ toBytes 8 e ++ toBytes 8 s.now

/-- The notice of an instance that has ended, where the module's MCOLL reserved a slot for it. -/
def endNotice (s : State) (id : Nat) (c : Coll) (i : CollInst) : State :=
  let (e, byD, n) := i.closed.getD (0, false, 0)
  if i.own then sendDev s c.e.donePh 1 (collNotice s id i e byD n) else s

/-- An instance ends: its trace record (R576) and its notice. -/
def endInst (s : State) (id : Nat) (c : Coll) (i : CollInst) : State :=
  let (_, byD, n) := i.closed.getD (0, false, 0)
  endNotice (postTrace s 4 id i.step (n % 256 + 256 * (i.lateCount % 256) + 65536 * i.nf.toNat + 131072 * byD.toNat)) id c i

/-- CMP_COLL_n after a closure. -/
def collRegs (s : State) (id : Nat) (i : CollInst) (byD : Bool) (n : Nat) : State :=
  setFs s [(fCMP_COLL_NF id, i.nf.toNat), (fCMP_COLL_BY_DEADLINE id, byD.toNat), (fCMP_COLL_COUNTED id, n), (fCMP_COLL_STEP id, i.step)]

/-- The reduced shard as FP32 patterns, with the elements that are poisoned: the buffer's s values, or with DETERM the staged shards added
in ascending member order (R420, R422). -/
def reduced (s : State) (c : Coll) (i : CollInst) (counted : List Nat) : List Nat × List Nat × State :=
  if c.e.determ then
    let f (acc : List (Nat × Nat) × List Nat × State) (j : Nat) : List (Nat × Nat) × List Nat × State :=
      let a := stageAddr s c i.step j 0
      let r := memReadAll acc.2.2 a (4 * c.e.shard)
      ((acc.1.zip (elemsOf 0 r.1)).map (fun p => addStep p.1 p.2), acc.2.1 ++ elemsIn a 4 c.e.shard r.2.1, r.2.2)
    let z := (sortNat counted).foldl f (List.replicate c.e.shard (0, 0), [], s)
    (z.1.map (·.1), z.2)
  else
    let a := accBase c i.step
    let r := memReadAll s a (8 * c.e.shard)
    ((pairsOf r.1).map (·.1), elemsIn a 8 c.e.shard r.2.1, r.2.2)

/-- Write the output of a closure, of which some elements are poisoned (R294); in the final round of a gradient the blocks of a
privileged group take the in-fabric path (R355). A poisoned block updates nothing: its gradient is stored (assumption log 89). R355 has the block updated at once, and R235 stops group updates in an EVAL phase:
the in-fabric path updates in every phase (DESIGN CHOICE, assumption log 92). -/
def writeOut (s : State) (c : Coll) (step : Nat) (l bad : List Nat) : State :=
  let size := elemSize c.e.fmtOut
  let base := c.e.out + (if c.e.kind = 2 then memberOf s c.e.axis (ownLog s) * c.e.shard * size else 0)
  let units := unitsOf base size bad
  if !(c.e.grad && c.e.final) then memWriteM s base (outBytes c.e.fmtOut l) units
  else
    (List.range (l.length / 32)).foldl (fun s b =>
      let a := base + 32 * b * size
      let d := outBytes c.e.fmtOut ((l.drop (32 * b)).take 32)
      match infabGroup s a with
      | none => memWriteM s a d units
      | some (n, blk) =>
        if step ≠ cmtStep s + 1 then infabFallback (memWriteM s a d units) n
        else if bad.any fun k => k / 32 == b then memWriteM s a d units
        else infabBlock s n blk d) s

/-- The windows of an instance whose reduction has closed owe their gather part (R419). -/
def oweGather (s : State) (id step : Nat) : State :=
  { s with mail := { s.mail with sends := s.mail.sends.map fun w => if w.id = id ∧ w.step = step then { w with due := true } else w } }

/-- The oldest instance of a collective closes at E + 64 ns (R424): resolution in a final round (R426), which requests of the step may
have waited for (R344), output, NF, the buffer cleared for the step after next, and the notice or the gather part. -/
def execCollClose (id : Fin 256) (s : State) : Host.Outcome State Fault Refusal :=
  let s0 := s
  let s := drainContribs id.val s.fab.inq.length s
  .next (match collOf s id.val with
    | none => s0
    | some c =>
      match c.oldest.bind (instOf c) with
      | none => s0
      | some i =>
        match instE s c i with
        | none => s0
        | some (e, byD) =>
          if c.e.kind = 1 ∨ i.closed.isSome ∨ s.now < e + 64 then s0
          else
            let counted := ((i.parts.filter fun p => p.elems == c.e.shard && decide (p.last ≤ e)).map (·.idx))
            let r := reduced s c i counted
            let s := if c.e.grad && c.e.final then takeAhead (resolve r.2.2 i.step i.nf).2 else r.2.2
            let s := writeOut s c i.step r.1 r.2.1
            let s := memZero s (accBase c i.step) (8 * c.e.shard)
            let own := memberOf s c.e.axis (ownLog s)
            let i := { i with closed := some (e, byD, counted.length), gather := if c.e.kind = 2 then (own, c.e.shard) :: i.gather else [] }
            let s := collRegs s id.val i byD counted.length
            let nfs := if i.nf && c.e.grad then i.step :: c.nfSteps else c.nfSteps
            let c := { c with oldest := some (i.step + 1), fresh := false, nfSteps := nfs, last := some i }
            let c := if c.e.kind = 2 then putInst c i else { c with insts := c.insts.filter fun j => j.step != i.step }
            let s := setColl s id.val c
            let s := if c.e.kind = 2 then oweGather s id.val i.step else endInst s id.val c i
            pumpMail (if c.e.grad && c.e.final then updRetry s else s))

/-- All shards of a gather part are written (R419): the instance ends. -/
def execAgPartEnd (id : Fin 256) (s : State) : Host.Outcome State Fault Refusal :=
  .next (match collOf s id.val with
    | none => s
    | some c =>
      let n := axisN s c.e.axis
      let whole (i : CollInst) : Bool := (c.e.kind == 1 || i.closed.isSome) &&
        (List.range n).all fun j => i.gather.any fun p => p.1 == j && p.2 == c.e.shard
      match c.insts.find? fun i => c.e.kind != 0 && whole i with
      | none => s
      | some i =>
        let (w, s) := if c.e.kind = 1 then freshWord s else (0, s)
        let i := if c.e.kind = 1 then { i with closed := some (w.toNat, false, n) } else i
        let s := if c.e.kind = 1 then collRegs s id.val i false n else s
        let nfs := if i.nf && c.e.grad then i.step :: c.nfSteps else c.nfSteps
        let c := { c with insts := c.insts.filter fun j => j.step != i.step }
        let c := if c.e.kind = 1 then { c with oldest := some (i.step + 1), fresh := false, nfSteps := nfs, last := some i } else c
        pumpMail (endInst (setColl s id.val c) id.val c i))

/-! ### MCOLL (R418) -/

/-- The module's own contribution to its shard, stamped at the start. Poisoned data of a gradient sets NF (assumption log 89). -/
def ownShard (s : State) (id : Nat) (c : Coll) (step src : Nat) (nf : Bool) : State :=
  let own := memberOf s c.e.axis (ownLog s)
  let size := elemSize c.e.fmtIn
  let a := if c.e.kind = 1 then src else src + own * c.e.shard * size
  let r := memReadAll s a (c.e.shard * size)
  let bad := elemsIn a size c.e.shard r.2.1
  let nf := nf || !bad.isEmpty
  if c.e.kind = 1 then gatherLands r.2.2 id c step own 0 (ownLog s) r.1 (unitsOf (c.e.out + own * c.e.shard * size) size bad) nf
  else collElems r.2.2 id c step own 0 s.now (ownLog s) (elemsOf c.e.fmtIn r.1) bad nf

/-- NF of the packets of an instance (R426). -/
def collNf (s : State) (c : Coll) (step src n : Nat) (nfIn : Bool) : Bool :=
  c.e.grad && (nfIn || anySpecial c.e.fmtIn (memRead s src n).data || s.mail.colls.any fun p => p.2.nfSteps.contains step)

/-- MCOLL starts: its windows, its own shard, and the notice at once for an instance that has closed before. -/
def startColl (s : State) (id : Nat) (c : Coll) (step tag src : Nat) (nfIn : Bool) : State :=
  let s := drainContribs id s.fab.inq.length s
  let c := (collOf s id).getD c
  let n := axisN s c.e.axis
  let own := memberOf s c.e.axis (ownLog s)
  let size := elemSize c.e.fmtIn
  let total := if c.e.kind = 1 then c.e.shard * size else n * c.e.shard * size
  let nf := collNf s c step src total nfIn
  let so := oldestFor s c step
  let gone := decide (step < so) && (instOf c step).isNone
  let closed := gone || (match instOf c step with | some i => i.closed.isSome | none => false)
  let ws : List CollSend := ((List.range n).filter (· != own)).map fun j =>
    ⟨id, step, j, memberPos s c.e.axis j, nf, c.e.kind == 1, if c.e.kind = 1 then src else src + j * c.e.shard * size, 0, 0, none, false, closed⟩
  let s := { s with mail := { s.mail with sends := s.mail.sends ++ ws } }
  let s := ownShard s id c step src nf
  let mark (i : CollInst) : CollInst := { i with own := true, tag := tag }
  let s := if gone then
      match c.last with
      | some i => if i.step = step then endNotice s id c (mark i)
          else let w := freshWord s
            endNotice w.2 id c { CollInst.start step with own := true, tag := tag, closed := some (w.1.toNat, false, 0) }
      | none => let w := freshWord s
          endNotice w.2 id c { CollInst.start step with own := true, tag := tag, closed := some (w.1.toNat, false, 0) }
    else match collOf s id with
      | some c => setColl s id (putInst { c with oldest := some (oldestFor s c step) } (mark ((instOf c step).getD (CollInst.start step))))
      | none => s
  pumpMail s

/-- MCOLL: the schedule descriptor is checked, the packets of the collective share and the slot in DONE_PH are reserved, and
the instance starts. -/
def execMcoll (t : Tid) (s : State) : Host.Outcome State Fault Refusal :=
  .next (msgHead (pumpDev s) t 5 false fun h s =>
    let a := capS h (wSA h.word)
    match devFault a 64 64 with
    | some k => msgTrap s t h k a
    | none =>
      let r := memRead s a 64
      match r.bad with
      | some u => msgTrap r.s t h cMEM_UNCORRECTABLE u
      | none =>
        let s := r.s
        let id := leAt r.data 0 1
        let flags := leAt r.data 1 1
        let step := leAt r.data 4 4
        let src := leAt r.data 8 8
        match collOf s id with
        | none => msgTrap s t h cPH_UNCONFIGURED 0
        | some c =>
          let n := axisN s c.e.axis
          let len := (if c.e.kind = 1 then 1 else n) * c.e.shard * elemSize c.e.fmtIn
          let so := oldestFor s c step
          let again : Bool := match instOf c step with | some i => i.own | none => false
          if 1 < flags ∨ leAt r.data 16 48 ≠ 0 ∨ again = true then msgTrap s t h 0x66 0
          else if !mappedRange src len then msgTrap s t h cADDR_UNMAPPED src
          else if so + 2 ≤ step ∨ 8192 < 64 * (s.mail.sends.length + (n - 1)) then .error (waitInfo 3 id)
          else match reserve s c.e.donePh [fromDevice] 0 with
            | none => .error (waitInfo 3 id)
            | some s => .ok (msgDone (startColl s id c step (leAt r.data 2 2) src (bit flags 0)) t h))

end Sys2Proof.Machine
end

