-- ==== Sys2Proof/Machine/Control.lean ====
section
/-!
DEFINITION. The meanings of issue and of the control, token and system classes (spec 03 R85, R109 to R112, R117), and of the
start and the end of a task (R81, R109, R119, R120, R126).
-/
namespace Sys2Proof.Machine

/-- An illegal word is decoded: the task traps before issue (R117). A legal word is not this event. -/
def execIllegal (t : Tid) (w : Word) (s : State) : Host.Outcome State Fault Refusal :=
  .next (coreStep s t w [] fun s x =>
    if legal (featureEff s) w then s else trap s t 0 cILLEGAL x.pc w.toNat)

/-- The s registers that a queued instruction takes at issue (R85). -/
def issueRegs (w : Word) : List Nat :=
  match wMaj w with
  | 0x10 => if wMin w = 0 then [wSA w, wSB w, wf w 33 28, wf w 27 22] else [wSA w]
  | 0x18 => [wSS w]
  | 0x19 => [wmSX w, wmSY w, wmSH w]
  | 0x1A => [wSS w]
  | 0x20 => [wsSX w, wsSY w, wsSZ w, wsSW w]
  | 0x21 => [wsSX w, wsSY w, wsSZ w, wsSW w]
  | 0x28 => [wSA w, wSB w]
  | _ => [wSA w]

/-- The control core issues an instruction into its engine queue in the cycle in which the queue has a free entry; it takes
its s-register operands now (R85). After RDSP the core stalls until the vector queue returns the value (R87). -/
def execQueueIssue (t : Tid) (w : Word) (s : State) : Host.Outcome State Fault Refusal :=
  .next (coreStep s t w (issueRegs w) fun s x =>
    match queueOf w with
    | none => s
    | some e =>
      if !legal (featureEff s) w || decide (e.depth ≤ (getQueue x e).length) then s
      else
        let rd := wMaj w == 0x32 && wMin w == 2
        if rd && isPending x (wSD w) then s else
        let q : QEntry := ⟨w, x.pc, x.s, x.issued, none, false, none⟩
        advance (s.setTile t { setQueue x e (getQueue x e ++ [q]) with rdspWait := rd, issued := x.issued + 1 }) t)

def execNop (t : Tid) (s : State) : Host.Outcome State Fault Refusal :=
  .next (coreStep s t (ctWord 0x30 0 0 0 0 0 0) [] fun s _ => advance s t)

/-- HALT stops issue; the task ends at HALT_COMPLETE (R109). -/
def execHalt (t : Tid) (s : State) : Host.Outcome State Fault Refusal :=
  .next (coreStep s t (ctWord 0x30 1 0 0 0 0 0) [] fun s x => s.setTile t { x with halting := true, haltPc := x.pc })

/-- ABORT: PROGRAM_ABORT with s(SA) (R109). -/
def execAbort (t : Tid) (sa : SReg) (s : State) : Host.Outcome State Fault Refusal :=
  .next (coreStep s t (ctWord 0x30 2 0 sa.val 0 0 0) [sa.val] fun s x => trap s t 0 cPROGRAM_ABORT x.pc (readS x sa.val).toNat)

/-- BRK: BREAK with IMM24 (R109). -/
def execBrk (t : Tid) (imm : BitVec 24) (s : State) : Host.Outcome State Fault Refusal :=
  .next (coreStep s t (ctWord 0x30 3 0 0 0 0 imm.toNat) [] fun s x => trap s t 0 cBREAK x.pc imm.toNat)

/-- A queue of the tile is empty and its effects are visible (R109). -/
def scopeDone (x : Tile) (i : Nat) : Bool :=
  match i with
  | 0 => x.mat.queue.isEmpty && x.mat.run.isEmpty
  | 1 => x.vec.queue.isEmpty && x.vec.out.isEmpty && x.vec.win.isNone && x.vec.redo.isEmpty
  | 2 => x.str.queue.isEmpty && x.str.run.isEmpty
  | 3 => x.msg.queue.isEmpty
  | _ => storesDone x

/-- FENCE: the core waits until every named scope is complete (R109). A FENCE that names none is illegal. -/
def execFence (t : Tid) (scopes : BitVec 5) (s : State) : Host.Outcome State Fault Refusal :=
  .next (coreStep s t (ctWord 0x30 4 0 0 0 0 scopes.toNat) [] fun s x =>
    if scopes = 0 then trap s t 0 cILLEGAL x.pc (ctWord 0x30 4 0 0 0 0 0).toNat
    else if (List.range 5).all fun i => !scopes.getLsbD i || scopeDone x i then advance s t
    else s)

/-- A signal of the core: applied at once when its earlier stores are visible, else when they are (R89). -/
def coreSignal (t : Tid) (w : Word) (n k : Nat) (s : State) : State :=
  coreStep s t w [] fun s x =>
    let s1 := advance s t
    if storesDone x then tkAdd s1 t n k 0 x.pc
    else s1.onTile t fun y => { y with ops := y.ops ++ [⟨x.pc, y.issued, 0, 0, 0, .signal n k⟩], issued := y.issued + 1 }

def execTksig (t : Tid) (tk : Fin 16) (s : State) : Host.Outcome State Fault Refusal :=
  .next (coreSignal t (ctWord 0x31 0 0 0 0 tk.val 0) tk.val 1 s)

def execTkadd (t : Tid) (tk : Fin 16) (n : BitVec 16) (s : State) : Host.Outcome State Fault Refusal :=
  .next (coreSignal t (ctWord 0x31 2 0 0 0 tk.val n.toNat) tk.val n.toNat s)

/-- The core waits until counter tk is at least n, then subtracts n (R110, R92). While it waits it executes nothing else. -/
def coreWaitOp (t : Tid) (w : Word) (tk n : Nat) (s : State) : State :=
  let x := s.tile t
  match x.coreWait with
  | none =>
    coreStep s t w [] fun s x =>
      if waitServed s t tk n none then advance (s.setTile t (tkSub x tk n)) t
      else s.setTile t { x with coreWait := some (s.now, tk, n) }
  | some (f, tk', n') =>
    if isLive s t && clkRuns s t && fetched x == w && tk' == tk && n' == n && waitServed s t tk n (some f) then
      advance (s.setTile t { tkSub x tk n with coreWait := none }) t
    else s

def execTkwait (t : Tid) (tk : Fin 16) (s : State) : Host.Outcome State Fault Refusal :=
  .next (coreWaitOp t (ctWord 0x31 1 0 0 0 tk.val 0) tk.val 1 s)

/-- TKWAITN; n = 0 is illegal (R110). -/
def execTkwaitn (t : Tid) (tk : Fin 16) (n : BitVec 16) (s : State) : Host.Outcome State Fault Refusal :=
  .next (
    let w := ctWord 0x31 4 0 0 0 tk.val n.toNat
    if n = 0 then coreStep s t w [] fun s x => trap s t 0 cILLEGAL x.pc w.toNat
    else coreWaitOp t w tk.val n.toNat s)

def execTkrd (t : Tid) (sd : SReg) (tk : Fin 16) (s : State) : Host.Outcome State Fault Refusal :=
  .next (coreWrite s t (ctWord 0x31 3 sd.val 0 0 tk.val 0) [] sd.val fun x => BitVec.ofNat 64 (tkCount x tk.val))

def execTkclr (t : Tid) (tk : Fin 16) (s : State) : Host.Outcome State Fault Refusal :=
  .next (coreStep s t (ctWord 0x31 5 0 0 0 tk.val 0) [] fun s x => advance (s.setTile t (setTk x tk.val [])) t)

/-- RDSYS GRID_POS: the logical position, 0x7F7F before discovery completes (R112). -/
def gridPos (s : State) : Nat := getF s fOPT_POS_LROW + 256 * getF s fOPT_POS_LCOL

/-- The system registers of R112. -/
def sysReg (s : State) (t : Nat) (n : Nat) : Nat :=
  match n with
  | 0 => t + (t % 64 / 16) * 256 + (t / 64) * 1024
  | 1 => s.now
  | 2 => cyclesOf s t
  | 3 => featureEff s
  | 4 => getF s (fPKG_DIE_FEATURE_FEATURES (dieOf t))
  | 5 => getF s (fPKG_DIE_STATUS_STEPPING (dieOf t))
  | 6 => s.load.jobId
  | 7 => gridPos s
  | _ => waitLimit s t

/-- RDSYS; a SYS value that R112 does not give to RDSYS is illegal. -/
def execRdsys (t : Tid) (sd : SReg) (sys : BitVec 12) (s : State) : Host.Outcome State Fault Refusal :=
  .next (coreStep s t (ctWord 0x32 0 sd.val 0 sys.toNat 0 0) [sd.val] fun s x =>
    if sys.toNat ≤ 8 then advance (s.setTile t (writeS x sd.val (BitVec.ofNat 64 (sysReg s t sys.toNat)))) t
    else trap s t 0 cILLEGAL x.pc (ctWord 0x32 0 sd.val 0 sys.toNat 0 0).toNat)

/-! ### START, HALT and HOST_ABORT -/

/-- Is START accepted (R126)? -/
def startOk (s : State) (t : Nat) : Bool :=
  let size := getF s (fTILE_START_WIN_SIZE t) * 4096
  let base := getF s (fTILE_START_WIN_BASE t) * 4096
  let entry := getF s (fTILE_START_ENTRY_ENTRY t)
  let st := tileState s t
  (st == .idle || st == .halted || st == .aborted) && decide (4096 ≤ size) && decide (size ≤ 64 * 4096) &&
  decide (base + size ≤ ocSize) && entry % 8 == 0 && decide (entry < size) &&
  !(getF s fHST_LOAD_STATUS_STATE == 1 && s.load.targets.contains t)

/-- What TILE_VEC_REFEN reports of a task that is started (R201): 3 for a recovery replay of the Postmaster, 2 where the last image was
accepted with FLAGS[1] in test mode. -/
def startReason (s : State) (replay : Bool) : Nat :=
  if replay && bitF s fPM_STATUS_FW_RUNNING then 3 else if s.load.refpers then 2 else 0

/-- Start the task that the TILE_START registers name, and wake its cluster (R508). -/
def startFromRegs (s : State) (t : Nat) (replay : Bool) : State :=
  wakeForStart (startTask s t (getF s (fTILE_START_WIN_BASE t) * 4096) (getF s (fTILE_START_WIN_SIZE t) * 4096)
    (getF s (fTILE_START_ENTRY_ENTRY t)) (getF s (fTILE_START_ARG0_ARG t)) (getF s (fTILE_START_ARG1_ARG t))
    (startReason s replay)) t

/-- A write of TILE_CTL with START = 1; `both` says that ABORT is 1 too, which is ignored and rejected (R126). A tile of a die
that is not UP ignores it (R484). `replay`: the Postmaster writes it, and starts the task as a recovery replay (R201). -/
def execStart (t : Tid) (how : StartWrite) (s : State) : Host.Outcome State Fault Refusal :=
  .next (if !dieUp s (dieOf t) then s
    else if !how.both && startOk s t then startFromRegs s t how.replay else setF s (fTILE_STATUS_START_REJ t) 1)

/-- A write of TILE_CTL with ABORT = 1 alone: HOST_ABORT, ignored unless the tile is RUNNING (R118, R119). -/
def execHostAbort (t : Tid) (s : State) : Host.Outcome State Fault Refusal :=
  .next (if isRunning s t then wakeEvent (trap s t 0 cHOST_ABORT (s.tile t).pc 0) (clusterOf t) else s)

/-- Every queue of the tile is empty and every effect is visible (R109): the four instruction queues, the deferral and
optimizer fill queues, the engines' running work and the core's outstanding accesses. -/
def quiet (x : Tile) : Bool :=
  (List.range 5).all (scopeDone x) && x.ops.isEmpty && x.fill.defer.isEmpty && x.fill.opt.isEmpty && x.fill.move.isNone

/-- After HALT, once everything is done, the task ends, the tile enters HALTED and the notice is posted (R109, R120). -/
def execHaltComplete (t : Tid) (s : State) : Host.Outcome State Fault Refusal :=
  .next (
    let x := s.tile t
    if isLive s t && x.halting && quiet x then
      let cyc := cyclesOf s t
      let s := taskEnd s t 0 0 false cyc
      let s := s.onTile t fun x => { x with phase := .halted, halting := false }
      postNotice s t (noticePayload t 0 0 x.haltPc 0 s.now cyc false false)
    else s)

end Sys2Proof.Machine
end

