-- ==== Sys2Proof/Machine/Discovery.lean ====
section
/-!
DEFINITION. Discovery (spec 11 R380 to R385): the sweep, beacons, the module's position, its peers and its twin.
-/
namespace Sys2Proof.Machine

/-- A sweep runs: DSTATE SWEEP or POSITIONED. -/
def sweeping (s : State) : Bool := s.fab.disc.isSome && (getF s fOPT_FAB_STATUS_DSTATE == 1 || getF s fOPT_FAB_STATUS_DSTATE == 2)

def discPort (s : State) (p : Nat) : DiscPort := mget (fun _ => DiscPort.start) s.fab.discPorts p

def setDiscPort (s : State) (p : Nat) (d : DiscPort) : State :=
  { s with fab := { s.fab with discPorts := mset (fun _ => DiscPort.start) s.fab.discPorts p d } }

/-- OPT_FAB_CTL.DISC_START: discovery starts afresh; ignored before READY (R538) and while CMP_PHASE.VALID is 1 (R383). -/
def execDiscStart (s : State) : Host.Outcome State Fault Refusal :=
  .next (if getF s fPM_STATUS_STAGE ≠ 6 ∨ bitF s fCMP_PHASE_VALID then s else
    let ports := List.range 16
    let s := setFs s [(fOPT_FAB_STATUS_DSTATE, 1), (fOPT_FAB_STATUS_SPARE, 0), (fOPT_FAB_STATUS_SUBST, 0),
      (fOPT_POS_ROW, 0x7F), (fOPT_POS_COL, 0x7F), (fOPT_POS_LROW, 0x7F), (fOPT_POS_LCOL, 0x7F),
      (fOPT_TWIN_VIA_FABRIC, 0), (fOPT_TWIN_TSTATE, 3), (fOPT_TWIN_COL, 0x7F), (fOPT_TWIN_ROW, 0x7F)]
    let s := setFs s (ports.flatMap fun p => [(fOPT_PORT_SELF p, 0x7F), (fOPT_PORT_PSTATE p, pSWEEP),
      (fOPT_PEERS_LO_PEERS p, 0), (fOPT_PEERS_HI_PEER64 p, 0)])
    let s := (List.range 17).foldl (fun s p => (List.range 32).foldl (fun s l =>
      let r := laneRt s p l
      setLaneState (setLane s p l { r with
        byte := 0x7F, tgt := none, moved := false, identity := false, holdFrom := none, beaconAt := none
        txPart := [], txUnits := [], sinceHead := 0 }) p l lOFF) s) s
    let d : Disc := ⟨s.now, getF s fOPT_FAB_CTL_WINDOW_MS, false⟩
    { s with fab := { s.fab with disc := some d, discPorts := [], map := none, redraw := none, syncLinks := [] } })

/-- OPT_FAB_CTL.DISC_CLOSE ends the sweep, no sooner than t0 + 24 ms (R383). -/
def execDiscClose (s : State) : Host.Outcome State Fault Refusal :=
  .next (if sweeping s then
      { s with fab := { s.fab with disc := s.fab.disc.map fun d => { d with close := true } } }
    else s)

/-- Rings that took a line set at `at_`, or at the start of discovery, have held it for n ns. -/
def heldFor (s : State) (at_ n : Nat) : Bool :=
  match s.fab.disc with
  | some d => decide (max at_ d.t0 + n ≤ s.now)
  | none => false

/-- The modulator rings (`tx`) or the drop rings of a port move to the next line set, A, B, C in turn, after 1 ms or 4 ms on the one they
hold (R380). -/
def execDiscSweepSet (p : Port) (tx : Bool) (s : State) : Host.Outcome State Fault Refusal :=
  .next (
    let d := discPort s p.val
    if !sweeping s then s
    else if tx then
      if heldFor s d.txAt 1000000 then setDiscPort s p.val { d with txSet := (d.txSet + 1) % 3, txAt := s.now } else s
    else if heldFor s d.rxAt 4000000 then setDiscPort s p.val { d with rxSet := (d.rxSet + 1) % 3, rxAt := s.now }
    else s)

/-- The number of lanes that a line set tunes: A and B have 22 lines, C has 21. -/
def setWidth (n : Nat) : Nat := if n = 2 then 21 else 22

/-- The HEARD bitmap of a port. -/
def heardMap (s : State) (p : Nat) : Nat := (discPort s p).peers.foldl (fun a x => setBit a x.index) 0

/-- A beacon (R381) of a lane of a port, or of the twin port 16. SELF is the index that the port found for itself, on a port without one
that of the module's position. -/
def beaconBody (s : State) (e l : Nat) : List Byte :=
  let role := if e = 16 then 2 else portRole s e
  let own := getF s (fOPT_PORT_SELF e)
  let self := if e = 16 ∨ getF s fOPT_FAB_STATUS_DSTATE < 2 then 0x7F else if own = 0x7F then ownIndex s role else own
  let heard := if e = 16 then 0 else heardMap s e
  let st := getF s fOPT_FAB_STATUS_DSTATE + 8 * getF s fOPT_FAB_STATUS_DEGRADED
  let known := decide (2 ≤ getF s fOPT_FAB_STATUS_DSTATE)
  let row := if known then getF s fOPT_POS_ROW else 0x7F
  let col := if known then getF s fOPT_POS_COL else 0x7F
  let b := toBytes 4 0x4E434245 ++ toBytes 1 1 ++ toBytes 1 e ++ toBytes 1 role ++ toBytes 1 (getF s fOPT_FAB_STATUS_SPLIT) ++
    toBytes 8 (getF s fOPT_SERIAL_SERIAL) ++ toBytes 1 self ++ toBytes 1 row ++ toBytes 1 col ++ toBytes 1 st ++
    toBytes 4 (laneRt s e l).beacons ++ toBytes 9 heard ++ toBytes 27 0
  b ++ toBytes 4 (crc32 b)

/-- A lane tuned to a line sends a beacon every 10 µs; the twin port uses lane 0 (R380, R384). -/
def execBeaconSend (e : Eng) (l : Lane) (s : State) : Host.Outcome State Fault Refusal :=
  .next (
    let due : Bool := match (laneRt s e.val l.val).beaconAt with | none => true | some t => decide (t + 10000 ≤ s.now)
    if sweeping s && due && decide (if e.val = 16 then l.val = 0 else l.val < setWidth (discPort s e.val).txSet) then
      let s1 := sendUnit s e.val l.val 4 0 (beaconBody s e.val l.val)
      onLane s1 e.val l.val fun r => { r with beacons := (r.beacons + 1) % 2 ^ 32, beaconAt := some s.now }
    else s)

/-- The ports of a role. -/
def rolePorts (s : State) (role : Nat) : List Nat := (List.range 16).filter fun p => portRole s p == role

/-- The self index that more than half of the ports of a role report (R382). -/
def majority (s : State) (role : Nat) : Option Nat :=
  let l := rolePorts s role
  (l.map fun p => getF s (fOPT_PORT_SELF p)).find? fun v =>
    v != 0x7F && decide (l.length < 2 * (l.filter fun p => getF s (fOPT_PORT_SELF p) == v).length)

/-- Mark a port of a sweep (R382); the first mark of a discovery stays. -/
def markPort (s : State) (p v : Nat) : State :=
  if getF s (fOPT_PORT_PSTATE p) = pSWEEP then setF s (fOPT_PORT_PSTATE p) v else s

/-- Mark the ports whose self index differs from the majority of their role. -/
def markMiscabled (s : State) : State :=
  (List.range 16).foldl (fun s p =>
    match majority s (portRole s p) with
    | some m => if getF s (fOPT_PORT_SELF p) ≠ 0x7F ∧ getF s (fOPT_PORT_SELF p) ≠ m then
        raise (markPort s p pMISCABLED) fOPT_FAB_ERR_MISCABLED else s
    | none => s) s

/-- Once both coordinates have a majority the module is POSITIONED (R383). -/
def findPosition (s : State) : State :=
  let s := markMiscabled s
  match majority s 0, majority s 1 with
  | some c, some r =>
    if getF s fOPT_FAB_STATUS_DSTATE = 1 then
      setFs s [(fOPT_FAB_STATUS_DSTATE, 2), (fOPT_POS_COL, c), (fOPT_POS_ROW, r)] else s
  | _, _ => s

/-- The twin state of R384 for a partner heard at (row, col). -/
def twinState (s : State) : Nat :=
  let r := getF s fOPT_POS_ROW
  let c := getF s fOPT_POS_COL
  let pr := getF s fOPT_TWIN_ROW
  let pc := getF s fOPT_TWIN_COL
  let heard := match s.fab.disc with | some _ => !(mget (fun _ => DiscPort.start) s.fab.discPorts 16).peers.isEmpty | none => false
  if r = 64 then (if heard then 2 else 0)
  else if !heard then 3
  else if pr = 63 - r ∧ pc = c then 1 else 2

/-- Set the twin state; MISMATCH is reported (R384). -/
def setTwin (s : State) : State :=
  let v := twinState s
  let s1 := setF s fOPT_TWIN_TSTATE v
  raiseIf (v == 2) s1 fOPT_FAB_ERR_TWIN_MISMATCH

/-- A peer heard on a port: its index, and whether it hears this module; a second claimant of an index is a conflict. -/
def hearPeer (s : State) (p serial index heard : Nat) : State :=
  let d := discPort s p
  let own := getF s (fOPT_PORT_SELF p)
  let conflict := index == own || d.peers.any fun x => x.index == index && x.serial != serial
  let hears := decide (own < 65) && bit heard own
  let rest := d.peers.filter fun x => x.serial != serial || x.index != index
  let s := setDiscPort s p { d with
    peers := rest ++ [⟨serial, index, hears⟩]
    conflict := if conflict && !d.conflict.contains index then d.conflict ++ [index] else d.conflict }
  raiseIf conflict s fOPT_FAB_ERR_POSITION_CONFLICT

/-- A good beacon on a lane during the sweep. -/
def hearBeacon (s : State) (e l : Nat) (b : List Byte) : State :=
  let serial := leAt b 8 8
  if e = 16 then
    let s := setFs s [(fOPT_TWIN_ROW, leAt b 0x11 1), (fOPT_TWIN_COL, leAt b 0x12 1)]
    setDiscPort s 16 { DiscPort.start with peers := [⟨serial, 0, false⟩] }
  else if serial = getF s fOPT_SERIAL_SERIAL then
    if leAt b 5 1 = e then
      findPosition (setF s (fOPT_PORT_SELF e) (33 * (22 * (discPort s e).rxSet + l) % 65))
    else s
  else
    let bad := decide (leAt b 7 1 ≠ getF s fOPT_FAB_STATUS_SPLIT) || decide (leAt b 6 1 ≠ portRole s e)
    let s := if bad then raise (markPort s e pSPLITMISMATCH) fOPT_FAB_ERR_SPLIT_MISMATCH else s
    if leAt b 0x10 1 ≤ 64 then hearPeer s e serial (leAt b 0x10 1) (leAt b 0x18 9) else s

/-- The oldest unit of a lane of a type, taken from the lane. -/
def takeUnit (s : State) (e l ty : Nat) : Option (LinkUnit × State) :=
  let r := laneRt s e l
  match firstIdx (fun u : LinkUnit => u.utype == ty) r.units with
  | none => none
  | some i =>
    match r.units[i]? with
    | none => none
    | some u => some (u, setLane s e l { r with units := removeAt r.units i })

/-- A BEACON unit of a lane is checked (R381): a wrong MAGIC, VERSION or CRC discards and counts it. -/
def execBeacon (e : Eng) (l : Lane) (s : State) : Host.Outcome State Fault Refusal :=
  .next (match takeUnit s e.val l.val 4 with
    | none => s
    | some (u, s) =>
      let b := u.body.take 64
      if b.length < 64 ∨ leAt b 0 4 ≠ 0x4E434245 ∨ leAt b 4 1 ≠ 1 ∨ crc32 (b.take 60) ≠ leAt b 60 4 then
        addF s (fOPT_FAB_EVENT_COUNT 7) 1
      else if sweeping s then
        let s := hearBeacon s e.val l.val b
        if 2 ≤ getF s fOPT_FAB_STATUS_DSTATE then setTwin s else s
      else s)

/-- The peers that a port confirms at the end (R383): heard, hearing this module, and in no conflict. -/
def confirmed (d : DiscPort) : Nat :=
  ((d.peers.filter fun x => x.hearsMe && !d.conflict.contains x.index).map (·.index)).foldl setBit 0

/-- The sweep stops: every port is DOWN or keeps its mark, and a port without a self index is NO_ECHO (R382). -/
def stopSweep (s : State) : State :=
  (List.range 16).foldl (fun s p =>
    if getF s (fOPT_PORT_PSTATE p) = pSWEEP then
      setF s (fOPT_PORT_PSTATE p) (if getF s (fOPT_PORT_SELF p) = 0x7F then pNOECHO else pDOWN)
    else s) s

/-- The lanes of the twin port at the end of discovery: in service where the twin state is OK, off otherwise (assumption log 90). -/
def twinLanes (s : State) : State :=
  let v := if getF s fOPT_TWIN_TSTATE = 1 then lINSERVICE else lOFF
  (List.range 32).foldl (fun s l => setLaneState s 16 l v) { s with fab := { s.fab with twinHeard := some s.now } }

/-- The sweep stops at t0 + WINDOW_MS, or at a close from t0 + 24 ms on, and discovery ends COMPLETE or FAILED (R383). R and C
of the installation come with the event (assumption log 17). -/
def execDiscEnd (halfRows : Fin 24) (cols : Fin 48) (s : State) : Host.Outcome State Fault Refusal :=
  .next (match s.fab.disc with
    | none => s
    | some d =>
      if !sweeping s || !(decide (d.t0 + d.window * 1000000 ≤ s.now) || (d.close && decide (d.t0 + 24000000 ≤ s.now))) then s else
      let s := { s with fab := { s.fab with shape := (18 + 2 * halfRows.val, 17 + cols.val) } }
      let reached := getF s fOPT_FAB_STATUS_DSTATE
      let s := stopSweep s
      let s := setFs s ((List.range 16).flatMap fun p =>
        [(fOPT_PEERS_LO_PEERS p, confirmed (discPort s p) % 2 ^ 64),
         (fOPT_PEERS_HI_PEER64 p, confirmed (discPort s p) / 2 ^ 64 % 2)])
      if reached = 2 ∧ isInstalled s (getF s fOPT_POS_ROW) (getF s fOPT_POS_COL) then
        let s := twinLanes (setTwin (setF s fOPT_FAB_STATUS_DSTATE 3))
        let s := placeModule s
        { s with fab := { s.fab with disc := none, syncAt := some s.now, syncFirst := true } }
      else
        let s := raise (setF s fOPT_FAB_STATUS_DSTATE 4) fOPT_FAB_ERR_DISC_FAILED
        let err := (List.range 9).foldl (fun a i => a + getF s ⟨fOPT_FAB_ERR_DISC_FAILED.off, i, i⟩ * 2 ^ i) 0
        let s := postEvent s 0x124 2 0xA 0 reached err
        { s with fab := { s.fab with disc := none, syncAt := some (s.fab.syncAt.getD s.now) } })

end Sys2Proof.Machine
end

