-- ==== Sys2Proof/Machine/Sha.lean ====
section
/-!
DEFINITION. SHA-384 of FIPS 180-4, which the spec names for image and firmware digests (R132, R544, R549) and does not print
(assumption log 19).
-/
namespace Sys2Proof.Machine

/-! ### The constants, from their definition in FIPS 180-4 -/

/-- The greatest number below 2 ^ b whose k-th power does not exceed n, found bit by bit from x. -/
def rootBits (k n : Nat) : Nat → Nat → Nat
  | 0, x => x
  | b + 1, x => rootBits k n b (if (x + 2 ^ b) ^ k ≤ n then x + 2 ^ b else x)

/-- The first 64 bits of the fractional part of the k-th root of p. -/
def rootFraction (k p : Nat) : Word := BitVec.ofNat 64 (rootBits k (p * 2 ^ (64 * k)) 72 0)

/-- The first 80 primes: the numbers up to 409 without a divisor from 2 to 20 below themselves. -/
def shaPrimes : List Nat :=
  (List.range 410).filter fun n => decide (2 ≤ n) && (List.range 21).all fun d => decide (d < 2) || decide (n ≤ d) || n % d != 0

/-- The round constants: cube roots of the first 80 primes. -/
def shaKeys : List Word := shaPrimes.map (rootFraction 3)

/-- The initial hash value of SHA-384: square roots of the 9th to the 16th prime. -/
def sha384Start : List Word := ((shaPrimes.drop 8).take 8).map (rootFraction 2)

/-- A big-endian number of a byte list. -/
def beNat (l : List Byte) : Nat := l.foldl (fun a b => a * 256 + b.toNat) 0

/-- A number as n big-endian bytes. -/
def beBytes : Nat → Nat → List Byte
  | 0, _ => []
  | n + 1, x => beBytes n (x / 256) ++ [BitVec.ofNat 8 x]

/-! ### The compression -/

/-- The XOR of some rotations of a word to the right. -/
def turned (x : Word) (by_ : List Nat) : Word := by_.foldl (fun y n => y ^^^ x.rotateRight n) 0

/-- Extend the schedule, oldest word first, by n words. -/
def extendWords : Nat → List Word → List Word
  | 0, l => l
  | n + 1, l =>
    let back (k : Nat) : Word := l.getD (l.length - k) 0
    let far := turned (back 15) [1, 8] ^^^ back 15 >>> 7
    let near := turned (back 2) [19, 61] ^^^ back 2 >>> 6
    extendWords n (l ++ [near + back 7 + far + back 16])

/-- The working words: the last four of the series a and of the series e, newest first. -/
structure ShaWork where
  a : List Word
  e : List Word

/-- Bit by bit: g, or f where e is 1. -/
def pick (e f g : Word) : Word := g ^^^ e &&& (f ^^^ g)

/-- Bit by bit: what two of three words hold. -/
def most (a b c : Word) : Word := a &&& (b ||| c) ||| b &&& c

/-- A round with its constant and its schedule word: each series gains a word. -/
def shaStep (w : ShaWork) (kw : Word × Word) : ShaWork :=
  let a := fun i => w.a.getD i 0
  let e := fun i => w.e.getD i 0
  let t := kw.1 + kw.2 + e 3 + pick (e 0) (e 1) (e 2) + turned (e 0) [14, 18, 41]
  ⟨(t + most (a 0) (a 1) (a 2) + turned (a 0) [28, 34, 39]) :: w.a.take 3, (a 3 + t) :: w.e.take 3⟩

/-- Absorb one 128-byte block into the hash value. -/
def absorb (h : List Word) (block : List Byte) : List Word :=
  let given := (List.range 16).map fun i => BitVec.ofNat 64 (beNat ((block.drop (8 * i)).take 8))
  let w := (shaKeys.zip (extendWords 64 given)).foldl shaStep ⟨h.take 4, h.drop 4⟩
  (h.zip (w.a ++ w.e)).map fun p => p.1 + p.2

/-- SHA-384 of a byte string: a 1 bit, zeros and the length in bits fill the last block. -/
def sha384 (m : List Byte) : List Byte :=
  let zeros := (239 - m.length % 128) % 128
  let filled := m ++ 0x80 :: (List.replicate zeros 0 ++ beBytes 16 (8 * m.length))
  let h := (List.range (filled.length / 128)).foldl (fun h i => absorb h ((filled.drop (128 * i)).take 128)) sha384Start
  (h.take 6).flatMap fun x => beBytes 8 x.toNat

end Sys2Proof.Machine
end

