-- ==== Sys2Proof/Machine/Ecdsa.lean ====
section
/-!
DEFINITION. Verification of an ECDSA P-384 signature over a SHA-384 digest (R544), by FIPS 186 (assumption log 19).
-/
namespace Sys2Proof.Machine

/-- The field prime of P-384. -/
def p384 : Nat := 2 ^ 384 - 2 ^ 128 - 2 ^ 96 + 2 ^ 32 - 1

/-- The order of its base point. -/
def n384 : Nat :=
  0xffffffffffffffffffffffffffffffffffffffffffffffffc7634d81f4372ddf581a0db248b0a77aecec196accc52973

/-- The coefficient b of its curve y² = x³ − 3x + b. -/
def b384 : Nat :=
  0xb3312fa7e23ee7e4988e056be3f82d19181d9c6efe8141120314088f5013875ac656398d8a2ed19d2a85c8edd3ec2aef

/-- Its base point. -/
def g384 : Nat × Nat :=
  (0xaa87ca22be8b05378eb1c71ef320ad746e1d3b628ba79b9859f741e082542a385502f25dbf55296c3a545e3872760ab7,
   0x3617de4a96262c6f5d9e98bf9292dc29f8f41dbd289a147ce9da3113b5f0b8c00a60b1ce1d7e819d7a431d7c90ea0e5f)

/-- b to the n-bit power e modulo m. -/
def powMod (m b : Nat) : Nat → Nat → Nat
  | 0, _ => 1
  | n + 1, e =>
    let h := powMod m b n (e / 2)
    if e % 2 = 1 then h * h % m * b % m else h * h % m

/-- The inverse of a modulo a prime m. -/
def invMod (m a : Nat) : Nat := powMod m (a % m) 384 (m - 2)

/-- Subtraction modulo p384. -/
def subMod (a b : Nat) : Nat := (a + p384 - b % p384) % p384

/-- Addition of points; none is the point at infinity. -/
def ecAdd : Option (Nat × Nat) → Option (Nat × Nat) → Option (Nat × Nat)
  | none, q => q
  | p, none => p
  | some (x1, y1), some (x2, y2) =>
    if x1 = x2 ∧ (y1 + y2) % p384 = 0 then none
    else
      let k := if x1 = x2 then (3 * x1 * x1 + p384 - 3) * invMod p384 (2 * y1) % p384
        else subMod y2 y1 * invMod p384 (subMod x2 x1) % p384
      let x := subMod (subMod (k * k) x1) x2
      some (x, subMod (k * subMod x1 x) y1)

/-- The multiple of a point by an n-bit number. -/
def ecMul (q : Option (Nat × Nat)) : Nat → Nat → Option (Nat × Nat)
  | 0, _ => none
  | n + 1, k =>
    let h := ecMul q n (k / 2)
    let d := ecAdd h h
    if k % 2 = 1 then ecAdd d q else d

/-- A point of the curve. -/
def onCurve (x y : Nat) : Bool :=
  decide (x < p384) && decide (y < p384) && decide (y * y % p384 = subMod (x * x * x + b384) (3 * x))

/-- Does the signature (r, s), 96 big-endian bytes, verify over `msg` with the 97-byte uncompressed public key? -/
def ecdsaVerify (key msg sig : List Byte) : Bool :=
  let x := beNat ((key.drop 1).take 48)
  let y := beNat ((key.drop 49).take 48)
  let r := beNat (sig.take 48)
  let s := beNat ((sig.drop 48).take 48)
  if key.head? != some 0x04 || key.length != 97 || !onCurve x y || r == 0 || s == 0 || decide (n384 ≤ r) || decide (n384 ≤ s) then false
  else
    let w := invMod n384 s
    let e := beNat (sha384 msg)
    match ecAdd (ecMul (some g384) 384 (e * w % n384)) (ecMul (some (x, y)) 384 (r * w % n384)) with
    | none => false
    | some (px, _) => px % n384 == r

end Sys2Proof.Machine
end

