-- ==== Sys2Proof/Machine/PowerOps.lean ====
section
/-!
DEFINITION. The shared operations of the power and thermal loops (spec 16): the frequency code, override episodes, turning the rails
off. Temperatures are integers in 0.125 °C, power is in mW.
-/
namespace Sys2Proof.Machine

/-- A temperature in °C as sensors report it. -/
def degC (t : Int) : Int := 8 * t

def dieLoop (s : State) (d : Nat) : DieLoop := mget (fun _ => DieLoop.start) s.pwr.dies d

def setLoop (s : State) (d : Nat) (x : DieLoop) : State :=
  { s with pwr := { s.pwr with dies := mset (fun _ => DieLoop.start) s.pwr.dies d x } }

/-- The rail setpoint of FCODE k in µV (R514). -/
def setpoint (k : Nat) : Nat := 550000 + 12500 * k

/-- choice(d) of R516. -/
def choiceOf (s : State) (d : Nat) : Nat :=
  if bitF s (fCLK_DVFS_PIN_EN d) then getF s (fCLK_DVFS_PIN_FCODE d) else getF s (fCLK_DIE_CHOICE d)

/-- curr_ceiling: every CLK_DIE_d.CURR reports it. -/
def currCeil (s : State) : Nat := getF s (fCLK_DIE_CURR 0)

def setCurrCeil (s : State) (v : Nat) : State := (List.range 4).foldl (fun s d => setF s (fCLK_DIE_CURR d) v) s

/-- fcode(d) of R516. -/
def fcodeOf (s : State) (d : Nat) : Nat := min (choiceOf s d) (min (getF s (fCLK_DIE_THERM d)) (currCeil s))

/-- The FCODE in force changes (R514, R515): the cycle counters of the die's tiles go on at the new rate. -/
def setFcode (s : State) (d k : Nat) : State :=
  let f := tileMHz s d
  let s := (dieTiles d).foldl (fun s t =>
    if isRunning s t then s.onTile t fun x => { x with cycBase := x.cycBase + (s.now - x.cycSince) * f, cycSince := s.now } else s) s
  setF s (fCLK_DIE_FCODE d) k

/-- One nanosecond of a die's rail: it moves at 10 mV/µs toward the setpoint of the higher of the FCODE in force and the one that R516 asks
for, so that it rises before the clock does and falls after it (R515). It holds while the die is not UP. -/
def railStep (s : State) (d : Nat) : State :=
  if dieState s d = dUP then
    let x := dieLoop s d
    let goal := setpoint (max (getF s (fCLK_DIE_FCODE d)) (fcodeOf s d))
    if x.uv = goal then s
    else setLoop s d { x with uv := if x.uv < goal then min goal (x.uv + 10) else max goal (x.uv - 10) }
  else s

/-- Pulses of 16 that a cluster removes (R527 to R529, R531): the largest of the removals that act on it (R533), and whether that is its
droop detector's. -/
def removalOf (s : State) (c : Nat) : Nat × Bool :=
  if dieState s (c / 4) = dUP ∧ clusterState s c = kRUN then
    let r := max (dieLoop s (c / 4)).sluice (max s.pwr.removal (if s.pwr.fast then 4 else 0))
    if (clusterRt s c).droop.isSome ∧ r < 8 then (8, true) else (r, false)
  else (0, false)

/-- The pulses removed among the n from number `from_` on, r of every 16 (assumption log 92). -/
def removedIn (from_ n r : Nat) : Nat := ((List.range n).filter fun i => decide ((from_ + i) * r % 16 < r)).length

/-! ### Override episodes (R519) -/

/-- Loop 0 (thermal throttle), 1 (current limit) or 2 (forced GATE) holds object o away from its pinned value: the counter, the
object of the log record, the loop there, and the pinned value. -/
def heldAway (s : State) (loop o : Nat) : Bool :=
  if loop = 0 then bitF s (fCLK_DVFS_PIN_EN o) && decide (getF s (fCLK_DIE_THERM o) < getF s (fCLK_DVFS_PIN_FCODE o))
  else if loop = 1 then bitF s (fCLK_DVFS_PIN_EN o) && decide (currCeil s < getF s (fCLK_DVFS_PIN_FCODE o))
  else getF s (fPKG_CLUSTER_MODE o) == 2 && (clusterRt s o).forced && (clusterRt s o).byLoop && clusterState s o == kGATE

/-- Review one loop and object: an episode starts (counter, PIN_OVERRIDE, log record), goes on, or notes when the loop left the
object at its pinned value. -/
def reviewEpisode (s : State) (loop o : Nat) : State :=
  let is := fun e : Episode => e.loop == loop && e.obj == o
  let rest := s.pwr.eps.filter fun e => !is e
  let cur := s.pwr.eps.find? fun e => is e && (match e.leftAt with | some t => decide (s.now < t + 1000000) | none => true)
  if heldAway s loop o then
    let s := { s with pwr := { s.pwr with eps := ⟨loop, o, none⟩ :: rest } }
    match cur with
    | some _ => s
    | none =>
      let s := raise (satF s (fPWR_CONFLICT_COUNT loop) 1) fPWR_ERR_PIN_OVERRIDE
      if loop = 2 then postEvent s 0x116 1 2 (16 + o) 0 2
      else postEvent s 0x116 1 2 o loop (getF s (fCLK_DVFS_PIN_FCODE o))
  else match cur with
    | some e => { s with pwr := { s.pwr with eps := { e with leftAt := some (e.leftAt.getD s.now) } :: rest } }
    | none => { s with pwr := { s.pwr with eps := rest } }

/-- Review every episode of the module. -/
def reviewEpisodes (s : State) : State :=
  let s := (List.range 4).foldl (fun s d => reviewEpisode (reviewEpisode s 0 d) 1 d) s
  (List.range 16).foldl (fun s c => reviewEpisode s 2 c) s

/-- Review the episodes of forced GATE on the clusters of a die. -/
def reviewGates (s : State) (d : Nat) : State := (List.range 4).foldl (fun s k => reviewEpisode s 2 (4 * d + k)) s

/-! ### Input power -/

/-- The mean of the last n of the 1 µs means, times their number, is above `mw` times it. -/
def meanAbove (s : State) (n mw : Nat) : Bool :=
  let l := s.pwr.power.take n
  let t : Nat := l.foldl (· + ·) 0
  decide (mw * l.length < t)

/-- The temperature of an optical engine, as 8 bits: at 83 °C it is hot (R446). -/
def setEngTemp (s : State) (e v : Nat) : State :=
  let hot := decide (83 ≤ sx 8 (v % 256))
  raiseIf hot (setFs s [(fOPT_ENG_TEMP e, v), (fOPT_ENG_HOT e, hot.toNat)]) fOPT_LINK_ERR_ENG_HOT

/-- Lower curr_ceiling to one below the highest FCODE in force on any UP die (R527). -/
def lowerCurr (s : State) : State :=
  let f : Nat := (List.range 4).foldl (fun a d => if dieUp s d then max a (getF s (fCLK_DIE_FCODE d)) else a) 0
  let s := { s with pwr := { s.pwr with curLowerAt := some s.now } }
  if (List.range 4).any (dieUp s) then reviewEpisodes (setCurrCeil s (f - 1)) else s

/-- An instant at least `gap` ago, or never. -/
def since (s : State) (t : Option Nat) (gap : Nat) : Bool :=
  match t with
  | some t => decide (t + gap ≤ s.now)
  | none => true

/-! ### Rails off (R513, R524, R592, R595, R596) -/

/-- Flash writes under way when the power of the rest of the module goes: one whose program operations had all been issued
completes on the energy of the input capacitance, any other leaves the old contents; which they are is free (R305, R597). -/
def settleFlash (s : State) : State :=
  let s := s.tier.fops.foldl (fun s o => match o.write with
    | none => s
    | some f =>
      let b := freshBool s
      if b.1 then { b.2 with tier := { b.2.tier with flash := mset (fun _ => none) b.2.tier.flash o.n (some f) } } else b.2) s
  { s with tier := { s.tier.kept with useAt := s.now } }

/-- Sources that a swap retired stay off until power-on reset (R450). -/
def keptLasers (m : SMap LaserSrc) : SMap LaserSrc :=
  (m.filter fun x => x.2.stage == 4).map fun x => (x.1, ⟨4, none, false, none⟩)

/-- Every regulator except VAON is off and PWR_GOOD is low (R513). The compute dies stop, and the work in the module, its memories,
its fabric and its engines is lost; the flash tiles, the registers, the always-on domain with the event queue and the log
buffer stay. -/
def railsDown (s : State) : State :=
  let s := settleFlash s
  let s := (List.range 4).foldl (fun s d =>
    if dieState s d = dABSENT then s
    else
      let s := if dieState s d = dUP then setFs s [(fPKG_DIE_STATUS_REASON d, 1), (fPKG_DIE_LOST_AT_TIME d, s.now)] else s
      setF s (fPKG_DIE_STATUS_STATE d) dLOST) s
  { s with
    tiles := [], mem := .reset, devq := [], load := .reset, phases := .reset
    fab := { Fab.reset with lasers := keptLasers s.fab.lasers }
    mail := .reset, upd := .reset, twin := .reset, pkg := .reset
    pwr := { s.pwr with dies := s.pwr.dies.map fun x => (x.1, { x.2 with uv := 0, rot := none, limit := false, sluice := 0, current := 0 }) }
    host := { s.host with link := false, slotReq := [], slotReply := [], slotDone := [] }
    obs := .reset
    pm := { s.pm with boot := .start, job := none, pins := { s.pm.pins with rails := false, good := false } } }

/-- A trip turns the rails off; a start-up that has not reached READY halts (R537). -/
def tripRails (s : State) : State :=
  let st := getF s fPM_STATUS_STAGE
  let trip := decide (0 < st ∧ st < 6)
  let s := railsDown (if trip then setF s fPM_STATUS_STAGE 8 else s)
  { s with pm := { s.pm with boot := { s.pm.boot with tripped := trip } } }

/-- The rails go off by a trip or a shutdown: RAIL_FAULT is logged with a monitor index (R513, R596). -/
def railFault (s : State) (mon kind reading : Nat) : State :=
  postEvent (raise (tripRails s) fPWR_ERR_RAIL_FAULT) 0x113 3 2 mon kind reading

end Sys2Proof.Machine
end

