-- ==== Sys2Proof/Machine/TwinOps.lean ====
section
/-!
DEFINITION. The shadow engine (spec 14): the map's checks, the receiver area, the twin path, reading and writing shadow blocks,
landing, and the agreement.
-/
namespace Sys2Proof.Machine

def onTwin (s : State) (f : TwinSt → TwinSt) : State := { s with twin := f s.twin }

def twState (s : State) : Nat := getF s fTWN_STATUS_STATE
def agreed (s : State) : Nat := getF s fTWN_STEPS_AGREED

/-! ### The map (R459 to R461) -/

/-- The staging window's range (R39, HST_STAGE). -/
def stageBase (s : State) : Nat := 0x10000000000 + 0x1000000000 * getF s fHST_STAGE_QUAD

/-- The length of the receiver area. -/
def rxBytes (i l : Nat) : Nat := (2 * i + 2 * l + 3) * shBlock

/-- A map entry, or none where a reserved bit is set or a field is out of range. -/
def shEntry (b : List Byte) : Option ShadowRange :=
  let w := leAt b 0 8
  let n := leAt b 8 4
  if bits w 62 52 ≠ 0 ∨ leAt b 12 4 ≠ 0 ∨ bits w 51 0 % shBlock ≠ 0 ∨ n = 0 then none else some ⟨bits w 51 0, bit w 63, n⟩

/-- The conditions of R460 on a map. -/
def shMapOk (s : State) (l : List ShadowRange) : Bool :=
  let sum (log : Bool) : Nat := (l.filter fun r => r.log == log).foldl (fun a r => a + r.blocks) 0
  let ranges := l.map fun r => (r.base, r.blocks * shBlock)
  let rx := getF s fTWN_RX_BASE_ADDR
  let n := rxBytes (sum false) (sum true)
  ranges.all (fun r => mappedRange r.1 r.2) && disjoint ranges && decide (sum false ≤ 2 ^ 23) && decide (sum true ≤ 2 ^ 20) &&
  rx % shBlock == 0 && decide (0x10000000000 ≤ rx) && decide (rx + n ≤ 0x20000000000) &&
  ranges.all (fun r => !rangesMeet r.1 r.2 rx n) && !rangesMeet rx n (stageBase s) 0x1000000000 &&
  !bitF s fUPD_STATUS_RES1_V && !bitF s fUPD_STATUS_RES2_V

/-- The receiver area of the loaded map overlaps a window (R460, HST_STAGE). -/
def rxMeets (s : State) (a n : Nat) : Bool :=
  bitF s fTWN_STATUS_MAP_OK && rangesMeet (getF s fTWN_RX_BASE_ADDR) (rxBytes (shCount s false) (shCount s true)) a n

/-- Addresses in the receiver area: IMAGE block i of a bank, the header and LOG block j of a log slot, a step-record slot. -/
def rxImage (s : State) (bank i : Nat) : Nat := getF s fTWN_RX_BASE_ADDR + (bank * shCount s false + i) * shBlock
def rxHeader (s : State) (slot : Nat) : Nat :=
  getF s fTWN_RX_BASE_ADDR + (2 * shCount s false + slot * (shCount s true + 1)) * shBlock
def rxLog (s : State) (slot j : Nat) : Nat := rxHeader s slot + (j + 1) * shBlock
def rxRecord (s : State) (slot : Nat) : Nat :=
  getF s fTWN_RX_BASE_ADDR + (2 * shCount s false + 2 * shCount s true + 2) * shBlock + slot * 32768

/-- The current bit of IMAGE block i. -/
def curBank (s : State) (i : Nat) : Nat := if s.twin.cur.contains i then 1 else 0

/-! ### The path (R385, R458) -/

/-- The twin's physical position (R366, R386). -/
def twinPhys (s : State) : Nat := physOf s (twinPos (ownLog s))

/-- Twin traffic takes the lanes of the map tables and not the twin port (R385). -/
def byFabric (s : State) : Bool := bitF s fOPT_TWIN_VIA_FABRIC

/-- The twin path is up: the twin state is OK, or the traffic runs over the fabric (R458). A module in row 64 has no twin until it is a substitute;
one in column 64 has the one of the mirrored row. -/
def twinUp (s : State) : Bool :=
  discovered s && (posRow (ownPhys s) != 64 || isActive s (ownLog s)) && !s.twin.lost &&
  (if byFabric s then
     !isDead s (twinPhys s) && (match route s (twinPos (ownLog s)) with | some (h, _) => !(lanesTo s h.key).isEmpty | none => false)
   else getF s fOPT_TWIN_TSTATE == 1 && decide (0 < lanesUp s 16))

/-- The module arrives without its twin (R468). -/
def noTwin (s : State) : Bool := getF s fOPT_TWIN_TSTATE == 3 || isDead s (twinPhys s) || s.twin.lost

/-- The module takes part in agreements (R469). -/
def takesPart (s : State) : Bool := bitF s fTWN_CTL_EN && bitF s fTWN_STATUS_MAP_OK && isActive s (ownLog s)

/-! ### Blocks -/

/-- The data of n bytes at an address, the numbers of their units found uncorrectable or poisoned, and the address of the
first one found uncorrectable. -/
def readShadow (s : State) (a n : Nat) : List Byte × List Nat × Option Nat × State :=
  let r := (List.range (n / 64)).foldl (fun (acc : List (List Byte) × List Nat × Option Nat × State) k =>
    let u := readUnit acc.2.2.2 (a / 64 + k) false
    let p := if u.outcome == .poisoned || u.outcome == .uncorrectable then k :: acc.2.1 else acc.2.1
    let f := match acc.2.2.1 with | some x => some x | none => if u.outcome == .uncorrectable then some (a + 64 * k) else none
    (u.data :: acc.1, p, f, u.s)) ([], [], none, s)
  let w := crossRange r.2.2.2 a n
  (r.1.reverse.flatten, r.2.1.reverse ++ w.1.map fun u => u - a / 64, r.2.2.1, w.2)

/-- Write bytes with poisoned units. -/
def writeShadow (s : State) (a : Nat) (data : List Byte) (poison : List Nat) : State :=
  poison.foldl (fun s k => memPoison s (a + 64 * k) 64) (memWrite s a data)

/-- The 64 KiB of a log-slot header (R461). -/
def headerBytes (step : Nat) (nf : Bool) : List Byte :=
  toBytes 4 step ++ toBytes 1 (1 + 2 * nf.toNat) ++ List.replicate 65531 0

/-- The data of an item as this module sends it: its own durable state, with the gradients of R467 over LOG blocks. -/
def itemData (s : State) : ShadowItem → List Byte × List Nat × Option Nat × State
  | .image i => readShadow s (shAddr s false i) shBlock
  | .log _ j =>
    let a := shAddr s true j
    let r := readShadow s a shBlock
    ((s.twin.gdata.filter fun c => decide (a ≤ c.1) && decide (c.1 < a + shBlock)).foldl
      (fun d c => overlay d (c.1 - a) [c.2]) r.1, r.2)
  | .header n nf => (headerBytes n nf, [], none, s)
  | .record _ => (s.twin.record.2, s.twin.recBad, none, s)

/-- The data of an item of a restore: from the current bank, the step-record slot or the log slot (R476). -/
def restoreData (s : State) : ShadowItem → List Byte × List Nat × Option Nat × State
  | .image i => readShadow s (rxImage s (curBank s i) i) shBlock
  | .log n j => readShadow s (rxLog s (n % 2) j) shBlock
  | .header n _ => readShadow s (rxHeader s (n % 2)) shBlock
  | .record n => readShadow s (rxRecord s (n % 2)) 32768

/-- An uncorrectable LPDDR unit in a bank or log slot (R481). -/
def shadowUe (s : State) : Option Nat → State
  | some a => postEvent (raise s fTWN_ERR_SHADOW_UE) 0x131 2 0xC 0 a 0
  | none => s

/-! ### What is owed (R464, R466, R477) -/

/-- A send of an item leaves, and its acknowledgement comes. -/
def noteSend (s : State) (x : ShadowItem) : State := onTwin s fun w => { w with sends := w.sends ++ [(x, s.now)] }
def noteAck (s : State) (x : ShadowItem) : State :=
  onTwin s fun w => { w with sends := match firstIdx (fun y : ShadowItem × Nat => y.1 == x) w.sends with
    | some i => removeAt w.sends i
    | none => w.sends }

/-- The path to the twin is silent (R475): the twin port carried no link unit for 50 µs, or on a fabric path a shadow packet was not
acknowledged within E2E_US. -/
def twinSilent (s : State) : Bool :=
  if byFabric s then s.twin.sends.any fun x => decide (x.2 + 1000 * getF s fCMP_FAB_LIMITS_E2E_US ≤ s.now)
  else match s.fab.twinHeard with
    | some t => decide (t + 50000 ≤ s.now)
    | none => true

/-- Everything is owed: every IMAGE block, every LOG block of the open step, the step record, and the headers of held
resolutions (R477, R480). -/
def shResync (s : State) : State :=
  let c := cmtStep s
  let new (it : ShadowItem) : ShadowOwed := ⟨it, true, 0, false, false⟩
  let heads := (if bitF s fUPD_STATUS_RES1_V then [new (.header (c + 1) (bitF s fUPD_STATUS_RES1_NONFIN))] else []) ++
    (if bitF s fUPD_STATUS_RES2_V then [new (.header (c + 2) (bitF s fUPD_STATUS_RES2_NONFIN))] else [])
  let r := readRecord s
  setF (onTwin r.2.2 fun w =>
    { w with
      image := (List.range (shCount s false)).map fun i => new (.image i)
      log := (List.range (shCount s true)).map fun j => new (.log (openStep s) j)
      extra := new (.record c) :: heads
      record := (c, r.1)
      recBad := r.2.1
      held := []
      sends := []
      sent := []
      ownLanded := false
      peerLanded := false
      lost := false }) fTWN_STATUS_EXPOSED 1

/-- The pair leaves EXPOSED once both epochs have landed (R477). -/
def leaveExposed (s : State) : State :=
  if s.twin.ownLanded && s.twin.peerLanded then
    setF (onTwin s fun w => { w with ownLanded := false, peerLanded := false }) fTWN_STATUS_EXPOSED 0
  else s

/-- Epoch C has landed: every IMAGE block that is dirty for it and its step-record copy are acknowledged (R466). While the pair is exposed the
twin is told so. -/
def shLand (s : State) : State :=
  let c := cmtStep s
  let recOpen := s.twin.extra.any fun x => match x.item with | .record _ => true | _ => false
  if s.twin.image.isEmpty && !recOpen && s.twin.record.1 == c && decide (agreed s ≤ c) then
    let s := setF s fTWN_STEPS_LANDED (max (getF s fTWN_STEPS_LANDED) c)
    if !bitF s fTWN_STATUS_EXPOSED then s
    else
      let s := if s.twin.ownLanded then s else { s with wire := .shadowLanded (byFabric s) :: s.wire }
      leaveExposed (onTwin s fun w => { w with ownLanded := true })
  else s

/-- The twin's epoch has landed in this module's banks. -/
def peerLands (s : State) : State :=
  if bitF s fTWN_STATUS_EXPOSED then leaveExposed (onTwin s fun w => { w with peerLanded := true }) else s

/-- An acknowledgement of one send of an item. -/
def ackOwed (l : List ShadowOwed) (x : ShadowItem) : List ShadowOwed :=
  (l.map fun y => if y.item = x then { y with flying := y.flying - 1 } else y).filter fun y => y.owed || decide (0 < y.flying)

/-- A block has been sent in its epoch or step. -/
def noteSent (l : List ShadowItem) (x : ShadowItem) : List ShadowItem := if l.contains x then l else l ++ [x]

/-- The first owed item of a list is sent: what is sent, and the list after it. -/
def takeOwed (ok : ShadowItem → Bool) : List ShadowOwed → Option (ShadowOwed × List ShadowOwed)
  | [] => none
  | y :: r =>
    if y.owed && ok y.item then some (y, { y with owed := false, flying := y.flying + 1, ever := true } :: r)
    else (takeOwed ok r).map fun p => (p.1, y :: p.2)

/-! ### Agreement (R468 to R470) -/

/-- The step whose agreement is the next one. -/
def nextAgree (s : State) : Nat := max (agreed s) (cmtStep s) + 1

def agreeOf (s : State) (n : Nat) : Agreement :=
  (s.twin.agrees.find? fun a => a.step == n).getD ⟨n, false, [], false, []⟩

def setAgree (s : State) (a : Agreement) : State :=
  onTwin s fun w => { w with agrees := a :: w.agrees.filter fun b => b.step != a.step }

/-- Messages of a stage to the other members of the axis: packets of the collective class, as the JOB barrier's (R469). -/
def sendAgree (s : State) (col : Bool) (step : Nat) : State :=
  (List.range (axisN s col.toNat)).foldl (fun s j =>
    let d := memberPos s col.toNat j
    if d = ownLog s then s else ready s .system (agreePacket d col step)) s

/-- Where the ingress pools hold the agreement message of member j of a stage for a step. -/
def agreeAt (s : State) (col : Bool) (j step : Nat) : Option Nat :=
  firstIdx (fun q : InPkt => isAgree q.p && bit q.p.id 31 == col && q.p.addr == step && memberOf s col.toNat q.p.src == j) s.fab.inq

/-- A stage is complete when the module and every other member of its axis have arrived. -/
def stageFull (s : State) (col : Bool) (l : List Nat) : Bool :=
  (List.range (axisN s col.toNat)).all fun j => memberPos s col.toNat j == ownLog s || l.contains j

/-- Go from the row stage to the column stage once the row stage is complete. -/
def agreeAdvance (s : State) (n : Nat) : State :=
  let a := agreeOf s n
  if a.own && !a.rowDone && stageFull s false a.row then sendAgree (setAgree s { a with rowDone := true }) true n else s

/-- The module has resolved step n (R341). -/
def isResolved (s : State) (n : Nat) : Bool :=
  (n == cmtStep s + 1 && bitF s fUPD_STATUS_RES1_V) || (n == cmtStep s + 2 && bitF s fUPD_STATUS_RES2_V)

/-- Everything that R468 asks of a module with a twin: header and LOG blocks of step n acknowledged, epoch n − 1 landed. -/
def shadowed (s : State) (n : Nat) : Bool :=
  s.twin.extra.all (fun x => match x.item with | .header m _ => m != n | .record _ => false | _ => true) &&
  s.twin.log.all (fun x => match x.item with | .log m _ => decide (n < m) | _ => true) &&
  s.twin.image.isEmpty && decide (n ≤ getF s fTWN_STEPS_LANDED + 1) && shActive s

/-- The agreement of step n closes on the module (R470); work that waited for it is looked at again. -/
def agreeClose (s : State) (n : Nat) : State :=
  let flip (w : TwinSt) : List Nat :=
    w.cur.filter (fun i => !w.pend.contains i) ++ w.pend.filter (fun i => !w.cur.contains i)
  let s := onTwin s fun w =>
    { w with
      cur := flip w
      pend := []
      slots := w.slots.filter (· != (n + 1) % 2)
      image := w.held.foldl (fun l i => shMark [] l (.image i)) w.image
      held := []
      gdata := []
      sent := w.sent.filter fun x => match x with | .log m _ => decide (n < m) | _ => false
      log := w.log.filter fun x => match x.item with | .log m _ => decide (n < m) | _ => true
      extra := w.extra.filter fun x => match x.item with | .header m _ => decide (n < m) | _ => true
      agrees := w.agrees.filter fun a => decide (n < a.step) }
  updRetry (addF (setF s fTWN_STEPS_AGREED n) (fTWN_EVENT_COUNT 2) 1)

end Sys2Proof.Machine
end

