-- ==== Sys2Proof/Machine/PmOps.lean ====
section
/-!
DEFINITION. The shared operations of the Postmaster (spec 17): the event log, firmware images and banks, restarts, start-up.
-/
namespace Sys2Proof.Machine

/-- Change the Postmaster. -/
def State.onPm (s : State) (f : Pm → Pm) : State := { s with pm := f s.pm }

/-- Change the pins. -/
def State.onPins (s : State) (f : Pins → Pins) : State := s.onPm fun p => { p with pins := f p.pins }

/-- Change the progress of start-up. -/
def State.onBoot (s : State) (f : Boot → Boot) : State := s.onPm fun p => { p with boot := f p.boot }

def fwRuns (s : State) : Bool := bitF s fPM_STATUS_FW_RUNNING
def stage (s : State) : Nat := getF s fPM_STATUS_STAGE
def setStage (s : State) (n : Nat) : State := setF s fPM_STATUS_STAGE n

/-- B is out of reset: start-up has passed its BASE row. -/
def baseUp (s : State) : Bool :=
  s.pm.pins.rails && decide (3 ≤ if stage s = 8 then s.pm.boot.held else stage s)

/-! ### Log records (R540 to R543) -/

/-- CRC-16 with polynomial 0x1021, one bit, and one byte. -/
def crc16Bit (c : Nat) : Nat := if 0x8000 ≤ c then (2 * c % 0x10000) ^^^ 0x1021 else 2 * c
def crc16Byte (c : Nat) (b : Byte) : Nat := (List.range 8).foldl (fun c _ => crc16Bit c) (c ^^^ (b.toNat * 256))
def crc16 (l : List Byte) : Nat := l.foldl crc16Byte 0xFFFF

/-- The 32 bytes of a record (R540). -/
def LogRec.bytes (r : LogRec) : List Byte :=
  let b := toBytes 8 r.ev.time ++ toBytes 4 r.seq ++ toBytes 2 r.ev.status ++
    toBytes 1 (r.ev.sev % 4 + 4 * r.ev.synced.toNat + 8 * r.ev.hw.toNat) ++ toBytes 1 r.ev.source ++
    toBytes 8 r.ev.arg0 ++ toBytes 2 r.ev.inst ++ toBytes 4 r.ev.arg1
  b ++ toBytes 2 (crc16 b)

/-- Records of the buffer that are not yet persisted. -/
def unsaved (s : State) : List LogRec := s.pm.buf.filter fun r => decide (s.pm.saved ≤ r.seq)

/-- A record enters the buffer with the next SEQ, the buffer keeps the newest 16,384; while 16,384 are not persisted it is
dropped (R542, R543). -/
def putRecord (s : State) (e : LogEvent) : State :=
  if 16384 ≤ (unsaved s).length then
    satF (s.onPm fun p => { p with dropN := p.dropN + 1 }) fPM_LOG_STATUS_DROPPED 1
  else s.onPm fun p =>
    let l := p.buf ++ [⟨p.nextSeq, e⟩]
    { p with buf := l.drop (l.length - 16384), nextSeq := (p.nextSeq + 1) % 2 ^ 32 }

/-- A record of firmware itself. -/
def fwRecord (s : State) (status sev src inst arg0 arg1 : Nat) : State :=
  putRecord s ⟨s.now, status, sev, synced s, false, src, arg0, inst, arg1⟩

/-- After a loss, one LOG_OVERFLOW record goes into the first place that is free (R543). -/
def overflowRecord (s : State) : State :=
  if (s.pm.dropN = 0 ∧ s.pm.lostN = 0) ∨ 16384 ≤ (unsaved s).length then s
  else
    let d := s.pm.dropN
    let l := s.pm.lostN
    raise (fwRecord (s.onPm fun p => { p with dropN := 0, lostN := 0 }) 0x106 1 0 0 d l) fPM_ERR_LOG_OVERFLOW

/-- Append one record to the log area: a block is erased before it is written, which drops its 2,048 oldest records (R543). -/
def areaAppend (n : Nor) (r : LogRec) : Nor :=
  let log := if n.appended % 2048 = 0 ∧ 393216 ≤ n.log.length + 2048 then n.log.drop (n.log.length + 2048 - 393216) else n.log
  { n with log := log ++ [r], appended := n.appended + 1 }

/-- The newest and the oldest record held (PM_LOG_HEAD, PM_LOG_TAIL). -/
def logHead (s : State) : Nat :=
  match s.pm.buf.getLast?, s.pm.nor.log.getLast? with
  | some r, _ => r.seq
  | none, some r => r.seq
  | none, none => 0xFFFFFFFF
def logTail (s : State) : Nat :=
  match s.pm.nor.log, s.pm.buf with
  | r :: _, _ => r.seq
  | [], r :: _ => r.seq
  | [], [] => 0xFFFFFFFF

/-- The record with a SEQ: in the buffer, or through firmware in the log area (R610). -/
def findRecord (s : State) (seq : Nat) : Option LogRec :=
  match s.pm.buf.find? fun r => r.seq == seq with
  | some r => some r
  | none => if fwRuns s then s.pm.nor.log.find? fun r => r.seq == seq else none

/-! ### Firmware images (R544) -/

/-- Fields of a firmware header. -/
def fwVersion (l : List Byte) : Nat := leAt l 4 4
def fwSvn (l : List Byte) : Nat := leAt l 8 4
def fwKey (l : List Byte) : Nat := leAt l 12 4
def fwSize (l : List Byte) : Nat := leAt l 16 4

/-- RESULT of the checks of R544, in the order of its list: 0 OK, 1 BAD_HEADER, 2 BAD_SIGNATURE (also a key that does not
hash to its slot), 3 BAD_DIGEST, 4 ROLLBACK, 5 KEY_REVOKED. -/
def fwCheck (s : State) (l : List Byte) : Nat :=
  let z := fun o n => (slice l o n).all (· == 0)
  let n := fwSize l
  if leAt l 0 4 ≠ 0x57464D50 ∨ n = 0 ∨ 25165215 < n ∨ l.length < 609 + n ∨ !(z 0x14 12 && z 0xB0 336) ∨ 3 < fwKey l ∨ 64 < fwSvn l then 1
  else
    let key := slice l (512 + n) 97
    if sha384 key ≠ Config.keyHash (fwKey l) then 2
    else if bit s.pm.revoked (fwKey l) then 5
    else if !ecdsaVerify key (l.take 0x50) (slice l 0x50 96) then 2
    else if sha384 (slice l 512 n) ≠ slice l 0x20 48 then 3
    else if fwSvn l < s.pm.rollback then 4
    else 0

def fwBankOf (s : State) (n : Nat) : FwBank := if n = 0 then s.pm.nor.bank0 else s.pm.nor.bank1
def setBank (s : State) (n : Nat) (b : FwBank) : State :=
  s.onPm fun p => { p with nor := if n = 0 then { p.nor with bank0 := b } else { p.nor with bank1 := b } }

/-- Does a bank pass R544? The image of the manufacture carries a valid signature. -/
def bankGood (s : State) (n : Nat) : Bool :=
  match fwBankOf s n with
  | .factory => decide (s.pm.rollback ≤ Config.factorySvn) && !bit s.pm.revoked (Config.factoryKey % 4)
  | .bytes l => fwCheck s l == 0

def bankVersion (s : State) (n : Nat) : Nat :=
  match fwBankOf s n with
  | .factory => Config.factoryVersion
  | .bytes l => fwVersion l
def bankSvn (s : State) (n : Nat) : Nat :=
  match fwBankOf s n with
  | .factory => Config.factorySvn
  | .bytes l => fwSvn l

/-- PM_FW_BANK_n after a verification. -/
def showBank (s : State) (n : Nat) : State :=
  if bankGood s n then
    setFs s [(fPM_FW_BANK_VALID n, 1), (fPM_FW_BANK_SVN n, bankSvn s n), (fPM_FW_BANK_VERSION n, bankVersion s n)]
  else setFs s [(fPM_FW_BANK_VALID n, 0), (fPM_FW_BANK_SVN n, 0), (fPM_FW_BANK_VERSION n, 0)]

/-! ### The bank selector and the settings block (R536, R545) -/

/-- Of two copies with their validity and sequence number, copy 1 is the one in use: it is valid, and copy 0 is not or has a lower number. -/
def secondInUse (valid0 : Bool) (seq0 : Nat) (valid1 : Bool) (seq1 : Nat) : Bool := valid1 && (!valid0 || decide (seq0 < seq1))

/-- Copy 1 of the bank selector is the one in use. -/
def Nor.selects1 (n : Nor) : Bool := secondInUse n.sel0.valid n.sel0.seq n.sel1.valid n.sel1.seq

/-- The selector in use: the valid copy with the higher sequence number. -/
def Nor.selector (n : Nor) : SelCopy := if n.selects1 then n.sel1 else n.sel0
def selector (s : State) : SelCopy := s.pm.nor.selector

/-- Replace the copy that is, or is not, in use. -/
def Nor.putSelector (n : Nor) (used : Bool) (c : SelCopy) : Nor := if n.selects1 = used then { n with sel1 := c } else { n with sel0 := c }

/-- The bank that LOAD replaces. -/
def inactiveBank (s : State) : Nat := 1 - (selector s).active

/-- Write the older copy, with the next 32-bit sequence number. -/
def writeSelector (s : State) (active : Nat) (trial : Option Nat) (trials : Nat) : State :=
  s.onPm fun p => { p with
    nor := p.nor.putSelector false ⟨((selector s).seq + 1) % 2 ^ 32, active, trial, trials, true⟩, selWrote := some s.now }

/-- A power loss at the instant of a write of the selector comes during it: the copy being written may fail its CRC (R545). -/
def tornSelector (s : State) : State :=
  if s.pm.selWrote = some s.now then
    let torn := freshBool s
    if torn.1 then torn.2.onPm fun p => { p with nor := p.nor.putSelector true { p.nor.selector with valid := false } } else torn.2
  else s

/-- Copy 1 of the settings block is the one in use. -/
def Nor.uses1 (n : Nor) : Bool := secondInUse n.set0.valid n.set0.seq n.set1.valid n.set1.seq

/-- The settings copy in use: the valid one with the higher sequence number; none where both fail their check. -/
def Nor.settings (n : Nor) : Option SetCopy :=
  if n.uses1 then some n.set1 else if n.set0.valid then some n.set0 else none

/-- PORT_SPLIT in the settings block; 0 where it was never written or both copies fail their check (R368). -/
def settingsSplit (s : State) : Nat := (s.pm.nor.settings.map (·.split)).getD 0

/-- Replace the copy that is not in use. -/
def Nor.putSettings (n : Nor) (c : SetCopy) : Nor := if n.uses1 then { n with set0 := c } else { n with set1 := c }

def writeSettings (s : State) (split : Nat) : State :=
  s.onPm fun p => { p with nor := p.nor.putSettings ⟨((p.nor.settings.map (·.seq)).getD 0 + 1) % 2 ^ 32, split, true⟩ }

/-- A power loss before the write of a recorded PORT_SPLIT completed: the copy being written may hold no valid settings (R368). -/
def tornSettings (s : State) : State :=
  let torn := freshBool s
  if torn.1 then torn.2.onPm fun p => { p with nor := p.nor.putSettings ⟨0, 0, false⟩ } else torn.2

/-! ### The calibration area (R536) -/

/-- The coupling model of the heater feed-forward (R444), and the Sluice table of a die (R529). -/
def couplingModel (s : State) : List Nat := s.pm.nor.coupling.getD Config.coupling
def sluiceTable (s : State) (d : Nat) : List Nat := (mget (fun _ => none) s.pm.nor.sluice d).getD (Config.sluiceTable d)

/-- Firmware replaces them there. -/
def Nor.putSluice (n : Nor) (d : Nat) (table : List Nat) : Nor := { n with sluice := mset (fun _ => none) n.sluice d (some table) }

/-- The bank that the boot ROM boots (R545), with what it writes to the selector; none where no bank verifies. -/
def selectBank (s : State) : State × Option Nat :=
  let c := selector s
  let r : State × Nat := match c.trial with
    | some t =>
      if c.trials < 3 then (writeSelector s c.active (some t) (c.trials + 1), t)
      else ((writeSelector s c.active none c.trials).onPm fun p => { p with rolled := some (bankVersion s t) }, c.active)
    | none => (s, c.active)
  let s := showBank (showBank r.1 0) 1
  (s, if bankGood s r.2 then some r.2 else if bankGood s (1 - r.2) then some (1 - r.2) else none)

/-! ### Firmware starts and stops -/

/-- Registers that firmware backs (R610): they read 0 while it does not run. -/
def pmFirmwareReg (off : Nat) : Bool := off == 0x4 || (decide (0x10 ≤ off) && decide (off < 0x40))

/-- Firmware of bank n begins to run; it logs the rollback of R545 step 2. -/
def startFirmware (s : State) (n : Nat) : State :=
  let c := selector s
  let onTrial := c.trial == some n
  let s := setFs s [(fPM_STATUS_FW_RUNNING, 1), (fPM_STATUS_BANK, n), (fPM_STATUS_TRIAL, onTrial.toNat),
    (fPM_FW_VERSION_VERSION, bankVersion s n), (fPM_FW_STATUS_STATE, if onTrial then 5 else 0), (fPM_FW_STATUS_TRIALS, c.trials)]
  let s := if onTrial then setLeaf s 11 3 else s
  let rolled := s.pm.rolled
  let s := s.onPm fun p => { p with rom := .idle, chosen := none, fwFrom := s.now, rolled := none }
  match rolled with
  | some v => raise (fwRecord s 0x103 2 0 n v 3) fPM_ERR_FW_ROLLBACK
  | none => s

/-- Firmware stops: its SRAM, its registers, its SPDM state and a running firmware operation are gone (R547). -/
def stopFirmware (s : State) : State :=
  let s := setF (resetRegs s pmFirmwareReg) fPM_STATUS_FW_RUNNING 0
  s.onPm fun p => { p with job := none, spdm := 0, recovery := false }

/-- A Postmaster restart with its cause and PC. -/
def restartPm (s : State) (cause pc : Nat) : State :=
  let s := raise (satF (stopFirmware s) fPM_STATUS_RESTARTS 1) fPM_ERR_PM_RESTART
  s.onPm fun p => { p with rom := .restart cause pc, chosen := none }

/-- A firmware operation reaches a final state: FW_OP_END (R564). -/
def fwState (s : State) (state result : Nat) : State :=
  let s := setFs s [(fPM_FW_STATUS_STATE, state), (fPM_FW_STATUS_RESULT, result)]
  if state = 4 ∨ state = 5 ∨ state = 6 then setLeaf s 11 3 else s

/-- LOAD fails: FW_REJECTED. -/
def fwReject (s : State) (result : Nat) : State :=
  let s := fwState (s.onPm fun p => { p with job := none }) 6 result
  raise (fwRecord s 0x104 1 0 0 result 0) fPM_ERR_FW_REJECTED

/-! ### Start-up (R537, R592) -/

/-- Limited mode (R494): every die that answered is held in reset. -/
def enterLimited (s : State) : State :=
  let s := (List.range 4).foldl (fun s d =>
    if dieState s d = dABSENT then s
    else setDieState (setDie s d { dieRt s d with attempt := none, due := none }) d dHELD) s
  let s := raise (setF s fPKG_STATUS_LIMITED 1) fPKG_ERR_COMPAT
  let a : Nat := (List.range 4).foldl (fun a d =>
    if dieState s d = dABSENT then a else a + getF s (fPKG_DIE_STATUS_STEPPING d) * 2 ^ (8 + 8 * d)) (getF s fPKG_BASE_ID_STEPPING)
  setStage (fwRecord s 0x112 3 3 0 a 0) 7

/-- READY: every row of start-up has completed (R537); PM_START_TIME and the BOOT record. -/
def tryReady (s : State) : State :=
  let b := s.pm.boot
  if stage s = 5 ∧ fwRuns s ∧ b.ftl ∧ b.lpddr ∧ b.optics then
    let s := setF (setStage s 6) fPM_START_TIME_TIME s.now
    fwRecord s 0x100 0 0 (getF s fPM_STATUS_BANK) (b.lastSeq.getD 0xFFFFFFFF) ((b.ramp + s.now - b.from_) / 1000)
  else s

/-- A LOAD under way ends with the rails or with a reset of the module: the inactive bank is invalid and STATE returns to IDLE (R546, R608). -/
def abandonLoad (s : State) : State :=
  if s.pm.job.isSome then
    setF ((setBank s (inactiveBank s) (.bytes [])).onPm fun p => { p with job := none }) fPM_FW_STATUS_STATE 0
  else s

/-- What outlives the loss of all power: the flash with its wear, the NOR device, the fuses, the pins' levels. -/
def unpowered (s : State) (pins : Pins) : State :=
  let s := settleFlash s
  let s := tornSelector (abandonLoad (if s.pm.splitDue then tornSettings s else s))
  { State.reset with
    free := s.free, wire := s.wire, pending := s.pending, tier := s.tier.kept
    pm := { Pm.reset with pins := pins, nor := s.pm.nor, revoked := s.pm.revoked, rollback := s.pm.rollback } }

/-- The levels of the input pins, with nothing powered. -/
def Pins.levels (p : Pins) : Pins := { Pins.reset with vin := p.vin, pwrEn := p.pwrEn, rst := p.rst, perst := p.perst, slot := p.slot, scan := p.scan }

/-- A row of start-up may complete: firmware runs and the sequence is at STAGE n (R539). -/
def startupAt (s : State) (n : Nat) : Bool := fwRuns s && stage s == n && !s.pm.pins.down

/-- The endpoint is out of reset and completes requests: the dies have started (R538), the reference is present and PERST_N is high (R600). -/
def linkMay (s : State) : Bool :=
  s.pm.pins.rails && decide (4 ≤ if stage s = 8 then s.pm.boot.held else stage s) && !s.pm.pins.perst && !bitF s fPKG_AON_ON_LOCAL

/-- The link goes down, and trains again where it may: to 16, 8, 4, 2 or 1 lanes and to generation 1 to 6 (R553). Which they are is the
outcome of the training: free values (assumption log 92). -/
def trainLink (s : State) : State :=
  if linkMay s then
    let r := freshWord s
    { r.2 with host := { s.host with link := true, lanes := [16, 8, 4, 2, 1].getD (r.1.toNat % 5) 16, gen := 1 + r.1.toNat / 5 % 6 } }
  else { s with host := { s.host with link := false } }

/-- What the manufacture left in the module: its serial number and the commissioned powers of its laser sources. -/
def manufactured (s : State) : State :=
  (List.range 20).foldl (fun s n => setF s (fLAS_SRC_P0 n) (Config.sourceP0 n)) (setF s fOPT_SERIAL_SERIAL Config.serial)

/-- The boot ROM starts a start-up that began `ramp` ns before the present timebase. -/
def coldBoot (s : State) (ramp : Nat) : State :=
  setStage (s.onPm fun p => { p with
    rom := .cold, chosen := none
    boot := { Boot.start with ramp := ramp, from_ := s.now, lastSeq := p.nor.log.getLast?.map LogRec.seq } }) 0

end Sys2Proof.Machine
end

