-- ==== Sys2Proof/Machine/Redraw.lean ====
section
/-!
DEFINITION. The commands of a redraw: the steps of a port, the waves, the background retries, the entry of the next phase,
and the apply of route tables (spec 06 R210; spec 11 R376 to R379, R388).
-/
namespace Sys2Proof.Machine

/-- Change the running redraw. -/
def onRedraw (s : State) (f : Redraw → Redraw) : State :=
  { s with fab := { s.fab with redraw := s.fab.redraw.map f } }

/-- The step of a port in the running redraw. -/
def portStep (s : State) (p : Nat) : Option PortStep :=
  (s.fab.redraw.bind fun r => r.running.find? fun x => x.1 == p).map (·.2.2)

/-- Move a port to its next step. -/
def setPortStep (s : State) (p : Nat) (st : PortStep) : State :=
  onRedraw s fun r => { r with running := r.running.map fun x => if x.1 = p then (p, x.2.1, st) else x }

/-- Drain ends: what the far end has not acknowledged is held or replayed elsewhere; the rings of changed lanes move. -/
def execRedrawDrainEnd (p : Port) (s : State) : Host.Outcome State Fault Refusal :=
  .next (if portStep s p.val = some .drain then
      let s := setF (setPortStep s p.val .retune) (fOPT_PORT_PSTATE p.val) pREDRAWING
      let m := (s.fab.redraw.bind (·.map))
      let s := (changedLanes s m p.val).foldl (fun s l =>
        setLaneState (onLane s p.val l fun r => { r with prior := laneState s p.val l }) p.val l lRETUNE) s
      holdPort s p.val
    else s)

/-- A map table word is uncorrectable (R379): the redraw stops; ports that have not retuned keep their old lines and go back
to service when their step allows. -/
def stopRedraw (s : State) : State :=
  match s.fab.redraw with
  | none => s
  | some r =>
    let early := (r.running.filter fun x => x.2.2 == .drain || x.2.2 == .retune).map (·.1)
    let s := early.foldl (fun s p => setUnpaired (setF (unretune s p) (fOPT_PORT_PSTATE p) pINSERVICE) p (s.now + 10000000)) s
    let s := onRedraw s fun r => { r with wave1 := r.wave1.filter fun p => !early.contains p, wave2 := [],
                                          running := r.running.filter fun x => !early.contains x.1 }
    let (w, s) := freshWord { s with fab := { s.fab with mapBad := true } }
    let s := setF s fOPT_FAB_STATUS_DEGRADED 1
    let s := postEvent s 0x09 2 0xA (w.toNat % 65536) 0 4
    match s.fab.redraw with
    | some r => if r.wave1.isEmpty && r.running.isEmpty then sendAllHeld (redrawOver s r) else s
    | none => s

/-- Retune ends: the rings of the changed lanes hold their new lines. `ue` says that a map table word was uncorrectable. -/
def execRedrawRetuneEnd (p : Port) (ue : Bool) (s : State) : Host.Outcome State Fault Refusal :=
  .next (if portStep s p.val = some .retune then
      if ue then stopRedraw s
      else
        let m := (s.fab.redraw.bind (·.map))
        tunePort (setPortStep s p.val .lock) m p.val lLOCKING true
    else s)

/-- Lock ends: the lane check begins, on each moved ring that holds lock (R443), with an identity unit. -/
def execRedrawLockEnd (p : Port) (s : State) : Host.Outcome State Fault Refusal :=
  .next (if portStep s p.val = some .lock then
      sendIdentities ((List.range 32).foldl (fun s l =>
        if laneState s p.val l = lLOCKING then setLaneState s p.val l lCHECK else s) (setPortStep s p.val .check)) p.val
    else s)

/-- The outcome of a lane's check (R378). -/
def sortLane (s : State) (p l : Nat) (passed : Bool) : State :=
  if laneState s p l ≠ lCHECK then s
  else if !(laneRt s p l).identity then
    addF (setLaneState (onLane s p l fun r => { r with retryAt := s.now }) p l lLATEPEER) (fOPT_FAB_EVENT_COUNT 2) 1
  else if passed then setLaneState s p l lINSERVICE
  else dropLane s p l 2

/-- Check ends: every moved lane is sorted into its state. A lane passes on what CODEWORD_RECEIVE brought, where `passed` says that its receiver
saw the whole check (assumption log 92). -/
def execRedrawCheckEnd (p : Port) (passed : BitVec 32) (s : State) : Host.Outcome State Fault Refusal :=
  .next (if portStep s p.val = some .check then
      (List.range 32).foldl (fun s l => sortLane s p.val l (passed.getLsbD l && laneChecked s p.val l)) s
    else s)

/-- Every moved lane has left the Check step. -/
def checksDone (s : State) (p : Nat) : Bool := (List.range 32).all fun l => laneState s p l != lCHECK

/-- A port enters service with its passed and unchanged lanes, once it has exchanged credits and link sequence numbers (R376, R452). -/
def portEnters (s : State) (p : Nat) : State :=
  let s := setFs s [(fOPT_PORT_PSTATE p, pINSERVICE), (fOPT_PORT_LANES p, lanesUp s p)]
  shareHops (setUnpaired s p (s.now + 10000000)) p

/-- A redrawn port enters service. -/
def returnPort (s : State) (p : Nat) : State := sendAllHeld (addF (portEnters s p) (fOPT_FAB_EVENT_COUNT 1) 1)

/-- A redrawn port returns. The last port of wave 1 starts the interval of R377; the last port of all ends the redraw. -/
def execPortReturn (p : Port) (s : State) : Host.Outcome State Fault Refusal :=
  .next (if portStep s p.val = some .check ∧ checksDone s p.val then
      let s := onRedraw s fun r =>
        let w1 := r.wave1.filter (· != p.val)
        { r with
          wave1 := w1
          wave1End := if w1.isEmpty && r.wave1End.isNone then some s.now else r.wave1End
          running := r.running.filter fun x => x.1 != p.val }
      let s := returnPort s p.val
      match s.fab.redraw with
      | some r => if r.wave1.isEmpty && r.wave2.isEmpty && r.running.isEmpty then redrawOver s r else s
      | none => s
    else s)

/-- Wave 2 starts 100 µs after the last port of wave 1 returned. -/
def execWave2Start (s : State) : Host.Outcome State Fault Refusal :=
  .next (match s.fab.redraw with
    | some r =>
      match r.wave1End with
      | some t =>
        if !r.wave2.isEmpty && decide (t + 100000 ≤ s.now) then
          let run := r.wave2.map fun p => (p, s.now, PortStep.drain)
          drainPorts (onRedraw s fun r => { r with wave2 := [], running := r.running ++ run }) r.wave2
        else s
      | none => s
    | none => s)

/-- A LATE_PEER lane repeats lock and check, every 100 µs; it enters service when it passes. -/
def execLatePeerRetry (p : Port) (l : Lane) (pass : Bool) (s : State) : Host.Outcome State Fault Refusal :=
  .next (
    let r := laneRt s p.val l.val
    if laneState s p.val l.val = lLATEPEER ∧ r.retryAt + 100000 ≤ s.now then
      let s1 := setLane s p.val l.val { r with retryAt := s.now }
      let s1 := if ringLocked s p.val l.val then sendIdentity s1 p.val l.val else s1
      if pass && laneChecked s p.val l.val then sendAllHeld (setLaneState s1 p.val l.val lINSERVICE) else s1
    else s)

/-- A LATE_PEER lane without a pass 10 ms after its port's return (R378); no such instant stands while the port redraws. -/
def execLaneUnpaired (p : Port) (l : Lane) (s : State) : Host.Outcome State Fault Refusal :=
  .next (
    let at_ := mget (fun _ => 0) s.fab.unpairedAt p.val
    if laneState s p.val l.val = lLATEPEER ∧ at_ ≠ 0 ∧ at_ ≤ s.now then
      let s := setLaneState s p.val l.val lUNPAIRED
      let s := addF (raise s fOPT_FAB_ERR_LANE_UNPAIRED) (fOPT_FAB_EVENT_COUNT 3) 1
      postEvent s 0x121 1 0xA (32 * p.val + l.val) (laneRt s p.val l.val).byte 0
    else s)

/-- The next phase is entered once the redraw for it has ended; a closure of its barrier that was held during the redraw
then acts (R379). -/
def execPhaseEnter (s : State) : Host.Outcome State Fault Refusal :=
  .next (match s.fab.redraw with
    | some r =>
      match r.enter with
      | some q =>
        if r.wave1.isEmpty && r.wave2.isEmpty && r.running.isEmpty then
          let p := getF s fCMP_PHASE_CUR
          let s := enterPhase { s with fab := { s.fab with redraw := none } } p q
          releaseHeld s.mail.heldClose.length s
        else s
      | none => s
    | none => s)

/-- APPLY with AT_PHASE (R388): refused with an error bit, taken at once while no MAP_TABLES section is loaded, else staged
for its boundary. While an apply is pending it is ignored (R390). -/
def execApply (phase : Fin 16) (s : State) : Host.Outcome State Fault Refusal :=
  .next (if bitF s fOPT_FAB_STATUS_PENDING then s else
    let s := setF s fOPT_ROUTE_CTL_AT_PHASE phase.val
    let at_ := getF s fOPT_ROUTE_AT_AT_COUNT
    let valid := bitF s fCMP_PHASE_VALID
    let late := valid && decide (at_ ≤ getF s (fCMP_PHASE_COUNT_COUNT phase.val))
    let bad := substBad s
    if late || bad then raiseIf bad (raiseIf late s fOPT_FAB_ERR_ROUTE_LATE) fOPT_FAB_ERR_SUBST_DUP
    else if valid then
      setF { s with fab := { s.fab with staged := some ⟨phase.val, at_⟩ } } fOPT_FAB_STATUS_PENDING 1
    else
      let s := takeTables s
      match s.fab.redraw with
      | some r => extendRedraw s r
      | none => beginRedraw s s.fab.map none)

end Sys2Proof.Machine
end

