-- ==== Sys2Proof/Machine/ImageOps.lean ====
section
/-!
DEFINITION. The `.dkj` job image (spec 03 R128 to R131) and the validation and take-over of MAP_TABLES (spec 06 R205 to R209) and
PIGEONHOLES (spec 12 R392 to R394, R417, R427).
-/
namespace Sys2Proof.Machine

/-- Are n bytes from an offset all zero? -/
def zeros (l : List Byte) (o n : Nat) : Bool := (slice l o n).all (· == 0)

/-! ### Header and section table -/

/-- A section-table entry (R129). -/
structure Sec where
  typ : Nat
  sflags : Nat
  tiles : Nat
  off : Nat
  size : Nat
  dest : Nat
deriving DecidableEq, Repr

def secFrom (b : List Byte) : Sec := ⟨leAt b 0 2, leAt b 2 2, leAt b 4 4, leAt b 8 8, leAt b 16 8, leAt b 24 8⟩

/-- The tiles of a CODE or TILE_DATA section. -/
def Sec.tileList (x : Sec) : List Nat := (List.range 256).filter fun t => decide (x.tiles % 256 ≤ t) && decide (t ≤ x.tiles / 256 % 256)

/-- Known types are 1 to 0xB (R130). -/
def Sec.known (x : Sec) : Bool := decide (1 ≤ x.typ) && decide (x.typ ≤ 11)

/-- Types that target tiles by TILES. -/
def Sec.onTiles (x : Sec) : Bool := x.typ == 1 || x.typ == 2

/-- The rules of R129 for one entry, in an image of `size` bytes; a skippable entry of an unknown type keeps them too. -/
def Sec.ok (size : Nat) (x : Sec) : Bool :=
  decide (x.sflags < 2) && decide (x.tiles < 65536) &&
  (if x.known then
    (if x.onTiles then decide (x.tiles % 256 ≤ x.tiles / 256) else x.tiles == 0) &&
    (decide (x.typ < 6) || x.dest == 0) &&
    (if x.typ = 4 then x.off == 0 else x.off % 8 == 0 && decide (x.off + x.size ≤ size))
  else x.sflags == 1 && x.tiles == 0 && x.off % 8 == 0 && decide (x.off + x.size ≤ size))

/-- Step 1 of R132 on the header and the section table: the known sections in table order, or none for IMAGE_BAD. -/
def stepOne (size : Nat) (head tab : List Byte) : Option (List Sec) :=
  let n := leAt head 12 4
  let o := leAt head 16 8
  if leAt head 0 4 ≠ 0x314A4B44 ∨ leAt head 4 2 ≠ 1 ∨ leAt head 8 4 ≠ 128 ∨ n = 0 ∨ 4096 < n ∨ o % 32 ≠ 0 ∨ size < o + 32 * n ∨
     leAt head 24 8 ≠ size ∨ 4 ≤ leAt head 48 4 ∨ 2 < leAt head 0x34 1 ∨ !zeros head 0x35 11 ∨ !zeros head 0x70 16 then none
  else
    let l := (List.range n).map fun i => secFrom (slice tab (32 * i) 32)
    let many := fun t => (l.filter fun x => x.typ == t).length
    if l.all (Sec.ok size) && [7, 8, 9, 10].all (fun t => decide (many t ≤ 1)) && many 8 == many 9 then some (l.filter Sec.known)
    else none

/-! ### MAP_TABLES -/

/-- A phase entry with its rules (R206, R209). -/
def phaseFrom (tables phases : Nat) (b : List Byte) : Option PhaseEntry :=
  let e : PhaseEntry := ⟨leAt b 0 1, leAt b 1 1, leAt b 2 2, leAt b 4 1, leAt b 5 1, leAt b 6 2, bit (leAt b 8 1) 0⟩
  if 5 < e.kind ∨ tables ≤ e.map ∨ phases ≤ e.next ∨ phases ≤ e.alt ∨ 1024 ≤ e.barrier ∨ 2 ≤ leAt b 8 1 ∨ !zeros b 9 7 then none else some e

/-- The lane bytes of one port (R208, R209). -/
def laneBytesOk (own : Nat) (l : List Nat) : Bool :=
  l.all (fun b => b == 0x7F || (decide (b % 128 ≤ 64) && b % 128 != own)) &&
  (let u := l.filter (· != 0x7F)
   u.eraseDups.length == u.length)

/-- The validation of R209. -/
def mapFrom (s : State) (b : List Byte) : Option Phases :=
  let nt := leAt b 0 2
  let np := leAt b 2 1
  if nt = 0 ∨ 32 < nt ∨ np = 0 ∨ 16 < np ∨ b.length < 0x140 + 512 * nt ∨ !zeros b 3 61 ∨ !zeros b (0x40 + 16 * np) (256 - 16 * np) ∨
     !discovered s then none
  else
    match (List.range np).mapM fun p => phaseFrom nt np (slice b (0x40 + 16 * p) 16) with
    | none => none
    | some es =>
      let ts := (List.range nt).map fun t => (slice b (0x140 + 512 * t) 512).map BitVec.toNat
      let bars := es.map (·.barrier)
      if bars.eraseDups.length ≠ bars.length then none
      else if ts.all fun t => (List.range 16).all fun p => laneBytesOk (ownIndex s (portRole s p)) ((t.drop (32 * p)).take 32) then some ⟨es, ts⟩
      else none

/-- The module takes MAP_TABLES over (R209): the phase registers are cleared, and MAP(0) is drawn on every port. -/
def takeMap (s : State) (ph : Phases) : State :=
  let s := resetRegs s fun off => off == 0x501004 || (decide (0x501100 ≤ off) && decide (off < 0x501200))
  let s := setFs { s with phases := ph } [(fCMP_PHASE_VALID, 1), (fCMP_PHASE_CUR, 0)]
  beginRedraw { s with mail := { s.mail with heldClose := [] } } (some ((ph.entries.head?.map (·.map)).getD 0)) none

/-! ### PIGEONHOLES -/

/-- The validated section. -/
structure PhSec where
  phs : SMap PhEntry
  bars : SMap Bar
  colls : SMap Coll
deriving DecidableEq, Repr

/-- Slots of a ring, or credit: a stage queue's 0 means 4 (R212, R394). -/
def phDepth (d : Nat) : Nat := if d = 0 then 4 else d

/-- A pigeonhole entry with the rules of R393 and R394 that concern it alone: its number and the entry. -/
def phFrom (s : State) (b : List Byte) : Option (Nat × PhEntry) :=
  let k := leAt b 0 1
  let fl := leAt b 1 1
  let p := leAt b 2 2
  let d := leAt b 4 4
  let ring := leAt b 8 8
  let buf := leAt b 16 8
  let bs := leAt b 24 4
  let own := leAt b 28 1
  let st := bit fl 0
  let ringed := k == kRECV || k == kDIRECTORY || k == kUPDATE
  let depthOk : Bool :=
    if k = kNONE then d == 0
    else if st then decide (d ≤ 16)
    else if k = kDEFER then d == 64
    else if k = kOPT then d == 16
    else decide (1 ≤ d) && decide (d ≤ 65536)
  let ringOk : Bool :=
    if ringed then ring % 64 == 0 && decide (ring < 2 ^ 52) && mappedRange ring (64 * phDepth d)
    else if k = kSEND then
      let q := posOf (bits ring 6 0) (bits ring 14 8)
      !bit ring 7 && !bit ring 15 && decide (ring < 2 ^ 30) && q != ownLog s && isActive s q
    else k == kMCAST || ring == 0
  let bufOk : Bool :=
    if k = kRECV then
      buf % 64 == 0 && decide (buf < 2 ^ 52) && bs % 64 == 0 && decide (bs ≤ 2 ^ 28) && (bs == 0 || mappedRange buf (bs * phDepth d))
    else if k = kMCAST then
      let mask := ring + 2 ^ 64 * (buf % 2)
      let own := if bit buf 1 then posRow (ownLog s) else posCol (ownLog s)
      bits buf 15 2 == 0 && decide (buf < 2 ^ 30) && bs == 0 && !bit mask own
    else buf == 0 && bs == 0
  if k ≤ 7 ∧ fl < 4 ∧ (!st || k == kRECV || k == kSEND) ∧ (!bit fl 1 || k == kSEND || k == kMCAST) ∧ p < 16384 ∧ depthOk ∧ ringOk ∧ bufOk ∧
     (own == 0 || k == kDEFER || k == kOPT) ∧ zeros b 29 3 then
    some (p,
      { kind := k, stage := st, sealed := bit fl 1, depth := phDepth d
        ring := if ringed then ring else 0
        buf := if k = kRECV then buf else 0
        bufSize := bs, owner := own
        target := if k = kSEND then posOf (bits ring 6 0) (bits ring 14 8) else if k = kMCAST then ring + 2 ^ 64 * (buf % 2) else 0
        axis := if k = kMCAST then bits buf 1 1 else 0
        destPh := if k = kSEND then bits ring 29 16 else if k = kMCAST then bits buf 29 16 else 0 })
  else none

/-- The arrays of an entry: its ring and its bulk buffers. -/
def phArrays (e : PhEntry) : List (Nat × Nat) :=
  (if e.kind == kRECV || e.kind == kDIRECTORY || e.kind == kUPDATE then [(e.ring, 64 * e.depth)] else []) ++
  (if e.kind = kRECV ∧ e.bufSize ≠ 0 then [(e.buf, e.bufSize * e.depth)] else [])

/-- A barrier entry (R427). -/
def barFrom (s : State) (b : List Byte) : Option (Nat × BarEntry) :=
  let ax := leAt b 2 1
  let k := leAt b 3 1
  let ln := leAt b 4 2
  let n := match ax with
    | 0 => ln
    | 1 => axisN s 0
    | 2 => axisN s 1
    | _ => max (axisN s 0) (axisN s 1)
  if 1024 ≤ leAt b 0 2 ∨ 3 < ax ∨ ln = 0 ∨ 256 < ln ∨ n < k ∨ !zeros b 6 2 ∨ !zeros b 12 4 then none
  else some (leAt b 0 2, ⟨ax, k, ln, leAt b 8 4⟩)

/-- A collective entry (R417). -/
def collFrom (s : State) (phs : SMap PhEntry) (b : List Byte) : Option (Nat × CollEntry) :=
  let kd := leAt b 1 1
  let ax := leAt b 2 1
  let n := axisN s ax
  let e : CollEntry :=
    { kind := kd % 4, grad := bit kd 2, final := bit kd 3, determ := bit kd 4, axis := ax, k := leAt b 3 1
      fmtIn := leAt b 4 1 % 16, fmtOut := leAt b 4 1 / 16, limit := leAt b 8 4, shard := leAt b 12 4, acc := leAt b 16 8
      out := leAt b 24 8, stage := leAt b 32 8, donePh := leAt b 40 2 }
  let done := mget (fun _ => PhEntry.none) phs e.donePh
  let outN := (if e.kind = 0 then 1 else n) * e.shard * (if e.fmtOut = 0 then 4 else 2)
  if e.kind = 3 ∨ 32 ≤ kd ∨ 1 < ax ∨ n < e.k ∨ 1 < e.fmtIn ∨ 1 < e.fmtOut ∨ !zeros b 5 3 ∨ !zeros b 0x2A 22 ∨ e.shard % 32 ≠ 0 ∨ e.shard < 32 ∨
     2 ^ 28 < e.shard ∨ e.acc % 256 ≠ 0 ∨ !mappedRange e.acc (16 * e.shard) ∨ !mappedRange e.out outN ∨ 16384 ≤ e.donePh ∨ done.kind ≠ kRECV then none
  else if e.determ && (e.k != 0 || e.limit != 0 || !bit (featureEff s) 8 || !mappedRange e.stage (8 * n * e.shard)) then none
  else if (!e.determ && e.stage != 0) || (e.final && !e.grad) || (e.kind == 1 && e.k != 0) then none
  else some (leAt b 0 1, e)

/-- No element of a list appears twice. -/
def noRepeat (l : List Nat) : Bool := l.eraseDups.length == l.length

/-- The validation of R394. -/
def phSecFrom (s : State) (b : List Byte) : Option PhSec :=
  let np := leAt b 0 2
  let nb := leAt b 2 2
  let nc := leAt b 4 2
  let bo := 0x40 + 32 * np
  let co := bo + 16 * nb
  if np = 0 ∨ 16384 < np ∨ 1024 < nb ∨ 256 < nc ∨ b.length < co + 64 * nc ∨ !zeros b 6 58 ∨ !discovered s then none
  else
    match (List.range np).mapM fun i => phFrom s (slice b (0x40 + 32 * i) 32) with
    | none => none
    | some l =>
      let owners := fun k => (l.filter fun x => x.2.kind == k).map fun x => x.2.owner
      let single := fun k => decide ((l.filter fun x => x.2.kind == k).length ≤ 1)
      if !noRepeat (l.map (·.1)) || !noRepeat (owners kDEFER) || !noRepeat (owners kOPT) || !single kDIRECTORY || !single kUPDATE ||
         !disjoint (l.flatMap fun x => phArrays x.2) then none
      else
        let phs : SMap PhEntry := l.foldl (fun m x => mset (fun _ => PhEntry.none) m x.1 x.2) []
        match (List.range nb).mapM (fun i => barFrom s (slice b (bo + 16 * i) 16)),
              (List.range nc).mapM (fun i => collFrom s phs (slice b (co + 64 * i) 64)) with
        | some bars, some colls =>
          if noRepeat (bars.map (·.1)) && noRepeat (colls.map (·.1)) then
            some ⟨phs, bars.map fun x => (x.1, ⟨x.2, 0, []⟩), colls.map fun x => (x.1, ⟨x.2, none, true, [], [], none⟩)⟩
          else none
        | _, _ => none

/-- The Mailroom takes PIGEONHOLES over: every channel holds its initial credit, rings are empty, the accumulation buffers are
zero, and the registers of barriers and collectives are cleared (R393, R420). -/
def takePhs (s : State) (x : PhSec) : State :=
  let s := resetRegs s fun off => (decide (0x503000 ≤ off) && decide (off < 0x505000)) ||
    (decide (0x900000 ≤ off) && decide (off < 0xA00000) && off % 0x40 == 0x10)
  let s := { s with mail := { MailSt.reset with phs := x.phs, bars := x.bars, colls := x.colls, nextMsg := s.mail.nextMsg } }
  let s := x.phs.foldl (fun s p =>
    if p.2.kind = kSEND then setCredit s p.1 p.2.target p.2.depth
    else if p.2.kind = kMCAST then (mcastDests s p.2).foldl (fun s d => setCredit s p.1 d p.2.depth) s
    else s) s
  let s := x.colls.foldl (fun s c => memZero s c.2.e.acc (16 * c.2.e.shard)) s
  setFs s [(fCMP_MBX_STATUS_VALID, 1), (fCMP_MBX_STATUS_BARS, x.bars.length), (fCMP_MBX_STATUS_COLLS, x.colls.length)]

end Sys2Proof.Machine
end

