-- ==== Sys2Proof/Machine/Image.lean ====
section
/-!
DEFINITION. The image loader (spec 03 R128 to R134, spec 18 R559) and its commands.
-/
namespace Sys2Proof.Machine

/-- Change the loader. -/
def State.onLoad (s : State) (f : Loader → Loader) : State := { s with load := f s.load }

/-- The load ends with a code after a step: HST_LOAD_STATUS and LOAD_END (R559). -/
def endLoad (s : State) (code step : Nat) : State :=
  let s := setFs s [(fHST_LOAD_STATUS_CODE, code), (fHST_LOAD_STATUS_STEP, step), (fHST_LOAD_STATUS_STATE, 2)]
  setLeaf (s.onLoad fun l => { l with targets := [], run := none }) 11 0

/-! ### Step 1 -/

/-- The entries of a TASKS section of `b`. -/
def taskEntries (b : List Byte) : List (List Byte) := (List.range (b.length / 32)).map fun i => slice b (32 * i) 32

/-- The header and the section table of the image at `base`, with the first bad unit met. -/
def readHead (s : State) (base size : Nat) : List Byte × List Byte × Option Nat × State :=
  let h := memRead s base 128
  let o := leAt h.data 16 8
  let n := leAt h.data 12 4
  if h.bad.isSome ∨ 4096 < n ∨ size < o + 32 * n then (h.data, [], h.bad, h.s)
  else
    let t := memRead h.s (base + o) (32 * n)
    (h.data, t.data, t.bad, t.s)

/-- The contents of a section in the image as it was read. -/
def Sec.data (img : List Byte) (x : Sec) : List Byte := slice img x.off x.size

/-- The sections of a type, in table order. -/
def secsOf (l : List Sec) (t : Nat) : List Sec := l.filter fun x => x.typ == t

/-- Targeted tiles (R126): the TILES ranges, and the tiles that the TASKS entries name. -/
def targetsOf (img : List Byte) (l : List Sec) : List Nat :=
  (((l.filter Sec.onTiles).flatMap Sec.tileList) ++
    (secsOf l 6).flatMap fun x => (taskEntries (x.data img)).map fun b => leAt b 0 2).eraseDups

/-- A ring of DB_LOAD (R559): step 1, and the tiles that START must leave alone. -/
def execDbLoad (s : State) : Host.Outcome State Fault Refusal :=
  .next (if !baseUp s then s
    else if getF s fHST_LOAD_STATUS_STATE = 1 then setLeaf s 11 2
    else if bitF s fPKG_STATUS_LIMITED then endLoad s 7 3
    else if stage s ≠ 6 then endLoad s 5 0
    else
      let off := getF s fHST_LOAD_OFF_OFFSET
      let size := getF s fHST_LOAD_SIZE_SIZE
      let base := stageBase s + off
      let s := setFs s [(fHST_LOAD_STATUS_STATE, 1), (fHST_LOAD_STATUS_STEP, 1), (fHST_LOAD_STATUS_CODE, 0)]
      if off % 4096 ≠ 0 ∨ 2 ^ 36 < off + size ∨ size < 128 then endLoad s 2 1
      else
        let (h, t, bad, s) := readHead s base size
        match bad, stepOne size h t with
        | none, some l =>
          let names := (secsOf l 6).flatMap fun x => (taskEntries (memBytes s (base + x.off) x.size)).map fun b => leAt b 0 2
          setF (s.onLoad fun q => { q with
            targets := (((l.filter Sec.onTiles).flatMap Sec.tileList) ++ names).eraseDups
            run := some ⟨base, size, 2, h, [], false, 0⟩ }) fHST_LOAD_STATUS_STEP 2
        | _, _ => endLoad s 2 1)

/-! ### Steps 2 to 5 -/

/-- The effective feature word at an image load (R123). -/
def loadFeatures (s : State) : Nat :=
  featAnd s fun d => dieUp s d || (dieState s d != dABSENT && bitF s (fPKG_DIE_CTL_JOIN d))

/-- The features that step 3 asks for: DETERM is bit 8, and the reference personality needs test mode. -/
def featuresOk (s : State) (w : Nat) (h : List Byte) : Bool :=
  let need := leAt h 0x20 8
  let flags := leAt h 0x30 4
  need &&& w == need && (!bit flags 1 || s.pm.pins.test) && (!bit flags 0 || bit w 8)

/-- A TASKS entry under R131 and R134; `data` lists the TILE_DATA ranges of a tile. -/
def taskOk (data : Nat → List (Nat × Nat)) (b : List Byte) : Bool :=
  let t := leAt b 0 2
  let base := leAt b 4 4
  let size := leAt b 8 4
  let entry := leAt b 0xC 4
  decide (t < 256) && decide (leAt b 2 2 < 2) && base % 4096 == 0 && size % 4096 == 0 && decide (4096 ≤ size) && decide (size ≤ 0x40000) &&
  decide (base + size ≤ ocSize) && entry % 8 == 0 && decide (entry < size) && (data t).all fun r => !rangesMeet base size r.1 r.2

/-- The destination checks of step 4 on one section. -/
def secOk (s : State) (base size : Nat) (img : List Byte) (data : Nat → List (Nat × Nat)) (x : Sec) : Bool :=
  match x.typ with
  | 1 => x.dest % 4096 == 0 && decide (x.dest + x.size ≤ ocSize)
  | 2 => x.dest % 8 == 0 && decide (x.dest + x.size ≤ ocSize)
  | 3 => x.dest % 64 == 0 && mappedRange x.dest x.size && !rangesMeet x.dest x.size base size
  | 4 => x.dest % 64 == 0 && mappedRange x.dest x.size && !rangesMeet x.dest x.size base size
  | 5 => x.size % 8 == 0 && (List.range (x.size / 8)).all fun i => present s (leAt (x.data img) (8 * i) 8)
  | 6 => x.size % 32 == 0 &&
    (let l := taskEntries (x.data img)
     l.all (taskOk data) && noRepeat (l.map fun b => leAt b 0 2))
  | _ => true

/-- The contents of the section of a type, where the image has it. -/
def sectionOf (img : List Byte) (l : List Sec) (t : Nat) : Option (List Byte) := (secsOf l t).head?.map (Sec.data img)

/-- Steps 3 to 5: the code and the step of a failure. -/
def loadCheck (s : State) (base size : Nat) (img : List Byte) (l : List Sec) : Option (Nat × Nat) :=
  let data (t : Nat) : List (Nat × Nat) := ((secsOf l 2).filter fun x => x.tileList.contains t).map fun x => (x.dest, x.size)
  if !featuresOk s (loadFeatures s) img then some (3, 3)
  else if !l.all (secOk s base size img data) then some (4, 4)
  else if (match sectionOf img l 7 with | some b => (mapFrom s b).isNone | none => false) then some (8, 4)
  else if (match sectionOf img l 8, sectionOf img l 9 with | some a, some b => (groupsFrom a b).isNone | _, _ => false) then some (9, 4)
  else if (match sectionOf img l 10 with | some b => (phSecFrom { s with load := { s.load with feat := some (loadFeatures s) } } b).isNone | none => false) then
    some (10, 4)
  else if (targetsOf img l).any fun t => !(tileState s t == .idle || tileState s t == .halted || tileState s t == .aborted) then some (5, 5)
  else none

/-- The image with its DIGEST field zero, over which DIGEST is computed (R128). -/
def digestInput (img : List Byte) : List Byte := img.take 0x40 ++ List.replicate 48 0 ++ img.drop 0x70

/-- The SHA-384 of step 2 is done; steps 3 to 5 follow. -/
def execImageDigestDone (s : State) : Host.Outcome State Fault Refusal :=
  .next (match s.load.run with
    | none => s
    | some w =>
      if w.next ≠ 2 then s
      else
        let r := memRead s w.base w.size
        if r.bad.isSome ∨ sha384 (digestInput r.data) ≠ slice r.data 0x40 48 then endLoad r.s 2 2
        else
          let s := r.s
          match stepOne w.size r.data (slice r.data (leAt r.data 16 8) (32 * leAt r.data 12 4)) with
          | none => endLoad s 2 1
          | some l =>
            match loadCheck s w.base w.size r.data l with
            | some (code, step) => endLoad s code step
            | none =>
              let f := loadFeatures s
              setF (s.onLoad fun q => { q with
                feat := some f, targets := targetsOf r.data l
                run := some { w with next := 6, head := r.data.take 128, map := (secsOf l 7).length == 1 } }) fHST_LOAD_STATUS_STEP 6)

/-! ### Steps 6 and 7 -/

/-- The writes of a section's contents: to the operand caches, or to memory. -/
def putSection (s : State) (x : Sec) (b : List Byte) : State :=
  if x.onTiles then x.tileList.foldl (fun s t => doWrites s t 0 [⟨true, x.dest, b⟩]) s
  else if x.typ = 3 then memWrite s x.dest b
  else if x.typ = 4 then memZero s x.dest x.size
  else s

/-- An uncorrectable error while a section is copied: its destination is undefined at 64-byte granularity. -/
def spoilSection (s : State) (x : Sec) (b : List Byte) : State :=
  if x.onTiles then x.tileList.foldl (fun s t => mixture s t 0 [⟨true, x.dest, b⟩]) s
  else if x.typ = 3 then mixture s 0 0 [⟨false, x.dest, b⟩]
  else s

/-- A TASKS entry goes to the TILE_START registers of its tile (R131). -/
def putTask (s : State) (b : List Byte) : State :=
  let t := leAt b 0 2
  setFs s [(fTILE_START_WIN_BASE t, leAt b 4 4 / 4096), (fTILE_START_WIN_SIZE t, leAt b 8 4 / 4096), (fTILE_START_ENTRY_ENTRY t, leAt b 0xC 4),
    (fTILE_START_ARG0_ARG t, leAt b 0x10 8), (fTILE_START_ARG1_ARG t, leAt b 0x18 8)]

/-- Entries of a later section replace those of an earlier one. -/
def addTasks (old new : List (List Byte)) : List (List Byte) :=
  old.filter (fun b => !(new.map fun c => leAt c 0 2).contains (leAt b 0 2)) ++ new

/-- A section writes to a tile of a die that is not UP: the load ends with IMAGE_PARTIAL (R499). -/
def writesDown (s : State) (x : Sec) (b : List Byte) : Bool :=
  let down (t : Nat) : Bool := !dieUp s (dieOf t)
  if x.onTiles then x.tileList.any down else x.typ == 6 && (taskEntries b).any fun e => down (leAt e 0 2)

/-- Step 6 over the sections in table order: the tasks so far, and whether every section has landed. -/
def copySections (base : Nat) : List Sec → List (List Byte) → State → List (List Byte) × Bool × State
  | [], tasks, s => (tasks, true, s)
  | x :: rest, tasks, s =>
    let r := if x.typ = 1 ∨ x.typ = 2 ∨ x.typ = 3 ∨ x.typ = 6 then memRead s (base + x.off) x.size
      else ⟨[], none, s⟩
    if r.bad.isSome then (tasks, false, spoilSection r.s x r.data)
    else if writesDown r.s x r.data then (tasks, false, r.s)
    else if x.typ = 6 then
      copySections base rest (addTasks tasks (taskEntries r.data)) ((taskEntries r.data).foldl putTask r.s)
    else copySections base rest tasks (putSection r.s x r.data)

/-- Read the section of a type again for its owner: none where the image has none; the flag says that a unit was bad. -/
def ownerRead (s : State) (base : Nat) (l : List Sec) (t : Nat) : Option (List Byte) × Bool × State :=
  match (secsOf l t).head? with
  | none => (none, false, s)
  | some x =>
    let r := memRead s (base + x.off) x.size
    (some r.data, r.bad.isSome, r.s)

/-- MAP_TABLES goes to its owner. -/
def handMap (s : State) (base : Nat) (l : List Sec) : Bool × State :=
  let r := ownerRead s base l 7
  if r.2.1 then (false, r.2.2)
  else match r.1.bind (mapFrom r.2.2) with
    | some m => (true, takeMap r.2.2 m)
    | none => (true, r.2.2)

/-- GROUPS with SCHEDULES go to theirs, and the power tables are built (R333). -/
def handGroups (s : State) (base : Nat) (l : List Sec) : Bool × State :=
  let a := ownerRead s base l 8
  let b := ownerRead a.2.2 base l 9
  if a.2.1 || b.2.1 then (false, b.2.2)
  else match a.1, b.1 with
    | some gs, some sch =>
      match groupsFrom gs sch with
      | some g => (true, g.tables.foldl buildPower (takeGroups b.2.2 g))
      | none => (true, b.2.2)
    | _, _ => (true, b.2.2)

/-- PIGEONHOLES go to theirs. -/
def handPhs (s : State) (base : Nat) (l : List Sec) : Bool × State :=
  let r := ownerRead s base l 10
  if r.2.1 then (false, r.2.2)
  else match r.1.bind (phSecFrom r.2.2) with
    | some m => (true, takePhs r.2.2 m)
    | none => (true, r.2.2)

/-- Step 7 in the order of R132; an owner behind a bad section keeps its earlier configuration. -/
def handOver (s : State) (base : Nat) (l : List Sec) : Bool × State :=
  let m := handMap s base l
  if !m.1 then m
  else
    let g := handGroups m.2 base l
    if !g.1 then g else handPhs g.2 base l

/-- Copying ends, and the sections go to their owners. -/
def execImageCopyDone (s : State) : Host.Outcome State Fault Refusal :=
  .next (match s.load.run with
    | none => s
    | some w =>
      if w.next ≠ 6 then s
      else
        let tab := memBytes s (w.base + leAt w.head 16 8) (32 * leAt w.head 12 4)
        match stepOne w.size w.head tab with
        | none => endLoad s 6 6
        | some l =>
          let (tasks, ok, s) := copySections w.base l [] s
          if !ok then endLoad s 6 6
          else
            let (ok, s) := handOver s w.base l
            if !ok then endLoad s 6 7
            else setF (s.onLoad fun q => { q with run := some { w with next := 7, tasks := tasks } }) fHST_LOAD_STATUS_STEP 7)

/-! ### Steps 8 and 9 -/

/-- The redraw and the tables are complete: step 8, and T_s 10 µs later. RDSYS JOB_ID returns the image's JOB_ID from here on
(DESIGN CHOICE: R128 names no instant; assumption log 27). -/
def execImageTakeoverDone (s : State) : Host.Outcome State Fault Refusal :=
  .next (match s.load.run with
    | none => s
    | some w =>
      if w.next ≠ 7 ∨ s.fab.redraw.isSome then s
      else
        let s := setFs s [(fHST_LOAD_STATUS_SPLIT, leAt w.head 0x34 1), (fHST_LOAD_STATUS_STEP, 8),
          (fCMP_MODE_DETERM, (bit (leAt w.head 0x30 4) 0).toNat)]
        let s := s.onPm fun p => { p with splitDue := true }
        s.onLoad fun q => { q with jobId := leAt w.head 0x28 8, run := some { w with next := 9, ts := s.now + 10000 } })

/-- Start the task of a TASKS entry with TFLAGS[0]. -/
def startEntry (s : State) (b : List Byte) : State :=
  let t := leAt b 0 2
  if !bit (leAt b 2 2) 0 ∨ !dieUp s (dieOf t) then s
  else wakeForStart (startTask s t (leAt b 4 4) (leAt b 8 4) (leAt b 0xC 4) (leAt b 0x10 8) (leAt b 0x18 8) (startReason s false)) t

/-- At T_s every start-at-load task begins, phase 0 begins with a new MAP_TABLES, and the load ends with IMAGE_OK (R133, R209). -/
def execLoadTaskStart (s : State) : Host.Outcome State Fault Refusal :=
  .next (match s.load.run with
    | none => s
    | some w =>
      if w.next ≠ 9 ∨ s.now < w.ts then s
      else
        let s := s.onLoad fun q => { q with refpers := bit (leAt w.head 0x30 4) 1, lastOk := some (slice w.head 0x40 48, leAt w.head 0x28 8) }
        let s := w.tasks.foldl startEntry s
        let s := if w.map then setF s (fCMP_PHASE_START_START 0) w.ts else s
        endLoad s 1 9)

end Sys2Proof.Machine
end

