-- ==== Sys2Proof/Machine/Firmware.lean ====
section
/-!
DEFINITION. The commands of the Postmaster's firmware, its banks and the event log (spec 17).
-/
namespace Sys2Proof.Machine

/-! ### Firmware operations (R546) -/

/-- An operation that the state does not allow: RESULT 7. -/
def fwBusy (s : State) : State := setF s fPM_FW_STATUS_RESULT 7

/-- PM_FW_CTL.LOAD: allowed in IDLE, STAGED and FAILED. The image is read from the window. -/
def fwLoad (s : State) : State :=
  let st := getF s fPM_FW_STATUS_STATE
  if !fwRuns s then s
  else if !(st == 0 || st == 4 || st == 6) then fwBusy s
  else
    let o := getF s fPM_FW_SRC_OFFSET
    let n := getF s fPM_FW_SIZE_SIZE
    if o % 4096 ≠ 0 ∨ n < 610 ∨ 25165824 < n ∨ 2 ^ 36 < o + n then fwReject s 1
    else
      let r := memRead s (stageBase s + o) n
      let s := setFs r.s [(fPM_FW_STATUS_STATE, 1), (fPM_FW_STATUS_RESULT, 0)]
      s.onPm fun p => { p with job := some ⟨r.data, r.bad.isSome⟩ }

def execPmFwLoad (s : State) : Host.Outcome State Fault Refusal := .next (fwLoad s)

/-- The firmware operation in state `st`, if one runs. -/
def fwJobIn (s : State) (st : Nat) : Option FwJob := if fwRuns s && getF s fPM_FW_STATUS_STATE == st then s.pm.job else none

/-- The image has been checked under R544. -/
def execFwVerifyDone (s : State) : Host.Outcome State Fault Refusal :=
  .next (match fwJobIn s 1 with
    | none => s
    | some j =>
      let r := if j.poison then 3 else if j.image.length ≠ 609 + fwSize j.image then 1 else fwCheck s j.image
      if r ≠ 0 then fwReject s r else setF s fPM_FW_STATUS_STATE 2)

/-- The inactive bank is erased, or the NOR device failed. -/
def execFwEraseDone (ok : Bool) (s : State) : Host.Outcome State Fault Refusal :=
  .next (match fwJobIn s 2 with
    | none => s
    | some _ =>
      let s := showBank (setBank s (inactiveBank s) (.bytes [])) (inactiveBank s)
      if ok then setF s fPM_FW_STATUS_STATE 3 else fwReject s 6)

/-- The image is in the bank, or the NOR device failed. The STATE stays PROGRAMMING for the readback. -/
def execFwProgramDone (ok : Bool) (s : State) : Host.Outcome State Fault Refusal :=
  .next (match fwJobIn s 3 with
    | none => s
    | some j => if ok then setBank s (inactiveBank s) (.bytes j.image) else fwReject s 6)

/-- The readback ends. -/
def execFwReadbackDone (ok : Bool) (s : State) : Host.Outcome State Fault Refusal :=
  .next (match fwJobIn s 3 with
    | none => s
    | some j =>
      let n := inactiveBank s
      if fwBankOf s n ≠ .bytes j.image then s
      else if !ok then fwReject (setBank s n (.bytes [])) 6
      else
        let s := fwState (showBank (s.onPm fun p => { p with job := none }) n) 4 0
        fwRecord s 0x101 0 0 n (fwVersion j.image) (fwSvn j.image))

/-- PM_FW_CTL.ACTIVATE: the staged bank goes on trial and the Postmaster restarts. `pc` is the PC at the restart. -/
def execActivate (pc : BitVec 32) (s : State) : Host.Outcome State Fault Refusal :=
  .next (if !fwRuns s then s
    else if getF s fPM_FW_STATUS_STATE ≠ 4 then fwBusy s
    else restartPm (writeSelector s (selector s).active (some (inactiveBank s)) 0) 1 pc.toNat)

/-- The running trial bank becomes the active one, and fuses raise the rollback counter to its SVN. -/
def commitTrial (s : State) : State :=
  let n := getF s fPM_STATUS_BANK
  let s := writeSelector s n none (selector s).trials
  let s := s.onPm fun p => { p with rollback := max p.rollback (bankSvn s n) }
  let s := setFs s [(fPM_FW_STATUS_STATE, 0), (fPM_FW_STATUS_RESULT, 0), (fPM_STATUS_TRIAL, 0)]
  fwRecord (setLeaf s 11 3) 0x102 0 0 n (bankVersion s n) s.pm.rollback

/-- PM_FW_CTL.COMMIT. -/
def execFwCommit (s : State) : Host.Outcome State Fault Refusal :=
  .next (if !fwRuns s then s else if getF s fPM_FW_STATUS_STATE ≠ 5 then fwBusy s else commitTrial s)

/-- Trial firmware has run for 60 s without a restart. -/
def execTrialAutoCommit (s : State) : Host.Outcome State Fault Refusal :=
  .next (if fwRuns s && getF s fPM_FW_STATUS_STATE == 5 && decide (s.pm.fwFrom + 60000000000 ≤ s.now) then commitTrial s else s)

/-! ### Restarts (R547) -/

/-- Firmware has not served the watchdog for 1 s. -/
def execWatchdog (pc : BitVec 32) (s : State) : Host.Outcome State Fault Refusal :=
  .next (if fwRuns s && decide (s.pm.fwFrom + 1000000000 ≤ s.now) then restartPm s 0 pc.toNat else s)

/-- The core and the SRAM are reset: after an uncorrectable SRAM error, or after a firmware fault. -/
def execPostmasterRestart (sram : Bool) (pc : BitVec 32) (s : State) : Host.Outcome State Fault Refusal :=
  .next (if fwRuns s then restartPm s (if sram then 2 else 3) pc.toNat else s)

/-- The boot ROM selects and verifies a bank (R545). At a start-up firmware starts; after a restart it waits for FIRMWARE_RESUME; with
no good bank the Postmaster halts. In boundary-scan mode only the boot ROM runs (R591). -/
def execBootBankSelect (s : State) : Host.Outcome State Fault Refusal :=
  .next (if !s.pm.pins.aon || s.pm.pins.rst || s.pm.pins.scan || s.pm.rom == .idle || s.pm.chosen.isSome then s
    else
      let r := selectBank s
      match r.2 with
      | none => setStage ((r.1.onPm fun p => { p with rom := .idle }).onBoot fun b => { b with held := if stage s = 8 then b.held else stage s }) 8
      | some n =>
        if r.1.pm.rom = .cold then setStage (startFirmware r.1 n) 1
        else r.1.onPm fun p => { p with chosen := some n })

/-- Firmware runs again after a restart and logs PM_RESTART; paused work resumes. A Postmaster that had halted for want of a bank and was
recovered goes on from the STAGE in which it halted; a start-up that a rail trip halted stays HALTED (R539, R610). -/
def execFirmwareResume (s : State) : Host.Outcome State Fault Refusal :=
  .next (match s.pm.rom, s.pm.chosen with
    | .restart cause pc, some n =>
      let s := if stage s = 8 ∧ !s.pm.boot.tripped then setStage s (max 1 s.pm.boot.held) else s
      overflowRecord (fwRecord (startFirmware s n) 0x105 1 0 cause pc 0)
    | _, _ => s)

/-! ### The event log (R540 to R543, R552) -/

/-- Firmware converts the oldest event of the queue into a record. -/
def execLogRecordWrite (s : State) : Host.Outcome State Fault Refusal :=
  .next (if !fwRuns s then s
    else
      let s := overflowRecord s
      match s.pm.evq with
      | [] => s
      | e :: r => putRecord (s.onPm fun p => { p with evq := r }) e)

/-- Firmware appends `n` records to the log area, at most 6,000 in any 60 s, and not while the NOR device is erased or programmed. -/
def execLogPersist (n : Nat) (s : State) : Host.Outcome State Fault Refusal :=
  .next (
    let st := getF s fPM_FW_STATUS_STATE
    let recent := s.pm.persists.filter fun x => decide (s.now < x.1 + 60000000000)
    let total : Nat := recent.foldl (fun a x => a + x.2) n
    let l := (unsaved s).take n
    if !fwRuns s || st == 2 || st == 3 || decide (6000 < total) || l.length != n || n == 0 then s
    else
      overflowRecord (s.onPm fun p => { p with
        nor := l.foldl areaAppend p.nor, persists := (s.now, n) :: recent
        saved := match l.getLast? with | some r => r.seq + 1 | none => p.saved }))

/-- A write of PM_LOG_SEL. -/
def execPmLogSel (seq : BitVec 32) (s : State) : Host.Outcome State Fault Refusal :=
  .next ((setF s fPM_LOG_SEL_SEQ seq.toNat).onPm fun p => { p with selAt := some s.now })

/-- 20 µs after the selection PM_LOG_DATA holds the record, or SEL_MISS is set. -/
def execLogSelDataReady (s : State) : Host.Outcome State Fault Refusal :=
  .next (match s.pm.selAt with
    | none => s
    | some t =>
      if s.now < t + 20000 then s
      else
        let s := s.onPm fun p => { p with selAt := none }
        match findRecord s (getF s fPM_LOG_SEL_SEQ) with
        | some r => (List.range 4).foldl (fun s i => setF s (fPM_LOG_DATA_DATA i) (leAt r.bytes (8 * i) 8)) s
        | none => (List.range 4).foldl (fun s i => setF s (fPM_LOG_DATA_DATA i) 0) (setF s fPM_LOG_STATUS_SEL_MISS 1))

/-- Firmware writes a recorded PORT_SPLIT to the settings block (R368). -/
def execSettingsWrite (s : State) : Host.Outcome State Fault Refusal :=
  .next (if fwRuns s && s.pm.splitDue then
      (writeSettings s (getF s fHST_LOAD_STATUS_SPLIT)).onPm fun p => { p with splitDue := false }
    else s)

end Sys2Proof.Machine
end

