-- ==== Sys2Proof/Machine/Link.lean ====
section
/-!
DEFINITION. Light FEC, link units, link retry and timebase synchronisation (spec 13 R437 to R441, R452; spec 12 R406, R431 to
R433; spec 11 R374).
-/
namespace Sys2Proof.Machine

/-! ### RS(272,256) over GF(2^10) (R438) -/

/-- Multiply by α = 0x002 modulo x^10 + x^3 + 1. -/
def fgX (a : Nat) : Nat := if a < 512 then 2 * a else (2 * a) ^^^ 0x409

def fgMul (a b : Nat) : Nat :=
  if a = 0 ∨ b = 0 then 0 else
  ((List.range 10).foldl (fun (p : Nat × Nat) i => ((if bit b i then p.1 ^^^ p.2 else p.1), fgX p.2)) (0, a)).1

/-- a to a power below 1,024. -/
def fgPow (a n : Nat) : Nat :=
  ((List.range 10).foldl (fun (p : Nat × Nat) i => ((if bit n i then fgMul p.1 p.2 else p.1), fgMul p.2 p.2)) (1, a)).1

def fgInv (a : Nat) : Nat := fgPow a 1022

/-- a, aα, aα², …: n elements. -/
def fgPowers : Nat → Nat → List Nat
  | 0, _ => []
  | n + 1, a => a :: fgPowers n (fgX a)

/-- A polynomial (constant term first) at x. -/
def fgEval (l : List Nat) (x : Nat) : Nat := l.reverse.foldl (fun a c => fgMul a x ^^^ c) 0

/-- The value of a received word, first symbol highest, at x. -/
def wordEval (w : List Nat) (x : Nat) : Nat := w.foldl (fun a c => fgMul a x ^^^ c) 0

/-- The syndromes at α^0 to α^15. -/
def fecSyndromes (w : List Nat) : List Nat := (List.range 16).map fun j => wordEval w (fgPow 2 j)

/-- Sum of two polynomials. -/
def polyAdd : List Nat → List Nat → List Nat
  | [], b => b
  | a, [] => a
  | x :: a, y :: b => (x ^^^ y) :: polyAdd a b

/-- The registers of the locator search. -/
structure Locator where
  c : List Nat
  b : List Nat
  len : Nat
  m : Nat
  d : Nat
deriving DecidableEq, Repr

/-- One step of the search for the shortest error locator. -/
def locatorStep (syn : List Nat) (r : Locator) (n : Nat) : Locator :=
  let d := (List.range (r.len + 1)).foldl (fun a i => a ^^^ fgMul (r.c.getD i 0) (if i ≤ n then syn.getD (n - i) 0 else 0)) 0
  if d = 0 then { r with m := r.m + 1 }
  else
    let k := fgMul d (fgInv r.d)
    let c := polyAdd r.c (List.replicate r.m 0 ++ r.b.map (fgMul k))
    if 2 * r.len ≤ n then ⟨c, r.c, n + 1 - r.len, 1, d⟩ else { r with c := c, m := r.m + 1 }

/-- Correct up to 8 symbols of a codeword: the errors as (symbol index, value); none where it is uncorrectable. -/
def fecErrors (w : List Nat) : Option (List (Nat × Nat)) :=
  let syn := fecSyndromes w
  if syn.all (· == 0) then some [] else
  let r := (List.range 16).foldl (locatorStep syn) ⟨[1], [1], 0, 1, 1⟩
  let omega := (List.range 16).map fun n =>
    (List.range (n + 1)).foldl (fun a i => a ^^^ fgMul (r.c.getD i 0) (syn.getD (n - i) 0)) 0
  let deriv := (List.range (r.c.length - 1)).map fun i => if i % 2 = 0 then r.c.getD (i + 1) 0 else 0
  -- Symbol i stands at α^(271 − i), whose inverse is α^(752 + i).
  let errs := ((fgPowers 272 (fgPow 2 752)).zipIdx).filterMap fun (xi, i) =>
    if fgEval r.c xi = 0 then some (i, fgMul (fgInv xi) (fgMul (fgEval omega xi) (fgInv (fgEval deriv xi)))) else none
  let fixed := errs.foldl (fun w e => replaceAt w e.1 (w.getD e.1 0 ^^^ e.2)) w
  if errs.length ≤ 8 ∧ (fecSyndromes fixed).all (· == 0) then some errs else none

/-- The number of ones of a 10-bit number. -/
def ones10 (n : Nat) : Nat := ((List.range 10).filter (bit n)).length

/-- The payload of 256 data symbols as 320 bytes, the first bit sent being the top bit of the first byte. -/
def fecPayload (w : List Nat) : List Byte :=
  let n := (w.take 256).foldl (fun a x => a * 1024 + x) 0
  (List.range 320).map fun j => BitVec.ofNat 8 (n / 2 ^ (8 * (319 - j)))

/-- The generator polynomial with roots α^0 to α^15, constant term first (R438). -/
def fecGen : List Nat :=
  (List.range 16).foldl (fun g j => polyAdd (0 :: g) (g.map (fgMul (fgPow 2 j)))) [1]

/-- The 16 check symbols of 256 data symbols: the remainder of the data times x^16 by the generator, highest coefficient first. -/
def fecCheck (data : List Nat) : List Nat :=
  let g := (fecGen.take 16).reverse
  data.foldl (fun r d =>
    let q := r.headD 0 ^^^ d
    ((r.drop 1 ++ [0]).zip g).map fun (x : Nat × Nat) => x.1 ^^^ fgMul q x.2) (List.replicate 16 0)

/-- The codeword of 320 payload bytes: the data symbols first, then the check symbols (R438). -/
def fecEncode (b : List Byte) : List Nat :=
  let n := b.foldl (fun a x => a * 256 + x.toNat) 0
  let data := (List.range 256).map fun i => n / 2 ^ (10 * (255 - i)) % 1024
  data ++ fecCheck data

/-! ### PAM4 (R437) -/

/-- The level of a pair of bits, the first bit sent being the higher one: 00, 01, 11, 10 are the levels 0 to 3. -/
def pamLevel (b : Nat) : Fin 4 := match b with | 0 => 0 | 1 => 1 | 3 => 2 | _ => 3

/-- The pair of bits of a level. -/
def pamBits (v : Fin 4) : Nat := match v with | 0 => 0 | 1 => 1 | 2 => 3 | 3 => 2

/-- The five levels of a symbol, whose most significant bit is sent first. -/
def symLevels (x : Nat) : List (Fin 4) := [8, 6, 4, 2, 0].map fun k => pamLevel (x / 2 ^ k % 4)

/-- The 1,360 levels of a codeword. -/
def cwLevels (w : List Nat) : List (Fin 4) := w.flatMap symLevels

/-- The symbols of received levels. -/
def levelSymbols (l : List (Fin 4)) : List Nat :=
  (List.range 272).map fun i => (List.range 5).foldl (fun a k => a * 4 + pamBits (l.getD (5 * i + k) 0)) 0

/-! ### Link units (R439) -/

/-- The next n flits of 64 bytes of a lane: the unit on its way, then the units behind it, and IDLE units. With `align` a unit begins only
where it ends within these flits. -/
def nextFlits : Nat → Bool → List Byte → List (List Byte) → List Byte × List Byte × List (List Byte)
  | 0, _, part, units => ([], part, units)
  | n + 1, align, part, units =>
    let (flit, part, units) :=
      if !part.isEmpty then (part.take 64, part.drop 64, units)
      else match units with
        | u :: rest => if align && decide (64 * (n + 1) < u.length) then (frameUnit 0 0 [], [], units) else (u.take 64, u.drop 64, rest)
        | [] => (frameUnit 0 0 [], [], [])
    let r := nextFlits n align part units
    (flit ++ r.1, r.2.1, r.2.2)

/-- The next k ≤ 28 bits of PRBS31 (x^31 + x^28 + 1, R452) after 31 bits, the oldest highest, and the 31 bits that then precede. -/
def prbsBits (k st : Nat) : Nat × Nat :=
  let v := (st / 2 ^ (31 - k)) ^^^ (st % 2 ^ 28 / 2 ^ (28 - k))
  (v, st * 2 ^ k % 2 ^ 31 + v)

/-- The 2,560 bits of the next payload of PRBS31, and the 31 bits that then precede. -/
def prbsNext (st : Nat) : Nat × Nat :=
  let q := (List.range 91).foldl (fun (a : Nat × Nat) _ => let b := prbsBits 28 a.2; (a.1 * 2 ^ 28 + b.1, b.2)) (0, st)
  let b := prbsBits 12 q.2
  (q.1 * 2 ^ 12 + b.1, b.2)

/-- A payload of 2,560 bits goes on in PRBS31 from the 31 bits before it; without them its own first 31 begin it. -/
def isPrbs (last : Option Nat) (n : Nat) : Bool :=
  let x := last.getD 0 * 2 ^ 2560 + n
  n != 0 && (x ^^^ (x / 2 ^ 28) ^^^ (x / 2 ^ 31)) % 2 ^ (if last.isSome then 2560 else 2529) == 0

/-- 2,560 bits as a payload. -/
def bitsPayload (n : Nat) : List Byte := (List.range 320).map fun j => BitVec.ofNat 8 (n / 2 ^ (8 * (319 - j)))

/-- A payload as 2,560 bits, the first bit sent highest. -/
def payloadBits (b : List Byte) : Nat := b.foldl (fun a x => a * 256 + x.toNat) 0

/-- The payload of the next codeword of a lane. A header begins a codeword at least once every 16: from the eighth one on that began inside
a unit no unit begins that would reach beyond its codeword, and the longest unit takes two codewords (R439). -/
def nextPayload (r : LaneRt) : List Byte × LaneRt :=
  let since := if r.txPart.isEmpty then 0 else r.sinceHead + 1
  let q := nextFlits 5 (decide (8 ≤ since)) r.txPart r.txUnits
  (q.1, { r with txPart := q.2.1, txUnits := q.2.2, sinceHead := since })

/-- The payload of PRBS31 that a lane in its check sends next. -/
def nextPrbs (r : LaneRt) : List Byte × LaneRt :=
  let q := prbsNext (if r.prbsTx = 0 then Config.prbsSeed % (2 ^ 31 - 1) + 1 else r.prbsTx)
  (bitsPayload q.1, { r with prbsTx := q.2 })

/-- One codeword leaves on every lane that has a unit to send (R437 to R439); one whose rings hold lock and that has nothing else to send sends
PRBS31 while it is checked and not held out (R452). -/
def sendLight (s : State) : State :=
  s.fab.lanes.foldl (fun s x =>
    let e := x.1 / 32
    let l := x.1 % 32
    let empty := x.2.txPart.isEmpty && x.2.txUnits.isEmpty
    if empty && !(isChecking s e l && ringLocked s e l && x.2.holdFrom.isNone) then s
    else
      let q := if empty then nextPrbs x.2 else nextPayload x.2
      setLane { s with wire := .light e l (cwLevels (fecEncode q.1)) :: s.wire } e l q.2) s

/-- The body length of a unit by its type; a PACKET's follows from its LEN. -/
def bodyLen (u : List Byte) : Nat :=
  match leAt u 0 1 with
  | 1 => 32 + leAt u 14 2
  | 2 => 12
  | 3 => 8
  | 4 => 64
  | 5 => 16
  | _ => 0

/-- A unit of the byte stream; none where its CRC fails or its UTYPE is reserved. -/
def unitOf (u : List Byte) : Option LinkUnit :=
  let n := bodyLen u
  if 5 < leAt u 0 1 ∨ 12 + n > u.length ∨ (12 + n + 63) / 64 * 64 ≠ u.length ∨ crc32 (u.take (8 + n)) ≠ leAt u (8 + n) 4 then none
  else some ⟨leAt u 0 1, leAt u 2 3, (u.drop 8).take n⟩

/-- Could these bytes begin with a unit header? -/
def headerLike (b : List Byte) : Bool :=
  decide (leAt b 0 1 ≤ 5) && decide (1 ≤ leAt b 1 1) && decide (leAt b 1 1 ≤ 10) && leAt b 5 3 == 0

/-- Cut whole units from a lane's byte stream: the lane and the units discarded. -/
def cutUnits : Nat → LaneRt → Nat → LaneRt × Nat
  | 0, r, n => (r, n)
  | f + 1, r, n =>
    if r.rx.length < 2 then (r, n)
    else
      let len := 64 * leAt r.rx 1 1
      if len = 0 ∨ 640 < len then ({ r with inStep := false, rx := [], rxBad := false }, n + 1)
      else if r.rx.length < len then (r, n)
      else
        let q := if r.rxBad then none else unitOf (r.rx.take len)
        let r := { r with rx := r.rx.drop len, rxBad := false }
        match q with
        | none => cutUnits f r (n + 1)
        | some u => cutUnits f (if u.utype = 0 then r else { r with units := r.units ++ [u] }) n

/-- The payload of a good codeword joins the byte stream; out of step it starts a stream when it begins with a header. -/
def feedLane (r : LaneRt) (b : List Byte) : LaneRt × Nat :=
  if r.inStep then cutUnits 24 { r with rx := r.rx ++ b } 0
  else if headerLike b then cutUnits 24 { r with inStep := true, rx := b, rxBad := false } 0
  else (r, 0)

/-- An uncorrectable codeword falls into the byte stream: the unit in it is spoiled; where a unit header would lie in it the
stream is out of step. -/
def spoilLane (r : LaneRt) : LaneRt × Nat :=
  if !r.inStep then (r, 0)
  else
    let need := 64 * leAt r.rx 1 1 - r.rx.length
    if r.rx.length < 2 ∨ need < 320 then ({ r with inStep := false, rx := [], rxBad := false }, 1)
    else cutUnits 2 { r with rx := r.rx ++ List.replicate 320 0, rxBad := true } 0

/-- A codeword of PRBS31 without an error on a lane in its check: once the identity unit has come, 20 µs of them pass the check (R452). It holds no
link unit. -/
def hearPrbs (now : Nat) (r : LaneRt) (n : Nat) : LaneRt :=
  let since := if r.identity then some (r.prbsFrom.getD now) else none
  { r with
    prbsRx := some (n % 2 ^ 31), prbsFrom := since
    prbsPass := r.prbsPass || (match since with | some t => decide (t + 20000 ≤ now) | none => false)
    inStep := false, rx := [], rxBad := false }

/-- A lane receives the 1,360 levels of one codeword and decodes it (R437, R438): lock after 8 good ones in a row, lost after 4 bad ones in a
row. -/
def execCodewordReceive (e : Eng) (l : Lane) (cw : List (Fin 4)) (s : State) : Host.Outcome State Fault Refusal :=
  .next (
    let r := laneRt s e.val l.val
    let w := levelSymbols cw
    match fecErrors w with
    | none =>
      let q := spoilLane { r with
        good := 0
        bad := r.bad + 1
        prbsRx := none, prbsFrom := none
        cwLock := r.cwLock && decide (r.bad + 1 < 4)
        uncorr := s.now :: r.uncorr.filter fun t => decide (s.now < t + 1000000) }
      let x : LaneRt := if q.1.cwLock then q.1 else { q.1 with inStep := false, rx := [] }
      addF (addF (setLane s e.val l.val x) (fOPT_LINK_EVENT_COUNT 2) 1) (fOPT_LINK_EVENT_COUNT 4) q.2
    | some errs =>
      let fixed := errs.foldl (fun w e => replaceAt w e.1 (w.getD e.1 0 ^^^ e.2)) w
      let nb := errs.foldl (fun a x => a + ones10 x.2) 0
      let x : LaneRt := { r with
        good := r.good + 1
        bad := 0
        cwLock := r.cwLock || decide (8 ≤ r.good + 1)
        errBits := if nb = 0 then r.errBits else (s.now, nb) :: r.errBits.filter fun t => decide (s.now < t.1 + 1000000) }
      let check := isChecking s e.val l.val
      let q := if check && isPrbs r.prbsRx (payloadBits (fecPayload fixed)) then (hearPrbs s.now x (payloadBits (fecPayload fixed)), 0)
        else
          let x := { x with prbsFrom := none, prbsRx := if check then some (payloadBits (fecPayload fixed) % 2 ^ 31) else none }
          if x.cwLock then feedLane x (fecPayload fixed) else (x, 0)
      let s := if e.val = 16 ∧ q.1.inStep then { s with fab := { s.fab with twinHeard := some s.now } } else s
      addF (addF (noteBer (setLane s e.val l.val q.1) e.val) (fOPT_LINK_EVENT_COUNT 3) errs.length) (fOPT_LINK_EVENT_COUNT 4) q.2)

/-! ### Link retry (R440, R441) and relay (R374) -/

/-- The full number of a received 24-bit LSEQ: the nearest to the highest received. -/
def fullSeq (high q : Nat) : Nat :=
  let m := 2 ^ 24
  let c := high / m * m + q
  if c + m / 2 ≤ high then c + m else if high + m / 2 < c ∧ m ≤ c then c - m else c

/-- Advance CUM over the numbers received. -/
def advanceCum : Nat → Nat → List Nat → Nat × List Nat
  | 0, c, l => (c, l)
  | f + 1, c, l => if l.contains c then advanceCum f (c + 1) (l.filter (· != c)) else (c, l)

/-- The receiver of a next hop takes a number: none where it is a duplicate or too old. -/
def takeSeq (h : Hop) (q : Nat) : Option Hop :=
  let n := fullSeq h.high q
  if n < h.cum ∨ h.got.contains n ∨ n + 65536 < h.high then none
  else
    let r := advanceCum (h.got.length + 1) h.cum (h.got ++ [n])
    some { h with cum := r.1, got := r.2, high := max h.high n, unacked := true }

/-- A packet whose destination is another module is relayed once (R374), through the forward pool of its class at its ingress port. -/
def relay (s : State) (port : Nat) (p : Packet) : State :=
  if p.fwd then s
  else match route s p.dest with
    | none => s
    | some (h, _) => transmit (addF s (fOPT_FAB_EVENT_COUNT 4) 1) h.key { p with fwd := true } (some port)

/-- The packet has come to the module that it is for, or from the twin. -/
def arrivesHere (s : State) (k : Nat) (p : Packet) : Bool := k == 130 || physOf s p.dest == ownPhys s

/-- The pool that a packet enters at a port is full (R408): 128 packets of its class at the destination, 64 at a relay. -/
def poolFull (s : State) (k port : Nat) (p : Packet) : Bool :=
  if arrivesHere s k p then decide (128 ≤ (s.fab.inq.filter fun x => x.port == port && x.p.cls == p.cls).length)
  else decide (64 ≤ forwardHeld s port p.cls)

/-- A PACKET unit (R441): delivered at most once by its LSEQ, into an ingress pool or to its second hop. One with a wrong HCRC
is left to link retry (R405); one whose pool is full waits on its lane; under a twin MISMATCH the twin port takes none (R384). -/
def execPacket (e : Eng) (l : Lane) (s : State) : Host.Outcome State Fault Refusal :=
  .next (match takeUnit s e.val l.val 1, laneHop s e.val l.val with
    | some (u, s1), some k =>
      if k = 130 ∧ getF s fOPT_TWIN_TSTATE = 2 then s1
      else match packetOf u.body with
      | none => addF s1 (fOPT_LINK_EVENT_COUNT 4) 1
      | some p =>
        match takeSeq (hopSt s k) u.lseq with
        | none => addF (setHop s1 k { (hopSt s k) with unacked := true }) (fOPT_LINK_EVENT_COUNT 6) 1
        | some h =>
          if poolFull s k e.val p then s
          else if arrivesHere s k p then
            let s := setHop s1 k h
            { s with fab := { s.fab with inq := s.fab.inq ++ [⟨e.val, s.now, p⟩] } }
          else relay (setHop s1 k h) e.val p
    | some (_, s1), none => s1
    | none, _ => s)

/-- A LINK_ACK unit (R440): units that it covers leave the replay buffer, which gives held units and waiting requests room (R409, R441); a missing
unit below a received one is noted. -/
def execLinkAck (e : Eng) (l : Lane) (s : State) : Host.Outcome State Fault Refusal :=
  .next (match takeUnit s e.val l.val 2, laneHop s e.val l.val with
    | some (u, s), some k =>
      let m := 2 ^ 24
      let c := leAt u.body 0 4 % m
      let map := leAt u.body 4 8
      let dist (q : Nat) : Nat := (q + m - c) % m
      let acked (x : TxUnit) : Bool := match x.lseq with
        | none => false
        | some q => decide (m / 2 ≤ dist q) || (decide (1 ≤ dist q) && decide (dist q ≤ 64) && bit map (dist q - 1))
      let top := if map = 0 then 0 else Nat.log2 map + 1
      let h := hopSt s k
      let note (x : TxUnit) : TxUnit := match x.lseq, x.shown with
        | some q, none => if dist q < top then { x with shown := some s.now } else x
        | _, _ => x
      pump (sendAllHeld (setHop s k { h with tx := (h.tx.filter fun x => !acked x).map note }))
    | some (_, s), none => s
    | none, _ => s)

/-- The receiver returns a LINK_ACK on an in-service lane toward the sender (R440); a unit that came again asks for one as well. -/
def execLinkAckSend (hop : Nat) (s : State) : Host.Outcome State Fault Refusal :=
  .next (
    let h := hopSt s hop
    match h.unacked, lanesTo s hop with
    | true, c :: _ => sendLinkAck s hop c.1 c.2
    | _, _ => s)

/-- A unit is resent 4 µs after its last send, or 1 µs after a LINK_ACK showed a later one received (R440). -/
def execLinkReplay (hop i : Nat) (s : State) : Host.Outcome State Fault Refusal :=
  .next (match (hopSt s hop).tx[i]? with
    | none => s
    | some u =>
      let due := (match u.sentAt with | some t => decide (t + 4000 ≤ s.now) | none => false) ||
        (match u.shown with | some t => decide (t + 1000 ≤ s.now) | none => false)
      if due && u.lseq.isSome && !(lanesTo s hop).isEmpty then addF (sendTx s hop i) (fOPT_LINK_EVENT_COUNT 5) 1 else s)

/-- An identity unit starts a lane check (R452). -/
def execIdentity (e : Eng) (l : Lane) (s : State) : Host.Outcome State Fault Refusal :=
  .next (match takeUnit s e.val l.val 3 with
    | none => s
    | some (_, s) => onLane s e.val l.val fun r => { r with identity := true })

/-! ### Timebase synchronisation (R431 to R433) -/

/-- The root: the active logical position with the smallest row, then column, whose module is not marked dead. -/
def rootPos (s : State) : Option Nat :=
  let rows := (List.range s.fab.shape.1).map fun i => 32 - s.fab.shape.1 / 2 + i
  (rows.flatMap fun r => (List.range s.fab.shape.2).map fun c => posOf r c).find? fun p => !isDead s (physOf s p)

/-- The level of this module: 0 the root, 1 in its column, 2 elsewhere. -/
def syncLevel (s : State) : Option Nat :=
  (rootPos s).map fun r => if physOf s r = ownPhys s then 0 else if posCol (physOf s r) = posCol (ownPhys s) then 1 else 2

/-- ROOT and LEVEL of CMP_TB_STATUS. -/
def setLevel (s : State) : State :=
  match syncLevel s with
  | none => s
  | some v => setFs s [(fCMP_TB_STATUS_ROOT, (v == 0).toNat), (fCMP_TB_STATUS_LEVEL, v)]

/-- Is the port the lowest in-service port of its role? -/
def lowestPort (s : State) (p : Nat) : Bool :=
  ((List.range 16).find? fun q => portRole s q == portRole s p && getF s (fOPT_PORT_PSTATE q) == pINSERVICE) == some p

/-- What this module is on the ports of a role: the child or the parent of the modules there, or neither (R431). -/
inductive SyncPart where
  | none | parent | child
deriving DecidableEq, Repr

/-- The child answers each frame of its parent once: it has heard one that it has not answered. -/
def SyncLink.answers (k : SyncLink) : Bool := k.heard && k.t3.isNone

/-- The root is the parent on all ports, a module of its column the child on its column ports and the parent on its row ports, any other
module the child on its row ports. -/
def syncPart (s : State) (role : Nat) : SyncPart :=
  match syncLevel s with
  | some 0 => .parent
  | some 1 => if role = 1 then .child else .parent
  | some _ => if role = 0 then .child else .none
  | none => .none

/-- Lane 0 of a port leads to the parent of this module: the root, or the module of the root's column in the own row. -/
def leadsToParent (s : State) (p : Nat) : Bool :=
  match rootPos s, (laneRt s p 0).tgt with
  | some r, some x => x.1 == if portRole s p = 1 then posRow (physOf s r) else posCol (physOf s r)
  | _, _ => false

def syncLink (s : State) (role : Nat) : SyncLink := mget (fun _ => SyncLink.start) s.fab.syncLinks role

def setSyncLink (s : State) (role : Nat) (x : SyncLink) : State :=
  { s with fab := { s.fab with syncLinks := mset (fun _ => SyncLink.start) s.fab.syncLinks role x } }

/-- A sync frame leaves on lane 0 of the lowest in-service port of a role, every 1 ms (R431): its body holds the own send stamp, t1 or t3, and
as the parent's t4 the stamp of the last frame received. The root counts it as its exchange. -/
def execSyncExchange (p : Port) (s : State) : Host.Outcome State Fault Refusal :=
  .next (
    let role := portRole s p.val
    let k := syncLink s role
    let due := match k.sentAt with | none => true | some t => decide (t + 1000000 ≤ s.now)
    let part := syncPart s role
    if !discovered s || !lowestPort s p.val || !due || part == .none || (part == .child && !k.answers) then s
    else
      let s := setLevel s
      let s := sendUnit s p.val 0 5 0 (toBytes 8 (2 * s.now) ++ toBytes 8 (if part = .parent then k.got else 0))
      let s := setSyncLink s role { k with
        sentAt := some s.now, t3 := if part = .child then some (2 * s.now) else k.t3, got := if part = .parent then 0 else k.got }
      if syncLevel s = some 0 then
        setF { s with fab := { s.fab with syncAt := some s.now, syncFirst := false } } fCMP_TB_STATUS_LOCKED 1
      else s)

/-- The 16-bit two's complement of a saturated offset. -/
def offset16 (x : Int) : Nat :=
  let v := max (-32768) (min 32767 x)
  (v % 65536).toNat

/-- A step of the timebase moves the instants of the exchange that are this module's own, so that the period and the pairs go on. -/
def SyncLink.shift (k : SyncLink) (ns : Int) : SyncLink :=
  let half (n : Nat) : Nat := if n = 0 then 0 else max 1 ((n : Int) + 2 * ns).toNat
  { k with sentAt := k.sentAt.map (fun n => ((n : Int) + ns).toNat), got := half k.got, t2 := half k.t2, t3 := k.t3.map half }

/-- The rate correction, in parts per 10^9, after an exchange with an offset (R432): it moves against the offset, and stays within 50 ppm. By how
much it moves the spec does not say (assumption log 10). -/
def nextRate (rate off : Int) (free : Nat) : Int :=
  let d : Int := 1 + free % 50000
  max (-50000) (min 50000 (if 0 < off then rate - d else if off < 0 then rate + d else rate))

/-- The child accepts an exchange of an offset in half nanoseconds (R432): the first one after discovery steps the timebase while
CMP_PHASE.VALID is 0; any other moves the rate correction, of at most 50 ppm, against the offset. -/
def acceptExchange (s : State) (off : Int) : State :=
  let ns := off / 2
  let s := setFs s [(fCMP_TB_STATUS_LOCKED, 1), (fCMP_TB_STATUS_OFFSET, offset16 ns)]
  if s.fab.syncFirst && !bitF s fCMP_PHASE_VALID then
    let t := ((s.now : Int) - ns).toNat
    { s with now := t, fab := { s.fab with
        syncAt := some t, syncFirst := false, syncLinks := s.fab.syncLinks.map fun p => (p.1, p.2.shift (-ns)) } }
  else
    let (w, s) := freshWord s
    { s with fab := { s.fab with syncAt := some s.now, syncFirst := false, rate := nextRate s.fab.rate off w.toNat } }

/-- A sync frame on lane 0 of the lowest in-service port of a role, stamped at reception at `ns` nanoseconds, with `half` half of one later
(R431). A parent notes its stamp. A child
takes the frame of its parent: with t1 and t2 of the frame before, t3 of its own answer and t4 in this one the exchange is complete. -/
def execSync (p : Port) (l : Lane) (ns : Nat) (half : Bool) (s : State) : Host.Outcome State Fault Refusal :=
  let t2 := 2 * ns + half.toNat
  .next (match takeUnit s p.val l.val 5 with
    | none => s
    | some (u, s) =>
      let s := setLevel s
      let role := portRole s p.val
      let k := syncLink s role
      if !discovered s || l.val != 0 || !lowestPort s p.val then s
      else match syncPart s role with
        | .none => s
        | .parent => setSyncLink s role { k with got := t2 }
        | .child =>
          if !leadsToParent s p.val then s
          else
            let t1 := leAt u.body 0 8
            let t4 := leAt u.body 8 8
            let s := setSyncLink s role { k with t1 := t1, t2 := t2, heard := true, t3 := none }
            match k.t3 with
            | some t3 => if t4 = 0 then s else acceptExchange s ((((k.t2 : Int) - k.t1) - ((t4 : Int) - t3)) / 2)
            | none => s)

/-- No sync frame was accepted for 10 ms (R433), since the last one or since discovery ended; the timebase keeps its last rate. -/
def execSyncLost (s : State) : Host.Outcome State Fault Refusal :=
  .next (match s.fab.syncAt with
    | none => s
    | some t =>
      if t + 10000000 ≤ s.now then
        let s := { s with fab := { s.fab with syncAt := none } }
        let s := raise (setF s fCMP_TB_STATUS_LOCKED 0) fCMP_FAB_ERR_SYNC_LOST
        let o := getF s fCMP_TB_STATUS_OFFSET
        postEvent s 0x68 2 5 0 (if o < 32768 then o else 2 ^ 64 - 65536 + o) 0
      else s)

end Sys2Proof.Machine
end

