-- ==== Sys2Proof/Machine/Laser.lean ====
section
/-!
DEFINITION. Lanes that drop and return, margin scans, and the Wellspring laser bank (spec 13 R442 to R455).
-/
namespace Sys2Proof.Machine

/-! ### Periods -/

/-- An action that recurs every `gap` ns may take place (key of Fab.doneAt). -/
def periodOver (s : State) (key gap : Nat) : Bool := since s (mget (fun _ => none) s.fab.doneAt key) gap

/-- It takes place now. -/
def markDone (s : State) (key : Nat) : State :=
  { s with fab := { s.fab with doneAt := mset (fun _ => none) s.fab.doneAt key (some s.now) } }

/-! ### Lanes -/

/-- The lock error of a lane in units of 0.05 GHz, since when it exceeds 2 GHz, and when it was last beyond 0.5 GHz. -/
def setLockErr (s : State) (e l : Nat) (v : BitVec 8) : State :=
  let far := decide (40 < v.toInt) || decide (v.toInt < -40)
  let out := decide (10 < v.toInt) || decide (v.toInt < -10)
  onLane (setF s (fOPT_LANE_LOCKERR e l) v.toNat) e l fun r => { r with
    offFrom := if far then some (r.offFrom.getD s.now) else none
    outAt := if out then some s.now else r.outAt }

/-- The temperature of an engine at an update, against the sample of at most 1 ms before: the bound on a lock error that R444 gives, in units of
0.05 GHz; none above 60 °C/ms, above 85 °C (R446), and without a sample. -/
def lockBound (s : State) (e : Nat) (temp : Int) : Option Int :=
  match mget (fun _ => none) s.fab.temps e with
  | none => none
  | some (t, was) =>
    let change := (temp - was).natAbs * 1000000
    if 85 < temp then none
    else if change ≤ 8 * (s.now - t) then some 6
    else if change ≤ 60 * (s.now - t) then some 36
    else none

/-- The lock error that a lane shows: the loop of a lane in service that is locked, in no redraw and no swap, keeps it within the bound. -/
def lockShown (s : State) (e l : Nat) (temp : Int) (v : BitVec 8) : BitVec 8 :=
  match lockBound s e temp with
  | none => v
  | some b =>
    if laneState s e l = lINSERVICE ∧ ringLocked s e l = true ∧ inSwap s e = false ∧ (e = 16 ∨ getF s (fOPT_PORT_PSTATE e) = pINSERVICE)
    then BitVec.ofInt 8 (max (-b) (min b v.toInt)) else v

/-- The feed-forward of an engine, by the coupling model and the current monitors of the four compute dies (R444). -/
def heaterLevel (s : State) (e : Nat) : Nat :=
  Config.feedForward (couplingModel s) ((List.range 4).map fun d => (getF s (fPWR_CURR_DA (d + 1)), (dieLoop s d).uv)) e

/-- The engine keeps the feed-forward, and a sample of its temperature once the last one is 1 ms old. -/
def setFeed (s : State) (e : Nat) (temp : Int) : State :=
  let old := match mget (fun _ => none) s.fab.temps e with | some x => decide (x.1 + 1000000 ≤ s.now) | none => true
  { s with fab := { s.fab with
      feed := mset (fun _ => 0) s.fab.feed e (heaterLevel s e)
      temps := if old then mset (fun _ => none) s.fab.temps e (some (s.now, temp)) else s.fab.temps } }

/-- The heater feed-forward of an engine is recomputed, every 1 µs; with it come the engine's temperature and the lock errors of its lanes
(R442, R444, R446). -/
def execFeedforwardUpdate (e : Eng) (temp : BitVec 8) (lock : List (BitVec 8)) (s : State) : Host.Outcome State Fault Refusal :=
  .next (if !periodOver s e.val 1000 then s
    else
      let s1 := setEngTemp (setFeed (markDone s e.val) e.val temp.toInt) e.val temp.toNat
      (lock.take 32).zipIdx.foldl (fun a x => setLockErr a e.val x.2 (lockShown s e.val x.2 temp.toInt x.1)) s1)

/-- A lane in service is dropped (R445): for a lock error above 2 GHz for 2 µs, for the loss of codeword lock, or for more than 16 uncorrectable
codewords in 1 ms. -/
def execLaneDrop (e : Eng) (l : Lane) (cause : Fin 3) (s : State) : Host.Outcome State Fault Refusal :=
  .next (
    let r := laneRt s e.val l.val
    let holds := match cause.val with
      | 0 => (match r.offFrom with | some t => decide (t + 2000 ≤ s.now) | none => false)
      | 1 => !r.cwLock
      | _ => decide (16 < (r.uncorr.filter fun t => decide (s.now < t + 1000000)).length)
    if laneState s e.val l.val = lINSERVICE ∧ holds = true then dropLane s e.val l.val cause.val else s)

/-- A dropped lane relocks, passes its lane check, in which it sends its own identity unit, and returns, unless it is held out (R445). Without a spare
the lanes of its engine return through their rechecks only (R454). -/
def execLaneRelock (e : Eng) (l : Lane) (pass : Bool) (s : State) : Host.Outcome State Fault Refusal :=
  .next (
    let r := laneRt s e.val l.val
    if laneState s e.val l.val = lDROPPED ∧ r.holdFrom.isNone ∧ !s.fab.narrow.contains e.val then
      let s1 := if ringLocked s e.val l.val then sendIdentity s e.val l.val else s
      if pass && laneChecked s e.val l.val then sendAllHeld (addF (setLaneState s1 e.val l.val lINSERVICE) (fOPT_LINK_EVENT_COUNT 1) 1) else s1
    else s)

/-- The 10 s of a lane that dropped three times are over, and it retries (R445). -/
def execLaneHoldoutEnd (e : Eng) (l : Lane) (s : State) : Host.Outcome State Fault Refusal :=
  .next (
    let r := laneRt s e.val l.val
    match r.holdFrom with
    | some t => if t + 10000000000 ≤ s.now then setLane s e.val l.val { r with holdFrom := none, drops := [] } else s
    | none => s)

/-- Does the running redraw still have this port to return? -/
def inRedraw (s : State) (p : Nat) : Bool :=
  match s.fab.redraw with
  | some r => r.wave2.contains p || r.running.any fun x => x.1 == p
  | none => false

/-- A lane leaves service for a margin scan, every OPT_SCAN_CTL.PERIOD_S seconds; no two lanes of a port scan at once (R449), and none during a redraw of its port (R551). -/
def execMarginScan (e : Eng) (l : Lane) (s : State) : Host.Outcome State Fault Refusal :=
  .next (if laneState s e.val l.val = lINSERVICE ∧ !inRedraw s e.val ∧ !inSwap s e.val ∧
      since s (laneRt s e.val l.val).scanFrom (1000000000 * getF s fOPT_SCAN_CTL_PERIOD_S) ∧
      (List.range 32).all (fun k => laneState s e.val k != lSCAN) then
      let s := onLane s e.val l.val fun r => { r with scanFrom := some s.now }
      addF (setLaneState s e.val l.val lSCAN) (fOPT_LINK_EVENT_COUNT 7) 1
    else s)

/-- A margin scan ends: the lane returns to service or is marked MARGIN_FAIL. -/
def execMarginScanEnd (e : Eng) (l : Lane) (ok : Bool) (s : State) : Host.Outcome State Fault Refusal :=
  .next (if laneState s e.val l.val = lSCAN then
      sendAllHeld (setLaneState s e.val l.val (if ok then lINSERVICE else lMARGINFAIL))
    else s)

/-! ### Sources (R450, R451) -/

/-- The lowest-numbered source in stage SPARE that no swap has taken (R453). -/
def nextSpare (s : State) : Option Nat :=
  (List.range 20).find? fun n => (laserSrc s n).stage == 3 && !(s.fab.swaps.any fun w => w.spare == n)

/-- A register of 16 bits as a number in 0.01 dBm. -/
def dbm (v : Nat) : Int := sx 16 v

/-- ARG1 of a laser record: the line power as 32 bits. -/
def powerArg (s : State) (n : Nat) : Nat := ((dbm (getF s (fLAS_SRC_POWER n))) % 2 ^ 32).toNat

/-- No spare remains (R454): the source stays connected, and its engine keeps only lanes that pass. -/
def sparesExhausted (s : State) (e : Nat) : State :=
  let s := raise (raise s fLAS_ERR_SPARES_EXHAUSTED) fOPT_LINK_ERR_PORT_NARROW
  { s with fab := { s.fab with narrow := if s.fab.narrow.contains e then s.fab.narrow else s.fab.narrow ++ [e] } }

/-- A source for which no spare remains stays connected (R454): the record of it, and its engine is narrow. -/
def keepSource (s : State) (n : Nat) : State :=
  match engineOf s n with
  | some e => sparesExhausted (postEvent s 0x123 2 0xB n 0x1F (powerArg s n)) e
  | none => s

/-- Where no spare remains, every other FADING or FAILING source whose swap is due and has not begun stays connected (R454); a FADING one is
due no more. -/
def exhaustRest (s : State) (but : Nat) : State :=
  if (nextSpare s).isSome then s
  else (List.range 20).foldl (fun s m =>
    let x := laserSrc s m
    if m == but || !x.due || 2 < x.stage || (s.fab.swaps.any fun w => w.old == m) then s
    else keepSource (setLaser s m (if x.stage = 2 then x else { x with due := false, fadingAt := none })) m) s

/-- A source enters FAILING (R451): where it feeds an engine its swap is due. A spare that fails is a spare no more. -/
def enterFailing (s : State) (n : Nat) : State :=
  let e := engineOf s n
  let none_ := (nextSpare s).isNone
  let s := raise (setLaser s n { (laserSrc s n) with stage := 2, due := e.isSome }) fLAS_ERR_LASER_FAILING
  let s := postEvent s 0x123 2 0xB n (if none_ then 0x1F else e.getD 0x1F) (powerArg s n)
  match none_, e with
  | true, some e => sparesExhausted s e
  | false, none => exhaustRest s n
  | _, _ => s

/-- A source is a working one: it feeds an engine. -/
def isWorking (s : State) (n : Nat) : Bool := (engineOf s n).isSome && (laserSrc s n).stage < 3

/-- The drive current after a step of the loop (R450): it does not fall while the power is below P0, nor rise while it is above. -/
def driveNext (power p0 : Int) (old new : Nat) : Nat :=
  if power < p0 then max old new else if p0 < power then min old new else new

/-- The drive loop of a working source, every 1 ms: the 1 ms mean of the delivered power, and the drive current that holds it at P0 (R450, R451). -/
def execLaserDriveAdjust (n : Fin 20) (power : BitVec 16) (drive : Fin 101) (s : State) : Host.Outcome State Fault Refusal :=
  .next (if !isWorking s n.val || !periodOver s (96 + n.val) 1000000 then s
    else setFs (markDone s (96 + n.val)) [(fLAS_SRC_POWER n.val, power.toNat),
      (fLAS_SRC_DRIVE n.val, driveNext (dbm power.toNat) (dbm (getF s (fLAS_SRC_P0 n.val))) (getF s (fLAS_SRC_DRIVE n.val)) drive.val)])

/-- A comb calibration of a working or a spare source, every 10 s (R448); `ok` is false where the lines cannot be brought within ±5 GHz. It waits
while a redraw or a swap runs (R551). -/
def execCombCalibration (n : Fin 20) (ok : Bool) (s : State) : Host.Outcome State Fault Refusal :=
  .next (if 3 < (laserSrc s n.val).stage ∨ !periodOver s (32 + n.val) 10000000000 ∨ s.fab.redraw.isSome ∨ !s.fab.swaps.isEmpty then s
    else if ok then markDone s (32 + n.val)
    else
      let s := raise (markDone s (32 + n.val)) fOPT_LINK_ERR_CAL_FAIL
      if (laserSrc s n.val).stage < 2 ∨ (laserSrc s n.val).stage = 3 then enterFailing s n.val else s)

/-- The error rate above 1e-6 has held for 10 s (R451). -/
def berHeld (s : State) (n : Nat) : Bool :=
  berAbove s n 106 && (match (laserSrc s n).berFrom with | some t => decide (t + 10000000000 ≤ s.now) | none => false)

/-- A NORMAL source meets a FADING condition (R451): its power and drive, or, with `ber`, an error rate above 1e-6 that has held for 10 s. -/
def execLaserFading (n : Fin 20) (ber : Bool) (s : State) : Host.Outcome State Fault Refusal :=
  .next (
    let low := decide (dbm (getF s (fLAS_SRC_POWER n.val)) ≤ dbm (getF s (fLAS_SRC_P0 n.val)) - 100) &&
      decide (85 ≤ getF s (fLAS_SRC_DRIVE n.val))
    let x := laserSrc s n.val
    if isWorking s n.val ∧ x.stage = 0 ∧ (low || (ber && berHeld s n.val)) then
      let s := raise (setLaser s n.val { x with stage := 1, fadingAt := some (x.fadingAt.getD s.now) }) fLAS_ERR_LASER_FADING
      postEvent s 0x122 1 0xB n.val ((engineOf s n.val).getD 0x1F) (powerArg s n.val)
    else s)

/-- A NORMAL or FADING source meets a FAILING condition (R451): its power, or, with `ber`, an error rate above 1e-5 over 1 ms. -/
def execLaserFailing (n : Fin 20) (ber : Bool) (s : State) : Host.Outcome State Fault Refusal :=
  .next (
    let low := decide (dbm (getF s (fLAS_SRC_POWER n.val)) ≤ dbm (getF s (fLAS_SRC_P0 n.val)) - 250)
    if isWorking s n.val ∧ (laserSrc s n.val).stage < 2 ∧ (low || (ber && berAbove s n.val 1062)) then enterFailing s n.val else s)

/-! ### Swaps (R451 to R455) -/

/-- A FADING swap, or a requested one, falls due at a phase boundary or 60 s after its entry; without a spare the source stays. -/
def execFadingSwapDue (n : Fin 20) (s : State) : Host.Outcome State Fault Refusal :=
  .next (
    let x := laserSrc s n.val
    match x.fadingAt with
    | none => s
    | some t =>
      if x.due || decide (t + 60000000000 ≤ s.now) then
        match nextSpare s, engineOf s n.val with
        | none, some _ =>
          keepSource (setLaser s n.val { x with due := false, fadingAt := none }) n.val
        | _, _ => setLaser s n.val { x with due := true }
      else s)

/-- Another source comes first when spares are short (R453): FAILING before FADING, then the lower engine. -/
def swapFirst (s : State) (n : Nat) : Bool :=
  let rank (m : Nat) : Nat := (if (laserSrc s m).stage = 2 then 0 else 100) + (engineOf s m).getD 99
  (List.range 20).all fun m => m == n || !(laserSrc s m).due || (s.fab.swaps.any fun w => w.old == m) || decide (rank n < rank m)

/-- A port leaves the running redraw for its swap (R379); where it was the last of wave 1, the interval of R377 starts. -/
def leaveRedraw (s : State) (p : Nat) : State :=
  let was := (s.fab.redraw.map fun r => r.wave1.contains p || r.wave2.contains p || r.running.any fun x => x.1 == p).getD false
  let s := onRedraw s fun r =>
    let w1 := r.wave1.filter (· != p)
    { r with wave1 := w1, wave2 := r.wave2.filter (· != p), running := r.running.filter fun x => x.1 != p
             wave1End := if w1.isEmpty && r.wave1End.isNone then some s.now else r.wave1End }
  match s.fab.redraw with
  | some r => if r.wave1.isEmpty && r.wave2.isEmpty && r.running.isEmpty && was then redrawOver s r else s
  | none => s

/-- The port carries traffic, or it drains or redraws. -/
def portWorks (s : State) (p : Nat) : Bool :=
  let v := getF s (fOPT_PORT_PSTATE p)
  v == pINSERVICE || v == pDRAINING || v == pREDRAWING

/-- A swapped port redraws with its swap (R379): one that works, or one that is down and is to carry lanes under the map in force. A port of a
sweep, or one that it marked, keeps its state (R382). -/
def swapDraws (s : State) (e : Nat) : Bool :=
  decide (e < 16) && (portWorks s e || (getF s (fOPT_PORT_PSTATE e) == pDOWN && !s.fab.mapBad && !(changedLanes s s.fab.map e).isEmpty))

/-- A swap starts: the port drains (R452). Where it takes the last spare, the other sources that are due stay connected (R454). -/
def execSwapStart (n : Fin 20) (s : State) : Host.Outcome State Fault Refusal :=
  .next (match engineOf s n.val, nextSpare s with
    | some e, some sp =>
      if (laserSrc s n.val).due && !inSwap s e && swapFirst s n.val then
        let w : Swap := ⟨e, n.val, sp, s.now, 0, (laserSrc s n.val).stage, getF s (fOPT_ENG_LANES e)⟩
        let s1 := { s with fab := { s.fab with swaps := s.fab.swaps ++ [w] } }
        exhaustRest (if e < 16 then
            leaveRedraw (if portWorks s e then setUnpaired (setF s1 (fOPT_PORT_PSTATE e) pDRAINING) e 0 else s1) e
          else s1) n.val
      else s
    | _, _ => s)

/-- The swap of an engine at a step. -/
def swapAt (s : State) (e step : Nat) : Option Swap := s.fab.swaps.find? fun w => w.eng == e && w.step == step

def setSwap (s : State) (w : Swap) : State :=
  { s with fab := { s.fab with swaps := s.fab.swaps.map fun x => if x.eng = w.eng then w else x } }

/-- The lanes of a swapped port take the lines of the map in force, and every lane that has moved to another line starts its check (R379).
While a map word is uncorrectable they keep their lines. -/
def retuneSwap (s : State) (e : Nat) : State :=
  let s := holdPort (setF s (fOPT_PORT_PSTATE e) pREDRAWING) e
  if s.fab.mapBad then s else tunePort s s.fab.map e lCHECK true

/-- The switch has moved to the spare and the rings have relocked on its lines; with a redraw of the port they take its new
lines (R379). Each lane that holds lock starts its check with an identity unit. -/
def execSwapSwitchDone (e : Eng) (s : State) : Host.Outcome State Fault Refusal :=
  .next (match swapAt s e.val 0 with
    | none => s
    | some w =>
      let s := setLaser s w.old { (laserSrc s w.old) with stage := 4, due := false, fadingAt := none, berFrom := none }
      let s := setSwap s { w with step := 1 }
      if e.val = 16 then
        let up := (List.range 32).filter fun l => laneState s 16 l == lINSERVICE
        sendIdentities (up.foldl (fun s l => onLane (setLaneState s 16 l lCHECK) 16 l LaneRt.uncheck) (holdPort s 16)) 16
      else if !swapDraws s e.val then s
      else
        sendIdentities ((List.range 32).foldl (fun s l =>
          if (laneRt s e.val l).tgt.isSome then
            onLane (setLaneState s e.val l lCHECK) e.val l fun r => { r.uncheck with moved := true } else s)
          (retuneSwap s e.val)) e.val)

/-- The swap checks end: 100 µs of PRBS31 on every lane, its first 20 µs without an error and the error rate over it all at most 1e-6 (R452). -/
def execSwapCheckEnd (e : Eng) (passed : BitVec 32) (s : State) : Host.Outcome State Fault Refusal :=
  .next (match swapAt s e.val 1 with
    | none => s
    | some w => (List.range 32).foldl (fun s l => sortLane s e.val l (passed.getLsbD l && laneChecked s e.val l && laneQuiet s e.val l))
        (setSwap s { w with step := 2 }))

/-- The switch feeds an engine from a spare, and the old source is off (R450, R451): its registers show it so, with a power that the spec does not
state for a source without light (a free value). -/
def feedFrom (s : State) (e old sp : Nat) : State :=
  let w := freshWord (setLaser (setLaser s old ⟨4, none, false, none⟩) sp ⟨0, none, false, none⟩)
  satF (setFs w.2 [(fLAS_MAP_SRC e, sp), (fLAS_MAP_SPARED e, 1), (fLAS_SRC_POWER old, w.1.toNat % 65536), (fLAS_SRC_DRIVE old, 0)])
    fLAS_STATUS_SWAPS 1

/-- The swapped port enters service and the spare is NORMAL; until then the registers show the state before the swap (R452, R457). Where the phase
changed after the switch, the lanes that the new map moves are retuned and checked first (R379). -/
def execSwapReturn (e : Eng) (s : State) : Host.Outcome State Fault Refusal :=
  .next (match swapAt s e.val 2 with
    | none => s
    | some w =>
      if swapDraws s e.val ∧ !s.fab.mapBad ∧ !(changedLanes s s.fab.map e.val).isEmpty then
        sendIdentities (retuneSwap (setSwap s { w with step := 1 }) e.val) e.val
      else
        let s := feedFrom { s with fab := { s.fab with swaps := s.fab.swaps.filter fun x => x.eng != e.val } } e.val w.old w.spare
        sendAllHeld (if e.val = 16 then shareHops s 16 else if portWorks s e.val then portEnters s e.val else s))

/-- The switch gives the engine of a source to the lowest spare during the bring-up, before any port carries traffic (R456); without a spare the
engine is narrow (R454). -/
def replaceEarly (s : State) (n : Nat) : State :=
  match engineOf s n, nextSpare s with
  | some e, some sp => feedFrom s e n sp
  | some _, none => keepSource s n
  | none, _ => s

/-- A source that cannot feed its engine: FAILING, or RETIRED and named by LAS_MAP again since a reset (R450). -/
def needsSpare (s : State) (n : Nat) : Bool :=
  ((laserSrc s n).stage == 2 || (laserSrc s n).stage == 4) && !(s.fab.swaps.any fun w => w.old == n)

/-- The engines report ready for discovery. A source that missed its step of the bring-up is FAILING by now, through COMB_CALIBRATION or
LASER_FAILING, and a spare replaces it before readiness, as it does a RETIRED one (R456, R451); one whose swap already runs is left to it
(assumption log 91). -/
def execOpticalReady (s : State) : Host.Outcome State Fault Refusal :=
  .next (if (startupAt s 4 || startupAt s 5) && s.fab.opticsOn.isSome && !s.fab.ready then
      let s := ((List.range 20).filter (needsSpare s)).foldl replaceEarly s
      tryReady ({ s with fab := { s.fab with ready := true } }.onBoot fun b => { b with optics := true })
    else s)

/-- LAS_CTL.SWAP of a source (R455): handled as a FADING swap, or rejected. -/
def execSwap (n : Fin 20) (s : State) : Host.Outcome State Fault Refusal :=
  .next (
    let s := setF s fLAS_CTL_SRC n.val
    let x := laserSrc s n.val
    if isWorking s n.val ∧ x.stage < 2 ∧ (nextSpare s).isSome then
      setLaser s n.val { x with fadingAt := match x.fadingAt with | some t => some t | none => some s.now }
    else setF s fLAS_STATUS_REQ_REJ 1)

/-- With no spare left the lanes of a narrow engine are rechecked every 10 s (R454): those that fail are dropped, those that
pass are kept or return. `passed` tells the outcome of the PRBS31 of a lane that carries traffic, which State does not follow (assumption log 92); a
dropped lane passes on what CODEWORD_RECEIVE brought. -/
def execLaneRecheck (e : Eng) (passed : BitVec 32) (s : State) : Host.Outcome State Fault Refusal :=
  .next (if !s.fab.narrow.contains e.val ∨ !periodOver s (64 + e.val) 10000000000 then s
    else sendAllHeld ((List.range 32).foldl (fun s l =>
      let st := laneState s e.val l
      if passed.getLsbD l && laneQuiet s e.val l && (st != lDROPPED || laneChecked s e.val l) then
        (if st = lDROPPED then setLaneState s e.val l lINSERVICE else s)
      else if st = lINSERVICE then dropLane s e.val l 2 else s) (markDone s (64 + e.val))))

end Sys2Proof.Machine
end

