-- ==== Sys2Proof/Machine/Twin.lean ====
section
/-!
DEFINITION. The commands of twin shadowing (spec 14): the map, enabling, the exchange of blocks, agreements, forced closure, the
loss of the twin, and restores.
-/
namespace Sys2Proof.Machine

/-- TWN_CTL.LOAD (R460, R481): the map is validated and loaded, or MAP_BAD is set and nothing changes. -/
def execTwnLoad (ranges : BitVec 7) (s : State) : Host.Outcome State Fault Refusal :=
  .next (
    let s := setF s fTWN_CTL_RANGES ranges.toNat
    let bad (s : State) : State := raise s fTWN_ERR_MAP_BAD
    let a := getF s fTWN_MAP_ADDR_ADDR
    let n := ranges.toNat
    if n = 0 ∨ 64 < n ∨ a % 64 ≠ 0 ∨ !mappedRange a (16 * n) ∨ twState s ≠ 0 then bad s
    else
      let r := memRead s a (16 * n)
      match (List.range n).mapM fun i => shEntry (slice r.data (16 * i) 16) with
      | none => bad r.s
      | some l =>
        if r.bad.isSome || !shMapOk r.s l then bad r.s
        else setF (onTwin r.s fun _ => { TwinSt.reset with ranges := l, crc := crc32 r.data }) fTWN_STATUS_MAP_OK 1)

/-- TWN_CTL.EN (R471): with 0 shadowing is OFF and the update gate is open. -/
def execEn (on : Bool) (s : State) : Host.Outcome State Fault Refusal :=
  .next (
    let s := setF s fTWN_CTL_EN on.toNat
    if on then s
    else
      let s := if twState s = 1 ∨ twState s = 4 then
          setFs (onTwin s fun w => { TwinSt.reset with ranges := w.ranges, crc := w.crc })
            [(fTWN_STATUS_STATE, 0), (fTWN_STATUS_EXPOSED, 0)]
        else s
      updRetry s)

/-- The twins exchange I, Lg and the CRC of their map tables (R462): the module's own leave, and those of the twin have come. Equal maps start
shadowing from empty, others leave it OFF. -/
def execMapExchange (i l : Nat) (crc : BitVec 32) (s : State) : Host.Outcome State Fault Refusal :=
  .next (if !bitF s fTWN_CTL_EN || !bitF s fTWN_STATUS_MAP_OK || twState s != 0 || !twinUp s then s
    else
    let s := { s with wire := .shadowMap (byFabric s) (shCount s false) (shCount s true) s.twin.crc :: s.wire }
    if i = shCount s false ∧ l = shCount s true ∧ crc.toNat = s.twin.crc then
      setF (shResync (onTwin s fun w => { TwinSt.reset with ranges := w.ranges, crc := w.crc, agrees := w.agrees }))
        fTWN_STATUS_STATE 1
    else raise s fTWN_ERR_MAP_MISMATCH)

/-- The next item of a kind is sent (R464, R466, R467), or the next one of a restore (R476). A log slot is free for step n
once the agreement of step n − 1 has closed. -/
def execShadowBlockSend (k : ShadowKind) (s : State) : Host.Outcome State Fault Refusal :=
  .next (
    let free (n : Nat) : Bool := decide (n ≤ nextAgree s)
    let put (x : ShadowOwed) (s : State) : State :=
      let d := itemData (noteSend s x.item) x.item
      { d.2.2.2 with wire := .shadow (byFabric s) x.item d.1 d.2.1 :: d.2.2.2.wire }
    let count (x : ShadowOwed) (s : State) : State :=
      let s := addF s (fTWN_EVENT_COUNT 0) 1
      if x.ever then addF s (fTWN_EVENT_COUNT 1) 1 else s
    if !twinUp s then s
    else if k = .restore then
      match s.twin.restore with
      | some r =>
        (match r.left with
         | x :: rest =>
           if twState s ≠ 2 then s
           else
             let d := restoreData s x
             let x := match x with | .header n _ => ShadowItem.header n (bit (leAt d.1 4 1) 1) | y => y
             let s := shadowUe d.2.2.2 d.2.2.1
             let s := noteSend (onTwin s fun w => { w with restore := some { r with left := rest, flying := r.flying + 1 } }) x
             addF { s with wire := .shadow (byFabric s) x d.1 d.2.1 :: s.wire } (fTWN_EVENT_COUNT 0)
               (match x with | .image _ => 1 | .log _ _ => 1 | _ => 0)
         | [] => s)
      | none => s
    else if twState s ≠ 1 then s
    else match k with
      | .image => match takeOwed (fun _ => true) s.twin.image with
        | some (x, l) => count x (put x (onTwin s fun w => { w with image := l, sent := noteSent w.sent x.item }))
        | none => s
      | .log => match takeOwed (fun x => match x with | .log n _ => free n | _ => false) s.twin.log with
        | some (x, l) => count x (put x (onTwin s fun w => { w with log := l, sent := noteSent w.sent x.item }))
        | none => s
      | .header => match takeOwed (fun x => match x with | .header n _ => free n | _ => false) s.twin.extra with
        | some (x, l) => put x (onTwin s fun w => { w with extra := l })
        | none => s
      | _ => match takeOwed (fun x => match x with | .record _ => true | _ => false) s.twin.extra with
        | some (x, l) => put x (onTwin s fun w => { w with extra := l })
        | none => s)

/-- As receiver, the module writes an item into the receiver area and acknowledges it (R461, R466, R467). -/
def receiveShadow (s : State) (x : ShadowItem) (data : List Byte) (poison : List Nat) : State :=
  let done (s : State) : State := { s with wire := .shadowAck (byFabric s) x :: s.wire }
  let slot (n : Nat) (s : State) : State :=
    onTwin s fun w => { w with slots := if w.slots.contains (n % 2) then w.slots else (n % 2) :: w.slots }
  match x with
  | .image i =>
    if shCount s false ≤ i then s
    else
      let s := writeShadow s (rxImage s (1 - curBank s i) i) (slice data 0 shBlock) poison
      done (onTwin s fun w => { w with pend := if w.pend.contains i then w.pend else i :: w.pend })
  | .log n j =>
    if shCount s true ≤ j then s else done (slot n (writeShadow s (rxLog s (n % 2) j) (slice data 0 shBlock) poison))
  | .header n nf => done (slot n (writeShadow s (rxHeader s (n % 2)) (headerBytes n nf) []))
  | .record n => done (writeShadow s (rxRecord s (n % 2)) (slice data 0 32768) poison)

/-- The spare writes an item of a restore to its own map address, and the step record to STEP_REC (R476). -/
def receiveRestore (s : State) (x : ShadowItem) (data : List Byte) (poison : List Nat) : State :=
  let plain : ShadowItem := match x with
    | .image i => .image i
    | .log _ j => .log 0 j
    | .header _ _ => .header 0 false
    | .record _ => .record 0
  match s.twin.restore with
  | none => s
  | some r =>
    if !r.left.contains plain then s
    else
      let s := match x with
        | .image i => writeShadow s (shAddr s false i) (slice data 0 shBlock) poison
        | .log _ j => writeShadow s (shAddr s true j) (slice data 0 shBlock) poison
        | .header _ _ => s
        | .record _ => writeShadow s (getF s fUPD_STEP_REC_ADDR) (slice data 0 32768) poison
      let h := match x with | .header n nf => some (n, nf) | _ => r.header
      let s := onTwin s fun w => { w with restore := some { r with left := r.left.filter (· != plain), header := h } }
      { s with wire := .shadowAck (byFabric s) x :: s.wire }

/-- The twin acknowledges an item, or an item of the twin arrives (R464, R466). -/
def execShadowBlockAck (m : ShadowMsg) (s : State) : Host.Outcome State Fault Refusal :=
  .next (match m, twState s with
    | .acked x, 1 =>
      shLand (onTwin (noteAck s x) fun w => { w with image := ackOwed w.image x, log := ackOwed w.log x, extra := ackOwed w.extra x })
    | .acked x, 2 => onTwin (noteAck s x) fun w => { w with restore := w.restore.map fun r => { r with flying := r.flying - 1 } }
    | .landed, 1 => peerLands s
    | .arrived x d p, 1 => receiveShadow s x d p
    | .arrived x d p, 3 => receiveRestore s x d p
    | _, _ => s)

/-- The module arrives at the agreement of the next step (R468). -/
def execAgreementArrive (s : State) : Host.Outcome State Fault Refusal :=
  .next (
    let n := nextAgree s
    let a := agreeOf s n
    if a.own || !takesPart s || !isResolved s n || !(noTwin s || shadowed s n) then s
    else
      let s := if noTwin s then setF (addF s (fTWN_EVENT_COUNT 4) 1) fTWN_STATUS_EXPOSED 1 else s
      pump (agreeAdvance (sendAgree (setAgree s { a with own := true }) false n) n))

/-- An agreement message of member j of the row or column stage for a step is counted (R469). -/
def countArrival (s : State) (col : Bool) (j n : Nat) : State :=
  if !takesPart s || decide (n ≤ agreed s) then s
  else
    let a := agreeOf s n
    let add (l : List Nat) : List Nat := if l.contains j then l else j :: l
    agreeAdvance (setAgree s (if col then { a with col := add a.col } else { a with row := add a.row })) n

/-- The agreement message of member j leaves its ingress pool. -/
def execAgreementMessage (col : Bool) (j : Fin 64) (step : BitVec 32) (s : State) : Host.Outcome State Fault Refusal :=
  .next (match agreeAt s col j.val step.toNat with
    | none => s
    | some i => pump (takeIn s i tBARRIER fun _ s => countArrival s col j.val step.toNat))

/-- Both stages are complete: the agreement of the step closes on the module (R470). -/
def execAgreementClose (s : State) : Host.Outcome State Fault Refusal :=
  .next (
    let n := nextAgree s
    let a := agreeOf s n
    if takesPart s && a.own && a.rowDone && stageFull s true a.col then agreeClose s n else s)

/-- TWN_CTL.FORCE (R473): the agreement of TWN_TARGET closes on a module that has arrived at it. -/
def execForce (s : State) : Host.Outcome State Fault Refusal :=
  .next (
    let n := getF s fTWN_TARGET_T
    if n ≤ agreed s then s
    else if n = agreed s + 1 ∧ (agreeOf s n).own then agreeClose s n
    else setF s fTWN_STATUS_TARGET_REJ 1)

/-- The module declares its twin lost (R475): 50 µs of silence on the twin port, or a shadow packet that was not acknowledged
in time. During a restore both twins are lost (R481). -/
def execTwinLost (s : State) : Host.Outcome State Fault Refusal :=
  .next (if twState s = 0 ∨ twState s = 4 ∨ s.twin.lost ∨ !twinSilent s then s
    else
      let again (l : List ShadowOwed) : List ShadowOwed := l.map fun x => { x with owed := true, flying := 0 }
      let during := twState s != 1
      let s := onTwin s fun w =>
        { w with pend := [], lost := true, image := again w.image, log := again w.log, extra := again w.extra, restore := none,
                 sends := [], ownLanded := false, peerLanded := false }
      let s := setF (raise s fTWN_ERR_TWIN_LOST) fTWN_STATUS_EXPOSED 1
      let s := postEvent s 0x130 2 0xC 0 (agreed s) (twinPhys s)
      if during then setF (raise s fTWN_ERR_RESTORE_FAIL) fTWN_STATUS_STATE 4 else s)

/-- TWN_CTL.RESTORE_TX (R476): every IMAGE block from its current bank, the step-record copy of epoch T − 1, and log slot T
mod 2, for T of TWN_TARGET. -/
def execRestoreTx (s : State) : Host.Outcome State Fault Refusal :=
  .next (if !bitF s fTWN_STATUS_MAP_OK || twState s == 2 || twState s == 3 then s
    else
      let t := getF s fTWN_TARGET_T
      let l := (List.range (shCount s false)).map ShadowItem.image ++ [ShadowItem.record (t - 1)] ++
        (List.range (shCount s true)).map (ShadowItem.log t) ++ [ShadowItem.header t false]
      setF (onTwin s fun w => { w with restore := some ⟨l, 0, none⟩, lost := false }) fTWN_STATUS_STATE 2)

/-- TWN_CTL.RESTORE_RX (R476): the spare is ready to receive. -/
def execRestoreRx (s : State) : Host.Outcome State Fault Refusal :=
  .next (if !bitF s fTWN_STATUS_MAP_OK || twState s == 2 || twState s == 3 then s
    else
      let l := (List.range (shCount s false)).map ShadowItem.image ++ [ShadowItem.record 0] ++
        (List.range (shCount s true)).map (ShadowItem.log 0) ++ [ShadowItem.header 0 false]
      setF (onTwin s fun w =>
        { TwinSt.reset with ranges := w.ranges, crc := w.crc, agrees := w.agrees, restore := some ⟨l, 0, none⟩ })
        fTWN_STATUS_STATE 3)

/-- The spare's update state from the restored step record (R343, R476), then the resolution of T, and AGREED = T. -/
def takeRestored (s : State) (t : Nat) (nf : Bool) : State :=
  let r := memRead s (getF s fUPD_STEP_REC_ADDR) 32768
  let s := setFs r.s [(fUPD_STEP_COMMITTED, leAt r.data 0 8), (fUPD_STEP_OPEN, leAt r.data 8 8),
    (fUPD_STATUS_RES1_V, 0), (fUPD_STATUS_RES1_NONFIN, 0), (fUPD_STATUS_RES2_V, 0), (fUPD_STATUS_RES2_NONFIN, 0)]
  let s := (List.range 4096).foldl (fun s g =>
    setFs s [(fUPD_GROUP_T g, leAt r.data (0x1000 + 4 * g) 4),
      (fUPD_GROUP_BANK g, (bit (leAt r.data (0x440 + g / 8) 1) (g % 8)).toNat)]) s
  setF (takeAhead (resolve s t nf).2) fTWN_STEPS_AGREED t

/-- A restore ends (R476, R477). The twin resynchronises as sender; the spare takes its update state over and is ACTIVE with an
empty receiver. -/
def execRestoreEnd (s : State) : Host.Outcome State Fault Refusal :=
  .next (match s.twin.restore with
    | none => s
    | some r =>
      if !r.left.isEmpty || r.flying != 0 then s
      else
        let s := addF (onTwin s fun w => { w with restore := none }) (fTWN_EVENT_COUNT 5) 1
        if twState s = 2 then setF (shResync s) fTWN_STATUS_STATE 1
        else
          let h := r.header.getD (0, false)
          let s := setFs (takeRestored s h.1 h.2) [(fTWN_STATUS_STATE, 1), (fTWN_STATUS_EXPOSED, 1)]
          updRetry s)

end Sys2Proof.Machine
end

