-- ==== Sys2Proof/Machine/RegView.lean ====
section
/-!
DEFINITION. What a read of a register returns, without any side effect: the fields of State's register file, and the fields that
report other state as it is at the read (the fields marked live, and counts and flags of units).
-/
namespace Sys2Proof.Machine

/-- A Boolean as a bit. -/
def b2n (b : Bool) : Nat := b.toNat

/-! ### Tiles -/

/-- STATE of TILE_STATUS (R80). -/
def TaskState.code : TaskState → Nat
  | .idle => 0
  | .running => 1
  | .halted => 2
  | .aborted => 3
  | .fenced => 4

/-- The core or a head waits for a token, a pigeonhole or a barrier. -/
def tileWaiting (x : Tile) : Bool :=
  x.coreWait.isSome || x.msg.gw.isSome ||
  [Engine.matrix, .vector, .stream, .message].any fun e => match getQueue x e with
    | [] => false
    | h :: _ => h.waitFrom.isSome || h.held.isSome

/-- QNE: bit 0 matrix, 1 vector, 2 stream, 3 message. -/
def queueBits (x : Tile) : Nat :=
  b2n (!x.mat.queue.isEmpty) + 2 * b2n (!x.vec.queue.isEmpty) + 4 * b2n (!x.str.queue.isEmpty) + 8 * b2n (!x.msg.queue.isEmpty)

/-- TILE_ fields of tile t; `k` is the index of a second array dimension. A tile whose fold is due reads as after the fold: the 20 bits of
L1 hold no 2^20, and a read mixes no two states (R172). The spec leaves open how HELD_KIB counts a KiB in part use, and what WINDOW and REPLAY_N read while
a replay buffer is executed again: HELD_KIB rounds up, WINDOW reads 0 and REPLAY_N the entries still to be executed (DESIGN CHOICE, assumption log
92). -/
def tileView (s : State) (reg fld : String) (t k : Nat) : Option Nat :=
  let x := s.tile t
  let acc (a0 : Acc) (n : Nat) : Option Nat :=
    let a := if a0.l1 = 2 ^ 20 then a0.fold else a0
    match fld with
    | "UNVERIFIED" => some (b2n a.unverified)
    | "WRITING" => some (b2n (accWriting x n))
    | "OVF16" => some (b2n a.ovf16)
    | "NONFIN" => some (b2n a.nonfin)
    | "BOUND_LAPSED" => some (b2n a.lapsed)
    | "FOLDED" => some (b2n a.folded)
    | "L1" => some a.l1
    | "L2" => some a.l2
    | _ => none
  match reg, fld with
  | "TILE_STATUS", "CLK" => some (clusterState s (clusterOf t))
  | "TILE_STATUS", "QNE" => some (queueBits x)
  | "TILE_STATUS", "WAITING" => some (b2n (tileWaiting x))
  | "TILE_STATUS", "STATE" => some (tileState s t).code
  | "TILE_TOKEN", "COUNT" => some (tkCount x k)
  | "TILE_QOCC", "MSG" => some x.msg.queue.length
  | "TILE_QOCC", "STR" => some x.str.queue.length
  | "TILE_QOCC", "VEC" => some x.vec.queue.length
  | "TILE_QOCC", "MAT" => some x.mat.queue.length
  | "TILE_PC", "PC" => some x.pc
  | "TILE_ACC0_STATUS", _ => acc x.mat.a0 0
  | "TILE_ACC1_STATUS", _ => acc x.mat.a1 1
  | "TILE_ACC0_COUNT", _ => acc x.mat.a0 0
  | "TILE_ACC1_COUNT", _ => acc x.mat.a1 1
  | "TILE_VEC_STATUS", "HELD_KIB" => some (match x.vec.win with | some w => (heldBytes w + 1023) / 1024 | none => 0)
  | "TILE_VEC_STATUS", "REPLAY_N" => some (match x.vec.win with | some w => w.replay.length | none => x.vec.redo.length)
  | "TILE_VEC_STATUS", "OCM" => some (b2n x.vec.r.ocm)
  | "TILE_VEC_STATUS", "PERS" => some x.vec.r.pers
  | "TILE_VEC_STATUS", "REPLAYING" => some (b2n !x.vec.redo.isEmpty)
  | "TILE_VEC_STATUS", "WINDOW" => some (b2n x.vec.win.isSome)
  | "TILE_FILL_STATUS", "OPT_N" => some x.fill.opt.length
  | "TILE_FILL_STATUS", "DEFER_N" => some x.fill.defer.length
  | "TILE_FILL_STATUS", "WB" => some (b2n x.fill.move.isSome)
  | "TILE_FILL_STATUS", "RES_V" => some (b2n x.fill.res.isSome)
  | "TILE_FILL_STATUS", "BOUND" => some (b2n x.fill.bound.isSome)
  | "TILE_FILL_STATUS", "BACC" => some (x.fill.bound.getD 0)
  | "TILE_FILL_STATUS", "HOLD" => some (b2n (phaseHolds s))
  | "TILE_FILL_STATUS", "LEVEL" => some x.fill.level
  | "TILE_DEFER_RESIDENT", "GROUP" => some (match x.fill.res with | some r => r.2 | none => 0)
  | "TILE_DEFER_RESIDENT", "ADDR" => some (match x.fill.res with | some r => r.1 | none => 0)
  | "TILE_STR_STATUS", "REMOUT" => some (remOut x)
  | "TILE_STR_STATUS", "MEMOUT" => some (memOut x)
  | "TILE_STR_STATUS", "PFACT" =>
    let n : Nat := (List.range 8).foldl (fun a i => if (pfOf x i).active then a + 2 ^ i else a) 0
    some n
  | "TILE_VERIFY_STATUS", "RECOMPUTING" => some (b2n !x.mat.recompute.isEmpty)
  | "TILE_VERIFY_STATUS", "SNAP_ACC" => some (match x.mat.snap with | some p => p.1 | none => 0)
  | "TILE_VERIFY_STATUS", "SNAP_BUSY" => some (b2n x.mat.snap.isSome)
  | "TILE_VERIFY_STATUS", "CHAIN1" => some x.mat.a1.chain.length
  | "TILE_VERIFY_STATUS", "CHAIN0" => some x.mat.a0.chain.length
  | "TILE_PF", f =>
    let p := pfOf x k
    match f with
    | "ROUNDS" => some p.rounds
    | "REMOTE" => some (b2n (p.active && p.remote))
    | "HELD" => some (if p.active then p.entries.length else 0)
    | "ACTIVE" => some (b2n p.active)
    | "PERSIST" => some (b2n (p.active && p.persist))
    | "DEPTH" => some (if p.active then p.depth else 0)
    | _ => none
  | _, _ => none

/-! ### The other blocks -/

/-- The pigeonhole of a kind that the PIGEONHOLES section names, if any. -/
def phOfKind (s : State) (kind : Nat) : Option Nat := (s.mail.phs.find? fun p => p.2.kind == kind).map (·.1)

/-- Bits of the dies that satisfy p. -/
def dieBits (p : Nat → Bool) : Nat := (List.range 4).foldl (fun a d => if p d then a + 2 ^ d else a) 0

/-- The whole-W mean of the input power over the last 1 ms. -/
def inputW (s : State) : Nat :=
  let l := s.pwr.power
  let t : Nat := l.foldl (· + ·) 0
  if l.isEmpty then 0 else t / l.length / 1000

/-- A thermal ceiling is below 30, or R523 or R524 acts. -/
def thermActs (s : State) : Bool :=
  (List.range 4).any fun d => decide (getF s (fCLK_DIE_THERM d) < 30) || (dieLoop s d).limit || (dieLoop s d).rot.isSome

/-- The records from OBS_TRACE_READ on; SEQ counts modulo 2^32 (R582). -/
def unreleased (s : State) : Nat :=
  if getF s fOBS_TRACE_READ_SEQ ≤ s.obs.nextSeq then (s.obs.nextSeq - getF s fOBS_TRACE_READ_SEQ) % 2 ^ 32 else 0

/-- The ring holds no free record (R580): with WRAP = 0 the next SEQ would overwrite one that was not released. -/
def ringFull (s : State) : Bool :=
  !bitF s fOBS_CTL_WRAP && decide (getF s fOBS_TRACE_SIZE_PAGES * 128 ≤ unreleased s)

/-- Fields of the other blocks; `k` is the register's index in its array. -/
def blockView (s : State) (reg fld : String) (k : Nat) : Option Nat :=
  match reg, fld with
  | "CMP_PHASE", "REDRAWING" => some (b2n s.fab.redraw.isSome)
  | "TIER_DIR_PH", "VALID" => some (b2n (phOfKind s kDIRECTORY).isSome)
  | "TIER_DIR_PH", "PH" => some ((phOfKind s kDIRECTORY).getD 0)
  | "TIER_FLASH_INFO", "LIFE" => some s.tier.life
  | "TIER_FLASH_INFO", "SPARE" => some s.tier.spare
  | "UPD_PH", "VALID" => some (b2n (phOfKind s kUPDATE).isSome)
  | "UPD_PH", "PH" => some ((phOfKind s kUPDATE).getD 0)
  | "UPD_STATUS", "EVAL" => some (b2n (inEval s))
  | "UPD_STATUS", "ENG_BUSY" => some (engBusy s)
  | "OPT_PORT", "WAVE2" => some (match s.fab.redraw with | some r => b2n (r.second.contains k) | none => 0)
  | "OPT_PORT", "ROLE" => some (portRole s k)
  | "MBX_CFG", "OWNER" => some (if (phEntry s k).kind == kDEFER || (phEntry s k).kind == kOPT then (phEntry s k).owner else 0)
  | "MBX_CFG", "SEAL" => some (b2n (phEntry s k).sealed)
  | "MBX_CFG", "STAGE" => some (b2n (phEntry s k).stage)
  | "MBX_CFG", "KIND" => some (phEntry s k).kind
  | "MBX_COUNT", "COUNT" => some (phCount s k)
  | "MBX_HELD", "RESV" => some (min 0x7FFF (phRt s k).resv.length)
  | "MBX_HELD", "HELD" => some (phRt s k).held.length
  | "CMP_FAB_OUT", "COLL" => some (outCount s 3)
  | "CMP_FAB_OUT", "REPLY" => some (outCount s 1)
  | "CMP_FAB_OUT", "REQ" => some (outCount s 0)
  | "CMP_GAUGE", "VALID" => some (b2n (s.mail.bars.any fun p => p.1 == k))
  | "CMP_COLL", "VALID" => some (b2n (s.mail.colls.any fun p => p.1 == k))
  | "OPT_LANE", "ERRS" => some (laneErrs s (k / 32) (k % 32))
  | "LAS_STATUS", "SPARES_FREE" => some ((List.range 20).filter fun n => (laserSrc s n).stage == 3).length
  | "LAS_SRC", "ENGINE" => some ((engineOf s k).getD 0x1F)
  | "LAS_SRC", "STAGE" => some (match s.fab.swaps.find? fun w => w.old == k with | some w => w.was | none => (laserSrc s k).stage)
  | "OPT_ENG", "LANES" => (s.fab.swaps.find? fun w => w.eng == k).map (·.lanes)
  | "TWN_STATUS", "ARRIVED" => some (b2n (agreeOf s (agreed s + 1)).own)
  | "TWN_OWED", "LOG" => some (s.twin.log.filter fun x => x.owed || decide (0 < x.flying)).length
  | "TWN_OWED", "IMAGE" => some (s.twin.image.filter (·.owed)).length
  | "PKG_STATUS", "DEGRADED" => some (b2n (anyDown s))
  | "PKG_STATUS", "UP" => some (dieBits (dieUp s))
  | "PKG_STATUS", "PRESENT" => some (dieBits fun d => dieState s d != dABSENT)
  | "PKG_FEATURE_EFF", "FEATURES" => some (featureEff s)
  | "PWR_STATUS", "INPUT_W" => some (inputW s)
  | "PWR_STATUS", "BUCKET" => some (s.pwr.bucket / 10000000)
  | "PWR_STATUS", "FAST" => some (b2n (s.pwr.fast || s.pwr.removal != 0))
  | "PWR_STATUS", "RUN_EXPIRED" => some (b2n (decide (9800 ≤ s.pwr.run)))
  | "PWR_STATUS", "CURR_LIM" => some (b2n (decide (currCeil s < 30)))
  | "PWR_STATUS", "THERM_LIM" => some (b2n (thermActs s))
  | "PM_FUSE", "REVOKED" => some s.pm.revoked
  | "PM_FUSE", "ROLLBACK" => some s.pm.rollback
  | "PM_LOG_HEAD", "SEQ" => some (logHead s)
  | "PM_LOG_TAIL", "SEQ" => some (logTail s)
  | "INT_SUMSTAT", "SUB" => some (sumstat s)
  | "INT_CAUSE", "LEAF" => if k = 3 then some (tileSummary s) else none
  | "INT_MASK", "MASK" => if k = 3 then some 0 else none
  | "OBS_STATUS", "FULL" => some (b2n (ringFull s))
  | _, _ => none

/-- A field of a register at an offset: indices i and j of the array. -/
def fieldNow (s : State) (r : RegDef) (off : Nat) (f : FieldDef) : Nat :=
  let d := off - r.base
  let i := d / r.s1
  let j := d % r.s1 / r.s2
  match f.access with
  | .rsv => 0
  | .wo => 0
  | _ =>
    let v := if 0x400000 ≤ off ∧ off < 0x500000 then tileView s r.name f.name (if r.n1 = 1 then j else i) j
      else blockView s r.name f.name (if r.n1 = 1 then j else i * r.n2 + j)
    (match v with
     | some v => v
     | none => getF s ⟨off, f.hi, f.lo⟩) % 2 ^ (f.hi + 1 - f.lo)

/-- The value of a register. -/
def regNow (s : State) (r : RegDef) (off : Nat) : Nat := r.fields.foldl (fun a f => a + fieldNow s r off f * 2 ^ f.lo) 0

/-- The tile whose block an offset lies in. -/
def tileOfOff (off : Nat) : Option Nat := if 0x400000 ≤ off ∧ off < 0x500000 then some ((off - 0x400000) / 0x1000) else none

/-- Is the part that holds a register out of reset (R41, R538)? The PM_, INT_, PWR_ and PKG_ registers lie in the always-on domain,
the others on B and the compute dies. -/
def partUp (s : State) (off : Nat) : Bool := if off < 0x400000 then s.pm.pins.aon else baseUp s

/-- The active copy of a route table, at its staging offset plus 0x1000 (OPT_ROWSUB, OPT_COLSUB, OPT_DEAD). An entry that is not in use
reads 0. -/
def activeTable (s : State) (off : Nat) : Nat :=
  let sub (x : Option Nat) : Nat := match x with | some c => 128 + c | none => 0
  if off % 4 ≠ 0 ∨ !baseUp s then 0
  else if 0xA01500 ≤ off ∧ off < 0xA01600 then sub (rowSub s ((off - 0xA01500) / 4))
  else if 0xA01600 ≤ off ∧ off < 0xA01700 then sub (colSub s ((off - 0xA01600) / 4))
  else if 0xA01800 ≤ off ∧ off < 0xA01A14 then mget (fun _ => 0) s.fab.dead ((off - 0xA01800) / 4)
  else 0

/-- What a register read returns, with the rules that hold over every block: a part in reset reads 0 (R538), firmware-backed registers
read 0 while firmware does not run (R547), tile blocks of a die that is not UP are answered by B (R484), and offsets without a register
read 0 (R41). -/
def readReg (s : State) (off : Nat) : Nat :=
  match regAt off with
  | none => activeTable s off
  | some r =>
    if !partUp s off then 0
    else if pmFirmwareReg off && !fwRuns s then 0
    else match tileOfOff off with
      | some t =>
        if dieUp s (dieOf t) then regNow s r off
        else if off % 0x1000 = 4 then 4 + 3 * 256 else 0
      | none => regNow s r off

end Sys2Proof.Machine
end

