-- ==== Sys2Proof/Machine/Host.lean ====
section
/-!
DEFINITION. The host interface (spec 18): the staging window, the doorbell slots, MSI-X, and their commands.
-/
namespace Sys2Proof.Machine

def State.onHost (s : State) (f : HostIf → HostIf) : State := { s with host := f s.host }

/-! ### The staging window (R557, R558) -/

/-- The size of the window. -/
def stageSize : Nat := 0x1000000000

/-- The window accepts accesses: LPDDR holds zeros (R538). -/
def stageOpen (s : State) : Bool := s.mem.lpddrReady

/-- A posted write through the window; the bytes that reach past its end are not the window's. -/
def execHostStagingWrite (off : BitVec 36) (data : List Byte) (s : State) : Host.Outcome State Fault Refusal :=
  .next (if !s.host.link then s
    else if !stageOpen s then setLeaf s 11 4
    else memWrite s (stageBase s + off.toNat) (data.take (stageSize - off.toNat)))

/-- The completion of one piece of a read that lies in one access unit; a poisoned one is reported by AER (R558). -/
def stagePiece (s : State) (p : Nat × Nat) : State :=
  let r := memRead s p.1 p.2
  if r.bad.isSome then
    let b := freshBytes r.s p.2
    setLeaf { b.2 with wire := .aer :: .completion b.1 true :: b.2.wire } 11 5
  else { r.s with wire := .completion r.data false :: r.s.wire }

/-- A read of n bytes through the window, completed unit by unit. -/
def execHostStagingRead (off : BitVec 36) (n : Fin 4097) (s : State) : Host.Outcome State Fault Refusal :=
  .next (if !s.host.link then s
    else
      let k := min n.val (stageSize - off.toNat)
      if !stageOpen s then setLeaf { s with wire := .completion (List.replicate k 0) false :: s.wire } 11 4
      else (pieces64 (k / 64 + 2) (stageBase s + off.toNat) k).foldl stagePiece s)

/-- A write of HST_STAGE: REJ clears where a 1 is written, and a change of QUAD takes effect or is rejected. -/
def hstStage (s : State) (v : Nat) : State :=
  if !baseUp s then s
  else
    let s := if bit v 31 then setF s fHST_STAGE_REJ 0 else s
    let q := bits v 3 0
    if q = getF s fHST_STAGE_QUAD then s
    else if getF s fHST_LOAD_STATUS_STATE = 1 ∨ getF s fPM_FW_STATUS_STATE = 1 ∨ rxMeets s (0x10000000000 + stageSize * q) stageSize then
      setF s fHST_STAGE_REJ 1
    else setF s fHST_STAGE_QUAD q

def execHstStageWrite (v : BitVec 32) (s : State) : Host.Outcome State Fault Refusal := .next (hstStage s v.toNat)

/-! ### Doorbell slots (R560, R561) -/

/-- REQ and REPLY of slot n. -/
def slotReq (s : State) (n : Nat) : Nat := mget (fun _ => 0) s.host.slotReq n
def slotReply (s : State) (n : Nat) : Nat := mget (fun _ => 0) s.host.slotReply n

def setReply (s : State) (n v : Nat) : State :=
  s.onHost fun h => { h with slotReply := mset (fun _ => 0) h.slotReply n v }

/-- A ring of slot n (R561). -/
def execDbSlotRing (n : Fin 512) (s : State) : Host.Outcome State Fault Refusal :=
  .next (if !baseUp s then s
    else if bitF s (fDB_SLOT_STATUS_BUSY n.val) then setLeaf s 11 2
    else
      let s := setReply (setFs s [(fDB_SLOT_STATUS_DONE n.val, 0), (fDB_SLOT_STATUS_BUSY n.val, 1)]) n.val 0
      let r : Request := ⟨.doorbell n.val, toBytes 32 (slotReq s n.val), s.now⟩
      if n.val < 256 then dirArrive s r else updArrive s r)

/-- The request of slot n has completed: REPLY, DONE and the leaf DB_DONE. -/
def execDbSlotDone (n : Fin 512) (s : State) : Host.Outcome State Fault Refusal :=
  .next (match firstIdx (fun x : Nat × List Byte => x.1 == n.val) s.host.slotDone with
    | none => s
    | some i => match s.host.slotDone[i]? with
      | none => s
      | some x =>
        let s := setReply (s.onHost fun h => { h with slotDone := removeAt h.slotDone i }) n.val (ofBytes x.2)
        setLeaf (setFs s [(fDB_SLOT_STATUS_BUSY n.val, 0), (fDB_SLOT_STATUS_DONE n.val, 1)]) 11 1)

/-! ### MSI-X (R554, R565) -/

/-- The vector is unmasked: a pending message is sent if the condition still holds, and the pending bit clears. -/
def msixUnmask (s : State) : State :=
  let due := s.host.msixMask && s.host.msixPend && intCond s
  let s := s.onHost fun h => { h with msixMask := false, msixPend := false }
  if due then { s with wire := .msix s.host.msixAddr s.host.msixData :: s.wire } else s

def execMsixUnmask (s : State) : Host.Outcome State Fault Refusal := .next (if baseUp s then msixUnmask s else s)

/-! ### Words of the windows that are no registers of the register tables -/

/-- Slot and word of an offset in the REQ or REPLY of a doorbell slot: words 0 to 7 are REQ, 8 to 15 REPLY. -/
def slotWord (off : Nat) : Option (Nat × Nat) :=
  if 0x4010000 ≤ off ∧ off < 0x4020000 ∧ (off - 0x4010000) % 128 < 64 then
    some ((off - 0x4010000) / 128, (off - 0x4010000) % 128 / 4)
  else none

/-- A 32-bit word of the MSI-X table or of the pending-bit array, or of a slot; none for every other offset. -/
def plainWord (s : State) (off : Nat) : Option Nat :=
  match slotWord off with
  | some (n, i) => some (if i < 8 then bits (slotReq s n) (32 * i + 31) (32 * i) else bits (slotReply s n) (32 * i - 225) (32 * i - 256))
  | none =>
    match off with
    | 0xE01000 => some (s.host.msixAddr % 2 ^ 32)
    | 0xE01004 => some (s.host.msixAddr / 2 ^ 32)
    | 0xE01008 => some s.host.msixData
    | 0xE0100C => some s.host.msixMask.toNat
    | 0xE02000 => some s.host.msixPend.toNat
    | 0xE02004 => some 0
    | _ => none

/-- A write of a word that plainWord names: REQ while its slot is not BUSY, and the MSI-X table entry. -/
def putPlain (s : State) (off v : Nat) : State :=
  match slotWord off with
  | some (n, i) =>
    if i < 8 ∧ !bitF s (fDB_SLOT_STATUS_BUSY n) then
      let old := slotReq s n
      let new := old - bits old (32 * i + 31) (32 * i) * 2 ^ (32 * i) + v * 2 ^ (32 * i)
      s.onHost fun h => { h with slotReq := mset (fun _ => 0) h.slotReq n new }
    else s
  | none =>
    match off with
    | 0xE01000 => s.onHost fun h => { h with msixAddr := h.msixAddr / 2 ^ 32 * 2 ^ 32 + v }
    | 0xE01004 => s.onHost fun h => { h with msixAddr := h.msixAddr % 2 ^ 32 + v * 2 ^ 32 }
    | 0xE01008 => s.onHost fun h => { h with msixData := v }
    | 0xE0100C => if bit v 0 then s.onHost fun h => { h with msixMask := true } else msixUnmask s
    | _ => s

end Sys2Proof.Machine
end

