-- ==== Sys2Proof/Machine/Memory.lean ====
section
/-!
DEFINITION. The meanings of the memory rows (spec 08): reads and writes of access units at their controllers, corrective
writes, the Eddy cache, the scrubbers, and the change of a quad's mode.
-/
namespace Sys2Proof.Machine

/-- The stored codeword of a unit has gained an error: XOR patterns by code symbol (R290). -/
def gainError (s : State) (u : Nat) (e : List (Fin 67 × BitVec 8)) : State :=
  setErr s u (errXor (unitErr s u) (e.map fun p => (p.1.val, p.2.toNat)))

/-- What a requester receives: the data, with a bit above it that marks it poisoned (R293). -/
def answer (s : State) (d : List Byte) (bad : Bool) : State :=
  { s with readData := ofBytes d + (if bad then 2 ^ (8 * d.length) else 0) }

/-- The next transfer of unit u's data over the B network suffers the error `e` in a word (R297). -/
def spoil (s : State) (u : Nat) (e : BitVec 39) : State :=
  if e = 0 then s
  else { s with mem := { s.mem with net := mset (fun _ => 0) s.mem.net u (mget (fun _ => 0) s.mem.net u ^^^ e) } }

/-- MEM_READ: a controller reads the access unit at address a and decides by R291, with what has happened to the
stored codeword and to the data on its way to the requester (R297). -/
def execMemRead (a : Nat) (err : ReadErr) (s : State) : Host.Outcome State Fault Refusal :=
  if !mapped a then .fault .unmappedUnit
  else
    let u := a / 64
    let r := memRead (spoil (gainError (afterChange s u) u err.unit) u err.path) (u * 64) 64
    .next (answer r.s r.data r.bad.isSome)

/-- MEM_WRITE: a controller writes bytes into the access units that they cover, after the snoop of R253 (R292, R294). A write
that carries poisoned data, or a unit whose data an error poisons on its way (R297), stores the poison pattern. -/
def execMemWrite (a : Nat) (b : List Byte) (err : WriteErr) (s : State) : Host.Outcome State Fault Refusal :=
  if !mapped a ∨ !mappedRange a b.length then .fault .unmappedUnit
  else
    .next (memWriteP (spoil s (a / 64) err.path) a b err.poison)

/-- CORRECTIVE_WRITE: the queued write of a corrected unit; a unit written since is no longer queued (R292). -/
def execCorrectiveWrite (a : Nat) (s : State) : Host.Outcome State Fault Refusal :=
  if !mapped a then .fault .unmappedUnit
  else .next (
    let u := a / 64
    let s := afterChange s u
    if !s.mem.corrective.contains u then s
    else
      let s := { s with mem := { s.mem with corrective := s.mem.corrective.filter (· != u) } }
      let c := controllerOf s (u * 64)
      let l := (mget (fun _ => []) s.mem.recent c).map fun p => if p.1 = u then (u, true) else p
      let s := { s with mem := { s.mem with recent := mset (fun _ => []) s.mem.recent c l } }
      match decodeUnit (unitErr s u) with
      | (.corrected, some (i, x)) => setErr s u (errXor (unitErr s u) [(i, x)])
      | _ => s)

/-! ### The Eddy cache (R282 to R286) -/

/-- EDDY_ACCESS: an access of n bytes at a within one line, a read or the write of `w`, under a hint (R282 to R285). -/
def execEddyAccess (a n : Nat) (hint : Fin 4) (w : Option (List Byte)) (s : State) : Host.Outcome State Fault Refusal :=
  if !mapped a then .fault .unmappedUnit
  else .next (match w with
    | some b => if b.isEmpty ∨ 256 < a % 256 + b.length then s else lineWrite false (afterChange s (a / 64)) a b hint.val
    | none =>
      if n = 0 ∨ 256 < a % 256 + n then s
      else
        let r := lineRead (afterChange s (a / 64)) a n hint.val
        answer r.s r.data r.bad.isSome)

/-! ### Scrubbing (R297 to R300) -/

/-- DRAM_SCRUB: one read-correct-write of the access unit at a (R299), while a pass is under way or the next one is due by the period of
MEM_SCRUB_CTL (R300, R550). `last`: the pass over all DRAM ends with it. -/
def execDramScrub (a : Nat) (err : List (Fin 67 × BitVec 8)) (last : Bool) (s : State) : Host.Outcome State Fault Refusal :=
  if !mapped a then .fault .unmappedUnit
  else .next (
    let u := a / 64
    if !s.mem.dram.due s.now then s else
    let s := { s with mem := { s.mem with dram := s.mem.dram.next s.now (3600 * getF s fMEM_SCRUB_CTL_DRAM_H) last } }
    let s := gainError (afterChange s u) u err
    let s := match decodeUnit (unitErr s u) with
      | (.clean, _) => s
      | (.corrected, some (i, x)) =>
        let s := noteCorrection (countCorrected s) u true
        setErr { s with mem := { s.mem with corrective := s.mem.corrective.filter (· != u) } } u (errXor (unitErr s u) [(i, x)])
      | (o, _) => countBad s u (o == .poisoned) true
    if last then addF s fMEM_SCRUB_PASSES_DRAM 1 else s)

/-- What SRAM errors do to their words (R297). A unit of the replay buffer with an uncorrectable word cannot be sent again: it is dropped under R406, as
the limit of R441 drops one (DESIGN CHOICE, assumption log 92). -/
def sramError (s : State) (w : SramAt) : State :=
  match w with
  | .eddy line =>
    (match s.mem.eddy.find? fun l => l.line == line with
     | none => s
     | some l =>
       if l.dirty then dropLine (writeBackLine (sramUe s) l true) line
       else
         let f := fetchLine (dropLine (sramCe s) line) line
         let bad := (f.1.filter fun u => u.2.2 != []).map fun u => (u.1, u.2.2)
         { f.2 with mem := { f.2.mem with eddy := f.2.mem.eddy ++ [{ l with bad := bad }] } })
  | .directory e => entryLost (sramUe s) e
  | .streamBuf t slot i =>
    let p := mget (fun _ => PfStream.off) (s.tile t).str.pf slot.val
    (match p.entries[i]? with
     | none => s
     | some e =>
       let q := p.remove fun d => d.no == e.no
       addF ((sramUe s).onTile t fun x => { x with str := { x.str with pf := mset (fun _ => PfStream.off) x.str.pf slot.val q } })
         (fTILE_STR_STALL_COUNT t 11) 1)
  | .operandCache t n =>
    if (s.tile t).ocBad.contains n.val then s
    else (sramUe s).onTile t fun x => { x with ocBad := x.ocBad ++ [n.val] }
  | .registers t w =>
    if (s.tile t).regBad.contains w then s
    else (sramUe s).onTile t fun x => { x with regBad := x.regBad ++ [w] }
  | .postmaster =>
    if fwRuns s then (let r := freshWord s; restartPm r.2 2 (r.1.toNat % 2 ^ 32)) else s
  | .replay k i =>
    (match (hopSt s k).tx[i]? with
     | some u => if u.lseq.isNone then s else dropPacket (setHop (sramUe s) k { hopSt s k with tx := removeAt (hopSt s k).tx i }) u.p
     | none => s)
  | .datapath _ => s

/-- The data bits of an SRAM word where State holds them: an operand-cache word. -/
def sramData (s : State) (w : SramAt) : BitVec 32 :=
  match w with
  | .operandCache t n => BitVec.ofNat 32 (ofBytes (ocBytes (s.tile t) (4 * n.val) 4))
  | _ => 0

/-- Rewrite an SRAM word with what its decoding gives. -/
def sramRewrite (s : State) (w : SramAt) (d : BitVec 32) : State :=
  match w with
  | .operandCache t n => if d = sramData s w then s else s.onTile t fun x => ocPut x (4 * n.val) (toBytes 4 d.toNat)
  | _ => s

/-- The compute die whose own scrubber reads the word (R298). -/
def sramDie : SramAt → Option Nat
  | .operandCache t _ => some (dieOf t)
  | .registers t _ => some (dieOf t)
  | _ => none

/-- The word with what R297 says of it: the blocks of its table count a correction. -/
def sramCounted : SramAt → Bool
  | .postmaster => false
  | _ => true

/-- The word's codeword has suffered the error `e` since it was written: what R296 decodes, and what follows (R297). -/
def readSram (s : State) (w : SramAt) (e : BitVec 39) : State :=
  let c := encodeWord (sramData s w) ^^^ e
  match decodeWord c with
  | .clean => sramRewrite s w (wordData c)
  | .corrected _ => sramRewrite (if sramCounted w then sramCe s else s) w (wordData c)
  | .uncorrectable => sramError s w

/-- The scrubber of a word is to read it: its pass is under way or the next one is due by MEM_SCRUB_CTL (R300, R550), and a die's words are skipped
while it is not UP (R551). A word of the Postmaster's SRAM is met by its core, and one of the datapath by a transfer. -/
def sramDue (s : State) (w : SramAt) : Bool :=
  match w, sramDie w with
  | .datapath _, _ => true
  | .postmaster, _ => true
  | _, some d => dieUp s d && (dieRt s d).scrub.due s.now
  | _, none => s.mem.sram.due s.now

/-- The scrubber's pass goes on with the word. -/
def sramPass (s : State) (w : SramAt) (last : Bool) : State :=
  let period := getF s fMEM_SCRUB_CTL_SRAM_S
  match w, sramDie w with
  | .datapath _, _ => s
  | .postmaster, _ => s
  | _, some d => setDie s d { dieRt s d with scrub := (dieRt s d).scrub.next s.now period last }
  | _, none => { s with mem := { s.mem with sram := s.mem.sram.next s.now period last } }

/-- SRAM_SCRUB: a scrubber reads one SRAM word, whose codeword has suffered the error `e`, and corrects it by R296 (R297, R298). `last`: the pass of that
scrubber ends with the word; one of B's is counted. The error of a datapath word waits for the next transfer of its unit (DESIGN CHOICE, assumption
log 86). -/
def execSramScrub (w : SramAt) (e : BitVec 39) (last : Bool) (s : State) : Host.Outcome State Fault Refusal :=
  .next (
    if !sramDue s w then s else
    match w with
    | .datapath u => spoil s u e
    | .postmaster => readSram s w e
    | _ =>
      let s := readSram (sramPass s w last) w e
      if last && (sramDie w).isNone then addF s fMEM_SCRUB_PASSES_SRAM 1 else s)

/-! ### MEM_QUAD (R281, R302) -/

/-- The mode and the Eddy bit that a quad has or will have after the changes that are under way. -/
def quadNext (s : State) (q : Nat) : Nat × Nat :=
  match (s.mem.quadChange.filter fun c => c.1 == q).getLast? with
  | some c => c.2
  | none => (getF s (fMEM_QUAD_MODE q), getF s (fMEM_QUAD_EDDY q))

/-- A write of MEM_QUAD_q: ignored under LOCK or with MODE 3; one that changes MODE or EDDY starts the change. -/
def execMemQuadWrite (q : Fin 34) (v : BitVec 32) (s : State) : Host.Outcome State Fault Refusal :=
  .next (
    let m := bits v.toNat 1 0
    let e := bits v.toNat 2 2
    if bitF s fMEM_CTL_LOCK || m == 3 || quadNext s q.val == (m, e) then s
    else { s with mem := { s.mem with quadChange := s.mem.quadChange ++ [(q.val, m, e)] } })

/-- The oldest change of quad q is done (R281). -/
def execQuadModeChangeDone (q : Fin 34) (s : State) : Host.Outcome State Fault Refusal := .next (quadApply s q.val)

end Sys2Proof.Machine
end

