-- ==== Sys2Proof/Machine/Observe.lean ====
section
/-!
DEFINITION. The commands of the observation unit (spec 19): snapshot, trace session, sampler, trace selection.
-/
namespace Sys2Proof.Machine

/-- Change the trace unit. -/
def State.onObs (s : State) (f : Obs → Obs) : State := { s with obs := f s.obs }

/-- Registers of the counter families of R574's table. -/
def familyRegs : List String :=
  ["TILE_STALL", "TILE_STR_STALL", "TILE_VEC_WINDOWS", "TILE_ACC0_COUNT", "TILE_ACC1_COUNT", "OBS_SP", "CMP_PHASE_START",
   "CMP_PHASE_LAST", "CMP_PHASE_COUNT", "CMP_REDRAW_LAST", "PWR_CONFLICT", "CLK_STRETCH", "MEM_CE_COUNT", "MEM_UE_COUNT",
   "MEM_EDDY_KEEP_OVER", "MEM_SCRUB_PASSES"] ++
  ["TIER_EVENT", "UPD_EVENT", "OPT_FAB_EVENT", "CMP_FAB_EVENT", "MBX_TOTAL", "CMP_COLL_LATE", "CMP_GAUGE", "OPT_LINK_EVENT",
   "OPT_LANE", "PKG_WEIR", "TWN_EVENT", "PWR_TEMP", "PWR_VOLT", "PWR_CURR", "OPT_ENG", "LAS_SRC"]

/-- What selector n reads, none for an offset that is no counter or a width that does not match (R577). -/
def selValue (s : State) (n : Nat) : Option Nat :=
  let off := getF s (fOBS_SEL_OFFSET n)
  match regAt off with
  | none => none
  | some r =>
    if familyRegs.contains r.name && r.width == (if bitF s (fOBS_SEL_W64 n) then 64 else 32) then some (readReg s off) else none

/-- The enabled selectors in ascending order. -/
def selectors (s : State) : List Nat := (List.range 16).filter fun n => bitF s (fOBS_SEL_EN n)

/-- SEL_BAD for an enabled selector that names no counter. -/
def checkSel (s : State) : State :=
  if (selectors s).any fun n => (selValue s n).isNone then setF s fOBS_STATUS_SEL_BAD 1 else s

/-- OBS_CTL.SNAP = 1 (R578). -/
def execSnap (s : State) : Host.Outcome State Fault Refusal :=
  .next (if bitF s fOBS_STATUS_SNAP_BUSY then s
    else
      let vals := (List.range 16).map fun n => (fOBS_SNAP_VALUE n, if bitF s (fOBS_SEL_EN n) then (selValue s n).getD 0 else 0)
      let s := setFs (checkSel s) (vals ++ [(fOBS_SNAP_TIME_TIME, s.now), (fOBS_STATUS_SNAP_BUSY, 1)])
      s.onObs fun o => { o with snapAt := some s.now })

/-- The copy is complete 1 µs after the write. -/
def execSnapDone (s : State) : Host.Outcome State Fault Refusal :=
  .next (match s.obs.snapAt with
    | some t => if s.now < t + 1000 then s else (setF s fOBS_STATUS_SNAP_BUSY 0).onObs fun o => { o with snapAt := none }
    | none => s)

/-- TRACE_EN rises (R575, R579). -/
def execTraceStart (s : State) : Host.Outcome State Fault Refusal :=
  .next (if bitF s fOBS_TRACE_CTL_TRACE_EN then s
    else
      let a := getF s fOBS_TRACE_BASE_ADDR
      let n := getF s fOBS_TRACE_SIZE_PAGES
      if a % 4096 ≠ 0 ∨ n = 0 ∨ 1048576 < n ∨ !mappedRange a (4096 * n) then setF s fOBS_STATUS_RING_BAD 1
      else
        let s := setFs s [(fOBS_TRACE_CTL_TRACE_EN, 1), (fOBS_STATUS_ACTIVE, 1), (fOBS_TRACE_LOST_COUNT, 0), (fOBS_TRACE_HEAD_SEQ, 0)]
        s.onObs fun o => { o with active := true, stage := [], dropped := 0, nextSeq := 0 })

/-- TRACE_EN falls: no new records. -/
def execTraceStop (s : State) : Host.Outcome State Fault Refusal :=
  .next (if bitF s fOBS_TRACE_CTL_TRACE_EN then (setF s fOBS_TRACE_CTL_TRACE_EN 0).onObs fun o => { o with active := false } else s)

/-- The staging SRAM has drained. -/
def execTraceDrainDone (s : State) : Host.Outcome State Fault Refusal :=
  .next (if !bitF s fOBS_TRACE_CTL_TRACE_EN && s.obs.stage.isEmpty then setF s fOBS_STATUS_ACTIVE 0 else s)

/-- The sampler fires: one SAMPLE record per enabled selector, at a telemetry instant and a period after the last firing. -/
def execSamplerFire (s : State) : Host.Outcome State Fault Refusal :=
  .next (if s.pwr.teleAt ≠ some s.now ∨ !since s s.obs.firedAt (1000 * getF s fOBS_SAMPLE_CTL_PERIOD_US) then s
    else
      let l := (selectors s).map fun n => (n, (selValue s n).getD 0, getF s (fOBS_SEL_OFFSET n))
      l.foldl (fun s x => postTrace s 7 x.1 x.2.1 x.2.2) ((checkSel s).onObs fun o => { o with firedAt := some s.now }))

/-- The 32 bytes of a trace record (R575). -/
def TraceRec.bytes (r : TraceRec) (seq : Nat) : List Byte :=
  toBytes 8 r.time ++ toBytes 4 seq ++ toBytes 1 r.typ ++ toBytes 1 r.synced.toNat ++ toBytes 2 r.inst ++ toBytes 8 r.arg0 ++
  toBytes 8 r.arg1

/-- Where record `seq` lies in the ring: by the 32-bit SEQ that the record carries (R579). -/
def ringAt (s : State) (seq : Nat) : Nat :=
  getF s fOBS_TRACE_BASE_ADDR + 32 * (seq % 2 ^ 32 % (getF s fOBS_TRACE_SIZE_PAGES * 128))

/-- The ring holds the record of SEQ q: it was written, and fewer records than the ring has room for came after it (R582). -/
def ringHolds (s : State) (q : Nat) : Bool :=
  let after := (s.obs.nextSeq + 2 ^ 32 - 1 - q) % 2 ^ 32
  decide (after < s.obs.nextSeq) && decide (after < getF s fOBS_TRACE_SIZE_PAGES * 128)

/-- A record is dropped. -/
def dropTrace (s : State) : State :=
  addF (s.onObs fun o => { o with dropped := o.dropped + 1 }) fOBS_TRACE_LOST_COUNT 1

/-- A write of part of access unit u would meet an uncorrectable or poisoned unit: in the Eddy line that serves it, otherwise in memory. -/
def meetsBad (s : State) (u : Nat) : Bool :=
  match eddyLine s (u * 64) with
  | some l => l.held (u % 4) != []
  | none =>
    let o := (decodeUnit (unitErr s u)).1
    o == .poisoned || o == .uncorrectable

/-- Write one record into the ring, with the stream-through hint; false: the ring is full or its unit is uncorrectable. -/
def putTrace (s : State) (r : TraceRec) : Bool × State :=
  let a := ringAt s s.obs.nextSeq
  if ringFull s || meetsBad s (a / 64) then (false, s)
  else
    let q := s.obs.nextSeq
    let s := setF (memWriteH false s a (r.bytes q) 1) fOBS_TRACE_HEAD_SEQ q
    (true, s.onObs fun o => { o with nextSeq := q + 1 })

/-- The trace unit writes its next record, at most one per 500 ns: the LOST record after a loss, otherwise the oldest staged one (R580). -/
def execTraceRecordWrite (s : State) : Host.Outcome State Fault Refusal :=
  .next (match s.obs.stage with
    | [] => s
    | r :: rest =>
      if !since s s.obs.wroteAt 500 then s
      else
        let s := s.onObs fun o => { o with wroteAt := some s.now }
        if s.obs.dropped ≠ 0 ∧ bit (getF s fOBS_CTL_TYPES) 8 ∧ !ringFull s then
          let w := putTrace s ⟨s.now, 8, synced s, 0, s.obs.dropped, 0⟩
          if w.1 then w.2.onObs fun o => { o with dropped := 0 }
          else dropTrace (s.onObs fun o => { o with stage := rest })
        else
          let w := putTrace s r
          let s := w.2.onObs fun o => { o with stage := rest }
          if w.1 then s else dropTrace s)

/-- A write of OBS_TRACE_SEL (R582). -/
def execObsTraceSel (seq : BitVec 32) (s : State) : Host.Outcome State Fault Refusal :=
  .next ((setF s fOBS_TRACE_SEL_SEQ seq.toNat).onObs fun o => { o with selAt := some s.now })

/-- A write of OBS_TRACE_READ releases records; a value above HEAD + 1 is ignored (R582). -/
def execObsTraceRead (seq : BitVec 32) (s : State) : Host.Outcome State Fault Refusal :=
  .next (if getF s fOBS_TRACE_HEAD_SEQ + 1 < seq.toNat then s else setF s fOBS_TRACE_READ_SEQ seq.toNat)

/-- 20 µs after the selection OBS_TRACE_DATA holds the record, or SEL_MISS is set (R582). -/
def execTraceSelDataReady (s : State) : Host.Outcome State Fault Refusal :=
  .next (match s.obs.selAt with
    | none => s
    | some t =>
      if s.now < t + 20000 then s
      else
        let s := s.onObs fun o => { o with selAt := none }
        let q := getF s fOBS_TRACE_SEL_SEQ
        if ringHolds s q then
          let r := memRead s (ringAt s q) 32
          (List.range 4).foldl (fun s i => setF s (fOBS_TRACE_DATA_DATA i) (leAt r.data (8 * i) 8)) r.s
        else (List.range 4).foldl (fun s i => setF s (fOBS_TRACE_DATA_DATA i) 0) (setF s fOBS_STATUS_SEL_MISS 1))

end Sys2Proof.Machine
end

