-- ==== Sys2Proof/Machine/Power.lean ====
section
/-!
DEFINITION. The commands of the power, thermal and adaptive loops (spec 16). What sensors read and what the detectors of a die
find are operands.
-/
namespace Sys2Proof.Machine

/-! ### Rails (R513) -/

/-- The setpoint in µV of the rail that voltage monitor m senses (R512, R514); those that follow JEDEC standards are not stated. -/
def railSetpoint (s : State) (m : Nat) : Nat :=
  if 2 ≤ m ∧ m ≤ 5 then (dieLoop s (m - 2)).uv
  else match m with
    | 1 => 12000000 | 6 => 750000 | 7 => 900000 | 18 => 900000 | 19 => 2500000 | 20 => 1200000 | 21 => 2500000
    | m => Config.railSetpoint m

/-- The overcurrent threshold in 0.1 A of the rail of voltage monitor m (R513); the budget currents of the rails are not stated. -/
def overcurrent (m : Nat) : Nat :=
  if 2 ≤ m ∧ m ≤ 5 then 3300 else if m = 6 then 2600 else Config.railBudget m * 3 / 2

/-- A reading crosses a threshold of R513: kind 0 (mV) below 90 % of the setpoint, 1 (mV) above 110 %, 2 (0.1 A) above the overcurrent threshold. -/
def crosses (s : State) (m kind reading : Nat) : Bool :=
  match kind with
  | 0 => decide (10 * (1000 * reading) < 9 * railSetpoint s m)
  | 1 => decide (11 * railSetpoint s m < 10 * (1000 * reading))
  | _ => decide (overcurrent m < reading)

/-- A rail has read past a threshold for 1 µs and trips: monitors 2 to 5 are VDD_C0 to VDD_C3, 1 and 6 to 21 other rails; VIN and VAON do not
trip (R513, R521). -/
def execRailTrip (mon : Fin 24) (kind : Fin 3) (reading : BitVec 32) (s : State) : Host.Outcome State Fault Refusal :=
  .next (
    let m := mon.val
    if !(s.pm.pins.rails || getF s fPM_STATUS_STAGE == 1) || !crosses s m kind.val reading.toNat then s
    else if 2 ≤ m ∧ m ≤ 5 then (if (dieRt s (m - 2)).railOff then s else railOffDie s (m - 2))
    else if m = 0 ∨ 22 ≤ m then s
    else railFault (abandonLoad s) m kind.val reading.toNat)

/-! ### DVFS (R514 to R517) -/

/-- A decision of the DVFS loop, on the mean power of the last 1 ms in mW, Tj, and the highest Tj of the last 1 ms. The share of SLEEP cycles is
that of the last ten periods of 100 µs (R237), among all cycles of the die's 64 tiles (assumption log 92). -/
def execDvfsDecide (d : Die) (power : Nat) (tj tjMax : Int) (s : State) : Host.Outcome State Fault Refusal :=
  .next (
    let x := dieLoop s d.val
    if !dieUp s d.val || !since s x.dvfsAt 100000 then s
    else
      let budget := 1000 * getF s (fCLK_DVFS_PIN_BUDGET d.val)
      let c := getF s (fCLK_DIE_CHOICE d.val)
      let w := ((x.sleepN, x.cycN) :: x.window).take 10
      let sleep : Nat := w.foldl (fun a p => a + p.1) 0
      let all : Nat := w.foldl (fun a p => a + p.2) 0
      let good := decide (w.length = 10) && decide (100 * power < 95 * budget) && decide (max tj tjMax < degC 95) && decide (4 * sleep < all) &&
        decide (c < getF s fCLK_FMAX_FCODE)
      let bad := decide (budget < power) || decide (degC 97 ≤ tj) || decide (all < 2 * sleep)
      let x := { x with dvfsAt := some s.now, sleepN := 0, cycN := 0, window := w }
      if bad then setF (setLoop s d.val x) (fCLK_DIE_CHOICE d.val) (c - 1)
      else if good && since s x.raisedAt 1000000 then
        setF (setLoop s d.val { x with raisedAt := some s.now }) (fCLK_DIE_CHOICE d.val) (c + 1)
      else setLoop s d.val x)

/-- A write of CLK_DVFS_PIN_d: a FCODE above 30 or a BUDGET outside 100 to 230 leaves its field (R516, R519, R533). -/
def execDvfsPinWrite (d : Die) (value : BitVec 32) (s : State) : Host.Outcome State Fault Refusal :=
  .next (
    let v := value.toNat
    let s := setF s (fCLK_DVFS_PIN_EN d.val) (bits v 31 31)
    let s := if bits v 4 0 ≤ 30 then setF s (fCLK_DVFS_PIN_FCODE d.val) (bits v 4 0) else s
    let b := bits v 23 16
    let s := if 100 ≤ b ∧ b ≤ 230 then setF s (fCLK_DVFS_PIN_BUDGET d.val) b else s
    reviewEpisode (reviewEpisode s 0 d.val) 1 d.val)

/-- The clock of a die takes the FCODE of R516: a lower one at once, a higher one once the rail has risen to its setpoint (R515). -/
def execFcodeChangeDone (d : Die) (s : State) : Host.Outcome State Fault Refusal :=
  .next (
    let k := fcodeOf s d.val
    if dieUp s d.val && (decide (k ≤ getF s (fCLK_DIE_FCODE d.val)) || decide (setpoint k ≤ (dieLoop s d.val).uv)) then setFcode s d.val k else s)

/-! ### Telemetry (R520, R521, R525) -/

/-- Does the sensor belong to a die that is not UP? Its register holds its last sample (R534). -/
def heldTemp (s : State) (n : Nat) : Bool := decide (n < 32) && !dieUp s (n / 8)
def heldVolt (s : State) (n : Nat) : Bool := decide (2 ≤ n) && decide (n ≤ 5) && !dieUp s (n - 2)
def heldCurr (s : State) (n : Nat) : Bool := decide (1 ≤ n) && decide (n ≤ 4) && !dieUp s (n - 1)

/-- Copy numbered samples into their registers. -/
def copySamples (s : State) (held : Nat → Bool) (n : Nat) (l : List Nat) (valid value : Nat → Fld) : State :=
  (l.take n).zipIdx.foldl (fun s p => if held p.2 then s else setFs s [(valid p.2, 1), (value p.2, p.1)]) s

/-- A two's-complement sensor value of n bits. -/
def twos (n : Nat) (t : Int) : Nat := (t % (2 ^ n : Nat)).toNat

/-- A stack is at or above 92 °C (R525). -/
def stackHot (s : State) (t : Int) : State := raiseIf (decide (degC 92 ≤ t)) s fPWR_ERR_STACK_HOT

/-- The latest sample of every sensor goes into its register. The registers of a die that is not UP hold. -/
def execTelemetryCopy (temps : List Int) (volts currs engines : List Nat) (stackTemps : List Int) (s : State) :
    Host.Outcome State Fault Refusal :=
  .next (if !s.pm.pins.aon || !since s s.pwr.teleAt 100000 then s
    else
      let s := { s with pwr := { s.pwr with teleAt := some s.now } }
      let s := copySamples s (heldTemp s) 48 (temps.map (twos 12)) fPWR_TEMP_VALID fPWR_TEMP_TEMP
      let s := copySamples s (heldVolt s) 24 volts fPWR_VOLT_VALID fPWR_VOLT_MV
      let s := copySamples s (heldCurr s) 12 currs fPWR_CURR_VALID fPWR_CURR_DA
      let s := (engines.take 17).zipIdx.foldl (fun s p => setEngTemp s p.2 p.1) s
      let s := raiseIf (match temps[44]? with | some t => decide (degC 40 < t) | none => false) s fPWR_ERR_COOLANT_HOT
      (stackTemps.take 8).foldl stackHot s)

/-! ### Thermal (R522 to R525) -/

/-- The throttle of a die on Tj, the hottest base-die diode, the hottest optical engine and its two stacks. -/
def execThermThrottle (d : Die) (tj base eng stackA stackB : Int) (s : State) : Host.Outcome State Fault Refusal :=
  .next (if !dieUp s d.val then s
    else
      let s := stackHot (stackHot s stackA) stackB
      let x := dieLoop s d.val
      let c := getF s (fCLK_DIE_THERM d.val)
      let hot := decide (degC 100 ≤ tj) || decide (degC 100 ≤ base) || decide (degC 83 ≤ eng) || decide (degC 92 ≤ stackA) ||
        decide (degC 92 ≤ stackB)
      let cool := decide (tj ≤ degC 97) && decide (base ≤ degC 97) && decide (eng ≤ degC 81) && decide (stackA ≤ degC 89) &&
        decide (stackB ≤ degC 89)
      if hot then
        if since s x.lowerAt 100000 then
          reviewEpisodes (setF (setLoop s d.val { x with lowerAt := some s.now }) (fCLK_DIE_THERM d.val) (getF s (fCLK_DIE_FCODE d.val) - 1))
        else s
      else if cool && decide (c < 30) && since s x.raiseAt 1000000 then
        reviewEpisodes (setF (setLoop s d.val { x with raiseAt := some s.now }) (fCLK_DIE_THERM d.val) (c + 1))
      else s)

/-- Gating in rotation: it starts at ceiling 0 and 103 °C, moves to the next cluster every 25 µs, and stops at 100 °C. -/
def execThermGateRotation (d : Die) (tj : Int) (s : State) : Host.Outcome State Fault Refusal :=
  .next (
    let x := dieLoop s d.val
    let c := fun k => 4 * d.val + k
    if !dieUp s d.val || x.limit then s
    else match x.rot with
      | none =>
        if getF s (fCLK_DIE_THERM d.val) = 0 ∧ degC 103 ≤ tj then
          reviewGates (forceGate true (setLoop s d.val { x with rot := some (0, s.now) }) (c 0)) d.val
        else s
      | some (k, t0) =>
        if tj ≤ degC 100 then reviewGates (freeGate (setLoop s d.val { x with rot := none }) (c k)) d.val
        else if s.now < t0 + 25000 then s
        else
          let n := (k + 1) % 4
          reviewGates (forceGate true (freeGate (setLoop s d.val { x with rot := some (n, s.now) }) (c k)) (c n)) d.val)

/-- The thermal limit of a die begins at 105 °C and ends at 100 °C. -/
def execThermLimit (d : Die) (tj : Int) (s : State) : Host.Outcome State Fault Refusal :=
  .next (
    let x := dieLoop s d.val
    let all := fun (f : State → Nat → State) (s : State) => (List.range 4).foldl (fun s k => f s (4 * d.val + k)) s
    if !dieUp s d.val then s
    else if !x.limit && decide (degC 105 ≤ tj) then
      let s := all (forceGate true) (setLoop s d.val { x with limit := true, rot := none })
      reviewGates (postEvent (raise s fPWR_ERR_THERM_LIMIT) 0x114 2 2 d.val tj.toNat 0) d.val
    else if x.limit && decide (tj ≤ degC 100) then
      reviewGates (all freeGate (setLoop s d.val { x with limit := false })) d.val
    else s)

/-- A diode reaches 115 °C: diodes 0 to 31 lie on compute dies, whose regulator goes off as for a trip, 32 to 39 on B. -/
def execThermTrip (diode : Fin 40) (temp : Int) (s : State) : Host.Outcome State Fault Refusal :=
  .next (if temp < degC 115 ∨ !s.pm.pins.rails then s
    else if diode.val < 32 then
      postEvent (raise (railOffDie s (diode.val / 8)) fPWR_ERR_THERM_TRIP) 0x115 3 2 diode.val temp.toNat 0
    else postEvent (tripRails (abandonLoad s)) 0x115 3 2 diode.val temp.toNat 0)

/-- The refresh rate of a stack. -/
def execStackRefreshChange (k : Fin 8) (temp : Int) (s : State) : Host.Outcome State Fault Refusal :=
  .next (
    let s := stackHot s temp
    let rest := s.pwr.hot.filter (· != k.val)
    if degC 85 ≤ temp then { s with pwr := { s.pwr with hot := k.val :: rest } }
    else if temp ≤ degC 82 then { s with pwr := { s.pwr with hot := rest } }
    else s)

/-! ### The current limit (R526 to R528) -/

/-- One microsecond of input power `power` in mW: the bucket, the run timer, and the removals that end or grow. -/
def execBucketUpdate (power : Nat) (s : State) : Host.Outcome State Fault Refusal :=
  .next (
    let p := s.pwr
    if !s.pm.pins.aon || !since s p.bucketAt 1000 then s
    else
      let high := decide (1450000 < power)
      let quiet := if high then 0 else p.quiet + 1
      let fastQuiet := if power ≤ 1600000 then p.fastQuiet + 1 else 0
      let removal := if p.removal = 0 then 0 else if high then min 12 (p.removal + 4) else if 100 ≤ quiet then 0 else p.removal
      let s := { s with pwr := { p with
        bucket := min 2000000000 (p.bucket + 1448000 - power)
        run := if high then p.run + 1 else 0
        power := (power :: p.power).take 1000
        bucketAt := some s.now
        quiet := quiet, fastQuiet := fastQuiet, removal := removal
        fast := p.fast && decide (fastQuiet < 100) } }
      if s.pwr.lowering && !meanAbove s 10 1448000 && removal == 0 then { s with pwr := { s.pwr with lowering := false } } else s)

/-- The bucket is empty or the run timer has reached 9.8 ms. -/
def execRunTimerExpiry (s : State) : Host.Outcome State Fault Refusal :=
  .next (if (s.pwr.bucket = 0 ∨ 9800 ≤ s.pwr.run) ∧ !s.pwr.lowering then
      let s := raise { s with pwr := { s.pwr with lowering := true } } fPWR_ERR_POWER_LIMIT
      if since s s.pwr.curLowerAt 50000 && (meanAbove s 10 1448000 || s.pwr.removal != 0) then lowerCurr s else s
    else s)

def execCurrCeilingLower (s : State) : Host.Outcome State Fault Refusal :=
  .next (if s.pwr.lowering && since s s.pwr.curLowerAt 50000 && (meanAbove s 10 1448000 || s.pwr.removal != 0) then lowerCurr s else s)

/-- The run timer has reached 9.95 ms: 4 of every 16 clock pulses go, and more in the microseconds that follow. -/
def execRunTimerRemoval (s : State) : Host.Outcome State Fault Refusal :=
  .next (if 9950 ≤ s.pwr.run ∧ s.pwr.removal = 0 then { s with pwr := { s.pwr with removal := 4, quiet := 0 } } else s)

def execCurrCeilingRaise (s : State) : Host.Outcome State Fault Refusal :=
  .next (if currCeil s < 30 ∧ 1000000000 ≤ s.pwr.bucket ∧ !meanAbove s 1000 1448000 ∧ since s s.pwr.curRaiseAt 1000000 then
      reviewEpisodes (setCurrCeil { s with pwr := { s.pwr with curRaiseAt := some s.now } } (currCeil s + 1))
    else s)

/-- The last 1 µs mean is above 1,650 W. -/
def execFastPath (s : State) : Host.Outcome State Fault Refusal :=
  .next (match s.pwr.power with
    | p :: _ => if 1650000 < p then raise { s with pwr := { s.pwr with fast := true, fastQuiet := 0 } } fPWR_ERR_POWER_LIMIT else s
    | [] => s)

/-! ### Sluice and droop (R529 to R532) -/

/-- The current in mA that Sluice's table gives for what the clusters of a die report: matrix and vector issue, and stream port (R529). -/
def sluiceCurrent (table : List Nat) (issue : List (Nat × Nat)) (port : List Nat) : Nat :=
  (List.range 4).foldl (fun a k => a + Config.sluiceCurrent table (issue.getD k (0, 0)).1 (issue.getD k (0, 0)).2 (port.getD k 0)) 0

/-- The least k of at most 12 with which a demand stays within what the ramp allows, removing k of 16 pulses; 12 where none does (R529). -/
def sluiceK (demand allowed : Nat) : Nat := ((List.range 13).find? fun k => decide (demand * (16 - k) ≤ 16 * allowed)).getD 12

/-- Sluice estimates the current of a die, every 8 tile cycles, from the activity that its clusters report: the estimate rises by at most 40 A/µs,
by removing k of every 16 pulses of each active cluster; a fall is not limited (R529). -/
def execSluiceEstimate (d : Die) (issue : List (Nat × Nat)) (port : List Nat) (s : State) : Host.Outcome State Fault Refusal :=
  .next (
    let x := dieLoop s d.val
    if !dieUp s d.val || decide ((s.now - x.currentAt) * tileMHz s d.val < 8000) then s
    else
      let demand := sluiceCurrent (sluiceTable s d.val) issue port
      let k := sluiceK demand (x.current + 40 * (s.now - x.currentAt))
      setLoop s d.val { x with sluice := k, current := demand * (16 - k) / 16, currentAt := s.now })

/-- Firmware writes the current table of a die (R529, R547, R551). The model keeps it in the calibration area of R536 at once (log 92). -/
def execSluiceCalibration (d : Die) (table : List Nat) (s : State) : Host.Outcome State Fault Refusal :=
  .next (
    let x := dieLoop s d.val
    if bitF s fPM_STATUS_FW_RUNNING && dieState s d.val != dLOST && since s x.tableAt 1000000 then
      (setLoop s d.val { x with tableAt := some s.now }).onPm fun p => { p with nor := p.nor.putSluice d.val table }
    else s)

/-- Firmware refines the coupling model of the heater feed-forward (R444, R547), in the calibration area (log 92). -/
def execCouplingRefine (model : List Nat) (s : State) : Host.Outcome State Fault Refusal :=
  .next (if bitF s fPM_STATUS_FW_RUNNING && since s s.pm.couplingAt 1000000000 then
      s.onPm fun p => { p with nor := { p.nor with coupling := some model }, couplingAt := some s.now }
    else s)

/-- The droop detector of a cluster compares its local supply, in mV, with the setpoint of its rail: more than TH_MV below it, the cluster removes
every second pulse, for at least 32 tile cycles and until the supply is within TH_MV − 10 mV of the setpoint (R531). -/
def execDroopStretch (c : Cluster) (mv : Nat) (s : State) : Host.Outcome State Fault Refusal :=
  .next (
    let x := clusterRt s c.val
    let th := getF s fCLK_DROOP_CTL_TH_MV
    let goal := (dieLoop s (c.val / 4)).uv
    if !dieUp s (c.val / 4) then s
    else if 1000 * (mv + th) < goal then setCluster s c.val { x with droop := some (x.droop.getD s.now) }
    else match x.droop with
      | some t => if 32000 ≤ (s.now - t) * tileMHz s (c.val / 4) ∧ goal + 10000 ≤ 1000 * (mv + th) then setCluster s c.val { x with droop := none } else s
      | none => s)

/-! ### The input (R533, R596) -/

/-- VIN has been outside 48.0 to 59.5 V for 100 µs, within 46.0 to 61.0 V. -/
def execVinRange (mv : Nat) (s : State) : Host.Outcome State Fault Refusal :=
  .next (if s.pm.pins.aon && decide (46000 ≤ mv) && decide (mv ≤ 61000) && (decide (mv < 48000) || decide (59500 < mv)) then
      raise s fPWR_ERR_VIN_RANGE
    else s)

end Sys2Proof.Machine
end

