-- ==== Sys2Proof/Machine/Task.lean ====
section
/-!
DEFINITION. The timeout of a wait and the end of an abort (spec 03 R92, R119; spec 05 R200; spec 06 R223; spec 07 R262; spec
12 R430).
-/
namespace Sys2Proof.Machine

/-! ### WAIT_TIMEOUT (R92, R430) -/

/-- 64 ns have passed since a deadline. -/
def pastBy64 (s : State) : Option Nat → Bool
  | some d => decide (d + 64 ≤ s.now)
  | none => false

/-- A token wait of unit u that is still unsatisfied 64 ns after its deadline. -/
def tokenLate (s : State) (t n k f : Nat) : Bool := pastBy64 s (waitDeadline s t f) && !waitServed s t n k (some f)

/-- What a held head waits for came by its deadline: the oldest descriptor of a ring for an MRECV, an MM for an SVERIFY. -/
def recvServed (s : State) (t : Nat) (h : QEntry) : Bool :=
  wMaj h.word == 0x20 && (verifyPair s t h).isSome || wMaj h.word == 0x28 && wMin h.word == 1 &&
  (match namedPh h, headDeadline s t h with
   | some p, some d => (match (phRt s p).queue with | i :: _ => decide (i.stamp ≤ d) | [] => false)
   | _, _ => false)

/-- The engine of a unit number (R118); the control core has none. -/
def unitEngine (u : Nat) : Option Engine :=
  match u with
  | 1 => some .matrix
  | 2 => some .vector
  | 3 => some .stream
  | 4 => some .message
  | _ => none

/-- The GWAIT at the head of the message queue is late (R430). -/
def gwaitLate (s : State) (t : Nat) : Option Nat :=
  match (s.tile t).msg.gw with
  | none => none
  | some g =>
    let inTime := match g.closed, gwDeadline s t g with
      | some c, some d => decide (c ≤ d)
      | some _, none => true
      | none, _ => false
    if !inTime && pastBy64 s (gwDeadline s t g) then some g.bar else none

/-- A wait of unit u is still unsatisfied 64 ns after its deadline: the task aborts (R92). -/
def execWaitTimeout (t : Tid) (u : UnitNo) (s : State) : Host.Outcome State Fault Refusal :=
  .next (sameCycle s t u.val fun s =>
    let x := s.tile t
    if !isLive s t then s
    else match unitEngine u.val with
      | none => match x.coreWait with
        | some (f, tk, n) => if tokenLate s t tk n f then trap s t 0 cWAIT_TIMEOUT x.pc (waitInfo 0 tk) else s
        | none => s
      | some e => match getQueue x e with
        | [] => s
        | h :: _ =>
          match h.waitFrom with
          | some f => if tokenLate s t (wWTK h.word) 1 f then trap s t u.val cWAIT_TIMEOUT h.pc (waitInfo 0 (wWTK h.word)) else s
          | none =>
            match h.held, gwaitLate s t with
            | some (_, info), _ =>
              if pastBy64 s (headDeadline s t h) && !recvServed s t h then trap s t u.val cWAIT_TIMEOUT h.pc info else s
            | none, some b => if e = .message then trap s t 4 cWAIT_TIMEOUT h.pc (waitInfo 2 b) else s
            | none, none => s)

/-! ### The end of an abort (R119) -/

/-- Stores that the tile has issued land: those of the control core in program order, those of the vector engine in its order. -/
def landStores (s : State) (t : Nat) : State :=
  let x := s.tile t
  let s := x.ops.foldl (fun s o => match o.kind with
    | .store n d => memWriteH false s o.addr (toBytes n d.toNat) o.hint
    | .load _ _ => s
    | .signal _ _ => s
    | k =>
      let r := memReadH s o.addr 8 o.hint
      memWriteH false r.s o.addr (toBytes 8 (atomicNew k (BitVec.ofNat 64 (ofBytes r.data))).toNat) o.hint) s
  x.vec.out.foldl (fun s m => match m.kind with | .store w => doWrites s t 0 w | .load _ => s) s

/-- A started MSAVE stops: its destination holds a mixture. -/
def stopSaves (s : State) (t : Nat) : State :=
  (s.tile t).mat.run.foldl (fun s r => match r.work with
    | .save a ad => mixture s t 0 [⟨false, ad, ((s.tile t).acc a).image⟩]
    | _ => s) s

/-- A packet of the tile that has not been injected. -/
def ofTile (t : Nat) (o : OutPkt) : Bool :=
  match o.owner with
  | .stream u _ => u == t
  | .prefetch u _ _ => u == t
  | _ => false

/-- The tile issues no further memory or fabric traffic: packets that wait for injection and an MCAST that was not accepted end; requests
that have left stay outstanding. -/
def stopTraffic (s : State) (t : Nat) : State :=
  let msgs := match (s.tile t).msg.started with
    | some g => s.mail.msgs.filter fun m => !(m.group == g && m.mcast && !m.mailMade)
    | none => s.mail.msgs
  let unsent := (s.fab.wait.filter (ofTile t)).map (·.p.id)
  let s := { s with mail := { s.mail with msgs := msgs }, fab := { s.fab with wait := s.fab.wait.filter fun o => !ofTile t o } }
  s.onTile t fun x => { x with str := { x.str with loose := (x.str.loose ++ x.str.run.flatMap (pendIds t)).filter fun id => !unsent.contains id } }

/-- B records a skewed PIN's abort on the tile's behalf (R120, R321): the one VERSION_SKEW that no unit of the tile detects, unit 0
(R118). -/
def byB (code unit : Nat) : Bool := code == cVERSION_SKEW && unit == 0

/-- The abort sequence completes: issued accesses have landed, transfers have left their mixtures, queues, windows and waits are
gone, a write-back that had started is complete (R223), an MCAST that was not accepted ends, the leaf is set, the notice posted, and
the tile is ABORTED. -/
def execTaskAbortEnd (t : Tid) (s : State) : Host.Outcome State Fault Refusal :=
  .next (
    let x := s.tile t
    if !isRunning s t || !x.aborting then s
    else
      let s := landStores s t
      let s := x.str.run.foldl (fun s r => endMixture s t r) s
      let s := stopSaves s t
      let s := match x.fill.move with
        | some (.writeBack _) => writeBackLands s t
        | some .load => loadLands s t
        | none => s
      let s := stopTraffic s t
      let code := getF s (fTILE_TRAP_CAUSE_CODE t)
      let unit := getF s (fTILE_TRAP_CAUSE_UNIT t)
      let multi := bitF s (fTILE_TRAP_CAUSE_MULTI t)
      let s := taskEnd s t code unit multi (cyclesOf s t)
      let s := s.onTile t fun y =>
        { y with
          phase := .aborted, aborting := false, halting := false, rdspWait := false, coreWait := none, ops := []
          mat := { y.mat with queue := [], run := [], unpaired := [], snap := none, recompute := [] }
          vec := { y.vec with queue := [], out := [], win := none, redo := [] }
          str := { y.str with queue := [], run := [] }
          msg := .reset
          fill := .reset }
      let s := postNotice s t (noticePayload t code unit (getF s (fTILE_TRAP_PC_PC t)) (getF s (fTILE_TRAP_INFO_INFO t))
        x.trapTime x.trapCycles multi (byB code unit))
      setTileLeaf s t)

end Sys2Proof.Machine
end

