-- ==== Sys2Proof/Machine/Package.lean ====
section
/-!
DEFINITION. The commands of the package (spec 15): weir links, the loss of a die and its reset attempts, the reference clock, and
the clock states of the clusters.
-/
namespace Sys2Proof.Machine

/-! ### Weir links (R487 to R491) -/

/-- The key of one direction of a link; `down` is B to die. -/
def weirKey (d link : Nat) (down : Bool) : Nat := 84 * d + 2 * link + down.toNat

def weirDir (s : State) (d link : Nat) (down : Bool) : WeirDir := mget (fun _ => WeirDir.start) s.pkg.weir (weirKey d link down)

def setWeir (s : State) (d link : Nat) (down : Bool) (x : WeirDir) : State :=
  { s with pkg := { s.pkg with weir := mset (fun _ => WeirDir.start) s.pkg.weir (weirKey d link down) x } }

/-- VC and SEQ of a flit; a flit is its 32-byte sideband and its 256-byte payload (R487). -/
def flitVc (f : List Byte) : Nat := leAt f 0 1 % 8
def flitSeq (f : List Byte) : Nat := leAt f 0 1 / 16

/-- The CRC of R487 holds. -/
def flitGood (f : List Byte) : Bool := crc32 (slice f 0 28 ++ slice f 32 256) == leAt f 28 4

/-- The flits that an ACK of `ack` confirms leave the replay buffer. -/
def ackFlits (l : List (Nat × List Byte)) (ack : Nat) : List (Nat × List Byte) :=
  if l.any fun x => x.1 == ack then l.dropWhile fun x => x.1 != ack
  else match l.getLast? with
    | some x => if (x.1 + 1) % 16 = ack then [] else l
    | none => []

/-- The link that carries the messages of a unit of die-local tile j (R485): VC 0 and 1 of a stream port have a stream link, all else the
cluster's link for the tile. -/
def linkOf (vc : Nat) (u : Nat × Bool) : Nat :=
  if u.2 && decide (vc ≤ 1) then u.1 % 64 / 2 else 32 + 2 * (u.1 % 64 / 16) + u.1 % 2

/-- Which link's traffic a link carries: its own, or as a spare that of the link it replaced at training; none on a replaced link and on an
unused spare (R485). -/
def carries (s : State) (d link : Nat) : Option Nat :=
  let l := (dieRt s d).spares
  if 40 ≤ link then l.getD (link - 40) none else if l.contains (some link) then none else some link

/-- A flit as R487 lays it out: a VC that exists, SEQ 0 on VC 5, the reserved bits 0, and its CRC. -/
def flitFormed (f : List Byte) : Bool :=
  decide (flitVc f ≤ 5) && (flitVc f != 5 || flitSeq f == 0) && leAt f 1 1 / 32 == 0 && leAt f 2 2 / 2 ^ 15 == 0 && leAt f 24 4 == 0 &&
  flitGood f

/-- Credits by VC in a flit (R487). -/
def flitCredits (f : List Byte) : List Nat := (List.range 5).map fun v => leAt f 2 2 / 8 ^ v % 8

/-- The NAK bit of a flit. -/
def flitNak (f : List Byte) : Bool := bit (leAt f 1 1) 4

/-- Two flits with one VC, DATA, SEQ, MSG and payload: a resend says only the other direction's ACK, NAK and credits anew. -/
def sameFlit (f g : List Byte) : Bool :=
  f.take 1 == g.take 1 && slice f 4 24 == slice g 4 24 && slice f 32 256 == slice g 32 256

/-- The sender puts a flit on the link, whose other direction is y: ACK is what that direction expects, NAK is 1 only while it asks for a resend, and
it returns credit only for buffers that are free again. A new flit needs the next SEQ, room in the replay buffer, a credit, and no resend under
way; a NAK makes the sender send the flits of the replay buffer again, in order; a VC 5 flit is not sequenced. None: it cannot be sent. -/
def weirSend (link : Nat) (x y : WeirDir) (f : List Byte) : Option WeirDir :=
  let vc := flitVc f
  let q := flitSeq f
  if !flitFormed f || leAt f 1 1 % 16 != y.expect || (flitNak f && !y.nakDue) ||
      ((flitCredits f).zip y.owed).any fun p => decide (p.2 < p.1) then
    none
  else if vc = 5 then some x
  else if linkOf vc (Config.flitUnit f) ≠ link then none
  else match x.resend with
    | r :: rest => if q = r ∧ x.unacked.any (fun u => u.1 == q && sameFlit u.2 f) then some { x with resend := rest } else none
    | [] =>
      if q = x.next ∧ x.unacked.length < 8 ∧ 0 < x.credit.getD vc 0 then
        some { x with next := (x.next + 1) % 16, unacked := x.unacked ++ [(x.next, f)],
                      credit := replaceAt x.credit vc (x.credit.getD vc 0 - 1) }
      else none

/-- The receiver discards a flit: the first of a gap is asked for again, and so is a resend of the expected SEQ that arrives damaged
(R490; assumption log 92). -/
def discardFlit (x : WeirDir) (q : Nat) : WeirDir :=
  if !x.naking || q == x.expect then { x with naking := true, nakDue := true } else x

/-- A NAK reaches the sender of a direction: it frees what the NAK confirms and resends every unacknowledged flit from the expected SEQ on
(R490); the run of NAKs for one SEQ and the retries of the last 1 ms are counted (R491). -/
def takeNak (now : Nat) (x : WeirDir) : WeirDir :=
  let l := ackFlits x.unacked x.expect
  { x with
    nakDue := false, unacked := l, resend := l.map (·.1), nakSeq := x.expect, nakRun := if x.nakSeq = x.expect then x.nakRun + 1 else 1
    retries := now :: x.retries.filter fun t => decide (now < t + 1000000) }

/-- Credits that a flit returns (R487, R489) to the sender of the other direction; its receiver owes them no longer. -/
def takeCredits (y : WeirDir) (c : List Nat) : WeirDir :=
  { y with
    credit := ([16, 16, 8, 4, 4].zipIdx).map fun p => min p.1 (y.credit.getD p.2 0 + c.getD p.2 0)
    owed := (List.range 5).map fun v => y.owed.getD v 0 - c.getD v 0 }

/-- The ACK, the credits and the NAK of a flit that was accepted serve the other direction. -/
def takeSideband (s : State) (d link : Nat) (down : Bool) (f : List Byte) : State :=
  let y := weirDir s d link (!down)
  let y := takeCredits { y with unacked := ackFlits y.unacked (leAt f 1 1 % 16) } (flitCredits f)
  if flitNak f then satF (setWeir s d link (!down) (takeNak s.now y)) (fPKG_WEIR_RETRIES d) 1 else setWeir s d link (!down) y

/-- A flit is sent on a link of a die in service, `err` are the bytes that the wires change (position, XOR): the receiver accepts
it, or discards it, and then asks for a resend (R490). -/
def execWeirFlit (d : Die) (link : Fin 42) (down : Bool) (flit : List Byte) (err : List (Nat × Byte)) (s : State) :
    Host.Outcome State Fault Refusal :=
  .next (match carries s d.val link.val with
    | none => s
    | some l =>
      if !dieUp s d.val || flit.length != 288 then s
      else match weirSend l (weirDir s d.val link.val down) (weirDir s d.val link.val (!down)) flit with
        | none => s
        | some x =>
          let got := err.foldl (fun f e => replaceAt f e.1 (f.getD e.1 0 ^^^ e.2)) flit
          let vc := flitVc flit
          if !flitGood got then
            setWeir (satF s (fPKG_WEIR_CRC_ERRS d.val) 1) d.val link.val down (if vc = 5 then x else discardFlit x (flitSeq flit))
          else
            let x := { x with goodAt := s.now }
            if flitVc got = 5 then takeSideband (setWeir s d.val link.val down x) d.val link.val down got
            else if flitSeq got = x.expect then
              let x := { x with expect := (x.expect + 1) % 16, naking := false, nakDue := false, nakRun := 0,
                                owed := replaceAt x.owed (flitVc got) (x.owed.getD (flitVc got) 0 + 1) }
              takeSideband (setWeir s d.val link.val down x) d.val link.val down got
            else setWeir s d.val link.val down (discardFlit x (flitSeq got)))

/-- A NAK reaches the sender of a direction. -/
def execWeirNak (d : Die) (link : Fin 42) (down : Bool) (s : State) : Host.Outcome State Fault Refusal :=
  .next (
    let x := weirDir s d.val link.val down
    if !dieUp s d.val || !x.nakDue then s
    else satF (setWeir s d.val link.val down (takeNak s.now x)) (fPKG_WEIR_RETRIES d.val) 1)

/-- No flit with a good CRC has arrived in a direction for 64 base-die cycles of 1.20 GHz, counted from when its die came into service
(R491). -/
def weirSilent (s : State) (d link : Nat) (down : Bool) : Bool :=
  decide (64000 ≤ 1200 * (s.now - max (weirDir s d link down).goodAt (dieRt s d).upAt))

/-- A link in use fails (R491): 4 consecutive NAKs for one SEQ, more than 256 retries within 1 ms, or (`silent`) no good flit for 64
cycles. Its die is lost. -/
def execWeirLinkFail (d : Die) (link : Fin 42) (silent : Bool) (s : State) : Host.Outcome State Fault Refusal :=
  .next (
    let l := [weirDir s d.val link.val false, weirDir s d.val link.val true]
    let n : Nat := l.foldl (fun a x => a + (x.retries.filter fun t => decide (s.now < t + 1000000)).length) 0
    let quiet := silent && (weirSilent s d.val link.val false || weirSilent s d.val link.val true)
    if dieUp s d.val && (carries s d.val link.val).isSome && (quiet || l.any (fun x => decide (4 ≤ x.nakRun)) || decide (256 < n)) then
      loseDie (raise s fPKG_ERR_WEIR_FAIL) d.val 2
    else s)

/-! ### Losing a die (R497 to R499, R121) -/

def execClockLost (d : Die) (s : State) : Host.Outcome State Fault Refusal := .next (loseDie s d.val 1)

/-- Writes of a lost die: one whose flit passed its CRC before the fence is carried out whole, any other has no effect; which
they are is free (R499). -/
def settleWrites (s : State) (t : Nat) : State :=
  let x := s.tile t
  let one (s : State) (f : State → State) : State :=
    let b := freshBool s
    if b.1 then f b.2 else b.2
  let s := x.ops.foldl (fun s o => match o.kind with
    | .store n v => one s fun s => memWriteH false s o.addr (toBytes n v.toNat) o.hint
    | .load _ _ => s
    | .signal _ _ => s
    | k => one s fun s =>
      let r := memReadH s o.addr 8 o.hint
      memWriteH false r.s o.addr (toBytes 8 (atomicNew k (BitVec.ofNat 64 (ofBytes r.data))).toNat) o.hint) s
  let s := x.vec.out.foldl (fun s m => match m.kind with
    | .store w => w.foldl (fun s w => one s fun s => doWrites s t 0 [w]) s
    | .load _ => s) s
  let s := x.str.run.foldl (fun s r => endMixture s t r) s
  let s := stopSaves s t
  match x.fill.move, x.fill.bound, x.fill.res with
  | some (.writeBack _), some a, some (ad, _) => mixture s t 0 [⟨false, ad, (x.acc a).image⟩]
  | _, _, _ => s

/-- B fences the die's links and settles its work (R498, R499). -/
def execDieLossFence (d : Die) (s : State) : Host.Outcome State Fault Refusal :=
  .next (
    let x := dieRt s d.val
    if dieState s d.val ≠ dLOST ∨ x.fenced ∨ x.ran.isNone then s
    else
      let s := (dieTiles d.val).foldl (fun s t => stopTraffic (settleWrites s t) t) s
      let s := (dieTiles d.val).foldl (fun s t => s.onTile t Tile.fresh) s
      let s := { s with pkg := { s.pkg with weir := mclear (fun k => k / 84 == d.val) s.pkg.weir } }
      setDie s d.val { x with fenced := true })

/-- B posts the DIE_LOST notices, sets DEGRADED, and the loss is logged (R121, R498). -/
def execDieLostNotice (d : Die) (s : State) : Host.Outcome State Fault Refusal :=
  .next (
    let x := dieRt s d.val
    match x.ran with
    | none => s
    | some l =>
      if !x.fenced then s
      else
        let s := l.foldl (fun s t =>
          setTileLeaf (postNotice s t (noticePayload t cDIE_LOST 0 0 0 (getF s (fPKG_DIE_LOST_AT_TIME d.val)) 0 false true)) t) s
        let s := setF (raise s fPKG_ERR_DIE_LOST) fOPT_FAB_STATUS_DEGRADED 1
        let s := postEventAt s (getF s (fPKG_DIE_LOST_AT_TIME d.val)) x.sync 0x0D 2 3 d.val (getF s (fPKG_DIE_STATUS_REASON d.val)) l.length
        setDie s d.val { x with ran := none })

/-! ### Reset attempts (R500 to R502) -/

/-- An attempt starts, and its regulator is on (R513), at the setpoint of the 1.80 GHz at which the PLL will lock. -/
def startAttempt (s : State) (d : Nat) : State :=
  let s := addF s (fPKG_DIE_STATUS_ATTEMPTS d) 1
  let s := setLoop s d { dieLoop s d with uv := setpoint 24 }
  setDieState (setDie s d { dieRt s d with attempt := some (s.now, .reset), due := none, railOff := false }) d dRESETTING

/-- The dies start at t0 + 130 ms (R537): each that answers starts its first attempt, the others are ABSENT (R496, R500), and the endpoint may
complete requests (R538). -/
def startDies (s : State) : State :=
  let b := s.pm.boot
  if startupAt s 3 ∧ 130000000 ≤ b.ramp + (s.now - b.from_) then
    trainLink ((List.range 4).foldl (fun s d =>
      if bit b.present d then startAttempt s d else setF s (fPKG_DIE_STATUS_STATE d) dABSENT) (setStage s 4))
  else s

/-- The Postmaster starts an attempt: 1 ms after the loss (the die stopped up to 200 ns before its detection), or 1 ms after a
failed attempt. -/
def execResetAttemptStart (d : Die) (s : State) : Host.Outcome State Fault Refusal :=
  .next (
    let x := dieRt s d.val
    let due : Bool := match x.due with | some t => decide (t ≤ s.now) | none => false
    if dieState s d.val = dLOST ∧ due = true ∧ x.ran.isNone ∧ bitF s fPM_STATUS_FW_RUNNING ∧ s.pm.pins.rails ∧
        (getF s fPM_STATUS_STAGE < 5 ∨ s.pm.fwFrom + 1000000 ≤ s.now) ∧ getF s (fPKG_DIE_STATUS_ATTEMPTS d.val) < 3 then startAttempt s d.val
    else s)

/-- A stage of the running attempt ends: `ok` runs its effect and goes to the next stage. -/
def endStage (d : Nat) (now_ : Stage) (no after : Nat) (ok : Bool) (go : State → State) (next_ : Stage) (s : State) :
    Host.Outcome State Fault Refusal :=
  .next (match (dieRt s d).attempt with
    | some (a0, st) =>
      if st ≠ now_ ∨ s.now < a0 + after then s
      else if !ok then failAttempt s d no
      else
        let s := go s
        setDie s d { dieRt s d with attempt := some (a0, next_) }
    | none => s)

/-- Every cluster of a die goes to OFF; of PKG_CLUSTER only MODE and RETAIN outlive a die-local reset. -/
def clustersOff (s : State) (d : Nat) : State :=
  let s := (List.range 4).foldl (fun s k =>
    setCluster (setFs s [(fPKG_CLUSTER_STATE (4 * d + k), kOFF), (fPKG_CLUSTER_REQ_REJ (4 * d + k), 0)]) (4 * d + k) .start) s
  let s := { s with pwr := { s.pwr with dies := s.pwr.dies.map fun x => if x.1 == d then (x.1, { x.2 with rot := none, limit := false }) else x } }
  reviewGates (setDie s d { dieRt s d with wakes := [] }) d

/-- Reset: asserted for 10 µs, every cluster OFF, the registers of the tile blocks at reset (R483). -/
def execAttemptResetEnd (d : Die) (ok : Bool) (s : State) : Host.Outcome State Fault Refusal :=
  endStage d.val .reset 0 10000 ok (fun s => clustersOff (resetTiles s d.val) d.val) .clock s

/-- Clock: the PLL locks at 1.80 GHz. -/
def execAttemptClockLock (d : Die) (ok : Bool) (s : State) : Host.Outcome State Fault Refusal :=
  endStage d.val .clock 1 10000 ok (fun s => setF s (fCLK_DIE_FCODE d.val) 24) .train s

/-- The links that the spares 40 and 41 replace, when `bad` fail at training: the failing ones among 0 to 39, in turn, by the spares that pass. -/
def replacedLinks (bad : List Nat) : List (Option Nat) :=
  let links := bad.filter (· < 40)
  if bad.contains 40 then [none, links[0]?] else [links[0]?, links[1]?]

/-- Train: up to 2 failing links are replaced by the spares; a third one fails the attempt. -/
def execAttemptTrainEnd (d : Die) (failing : List (Fin 42)) (s : State) : Host.Outcome State Fault Refusal :=
  let bad := (failing.map (·.val)).eraseDups
  endStage d.val .train 2 10000 (decide (bad.length ≤ 2))
    (fun s =>
      let s := setDie s d.val { dieRt s d.val with spares := replacedLinks bad }
      setF { s with pkg := { s.pkg with weir := mclear (fun k => k / 84 == d.val) s.pkg.weir } }
        (fPKG_DIE_STATUS_SPARES_USED d.val) (bad.filter (· < 40)).length) .clear s

/-- Every cluster of a die runs: the self-test executes in its engines (assumption log 75). -/
def clustersRun (s : State) (d : Nat) : State :=
  (List.range 4).foldl (fun s k => setF s (fPKG_CLUSTER_STATE (4 * d + k)) kRUN) s

/-- Clear: every SRAM of the die holds zeros. The self-test begins, with REASON 1. -/
def execAttemptClearEnd (d : Die) (ok : Bool) (s : State) : Host.Outcome State Fault Refusal :=
  endStage d.val .clear 3 10000 ok (fun s => setReason (clustersRun (resetTiles s d.val) d.val) d.val 1) .selfTest s

/-- Self-test: its programs have ended, and REASON is 0 again. -/
def execAttemptSelfTestEnd (d : Die) (ok : Bool) (s : State) : Host.Outcome State Fault Refusal :=
  endStage d.val .selfTest 4 10000 ok (fun s => setReason s d.val 0) .check s

/-- Check: the stepping and the feature word that the die reports, the word against that of its stepping (R493), both under R494 and, with an
image loaded, R123. During start-up
the steppings of all dies are checked together later (R537). -/
def execAttemptCheck (d : Die) (stepping : BitVec 8) (features : BitVec 64) (s : State) : Host.Outcome State Fault Refusal :=
  .next (match (dieRt s d.val).attempt with
    | some (_, .check) =>
      let word := features.toNat % 512
      let wrong := match stepFeatures stepping.toNat with | some w => features.toNat != w | none => false
      let s := setFs s [(fPKG_DIE_STATUS_STEPPING d.val, stepping.toNat), (fPKG_DIE_FEATURE_FEATURES d.val, word)]
      let s := setDie (setF s (fPKG_DIE_ERRATA_MASK d.val) (Config.errata stepping.toNat)) d.val { dieRt s d.val with attempt := none }
      if getF s fPM_STATUS_STAGE < 5 ∧ !wrong then setDieState s d.val dREADY
      else
      let others := (List.range 4).filter fun e => e != d.val && dieState s e != dABSENT && dieState s e != dFAILED
      let bad := wrong || stepsBad (getF s fPKG_BASE_ID_STEPPING) (stepping.toNat :: others.map fun e => getF s (fPKG_DIE_STATUS_STEPPING e)) ||
        (match s.load.feat with | some w => word &&& w != w | none => false)
      if bad then
        let s := setDieState (raise s fPKG_ERR_REJOIN_REJ) d.val dFAILED
        postEvent s 0x111 2 3 d.val word (featureEff s % 2 ^ 32)
      else rejoinNow (setDieState s d.val dREADY) d.val
    | _ => s)

/-- PKG_DIE_CTL_d.RESET (R502). -/
def execReset (d : Die) (s : State) : Host.Outcome State Fault Refusal :=
  .next (if dieState s d.val = dUP then loseDie s d.val 4
    else if dieState s d.val = dFAILED then startAttempt (setF s (fPKG_DIE_STATUS_ATTEMPTS d.val) 0) d.val
    else s)

/-! ### The reference (R504, R600) -/

/-- The reference has been missing for 1 µs: the on-module oscillator takes over and the PCIe link goes down. -/
def execRefLost (s : State) : Host.Outcome State Fault Refusal :=
  .next (if bitF s fPKG_AON_ON_LOCAL then s
    else raise { setF s fPKG_AON_ON_LOCAL 1 with host := { s.host with link := false } } fPKG_ERR_REF_LOST)

/-- The reference has been present for 10 ms: the domain switches back and the endpoint retrains. -/
def execRefRestore (s : State) : Host.Outcome State Fault Refusal :=
  .next (if bitF s fPKG_AON_ON_LOCAL then trainLink (setF s fPKG_AON_ON_LOCAL 0) else s)

/-! ### Clock states (R506 to R510) -/

/-- The head of a queue only waits: for a token, a pigeonhole, a barrier or credit. -/
def queueWaits (x : Tile) (e : Engine) : Bool :=
  match getQueue x e with
  | [] => true
  | h :: _ => h.waitFrom.isSome || h.held.isSome || (e == .message && x.msg.gw.isSome)

/-- A tile that lets its cluster gate (R507). -/
def tileIdle (s : State) (t : Nat) : Bool :=
  let x := s.tile t
  !isRunning s t ||
  (!x.aborting && x.ops.isEmpty && (x.coreWait.isSome || x.halting || x.rdspWait) && x.fill.level == 3 &&
   x.mat.run.isEmpty && x.vec.out.isEmpty && x.vec.win.isNone && x.str.run.isEmpty && x.msg.started.isNone &&
   [Engine.matrix, .vector, .stream, .message].all (queueWaits x))

/-- A head of a queue whose wait ends (R507): its descriptor, its credit or its token has come, or its deadline has passed. -/
def headWakes (s : State) (t : Nat) (e : Engine) : Bool :=
  match getQueue (s.tile t) e with
  | [] => false
  | h :: _ =>
    (match h.waitFrom with | some f => tokenLate s t (wWTK h.word) 1 f | none => false) ||
    (h.held.isSome && (pastBy64 s (headDeadline s t h) ||
      (wMaj h.word == 0x28 && wMin h.word == 0 && creditBack s h) ||
      (wMaj h.word == 0x28 && wMin h.word == 1 && (match namedPh h with | some p => !(phRt s p).queue.isEmpty | none => false))))

/-- A wake event of R507 has occurred for a tile since its cluster entered GATE: a token increment, what its message unit waits for, an item, the
end of a deadline, HOST_ABORT. START wakes a cluster by itself (R508). -/
def tileWakes (s : State) (t : Nat) : Bool :=
  let x := s.tile t
  let from_ := (clusterRt s (clusterOf t)).since
  isRunning s t && (x.aborting || (x.tk.any fun p => p.2.any fun q => decide (from_ ≤ q.1)) ||
    (match x.msg.gw with | some g => g.closed.isSome || (gwaitLate s t).isSome | none => false) ||
    (match x.coreWait with | some (f, tk, n) => tokenLate s t tk n f | none => false) ||
    !x.fill.defer.isEmpty || !x.fill.opt.isEmpty || [Engine.matrix, .vector, .stream, .message].any (headWakes s t))

/-- 64 consecutive idle tile cycles have passed: the cluster enters GATE (R507, R510). -/
def execGateEntry (c : Cluster) (s : State) : Host.Outcome State Fault Refusal :=
  .next (if dieUp s (c.val / 4) && clusterState s c.val == kRUN && decide (getF s (fPKG_CLUSTER_MODE c.val) ≤ 1) &&
      decide (64 ≤ (clusterRt s c.val).idle) && (clusterTiles c.val).all (tileIdle s) then
      setCluster (setF s (fPKG_CLUSTER_STATE c.val) kGATE) c.val { clusterRt s c.val with since := s.now, idle := 0 }
    else s)

/-- NAP_AFTER_US in GATE: NAP (R507). -/
def execNapEntry (c : Cluster) (s : State) : Host.Outcome State Fault Refusal :=
  .next (if clusterState s c.val = kGATE ∧ !(clusterRt s c.val).forced ∧ getF s (fPKG_CLUSTER_MODE c.val) = 0 ∧
      (clusterRt s c.val).since + 1000 * getF s fPKG_CLK_CTL_NAP_AFTER_US ≤ s.now then setF s (fPKG_CLUSTER_STATE c.val) kNAP
    else s)

/-- A wake event occurs for a tile of the cluster (R507). -/
def execWakeEvent (c : Cluster) (s : State) : Host.Outcome State Fault Refusal :=
  .next (if (clusterTiles c.val).any (tileWakes s) then wakeEvent s c.val else s)

/-- The ramp of a woken cluster ends: its first cycle; tasks that START sent to it begin (R508, R509). -/
def execClusterWakeDone (c : Cluster) (s : State) : Host.Outcome State Fault Refusal :=
  .next (
    let d := c.val / 4
    match (dieRt s d).wakes.find? fun w => w.1 == c.val with
    | none => s
    | some w =>
      if s.now < w.2.2 then s
      else
        let x := dieRt s d
        let s := setDie s d { x with wakes := x.wakes.filter fun v => v.1 != c.val, slotFree := max x.slotFree (w.2.2 + 500) }
        let l := (clusterRt s c.val).starts
        l.foldl (fun s t => s.onTile t fun y => { y with cycSince := s.now }) (reviewEpisode (rampOver s c.val) 2 c.val))

/-- What OFF does to a tile: the SRAM other than a retained operand cache is lost, and is zero when the tile comes back (R508). -/
def offTile (retain : Bool) (x : Tile) : Tile :=
  { x with
    oc := if retain then x.oc else []
    ocBad := if retain then x.ocBad else []
    regBad := []
    mat := { x.mat with a0 := { x.mat.a0 with elems := [] }, a1 := { x.mat.a1 with elems := [] } }
    vec := { x.vec with r := { x.vec.r with v := [], k := [], kPoison := [], p := [] } } }

/-- A request to enter OFF is ignored (R508). -/
def offRefused (s : State) (c : Nat) : Bool := (clusterTiles c).any (isRunning s) || !dieUp s (c / 4)

/-- PKG_CLUSTER.REQ = 1 (R508). -/
def execReqOff (c : Cluster) (s : State) : Host.Outcome State Fault Refusal :=
  .next (if offRefused s c.val then setF s (fPKG_CLUSTER_REQ_REJ c.val) 1
    else if clusterState s c.val = kOFF then s
    else
      let d := c.val / 4
      let x := dieRt s d
      let s := setDie s d { x with wakes := x.wakes.filter fun v => v.1 != c.val }
      let keep := bitF s (fPKG_CLUSTER_RETAIN c.val)
      (clusterTiles c.val).foldl (fun s t => s.onTile t (offTile keep)) (setF s (fPKG_CLUSTER_STATE c.val) kOFF))

/-- PKG_CLUSTER.REQ = 2 (R508). -/
def execReqLeaveOff (c : Cluster) (s : State) : Host.Outcome State Fault Refusal :=
  .next (if clusterState s c.val = kOFF ∧ dieUp s (c.val / 4) then wakeRamp s c.val else s)

end Sys2Proof.Machine
end

