-- ==== Sys2Proof/Machine/Startup.lean ====
section
/-!
DEFINITION. The commands of the module's input, pins, resets and start-up (spec 17 R537, spec 20).
-/
namespace Sys2Proof.Machine

/-! ### The input and PWR_EN (R592 to R596) -/

/-- VIN appears at J1 and has reached the operating range. -/
def execVinApply (s : State) : Host.Outcome State Fault Refusal := .next (s.onPins fun p => { p with vin := true })

/-- PWR_EN rises with the straps as sampled (R590, R591): start-up begins with VAON, or after the end of a running power-down. While
MOD_RST_N is low the straps are sampled at its deassertion instead. -/
def execPwrEnRise (slot : Fin 64) (testEn : Bool) (s : State) : Host.Outcome State Fault Refusal :=
  .next (
    let p := s.pm.pins
    if p.pwrEn || !p.vin then s
    else if p.down then s.onPins fun p => { p with pwrEn := true, again := some (slot.val, testEn) }
    else s.onPins fun p => { p with pwrEn := true, slot := slot.val, scan := testEn && !p.rst })

/-- VAON is in regulation: the always-on domain leaves reset `ramp` ns after t0, and the timebase starts at 0 (R537). The Postmaster
finds the highest SEQ of the log area (R542). -/
def execVaonReady (ramp : Nat) (s : State) : Host.Outcome State Fault Refusal :=
  .next (
    let p := s.pm.pins
    if !p.pwrEn || !p.vin || p.rst || p.aon || p.down then s
    else
      let s := unpowered s { p.levels with aon := true }
      let n := match s.pm.nor.log.getLast? with | some r => (r.seq + 1) % 2 ^ 32 | none => 0
      let s := s.onPm fun q => { q with nextSeq := n, saved := n }
      coldBoot (manufactured s) ramp)

/-- PWR_EN falls (R595): every cluster is forced to GATE and PWR_GOOD goes low. -/
def execPwrEnFall (s : State) : Host.Outcome State Fault Refusal :=
  .next (if !s.pm.pins.pwrEn then s
    else if !s.pm.pins.aon then s.onPins fun p => { p with pwrEn := false, again := none }
    else
      let s := (List.range 16).foldl (fun s c => if dieUp s (c / 4) then forceGate false s c else s) s
      s.onPins fun p => { p with pwrEn := false, down := true, good := false })

/-- The rails are off in the reverse of their order. -/
def execRailsOff (s : State) : Host.Outcome State Fault Refusal :=
  .next (if s.pm.pins.down && s.pm.pins.rails then railsDown (abandonLoad s) else s)

/-- VAON is off: the module is unpowered, and the log buffer is lost. A rise of PWR_EN that came meanwhile now takes effect. -/
def execVaonOff (s : State) : Host.Outcome State Fault Refusal :=
  .next (if !s.pm.pins.down || s.pm.pins.rails then s
    else
      let p := s.pm.pins
      unpowered s (match p.again with
        | some (slot, t) => { p.levels with slot := slot, scan := t && !p.rst }
        | none => { p.levels with scan := false }))

/-- VIN below 46.0 V for 1 ms or above 61.0 V for 10 µs: shutdown. -/
def execVinShutdown (mv : Nat) (s : State) : Host.Outcome State Fault Refusal :=
  .next (if !s.pm.pins.rails || (decide (46000 ≤ mv) && decide (mv ≤ 61000)) then s
    else railFault (abandonLoad s) 0 (if mv < 46000 then 0 else 1) mv)

/-- VIN below 40.0 V: VAON is off and the module is unpowered. -/
def execVinLoss (s : State) : Host.Outcome State Fault Refusal :=
  .next (unpowered s { s.pm.pins.levels with vin := false, scan := false })

/-! ### Resets (R556, R591, R592) -/

/-- Registers that MOD_RST_N keeps: PM_STATUS, whose STAGE it resets, PM_LOG_STATUS with its loss counts, whose SEL_MISS it resets, and
PKG_AON, which shows the source of the always-on clock (R17). -/
def keptReg (off : Nat) : Bool := off == 0x0 || off == 0x10C || off == 0x300014

/-- MOD_RST_N has been low for 10 µs: every rail except VAON is off and the module is in reset. The timebase, the log buffer, test
mode and the NOR device stay; it has no effect while PWR_EN is low or the power-down runs (R592, R608). -/
def execModRstNAssert (s : State) : Host.Outcome State Fault Refusal :=
  .next (
    let p := s.pm.pins
    if p.rst || p.down then s
    else if !p.aon then s.onPins fun p => { p with rst := true }
    else
      let s := stopFirmware (railsDown (abandonLoad s))
      let s := setF (setStage (resetRegs s fun off => !keptReg off) 0) fPM_LOG_STATUS_SEL_MISS 0
      let q := s.pm
      { s with
        halves := [], load := .reset, pwr := .reset, host := .reset, obs := .reset
        pm := { Pm.reset with
          pins := { q.pins with rst := true }, buf := q.buf, nextSeq := q.nextSeq, saved := q.saved, dropN := q.dropN,
          lostN := q.lostN, persists := q.persists, nor := q.nor, revoked := q.revoked, rollback := q.rollback, splitDue := false } })

/-- MOD_RST_N deasserts: a start-up from this instant, with SLOT_ID sampled; where PWR_EN rose under it, a power-on reset with all
straps sampled now. -/
def execModRstNDeassert (slot : Fin 64) (testEn : Bool) (s : State) : Host.Outcome State Fault Refusal :=
  .next (
    let p := s.pm.pins
    if !p.rst then s
    else
      let s := s.onPins fun p => { p with rst := false }
      if p.aon then coldBoot (manufactured (s.onPins fun p => { p with slot := slot.val })) 0
      else if p.pwrEn then s.onPins fun p => { p with slot := slot.val, scan := testEn }
      else s)

/-- TEST_EN rises: test mode, from READY on. -/
def execTestEnRise (s : State) : Host.Outcome State Fault Refusal :=
  .next (if stage s = 6 ∧ !s.pm.pins.scan then s.onPins fun p => { p with test := true } else s)

/-- The endpoint's own state returns to reset: the MSI-X table entry and the pending bit (R556). -/
def resetEndpoint (s : State) : State :=
  { s with host := { s.host with msixAddr := 0, msixData := 0, msixMask := true, msixPend := false } }

/-- PERST_N goes low or high. -/
def execPerstN (low : Bool) (s : State) : Host.Outcome State Fault Refusal :=
  .next (
    let s := s.onPins fun p => { p with perst := low }
    trainLink (if low then resetEndpoint s else s))

/-- Function Level Reset: the endpoint's state and the link, which trains again at once. -/
def execFunctionLevelReset (s : State) : Host.Outcome State Fault Refusal :=
  .next (if s.host.link then trainLink (resetEndpoint s) else s)

/-! ### Start-up (R537, R591, R594) -/

/-- Every rail is in regulation. In boundary-scan mode the boot ROM does this and start-up stops here. -/
def execRailSequenceDone (s : State) : Host.Outcome State Fault Refusal :=
  .next (if startupAt s 1 || (s.pm.pins.scan && s.pm.pins.aon && s.pm.rom != .idle && stage s == 0) then
      setStage ((List.range 4).foldl (fun s d => setLoop s d { dieLoop s d with uv := setpoint 24 }) (s.onPins fun p => { p with rails := true, good := true })) 2
    else s)

/-- B leaves reset with its stepping: STAGE BASE; `present` are the dies that will answer. The dies start at t0 + 130 ms, at once where that
has passed. A missing reference holds the sequence (R601). -/
def execBaseResetRelease (stepping : BitVec 8) (present : BitVec 4) (s : State) : Host.Outcome State Fault Refusal :=
  .next (if !startupAt s 2 || bitF s fPKG_AON_ON_LOCAL then s
    else startDies (setF (setStage (s.onBoot fun b => { b with present := present.toNat }) 3) fPKG_BASE_ID_STEPPING stepping.toNat))

/-- The optical subsystem is enabled, with the port split of the settings block (R368, R456). -/
def execOpticalEnable (s : State) : Host.Outcome State Fault Refusal :=
  .next (if (startupAt s 4 || startupAt s 5) && s.fab.opticsOn.isNone then
      setF { s with fab := { s.fab with opticsOn := some s.now } } fOPT_FAB_STATUS_SPLIT (settingsSplit s)
    else s)

/-- HBM4 and LPDDR-5X training ends; a stack or package that fails leads to limited mode. -/
def execMemoryTrainingDone (ok : Bool) (s : State) : Host.Outcome State Fault Refusal :=
  .next (if !startupAt s 4 || s.pm.boot.trained then s
    else if ok then s.onBoot fun b => { b with trained := true } else enterLimited s)

/-- Stacked DRAM holds zeros. -/
def execStackedZeroDone (s : State) : Host.Outcome State Fault Refusal :=
  .next (if startupAt s 4 && s.pm.boot.trained then
      { (s.onBoot fun b => { b with stacked := true }) with mem := { s.mem with ready := true } }
    else s)

/-- Every round of die attempts has ended. -/
def attemptsEnded (s : State) : Bool := (List.range 4).all fun d =>
  dieState s d == dABSENT || dieState s d == dREADY || dieState s d == dFAILED

/-- The steppings are checked: the dies that passed enter service, or the module enters limited mode (R494). -/
def execSteppingCheck (s : State) : Host.Outcome State Fault Refusal :=
  .next (if !startupAt s 4 || !s.pm.boot.stacked || !attemptsEnded s then s
    else
      let l := ((List.range 4).filter fun d => dieState s d == dREADY).map fun d => getF s (fPKG_DIE_STATUS_STEPPING d)
      if stepsBad (getF s fPKG_BASE_ID_STEPPING) l then enterLimited s
      else tryReady (rejoinDies (setStage (s.onBoot fun b => { b with checked := true }) 5)))

/-- The flash translation layer is rebuilt; `excluded` flash packages did not answer, and their capacity is left out. -/
def execFtlRebuildDone (excluded : Fin 17) (s : State) : Host.Outcome State Fault Refusal :=
  .next (if (startupAt s 4 || startupAt s 5) && !s.pm.boot.ftl then
      let s := raiseIf (excluded != 0) { s with tier := { s.tier with ftlReady := true, absent := excluded.val } } fTIER_ERR_SPARE_LOW
      tryReady (s.onBoot fun b => { b with ftl := true })
    else s)

/-- LPDDR holds zeros: the staging window opens (R538). -/
def execLpddrZeroDone (s : State) : Host.Outcome State Fault Refusal :=
  .next (if (startupAt s 4 || startupAt s 5) && s.pm.boot.trained && !s.pm.boot.lpddr then
      tryReady ({ s with mem := { s.mem with lpddrReady := true } }.onBoot fun b => { b with lpddr := true })
    else s)

/-! ### Boundary scan (R591) -/

/-- The next state of the test access port on a rising edge of TCK. -/
def Tap.next (t : Tap) (tms : Bool) : Tap :=
  match t with
  | .testLogicReset => if tms then .testLogicReset else .runTestIdle
  | .runTestIdle => if tms then .selectDr else .runTestIdle
  | .selectDr => if tms then .selectIr else .captureDr
  | .captureDr => if tms then .exit1Dr else .shiftDr
  | .shiftDr => if tms then .exit1Dr else .shiftDr
  | .exit1Dr => if tms then .updateDr else .pauseDr
  | .pauseDr => if tms then .exit2Dr else .pauseDr
  | .exit2Dr => if tms then .updateDr else .shiftDr
  | .updateDr => if tms then .selectDr else .runTestIdle
  | .selectIr => if tms then .testLogicReset else .captureIr
  | .captureIr => if tms then .exit1Ir else .shiftIr
  | .shiftIr => if tms then .exit1Ir else .shiftIr
  | .exit1Ir => if tms then .updateIr else .pauseIr
  | .pauseIr => if tms then .exit2Ir else .pauseIr
  | .exit2Ir => if tms then .updateIr else .shiftIr
  | .updateIr => if tms then .selectDr else .runTestIdle

/-- The instruction in force is BYPASS, all ones; every other code selects the boundary register, since no other instruction exists. -/
def Jtag.bypass (j : Jtag) : Bool := j.ir.all (· == true)

/-- What the stage that shifts captures: the instruction register 01 in its two least bits, the bypass register 0, the boundary register the
levels of the pins under scan. Those levels, and the instruction register's other bits, are free values. -/
def Jtag.capture (j : Jtag) (free : Nat) : List Bool :=
  let bits (n : Nat) : List Bool := (List.range n).map fun i => Config.freeBool (free + i)
  if j.tap = .captureIr then [true, false] ++ bits Config.irMore
  else if j.bypass then [false]
  else bits Config.boundaryCells

/-- The bits that a capture takes from outside. -/
def Jtag.taken (j : Jtag) : Nat :=
  if j.tap = .captureIr then Config.irMore else if j.tap = .captureDr ∧ !j.bypass then Config.boundaryCells else 0

/-- One TCK cycle: the rising edge captures or shifts in the state the controller is in and moves it on; the falling edge updates what was
shifted, and TDO shows the lowest bit of the stage that shifts. -/
def Jtag.clock (j : Jtag) (tms tdi : Bool) (free : Nat) : Jtag :=
  let shift := match j.tap with
    | .captureIr => j.capture free
    | .captureDr => j.capture free
    | .shiftIr => j.shift.drop 1 ++ [tdi]
    | .shiftDr => j.shift.drop 1 ++ [tdi]
    | _ => j.shift
  let t := j.tap.next tms
  { tap := t, shift := shift
    ir := if t = .updateIr then shift else if t = .testLogicReset then [] else j.ir
    cells := if t = .updateDr ∧ !j.bypass then shift else j.cells
    tdo := if t = .shiftIr ∨ t = .shiftDr then shift.head? else none }

/-- A TCK cycle in boundary-scan mode; TRST_N low resets the port at any time (R589, R591). -/
def execBoundaryScanTck (tms : TestIn) (tdi : Bool) (s : State) : Host.Outcome State Fault Refusal :=
  .next (
    let j := s.pm.pins.jtag
    if !s.pm.pins.scan || !s.pm.pins.rails then s
    else if tms.trst then s.onPins fun p => { p with jtag := { j with tap := .testLogicReset, ir := [], tdo := none } }
    else { s with free := s.free + j.taken }.onPins fun p => { p with jtag := j.clock tms.tms tdi s.free })

end Sys2Proof.Machine
end

