-- ==== Sys2Proof/Machine/Csr.lean ====
section
/-!
DEFINITION. Register accesses of the host and of management (spec 00 R11 to R17, spec 01 R41, spec 18): reads with the effects of
R12 and R13, and writes by the access type of each field, where the fields that have a command of their own act as that command.
-/
namespace Sys2Proof.Machine

/-- The state that a command leaves. -/
def after (s : State) : Host.Outcome State Fault Refusal → State
  | .next t => t
  | _ => s

/-! ### Reads -/

/-- The halves of a 64-bit register (R12). -/
def halvesOf (s : State) (off : Nat) : Halves := mget (fun _ => ⟨none, none⟩) s.halves off
def setHalves (s : State) (off : Nat) (h : Halves) : State := { s with halves := mset (fun _ => ⟨none, none⟩) s.halves off h }

/-- The register belongs to a tile of a die that is not UP (R484). -/
def tileDown (s : State) (off : Nat) : Bool :=
  match tileOfOff off with
  | some t => !dieUp s (dieOf t)
  | none => false

/-- The register takes accesses: its part is out of reset (R41, R538), firmware runs where firmware backs it (R547), and its die is UP
(R484). R547 says only what such a register reads while FW_RUNNING is 0; that it then ignores writes too is the model's choice (log 26). -/
def regUp (s : State) (off : Nat) : Bool := partUp s off && !(pmFirmwareReg off && !fwRuns s) && !tileDown s off

/-- The read of a register clears its RC fields (R13). -/
def clearRc (s : State) (r : RegDef) (off : Nat) : State :=
  if !regUp s off then s
  else r.fields.foldl (fun s f => if f.access = .rc then setF s ⟨off, f.hi, f.lo⟩ 0 else s) s

/-- A 64-bit register begins at the offset. -/
def is64 (off : Nat) : Bool := match regAt off with | some r => r.width == 64 | none => false

/-- A 32-bit read at an aligned offset. A register that takes no access latches nothing and gives no latched half (R12). -/
def csrRead32 (s : State) (off : Nat) : Nat × State :=
  match plainWord s off with
  | some v => (if partUp s off then v else 0, s)
  | none =>
    match regAt off with
    | some r =>
      let v := readReg s off
      if r.width = 64 then (v % 2 ^ 32, if regUp s off then setHalves s off { halvesOf s off with high := some (v / 2 ^ 32) } else s)
      else (v, clearRc s r off)
    | none =>
      if off % 8 = 4 ∧ is64 (off - 4) then
        match if regUp s (off - 4) then (halvesOf s (off - 4)).high else none with
        | some h => (h, setHalves s (off - 4) { halvesOf s (off - 4) with high := none })
        | none => (readReg s (off - 4) / 2 ^ 32, s)
      else (readReg s off, s)

/-- A 64-bit read at an aligned offset: a 64-bit register, or two words of a slot or of the MSI-X table. -/
def csrRead64 (s : State) (off : Nat) : Nat :=
  match plainWord s off, plainWord s (off + 4) with
  | some a, some b => if partUp s off then a + b * 2 ^ 32 else 0
  | _, _ => match regAt off with
    | some r => if r.width = 64 then readReg s off else 0
    | none => 0

/-- A read access: anything else completes with zeros (R11). -/
def csrRead (s : State) (off : Nat) (width : AccessWidth) : Nat × State :=
  match width with
  | .word => if off % 4 = 0 then csrRead32 s off else (0, s)
  | .wide => (if off % 8 = 0 then csrRead64 s off else 0, s)
  | .half => (0, s)
  | .byte => (0, s)

/-! ### Writes -/

/-- Ranges outside of which a field keeps its value: base offset, lowest bit, least and greatest value. -/
def fieldRanges : List (Nat × Nat × Nat × Nat) :=
  [(0x600000, 0, 1, 1), (0x600010, 0, 1, 15), (0x600014, 16, 1, 3600), (0x600014, 0, 1, 168), (0x700020, 0, 100, 4000),
   (0xA00000, 8, 30, 60000), (0x502010, 16, 1, 1000), (0x502010, 0, 100, 10000), (0x502014, 0, 1000, 1000000),
   (0x502018, 24, 1, 255), (0x502018, 16, 1, 255), (0x502018, 8, 1, 255), (0x502018, 0, 10, 90), (0x50201C, 0, 1, 400),
   (0xA10110, 0, 10, 3600), (0xB00000, 1, 0, 19), (0x300018, 0, 20, 10000), (0x200020, 0, 0, 30),
   (0x200040, 0, 20, 60), (0xE00010, 0, 128, 2 ^ 36), (0xD00030, 0, 100, 60000)]

/-- Does a RW field of register `r` at `off` take the value (R16, and what the register's chapter says)? TWN_CTL.EN and
OBS_TRACE_CTL.TRACE_EN belong to their commands. -/
def takes (s : State) (r : RegDef) (off lo v : Nat) : Bool :=
  let b := r.base
  (match fieldRanges.find? fun x => x.1 == b && x.2.1 == lo with
   | some x => decide (x.2.2.1 ≤ v) && decide (v ≤ x.2.2.2)
   | none => true) &&
  (if b = 0xD00030 then v % 100 == 0
   else if b = 0xD00010 ∨ b = 0xD00018 ∨ (b = 0xD00000 ∧ lo = 16) then !bitF s fOBS_TRACE_CTL_TRACE_EN
   else if b = 0xC00010 then twState s == 0
   else if b = 0xA00500 ∨ b = 0xA00600 ∨ b = 0xA00800 then !bitF s fOPT_FAB_STATUS_PENDING
   else if b = 0x300104 ∧ lo = 2 then dieState s ((off - b) / 0x40) != dABSENT
   else !(b == 0xC00000 && lo == 0) && !(b == 0xD00004) && !(off == 0x10011C))

/-- The value of a field in a register value. -/
def FieldDef.of (f : FieldDef) (v : Nat) : Nat := bits v f.hi f.lo

/-- What a write does to one field by its access type (R13). The last word of the DEAD map has one bit, and INT_CAUSE_TILE is RO. -/
def putField (r : RegDef) (off v : Nat) (s : State) (f : FieldDef) : State :=
  let x := if r.base = 0xA00800 ∧ off = 0xA00800 + 4 * 132 then v % 2 else f.of v
  let fld : Fld := ⟨off, f.hi, f.lo⟩
  match f.access with
  | .rw => if takes s r off f.lo x then setF s fld x else s
  | .w1c => if off = 0x100118 then s else setF s fld (getF s fld &&& (fld.top - x))
  | _ => s

/-- A write of PKG_CLUSTER: MODE 3 and a refused REQ = OFF leave the register (R508, R510, R16), the latter with REQ_REJ set. Else MODE and
RETAIN are taken, which wakes nothing and may begin or end an override (R519, R533), then REQ. -/
def clusterWrite (s : State) (c v : Nat) : State :=
  if bits v 5 4 = 3 then s
  else if bits v 9 8 = 1 ∧ offRefused s c then setF s (fPKG_CLUSTER_REQ_REJ c) 1
  else
    let s := setFs s [(fPKG_CLUSTER_MODE c, bits v 5 4), (fPKG_CLUSTER_RETAIN c, bits v 10 10)]
    let s := reviewEpisode (if bit v 11 then setF s (fPKG_CLUSTER_REQ_REJ c) 0 else s) 2 c
    match bits v 9 8 with
    | 1 => after s (execReqOff (Fin.ofNat 16 c) s)
    | 2 => after s (execReqLeaveOff (Fin.ofNat 16 c) s)
    | _ => s

/-- Writes of registers that are one command as a whole. -/
def wholeRow (s : State) (off v : Nat) : Option State :=
  let w : BitVec 32 := BitVec.ofNat 32 v
  if 0x400000 ≤ off ∧ off < 0x500000 ∧ off % 0x1000 = 0 then
    let t : Tid := Fin.ofNat 256 ((off - 0x400000) / 0x1000)
    some (if bit v 0 then after s (execStart t ⟨bit v 1, false⟩ s) else if bit v 1 then after s (execHostAbort t s) else s)
  else if 0x400000 ≤ off ∧ off < 0x500000 ∧ off % 0x1000 = 0x700 then
    some (after s (execStrSplitWrite (Fin.ofNat 256 ((off - 0x400000) / 0x1000)) w s))
  else if 0x600100 ≤ off ∧ off < 0x600188 then some (after s (execMemQuadWrite (Fin.ofNat 34 ((off - 0x600100) / 4)) w s))
  else if off = 0x700000 then some (after s (execTierLoad w s))
  else if 0x200104 ≤ off ∧ off < 0x200184 ∧ off % 0x20 = 4 then some (after s (execDvfsPinWrite (Fin.ofNat 4 ((off - 0x200104) / 0x20)) w s))
  else if 0x300400 ≤ off ∧ off < 0x300440 then some (clusterWrite s ((off - 0x300400) / 4) v)
  else if off = 0x108 then some (after s (execPmLogSel w s))
  else if off = 0xD00300 then some (after s (execObsTraceSel w s))
  else if off = 0xD00024 then some (after s (execObsTraceRead w s))
  else if off = 0xE00000 then some (hstStage s v)
  else if off = 0x4000000 then some (if bit v 0 then after s (execDbLoad s) else s)
  else if 0x4010000 ≤ off ∧ off % 128 = 0x40 then
    some (if bit v 0 then after s (execDbSlotRing (Fin.ofNat 512 ((off - 0x4010000) / 128)) s) else s)
  else none

/-- PM_FW_CTL (R546). The PC at which an ACTIVATE restarts the Postmaster is a free value. -/
def fwCtl (s : State) (v : Nat) : State :=
  let s := if bit v 0 then after s (execPmFwLoad s) else s
  let s := if bit v 1 then
      let r := freshWord s
      after r.2 (execActivate (r.1.truncate 32) r.2)
    else s
  if bit v 2 then after s (execFwCommit s) else s

/-- TWN_CTL: EN first, then the WO bits from the lowest. -/
def twnCtl (s : State) (v : Nat) : State :=
  let s := if bit v 0 = bitF s fTWN_CTL_EN then s else after s (execEn (bit v 0) s)
  let s := if bit v 1 then after s (execTwnLoad (BitVec.ofNat 7 (bits v 14 8)) s) else s
  let s := if bit v 3 then after s (execRestoreTx s) else s
  let s := if bit v 4 then after s (execRestoreRx s) else s
  if bit v 5 then after s (execForce s) else s

/-- What a write starts once its fields are set: the WO bits, and a HOLD that ends. -/
def afterWrite (s : State) (off v : Nat) : State :=
  if off = 0xA00000 then
    (if bit v 0 then after s (execDiscStart s) else if bit v 1 then after s (execDiscClose s) else s)
  else if off = 0xA00400 then (if bit v 0 then after s (execApply (Fin.ofNat 16 (bits v 11 8)) s) else s)
  else if off = 0xB00000 then
    (if !bit v 0 then s
     else if bits v 5 1 < 20 then after s (execSwap (Fin.ofNat 20 (bits v 5 1)) s) else setF s fLAS_STATUS_REQ_REJ 1)
  else if off = 0xC00000 then twnCtl s v
  else if off = 0xD00000 then (if bit v 17 then after s (execSnap s) else s)
  else if off = 0xD00004 then (if bit v 0 then after s (execTraceStart s) else after s (execTraceStop s))
  else if off = 0x10 then fwCtl s v
  else if 0x300104 ≤ off ∧ off < 0x300204 ∧ off % 0x40 = 4 then
    let d := (off - 0x300104) / 0x40
    let s := if bit v 1 then s else rejoinNow s d
    if bit v 0 then after s (execReset (Fin.ofNat 4 d) s) else s
  else s

/-- A whole write of a register, where it takes accesses. A write that unmasks leaves can raise the interrupt condition, and one that
clears them can end it (R565); what the write starts reports its own leaves. -/
def regWrite (s : State) (r : RegDef) (off v : Nat) : State :=
  if !regUp s off then s
  else match wholeRow s off v with
    | some t => t
    | none => afterWrite (edge s (r.fields.foldl (putField r off v) s)) off v

/-- A 32-bit write at an aligned offset (R12). A write that the register ignores holds and commits no half. -/
def csrWrite32 (s : State) (off v : Nat) : State :=
  if (plainWord s off).isSome then (if partUp s off then putPlain s off v else s)
  else match regAt off with
    | some r =>
      if r.width = 64 then (if regUp s off then setHalves s off { halvesOf s off with low := some v } else s) else regWrite s r off v
    | none =>
      if off % 8 = 4 then
        match regAt (off - 4) with
        | some r =>
          if r.width = 64 ∧ regUp s (off - 4) then
            let o := off - 4
            match (halvesOf s o).low with
            | some l => regWrite (setHalves s o { halvesOf s o with low := none }) r o (l + v * 2 ^ 32)
            | none =>
              let high := r.fields.filter fun f => decide (32 ≤ f.hi)
              regWrite s { r with fields := high } o (regNow s r o % 2 ^ 32 + v * 2 ^ 32)
          else s
        | none => s
      else s

/-- A 64-bit write at an aligned offset: it discards a held low half. -/
def csrWrite64 (s : State) (off v : Nat) : State :=
  if (plainWord s off).isSome ∧ (plainWord s (off + 4)).isSome then
    (if partUp s off then putPlain (putPlain s off (v % 2 ^ 32)) (off + 4) (v / 2 ^ 32) else s)
  else match regAt off with
    | some r => if r.width = 64 ∧ regUp s off then regWrite (setHalves s off { halvesOf s off with low := none }) r off v else s
    | none => s

/-- A write access: anything else is ignored (R11). -/
def csrWrite (s : State) (off : Nat) (width : AccessWidth) (v : Nat) : State :=
  match width with
  | .word => if off % 4 = 0 then csrWrite32 s off (v % 2 ^ 32) else s
  | .wide => if off % 8 = 0 then csrWrite64 s off (v % 2 ^ 64) else s
  | .half => s
  | .byte => s

/-! ### The commands -/

def execCsrWrite (off : BitVec 27) (width : AccessWidth) (v : Word) (s : State) : Host.Outcome State Fault Refusal :=
  .next (csrWrite s off.toNat width v.toNat)

/-- A read command leaves its value in readData. -/
def readInto (s : State) (off : Nat) (width : AccessWidth) : State :=
  let r := csrRead s off width
  { r.2 with readData := r.1 }

def execCsrLowHalfRead (off : BitVec 27) (s : State) : Host.Outcome State Fault Refusal := .next (readInto s off.toNat .word)

def execCsrLowHalfWrite (off : BitVec 27) (v : BitVec 32) (s : State) : Host.Outcome State Fault Refusal :=
  .next (csrWrite s off.toNat .word v.toNat)

def execCsrHighHalfWrite (off : BitVec 27) (v : BitVec 32) (s : State) : Host.Outcome State Fault Refusal :=
  .next (csrWrite s off.toNat .word v.toNat)

/-- A read at an offset: R13's RC fields are cleared; a width or an alignment that R11 does not admit reads zeros. -/
def execRcFieldRead (at_ : FieldRead) (s : State) : Host.Outcome State Fault Refusal := .next (readInto s at_.off.toNat at_.width)

end Sys2Proof.Machine
end

