-- ==== Sys2Proof/Machine/Idle.lean ====
section
/-!
DEFINITION. The idle-fill order of a tile (spec 06 R225 to R228): which level its idle cycles run, and when a filling unit yields.
-/
namespace Sys2Proof.Machine

/-- The matrix unit has been idle for 64 consecutive cycles: its head cannot start, and no product or image transfer of the main program
is in progress. -/
def matIdle (s : State) (t : Nat) : Bool :=
  let x := s.tile t
  queueStuck s t .matrix && !x.mat.run.any (fun r => r.stepping x || r.moves) && idle64 s t x.mat.busyAt

/-- Level 1 can start (R225, R227): the write-back that an optimizer fill item asks for, or work of the deferral queue. -/
def canFillDefer (s : State) (t : Nat) : Bool :=
  let x := s.tile t
  matIdle s t && x.fill.bound.isSome && !phaseHolds s && (!x.fill.defer.isEmpty || optHeld x)

/-- Level 2 can start (R225): the head optimizer fill item has started, or is free to (R227, R359). -/
def canFillOpt (s : State) (t : Nat) : Bool :=
  let x := s.tile t
  vecIdle s t && x.fill.defer.isEmpty && x.vec.win.isNone && !phaseHolds s &&
  (match x.fill.opt.head? with
   | some i => !optHeld x && (x.fill.optHead.isSome || optFree s i)
   | none => false)

/-- The fill level of this instant (R225). -/
def fillLevel (s : State) (t : Nat) : Nat :=
  if canFillDefer s t then 1 else if canFillOpt s t then 2 else if matIdle s t && vecIdle s t then 3 else 0

/-- After 64 idle cycles of a unit the tile takes the level that R225 gives; the write-back that R227 asks for starts in preference to any
slice of a PRODUCT that has not begun (R227, assumption log 84). -/
def execIdleFillStart (t : Tid) (s : State) : Host.Outcome State Fault Refusal :=
  .next (
    let x := s.tile t
    if !isLive s t || !clkRuns s t then s else
    let n := fillLevel s t
    let s := s.onFill t fun f => { f with level := n }
    if n = 1 ∧ optHeld x ∧ x.fill.slice.isNone ∧ x.fill.move.isNone then s.onFill t fun f => { f with move := some (.writeBack .idle) }
    else s)

/-- A filling unit yields once its own queue's head can start (R228). -/
def execFillYield (t : Tid) (s : State) : Host.Outcome State Fault Refusal :=
  .next (
    let x := s.tile t
    let can (e : Engine) : Bool := fillHolds x e && !queueStuck s t e
    if isLive s t && clkRuns s t && (can .matrix || can .vector) then s.onFill t fun f => { f with level := 0 } else s)

end Sys2Proof.Machine
end

