-- ==== Sys2Proof/Machine/Mgmt.lean ====
section
/-!
DEFINITION. The management transports (spec 18 R568 to R571): MCTP control messages, the vendor-defined commands and the I3C dynamic
address.
-/
namespace Sys2Proof.Machine

/-- The boot ROM's responder runs: the Postmaster has halted without firmware (R571), or the module is in boundary-scan mode (R591). Where a
rail trip halted the start-up (R537), firmware runs on and serves the endpoint (assumption log 92). -/
def halted (s : State) : Bool := (stage s == 8 && !fwRuns s) || s.pm.pins.scan

/-- The binding reaches the endpoint: PCIe with the link up, I3C with a dynamic address, SGMII except in HALTED. -/
def viaUp (s : State) (via : Nat) : Bool :=
  s.pm.pins.aon && !s.pm.pins.rst &&
  (match via with
   | 0 => s.host.link
   | 1 => s.pm.i3c.isSome
   | _ => stage s != 8 && !s.pm.pins.scan)

/-- The MAC address of the SGMII port: 0x02 and bits [39:0] of OPT_SERIAL. -/
def macAddress (s : State) : Nat := 2 * 2 ^ 40 + getF s fOPT_SERIAL_SERIAL % 2 ^ 40

/-- The endpoint's address on a binding: 0 where PCIe routes by ID, the dynamic address on I3C, the MAC address on SGMII (R568). -/
def viaAddress (s : State) (via : Nat) : Nat :=
  match via with
  | 0 => 0
  | 1 => s.pm.i3c.getD 0
  | _ => macAddress s

/-- The endpoint answers a message that came in state o. -/
def respond (o s : State) (via typ cmd code : Nat) (data : List Byte) : State :=
  { s with wire := .mctp (viaAddress o via) via typ cmd code data :: s.wire }

/-! ### Control messages and the I3C address -/

/-- The answer to a control message: command code, completion code, contents, and the endpoint ID after it. -/
def controlAnswer (s : State) : MctpCtl → Nat × Nat × List Byte × Nat
  | .setEid op eid =>
    if op.val = 3 then (1, 0, [0, BitVec.ofNat 8 s.pm.eid, 0], s.pm.eid)
    else if op.val = 2 ∨ eid = 0 ∨ eid = 0xFF then (1, 2, [], s.pm.eid)
    else (1, 0, [0, eid, 0], eid.toNat)
  | .getEid => (2, 0, [BitVec.ofNat 8 s.pm.eid, 0, 0], s.pm.eid)
  | .getVersion t =>
    if t = 0 ∨ t = 5 ∨ t = 0x7F ∨ t = 0xFF then (4, 0, 1 :: (List.range 4).map fun i => Config.freeByte (s.free + i), s.pm.eid)
    else (4, 0x80, [], s.pm.eid)
  | .getTypes => (5, 0, [2, 5, 0x7F], s.pm.eid)
  | .getVendor n =>
    if n = 0 then (6, 0, [0xFF, 1] ++ (toBytes 4 Config.enterprise).reverse ++ [0, 0], s.pm.eid) else (6, 2, [], s.pm.eid)
  | .other c => (c.toNat, 5, [], s.pm.eid)

/-- An MCTP control message (type 0). -/
def execMctpControl (via : Via) (c : MctpCtl) (s : State) : Host.Outcome State Fault Refusal :=
  .next (if !viaUp s via.val || !(fwRuns s || halted s) then s
    else
      let a := controlAnswer s c
      let t := { s with free := s.free + 4 }
      respond s (t.onPm fun p => { p with eid := a.2.2.2 }) via.val 0 a.1 a.2.1 a.2.2.1)

/-- The 48-bit provisional ID of the I3C target: SLOT_ID as last sampled in bits [5:0] (R568, R590). -/
def provisionalId (s : State) : Nat := Config.provisionalId % 2 ^ 42 * 64 + s.pm.pins.slot % 64

/-- The I3C controller assigns the dynamic address by ENTDAA, in which the target sends its provisional ID; `ibi` says whether it enables
in-band interrupts. -/
def execDynamicAddress (addr : BitVec 7) (ibi : Bool) (s : State) : Host.Outcome State Fault Refusal :=
  .next (if s.pm.pins.aon && !s.pm.pins.rst then
      { (s.onPm fun p => { p with i3c := some addr.toNat }).onHost fun h => { h with ibi := ibi } with wire := .i3cId (provisionalId s) :: s.wire }
    else s)

/-! ### Vendor-defined commands (R569 to R571) -/

/-- A vendor command that needs firmware: UNAVAILABLE while FW_RUNNING is 0 (R570). -/
def needsFirmware (s : State) (via cmd : Nat) (go : State → State) : State :=
  if !viaUp s via then s
  else if !fwRuns s then respond s s via 0x7F cmd 3 []
  else go s

/-- GET_SUMMARY: four registers. -/
def execGetSummary (via : Via) (s : State) : Host.Outcome State Fault Refusal :=
  .next (if viaUp s via.val then
      respond s s via.val 0x7F 1 0 ([0x0, 0x100000, 0x300000, 0x100].flatMap fun o => toBytes 4 (readReg s o))
    else s)

/-- The width of a register access: 4 or 8 bytes, inside the CSR window. -/
def accessOk (off : Nat) (width : BitVec 8) : Bool := (width == 4 || width == 8) && decide (off < 0x4000000)

def execReadCsr (via : Via) (off : BitVec 32) (width : BitVec 8) (s : State) : Host.Outcome State Fault Refusal :=
  .next (needsFirmware s via.val 2 fun s =>
    if !accessOk off.toNat width then respond s s via.val 0x7F 2 1 []
    else
      let r := csrRead s off.toNat (if width == 8 then .wide else .word)
      respond s r.2 via.val 0x7F 2 0 (toBytes width.toNat r.1))

def execWriteCsr (via : Via) (off : BitVec 32) (width : BitVec 8) (v : Word) (s : State) : Host.Outcome State Fault Refusal :=
  .next (needsFirmware s via.val 3 fun s =>
    if !accessOk off.toNat width then respond s s via.val 0x7F 3 1 []
    else respond s (csrWrite s off.toNat (if width == 8 then .wide else .word) v.toNat) via.val 0x7F 3 0 [])

/-- READ_LOG: the records held among `n` from SEQ `first`. -/
def execReadLog (via : Via) (first : BitVec 32) (n : BitVec 8) (s : State) : Host.Outcome State Fault Refusal :=
  .next (needsFirmware s via.val 4 fun s =>
    if n.toNat = 0 ∨ 32 < n.toNat then respond s s via.val 0x7F 4 1 []
    else
      let l := (List.range n.toNat).filterMap fun i => findRecord s ((first.toNat + i) % 2 ^ 32)
      respond s s via.val 0x7F 4 0 (toBytes 1 l.length ++ l.flatMap LogRec.bytes))

/-- Bytes of bank 0 as programmed so far; an erased byte of the NOR device reads 0xFF. -/
def bank0Bytes (s : State) : List Byte := match s.pm.nor.bank0 with | .bytes l => l | .factory => []

/-- FW_WRITE in HALTED: the first one erases bank 0, then the bytes are programmed at the offset. -/
def recoveryWrite (s : State) (off : Nat) (data : List Byte) : State :=
  let old := if s.pm.recovery then bank0Bytes s else []
  let pad := old ++ List.replicate (off - old.length) 0xFF
  setBank (s.onPm fun p => { p with recovery := true }) 0 (.bytes (overlay pad off data))

/-- FW_WRITE: into the staging window at PM_FW_SRC + offset while firmware runs (under R558 before LPDDR is ready), into bank 0 in
HALTED. While neither is so, nothing says what it answers: a free code. -/
def execFwWrite (via : Via) (off : BitVec 32) (data : List (BitVec 8)) (s : State) : Host.Outcome State Fault Refusal :=
  .next (if !viaUp s via.val then s
    else if data.length = 0 ∨ 1024 < data.length then respond s s via.val 0x7F 5 1 []
    else if halted s then
      if 25165824 < off.toNat + data.length then respond s s via.val 0x7F 5 1 []
      else respond s (recoveryWrite s off.toNat data) via.val 0x7F 5 0 []
    else if fwRuns s then
      let o := getF s fPM_FW_SRC_OFFSET + off.toNat
      if stageSize < o + data.length then respond s s via.val 0x7F 5 1 []
      else if !stageOpen s then respond s (setLeaf s 11 4) via.val 0x7F 5 0 []
      else respond s (memWrite s (stageBase s + o) data) via.val 0x7F 5 0 []
    else
      let r := freshWord s
      respond s r.2 via.val 0x7F 5 (r.1.toNat % 4) [])

/-- FW_LOAD: a write of PM_FW_CTL.LOAD while firmware runs; in HALTED bank 0 is verified, made active, and the Postmaster restarts. The
cause and the PC that the PM_RESTART record of this restart gives are not stated: free values. -/
def execFwLoad (via : Via) (s : State) : Host.Outcome State Fault Refusal :=
  .next (if !viaUp s via.val then s
    else if halted s then
      let t := showBank s 0
      if !bankGood s 0 then respond s t via.val 0x7F 6 1 []
      else
        let c := freshWord t
        let pc := freshWord c.2
        restartPm (writeSelector (respond s pc.2 via.val 0x7F 6 0 []) 0 none (selector s).trials) (c.1.toNat % 4) (pc.1.toNat % 2 ^ 32)
    else if fwRuns s then
      let t := fwLoad s
      respond s t via.val 0x7F 6 (if getF t fPM_FW_STATUS_RESULT = 7 then 2 else 0) []
    else
      let r := freshWord s
      respond s r.2 via.val 0x7F 6 (r.1.toNat % 4) [])

end Sys2Proof.Machine
end

