-- ==== Sys2Proof/Machine/Spdm.lean ====
section
/-!
DEFINITION. Attestation (spec 17 R548, R549): the SPDM 1.2 responder over MCTP.
-/
namespace Sys2Proof.Machine

/-! ### Measurements (R549) -/

/-- The bank of the running firmware. -/
def runningBank (s : State) : Nat := getF s fPM_STATUS_BANK

/-- Measurement block i, 1 to 7. Contents whose bytes the spec does not lay out are digested by Config.measure. -/
def measurement (s : State) (i : Nat) : List Byte :=
  match i with
  | 1 => Config.measure 1 []
  | 2 => match fwBankOf s (runningBank s) with
    | .factory => Config.measure 2 []
    | .bytes l => sha384 (l.take (512 + fwSize l))
  | 3 => Config.measure 3 [s.pm.rollback, s.pm.revoked, bankSvn s (runningBank s)]
  | 4 => Config.measure 4 (((List.range 4).map fun d => getF s (fPKG_DIE_ERRATA_MASK d)) ++ (couplingModel s :: (List.range 4).map (sluiceTable s) ++
      [(List.range 20).map Config.sourceP0, Config.calibration]).flatten)
  | 5 => match s.load.lastOk with
    | some (d, j) => sha384 (d ++ toBytes 8 j)
    | none => sha384 (List.replicate 48 0)
  | 6 => Config.measure 6 (getF s fPKG_BASE_ID_STEPPING :: (List.range 4).flatMap fun d =>
      [getF s (fPKG_DIE_STATUS_STEPPING d), getF s (fPKG_DIE_FEATURE_FEATURES d)])
  | _ => Config.measure 7 [getF s fOPT_FAB_STATUS_SPLIT, s.pm.pins.test.toNat]

/-- The certificate chain of slot 0, for the running firmware. -/
def chain (s : State) : List Byte := Config.certChain Config.identitySeed (measurement s 2)

/-! ### The exchange -/

/-- Does the responder answer over a binding (R547, R548)? -/
def spdmUp (s : State) (via : Nat) : Bool := viaUp s via && fwRuns s

/-- SPDM ERROR: 1 InvalidRequest, 4 UnexpectedRequest. -/
def spdmError (s : State) (via code : Nat) : State := respond s s via 5 0x7F code []

/-- A request that needs the exchange at stage n (1 version known, 2 capabilities, 3 algorithms). -/
def spdmAt (s : State) (via n : Nat) (go : State → State) : State :=
  if !spdmUp s via then s else if s.pm.spdm ≠ n then spdmError s via 4 else go s

def setSpdm (s : State) (n : Nat) : State := s.onPm fun p => { p with spdm := n }

/-- GET_VERSION begins an exchange: VERSION names 1.2. -/
def execGetVersion (via : SpdmVia) (s : State) : Host.Outcome State Fault Refusal :=
  .next (if spdmUp s via.val then respond s (setSpdm s 1) via.val 5 0x04 0 [1, 0x00, 0x12] else s)

/-- GET_CAPABILITIES: CERT_CAP, CHAL_CAP and MEAS_CAP with signatures. -/
def execGetCapabilities (via : SpdmVia) (s : State) : Host.Outcome State Fault Refusal :=
  .next (spdmAt s via.val 1 fun s => respond s (setSpdm s 2) via.val 5 0x61 0 (toBytes 4 0x16))

/-- NEGOTIATE_ALGORITHMS with the requester's BaseAsymAlgo and BaseHashAlgo: ECDSA P-384 and SHA-384, or no common algorithm. -/
def execNegotiateAlgorithms (via : SpdmVia) (asym hash : BitVec 32) (s : State) : Host.Outcome State Fault Refusal :=
  .next (spdmAt s via.val 2 fun s =>
    if asym.getLsbD 7 && hash.getLsbD 1 then respond s (setSpdm s 3) via.val 5 0x63 0 (toBytes 4 0x80 ++ toBytes 4 0x02)
    else spdmError s via.val 1)

/-- GET_DIGESTS: slot 0. -/
def execGetDigests (via : SpdmVia) (s : State) : Host.Outcome State Fault Refusal :=
  .next (spdmAt s via.val 3 fun s => respond s s via.val 5 0x01 1 (sha384 (chain s)))

/-- GET_CERTIFICATE: a portion of the chain of slot 0, with its length and what remains. -/
def execGetCertificate (via : SpdmVia) (slot : BitVec 8) (off len : BitVec 16) (s : State) : Host.Outcome State Fault Refusal :=
  .next (spdmAt s via.val 3 fun s =>
    let c := chain s
    if slot ≠ 0 ∨ c.length ≤ off.toNat then spdmError s via.val 1
    else
      let p := (c.drop off.toNat).take len.toNat
      respond s s via.val 5 0x02 0 (toBytes 2 p.length ++ toBytes 2 (c.length - off.toNat - p.length) ++ p))

/-- CHALLENGE: the chain's digest, a nonce and a signature of the alias key. The nonce and the signature are free values. -/
def execChallenge (via : SpdmVia) (slot : BitVec 8) (s : State) : Host.Outcome State Fault Refusal :=
  .next (spdmAt s via.val 3 fun s =>
    if slot ≠ 0 then spdmError s via.val 1
    else
      let r := freshBytes s 128
      respond s r.2 via.val 5 0x03 0 (sha384 (chain s) ++ r.1))

/-- The blocks that GET_MEASUREMENTS names: 0 asks for their number, 0xFF for all of them. -/
def blocksOf (op : Nat) : Option (List Nat) :=
  if op = 0 then some [] else if op = 0xFF then some [1, 2, 3, 4, 5, 6, 7] else if op ≤ 7 then some [op] else none

/-- GET_MEASUREMENTS: the number of blocks in the parameter, the blocks asked for, and with `sig` a nonce and a signature (free values). -/
def execGetMeasurements (via : SpdmVia) (op : BitVec 8) (sig : Bool) (s : State) : Host.Outcome State Fault Refusal :=
  .next (spdmAt s via.val 3 fun s =>
    match blocksOf op.toNat with
    | none => spdmError s via.val 1
    | some l =>
      let b := l.flatMap fun i => BitVec.ofNat 8 i :: measurement s i
      if sig then
        let r := freshBytes s 128
        respond s r.2 via.val 5 0x60 7 (b ++ r.1)
      else respond s s via.val 5 0x60 7 b)

end Sys2Proof.Machine
end

