-- ==== Sys2Proof/Machine/Dispatch.lean ====
section
/-!
DEFINITION. The meaning of every command: one arm per constructor, each one direct call of its meaning.
-/
namespace Sys2Proof.Machine

def exec (i : Instr) (s : State) : Host.Outcome State Fault Refusal :=
  match i with
  | .csrWrite off width v => Sys2Proof.Machine.execCsrWrite off width v s
  | .csrLowHalfRead off => Sys2Proof.Machine.execCsrLowHalfRead off s
  | .csrLowHalfWrite off v => Sys2Proof.Machine.execCsrLowHalfWrite off v s
  | .csrHighHalfWrite off v => Sys2Proof.Machine.execCsrHighHalfWrite off v s
  | .rcFieldRead at_ => Sys2Proof.Machine.execRcFieldRead at_ s
  | .illegal t w => Sys2Proof.Machine.execIllegal t w s
  | .queueIssue t w => Sys2Proof.Machine.execQueueIssue t w s
  | .add t sd sa b => Sys2Proof.Machine.execAdd t sd sa b s
  | .sub t sd sa b => Sys2Proof.Machine.execSub t sd sa b s
  | .and t sd sa b => Sys2Proof.Machine.execAnd t sd sa b s
  | .or t sd sa b => Sys2Proof.Machine.execOr t sd sa b s
  | .xor t sd sa b => Sys2Proof.Machine.execXor t sd sa b s
  | .andn t sd sa b => Sys2Proof.Machine.execAndn t sd sa b s
  | .shl t sd sa b => Sys2Proof.Machine.execShl t sd sa b s
  | .shr t sd sa b => Sys2Proof.Machine.execShr t sd sa b s
  | .sra t sd sa b => Sys2Proof.Machine.execSra t sd sa b s
  | .mul t sd sa b => Sys2Proof.Machine.execMul t sd sa b s
  | .mulh t sd sa sb => Sys2Proof.Machine.execMulh t sd sa sb s
  | .mulhu t sd sa sb => Sys2Proof.Machine.execMulhu t sd sa sb s
  | .div t sd sa b => Sys2Proof.Machine.execDiv t sd sa b s
  | .divu t sd sa b => Sys2Proof.Machine.execDivu t sd sa b s
  | .rem t sd sa b => Sys2Proof.Machine.execRem t sd sa b s
  | .remu t sd sa b => Sys2Proof.Machine.execRemu t sd sa b s
  | .slt t sd sa b => Sys2Proof.Machine.execSlt t sd sa b s
  | .sltu t sd sa b => Sys2Proof.Machine.execSltu t sd sa b s
  | .seq t sd sa b => Sys2Proof.Machine.execSeq t sd sa b s
  | .min t sd sa b => Sys2Proof.Machine.execMin t sd sa b s
  | .max t sd sa b => Sys2Proof.Machine.execMax t sd sa b s
  | .minu t sd sa b => Sys2Proof.Machine.execMinu t sd sa b s
  | .maxu t sd sa b => Sys2Proof.Machine.execMaxu t sd sa b s
  | .popc t sd sa => Sys2Proof.Machine.execPopc t sd sa s
  | .clz t sd sa => Sys2Proof.Machine.execClz t sd sa s
  | .ctz t sd sa => Sys2Proof.Machine.execCtz t sd sa s
  | .li t sd imm => Sys2Proof.Machine.execLi t sd imm s
  | .lih t sd imm => Sys2Proof.Machine.execLih t sd imm s
  | .ld8u t sd sa hint offs => Sys2Proof.Machine.execLd8u t sd sa hint offs s
  | .ld16u t sd sa hint offs => Sys2Proof.Machine.execLd16u t sd sa hint offs s
  | .ld32u t sd sa hint offs => Sys2Proof.Machine.execLd32u t sd sa hint offs s
  | .ld64 t sd sa hint offs => Sys2Proof.Machine.execLd64 t sd sa hint offs s
  | .ld8s t sd sa hint offs => Sys2Proof.Machine.execLd8s t sd sa hint offs s
  | .ld16s t sd sa hint offs => Sys2Proof.Machine.execLd16s t sd sa hint offs s
  | .ld32s t sd sa hint offs => Sys2Proof.Machine.execLd32s t sd sa hint offs s
  | .ldo64 t sd sa offs => Sys2Proof.Machine.execLdo64 t sd sa offs s
  | .st8 t sd sa hint offs => Sys2Proof.Machine.execSt8 t sd sa hint offs s
  | .st16 t sd sa hint offs => Sys2Proof.Machine.execSt16 t sd sa hint offs s
  | .st32 t sd sa hint offs => Sys2Proof.Machine.execSt32 t sd sa hint offs s
  | .st64 t sd sa hint offs => Sys2Proof.Machine.execSt64 t sd sa hint offs s
  | .sto64 t sd sa offs => Sys2Proof.Machine.execSto64 t sd sa offs s
  | .aadd t sd sa sb => Sys2Proof.Machine.execAadd t sd sa sb s
  | .aswap t sd sa sb => Sys2Proof.Machine.execAswap t sd sa sb s
  | .acas t sd sa sb => Sys2Proof.Machine.execAcas t sd sa sb s
  | .aor t sd sa sb => Sys2Proof.Machine.execAor t sd sa sb s
  | .scalarMemoryComplete t n => Sys2Proof.Machine.execScalarMemoryComplete t n s
  | .beq t sa sb offs => Sys2Proof.Machine.execBeq t sa sb offs s
  | .bne t sa sb offs => Sys2Proof.Machine.execBne t sa sb offs s
  | .blt t sa sb offs => Sys2Proof.Machine.execBlt t sa sb offs s
  | .bge t sa sb offs => Sys2Proof.Machine.execBge t sa sb offs s
  | .bltu t sa sb offs => Sys2Proof.Machine.execBltu t sa sb offs s
  | .bgeu t sa sb offs => Sys2Proof.Machine.execBgeu t sa sb offs s
  | .jal t sd imm => Sys2Proof.Machine.execJal t sd imm s
  | .jalr t sd sa imm => Sys2Proof.Machine.execJalr t sd sa imm s
  | .nop t => Sys2Proof.Machine.execNop t s
  | .halt t => Sys2Proof.Machine.execHalt t s
  | .haltComplete t => Sys2Proof.Machine.execHaltComplete t s
  | .abort t sa => Sys2Proof.Machine.execAbort t sa s
  | .brk t imm => Sys2Proof.Machine.execBrk t imm s
  | .fence t scopes => Sys2Proof.Machine.execFence t scopes s
  | .tksig t tk => Sys2Proof.Machine.execTksig t tk s
  | .tkwait t tk => Sys2Proof.Machine.execTkwait t tk s
  | .tkadd t tk n => Sys2Proof.Machine.execTkadd t tk n s
  | .tkrd t sd tk => Sys2Proof.Machine.execTkrd t sd tk s
  | .tkwaitn t tk n => Sys2Proof.Machine.execTkwaitn t tk n s
  | .tkclr t tk => Sys2Proof.Machine.execTkclr t tk s
  | .rdsys t sd sys => Sys2Proof.Machine.execRdsys t sd sys s
  | .wrsp t => Sys2Proof.Machine.execWrsp t s
  | .rdsp t => Sys2Proof.Machine.execRdsp t s
  | .msend t => Sys2Proof.Machine.execMsend t s
  | .msendAccept t => Sys2Proof.Machine.execMsendAccept t s
  | .mrecv t => Sys2Proof.Machine.execMrecv t s
  | .mcredit t => Sys2Proof.Machine.execMcredit t s
  | .garrive t => Sys2Proof.Machine.execGarrive t s
  | .gwait t => Sys2Proof.Machine.execGwait t s
  | .mcoll t => Sys2Proof.Machine.execMcoll t s
  | .mcount t sd sel => Sys2Proof.Machine.execMcount t sd sel s
  | .mtry t sd sa sel => Sys2Proof.Machine.execMtry t sd sa sel s
  | .waitTimeout t u => Sys2Proof.Machine.execWaitTimeout t u s
  | .taskAbortEnd t => Sys2Proof.Machine.execTaskAbortEnd t s
  | .start t how => Sys2Proof.Machine.execStart t how s
  | .hostAbort t => Sys2Proof.Machine.execHostAbort t s
  | .dbLoad => Sys2Proof.Machine.execDbLoad s
  | .imageDigestDone => Sys2Proof.Machine.execImageDigestDone s
  | .imageCopyDone => Sys2Proof.Machine.execImageCopyDone s
  | .imageTakeoverDone => Sys2Proof.Machine.execImageTakeoverDone s
  | .loadTaskStart => Sys2Proof.Machine.execLoadTaskStart s
  | .settingsWrite => Sys2Proof.Machine.execSettingsWrite s
  | .mm t => Sys2Proof.Machine.execMm t s
  | .mmChunkStep t ue => Sys2Proof.Machine.execMmChunkStep t ue s
  | .fold t f => Sys2Proof.Machine.execFold t f s
  | .mmComplete t => Sys2Proof.Machine.execMmComplete t s
  | .mzero t => Sys2Proof.Machine.execMzero t s
  | .msave t => Sys2Proof.Machine.execMsave t s
  | .mmerge t => Sys2Proof.Machine.execMmerge t s
  | .mrestore t => Sys2Proof.Machine.execMrestore t s
  | .vadd t ue => Sys2Proof.Machine.execVadd t ue s
  | .vsub t ue => Sys2Proof.Machine.execVsub t ue s
  | .vmul t ue => Sys2Proof.Machine.execVmul t ue s
  | .vmulh t ue => Sys2Proof.Machine.execVmulh t ue s
  | .vfma t ue => Sys2Proof.Machine.execVfma t ue s
  | .vmin t ue => Sys2Proof.Machine.execVmin t ue s
  | .vmax t ue => Sys2Proof.Machine.execVmax t ue s
  | .vabs t ue => Sys2Proof.Machine.execVabs t ue s
  | .vneg t ue => Sys2Proof.Machine.execVneg t ue s
  | .vand t ue => Sys2Proof.Machine.execVand t ue s
  | .vor t ue => Sys2Proof.Machine.execVor t ue s
  | .vxor t ue => Sys2Proof.Machine.execVxor t ue s
  | .vandn t ue => Sys2Proof.Machine.execVandn t ue s
  | .vshl t ue => Sys2Proof.Machine.execVshl t ue s
  | .vsra t ue => Sys2Proof.Machine.execVsra t ue s
  | .vsrr t ue => Sys2Proof.Machine.execVsrr t ue s
  | .vcmplt t ue => Sys2Proof.Machine.execVcmplt t ue s
  | .vcmple t ue => Sys2Proof.Machine.execVcmple t ue s
  | .vcmpeq t ue => Sys2Proof.Machine.execVcmpeq t ue s
  | .vsel t ue => Sys2Proof.Machine.execVsel t ue s
  | .vmov t ue => Sys2Proof.Machine.execVmov t ue s
  | .vscale t ue => Sys2Proof.Machine.execVscale t ue s
  | .valign t ue => Sys2Proof.Machine.execValign t ue s
  | .vnorm t ue => Sys2Proof.Machine.execVnorm t ue s
  | .vkand t ue => Sys2Proof.Machine.execVkand t ue s
  | .vkor t ue => Sys2Proof.Machine.execVkor t ue s
  | .vkxor t ue => Sys2Proof.Machine.execVkxor t ue s
  | .vrsub t ue => Sys2Proof.Machine.execVrsub t ue s
  | .vld t ue => Sys2Proof.Machine.execVld t ue s
  | .vectorLoadReturn t n => Sys2Proof.Machine.execVectorLoadReturn t n s
  | .vst t ue => Sys2Proof.Machine.execVst t ue s
  | .vrdacc t ue => Sys2Proof.Machine.execVrdacc t ue s
  | .vseed t ue => Sys2Proof.Machine.execVseed t ue s
  | .vrsum t ue => Sys2Proof.Machine.execVrsum t ue s
  | .vrmax t ue => Sys2Proof.Machine.execVrmax t ue s
  | .vsplat t ue => Sys2Proof.Machine.execVsplat t ue s
  | .windowReplay t => Sys2Proof.Machine.execWindowReplay t s
  | .smove t => Sys2Proof.Machine.execSmove t s
  | .scvt t => Sys2Proof.Machine.execScvt t s
  | .sflash t => Sys2Proof.Machine.execSflash t s
  | .sget t => Sys2Proof.Machine.execSget t s
  | .sput t => Sys2Proof.Machine.execSput t s
  | .svfence t => Sys2Proof.Machine.execSvfence t s
  | .sretain t => Sys2Proof.Machine.execSretain t s
  | .sexpand t => Sys2Proof.Machine.execSexpand t s
  | .sverify t => Sys2Proof.Machine.execSverify t s
  | .verifyRecompute a => Sys2Proof.Machine.execVerifyRecompute a s
  | .pfset t => Sys2Proof.Machine.execPfset t s
  | .pfstop t => Sys2Proof.Machine.execPfstop t s
  | .prefetchFillReturn t slot n => Sys2Proof.Machine.execPrefetchFillReturn t slot n s
  | .transferComplete t => Sys2Proof.Machine.execTransferComplete t s
  | .transferLate t n => Sys2Proof.Machine.execTransferLate t n s
  | .transferErrorEnd t => Sys2Proof.Machine.execTransferErrorEnd t s
  | .product t => Sys2Proof.Machine.execProduct t s
  | .bind t => Sys2Proof.Machine.execBind t s
  | .drain t => Sys2Proof.Machine.execDrain t s
  | .release t => Sys2Proof.Machine.execRelease t s
  | .residentTransferDone a => Sys2Proof.Machine.execResidentTransferDone a s
  | .idleFillStart t => Sys2Proof.Machine.execIdleFillStart t s
  | .fillSlice a => Sys2Proof.Machine.execFillSlice a s
  | .optFillUpdate t => Sys2Proof.Machine.execOptFillUpdate t s
  | .fillOptBlock t => Sys2Proof.Machine.execFillOptBlock t s
  | .fillYield t => Sys2Proof.Machine.execFillYield t s
  | .phaseEnter => Sys2Proof.Machine.execPhaseEnter s
  | .redrawDrainEnd p => Sys2Proof.Machine.execRedrawDrainEnd p s
  | .redrawRetuneEnd p ue => Sys2Proof.Machine.execRedrawRetuneEnd p ue s
  | .redrawLockEnd p => Sys2Proof.Machine.execRedrawLockEnd p s
  | .redrawCheckEnd p passed => Sys2Proof.Machine.execRedrawCheckEnd p passed s
  | .portReturn p => Sys2Proof.Machine.execPortReturn p s
  | .wave2Start => Sys2Proof.Machine.execWave2Start s
  | .latePeerRetry p l pass => Sys2Proof.Machine.execLatePeerRetry p l pass s
  | .laneUnpaired p l => Sys2Proof.Machine.execLaneUnpaired p l s
  | .memRead a err => Sys2Proof.Machine.execMemRead a err s
  | .memWrite a b err => Sys2Proof.Machine.execMemWrite a b err s
  | .correctiveWrite a => Sys2Proof.Machine.execCorrectiveWrite a s
  | .eddyAccess a n hint w => Sys2Proof.Machine.execEddyAccess a n hint w s
  | .dramScrub a err last => Sys2Proof.Machine.execDramScrub a err last s
  | .sramScrub w e last => Sys2Proof.Machine.execSramScrub w e last s
  | .memQuadWrite q v => Sys2Proof.Machine.execMemQuadWrite q v s
  | .tierLoad v => Sys2Proof.Machine.execTierLoad v s
  | .regionLoadDone => Sys2Proof.Machine.execRegionLoadDone s
  | .pin => Sys2Proof.Machine.execPin s
  | .unpin => Sys2Proof.Machine.execUnpin s
  | .hint => Sys2Proof.Machine.execHint s
  | .evict => Sys2Proof.Machine.execEvict s
  | .free => Sys2Proof.Machine.execFree s
  | .setver => Sys2Proof.Machine.execSetver s
  | .attach => Sys2Proof.Machine.execAttach s
  | .query => Sys2Proof.Machine.execQuery s
  | .flashWrite => Sys2Proof.Machine.execFlashWrite s
  | .flashTrim => Sys2Proof.Machine.execFlashTrim s
  | .moveComplete e => Sys2Proof.Machine.execMoveComplete e s
  | .backgroundEvict n tier => Sys2Proof.Machine.execBackgroundEvict n tier s
  | .useDecay => Sys2Proof.Machine.execUseDecay s
  | .pinLate n => Sys2Proof.Machine.execPinLate n s
  | .flashTileReadDone n retried fail => Sys2Proof.Machine.execFlashTileReadDone n retried fail s
  | .flashProgramDone n full spare low => Sys2Proof.Machine.execFlashProgramDone n full spare low s
  | .wearMove w spare low => Sys2Proof.Machine.execWearMove w spare low s
  | .update => Sys2Proof.Machine.execUpdate s
  | .resolve => Sys2Proof.Machine.execResolve s
  | .commit => Sys2Proof.Machine.execCommit s
  | .commitTakeEffect => Sys2Proof.Machine.execCommitTakeEffect s
  | .updQuery => Sys2Proof.Machine.execUpdQuery s
  | .setstep => Sys2Proof.Machine.execSetstep s
  | .updateBlock b => Sys2Proof.Machine.execUpdateBlock b s
  | .updateDone n => Sys2Proof.Machine.execUpdateDone n s
  | .discStart => Sys2Proof.Machine.execDiscStart s
  | .discClose => Sys2Proof.Machine.execDiscClose s
  | .discSweepSet p tx => Sys2Proof.Machine.execDiscSweepSet p tx s
  | .beaconSend e l => Sys2Proof.Machine.execBeaconSend e l s
  | .beacon e l => Sys2Proof.Machine.execBeacon e l s
  | .discEnd halfRows cols => Sys2Proof.Machine.execDiscEnd halfRows cols s
  | .apply phase => Sys2Proof.Machine.execApply phase s
  | .mail n => Sys2Proof.Machine.execMail n s
  | .bulk n => Sys2Proof.Machine.execBulk n s
  | .write n => Sys2Proof.Machine.execWrite n s
  | .read n => Sys2Proof.Machine.execRead n s
  | .readData n => Sys2Proof.Machine.execReadData n s
  | .ack n => Sys2Proof.Machine.execAck n s
  | .credit n => Sys2Proof.Machine.execCredit n s
  | .coll n => Sys2Proof.Machine.execColl n s
  | .barrier n => Sys2Proof.Machine.execBarrier n s
  | .vfence n => Sys2Proof.Machine.execVfence n s
  | .heldDrop hop n => Sys2Proof.Machine.execHeldDrop hop n s
  | .e2eTimeout n => Sys2Proof.Machine.execE2eTimeout n s
  | .rateWindow dest => Sys2Proof.Machine.execRateWindow dest s
  | .mcStallRemove coll n => Sys2Proof.Machine.execMcStallRemove coll n s
  | .catchupSend coll n => Sys2Proof.Machine.execCatchupSend coll n s
  | .collClose id => Sys2Proof.Machine.execCollClose id s
  | .agPartEnd id => Sys2Proof.Machine.execAgPartEnd id s
  | .barrierStageClose b => Sys2Proof.Machine.execBarrierStageClose b s
  | .ringOverrunIntervalEnd p => Sys2Proof.Machine.execRingOverrunIntervalEnd p s
  | .syncExchange p => Sys2Proof.Machine.execSyncExchange p s
  | .sync p l ns half => Sys2Proof.Machine.execSync p l ns half s
  | .syncLost => Sys2Proof.Machine.execSyncLost s
  | .codewordReceive e l cw => Sys2Proof.Machine.execCodewordReceive e l cw s
  | .packet e l => Sys2Proof.Machine.execPacket e l s
  | .linkAck e l => Sys2Proof.Machine.execLinkAck e l s
  | .identity e l => Sys2Proof.Machine.execIdentity e l s
  | .linkAckSend hop => Sys2Proof.Machine.execLinkAckSend hop s
  | .linkReplay hop n => Sys2Proof.Machine.execLinkReplay hop n s
  | .feedforwardUpdate e temp lock => Sys2Proof.Machine.execFeedforwardUpdate e temp lock s
  | .laneDrop e l cause => Sys2Proof.Machine.execLaneDrop e l cause s
  | .laneRelock e l pass => Sys2Proof.Machine.execLaneRelock e l pass s
  | .laneHoldoutEnd e l => Sys2Proof.Machine.execLaneHoldoutEnd e l s
  | .combCalibration n ok => Sys2Proof.Machine.execCombCalibration n ok s
  | .marginScan e l => Sys2Proof.Machine.execMarginScan e l s
  | .laserFading n ber => Sys2Proof.Machine.execLaserFading n ber s
  | .laserFailing n ber => Sys2Proof.Machine.execLaserFailing n ber s
  | .fadingSwapDue n => Sys2Proof.Machine.execFadingSwapDue n s
  | .swapStart n => Sys2Proof.Machine.execSwapStart n s
  | .swapSwitchDone e => Sys2Proof.Machine.execSwapSwitchDone e s
  | .swapCheckEnd e passed => Sys2Proof.Machine.execSwapCheckEnd e passed s
  | .swapReturn e => Sys2Proof.Machine.execSwapReturn e s
  | .laneRecheck e passed => Sys2Proof.Machine.execLaneRecheck e passed s
  | .swap n => Sys2Proof.Machine.execSwap n s
  | .opticalEnable => Sys2Proof.Machine.execOpticalEnable s
  | .opticalReady => Sys2Proof.Machine.execOpticalReady s
  | .twnLoad ranges => Sys2Proof.Machine.execTwnLoad ranges s
  | .en on => Sys2Proof.Machine.execEn on s
  | .mapExchange n l crc => Sys2Proof.Machine.execMapExchange n l crc s
  | .shadowBlockSend k => Sys2Proof.Machine.execShadowBlockSend k s
  | .shadowBlockAck m => Sys2Proof.Machine.execShadowBlockAck m s
  | .agreementArrive => Sys2Proof.Machine.execAgreementArrive s
  | .agreementMessage col j step => Sys2Proof.Machine.execAgreementMessage col j step s
  | .agreementClose => Sys2Proof.Machine.execAgreementClose s
  | .force => Sys2Proof.Machine.execForce s
  | .twinLost => Sys2Proof.Machine.execTwinLost s
  | .restoreTx => Sys2Proof.Machine.execRestoreTx s
  | .restoreRx => Sys2Proof.Machine.execRestoreRx s
  | .restoreEnd => Sys2Proof.Machine.execRestoreEnd s
  | .weirFlit d link down flit err => Sys2Proof.Machine.execWeirFlit d link down flit err s
  | .weirNak d link down => Sys2Proof.Machine.execWeirNak d link down s
  | .weirLinkFail d link silent => Sys2Proof.Machine.execWeirLinkFail d link silent s
  | .clockLost d => Sys2Proof.Machine.execClockLost d s
  | .dieLossFence d => Sys2Proof.Machine.execDieLossFence d s
  | .dieLostNotice d => Sys2Proof.Machine.execDieLostNotice d s
  | .resetAttemptStart d => Sys2Proof.Machine.execResetAttemptStart d s
  | .attemptResetEnd d ok => Sys2Proof.Machine.execAttemptResetEnd d ok s
  | .attemptClockLock d ok => Sys2Proof.Machine.execAttemptClockLock d ok s
  | .attemptTrainEnd d failing => Sys2Proof.Machine.execAttemptTrainEnd d failing s
  | .attemptClearEnd d ok => Sys2Proof.Machine.execAttemptClearEnd d ok s
  | .attemptSelfTestEnd d ok => Sys2Proof.Machine.execAttemptSelfTestEnd d ok s
  | .attemptCheck d stepping features => Sys2Proof.Machine.execAttemptCheck d stepping features s
  | .reset d => Sys2Proof.Machine.execReset d s
  | .refLost => Sys2Proof.Machine.execRefLost s
  | .refRestore => Sys2Proof.Machine.execRefRestore s
  | .gateEntry c => Sys2Proof.Machine.execGateEntry c s
  | .napEntry c => Sys2Proof.Machine.execNapEntry c s
  | .wakeEvent c => Sys2Proof.Machine.execWakeEvent c s
  | .clusterWakeDone c => Sys2Proof.Machine.execClusterWakeDone c s
  | .reqOff c => Sys2Proof.Machine.execReqOff c s
  | .reqLeaveOff c => Sys2Proof.Machine.execReqLeaveOff c s
  | .railTrip mon kind reading => Sys2Proof.Machine.execRailTrip mon kind reading s
  | .dvfsDecide d power tj sleep => Sys2Proof.Machine.execDvfsDecide d power tj sleep s
  | .dvfsPinWrite d value => Sys2Proof.Machine.execDvfsPinWrite d value s
  | .fcodeChangeDone d => Sys2Proof.Machine.execFcodeChangeDone d s
  | .telemetryCopy temps volts currs engines stackTemps => Sys2Proof.Machine.execTelemetryCopy temps volts currs engines stackTemps s
  | .thermThrottle d tj base eng stackA stackB => Sys2Proof.Machine.execThermThrottle d tj base eng stackA stackB s
  | .thermGateRotation d tj => Sys2Proof.Machine.execThermGateRotation d tj s
  | .thermLimit d tj => Sys2Proof.Machine.execThermLimit d tj s
  | .thermTrip diode temp => Sys2Proof.Machine.execThermTrip diode temp s
  | .stackRefreshChange k temp => Sys2Proof.Machine.execStackRefreshChange k temp s
  | .bucketUpdate power => Sys2Proof.Machine.execBucketUpdate power s
  | .runTimerExpiry => Sys2Proof.Machine.execRunTimerExpiry s
  | .currCeilingLower => Sys2Proof.Machine.execCurrCeilingLower s
  | .runTimerRemoval => Sys2Proof.Machine.execRunTimerRemoval s
  | .currCeilingRaise => Sys2Proof.Machine.execCurrCeilingRaise s
  | .fastPath => Sys2Proof.Machine.execFastPath s
  | .sluiceEstimate d k removed => Sys2Proof.Machine.execSluiceEstimate d k removed s
  | .sluiceCalibration d table => Sys2Proof.Machine.execSluiceCalibration d table s
  | .couplingRefine model => Sys2Proof.Machine.execCouplingRefine model s
  | .droopStretch c removed => Sys2Proof.Machine.execDroopStretch c removed s
  | .vinRange mv => Sys2Proof.Machine.execVinRange mv s
  | .vinShutdown mv => Sys2Proof.Machine.execVinShutdown mv s
  | .vinLoss => Sys2Proof.Machine.execVinLoss s
  | .pwrEnRise slot testEn => Sys2Proof.Machine.execPwrEnRise slot testEn s
  | .vaonReady ramp => Sys2Proof.Machine.execVaonReady ramp s
  | .bootBankSelect => Sys2Proof.Machine.execBootBankSelect s
  | .railSequenceDone => Sys2Proof.Machine.execRailSequenceDone s
  | .baseResetRelease stepping present => Sys2Proof.Machine.execBaseResetRelease stepping present s
  | .memoryTrainingDone ok => Sys2Proof.Machine.execMemoryTrainingDone ok s
  | .stackedZeroDone => Sys2Proof.Machine.execStackedZeroDone s
  | .steppingCheck => Sys2Proof.Machine.execSteppingCheck s
  | .ftlRebuildDone excluded => Sys2Proof.Machine.execFtlRebuildDone excluded s
  | .lpddrZeroDone => Sys2Proof.Machine.execLpddrZeroDone s
  | .pwrEnFall => Sys2Proof.Machine.execPwrEnFall s
  | .railsOff => Sys2Proof.Machine.execRailsOff s
  | .vaonOff => Sys2Proof.Machine.execVaonOff s
  | .modRstNAssert => Sys2Proof.Machine.execModRstNAssert s
  | .modRstNDeassert slot testEn => Sys2Proof.Machine.execModRstNDeassert slot testEn s
  | .testEnRise => Sys2Proof.Machine.execTestEnRise s
  | .perstN low => Sys2Proof.Machine.execPerstN low s
  | .functionLevelReset => Sys2Proof.Machine.execFunctionLevelReset s
  | .hostStagingWrite off data => Sys2Proof.Machine.execHostStagingWrite off data s
  | .hostStagingRead off n => Sys2Proof.Machine.execHostStagingRead off n s
  | .hstStageWrite v => Sys2Proof.Machine.execHstStageWrite v s
  | .strSplitWrite t v => Sys2Proof.Machine.execStrSplitWrite t v s
  | .dbSlotRing n => Sys2Proof.Machine.execDbSlotRing n s
  | .dbSlotDone n => Sys2Proof.Machine.execDbSlotDone n s
  | .msixUnmask => Sys2Proof.Machine.execMsixUnmask s
  | .mctpControl via c => Sys2Proof.Machine.execMctpControl via c s
  | .dynamicAddress addr ibi => Sys2Proof.Machine.execDynamicAddress addr ibi s
  | .getSummary via => Sys2Proof.Machine.execGetSummary via s
  | .readCsr via off width => Sys2Proof.Machine.execReadCsr via off width s
  | .writeCsr via off width v => Sys2Proof.Machine.execWriteCsr via off width v s
  | .readLog via first n => Sys2Proof.Machine.execReadLog via first n s
  | .fwWrite via off data => Sys2Proof.Machine.execFwWrite via off data s
  | .fwLoad via => Sys2Proof.Machine.execFwLoad via s
  | .getVersion via => Sys2Proof.Machine.execGetVersion via s
  | .getCapabilities via => Sys2Proof.Machine.execGetCapabilities via s
  | .negotiateAlgorithms via asym hash => Sys2Proof.Machine.execNegotiateAlgorithms via asym hash s
  | .getDigests via => Sys2Proof.Machine.execGetDigests via s
  | .getCertificate via slot off len => Sys2Proof.Machine.execGetCertificate via slot off len s
  | .challenge via slot => Sys2Proof.Machine.execChallenge via slot s
  | .getMeasurements via op sig => Sys2Proof.Machine.execGetMeasurements via op sig s
  | .pmFwLoad => Sys2Proof.Machine.execPmFwLoad s
  | .fwVerifyDone => Sys2Proof.Machine.execFwVerifyDone s
  | .fwEraseDone ok => Sys2Proof.Machine.execFwEraseDone ok s
  | .fwProgramDone ok => Sys2Proof.Machine.execFwProgramDone ok s
  | .fwReadbackDone ok => Sys2Proof.Machine.execFwReadbackDone ok s
  | .activate pc => Sys2Proof.Machine.execActivate pc s
  | .fwCommit => Sys2Proof.Machine.execFwCommit s
  | .trialAutoCommit => Sys2Proof.Machine.execTrialAutoCommit s
  | .watchdog pc => Sys2Proof.Machine.execWatchdog pc s
  | .postmasterRestart sram pc => Sys2Proof.Machine.execPostmasterRestart sram pc s
  | .firmwareResume => Sys2Proof.Machine.execFirmwareResume s
  | .logRecordWrite => Sys2Proof.Machine.execLogRecordWrite s
  | .logPersist n => Sys2Proof.Machine.execLogPersist n s
  | .pmLogSel seq => Sys2Proof.Machine.execPmLogSel seq s
  | .logSelDataReady => Sys2Proof.Machine.execLogSelDataReady s
  | .snap => Sys2Proof.Machine.execSnap s
  | .snapDone => Sys2Proof.Machine.execSnapDone s
  | .traceStart => Sys2Proof.Machine.execTraceStart s
  | .traceStop => Sys2Proof.Machine.execTraceStop s
  | .traceDrainDone => Sys2Proof.Machine.execTraceDrainDone s
  | .samplerFire => Sys2Proof.Machine.execSamplerFire s
  | .traceRecordWrite => Sys2Proof.Machine.execTraceRecordWrite s
  | .obsTraceSel seq => Sys2Proof.Machine.execObsTraceSel seq s
  | .obsTraceRead seq => Sys2Proof.Machine.execObsTraceRead seq s
  | .accImageTransferDone t ue => Sys2Proof.Machine.execAccImageTransferDone t ue s
  | .vectorStoreVisible t n => Sys2Proof.Machine.execVectorStoreVisible t n s
  | .quadModeChangeDone q => Sys2Proof.Machine.execQuadModeChangeDone q s
  | .marginScanEnd e l ok => Sys2Proof.Machine.execMarginScanEnd e l ok s
  | .traceSelDataReady => Sys2Proof.Machine.execTraceSelDataReady s
  | .vinApply => Sys2Proof.Machine.execVinApply s
  | .boundaryScanTck tms tdi => Sys2Proof.Machine.execBoundaryScanTck tms tdi s
  | .ackBatchSend dest => Sys2Proof.Machine.execAckBatchSend dest s
  | .laserDriveAdjust n power drive => Sys2Proof.Machine.execLaserDriveAdjust n power drive s

end Sys2Proof.Machine
end

