-- ==== Sys2Proof/Machine/Tick.lean ====
section
/-!
DEFINITION. What one nanosecond of time does by itself (assumption log 5): the timebase advances, the tile cycles of that time are
counted by cause (spec 06 R237, spec 07 R271), and messages, packets and link units that time lets go are sent.
-/
namespace Sys2Proof.Machine

/-- The timebase after one nanosecond of the reference. It advances by 40 at each 25 MHz edge, and while B's network clock runs, which it does while
the rails are on (assumption log 92), it is interpolated to 1 ns: `frac` is how far into the 40 ns since the last edge it has come. The rate correction acts
as it gathers. It never decreases (R432, R505). -/
def timeOn (s : State) : State :=
  let e := s.pm.edge + 1
  let f := if s.pm.pins.rails || e == 40 then e else s.pm.frac
  let n : Int := (f - s.pm.frac : Nat)
  let a := s.fab.rateAcc + n * s.fab.rate
  let whole := (n * 10 ^ 9 + a) / 10 ^ 9
  { s with
    now := s.now + whole.toNat, fab := { s.fab with rateAcc := a - (whole - n) * 10 ^ 9 }
    pm := { s.pm with edge := e % 40, frac := if e = 40 then 0 else f } }

/-- Tile cycles of tile t in the next nanosecond; they go on at the PLL rate in every clock state (R506). -/
def cyclesNext (s : State) (t : Nat) : Nat := cyclesOf { s with now := (timeOn s).now } t - cyclesOf s t

/-- A message instruction at the head waits on a stage queue: MSEND (0) for credit, MRECV (1) for a descriptor (R213). -/
def stageWait (s : State) (x : Tile) (min : Nat) : Bool :=
  match x.msg.queue with
  | h :: _ => h.held.isSome && wMin h.word == min && (match namedPh h with | some p => (phEntry s p).stage | none => false)
  | [] => false

/-- A GWAIT waits, or a GARRIVE is held. -/
def barrierWait (x : Tile) : Bool :=
  x.msg.gw.isSome || (match x.msg.queue with | h :: _ => h.held.isSome && wMin h.word == 3 | [] => false)

/-- The cause of R237 for a cycle in which the matrix unit executes no main-program instruction. -/
def matStall (s : State) (t : Nat) (x : Tile) : Nat :=
  if fillHolds x .matrix && !queueStuck s t .matrix then 0
  else if stageWait s x 0 then 1
  else if stageWait s x 1 then 2
  else if barrierWait x then 3
  else if !x.str.queue.isEmpty || !x.str.run.isEmpty then 4
  else if !x.vec.queue.isEmpty then 5
  else 6

/-- The cause of R271 for the oldest transfer of the stream queue. -/
def strStall (s : State) (t : Nat) (x : Tile) : Nat :=
  match x.str.run with
  | [] => if tokenStuck s t .stream then 0 else match x.str.queue with
    | h :: _ => if wMaj h.word ≠ 0x21 ∧ wMin h.word = 8 then 8 else 9
    | [] => 9
  | r :: _ =>
    let m := wMin r.e.word
    let mine (o : OutPkt) : Bool := match o.owner with | .stream u _ => u == t | .prefetch u _ _ => u == t | _ => false
    let full := decide (256 ≤ remOut x) && !s.fab.wait.any mine
    let left := match m with
      | 3 => !farBlocked x r && decide (r.rr.next < (runSegs r).length)
      | 4 => decide (r.rr.next < (runSegs r).length)
      | 5 => !bit (stW r.e) 15 && r.rr.next == 0
      | _ => false
    if wMaj r.e.word = 0x21 then 9
    else if (left && full) || decide (memLimit < memDemand x r) then 1
    else if pfBlocked x (devSources r) || farBlocked x r then 3
    else if m = 2 then (if r.flash.isEmpty then 9 else 5)
    else if m == 3 || m == 4 || remoteFence r then
      let unsent := s.fab.wait.any fun o => o.owner == .stream t r.no
      if !left && !unsent && (decide (1 < r.rr.attempt) || (!r.rr.again.isEmpty && r.rr.pend.all r.rr.again.contains)) then 7 else 6
    else if m = 8 then 8
    else if (devSources r ++ (devOthers r).1).isEmpty then 9
    else 4

/-- Count the cycles of the next nanosecond for one tile: n cycles, of which in a stopped cluster none, and else all but the removed ones, are
cycles for its units (R506, R532); a stopped cluster's count as SLEEP. -/
def tickTile (s : State) (t : Nat) : State :=
  let x := s.tile t
  let n := cyclesNext s t
  if !isRunning s t || n == 0 then s
  else
    let hold := phaseHolds s
    let runs := clkRuns s t
    let ran := if runs then n - removedIn (cyclesOf s t) n (removalOf s (clusterOf t)).1 else 0
    let idle := if x.mat.run.any (fun r => r.stepping x || r.moves) then n - ran else n
    let s := if idle = 0 then s else addF s (fTILE_STALL_COUNT t (matStall s t x)) idle
    let s := if x.fill.level = 1 ∧ x.fill.slice.isSome ∧ !hold ∧ x.fill.move.isNone then addF s (fTILE_STALL_COUNT t 7) ran else s
    let s := if x.fill.level = 2 ∧ x.fill.optHead.isSome ∧ !hold ∧ x.fill.defer.isEmpty then addF s (fTILE_STALL_COUNT t 8) ran else s
    let s := if x.fill.level = 3 ∨ !runs then addF s (fTILE_STALL_COUNT t 9) n else s
    if x.str.queue.isEmpty && x.str.run.isEmpty then s else addF s (fTILE_STR_STALL_COUNT t (strStall s t x)) n

/-- The number of the die's PLL cycle at an instant, and the cycles of the next nanosecond. -/
def dieCycle (s : State) (d now : Nat) : Nat := now * tileMHz s d / 1000
def dieCycles (s : State) (d : Nat) : Nat := dieCycle s d (timeOn s).now - dieCycle s d s.now

/-- What one nanosecond does to a cluster: the pulses that its removal takes are counted (R532), and its idle cycles up to 64 (R507). -/
def tickCluster (s : State) (c : Nat) : State :=
  let d := c / 4
  let n := dieCycles s d
  if n = 0 then s
  else
    let r := removalOf s c
    let k := removedIn (dieCycle s d s.now) n r.1
    let x := clusterRt s c
    let idle := if clusterState s c = kRUN ∧ (clusterTiles c).all (tileIdle s) then min 64 (x.idle + n) else 0
    let s := if k = 0 then s else satF s (if r.2 then fCLK_STRETCH_DROOP d else fCLK_STRETCH_SLUICE d) k
    if idle = x.idle then s else setCluster s c { x with idle := idle }

/-- The SLEEP cycles of the next nanosecond on a die's tiles (R237). -/
def sleepNext (s : State) (d : Nat) : Nat :=
  s.tiles.foldl (fun a p =>
    if dieOf p.1 = d ∧ isRunning s p.1 ∧ ((s.tile p.1).fill.level = 3 ∨ !clkRuns s p.1) then a + cyclesNext s p.1 else a) 0

/-- What one nanosecond does to a die in service: its clusters, the cycles that DVFS looks at (R517), and its rail (R515). -/
def tickDie (s : State) (d : Nat) : State :=
  if dieState s d ≠ dUP then s
  else
    let x := dieLoop s d
    let s := setLoop s d { x with sleepN := x.sleepN + sleepNext s d, cycN := x.cycN + 64 * dieCycles s d }
    railStep ((List.range 4).foldl (fun s k => tickCluster s (4 * d + k)) s) d

/-- A codeword of 25.6 ns ends when the timebase reaches n (R438). -/
def codewordEnds (was n : Nat) : Bool := was * 10 / 256 != n * 10 / 256

/-- One nanosecond passes on the timebase, which runs while the always-on domain does (R505, R537). -/
def tick (s : State) : State :=
  if s.pm.pins.aon then
    let s := (List.range 4).foldl tickDie (s.tiles.foldl (fun a p => tickTile a p.1) s)
    let s1 := sendAllHeld (pumpAll (pumpDev (timeOn s)))
    startDies (if codewordEnds s.now s1.now then sendLight s1 else s1)
  else s

end Sys2Proof.Machine
end

