-- ==== Sys2Proof/Safety.lean ====
section
/-!
DEFINITION. The terms in which the statements speak: what counts as a safe step, when a command is executed, and what one
command may leave changed.
-/
namespace Sys2Proof

/-- The outcome is a next state. -/
def goesOn (o : Host.Outcome Machine.State Machine.Fault Machine.Refusal) : Bool :=
  match o with
  | .next _ => true
  | _ => false

/-- The front of the queue does not ask a memory controller for an address unit that no controller serves (R37). -/
def Safe (s : Machine.State) : Prop := goesOn (Machine.step s) = true

namespace Machine

/-! ### Frames -/

/-- The command answers a next state, of which `P` holds. -/
def Answers (i : Instr) (s : State) (P : State → Prop) : Prop := ∃ u, exec i s = .next u ∧ P u

/-- Tile t becomes x, and nothing else changes: no other tile, no register of the register file, no byte of device memory, no
other unit. -/
def TileBecomes (s u : State) (t : Nat) (x : Tile) : Prop :=
  u.tile t = x ∧ (∀ j, j ≠ t → u.tile j = s.tile j) ∧ u = { s with tiles := u.tiles }

/-- Register fields outside the list keep their values. -/
def FieldsKept (s u : State) (l : List Fld) : Prop := ∀ g : Fld, fldKey g ∉ l.map fldKey → getF u g = getF s g

/-- Only the register file changes, and in it only the fields of the list. -/
def OnlyFields (s u : State) (l : List Fld) : Prop := FieldsKept s u l ∧ u = { s with csr := u.csr }

/-- Counter f is n higher; it wraps at its width. -/
def Counts (s u : State) (f : Fld) (n : Nat) : Prop := getF u f = (getF s f + n) % 2 ^ (f.hi + 1 - f.lo)

/-- A unit leaves on lane l of engine e: it is seen on the wire, and it stands, framed, behind the lane's other units (R439). -/
def UnitSent (s u : State) (e l ty seq : Nat) (b : List Byte) : Prop :=
  u.wire = .unit e l ty seq b :: s.wire ∧ (laneRt u e l).txUnits = (laneRt s e l).txUnits ++ [frameUnit ty seq b]

/-! ### Device memory -/

/-- No change of the mode of unit u's quad is under way (R281), and no error waits for its next transfer over the B network (R297). -/
def UnitOpen (s : State) (u : Nat) : Prop := quadSteady s u = true ∧ ∀ p ∈ s.mem.net, p.1 ≠ u

/-- Access unit u holds no error: the slice that holds its line holds it without one, or its stored codeword is correct; and its quad and its
transfers are undisturbed. -/
def UnitClean (s : State) (u : Nat) : Prop :=
  UnitOpen s u ∧
  match eddyLine s (u * 64) with
  | some l => l.held (u % 4) = []
  | none => unitErr s u = []

/-- Every access unit that the range meets holds no error. -/
def RangeClean (s : State) (a n : Nat) : Prop := ∀ u, a / 64 ≤ u → u * 64 < a + n → UnitClean s u

/-- Unit u is without error both in the cache and in memory, and its quad and its transfers are undisturbed. -/
def UnitFine (s : State) (u : Nat) : Prop :=
  UnitOpen s u ∧ unitErr s u = [] ∧ ∀ l ∈ s.mem.eddy, l.line = u / 4 → l.held (u % 4) = []

/-- Every unit of every 256-byte line that the range meets is so: an access under a hint may fetch whole lines (R284). -/
def LinesFine (s : State) (a n : Nat) : Prop := ∀ u, a / 256 ≤ u / 4 → u / 4 * 256 < a + n → UnitFine s u

/-- No byte of device memory reads differently. -/
def MemSame (s u : State) : Prop := ∀ k, memByte u k = memByte s k

/-- What an access under a hint may change besides its data (R284 to R286): lines enter and leave the Eddy cache, and a demotion is
counted. Every byte reads as before, and every unit that was fine still is. -/
def CacheMoved (s u : State) : Prop :=
  MemSame s u ∧ (∀ v, UnitFine s v → UnitFine u v) ∧
  (∀ g : Fld, fldKey g ≠ fldKey fMEM_EDDY_KEEP_OVER_COUNT → getF u g = getF s g) ∧ u = { s with mem := u.mem, csr := u.csr }

/-- The bytes b now stand at device address a, and no other byte of device memory reads differently. Besides, only the stream
buffers lose or mark entries that the write hits, count their losses (R253), and the shadow engine notes what it owes (R464); of the
register file only those counters and the fields of l may differ. -/
def StoredBut (l : List Fld) (s u : State) (a : Nat) (b : List Byte) : Prop :=
  (∀ k, memByte u k = if a ≤ k ∧ k < a + b.length then b.getD (k - a) 0 else memByte s k) ∧
  (∀ j, u.tile j = { s.tile j with str := { (s.tile j).str with pf := (u.tile j).str.pf } }) ∧
  (∀ g : Fld, (∀ j, fldKey g ≠ fldKey (fTILE_STR_STALL_COUNT j 12)) → fldKey g ∉ l.map fldKey → getF u g = getF s g) ∧
  u = { s with mem := u.mem, tiles := u.tiles, csr := u.csr, twin := u.twin }

/-- So a write that carries no hint. -/
def MemStored (s u : State) (a : Nat) (b : List Byte) : Prop := StoredBut [] s u a b

/-- So a write under a hint, which may also move lines of the Eddy cache (R284 to R286) and count a demotion. -/
def HintStored (s u : State) (a : Nat) (b : List Byte) : Prop := StoredBut [fMEM_EDDY_KEEP_OVER_COUNT] s u a b

/-! ### Register accesses -/

/-- The part that holds the register takes writes: it is out of reset, firmware runs where it backs the register, and the die of
a tile's register is UP (R484, R538, R547). -/
def CsrOpen (s : State) (off : Nat) : Prop :=
  partUp s off = true ∧ (pmFirmwareReg off = true → fwRuns s = true) ∧ ∀ t, tileOfOff off = some t → dieUp s (dieOf t) = true

/-- The value that a write of v leaves in field f of register r at an offset (R13): a RW field takes its bits, where the value is one
it may hold (R16), a W1C field loses the bits written as 1, and any other field keeps its value. The last word of OPT_DEAD has
one bit, and INT_CAUSE_TILE at offset 0x100118 is RO. -/
def fieldAfterWrite (s : State) (r : RegDef) (off v : Nat) (f : FieldDef) : Nat :=
  let old := getF s ⟨off, f.hi, f.lo⟩
  let x := if r.base = 0xA00800 ∧ off = 0xA00800 + 4 * 132 then v % 2 else bits v f.hi f.lo
  match f.access with
  | .rw => if takes s r off f.lo x then x else old
  | .w1c => if off = 0x100118 then old else old &&& ((2 ^ (f.hi + 1 - f.lo) - 1) - x)
  | _ => old

/-! ### The control core -/

/-- The control core of tile t executes the word w, which reads or writes the s registers of the list: a live task in a cluster
whose clock runs, no halt and no wait under way, no source pending (R87), a pc in the code window, and w at the pc (R84). -/
def CoreReady (s : State) (t : Nat) (w : Word) (reads : List Nat) : Prop :=
  isLive s t = true ∧ clkRuns s t = true ∧ (s.tile t).halting = false ∧ (s.tile t).rdspWait = false ∧ (s.tile t).coreWait = none ∧
  reads.any (isPending (s.tile t)) = false ∧ inWindow (s.tile t) (s.tile t).pc = true ∧
  ocUe (s.tile t) [((s.tile t).pc, 8)] = none ∧ fetched (s.tile t) = w

/-- The address of the next instruction; the pc has 21 bits (R82). -/
def pcNext (x : Tile) : Nat := (x.pc + 8) % 0x200000

/-- The instruction leaves v in s register sd (a write of s0 is discarded, R82) and moves past itself; nothing else changes. -/
def CoreGives (i : Instr) (s : State) (t sd : Nat) (v : Word) : Prop :=
  Answers i s fun u => TileBecomes s u t { writeS (s.tile t) sd v with pc := pcNext (s.tile t) }

/-- An ALU instruction of minor opcode min is ready (R101, R102). -/
def AluReady (s : State) (t min : Nat) (sd sa : SReg) (b : SrcB) : Prop :=
  CoreReady s t (aluWord min sd sa b) (sd.val :: sa.val :: srcRegs b)

/-- A shift of minor opcode min is ready (R101, R102). -/
def ShiftReady (s : State) (t min : Nat) (sd sa : SReg) (b : ShiftB) : Prop :=
  CoreReady s t (shiftWord min sd sa b) (sd.val :: sa.val :: shiftRegs b)

/-- The fields of the trap record of tile t (R118). -/
def trapFields (t : Nat) : List Fld :=
  [fTILE_TRAP_CAUSE_VALID t, fTILE_TRAP_CAUSE_UNIT t, fTILE_TRAP_CAUSE_CODE t, fTILE_TRAP_PC_PC t, fTILE_TRAP_INFO_INFO t]

/-- The first trap of a task (R118, R119): the record holds its unit, cause code, pc and information, the abort of tile t begins,
and nothing else changes. -/
def TrapTaken (s u : State) (t unit code pc info : Nat) : Prop :=
  getF u (fTILE_TRAP_CAUSE_VALID t) = 1 ∧ getF u (fTILE_TRAP_CAUSE_UNIT t) = unit ∧ getF u (fTILE_TRAP_CAUSE_CODE t) = code ∧
  getF u (fTILE_TRAP_PC_PC t) = pc % 2 ^ 21 ∧ getF u (fTILE_TRAP_INFO_INFO t) = info % 2 ^ 64 ∧ FieldsKept s u (trapFields t) ∧
  u.tile t = { s.tile t with aborting := true, trapTime := s.now, trapCycles := cyclesOf s t } ∧
  (∀ j, j ≠ t → u.tile j = s.tile j) ∧ u = { s with csr := u.csr, tiles := u.tiles }

/-- The instruction aborts the task with that record. -/
def TrapsFirst (i : Instr) (s : State) (t unit code pc info : Nat) : Prop := Answers i s fun u => TrapTaken s u t unit code pc info

/-- An access of the core to device memory with the checks of R106: a misaligned or unmapped address aborts the task, and any other
puts the operation behind those that wait for B. -/
def IssuesAccess (i : Instr) (s : State) (t : Nat) (w : Word) (reads : List Nat) (size a : Nat) (op : ScalarOp) : Prop :=
  CoreReady s t w reads →
    (a % size ≠ 0 → TrapsFirst i s t 0 0x03 (s.tile t).pc a) ∧
    (a % size = 0 → mapped a = false → TrapsFirst i s t 0 0x04 (s.tile t).pc a) ∧
    (a % size = 0 → mapped a = true → Answers i s fun u => TileBecomes s u t
      { s.tile t with ops := (s.tile t).ops ++ [op], issued := (s.tile t).issued + 1, pc := pcNext (s.tile t) })

/-- A load of size bytes from device memory (R105). -/
def Loads (i : Instr) (s : State) (t min : Nat) (sd sa : SReg) (hint : BitVec 2) (offs : BitVec 34) (size : Nat) (sgn : Bool) : Prop :=
  IssuesAccess i s t (smWord 4 min sd.val sa.val hint.toNat offs.toNat) [sd.val, sa.val] size (effAddr (s.tile t) sa offs)
    ⟨(s.tile t).pc, (s.tile t).issued, sd.val, effAddr (s.tile t) sa offs, hint.toNat, .load size sgn⟩

/-- A store of the low size bytes of s(SD) to device memory (R105). -/
def Stores (i : Instr) (s : State) (t min : Nat) (sd sa : SReg) (hint : BitVec 2) (offs : BitVec 34) (size : Nat) : Prop :=
  IssuesAccess i s t (smWord 5 min sd.val sa.val hint.toNat offs.toNat) [sd.val, sa.val] size (effAddr (s.tile t) sa offs)
    ⟨(s.tile t).pc, (s.tile t).issued, sd.val, effAddr (s.tile t) sa offs, hint.toNat, .store size (readS (s.tile t) sd.val)⟩

/-- An atomic on the 64-bit word at s(SA) (R107). -/
def IssuesAtomic (i : Instr) (s : State) (t min : Nat) (sd sa sb : SReg) (kind : ScalarKind) : Prop :=
  IssuesAccess i s t (srWord 6 min sd.val sa.val sb.val) [sd.val, sa.val, sb.val] 8 (readS (s.tile t) sa.val).toNat
    ⟨(s.tile t).pc, (s.tile t).issued, sd.val, (readS (s.tile t) sa.val).toNat, 0, kind⟩

/-- A jump to a target: in the code window it becomes the pc of the tile that the instruction leaves, outside it the task aborts
with FETCH_FAULT (R108). -/
def JumpsTo (i : Instr) (s : State) (t : Nat) (x : Tile) (target : Int) : Prop :=
  (0 ≤ target ∧ inWindow (s.tile t) target.toNat = true → Answers i s fun u => TileBecomes s u t { x with pc := target.toNat }) ∧
  (¬ (0 ≤ target ∧ inWindow (s.tile t) target.toNat = true) → TrapsFirst i s t 0 0x02 (s.tile t).pc 0)

/-- A branch to PC + 8 × OFF40 where c holds, and to the next instruction where it does not. -/
def Branches (i : Instr) (s : State) (t min : Nat) (sa sb : SReg) (offs : BitVec 40) (c : Prop) : Prop :=
  CoreReady s t (sbWord 7 min sa.val sb.val offs.toNat) [sa.val, sb.val] →
    (c → JumpsTo i s t (s.tile t) ((s.tile t).pc + 8 * offs.toInt)) ∧
    (¬ c → Answers i s fun u => TileBecomes s u t { s.tile t with pc := pcNext (s.tile t) })

/-- The operation i of the core waits for B, and nothing holds it: no earlier access to the same bytes (R93) and, for a write, no
earlier SVFENCE (R256). -/
def OpReady (s : State) (t i : Nat) (o : ScalarOp) : Prop :=
  isLive s t = true ∧ (s.tile t).ops[i]? = some o ∧
  ((s.tile t).ops.take i).any (fun p => rangesMeet p.addr p.size o.addr o.size) = false ∧ (o.writes && fenced (s.tile t) o.ord) = false

/-- No signal of the core waits behind its stores. -/
def NoSignals (x : Tile) : Prop := ∀ o ∈ x.ops, o.isSignal = false

/-! ### The engines -/

/-- Engine e of tile t finds instruction h, of the given opcodes, at its queue's head with no wait of its token left; s1 is the state
in which that wait has taken its token away (R86, R88). -/
def Starts (s : State) (t : Nat) (e : Engine) (maj min : Nat) (h : QEntry) (s1 : State) : Prop :=
  isLive s t = true ∧ headOf s t e maj min = some h ∧ takeToken s t e h = (true, s1)

/-- The signal of h is applied: its counter is one higher, unless it stood at 65,535, and no other counter changes (R88, R91). -/
def SignalApplied (s u : State) (t : Nat) (h : QEntry) : Prop :=
  ∀ j, tkCount (u.tile t) j =
    if wSE h.word = true ∧ j = wSTK h.word ∧ tkCount (s.tile t) j < 65535 then tkCount (s.tile t) j + 1 else tkCount (s.tile t) j

/-- The message unit is done with the instruction h: it leaves its queue, and its signal is applied. -/
def MsgDone (s u : State) (t : Nat) (h : QEntry) : Prop :=
  (u.tile t).msg.queue = (s.tile t).msg.queue.tail ∧ SignalApplied s u t h

/-! ### The vector engine -/

/-- Nothing of the vector engine waits for memory, no verification window is open, and VMODE holds m (R178, R195, R198). -/
def VecIdle (x : Tile) (m : Nat) : Prop := x.vec.win = none ∧ x.vec.out = [] ∧ x.vec.r.vmode = m ∧ x.regBad = []

/-- The vector engine is done with the instruction h: it left its queue, its signal is applied, nothing waits, and no other tile, no
other unit of the tile and no byte of device memory differs. -/
def VecDone (s1 u : State) (t : Nat) (h : QEntry) : Prop :=
  (u.tile t).vec.queue = (s1.tile t).vec.queue.tail ∧ SignalApplied s1 u t h ∧ (u.tile t).vec.out = [] ∧ (u.tile t).vec.win = none ∧
  (u.tile t).s = (s1.tile t).s ∧ (u.tile t).mat = (s1.tile t).mat ∧ (u.tile t).str = (s1.tile t).str ∧ (u.tile t).msg = (s1.tile t).msg ∧
  (∀ j, j ≠ t → u.tile j = s1.tile j) ∧ u.mem = s1.mem

/-- Operand a of block b, and operand b: VB or the broadcast (R180). -/
def vecA (s : State) (t : Nat) (h : QEntry) (b : Nat) : Blk := (vGet (s.tile t) (wVA h.word) b).b
def vecB (s : State) (t : Nat) (h : QEntry) (b : Nat) : Blk := (bOperand (s.tile t) h b).b

/-- The active lanes of block b of h (R174). -/
def vecAct (s : State) (t : Nat) (h : QEntry) (b : Nat) : List Bool := (s.tile t).vec.r.act (wKM h.word) b

/-- A result block with its saturation from one operand: non-finite where the operand is (R176), else computed. -/
def ofOne (s : State) (t : Nat) (h : QEntry) (f : List Bool → Blk → Blk × Bool) (b : Nat) : Blk × Bool :=
  if (vecA s t h b).isNonfin then (.nonfinite, false) else f (vecAct s t h b) (vecA s t h b)

/-- And from two. -/
def ofTwo (s : State) (t : Nat) (h : QEntry) (f : List Bool → Blk → Blk → Blk × Bool) (b : Nat) : Blk × Bool :=
  if (vecA s t h b).isNonfin || (vecB s t h b).isNonfin then (.nonfinite, false) else f (vecAct s t h b) (vecA s t h b) (vecB s t h b)

/-- The lane results of a function of the lanes of a and b, packed at an exponent (R181). -/
def lanes2 (f : Int × Int → Int × Int → Int × Int) (e : Blk → Blk → Int) (act : List Bool) (a b : Blk) : Blk × Bool :=
  pack act (((dyads a).zip (dyads b)).map fun p => f p.1 p.2) (e a b)

/-- The lane results of a function of the mantissas of a and b, without a change of exponent. -/
def bits2 (f : Nat → Nat → Nat) (act : List Bool) (a b : Blk) : Blk × Bool :=
  (maskBlk act ⟨a.e, (List.range 32).map fun i => sgn32 (f (pat32 (a.m.getD i 0)) (pat32 (b.m.getD i 0)))⟩, false)

/-- The instruction leaves g b in every block b of VD that has an active lane, and its sticky flags (R174, R178, R182). Every other
block, every mask and every pointer keeps its value. -/
def VecBlocks (i : Instr) (s s1 : State) (t : Nat) (h : QEntry) (g : Nat → Blk × Bool) : Prop :=
  Answers i s fun u => VecDone s1 u t h ∧ (u.tile t).oc = (s.tile t).oc ∧
    (∀ b, b < 2 → (((u.tile t).vec.r.blk (wVD h.word) b).b =
      if (s.tile t).vec.r.hasActive (wKM h.word) b then (g b).1 else ((s.tile t).vec.r.blk (wVD h.word) b).b)) ∧
    (∀ n b, b < 2 → n ≠ wVD h.word → (u.tile t).vec.r.blk n b = (s.tile t).vec.r.blk n b) ∧
    (bit (u.tile t).vec.r.bstat 0 =
      (bit (s.tile t).vec.r.bstat 0 || ((s.tile t).vec.r.blocks (wKM h.word)).any fun b => (g b).2)) ∧
    (bit (u.tile t).vec.r.bstat 1 =
      (bit (s.tile t).vec.r.bstat 1 || ((s.tile t).vec.r.blocks (wKM h.word)).any fun b => (g b).1.isNonfin)) ∧
    (u.tile t).vec.r.k = (s.tile t).vec.r.k ∧ (u.tile t).vec.r.p = (s.tile t).vec.r.p ∧ (u.tile t).vec.r.vl = (s.tile t).vec.r.vl ∧
    (u.tile t).vec.r.vmode = (s.tile t).vec.r.vmode

/-- The instruction leaves v in the mask register of VD (k0 keeps all ones, R182); no block, pointer or flag differs. -/
def VecMask (i : Instr) (s s1 : State) (t : Nat) (h : QEntry) (v : Word) : Prop :=
  Answers i s fun u => VecDone s1 u t h ∧ (u.tile t).oc = (s.tile t).oc ∧
    (∀ n, (u.tile t).vec.r.mask n = if n = wVD h.word ∧ n ≠ 0 then v else (s.tile t).vec.r.mask n) ∧
    (u.tile t).vec.r.v = (s.tile t).vec.r.v ∧ (u.tile t).vec.r.p = (s.tile t).vec.r.p ∧ (u.tile t).vec.r.vl = (s.tile t).vec.r.vl ∧
    (u.tile t).vec.r.vmode = (s.tile t).vec.r.vmode

/-! ### The stream engine -/

/-- The transfer of instruction h is started: it left the queue with the next transfer number, and it is among the running ones. Of its
tile only the stream engine differs, of other tiles only what the sending of packets touches, and no byte of device memory. -/
def StreamStarted (s s1 u : State) (t : Nat) (h : QEntry) : Prop :=
  (u.tile t).str.queue = (s.tile t).str.queue.tail ∧ (s.tile t).str.nextNo < (u.tile t).str.nextNo ∧
  (∃ y ∈ (u.tile t).str.run, y.no = (s.tile t).str.nextNo ∧ y.e = h ∧ y.start = s.now ∧ y.deadline = deadlineOf s h) ∧
  (u.tile t).s = (s.tile t).s ∧ (u.tile t).oc = (s.tile t).oc ∧ (u.tile t).mat = (s.tile t).mat ∧ (u.tile t).vec = (s.tile t).vec ∧
  (u.tile t).msg = (s.tile t).msg ∧ (u.tile t).tk = (s1.tile t).tk ∧ MemSame s u

/-- The stream engine of tile t has no transfer under way and no prefetch stream, and no packet waits for injection. -/
def StrQuiet (s : State) (t : Nat) : Prop := (s.tile t).str.run = [] ∧ (s.tile t).str.pf = [] ∧ s.fab.wait = []

/-- The bytes of ranges on the side of an endpoint: the operand cache, or device memory (R244). -/
def epRead (s : State) (t v : Nat) (l : List (Nat × Nat)) : List Byte :=
  l.flatMap fun p => if epOc v then ocBytes (s.tile t) p.1 p.2 else memBytes s p.1 p.2

/-- They hold no error, nor does any line of device memory that an access under a hint may fetch. -/
def EpClean (s : State) (t v : Nat) (l : List (Nat × Nat)) : Prop :=
  if epOc v then ocUe (s.tile t) l = none else ∀ p ∈ l, LinesFine s p.1 p.2

/-- Writes to the ranges meet no line in error. -/
def EpSound (s : State) (v : Nat) (l : List (Nat × Nat)) : Prop := epOc v = true ∨ ∀ p ∈ l, LinesFine s p.1 p.2

/-- One byte on the side of an endpoint. -/
def epByte (s : State) (t v k : Nat) : Byte := if epOc v then mget memDefault (s.tile t).oc k else memByte s k

/-- The other side keeps its bytes. -/
def EpOther (s u : State) (t v : Nat) : Prop := if epOc v then MemSame s u else (u.tile t).oc = (s.tile t).oc

/-- The bytes b now stand from the endpoint on, and no other byte of device memory or of the operand cache of tile t differs. -/
def EpStored (s u : State) (t v : Nat) (b : List Byte) : Prop :=
  (∀ k, epByte u t v k = if epAddr v ≤ k ∧ k < epAddr v + b.length then b.getD (k - epAddr v) 0 else epByte s t v k) ∧ EpOther s u t v

/-- The place of byte j of a shaped endpoint: an operand-cache endpoint is contiguous. -/
def epAt (v : Nat) (h : Shape) (j : Nat) : Nat := if epOc v then epAddr v + j else epAddr v + j / h.len * h.stride + j % h.len

/-- The bytes b now stand at a shaped endpoint, and no other byte differs. -/
def ShapeStored (s u : State) (t v : Nat) (h : Shape) (b : List Byte) : Prop :=
  (∀ j, j < h.total → epByte u t v (epAt v h j) = b.getD j 0) ∧
  (∀ k, (∀ j, j < h.total → k ≠ epAt v h j) → epByte u t v k = epByte s t v k) ∧ EpOther s u t v

/-- The oldest transfer of tile t is complete: it is gone, and its signal is applied. -/
def TransferDone (s u : State) (t : Nat) (r : StrRun) (rest : List StrRun) : Prop :=
  (u.tile t).str.run.map (·.no) = rest.map (·.no) ∧ SignalApplied s u t r.e

/-- The head item i of the deferral queue is done (R216, R89): it left the queue, its signal is applied, level 1 ends with the last item,
and nothing outside the tile's fill unit and counters differs. -/
def ItemDone (s u : State) (t i : Nat) : Prop :=
  (u.tile t).fill.defer = (s.tile t).fill.defer.tail ∧ (u.tile t).fill.slice = none ∧ (u.tile t).fill.quads = [] ∧ (u.tile t).fill.move = (s.tile t).fill.move ∧
  (u.tile t).fill.opt = (s.tile t).fill.opt ∧
  (u.tile t).fill.level = (if (s.tile t).fill.level = 1 ∧ (s.tile t).fill.defer.length ≤ 1 then 0 else (s.tile t).fill.level) ∧
  (∀ j, tkCount (u.tile t) j =
    if itemSe i = true ∧ j = itemStk i ∧ tkCount (s.tile t) j < 65535 then tkCount (s.tile t) j + 1 else tkCount (s.tile t) j) ∧
  (u.tile t).oc = (s.tile t).oc ∧ (u.tile t).vec = (s.tile t).vec ∧ (∀ j, j ≠ t → u.tile j = s.tile j) ∧ u.mem = s.mem

/-! ### Requests -/

/-- A reply of contents b has gone to where the request r asks for it (R314, R358, R561). -/
def ReplySent (s u : State) (r : Request) (b : List Byte) : Prop :=
  match r.sender with
  | .doorbell n => u.host.slotDone = s.host.slotDone ++ [(n, b)] ∧ u.devq = s.devq
  | _ => u.host.slotDone = s.host.slotDone ∧ u.devq = if bit r.rph 15 then s.devq else s.devq ++ [⟨r.rph % 16384, 1, b⟩]

/-- The directory has replied to r with a status; the reply carries the tag, the entry and, of an entry that is not LOST, its version, pins
and hint as they stand now (R314). -/
def DirReplied (s u : State) (r : Request) (status : Nat) : Prop :=
  ∃ b, ReplySent s u r b ∧ b.length = 32 ∧ leAt b 0 1 = status ∧ leAt b 2 2 = r.tag ∧ leAt b 4 4 = r.entry ∧
    ((dirEnt u r.entry).state ≠ .lost → leAt b 8 4 = (dirEnt u r.entry).version % 2 ^ 32 ∧ leAt b 12 1 = (dirEnt u r.entry).pin % 256 ∧
      leAt b 13 1 = (dirEnt u r.entry).hint % 256) ∧ leAt b 24 8 = s.now % 2 ^ 64

/-- The request at the front is answered: its entry is now d, no other entry, no byte of memory and no tile differs. -/
def DirSays (s u : State) (r : Request) (rest : List Request) (d : DirEntry) (status : Nat) : Prop :=
  dirEnt u r.entry = d ∧ DirReplied s u r status ∧ u.tier.reqs = rest ∧ (∀ k, k ≠ r.entry → dirEnt u k = dirEnt s k) ∧
  u.tier.moves = s.tier.moves ∧ u.tier.flash = s.tier.flash ∧ (∀ j, u.tile j = s.tile j) ∧ u.mem = s.mem

/-- The update engines have replied to r with a status and the number of blocks or rows written; the reply carries the tag, the group, the
committed step and the group's T as they stand now (R358). -/
def UpdSays (s u : State) (r : Request) (status written : Nat) : Prop :=
  ∃ b, ReplySent s u r b ∧ b.length = 32 ∧ leAt b 0 1 = status ∧ leAt b 2 2 = r.utag ∧ leAt b 4 2 = r.group ∧ leAt b 8 4 = cmtStep u % 2 ^ 32 ∧
    (r.group < 4096 → leAt b 12 4 = getF u (fUPD_GROUP_T r.group) % 2 ^ 32) ∧ leAt b 16 8 = written % 2 ^ 64 ∧ leAt b 24 8 = s.now % 2 ^ 64

/-- Block b of an array as BFX, and its ranges without error (R336). -/
def arrBlk (s : State) (base fmt nblk b : Nat) : Blk :=
  (blockBfx fmt (memBytes s (base + b * runBytes fmt) (runBytes fmt))
    (memBytes s (base + arrScales fmt nblk + b * scaleBytes fmt) (scaleBytes fmt))).1
def ArrClean (s : State) (base fmt nblk b : Nat) : Prop :=
  LinesFine s (base + b * runBytes fmt) (runBytes fmt) ∧
  (scaleBytes fmt ≠ 0 → LinesFine s (base + arrScales fmt nblk + b * scaleBytes fmt) (scaleBytes fmt))

/-- Block b of an array is v as the format stores it (R68 to R70). -/
def ArrHolds (s : State) (base fmt nblk b : Nat) (v : Blk) : Prop :=
  memBytes s (base + b * runBytes fmt) (runBytes fmt) = (emitBlk fmt v none).run ∧
  (scaleBytes fmt ≠ 0 → memBytes s (base + arrScales fmt nblk + b * scaleBytes fmt) (scaleBytes fmt) = (emitBlk fmt v none).scales)

/-- Block b of group g now holds the weights, moments and variances of o, and its copy the weights; outside the group's arrays no byte of memory
differs (R347). -/
def BlockUpdated (s u : State) (g : Group) (b : Nat) (o : Blk × Blk × Blk) : Prop :=
  ArrHolds u g.wBase g.wFmt g.nblk b o.1 ∧ ArrHolds u g.mBase g.mFmt g.nblk b o.2.1 ∧
  (g.adamw = true → ArrHolds u g.vBase g.vFmt g.nblk b o.2.2) ∧ (g.copy = true → ArrHolds u g.cBase g.cFmt g.nblk b o.1) ∧
  ∀ k, (∀ p ∈ g.arrays, ¬ (p.1 ≤ k ∧ k < p.1 + p.2)) → memByte u k = memByte s k

/-! ### Start-up -/

/-- A row of start-up has completed, and its progress is now b, at stage n: once every row has completed, the module is READY at this instant and the BOOT record is
written; otherwise the stage and the log stay (R537, R542). -/
def StartUpGoes (s u : State) (n : Nat) (b : Boot) : Prop :=
  u.pm.boot = b ∧
  (n = 5 ∧ b.ftl = true ∧ b.lpddr = true ∧ b.optics = true → stage u = 6 ∧ getF u fPM_START_TIME_TIME = s.now % 2 ^ 64 ∧
    ((unsaved s).length < 16384 → ∃ r, u.pm.buf.getLast? = some r ∧ r.seq = s.pm.nextSeq ∧ r.ev.status = 0x100)) ∧
  (¬ (n = 5 ∧ b.ftl = true ∧ b.lpddr = true ∧ b.optics = true) → stage u = n ∧ u.pm.buf = s.pm.buf)

/-- Limited mode (R494): every die that answered is HELD, and the cause and the record say so. -/
def Limited (s u : State) : Prop :=
  stage u = 7 ∧ getF u fPKG_STATUS_LIMITED = 1 ∧ getF u fPKG_ERR_COMPAT = 1 ∧
  (∀ d, d < 4 → dieState u d = if dieState s d = dABSENT then dABSENT else dHELD) ∧
  ((unsaved s).length < 16384 → ∃ r, u.pm.buf.getLast? = some r ∧ r.seq = s.pm.nextSeq ∧ r.ev.status = 0x112) ∧
  (∀ j, u.tile j = s.tile j) ∧ u.mem = s.mem

/-- The next write of the bank selector does not wrap its 32-bit sequence number. -/
def SelRoom (s : State) : Prop := (selector s).seq + 1 < 2 ^ 32

/-- The lanes and the generation to which the PCIe link trains (R553). -/
def TrainedLink (h : HostIf) : Prop := h.lanes ∈ [16, 8, 4, 2, 1] ∧ 1 ≤ h.gen ∧ h.gen ≤ 6

/-- What the NOR device keeps when power goes or the module is reset: the log, the calibration, the active bank, and the selector unless the power
goes while it is written; a LOAD that was under way leaves the inactive bank invalid (R546). -/
def NorKept (s u : State) : Prop :=
  u.pm.nor.log = s.pm.nor.log ∧ (s.pm.selWrote ≠ some s.now → selector u = selector s) ∧ couplingModel u = couplingModel s ∧
  (∀ d, sluiceTable u d = sluiceTable s d) ∧ fwBankOf u (1 - inactiveBank s) = fwBankOf s (1 - inactiveBank s) ∧
  fwBankOf u (inactiveBank s) = if s.pm.job = none then fwBankOf s (inactiveBank s) else .bytes []

/-- Every rail but VAON is off (R513): the dies are LOST, the tiles and the memories at reset, and the log and the timebase go on. -/
def RailsOff (s u : State) : Prop :=
  u.pm.pins.rails = false ∧ u.pm.pins.good = false ∧ u.tiles = [] ∧ u.mem = Mem.reset ∧ u.pm.buf = s.pm.buf ∧
  NorKept s u ∧ u.pm.nor.set0 = s.pm.nor.set0 ∧ u.pm.nor.set1 = s.pm.nor.set1 ∧ u.pm.job = none ∧ u.now = s.now ∧
  u.pending = s.pending ∧ (s.tier.fops = [] → u.tier.flash = s.tier.flash)

/-- No power (R592, R595): all is at reset but for the levels of the pins and what keeps its contents without power. -/
def Unpowered (s u : State) (p : Pins) : Prop :=
  u.pm.pins = p ∧ u.now = 0 ∧ u.csr = [] ∧ u.tiles = [] ∧ u.mem = Mem.reset ∧ u.fab = Fab.reset ∧ u.pm.buf = [] ∧ u.pm.evq = [] ∧ NorKept s u ∧ u.pm.nor.settings = s.pm.nor.settings ∧
  u.pm.rollback = s.pm.rollback ∧ u.pm.revoked = s.pm.revoked ∧ u.pending = s.pending ∧ (s.tier.fops = [] → u.tier.flash = s.tier.flash)

/-- Firmware has written a record of its own, and it is the newest (R540, R542), unless the buffer has no place for it. -/
def Logged (s u : State) (status inst a0 a1 : Nat) : Prop :=
  (unsaved s).length < 16384 → ∃ r, u.pm.buf.getLast? = some r ∧ r.seq = s.pm.nextSeq ∧ r.ev.time = s.now ∧ r.ev.status = status ∧ r.ev.inst = inst ∧
    r.ev.arg0 = a0 ∧ r.ev.arg1 = a1

/-- A firmware operation has failed with a RESULT (R546). -/
def FwRejected (s u : State) (result : Nat) : Prop :=
  getF u fPM_FW_STATUS_STATE = 6 ∧ getF u fPM_FW_STATUS_RESULT = result ∧ u.pm.job = none ∧ getF u fPM_ERR_FW_REJECTED = 1 ∧ Logged s u 0x104 0 result 0 ∧
  (∀ j, u.tile j = s.tile j) ∧ u.mem = s.mem

/-- The Postmaster restarts for a cause (R547): firmware and its registers are gone, the event queue and the log stay, and no tile and no byte of memory changes. -/
def Restarted (s u : State) (cause pc : Nat) : Prop :=
  getF u fPM_STATUS_FW_RUNNING = 0 ∧ u.pm.rom = .restart cause pc ∧ u.pm.chosen = none ∧ u.pm.job = none ∧ u.pm.spdm = 0 ∧ getF u fPM_ERR_PM_RESTART = 1 ∧
  getF u fPM_STATUS_RESTARTS = min 255 (getF s fPM_STATUS_RESTARTS + 1) ∧ u.pm.buf = s.pm.buf ∧ u.pm.evq = s.pm.evq ∧
  (∀ f, f.lo < 64 → pmFirmwareReg f.off = true → getF u f = csrDefault (fldKey f)) ∧ (∀ j, u.tile j = s.tile j) ∧ u.mem = s.mem

/-! ### Laser sources -/

/-- A spare that no swap has taken stands by, beside source k. -/
def SpareBeside (s : State) (k : Nat) : Prop :=
  ∃ m, m < 20 ∧ m ≠ k ∧ (laserSrc s m).stage = 3 ∧ ∀ w ∈ s.fab.swaps, w.spare ≠ m

/-- No other source waits for its swap. -/
def NoneDueBut (s : State) (n : Nat) : Prop :=
  ∀ m, m < 20 → m ≠ n → (laserSrc s m).due = true → 2 < (laserSrc s m).stage ∨ ∃ w ∈ s.fab.swaps, w.old = m

/-- No spare remains (R454): every other source whose swap was due stays connected, and its engine is narrow. -/
def StaysConnected (s u : State) (n : Nat) : Prop :=
  ∀ m e, m < 20 → m ≠ n → (laserSrc s m).due = true → (laserSrc s m).stage ≤ 2 → (∀ w ∈ s.fab.swaps, w.old ≠ m) → engineOf s m = some e →
    e ∈ u.fab.narrow ∧ getF u fLAS_ERR_SPARES_EXHAUSTED = 1 ∧ getF u fOPT_LINK_ERR_PORT_NARROW = 1 ∧
    laserSrc u m = if (laserSrc s m).stage = 2 then laserSrc s m else { laserSrc s m with due := false, fadingAt := none }

end Machine
end Sys2Proof
end

