-- ==== Sys2Proof/Certificates/Slice0/Obligations.lean ====
section
/-!
DEFINITION. The statements for the provers. Every statement about a command says, for every state and operands that meet its hypotheses,
which next state exec answers and what the command leaves unchanged.
-/

open Sys2Proof Sys2Proof.Machine

/-- A step on a queue that is not empty runs the command at its front on the state that holds the rest of the queue. -/
def Obligations.StepRunsTheFrontCommand : Prop :=
  ∀ (s : State) (c : Instr) (rest : List Instr), s.pending = c :: rest → step s = exec c { s with pending := rest }

/-! ### Registers and the control core -/

/-- R11: an access of 8 or 16 bits, a misaligned one, and a 64-bit access to a 32-bit register read zeros and are ignored. R13, R16: what a whole 32-bit write leaves in a field, by its access type, where the part that holds the register is out of reset and
the value starts no command of its own; and what the read of a register with RC fields returns and leaves. R12: the two 32-bit accesses of a
64-bit register. The read of the low half latches the high half for the next read of the high half; a write of the low half is held without
effect until a write of the high half commits both; a write of the high half alone leaves the low half's fields. A register that takes no
access neither latches nor holds a half, and gives none. -/
def Obligations.RegisterAccesses : Prop :=
  (∀ (s : State) (off : BitVec 27) (width : AccessWidth) (v : Word),
     (width = .byte ∨ width = .half ∨ width = .word ∧ off.toNat % 4 ≠ 0 ∨ width = .wide ∧ off.toNat % 8 ≠ 0 ∨
       width = .wide ∧ plainWord s off.toNat = none ∧ ∃ r, regAt off.toNat = some r ∧ r.width = 32) →
     exec (.csrWrite off width v) s = .next s ∧ exec (.rcFieldRead ⟨off, width⟩) s = .next { s with readData := 0 }) ∧
  ((∀ (s : State) (off : BitVec 27) (v : Word) (r : RegDef) (f : FieldDef),
     off.toNat % 4 = 0 → plainWord s off.toNat = none → regAt off.toNat = some r → r.width = 32 → f ∈ r.fields → CsrOpen s off.toNat →
     wholeRow s off.toNat (v.toNat % 2 ^ 32) = none → (∀ w, afterWrite w off.toNat (v.toNat % 2 ^ 32) = w) →
     Answers (.csrWrite off .word v) s fun u =>
       getF u ⟨off.toNat, f.hi, f.lo⟩ = fieldAfterWrite s r off.toNat (v.toNat % 2 ^ 32) f ∧
       (∀ g : Fld, g.lo < 64 → g.off ≠ off.toNat → getF u g = getF s g) ∧
       u = { s with csr := u.csr, wire := u.wire, host := u.host }) ∧
   (∀ (s : State) (off : BitVec 27) (r : RegDef) (f : FieldDef),
     off.toNat % 4 = 0 → plainWord s off.toNat = none → regAt off.toNat = some r → r.width = 32 → f ∈ r.fields → CsrOpen s off.toNat →
     Answers (.rcFieldRead ⟨off, .word⟩) s fun u =>
       u.readData = readReg s off.toNat ∧
       getF u ⟨off.toNat, f.hi, f.lo⟩ = (if f.access = .rc then 0 else getF s ⟨off.toNat, f.hi, f.lo⟩) ∧
       (∀ g : Fld, g.lo < 64 → g.off ≠ off.toNat → getF u g = getF s g) ∧
       u = { s with csr := u.csr, readData := u.readData })) ∧
  ((∀ (s : State) (off hi : BitVec 27) (r : RegDef), off.toNat % 8 = 0 → hi.toNat = off.toNat + 4 →
     plainWord s off.toNat = none → plainWord s hi.toNat = none → regAt off.toNat = some r → regAt hi.toNat = none → r.width = 64 → CsrOpen s off.toNat →
     Answers (.csrLowHalfRead off) s fun u =>
       u.readData = readReg s off.toNat % 2 ^ 32 ∧ u = { s with readData := u.readData, halves := u.halves } ∧
       ∀ w : State, w.halves = u.halves → plainWord w hi.toNat = none → CsrOpen w off.toNat → Answers (.csrLowHalfRead hi) w fun x =>
         x.readData = readReg s off.toNat / 2 ^ 32 ∧ (halvesOf x off.toNat).high = none) ∧
   (∀ (s : State) (off hi : BitVec 27) (lo high : BitVec 32) (r : RegDef), off.toNat % 8 = 0 → hi.toNat = off.toNat + 4 →
     plainWord s off.toNat = none → regAt off.toNat = some r → regAt hi.toNat = none → r.width = 64 → CsrOpen s off.toNat →
     Answers (.csrLowHalfWrite off lo) s fun u =>
       u = { s with halves := u.halves } ∧ (halvesOf u off.toNat).low = some lo.toNat ∧
       ∀ w : State, w.halves = u.halves → plainWord w hi.toNat = none → CsrOpen w off.toNat → Answers (.csrHighHalfWrite hi high) w fun x =>
         x = regWrite (setHalves w off.toNat { halvesOf w off.toNat with low := none }) r off.toNat (lo.toNat + high.toNat * 2 ^ 32)) ∧
   (∀ (s : State) (off hi : BitVec 27) (high : BitVec 32) (r : RegDef), off.toNat % 8 = 0 → hi.toNat = off.toNat + 4 →
     plainWord s hi.toNat = none → regAt off.toNat = some r → regAt hi.toNat = none → r.width = 64 → CsrOpen s off.toNat →
     (∀ lo, (halvesOf s off.toNat).low = some lo → exec (.csrHighHalfWrite hi high) s =
       .next (regWrite (setHalves s off.toNat { halvesOf s off.toNat with low := none }) r off.toNat (lo + high.toNat * 2 ^ 32))) ∧
     ((halvesOf s off.toNat).low = none → exec (.csrHighHalfWrite hi high) s =
       .next (regWrite s { r with fields := r.fields.filter fun f => decide (32 ≤ f.hi) } off.toNat (regNow s r off.toNat % 2 ^ 32 + high.toNat * 2 ^ 32)))) ∧
   (∀ (s : State) (off hi : BitVec 27) (v : BitVec 32) (r : RegDef), off.toNat % 8 = 0 → hi.toNat = off.toNat + 4 →
     plainWord s off.toNat = none → plainWord s hi.toNat = none → regAt off.toNat = some r → regAt hi.toNat = none → r.width = 64 → ¬ CsrOpen s off.toNat →
     exec (.csrLowHalfWrite off v) s = .next s ∧ exec (.csrHighHalfWrite hi v) s = .next s ∧
     exec (.csrLowHalfRead off) s = .next { s with readData := readReg s off.toNat % 2 ^ 32 } ∧
     exec (.csrLowHalfRead hi) s = .next { s with readData := readReg s off.toNat / 2 ^ 32 }))

/-- R102: the two-operand ALU instructions that compute, in both formats: the result of the table in SD, the pc past the instruction, and
nothing else. R102: the comparisons, minima and maxima, and the shifts by b[5:0]. R102, R104: the number of 1 bits, the leading and the
trailing zeros, and the long immediates. R102, R103: the divisions: the quotient rounded toward zero and the remainder with the sign of a;
with b = 0 the task aborts with DIV_ZERO. -/
def Obligations.ScalarInstructions : Prop :=
  (∀ (s : State) (t : Tid) (sd sa sb : SReg) (b : SrcB) (x y z : Word),
     readS (s.tile t) sa.val = x → srcB (s.tile t) b = y → readS (s.tile t) sb.val = z →
     (AluReady s t 0x00 sd sa b → CoreGives (.add t sd sa b) s t sd.val (x + y)) ∧
     (AluReady s t 0x01 sd sa b → CoreGives (.sub t sd sa b) s t sd.val (x - y)) ∧
     (AluReady s t 0x02 sd sa b → CoreGives (.and t sd sa b) s t sd.val (x &&& y)) ∧
     (AluReady s t 0x03 sd sa b → CoreGives (.or t sd sa b) s t sd.val (x ||| y)) ∧
     (AluReady s t 0x04 sd sa b → CoreGives (.xor t sd sa b) s t sd.val (x ^^^ y)) ∧
     (AluReady s t 0x05 sd sa b → CoreGives (.andn t sd sa b) s t sd.val (x &&& ~~~y)) ∧
     (AluReady s t 0x09 sd sa b → CoreGives (.mul t sd sa b) s t sd.val (BitVec.ofNat 64 (x.toNat * y.toNat))) ∧
     (AluReady s t 0x0A sd sa (.reg sb) → CoreGives (.mulh t sd sa sb) s t sd.val (BitVec.ofInt 64 (x.toInt * z.toInt / 2 ^ 64))) ∧
     (AluReady s t 0x0B sd sa (.reg sb) → CoreGives (.mulhu t sd sa sb) s t sd.val (BitVec.ofNat 64 (x.toNat * z.toNat / 2 ^ 64)))) ∧
  (∀ (s : State) (t : Tid) (sd sa : SReg) (b : SrcB) (c : ShiftB) (x y : Word) (n : Nat),
     readS (s.tile t) sa.val = x → srcB (s.tile t) b = y → shiftB (s.tile t) c = n →
     (AluReady s t 0x10 sd sa b → CoreGives (.slt t sd sa b) s t sd.val (if x.toInt < y.toInt then 1 else 0)) ∧
     (AluReady s t 0x11 sd sa b → CoreGives (.sltu t sd sa b) s t sd.val (if x.toNat < y.toNat then 1 else 0)) ∧
     (AluReady s t 0x12 sd sa b → CoreGives (.seq t sd sa b) s t sd.val (if x = y then 1 else 0)) ∧
     (AluReady s t 0x13 sd sa b → CoreGives (.min t sd sa b) s t sd.val (BitVec.ofInt 64 (min x.toInt y.toInt))) ∧
     (AluReady s t 0x14 sd sa b → CoreGives (.max t sd sa b) s t sd.val (BitVec.ofInt 64 (max x.toInt y.toInt))) ∧
     (AluReady s t 0x15 sd sa b → CoreGives (.minu t sd sa b) s t sd.val (BitVec.ofNat 64 (min x.toNat y.toNat))) ∧
     (AluReady s t 0x16 sd sa b → CoreGives (.maxu t sd sa b) s t sd.val (BitVec.ofNat 64 (max x.toNat y.toNat))) ∧
     (ShiftReady s t 0x06 sd sa c → CoreGives (.shl t sd sa c) s t sd.val (BitVec.ofNat 64 (x.toNat * 2 ^ n))) ∧
     (ShiftReady s t 0x07 sd sa c → CoreGives (.shr t sd sa c) s t sd.val (BitVec.ofNat 64 (x.toNat / 2 ^ n))) ∧
     (ShiftReady s t 0x08 sd sa c → CoreGives (.sra t sd sa c) s t sd.val (BitVec.ofInt 64 (x.toInt / 2 ^ n)))) ∧
  (∀ (s : State) (t : Tid) (sd sa : SReg) (x : Word), readS (s.tile t) sa.val = x →
     (CoreReady s t (srWord 1 0x17 sd.val sa.val 0) [sd.val, sa.val] →
       CoreGives (.popc t sd sa) s t sd.val (BitVec.ofNat 64 ((List.range 64).filter fun i => x.getLsbD i).length)) ∧
     (∀ n, n ≤ 64 → (∀ i, 64 - n ≤ i → i < 64 → x.getLsbD i = false) → (n < 64 → x.getLsbD (63 - n) = true) →
       CoreReady s t (srWord 1 0x18 sd.val sa.val 0) [sd.val, sa.val] → CoreGives (.clz t sd sa) s t sd.val (BitVec.ofNat 64 n)) ∧
     (∀ n, n ≤ 64 → (∀ i, i < n → x.getLsbD i = false) → (n < 64 → x.getLsbD n = true) →
       CoreReady s t (srWord 1 0x19 sd.val sa.val 0) [sd.val, sa.val] → CoreGives (.ctz t sd sa) s t sd.val (BitVec.ofNat 64 n)) ∧
     (∀ imm : BitVec 46, CoreReady s t (slWord 3 0 sd.val imm.toNat) [sd.val] →
       CoreGives (.li t sd imm) s t sd.val (BitVec.ofInt 64 imm.toInt)) ∧
     (∀ imm : BitVec 18, CoreReady s t (slWord 3 1 sd.val imm.toNat) [sd.val] →
       CoreGives (.lih t sd imm) s t sd.val (imm ++ (readS (s.tile t) sd.val).truncate 46))) ∧
  (∀ (s : State) (t : Tid) (sd sa : SReg) (b : SrcB) (x y : Word), readS (s.tile t) sa.val = x → srcB (s.tile t) b = y →
     (y ≠ 0 →
       (AluReady s t 0x0C sd sa b → CoreGives (.div t sd sa b) s t sd.val
         (if x = BitVec.intMin 64 ∧ y = -1 then BitVec.intMin 64 else BitVec.ofInt 64 (x.toInt.tdiv y.toInt))) ∧
       (AluReady s t 0x0D sd sa b → CoreGives (.divu t sd sa b) s t sd.val (BitVec.ofNat 64 (x.toNat / y.toNat))) ∧
       (AluReady s t 0x0E sd sa b → CoreGives (.rem t sd sa b) s t sd.val
         (if x = BitVec.intMin 64 ∧ y = -1 then 0 else BitVec.ofInt 64 (x.toInt.tmod y.toInt))) ∧
       (AluReady s t 0x0F sd sa b → CoreGives (.remu t sd sa b) s t sd.val (BitVec.ofNat 64 (x.toNat % y.toNat)))) ∧
     (y = 0 →
       (AluReady s t 0x0C sd sa b → TrapsFirst (.div t sd sa b) s t 0 0x05 (s.tile t).pc 0) ∧
       (AluReady s t 0x0D sd sa b → TrapsFirst (.divu t sd sa b) s t 0 0x05 (s.tile t).pc 0) ∧
       (AluReady s t 0x0E sd sa b → TrapsFirst (.rem t sd sa b) s t 0 0x05 (s.tile t).pc 0) ∧
       (AluReady s t 0x0F sd sa b → TrapsFirst (.remu t sd sa b) s t 0 0x05 (s.tile t).pc 0)))

/-- R105, R106: the scalar loads and the stores of device memory: a misaligned or unmapped address aborts the task, and any other access
goes to B with the address s(SA) + OFF34 and, for a store, the data of s(SD). R105, R106, R107, R134: the operand-cache accesses of the
core, and the issue of the atomics with the operands read at issue. R105 to R107: the completion of a scalar access to memory that holds no
error: a load writes SD, zero- or sign-extended, and changes nothing else; a store writes its bytes and no others; an atomic leaves the new
value of the table in the word and the old one in SD. -/
def Obligations.ScalarMemory : Prop :=
  (∀ (s : State) (t : Tid) (sd sa : SReg) (h : BitVec 2) (o : BitVec 34),
     Loads (.ld8u t sd sa h o) s t 0 sd sa h o 1 false ∧
     Loads (.ld16u t sd sa h o) s t 1 sd sa h o 2 false ∧
     Loads (.ld32u t sd sa h o) s t 2 sd sa h o 4 false ∧
     Loads (.ld64 t sd sa h o) s t 3 sd sa h o 8 false ∧
     Loads (.ld8s t sd sa h o) s t 4 sd sa h o 1 true ∧
     Loads (.ld16s t sd sa h o) s t 5 sd sa h o 2 true ∧
     Loads (.ld32s t sd sa h o) s t 6 sd sa h o 4 true ∧
     Stores (.st8 t sd sa h o) s t 0 sd sa h o 1 ∧
     Stores (.st16 t sd sa h o) s t 1 sd sa h o 2 ∧
     Stores (.st32 t sd sa h o) s t 2 sd sa h o 4 ∧
     Stores (.st64 t sd sa h o) s t 3 sd sa h o 8) ∧
  (∀ (s : State) (t : Tid) (sd sa sb : SReg) (o : BitVec 34) (x : Tile) (a : Nat), s.tile t = x → effAddr x sa o = a →
     (CoreReady s t (smWord 4 8 sd.val sa.val 0 o.toNat) [sd.val, sa.val] →
       (a % 8 ≠ 0 → TrapsFirst (.ldo64 t sd sa o) s t 0 0x03 x.pc a) ∧
       (a % 8 = 0 → 0x200000 ≤ a → TrapsFirst (.ldo64 t sd sa o) s t 0 0x11 x.pc a) ∧
       (a % 8 = 0 → a < 0x200000 → ocUe x [(a, 8)] = none →
         CoreGives (.ldo64 t sd sa o) s t sd.val (BitVec.ofNat 64 (ofBytes (ocBytes x a 8))))) ∧
     (CoreReady s t (smWord 5 8 sd.val sa.val 0 o.toNat) [sd.val, sa.val] →
       (a % 8 ≠ 0 → TrapsFirst (.sto64 t sd sa o) s t 0 0x03 x.pc a) ∧
       (a % 8 = 0 → 0x200000 ≤ a → TrapsFirst (.sto64 t sd sa o) s t 0 0x11 x.pc a) ∧
       (a % 8 = 0 → a < 0x200000 → inCode x a 8 = true → TrapsFirst (.sto64 t sd sa o) s t 0 0x08 x.pc a) ∧
       (a % 8 = 0 → a < 0x200000 → inCode x a 8 = false → Answers (.sto64 t sd sa o) s fun u =>
         TileBecomes s u t { ocPut x a (toBytes 8 (readS x sd.val).toNat) with pc := pcNext x } ∧
         ∀ k, mget memDefault (u.tile t).oc k =
           if a ≤ k ∧ k < a + 8 then (toBytes 8 (readS x sd.val).toNat).getD (k - a) 0 else mget memDefault x.oc k)) ∧
     IssuesAtomic (.aadd t sd sa sb) s t 0 sd sa sb (.aadd (readS x sb.val)) ∧
     IssuesAtomic (.aswap t sd sa sb) s t 1 sd sa sb (.aswap (readS x sb.val)) ∧
     IssuesAtomic (.acas t sd sa sb) s t 2 sd sa sb (.acas (readS x sb.val) (readS x sd.val)) ∧
     IssuesAtomic (.aor t sd sa sb) s t 3 sd sa sb (.aor (readS x sb.val))) ∧
  (∀ (s : State) (t : Tid) (i : Nat) (o : ScalarOp), OpReady s t i o →
     (∀ n sgn, o.kind = .load n sgn → 0 < n → n ≤ 8 → LinesFine s o.addr n → Answers (.scalarMemoryComplete t i) s fun u => ∃ (v : Word) (w : State),
       CacheMoved s w ∧ u = w.setTile t (writeS (withoutOp (s.tile t) i) o.sd v) ∧
       (sgn = false → v.toNat = ofBytes (memBytes s o.addr n)) ∧ (sgn = true → v.toInt = sx (8 * n) (ofBytes (memBytes s o.addr n)))) ∧
     (∀ n d, o.kind = .store n d → LinesFine s o.addr n → NoSignals (s.tile t) → Answers (.scalarMemoryComplete t i) s fun u =>
       HintStored (s.setTile t (withoutOp (s.tile t) i)) u o.addr (toBytes n d.toNat)) ∧
     (∀ old new b e, (o.kind = .aadd b ∧ new = old + b ∨ o.kind = .aswap b ∧ new = b ∨
         o.kind = .acas b e ∧ new = (if old = e then b else old) ∨ o.kind = .aor b ∧ new = old ||| b) →
       LinesFine s o.addr 8 → NoSignals (s.tile t) → old = BitVec.ofNat 64 (ofBytes (memBytes s o.addr 8)) →
       Answers (.scalarMemoryComplete t i) s fun u => ∃ v : State,
         HintStored (s.setTile t (withoutOp (s.tile t) i)) v o.addr (toBytes 8 new.toNat) ∧ u = v.setTile t (writeS (v.tile t) o.sd old)))

/-- R108: the branches and the jumps: PC + 8 × OFF40 where the condition holds and the next instruction where it does not; JAL and JALR
leave PC + 8 in SD; a target outside the code window aborts with FETCH_FAULT, and a JALR target that is no multiple of 8 with MISALIGNED.
R85, R109, R117: NOP, HALT, ABORT, BRK and FENCE, an illegal word, and the issue of an instruction into its engine queue with the s
registers as they stand. R89 to R92, R110: the token instructions of the core. A signal adds its amount, and one that would raise the
counter above 65,535 leaves it there and aborts with TOKEN_OVERFLOW; TKRD reads, TKCLR clears; a wait subtracts its amount once the counter
is high enough, and until then the core waits. R112: RDSYS reads the register of the table into SD, and any other SYS value is illegal. -/
def Obligations.ControlFlowAndTokens : Prop :=
  (∀ (s : State) (t : Tid) (sd sa sb : SReg) (o : BitVec 40) (x : Tile) (a b : Word),
     s.tile t = x → readS x sa.val = a → readS x sb.val = b →
     Branches (.beq t sa sb o) s t 0 sa sb o (a = b) ∧
     Branches (.bne t sa sb o) s t 1 sa sb o (a ≠ b) ∧
     Branches (.blt t sa sb o) s t 2 sa sb o (a.toInt < b.toInt) ∧
     Branches (.bge t sa sb o) s t 3 sa sb o (b.toInt ≤ a.toInt) ∧
     Branches (.bltu t sa sb o) s t 4 sa sb o (a.toNat < b.toNat) ∧
     Branches (.bgeu t sa sb o) s t 5 sa sb o (b.toNat ≤ a.toNat) ∧
     (∀ imm : BitVec 46, CoreReady s t (slWord 8 0 sd.val imm.toNat) [sd.val] →
       JumpsTo (.jal t sd imm) s t (writeS x sd.val (BitVec.ofNat 64 (x.pc + 8))) (x.pc + 8 * imm.toInt)) ∧
     (∀ target : Word, target = a + 8 * o.signExtend 64 → CoreReady s t (siWord 9 0 sd.val sa.val o.toNat) [sd.val, sa.val] →
       (target.toNat % 8 ≠ 0 → TrapsFirst (.jalr t sd sa o) s t 0 0x03 x.pc target.toNat) ∧
       (target.toNat % 8 = 0 → JumpsTo (.jalr t sd sa o) s t (writeS x sd.val (BitVec.ofNat 64 (x.pc + 8))) target.toNat))) ∧
  (∀ (s : State) (t : Tid) (x : Tile), s.tile t = x →
     (CoreReady s t (ctWord 0x30 0 0 0 0 0 0) [] → Answers (.nop t) s fun u => TileBecomes s u t { x with pc := pcNext x }) ∧
     (CoreReady s t (ctWord 0x30 1 0 0 0 0 0) [] →
       Answers (.halt t) s fun u => TileBecomes s u t { x with halting := true, haltPc := x.pc }) ∧
     (∀ sa : SReg, CoreReady s t (ctWord 0x30 2 0 sa.val 0 0 0) [sa.val] →
       TrapsFirst (.abort t sa) s t 0 0x0E x.pc (readS x sa.val).toNat) ∧
     (∀ imm : BitVec 24, CoreReady s t (ctWord 0x30 3 0 0 0 0 imm.toNat) [] → TrapsFirst (.brk t imm) s t 0 0x10 x.pc imm.toNat) ∧
     (∀ w : Word, CoreReady s t w [] → legal (featureEff s) w = false → TrapsFirst (.illegal t w) s t 0 0x01 x.pc w.toNat) ∧
     (∀ k : BitVec 5, k ≠ 0 → CoreReady s t (ctWord 0x30 4 0 0 0 0 k.toNat) [] →
       ((∀ i, i < 5 → k.getLsbD i = true → scopeDone x i = true) →
         Answers (.fence t k) s fun u => TileBecomes s u t { x with pc := pcNext x }) ∧
       (∀ i, i < 5 → k.getLsbD i = true → scopeDone x i = false → exec (.fence t k) s = .next s)) ∧
     (∀ (w : Word) (e : Engine), CoreReady s t w (issueRegs w) → legal (featureEff s) w = true → queueOf w = some e →
       (getQueue x e).length < e.depth → (wMaj w = 0x32 ∧ wMin w = 2 → isPending x (wSD w) = false) →
       Answers (.queueIssue t w) s fun u => TileBecomes s u t
         { setQueue x e (getQueue x e ++ [⟨w, x.pc, x.s, x.issued, none, false, none⟩]) with
           rdspWait := decide (wMaj w = 0x32 ∧ wMin w = 2), issued := x.issued + 1, pc := pcNext x })) ∧
  (∀ (s : State) (t : Tid) (k : Fin 16) (x : Tile), s.tile t = x → (∀ j, tkCount x j ≤ 65535) →
     (∀ (i : Instr) (w : Word) (n : Nat),
       (i = .tksig t k ∧ w = ctWord 0x31 0 0 0 0 k.val 0 ∧ n = 1 ∨
         ∃ m : BitVec 16, i = .tkadd t k m ∧ w = ctWord 0x31 2 0 0 0 k.val m.toNat ∧ n = m.toNat) →
       CoreReady s t w [] → storesDone x = true →
       Answers i s fun u => tkCount (u.tile t) k.val = min (tkCount x k.val + n) 65535 ∧
         (∀ j, j ≠ k.val → tkCount (u.tile t) j = tkCount x j) ∧ (u.tile t).pc = pcNext x ∧
         (tkCount x k.val + n ≤ 65535 → TileBecomes s u t { x with tk := (u.tile t).tk, pc := pcNext x }) ∧
         (65535 < tkCount x k.val + n →
           (u.tile t).aborting = true ∧ getF u (fTILE_TRAP_CAUSE_CODE t) = 0x06 ∧ getF u (fTILE_TRAP_INFO_INFO t) = k.val)) ∧
     (∀ sd : SReg, CoreReady s t (ctWord 0x31 3 sd.val 0 0 k.val 0) [sd.val] →
       CoreGives (.tkrd t sd k) s t sd.val (BitVec.ofNat 64 (tkCount x k.val))) ∧
     (CoreReady s t (ctWord 0x31 5 0 0 0 k.val 0) [] → Answers (.tkclr t k) s fun u =>
       TileBecomes s u t { x with tk := (u.tile t).tk, pc := pcNext x } ∧ tkCount (u.tile t) k.val = 0 ∧
       ∀ j, j ≠ k.val → tkCount (u.tile t) j = tkCount x j) ∧
     (∀ (i : Instr) (w : Word) (n : Nat),
       (i = .tkwait t k ∧ w = ctWord 0x31 1 0 0 0 k.val 0 ∧ n = 1 ∨
         ∃ m : BitVec 16, m ≠ 0 ∧ i = .tkwaitn t k m ∧ w = ctWord 0x31 4 0 0 0 k.val m.toNat ∧ n = m.toNat) →
       (CoreReady s t w [] → n ≤ tkCount x k.val → Answers i s fun u =>
         TileBecomes s u t { x with tk := (u.tile t).tk, pc := pcNext x } ∧ tkCount (u.tile t) k.val = tkCount x k.val - n ∧
         ∀ j, j ≠ k.val → tkCount (u.tile t) j = tkCount x j) ∧
       (CoreReady s t w [] → tkCount x k.val < n → Answers i s fun u =>
         TileBecomes s u t { x with coreWait := some (s.now, k.val, n) }) ∧
       (∀ f, x.coreWait = some (f, k.val, n) → isLive s t = true → clkRuns s t = true → fetched x = w →
         waitServed s t k.val n (some f) = true → n ≤ tkCount x k.val → Answers i s fun u =>
           TileBecomes s u t { x with tk := (u.tile t).tk, coreWait := none, pc := pcNext x } ∧
           tkCount (u.tile t) k.val = tkCount x k.val - n ∧ ∀ j, j ≠ k.val → tkCount (u.tile t) j = tkCount x j))) ∧
  (∀ (s : State) (t : Tid) (sd : SReg) (n : BitVec 12) (v : Nat), CoreReady s t (ctWord 0x32 0 sd.val 0 n.toNat 0 0) [sd.val] →
     (n = 0 ∧ v = t.val + 256 * (t.val % 64 / 16) + 1024 * (t.val / 64) ∨ n = 1 ∧ v = s.now ∨ n = 2 ∧ v = cyclesOf s t ∨
       n = 3 ∧ v = featureEff s ∨ n = 4 ∧ v = getF s (fPKG_DIE_FEATURE_FEATURES (t.val / 64)) ∨
       n = 5 ∧ v = getF s (fPKG_DIE_STATUS_STEPPING (t.val / 64)) ∨ n = 6 ∧ v = s.load.jobId ∨
       n = 7 ∧ v = getF s fOPT_POS_LROW + 256 * getF s fOPT_POS_LCOL ∨ n = 8 ∧ v = getF s (fTILE_WAIT_LIMIT_LIMIT t) →
         CoreGives (.rdsys t sd n) s t sd.val (BitVec.ofNat 64 v)) ∧
     (8 < n.toNat → TrapsFirst (.rdsys t sd n) s t 0 0x01 (s.tile t).pc (ctWord 0x32 0 sd.val 0 n.toNat 0 0).toNat))



/-- R81, R126: a START that the conditions of R126 accept begins a task: the pc is the entry, the window and the two arguments are those of
the TILE_START registers, every other register, queue and counter of the tile is as at task start, and only the operand cache survives; the reason
for the reference personality is that of R201; any
other START sets START_REJ. R118, R119: HOST_ABORT aborts a running task with its pc, and is ignored otherwise. R92, R118: a wait of the
core, of a queue head or of a GWAIT that is not served 64 ns after its deadline aborts the task with WAIT_TIMEOUT, recorded for the unit
that waits. R109, R120: after HALT, once everything is done, the task ends: the tile is HALTED and the notice is posted where TILE_REPORT_PH
says so. R119: at the end of an abort the tile is ABORTED, its queues and waits are empty, its leaf is set, and the notice is posted. -/
def Obligations.TaskLife : Prop :=
  (∀ (s : State) (t : Tid) (x : Tile) (base size entry : Nat), s.tile t = x →
     base = getF s (fTILE_START_WIN_BASE t) * 4096 → size = getF s (fTILE_START_WIN_SIZE t) * 4096 →
     entry = getF s (fTILE_START_ENTRY_ENTRY t) → dieUp s (dieOf t) = true →
     (x.phase ≠ .running → x.phase ≠ .fenced → 4096 ≤ size → size ≤ 262144 → base + size ≤ 0x200000 → entry % 8 = 0 → entry < size →
       ¬ (getF s fHST_LOAD_STATUS_STATE = 1 ∧ t.val ∈ s.load.targets) →
       ∀ replay, Answers (.start t ⟨false, replay⟩) s fun u =>
         (u.tile t).phase = .running ∧ (u.tile t).pc = base + entry ∧ (u.tile t).winBase = base ∧ (u.tile t).winSize = size ∧
         (∀ n, readS (u.tile t) n = if n = 1 then BitVec.ofNat 64 (getF s (fTILE_START_ARG0_ARG t))
           else if n = 2 then BitVec.ofNat 64 (getF s (fTILE_START_ARG1_ARG t)) else 0) ∧
         (∀ k, tkCount (u.tile t) k = 0) ∧ (u.tile t).oc = x.oc ∧ (u.tile t).mat = .reset ∧ (u.tile t).vec = .reset ∧
         (u.tile t).fill = .reset ∧ (u.tile t).msg = .reset ∧ (u.tile t).str.queue = [] ∧ (u.tile t).ops = [] ∧
         getF u (fTILE_TRAP_CAUSE_VALID t) = 0 ∧
         getF u (fTILE_VEC_REFEN_REASON t) = (if replay = true ∧ fwRuns s = true then 3 else if s.load.refpers = true then 2 else 0) ∧ (∀ j, j ≠ t.val → u.tile j = s.tile j) ∧
         u = { s with csr := u.csr, tiles := u.tiles, pkg := u.pkg }) ∧
     (∀ both replay, both = true ∨ x.phase = .running ∨ x.phase = .fenced ∨ size < 4096 ∨ 262144 < size ∨ 0x200000 < base + size ∨ entry % 8 ≠ 0 ∨
         size ≤ entry ∨ (getF s fHST_LOAD_STATUS_STATE = 1 ∧ t.val ∈ s.load.targets) →
       Answers (.start t ⟨both, replay⟩) s fun u => getF u (fTILE_STATUS_START_REJ t) = 1 ∧ OnlyFields s u [fTILE_STATUS_START_REJ t]) ∧
     (isLive s t = true → clkRuns s t = true → TrapsFirst (.hostAbort t) s t 0 0x0F x.pc 0) ∧
     (x.phase ≠ .running → exec (.hostAbort t) s = .next s)) ∧
  (∀ (s : State) (t : Tid) (x : Tile), s.tile t = x →
     (∀ f tk n, isLive s t = true → x.coreWait = some (f, tk, n) → tokenLate s t tk n f = true →
       TrapsFirst (.waitTimeout t 0) s t 0 0x07 x.pc (waitInfo 0 tk)) ∧
     (∀ (u : UnitNo) (e : Engine) (h : QEntry) (r : List QEntry), isLive s t = true → unitEngine u.val = some e → getQueue x e = h :: r →
       (∀ f, h.waitFrom = some f → tokenLate s t (wWTK h.word) 1 f = true →
         TrapsFirst (.waitTimeout t u) s t u.val 0x07 h.pc (waitInfo 0 (wWTK h.word))) ∧
       (∀ since info, h.waitFrom = none → h.held = some (since, info) → pastBy64 s (headDeadline s t h) = true → recvServed s t h = false →
         TrapsFirst (.waitTimeout t u) s t u.val 0x07 h.pc info) ∧
       (∀ b, h.waitFrom = none → h.held = none → e = .message → gwaitLate s t = some b →
         TrapsFirst (.waitTimeout t u) s t 4 0x07 h.pc (waitInfo 2 b))) ∧
     (isLive s t = true → x.halting = true → quiet x = true → Answers (.haltComplete t) s fun u =>
       u.tile t = { stopStreams x with phase := .halted, halting := false } ∧ (∀ j, j ≠ t.val → u.tile j = s.tile j) ∧
       u.devq = (if bitF s (fTILE_REPORT_PH_EN t) then
           s.devq ++ [⟨getF s (fTILE_REPORT_PH_PH t), 0, noticePayload t 0 0 x.haltPc 0 s.now (cyclesOf s t) false false⟩] else s.devq) ∧
       FieldsKept s u [fTILE_VEC_END_BSTAT_NONFIN t, fTILE_VEC_END_BSTAT_SAT t, fTILE_VEC_REFEN_REASON t, fOBS_TRACE_LOST_COUNT] ∧
       u = { s with csr := u.csr, tiles := u.tiles, devq := u.devq, obs := u.obs }) ∧
     (isRunning s t = true → x.aborting = true → Answers (.taskAbortEnd t) s fun u =>
       (u.tile t).phase = .aborted ∧ (u.tile t).aborting = false ∧ (∀ e, getQueue (u.tile t) e = []) ∧ (u.tile t).ops = [] ∧
       (u.tile t).coreWait = none ∧ (u.tile t).fill = .reset ∧ bit (getF u (fINT_CAUSE_TILE_LEAF (t.val / 32))) (t.val % 32) = true))

/-! ### Messages -/

/-- R397 to R399, R404: MSEND to a RECV pigeonhole of the module puts the delivered form, with the time, into the next free slot of its
ring, after its bulk into the slot's buffer; MSEND by the owner to its deferral or optimizer pigeonhole appends the inline payload to that
queue. MSEND_ACCEPT ends a send whose receivers have all acknowledged: it leaves the queue and its signal is applied. R397, R399, R402,
R403: a MAIL packet without bulk to a RECV pigeonhole fills the next free slot with the delivered form, whose TIMESTAMP is its ingress
stamp, and one that finds no slot is lost, which opens an interval of 1 s; a reply takes the slot that its request reserved, and one without
a reservation is discarded as NO_RESV. R399: a BULK packet lands in the bulk buffer of its message's
slot. R401: a CREDIT packet adds to the credit of its channel. -/
def Obligations.MessageSendAndPackets : Prop :=
  (∀ (s s1 : State) (t : Tid) (h : QEntry) (p a : Nat) (f : SendForm) (e : PhEntry),
     Starts s t .message 0x28 0 h s1 → s.devq = [] → (s.tile t).msg.started = none → h.held = none → wCLASS h.word = 0 →
     namedPh h = some p → phEntry s p = e → capS h (wSA h.word) = a → a % 64 = 0 → mappedRange a 64 = true → RangeClean s a 64 →
     sendForm (memBytes s a 64) = f → mappedRange f.bulk f.len = true → f.resv = false →
     (∀ slot, e.kind = 1 → slotFree s p = true → pickSlot s p = some slot → formBad s 0 e.bufSize f = false →
       RangeClean s f.bulk f.len → RangeClean s (bufAddr e slot) f.len → RangeClean s (e.ring + 64 * slot) 64 →
       Answers (.msend t) s fun u =>
         (phRt u p).queue = (phRt s p).queue ++ [⟨slot, none, s.now⟩] ∧ (u.tile t).msg.started = some 0 ∧
         ∀ k, memByte u k =
           if e.ring + 64 * slot ≤ k ∧ k < e.ring + 64 * slot + 64 then
             (delivered (ownLog s) f.rph t (16 + 4 * (wSEAL h.word || e.sealed).toNat) p s.now
               (if f.len = 0 then 0 else bufAddr e slot) f.len f.user f.inline).getD (k - (e.ring + 64 * slot)) 0
           else if bufAddr e slot ≤ k ∧ k < bufAddr e slot + f.len then memByte s (f.bulk + (k - bufAddr e slot))
           else memByte s k) ∧
     (e.kind = 4 ∨ e.kind = 5 → e.owner = t.val → itemRoom s e = true → formBad s 0 0 f = false →
       Answers (.msend t) s fun u =>
         (u.tile t).fill.defer = (s.tile t).fill.defer ++ (if e.kind = 4 then [ofBytes f.inline] else []) ∧
         (u.tile t).fill.opt = (s.tile t).fill.opt ++ (if e.kind = 5 then [ofBytes f.inline] else []) ∧
         (u.tile t).msg.started = some 0 ∧ u = { s with tiles := u.tiles })) ∧
  (∀ (s : State) (i p : Nat) (q : InPkt) (e : PhEntry), s.fab.inq[i]? = some q → idDest q.p.id = p → phEntry s p = e →
     (∀ slot, q.p.typ = tMAIL → s.devq = [] → e.kind = 1 → q.p.cls = 0 → q.p.payload.length = 64 → leAt q.p.payload 0x18 4 = 0 →
       bit (leAt q.p.payload 5 1) 3 = false → (∀ w ∈ (phRt s p).parts, ¬ (w.src = q.p.src ∧ w.sph = chanKey q.p)) →
       slotFree s p = true → pickSlot s p = some slot → RangeClean s (e.ring + 64 * slot) 64 →
       Answers (.mail i) s fun u => u.fab.inq = removeAt s.fab.inq i ∧
         (phRt u p).queue = (phRt s p).queue ++ [⟨slot, some (q.p.src, idSrc q.p.id, idTag q.p.id), q.stamp⟩] ∧ Counts s u (fMBX_TOTAL_ARRIVED p) 1 ∧
         ∀ k, memByte u k =
           if e.ring + 64 * slot ≤ k ∧ k < e.ring + 64 * slot + 64 then
             (overlay (overlay q.p.payload 8 (toBytes 8 q.stamp)) 0x10 (toBytes 8 0)).getD (k - (e.ring + 64 * slot)) 0
           else memByte s k) ∧
     (q.p.typ = tMAIL → s.devq = [] → e.kind = 1 → q.p.cls = 0 → leAt q.p.payload 0x18 4 = 0 →
       (∀ w ∈ (phRt s p).parts, ¬ (w.src = q.p.src ∧ w.sph = chanKey q.p)) → slotFree s p = false → (phRt s p).lossFrom = none →
       Answers (.mail i) s fun u => u.fab.inq = removeAt s.fab.inq i ∧ (phRt u p).queue = (phRt s p).queue ∧
         (phRt u p).lossFrom = some s.now ∧ (phRt u p).lossSync = synced s ∧ (phRt u p).lossN = 1 ∧ getF u (fMBX_ERR_OVERRUN p) = 1 ∧ getF u fCMP_FAB_ERR_RING_OVERRUN = 1 ∧
         Counts s u (fCMP_FAB_EVENT_COUNT 9) 1 ∧ MemSame s u) ∧
     (∀ x, q.p.typ = tMAIL → s.devq = [] → e.kind = 1 → q.p.cls = 1 → q.p.payload.length = 64 → leAt q.p.payload 0x18 4 = 0 →
       bit (leAt q.p.payload 5 1) 3 = false → (∀ w ∈ (phRt s p).parts, ¬ (w.src = q.p.src ∧ w.sph = chanKey q.p)) →
       firstIdx (fun l : List Nat × Nat => l.1.contains q.p.src && l.2 == replyKey q.p) (phRt s p).resv = x →
       (∀ k slot, x = some k → pickSlot s p = some slot → RangeClean s (e.ring + 64 * slot) 64 →
         Answers (.mail i) s fun u => u.fab.inq = removeAt s.fab.inq i ∧ (phRt u p).queue = (phRt s p).queue ++ [⟨slot, none, q.stamp⟩] ∧
           (phRt u p).resv = removeAt (phRt s p).resv k ∧ Counts s u (fMBX_TOTAL_ARRIVED p) 1 ∧
           ∀ k, memByte u k =
             if e.ring + 64 * slot ≤ k ∧ k < e.ring + 64 * slot + 64 then
               (overlay (overlay q.p.payload 8 (toBytes 8 q.stamp)) 0x10 (toBytes 8 0)).getD (k - (e.ring + 64 * slot)) 0
             else memByte s k) ∧
       (x = none → Answers (.mail i) s fun u => u.fab.inq = removeAt s.fab.inq i ∧ (phRt u p).queue = (phRt s p).queue ∧
         (phRt u p).resv = (phRt s p).resv ∧ getF u (fMBX_ERR_NO_RESV p) = 1 ∧ getF u fCMP_FAB_ERR_NO_RESV = 1 ∧
         Counts s u (fCMP_FAB_EVENT_COUNT 10) 1 ∧ MemSame s u)) ∧
     (∀ w slot o, q.p.typ = tBULK → e.kind = 1 → w ∈ (phRt s p).parts →
       (∀ x ∈ (phRt s p).parts, x.src = q.p.src → x.sph = chanKey q.p → x = w) → w.src = q.p.src → w.sph = chanKey q.p →
       w.tag = idTag q.p.id → w.slot = some slot → w.mail = none → o = q.p.addr % 2 ^ 32 → o + q.p.payload.length ≤ e.bufSize →
       RangeClean s (bufAddr e slot + o) q.p.payload.length →
       Answers (.bulk i) s fun u => u.fab.inq = removeAt s.fab.inq i ∧ { w with got := w.got + q.p.payload.length } ∈ (phRt u p).parts ∧
         ∀ k, memByte u k = if bufAddr e slot + o ≤ k ∧ k < bufAddr e slot + o + q.p.payload.length then
             q.p.payload.getD (k - (bufAddr e slot + o)) 0 else memByte s k) ∧
     (∀ z, q.p.typ = tCREDIT → z = q.p.id % 16384 → (phEntry s z).kind = 2 ∨ (phEntry s z).kind = 3 →
       (∀ m ∈ s.mail.msgs, m.state ≠ .caughtUp) →
       Answers (.credit i) s fun u => u.fab.inq = removeAt s.fab.inq i ∧ creditOf u z q.p.src = creditOf s z q.p.src + q.p.addr % 65536 ∧
         (∀ d, d ≠ q.p.src → creditOf u z d = creditOf s z d) ∧ Counts s u (fMBX_TOTAL_ARRIVED z) (q.p.addr % 65536) ∧
         u = { s with csr := u.csr, fab := u.fab, mail := { s.mail with rts := u.mail.rts } }))

/-- R398, R416: the Mailroom accepts a started MSEND: it leaves the queue, and its signal is applied. R85: MTRY and MCOUNT wait for the message
instructions before them. R400, R401: MRECV and MTRY copy the
oldest descriptor of the ring to s(SA) and hold its slot; MTRY writes 1, or 0 where the ring is empty; MCOUNT writes the count; MCREDIT
frees the n oldest held slots. Instructions get descriptors in the order in which they reach the Mailroom: MTRY does nothing while an MRECV
of another tile waits that came before it. -/
def Obligations.MessageAcceptAndReceive : Prop :=
  (∀ (s : State) (t : Tid) (h : QEntry) (g : Nat), isLive s t = true → headOf s t .message 0x28 0 = some h →
     (s.tile t).msg.started = some g → (∀ m ∈ s.mail.msgs, m.group = g → m.mcast = true → m.state = .acked ∨ m.state = .failed) →
     Answers (.msendAccept t) s fun u =>
       (u.tile t).msg.started = none ∧ (u.tile t).msg.queue = (s.tile t).msg.queue.tail ∧ SignalApplied s u t h ∧
       u.mail.msgs = (s.mail.msgs.filter fun m => !(m.group == g && m.mcast)) ∧ (∀ k, memByte u k = memByte s k)) ∧
  (∀ (s : State) (t : Tid), s.devq = [] →
     (∀ (s1 : State) (h : QEntry) (p a : Nat) (i : RingItem) (q : List RingItem), Starts s t .message 0x28 1 h s1 → h.held = none →
       namedPh h = some p → (phEntry s p).kind = 1 → (phRt s p).queue = i :: q → capS h (wSA h.word) = a → a % 64 = 0 →
       mappedRange a 64 = true → RangeClean s ((phEntry s p).ring + 64 * i.slot) 64 → RangeClean s a 64 → earlierRecv s t p none = false →
       Answers (.mrecv t) s fun u =>
         (∀ k, memByte u k = if a ≤ k ∧ k < a + 64 then memByte s ((phEntry s p).ring + 64 * i.slot + (k - a)) else memByte s k) ∧
         (phRt u p).queue = q ∧ (phRt u p).held = (phRt s p).held ++ [i] ∧
         (u.tile t).msg.queue = (s1.tile t).msg.queue.tail ∧ SignalApplied s1 u t h) ∧
     (∀ (sd sa : SReg) (ph : BitVec 14), (s.tile t).msg.queue ≠ [] →
       (CoreReady s t (msWord 9 sd.val sa.val (.ph ph)) [sd.val, sa.val] → exec (.mtry t sd sa (.ph ph)) s = .next s) ∧
       (CoreReady s t (msWord 8 sd.val 0 (.ph ph)) [sd.val] → exec (.mcount t sd (.ph ph)) s = .next s)) ∧
     (∀ (sd sa : SReg) (ph : BitVec 14) (a : Nat), CoreReady s t (msWord 9 sd.val sa.val (.ph ph)) [sd.val, sa.val] →
       (s.tile t).msg.queue = [] → coreAccesses (s.tile t) a 64 = false → (phEntry s ph.toNat).kind = 1 → (readS (s.tile t) sa.val).toNat = a → a % 64 = 0 → mappedRange a 64 = true →
       ((phRt s ph.toNat).queue = [] → CoreGives (.mtry t sd sa (.ph ph)) s t sd.val 0) ∧
       ((phRt s ph.toNat).queue ≠ [] → earlierRecv s t ph.toNat none = true → exec (.mtry t sd sa (.ph ph)) s = .next s) ∧
       (∀ i q, (phRt s ph.toNat).queue = i :: q → RangeClean s ((phEntry s ph.toNat).ring + 64 * i.slot) 64 → RangeClean s a 64 →
         earlierRecv s t ph.toNat none = false →
         Answers (.mtry t sd sa (.ph ph)) s fun u =>
           (∀ k, memByte u k =
             if a ≤ k ∧ k < a + 64 then memByte s ((phEntry s ph.toNat).ring + 64 * i.slot + (k - a)) else memByte s k) ∧
           (phRt u ph.toNat).queue = q ∧ (phRt u ph.toNat).held = (phRt s ph.toNat).held ++ [i] ∧
           (∀ n, readS (u.tile t) n = if n = sd.val ∧ n ≠ 0 then 1 else readS (s.tile t) n) ∧ (u.tile t).pc = pcNext (s.tile t))) ∧
     (∀ (sd : SReg) (ph : BitVec 14), CoreReady s t (msWord 8 sd.val 0 (.ph ph)) [sd.val] → (s.tile t).msg.queue = [] →
       ((phEntry s ph.toNat).kind = 1 → CoreGives (.mcount t sd (.ph ph)) s t sd.val (BitVec.ofNat 64 (phRt s ph.toNat).queue.length)) ∧
       ((phEntry s ph.toNat).kind = 2 →
         CoreGives (.mcount t sd (.ph ph)) s t sd.val (BitVec.ofNat 64 (creditOf s ph.toNat (phEntry s ph.toNat).target))) ∧
       ((phEntry s ph.toNat).kind = 0 → TrapsFirst (.mcount t sd (.ph ph)) s t 0 0x60 (s.tile t).pc 0)) ∧
     (∀ (s1 : State) (h : QEntry) (n : Nat), Starts s t .message 0x28 2 h s1 → h.held = none → (phEntry s (wPH h.word)).kind = 1 →
       capS h (wSB h.word) = n → 0 < n → n ≤ 65535 → n ≤ (phRt s (wPH h.word)).held.length →
       Answers (.mcredit t) s fun u =>
         (phRt u (wPH h.word)).held = (phRt s (wPH h.word)).held.drop n ∧ (phRt u (wPH h.word)).queue = (phRt s (wPH h.word)).queue ∧
         (u.tile t).msg.queue = (s1.tile t).msg.queue.tail ∧ SignalApplied s1 u t h ∧ (∀ k, memByte u k = memByte s k)))

/-! ### Barriers -/

/-- R427, R429: GARRIVE counts one arrival, with its time, at the first instance, from the current one on and at most two ahead, whose local
arrivals are not complete; the arrival that completes them closes the local stage of a barrier with an axis. R430: GWAIT begins on the
current instance, and completes once that instance has closed by its deadline. R428, R429: an arrival packet counts at its stage of the
instance it names, at most two ahead of the current one, once for each member; one for an instance that has closed is counted and discarded,
one further ahead is an error. R428, R430: 64 ns after E of its last stage the current instance closes: its registers say so, the next
instance is current, and the GWAITs on it are satisfied; the row stage of a JOB barrier instead begins the column stage. -/
def Obligations.Barriers : Prop :=
  (∀ (s s1 : State) (t : Tid) (h : QEntry) (b : Nat) (x : Bar), barOf s b = some x → h.held = none → wPH h.word % 1024 = b →
     (∀ n, Starts s t .message 0x28 3 h s1 → x.cur ≤ n → n < x.cur + 3 →
       (∀ m, x.cur ≤ m → m < n → x.e.localN ≤ (barInst x m).loc.length) → (barInst x n).loc.length < x.e.localN →
       Answers (.garrive t) s fun u => MsgDone s1 u t h ∧ MemSame s u ∧ ∃ y, barOf u b = some y ∧ y.cur = x.cur ∧ y.e = x.e ∧
         (∀ m, m ≠ n → barInst y m = barInst x m) ∧
         barInst y n = { barInst x n with
           loc := (barInst x n).loc ++ [s.now]
           locAt := if x.e.axis ≠ 0 ∧ (barInst x n).loc.length + 1 = x.e.localN then some s.now else (barInst x n).locAt }) ∧
     (Starts s t .message 0x28 4 h s1 → (s.tile t).msg.gw = none → Answers (.gwait t) s fun u =>
       TileBecomes s1 u t { s1.tile t with msg := { (s1.tile t).msg with gw := some ⟨b, x.cur, s.now, none, false⟩ } }) ∧
     (∀ g c, Starts s t .message 0x28 4 h s1 → (s.tile t).msg.gw = some g → g.go = true → g.closed = some c →
       (∀ d, gwDeadline s1 t g = some d → c ≤ d) →
       Answers (.gwait t) s fun u => MsgDone s1 u t h ∧ MemSame s u ∧ (u.tile t).msg.gw = none)) ∧
  (∀ (s : State) (b : Fin 1024) (x : Bar), barOf s b.val = some x →
     (∀ i q, s.fab.inq[i]? = some q → q.p.typ = tBARRIER → q.p.id % 1024 = b.val → bit q.p.id 30 = false →
       Answers (.barrier i) s fun u => u.fab.inq = removeAt s.fab.inq i ∧ (∀ j, u.tile j = s.tile j) ∧ MemSame s u ∧
         (q.p.addr < x.cur → barOf u b.val = some x ∧ Counts s u (fCMP_FAB_EVENT_COUNT 7) 1) ∧
         (x.cur + 3 ≤ q.p.addr → barOf u b.val = some x ∧ getF u fCMP_FAB_ERR_BAR_SKEW = 1 ∧ Counts s u (fCMP_FAB_EVENT_COUNT 8) 1) ∧
         (x.cur ≤ q.p.addr → q.p.addr < x.cur + 3 → ∃ y, barOf u b.val = some y ∧ y.cur = x.cur ∧
           (∀ m, m ≠ q.p.addr → barInst y m = barInst x m) ∧ (barInst y q.p.addr).loc = (barInst x q.p.addr).loc ∧
           (bit q.p.id 31 = false → (barInst y q.p.addr).col = (barInst x q.p.addr).col ∧
             ((∀ p ∈ (barInst x q.p.addr).row, p.1 ≠ memberOf s 0 q.p.src) →
               (barInst y q.p.addr).row = (barInst x q.p.addr).row ++ [(memberOf s 0 q.p.src, q.stamp)])) ∧
           (bit q.p.id 31 = true → (barInst y q.p.addr).row = (barInst x q.p.addr).row ∧
             ((∀ p ∈ (barInst x q.p.addr).col, p.1 ≠ memberOf s 1 q.p.src) →
               (barInst y q.p.addr).col = (barInst x q.p.addr).col ++ [(memberOf s 1 q.p.src, q.stamp)])))) ∧
     (∀ e byD, stageE s x = some (e, byD) → e + 64 ≤ s.now → x.e.axis = 3 → (barInst x x.cur).rowAt = none →
       Answers (.barrierStageClose b) s fun u => MemSame s u ∧ ∃ y, barOf u b.val = some y ∧ y.cur = x.cur ∧
         barInst y x.cur = { barInst x x.cur with rowAt := some s.now }) ∧
     (∀ e byD, stageE s x = some (e, byD) → e + 64 ≤ s.now → ¬ (x.e.axis = 3 ∧ (barInst x x.cur).rowAt = none) →
       isPhaseBarrier s b.val = false → s.mem.quadChange = [] →
       Answers (.barrierStageClose b) s fun u =>
         barOf u b.val = some { x with cur := x.cur + 1, insts := x.insts.filter fun i => decide (x.cur < i.no) } ∧
         getF u (fCMP_GAUGE_BY_DEADLINE b) = byD.toNat ∧ Counts s u (fCMP_GAUGE_CLOSURES b) 1 ∧ MemSame s u ∧
         ∀ j g, (s.tile j).msg.gw = some g → (u.tile j).msg.gw =
           if g.bar = b.val ∧ g.inst = x.cur then some { g with closed := some s.now, go := true } else some g))

/-! ### Collectives -/

/-- R417 to R420, R424: MCOLL of a step that is the oldest open one starts its instance: a slot of DONE_PH is reserved, a window for every
other member is open, and the module's own contribution, stamped at the start, is added into the accumulation buffer by the step of
R420, or for an all-gather lands in the output at the module's own place. No contribution to the collective waits in an ingress pool, and
no change of a quad's mode is under way. -/
def Obligations.CollectiveStart : Prop :=
  ∀ (s s1 : State) (t : Tid) (h : QEntry) (a id step src own n size : Nat) (d : List Byte) (c : Coll),
    Starts s t .message 0x28 5 h s1 → h.held = none → s.devq = [] → capS h (wSA h.word) = a → a % 64 = 0 → mappedRange a 64 = true →
    RangeClean s a 64 → d = memBytes s a 64 → leAt d 0 1 = id → leAt d 1 1 ≤ 1 → leAt d 4 4 = step → leAt d 8 8 = src → src < 2 ^ 52 →
    leAt d 16 48 = 0 → collOf s id = some c → axisN s c.e.axis = n → memberOf s c.e.axis (ownLog s) = own → own < n → elemSize c.e.fmtIn = size →
    mappedRange src ((if c.e.kind = 1 then 1 else n) * c.e.shard * size) = true → c.e.grad = false → oldestFor s c step = step →
    instOf c step = none → (phEntry s c.e.donePh).kind = 1 → slotFree s c.e.donePh = true →
    64 * (s.mail.sends.length + (n - 1)) ≤ 8192 → (∀ w ∈ s.mail.sends, ¬ (w.id = id ∧ w.step = step)) →
    RangeClean s (src + (if c.e.kind = 1 then 0 else own * c.e.shard * size)) (c.e.shard * size) →
    (c.e.kind = 1 → RangeClean s (c.e.out + own * c.e.shard * size) (c.e.shard * size)) →
    (c.e.kind ≠ 1 → RangeClean s (accBase c step) (8 * c.e.shard)) → c.e.determ = false →
    (∀ m ∈ s.mail.msgs, m.mcast = true → m.tile ≠ t) → (∀ q ∈ s.fab.inq, isContrib id q = false) → s.mem.quadChange = [] →
    Answers (.mcoll t) s fun u =>
      MsgDone s1 u t h ∧ (phRt u c.e.donePh).resv = (phRt s c.e.donePh).resv ++ [([fromDevice], 0)] ∧
      (∃ y i, collOf u id = some y ∧ y.e = c.e ∧ y.oldest = some step ∧ instOf y step = some i ∧ i.own = true ∧ i.tag = leAt d 2 2 ∧
        (c.e.kind ≠ 1 → i.parts = [⟨own, c.e.shard, s.now⟩] ∧ i.first = some s.now) ∧ (c.e.kind = 1 → i.gather = [(own, c.e.shard)])) ∧
      (∀ j, j < n → j ≠ own → ∃ w ∈ u.mail.sends, w.id = id ∧ w.step = step ∧ w.member = j ∧ w.dest = memberPos s c.e.axis j) ∧
      (c.e.kind ≠ 1 →
        pairsOf (memBytes u (accBase c step) (8 * c.e.shard)) =
          ((pairsOf (memBytes s (accBase c step) (8 * c.e.shard))).zip
            (elemsOf c.e.fmtIn (memBytes s (src + own * c.e.shard * size) (c.e.shard * size)))).map (fun p => addStep p.1 p.2) ∧
        ∀ k, (k < accBase c step ∨ accBase c step + 8 * c.e.shard ≤ k) → memByte u k = memByte s k) ∧
      (c.e.kind = 1 → ∀ k, memByte u k =
        if c.e.out + own * c.e.shard * size ≤ k ∧ k < c.e.out + own * c.e.shard * size + c.e.shard * size then
          memByte s (src + (k - (c.e.out + own * c.e.shard * size))) else memByte s k)

/-- R420, R424, R425, R419: a collective packet whose step is open, and not past its E, adds its elements into the buffer of its step and
counts for its contributor, in the order of the ingress stamps; one of the step before the oldest open one folds into that one and is counted as late; a packet of a gather part
lands at its member's place of the output. R423, R424: 64 ns after its E the oldest instance of a reduction closes: the output holds the
reduced elements in its format, the accumulation buffer is zero for the step after next, CMP_COLL_n reports the closure, and where the
module's MCOLL started the instance the completion notice goes to DONE_PH. R419: an all-gather ends once every shard has landed whole. -/
def Obligations.CollectivePacketsAndEnd : Prop :=
  (∀ (s : State) (i id idx step o : Nat) (q : InPkt) (c : Coll), s.fab.inq[i]? = some q → q.p.typ = tCOLL → q.p.id % 256 = id →
     collOf s id = some c → memberOf s c.e.axis q.p.src = idx → q.p.step = step → q.p.addr / elemSize c.e.fmtIn = o → c.e.grad = false →
     (bit q.p.id 31 = false → (∃ x ∈ s.fab.inq, isContrib id x = true ∧ x.stamp < q.stamp) → exec (.coll i) s = .next s) ∧
     (∀ f, (∀ x ∈ s.fab.inq, isContrib id x = true → q.stamp ≤ x.stamp) → bit q.p.id 31 = false → c.oldest = some f → (step = f ∨ step = f + 1) → c.e.determ = false →
       (∀ x e b, instOf c step = some x → instE s c x = some (e, b) → q.stamp ≤ e) →
       (instOf c step = none → ∀ e b, instE s c (CollInst.start step) = some (e, b) → q.stamp ≤ e) →
       RangeClean s (accBase c step + 8 * o) (8 * (elemsOf c.e.fmtIn q.p.payload).length) →
       Answers (.coll i) s fun u => u.fab.inq = removeAt s.fab.inq i ∧
         (∃ y x, collOf u id = some y ∧ instOf y step = some x ∧
           ∃ p ∈ x.parts, p.idx = idx ∧ p.elems = (((((instOf c step).getD (CollInst.start step)).parts.find? fun p => p.idx == idx).map (·.elems)).getD 0) +
             (elemsOf c.e.fmtIn q.p.payload).length) ∧
         pairsOf (memBytes u (accBase c step + 8 * o) (8 * (elemsOf c.e.fmtIn q.p.payload).length)) =
           ((pairsOf (memBytes s (accBase c step + 8 * o) (8 * (elemsOf c.e.fmtIn q.p.payload).length))).zip
             (elemsOf c.e.fmtIn q.p.payload)).map (fun p => addStep p.1 p.2) ∧
         ∀ k, (k < accBase c step + 8 * o ∨ accBase c step + 8 * o + 8 * (elemsOf c.e.fmtIn q.p.payload).length ≤ k) →
           memByte u k = memByte s k) ∧
     (∀ x, (∀ x ∈ s.fab.inq, isContrib id x = true → q.stamp ≤ x.stamp) → bit q.p.id 31 = false → c.oldest = some (step + 1) → c.fresh = false → instOf c (step + 1) = some x →
       (∀ e b, instE s c x = some (e, b) → q.stamp ≤ e) →
       Answers (.coll i) s fun u => Counts s u (fCMP_FAB_EVENT_COUNT 5) 1 ∧ Counts s u (fCMP_COLL_LATE_COUNT id) 1 ∧
         ∃ y z, collOf u id = some y ∧ instOf y (step + 1) = some z ∧ (idx, step) ∈ z.late ∧ z.parts = x.parts) ∧
     (∀ x a, bit q.p.id 31 = true → bit q.p.id 30 = false → c.oldest = some step → instOf c step = some x → (∀ p ∈ x.gather, p.1 ≠ idx) →
       a = c.e.out + idx * c.e.shard * c.e.pktSize true + q.p.addr → RangeClean s a q.p.payload.length →
       Answers (.coll i) s fun u =>
         (∀ k, memByte u k = if a ≤ k ∧ k < a + q.p.payload.length then q.p.payload.getD (k - a) 0 else memByte s k) ∧
         ∃ y z, collOf u id = some y ∧ instOf y step = some z ∧ (idx, q.p.payload.length / c.e.pktSize true) ∈ z.gather)) ∧
  (∀ (s : State) (id : Fin 256) (c : Coll) (x : CollInst), collOf s id.val = some c → s.mem.quadChange = [] →
     (∀ e byD l out m, c.oldest = some x.step → instOf c x.step = some x → instE s c x = some (e, byD) → e + 64 ≤ s.now → c.e.kind = 0 →
       c.e.grad = false → x.closed = none → c.e.determ = false → RangeClean s (accBase c x.step) (8 * c.e.shard) →
       l = (pairsOf (memBytes s (accBase c x.step) (8 * c.e.shard))).map (·.1) → out = outBytes c.e.fmtOut l →
       m = (x.parts.filter fun p => p.elems == c.e.shard && decide (p.last ≤ e)).length →
       RangeClean s c.e.out out.length → (∀ q ∈ s.fab.inq, isContrib id.val q = false) →
       Answers (.collClose id) s fun u =>
         (∀ k, memByte u k = if accBase c x.step ≤ k ∧ k < accBase c x.step + 8 * c.e.shard then 0
           else if c.e.out ≤ k ∧ k < c.e.out + out.length then out.getD (k - c.e.out) 0 else memByte s k) ∧
         (getF u (fCMP_COLL_NF id) = x.nf.toNat ∧ getF u (fCMP_COLL_BY_DEADLINE id) = byD.toNat ∧
           getF u (fCMP_COLL_COUNTED id) = m % 128 ∧ getF u (fCMP_COLL_STEP id) = x.step % 2 ^ 32) ∧
         (∃ y, collOf u id = some y ∧ y.oldest = some (x.step + 1) ∧ instOf y x.step = none) ∧
         u.devq = if x.own then s.devq ++ [⟨c.e.donePh, 1, collNotice s id x e byD m⟩] else s.devq) ∧
     (∀ r, c.e.kind = 1 → c.e.grad = false → c.insts = x :: r → (∀ j, j < axisN s c.e.axis → (j, c.e.shard) ∈ x.gather) → (∀ i ∈ r, i.step ≠ x.step) →
       Answers (.agPartEnd id) s fun u => MemSame s u ∧
         (getF u (fCMP_COLL_COUNTED id) = axisN s c.e.axis % 128 ∧ getF u (fCMP_COLL_STEP id) = x.step % 2 ^ 32 ∧
           getF u (fCMP_COLL_BY_DEADLINE id) = 0) ∧
         (∃ y, collOf u id = some y ∧ y.oldest = some (x.step + 1) ∧ y.insts = r) ∧
         u.devq = if x.own then s.devq ++ [⟨c.e.donePh, 1, collNotice s id x (Config.freeWord s.free).toNat false (axisN s c.e.axis)⟩] else s.devq))

/-! ### Packets at their destination -/

/-- R409, R345: a WRITE packet without a step, or of the open step, lands at its address; one of the step after the open one leaves its
pool and is held, and a version write of its tile behind it too (the model's choice of where, assumption log 89). R322, R323: a READ of plain memory is answered with the bytes. R255: the bytes of a READ_DATA enter the transfer that asked, and a
failed one fails it. R256: a VFENCE packet writes its version word, after every write that its tile sent before it. R415: a receiver of a
multicast whose window has stalled for longer than LIMIT_NS is removed; once it may take packets again it is sent its catch-up descriptor. R403: 1 s after its first loss the interval
of a pigeonhole ends with one record of the losses. -/
def Obligations.StreamPacketsAndLoss : Prop :=
  (∀ (s : State) (i : Nat) (q : InPkt) (a n : Nat), s.fab.inq[i]? = some q → q.p.addr = a →
     (q.p.typ = tWRITE → fenceHeld s q = false → followsHeld s q.p = false → (q.p.step = 0 ∨ q.p.step = openStep s) → q.p.payload.length = n → mappedRange a n = true → RangeClean s a n →
       Answers (.write i) s fun u => u.fab.inq = removeAt s.fab.inq i ∧ (∀ k, memByte u k =
         if a ≤ k ∧ k < a + n then q.p.payload.getD (k - a) 0 else memByte s k)) ∧
     (q.p.typ = tWRITE → fenceHeld s q = false → q.p.step = openStep s + 1 → (∀ g ∈ s.upd.groups, g.2.lzy = false) →
       Answers (.write i) s fun u => u.fab.inq = removeAt s.fab.inq i ∧ u.fab.ahead = s.fab.ahead ++ [q.p] ∧ Counts s u (fUPD_EVENT_COUNT 3) 1 ∧
         OnlyFields s { u with fab := s.fab } [fUPD_EVENT_COUNT 3]) ∧
     ((q.p.typ = tWRITE ∧ q.p.step = 0 ∨ q.p.typ = tVFENCE) → fenceHeld s q = false → followsHeld s q.p = true →
       Answers (if q.p.typ = tWRITE then .write i else .vfence i) s fun u => u.fab.inq = removeAt s.fab.inq i ∧
         u.fab.ahead = s.fab.ahead ++ [q.p] ∧ u = { s with fab := u.fab }) ∧
     (q.p.typ = tREAD → leAt q.p.payload 0 2 = n → mappedRange a n = true → slotAt s a = none → RangeClean s a n →
       ∃ w, exec (.read i) s = .next (pump (ready w .system { blankPacket q.p.src tREADDATA with
           cls := 1, step := q.p.step, nf := q.p.nf, addr := a, id := q.p.id,
           payload := [0, 0, 0, 0, 0, 0, 0, 0] ++ memBytes s a n })) ∧
         w.fab.inq = removeAt s.fab.inq i ∧ w.fab.wait = s.fab.wait ∧ w = { s with fab := w.fab }) ∧
     (∀ t r k len off b, q.p.typ = tREADDATA → q.p.nf = false → s.mem.quadChange = [] → q.p.payload.length = 8 + len → leAt q.p.payload 0 1 = 0 → b = q.p.payload.drop 8 →
       t = q.p.id / 16777216 % 256 → k = q.p.id % 65536 → r.no % 128 = q.p.id / 65536 % 256 → r ∈ (s.tile t).str.run →
       (∀ x ∈ (s.tile t).str.run, x.no % 128 = r.no % 128 → x = r) → wMin r.e.word = 3 → wsOPT r.e.word = false → expectVer r = none →
       r.rr.step = 1 → r.rr.pend.find? (· % 65536 == k) = some k → (runSegs r)[k]? = some (a, len, off) → (runSegs r).length ≤ r.rr.next →
       Answers (.readData i) s fun u => u.fab.inq = removeAt s.fab.inq i ∧ MemSame s u ∧
         ∃ y ∈ (u.tile t).str.run, y.no = r.no ∧ y.e = r.e ∧ k ∉ y.rr.pend ∧ ∀ j, j < len → mget (fun _ => 0) y.rr.got (off + j) = b.getD j 0) ∧
     (∀ t r k, q.p.typ = tREADDATA → q.p.nf = false → leAt q.p.payload 0 1 ≠ 0 → leAt q.p.payload 0 1 ≠ cVERSION_SKEW →
       t = q.p.id / 16777216 % 256 → k = q.p.id % 65536 → r.no % 128 = q.p.id / 65536 % 256 → r ∈ (s.tile t).str.run →
       (∀ x ∈ (s.tile t).str.run, x.no % 128 = r.no % 128 → x = r) → wMin r.e.word = 3 → k ∈ r.rr.pend → r.fail = none →
       Answers (.readData i) s fun u => { r with fail := some (cREMOTE_FAIL, a) } ∈ (u.tile t).str.run ∧ MemSame s u) ∧
     (q.p.typ = tVFENCE → fenceHeld s q = false → followsHeld s q.p = false → mappedRange a 8 = true → RangeClean s a 8 →
       Answers (.vfence i) s fun u => u.fab.inq = removeAt s.fab.inq i ∧ (∀ k, memByte u k =
         if a ≤ k ∧ k < a + 8 then q.p.payload.getD (k - a) 0 else memByte s k)) ∧
     (q.p.typ = tWRITE ∨ q.p.typ = tVFENCE → fenceHeld s q = true → exec (.write i) s = .next s ∧ exec (.vfence i) s = .next s)) ∧
  (∀ (s : State),
     (∀ i m, s.mail.msgs[i]? = some m → m.mcast = true → m.state = .sending → stalled s m.stallFrom = true →
       (∀ x ∈ s.mail.msgs, x.no = m.no → x = m) →
       Answers (.mcStallRemove false i) s fun u =>
         u.mail.msgs = (s.mail.msgs.map fun x => if x = m then { m with state := .removed } else x) ∧
         getF u (fMBX_ERR_MC_REMOVED m.ph) = 1 ∧ Counts s u (fCMP_FAB_EVENT_COUNT 4) 1 ∧
         OnlyFields s { u with mail := s.mail } [fMBX_ERR_MC_REMOVED m.ph, fCMP_FAB_EVENT_COUNT 4]) ∧
     (∀ i c, s.mail.sends[i]? = some c → c.removed = false → c.gather = true → stalled s c.stallFrom = true →
       Answers (.mcStallRemove true i) s fun u => u.mail.sends = replaceAt s.mail.sends i { c with removed := true } ∧
         Counts s u (fCMP_FAB_EVENT_COUNT 4) 1 ∧ OnlyFields s { u with mail := s.mail } [fCMP_FAB_EVENT_COUNT 4]) ∧
     (∀ i m v, s.mail.msgs[i]? = some m → m.state = .removed → mayCatchUp s m = true → m.desc.length = 64 → (∀ x ∈ s.mail.msgs, x.no = m.no → x = m) →
       v = (if m.took then s else setCredit s m.ph m.dest (creditOf s m.ph m.dest - 1)) →
       Answers (.catchupSend false i) s fun u => MemSame s u ∧
         ∃ p, p.dest = m.dest ∧ p.typ = tMAIL ∧ bit (leAt p.payload 5 1) 3 = true ∧ leAt p.payload 0x10 8 = m.bulk % 2 ^ 64 ∧
           exec (.catchupSend false i) s = .next (pump (ready { v with mail := { v.mail with
             msgs := s.mail.msgs.map fun x =>
               if x = m then { m with state := .caughtUp, mailMade := true, took := true, flying := m.flying + 1 } else x } } (.mail m.ph m.no) p))) ∧
     (∀ (p : Ph) f, (phRt s p.val).lossFrom = some f → f + 1000000000 ≤ s.now → s.pm.evq.length < 1024 →
       Answers (.ringOverrunIntervalEnd p) s fun u =>
         (phRt u p.val).lossFrom = none ∧ (phRt u p.val).lossN = 0 ∧
         u.pm.evq = s.pm.evq ++ [⟨f, 0x64, 1, (phRt s p.val).lossSync, true, 9, (phRt s p.val).lossN, p.val, 0⟩] ∧
         u = { s with pm := u.pm, mail := u.mail }))

/-- R398, R407: the acknowledgement of a message's last packet completes the message; the endpoint acknowledges at most 64 packets at once.
R413: a marked acknowledgement cuts the send rate of its source, and a whole window without one raises it. R406, R407: a packet held too
long, or not acknowledged in time, is dropped, and the transfer that sent it fails. -/
def Obligations.AcknowledgementAndRates : Prop :=
  ∀ (s : State),
    (∀ i q o ph no m, s.fab.inq[i]? = some q → q.p.typ = tACK → ackItems q.p.payload = [(o.p.seq, false)] → o ∈ s.fab.out →
      s.fab.out.find? (fun x => x.p.dest == q.p.src && x.p.seq == o.p.seq) = some o → o.owner = .mail ph no → m ∈ s.mail.msgs → m.no = no →
      (∀ x ∈ s.mail.msgs, x.no = no → x = m) → m.state = .sending → m.mailMade = true → m.flying ≤ 1 → s.mem.quadChange = [] →
      Answers (.ack i) s fun u => MemSame s u ∧ ∀ x ∈ u.mail.msgs, x.no = no → x.state = .acked) ∧
    (∀ i q n d num, s.fab.inq[i]? = some q → q.p.typ = tACK → q.p.src = d → ackItems q.p.payload = [(n, true)] →
      (rateOf s d).lastCut = none → bitF s fCMP_CC_PIN_EN = false → num = (rateOf s d).num * (256 - getF s fCMP_CC_CTL_CUT) →
      2 ^ ((rateOf s d).sh + 8) ≤ num → s.mem.quadChange = [] →
      Answers (.ack i) s fun u => (rateOf u d).num = num ∧ (rateOf u d).sh = (rateOf s d).sh + 8 ∧ (rateOf u d).lastCut = some s.now ∧
        Counts s u (fCMP_FAB_EVENT_COUNT 2) 1 ∧ Counts s u (fCMP_FAB_EVENT_COUNT 3) 1 ∧ MemSame s u) ∧
    (∀ d num, bitF s fCMP_CC_PIN_EN = false → (rateOf s d).quietFrom + getF s fCMP_CC_CTL_WINDOW_US * 1000 ≤ s.now →
      num = (rateOf s d).num + getF s fCMP_CC_CTL_ADD * 2 ^ (rateOf s d).sh → num < 400 * 2 ^ (rateOf s d).sh →
      Answers (.rateWindow d) s fun u => (rateOf u d).num = num ∧ (rateOf u d).sh = (rateOf s d).sh ∧ (rateOf u d).quietFrom = s.now ∧
        MemSame s u) ∧
    (∀ d a, s.fab.acks.find? (fun x => x.src == d) = some a → (∀ x ∈ a.items, x.1 < 2 ^ 32) →
      ∃ p k, exec (.ackBatchSend d) s = .next (pump (ready { s with fab := { s.fab with acks := k } } .system p)) ∧
        p.dest = d ∧ p.typ = tACK ∧ p.cls = 1 ∧ ackItems p.payload = a.items.take 64 ∧
        (a.items.length ≤ 64 → ∀ x ∈ k, x.src ≠ d) ∧ ∀ x ∈ s.fab.acks, x.src ≠ d → x ∈ k) ∧
    (∀ hop i v o t no r, (hopSt s hop).tx[i]? = some v → v.heldFrom + getF s fCMP_FAB_LIMITS_HOLD_MS * 1000000 < s.now →
      s.fab.out.find? (fun x => x.p.dest == v.p.dest && x.p.seq == v.p.seq && x.p.src == v.p.src) = some o → o.owner = .stream t no →
      r ∈ (s.tile t).str.run → r.no = no → r.fail = none → s.mem.quadChange = [] →
      Answers (.heldDrop hop i) s fun u => Counts s u (fCMP_FAB_EVENT_COUNT 11) 1 ∧ MemSame s u ∧
        ∃ y ∈ (u.tile t).str.run, y.no = no ∧ y.e = r.e ∧ y.fail = some (cREMOTE_FAIL, o.p.addr)) ∧
    (∀ i o f t no r, s.fab.out[i]? = some o → o.sentAt = some f → f + getF s fCMP_FAB_LIMITS_E2E_US * 1000 ≤ s.now →
      (∀ x ∈ s.fab.out, x.p.dest = o.p.dest → x.p.seq = o.p.seq → x.p.src = o.p.src → x = o) → o.owner = .stream t no →
      r ∈ (s.tile t).str.run → r.no = no → r.fail = none → s.mem.quadChange = [] →
      Answers (.e2eTimeout i) s fun u => Counts s u (fCMP_FAB_EVENT_COUNT 11) 1 ∧ MemSame s u ∧
        ∃ y ∈ (u.tile t).str.run, y.no = no ∧ y.e = r.e ∧ y.fail = some (cREMOTE_FAIL, o.p.addr))

/-! ### The link layer and the timebase -/

/-- R431, R432, R433: a sync frame leaves on lane 0 of the lowest in-service port of its role, 1 ms after the last one, with the
half-nanosecond time and, from a parent, the stamp of the child's answer to its last one; the root counts it as its own exchange; a child answers
each frame once. A parent notes the stamp of a frame. A child notes both stamps of its parent's frame, and a frame that answers its own completes
the exchange: the offset of the four stamps stands in CMP_TB_STATUS; the first one of all steps the timebase by it while CMP_PHASE.VALID is 0, and any
other moves the rate correction, of at most 50 ppm, against it. When no frame was accepted for 10 ms the lock is lost, with an error bit and a record. -/
def Obligations.TimebaseSync : Prop :=
  (∀ (s : State) (p : Port) (role : Nat) (k : SyncLink), discovered s = true → lowestPort s p.val = true → portRole s p.val = role →
     syncLink s role = k →
     (∀ lvl, syncLevel s = some lvl → syncPart s role ≠ .none → (syncPart s role = .child → k.heard = true ∧ k.t3 = none) →
       (∀ f, k.sentAt = some f → f + 1000000 ≤ s.now) →
       Answers (.syncExchange p) s fun u =>
         UnitSent s u p.val 0 5 0 (toBytes 8 (2 * s.now) ++ toBytes 8 (if syncPart s role = .parent then k.got else 0)) ∧
         syncLink u role = { k with
           sentAt := some s.now, t3 := if syncPart s role = .child then some (2 * s.now) else k.t3
           got := if syncPart s role = .parent then 0 else k.got } ∧
         getF u fCMP_TB_STATUS_ROOT = (if lvl = 0 then 1 else 0) ∧ getF u fCMP_TB_STATUS_LEVEL = lvl ∧
         (lvl = 0 → u.fab.syncAt = some s.now ∧ getF u fCMP_TB_STATUS_LOCKED = 1) ∧
         (lvl ≠ 0 → u.fab.syncAt = s.fab.syncAt ∧ getF u fCMP_TB_STATUS_LOCKED = getF s fCMP_TB_STATUS_LOCKED) ∧
         OnlyFields s { u with wire := s.wire, fab := s.fab } [fCMP_TB_STATUS_ROOT, fCMP_TB_STATUS_LEVEL, fCMP_TB_STATUS_LOCKED]) ∧
     (∀ f, k.sentAt = some f → s.now < f + 1000000 → exec (.syncExchange p) s = .next s) ∧
     (syncPart s role = .child → (k.heard = false ∨ k.t3 ≠ none) → exec (.syncExchange p) s = .next s) ∧
     (∀ (l : Lane) ns half t2 v s1, l.val = 0 → t2 = 2 * ns + half.toNat → takeUnit s p.val l.val 5 = some (v, s1) →
       (syncPart s role = .parent → Answers (.sync p l ns half) s fun u => syncLink u role = { k with got := t2 } ∧ u.now = s.now ∧
         OnlyFields s { u with fab := s.fab } [fCMP_TB_STATUS_ROOT, fCMP_TB_STATUS_LEVEL]) ∧
       (syncPart s role = .child → leadsToParent s p.val = true → Answers (.sync p l ns half) s fun u =>
         ((k.t3 = none ∨ leAt v.body 8 8 = 0 ∨ s.fab.syncFirst = false) →
           syncLink u role = { k with t1 := leAt v.body 0 8, t2 := t2, heard := true, t3 := none }) ∧
         ((k.t3 = none ∨ leAt v.body 8 8 = 0) → u.now = s.now ∧ u.fab.syncAt = s.fab.syncAt ∧ u.fab.rate = s.fab.rate) ∧
         (∀ t3 off2 off, k.t3 = some t3 → leAt v.body 8 8 ≠ 0 →
           off2 = (((k.t2 : Int) - k.t1) - ((leAt v.body 8 8 : Int) - t3)) / 2 → off = off2 / 2 →
           getF u fCMP_TB_STATUS_LOCKED = 1 ∧ (-32768 ≤ off → off ≤ 32767 → getF u fCMP_TB_STATUS_OFFSET = (off % 65536).toNat) ∧
           u.fab.syncAt = some u.now ∧ u.fab.syncFirst = false ∧
           (s.fab.syncFirst = true → bitF s fCMP_PHASE_VALID = false → (off ≤ s.now → (u.now : Int) = s.now - off) ∧ u.fab.rate = s.fab.rate ∧
             (∀ f, k.sentAt = some f → (syncLink u role).sentAt = some ((f : Int) - off).toNat)) ∧
           (s.fab.syncFirst = false ∨ bitF s fCMP_PHASE_VALID = true → u.now = s.now ∧ -50000 ≤ u.fab.rate ∧ u.fab.rate ≤ 50000 ∧
             (0 < off2 → u.fab.rate < s.fab.rate ∨ u.fab.rate = -50000) ∧ (off2 < 0 → s.fab.rate < u.fab.rate ∨ u.fab.rate = 50000) ∧
             (off2 = 0 → -50000 ≤ s.fab.rate → s.fab.rate ≤ 50000 → u.fab.rate = s.fab.rate))) ∧
         OnlyFields s { u with now := s.now, fab := s.fab, free := s.free }
           [fCMP_TB_STATUS_ROOT, fCMP_TB_STATUS_LEVEL, fCMP_TB_STATUS_LOCKED, fCMP_TB_STATUS_OFFSET]))) ∧
  (∀ (s : State) f, s.fab.syncAt = some f → f + 10000000 ≤ s.now → s.pm.evq.length < 1024 →
     Answers .syncLost s fun u => getF u fCMP_TB_STATUS_LOCKED = 0 ∧ getF u fCMP_FAB_ERR_SYNC_LOST = 1 ∧
       (∃ r, u.pm.evq = s.pm.evq ++ [r] ∧ r.status = 0x68 ∧ r.time = s.now ∧ r.synced = false) ∧
       (∀ j, u.tile j = s.tile j) ∧ u.mem = s.mem ∧ u.fab = { s.fab with syncAt := none })

/-- R438: an uncorrectable codeword is counted, and the fourth in a row loses codeword lock; a correct one, or one of at most 8 symbol
errors, counts its corrected symbols, and the eighth in a row gives codeword lock. R440, R441, R374, R452: a PACKET unit is delivered at
most once by its LSEQ: one for this module enters an ingress pool with its arrival stamp, where the pool has room, and one that has come
before is discarded and acknowledged again; under a twin MISMATCH the twin port takes none. A LINK_ACK frees the units below its CUM, and the receiver returns one. An unacknowledged unit is resent 4 µs after its last send. An identity
unit marks its lane. R437, R438: the four levels stand for the pairs 00, 01, 11 and 10; the symbols of a codeword come back from its levels; and the
codeword of 320 payload bytes has 272 symbols of 10 bits, begins with the payload and leaves the receiver its payload again. -/
def Obligations.LinkTraffic : Prop :=
  (∀ (s : State) (e : Eng) (l : Lane) (cw : List (Fin 4)) (w : List Nat) (r : LaneRt), laneRt s e.val l.val = r →
     w = levelSymbols cw →
     (fecErrors w = none → Answers (.codewordReceive e l cw) s fun u =>
       (laneRt u e.val l.val).good = 0 ∧ (laneRt u e.val l.val).bad = r.bad + 1 ∧
       (laneRt u e.val l.val).cwLock = (r.cwLock && decide (r.bad + 1 < 4)) ∧ s.now ∈ (laneRt u e.val l.val).uncorr ∧
       (∀ x y, laneKey x y ≠ laneKey e.val l.val → laneRt u x y = laneRt s x y) ∧ Counts s u (fOPT_LINK_EVENT_COUNT 2) 1 ∧
       OnlyFields s { u with fab := s.fab } [fOPT_LINK_EVENT_COUNT 2, fOPT_LINK_EVENT_COUNT 4]) ∧
     (∀ d, fecErrors w = some d → Answers (.codewordReceive e l cw) s fun u =>
       (laneRt u e.val l.val).good = r.good + 1 ∧ (laneRt u e.val l.val).bad = 0 ∧
       (laneRt u e.val l.val).cwLock = (r.cwLock || decide (8 ≤ r.good + 1)) ∧ (laneRt u e.val l.val).uncorr = r.uncorr ∧
       (∀ x y, laneKey x y ≠ laneKey e.val l.val → laneRt u x y = laneRt s x y) ∧ Counts s u (fOPT_LINK_EVENT_COUNT 3) d.length ∧
       OnlyFields s { u with fab := s.fab } [fOPT_LINK_EVENT_COUNT 3, fOPT_LINK_EVENT_COUNT 4])) ∧
  (∀ (s s1 : State) (e : Eng) (l : Lane) (v : LinkUnit),
     (∀ k p, takeUnit s e.val l.val 1 = some (v, s1) → v.lseq < 2 ^ 24 → laneHop s e.val l.val = some k → packetOf v.body = some p →
       (k = 130 → getF s fOPT_TWIN_TSTATE = 2 → exec (.packet e l) s = .next s1) ∧
       (∀ h, takeSeq (hopSt s k) v.lseq = some h → ¬ (k = 130 ∧ getF s fOPT_TWIN_TSTATE = 2) → poolFull s k e.val p = true →
         exec (.packet e l) s = .next s) ∧
       (∀ h, takeSeq (hopSt s k) v.lseq = some h → ¬ (k = 130 ∧ getF s fOPT_TWIN_TSTATE = 2) → poolFull s k e.val p = false →
         k = 130 ∨ physOf s p.dest = ownPhys s →
         Answers (.packet e l) s fun u => u.fab.inq = s.fab.inq ++ [⟨e.val, s.now, p⟩] ∧ hopSt u k = h ∧
           takeSeq h v.lseq = none ∧ u = { s with fab := u.fab }) ∧
       (takeSeq (hopSt s k) v.lseq = none → ¬ (k = 130 ∧ getF s fOPT_TWIN_TSTATE = 2) → Answers (.packet e l) s fun u =>
         u.fab.inq = s.fab.inq ∧ hopSt u k = { hopSt s k with unacked := true } ∧ Counts s u (fOPT_LINK_EVENT_COUNT 6) 1 ∧ OnlyFields s { u with fab := s.fab } [fOPT_LINK_EVENT_COUNT 6])) ∧
     (∀ k, takeUnit s e.val l.val 2 = some (v, s1) → laneHop s e.val l.val = some k → leAt v.body 4 8 = 0 → (hopSt s k).tx.all (·.lseq.isSome) = true → s.fab.wait = [] →
       Answers (.linkAck e l) s fun u =>
         (∀ x ∈ (hopSt s k).tx, ∀ q, x.lseq = some q →
           ((∃ y ∈ (hopSt u k).tx, y.lseq = some q) ↔ ∃ y ∈ (hopSt s k).tx, y.lseq = some q ∧
             (q + 2 ^ 24 - leAt v.body 0 4 % 2 ^ 24) % 2 ^ 24 < 2 ^ 23)) ∧ u.csr = s.csr ∧ MemSame s u) ∧
     (∀ k a r, (hopSt s k).unacked = true → lanesTo s k = a :: r → (∀ n ∈ (hopSt s k).got, n ≤ (hopSt s k).cum) →
       Answers (.linkAckSend k) s fun u =>
         UnitSent s u a.1 a.2 2 0 (toBytes 4 ((hopSt s k).cum % 2 ^ 24) ++ toBytes 8 0) ∧
         hopSt u k = { hopSt s k with unacked := false, ackedAt := s.now } ∧ u = { s with wire := u.wire, fab := u.fab }) ∧
     (∀ k i x q f a r, (hopSt s k).tx[i]? = some x → x.lseq = some q → x.sentAt = some f → f + 4000 ≤ s.now → lanesTo s k = a :: r →
       Answers (.linkReplay k i) s fun u =>
         (∃ c ∈ a :: r, UnitSent s u c.1 c.2 1 q x.p.bytes ∧
           (hopSt u k).tx[i]? = some { x with sentAt := some s.now, port := c.1, shown := none }) ∧
         Counts s u (fOPT_LINK_EVENT_COUNT 5) 1 ∧ OnlyFields s { u with wire := s.wire, fab := s.fab } [fOPT_LINK_EVENT_COUNT 5]) ∧
     (takeUnit s e.val l.val 3 = some (v, s1) →
       Answers (.identity e l) s fun u => (laneRt u e.val l.val).identity = true ∧
         laneRt u e.val l.val = { laneRt s1 e.val l.val with identity := true } ∧ u = { s with fab := u.fab })) ∧
  (pamLevel 0 = 0 ∧ pamLevel 1 = 1 ∧ pamLevel 3 = 2 ∧ pamLevel 2 = 3 ∧ ∀ v, pamLevel (pamBits v) = v) ∧
  (∀ w : List Nat, w.length = 272 → (∀ x ∈ w, x < 1024) → (cwLevels w).length = 1360 ∧ levelSymbols (cwLevels w) = w) ∧
  (∀ b : List Byte, b.length = 320 → (fecEncode b).length = 272 ∧ (∀ x ∈ fecEncode b, x < 1024) ∧ fecPayload (fecEncode b) = b)

/-! ### The vector engine -/

/-- R176, R180 to R182: the arithmetic instructions of MAJ 0x18 in the BFX personality. Each lane is computed exactly, and `pack` rounds the
block at the exponent of the table. R202, R203: in the reference personality an active lane takes the FP32 pattern of the operation on the
lanes' patterns, an inactive one keeps its own; an instruction that the personality does not have aborts the task. -/
def Obligations.VectorArithmetic : Prop :=
  (∀ (s s1 : State) (t : Tid) (h : QEntry), VecIdle (s.tile t) 0 →
     (bcastFault (s.tile t) h = none →
       (Starts s t .vector 0x18 0x00 h s1 → VecBlocks (.vadd t .ok) s s1 t h (ofTwo s t h (lanes2 dyAdd maxE))) ∧
       (Starts s t .vector 0x18 0x01 h s1 → VecBlocks (.vsub t .ok) s s1 t h (ofTwo s t h (lanes2 (fun p q => dyAdd p (-q.1, q.2)) maxE))) ∧
       (Starts s t .vector 0x18 0x1B h s1 → VecBlocks (.vrsub t .ok) s s1 t h (ofTwo s t h (lanes2 (fun p q => dyAdd q (-p.1, p.2)) maxE))) ∧
       (Starts s t .vector 0x18 0x02 h s1 →
         VecBlocks (.vmul t .ok) s s1 t h (ofTwo s t h (lanes2 dyMul fun a b => (a.e : Int) + b.e - 156))) ∧
       (Starts s t .vector 0x18 0x03 h s1 →
         VecBlocks (.vmulh t .ok) s s1 t h (ofTwo s t h (lanes2 dyMul fun a b => (a.e : Int) + b.e - 127))) ∧
       (Starts s t .vector 0x18 0x05 h s1 →
         VecBlocks (.vmin t .ok) s s1 t h (ofTwo s t h (lanes2 (fun p q => if dyLt q p then q else p) maxE))) ∧
       (Starts s t .vector 0x18 0x06 h s1 →
         VecBlocks (.vmax t .ok) s s1 t h (ofTwo s t h (lanes2 (fun p q => if dyLt p q then q else p) maxE))) ∧
       (Starts s t .vector 0x18 0x16 h s1 →
         VecBlocks (.valign t .ok) s s1 t h (ofTwo s t h fun act a b => pack act (dyads a) b.e))) ∧
     (Starts s t .vector 0x18 0x07 h s1 → VecBlocks (.vabs t .ok) s s1 t h
       (ofOne s t h fun act a => pack act ((dyads a).map fun p => ((p.1.natAbs : Int), p.2)) a.e)) ∧
     (Starts s t .vector 0x18 0x08 h s1 → VecBlocks (.vneg t .ok) s s1 t h
       (ofOne s t h fun act a => pack act ((dyads a).map fun p => (-p.1, p.2)) a.e)) ∧
     (Starts s t .vector 0x18 0x15 h s1 → VecBlocks (.vscale t .ok) s s1 t h
       (ofOne s t h fun act a => pack act ((dyads a).map fun p => (p.1, p.2 + sx 6 (wIMM6 h.word))) (a.e + sx 6 (wIMM6 h.word)))) ∧
     (Starts s t .vector 0x18 0x17 h s1 → VecBlocks (.vnorm t .ok) s s1 t h
       (ofOne s t h fun act a => toBfx (maskVals act ((List.range 32).map a.val))))) ∧
  (∀ (s s1 : State) (t : Tid) (h : QEntry), VecIdle (s.tile t) 1 →
     (∀ (min : Nat) (i : Instr) (f : Nat → Nat → Nat → Nat), bcastFault (s.tile t) h = none →
       (min = 0x00 ∧ i = .vadd t .ok ∧ (f = fun a b _ => refAdd a b 0 false) ∨ min = 0x01 ∧ i = .vsub t .ok ∧ (f = fun a b _ => refAdd a (negPat b) 0 false) ∨
         min = 0x1B ∧ i = .vrsub t .ok ∧ (f = fun a b _ => refAdd b (negPat a) 0 false) ∨
         min = 0x02 ∧ i = .vmul t .ok ∧ (f = fun a b _ => rn32v ((f32v a).mul (f32v b))) ∨
         min = 0x04 ∧ i = .vfma t .ok ∧ (f = fun a b d => refFma a b d false) ∨
         min = 0x05 ∧ i = .vmin t .ok ∧ (f = fun a b _ => refMin a b 0 false) ∨ min = 0x06 ∧ i = .vmax t .ok ∧ (f = fun a b _ => refMax a b 0 false)) →
       Starts s t .vector 0x18 min h s1 →
       Answers i s fun u => VecDone s1 u t h ∧ ∀ b l, b < 2 → l < 32 → (s.tile t).vec.r.hasActive (wKM h.word) b = true →
         ((u.tile t).vec.r.blk (wVD h.word) b).b.m.getD l 0 =
           if (s.tile t).vec.r.active (wKM h.word) b l then
             sgn32 (f (lanePat (vGet (s.tile t) (wVA h.word) b) l) (lanePat (bOperand (s.tile t) h b) l)
               (lanePat ((s.tile t).vec.r.blk (wVD h.word) b) l))
           else ((s.tile t).vec.r.blk (wVD h.word) b).b.m.getD l 0) ∧
     (∀ (min : Nat) (i : Instr), (min = 0x03 ∧ i = .vmulh t .ok ∨ min = 0x07 ∧ i = .vabs t .ok ∨ min = 0x17 ∧ i = .vnorm t .ok) →
       Starts s t .vector 0x18 min h s1 →
       Answers i s fun u => (u.tile t).aborting = true ∧ getF u (fTILE_TRAP_CAUSE_UNIT t) = 2 ∧ getF u (fTILE_TRAP_CAUSE_CODE t) = cVEC_PERSONALITY ∧
         (u.tile t).vec.r = (s.tile t).vec.r))

/-- R182, R187, R189, R190: the logical operations, shifts, selections and moves of MAJ 0x18, and the seeds and reductions of MAJ 0x1A, in
the BFX personality. R176, R182: a comparison leaves one mask bit for each lane, 0 where the lane is inactive or an operand is non-finite; a
mask operation works on all 64 bits. -/
def Obligations.VectorLogicReductionsMasks : Prop :=
  (∀ (s s1 : State) (t : Tid) (h : QEntry) (r : VecRegs) (n : Nat), VecIdle (s.tile t) 0 → (s.tile t).vec.r = r → wIMM6 h.word = n →
     (bcastFault (s.tile t) h = none →
       (Starts s t .vector 0x18 0x09 h s1 → VecBlocks (.vand t .ok) s s1 t h (ofTwo s t h (bits2 (· &&& ·)))) ∧
       (Starts s t .vector 0x18 0x0A h s1 → VecBlocks (.vor t .ok) s s1 t h (ofTwo s t h (bits2 (· ||| ·)))) ∧
       (Starts s t .vector 0x18 0x0B h s1 → VecBlocks (.vxor t .ok) s s1 t h (ofTwo s t h (bits2 (· ^^^ ·)))) ∧
       (Starts s t .vector 0x18 0x0C h s1 → VecBlocks (.vandn t .ok) s s1 t h (ofTwo s t h (bits2 fun p q => p &&& (0xFFFFFFFF - q)))) ∧
       (Starts s t .vector 0x18 0x13 h s1 → VecBlocks (.vsel t .ok) s s1 t h fun b => ofTwo s t h (fun act x y =>
         pack act ((List.range 32).map fun i => (if (r.mask (n % 8)).getLsbD (32 * b + i) then dyads x else dyads y).getD i (0, 0)) (maxE x y)) b)) ∧
     (Starts s t .vector 0x18 0x0D h s1 → VecBlocks (.vshl t .ok) s s1 t h (ofOne s t h (shiftBlk (· * 2 ^ (n % 32))))) ∧
     (Starts s t .vector 0x18 0x0E h s1 → VecBlocks (.vsra t .ok) s s1 t h (ofOne s t h (shiftBlk fun m => Int.fdiv m (2 ^ (n % 32))))) ∧
     (Starts s t .vector 0x18 0x0F h s1 →
       VecBlocks (.vsrr t .ok) s s1 t h (ofOne s t h (shiftBlk fun m => rneScaleInt m (-((n % 32 : Nat) : Int))))) ∧
     (Starts s t .vector 0x18 0x14 h s1 → VecBlocks (.vmov t .ok) s s1 t h (ofOne s t h fun act a => (maskBlk act a, false))) ∧
     (Starts s t .vector 0x1A 0x04 h s1 →
       VecBlocks (.vsplat t .ok) s s1 t h (ofOne s t h fun act a => (maskBlk act ⟨a.e, List.replicate 32 (a.m.getD (n % 32) 0)⟩, false))) ∧
     (Starts s t .vector 0x1A 0x01 h s1 → VecBlocks (.vseed t .ok) s s1 t h (ofOne s t h fun act a =>
       toBfx ((List.range 32).map fun i => if act.getD i false then
         (match seedOne (n % 4) (a.m.getD i 0) a.e with | some p => .fin (decide (p.1 < 0)) p.1.natAbs p.2 | none => .nan) else .fin false 0 0))) ∧
     (∀ (span : Nat → List Nat) (ls : Nat → List (Int × Int)),
       (span = fun b => if n % 2 = 1 then r.blocks (wKM h.word) else [b]) →
       (ls = fun b => (span b).flatMap fun c =>
         ((List.range 32).filter (r.active (wKM h.word) c)).map fun i => (dyads (vecA s t h c)).getD i (0, 0)) →
       (Starts s t .vector 0x1A 0x02 h s1 → VecBlocks (.vrsum t .ok) s s1 t h fun b =>
         if (span b).any fun c => (vecA s t h c).isNonfin then (.nonfinite, false) else
         toBfx (maskVals (vecAct s t h b) (List.replicate 32
           (.fin (decide (((ls b).foldl dyAdd (0, 0)).1 < 0)) ((ls b).foldl dyAdd (0, 0)).1.natAbs ((ls b).foldl dyAdd (0, 0)).2)))) ∧
       (Starts s t .vector 0x1A 0x03 h s1 → VecBlocks (.vrmax t .ok) s s1 t h fun b =>
         if (span b).any fun c => (vecA s t h c).isNonfin then (.nonfinite, false) else
         pack (vecAct s t h b) (List.replicate 32
           (match (ls b).map (fun p => if bit n 1 then ((p.1.natAbs : Int), p.2) else p) with | [] => (0, 0) | p :: l => l.foldl dyMax p))
           ((span b).foldl (fun e c => max e ((vecA s t h c).e : Int)) 0)))) ∧
  (∀ (s s1 : State) (t : Tid) (h : QEntry) (r : VecRegs), VecIdle (s.tile t) 0 → (s.tile t).vec.r = r →
     (∀ (min : Nat) (i : Instr) (p : Int × Int → Int × Int → Prop),
       (min = 0x10 ∧ i = .vcmplt t .ok ∧ (p = fun x y => dyLt x y = true) ∨ min = 0x11 ∧ i = .vcmple t .ok ∧ (p = fun x y => dyLt y x = false) ∨
         min = 0x12 ∧ i = .vcmpeq t .ok ∧ (p = fun x y => dyLt x y = false ∧ dyLt y x = false)) →
       Starts s t .vector 0x18 min h s1 → bcastFault (s.tile t) h = none → r.vl ≠ 0 →
       ∃ v : Word, VecMask i s s1 t h v ∧ ∀ j, j < 64 → (v.getLsbD j = true ↔
         r.active (wKM h.word) (j / 32) (j % 32) = true ∧ (vecA s t h (j / 32)).isNonfin = false ∧ (vecB s t h (j / 32)).isNonfin = false ∧
         p ((dyads (vecA s t h (j / 32))).getD (j % 32) (0, 0)) ((dyads (vecB s t h (j / 32))).getD (j % 32) (0, 0)))) ∧
     (Starts s t .vector 0x18 0x18 h s1 → VecMask (.vkand t .ok) s s1 t h (r.mask (wVA h.word) &&& r.mask (wVB h.word))) ∧
     (Starts s t .vector 0x18 0x19 h s1 → VecMask (.vkor t .ok) s s1 t h (r.mask (wVA h.word) ||| r.mask (wVB h.word))) ∧
     (Starts s t .vector 0x18 0x1A h s1 → VecMask (.vkxor t .ok) s s1 t h (r.mask (wVA h.word) ^^^ r.mask (wVB h.word))))

/-- R193, R194, R203: in operand-cache mode a field below 8 names the 128 mantissa bytes at its pointer and the exponent byte at the pointer
8 above; VMOV reads and writes them there, and with PINC each such field's pointers move on by 256 and 2. R111 to R113, R177, R178, R201:
WRSP writes VL, VMODE, BSTAT or a pointer where the value is one it may hold, and aborts the task with BAD_OPERAND otherwise; RDSP reads one
into its s register and the core goes on. -/
def Obligations.VectorPointersAndSpecialRegisters : Prop :=
  (∀ (s s1 : State) (t : Tid) (h : QEntry) (r : VecRegs) (vd va p q : Nat) (g : Nat → Blk), (s.tile t).vec.win = none → (s.tile t).vec.out = [] →
     (s.tile t).vec.r = r → wVD h.word = vd → wVA h.word = va → vd < 8 → va < 8 → r.ptr vd = p → r.ptr (vd + 8) = q →
     Starts s t .vector 0x18 0x14 h s1 → ocFault (s.tile t) va (r.blocks (wKM h.word)) false = none →
     ocFault (s.tile t) vd (r.blocks (wKM h.word)) true = none → (g = fun b => (ofOne s t h (fun act a => (maskBlk act a, false)) b).1) →
     (∀ b, vecA s t h b = bfxOf (ocBytes (s.tile t) (r.ptr va + 128 * b) 128) (leAt (ocBytes (s.tile t) (r.ptr (va + 8) + b) 1) 0 1)) →
     (r.vmode = 2 ∨ r.vmode = 6) →
     Answers (.vmov t .ok) s fun u => VecDone s1 u t h ∧ (u.tile t).vec.r.v = r.v ∧ (u.tile t).vec.r.k = r.k ∧
       (u.tile t).oc = ((r.blocks (wKM h.word)).foldl (fun x b =>
         ocPut (ocPut x (p + 128 * b) (bfxBytes (g b))) (q + b) (toBytes 1 (g b).e)) (s.tile t)).oc ∧
       (∀ n, n < 16 → (u.tile t).vec.r.ptr n =
         if r.vmode = 6 ∧ r.vl ≠ 0 ∧ (n = vd ∨ n = va) then (r.ptr n + 256) % 2 ^ 21
         else if r.vmode = 6 ∧ r.vl ≠ 0 ∧ (n = vd + 8 ∨ n = va + 8) then (r.ptr n + 2) % 2 ^ 21 else r.ptr n)) ∧
  (∀ (s s1 : State) (t : Tid) (h : QEntry) (r : VecRegs) (n v : Nat), (s.tile t).vec.win = none → (s.tile t).vec.out = [] →
     (s.tile t).vec.r = r → r.bstat < 4 → wSYS h.word = n →
     (Starts s t .vector 0x32 0x01 h s1 → capS h (wSA h.word) = v →
       (∀ w, (n = 0x800 ∧ v ≤ 64 ∧ w = { r with vl := v } ∨
           n = 0x801 ∧ v < 8 ∧ (v % 2 = 1 → bit (featureEff s) featREFPERS = true ∧ getF s (fTILE_VEC_REFEN_REASON t) ≠ 0) ∧ w = { r with vmode := v } ∨
           n = 0x802 ∧ v < 4 ∧ w = { r with bstat := v } ∨ ∃ k, k < 16 ∧ n = 0x810 + k ∧ v < 2 ^ 21 ∧ w = r.setPtr k v) →
         Answers (.wrsp t) s fun u => VecDone s1 u t h ∧ (u.tile t).vec.r = w ∧ (u.tile t).oc = (s.tile t).oc) ∧
       ((n = 0x800 ∧ 64 < v ∨ n = 0x801 ∧ 8 ≤ v ∨ n = 0x802 ∧ 4 ≤ v ∨ 0x810 ≤ n ∧ 2 ^ 21 ≤ v) →
         Answers (.wrsp t) s fun u => (u.tile t).aborting = true ∧ getF u (fTILE_TRAP_CAUSE_UNIT t) = 2 ∧
           getF u (fTILE_TRAP_CAUSE_CODE t) = cBAD_OPERAND ∧ getF u (fTILE_TRAP_INFO_INFO t) = v % 2 ^ 64 ∧ (u.tile t).vec.r = r)) ∧
     (Starts s t .vector 0x32 0x02 h s1 →
       (n = 0x800 ∧ v = r.vl ∨ n = 0x801 ∧ v = r.vmode ∨ n = 0x802 ∧ v = r.bstat ∨ ∃ k, n = 0x810 + k ∧ v = r.ptr k) →
       Answers (.rdsp t) s fun u => (u.tile t).rdspWait = false ∧ (u.tile t).vec.queue = (s1.tile t).vec.queue.tail ∧ (u.tile t).vec.r = r ∧
         (∀ k, readS (u.tile t) k = if k = wSD h.word ∧ k ≠ 0 then BitVec.ofNat 64 v else readS (s.tile t) k) ∧
         (∀ j, j ≠ t.val → u.tile j = s.tile j) ∧ u = { s with tiles := u.tiles }))

/-- R188, R196, R198, R199: VRDACC reads the values of a row or column of a verified tile; of an UNVERIFIED tile it opens a window and its
blocks are poisoned. While a window is open an instruction joins its replay buffer and its signal waits. After a failed verification and
its recompute the replay buffer is executed again from the shadow, and what had to wait of it goes on later. -/
def Obligations.VerificationWindow : Prop :=
  ∀ (s s1 : State) (t : Tid) (h : QEntry) (r : VecRegs) (a : Nat), (s.tile t).vec.out = [] → (s.tile t).vec.r = r → r.vmode = 0 →
    (s.tile t).regBad = [] →
    (∀ v (g : Nat → Blk × Bool), Starts s t .vector 0x1A 0x00 h s1 → a = wIMM6 h.word % 2 → capS h (wSS h.word) = v → v < 256 →
      (s.tile t).vec.win = none → (s.tile t).fill.bound ≠ some a → (s.tile t).mat.run = [] → a ∉ (s.tile t).mat.recompute →
      (g = fun b => toBfx (maskVals (vecAct s t h b) ((List.range 32).map fun i => f32v
        (if bit (wIMM6 h.word) 1 then ((s.tile t).acc a).elem (64 * (bit v 7).toNat + 32 * b + i) (v % 128)
          else ((s.tile t).acc a).elem (v % 128) (64 * (bit v 7).toNat + 32 * b + i)).value))) →
      (((s.tile t).acc a).unverified = false → VecBlocks (.vrdacc t .ok) s s1 t h g) ∧
      (((s.tile t).acc a).unverified = true → Answers (.vrdacc t .ok) s fun u =>
        Counts s u (fTILE_VEC_WINDOWS_OPENED t) 1 ∧
        (∃ w, (u.tile t).vec.win = some w ∧ w.shadow = r ∧ w.replay = [h] ∧ w.accs = [a] ∧ w.failed = false ∧ w.held = []) ∧
        (∀ b, b < 2 → r.hasActive (wKM h.word) b = true → (u.tile t).vec.r.blk (wVD h.word) b = ⟨(g b).1, true⟩) ∧
        (u.tile t).tk = (s1.tile t).tk ∧ u.mem = s.mem)) ∧
    (∀ w, Starts s t .vector 0x18 0x14 h s1 → (s.tile t).vec.win = some w → w.failed = false → w.replay.length < 256 → heldBytes w < 65536 →
      Answers (.vmov t .ok) s fun u => (u.tile t).tk = (s1.tile t).tk ∧ u.mem = s.mem ∧ (u.tile t).oc = (s.tile t).oc ∧
        (∃ w', (u.tile t).vec.win = some w' ∧ w'.replay = w.replay ++ [h] ∧ w'.shadow = w.shadow ∧ w'.held = w.held ∧
          w'.sigs = w.sigs ++ (if wSE h.word then [(wSTK h.word, h.pc)] else [])) ∧
        ∀ b, b < 2 → r.hasActive (wKM h.word) b = true → (u.tile t).vec.r.blk (wVD h.word) b =
          ⟨(ofOne s t h (fun act x => (maskBlk act x, false)) b).1,
            r.maskPoison (wKM h.word) || (r.blk (wVA h.word) b).poison⟩) ∧
    (∀ w, isLive s t = true → clkRuns s t = true → (s.tile t).vec.redo = [] → (s.tile t).vec.win = some w → w.failed = true →
      (s.tile t).mat.recompute = [] → (∀ n ∈ w.accs, ((s.tile t).acc n).unverified = false ∧ accWriting (s.tile t) n = false) →
      ∃ v, exec (.windowReplay ⟨t, .ok⟩) s = .next (replayGo v t .ok w.replay) ∧ Counts s v (fTILE_VEC_WINDOWS_REPLAYS t) 1 ∧
        TileBecomes { s with csr := v.csr } v t
          { s.tile t with vec := { (s.tile t).vec with r := w.shadow, win := none, busyAt := s.now } } ∧
        FieldsKept s v [fTILE_VEC_WINDOWS_REPLAYS t]) ∧
    (isLive s t = true → clkRuns s t = true → (s.tile t).vec.redo ≠ [] →
      exec (.windowReplay ⟨t, .ok⟩) s = .next (replayGo s t .ok (s.tile t).vec.redo))

/-- R183 to R186, R89, R93: VLD of device memory leaves its registers alone until its data returns, and then writes every block with an
active lane; VST holds its bytes until they become visible, and its signal follows them. From the operand cache both act at once. -/
def Obligations.VectorMemory : Prop :=
  ∀ (s s1 : State) (t : Tid) (h : QEntry) (r : VecRegs) (bl : List Nat), (s.tile t).vec.win = none → (s.tile t).vec.r = r →
    r.bstat < 4 → bl = r.blocks (wmKM h.word) → (s.tile t).regBad = [] →
    (∀ l, Starts s t .vector 0x19 0x00 h s1 → (s.tile t).vec.out = [] → vmFault (s.tile t) h bl false = none → bl ≠ [] →
      l = (⟨wVD h.word, wFA h.word, bl.map (vmBlk h), r.act (wmKM h.word) 0 ++ r.act (wmKM h.word) 1, r.pers,
        r.maskPoison (wmKM h.word), 0, false⟩ : VLoad) →
      (wmOC h.word = false → Answers (.vld t .ok) s fun u =>
        (u.tile t).vec.out = [⟨h.pc, sigOf h, .load l⟩] ∧ (u.tile t).vec.r = r ∧ (u.tile t).tk = (s1.tile t).tk ∧ u.mem = s.mem) ∧
      (wmOC h.word = true → ocUe (s.tile t) (l.blks.flatMap fun k => [(k.addr, k.len), (k.saddr, k.slen)]) = none →
        Answers (.vld t .ok) s fun u => VecDone s1 u t h ∧ (u.tile t).oc = (s.tile t).oc ∧
          (u.tile t).vec.r = putLoaded r l.dest (loadBlocks r l fun a n => ocBytes (s.tile t) a n))) ∧
    (∀ pc sig l, isLive s t = true → (s.tile t).vec.out = [⟨pc, sig, .load l⟩] →
      (∀ k ∈ l.blks, LinesFine s k.addr k.len ∧ LinesFine s k.saddr k.slen) →
      Answers (.vectorLoadReturn t 0) s fun u => (u.tile t).vec.out = [] ∧
        (u.tile t).vec.r = putLoaded r l.dest (loadBlocks r l fun a n => memBytes s a n) ∧ MemSame s u ∧
        ∀ j, tkCount (u.tile t) j =
          if sig = some j ∧ tkCount (s.tile t) j < 65535 then tkCount (s.tile t) j + 1 else tkCount (s.tile t) j) ∧
    (∀ ws, Starts s t .vector 0x19 0x01 h s1 → (s.tile t).vec.out = [] → vmFault (s.tile t) h bl true = none → wmPRED h.word = false → bl ≠ [] →
      (ws = bl.flatMap fun b =>
        let em := storedBlk r.pers (wFA h.word) (r.act (wmKM h.word) b) (r.blk (wVD h.word) b) none
        ⟨wmOC h.word, (vmBlk h b).addr, em.run⟩ ::
          (if (vmBlk h b).slen = 0 then [] else [(⟨wmOC h.word, (vmBlk h b).saddr, em.scales⟩ : VWrite)])) →
      (wmOC h.word = false → Answers (.vst t .ok) s fun u =>
        (u.tile t).vec.out = [⟨h.pc, sigOf h, .store ws⟩] ∧ (u.tile t).tk = (s1.tile t).tk ∧ MemSame s u ∧ (u.tile t).vec.r.v = r.v) ∧
      (wmOC h.word = true → Answers (.vst t .ok) s fun u => VecDone s1 u t h ∧ (u.tile t).vec.r.v = r.v ∧
        (u.tile t).oc = (ws.foldl (fun x w => ocPut x w.addr w.bytes) (s.tile t)).oc)) ∧
    (∀ pc sig w ws, isLive s t = true → (s.tile t).vec.out = [⟨pc, sig, .store (w :: ws)⟩] →
      (∀ x ∈ w :: ws, LinesFine s x.addr x.bytes.length) →
      Answers (.vectorStoreVisible t 0) s fun u => (u.tile t).vec.out = [] ∧ (u.tile t).vec.r = r ∧
        (∀ k, memByte u k = (w :: ws).foldl (fun b x =>
          if x.addr ≤ k ∧ k < x.addr + x.bytes.length then x.bytes.getD (k - x.addr) 0 else b) (memByte s k)) ∧
        ∀ j, tkCount (u.tile t) j =
          if sig = some j ∧ tkCount (s.tile t) j < 65535 then tkCount (s.tile t) j + 1 else tkCount (s.tile t) j)

/-! ### The matrix unit -/

/-- R136, R148: a function applied to every element of an accumulator tile in canonical form (ascending keys below 16,384, no zero
element listed) gives every element its value. -/
def Obligations.EveryElementOfATile : Prop :=
  ∀ (a : Acc) (f : Nat → AccElem → AccElem), mwf (fun _ => AccElem.zero) a.elems = true → (∀ p ∈ a.elems, p.1 < 16384) →
    (∀ m n, m < 128 → n < 128 → (a.map f).elem m n = f (128 * m + n) (a.elem m n)) ∧
    mwf (fun _ => AccElem.zero) (a.map f).elems = true ∧ (∀ p ∈ (a.map f).elems, p.1 < 16384) ∧
    ((a.map f).nonfin = true ↔ a.nonfin = true ∨
      ∃ m n, m < 128 ∧ n < 128 ∧ (f (128 * m + n) (a.elem m n)).special = true ∧ (a.elem m n).special = false)

/-- R143, R144, R163 to R166: an MM whose operands are good starts on a tile that is not bound: with OVW = 1 the tile is cleared first, and
with SPR = 1 it becomes UNVERIFIED, keeps a snapshot unless it was cleared, and waits for its SVERIFY. R148 to R152, R154: each chunk step
adds one term to every element in M × N and 1 to L1; a fold is due at 2^20; beyond 2^40 terms BOUND_LAPSED is set once. R137: after its last
step the product completes and its signal is applied. -/
def Obligations.MatrixProduct : Prop :=
  ∀ (s s1 : State) (t : Tid) (h : QEntry) (op : MMOp) (x : Tile), s.tile t = x → x.regBad = [] →
    (Starts s t .matrix 0x10 0 h s1 → op = mmOp h → x.fill.bound ≠ some op.acc → mmFault h = none → x.mat.run = [] → x.mat.recompute = [] →
      (op.spr = true → ocUe x [historyRange op] = none) →
      (x.acc op.acc).chain = [] → x.mat.snap = none → op.acc < 2 →
      Answers (.mm t) s fun u =>
        (u.tile t).mat.run = [⟨h, .product op (skipBits x op) 0⟩] ∧
        (u.tile t).acc op.acc = { (if op.ovw then Acc.zero else x.acc op.acc) with
          chain := if op.spr then [⟨op, skipBits x op, false, h.pc⟩] else [] } ∧
        (u.tile t).acc (1 - op.acc) = x.acc (1 - op.acc) ∧
        (u.tile t).mat.unpaired = (if op.spr then x.mat.unpaired ++ [⟨op.acc, op, skipBits x op, some 0, s.now⟩] else x.mat.unpaired) ∧
        (u.tile t).mat.snap = (if op.spr ∧ op.ovw = false then some (op.acc, x.acc op.acc) else none) ∧
        (u.tile t).mat.queue = (s1.tile t).mat.queue.tail ∧ (u.tile t).tk = (s1.tile t).tk ∧ (u.tile t).oc = x.oc ∧ (u.tile t).vec = x.vec ∧
        (∀ j, j ≠ t.val → u.tile j = s.tile j) ∧ u = { s with tiles := u.tiles }) ∧
    (∀ e skip k a, isLive s t = true → clkRuns s t = true → x.mat.run = [⟨e, .product op skip k⟩] → k < op.steps → op.acc < 2 →
      x.acc op.acc = a → a.l1 ≠ 2 ^ 20 → ocUe x (op.stepRanges skip k) = none →
      Answers (.mmChunkStep t false) s fun u =>
        (u.tile t).mat.run = [⟨e, .product op skip (k + 1)⟩] ∧
        (∃ o, (u.tile t).acc op.acc = { a.map (fun key v => if key / 128 < op.m ∧ key % 128 < op.n then
            (match stepTerm x op skip k (key / 128) (key % 128) with | some (z, _) => v.term z | none => v) else v) with
          l1 := a.l1 + 1, ovf16 := o, lapsed := a.lapsed || decide (a.l2 = 2 ^ 20) } ∧
          (o = true ↔ a.ovf16 = true ∨ op.a16 = true ∧ ∃ m n z, m < op.m ∧ n < op.n ∧ m < 128 ∧ n < 128 ∧ stepTerm x op skip k m n = some (z, true))) ∧
        (u.tile t).acc (1 - op.acc) = x.acc (1 - op.acc) ∧ (u.tile t).oc = x.oc ∧ (u.tile t).vec = x.vec ∧ (u.tile t).tk = x.tk ∧
        (∀ j, j ≠ t.val → u.tile j = s.tile j) ∧ u.mem = s.mem ∧
        (a.l2 = 2 ^ 20 → a.lapsed = false → bit (getF u (fINT_CAUSE_LEAF 4)) 0 = true) ∧
        (¬ (a.l2 = 2 ^ 20 ∧ a.lapsed = false) → u = { s with tiles := u.tiles })) ∧
    (∀ (a : AccNo), isLive s t = true → clkRuns s t = true →
      ((x.acc a).l1 = 2 ^ 20 → Answers (.fold t ⟨a, false⟩) s fun u => TileBecomes s u t (x.setAcc a
        { (x.acc a).map (fun _ e => e.fold) with l1 := 0, l2 := min ((x.acc a).l2 + 1) (2 ^ 20), folded := true })) ∧
      ((x.acc a).l1 ≠ 2 ^ 20 → ∀ ue, exec (.fold t ⟨a, ue⟩) s = .next s)) ∧
    (∀ e skip k, isLive s t = true → clkRuns s t = true → x.mat.run = [⟨e, .product op skip k⟩] → op.steps ≤ k → (x.acc op.acc).l1 ≠ 2 ^ 20 →
      Answers (.mmComplete t) s fun u => (u.tile t).mat = { x.mat with run := [] } ∧ SignalApplied s u t e ∧ (u.tile t).oc = x.oc ∧
        (u.tile t).vec = x.vec ∧ (∀ j, j ≠ t.val → u.tile j = s.tile j) ∧ u.mem = s.mem)

/-- R142: MZERO clears its tile and completes. R146, R147, R160: MSAVE writes the image of its tile to device memory, MMERGE adds the four
terms of each element of an image, MRESTORE loads one; each begins when the tile is free and its signal follows its completion. -/
def Obligations.AccumulatorImages : Prop :=
  ∀ (s s1 : State) (t : Tid) (h : QEntry) (a addr : Nat) (x : Tile), s.tile t = x → x.regBad = [] →
    (Starts s t .matrix 0x10 1 h s1 → a = wf h.word 51 51 → x.fill.bound ≠ some a → x.mat.recompute = [] → (x.acc a).chain = [] → x.mat.run = [] →
      Answers (.mzero t) s fun u => (u.tile t).acc a = Acc.zero ∧ (u.tile t).acc (1 - a) = x.acc (1 - a) ∧
        (u.tile t).mat.queue = (s1.tile t).mat.queue.tail ∧ SignalApplied s1 u t h ∧ (u.tile t).oc = x.oc ∧ (u.tile t).vec = x.vec ∧
        (∀ j, j ≠ t.val → u.tile j = s.tile j) ∧ u.mem = s.mem) ∧
    (∀ (i : Instr) (min : Nat) (w : MatWork), (min = 2 ∧ i = .msave t ∧ w = .save a addr ∨ min = 3 ∧ i = .mmerge t ∧ w = .merge a addr ∨
        min = 4 ∧ i = .mrestore t ∧ w = .restore a addr) →
      Starts s t .matrix 0x10 min h s1 → a = wf h.word 51 51 → capS h (wSA h.word) = addr → x.fill.bound ≠ some a → addr % 64 = 0 →
      mappedRange addr 262208 = true → x.mat.recompute = [] → (x.acc a).chain = [] → (∀ r ∈ x.mat.run, r.acc ≠ a) →
      Answers i s fun u => (u.tile t).mat.run = x.mat.run ++ [⟨h, w⟩] ∧ (u.tile t).mat.a0 = x.mat.a0 ∧ (u.tile t).mat.a1 = x.mat.a1 ∧
        (u.tile t).mat.queue = (s1.tile t).mat.queue.tail ∧ (u.tile t).tk = (s1.tile t).tk ∧ (∀ j, j ≠ t.val → u.tile j = s.tile j) ∧
        u = { s with tiles := u.tiles }) ∧
    (∀ e, isLive s t = true → clkRuns s t = true → x.mat.run = [⟨e, .save a addr⟩] → LinesFine s addr 262208 →
      Answers (.accImageTransferDone t false) s fun u => (u.tile t).mat.run = [] ∧ (u.tile t).mat.a0 = x.mat.a0 ∧ (u.tile t).mat.a1 = x.mat.a1 ∧
        SignalApplied s u t e ∧ ∀ k, memByte u k =
          if addr ≤ k ∧ k < addr + 262208 then (x.acc a).image.getD (k - addr) 0 else memByte s k) ∧
    (∀ e, a < 2 → isLive s t = true → clkRuns s t = true → x.mat.run = [⟨e, .merge a addr⟩] → LinesFine s addr 262208 →
      (x.acc a).terms + (accOfImage (memBytes s addr 262208)).terms + 4 ≤ 2 ^ 40 → (accOfImage (memBytes s addr 262208)).lapsed = false →
      Answers (.accImageTransferDone t false) s fun u => (u.tile t).mat.run = [] ∧
        (u.tile t).acc a = mergeAcc (x.acc a) (accOfImage (memBytes s addr 262208)) ∧ (u.tile t).acc (1 - a) = x.acc (1 - a) ∧
        SignalApplied s u t e ∧ MemSame s u) ∧
    (∀ e, a < 2 → isLive s t = true → clkRuns s t = true → x.mat.run = [⟨e, .restore a addr⟩] → LinesFine s addr 262208 →
      imageBad (memBytes s addr 262208) = false →
      Answers (.accImageTransferDone t false) s fun u => (u.tile t).mat.run = [] ∧ (u.tile t).acc a = accOfImage (memBytes s addr 262208) ∧
        (u.tile t).acc (1 - a) = x.acc (1 - a) ∧ SignalApplied s u t e ∧ MemSame s u)

/-! ### The job image -/

/-- R132 steps 1 to 5, R559: a DB_LOAD ring in the READY stage whose header and section table pass step 1 starts a load; the targets are the
tiles of the TILES ranges and of the TASKS entries. When the digest is correct and no check of steps 3 to 5 fails, step 6 is next; a bad
digest ends the load at step 2 with code 2, and a failed check with its code and step. R132 step 6, R131: the sections are copied, here for
an image with one of them: TILE_DATA and CODE to the operand caches of its tiles, MEM_DATA to memory, MEM_ZERO as zeros, and TASKS to the
TILE_START registers; a section that writes to a tile of a die that is not UP ends the load with code 6 (R499). R132 steps 8 and 9, R133, R549: after the take-over the settings follow and T_s is 10 µs later; at T_s the load ends
with code 1, and a start-at-load task begins. The port split goes into the settings block. -/
def Obligations.ImageLoading : Prop :=
  (∀ (s : State),
     (∀ (off size : Nat) (h tab : List Byte) (l : List Sec), baseUp s = true → getF s fHST_LOAD_STATUS_STATE ≠ 1 → bitF s fPKG_STATUS_LIMITED = false →
       stage s = 6 → getF s fHST_LOAD_OFF_OFFSET = off → getF s fHST_LOAD_SIZE_SIZE = size → off % 4096 = 0 → off + size ≤ 2 ^ 36 → 128 ≤ size →
       RangeClean s (stageBase s + off) 128 → h = memBytes s (stageBase s + off) 128 → leAt h 12 4 ≤ 4096 → leAt h 16 8 + 32 * leAt h 12 4 ≤ size →
       RangeClean s (stageBase s + off + leAt h 16 8) (32 * leAt h 12 4) →
       tab = memBytes s (stageBase s + off + leAt h 16 8) (32 * leAt h 12 4) → stepOne size h tab = some l →
       Answers .dbLoad s fun u => getF u fHST_LOAD_STATUS_STATE = 1 ∧ getF u fHST_LOAD_STATUS_STEP = 2 ∧ getF u fHST_LOAD_STATUS_CODE = 0 ∧
         (∀ t, t ∈ u.load.targets ↔ (∃ x ∈ l, x.onTiles = true ∧ t ∈ x.tileList) ∨
           ∃ x ∈ secsOf l 6, ∃ b ∈ taskEntries (memBytes s (stageBase s + off + x.off) x.size), leAt b 0 2 = t) ∧
         u.load = { s.load with targets := u.load.targets, run := some ⟨stageBase s + off, size, 2, h, [], false, 0⟩ } ∧
         OnlyFields s { u with load := s.load } [fHST_LOAD_STATUS_STATE, fHST_LOAD_STATUS_STEP, fHST_LOAD_STATUS_CODE]) ∧
     (∀ w img, s.load.run = some w → w.next = 2 → RangeClean s w.base w.size → img = memBytes s w.base w.size →
       (sha384 (digestInput img) ≠ slice img 0x40 48 → Answers .imageDigestDone s fun u =>
         getF u fHST_LOAD_STATUS_STATE = 2 ∧ getF u fHST_LOAD_STATUS_CODE = 2 ∧ getF u fHST_LOAD_STATUS_STEP = 2 ∧ u.load.run = none ∧
         (∀ j, u.tile j = s.tile j) ∧ u.mem = s.mem) ∧
       (∀ l, sha384 (digestInput img) = slice img 0x40 48 → stepOne w.size img (slice img (leAt img 16 8) (32 * leAt img 12 4)) = some l →
         (∀ code step, loadCheck s w.base w.size img l = some (code, step) → Answers .imageDigestDone s fun u =>
           getF u fHST_LOAD_STATUS_STATE = 2 ∧ getF u fHST_LOAD_STATUS_CODE = code ∧ getF u fHST_LOAD_STATUS_STEP = step ∧ u.load.run = none ∧
           (∀ j, u.tile j = s.tile j) ∧ u.mem = s.mem) ∧
         (loadCheck s w.base w.size img l = none → Answers .imageDigestDone s fun u =>
           getF u fHST_LOAD_STATUS_STEP = 6 ∧
           u.load = { s.load with
             feat := some (loadFeatures s), targets := targetsOf img l
             run := some { w with next := 6, head := img.take 128, map := (secsOf l 7).length == 1 } } ∧
           OnlyFields s { u with load := s.load } [fHST_LOAD_STATUS_STEP])))) ∧
  (∀ (s : State),
     (∀ (w : LoadRun) (x : Sec) (b : List Byte), s.load.run = some w → w.next = 6 →
       stepOne w.size w.head (memBytes s (w.base + leAt w.head 16 8) (32 * leAt w.head 12 4)) = some [x] →
       RangeClean s (w.base + x.off) x.size → b = memBytes s (w.base + x.off) x.size →
       (writesDown s x b = true → Answers .imageCopyDone s fun u =>
         getF u fHST_LOAD_STATUS_STATE = 2 ∧ getF u fHST_LOAD_STATUS_CODE = 6 ∧ getF u fHST_LOAD_STATUS_STEP = 6 ∧ u.load.run = none ∧
         (∀ j, u.tile j = s.tile j) ∧ u.mem = s.mem) ∧
       (x.onTiles = true → (∀ t ∈ x.tileList, dieUp s (dieOf t) = true) → Answers .imageCopyDone s fun u =>
         getF u fHST_LOAD_STATUS_STEP = 7 ∧ u.load = { s.load with run := some { w with next := 7, tasks := [] } } ∧
         (∀ t k, t ∈ x.tileList → mget memDefault (u.tile t).oc k =
           if x.dest ≤ k ∧ k < x.dest + x.size then b.getD (k - x.dest) 0 else mget memDefault (s.tile t).oc k) ∧
         (∀ t, u.tile t = { s.tile t with oc := (u.tile t).oc, ocBad := (u.tile t).ocBad }) ∧ (∀ t, t ∉ x.tileList → u.tile t = s.tile t) ∧
         OnlyFields s { u with load := s.load, tiles := s.tiles } [fHST_LOAD_STATUS_STEP]) ∧
       (x.typ = 3 → RangeClean s x.dest x.size → Answers .imageCopyDone s fun u =>
         getF u fHST_LOAD_STATUS_STEP = 7 ∧ u.load = { s.load with run := some { w with next := 7, tasks := [] } } ∧
         (∀ k, memByte u k = if x.dest ≤ k ∧ k < x.dest + x.size then memByte s (w.base + x.off + (k - x.dest)) else memByte s k)) ∧
       (x.typ = 4 → RangeClean s x.dest x.size → Answers .imageCopyDone s fun u =>
         getF u fHST_LOAD_STATUS_STEP = 7 ∧ u.load = { s.load with run := some { w with next := 7, tasks := [] } } ∧
         (∀ k, memByte u k = if x.dest ≤ k ∧ k < x.dest + x.size then 0 else memByte s k)) ∧
       (x.typ = 6 → (taskEntries b).length = 1 → ∀ t, leAt b 0 2 = t → t < 256 → dieUp s (dieOf t) = true → leAt b 4 4 % 4096 = 0 → leAt b 4 4 < 0x200000 →
         leAt b 8 4 % 4096 = 0 → leAt b 8 4 ≤ 0x40000 → leAt b 0xC 4 < leAt b 8 4 →
         Answers .imageCopyDone s fun u =>
           getF u fHST_LOAD_STATUS_STEP = 7 ∧ u.load = { s.load with run := some { w with next := 7, tasks := taskEntries b } } ∧
           getF u (fTILE_START_WIN_BASE t) = leAt b 4 4 / 4096 ∧ getF u (fTILE_START_WIN_SIZE t) = leAt b 8 4 / 4096 ∧
           getF u (fTILE_START_ENTRY_ENTRY t) = leAt b 0xC 4 ∧ getF u (fTILE_START_ARG0_ARG t) = leAt b 0x10 8 ∧
           getF u (fTILE_START_ARG1_ARG t) = leAt b 0x18 8 ∧
           OnlyFields s { u with load := s.load } [fHST_LOAD_STATUS_STEP, fTILE_START_WIN_BASE t, fTILE_START_WIN_SIZE t,
             fTILE_START_ENTRY_ENTRY t, fTILE_START_ARG0_ARG t, fTILE_START_ARG1_ARG t])) ∧
     (∀ w, s.load.run = some w → w.next = 7 → s.fab.redraw = none → leAt w.head 0x34 1 ≤ 2 → Answers .imageTakeoverDone s fun u =>
       getF u fHST_LOAD_STATUS_SPLIT = leAt w.head 0x34 1 ∧ getF u fHST_LOAD_STATUS_STEP = 8 ∧
       getF u fCMP_MODE_DETERM = (bit (leAt w.head 0x30 4) 0).toNat ∧ u.pm = { s.pm with splitDue := true } ∧
       u.load = { s.load with jobId := leAt w.head 0x28 8, run := some { w with next := 9, ts := s.now + 10000 } } ∧
       OnlyFields s { u with load := s.load, pm := s.pm } [fHST_LOAD_STATUS_SPLIT, fHST_LOAD_STATUS_STEP, fCMP_MODE_DETERM]) ∧
     (∀ w, s.load.run = some w → w.next = 9 → w.ts ≤ s.now →
       (∃ u, exec .loadTaskStart s = .next u ∧ getF u fHST_LOAD_STATUS_STATE = 2 ∧ getF u fHST_LOAD_STATUS_CODE = 1 ∧
         getF u fHST_LOAD_STATUS_STEP = 9 ∧ bit (getF u (fINT_CAUSE_LEAF 11)) 0 = true ∧
         u.load = { s.load with
           targets := [], run := none, refpers := bit (leAt w.head 0x30 4) 1, lastOk := some (slice w.head 0x40 48, leAt w.head 0x28 8) } ∧
         (w.map = true → getF u (fCMP_PHASE_START_START 0) = w.ts % 2 ^ 64) ∧ u.mem = s.mem ∧
         (w.tasks = [] → ∀ j, u.tile j = s.tile j) ∧
         (∀ b t, w.tasks = [b] → t = leAt b 0 2 → leAt b 4 4 + leAt b 0xC 4 < 0x200000 → (∀ j, j ≠ t → u.tile j = s.tile j) ∧
           (bit (leAt b 2 2) 0 = false ∨ dieUp s (dieOf t) = false → u.tile t = s.tile t) ∧
           (bit (leAt b 2 2) 0 = true → dieUp s (dieOf t) = true →
             (u.tile t).phase = .running ∧ (u.tile t).pc = (leAt b 4 4 + leAt b 0xC 4) ∧ (u.tile t).winBase = leAt b 4 4 ∧
             (u.tile t).winSize = leAt b 8 4 ∧ (u.tile t).oc = (s.tile t).oc ∧
             (∀ n, readS (u.tile t) n = if n = 1 then BitVec.ofNat 64 (leAt b 0x10 8) else if n = 2 then BitVec.ofNat 64 (leAt b 0x18 8) else 0))))) ∧
     (fwRuns s = true → s.pm.splitDue = true → Answers .settingsWrite s fun u =>
       settingsSplit u = getF s fHST_LOAD_STATUS_SPLIT ∧ u.pm = { s.pm with splitDue := false, nor := u.pm.nor } ∧ u = { s with pm := u.pm }))

/-! ### The stream engine -/

/-- R86, R244 to R247, R255, R256, R259: a transfer instruction whose operands are good starts: it leaves its queue and runs, with its
deadline where it has one. A bad operand aborts the task with its cause. An SFLASH has each of its flash tiles to ask for, and on an engine
that asks for none as yet it asks for the first (R242). R259, R260, R261: a
transfer without all its data 64 ns after its deadline fails with LOWER_LATE at the first address or flash tile that is late; with EE = 1 a failed one ends alone, records the error and
signals its error token, and with EE = 0 the task aborts. -/
def Obligations.TransferStartsAndFailures : Prop :=
  (∀ (s s1 : State) (t : Tid) (h : QEntry) (i : Instr) (min : Nat),
     (min = 0 ∧ i = .smove t ∨ min = 1 ∧ i = .scvt t ∨ min = 2 ∧ i = .sflash t ∨ min = 3 ∧ i = .sget t ∨ min = 4 ∧ i = .sput t ∨
       min = 5 ∧ i = .svfence t ∨ min = 6 ∧ i = .sretain t ∨ min = 7 ∧ i = .sexpand t) →
     Starts s t .stream 0x20 min h s1 →
     (strFault s (s.tile t) h = none → s.mem.quadChange = [] → Answers i s fun u => StreamStarted s s1 u t h ∧
       (min = 2 → (∀ y ∈ (u.tile t).str.run, y.no = (s.tile t).str.nextNo → y.e = h → y.flash = (List.range (stZ h)).map (stX h + ·)) ∧
         (StrQuiet s t → (∀ o ∈ s.tier.fops, ∀ n, o.who ≠ .stream t n) →
           u.tier = { s.tier with fops := s.tier.fops ++ [⟨stX h, .stream t (s.tile t).str.nextNo, none⟩] } ∧
           u = { s with tiles := u.tiles, tier := u.tier }))) ∧
     (∀ c info, strFault s (s.tile t) h = some (c, info) → Answers i s fun u =>
       getF u (fTILE_TRAP_CAUSE_VALID t) = 1 ∧ getF u (fTILE_TRAP_CAUSE_UNIT t) = 3 ∧ getF u (fTILE_TRAP_CAUSE_CODE t) = c ∧
       getF u (fTILE_TRAP_PC_PC t) = h.pc % 2 ^ 21 ∧ getF u (fTILE_TRAP_INFO_INFO t) = info % 2 ^ 64 ∧ FieldsKept s u (trapFields t) ∧
       (u.tile t).aborting = true ∧ (u.tile t).str = { (s.tile t).str with queue := (s.tile t).str.queue.tail } ∧
       (∀ j, j ≠ t.val → u.tile j = s.tile j) ∧ MemSame s u)) ∧
  (∀ (s : State) (t : Tid) (r : StrRun) (rest : List StrRun) (x : Tile), s.tile t = x → isLive s t = true → x.str.run = r :: rest →
     (∀ d a, r.deadline = some d → d + 64 ≤ s.now → r.fail = none →
       (wMin r.e.word = 0 ∧ unstamped x t r d = some a ∨ wMin r.e.word = 2 ∧ lateTile r = some a) →
       (wsEE r.e.word = true → (∀ y ∈ rest, y.no ≠ r.no) → Answers (.transferLate t 0) s fun u =>
         TileBecomes s u t { x with str := { x.str with run := { r with fail := some (cLOWER_LATE, a) } :: rest } }) ∧
       (wsEE r.e.word = false → TrapsFirst (.transferLate t 0) s t 3 cLOWER_LATE r.e.pc 0)) ∧
     (∀ code addr, r.fail = some (code, addr) → code < 256 →
       (wsEE r.e.word = true → Answers (.transferErrorEnd t) s fun u =>
         (u.tile t).str.run.map (·.no) = rest.map (·.no) ∧ getF u (fTILE_STR_ERR_VALID t) = 1 ∧ getF u (fTILE_STR_ERR_PC t) = r.e.pc % 2 ^ 21 ∧
         getF u (fTILE_STR_ERR_CODE t) = code ∧ getF u (fTILE_STR_ERR_ADDR_ADDR t) = addr % 2 ^ 64 ∧
         ∀ n, tkCount (u.tile t) n = if n = wsETK r.e.word ∧ tkCount x n < 65535 then tkCount x n + 1 else tkCount x n) ∧
       (wsEE r.e.word = false → TrapsFirst (.transferErrorEnd t) s t 3 code r.e.pc (if code = cMEM_UNCORRECTABLE then addr else 0))))

/-- R268, R269: SVERIFY pairs with the oldest product of its tile that waits, writes a zero-history bit for each slab, and where a skipped
slab was not zero a recompute is due; where every one was, the product has passed. The recompute executes the chain's products again
without skipping on the restored tile. -/
def Obligations.SkipVerification : Prop :=
  ∀ (s s1 : State) (t : Tid) (h : QEntry) (x : Tile) (a : Nat), s.tile t = x → a < 2 →
    (∀ k (q : SprMM) p zero, Starts s t .stream 0x20 8 h s1 → a = (wsOPT h.word).toNat → bits (stX h) 63 21 = 0 →
      firstIdx (fun u : SprMM => u.acc == a) x.mat.unpaired = some k → x.mat.unpaired[k]? = some q → (∀ d, headDeadline s t h = some d → q.start ≤ d) → q.place = some p →
      bits (stX h) 20 0 + q.op.m / 32 * (q.op.kLen / 32) * recSquare q.op ≤ ocSize → inCode x q.op.zOff ((slabCount q.op + 7) / 8) = false →
      verifyHeld x (bits (stX h) 20 0, q.op.m / 32 * (q.op.kLen / 32) * recSquare q.op) (q.op.zOff, (slabCount q.op + 7) / 8) = false →
      zero = ((List.range (slabCount q.op)).map fun j => (slabBytes x q.op (bits (stX h) 20 0) j).all (· == 0)) →
      Answers (.sverify t) s fun u =>
        (u.tile t).str.queue = x.str.queue.tail ∧ (∃ y ∈ (u.tile t).str.run, y.no = x.str.nextNo ∧ y.e = h) ∧
        (u.tile t).mat.unpaired.length + 1 = x.mat.unpaired.length ∧ (x.vec.win = none → MemSame s u) ∧ (∀ j, j ≠ t.val → u.tile j = s.tile j) ∧
        ((∃ j, j < slabCount q.op ∧ q.skip.getD j false = true ∧ zero.getD j false = false) →
          (u.tile t).mat.recompute = (if a ∈ x.mat.recompute then x.mat.recompute else x.mat.recompute ++ [a]) ∧ (u.tile t).acc a = x.acc a ∧
          (∀ j, j < slabCount q.op → ((mget memDefault (u.tile t).oc (q.op.zOff + j / 8)).getLsbD (j % 8)) = zero.getD j false)) ∧
        ((∀ j, j < slabCount q.op → q.skip.getD j false = true → zero.getD j false = true) → a ∉ x.mat.recompute →
          (u.tile t).mat.recompute = x.mat.recompute ∧ (u.tile t).acc a = (if ((passMM x a p).acc a).chain.all (·.passed) then { x.acc a with chain := [] } else (passMM x a p).acc a))) ∧
    (∀ c base y l, isLive s t = true → clkRuns s t = true → x.mat.run = [] → x.mat.recompute = a :: l → (x.acc a).chain = [c] → c.op.acc = a →
      bitF s (fTILE_MAT_CTL_LAPSE_TRAP t) = false →
      base = (match x.mat.snap with | some (n, v) => if n = a then v else Acc.zero | none => .zero) →
      y = x.setAcc a (if c.op.ovw then Acc.zero else base) →
      Answers (.verifyRecompute ⟨t, false⟩) s fun u =>
        (u.tile t).mat.recompute = l ∧ ((u.tile t).acc a).chain = [] ∧ (u.tile t).acc (1 - a) = x.acc (1 - a) ∧
        ((u.tile t).acc a).elems = (((wholeProduct c.op.steps (s.setTile t y) t c.op 0 c.pc).tile t).acc a).elems ∧
        (∀ w, x.vec.win = some w → w.accs.contains a = true → (u.tile t).vec.win = some { w with failed := true }) ∧
        (u.tile t).oc = x.oc ∧ (∀ j, j ≠ t.val → u.tile j = s.tile j) ∧ u.mem = s.mem)

/-- R247, R89: the oldest transfer whose data has come completes, and its signal is applied. An SMOVE leaves its source's bytes at its
destination, and with OPT = 1 the block-maximum record of R265; SGET and SFLASH leave the bytes received; SCVT the elements and scales of every
block (R264), SRETAIN a word of predicates for every 32 elements (R231, R263), SEXPAND 32 words of all ones or zeros for every word (R232); a
local SVFENCE its word. An SPUT, a remote fence, SVERIFY and prefetch control leave nothing here. -/
def Obligations.TransferResults : Prop :=
  ∀ (s : State) (t : Tid) (r : StrRun) (rest : List StrRun) (x : Tile) (w vx vy n : Nat) (h : Shape), s.tile t = x → isLive s t = true →
    s.mem.quadChange = [] → x.str.run = r :: rest → r.fail = none → wMin r.e.word = w → stX r.e = vx → stY r.e = vy → shapeOf (stZ r.e) = h →
    (wMaj r.e.word = 0x20 → (∀ d, r.deadline = some d → if w = 2 then r.tardy = none else unstamped x t r (min d s.now) = none) →
      (∀ b, w = 0 → x.str.pf = [] → EpClean s t vx (epRuns vx h) → EpSound s vy (epRuns vy h) → (epOc vy = true ∨ h.len ≤ h.stride) → 0 < h.len →
        b = epRead s t vx (epRuns vx h) →
        (wsOPT r.e.word = false → Answers (.transferComplete t) s fun u => ShapeStored s u t vy h b ∧ TransferDone s u t r rest) ∧
        (wsOPT r.e.word = true → Answers (.transferComplete t) s fun u => TransferDone s u t r rest ∧
          (∀ k, k < (bmaxRecord (wFA r.e.word) b).length →
            mget memDefault (u.tile t).oc (bits (stW r.e) 52 32 + k) = (bmaxRecord (wFA r.e.word) b).getD k 0) ∧
          (epOc vy = false → ∀ j, j < h.total → memByte u (epAt vy h j) = b.getD j 0))) ∧
      (∀ b hb fa fb es, w = 1 → x.str.pf = [] → wFA r.e.word = fa → wFB r.e.word = fb → n = srcElems fa h.len → n % 32 = 0 →
        EpClean s t vx [(epAddr vx, h.len), (epAddr vx + h.len, scaleLen fa n)] →
        EpSound s vy [(epAddr vy, n * fmtBits fb / 8 + scaleLen fb n)] →
        b = epRead s t vx [(epAddr vx, h.len), (epAddr vx + h.len, scaleLen fa n)] →
        (wsOPT r.e.word = true → LinesFine s (bits (stW r.e) 51 0) (scaleLen fb n)) →
        hb = memBytes s (bits (stW r.e) 51 0) (scaleLen fb n) →
        es = ((List.range (n / 32)).map fun k => emitBlk fb (blockBfx fa (slice b (k * runBytes fa) (runBytes fa))
            (slice b (h.len + k * scaleBytes fa) (scaleBytes fa))).1
          (if wsOPT r.e.word then some (slice hb (k * scaleBytes fb) (scaleBytes fb), bits (stW r.e) 53 52) else none)) →
        (es.flatMap Emit.run).length = n * fmtBits fb / 8 → (es.flatMap Emit.scales).length = scaleLen fb n →
        (wsOPT r.e.word = true → (es.flatMap Emit.hist).length = scaleLen fb n) →
        Answers (.transferComplete t) s fun u => TransferDone s u t r rest ∧
          (wsOPT r.e.word = false → EpStored s u t vy (es.flatMap Emit.run ++ es.flatMap Emit.scales)) ∧
          (wsOPT r.e.word = true → (∀ k, k < scaleLen fb n → memByte u (bits (stW r.e) 51 0 + k) = (es.flatMap Emit.hist).getD k 0) ∧
            (epOc vy = true → ∀ k, k < n * fmtBits fb / 8 + scaleLen fb n →
              epByte u t vy (epAddr vy + k) = (es.flatMap Emit.run ++ es.flatMap Emit.scales).getD k 0))) ∧
      (w = 2 → r.flash = [] → EpSound s vy [(epAddr vy, stZ r.e * 65536)] →
        Answers (.transferComplete t) s fun u => EpStored s u t vy (gotBytes r.rr.got (stZ r.e * 65536)) ∧ TransferDone s u t r rest) ∧
      (w = 3 → (if wsOPT r.e.word then r.rr.step = 3 else (runSegs r).length ≤ r.rr.next ∧ r.rr.pend = []) →
        EpSound s vy (epRuns vy h) → (epOc vy = true ∨ h.len ≤ h.stride) → 0 < h.len →
        Answers (.transferComplete t) s fun u => ShapeStored s u t vy h (gotBytes r.rr.got h.total) ∧ TransferDone s u t r rest) ∧
      ((w = 4 ∧ (runSegs r).length ≤ r.rr.next ∧ r.rr.pend = [] ∨ w = 5 ∧ bit (stW r.e) 15 = false ∧ r.rr.next ≠ 0 ∧ r.rr.pend = [] ∨
          w = 8 ∧ (wsOPT r.e.word).toNat ∉ x.mat.recompute) →
        Answers (.transferComplete t) s fun u => MemSame s u ∧ (u.tile t).oc = x.oc ∧ TransferDone s u t r rest) ∧
      (w = 5 → bit (stW r.e) 15 = true → (∀ o ∈ x.ops, o.writes = true → r.e.ord ≤ o.ord) → LinesFine s vy 8 →
        Answers (.transferComplete t) s fun u => (u.tile t).oc = x.oc ∧ TransferDone s u t r rest ∧
          ∀ k, memByte u k = if vy ≤ k ∧ k < vy + 8 then (toBytes 8 vx).getD (k - vy) 0 else memByte s k) ∧
      (∀ b, w = 6 → x.str.pf = [] → n = srcElems (wFA r.e.word) h.total →
        EpClean s t vx (epRuns vx h ++ [(h.past vx, scaleLen (wFA r.e.word) n)]) → EpSound s vy [(epAddr vy, (n + 31) / 32 * 4)] →
        b = epRead s t vx (epRuns vx h ++ [(h.past vx, scaleLen (wFA r.e.word) n)]) →
        Answers (.transferComplete t) s fun u => TransferDone s u t r rest ∧ EpOther s u t vy ∧
          (∀ k, k < epAddr vy ∨ epAddr vy + (n + 31) / 32 * 4 ≤ k → epByte u t vy k = epByte s t vy k) ∧
          (∀ k, k < (n + 31) / 32 * 4 → ∀ j, j < 8 → (epByte u t vy (epAddr vy + k)).getLsbD j =
            match (blockVals (wFA r.e.word) (slice b (k / 4 * runBytes (wFA r.e.word)) (runBytes (wFA r.e.word)))
              (slice b (h.total + k / 4 * scaleBytes (wFA r.e.word)) (scaleBytes (wFA r.e.word))))[8 * (k % 4) + j]? with
            | some v => decide (32 * (k / 4) + 8 * (k % 4) + j < n) && retainPred (bits (stW r.e) 1 0) v
            | none => false)) ∧
      (∀ b, w = 7 → x.str.pf = [] → n = stZ r.e → epOc vy = true → EpClean s t vx [(epAddr vx, 4 * n)] → b = epRead s t vx [(epAddr vx, 4 * n)] →
        Answers (.transferComplete t) s fun u => TransferDone s u t r rest ∧ MemSame s u ∧
          ∀ k, mget memDefault (u.tile t).oc k =
            if epAddr vy ≤ k ∧ k < epAddr vy + 128 * n then (if bit (leAt b (4 * ((k - epAddr vy) / 128)) 4) ((k - epAddr vy) / 4 % 32) then 255 else 0)
            else if epAddr vy + 128 * n ≤ k ∧ k < epAddr vy + 129 * n then 0x9C else mget memDefault x.oc k)) ∧
    (wMaj r.e.word = 0x21 → Answers (.transferComplete t) s fun u => MemSame s u ∧ (u.tile t).oc = x.oc ∧ TransferDone s u t r rest)

/-- R248, R251, R252: PFSET configures its stream, whose first fills are issued at the addresses of its pattern; PFSTOP turns one off and keeps
its round count. R249, R253: a fill that returns holds the 4,096 bytes; one that a write passed is dropped and counted. R273: the shares
of TILE_STR_SPLIT take a write of three shares of 1 to 18 with the sum 20 while the tile is not running, and reject any other. -/
def Obligations.PrefetchStreams : Prop :=
  ∀ (s s1 : State) (t : Tid) (h : QEntry) (x : Tile), s.tile t = x →
    (∀ slot p, Starts s t .stream 0x21 0 h s1 → pfsetFault s x h = none → StrQuiet s t → slot = bits (stW h) 2 0 → p = pfsetStream h 0 →
      p.remote = false →
      Answers (.pfset t) s fun u =>
        (pfOf (u.tile t) slot).active = true ∧ (pfOf (u.tile t) slot).base = stX h ∧
        (pfOf (u.tile t) slot).entries.length = (if p.persist then p.depth else min p.depth p.perRound) ∧
        (∀ k e, (pfOf (u.tile t) slot).entries[k]? = some e → e.no = k ∧ e.filling = true ∧ (0 ≤ p.fillAddr k → e.addr = (p.fillAddr k).toNat)) ∧
        (∀ n, n ≠ slot → pfOf (u.tile t) n = PfStream.off) ∧ SignalApplied s1 u t h ∧ (u.tile t).str.queue = x.str.queue.tail ∧
        (u.tile t).oc = x.oc ∧ u.mem = s.mem) ∧
    (∀ slot, Starts s t .stream 0x21 1 h s1 → bits (stW h) 63 3 = 0 → x.str.run = [] → slot = bits (stW h) 2 0 →
      Answers (.pfstop t) s fun u => pfOf (u.tile t) slot = { PfStream.off with rounds := (pfOf x slot).rounds } ∧
        (∀ n, n ≠ slot → pfOf (u.tile t) n = pfOf x n) ∧ SignalApplied s1 u t h ∧ (u.tile t).str.queue = x.str.queue.tail ∧ u.mem = s.mem) ∧
    (∀ (slot : Fin 8) i p e, pfOf x slot = p → p.entries[i]? = some e → e.filling = true → isRunning s t = true → p.remote = false →
      (∀ d ∈ p.entries, d.no = e.no → d = e) → x.str.run = [] → s.fab.wait = [] → (∀ n, (pfOf x n).remote = false) → mappedRange e.addr 4096 = true →
      (e.stale = false → LinesFine s e.addr 4096 → Answers (.prefetchFillReturn t slot i) s fun u => ∃ v, CacheMoved s v ∧
        TileBecomes v u t (setPf x slot { p with entries := p.entries.map fun d =>
          if d.no = e.no then { d with filling := false, data := memBytes s e.addr 4096 } else d })) ∧
      (e.stale = true → Answers (.prefetchFillReturn t slot i) s fun u =>
        u.tile t = setPf x slot (p.remove fun d => d.no == e.no) ∧ Counts s u (fTILE_STR_STALL_COUNT t 12) 1 ∧
        OnlyFields s { u with tiles := s.tiles } [fTILE_STR_STALL_COUNT t 12])) ∧
    (∀ (v : BitVec 32) r w m, r = bits v.toNat 4 0 → w = bits v.toNat 9 5 → m = bits v.toNat 14 10 →
      (1 ≤ r → r ≤ 18 → 1 ≤ w → w ≤ 18 → 1 ≤ m → m ≤ 18 → r + w + m = 20 → dieUp s (dieOf t.val) = true → tileState s t ≠ .running →
        Answers (.strSplitWrite t v) s fun u => getF u (fTILE_STR_SPLIT_READ t) = r ∧ getF u (fTILE_STR_SPLIT_WRITE t) = w ∧
          getF u (fTILE_STR_SPLIT_REMOTE t) = m ∧ OnlyFields s u [fTILE_STR_SPLIT_READ t, fTILE_STR_SPLIT_WRITE t, fTILE_STR_SPLIT_REMOTE t]) ∧
      (dieUp s (dieOf t.val) = true → (r + w + m ≠ 20 ∨ tileState s t = .running) → Answers (.strSplitWrite t v) s fun u =>
        getF u (fTILE_STR_STATUS_SPLIT_REJ t) = 1 ∧ OnlyFields s u [fTILE_STR_STATUS_SPLIT_REJ t]) ∧
      (dieUp s (dieOf t.val) = false → exec (.strSplitWrite t v) s = .next s))

/-! ### The deferral queue -/

/-- R215 to R218, R222: the head item of the deferral queue acts: BIND binds a tile, DRAIN and RELEASE start the write-back of the resident block
or complete where none is held, RELEASE unbinds; a PRODUCT goes on the resident block where its image is the one held, and else has it written back,
loaded or cleared first. A bad item, one with bad operands and one that needs a bound tile abort the task for the matrix unit with pc 0. -/
def Obligations.DeferralItems : Prop :=
  ∀ (s : State) (t : Tid) (i a : Nat) (x : Tile) (f : FillUnit), s.tile t = x → x.regBad = [] → x.fill = f → deferHead s t = some i →
    (itemType i = 1 → a = (itemOvw i).toNat →
      (shortItemBad i true = false → f.bound = none → (x.acc a).unverified = false → (∀ r ∈ x.mat.run, r.acc ≠ a) →
        Answers (.bind t) s fun u => ItemDone s u t i ∧ (u.tile t).fill.bound = some a ∧ (u.tile t).fill.res = f.res ∧ (u.tile t).mat = x.mat) ∧
      (shortItemBad i true = true ∨ f.bound ≠ none → TrapsFirst (.bind t) s t 1 cDEFER_BAD 0 i)) ∧
    (itemType i = 2 → shortItemBad i false = false →
      (f.bound = some a → f.res = none → Answers (.drain t) s fun u => ItemDone s u t i ∧ (u.tile t).fill.bound = some a ∧ (u.tile t).mat = x.mat) ∧
      (f.bound = some a → f.res ≠ none → Answers (.drain t) s fun u =>
        TileBecomes s u t { x with fill := { f with move := some (.writeBack .drain) } }) ∧
      (f.bound = none → TrapsFirst (.drain t) s t 1 cDEFER_UNBOUND 0 i)) ∧
    (itemType i = 3 → shortItemBad i false = false →
      (f.bound = none ∨ f.res = none → Answers (.release t) s fun u => ItemDone s u t i ∧ (u.tile t).fill.bound = none ∧ (u.tile t).mat = x.mat) ∧
      (f.bound ≠ none → f.res ≠ none → Answers (.release t) s fun u =>
        TileBecomes s u t { x with fill := { f with move := some (.writeBack .release) } })) ∧
    (itemType i = 0 → f.slice = none →
      (∀ c, productFault s i = some c → TrapsFirst (.product t) s t 1 c 0 i) ∧
      (productFault s i = none → f.bound = none → TrapsFirst (.product t) s t 1 cDEFER_UNBOUND 0 i) ∧
      (productFault s i = none → f.bound = some a → f.level = 1 → phaseHolds s = false → optHeld x = false →
        queueStuck s t .matrix = true → ocUe x (maskRanges i) = none →
        (∀ g, f.res = some (itemImg i, g) → Answers (.product t) s fun u =>
          u.tile t = { (if itemOvw i then x.setAcc a (x.acc a).clear else x) with
            fill := { f with slice := some 0, quads := quadrants x i (itemOp i a), res := some (itemImg i, itemGroup i) } } ∧
          (∀ j, j ≠ t.val → u.tile j = s.tile j) ∧ Counts s u (fTILE_STALL_COUNT t 10) 1 ∧
          OnlyFields s { u with tiles := s.tiles } [fTILE_STALL_COUNT t 10]) ∧
        (∀ ad g, f.res = some (ad, g) → ad ≠ itemImg i → Answers (.product t) s fun u =>
          u.tile t = { x with fill := { f with move := some (.writeBack (if itemOvw i then .toClear else .toLoad)) } } ∧
          (∀ j, j ≠ t.val → u.tile j = s.tile j) ∧ Counts s u (fTILE_STALL_COUNT t 11) 1 ∧
          OnlyFields s { u with tiles := s.tiles } [fTILE_STALL_COUNT t 11]) ∧
        (f.res = none → Answers (.product t) s fun u =>
          u.tile t = (if itemOvw i then
              { x.setAcc a (x.acc a).clear with
                fill := { f with slice := some 0, quads := quadrants x i (itemOp i a), res := some (itemImg i, itemGroup i) } }
            else { x with fill := { f with move := some .load } }) ∧
          (∀ j, j ≠ t.val → u.tile j = s.tile j) ∧ Counts s u (fTILE_STALL_COUNT t 11) 1 ∧
          OnlyFields s { u with tiles := s.tiles } [fTILE_STALL_COUNT t 11])))

/-- R218, R147: a write-back of the resident block leaves its image in device memory, and what it was for follows; a load brings an image into the
bound tile. R225, R227, R228: 64 idle cycles of the units give the tile the lowest fill level that may run, 1 before 2 before 3, with the write-back
that an optimizer item asks for before any slice, and a level yields when a unit's own head can start. R219, R220: a
slice adds the chunks of 32 values of k to every element of one quadrant that is not frozen, and after the last quadrant L1 advances by
as many steps. -/
def Obligations.DeferralTransfersAndSlices : Prop :=
  ∀ (s : State) (t : Tid) (i a : Nat) (x : Tile) (f : FillUnit), s.tile t = x → x.regBad = [] → ocUe x (maskRanges i) = none → x.fill = f → isLive s t = true → a < 2 →
    (∀ n ad g, f.move = some (.writeBack n) → f.bound = some a → f.res = some (ad, g) → f.defer.headD 0 = i → LinesFine s ad imageBytes →
      Answers (.residentTransferDone ⟨t, false⟩) s fun u =>
        (∀ k, memByte u k = if ad ≤ k ∧ k < ad + imageBytes then (x.acc a).image.getD (k - ad) 0 else memByte s k) ∧
        (n = .toLoad → (u.tile t).fill = { f with move := some .load, res := none } ∧ (u.tile t).mat = x.mat) ∧
        (n = .toClear → (u.tile t).fill =
            { f with move := none, slice := some 0, quads := quadrants x i (itemOp i a), res := some (itemImg i, itemGroup i) } ∧
          (u.tile t).acc a = (x.acc a).clear) ∧
        (n = .drain → (u.tile t).fill.res = none ∧ (u.tile t).fill.move = none ∧ (u.tile t).fill.defer = f.defer.tail ∧
          (u.tile t).fill.bound = some a) ∧
        (n = .release → (u.tile t).fill.res = none ∧ (u.tile t).fill.move = none ∧ (u.tile t).fill.defer = f.defer.tail ∧
          (u.tile t).fill.bound = none) ∧
        (n = .idle → (u.tile t).fill = { f with move := none, res := none, level := if f.defer = [] then 0 else f.level } ∧ (u.tile t).mat = x.mat) ∧
        (∀ j, j ≠ t.val → (u.tile j).mat = (s.tile j).mat ∧ (u.tile j).fill = (s.tile j).fill)) ∧
    (f.move = some .load → f.bound = some a → f.defer.headD 0 = i → LinesFine s (itemImg i) imageBytes →
      imageBad (memBytes s (itemImg i) imageBytes) = false → Answers (.residentTransferDone ⟨t, false⟩) s fun u => ∃ v, CacheMoved s v ∧ TileBecomes v u t
        { x.setAcc a (accOfImage (memBytes s (itemImg i) imageBytes)) with
          fill := { f with move := none, slice := some 0, quads := quadrants x i (itemOp i a), res := some (itemImg i, itemGroup i) } }) ∧
    (clkRuns s t = true →
      (matIdle s t = true → f.bound = some a → phaseHolds s = false → (f.defer ≠ [] ∨ optHeld x = true) → Answers (.idleFillStart t) s fun u =>
        TileBecomes s u t { x with fill := { f with
          level := 1, move := if optHeld x = true ∧ f.slice = none ∧ f.move = none then some (.writeBack .idle) else f.move } }) ∧
      (∀ j l, vecIdle s t = true → f.defer = [] → x.vec.win = none → phaseHolds s = false → f.opt = j :: l → optHeld x = false →
        (f.optHead ≠ none ∨ optFree s j = true) → Answers (.idleFillStart t) s fun u => TileBecomes s u t { x with fill := { f with level := 2 } }) ∧
      (canFillDefer s t = false → canFillOpt s t = false → Answers (.idleFillStart t) s fun u =>
        TileBecomes s u t { x with fill := { f with level := if matIdle s t = true ∧ vecIdle s t = true then 3 else 0 } }) ∧
      (∀ e, (e = .matrix ∨ e = .vector) → fillHolds x e = true → queueStuck s t e = false → Answers (.fillYield t) s fun u =>
        TileBecomes s u t { x with fill := { f with level := 0 } })) ∧
    (∀ k op qs q kk steps, deferHead s t = some i → f.slice = some k → f.bound = some a → f.level = 1 → phaseHolds s = false →
      queueStuck s t .matrix = true → op = itemOp i a → qs = f.quads → qs ≠ [] →
      kk = k / qs.length → ocUe x (sliceRanges i op kk) = none → q = qs.getD (k % qs.length) (0, 0) → steps = stepsOf op kk → k + 1 < qs.length * (op.kLen / 32) →
      ((x.acc a).l2 < 2 ^ 20 ∨ (k + 1) % qs.length ≠ 0) → (x.acc a).l1 + steps.length < 2 ^ 20 → Answers (.fillSlice ⟨t, false⟩) s fun u =>
        (u.tile t).fill = { f with slice := some (k + 1) } ∧
        (∃ o, (u.tile t).acc a = { (x.acc a).map (fun key e =>
            if q.1 ≤ key / 128 ∧ key / 128 < q.1 + 64 ∧ key / 128 < op.m ∧ q.2 ≤ key % 128 ∧ key % 128 < q.2 + 64 ∧ key % 128 < op.n ∧
              frozen x i (key / 128) (key % 128) = false
            then steps.foldl (fun e j => match stepTerm x op [] j (key / 128) (key % 128) with | some (v, _) => e.term v | none => e) e else e) with
          l1 := (x.acc a).l1 + (if (k + 1) % qs.length = 0 then steps.length else 0), ovf16 := o }) ∧
        (u.tile t).acc (1 - a) = x.acc (1 - a) ∧ (u.tile t).oc = x.oc ∧ u = { s with tiles := u.tiles } ∧ ∀ j, j ≠ t.val → u.tile j = s.tile j)

/-! ### Redraws and phases -/

/-- R376 to R378: the steps of a port in a redraw. Drain ends: the port redraws, its changed lanes retune, and no unit stays on it. Retune
ends: every lane has its new byte and target, an unused one is OFF, a dark one DARK, a moved or an unpaired one LOCKING, and any other keeps its
state. Lock ends: a locking lane is checked, and sends its identity unit where its ring holds lock. Check ends: a lane without identity is LATE_PEER, one that passed the
check (lock held, PRBS31 without an error) is in service, and one that did not is dropped. R379: an uncorrectable map table word stops the redraw and marks the fabric degraded. R377, R378, R379, R210: a port whose lanes
have left the check enters service, and the last port of all ends the redraw with its duration, on which the closures held meanwhile act; wave 2 starts 100 µs after wave 1. A
LATE_PEER lane repeats its check every 100 µs; one that passes enters service, and one that has not 10 ms after its port's return is unpaired. After the redraw the next phase
is entered at the present time. R388: APPLY is refused with an error bit where it is late or breaks a rule, staged while phases are loaded,
and ignored while one is pending. -/
def Obligations.PortRedraw : Prop :=
  (∀ (s : State) (p : Port) (m : Option Nat), s.fab.redraw.bind (·.map) = m →
     (portStep s p.val = some .drain → Answers (.redrawDrainEnd p) s fun u =>
       portStep u p.val = some .retune ∧ getF u (fOPT_PORT_PSTATE p.val) = pREDRAWING ∧
       (∀ l, l < 32 → laneState u p.val l = if l ∈ changedLanes s m p.val then lRETUNE else laneState s p.val l) ∧
       (∀ l ∈ changedLanes s m p.val, l < 32 → (laneRt u p.val l).prior = laneState s p.val l) ∧
       (∀ q l, q < 17 → l < 32 → q ≠ p.val → laneState u q l = laneState s q l) ∧
       (∀ j, u.tile j = s.tile j) ∧ u.mem = s.mem ∧ u.fab.inq = s.fab.inq ∧ u.fab.out = s.fab.out) ∧
     (portStep s p.val = some .retune → Answers (.redrawRetuneEnd p false) s fun u =>
       portStep u p.val = some .lock ∧
       (∀ l n, (newLanes s m p.val)[l]? = some n →
         (laneRt u p.val l).byte = n.1 ∧ (laneRt u p.val l).tgt = n.2 ∧
         (∀ x, n.2 = some x → getF u (fOPT_LANE_LINE p.val l) = x.2 % 2 ^ ((fOPT_LANE_LINE p.val l).hi + 1 - (fOPT_LANE_LINE p.val l).lo)) ∧
         laneState u p.val l = (if n.1 % 128 = 0x7F then lOFF else if n.2 = none then lDARK
           else if laneChanges (laneRt s p.val l) n = true ∨ laneState s p.val l = lUNPAIRED then lLOCKING else laneState s p.val l)) ∧
       (∀ q l, q < 17 → l < 32 → q ≠ p.val → laneState u q l = laneState s q l ∧ laneRt u q l = laneRt s q l) ∧
       u = { s with csr := u.csr, fab := u.fab }) ∧
     (portStep s p.val = some .retune → s.mail.heldClose = [] → Answers (.redrawRetuneEnd p true) s fun u =>
       u.fab.mapBad = true ∧ getF u fOPT_FAB_STATUS_DEGRADED = 1 ∧ portStep u p.val = none ∧ getF u (fOPT_PORT_PSTATE p.val) = pINSERVICE ∧
       (∀ l, l < 32 → laneState s p.val l = lRETUNE → laneState u p.val l = (laneRt s p.val l).prior % 16) ∧
       (s.pm.evq.length < 1024 → ∃ e, u.pm.evq = s.pm.evq ++ [e] ∧ e.status = 0x09 ∧ e.arg1 = 4) ∧ (∀ j, u.tile j = s.tile j) ∧ u.mem = s.mem) ∧
     (portStep s p.val = some .lock → Answers (.redrawLockEnd p) s fun u =>
       portStep u p.val = some .check ∧
       (∀ q l, q < 17 → l < 32 → laneState u q l = if q = p.val ∧ laneState s q l = lLOCKING then lCHECK else laneState s q l) ∧
       (∀ l, l < 32 → laneState u p.val l = lCHECK →
         (laneRt u p.val l).txUnits = (laneRt s p.val l).txUnits ++
           if ringLocked s p.val l = true then [frameUnit 3 0 (toBytes 8 (getF s fOPT_SERIAL_SERIAL))] else []) ∧
       u = { s with csr := u.csr, fab := u.fab, wire := u.wire }) ∧
     (∀ passed : BitVec 32, portStep s p.val = some .check → Answers (.redrawCheckEnd p passed) s fun u =>
       (∀ l, l < 32 → laneState s p.val l = lCHECK →
         laneState u p.val l = if (laneRt s p.val l).identity = false then lLATEPEER
           else if passed.getLsbD l = true ∧ laneChecked s p.val l = true then lINSERVICE else lDROPPED) ∧
       (∀ q l, q < 17 → l < 32 → (q ≠ p.val ∨ laneState s q l ≠ lCHECK) → laneState u q l = laneState s q l) ∧
       portStep u p.val = some .check ∧ (∀ j, u.tile j = s.tile j) ∧ u.mem = s.mem)) ∧
  (∀ (s : State) (p : Port) (r : Redraw),
     (s.fab.redraw = some r → portStep s p.val = some .check → checksDone s p.val = true →
       ((r.enter = none → (∀ x ∈ r.wave1, x = p.val) → (∀ x ∈ r.running, x.1 = p.val) → r.wave2 = [] → s.mail.heldClose = []) →
         Answers (.portReturn p) s fun u => getF u (fOPT_PORT_PSTATE p.val) = pINSERVICE ∧ portStep u p.val = none ∧
         mget (fun _ => 0) u.fab.unpairedAt p.val = s.now + 10000000 ∧ Counts s u (fOPT_FAB_EVENT_COUNT 1) 1 ∧
         (∀ q l, q < 17 → l < 32 → laneState u q l = laneState s q l) ∧ (∀ j, u.tile j = s.tile j) ∧ u.mem = s.mem ∧
         ((∀ x ∈ r.wave1, x = p.val) → (∀ x ∈ r.running, x.1 = p.val) → r.wave2 = [] →
           (r.enter ≠ none → getF u fCMP_REDRAW_LAST_NS = min fCMP_REDRAW_LAST_NS.top (s.now - r.start)) ∧
           (r.enter = none → u.fab.redraw = none ∧ getF u fCMP_REDRAW_LAST_NS = getF s fCMP_REDRAW_LAST_NS)) ∧
         (r.wave2 ≠ [] → (∀ x ∈ r.wave1, x = p.val) → r.wave1End = none → ∃ q, u.fab.redraw = some q ∧ q.wave1End = some s.now ∧ q.wave1 = [] ∧
           q.wave2 = r.wave2)) ∧
       (∀ h rest, r.enter = none → (∀ x ∈ r.wave1, x = p.val) → (∀ x ∈ r.running, x.1 = p.val) → r.wave2 = [] → s.mail.heldClose = h :: rest →
         ∃ v, exec (.portReturn p) s = .next (releaseHeld (rest.length + 1) v) ∧ v.fab.redraw = none ∧ v.mail.heldClose = h :: rest ∧
           getF v (fOPT_PORT_PSTATE p.val) = pINSERVICE ∧ (∀ j, v.tile j = s.tile j) ∧ v.mem = s.mem)) ∧
     (∀ f, s.fab.redraw = some r → r.wave1End = some f → f + 100000 ≤ s.now → r.wave2 ≠ [] → (∀ q ∈ r.wave2, q < 16) → Answers .wave2Start s fun u =>
       (∀ q ∈ r.wave2, getF u (fOPT_PORT_PSTATE q) = pDRAINING) ∧
       u.fab.redraw = some { r with wave2 := [], running := r.running ++ r.wave2.map fun q => (q, s.now, PortStep.drain) } ∧
       OnlyFields s { u with fab := s.fab } (r.wave2.map fOPT_PORT_PSTATE)) ∧
     (∀ (l : Lane), laneState s p.val l.val = lLATEPEER →
       ((laneRt s p.val l.val).retryAt + 100000 ≤ s.now → laneChecked s p.val l.val = true →
         Answers (.latePeerRetry p l true) s fun u => laneState u p.val l.val = lINSERVICE ∧
         (∀ q k, q < 17 → k < 32 → (q ≠ p.val ∨ k ≠ l.val) → laneState u q k = laneState s q k) ∧ (∀ j, u.tile j = s.tile j) ∧ u.mem = s.mem) ∧
       ((laneRt s p.val l.val).retryAt + 100000 ≤ s.now → ringLocked s p.val l.val = false → ∀ pass, Answers (.latePeerRetry p l pass) s fun u =>
         laneRt u p.val l.val = { laneRt s p.val l.val with retryAt := s.now } ∧ u = { s with fab := u.fab }) ∧
       ((laneRt s p.val l.val).retryAt + 100000 ≤ s.now → ringLocked s p.val l.val = true → Answers (.latePeerRetry p l false) s fun u =>
         UnitSent s u p.val l.val 3 0 (toBytes 8 (getF s fOPT_SERIAL_SERIAL)) ∧ (laneRt u p.val l.val).retryAt = s.now ∧
         u = { s with wire := u.wire, fab := u.fab }) ∧
       (s.now < (laneRt s p.val l.val).retryAt + 100000 → ∀ pass, exec (.latePeerRetry p l pass) s = .next s) ∧
       (mget (fun _ => 0) s.fab.unpairedAt p.val ≠ 0 → mget (fun _ => 0) s.fab.unpairedAt p.val ≤ s.now → s.pm.evq.length < 1024 → Answers (.laneUnpaired p l) s fun u =>
         laneState u p.val l.val = lUNPAIRED ∧ getF u fOPT_FAB_ERR_LANE_UNPAIRED = 1 ∧ Counts s u (fOPT_FAB_EVENT_COUNT 3) 1 ∧
         (∃ e, u.pm.evq = s.pm.evq ++ [e] ∧ e.status = 0x121 ∧ e.inst = 32 * p.val + l.val) ∧ u.fab = s.fab ∧
         (∀ j, u.tile j = s.tile j) ∧ u.mem = s.mem)) ∧
     (∀ q, s.fab.redraw = some r → r.enter = some q → q < 16 → r.wave1 = [] → r.wave2 = [] → r.running = [] → s.mail.heldClose = [] →
       Answers .phaseEnter s fun u => getF u fCMP_PHASE_CUR = q ∧ getF u (fCMP_PHASE_START_START q) = s.now % 2 ^ 64 ∧ u.fab.redraw = none ∧
         u.mem = s.mem ∧ u.now = s.now) ∧
     (∀ (k : Fin 16) late bad, late = (bitF s fCMP_PHASE_VALID && decide (getF s fOPT_ROUTE_AT_AT_COUNT ≤ getF s (fCMP_PHASE_COUNT_COUNT k.val))) →
       bad = substBad s →
       (bitF s fOPT_FAB_STATUS_PENDING = true → exec (.apply k) s = .next s) ∧
       (bitF s fOPT_FAB_STATUS_PENDING = false → late = true ∨ bad = true → Answers (.apply k) s fun u =>
         (late = true → getF u fOPT_FAB_ERR_ROUTE_LATE = 1) ∧ (bad = true → getF u fOPT_FAB_ERR_SUBST_DUP = 1) ∧ u.fab = s.fab ∧
         (∀ j, u.tile j = s.tile j) ∧ u.mem = s.mem) ∧
       (bitF s fOPT_FAB_STATUS_PENDING = false → late = false → bad = false → bitF s fCMP_PHASE_VALID = true → Answers (.apply k) s fun u =>
         u.fab = { s.fab with staged := some ⟨k.val, getF s fOPT_ROUTE_AT_AT_COUNT⟩ } ∧ getF u fOPT_FAB_STATUS_PENDING = 1 ∧
         OnlyFields s { u with fab := s.fab } [fOPT_ROUTE_CTL_AT_PHASE, fOPT_FAB_STATUS_PENDING]) ∧
       (bitF s fOPT_FAB_STATUS_PENDING = false → late = false → bad = false → bitF s fCMP_PHASE_VALID = false → Answers (.apply k) s fun u =>
         (∀ x, x < 64 → rowSub u x = stagedRow s x) ∧ (∀ y, y < 64 → colSub u y = stagedCol s y) ∧
         (∀ a b, a < 65 → b < 65 → isDead u (posOf a b) = stagedDead s a b) ∧ getF u fOPT_FAB_STATUS_PENDING = 0 ∧
         (∀ j, u.tile j = s.tile j) ∧ u.mem = s.mem)))

/-! ### Device memory -/

/-- R290, R291: an access unit whose stored codeword differs from a correct one in a single symbol is decided as corrected, with that symbol and
that difference: every error within one symbol is repaired. R295, R296: the columns of the SEC-DED code are the first 32 seven-bit values with three
bits set; check bit j is the XOR of the data bits whose column has bit j set; a word's codeword is clean, every single wrong bit of it is found and
corrected, and every two are detected. R278: in each of the three interleave modes, two different granules of one quad never have the same
controller, channel, bank and position, and each of these is within its range. -/
def Obligations.SingleSymbolErrorsAreCorrected : Prop :=
  (∀ (i x : Nat), i < 67 → 0 < x → x < 256 → decodeUnit [(i, x)] = (.corrected, some (i, x)) ∧ errXor [(i, x)] [(i, x)] = []) ∧
  columns = ((List.range 128).filter fun p => ((List.range 7).filter (bit p)).length == 3).take 32 ∧
  (∀ (d : BitVec 32) (j : Fin 7), bit (checkBits d) j.val =
    (((List.range 32).filter fun k => d.getLsbD k && bit (columns.getD k 0) j.val).length % 2 == 1)) ∧
  (∀ (d : BitVec 32), (encodeWord d).setWidth 32 = d ∧ (encodeWord d).toNat / 2 ^ 32 = checkBits d ∧ decodeWord (encodeWord d) = .clean ∧
    wordData (encodeWord d) = d) ∧
  (∀ (d : BitVec 32) (k : Fin 39), decodeWord (encodeWord d ^^^ BitVec.ofNat 39 (2 ^ k.val)) = .corrected k.val ∧
    wordData (encodeWord d ^^^ BitVec.ofNat 39 (2 ^ k.val)) = d) ∧
  (∀ (d : BitVec 32) (j k : Fin 39), j ≠ k → decodeWord (encodeWord d ^^^ BitVec.ofNat 39 (2 ^ j.val) ^^^ BitVec.ofNat 39 (2 ^ k.val)) = .uncorrectable) ∧
  (∀ w : BitVec 39, (wordSyndrome w = 0 → decodeWord w = .clean) ∧
    (∀ k, k < 32 → wordSyndrome w = columns.getD k 0 → decodeWord w = .corrected k) ∧
    (∀ j, j < 7 → wordSyndrome w = 2 ^ j → decodeWord w = .corrected (32 + j)) ∧
    (wordSyndrome w ≠ 0 → wordSyndrome w ∉ columns → (∀ j, j < 7 → wordSyndrome w ≠ 2 ^ j) → decodeWord w = .uncorrectable)) ∧
  (∀ (mode a b : Nat), mode < 3 → mapped a = true → mapped b = true → quadOf a = quadOf b →
    (a / 256 ≠ b / 256 → placeOf mode a ≠ placeOf mode b) ∧ (a / 256 = b / 256 → placeOf mode a = placeOf mode b) ∧ (placeOf mode a).bank < 16 ∧
    (isLpddr a = false → (placeOf mode a).ctl < 8 ∧ (placeOf mode a).chan < 64) ∧
    (isLpddr a = true → 8 ≤ (placeOf mode a).ctl ∧ (placeOf mode a).ctl < 24 ∧ (placeOf mode a).chan < 4))

/-- R37, R291 to R294, R283 to R285, R299: a read of a correct unit returns its bytes and changes no byte; of a corrected one the corrected
bytes, with the correction counted and the corrective write queued; of an uncorrectable one a mark beside the data, with the event counted.
A write leaves its bytes; with poisoned data it stores the poison pattern over them. The corrective write and the scrubber repair a unit. The Eddy
cache answers and allocates without changing a byte, and reports a unit that it holds as bad at every read. An address unit that no controller serves stops the row. R296, R297, R281, R302: an
SRAM word with an error in any one bit of its codeword is corrected and counted; one with errors in any two bits raises the event, and its
operand-cache or register word is marked; a clean line of the cache is read again and a dirty one written back with poison; a word of the network's datapath is
corrected and counted, or the data arrives marked, with DP_UE. R300, R550, R551: a scrubber reads while its pass runs or the next one is due, and skips a die that is not UP. MEM_QUAD takes a write of a legal mode unless it is locked; when the change takes effect the new mode applies and no byte of another
quad differs. -/
def Obligations.DeviceMemory : Prop :=
  (∀ (s : State) (a : Nat) (v : Nat), a / 64 = v →
     (mapped a = false →
       (∀ e, exec (.memRead a e) s = .fault .unmappedUnit) ∧ (∀ b e, exec (.memWrite a b e) s = .fault .unmappedUnit) ∧
       exec (.correctiveWrite a) s = .fault .unmappedUnit ∧ (∀ e l, exec (.dramScrub a e l) s = .fault .unmappedUnit) ∧
       (∀ n h w, exec (.eddyAccess a n h w) s = .fault .unmappedUnit)) ∧
     (mapped a = true → UnitOpen s v →
       (∀ e p, errXor (unitErr s v) (e.map fun q : Fin 67 × BitVec 8 => (q.1.val, q.2.toNat)) = p →
         (eddyLine s (v * 64) = none → p = [] → Answers (.memRead a ⟨e, 0⟩) s fun u =>
           u.readData = ofBytes (memBytes s (v * 64) 64) ∧ MemSame s u ∧ u.csr = s.csr ∧ (∀ j, u.tile j = s.tile j)) ∧
         (∀ i x, eddyLine s (v * 64) = none → decodeUnit p = (.corrected, some (i, x)) → Answers (.memRead a ⟨e, 0⟩) s fun u =>
           u.readData = ofBytes (applyErr (memBytes s (v * 64) 64) (errXor p [(i, x)])) ∧ v ∈ u.mem.corrective ∧ MemSame s u ∧
           getF u fMEM_CE_COUNT_DRAM = min fMEM_CE_COUNT_DRAM.top (getF s fMEM_CE_COUNT_DRAM + 1) ∧ getF u fMEM_ERR_STATUS_CE = 1 ∧
           unitErr u v = p ∧ ∀ j, u.tile j = s.tile j) ∧
         (eddyLine s (v * 64) = none → (decodeUnit p).1 = .uncorrectable ∨ (decodeUnit p).1 = .poisoned → Answers (.memRead a ⟨e, 0⟩) s fun u =>
           u.readData = ofBytes (applyErr (memBytes s (v * 64) 64) p) + 2 ^ 512 ∧ MemSame s u ∧
           getF u fMEM_UE_COUNT_DRAM = min fMEM_UE_COUNT_DRAM.top (getF s fMEM_UE_COUNT_DRAM + 1) ∧
           (s.pm.evq.length < 1024 → ∃ r, u.pm.evq = s.pm.evq ++ [r] ∧ r.status = 0x09 ∧ r.arg0 = v * 64) ∧ unitErr u v = p ∧
           ∀ j, u.tile j = s.tile j) ∧
         (∀ l, eddyLine s (v * 64) = some l → l.held (v % 4) = [] → Answers (.memRead a ⟨e, 0⟩) s fun u =>
           u.readData = ofBytes (memBytes s (v * 64) 64) ∧ MemSame s u ∧ u.csr = s.csr ∧ ∀ j, u.tile j = s.tile j) ∧
         (∀ l q, eddyLine s (v * 64) = some l → l.held (v % 4) = q → ((decodeUnit q).1 = .uncorrectable ∨ (decodeUnit q).1 = .poisoned) →
           Answers (.memRead a ⟨e, 0⟩) s fun u => u.readData = ofBytes (applyErr (memBytes s (v * 64) 64) q) + 2 ^ 512 ∧ MemSame s u ∧
             u.mem.eddy = s.mem.eddy ∧ getF u fMEM_UE_COUNT_DRAM = min fMEM_UE_COUNT_DRAM.top (getF s fMEM_UE_COUNT_DRAM + 1) ∧
             ∀ j, u.tile j = s.tile j) ∧
         (∀ w k, decodeWord w = .corrected k → eddyLine s (v * 64) = none → p = [] → Answers (.memRead a ⟨e, w⟩) s fun u =>
           u.readData = ofBytes (memBytes s (v * 64) 64) ∧ MemSame s u ∧
           getF u fMEM_CE_COUNT_SRAM = min fMEM_CE_COUNT_SRAM.top (getF s fMEM_CE_COUNT_SRAM + 1)) ∧
         (∀ w, decodeWord w = .uncorrectable → eddyLine s (v * 64) = none → p = [] → Answers (.memRead a ⟨e, w⟩) s fun u =>
           u.readData = ofBytes (memBytes s (v * 64) 64) + 2 ^ 512 ∧ MemSame s u ∧ getF u fMEM_ERR_STATUS_DP_UE = 1 ∧
           getF u fMEM_UE_COUNT_SRAM = min fMEM_UE_COUNT_SRAM.top (getF s fMEM_UE_COUNT_SRAM + 1)) ∧
         (∀ last, s.mem.dram.due s.now = false → exec (.dramScrub a e last) s = .next s) ∧
         (∀ i x last, s.mem.dram.due s.now = true → decodeUnit p = (.corrected, some (i, x)) → Answers (.dramScrub a e last) s fun u =>
           unitErr u v = errXor p [(i, x)] ∧ MemSame s u ∧ getF u fMEM_CE_COUNT_DRAM = min fMEM_CE_COUNT_DRAM.top (getF s fMEM_CE_COUNT_DRAM + 1) ∧
           (last = true → Counts s u fMEM_SCRUB_PASSES_DRAM 1) ∧ ∀ j, u.tile j = s.tile j) ∧
         (∀ last, s.mem.dram.due s.now = true → (decodeUnit p).1 = .clean → Answers (.dramScrub a e last) s fun u => MemSame s u ∧
           (last = true → Counts s u fMEM_SCRUB_PASSES_DRAM 1) ∧ OnlyFields s { u with mem := s.mem } [fMEM_SCRUB_PASSES_DRAM])) ∧
       (∀ b, mappedRange a b.length = true → RangeClean s a b.length → Answers (.memWrite a b ⟨false, 0⟩) s fun u => MemStored s u a b) ∧
       (∀ b, mappedRange a b.length = true → RangeClean s a b.length → Answers (.memWrite a b ⟨true, 0⟩) s fun u =>
         (∀ k, memByte u k = if a ≤ k ∧ k < a + b.length then b.getD (k - a) 0 else memByte s k) ∧
         ∀ w, a / 64 ≤ w → w * 64 < a + b.length →
           (eddyLine s (w * 64) = none → unitErr u w = poisonErr) ∧
           (∀ l, eddyLine s (w * 64) = some l → ∃ k, eddyLine u (w * 64) = some k ∧ k.dirty = true ∧ k.held (w % 4) = poisonErr)) ∧
       (∀ i x, v ∈ s.mem.corrective → decodeUnit (unitErr s v) = (.corrected, some (i, x)) → Answers (.correctiveWrite a) s fun u =>
         unitErr u v = errXor (unitErr s v) [(i, x)] ∧ v ∉ u.mem.corrective ∧ MemSame s u ∧ (∀ w, w ≠ v → unitErr u w = unitErr s w) ∧
         u = { s with mem := u.mem }) ∧
       (∀ n (h : Fin 4), 0 < n → a % 256 + n ≤ 256 → RangeClean s (a / 256 * 256) 256 → Answers (.eddyAccess a n h none) s fun u =>
         u.readData = ofBytes (memBytes s a n) ∧ MemSame s u ∧
         (bitF s (fMEM_QUAD_EDDY (quadOf a)) = true → (h = 0 ∨ h = 2) → (eddyLine u a).isSome = true) ∧
         (bitF s (fMEM_QUAD_EDDY (quadOf a)) = false → u = { s with readData := u.readData }) ∧ ∀ j, u.tile j = s.tile j) ∧
       (∀ n (h : Fin 4) b, 0 < b.length → a % 256 + b.length ≤ 256 → RangeClean s a b.length → Answers (.eddyAccess a n h (some b)) s fun u =>
         (b.length = 256 → bitF s (fMEM_QUAD_EDDY (quadOf a)) = true → (h = 0 ∨ h = 2) → (eddyLine u a).isSome = true) ∧
         ∀ k, memByte u k = if a ≤ k ∧ k < a + b.length then b.getD (k - a) 0 else memByte s k))) ∧
  (∀ (s : State),
     (∀ w e last, sramDue s w = false → exec (.sramScrub w e last) s = .next s) ∧
     (∀ w last, sramDue s w = true → (∀ u, w ≠ .datapath u) → Answers (.sramScrub w 0 last) s fun u =>
         (last = true → sramDie w = none → w ≠ .postmaster → Counts s u fMEM_SCRUB_PASSES_SRAM 1) ∧
         (last = false → u.csr = s.csr) ∧ OnlyFields s { u with mem := s.mem, pkg := s.pkg } [fMEM_SCRUB_PASSES_SRAM]) ∧
     (∀ w k, k < 39 → sramDue s w = true → sramCounted w = true → (∀ u, w ≠ .datapath u) → Answers (.sramScrub w (BitVec.ofNat 39 (2 ^ k)) false) s fun u =>
         getF u fMEM_CE_COUNT_SRAM = min fMEM_CE_COUNT_SRAM.top (getF s fMEM_CE_COUNT_SRAM + 1) ∧
         OnlyFields s { u with mem := s.mem, pkg := s.pkg } [fMEM_CE_COUNT_SRAM]) ∧
     (∀ v e, exec (.sramScrub (.datapath v) e false) s = .next (spoil s v e)) ∧
     (∀ (t : Tid) n j k, j < k → k < 39 → sramDue s (.operandCache t n) = true → n.val ∉ (s.tile t).ocBad →
       Answers (.sramScrub (.operandCache t n) (BitVec.ofNat 39 (2 ^ j + 2 ^ k)) false) s fun u =>
         getF u fMEM_UE_COUNT_SRAM = min fMEM_UE_COUNT_SRAM.top (getF s fMEM_UE_COUNT_SRAM + 1) ∧ getF u fMEM_ERR_STATUS_SRAM_UE = 1 ∧
         u.tile t = { s.tile t with ocBad := (s.tile t).ocBad ++ [n.val] } ∧ (∀ j, j ≠ t.val → u.tile j = s.tile j) ∧ u.mem = s.mem ∧
         (s.pm.evq.length < 1024 → ∃ r, u.pm.evq = s.pm.evq ++ [r] ∧ r.status = 0x09 ∧ r.arg1 = 2)) ∧
     (∀ (t : Tid) w j k, j < k → k < 39 → sramDue s (.registers t w) = true → w ∉ (s.tile t).regBad →
       Answers (.sramScrub (.registers t w) (BitVec.ofNat 39 (2 ^ j + 2 ^ k)) false) s fun u =>
         getF u fMEM_UE_COUNT_SRAM = min fMEM_UE_COUNT_SRAM.top (getF s fMEM_UE_COUNT_SRAM + 1) ∧ getF u fMEM_ERR_STATUS_SRAM_UE = 1 ∧
         u.tile t = { s.tile t with regBad := (s.tile t).regBad ++ [w] } ∧ (∀ j, j ≠ t.val → u.tile j = s.tile j) ∧ u.mem = s.mem) ∧
     (∀ line l j k, j < k → k < 39 → sramDue s (.eddy line) = true → s.mem.eddy.find? (fun l => l.line == line) = some l →
       (∀ i, i < 4 → quadSteady s (4 * line + i) = true) →
       Answers (.sramScrub (.eddy line) (BitVec.ofNat 39 (2 ^ j + 2 ^ k)) false) s fun u =>
         (l.dirty = true → ∀ k ∈ u.mem.eddy, k.line ≠ line) ∧ (l.dirty = false → ∃ k ∈ u.mem.eddy, k.line = line ∧ k.dirty = false ∧ k.keep = l.keep) ∧
         MemSame s u ∧ (∀ j, u.tile j = s.tile j) ∧ (l.dirty = true → l.bad = [] → ∀ i, i < 4 → unitErr u (4 * line + i) = poisonErr)) ∧
     (∀ (q : Fin 34) (v : BitVec 32) m e, m = bits v.toNat 1 0 → e = bits v.toNat 2 2 →
       (bitF s fMEM_CTL_LOCK = true ∨ m = 3 ∨ quadNext s q.val = (m, e) → exec (.memQuadWrite q v) s = .next s) ∧
       (bitF s fMEM_CTL_LOCK = false → m ≠ 3 → quadNext s q.val ≠ (m, e) → Answers (.memQuadWrite q v) s fun u =>
         u = { s with mem := { s.mem with quadChange := s.mem.quadChange ++ [(q.val, m, e)] } })) ∧
     (∀ (q : Fin 34) i m e, m < 4 → e < 2 → firstIdx (fun c : Nat × Nat × Nat => c.1 == q.val) s.mem.quadChange = some i →
       s.mem.quadChange[i]? = some (q.val, m, e) → Answers (.quadModeChangeDone q) s fun u =>
         getF u (fMEM_QUAD_MODE q.val) = m ∧ getF u (fMEM_QUAD_EDDY q.val) = e ∧ u.mem.quadChange = removeAt s.mem.quadChange i ∧
         (∀ k, quadOf k ≠ q.val → memByte u k = memByte s k) ∧ (∀ l ∈ u.mem.eddy, quadOf (l.line * 256) ≠ q.val) ∧
         OnlyFields s { u with mem := s.mem, free := s.free } [fMEM_QUAD_MODE q.val, fMEM_QUAD_EDDY q.val]))

/-! ### The tile directory and flash -/

/-- R312 to R318, R321: the oldest request names an entry. HINT, SETVER, QUERY, ATTACH and UNPIN leave the entry that they describe and reply;
a PIN of a copy at or above its target is counted and granted, one of an EMPTY entry takes a free slot of zeros, and one of a lower copy starts its
promotion and waits. EVICT starts the move down, or drops a slot that flash holds; FREE empties the entry. A request whose conditions do not hold
replies with its status and changes no entry. -/
def Obligations.DirectoryRequests : Prop :=
  ∀ (s : State) (r : Request) (rest : List Request) (e i : Nat) (g : Region) (d : DirEntry), s.tier.reqs = r :: rest → r.entry = e →
    dirBad r = false → regionOf s e = some (i, g) → dirEnt s e = d → s.tier.waits = [] →
    (d.state ≠ .lost →
      (r.op = 3 → Answers .hint s fun u => DirSays s u r rest { d with hint := r.flags % 4 } 0) ∧
      (r.op = 8 → Answers .query s fun u => DirSays s u r rest d 0) ∧
      (r.op = 6 →
        (d.state ≠ .empty → d.version < r.arg → Answers .setver s fun u => DirSays s u r rest { d with version := r.arg } 0) ∧
        (d.state ≠ .empty → r.arg ≤ d.version → Answers .setver s fun u => DirSays s u r rest d stORDER) ∧
        (d.state = .empty → Answers .setver s fun u => DirSays s u r rest d stBUSY)) ∧
      (r.op = 7 → (d.state ≠ .empty ∨ d.pin ≠ 0) → Answers .attach s fun u => DirSays s u r rest d stBUSY) ∧
      (r.op = 7 → d.state = .empty → d.pin = 0 → g.flash = true →
        ((∀ n ∈ g.backing e, present s n = true) → Answers .attach s fun u =>
          DirSays s u r rest { d with state := .resident, tier := 2, slot := noSlot, fback := true, dirty := false } 0) ∧
        ((∃ n ∈ g.backing e, present s n = false) → Answers .attach s fun u => DirSays s u r rest d stABSENT)) ∧
      (r.op = 2 → d.discard = false →
        (d.pin = 0 → Answers .unpin s fun u => DirSays s u r rest d stNOTPINNED) ∧
        (d.pin ≠ 0 → bit r.flags 0 = true → r.arg ≤ d.version → Answers .unpin s fun u => DirSays s u r rest d stORDER) ∧
        (d.pin ≠ 0 → bit r.flags 1 = false → bit r.flags 0 = false → Answers .unpin s fun u =>
          DirSays s u r rest { d with pin := if bit r.flags 2 then 0 else d.pin - 1 } 0) ∧
        (d.pin ≠ 0 → bit r.flags 1 = false → bit r.flags 0 = true → d.version < r.arg → Answers .unpin s fun u =>
          DirSays s u r rest { d with pin := if bit r.flags 2 then 0 else d.pin - 1, version := r.arg, dirty := true, fback := false } 0)) ∧
      (r.op = 1 → ¬ (bit r.flags 3 = true ∧ d.version / 256 ≠ r.arg / 256) →
        (d.pin = 255 → Answers .pin s fun u => DirSays s u r rest d stPINLIMIT) ∧
        (d.pin ≠ 255 → d.state = .resident → d.tier ≤ r.target → Answers .pin s fun u =>
          DirSays s u r rest { d with pin := d.pin + 1, use := min 255 (d.use + 1), last := stamp32 s } 0 ∧ Counts s u (fTIER_EVENT_COUNT 0) 1) ∧
        (d.pin ≠ 255 → d.state = .empty → freeSlots s i g r.target ≠ [] →
          (∀ n ∈ freeSlots s i g r.target, RangeClean s (g.slotAddr r.target n) g.tileBytes ∧
            RangeClean s (g.ownerBase + 4 * (if r.target = 0 then n else g.stackSlots + n)) 4) →
          Answers .pin s fun u => ∃ n o, n ∈ freeSlots s i g r.target ∧ o = g.ownerBase + 4 * (if r.target = 0 then n else g.stackSlots + n) ∧
            dirEnt u e = { d with
              pin := d.pin + 1, use := min 255 (d.use + 1), last := stamp32 s
              state := .resident, tier := r.target, slot := n, dirty := true, fback := false } ∧
            (if pastDeadline s ⟨e, r, false, false, none⟩ = true then u.tier.waits = [⟨e, r, true, false, none⟩] else DirReplied s u r 0) ∧
            u.tier.reqs = rest ∧ (∀ k, k ≠ e → dirEnt u k = dirEnt s k) ∧
            ∀ k, memByte u k = if o ≤ k ∧ k < o + 4 then (toBytes 4 e).getD (k - o) 0
              else if g.slotAddr r.target n ≤ k ∧ k < g.slotAddr r.target n + g.tileBytes then 0 else memByte s k) ∧
        (d.pin = 0 → d.state = .resident → r.target < d.tier → d.tier ≤ 2 → movesFull s = false → freeSlots s i g r.target ≠ [] →
          Answers .pin s fun u => ∃ n, n ∈ freeSlots s i g r.target ∧
            dirEnt u e = { d with pin := 1, use := min 255 (d.use + 1), last := stamp32 s, state := .promoting } ∧
            u.tier.moves = s.tier.moves ++ [⟨e, r.target, n, .pin, 0⟩] ∧ u.tier.waits = [⟨e, r, true, false, none⟩] ∧ u.tier.reqs = rest ∧
            u.tier.fops = s.tier.fops ++ (if d.tier = 2 then (g.backing e).map fun n => ⟨n, .moveRead e, none⟩ else []) ∧
            u = { s with tier := u.tier, free := u.free })) ∧
      (r.op = 1 → bit r.flags 3 = true → d.version / 256 ≠ r.arg / 256 → r.sender = .device → Answers .pin s fun u =>
        DirSays s u r rest d stSKEW ∧ Counts s u (fTIER_EVENT_COUNT 9) 1) ∧
      (r.op = 4 →
        (d.pin ≠ 0 ∨ d.state ≠ .resident → Answers .evict s fun u => DirSays s u r rest d stBUSY) ∧
        (d.pin = 0 → d.state = .resident → (r.flags ≠ 2 ∨ g.flash = true) → r.flags ≤ d.tier → Answers .evict s fun u => DirSays s u r rest d 0) ∧
        (d.pin = 0 → d.state = .resident → r.flags = 2 → g.flash = true → d.tier < 2 → d.fback = true → movesFull s = false →
          Answers .evict s fun u => dirEnt u e = { d with tier := 2, slot := noSlot, fback := true, dirty := false } ∧
            Counts s u (fTIER_EVENT_COUNT 2) 1 ∧ DirReplied s u r 0 ∧ u.tier.reqs = rest ∧ ∀ k, k ≠ e → dirEnt u k = dirEnt s k) ∧
        (d.pin = 0 → d.state = .resident → r.flags = 1 → d.tier = 0 → movesFull s = false → freeSlots s i g 1 ≠ [] → Answers .evict s fun u =>
          ∃ n, n ∈ freeSlots s i g 1 ∧ dirEnt u e = { d with state := .evicting } ∧ u.tier.moves = s.tier.moves ++ [⟨e, 1, n, .evict r, 0⟩] ∧
            u.tier.reqs = rest ∧ u = { s with tier := u.tier, free := u.free })) ∧
      (r.op = 5 →
        (d.pin ≠ 0 ∨ d.state = .promoting ∨ d.state = .evicting → Answers .free s fun u => DirSays s u r rest d stBUSY) ∧
        (d.pin = 0 → (d.state = .resident ∨ d.state = .empty) → Answers .free s fun u =>
          dirEnt u e = { d with state := .empty, tier := 0, slot := noSlot, dirty := false, fback := false, discard := false, pin := 0 } ∧
          DirReplied s u r 0 ∧ u.tier.reqs = rest ∧ ∀ k, k ≠ e → dirEnt u k = dirEnt s k))) ∧
    (∀ c op, (op = 1 ∧ c = Instr.pin ∨ op = 2 ∧ c = .unpin ∨ op = 3 ∧ c = .hint ∨ op = 4 ∧ c = .evict ∨ op = 6 ∧ c = .setver ∨
        op = 7 ∧ c = .attach ∨ op = 8 ∧ c = .query) → r.op = op → d.state = .lost → Answers c s fun u => DirSays s u r rest d stLOST)

/-- R306 to R309: a good region table is loaded, and at the end of the load every entry is EMPTY with version 0. R313, R304, R328: FLASH_WRITE reads its source and
asks for its tiles, FLASH_TRIM removes them. R320, R324, R325: a move copies its slot and replies; USE is halved every 10 ms; a PIN without its move in
time completes with LOWER_LATE; a pool short of free slots evicts. R327, R328: a flash tile that was read goes to its transfer, one that was written is present. R329: a wear
move is counted where a tile was retried or the erase counts differ by 1,000, within the write share; a tile with an operation under way is left (R551). -/
def Obligations.DirectoryMovesAndFlash : Prop :=
  ∀ (s : State),
    (∀ (v : BitVec 32) n b l, v.getLsbD 0 = true → bits v.toNat 14 8 = n → 0 < n → n ≤ 64 → bitF s fTIER_STATUS_LOADING = false →
      dirBusy (setF s fTIER_CTL_REGIONS n) = false → RangeClean s (getF s fTIER_REGION_TAB_ADDR) (64 * n) →
      b = memBytes s (getF s fTIER_REGION_TAB_ADDR) (64 * n) → l = ((List.range n).map fun i => regionFrom (slice b (64 * i) 64)) →
      regionFail 0 [] l = none → Answers (.tierLoad v) s fun u => u.tier = { s.tier with pending := some (l.map (·.1)) } ∧
        getF u fTIER_STATUS_LOADING = 1 ∧ getF u fTIER_STATUS_LOAD_CODE = 0 ∧ getF u fTIER_STATUS_FAIL_REGION = 0 ∧ getF u fTIER_CTL_REGIONS = n ∧
        OnlyFields s { u with tier := s.tier } [fTIER_CTL_REGIONS, fTIER_STATUS_LOADING, fTIER_STATUS_LOAD_CODE, fTIER_STATUS_FAIL_REGION]) ∧
    (∀ (g : Region), s.tier.pending = some [g] → RangeClean s g.ownerBase (4 * (g.stackSlots + g.lpddrSlots)) → Answers .regionLoadDone s fun u =>
      u.tier.regions = [g] ∧ u.tier.pending = none ∧ getF u fTIER_STATUS_LOADING = 0 ∧ getF u fTIER_STATUS_READY = 1 ∧
      (∀ e, dirEnt u e = if g.holds e then { DirEntry.empty with hint := g.hint } else .empty) ∧
      ∀ k, memByte u k = if g.ownerBase ≤ k ∧ k < g.ownerBase + 4 * (g.stackSlots + g.lpddrSlots) then 0xFF else memByte s k) ∧
    (∀ r rest, s.tier.reqs = r :: rest → dirBad r = false → (∀ k, k < r.count → backs s (r.arg + k) = false) →
      (r.op = 9 → RangeClean s r.addr (r.count * 65536) → Answers .flashWrite s fun u =>
        u.tier.reqs = rest ∧ u.tier.fops = s.tier.fops ++ (List.range r.count).map (fun k =>
          ⟨r.arg + k, .request r, some ⟨slice (memBytes s r.addr (r.count * 65536)) (65536 * k) 65536, []⟩⟩) ∧ u = { s with tier := u.tier }) ∧
      (r.op = 10 → (∀ o ∈ s.tier.fops, ¬ (r.arg ≤ o.n ∧ o.n < r.arg + r.count)) → Answers .flashTrim s fun u =>
        (∀ n, mget (fun _ => none) u.tier.flash n = if r.arg ≤ n ∧ n < r.arg + r.count then none else mget (fun _ => none) s.tier.flash n) ∧
        DirReplied s u r 0 ∧ u.tier.reqs = rest ∧ u.mem = s.mem)) ∧
    (∀ e i g d m src dst o, s.tier.moves.find? (fun m => m.entry == e) = some m → regionOf s e = some (i, g) → dirEnt s e = d → m.bad = 0 →
      (∀ x ∈ s.tier.fops, x.who ≠ .moveRead e ∧ x.who ≠ .moveWrite e) → (d.state = .evicting ∨ d.state = .promoting) → d.tier < 2 → m.tier < 2 →
      src = g.slotAddr d.tier d.slot → dst = g.slotAddr m.tier m.slot → src % 64 = 0 → dst % 64 = 0 → rangesMeet src g.tileBytes dst g.tileBytes = false →
      RangeClean s src g.tileBytes → RangeClean s dst g.tileBytes → d.slot ≠ noSlot → m.why = .background → s.tier.waits = [] → d.discard = false →
      o = g.ownerBase → RangeClean s o (4 * (g.stackSlots + g.lpddrSlots)) → rangesMeet dst g.tileBytes o (4 * (g.stackSlots + g.lpddrSlots)) = false →
      d.slot < g.slots d.tier → m.slot < g.slots m.tier →
      Answers (.moveComplete e) s fun u => dirEnt u e = { d with state := .resident, tier := m.tier, slot := m.slot } ∧
        (∀ k, k < g.tileBytes → memByte u (dst + k) = memByte s (src + k)) ∧ (∀ k, k ≠ e → dirEnt u k = dirEnt s k) ∧
        u.tier.moves = s.tier.moves.filter (fun n => n.entry != e) ∧ ownerWord u g m.tier m.slot = e % 2 ^ 32 ∧
        Counts s u (fTIER_EVENT_COUNT (if m.tier < d.tier then 1 else 2)) 1) ∧
    (∀ i g (tier : Fin 2) v s1, s.tier.regions[i]? = some g → g.lowFree ≠ 0 → 64 * (freeSlots s i g tier.val).length < g.lowFree * g.slots tier.val →
      movesFull s = false → backgroundOf s i tier.val < 4 → chooseVictim s i g tier.val false = some (v, s1) → regionOf s v = some (i, g) →
      (dirEnt s v).tier = tier.val → (dirEnt s v).fback = true → g.flash = true → (tier = 0 → freeSlots s i g 1 = []) → s.tier.waits = [] →
      bitF s fTIER_STATUS_LOADING = false → Answers (.backgroundEvict i tier) s fun u => dirEnt u v = { dirEnt s v with state := .resident, tier := 2, slot := noSlot, fback := true, dirty := false } ∧
        Counts s u (fTIER_EVENT_COUNT 2) 1 ∧ ∀ k, k ≠ v → dirEnt u k = dirEnt s k) ∧
    (∀ n, mwf (fun _ => DirEntry.empty) s.tier.ents = true → 0 < n → n ≤ 64 → s.tier.useAt + 10000000 * n ≤ s.now → s.now < s.tier.useAt + 10000000 * (n + 1) →
      Answers .useDecay s fun u => (∀ e, dirEnt u e = { dirEnt s e with use := (dirEnt s e).use / 2 ^ n }) ∧
        u = { s with tier := { s.tier with ents := u.tier.ents, useAt := s.tier.useAt + 10000000 * n } }) ∧
    (s.now < s.tier.useAt + 10000000 → exec .useDecay s = .next s) ∧
    (∀ i w, s.tier.waits = [w] → i = 0 → (w.own = true ∨ settled s w.entry = false) → w.late = false → w.r.deadline ≠ 0 → w.r.stamp + w.r.deadline + 64 ≤ s.now → (dirEnt s w.entry).discard = false →
      w.r.entry = w.entry → Answers (.pinLate i) s fun u => DirReplied s u w.r stLATE ∧ dirEnt u w.entry = { dirEnt s w.entry with pin := (dirEnt s w.entry).pin - 1 } ∧
        Counts s u (fTIER_EVENT_COUNT 6) 1 ∧ u.tier.waits = (if w.own then [] else [{ w with late := true }]) ∧
        u.mem = s.mem ∧ ∀ j, u.tile j = s.tile j) ∧
    (∀ i o t no f r, s.tier.fops[i]? = some o → o.write = none → fopMayEnd s i o = true → o.who = .stream t no →
      mget (fun _ => none) s.tier.flash o.n = some f → f.poison = [] → (s.tile t).str.run = [r] → (s.tile t).str.pf = [] → s.fab.wait = [] → wMin r.e.word = 2 → r.no = no →
      stX r.e ≤ o.n → f.data.length = 65536 →
      (∀ (n : Fin 17), (∀ d, r.deadline = some d → s.now ≤ d) → Answers (.flashTileReadDone i n none) s fun u =>
        (∃ l, u.tier.fops = removeAt s.tier.fops i ++ l ∧ l.length ≤ 1 ∧
          ∀ y ∈ l, y.who = .stream t no ∧ y.write = none ∧ y.n ∈ r.flash ∧ y.n ≠ o.n) ∧ Counts s u (fTIER_EVENT_COUNT 7) n.val ∧
        u.tier.rewrites = (if n = 0 ∨ o.n ∈ s.tier.rewrites then s.tier.rewrites else s.tier.rewrites ++ [o.n]) ∧
        (∃ y ∈ (u.tile t).str.run, y.no = no ∧ o.n ∉ y.flash ∧ ∀ k, k < 65536 →
          mget (fun _ => 0) y.rr.got ((o.n - stX r.e) * 65536 + k) = f.data.getD k 0) ∧ u.mem = s.mem) ∧
      (∀ n c, s.pm.evq.length < 1024 → Answers (.flashTileReadDone i n (some c)) s fun u => Counts s u (fTIER_EVENT_COUNT 8) 1 ∧
        getF u fTIER_ERR_FLASH_READ_FAIL = 1 ∧ (∃ y, u.pm.evq = s.pm.evq ++ [y] ∧ y.status = 0x40 ∧ y.arg0 = o.n ∧ y.arg1 = c.val) ∧
        (r.fail = none → ∃ y ∈ (u.tile t).str.run, y.no = no ∧ y.fail = some (stREADFAIL, o.n)))) ∧
    (∀ i o f (spare : BitVec 8), s.tier.fops[i]? = some o → o.write = some f → fopMayEnd s i o = true →
      (∀ r, o.who = .request r → (∀ x ∈ removeAt s.tier.fops i, x.who ≠ .request r) → flashRoom s o.n = true → Answers (.flashProgramDone i false spare false) s fun u =>
        mget (fun _ => none) u.tier.flash o.n = some f ∧ (∀ n, n ≠ o.n → mget (fun _ => none) u.tier.flash n = mget (fun _ => none) s.tier.flash n) ∧
        u.tier.fops = removeAt s.tier.fops i ∧ u.tier.spare = spare.toNat ∧ DirReplied s u r 0 ∧ u.mem = s.mem) ∧
      (∀ r full, o.who = .request r → (full = true ∨ flashRoom s o.n = false) → Answers (.flashProgramDone i full spare false) s fun u =>
        getF u fTIER_ERR_FLASH_FULL = 1 ∧ u.tier.flash = s.tier.flash ∧ DirReplied s u r stFLASHFULL ∧ ∀ x ∈ u.tier.fops, x.who ≠ .request r)) ∧
    (∀ (excess bytes : Nat) (life spare : BitVec 8),
      (bitF s fPM_STATUS_FW_RUNNING = true → (s.tier.rewrites ≠ [] ∨ 1000 ≤ excess) → s.tier.wearAt ≤ s.now →
        (∀ o ∈ s.tier.fops, o.n ∉ s.tier.rewrites) → Answers (.wearMove ⟨excess, bytes, life⟩ spare false) s fun u =>
          Counts s u (fTIER_EVENT_COUNT 11) 1 ∧ u.tier.life = life.toNat ∧ u.tier.spare = spare.toNat ∧
          u.tier = { s.tier with rewrites := s.tier.rewrites.filter (fun n => some n != s.tier.rewrites.head?), wearAt := u.tier.wearAt, life := life.toNat, spare := spare.toNat } ∧
          (0 < getF s fTIER_FLASH_CTL_WEAR_MBPS → 1000 * (if s.tier.rewrites = [] then bytes else 65536) ≤
            (u.tier.wearAt - s.now) * getF s fTIER_FLASH_CTL_WEAR_MBPS) ∧
          OnlyFields s { u with tier := s.tier } [fTIER_EVENT_COUNT 11]) ∧
      ((bitF s fPM_STATUS_FW_RUNNING = false ∨ ((∀ n ∈ s.tier.rewrites, ∃ o ∈ s.tier.fops, o.n = n) ∧ excess < 1000) ∨ s.now < s.tier.wearAt) →
        exec (.wearMove ⟨excess, bytes, life⟩ spare false) s = .next s))

/-! ### Parameter update -/

/-- R341, R342, R344, R352, R356 to R359, R471: the oldest request to the update engines. An UPDATE of good operands starts in step C + 1 once that is resolved,
is skipped with a count where the step is non-finite, fails when it is stale or its group is not configured, and waits before its resolution; RESOLVE opens the
next step; COMMIT waits for started work and then makes C + 1 the committed step, counts an update of every active group, swaps the banks of a
privileged one and writes the step record; QUERY and SETSTEP reply. -/
def Obligations.UpdateRequests : Prop :=
  ∀ (s : State) (r : Request) (rest : List Request) (c : Nat), s.upd.reqs = r :: rest → updBad r = false → cmtStep s = c → c + 3 < 2 ^ 32 →
    s.upd.waits = [] → s.fab.ahead = [] → shActive s = false →
    (r.op = 1 →
      ((groupOf s r.group).kind = 0 ∨ (groupOf s r.group).frozen = true → Answers .update s fun u => UpdSays s u r stGROUPBAD 0 ∧ u.upd = { s.upd with reqs := rest }) ∧
      (itemFault s r.item = none → inEval s = false →
        (r.step ≤ c → Answers .update s fun u => UpdSays s u r cUPD_STALE 0 ∧ u.upd = { s.upd with reqs := rest }) ∧
        (c + 1 < r.step → Answers .update s fun u => u = { s with upd := { s.upd with reqs := rest, waits := [(r, false)] } }) ∧
        (r.step = c + 1 → bitF s fUPD_STATUS_RES1_V = true → gateShut s r.step = false →
          (bitF s fUPD_STATUS_RES1_NONFIN = true → Answers .update s fun u => UpdSays s u r stNONFINSKIP 0 ∧
            Counts s u (fUPD_EVENT_COUNT 1) (r.item.blocks s) ∧ u.upd = { s.upd with reqs := rest }) ∧
          (bitF s fUPD_STATUS_RES1_NONFIN = false → deferPending s r.group = true → Answers .update s fun u => UpdSays s u r stDEFER 0 ∧
            Counts s u (fUPD_EVENT_COUNT 9) 1 ∧ u.upd = { s.upd with reqs := rest }) ∧
          (bitF s fUPD_STATUS_RES1_NONFIN = false → deferPending s r.group = false → Answers .update s fun u =>
            u = { s with upd := { s.upd with reqs := rest, runs := u.upd.runs, started := true } } ∧
            (32 ≤ engBusy s → u.upd.runs = s.upd.runs ++ [UpdRun.start r r.ucount]) ∧
            ((∀ x ∈ s.upd.runs, x.stop ≤ x.given) → ∃ e l, l = partLen s r.group ∧ e = min r.ucount ((32 - engBusy s) * l) ∧
              u.upd.runs = s.upd.runs ++ [{ UpdRun.start r r.ucount with
                given := e
                parts := (List.range ((e + l - 1) / l)).map fun k => ⟨k * l, min r.ucount ((k + 1) * l), none⟩ }]))))) ∧
    (r.op = 2 →
      (r.step = c + 1 → bitF s fUPD_STATUS_RES1_V = false → Answers .resolve s fun u => UpdSays s u r 0 0 ∧ getF u fUPD_STATUS_RES1_V = 1 ∧
        getF u fUPD_STATUS_RES1_NONFIN = (bit r.flags 0).toNat ∧ openStep u = c + 2 ∧
        (bit r.flags 0 = true → getF u fUPD_ERR_NONFIN_SKIP = 1 ∧ Counts s u (fUPD_EVENT_COUNT 2) 1) ∧ u.upd = { s.upd with reqs := rest } ∧ u.mem = s.mem) ∧
      (r.step ≤ c → s.pm.evq.length < 1024 → Answers .resolve s fun u => UpdSays s u r stRESOLVEORDER 0 ∧ getF u fUPD_ERR_RESOLVE_ORDER = 1 ∧
        (∃ e, u.pm.evq = s.pm.evq ++ [e] ∧ e.status = 0x9A) ∧ openStep u = openStep s ∧ u.mem = s.mem)) ∧
    (r.op = 3 → s.upd.commit = none →
      (r.step = c + 1 → bitF s fUPD_STATUS_RES1_V = true → Answers .commit s fun u => u = { s with upd := { s.upd with reqs := rest, commit := some r } }) ∧
      ((r.step ≠ c + 1 ∨ bitF s fUPD_STATUS_RES1_V = false) → Answers .commit s fun u => UpdSays s u r stNOTRESOLVED 0 ∧ u.upd = { s.upd with reqs := rest })) ∧
    (∀ q a fin, s.upd.commit = some q → s.upd.runs = [] → fillStarted s = false → gateShut s (c + 1) = false → getF s fUPD_STEP_REC_ADDR = a →
      RangeClean s a 0x8000 → mwf (fun _ => Group.none) s.upd.groups = true → (∀ p ∈ s.upd.groups, p.1 < 4096) →
      fin = !bitF s fUPD_STATUS_RES1_NONFIN → Answers .commitTakeEffect s fun u =>
        cmtStep u = c + 1 ∧ UpdSays s u q 0 0 ∧ u.upd = { s.upd with commit := none, started := false } ∧
        getF u fUPD_STATUS_RES1_V = getF s fUPD_STATUS_RES2_V ∧ getF u fUPD_STATUS_RES1_NONFIN = getF s fUPD_STATUS_RES2_NONFIN ∧
        getF u fUPD_STATUS_RES2_V = 0 ∧ openStep u = openStep s ∧ Counts s u (fUPD_EVENT_COUNT 10) 1 ∧
        (∀ n g, groupOf s n = g → g.kind ≠ 0 →
          (getF u (fUPD_GROUP_T n) = if fin = true ∧ g.frozen = false then (getF s (fUPD_GROUP_T n) + 1) % 2 ^ 32 else getF s (fUPD_GROUP_T n)) ∧
          (bankOf u n = if fin = true ∧ g.priv = true then (1 - bankOf s n) % 2 else bankOf s n) ∧ getF u (fUPD_GROUP_FALLBACK n) = 0) ∧
        memBytes u a 16 = toBytes 8 (c + 1) ++ toBytes 8 (openStep s) ∧
        (∀ n, n < 4096 → leAt (memBytes u (a + 0x1000 + 4 * n) 4) 0 4 = getF u (fUPD_GROUP_T n)) ∧
        ∀ k, (k < a ∨ a + 0x8000 ≤ k) → memByte u k = memByte s k) ∧
    (r.op = 4 → Answers .updQuery s fun u => UpdSays s u r (if (groupOf s r.group).kind = 0 then stGROUPBAD else 0) 0 ∧ u.upd = { s.upd with reqs := rest } ∧ u.mem = s.mem) ∧
    (r.op = 5 →
      (bitF s fUPD_STATUS_RES1_V = true ∨ bitF s fUPD_STATUS_RES2_V = true ∨ s.upd.started = true → Answers .setstep s fun u =>
        UpdSays s u r stBUSY 0 ∧ u.upd = { s.upd with reqs := rest } ∧ u.mem = s.mem) ∧
      (bitF s fUPD_STATUS_RES1_V = false → bitF s fUPD_STATUS_RES2_V = false → s.upd.started = false →
        (r.group = 0xFFFF → r.step + 1 < 2 ^ 32 → Answers .setstep s fun u => UpdSays s u r 0 0 ∧ cmtStep u = r.step ∧ openStep u = r.step + 1 ∧
          agreed u = min (agreed s) r.step ∧ (agreed s ≤ r.step → u.twin = s.twin) ∧ u.upd = { s.upd with reqs := rest }) ∧
        (r.group < 4096 → (groupOf s r.group).kind ≠ 0 → Answers .setstep s fun u => UpdSays s u r 0 0 ∧ getF u (fUPD_GROUP_T r.group) = r.step ∧
          cmtStep u = c ∧ u.upd = { s.upd with reqs := rest })))

/-- R347, R348, R353, R354: an engine, or the vector engine for a fill item, updates the next block of an item of a group that is neither LAZY nor
privileged: the new weight and moment blocks stand in their arrays and nothing outside the group's arrays differs; a non-finite gradient leaves the
block as it is and raises the event. R350: the first step of a lazy row claims it in its header. R357, R226, R361: an engine that ends its run of blocks takes
the next run of the request, a request whose blocks are done replies; a fill item starts at level 2 and is done after its last block. -/
def Obligations.UpdateWork : Prop :=
  ∀ (s : State) (t : Tid) (i j n b : Nat) (q : UpdRun) (p : UpdPart) (it : UpdItem) (g : Group) (gr w m v : Blk) (k : Consts) (o : Blk × Blk × Blk) (x : Tile),
    s.tile t = x → groupOf s n = g → it.group = n → g.lzy = false → g.priv = false →
    arrBlk s (if it.addr = 0 then g.gBase else it.addr) g.gFmt g.nblk b = gr → ArrClean s (if it.addr = 0 then g.gBase else it.addr) g.gFmt g.nblk b →
    (b < g.nblk → disjoint g.arrays = true → arrBlk s g.wBase g.wFmt g.nblk b = w → arrBlk s g.mBase g.mFmt g.nblk b = m →
      (g.adamw = true → arrBlk s g.vBase g.vFmt g.nblk b = v ∧ ArrClean s g.vBase g.vFmt g.nblk b) →
      ArrClean s g.wBase g.wFmt g.nblk b → ArrClean s g.mBase g.mFmt g.nblk b →
      constants s g (getF s (fUPD_GROUP_T n) + 1) (getF s (fUPD_GROUP_T n) + 1) = (k, none, s) → gr.isNonfin = false →
      (∀ p ∈ g.arrays, LinesFine s p.1 p.2) →
      o = (if g.adamw then adamw k g.gscale w m v gr else ((sgdm k g.gscale w m gr).1, (sgdm k g.gscale w m gr).2, .zero)) →
      (s.upd.runs[i]? = some q → q.parts[j]? = some p → p.row = none → blockHeld s i n b = false → q.r.item = it → it.first + p.next = b →
        it.first = q.r.first → q.r.group = n → Answers (.updateBlock ⟨i, j⟩) s fun u => BlockUpdated s u g b o ∧ Counts s u (fUPD_EVENT_COUNT 0) 1 ∧
          u.upd = { s.upd with runs := u.upd.runs } ∧
          ∃ y : UpdRun, y = { q with
              written := q.written + 1
              parts := if p.stop ≤ p.next + 1 then removeAt q.parts j else replaceAt q.parts j { p with next := p.next + 1 } } ∧
            ((∀ z ∈ s.upd.runs, z.stop ≤ z.given) → u.upd.runs = replaceAt s.upd.runs i y) ∧
            (p.next + 1 < p.stop → 32 ≤ engBusy s → u.upd.runs = replaceAt s.upd.runs i y) ∧
            (p.stop ≤ p.next + 1 → engBusy s ≤ 32 → q.given < q.stop → (∀ z ∈ s.upd.runs.take i, z.stop ≤ z.given) →
              ∃ e, e = min q.stop (q.given + partLen s q.r.group) ∧
                u.upd.runs = replaceAt s.upd.runs i { y with given := e, parts := y.parts ++ [⟨q.given, e, none⟩] })) ∧
      (∀ e l, x.fill.opt = e :: l → x.fill.optHead = some ⟨b - it.first, none⟩ → it.first ≤ b → optItem e = it → isLive s t = true → clkRuns s t = true →
        x.fill.level = 2 → phaseHolds s = false → x.fill.defer = [] → x.vec.win = none → queueStuck s t .vector = true →
        Answers (.fillOptBlock t) s fun u => BlockUpdated s u g b o ∧ Counts s u (fUPD_EVENT_COUNT 0) 1 ∧ u.upd = s.upd ∧
          (b - it.first + 1 < it.count → (u.tile t).fill = { x.fill with optHead := some ⟨b - it.first + 1, none⟩ }) ∧
          (it.count ≤ b - it.first + 1 → (u.tile t).fill.opt = l ∧ (u.tile t).fill.optHead = none ∧
            ∀ j, tkCount (u.tile t) j = if bit e 8 = true ∧ j = itemStk e ∧ tkCount x j < 65535 then tkCount x j + 1 else tkCount x j))) ∧
    (s.upd.runs[i]? = some q → q.parts[j]? = some p → p.row = none → blockHeld s i n b = false → q.r.item = it → it.first + p.next = b →
      it.first = q.r.first → q.r.group = n → (∀ z ∈ s.upd.runs, z.stop ≤ z.given) →
      gr.isNonfin = true → Answers (.updateBlock ⟨i, j⟩) s fun u => MemSame s u ∧ getF u fUPD_ERR_NONFIN_LATE = 1 ∧
        ∃ y : UpdRun, y = { q with
            status := if q.status = 0 then stNONFINLATE else q.status
            parts := if p.stop ≤ p.next + 1 then removeAt q.parts j else replaceAt q.parts j { p with next := p.next + 1 } } ∧
          u.upd = { s.upd with runs := replaceAt s.upd.runs i y }) ∧
    (s.upd.runs[i]? = some q → q.done = true → Answers (.updateDone i) s fun u => UpdSays s u q.r q.status q.written ∧
      u.upd = { s.upd with runs := removeAt s.upd.runs i } ∧ u.mem = s.mem) ∧
    (∀ e l, x.fill.opt = e :: l → isLive s t = true → clkRuns s t = true → x.fill.optHead = none → optBad e = false → optItem e = it → itemFault s it = none →
      gateShut s (optStep e) = false → optStep e = cmtStep s + 1 → bitF s fUPD_STATUS_RES1_V = true → inEval s = false →
      (bitF s fUPD_STATUS_RES1_NONFIN = false → x.fill.level = 2 → phaseHolds s = false → optHeld x = false → deferPending s n = false →
        Answers (.optFillUpdate t) s fun u =>
          u.tile t = { x with fill := { x.fill with optHead := some ⟨0, none⟩ } } ∧ (∀ j, j ≠ t.val → u.tile j = s.tile j) ∧
          u = { s with tiles := u.tiles, upd := { s.upd with started := true } }) ∧
      (bitF s fUPD_STATUS_RES1_NONFIN = true → Answers (.optFillUpdate t) s fun u => (u.tile t).fill.opt = l ∧ (u.tile t).fill.optHead = none ∧
        Counts s u (fUPD_EVENT_COUNT 1) (it.blocks s) ∧ u.mem = s.mem ∧ u.upd = s.upd)) ∧
    (∀ g' j' a row h d c nn, groupOf s j' = g' → g'.lzy = true → g'.priv = false → s.upd.runs[i]? = some q → q.parts[j]? = some p → p.row = none →
      q.r.item.group = j' → blockHeld s i q.r.group (q.r.first + p.next) = false → q.r.item.addr + 4 * (q.r.item.first + p.next) = a → RangeClean s a 4 →
      leAt (memBytes s a 4) 0 4 = row → row < g'.nblk / max 1 g'.rowBlocks → 0 < g'.rowBlocks →
      g'.hdrBase + 8 * row = h → RangeClean s h 8 → LinesFine s h 8 → leAt (memBytes s h 8) 0 4 = c → nn = (getF s (fUPD_GROUP_T j') + 1) % 2 ^ 32 →
      (leAt (memBytes s h 8) 4 4 = nn → Answers (.updateBlock ⟨i, j⟩) s fun u => Counts s u (fUPD_EVENT_COUNT 6) 1 ∧ MemSame s u) ∧
      (leAt (memBytes s h 8) 4 4 ≠ nn → d = (if c = 0 then 0 else (nn + 2 ^ 32 - leAt (memBytes s h 8) 4 4 - 1) % 2 ^ 32) → g'.adamw = false →
        (powT (memWrite s h (toBytes 4 ((c + 1) % 2 ^ 32) ++ toBytes 4 nn)) g'.pt1 d).2.1 = none → disjoint g'.arrays = true →
        s.mem.quadChange = [] → (∀ p ∈ g'.arrays, LinesFine s p.1 p.2) →
        Answers (.updateBlock ⟨i, j⟩) s fun u => Counts s u (fUPD_EVENT_COUNT 5) 1 ∧ leAt (memBytes u h 8) 0 4 = (c + 1) % 2 ^ 32 ∧ leAt (memBytes u h 8) 4 4 = nn))

/-! ### Discovery -/

/-- R380, R383: DISC_START begins a discovery afresh once the module is READY and no phase is valid: SWEEP, no position, no peers, every
lane off. DISC_CLOSE is held by the running sweep. Rings move to the next line set after 1 ms at the sender and 4 ms at the receiver. A
beacon goes out, at most every 10 µs on a lane, with the fields of R381. -/
def Obligations.DiscoverySweep : Prop :=
  ∀ (s : State),
    (getF s fPM_STATUS_STAGE = 6 → bitF s fCMP_PHASE_VALID = false → Answers .discStart s fun u =>
      getF u fOPT_FAB_STATUS_DSTATE = 1 ∧ getF u fOPT_FAB_STATUS_SPARE = 0 ∧ getF u fOPT_FAB_STATUS_SUBST = 0 ∧
      (∀ f ∈ [fOPT_POS_ROW, fOPT_POS_COL, fOPT_POS_LROW, fOPT_POS_LCOL, fOPT_TWIN_ROW, fOPT_TWIN_COL], getF u f = 0x7F) ∧
      getF u fOPT_TWIN_VIA_FABRIC = 0 ∧ getF u fOPT_TWIN_TSTATE = 3 ∧
      (∀ p, p < 16 → getF u (fOPT_PORT_SELF p) = 0x7F ∧ getF u (fOPT_PORT_PSTATE p) = pSWEEP ∧ getF u (fOPT_PEERS_LO_PEERS p) = 0 ∧
        getF u (fOPT_PEERS_HI_PEER64 p) = 0 ∧ getF u (fOPT_PORT_LANES p) = 0 ∧ ∀ l, l < 32 → laneState u p l = lOFF ∧ (laneRt u p l).tgt = none) ∧
      u.fab = { s.fab with lanes := u.fab.lanes, disc := some ⟨s.now, getF s fOPT_FAB_CTL_WINDOW_MS, false⟩, discPorts := [], map := none,
                           redraw := none, syncLinks := [] } ∧
      (∀ l, l < 32 → laneState u 16 l = lOFF ∧ (laneRt u 16 l).tgt = none) ∧
      OnlyFields s { u with fab := s.fab } ([fOPT_FAB_STATUS_DSTATE, fOPT_FAB_STATUS_SPARE, fOPT_FAB_STATUS_SUBST, fOPT_POS_ROW, fOPT_POS_COL,
        fOPT_POS_LROW, fOPT_POS_LCOL, fOPT_TWIN_VIA_FABRIC, fOPT_TWIN_TSTATE, fOPT_TWIN_COL, fOPT_TWIN_ROW] ++
        (List.range 16).flatMap fun p => [fOPT_PORT_SELF p, fOPT_PORT_PSTATE p, fOPT_PEERS_LO_PEERS p, fOPT_PEERS_HI_PEER64 p, fOPT_PORT_LANES p] ++
        (List.range 17).flatMap fun p => fOPT_ENG_LANES p :: (List.range 32).map (fOPT_LANE_LSTATE p))) ∧
    ((getF s fPM_STATUS_STAGE ≠ 6 ∨ bitF s fCMP_PHASE_VALID = true) → exec .discStart s = .next s) ∧
    (∀ d, s.fab.disc = some d → sweeping s = true → exec .discClose s = .next { s with fab := { s.fab with disc := some { d with close := true } } }) ∧
    (∀ (p : Port) tx d c, sweeping s = true → s.fab.disc = some c → discPort s p.val = d →
      (s.now < max (if tx then d.txAt else d.rxAt) c.t0 + (if tx then 1000000 else 4000000) → exec (.discSweepSet p tx) s = .next s) ∧
      (max (if tx then d.txAt else d.rxAt) c.t0 + (if tx then 1000000 else 4000000) ≤ s.now → Answers (.discSweepSet p tx) s fun u =>
      discPort u p.val = (if tx then { d with txSet := (d.txSet + 1) % 3, txAt := s.now } else { d with rxSet := (d.rxSet + 1) % 3, rxAt := s.now }) ∧
      (∀ q, q ≠ p.val → discPort u q = discPort s q) ∧ u = { s with fab := { s.fab with discPorts := u.fab.discPorts } })) ∧
    (∀ (e : Eng) (l : Lane) t, (laneRt s e.val l.val).beaconAt = some t → s.now < t + 10000 → exec (.beaconSend e l) s = .next s) ∧
    (∀ (e : Eng) (l : Lane) r, sweeping s = true → laneRt s e.val l.val = r → (∀ t, r.beaconAt = some t → t + 10000 ≤ s.now) →
      (if e.val = 16 then l.val = 0 else l.val < if (discPort s e.val).txSet = 2 then 21 else 22) → Answers (.beaconSend e l) s fun u =>
      (∃ b, UnitSent s u e.val l.val 4 0 b ∧
        laneRt u e.val l.val = { r with
          beacons := (r.beacons + 1) % 2 ^ 32, beaconAt := some s.now, txUnits := r.txUnits ++ [frameUnit 4 0 b] } ∧ b.length = 64 ∧ leAt b 0 4 = 0x4E434245 ∧ leAt b 4 1 = 1 ∧ leAt b 5 1 = e.val ∧
        leAt b 6 1 = (if e.val = 16 then 2 else portRole s e.val) ∧ leAt b 7 1 = getF s fOPT_FAB_STATUS_SPLIT % 256 ∧
        leAt b 8 8 = getF s fOPT_SERIAL_SERIAL % 2 ^ 64 ∧ leAt b 0x14 4 = r.beacons % 2 ^ 32 ∧
        (getF s fOPT_FAB_STATUS_DSTATE = 1 → leAt b 0x10 1 = 0x7F ∧ leAt b 0x11 1 = 0x7F ∧ leAt b 0x12 1 = 0x7F) ∧
        (getF s fOPT_FAB_STATUS_DSTATE = 2 → leAt b 0x11 1 = getF s fOPT_POS_ROW % 256 ∧ leAt b 0x12 1 = getF s fOPT_POS_COL % 256) ∧
        (getF s fOPT_FAB_STATUS_DSTATE = 2 → e.val < 16 → getF s (fOPT_PORT_SELF e.val) ≠ 0x7F → leAt b 0x10 1 = getF s (fOPT_PORT_SELF e.val)) ∧
        crc32 (b.take 60) = leAt b 60 4) ∧
      (∀ q k, q < 17 → k < 32 → (q ≠ e.val ∨ k ≠ l.val) → laneRt u q k = laneRt s q k) ∧
      u = { s with wire := u.wire, fab := { s.fab with lanes := u.fab.lanes } })

/-- R381, R382, R384: a bad beacon is discarded and counted, and a beacon outside a sweep only leaves its lane. The module's own beacon gives the port its
self index; a majority of both roles gives the position, and a port that differs is MISCABLED. A peer's beacon of another split or role marks the port, and one
that claims an index is heard, with a conflict where another serial claims it. The twin's beacon gives the twin state. R383: the sweep ends
COMPLETE, with the lanes of the twin port in service where the twin is OK, or FAILED; the confirmed peers stand either way. -/
def Obligations.DiscoveryHears : Prop :=
  ∀ (s : State) (e : Eng) (l : Lane) (r : LaneRt) (w : LinkUnit) (pre post : List LinkUnit) (b : List Byte), laneRt s e.val l.val = r →
    r.units = pre ++ w :: post → (∀ x ∈ pre, x.utype ≠ 4) → w.utype = 4 → w.body.take 64 = b →
    ((b.length < 64 ∨ leAt b 0 4 ≠ 0x4E434245 ∨ leAt b 4 1 ≠ 1 ∨ crc32 (b.take 60) ≠ leAt b 60 4) → Answers (.beacon e l) s fun u =>
      Counts s u (fOPT_FAB_EVENT_COUNT 7) 1 ∧ laneRt u e.val l.val = { r with units := pre ++ post } ∧
      OnlyFields s { u with fab := s.fab } [fOPT_FAB_EVENT_COUNT 7] ∧ u.fab = { s.fab with lanes := u.fab.lanes }) ∧
    (b.length = 64 → leAt b 0 4 = 0x4E434245 → leAt b 4 1 = 1 → crc32 (b.take 60) = leAt b 60 4 →
      (sweeping s = false → Answers (.beacon e l) s fun u => laneRt u e.val l.val = { r with units := pre ++ post } ∧
        u = { s with fab := { s.fab with lanes := u.fab.lanes } }) ∧
      (sweeping s = true → e.val < 16 → leAt b 8 8 = getF s fOPT_SERIAL_SERIAL → leAt b 5 1 = e.val → Answers (.beacon e l) s fun u =>
        getF u (fOPT_PORT_SELF e.val) = 33 * (22 * (discPort s e.val).rxSet + l.val) % 65 ∧
        (∀ c v, majority u 0 = some c → majority u 1 = some v → getF s fOPT_FAB_STATUS_DSTATE = 1 →
          getF u fOPT_FAB_STATUS_DSTATE = 2 ∧ getF u fOPT_POS_COL = c % 128 ∧ getF u fOPT_POS_ROW = v % 128) ∧
        (∀ p m, p < 16 → majority u (portRole u p) = some m → getF u (fOPT_PORT_SELF p) ≠ 0x7F → getF u (fOPT_PORT_SELF p) ≠ m →
          getF u fOPT_FAB_ERR_MISCABLED = 1 ∧ (getF s (fOPT_PORT_PSTATE p) = pSWEEP → getF u (fOPT_PORT_PSTATE p) = pMISCABLED)) ∧
        (∀ q, q < 16 → q ≠ e.val → getF u (fOPT_PORT_SELF q) = getF s (fOPT_PORT_SELF q)) ∧ (∀ j, u.tile j = s.tile j) ∧ u.mem = s.mem) ∧
      (∀ d x, sweeping s = true → e.val < 16 → leAt b 8 8 ≠ getF s fOPT_SERIAL_SERIAL → discPort s e.val = d → leAt b 0x10 1 = x →
        Answers (.beacon e l) s fun u =>
        ((leAt b 7 1 ≠ getF s fOPT_FAB_STATUS_SPLIT ∨ leAt b 6 1 ≠ portRole s e.val) → getF u fOPT_FAB_ERR_SPLIT_MISMATCH = 1 ∧
          (getF s (fOPT_PORT_PSTATE e.val) = pSWEEP → getF u (fOPT_PORT_PSTATE e.val) = pSPLITMISMATCH)) ∧
        (x ≤ 64 → (∃ y ∈ (discPort u e.val).peers, y.serial = leAt b 8 8 ∧ y.index = x ∧
            (y.hearsMe = true ↔ getF s (fOPT_PORT_SELF e.val) < 65 ∧ bit (leAt b 0x18 9) (getF s (fOPT_PORT_SELF e.val)) = true)) ∧
          ((x = getF s (fOPT_PORT_SELF e.val) ∨ ∃ y ∈ d.peers, y.index = x ∧ y.serial ≠ leAt b 8 8) →
            getF u fOPT_FAB_ERR_POSITION_CONFLICT = 1 ∧ x ∈ (discPort u e.val).conflict)) ∧
        (∀ q, q ≠ e.val → discPort u q = discPort s q) ∧ (∀ q, q < 16 → getF u (fOPT_PORT_SELF q) = getF s (fOPT_PORT_SELF q)) ∧
        (∀ j, u.tile j = s.tile j) ∧ u.mem = s.mem) ∧
      (sweeping s = true → e.val = 16 → Answers (.beacon e l) s fun u =>
        getF u fOPT_TWIN_ROW = leAt b 0x11 1 % 128 ∧ getF u fOPT_TWIN_COL = leAt b 0x12 1 % 128 ∧
        (getF s fOPT_FAB_STATUS_DSTATE = 2 →
          (getF s fOPT_POS_ROW = 64 → getF u fOPT_TWIN_TSTATE = 2 ∧ getF u fOPT_FAB_ERR_TWIN_MISMATCH = 1) ∧
          (getF s fOPT_POS_ROW < 64 → leAt b 0x11 1 % 128 = 63 - getF s fOPT_POS_ROW → leAt b 0x12 1 % 128 = getF s fOPT_POS_COL →
            getF u fOPT_TWIN_TSTATE = 1) ∧
          (getF s fOPT_POS_ROW < 64 → ¬ (leAt b 0x11 1 % 128 = 63 - getF s fOPT_POS_ROW ∧ leAt b 0x12 1 % 128 = getF s fOPT_POS_COL) →
            getF u fOPT_TWIN_TSTATE = 2 ∧ getF u fOPT_FAB_ERR_TWIN_MISMATCH = 1)) ∧
        (∀ j, u.tile j = s.tile j) ∧ u.mem = s.mem)) ∧
    (∀ (h : Fin 24) (c : Fin 48) d row col, s.fab.disc = some d → sweeping s = true → getF s fOPT_POS_ROW = row → getF s fOPT_POS_COL = col →
      (¬ (d.t0 + d.window * 1000000 ≤ s.now ∨ d.close = true ∧ d.t0 + 24000000 ≤ s.now) → exec (.discEnd h c) s = .next s) ∧
      ((d.t0 + d.window * 1000000 ≤ s.now ∨ d.close = true ∧ d.t0 + 24000000 ≤ s.now) →
        (getF s fOPT_FAB_STATUS_DSTATE = 2 → (row = 64 ∨ 23 ≤ row + h.val ∧ row < 41 + h.val) → (col = 64 ∨ col < 17 + c.val) →
          Answers (.discEnd h c) s fun u => getF u fOPT_FAB_STATUS_DSTATE = 3 ∧ u.fab.disc = none ∧ u.fab.shape = (18 + 2 * h.val, 17 + c.val) ∧
            u.fab.syncAt = some s.now ∧ u.fab.syncFirst = true ∧
            (∀ k, k < 32 → laneState u 16 k = if getF u fOPT_TWIN_TSTATE = 1 then lINSERVICE else lOFF) ∧
            (∀ p, p < 16 → (getF s (fOPT_PORT_PSTATE p) = pSWEEP → getF u (fOPT_PORT_PSTATE p) = if getF s (fOPT_PORT_SELF p) = 0x7F then pNOECHO else pDOWN) ∧
              (getF s (fOPT_PORT_PSTATE p) ≠ pSWEEP → getF u (fOPT_PORT_PSTATE p) = getF s (fOPT_PORT_PSTATE p)) ∧
              ∀ j, j < 65 → ((if j = 64 then getF u (fOPT_PEERS_HI_PEER64 p) = 1 else bit (getF u (fOPT_PEERS_LO_PEERS p)) j = true) ↔
                ∃ x ∈ (discPort s p).peers, x.index = j ∧ x.hearsMe = true ∧ j ∉ (discPort s p).conflict)) ∧
            (s.fab.rowSub = [] → s.fab.colSub = [] → getF u fOPT_POS_LROW = row % 128 ∧ getF u fOPT_POS_LCOL = col % 128 ∧ getF u fOPT_FAB_STATUS_SUBST = 0 ∧
              getF u fOPT_FAB_STATUS_SPARE = if row = 64 ∨ col = 64 then 1 else 0) ∧ (∀ j, u.tile j = s.tile j) ∧ u.mem = s.mem) ∧
        ((getF s fOPT_FAB_STATUS_DSTATE = 1 ∨ ¬ (row = 64 ∨ 23 ≤ row + h.val ∧ row < 41 + h.val) ∨ ¬ (col = 64 ∨ col < 17 + c.val)) →
          Answers (.discEnd h c) s fun u => getF u fOPT_FAB_STATUS_DSTATE = 4 ∧ getF u fOPT_FAB_ERR_DISC_FAILED = 1 ∧ u.fab.disc = none ∧
            u.fab.syncAt = some (s.fab.syncAt.getD s.now) ∧
            (∀ p, p < 16 → ∀ j, j < 65 → ((if j = 64 then getF u (fOPT_PEERS_HI_PEER64 p) = 1 else bit (getF u (fOPT_PEERS_LO_PEERS p)) j = true) ↔
              ∃ x ∈ (discPort s p).peers, x.index = j ∧ x.hearsMe = true ∧ j ∉ (discPort s p).conflict)) ∧
            (s.pm.evq.length < 1024 → ∃ x, u.pm.evq = s.pm.evq ++ [x] ∧ x.status = 0x124 ∧ x.arg0 = getF s fOPT_FAB_STATUS_DSTATE) ∧
            (∀ f ∈ [fOPT_POS_LROW, fOPT_POS_LCOL], getF u f = getF s f) ∧ (∀ j, u.tile j = s.tile j) ∧ u.mem = s.mem)))

/-! ### Lanes and lasers -/

/-- R442, R444 to R446: an engine's feed-forward update computes the heater feed-forward and brings its temperature and lock errors, of a locked lane in service within the
bound of R444, and HOT from 83 °C on. R445, R452: a lane in service is dropped for a
lock error beyond 2 GHz for 2 µs, its codeword lock, or more than 16 uncorrectable codewords in 1 ms; its third drop within 1 s holds it out for 10 s; each attempt to relock
of a locked ring sends an identity frame, and it returns after its lane check. R449: one lane of a port at a time leaves service for a margin scan. R454: with no spare left the lanes of an engine are
rechecked, and those that fail are dropped. -/
def Obligations.LanesDropAndReturn : Prop :=
  ∀ (s : State) (e : Eng) (l : Lane) (r : LaneRt), laneRt s e.val l.val = r →
    (∀ (temp : BitVec 8) (lock : List (BitVec 8)), periodOver s e.val 1000 = false → exec (.feedforwardUpdate e temp lock) s = .next s) ∧
    (∀ (temp : BitVec 8) (lock : List (BitVec 8)), periodOver s e.val 1000 = true → Answers (.feedforwardUpdate e temp lock) s fun u =>
      getF u (fOPT_ENG_TEMP e.val) = temp.toNat ∧ getF u (fOPT_ENG_HOT e.val) = (if 83 ≤ temp.toInt then 1 else 0) ∧
      (∀ k v, k < 32 → lock[k]? = some v → getF u (fOPT_LANE_LOCKERR e.val k) = (lockShown s e.val k temp.toInt v).toNat) ∧
      (83 ≤ temp.toInt → getF u fOPT_LINK_ERR_ENG_HOT = 1) ∧
      (∀ k (v w : BitVec 8), k < 32 → lock[k]? = some v → lockShown s e.val k temp.toInt v = w → laneRt u e.val k = { laneRt s e.val k with
        offFrom := if 40 < w.toInt ∨ w.toInt < -40 then some ((laneRt s e.val k).offFrom.getD s.now) else none
        outAt := if 10 < w.toInt ∨ w.toInt < -10 then some s.now else (laneRt s e.val k).outAt }) ∧
      (∀ k b (v : BitVec 8), k < 32 → lockBound s e.val temp.toInt = some b → laneState s e.val k = lINSERVICE → ringLocked s e.val k = true → inSwap s e.val = false →
        (e.val < 16 → getF s (fOPT_PORT_PSTATE e.val) = pINSERVICE) → -b ≤ (lockShown s e.val k temp.toInt v).toInt ∧ (lockShown s e.val k temp.toInt v).toInt ≤ b) ∧
      mget (fun _ => 0) u.fab.feed e.val = heaterLevel s e.val ∧
      (∀ q k, (q ≠ e.val ∨ lock.length ≤ k) → q < 17 → k < 32 → laneRt u q k = laneRt s q k) ∧ periodOver u e.val 1 = false ∧
      (temp.toInt < 83 → OnlyFields s { u with fab := s.fab } ([fOPT_ENG_TEMP e.val, fOPT_ENG_HOT e.val] ++ (List.range (min 32 lock.length)).map (fOPT_LANE_LOCKERR e.val))) ∧
      u.fab = { s.fab with lanes := u.fab.lanes, doneAt := u.fab.doneAt, feed := u.fab.feed, temps := u.fab.temps } ∧ (∀ j, u.tile j = s.tile j) ∧ u.mem = s.mem) ∧
    (∀ cause : Fin 3, laneState s e.val l.val = lINSERVICE → (cause = 0 → ∃ t, r.offFrom = some t ∧ t + 2000 ≤ s.now) →
      (cause = 1 → r.cwLock = false) →
      (cause = 2 → 16 < (r.uncorr.filter fun t => decide (s.now < t + 1000000)).length) → Answers (.laneDrop e l cause) s fun u =>
      laneState u e.val l.val = lDROPPED ∧ Counts s u (fOPT_LINK_EVENT_COUNT 0) 1 ∧ getF u fOPT_LINK_ERR_LANE_DROP = 1 ∧
      (laneRt u e.val l.val).identity = false ∧ (laneRt u e.val l.val).drops = s.now :: r.drops.filter (fun t => decide (s.now < t + 1000000000)) ∧
      (laneRt u e.val l.val).holdFrom = (if 2 ≤ (r.drops.filter fun t => decide (s.now < t + 1000000000)).length then some s.now else none) ∧
      ((∀ t, r.logged = some t → t + 1000000000 ≤ s.now) → s.pm.evq.length < 1024 → ∃ x, u.pm.evq = s.pm.evq ++ [x] ∧ x.status = 0x120 ∧
        x.inst = 32 * e.val + l.val ∧ x.arg0 = cause.val) ∧
      (∀ t, r.logged = some t → s.now < t + 1000000000 → u.pm = s.pm) ∧
      (∀ q k, q < 17 → k < 32 → (q ≠ e.val ∨ k ≠ l.val) → laneState u q k = laneState s q k ∧ laneRt u q k = laneRt s q k) ∧
      getF u (fOPT_ENG_LANES e.val) = lanesUp u e.val ∧ (∀ j, u.tile j = s.tile j) ∧ u.mem = s.mem) ∧
    (∀ cause : Fin 3, (laneState s e.val l.val ≠ lINSERVICE ∨ cause = 0 ∧ (∀ t, r.offFrom = some t → s.now < t + 2000) ∨ cause = 1 ∧ r.cwLock = true) →
      exec (.laneDrop e l cause) s = .next s) ∧
    (laneState s e.val l.val = lDROPPED → laneChecked s e.val l.val = true → r.holdFrom = none → e.val ∉ s.fab.narrow → Answers (.laneRelock e l true) s fun u =>
      (∃ x, u.wire = x ++ .unit e.val l.val 3 0 (toBytes 8 (getF s fOPT_SERIAL_SERIAL)) :: s.wire) ∧
      laneState u e.val l.val = lINSERVICE ∧ Counts s u (fOPT_LINK_EVENT_COUNT 1) 1 ∧
      (∀ q k, q < 17 → k < 32 → (q ≠ e.val ∨ k ≠ l.val) → laneState u q k = laneState s q k) ∧ (∀ j, u.tile j = s.tile j) ∧ u.mem = s.mem) ∧
    (∀ pass, laneState s e.val l.val = lDROPPED → (pass = false ∨ laneChecked s e.val l.val = false) → ringLocked s e.val l.val = true → r.holdFrom = none →
      e.val ∉ s.fab.narrow → Answers (.laneRelock e l pass) s fun u =>
      UnitSent s u e.val l.val 3 0 (toBytes 8 (getF s fOPT_SERIAL_SERIAL)) ∧ u = { s with wire := u.wire, fab := { s.fab with lanes := u.fab.lanes } }) ∧
    (∀ pass, (laneState s e.val l.val ≠ lDROPPED ∨ r.holdFrom ≠ none ∨ e.val ∈ s.fab.narrow ∨ ringLocked s e.val l.val = false) →
      exec (.laneRelock e l pass) s = .next s) ∧
    (∀ t, r.holdFrom = some t →
      (t + 10000000000 ≤ s.now → Answers (.laneHoldoutEnd e l) s fun u => laneRt u e.val l.val = { r with holdFrom := none, drops := [] } ∧
        (∀ q k, q < 17 → k < 32 → (q ≠ e.val ∨ k ≠ l.val) → laneRt u q k = laneRt s q k) ∧ u = { s with fab := { s.fab with lanes := u.fab.lanes } }) ∧
      (s.now < t + 10000000000 → exec (.laneHoldoutEnd e l) s = .next s)) ∧
    (laneState s e.val l.val = lINSERVICE → inRedraw s e.val = false → inSwap s e.val = false → (∀ k, k < 32 → laneState s e.val k ≠ lSCAN) →
      (∀ t, r.scanFrom = some t → t + 1000000000 * getF s fOPT_SCAN_CTL_PERIOD_S ≤ s.now) → Answers (.marginScan e l) s fun u =>
        laneRt u e.val l.val = { r with scanFrom := some s.now } ∧ laneState u e.val l.val = lSCAN ∧ Counts s u (fOPT_LINK_EVENT_COUNT 7) 1 ∧
        (∀ q k, q < 17 → k < 32 → (q ≠ e.val ∨ k ≠ l.val) → laneState u q k = laneState s q k) ∧
        u = { s with csr := u.csr, fab := { s.fab with lanes := u.fab.lanes } }) ∧
    (((∃ k, k < 32 ∧ laneState s e.val k = lSCAN) ∨ ∃ t, r.scanFrom = some t ∧ s.now < t + 1000000000 * getF s fOPT_SCAN_CTL_PERIOD_S) →
      exec (.marginScan e l) s = .next s) ∧
    (∀ ok, laneState s e.val l.val = lSCAN → Answers (.marginScanEnd e l ok) s fun u =>
      laneState u e.val l.val = (if ok then lINSERVICE else lMARGINFAIL) ∧
      (∀ q k, q < 17 → k < 32 → (q ≠ e.val ∨ k ≠ l.val) → laneState u q k = laneState s q k) ∧ (∀ j, u.tile j = s.tile j) ∧ u.mem = s.mem) ∧
    (∀ passed : BitVec 32, (e.val ∉ s.fab.narrow ∨ periodOver s (64 + e.val) 10000000000 = false) → exec (.laneRecheck e passed) s = .next s) ∧
    (∀ passed : BitVec 32, e.val ∈ s.fab.narrow → periodOver s (64 + e.val) 10000000000 = true → Answers (.laneRecheck e passed) s fun u =>
      (∀ k, k < 32 → laneState u e.val k = (if passed.getLsbD k = true ∧ laneQuiet s e.val k = true ∧ (laneState s e.val k ≠ lDROPPED ∨ laneChecked s e.val k = true)
          then (if laneState s e.val k = lDROPPED then lINSERVICE else laneState s e.val k)
        else if laneState s e.val k = lINSERVICE then lDROPPED else laneState s e.val k)) ∧
      (∀ q k, q < 17 → k < 32 → q ≠ e.val → laneState u q k = laneState s q k) ∧ (∀ j, u.tile j = s.tile j) ∧ u.mem = s.mem)

/-- R448, R450, R451, R455: the drive loop of a working source reports its power and drive, and its drive never falls while the power is below P0, nor rises above it; a comb that cannot be calibrated, or a power 2.5 dB below P0,
makes its source FAILING, with a swap due at once or, without a spare, its engine narrow; 1.0 dB at 85 % of the drive makes it FADING. A
requested swap is handled as a FADING one or rejected. R451 to R454: a swap falls due at its boundary or after 60 s; without a spare the
source stays and its engine is narrow. A swap that starts drains its port and leaves any redraw, and where it takes the last spare the other sources that are due stay connected; when the
switch has moved, the old source is RETIRED and every lane of the port is checked; the swap check sorts the lanes; then the registers give the spare to the engine,
the port is in service and the spare NORMAL, unless the map has changed meanwhile, which retunes and checks the port again. -/
def Obligations.Lasers : Prop :=
  (∀ (s : State) (n : Fin 20) (x : LaserSrc) (e : Nat), laserSrc s n.val = x →
     (∀ (power : BitVec 16) (drive : Fin 101) d, getF s (fLAS_SRC_DRIVE n.val) = d →
       (isWorking s n.val = true → periodOver s (96 + n.val) 1000000 = true → Answers (.laserDriveAdjust n power drive) s fun u =>
         getF u (fLAS_SRC_POWER n.val) = power.toNat ∧
         (dbm power.toNat < dbm (getF s (fLAS_SRC_P0 n.val)) → getF u (fLAS_SRC_DRIVE n.val) = max d drive.val) ∧
         (dbm (getF s (fLAS_SRC_P0 n.val)) < dbm power.toNat → getF u (fLAS_SRC_DRIVE n.val) = min d drive.val) ∧
         (dbm power.toNat = dbm (getF s (fLAS_SRC_P0 n.val)) → getF u (fLAS_SRC_DRIVE n.val) = drive.val) ∧
         periodOver u (96 + n.val) 1 = false ∧ OnlyFields s { u with fab := s.fab } [fLAS_SRC_POWER n.val, fLAS_SRC_DRIVE n.val] ∧
         u.fab = { s.fab with doneAt := u.fab.doneAt }) ∧
       ((isWorking s n.val = false ∨ periodOver s (96 + n.val) 1000000 = false) → exec (.laserDriveAdjust n power drive) s = .next s)) ∧
     (∀ ok, (3 < x.stage ∨ periodOver s (32 + n.val) 10000000000 = false ∨ s.fab.redraw ≠ none ∨ s.fab.swaps ≠ []) → exec (.combCalibration n ok) s = .next s) ∧
     (x.stage ≤ 3 → periodOver s (32 + n.val) 10000000000 = true → s.fab.redraw = none → s.fab.swaps = [] → Answers (.combCalibration n true) s fun u =>
       periodOver u (32 + n.val) 1 = false ∧ u = { s with fab := { s.fab with doneAt := u.fab.doneAt } }) ∧
     (periodOver s (32 + n.val) 10000000000 = true → s.fab.redraw = none → s.fab.swaps = [] → x.stage = 3 → engineOf s n.val = none →
       SpareBeside s n.val ∨ NoneDueBut s n.val → Answers (.combCalibration n false) s fun u =>
       laserSrc u n.val = { x with stage := 2, due := false } ∧ getF u fLAS_ERR_LASER_FAILING = 1 ∧ getF u fOPT_LINK_ERR_CAL_FAIL = 1 ∧
       (∀ m, m ≠ n.val → laserSrc u m = laserSrc s m) ∧ u.fab = { s.fab with lasers := u.fab.lasers, doneAt := u.fab.doneAt } ∧
       (∀ j, u.tile j = s.tile j) ∧ u.mem = s.mem) ∧
     (periodOver s (32 + n.val) 10000000000 = true → s.fab.redraw = none → s.fab.swaps = [] → x.stage = 3 → engineOf s n.val = none →
       ¬ SpareBeside s n.val → Answers (.combCalibration n false) s fun u => laserSrc u n.val = { x with stage := 2, due := false } ∧ StaysConnected s u n.val) ∧
     (∀ c ber, (c = Instr.combCalibration n false ∧ periodOver s (32 + n.val) 10000000000 = true ∧ s.fab.redraw = none ∧ s.fab.swaps = [] ∧ (x.stage < 2 ∨ x.stage = 3 ∧ engineOf s n.val = some e) ∨
         c = .laserFailing n ber ∧ isWorking s n.val = true ∧ x.stage < 2 ∧
           (ber = true ∧ berAbove s n.val 1062 = true ∨ dbm (getF s (fLAS_SRC_POWER n.val)) ≤ dbm (getF s (fLAS_SRC_P0 n.val)) - 250)) → engineOf s n.val = some e →
       Answers c s fun u => laserSrc u n.val = { x with stage := 2, due := true } ∧ getF u fLAS_ERR_LASER_FAILING = 1 ∧
         (c = .combCalibration n false → getF u fOPT_LINK_ERR_CAL_FAIL = 1) ∧
         (s.pm.evq.length < 1024 → ∃ y, u.pm.evq = s.pm.evq ++ [y] ∧ y.status = 0x123 ∧ y.inst = n.val ∧
           y.arg0 = if nextSpare s = none then 0x1F else e) ∧
         (nextSpare s = none → getF u fLAS_ERR_SPARES_EXHAUSTED = 1 ∧ getF u fOPT_LINK_ERR_PORT_NARROW = 1 ∧ e ∈ u.fab.narrow) ∧
         (nextSpare s ≠ none → u.fab.narrow = s.fab.narrow) ∧
         (∀ m, m ≠ n.val → laserSrc u m = laserSrc s m) ∧ u.fab.swaps = s.fab.swaps ∧ (∀ j, u.tile j = s.tile j) ∧ u.mem = s.mem) ∧
     (∀ ber, isWorking s n.val = true → engineOf s n.val = some e →
       (x.stage = 0 → (ber = true ∧ berHeld s n.val = true ∨ dbm (getF s (fLAS_SRC_POWER n.val)) ≤ dbm (getF s (fLAS_SRC_P0 n.val)) - 100 ∧ 85 ≤ getF s (fLAS_SRC_DRIVE n.val)) →
         Answers (.laserFading n ber) s fun u => laserSrc u n.val = { x with stage := 1, fadingAt := some (x.fadingAt.getD s.now) } ∧ getF u fLAS_ERR_LASER_FADING = 1 ∧
           (s.pm.evq.length < 1024 → ∃ y, u.pm.evq = s.pm.evq ++ [y] ∧ y.status = 0x122 ∧ y.inst = n.val ∧ y.arg0 = e) ∧
           (∀ m, m ≠ n.val → laserSrc u m = laserSrc s m) ∧ u.fab = { s.fab with lasers := u.fab.lasers } ∧ (∀ j, u.tile j = s.tile j) ∧ u.mem = s.mem) ∧
       ((x.stage ≠ 0 ∨ (ber = false ∨ berHeld s n.val = false) ∧ (dbm (getF s (fLAS_SRC_P0 n.val)) - 100 < dbm (getF s (fLAS_SRC_POWER n.val)) ∨
           getF s (fLAS_SRC_DRIVE n.val) < 85)) → exec (.laserFading n ber) s = .next s)) ∧
     (isWorking s n.val = true → x.stage < 2 → nextSpare s ≠ none → Answers (.swap n) s fun u =>
       laserSrc u n.val = { x with fadingAt := some (x.fadingAt.getD s.now) } ∧ (∀ m, m ≠ n.val → laserSrc u m = laserSrc s m) ∧
       OnlyFields s { u with fab := s.fab } [fLAS_CTL_SRC] ∧ u.fab = { s.fab with lasers := u.fab.lasers }) ∧
     ((isWorking s n.val = false ∨ 2 ≤ x.stage ∨ nextSpare s = none) → Answers (.swap n) s fun u =>
       getF u fLAS_STATUS_REQ_REJ = 1 ∧ OnlyFields s u [fLAS_CTL_SRC, fLAS_STATUS_REQ_REJ])) ∧
  (∀ (s : State) (n : Fin 20) (x : LaserSrc) (e : Nat), laserSrc s n.val = x → engineOf s n.val = some e →
     (∀ t, x.fadingAt = some t →
       (x.due = false → s.now < t + 60000000000 → exec (.fadingSwapDue n) s = .next s) ∧
       ((x.due = true ∨ t + 60000000000 ≤ s.now) →
         (nextSpare s ≠ none → Answers (.fadingSwapDue n) s fun u => laserSrc u n.val = { x with due := true } ∧
           (∀ m, m ≠ n.val → laserSrc u m = laserSrc s m) ∧ u = { s with fab := { s.fab with lasers := u.fab.lasers } }) ∧
         (nextSpare s = none → Answers (.fadingSwapDue n) s fun u => laserSrc u n.val = { x with due := false, fadingAt := none } ∧
           getF u fLAS_ERR_SPARES_EXHAUSTED = 1 ∧ getF u fOPT_LINK_ERR_PORT_NARROW = 1 ∧ e ∈ u.fab.narrow ∧
           (s.pm.evq.length < 1024 → ∃ y, u.pm.evq = s.pm.evq ++ [y] ∧ y.status = 0x123 ∧ y.inst = n.val ∧ y.arg0 = 0x1F) ∧
           (∀ m, m ≠ n.val → laserSrc u m = laserSrc s m) ∧ (∀ j, u.tile j = s.tile j) ∧ u.mem = s.mem))) ∧
     (∀ sp, nextSpare s = some sp → x.due = true → inSwap s e = false → swapFirst s n.val = true → s.mail.heldClose = [] →
       ¬ SpareBeside s sp → Answers (.swapStart n) s fun u => inSwap u e = true ∧ StaysConnected s u n.val) ∧
     (∀ sp, nextSpare s = some sp → x.due = true → inSwap s e = false → swapFirst s n.val = true → s.mail.heldClose = [] →
       SpareBeside s sp ∨ NoneDueBut s n.val → Answers (.swapStart n) s fun u =>
       u.fab.swaps = s.fab.swaps ++ [⟨e, n.val, sp, s.now, 0, x.stage, getF s (fOPT_ENG_LANES e)⟩] ∧
       (e < 16 → portWorks s e = true → getF u (fOPT_PORT_PSTATE e) = pDRAINING ∧ mget (fun _ => 0) u.fab.unpairedAt e = 0) ∧
       (e < 16 → portWorks s e = false → getF u (fOPT_PORT_PSTATE e) = getF s (fOPT_PORT_PSTATE e)) ∧
       (∀ r, e < 16 → u.fab.redraw = some r → e ∉ r.wave1 ∧ e ∉ r.wave2 ∧ ∀ y ∈ r.running, y.1 ≠ e) ∧
       (∀ r r', e < 16 → s.fab.redraw = some r → r.wave1.filter (· != e) = [] → u.fab.redraw = some r' → r'.wave1End ≠ none) ∧
       (s.fab.redraw = none → u = { s with csr := u.csr, fab := { s.fab with swaps := u.fab.swaps, unpairedAt := u.fab.unpairedAt } }) ∧
       (∀ q k, q < 17 → k < 32 → laneState u q k = laneState s q k) ∧ (∀ j, u.tile j = s.tile j) ∧ u.mem = s.mem) ∧
     (∀ (q : Eng) w, swapAt s q.val 0 = some w → Answers (.swapSwitchDone q) s fun u =>
       laserSrc u w.old = { laserSrc s w.old with stage := 4, due := false, fadingAt := none, berFrom := none } ∧ (∀ m, m ≠ w.old → laserSrc u m = laserSrc s m) ∧
       getF u (fLAS_MAP_SRC q.val) = getF s (fLAS_MAP_SRC q.val) ∧ swapAt u q.val 1 = some { w with step := 1 } ∧
       (q.val = 16 → ∀ k, k < 32 → laneState u 16 k = (if laneState s 16 k = lINSERVICE then lCHECK else laneState s 16 k) ∧
         (laneState s 16 k = lINSERVICE → (laneRt u 16 k).identity = false)) ∧
       ((q.val = 16 ∨ swapDraws s q.val = true) → ∀ k, k < 32 → laneState u q.val k = lCHECK → ringLocked u q.val k = true →
         frameUnit 3 0 (toBytes 8 (getF s fOPT_SERIAL_SERIAL)) ∈ (laneRt u q.val k).txUnits) ∧
       (q.val < 16 → swapDraws s q.val = false → ∀ k, k < 32 → laneState u q.val k = laneState s q.val k) ∧
       (q.val < 16 → swapDraws s q.val = true → getF u (fOPT_PORT_PSTATE q.val) = pREDRAWING ∧
         (s.fab.mapBad = false → changedLanes u s.fab.map q.val = []) ∧
         ∀ k, k < 32 → (laneRt u q.val k).tgt ≠ none → laneState u q.val k = lCHECK ∧ (laneRt u q.val k).identity = false) ∧
       (∀ p k, p < 17 → k < 32 → p ≠ q.val → laneState u p k = laneState s p k) ∧ (∀ j, u.tile j = s.tile j) ∧ u.mem = s.mem) ∧
     (∀ (q : Eng) w (passed : BitVec 32), swapAt s q.val 1 = some w → Answers (.swapCheckEnd q passed) s fun u =>
       swapAt u q.val 2 = some { w with step := 2 } ∧
       (∀ k, k < 32 → laneState u q.val k = if laneState s q.val k = lCHECK then
           (if (laneRt s q.val k).identity = false then lLATEPEER
            else if passed.getLsbD k = true ∧ laneChecked s q.val k = true ∧ laneQuiet s q.val k = true then lINSERVICE else lDROPPED)
         else laneState s q.val k) ∧
       (∀ p k, p < 17 → k < 32 → p ≠ q.val → laneState u p k = laneState s p k) ∧ (∀ j, u.tile j = s.tile j) ∧ u.mem = s.mem) ∧
     (∀ (q : Eng) w, swapAt s q.val 2 = some w → q.val < 16 → swapDraws s q.val = true → s.fab.mapBad = false → changedLanes s s.fab.map q.val ≠ [] →
       Answers (.swapReturn q) s fun u => swapAt u q.val 1 = some { w with step := 1 } ∧ getF u (fOPT_PORT_PSTATE q.val) = pREDRAWING ∧
         changedLanes u s.fab.map q.val = [] ∧ (∀ p k, p < 17 → k < 32 → p ≠ q.val → laneState u p k = laneState s p k) ∧
         (∀ j, u.tile j = s.tile j) ∧ u.mem = s.mem) ∧
     (∀ (q : Eng) w, swapAt s q.val 2 = some w →
       (q.val < 16 → swapDraws s q.val = true → s.fab.mapBad = true ∨ changedLanes s s.fab.map q.val = []) → Answers (.swapReturn q) s fun u =>
       u.fab.swaps = s.fab.swaps.filter (fun y => y.eng != q.val) ∧ laserSrc u w.spare = ⟨0, none, false, none⟩ ∧
       (w.old ≠ w.spare → laserSrc u w.old = ⟨4, none, false, none⟩) ∧ (w.old < 20 → getF u (fLAS_SRC_DRIVE w.old) = 0) ∧
       getF u (fLAS_MAP_SRC q.val) = w.spare % 32 ∧ getF u (fLAS_MAP_SPARED q.val) = 1 ∧
       getF u fLAS_STATUS_SWAPS = min 255 (getF s fLAS_STATUS_SWAPS + 1) ∧
       (q.val < 16 → portWorks s q.val = true → getF u (fOPT_PORT_PSTATE q.val) = pINSERVICE ∧ getF u (fOPT_PORT_LANES q.val) = lanesUp s q.val ∧
         mget (fun _ => 0) u.fab.unpairedAt q.val = s.now + 10000000) ∧
       (∀ p k, p < 17 → k < 32 → laneState u p k = laneState s p k) ∧ (∀ j, u.tile j = s.tile j) ∧ u.mem = s.mem))

/-! ### Twin shadowing -/

/-- R459, R460: a good map is loaded, and a bad one changes nothing but MAP_BAD. R471: EN = 0 turns shadowing OFF. R462, R477: twins of equal maps start shadowing
with everything owed, others set MAP_MISMATCH; the module's own I, Lg and CRC leave. R464, R466, R467, R476: the first owed item of a kind is sent with its data and
counted. R461, R465, R466, R477: an acknowledgement takes a send away and may land the epoch, and a pair is no longer EXPOSED once both epochs have landed (how the
twin is told is the model's choice, assumption log 92); an arrived IMAGE block goes to the bank that its current bit does not select and is pending; a spare
writes a restored one to its own address. -/
def Obligations.TwinShadowing : Prop :=
  ∀ (s : State) (w : TwinSt), s.twin = w →
    (∀ (ranges : BitVec 7) n a b, ranges.toNat = n → getF s fTWN_MAP_ADDR_ADDR = a → memBytes s a (16 * n) = b →
      (∀ l, 0 < n → n ≤ 64 → a % 64 = 0 → mappedRange a (16 * n) = true → twState s = 0 → RangeClean s a (16 * n) →
        (List.range n).mapM (fun i => shEntry (slice b (16 * i) 16)) = some l →
        (shMapOk s l = true → Answers (.twnLoad ranges) s fun u =>
          u.twin = { TwinSt.reset with ranges := l, crc := crc32 b } ∧ l.length = n ∧
          (∀ i r, l[i]? = some r → r.base = bits (leAt b (16 * i) 8) 51 0 ∧ r.log = bit (leAt b (16 * i) 8) 63 ∧ r.blocks = leAt b (16 * i + 8) 4) ∧
          getF u fTWN_STATUS_MAP_OK = 1 ∧ getF u fTWN_CTL_RANGES = n ∧ OnlyFields s { u with twin := w } [fTWN_CTL_RANGES, fTWN_STATUS_MAP_OK]) ∧
        (shMapOk s l = false → Answers (.twnLoad ranges) s fun u => getF u fTWN_ERR_MAP_BAD = 1 ∧ u.twin = w ∧
          getF u fTWN_STATUS_MAP_OK = getF s fTWN_STATUS_MAP_OK ∧ (∀ j, u.tile j = s.tile j) ∧ u.mem = s.mem)) ∧
      ((n = 0 ∨ 64 < n ∨ a % 64 ≠ 0 ∨ mappedRange a (16 * n) = false ∨ twState s ≠ 0) → Answers (.twnLoad ranges) s fun u =>
        getF u fTWN_ERR_MAP_BAD = 1 ∧ u.twin = w ∧ getF u fTWN_STATUS_MAP_OK = getF s fTWN_STATUS_MAP_OK ∧ (∀ j, u.tile j = s.tile j) ∧ u.mem = s.mem)) ∧
    (Answers (.en true) s fun u => getF u fTWN_CTL_EN = 1 ∧ OnlyFields s u [fTWN_CTL_EN]) ∧
    (s.upd.waits = [] → Answers (.en false) s fun u => getF u fTWN_CTL_EN = 0 ∧
      ((twState s = 1 ∨ twState s = 4) → getF u fTWN_STATUS_STATE = 0 ∧ getF u fTWN_STATUS_EXPOSED = 0 ∧ u.twin = { TwinSt.reset with ranges := w.ranges, crc := w.crc }) ∧
      (twState s ≠ 1 → twState s ≠ 4 → u.twin = w ∧ twState u = twState s) ∧
      OnlyFields s { u with twin := w } [fTWN_CTL_EN, fTWN_STATUS_STATE, fTWN_STATUS_EXPOSED]) ∧
    (∀ i l (crc : BitVec 32), bitF s fTWN_CTL_EN = true → bitF s fTWN_STATUS_MAP_OK = true → twState s = 0 → twinUp s = true →
      (i = shCount s false → l = shCount s true → crc.toNat = w.crc → getF s fUPD_STEP_REC_ADDR % 64 = 0 →
        RangeClean s (getF s fUPD_STEP_REC_ADDR) 32768 → Answers (.mapExchange i l crc) s fun u =>
        u.wire = .shadowMap (byFabric s) (shCount s false) (shCount s true) w.crc :: s.wire ∧ twState u = 1 ∧ getF u fTWN_STATUS_EXPOSED = 1 ∧ u.twin.ranges = w.ranges ∧ u.twin.cur = [] ∧ u.twin.pend = [] ∧ u.twin.slots = [] ∧
        u.twin.image = (List.range i).map (fun k => ⟨.image k, true, 0, false, false⟩) ∧
        u.twin.log = (List.range l).map (fun k => ⟨.log (openStep s) k, true, 0, false, false⟩) ∧
        u.twin.record = (cmtStep s, memBytes s (getF s fUPD_STEP_REC_ADDR) 32768) ∧ u.twin.recBad = [] ∧ u.twin.ownLanded = false ∧ u.twin.peerLanded = false ∧
        OnlyFields s { u with twin := w, wire := s.wire } [fTWN_STATUS_STATE, fTWN_STATUS_EXPOSED]) ∧
      ((i ≠ shCount s false ∨ l ≠ shCount s true ∨ crc.toNat ≠ w.crc) → Answers (.mapExchange i l crc) s fun u =>
        u.wire = .shadowMap (byFabric s) (shCount s false) (shCount s true) w.crc :: s.wire ∧ getF u fTWN_ERR_MAP_MISMATCH = 1 ∧ twState u = 0 ∧ u.twin = w ∧ (∀ j, u.tile j = s.tile j) ∧ u.mem = s.mem)) ∧
    (∀ pre y post, twinUp s = true → twState s = 1 → (∀ x ∈ pre, x.owed = false) → y.owed = true →
      (∀ i, w.image = pre ++ y :: post → y.item = .image i → shAddr s false i % 64 = 0 → RangeClean s (shAddr s false i) 65536 →
        Answers (.shadowBlockSend .image) s fun u => u.wire = .shadow (byFabric s) y.item (memBytes s (shAddr s false i) 65536) [] :: s.wire ∧
          u.twin = { w with image := pre ++ { y with owed := false, flying := y.flying + 1, ever := true } :: post, sent := noteSent w.sent y.item, sends := w.sends ++ [(y.item, s.now)] } ∧
          Counts s u (fTWN_EVENT_COUNT 0) 1 ∧ (y.ever = true → Counts s u (fTWN_EVENT_COUNT 1) 1) ∧ (y.ever = false → getF u (fTWN_EVENT_COUNT 1) = getF s (fTWN_EVENT_COUNT 1)) ∧
          OnlyFields s { u with twin := w, wire := s.wire } [fTWN_EVENT_COUNT 0, fTWN_EVENT_COUNT 1]) ∧
      (∀ n j, w.log = pre ++ y :: post → y.item = .log n j → n ≤ nextAgree s → w.gdata = [] → shAddr s true j % 64 = 0 → RangeClean s (shAddr s true j) 65536 →
        Answers (.shadowBlockSend .log) s fun u => u.wire = .shadow (byFabric s) y.item (memBytes s (shAddr s true j) 65536) [] :: s.wire ∧
          u.twin = { w with log := pre ++ { y with owed := false, flying := y.flying + 1, ever := true } :: post, sent := noteSent w.sent y.item, sends := w.sends ++ [(y.item, s.now)] } ∧
          Counts s u (fTWN_EVENT_COUNT 0) 1 ∧ (y.ever = true → Counts s u (fTWN_EVENT_COUNT 1) 1) ∧ (y.ever = false → getF u (fTWN_EVENT_COUNT 1) = getF s (fTWN_EVENT_COUNT 1)) ∧
          OnlyFields s { u with twin := w, wire := s.wire } [fTWN_EVENT_COUNT 0, fTWN_EVENT_COUNT 1]) ∧
      (∀ n nf, w.extra = pre ++ y :: post → y.item = .header n nf → n ≤ nextAgree s → Answers (.shadowBlockSend .header) s fun u =>
        ∃ d, u.wire = .shadow (byFabric s) y.item d [] :: s.wire ∧ d.length = 65536 ∧ leAt d 0 4 = n % 2 ^ 32 ∧ leAt d 4 1 = 1 + 2 * nf.toNat ∧ (∀ k, 5 ≤ k → d.getD k 0 = 0) ∧
          u = { s with wire := u.wire, twin := { w with extra := pre ++ { y with owed := false, flying := y.flying + 1, ever := true } :: post, sends := w.sends ++ [(y.item, s.now)] } }) ∧
      (∀ n, w.extra = pre ++ y :: post → y.item = .record n → Answers (.shadowBlockSend .record) s fun u =>
        u = { s with wire := .shadow (byFabric s) y.item w.record.2 w.recBad :: s.wire,
                     twin := { w with extra := pre ++ { y with owed := false, flying := y.flying + 1, ever := true } :: post, sends := w.sends ++ [(y.item, s.now)] } })) ∧
    (∀ r i rest, twinUp s = true → twState s = 2 → w.restore = some r → r.left = .image i :: rest → rxImage s (curBank s i) i % 64 = 0 →
      RangeClean s (rxImage s (curBank s i) i) 65536 → Answers (.shadowBlockSend .restore) s fun u =>
        u.wire = .shadow (byFabric s) (.image i) (memBytes s (rxImage s (curBank s i) i) 65536) [] :: s.wire ∧
        u.twin = { w with restore := some { r with left := rest, flying := r.flying + 1 }, sends := w.sends ++ [(.image i, s.now)] } ∧ Counts s u (fTWN_EVENT_COUNT 0) 1 ∧
        OnlyFields s { u with twin := w, wire := s.wire } [fTWN_EVENT_COUNT 0]) ∧
    (∀ x, twState s = 1 → Answers (.shadowBlockAck (.acked x)) s fun u =>
      (∀ y, (y ∈ u.twin.image ↔ (∃ z ∈ w.image, y = (if z.item = x then { z with flying := z.flying - 1 } else z)) ∧ (y.owed = true ∨ 0 < y.flying))) ∧
      (u.twin.image = [] → (∀ y ∈ u.twin.extra, ∀ n, y.item ≠ .record n) → w.record.1 = cmtStep s → agreed s ≤ cmtStep s →
        getF u fTWN_STEPS_LANDED = max (getF s fTWN_STEPS_LANDED) (cmtStep s) % 2 ^ 32 ∧
        getF u fTWN_STATUS_EXPOSED = (if w.peerLanded then 0 else getF s fTWN_STATUS_EXPOSED) ∧
        (bitF s fTWN_STATUS_EXPOSED = true → w.peerLanded = false → u.twin.ownLanded = true ∧
          u.wire = (if w.ownLanded then s.wire else .shadowLanded (byFabric s) :: s.wire))) ∧
      (u.twin.image ≠ [] → u.csr = s.csr ∧ u.wire = s.wire) ∧ (∀ l t m, w.sends = l ++ (x, t) :: m → (∀ z ∈ l, z.1 ≠ x) → u.twin.sends = l ++ m) ∧
      u = { s with csr := u.csr, wire := u.wire, twin := { w with image := u.twin.image, log := u.twin.log, extra := u.twin.extra, sends := u.twin.sends, ownLanded := u.twin.ownLanded, peerLanded := u.twin.peerLanded } }) ∧
    (twState s = 1 → Answers (.shadowBlockAck .landed) s fun u =>
      getF u fTWN_STATUS_EXPOSED = (if w.ownLanded then 0 else getF s fTWN_STATUS_EXPOSED) ∧
      (bitF s fTWN_STATUS_EXPOSED = true → w.ownLanded = false → u.twin = { w with peerLanded := true }) ∧
      (bitF s fTWN_STATUS_EXPOSED = false → u = s) ∧ OnlyFields s { u with twin := w } [fTWN_STATUS_EXPOSED]) ∧
    (∀ i a (d : List Byte), d.length = 65536 → RangeClean s a 65536 →
      (twState s = 1 → i < shCount s false → a = rxImage s (1 - curBank s i) i → Answers (.shadowBlockAck (.arrived (.image i) d [])) s fun u =>
        (∀ k, memByte u k = if a ≤ k ∧ k < a + 65536 then d.getD (k - a) 0 else memByte s k) ∧ i ∈ u.twin.pend ∧ (∀ k ∈ u.twin.pend, k = i ∨ k ∈ w.pend) ∧
        u.twin.cur = w.cur ∧ u.wire = .shadowAck (byFabric s) (.image i) :: s.wire) ∧
      (∀ r, twState s = 3 → w.restore = some r → .image i ∈ r.left → a = shAddr s false i → Answers (.shadowBlockAck (.arrived (.image i) d [])) s fun u =>
        (∀ k, memByte u k = if a ≤ k ∧ k < a + 65536 then d.getD (k - a) 0 else memByte s k) ∧
        u.twin = { w with restore := some { r with left := r.left.filter (· != .image i) } } ∧ u.wire = .shadowAck (byFabric s) (.image i) :: s.wire))

/-- R468 to R471: a module that takes part, has resolved the next step and is shadowed (or has no twin) arrives and sends the row stage's messages as packets of the collective class; the
message of a member leaves its ingress pool and counts once; when both stages are complete the agreement closes: AGREED is the step, current bits flip for the pending blocks, the log slot of the step before is
free, and the held blocks are owed. R473: FORCE closes the target of a module that arrived, and rejects any other. R475: a twin that is silent is lost: this is logged, pending bits are cleared
and everything is owed again; during a restore both are lost. R476, R477: the two ends of a restore. -/
def Obligations.TwinAgreement : Prop :=
  ∀ (s : State) (w : TwinSt) (n : Nat) (a : Agreement), s.twin = w → nextAgree s = n → agreeOf s n = a →
    (a.own = false → takesPart s = true → isResolved s n = true → (noTwin s = true ∨ shadowed s n = true) → ∃ u, exec .agreementArrive s = .next (pump u) ∧
      (agreeOf u n).own = true ∧ (agreeOf u n).row = a.row ∧ (agreeOf u n).col = a.col ∧
      ((agreeOf u n).rowDone = true ↔ a.rowDone = true ∨ stageFull s false a.row = true) ∧
      (∀ j, j < axisN s 0 → memberPos s 0 j ≠ ownLog s → ∃ o ∈ u.fab.wait, o.p = agreePacket (memberPos s 0 j) false n) ∧
      (a.rowDone = false → stageFull s false a.row = true → ∀ j, j < axisN s 1 → memberPos s 1 j ≠ ownLog s → ∃ o ∈ u.fab.wait, o.p = agreePacket (memberPos s 1 j) true n) ∧
      (noTwin s = true → getF u fTWN_STATUS_EXPOSED = 1 ∧ Counts s u (fTWN_EVENT_COUNT 4) 1) ∧ (noTwin s = false → u.csr = s.csr) ∧
      agreed u = agreed s ∧ u.mem = s.mem ∧ ∀ j, u.tile j = s.tile j) ∧
    ((a.own = true ∨ takesPart s = false ∨ isResolved s n = false ∨ noTwin s = false ∧ shadowed s n = false) → exec .agreementArrive s = .next s) ∧
    (∀ col (j : Fin 64) (step : BitVec 32), agreeAt s col j.val step.toNat = none → exec (.agreementMessage col j step) s = .next s) ∧
    (∀ col (j : Fin 64) (step : BitVec 32) b i, agreeOf s step.toNat = b → agreeAt s col j.val step.toNat = some i →
      (takesPart s = true → agreed s < step.toNat → ∃ u, exec (.agreementMessage col j step) s = .next (pump u) ∧ u.fab.inq = removeAt s.fab.inq i ∧
        (∀ k, k ∈ (agreeOf u step.toNat).row ↔ k ∈ b.row ∨ col = false ∧ k = j.val) ∧ (∀ k, k ∈ (agreeOf u step.toNat).col ↔ k ∈ b.col ∨ col = true ∧ k = j.val) ∧
        (agreeOf u step.toNat).own = b.own ∧ ((agreeOf u step.toNat).rowDone = true ↔
          b.rowDone = true ∨ b.own = true ∧ stageFull s false (agreeOf u step.toNat).row = true) ∧
        (∀ m, m ≠ step.toNat → agreeOf u m = agreeOf s m) ∧ u = { s with fab := u.fab, twin := { w with agrees := u.twin.agrees } }) ∧
      ((takesPart s = false ∨ step.toNat ≤ agreed s) → ∃ u, exec (.agreementMessage col j step) s = .next (pump u) ∧
        u.fab.inq = removeAt s.fab.inq i ∧ u = { s with fab := u.fab })) ∧
    (∀ c t, (c = Instr.agreementClose ∧ t = n ∧ takesPart s = true ∧ a.own = true ∧ a.rowDone = true ∧ stageFull s true a.col = true ∨
        c = .force ∧ t = getF s fTWN_TARGET_T ∧ t = agreed s + 1 ∧ (agreeOf s t).own = true) → s.upd.waits = [] → Answers c s fun u =>
      agreed u = t % 2 ^ 32 ∧ Counts s u (fTWN_EVENT_COUNT 2) 1 ∧ u.twin.pend = [] ∧ u.twin.held = [] ∧ u.twin.gdata = [] ∧
      (∀ i, i ∈ u.twin.cur ↔ (i ∈ w.cur ∧ i ∉ w.pend ∨ i ∈ w.pend ∧ i ∉ w.cur)) ∧ (∀ k, k ∈ u.twin.slots ↔ k ∈ w.slots ∧ k ≠ (t + 1) % 2) ∧
      (∀ i ∈ w.held, ∃ y ∈ u.twin.image, y.item = .image i ∧ y.owed = true) ∧ (w.held = [] → u.twin.image = w.image) ∧
      (∀ x ∈ u.twin.log, ∀ m j, x.item = .log m j → t < m) ∧ OnlyFields s { u with twin := w } [fTWN_STEPS_AGREED, fTWN_EVENT_COUNT 2]) ∧
    (getF s fTWN_TARGET_T ≤ agreed s → exec .force s = .next s) ∧
    (∀ t, getF s fTWN_TARGET_T = t → agreed s < t → (t ≠ agreed s + 1 ∨ (agreeOf s t).own = false) → Answers .force s fun u =>
      getF u fTWN_STATUS_TARGET_REJ = 1 ∧ OnlyFields s u [fTWN_STATUS_TARGET_REJ]) ∧
    ((twState s = 0 ∨ twState s = 4 ∨ w.lost = true ∨ twinSilent s = false) → exec .twinLost s = .next s) ∧
    (twState s ≠ 0 → twState s ≠ 4 → w.lost = false → twinSilent s = true → Answers .twinLost s fun u => u.twin.sends = [] ∧ u.twin.lost = true ∧ u.twin.pend = [] ∧ u.twin.cur = w.cur ∧ u.twin.slots = w.slots ∧
      u.twin.restore = none ∧ u.twin.image.map (·.item) = w.image.map (·.item) ∧ (∀ x ∈ u.twin.image, x.owed = true) ∧ getF u fTWN_ERR_TWIN_LOST = 1 ∧
      getF u fTWN_STATUS_EXPOSED = 1 ∧ (s.pm.evq.length < 1024 → ∃ x, u.pm.evq = s.pm.evq ++ [x] ∧ x.status = 0x130) ∧
      (twState s = 1 → twState u = 1) ∧ (twState s ≠ 1 → twState u = 4 ∧ getF u fTWN_ERR_RESTORE_FAIL = 1) ∧ u.mem = s.mem ∧ ∀ j, u.tile j = s.tile j) ∧
    (bitF s fTWN_STATUS_MAP_OK = true → twState s ≠ 2 → twState s ≠ 3 →
      (∀ t, getF s fTWN_TARGET_T = t → Answers .restoreTx s fun u => twState u = 2 ∧
        u.twin = { w with lost := false, restore := some ⟨(List.range (shCount s false)).map ShadowItem.image ++ [ShadowItem.record (t - 1)] ++
          (List.range (shCount s true)).map (ShadowItem.log t) ++ [ShadowItem.header t false], 0, none⟩ } ∧ OnlyFields s { u with twin := w } [fTWN_STATUS_STATE]) ∧
      (Answers .restoreRx s fun u => twState u = 3 ∧ u.twin.ranges = w.ranges ∧ u.twin.cur = [] ∧ u.twin.pend = [] ∧ u.twin.slots = [] ∧
        (∃ r, u.twin.restore = some r ∧ r.flying = 0 ∧ ∀ i, i < shCount s false → .image i ∈ r.left) ∧ OnlyFields s { u with twin := w } [fTWN_STATUS_STATE])) ∧
    (∀ r, w.restore = some r → r.left = [] → r.flying = 0 →
      (twState s = 2 → getF s fUPD_STEP_REC_ADDR % 64 = 0 → RangeClean s (getF s fUPD_STEP_REC_ADDR) 32768 → Answers .restoreEnd s fun u => twState u = 1 ∧ u.twin.restore = none ∧ Counts s u (fTWN_EVENT_COUNT 5) 1 ∧ getF u fTWN_STATUS_EXPOSED = 1 ∧
        u.twin.image = (List.range (shCount s false)).map (fun k => ⟨.image k, true, 0, false, false⟩) ∧ u.mem = s.mem ∧ ∀ j, u.tile j = s.tile j) ∧
      (∀ t nf b, twState s = 3 → r.header = some (t, nf) → memBytes s (getF s fUPD_STEP_REC_ADDR) 32768 = b → RangeClean s (getF s fUPD_STEP_REC_ADDR) 32768 →
        s.upd.waits = [] → s.fab.ahead = [] → t = leAt b 0 8 + 1 → t < 2 ^ 32 → Answers .restoreEnd s fun u => twState u = 1 ∧ u.twin.restore = none ∧ agreed u = t ∧ getF u fTWN_STATUS_EXPOSED = 1 ∧
          cmtStep u = leAt b 0 8 ∧ getF u fUPD_STATUS_RES1_V = 1 ∧ getF u fUPD_STATUS_RES1_NONFIN = nf.toNat ∧
          (∀ g, g < 4096 → getF u (fUPD_GROUP_T g) = leAt b (0x1000 + 4 * g) 4 ∧ getF u (fUPD_GROUP_BANK g) = (bit (leAt b (0x440 + g / 8) 1) (g % 8)).toNat) ∧
          MemSame s u ∧ ∀ j, u.tile j = s.tile j))

/-! ### The package -/

/-- R485 to R491, R497: a link carries its own traffic, a spare that of the link it replaced at training, a replaced link and an unused spare nothing. A flit that
its sender may send and that arrives good with the expected SEQ is accepted, and its ACK and credits serve the other direction; a damaged flit, or one out of order, is discarded; the
first of a gap is asked for again. A NAK frees what it confirms, counts a retry, and makes the sender resend what is left, in order and before anything new. A link with 4 NAKs
for one SEQ, more than 256 retries in 1 ms, or no good flit for 64 base-die cycles loses its die. A lost clock loses the die with reason 1. Which link a message needs is known only up to the layout
of MSG, which the spec does not give (assumption log 92). -/
def Obligations.WeirLinks : Prop :=
  ∀ (s : State) (d : Die) (link : Fin 42) (down : Bool) (x y : WeirDir), weirDir s d.val link.val down = x → weirDir s d.val link.val (!down) = y → dieUp s d.val = true →
    (carries s d.val link.val = none → (∀ f err, exec (.weirFlit d link down f err) s = .next s) ∧ ∀ b, exec (.weirLinkFail d link b) s = .next s) ∧
    (∀ n, (dieRt s d.val).spares = [none, none] → carries s d.val n = if n < 40 then some n else none) ∧
    (∀ a b n, (dieRt s d.val).spares = [some a, some b] → a < 40 → b < 40 →
      carries s d.val n = if n = 40 then some a else if n = 41 then some b else if 41 < n ∨ n = a ∨ n = b then none else some n) ∧
    (∀ vc j, j < 64 → linkOf vc (j, true) = (if vc ≤ 1 then j / 2 else 32 + 2 * (j / 16) + j % 2) ∧ linkOf vc (j, false) = 32 + 2 * (j / 16) + j % 2) ∧
    (∀ f vc q l, f.length = 288 → flitFormed f = true → flitVc f = vc → flitSeq f = q → vc < 5 → carries s d.val link.val = some l → linkOf vc (Config.flitUnit f) = l →
      leAt f 1 1 % 16 = y.expect → flitNak f = false → (∀ p ∈ (flitCredits f).zip y.owed, p.1 ≤ p.2) →
      (x.resend = [] → x.next = q → x.unacked.length < 8 → 0 < x.credit.getD vc 0 →
        (∀ z, z = { x with next := (q + 1) % 16, unacked := x.unacked ++ [(q, f)], credit := replaceAt x.credit vc (x.credit.getD vc 0 - 1) } →
          Answers (.weirFlit d link down f []) s fun u =>
            (q = x.expect → weirDir u d.val link.val down = { z with goodAt := s.now, expect := (x.expect + 1) % 16, naking := false, nakDue := false, nakRun := 0, owed := replaceAt x.owed vc (x.owed.getD vc 0 + 1) } ∧
              weirDir u d.val link.val (!down) = takeCredits { y with unacked := ackFlits y.unacked (leAt f 1 1 % 16) } (flitCredits f)) ∧
            (q ≠ x.expect → weirDir u d.val link.val down = { z with goodAt := s.now, naking := true, nakDue := x.nakDue || !x.naking } ∧ weirDir u d.val link.val (!down) = y) ∧
            (∀ k, k ≠ weirKey d.val link.val down → k ≠ weirKey d.val link.val (!down) →
              mget (fun _ => WeirDir.start) u.pkg.weir k = mget (fun _ => WeirDir.start) s.pkg.weir k) ∧ u = { s with pkg := { s.pkg with weir := u.pkg.weir } }) ∧
        (∀ err got, err.foldl (fun f e => replaceAt f e.1 (f.getD e.1 0 ^^^ e.2)) f = got → flitGood got = false → Answers (.weirFlit d link down f err) s fun u =>
          weirDir u d.val link.val down = { x with
            next := (q + 1) % 16, unacked := x.unacked ++ [(q, f)], credit := replaceAt x.credit vc (x.credit.getD vc 0 - 1), naking := true
            nakDue := x.nakDue || !x.naking || q == x.expect } ∧
          weirDir u d.val link.val (!down) = y ∧ getF u (fPKG_WEIR_CRC_ERRS d.val) = min (2 ^ 32 - 1) (getF s (fPKG_WEIR_CRC_ERRS d.val) + 1) ∧
          OnlyFields s { u with pkg := s.pkg } [fPKG_WEIR_CRC_ERRS d.val])) ∧
      (∀ rest g, x.resend = q :: rest → (q, g) ∈ x.unacked → sameFlit g f = true → q = x.expect → Answers (.weirFlit d link down f []) s fun u =>
        weirDir u d.val link.val down = { x with resend := rest, goodAt := s.now, expect := (x.expect + 1) % 16, naking := false, nakDue := false, nakRun := 0, owed := replaceAt x.owed vc (x.owed.getD vc 0 + 1) }) ∧
      (∀ r rest err, x.resend = r :: rest → q ≠ r → exec (.weirFlit d link down f err) s = .next s)) ∧
    (∀ f err, f.length = 288 → flitVc f < 5 → x.resend = [] → (flitSeq f ≠ x.next ∨ 8 ≤ x.unacked.length ∨ x.credit.getD (flitVc f) 0 = 0) →
      exec (.weirFlit d link down f err) s = .next s) ∧
    (∀ f err, (flitFormed f = false ∨ leAt f 1 1 % 16 ≠ y.expect ∨ flitNak f = true ∧ y.nakDue = false ∨ ∃ p ∈ (flitCredits f).zip y.owed, p.2 < p.1) →
      exec (.weirFlit d link down f err) s = .next s) ∧
    (x.nakDue = true → Answers (.weirNak d link down) s fun u =>
      weirDir u d.val link.val down = { x with
        nakDue := false, unacked := ackFlits x.unacked x.expect, resend := (ackFlits x.unacked x.expect).map (·.1), nakSeq := x.expect
        nakRun := if x.nakSeq = x.expect then x.nakRun + 1 else 1
        retries := s.now :: x.retries.filter fun t => decide (s.now < t + 1000000) } ∧
      getF u (fPKG_WEIR_RETRIES d.val) = min (2 ^ 32 - 1) (getF s (fPKG_WEIR_RETRIES d.val) + 1) ∧
      OnlyFields s { u with pkg := s.pkg } [fPKG_WEIR_RETRIES d.val]) ∧
    (x.nakDue = false → exec (.weirNak d link down) s = .next s) ∧
    (∀ c reason, (c = Instr.clockLost d ∧ reason = 1 ∨
        c = .weirLinkFail d link true ∧ reason = 2 ∧ (carries s d.val link.val).isSome = true ∧
          (64000 ≤ 1200 * (s.now - max x.goodAt (dieRt s d.val).upAt) ∨ 64000 ≤ 1200 * (s.now - max y.goodAt (dieRt s d.val).upAt)) ∨
        (∃ b, c = .weirLinkFail d link b) ∧ reason = 2 ∧ (carries s d.val link.val).isSome = true ∧ (4 ≤ x.nakRun ∨ 4 ≤ y.nakRun) ∨ c = .reset d ∧ reason = 4) → Answers c s fun u =>
      dieState u d.val = dLOST ∧ getF u (fPKG_DIE_STATUS_REASON d.val) = reason ∧ getF u (fPKG_DIE_LOST_AT_TIME d.val) = s.now % 2 ^ 64 ∧
      getF u (fPKG_DIE_STATUS_ATTEMPTS d.val) = 0 ∧ (reason = 2 → getF u fPKG_ERR_WEIR_FAIL = 1) ∧
      (dieRt u d.val).fenced = false ∧ (dieRt u d.val).ran = some ((dieTiles d.val).filter fun t => isRunning s t) ∧ (dieRt u d.val).attempt = none ∧
      (∀ e, e < 4 → e ≠ d.val → dieState u e = dieState s e ∧ dieRt u e = dieRt s e) ∧ (∀ j, u.tile j = s.tile j) ∧ u.mem = s.mem) ∧
    (x.nakRun < 4 → y.nakRun < 4 → x.retries.length + y.retries.length ≤ 256 → exec (.weirLinkFail d link false) s = .next s ∧
      (1200 * (s.now - max x.goodAt (dieRt s d.val).upAt) < 64000 → 1200 * (s.now - max y.goodAt (dieRt s d.val).upAt) < 64000 → exec (.weirLinkFail d link true) s = .next s))

/-- R498 to R502, R121: the fence leaves the tiles and links of a lost die at reset; the notices go out, the loss is logged and the module degraded. An attempt that is due
starts, runs its stages, and ends READY, or UP where no phase is valid; a failed stage retries, and after the third the die is FAILED; a die that
fails the check, a word that is not its stepping's (R493) among its reasons, is FAILED at once. RESET starts a new round on a FAILED die and is ignored on any other that is not UP. -/
def Obligations.DieLossAndAttempts : Prop :=
  ∀ (s : State) (d : Die) (x : DieRt) (n : Nat), dieRt s d.val = x → getF s (fPKG_DIE_STATUS_ATTEMPTS d.val) = n →
    (∀ l, dieState s d.val = dLOST → x.ran = some l →
      (x.fenced = false → Answers (.dieLossFence d) s fun u => (dieRt u d.val).fenced = true ∧ (dieRt u d.val).ran = some l ∧ dieState u d.val = dLOST ∧
        (∀ t ∈ dieTiles d.val, ∃ k l, u.tile t = { Tile.reset with str := { StrUnit.reset with nextNo := k, loose := l } }) ∧
        (∀ (k : Fin 42) b, weirDir u d.val k.val b = WeirDir.start) ∧ ∀ e (k : Fin 42) b, e < 4 → e ≠ d.val → weirDir u e k.val b = weirDir s e k.val b) ∧
      (x.fenced = true → (∀ t ∈ l, t < 256) → Answers (.dieLostNotice d) s fun u => getF u fPKG_ERR_DIE_LOST = 1 ∧ getF u fOPT_FAB_STATUS_DEGRADED = 1 ∧
        (dieRt u d.val).ran = none ∧ (∀ t ∈ l, bit (getF u (fINT_CAUSE_TILE_LEAF (t / 32))) (t % 32) = true) ∧
        (∀ t ∈ l, bitF s (fTILE_REPORT_PH_EN t) = true → ∃ m ∈ u.devq, m.ph = getF s (fTILE_REPORT_PH_PH t) ∧ leAt m.inline 0 2 = t ∧ leAt m.inline 2 1 = cDIE_LOST ∧
          bit (leAt m.inline 3 1) 7 = true) ∧
        (s.pm.evq.length < 1024 → ∃ y, u.pm.evq = s.pm.evq ++ [y] ∧ y.time = getF s (fPKG_DIE_LOST_AT_TIME d.val) ∧ y.synced = x.sync ∧
          y.status = 0x0D ∧ y.inst = d.val ∧ y.arg0 = getF s (fPKG_DIE_STATUS_REASON d.val)) ∧
        (∀ j, u.tile j = s.tile j) ∧ u.mem = s.mem)) ∧
    (∀ t, dieState s d.val = dLOST → x.due = some t → t ≤ s.now → x.ran = none → bitF s fPM_STATUS_FW_RUNNING = true → s.pm.pins.rails = true →
      (getF s fPM_STATUS_STAGE < 5 ∨ s.pm.fwFrom + 1000000 ≤ s.now) → n < 3 → Answers (.resetAttemptStart d) s fun u =>
        dieState u d.val = dRESETTING ∧ getF u (fPKG_DIE_STATUS_ATTEMPTS d.val) = n + 1 ∧ dieRt u d.val = { x with attempt := some (s.now, .reset), due := none, railOff := false } ∧
        (dieLoop u d.val).uv = setpoint 24 ∧ (∀ e, e < 4 → e ≠ d.val → dieState u e = dieState s e) ∧ (∀ j, u.tile j = s.tile j) ∧ u.mem = s.mem) ∧
    (dieState s d.val = dFAILED → Answers (.reset d) s fun u => dieState u d.val = dRESETTING ∧ getF u (fPKG_DIE_STATUS_ATTEMPTS d.val) = 1 ∧
      dieRt u d.val = { x with attempt := some (s.now, .reset), due := none, railOff := false } ∧ (∀ j, u.tile j = s.tile j) ∧ u.mem = s.mem) ∧
    (dieState s d.val ≠ dUP → dieState s d.val ≠ dFAILED → exec (.reset d) s = .next s) ∧
    (∀ a0, a0 + 10000 ≤ s.now →
      (x.attempt = some (a0, .reset) → Answers (.attemptResetEnd d true) s fun u => (dieRt u d.val).attempt = some (a0, .clock) ∧ (dieRt u d.val).wakes = [] ∧
        (∀ k, k < 4 → clusterState u (4 * d.val + k) = kOFF) ∧ (∀ t ∈ dieTiles d.val, ∃ k l, u.tile t = { Tile.reset with str := { StrUnit.reset with nextNo := k, loose := l } }) ∧
        (∀ t, t < 256 → t ∉ dieTiles d.val → u.tile t = s.tile t) ∧ u.mem = s.mem) ∧
      (x.attempt = some (a0, .clock) → Answers (.attemptClockLock d true) s fun u => (dieRt u d.val).attempt = some (a0, .train) ∧
        getF u (fCLK_DIE_FCODE d.val) = 24 ∧ OnlyFields s { u with pkg := s.pkg } [fCLK_DIE_FCODE d.val]) ∧
      (∀ (f : List (Fin 42)) bad, x.attempt = some (a0, .train) → bad = (f.map fun l => l.val).eraseDups → bad.length ≤ 2 → Answers (.attemptTrainEnd d f) s fun u =>
        dieRt u d.val = { x with attempt := some (a0, .clear), spares := replacedLinks bad } ∧
        getF u (fPKG_DIE_STATUS_SPARES_USED d.val) = (bad.filter fun l => decide (l < 40)).length ∧ (∀ (k : Fin 42) b, weirDir u d.val k.val b = WeirDir.start) ∧
        OnlyFields s { u with pkg := s.pkg } [fPKG_DIE_STATUS_SPARES_USED d.val]) ∧
      (x.attempt = some (a0, .clear) → Answers (.attemptClearEnd d true) s fun u => (dieRt u d.val).attempt = some (a0, .selfTest) ∧
        (∀ k, k < 4 → clusterState u (4 * d.val + k) = kRUN) ∧ (∀ t ∈ dieTiles d.val, getF u (fTILE_VEC_REFEN_REASON t) = 1) ∧
        (∀ t ∈ dieTiles d.val, ∃ k l, u.tile t = { Tile.reset with str := { StrUnit.reset with nextNo := k, loose := l } }) ∧
        u.mem = s.mem) ∧
      (x.attempt = some (a0, .selfTest) → Answers (.attemptSelfTestEnd d true) s fun u => (dieRt u d.val).attempt = some (a0, .check) ∧
        (∀ t ∈ dieTiles d.val, getF u (fTILE_VEC_REFEN_REASON t) = 0) ∧
        OnlyFields s { u with pkg := s.pkg } ((dieTiles d.val).map fTILE_VEC_REFEN_REASON)) ∧
      (∀ c st no, (c = Instr.attemptResetEnd d false ∧ st = Stage.reset ∧ no = 0 ∨ c = .attemptClockLock d false ∧ st = .clock ∧ no = 1 ∨
          (∃ f : List (Fin 42), 2 < (f.map fun l => l.val).eraseDups.length ∧ c = .attemptTrainEnd d f ∧ st = .train ∧ no = 2) ∨ c = .attemptClearEnd d false ∧ st = .clear ∧ no = 3 ∨
          c = .attemptSelfTestEnd d false ∧ st = .selfTest ∧ no = 4) → x.attempt = some (a0, st) → Answers c s fun u =>
        dieRt u d.val = { x with attempt := none, due := some (s.now + 1000000) } ∧ (n < 3 → dieState u d.val = dLOST ∧ u.pm = s.pm) ∧
        (3 ≤ n → dieState u d.val = dFAILED ∧ getF u fPKG_ERR_DIE_FAILED = 1 ∧
          (s.pm.evq.length < 1024 → ∃ y, u.pm.evq = s.pm.evq ++ [y] ∧ y.status = 0x110 ∧ y.inst = d.val ∧ y.arg0 = no)) ∧
        (∀ e, e < 4 → e ≠ d.val → dieState u e = dieState s e) ∧ (∀ j, u.tile j = s.tile j) ∧ u.mem = s.mem)) ∧
    (∀ a0 (st : BitVec 8) (f : BitVec 64) others wrong bad, x.attempt = some (a0, .check) →
      wrong = (match stepFeatures st.toNat with | some w => f.toNat != w | none => false) →
      others = (List.range 4).filter (fun e => e != d.val && dieState s e != dABSENT && dieState s e != dFAILED) →
      bad = (wrong || stepsBad (getF s fPKG_BASE_ID_STEPPING) (st.toNat :: others.map fun e => getF s (fPKG_DIE_STATUS_STEPPING e)) ||
        (match s.load.feat with | some w => f.toNat % 512 &&& w != w | none => false)) → Answers (.attemptCheck d st f) s fun u =>
      getF u (fPKG_DIE_STATUS_STEPPING d.val) = st.toNat ∧ getF u (fPKG_DIE_FEATURE_FEATURES d.val) = f.toNat % 512 ∧
      getF u (fPKG_DIE_ERRATA_MASK d.val) = Config.errata st.toNat % 2 ^ 64 ∧ (dieRt u d.val).attempt = none ∧
      (getF s fPM_STATUS_STAGE < 5 → wrong = false → dieState u d.val = dREADY) ∧
      ((5 ≤ getF s fPM_STATUS_STAGE ∨ wrong = true) → bad = true → dieState u d.val = dFAILED ∧ getF u fPKG_ERR_REJOIN_REJ = 1 ∧
        (s.pm.evq.length < 1024 → ∃ y, u.pm.evq = s.pm.evq ++ [y] ∧ y.status = 0x111 ∧ y.inst = d.val)) ∧
      (5 ≤ getF s fPM_STATUS_STAGE → bad = false → (bitF s fCMP_PHASE_VALID = true ∨ bitF s (fPKG_DIE_CTL_HOLD d.val) = true) → dieState u d.val = dREADY) ∧
      (5 ≤ getF s fPM_STATUS_STAGE → bad = false → bitF s fCMP_PHASE_VALID = false → bitF s (fPKG_DIE_CTL_HOLD d.val) = false →
        dieState u d.val = dUP ∧ getF u (fCLK_DIE_FCODE d.val) = min 24 (min (getF s (fCLK_DIE_THERM d.val)) (getF s (fCLK_DIE_CURR d.val)))) ∧
      (∀ e, e < 4 → e ≠ d.val → dieState u e = dieState s e) ∧ (∀ j, u.tile j = s.tile j) ∧ u.mem = s.mem)

/-- R504, R507 to R510: a cluster of a mode that allows it enters GATE after 64 idle cycles, and NAP after its delay. A wake event for one of its tiles brings it to RUN from GATE, where no loop holds it,
and from NAP through a ramp slot: clusters woken at one instant ramp in ascending order 0.5 µs apart, a later one at the next free slot. REQ
puts a cluster without running tasks in OFF and takes it out; OFF keeps only a retained operand cache. A missing reference is replaced
by the local oscillator until it returns. -/
def Obligations.ClusterClockStates : Prop :=
  ∀ (s : State) (c : Cluster) (x : ClusterRt) (y : DieRt), clusterRt s c.val = x → dieRt s (c.val / 4) = y →
    (dieUp s (c.val / 4) = true → clusterState s c.val = kRUN → getF s (fPKG_CLUSTER_MODE c.val) ≤ 1 → 64 ≤ x.idle → (∀ t ∈ clusterTiles c.val, tileIdle s t = true) →
      Answers (.gateEntry c) s fun u => clusterState u c.val = kGATE ∧ clusterRt u c.val = { x with since := s.now, idle := 0 } ∧
        OnlyFields s { u with pkg := s.pkg } [fPKG_CLUSTER_STATE c.val]) ∧
    ((1 < getF s (fPKG_CLUSTER_MODE c.val) ∨ x.idle < 64) → exec (.gateEntry c) s = .next s) ∧
    ((∃ t ∈ clusterTiles c.val, tileIdle s t = false) → exec (.gateEntry c) s = .next s) ∧
    (clusterState s c.val = kGATE → x.forced = false → getF s (fPKG_CLUSTER_MODE c.val) = 0 →
      (x.since + 1000 * getF s fPKG_CLK_CTL_NAP_AFTER_US ≤ s.now → Answers (.napEntry c) s fun u => clusterState u c.val = kNAP ∧ OnlyFields s u [fPKG_CLUSTER_STATE c.val]) ∧
      (s.now < x.since + 1000 * getF s fPKG_CLK_CTL_NAP_AFTER_US → exec (.napEntry c) s = .next s)) ∧
    (getF s (fPKG_CLUSTER_MODE c.val) ≠ 0 → exec (.napEntry c) s = .next s) ∧
    ((∀ t ∈ clusterTiles c.val, tileWakes s t = false) → exec (.wakeEvent c) s = .next s) ∧
    (∀ w, w = ((clusterTiles c.val).any fun t => tileWakes s t) →
    (w = true → clusterState s c.val = kGATE → x.forced = false → Answers (.wakeEvent c) s fun u => clusterState u c.val = kRUN ∧ OnlyFields s u [fPKG_CLUSTER_STATE c.val]) ∧
    (w = true → clusterState s c.val = kGATE → x.forced = true → Answers (.wakeEvent c) s fun u => clusterState u c.val = kGATE ∧ clusterRt u c.val = { x with woken := true } ∧
      u = { s with pkg := { s.pkg with clusters := u.pkg.clusters } }) ∧
    ((clusterState s c.val = kRUN ∨ clusterState s c.val = kOFF) → exec (.wakeEvent c) s = .next s) ∧
    (∀ i m, (w = true ∧ clusterState s c.val = kNAP ∧ i = Instr.wakeEvent c ∨ clusterState s c.val = kOFF ∧ dieUp s (c.val / 4) = true ∧ i = .reqLeaveOff c) →
      max s.now y.slotFree = m →
      (y.wakes = [] → Answers i s fun u => dieRt u (c.val / 4) = { y with wakes := [(c.val, s.now, m)] } ∧ u = { s with pkg := { s.pkg with dies := u.pkg.dies } }) ∧
      (∀ b q, y.wakes = [(b, s.now, q)] → b < c.val → Answers i s fun u =>
        dieRt u (c.val / 4) = { y with wakes := [(b, s.now, m), (c.val, s.now, m + 500)] } ∧ u = { s with pkg := { s.pkg with dies := u.pkg.dies } }) ∧
      (∀ b q, y.wakes = [(b, s.now, q)] → c.val < b → Answers i s fun u =>
        dieRt u (c.val / 4) = { y with wakes := [(c.val, s.now, m), (b, s.now, m + 500)] } ∧ u = { s with pkg := { s.pkg with dies := u.pkg.dies } }) ∧
      (∀ b w q, y.wakes = [(b, w, q)] → b ≠ c.val → w < s.now → Answers i s fun u =>
        dieRt u (c.val / 4) = { y with wakes := [(b, w, q), (c.val, s.now, max m (q + 500))] } ∧ u = { s with pkg := { s.pkg with dies := u.pkg.dies } }) ∧
      ((∃ w ∈ y.wakes, w.1 = c.val) → exec i s = .next s))) ∧
    (clusterState s c.val ≠ kOFF → exec (.reqLeaveOff c) s = .next s) ∧
    (∀ w, y.wakes.find? (fun v => v.1 == c.val) = some w →
      (s.now < w.2.2 → exec (.clusterWakeDone c) s = .next s) ∧
      (w.2.2 ≤ s.now → Answers (.clusterWakeDone c) s fun u => clusterState u c.val = (if x.forced then kGATE else kRUN) ∧
        dieRt u (c.val / 4) = { y with wakes := y.wakes.filter fun v => v.1 != c.val, slotFree := max y.slotFree (w.2.2 + 500) } ∧
        (clusterRt u c.val).starts = [] ∧ (∀ t ∈ x.starts, u.tile t = { s.tile t with cycSince := s.now }) ∧ (∀ t, t ∉ x.starts → u.tile t = s.tile t) ∧
        (x.forced = false → u = { s with csr := u.csr, tiles := u.tiles, pkg := u.pkg, pwr := { s.pwr with eps := u.pwr.eps } } ∧
          FieldsKept s u [fPKG_CLUSTER_STATE c.val]) ∧
        (x.forced = true → x.byLoop = true → getF s (fPKG_CLUSTER_MODE c.val) = 2 → s.pwr.eps = [] → getF u fPWR_ERR_PIN_OVERRIDE = 1 ∧
          getF u (fPWR_CONFLICT_COUNT 2) = min (fPWR_CONFLICT_COUNT 2).top (getF s (fPWR_CONFLICT_COUNT 2) + 1)))) ∧
    (((∃ t ∈ clusterTiles c.val, isRunning s t = true) ∨ dieUp s (c.val / 4) = false) → Answers (.reqOff c) s fun u =>
      getF u (fPKG_CLUSTER_REQ_REJ c.val) = 1 ∧ OnlyFields s u [fPKG_CLUSTER_REQ_REJ c.val]) ∧
    ((∀ t ∈ clusterTiles c.val, isRunning s t = false) → dieUp s (c.val / 4) = true → clusterState s c.val ≠ kOFF → Answers (.reqOff c) s fun u =>
      clusterState u c.val = kOFF ∧ (∀ w ∈ (dieRt u (c.val / 4)).wakes, w.1 ≠ c.val) ∧
      (∀ t ∈ clusterTiles c.val, (u.tile t).oc = (if bitF s (fPKG_CLUSTER_RETAIN c.val) then (s.tile t).oc else []) ∧ (u.tile t).mat.a0.elems = [] ∧
        (u.tile t).mat.a1.elems = [] ∧ (u.tile t).vec.r.v = [] ∧ (u.tile t).vec.r.k = [] ∧ (u.tile t).vec.r.p = []) ∧
      (∀ t, t ∉ clusterTiles c.val → u.tile t = s.tile t) ∧ u = { s with csr := u.csr, tiles := u.tiles, pkg := u.pkg } ∧ FieldsKept s u [fPKG_CLUSTER_STATE c.val]) ∧
    (bitF s fPKG_AON_ON_LOCAL = false → Answers .refLost s fun u => getF u fPKG_AON_ON_LOCAL = 1 ∧ getF u fPKG_ERR_REF_LOST = 1 ∧ u.host.link = false ∧
      (∀ j, u.tile j = s.tile j) ∧ u.mem = s.mem) ∧
    (bitF s fPKG_AON_ON_LOCAL = true → exec .refLost s = .next s ∧ Answers .refRestore s fun u => getF u fPKG_AON_ON_LOCAL = 0 ∧
      (u.host.link = true ↔ s.pm.pins.rails = true ∧ 4 ≤ (if stage s = 8 then s.pm.boot.held else stage s) ∧ s.pm.pins.perst = false) ∧
      (u.host.link = true → TrainedLink u.host) ∧ u.host = { s.host with link := u.host.link, lanes := u.host.lanes, gen := u.host.gen } ∧
      OnlyFields s { u with host := s.host, free := s.free } [fPKG_AON_ON_LOCAL]) ∧
    (bitF s fPKG_AON_ON_LOCAL = false → exec .refRestore s = .next s)

/-! ### Power, clocks and temperature -/

/-- R514 to R517, R519, R520: the DVFS loop lowers its choice when the die is over budget, hot or asleep, and raises it where every condition has held over the last 1 ms; a pin write takes the fields in
range and an episode starts where a ceiling is below the new pin; a die takes the FCODE of R516, a higher one once its rail has risen, and its cycle counters go on; telemetry copies
every sensor that is not held. R529, R531, R444: Sluice's estimate sets its k, a droop sets a cluster's removal until it has recovered, and firmware's tables are taken. R533: the largest
of the removals applies in every 16 cycles. -/
def Obligations.FrequencyAndTelemetry : Prop :=
  ∀ (s : State) (d : Die) (x : DieLoop) (c : Nat), dieLoop s d.val = x → getF s (fCLK_DIE_CHOICE d.val) = c →
    (∀ power (tj tm : Int) b w sl all good, 1000 * getF s (fCLK_DVFS_PIN_BUDGET d.val) = b → w = ((x.sleepN, x.cycN) :: x.window).take 10 →
      sl = (w.map fun p => p.1).sum → all = (w.map fun p => p.2).sum →
      good = (decide (w.length = 10) && decide (100 * power < 95 * b) && decide (max tj tm < 8 * 95) && decide (4 * sl < all) && decide (c < getF s fCLK_FMAX_FCODE)) →
      (dieUp s d.val = true → since s x.dvfsAt 100000 = true →
        (b < power ∨ 8 * 97 ≤ tj ∨ all < 2 * sl → Answers (.dvfsDecide d power tj tm) s fun u => getF u (fCLK_DIE_CHOICE d.val) = (c - 1) % 32 ∧
          dieLoop u d.val = { x with dvfsAt := some s.now, sleepN := 0, cycN := 0, window := w } ∧ OnlyFields s { u with pwr := s.pwr } [fCLK_DIE_CHOICE d.val]) ∧
        (good = true → power ≤ b → all ≥ 2 * sl → since s x.raisedAt 1000000 = true → Answers (.dvfsDecide d power tj tm) s fun u =>
          getF u (fCLK_DIE_CHOICE d.val) = (c + 1) % 32 ∧ dieLoop u d.val = { x with dvfsAt := some s.now, sleepN := 0, cycN := 0, window := w, raisedAt := some s.now } ∧
          OnlyFields s { u with pwr := s.pwr } [fCLK_DIE_CHOICE d.val]) ∧
        (power ≤ b → tj < 8 * 97 → 2 * sl ≤ all → (good = false ∨ since s x.raisedAt 1000000 = false) → Answers (.dvfsDecide d power tj tm) s fun u =>
          dieLoop u d.val = { x with dvfsAt := some s.now, sleepN := 0, cycN := 0, window := w } ∧ u = { s with pwr := u.pwr })) ∧
      ((dieUp s d.val = false ∨ since s x.dvfsAt 100000 = false) → exec (.dvfsDecide d power tj tm) s = .next s)) ∧
    (∀ v : BitVec 32, Answers (.dvfsPinWrite d v) s fun u => getF u (fCLK_DVFS_PIN_EN d.val) = (v.getLsbD 31).toNat ∧
      getF u (fCLK_DVFS_PIN_FCODE d.val) = (if bits v.toNat 4 0 ≤ 30 then bits v.toNat 4 0 else getF s (fCLK_DVFS_PIN_FCODE d.val)) ∧
      getF u (fCLK_DVFS_PIN_BUDGET d.val) = (if 100 ≤ bits v.toNat 23 16 ∧ bits v.toNat 23 16 ≤ 230 then bits v.toNat 23 16 else getF s (fCLK_DVFS_PIN_BUDGET d.val)) ∧
      (s.pwr.eps = [] → v.getLsbD 31 = true → getF s (fCLK_DIE_THERM d.val) < getF u (fCLK_DVFS_PIN_FCODE d.val) → getF u fPWR_ERR_PIN_OVERRIDE = 1 ∧
        getF u (fPWR_CONFLICT_COUNT 0) = min (fPWR_CONFLICT_COUNT 0).top (getF s (fPWR_CONFLICT_COUNT 0) + 1) ∧
        (s.pm.evq.length < 1024 → ∃ e ∈ u.pm.evq, e.status = 0x116 ∧ e.inst = d.val ∧ e.arg0 = 0)) ∧
      getF u (fCLK_DIE_FCODE d.val) = getF s (fCLK_DIE_FCODE d.val) ∧ (∀ j, u.tile j = s.tile j) ∧ u.mem = s.mem) ∧
    (∀ k, k = min (if bitF s (fCLK_DVFS_PIN_EN d.val) then getF s (fCLK_DVFS_PIN_FCODE d.val) else c) (min (getF s (fCLK_DIE_THERM d.val)) (currCeil s)) →
      (getF s (fCLK_DIE_FCODE d.val) < k → x.uv < 550000 + 12500 * k → exec (.fcodeChangeDone d) s = .next s) ∧
      (dieUp s d.val = true → (k ≤ getF s (fCLK_DIE_FCODE d.val) ∨ 550000 + 12500 * k ≤ x.uv) → Answers (.fcodeChangeDone d) s fun u =>
      getF u (fCLK_DIE_FCODE d.val) = k % 32 ∧
      (∀ t ∈ dieTiles d.val, isRunning s t = true → u.tile t = { s.tile t with cycBase := (s.tile t).cycBase + (s.now - (s.tile t).cycSince) * tileMHz s d.val, cycSince := s.now }) ∧
      (∀ t, (t ∉ dieTiles d.val ∨ isRunning s t = false) → u.tile t = s.tile t) ∧ OnlyFields s { u with tiles := s.tiles } [fCLK_DIE_FCODE d.val])) ∧
    (dieUp s d.val = false → exec (.fcodeChangeDone d) s = .next s) ∧
    (∀ temps volts currs engines hotStacks, s.pm.pins.aon = true → since s s.pwr.teleAt 100000 = true → Answers (.telemetryCopy temps volts currs engines hotStacks) s fun u =>
      (∀ n t, n < 48 → temps[n]? = some t → (n < 32 → dieUp s (n / 8) = true) → getF u (fPWR_TEMP_VALID n) = 1 ∧ getF u (fPWR_TEMP_TEMP n) = (t % 4096).toNat) ∧
      (∀ n, n < 32 → dieUp s (n / 8) = false → getF u (fPWR_TEMP_VALID n) = getF s (fPWR_TEMP_VALID n) ∧ getF u (fPWR_TEMP_TEMP n) = getF s (fPWR_TEMP_TEMP n)) ∧
      (∀ n v, n < 24 → volts[n]? = some v → (2 ≤ n → n ≤ 5 → dieUp s (n - 2) = true) → getF u (fPWR_VOLT_VALID n) = 1 ∧
        getF u (fPWR_VOLT_MV n) = v % 2 ^ ((fPWR_VOLT_MV n).hi + 1 - (fPWR_VOLT_MV n).lo)) ∧
      (∀ n v, n < 12 → currs[n]? = some v → (1 ≤ n → n ≤ 4 → dieUp s (n - 1) = true) → getF u (fPWR_CURR_VALID n) = 1 ∧
        getF u (fPWR_CURR_DA n) = v % 2 ^ ((fPWR_CURR_DA n).hi + 1 - (fPWR_CURR_DA n).lo)) ∧
      (∀ n v, n < 17 → engines[n]? = some v → getF u (fOPT_ENG_TEMP n) = v % 256 ∧ getF u (fOPT_ENG_HOT n) = (if 83 ≤ sx 8 (v % 256) then 1 else 0) ∧
        (83 ≤ sx 8 (v % 256) → getF u fOPT_LINK_ERR_ENG_HOT = 1)) ∧
      (∀ t, temps[44]? = some t → 8 * 40 < t → getF u fPWR_ERR_COOLANT_HOT = 1) ∧ (∀ t ∈ hotStacks.take 8, 8 * 92 ≤ t → getF u fPWR_ERR_STACK_HOT = 1) ∧
      u.pwr = { s.pwr with teleAt := some s.now } ∧ (∀ j, u.tile j = s.tile j) ∧ u.mem = s.mem) ∧
    (∀ temps volts currs engines hotStacks, since s s.pwr.teleAt 100000 = false → exec (.telemetryCopy temps volts currs engines hotStacks) s = .next s) ∧
    (∀ issue port demand k, dieUp s d.val = true → demand = sluiceCurrent (sluiceTable s d.val) issue port → k = sluiceK demand (x.current + 40 * (s.now - x.currentAt)) →
      (8000 ≤ (s.now - x.currentAt) * tileMHz s d.val → Answers (.sluiceEstimate d issue port) s fun u =>
        dieLoop u d.val = { x with sluice := k, current := demand * (16 - k) / 16, currentAt := s.now } ∧ u = { s with pwr := { s.pwr with dies := u.pwr.dies } }) ∧
      ((s.now - x.currentAt) * tileMHz s d.val < 8000 → exec (.sluiceEstimate d issue port) s = .next s)) ∧
    (∀ (cl : Cluster) mv th y, dieUp s (cl.val / 4) = true → cl.val / 4 = d.val → getF s fCLK_DROOP_CTL_TH_MV = th → clusterRt s cl.val = y →
      (1000 * (mv + th) < x.uv → Answers (.droopStretch cl mv) s fun u => clusterRt u cl.val = { y with droop := some (y.droop.getD s.now) } ∧
        u = { s with pkg := { s.pkg with clusters := u.pkg.clusters } }) ∧
      (∀ t, y.droop = some t → 32000 ≤ (s.now - t) * tileMHz s d.val → x.uv + 10000 ≤ 1000 * (mv + th) → Answers (.droopStretch cl mv) s fun u =>
        clusterRt u cl.val = { y with droop := none } ∧ u = { s with pkg := { s.pkg with clusters := u.pkg.clusters } }) ∧
      (x.uv ≤ 1000 * (mv + th) → (y.droop = none ∨ 1000 * (mv + th) < x.uv + 10000 ∨ ∃ t, y.droop = some t ∧ (s.now - t) * tileMHz s d.val < 32000) →
        exec (.droopStretch cl mv) s = .next s)) ∧
    (∀ (cl : Cluster) r, cl.val / 4 = d.val → r = max x.sluice (max s.pwr.removal (if s.pwr.fast then 4 else 0)) →
      (dieUp s d.val = true → clusterState s cl.val = kRUN →
        ((clusterRt s cl.val).droop = none → removalOf s cl.val = (r, false)) ∧
        ((clusterRt s cl.val).droop ≠ none → removalOf s cl.val = if r < 8 then (8, true) else (r, false))) ∧
      (clusterState s cl.val ≠ kRUN → removalOf s cl.val = (0, false))) ∧
    (∀ a k, k ≤ 16 → removedIn (16 * a) 16 k = k) ∧
    (∀ demand allowed, sluiceK demand allowed ≤ 12 ∧ (∀ k, k < sluiceK demand allowed → 16 * allowed < demand * (16 - k)) ∧
      (4 * demand ≤ 16 * allowed → demand * (16 - sluiceK demand allowed) ≤ 16 * allowed)) ∧
    (∀ l, bitF s fPM_STATUS_FW_RUNNING = true →
      (dieState s d.val ≠ dLOST → since s x.tableAt 1000000 = true → Answers (.sluiceCalibration d l) s fun u =>
        dieLoop u d.val = { x with tableAt := some s.now } ∧ sluiceTable u d.val = l ∧ (∀ e, e < 4 → e ≠ d.val → sluiceTable u e = sluiceTable s e) ∧
        u = { s with pwr := { s.pwr with dies := u.pwr.dies }, pm := { s.pm with nor := { s.pm.nor with sluice := u.pm.nor.sluice } } }) ∧
      (since s s.pm.couplingAt 1000000000 = true → exec (.couplingRefine l) s = .next { s with pm := { s.pm with nor := { s.pm.nor with coupling := some l }, couplingAt := some s.now } })) ∧
    (∀ l, bitF s fPM_STATUS_FW_RUNNING = false → exec (.sluiceCalibration d l) s = .next s ∧ exec (.couplingRefine l) s = .next s)

/-- R513, R522 to R525: the throttle lowers a die's ceiling to one below its FCODE every 100 µs while anything is hot, and raises it by one every 1 ms once all is cool; at ceiling 0 and
103 °C its clusters gate in rotation, at 105 °C all are held in GATE until 100 °C; 115 °C turns the die's regulator off, or on the base die every one. A stack doubles
its refresh at 85 °C. A tripped rail loses its die, or turns every regulator but VAON off. R596: an input outside its range is reported. -/
def Obligations.ThermalLoops : Prop :=
  ∀ (s : State) (d : Die) (x : DieLoop), dieLoop s d.val = x →
    (∀ tj base eng a b : Int, dieUp s d.val = true →
      ((8 * 100 ≤ tj ∨ 8 * 100 ≤ base ∨ 8 * 83 ≤ eng ∨ 8 * 92 ≤ a ∨ 8 * 92 ≤ b) →
        (since s x.lowerAt 100000 = true → Answers (.thermThrottle d tj base eng a b) s fun u =>
          getF u (fCLK_DIE_THERM d.val) = (getF s (fCLK_DIE_FCODE d.val) - 1) % 32 ∧ dieLoop u d.val = { x with lowerAt := some s.now } ∧
          ((8 * 92 ≤ a ∨ 8 * 92 ≤ b) → getF u fPWR_ERR_STACK_HOT = 1) ∧ getF u (fCLK_DIE_FCODE d.val) = getF s (fCLK_DIE_FCODE d.val) ∧
          (∀ j, u.tile j = s.tile j) ∧ u.mem = s.mem) ∧
        (since s x.lowerAt 100000 = false → Answers (.thermThrottle d tj base eng a b) s fun u => getF u (fCLK_DIE_THERM d.val) = getF s (fCLK_DIE_THERM d.val) ∧ u.pwr = s.pwr)) ∧
      (tj ≤ 8 * 97 → base ≤ 8 * 97 → eng ≤ 8 * 81 → a ≤ 8 * 89 → b ≤ 8 * 89 → getF s (fCLK_DIE_THERM d.val) < 30 → since s x.raiseAt 1000000 = true →
        Answers (.thermThrottle d tj base eng a b) s fun u => getF u (fCLK_DIE_THERM d.val) = getF s (fCLK_DIE_THERM d.val) + 1 ∧
          dieLoop u d.val = { x with raiseAt := some s.now } ∧ (∀ j, u.tile j = s.tile j) ∧ u.mem = s.mem) ∧
      (tj < 8 * 100 → base < 8 * 100 → eng < 8 * 83 → a < 8 * 92 → b < 8 * 92 → (8 * 97 < tj ∨ 8 * 97 < base ∨ 8 * 81 < eng ∨ 8 * 89 < a ∨ 8 * 89 < b) →
        exec (.thermThrottle d tj base eng a b) s = .next s)) ∧
    (∀ tj : Int, dieUp s d.val = true → x.limit = false →
      (x.rot = none → getF s (fCLK_DIE_THERM d.val) = 0 → 8 * 103 ≤ tj → (clusterRt s (4 * d.val)).forced = false → Answers (.thermGateRotation d tj) s fun u =>
        (dieLoop u d.val).rot = some (0, s.now) ∧ (clusterRt u (4 * d.val)).forced = true ∧ (clusterState s (4 * d.val) = kRUN → clusterState u (4 * d.val) = kGATE) ∧
        (∀ k, k < 16 → k ≠ 4 * d.val → clusterRt u k = clusterRt s k ∧ clusterState u k = clusterState s k) ∧ (∀ j, u.tile j = s.tile j) ∧ u.mem = s.mem) ∧
      (∀ k t0, x.rot = some (k, t0) → k < 4 → (clusterRt s (4 * d.val + k)).forced = true →
        (tj ≤ 8 * 100 → Answers (.thermGateRotation d tj) s fun u => (dieLoop u d.val).rot = none ∧ (clusterRt u (4 * d.val + k)).forced = false ∧
          ((clusterRt s (4 * d.val + k)).woken = true → clusterState s (4 * d.val + k) = kGATE → clusterState u (4 * d.val + k) = kRUN) ∧
          (∀ m, m < 16 → m ≠ 4 * d.val + k → clusterRt u m = clusterRt s m ∧ clusterState u m = clusterState s m)) ∧
        (8 * 100 < tj → s.now < t0 + 25000 → exec (.thermGateRotation d tj) s = .next s) ∧
        (8 * 100 < tj → t0 + 25000 ≤ s.now → Answers (.thermGateRotation d tj) s fun u => (dieLoop u d.val).rot = some ((k + 1) % 4, s.now) ∧
          (clusterRt u (4 * d.val + k)).forced = false ∧ (clusterRt u (4 * d.val + (k + 1) % 4)).forced = true))) ∧
    (∀ tj : Int, dieUp s d.val = true →
      (x.limit = false → 8 * 105 ≤ tj → Answers (.thermLimit d tj) s fun u => (dieLoop u d.val).limit = true ∧ (dieLoop u d.val).rot = none ∧ getF u fPWR_ERR_THERM_LIMIT = 1 ∧
        (∀ k, k < 4 → (clusterRt u (4 * d.val + k)).forced = true ∧
          ((clusterRt s (4 * d.val + k)).forced = false → clusterState s (4 * d.val + k) = kRUN → clusterState u (4 * d.val + k) = kGATE)) ∧
        (s.pm.evq.length < 1024 → ∃ e ∈ u.pm.evq, e.status = 0x114 ∧ e.inst = d.val) ∧ (∀ j, u.tile j = s.tile j) ∧ u.mem = s.mem) ∧
      (x.limit = true → tj ≤ 8 * 100 → Answers (.thermLimit d tj) s fun u => (dieLoop u d.val).limit = false ∧
        (∀ k, k < 4 → (clusterRt u (4 * d.val + k)).forced = false ∧ ((clusterRt s (4 * d.val + k)).forced = true → (clusterRt s (4 * d.val + k)).woken = true →
          clusterState s (4 * d.val + k) = kGATE → clusterState u (4 * d.val + k) = kRUN)) ∧ (∀ j, u.tile j = s.tile j) ∧ u.mem = s.mem) ∧
      (x.limit = true → 8 * 100 < tj → exec (.thermLimit d tj) s = .next s) ∧ (x.limit = false → tj < 8 * 105 → exec (.thermLimit d tj) s = .next s)) ∧
    (∀ (n : Fin 40) (t : Int), s.pm.pins.rails = true →
      (8 * 115 ≤ t → n.val < 32 → (dieUp s (n.val / 8) = true ∨ dieState s (n.val / 8) = dREADY) → Answers (.thermTrip n t) s fun u => dieState u (n.val / 8) = dLOST ∧
        (dieRt u (n.val / 8)).railOff = true ∧ pwrGood u = false ∧
        getF u (fPKG_DIE_STATUS_REASON (n.val / 8)) = 3 ∧ getF u fPWR_ERR_THERM_TRIP = 1 ∧ u.pm.pins = s.pm.pins ∧
        (s.pm.evq.length < 1024 → ∃ e, u.pm.evq = s.pm.evq ++ [e] ∧ e.status = 0x115 ∧ e.inst = n.val) ∧ (∀ j, u.tile j = s.tile j) ∧ u.mem = s.mem) ∧
      (8 * 115 ≤ t → 32 ≤ n.val → Answers (.thermTrip n t) s fun u => u.pm.pins = { s.pm.pins with rails := false, good := false } ∧ u.tiles = [] ∧
        (∀ e, e < 4 → dieState s e ≠ dABSENT → dieState u e = dLOST) ∧ (s.pm.evq.length < 1024 → ∃ e, u.pm.evq = s.pm.evq ++ [e] ∧ e.status = 0x115 ∧ e.inst = n.val)) ∧
      (t < 8 * 115 → exec (.thermTrip n t) s = .next s)) ∧
    (∀ (k : Fin 8) (t : Int), (8 * 85 ≤ t → Answers (.stackRefreshChange k t) s fun u => (∀ n, n ∈ u.pwr.hot ↔ n ∈ s.pwr.hot ∨ n = k.val) ∧
        (8 * 92 ≤ t → getF u fPWR_ERR_STACK_HOT = 1) ∧ (t < 8 * 92 → u = { s with pwr := { s.pwr with hot := u.pwr.hot } })) ∧
      (t ≤ 8 * 82 → Answers (.stackRefreshChange k t) s fun u => (∀ n, n ∈ u.pwr.hot ↔ n ∈ s.pwr.hot ∧ n ≠ k.val) ∧ u = { s with pwr := { s.pwr with hot := u.pwr.hot } }) ∧
      (8 * 82 < t → t < 8 * 85 → exec (.stackRefreshChange k t) s = .next s)) ∧
    (∀ (kind : Fin 3) (v : BitVec 32),
      (∀ m : Fin 24, crosses s m.val kind.val v.toNat = false → exec (.railTrip m kind v) s = .next s) ∧
      (∀ m : Fin 24, m.val = d.val + 2 → s.pm.pins.rails = true →
        (crosses s m.val 0 v.toNat = true ↔ 10 * (1000 * v.toNat) < 9 * x.uv) ∧ (crosses s m.val 1 v.toNat = true ↔ 11 * x.uv < 10 * (1000 * v.toNat)) ∧
        (crosses s m.val 2 v.toNat = true ↔ 3300 < v.toNat)) ∧
      (∀ m : Fin 24, m.val = d.val + 2 → s.pm.pins.rails = true → crosses s m.val kind.val v.toNat = true → (dieRt s d.val).railOff = false →
        (dieUp s d.val = true ∨ dieState s d.val = dREADY) → Answers (.railTrip m kind v) s fun u => dieState u d.val = dLOST ∧ (dieRt u d.val).railOff = true ∧ pwrGood u = false ∧
        getF u (fPKG_DIE_STATUS_REASON d.val) = 3 ∧ u.pm = s.pm ∧ (∀ j, u.tile j = s.tile j) ∧ u.mem = s.mem) ∧
      (∀ m : Fin 24, m.val ≠ 0 → (m.val < 2 ∨ 5 < m.val) → m.val < 22 → s.pm.pins.rails = true → crosses s m.val kind.val v.toNat = true → Answers (.railTrip m kind v) s fun u =>
        u.pm.pins = { s.pm.pins with rails := false, good := false } ∧ getF u fPWR_ERR_RAIL_FAULT = 1 ∧ u.tiles = [] ∧
        (∀ e, e < 4 → dieState s e ≠ dABSENT → dieState u e = dLOST) ∧
        (s.pm.evq.length < 1024 → ∃ e, u.pm.evq = s.pm.evq ++ [e] ∧ e.status = 0x113 ∧ e.inst = m.val)) ∧
      (∀ m : Fin 24, (m.val = 0 ∨ 22 ≤ m.val) → exec (.railTrip m kind v) s = .next s)) ∧
    (∀ mv, s.pm.pins.aon = true → 46000 ≤ mv → mv ≤ 61000 →
      ((mv < 48000 ∨ 59500 < mv) → Answers (.vinRange mv) s fun u => getF u fPWR_ERR_VIN_RANGE = 1 ∧ u.pm = s.pm ∧ (∀ j, u.tile j = s.tile j) ∧ u.mem = s.mem) ∧
      (48000 ≤ mv → mv ≤ 59500 → exec (.vinRange mv) s = .next s))

/-- R526 to R528: every microsecond the bucket changes by 1,448 W less the input power within 0 to 2 J, and the run timer counts; an empty bucket or 9.8 ms starts the lowering of the
common ceiling to one below the highest FCODE in force, every 50 µs; at 9.95 ms pulses are removed, 4 of 16 and 4 more each microsecond up to 12; the ceiling rises by one
every 1 ms once the bucket holds 1 J. Above 1,650 W the fast path acts until 100 µs at or below 1,600 W. -/
def Obligations.CurrentLimit : Prop :=
  ∀ (s : State) (p : PwrSt) (f : Nat), s.pwr = p →
    f = (List.range 4).foldl (fun a d => if dieUp s d then max a (getF s (fCLK_DIE_FCODE d)) else a) 0 →
    (∀ power, s.pm.pins.aon = true → since s p.bucketAt 1000 = true → Answers (.bucketUpdate power) s fun u =>
      u.pwr.bucket = min 2000000000 (p.bucket + 1448000 - power) ∧ u.pwr.run = (if 1450000 < power then p.run + 1 else 0) ∧ u.pwr.power = (power :: p.power).take 1000 ∧
      (p.removal = 0 → u.pwr.removal = 0) ∧ (p.removal ≠ 0 → 1450000 < power → u.pwr.removal = min 12 (p.removal + 4)) ∧
      (p.removal ≠ 0 → power ≤ 1450000 → u.pwr.removal = if 100 ≤ p.quiet + 1 then 0 else p.removal) ∧
      (u.pwr.fast = true ↔ p.fast = true ∧ (1600000 < power ∨ p.fastQuiet + 1 < 100)) ∧
      (p.lowering = true → (meanAbove u 10 1448000 = true ∨ u.pwr.removal ≠ 0) → u.pwr.lowering = true) ∧
      (meanAbove u 10 1448000 = false → u.pwr.removal = 0 → u.pwr.lowering = false) ∧ u = { s with pwr := u.pwr }) ∧
    (∀ power, (s.pm.pins.aon = false ∨ since s p.bucketAt 1000 = false) → exec (.bucketUpdate power) s = .next s) ∧
    ((p.bucket = 0 ∨ 9800 ≤ p.run) → p.lowering = false → Answers .runTimerExpiry s fun u => getF u fPWR_ERR_POWER_LIMIT = 1 ∧ u.pwr.lowering = true ∧
      (since s p.curLowerAt 50000 = true → (meanAbove s 10 1448000 = true ∨ p.removal ≠ 0) → (∃ d, d < 4 ∧ dieUp s d = true) → ∀ d, d < 4 → getF u (fCLK_DIE_CURR d) = (f - 1) % 32) ∧
      ((since s p.curLowerAt 50000 = false ∨ meanAbove s 10 1448000 = false ∧ p.removal = 0) → ∀ d, d < 4 → getF u (fCLK_DIE_CURR d) = getF s (fCLK_DIE_CURR d)) ∧ (∀ j, u.tile j = s.tile j) ∧ u.mem = s.mem) ∧
    (p.bucket ≠ 0 → p.run < 9800 → exec .runTimerExpiry s = .next s) ∧
    (p.lowering = true → since s p.curLowerAt 50000 = true → (meanAbove s 10 1448000 = true ∨ p.removal ≠ 0) → (∃ d, d < 4 ∧ dieUp s d = true) →
      Answers .currCeilingLower s fun u => (∀ d, d < 4 → getF u (fCLK_DIE_CURR d) = (f - 1) % 32) ∧ u.pwr.curLowerAt = some s.now ∧
        (∀ d, d < 4 → getF u (fCLK_DIE_FCODE d) = getF s (fCLK_DIE_FCODE d)) ∧ (∀ j, u.tile j = s.tile j) ∧ u.mem = s.mem) ∧
    ((p.lowering = false ∨ since s p.curLowerAt 50000 = false) → exec .currCeilingLower s = .next s) ∧
    (9950 ≤ p.run → p.removal = 0 → exec .runTimerRemoval s = .next { s with pwr := { p with removal := 4, quiet := 0 } }) ∧
    (p.run < 9950 → exec .runTimerRemoval s = .next s) ∧
    (currCeil s < 30 → 1000000000 ≤ p.bucket → meanAbove s 1000 1448000 = false → since s p.curRaiseAt 1000000 = true → Answers .currCeilingRaise s fun u =>
      (∀ d, d < 4 → getF u (fCLK_DIE_CURR d) = currCeil s + 1) ∧ u.pwr.curRaiseAt = some s.now ∧ (∀ j, u.tile j = s.tile j) ∧ u.mem = s.mem) ∧
    ((30 ≤ currCeil s ∨ p.bucket < 1000000000) → exec .currCeilingRaise s = .next s) ∧
    (∀ q l, p.power = q :: l →
      (1650000 < q → Answers .fastPath s fun u => u.pwr = { p with fast := true, fastQuiet := 0 } ∧ getF u fPWR_ERR_POWER_LIMIT = 1 ∧
        (∀ d, d < 4 → getF u (fCLK_DIE_CURR d) = getF s (fCLK_DIE_CURR d)) ∧ (∀ j, u.tile j = s.tile j) ∧ u.mem = s.mem) ∧
      (q ≤ 1650000 → exec .fastPath s = .next s))

/-! ### Start-up, power and resets -/

/-- R537, R538, R592 to R594, R456: PWR_EN begins start-up, VAON starts the timebase and the boot ROM, the rails and then B come up, the present dies start their attempts, and memory
training, zero fill, the stepping check, the flash layer and the optics complete their rows; the last one makes the module READY. A stack that fails
training, or steppings that do not fit, lead to limited mode. A source that is FAILING when the optics report ready is replaced by a spare. -/
def Obligations.StartUpRows : Prop :=
  ∀ (s : State) (p : Pins) (b : Boot), s.pm.pins = p → s.pm.boot = b →
    (Answers .vinApply s fun u => u = { s with pm := { s.pm with pins := { p with vin := true } } }) ∧
    (∀ (slot : Fin 64) t,
      (p.pwrEn = false → p.vin = true → p.down = false → Answers (.pwrEnRise slot t) s fun u =>
        u = { s with pm := { s.pm with pins := { p with pwrEn := true, slot := slot.val, scan := t && !p.rst } } }) ∧
      (p.pwrEn = false → p.vin = true → p.down = true → Answers (.pwrEnRise slot t) s fun u =>
        u = { s with pm := { s.pm with pins := { p with pwrEn := true, again := some (slot.val, t) } } }) ∧
      ((p.pwrEn = true ∨ p.vin = false) → exec (.pwrEnRise slot t) s = .next s)) ∧
    (∀ ramp, p.pwrEn = true → p.vin = true → p.rst = false → p.aon = false → p.down = false → Answers (.vaonReady ramp) s fun u =>
      u.now = 0 ∧ stage u = 0 ∧ u.pm.rom = .cold ∧ u.pm.pins = { p.levels with aon := true } ∧ getF u fOPT_SERIAL_SERIAL = Config.serial % 2 ^ 64 ∧ NorKept s u ∧
      u.pm.nextSeq = (match s.pm.nor.log.getLast? with | some r => (r.seq + 1) % 2 ^ 32 | none => 0) ∧ u.pm.buf = [] ∧ u.pm.boot.ramp = ramp ∧
      u.pm.boot.lastSeq = s.pm.nor.log.getLast?.map LogRec.seq ∧ u.tiles = [] ∧ u.mem = Mem.reset ∧ u.pending = s.pending ∧
      (∀ f, f.lo < 64 → fldKey f ≠ fldKey fOPT_SERIAL_SERIAL → fldKey f ≠ fldKey fPM_STATUS_STAGE →
        (∀ n, n < 20 → fldKey f ≠ fldKey (fLAS_SRC_P0 n)) → getF u f = csrDefault (fldKey f)) ∧
      (∀ n, n < 20 → getF u (fLAS_SRC_P0 n) = Config.sourceP0 n % 2 ^ ((fLAS_SRC_P0 n).hi + 1 - (fLAS_SRC_P0 n).lo)) ∧
      (s.tier.fops = [] → u.tier.flash = s.tier.flash)) ∧
    (∀ ramp, (p.pwrEn = false ∨ p.vin = false ∨ p.rst = true ∨ p.aon = true) → exec (.vaonReady ramp) s = .next s) ∧
    (startupAt s 1 = true → Answers .railSequenceDone s fun u => stage u = 2 ∧ u.pm.pins = { p with rails := true, good := true } ∧
      (∀ d, d < 4 → (dieLoop u d).uv = setpoint 24) ∧
      OnlyFields s { u with pm := s.pm, pwr := s.pwr } [fPM_STATUS_STAGE] ∧ u.pm = { s.pm with pins := u.pm.pins }) ∧
    (∀ (st : BitVec 8) (m : BitVec 4), startupAt s 2 = true →
      (bitF s fPKG_AON_ON_LOCAL = true → exec (.baseResetRelease st m) s = .next s) ∧
      (bitF s fPKG_AON_ON_LOCAL = false → s.now + b.ramp < b.from_ + 130000000 → Answers (.baseResetRelease st m) s fun u => stage u = 3 ∧ getF u fPKG_BASE_ID_STEPPING = st.toNat ∧
        u.pm.boot = { b with present := m.toNat } ∧ OnlyFields s { u with pm := s.pm } [fPM_STATUS_STAGE, fPKG_BASE_ID_STEPPING]) ∧
      (bitF s fPKG_AON_ON_LOCAL = false → b.from_ + 130000000 ≤ s.now + b.ramp → b.from_ ≤ s.now → Answers (.baseResetRelease st m) s fun u => stage u = 4 ∧
        getF u fPKG_BASE_ID_STEPPING = st.toNat ∧
        (∀ d, d < 4 → m.getLsbD d = true → dieState u d = dRESETTING ∧ (dieRt u d).attempt = some (s.now, .reset) ∧
          getF u (fPKG_DIE_STATUS_ATTEMPTS d) = (getF s (fPKG_DIE_STATUS_ATTEMPTS d) + 1) % 4) ∧
        (∀ d, d < 4 → m.getLsbD d = false → dieState u d = dABSENT) ∧ (u.host.link = true ↔ p.rails = true ∧ p.perst = false) ∧
        u.pm = { s.pm with boot := { b with present := m.toNat } } ∧ (∀ j, u.tile j = s.tile j) ∧ u.mem = s.mem)) ∧
    (startupAt s 4 = true → b.trained = false →
      (Answers (.memoryTrainingDone true) s fun u => u = { s with pm := { s.pm with boot := { b with trained := true } } }) ∧
      (Answers (.memoryTrainingDone false) s fun u => Limited s u)) ∧
    (∀ ok, b.trained = true → exec (.memoryTrainingDone ok) s = .next s) ∧
    (startupAt s 4 = true → b.trained = true → Answers .stackedZeroDone s fun u => u.mem = { s.mem with ready := true } ∧
      u = { s with mem := u.mem, pm := { s.pm with boot := { b with stacked := true } } }) ∧
    (∀ l, startupAt s 4 = true → b.stacked = true → (∀ d, d < 4 → dieState s d = dABSENT ∨ dieState s d = dREADY ∨ dieState s d = dFAILED) →
      l = ((List.range 4).filter fun d => dieState s d == dREADY).map (fun d => getF s (fPKG_DIE_STATUS_STEPPING d)) →
      (stepsBad (getF s fPKG_BASE_ID_STEPPING) l = true → Answers .steppingCheck s fun u => Limited s u) ∧
      (stepsBad (getF s fPKG_BASE_ID_STEPPING) l = false → Answers .steppingCheck s fun u => StartUpGoes s u 5 { b with checked := true } ∧
        (∀ d, d < 4 → dieState u d = if dieState s d = dREADY ∧ bitF s (fPKG_DIE_CTL_HOLD d) = false then dUP else dieState s d) ∧
        (∀ j, u.tile j = s.tile j) ∧ u.mem = s.mem)) ∧
    (∀ n, (n = 4 ∨ n = 5) → startupAt s n = true →
      (s.fab.opticsOn = none → Answers .opticalEnable s fun u => u.fab = { s.fab with opticsOn := some s.now } ∧
        getF u fOPT_FAB_STATUS_SPLIT = settingsSplit s % 4 ∧ OnlyFields s { u with fab := s.fab } [fOPT_FAB_STATUS_SPLIT]) ∧
      (s.fab.opticsOn ≠ none → exec .opticalEnable s = .next s) ∧
      ((s.fab.opticsOn = none ∨ s.fab.ready = true) → exec .opticalReady s = .next s) ∧
      (s.fab.opticsOn ≠ none → s.fab.ready = false →
        ((∀ k, k < 20 → (laserSrc s k).stage ≠ 2 ∧ ((laserSrc s k).stage = 4 → engineOf s k = none)) → Answers .opticalReady s fun u => u.fab = { s.fab with ready := true } ∧
          StartUpGoes s u n { b with optics := true } ∧ (∀ j, u.tile j = s.tile j) ∧ u.mem = s.mem) ∧
        (∀ k e sp, k < 20 → (∀ j, j < 20 → ((laserSrc s j).stage = 2 ∨ (laserSrc s j).stage = 4 ∧ engineOf s j ≠ none ↔ j = k)) → s.fab.swaps = [] → engineOf s k = some e → nextSpare s = some sp →
          Answers .opticalReady s fun u =>
          u.fab = { s.fab with ready := true, lasers := u.fab.lasers } ∧ getF u (fLAS_MAP_SRC e) = sp % 32 ∧ getF u (fLAS_MAP_SPARED e) = 1 ∧
          laserSrc u k = ⟨4, none, false, none⟩ ∧ laserSrc u sp = ⟨0, none, false, none⟩ ∧
          getF u fLAS_STATUS_SWAPS = min 255 (getF s fLAS_STATUS_SWAPS + 1) ∧ u.pm.boot = { b with optics := true } ∧
          (∀ j, u.tile j = s.tile j) ∧ u.mem = s.mem)) ∧
      (∀ x, b.ftl = false → Answers (.ftlRebuildDone x) s fun u => u.tier = { s.tier with ftlReady := true, absent := x.val } ∧ StartUpGoes s u n { b with ftl := true } ∧
        (x ≠ 0 → getF u fTIER_ERR_SPARE_LOW = 1) ∧ (∀ j, u.tile j = s.tile j) ∧ u.mem = s.mem) ∧
      (b.trained = true → b.lpddr = false → Answers .lpddrZeroDone s fun u => u.mem = { s.mem with lpddrReady := true } ∧ StartUpGoes s u n { b with lpddr := true } ∧
        ∀ j, u.tile j = s.tile j))

/-- R513, R556, R591, R592, R595, R596, R600: PWR_EN that falls gates the clusters, then the rails go off, then VAON; an input beyond its limits turns the rails off with a record, and
one below 40 V leaves nothing powered. A LOAD under way leaves the inactive bank invalid. MOD_RST_N resets every register but PM_STATUS, PM_LOG_STATUS and PKG_AON and keeps the timebase, the log and the NOR device; its
deassertion starts the boot ROM again. TEST_EN, PERST_N, the function level reset and the boundary scan act on the pins and the endpoint. -/
def Obligations.PowerAndResets : Prop :=
  ∀ (s : State) (p : Pins), s.pm.pins = p →
    (p.pwrEn = true → p.aon = true → Answers .pwrEnFall s fun u => u.pm.pins = { p with pwrEn := false, down := true, good := false } ∧
      (∀ c, c < 16 → dieUp s (c / 4) = true → (clusterRt u c).forced = true ∧
        ((clusterRt s c).forced = false → clusterState s c = kRUN → clusterState u c = kGATE)) ∧ (∀ j, u.tile j = s.tile j) ∧ u.mem = s.mem ∧ u.now = s.now) ∧
    (p.pwrEn = true → p.aon = false → Answers .pwrEnFall s fun u => u = { s with pm := { s.pm with pins := { p with pwrEn := false, again := none } } }) ∧
    (p.pwrEn = false → exec .pwrEnFall s = .next s) ∧
    (p.down = true → p.rails = true → Answers .railsOff s fun u => RailsOff s u ∧ u.pm.evq = s.pm.evq ∧ u.pm.pins = { p with rails := false, good := false } ∧
      ∀ d, d < 4 → dieState s d ≠ dABSENT → dieState u d = dLOST) ∧
    ((p.down = false ∨ p.rails = false) → exec .railsOff s = .next s) ∧
    (p.down = true → p.rails = false →
      (p.again = none → Answers .vaonOff s fun u => Unpowered s u { p.levels with scan := false }) ∧
      (∀ slot t, p.again = some (slot, t) → Answers .vaonOff s fun u => Unpowered s u { p.levels with slot := slot, scan := t && !p.rst })) ∧
    ((p.down = false ∨ p.rails = true) → exec .vaonOff s = .next s) ∧
    (∀ mv, p.rails = true →
      ((mv < 46000 ∨ 61000 < mv) → Answers (.vinShutdown mv) s fun u => RailsOff s u ∧ getF u fPWR_ERR_RAIL_FAULT = 1 ∧
        (s.pm.evq.length < 1024 → ∃ e, u.pm.evq = s.pm.evq ++ [e] ∧ e.status = 0x113 ∧ e.inst = 0 ∧ e.arg0 = if mv < 46000 then 0 else 1)) ∧
      (46000 ≤ mv → mv ≤ 61000 → exec (.vinShutdown mv) s = .next s)) ∧
    (Answers .vinLoss s fun u => Unpowered s u { p.levels with vin := false, scan := false }) ∧
    (p.rst = false → p.down = false → p.aon = true → Answers .modRstNAssert s fun u => u.pm.pins = { p with rst := true, rails := false, good := false } ∧ stage u = 0 ∧
      getF u fPM_STATUS_FW_RUNNING = 0 ∧ getF u fPM_LOG_STATUS_SEL_MISS = 0 ∧ RailsOff s u ∧ u.pm.evq = [] ∧ u.pm.nextSeq = s.pm.nextSeq ∧ u.host = HostIf.reset ∧ u.obs = Obs.reset ∧ u.load = Loader.reset ∧
      u.pwr = PwrSt.reset ∧ ∀ f, f.lo < 64 → keptReg f.off = false → getF u f = csrDefault (fldKey f)) ∧
    (p.rst = false → p.down = false → p.aon = false → Answers .modRstNAssert s fun u => u = { s with pm := { s.pm with pins := { p with rst := true } } }) ∧
    ((p.rst = true ∨ p.down = true) → exec .modRstNAssert s = .next s) ∧
    (∀ (slot : Fin 64) t, p.rst = true →
      (p.aon = true → Answers (.modRstNDeassert slot t) s fun u => u.pm.pins = { p with rst := false, slot := slot.val } ∧ u.pm.rom = .cold ∧ stage u = 0 ∧
        u.pm.boot.from_ = s.now ∧ getF u fOPT_SERIAL_SERIAL = Config.serial % 2 ^ 64 ∧ u.now = s.now ∧ OnlyFields s { u with pm := s.pm } ([fOPT_SERIAL_SERIAL, fPM_STATUS_STAGE] ++ (List.range 20).map fLAS_SRC_P0)) ∧
      (p.aon = false → p.pwrEn = true → Answers (.modRstNDeassert slot t) s fun u =>
        u = { s with pm := { s.pm with pins := { p with rst := false, slot := slot.val, scan := t } } }) ∧
      (p.aon = false → p.pwrEn = false → Answers (.modRstNDeassert slot t) s fun u => u = { s with pm := { s.pm with pins := { p with rst := false } } })) ∧
    (∀ (slot : Fin 64) t, p.rst = false → exec (.modRstNDeassert slot t) s = .next s) ∧
    (stage s = 6 → p.scan = false → Answers .testEnRise s fun u => u = { s with pm := { s.pm with pins := { p with test := true } } }) ∧
    (stage s ≠ 6 → exec .testEnRise s = .next s) ∧
    (Answers (.perstN true) s fun u => u.pm.pins = { p with perst := true } ∧
      u.host = { s.host with msixAddr := 0, msixData := 0, msixMask := true, msixPend := false, link := false } ∧
      u = { s with host := u.host, pm := { s.pm with pins := u.pm.pins } }) ∧
    (Answers (.perstN false) s fun u => u.pm.pins = { p with perst := false } ∧ u.host = { s.host with link := u.host.link, lanes := u.host.lanes, gen := u.host.gen } ∧
      (u.host.link = true ↔ p.rails = true ∧ 4 ≤ (if stage s = 8 then s.pm.boot.held else stage s) ∧ bitF s fPKG_AON_ON_LOCAL = false) ∧
      (u.host.link = true → TrainedLink u.host) ∧ u = { s with free := u.free, host := u.host, pm := { s.pm with pins := u.pm.pins } }) ∧
    (s.host.link = true → linkMay s = true → Answers .functionLevelReset s fun u => u.host.link = true ∧ TrainedLink u.host ∧ u = { s with
      free := u.free
      host := { s.host with msixAddr := 0, msixData := 0, msixMask := true, msixPend := false, lanes := u.host.lanes, gen := u.host.gen } }) ∧
    (s.host.link = false → exec .functionLevelReset s = .next s) ∧
    (∀ (tms tdi : Bool) (j : Jtag), p.scan = true → p.rails = true → p.jtag = j →
      Answers (.boundaryScanTck ⟨tms, false⟩ tdi) s (fun u => ∃ k : Jtag, u = { s with free := u.free, pm := { s.pm with pins := { p with jtag := k } } } ∧
        k.tap = j.tap.next tms ∧ (j.tap = .shiftDr ∨ j.tap = .shiftIr → k.shift = j.shift.drop 1 ++ [tdi]) ∧
        (j.tap = .captureDr → j.bypass = true → k.shift = [false]) ∧ (j.tap = .captureIr → k.shift.take 2 = [true, false]) ∧
        (j.tap ≠ .shiftDr → j.tap ≠ .shiftIr → j.tap ≠ .captureDr → j.tap ≠ .captureIr → k.shift = j.shift ∧ u.free = s.free) ∧
        (k.tap = .updateIr → k.ir = k.shift) ∧ (k.tap = .testLogicReset → k.ir = []) ∧ (k.tap ≠ .updateIr → k.tap ≠ .testLogicReset → k.ir = j.ir) ∧
        (k.tap = .updateDr → j.bypass = false → k.cells = k.shift) ∧ (k.tap ≠ .updateDr ∨ j.bypass = true → k.cells = j.cells) ∧
        k.tdo = if k.tap = .shiftIr ∨ k.tap = .shiftDr then k.shift.head? else none) ∧
      Answers (.boundaryScanTck ⟨tms, true⟩ tdi) s (fun u =>
        u = { s with pm := { s.pm with pins := { p with jtag := { j with tap := .testLogicReset, ir := [], tdo := none } } } })) ∧
    (∀ tms tdi, p.scan = false → exec (.boundaryScanTck tms tdi) s = .next s)

/-! ### Firmware and the log -/

/-- R544 to R547: LOAD reads the image from the window and is checked, erases, programs and reads back the inactive bank, to STAGED or FAILED with its RESULT; ACTIVATE
puts the bank on trial and restarts the Postmaster; COMMIT, or 60 s of trial, makes it the active one and raises the rollback counter. An operation that the state
does not allow sets RESULT 7. Watchdog, SRAM errors and firmware faults restart the Postmaster. -/
def Obligations.FirmwareOperations : Prop :=
  ∀ (s : State) (st : Nat), fwRuns s = true → getF s fPM_FW_STATUS_STATE = st →
    (∀ o n, getF s fPM_FW_SRC_OFFSET = o → getF s fPM_FW_SIZE_SIZE = n → (st = 0 ∨ st = 4 ∨ st = 6) →
      (o % 4096 = 0 → 610 ≤ n → n ≤ 25165824 → o + n ≤ 2 ^ 36 → RangeClean s (stageBase s + o) n → Answers .pmFwLoad s fun u =>
        getF u fPM_FW_STATUS_STATE = 1 ∧ getF u fPM_FW_STATUS_RESULT = 0 ∧ u.pm = { s.pm with job := some ⟨memBytes s (stageBase s + o) n, false⟩ } ∧
        OnlyFields s { u with pm := s.pm } [fPM_FW_STATUS_STATE, fPM_FW_STATUS_RESULT]) ∧
      ((o % 4096 ≠ 0 ∨ n < 610 ∨ 25165824 < n ∨ 2 ^ 36 < o + n) → Answers .pmFwLoad s fun u => FwRejected s u 1)) ∧
    (∀ c, (c = Instr.pmFwLoad ∧ st ≠ 0 ∧ st ≠ 4 ∧ st ≠ 6 ∨ (∃ pc, c = .activate pc) ∧ st ≠ 4 ∨ c = .fwCommit ∧ st ≠ 5) → Answers c s fun u =>
      getF u fPM_FW_STATUS_RESULT = 7 ∧ OnlyFields s u [fPM_FW_STATUS_RESULT]) ∧
    (∀ j n, s.pm.job = some j → inactiveBank s = n →
      (st = 1 →
        (j.poison = false → j.image.length = 609 + fwSize j.image → fwCheck s j.image = 0 → Answers .fwVerifyDone s fun u =>
          getF u fPM_FW_STATUS_STATE = 2 ∧ OnlyFields s u [fPM_FW_STATUS_STATE]) ∧
        (j.poison = true → Answers .fwVerifyDone s fun u => FwRejected s u 3) ∧
        (j.poison = false → j.image.length ≠ 609 + fwSize j.image → Answers .fwVerifyDone s fun u => FwRejected s u 1) ∧
        (j.poison = false → j.image.length = 609 + fwSize j.image → fwCheck s j.image ≠ 0 → Answers .fwVerifyDone s fun u => FwRejected s u (fwCheck s j.image))) ∧
      (st = 2 →
        (Answers (.fwEraseDone true) s fun u => fwBankOf u n = .bytes [] ∧ fwBankOf u (1 - n) = fwBankOf s (1 - n) ∧ getF u (fPM_FW_BANK_VALID n) = 0 ∧
          getF u fPM_FW_STATUS_STATE = 3 ∧ u.pm.job = some j ∧ (∀ j, u.tile j = s.tile j) ∧ u.mem = s.mem) ∧
        (Answers (.fwEraseDone false) s fun u => fwBankOf u n = .bytes [] ∧ FwRejected s u 6)) ∧
      (st = 3 →
        (Answers (.fwProgramDone true) s fun u => fwBankOf u n = .bytes j.image ∧ fwBankOf u (1 - n) = fwBankOf s (1 - n) ∧ u = { s with pm := u.pm }) ∧
        (Answers (.fwProgramDone false) s fun u => FwRejected s u 6) ∧
        (fwBankOf s n = .bytes j.image →
          (Answers (.fwReadbackDone true) s fun u => getF u fPM_FW_STATUS_STATE = 4 ∧ getF u fPM_FW_STATUS_RESULT = 0 ∧ u.pm.job = none ∧
            bit (getF u (fINT_CAUSE_LEAF 11)) 3 = true ∧ Logged s u 0x101 n (fwVersion j.image) (fwSvn j.image) ∧ (∀ j, u.tile j = s.tile j) ∧ u.mem = s.mem) ∧
          (Answers (.fwReadbackDone false) s fun u => fwBankOf u n = .bytes [] ∧ FwRejected s u 6)))) ∧
    (∀ pc : BitVec 32,
      (st = 4 → (selector s).valid = true → (selector s).seq + 1 = 2 ^ 32 → Answers (.activate pc) s fun u => Restarted s u 1 pc.toNat ∧ selector u = selector s) ∧
      (st = 4 → SelRoom s → Answers (.activate pc) s fun u => Restarted s u 1 pc.toNat ∧ (selector u).trial = some (inactiveBank s) ∧ (selector u).trials = 0 ∧
        (selector u).active = (selector s).active) ∧
      (s.pm.fwFrom + 1000000000 ≤ s.now → Answers (.watchdog pc) s fun u => Restarted s u 0 pc.toNat ∧ selector u = selector s) ∧
      (s.now < s.pm.fwFrom + 1000000000 → exec (.watchdog pc) s = .next s) ∧
      (∀ sram, Answers (.postmasterRestart sram pc) s fun u => Restarted s u (if sram then 2 else 3) pc.toNat ∧ selector u = selector s)) ∧
    (∀ c n, (c = Instr.fwCommit ∨ c = .trialAutoCommit ∧ s.pm.fwFrom + 60000000000 ≤ s.now) → st = 5 → SelRoom s → getF s fPM_STATUS_BANK = n → Answers c s fun u =>
      (selector u).active = n ∧ (selector u).trial = none ∧ u.pm.rollback = max s.pm.rollback (bankSvn s n) ∧ getF u fPM_FW_STATUS_STATE = 0 ∧
      getF u fPM_FW_STATUS_RESULT = 0 ∧ getF u fPM_STATUS_TRIAL = 0 ∧ Logged s u 0x102 n (bankVersion s n) (max s.pm.rollback (bankSvn s n)) ∧
      (∀ j, u.tile j = s.tile j) ∧ u.mem = s.mem) ∧
    (s.now < s.pm.fwFrom + 60000000000 → exec .trialAutoCommit s = .next s)

/-- R545, R547, R536: the boot ROM boots the trial bank at most three times, then the active one, and the other bank where the one it chose does not verify; with none it halts. After a
restart firmware resumes and logs it. R540 to R543, R552: firmware turns the oldest event into a record with the next SEQ, drops and counts it where the buffer is full, and writes
one LOG_OVERFLOW after a loss; it appends records to the log area in order; a selected record is served after 20 µs. -/
def Obligations.BootAndLog : Prop :=
  ∀ (s : State) (p : Pm) (c : SelCopy), s.pm = p → selector s = c →
    (∀ n, p.pins.aon = true → p.pins.rst = false → p.pins.scan = false → p.chosen = none → p.rom ≠ .idle → c.active < 2 → (∀ t, c.trial = some t → t < 2) →
      (c.trial = none ∧ n = c.active ∨ SelRoom s ∧ c.trial = some n ∧ c.trials < 3 ∨ SelRoom s ∧ (∃ t, c.trial = some t) ∧ 3 ≤ c.trials ∧ n = c.active) →
      (∀ m, (bankGood s n = true ∧ m = n ∨ bankGood s n = false ∧ bankGood s (1 - n) = true ∧ m = 1 - n) → Answers .bootBankSelect s fun u =>
        (p.rom = .cold → fwRuns u = true ∧ getF u fPM_STATUS_BANK = m ∧ stage u = 1 ∧ u.pm.rom = .idle ∧ u.pm.fwFrom = s.now ∧
          getF u fPM_FW_VERSION_VERSION = bankVersion s m % 2 ^ 32 ∧
          (∀ t, c.trial = some t → 3 ≤ c.trials → Logged s u 0x103 m (bankVersion s t) 3 ∧ getF u fPM_ERR_FW_ROLLBACK = 1)) ∧
        (p.rom ≠ .cold → u.pm.chosen = some m ∧ u.pm.rom = p.rom ∧ stage u = stage s) ∧
        (c.trial = none → selector u = c) ∧ (c.trial ≠ none → c.trials < 3 → (selector u).trial = c.trial ∧ (selector u).trials = c.trials + 1) ∧
        (c.trial ≠ none → 3 ≤ c.trials → (selector u).trial = none) ∧ (selector u).active = c.active ∧ (∀ j, u.tile j = s.tile j) ∧ u.mem = s.mem) ∧
      (bankGood s n = false → bankGood s (1 - n) = false → Answers .bootBankSelect s fun u => stage u = 8 ∧ u.pm.rom = .idle ∧ (stage s ≠ 8 → u.pm.boot.held = stage s) ∧ (stage s = 8 → u.pm.boot.held = p.boot.held) ∧
        fwRuns u = fwRuns s ∧ (∀ j, u.tile j = s.tile j) ∧ u.mem = s.mem)) ∧
    ((p.rom = .idle ∨ p.chosen ≠ none) → exec .bootBankSelect s = .next s) ∧
    (∀ cause pc n, p.rom = .restart cause pc → p.chosen = some n → p.rolled = none → n < 2 → Answers .firmwareResume s fun u => fwRuns u = true ∧
      getF u fPM_STATUS_BANK = n ∧ u.pm.rom = .idle ∧ u.pm.chosen = none ∧ u.pm.fwFrom = s.now ∧ (p.dropN = 0 → p.lostN = 0 → Logged s u 0x105 cause pc 0) ∧
      (stage s ≠ 8 → stage u = stage s) ∧ (stage s = 8 → p.boot.tripped = false → stage u = max 1 p.boot.held % 16) ∧ (stage s = 8 → p.boot.tripped = true → stage u = 8) ∧ (∀ j, u.tile j = s.tile j) ∧ u.mem = s.mem) ∧
    (∀ e r, fwRuns s = true → p.evq = e :: r → p.dropN = 0 → p.lostN = 0 →
      ((unsaved s).length < 16384 → Answers .logRecordWrite s fun u => u.pm.evq = r ∧ u.pm.buf = (p.buf ++ [(⟨p.nextSeq, e⟩ : LogRec)]).drop (p.buf.length + 1 - 16384) ∧
        u.pm.nextSeq = (p.nextSeq + 1) % 2 ^ 32 ∧ u = { s with pm := u.pm }) ∧
      (16384 ≤ (unsaved s).length → Answers .logRecordWrite s fun u => u.pm.evq = r ∧ u.pm.buf = p.buf ∧ u.pm.nextSeq = p.nextSeq ∧ u.pm.dropN = 1 ∧
        getF u fPM_LOG_STATUS_DROPPED = min 65535 (getF s fPM_LOG_STATUS_DROPPED + 1) ∧ OnlyFields s { u with pm := p } [fPM_LOG_STATUS_DROPPED])) ∧
    (fwRuns s = true → p.evq = [] → (p.dropN ≠ 0 ∨ p.lostN ≠ 0) → (unsaved s).length < 16384 → Answers .logRecordWrite s fun u =>
      Logged s u 0x106 0 p.dropN p.lostN ∧ u.pm.dropN = 0 ∧ u.pm.lostN = 0 ∧ getF u fPM_ERR_LOG_OVERFLOW = 1) ∧
    (fwRuns s = false → exec .logRecordWrite s = .next s ∧ ∀ n, exec (.logPersist n) s = .next s) ∧
    (∀ n l, fwRuns s = true → getF s fPM_FW_STATUS_STATE ≠ 2 → getF s fPM_FW_STATUS_STATE ≠ 3 → 0 < n → (unsaved s).take n = l → l.length = n →
      (p.persists.filter fun x => decide (s.now < x.1 + 60000000000)).foldl (fun a x => a + x.2) n ≤ 6000 → p.nor.log.length + n ≤ 391168 →
      Answers (.logPersist n) s fun u => u.pm.nor.log = p.nor.log ++ l ∧ u.pm.nor.appended = p.nor.appended + n ∧
        (∀ r, l.getLast? = some r → u.pm.saved = r.seq + 1) ∧ u.pm.evq = p.evq ∧ (∀ j, u.tile j = s.tile j) ∧ u.mem = s.mem) ∧
    (∀ seq : BitVec 32, Answers (.pmLogSel seq) s fun u => getF u fPM_LOG_SEL_SEQ = seq.toNat ∧ u.pm = { p with selAt := some s.now } ∧
      OnlyFields s { u with pm := p } [fPM_LOG_SEL_SEQ]) ∧
    (∀ t, p.selAt = some t →
      (s.now < t + 20000 → exec .logSelDataReady s = .next s) ∧
      (∀ r, t + 20000 ≤ s.now → findRecord s (getF s fPM_LOG_SEL_SEQ) = some r → Answers .logSelDataReady s fun u =>
        (∀ i, i < 4 → getF u (fPM_LOG_DATA_DATA i) = leAt r.bytes (8 * i) 8) ∧ u.pm = { p with selAt := none } ∧
        OnlyFields s { u with pm := p } ((List.range 4).map fPM_LOG_DATA_DATA)) ∧
      (t + 20000 ≤ s.now → findRecord s (getF s fPM_LOG_SEL_SEQ) = none → Answers .logSelDataReady s fun u =>
        (∀ i, i < 4 → getF u (fPM_LOG_DATA_DATA i) = 0) ∧ getF u fPM_LOG_STATUS_SEL_MISS = 1 ∧
        OnlyFields s { u with pm := p } (fPM_LOG_STATUS_SEL_MISS :: (List.range 4).map fPM_LOG_DATA_DATA))) ∧
    (∀ r : LogRec, r.bytes.length = 32 ∧ leAt r.bytes 0 8 = r.ev.time % 2 ^ 64 ∧ leAt r.bytes 8 4 = r.seq % 2 ^ 32 ∧ leAt r.bytes 0xC 2 = r.ev.status % 2 ^ 16 ∧
      leAt r.bytes 0xE 1 = r.ev.sev % 4 + 4 * r.ev.synced.toNat + 8 * r.ev.hw.toNat ∧ leAt r.bytes 0xF 1 = r.ev.source % 256 ∧ leAt r.bytes 0x10 8 = r.ev.arg0 % 2 ^ 64 ∧
      leAt r.bytes 0x18 2 = r.ev.inst % 2 ^ 16 ∧ leAt r.bytes 0x1A 4 = r.ev.arg1 % 2 ^ 32 ∧ leAt r.bytes 0x1E 2 = crc16 (r.bytes.take 30)) ∧
    (fwRuns s = true → p.splitDue = true → (∀ c, p.nor.settings = some c → c.seq + 1 < 2 ^ 32) → Answers .settingsWrite s fun u => settingsSplit u = getF s fHST_LOAD_STATUS_SPLIT ∧ u.pm.splitDue = false ∧
      u = { s with pm := u.pm }) ∧
    (p.splitDue = false → exec .settingsWrite s = .next s)

/-! ### Observation -/

/-- R575 to R582: a snapshot copies every enabled selector and completes after 1 µs; a trace session starts over a good ring, and stops; the sampler stages one record per selector; the trace
unit writes the oldest staged record, or a LOST record first after drops, into the ring, and drops it where the ring is full; a selected record is served. -/
def Obligations.TraceAndSnapshot : Prop :=
  ∀ (s : State) (o : Obs), s.obs = o →
    (bitF s fOBS_STATUS_SNAP_BUSY = false → Answers .snap s fun u =>
      (∀ n, n < 16 → getF u (fOBS_SNAP_VALUE n) = (if bitF s (fOBS_SEL_EN n) = true then (selValue s n).getD 0 else 0) % 2 ^ 64) ∧
      getF u fOBS_SNAP_TIME_TIME = s.now % 2 ^ 64 ∧ getF u fOBS_STATUS_SNAP_BUSY = 1 ∧ ((∃ n ∈ selectors s, selValue s n = none) → getF u fOBS_STATUS_SEL_BAD = 1) ∧
      u.obs = { o with snapAt := some s.now } ∧
      OnlyFields s { u with obs := o } ([fOBS_STATUS_SEL_BAD, fOBS_SNAP_TIME_TIME, fOBS_STATUS_SNAP_BUSY] ++ (List.range 16).map fOBS_SNAP_VALUE)) ∧
    (bitF s fOBS_STATUS_SNAP_BUSY = true → exec .snap s = .next s) ∧
    (∀ t, o.snapAt = some t → (s.now < t + 1000 → exec .snapDone s = .next s) ∧
      (t + 1000 ≤ s.now → Answers .snapDone s fun u => getF u fOBS_STATUS_SNAP_BUSY = 0 ∧ u.obs = { o with snapAt := none } ∧
        OnlyFields s { u with obs := o } [fOBS_STATUS_SNAP_BUSY])) ∧
    (∀ a n, bitF s fOBS_TRACE_CTL_TRACE_EN = false → getF s fOBS_TRACE_BASE_ADDR = a → getF s fOBS_TRACE_SIZE_PAGES = n →
      (a % 4096 = 0 → 0 < n → n ≤ 1048576 → mappedRange a (4096 * n) = true → Answers .traceStart s fun u => getF u fOBS_TRACE_CTL_TRACE_EN = 1 ∧
        getF u fOBS_STATUS_ACTIVE = 1 ∧ getF u fOBS_TRACE_LOST_COUNT = 0 ∧ u.obs = { o with active := true, stage := [], dropped := 0, nextSeq := 0 } ∧
        OnlyFields s { u with obs := o } [fOBS_TRACE_CTL_TRACE_EN, fOBS_STATUS_ACTIVE, fOBS_TRACE_LOST_COUNT, fOBS_TRACE_HEAD_SEQ]) ∧
      ((a % 4096 ≠ 0 ∨ n = 0 ∨ 1048576 < n ∨ mappedRange a (4096 * n) = false) → Answers .traceStart s fun u => getF u fOBS_STATUS_RING_BAD = 1 ∧
        OnlyFields s u [fOBS_STATUS_RING_BAD]) ∧
      exec .traceStop s = .next s ∧
      (o.stage = [] → Answers .traceDrainDone s fun u => getF u fOBS_STATUS_ACTIVE = 0 ∧ OnlyFields s u [fOBS_STATUS_ACTIVE])) ∧
    (o.stage ≠ [] → exec .traceDrainDone s = .next s) ∧
    (bitF s fOBS_TRACE_CTL_TRACE_EN = true → exec .traceStart s = .next s ∧ Answers .traceStop s fun u => getF u fOBS_TRACE_CTL_TRACE_EN = 0 ∧
      u.obs = { o with active := false } ∧ OnlyFields s { u with obs := o } [fOBS_TRACE_CTL_TRACE_EN]) ∧
    (s.pwr.teleAt = some s.now → since s o.firedAt (1000 * getF s fOBS_SAMPLE_CTL_PERIOD_US) = true → o.stage.length + (selectors s).length ≤ 8192 →
      Answers .samplerFire s fun u => u.obs.firedAt = some s.now ∧
        u.obs.stage = o.stage ++ (if o.active = true ∧ bit (getF s fOBS_CTL_TYPES) 7 = true then
          (selectors s).map fun n => (⟨s.now, 7, synced s, n, (selValue s n).getD 0, getF s (fOBS_SEL_OFFSET n)⟩ : TraceRec) else []) ∧
        OnlyFields s { u with obs := o } [fOBS_STATUS_SEL_BAD]) ∧
    (s.pwr.teleAt ≠ some s.now → exec .samplerFire s = .next s) ∧
    (∀ r rest q a, o.stage = r :: rest → since s o.wroteAt 500 = true → o.nextSeq = q → ringAt s q = a → LinesFine s a 32 →
      (ringFull s = false → o.dropped = 0 → Answers .traceRecordWrite s fun u =>
        (∀ k, memByte u k = if a ≤ k ∧ k < a + 32 then (r.bytes q).getD (k - a) 0 else memByte s k) ∧ getF u fOBS_TRACE_HEAD_SEQ = q % 2 ^ 32 ∧
        u.obs = { o with stage := rest, nextSeq := q + 1, wroteAt := some s.now }) ∧
      (ringFull s = false → o.dropped ≠ 0 → bit (getF s fOBS_CTL_TYPES) 8 = true → Answers .traceRecordWrite s fun u =>
        (∀ k, memByte u k = if a ≤ k ∧ k < a + 32 then ((⟨s.now, 8, synced s, 0, o.dropped, 0⟩ : TraceRec).bytes q).getD (k - a) 0 else memByte s k) ∧
        getF u fOBS_TRACE_HEAD_SEQ = q % 2 ^ 32 ∧ u.obs = { o with dropped := 0, nextSeq := q + 1, wroteAt := some s.now }) ∧
      (ringFull s = true → Answers .traceRecordWrite s fun u => u.obs = { o with stage := rest, dropped := o.dropped + 1, wroteAt := some s.now } ∧
        Counts s u fOBS_TRACE_LOST_COUNT 1 ∧ OnlyFields s { u with obs := o } [fOBS_TRACE_LOST_COUNT])) ∧
    ((o.stage = [] ∨ since s o.wroteAt 500 = false) → exec .traceRecordWrite s = .next s) ∧
    (∀ (r : TraceRec) q, (r.bytes q).length = 32 ∧ leAt (r.bytes q) 0 8 = r.time % 2 ^ 64 ∧ leAt (r.bytes q) 8 4 = q % 2 ^ 32 ∧ leAt (r.bytes q) 0xC 1 = r.typ % 256 ∧
      leAt (r.bytes q) 0xD 1 = r.synced.toNat ∧ leAt (r.bytes q) 0xE 2 = r.inst % 2 ^ 16 ∧ leAt (r.bytes q) 0x10 8 = r.arg0 % 2 ^ 64 ∧
      leAt (r.bytes q) 0x18 8 = r.arg1 % 2 ^ 64) ∧
    (∀ seq : BitVec 32, Answers (.obsTraceSel seq) s fun u => getF u fOBS_TRACE_SEL_SEQ = seq.toNat ∧ u.obs = { o with selAt := some s.now } ∧
      OnlyFields s { u with obs := o } [fOBS_TRACE_SEL_SEQ]) ∧
    (∀ seq : BitVec 32, (getF s fOBS_TRACE_HEAD_SEQ + 1 < seq.toNat → exec (.obsTraceRead seq) s = .next s) ∧
      (seq.toNat ≤ getF s fOBS_TRACE_HEAD_SEQ + 1 → Answers (.obsTraceRead seq) s fun u => getF u fOBS_TRACE_READ_SEQ = seq.toNat ∧ OnlyFields s u [fOBS_TRACE_READ_SEQ])) ∧
    (∀ q, ringAt s q = getF s fOBS_TRACE_BASE_ADDR + 32 * (q % 2 ^ 32 % (getF s fOBS_TRACE_SIZE_PAGES * 128))) ∧
    (∀ q, o.nextSeq ≤ 2 ^ 32 → q < 2 ^ 32 → (ringHolds s q = true ↔ q < o.nextSeq ∧ o.nextSeq ≤ q + getF s fOBS_TRACE_SIZE_PAGES * 128)) ∧
    (∀ t q a, o.selAt = some t → getF s fOBS_TRACE_SEL_SEQ = q → ringAt s q = a →
      (s.now < t + 20000 → exec .traceSelDataReady s = .next s) ∧
      (t + 20000 ≤ s.now → ringHolds s q = true → RangeClean s a 32 → Answers .traceSelDataReady s fun u =>
        (∀ i, i < 4 → getF u (fOBS_TRACE_DATA_DATA i) = leAt (memBytes s (a + 8 * i) 8) 0 8) ∧ u.obs = { o with selAt := none } ∧
        OnlyFields s { u with obs := o } ((List.range 4).map fOBS_TRACE_DATA_DATA)) ∧
      (t + 20000 ≤ s.now → ringHolds s q = false → Answers .traceSelDataReady s fun u =>
        (∀ i, i < 4 → getF u (fOBS_TRACE_DATA_DATA i) = 0) ∧ getF u fOBS_STATUS_SEL_MISS = 1 ∧ u.obs = { o with selAt := none } ∧
        OnlyFields s { u with obs := o } (fOBS_STATUS_SEL_MISS :: (List.range 4).map fOBS_TRACE_DATA_DATA)))


/-! ### The host and the management endpoint -/

/-- R557, R558, R538: the staging window maps to LPDDR at HST_STAGE.QUAD; a write stores its bytes there and a read is completed unit by unit, with EP = 1 and a report by AER where the controller finds an
error. Before LPDDR is ready a write is discarded and a read completes with zeros, with a leaf for each. HST_STAGE takes a new QUAD or sets REJ. R561: a ring hands the slot's request
to its unit, and the completion stores the reply. R565: unmasking sends a message that is pending while the condition holds. -/
def Obligations.HostInterface : Prop :=
  ∀ (s : State) (base : Nat), 0x10000000000 + 0x1000000000 * getF s fHST_STAGE_QUAD = base →
    (∀ (off : BitVec 36) (data l : List Byte), data.take (0x1000000000 - off.toNat) = l →
      (s.host.link = false → exec (.hostStagingWrite off data) s = .next s) ∧
      (s.host.link = true → s.mem.lpddrReady = false → Answers (.hostStagingWrite off data) s fun u =>
        bit (getF u (fINT_CAUSE_LEAF 11)) 4 = true ∧ u.mem = s.mem ∧ ∀ j, u.tile j = s.tile j) ∧
      (s.host.link = true → s.mem.lpddrReady = true → RangeClean s (base + off.toNat) l.length → Answers (.hostStagingWrite off data) s fun u =>
        MemStored s u (base + off.toNat) l)) ∧
    (∀ (off : BitVec 36) (n : Fin 4097) (k : Nat), min n.val (0x1000000000 - off.toNat) = k →
      (s.host.link = false → exec (.hostStagingRead off n) s = .next s) ∧
      (s.host.link = true → s.mem.lpddrReady = false → Answers (.hostStagingRead off n) s fun u =>
        Out.completion (List.replicate k 0) false ∈ u.wire ∧ bit (getF u (fINT_CAUSE_LEAF 11)) 4 = true ∧ u.mem = s.mem) ∧
      (s.host.link = true → s.mem.lpddrReady = true → RangeClean s (base + off.toNat) k → Answers (.hostStagingRead off n) s fun u =>
        u = { s with wire := ((pieces64 (k / 64 + 2) (base + off.toNat) k).map fun p => Out.completion (memBytes s p.1 p.2) false).reverse ++ s.wire }) ∧
      (s.host.link = true → s.mem.lpddrReady = true → 0 < k → (base + off.toNat) % 64 + k ≤ 64 → (memRead s (base + off.toNat) k).bad.isSome = true →
        Answers (.hostStagingRead off n) s fun u => (∃ d, d.length = k ∧ Out.completion d true ∈ u.wire) ∧ Out.aer ∈ u.wire ∧ bit (getF u (fINT_CAUSE_LEAF 11)) 5 = true)) ∧
    (∀ (v : BitVec 32) q, bits v.toNat 3 0 = q →
      (baseUp s = false → exec (.hstStageWrite v) s = .next s) ∧
      (baseUp s = true → v.getLsbD 31 = false →
        (q = getF s fHST_STAGE_QUAD → exec (.hstStageWrite v) s = .next s) ∧
        (q ≠ getF s fHST_STAGE_QUAD → (getF s fHST_LOAD_STATUS_STATE = 1 ∨ getF s fPM_FW_STATUS_STATE = 1 ∨
            rxMeets s (0x10000000000 + 0x1000000000 * q) 0x1000000000 = true) → Answers (.hstStageWrite v) s fun u =>
          getF u fHST_STAGE_REJ = 1 ∧ OnlyFields s u [fHST_STAGE_REJ]) ∧
        (q ≠ getF s fHST_STAGE_QUAD → getF s fHST_LOAD_STATUS_STATE ≠ 1 → getF s fPM_FW_STATUS_STATE ≠ 1 →
            rxMeets s (0x10000000000 + 0x1000000000 * q) 0x1000000000 = false → Answers (.hstStageWrite v) s fun u =>
          getF u fHST_STAGE_QUAD = q ∧ OnlyFields s u [fHST_STAGE_QUAD])) ∧
      (baseUp s = true → v.getLsbD 31 = true → q = getF s fHST_STAGE_QUAD → Answers (.hstStageWrite v) s fun u =>
        getF u fHST_STAGE_REJ = 0 ∧ OnlyFields s u [fHST_STAGE_REJ])) ∧
    (∀ (n : Fin 512) (r : Request), r = ⟨.doorbell n.val, toBytes 32 (slotReq s n.val), s.now⟩ →
      (baseUp s = false → exec (.dbSlotRing n) s = .next s) ∧
      (baseUp s = true → bitF s (fDB_SLOT_STATUS_BUSY n.val) = true → Answers (.dbSlotRing n) s fun u =>
        bit (getF u (fINT_CAUSE_LEAF 11)) 2 = true ∧ bitF u (fDB_SLOT_STATUS_BUSY n.val) = true ∧ u.host.slotReply = s.host.slotReply ∧ u.tier = s.tier ∧ u.upd = s.upd) ∧
      (baseUp s = true → bitF s (fDB_SLOT_STATUS_BUSY n.val) = false →
        ((n.val < 256 ∧ bitF s fTIER_STATUS_LOADING = false ∧ 0 < r.op ∧ r.op ≤ 10) ∨ (256 ≤ n.val ∧ 0 < r.op ∧ r.op ≤ 5) → Answers (.dbSlotRing n) s fun u =>
          bitF u (fDB_SLOT_STATUS_BUSY n.val) = true ∧ getF u (fDB_SLOT_STATUS_DONE n.val) = 0 ∧ slotReply u n.val = 0 ∧
          (∀ m, m ≠ n.val → slotReply u m = slotReply s m) ∧
          (n.val < 256 → u.tier = { s.tier with reqs := s.tier.reqs ++ [r] } ∧ u.upd = s.upd) ∧
          (256 ≤ n.val → u.upd = { s.upd with reqs := s.upd.reqs ++ [r] } ∧ u.tier = s.tier) ∧
          OnlyFields s { u with host := s.host, tier := s.tier, upd := s.upd } [fDB_SLOT_STATUS_BUSY n.val, fDB_SLOT_STATUS_DONE n.val]))) ∧
    (∀ (n : Fin 512) l1 b l2, s.host.slotDone = l1 ++ (n.val, b) :: l2 → (∀ x ∈ l1, x.1 ≠ n.val) → Answers (.dbSlotDone n) s fun u =>
      u.host.slotDone = l1 ++ l2 ∧ slotReply u n.val = ofBytes b ∧ (∀ m, m ≠ n.val → slotReply u m = slotReply s m) ∧
      bitF u (fDB_SLOT_STATUS_BUSY n.val) = false ∧ bitF u (fDB_SLOT_STATUS_DONE n.val) = true ∧ bit (getF u (fINT_CAUSE_LEAF 11)) 1 = true) ∧
    (∀ n : Fin 512, (∀ x ∈ s.host.slotDone, x.1 ≠ n.val) → exec (.dbSlotDone n) s = .next s) ∧
    (baseUp s = true → exec .msixUnmask s = .next { s with
      host := { s.host with msixMask := false, msixPend := false }
      wire := if s.host.msixMask && s.host.msixPend && intCond s then .msix s.host.msixAddr s.host.msixData :: s.wire else s.wire }) ∧
    (baseUp s = false → exec .msixUnmask s = .next s)

/-- R568 to R571: what the management endpoint answers. Control messages; GET_SUMMARY in every state; the commands that need firmware: a register access is that of the host at the
same offset, READ_LOG gives the records that are held, and a bad operand gives BAD_REQUEST; FW_WRITE and FW_LOAD act on the staging window or, in HALTED, on bank 0. The contents of the
control messages follow log entry 31. -/
def Obligations.ManagementEndpoint : Prop :=
  ∀ (s : State) (via : Via), viaUp s via.val = true →
    (fwRuns s = true ∨ halted s = true → ∀ c, Answers (.mctpControl via c) s fun u => ∃ cmd code b e,
      u.wire = .mctp (viaAddress s via.val) via.val 0 cmd code b :: s.wire ∧ u.pm = { s.pm with eid := e } ∧ u = { s with wire := u.wire, pm := u.pm, free := u.free } ∧
      (c = .getEid → cmd = 2 ∧ code = 0 ∧ b = [BitVec.ofNat 8 s.pm.eid, 0, 0]) ∧ (c = .getTypes → cmd = 5 ∧ code = 0 ∧ b = [2, 5, 0x7F]) ∧
      (∀ op v, c = .setEid op v → cmd = 1 ∧ (op.val < 2 → v ≠ 0 → v ≠ 0xFF → code = 0 ∧ b = [0, v, 0] ∧ e = v.toNat) ∧
        (op.val < 2 → v = 0 ∨ v = 0xFF → code = 2 ∧ b = [])) ∧
      (∀ x, c = .other x → cmd = x.toNat ∧ code = 5 ∧ b = []) ∧
      (∀ t, c = .getVersion t → cmd = 4 ∧ (t = 5 ∨ t = 0x7F → code = 0)) ∧ (∀ n, c = .getVendor n → cmd = 6 ∧ (n = 0 → code = 0) ∧ (n ≠ 0 → code = 2)) ∧
      ((∀ op v, c = .setEid op v → 2 ≤ op.val ∨ v = 0 ∨ v = 0xFF) → e = s.pm.eid)) ∧
    exec (.getSummary via) s = .next { s with wire := .mctp (viaAddress s via.val) via.val 0x7F 1 0 (toBytes 4 (readReg s 0) ++ toBytes 4 (readReg s 0x100000) ++
      toBytes 4 (readReg s 0x300000) ++ toBytes 4 (readReg s 0x100)) :: s.wire } ∧
    (halted s = false → fwRuns s = true → ∀ (off : BitVec 32) (o : BitVec 27) (v : Word), off.toNat = o.toNat → o.toNat < 0x4000000 →
      (∀ width n, (width = AccessWidth.word ∧ n = 4 ∨ width = AccessWidth.wide ∧ n = 8) → Answers (.rcFieldRead ⟨o, width⟩) s fun w =>
        exec (.readCsr via off (BitVec.ofNat 8 n)) s =
          .next { w with readData := s.readData, wire := .mctp (viaAddress s via.val) via.val 0x7F 2 0 (toBytes n w.readData) :: w.wire }) ∧
      (∀ r, o.toNat % 8 = 0 → plainWord s o.toNat = none → regAt o.toNat = some r → r.width = 64 → exec (.readCsr via off 8) s =
        .next { s with wire := .mctp (viaAddress s via.val) via.val 0x7F 2 0 (toBytes 8 (readReg s o.toNat)) :: s.wire }) ∧
      (∀ width n, (width = AccessWidth.word ∧ n = 4 ∨ width = AccessWidth.wide ∧ n = 8) → Answers (.csrWrite o width v) s fun w =>
        exec (.writeCsr via off (BitVec.ofNat 8 n) v) s = .next { w with wire := .mctp (viaAddress s via.val) via.val 0x7F 3 0 [] :: w.wire })) ∧
    (halted s = false → fwRuns s = true → ∀ (off : BitVec 32) (w : BitVec 8) (v : Word), ¬ ((w = 4 ∨ w = 8) ∧ off.toNat < 0x4000000) →
      exec (.readCsr via off w) s = .next { s with wire := .mctp (viaAddress s via.val) via.val 0x7F 2 1 [] :: s.wire } ∧
      exec (.writeCsr via off w v) s = .next { s with wire := .mctp (viaAddress s via.val) via.val 0x7F 3 1 [] :: s.wire }) ∧
    (halted s = false → fwRuns s = true → ∀ (first : BitVec 32) (n : BitVec 8) l,
      ((List.range n.toNat).filterMap fun i => findRecord s ((first.toNat + i) % 2 ^ 32)) = l →
      (0 < n.toNat → n.toNat ≤ 32 → exec (.readLog via first n) s =
        .next { s with wire := .mctp (viaAddress s via.val) via.val 0x7F 4 0 (BitVec.ofNat 8 l.length :: l.flatMap LogRec.bytes) :: s.wire }) ∧
      (n.toNat = 0 ∨ 32 < n.toNat → exec (.readLog via first n) s = .next { s with wire := .mctp (viaAddress s via.val) via.val 0x7F 4 1 [] :: s.wire })) ∧
    (fwRuns s = false → ∀ off w v n,
      exec (.readCsr via off w) s = .next { s with wire := .mctp (viaAddress s via.val) via.val 0x7F 2 3 [] :: s.wire } ∧
      exec (.writeCsr via off w v) s = .next { s with wire := .mctp (viaAddress s via.val) via.val 0x7F 3 3 [] :: s.wire } ∧
      exec (.readLog via off n) s = .next { s with wire := .mctp (viaAddress s via.val) via.val 0x7F 4 3 [] :: s.wire }) ∧
    (∀ (off : BitVec 32) (data : List Byte) a, 0 < data.length → data.length ≤ 1024 → stageBase s + (getF s fPM_FW_SRC_OFFSET + off.toNat) = a →
      (halted s = false → fwRuns s = true → s.mem.lpddrReady = true → getF s fPM_FW_SRC_OFFSET + off.toNat + data.length ≤ 0x1000000000 → RangeClean s a data.length →
        Answers (.fwWrite via off data) s fun u => u.wire = .mctp (viaAddress s via.val) via.val 0x7F 5 0 [] :: s.wire ∧ MemStored s { u with wire := s.wire } a data) ∧
      (halted s = true → off.toNat + data.length ≤ 25165824 → Answers (.fwWrite via off data) s fun u => u.wire = .mctp (viaAddress s via.val) via.val 0x7F 5 0 [] :: s.wire ∧
        u.pm.recovery = true ∧ u = { s with wire := u.wire, pm := u.pm } ∧ ∃ old b, (s.pm.recovery = true → old = bank0Bytes s) ∧ (s.pm.recovery = false → old = []) ∧
          fwBankOf u 0 = .bytes b ∧ b.length = max old.length (off.toNat + data.length) ∧
          ∀ k, k < b.length → b[k]? = some (if off.toNat ≤ k ∧ k < off.toNat + data.length then data.getD (k - off.toNat) 0 else old.getD k 0xFF))) ∧
    (∀ (off : BitVec 32) (data : List Byte), data.length = 0 ∨ 1024 < data.length →
      exec (.fwWrite via off data) s = .next { s with wire := .mctp (viaAddress s via.val) via.val 0x7F 5 1 [] :: s.wire }) ∧
    (halted s = false → fwRuns s = true → Answers .pmFwLoad s fun w => exec (.fwLoad via) s =
      .next { w with wire := .mctp (viaAddress s via.val) via.val 0x7F 6 (if getF w fPM_FW_STATUS_RESULT = 7 then 2 else 0) [] :: w.wire }) ∧
    (halted s = true → bankGood s 0 = true → SelRoom s → Answers (.fwLoad via) s fun u => Out.mctp (viaAddress s via.val) via.val 0x7F 6 0 [] ∈ u.wire ∧ (selector u).active = 0 ∧ (selector u).trial = none ∧
      ∃ cause pc, Restarted s u cause pc) ∧
    (halted s = true → bankGood s 0 = false → Answers (.fwLoad via) s fun u => halted u = true ∧ u.wire = .mctp (viaAddress s via.val) via.val 0x7F 6 1 [] :: s.wire ∧ u.pm = s.pm ∧
      OnlyFields s { u with wire := s.wire } [fPM_FW_BANK_VALID 0, fPM_FW_BANK_SVN 0, fPM_FW_BANK_VERSION 0]) ∧
    (∀ (addr : BitVec 7) ibi, exec (.dynamicAddress addr ibi) s = .next { s with
      pm := { s.pm with i3c := some addr.toNat }
      host := { s.host with ibi := ibi }
      wire := .i3cId (provisionalId s) :: s.wire }) ∧
    provisionalId s % 64 = s.pm.pins.slot % 64 ∧ macAddress s / 2 ^ 40 = 2 ∧ macAddress s % 2 ^ 40 = getF s fOPT_SERIAL_SERIAL % 2 ^ 40

/-- R548, R549: the responder's exchange goes from the version over the capabilities to the algorithms, and each request at its place is answered and moves it on; any other is an
unexpected request. Slot 0 holds the only chain, and a request for another is invalid. The responses carry their SPDM 1.2 codes (log entry 33), a CHALLENGE and signed measurements a
nonce and a signature that are free values. Without firmware or over a binding that is down there is no answer. -/
def Obligations.SpdmResponder : Prop :=
  ∀ (s : State) (via : SpdmVia),
    (viaUp s via.val = true → fwRuns s = true →
      exec (.getVersion via) s = .next { s with pm := { s.pm with spdm := 1 }, wire := .mctp (viaAddress s via.val) via.val 5 0x04 0 [1, 0x00, 0x12] :: s.wire } ∧
      (s.pm.spdm = 1 → exec (.getCapabilities via) s = .next { s with pm := { s.pm with spdm := 2 }, wire := .mctp (viaAddress s via.val) via.val 5 0x61 0 [0x16, 0, 0, 0] :: s.wire }) ∧
      (∀ asym hash : BitVec 32, s.pm.spdm = 2 →
        (asym.getLsbD 7 = true → hash.getLsbD 1 = true → exec (.negotiateAlgorithms via asym hash) s =
          .next { s with pm := { s.pm with spdm := 3 }, wire := .mctp (viaAddress s via.val) via.val 5 0x63 0 [0x80, 0, 0, 0, 2, 0, 0, 0] :: s.wire }) ∧
        (¬ (asym.getLsbD 7 = true ∧ hash.getLsbD 1 = true) → exec (.negotiateAlgorithms via asym hash) s =
          .next { s with wire := .mctp (viaAddress s via.val) via.val 5 0x7F 1 [] :: s.wire })) ∧
      (s.pm.spdm = 3 → ∀ c, Config.certChain Config.identitySeed (measurement s 2) = c →
        exec (.getDigests via) s = .next { s with wire := .mctp (viaAddress s via.val) via.val 5 0x01 1 (sha384 c) :: s.wire } ∧
        (∀ off len : BitVec 16, off.toNat < c.length → exec (.getCertificate via 0 off len) s = .next { s with
          wire := .mctp (viaAddress s via.val) via.val 5 0x02 0 (toBytes 2 ((c.drop off.toNat).take len.toNat).length ++
            toBytes 2 (c.length - off.toNat - ((c.drop off.toNat).take len.toNat).length) ++ (c.drop off.toNat).take len.toNat) :: s.wire }) ∧
        (∀ (slot : BitVec 8) (off len : BitVec 16), slot ≠ 0 ∨ c.length ≤ off.toNat → exec (.getCertificate via slot off len) s =
          .next { s with wire := .mctp (viaAddress s via.val) via.val 5 0x7F 1 [] :: s.wire }) ∧
        Answers (.challenge via 0) s (fun u => ∃ x, x.length = 128 ∧ u.wire = .mctp (viaAddress s via.val) via.val 5 0x03 0 (sha384 c ++ x) :: s.wire ∧
          u = { s with wire := u.wire, free := u.free }) ∧
        (∀ slot : BitVec 8, slot ≠ 0 → exec (.challenge via slot) s = .next { s with wire := .mctp (viaAddress s via.val) via.val 5 0x7F 1 [] :: s.wire }) ∧
        (∀ (op : BitVec 8) sig l, (op = 0 ∧ l = [] ∨ op = 0xFF ∧ l = [1, 2, 3, 4, 5, 6, 7] ∨ 1 ≤ op.toNat ∧ op.toNat ≤ 7 ∧ l = [op.toNat]) →
          Answers (.getMeasurements via op sig) s fun u => ∃ x, x.length = (if sig = true then 128 else 0) ∧ u.wire =
            .mctp (viaAddress s via.val) via.val 5 0x60 7 ((l.flatMap fun i => BitVec.ofNat 8 i :: measurement s i) ++ x) :: s.wire ∧ u = { s with wire := u.wire, free := u.free }) ∧
        (∀ (op : BitVec 8) sig, 7 < op.toNat → op ≠ 0xFF → exec (.getMeasurements via op sig) s = .next { s with wire := .mctp (viaAddress s via.val) via.val 5 0x7F 1 [] :: s.wire })) ∧
      (∀ c n, (c = Instr.getCapabilities via ∧ n = 1 ∨ (∃ a h, c = .negotiateAlgorithms via a h) ∧ n = 2 ∨ c = .getDigests via ∧ n = 3 ∨
          (∃ x y z, c = .getCertificate via x y z) ∧ n = 3 ∨ (∃ x, c = .challenge via x) ∧ n = 3 ∨ (∃ x y, c = .getMeasurements via x y) ∧ n = 3) →
        s.pm.spdm ≠ n → exec c s = .next { s with wire := .mctp (viaAddress s via.val) via.val 5 0x7F 4 [] :: s.wire })) ∧
    (viaUp s via.val = false ∨ fwRuns s = false → ∀ c, (c = Instr.getVersion via ∨ c = .getCapabilities via ∨ (∃ a h, c = .negotiateAlgorithms via a h) ∨
      c = .getDigests via ∨ (∃ x y z, c = .getCertificate via x y z) ∨ (∃ x, c = .challenge via x) ∨ (∃ x y, c = .getMeasurements via x y)) → exec c s = .next s)

/-! ### Commands that complete -/

/-- Under the conditions written out, each of these commands answers a next state that holds its effect: the write of a high half joins the low half that is
held (R12); VRDACC reads a row or column of a verified tile (R188); a replay goes on from the shadow (R199); the host's staging accesses store and
complete (R557); a cluster leaves OFF through a ramp slot (R508); a wait that is late and the host abort a task (R92, R119); a lost clock and a silent link lose
their die (R497, R498); an agreement closes (R470); trial firmware is committed (R546); a weak source fails (R450); HST_STAGE takes its quad (R557); a doorbell slot is rung and answered (R561); the vector is
unmasked (R565); and others. -/
def Obligations.CommandsThatComplete : Prop :=
  (∀ (s : State) (off hi : BitVec 27) (lo : Nat) (high : BitVec 32) (r : RegDef), off.toNat % 8 = 0 → hi.toNat = off.toNat + 4 →
     plainWord s hi.toNat = none → regAt off.toNat = some r → regAt hi.toNat = none → r.width = 64 → CsrOpen s off.toNat → (halvesOf s off.toNat).low = some lo →
     ∃ u, exec (.csrHighHalfWrite hi high) s = .next u ∧
       u = regWrite (setHalves s off.toNat { halvesOf s off.toNat with low := none }) r off.toNat (lo + high.toNat * 2 ^ 32)) ∧
  (∀ (s s1 : State) (t : Tid) (h : QEntry) (a v : Nat), Starts s t .vector 0x1A 0x00 h s1 → (s.tile t).vec.out = [] → (s.tile t).vec.win = none →
     (s.tile t).vec.r.vmode = 0 → (s.tile t).regBad = [] → a = wIMM6 h.word % 2 → capS h (wSS h.word) = v → v < 256 → (s.tile t).fill.bound ≠ some a → (s.tile t).mat.run = [] →
     a ∉ (s.tile t).mat.recompute → ((s.tile t).acc a).unverified = false →
     ∃ u, exec (.vrdacc t .ok) s = .next u ∧ VecDone s1 u t h ∧ ∀ b, b < 2 → (s.tile t).vec.r.hasActive (wKM h.word) b = true →
       ((u.tile t).vec.r.blk (wVD h.word) b).b = (toBfx (maskVals (vecAct s t h b) ((List.range 32).map fun i => f32v
         (if bit (wIMM6 h.word) 1 then ((s.tile t).acc a).elem (64 * (bit v 7).toNat + 32 * b + i) (v % 128)
           else ((s.tile t).acc a).elem (v % 128) (64 * (bit v 7).toNat + 32 * b + i)).value))).1) ∧
  (∀ (s : State) (t : Tid) (w : Window), isLive s t = true → clkRuns s t = true → (s.tile t).vec.redo = [] → (s.tile t).vec.win = some w → w.failed = true →
     w.replay = [] → (s.tile t).vec.out = [] → (s.tile t).mat.recompute = [] →
     (∀ n ∈ w.accs, ((s.tile t).acc n).unverified = false ∧ accWriting (s.tile t) n = false) →
     ∃ u, exec (.windowReplay ⟨t, .ok⟩) s = .next u ∧ (u.tile t).vec.r = w.shadow ∧ (u.tile t).vec.win = none ∧ (u.tile t).vec.redo = [] ∧
       Counts s u (fTILE_VEC_WINDOWS_REPLAYS t) 1 ∧ u.mem = s.mem) ∧
  (∀ (s : State) (off : BitVec 36) (data : List Byte), s.host.link = true → s.mem.lpddrReady = true →
     ∃ u, exec (.hostStagingWrite off data) s = .next u ∧
       u = memWrite s (0x10000000000 + 0x1000000000 * getF s fHST_STAGE_QUAD + off.toNat) (data.take (0x1000000000 - off.toNat))) ∧
  (∀ (s : State) (off : BitVec 36) (n : Fin 4097) (a k : Nat), s.host.link = true → s.mem.lpddrReady = true →
     0x10000000000 + 0x1000000000 * getF s fHST_STAGE_QUAD + off.toNat = a → min n.val (0x1000000000 - off.toNat) = k → RangeClean s a k →
     ∃ u, exec (.hostStagingRead off n) s = .next u ∧
       u = { s with wire := ((pieces64 (k / 64 + 2) a k).map fun p => Out.completion (memBytes s p.1 p.2) false).reverse ++ s.wire }) ∧
  (∀ (s : State) (c : Cluster), clusterState s c.val = kOFF → dieUp s (c.val / 4) = true → (dieRt s (c.val / 4)).wakes = [] →
     ∃ u, exec (.reqLeaveOff c) s = .next u ∧
       (dieRt u (c.val / 4)).wakes = [(c.val, s.now, max s.now (dieRt s (c.val / 4)).slotFree)]) ∧
  (∀ (s : State) (t : Tid) (f tk n : Nat), isLive s t = true → (s.tile t).coreWait = some (f, tk, n) → tokenLate s t tk n f = true →
     ∃ u, exec (.waitTimeout t 0) s = .next u ∧ TrapTaken s u t 0 0x07 (s.tile t).pc (waitInfo 0 tk)) ∧
  (∀ (s : State) (t : Tid), isLive s t = true → clkRuns s t = true →
     ∃ u, exec (.hostAbort t) s = .next u ∧ TrapTaken s u t 0 0x0F (s.tile t).pc 0) ∧
  (∀ (s : State) (d : Die), dieUp s d.val = true → ∃ u, exec (.clockLost d) s = .next u ∧ dieState u d.val = dLOST ∧ getF u (fPKG_DIE_STATUS_REASON d.val) = 1) ∧
  (∀ (s : State) (d : Die) (link : Fin 42), dieUp s d.val = true → (carries s d.val link.val).isSome = true → (weirSilent s d.val link.val false = true ∨ weirSilent s d.val link.val true = true) →
     ∃ u, exec (.weirLinkFail d link true) s = .next u ∧ dieState u d.val = dLOST ∧ getF u (fPKG_DIE_STATUS_REASON d.val) = 2 ∧ getF u fPKG_ERR_WEIR_FAIL = 1) ∧
  (∀ (s : State) (n : Nat), nextAgree s = n → takesPart s = true → (agreeOf s n).own = true → (agreeOf s n).rowDone = true →
     stageFull s true (agreeOf s n).col = true → s.upd.waits = [] →
     ∃ u, exec .agreementClose s = .next u ∧ agreed u = n % 2 ^ 32 ∧ u.twin.pend = [] ∧ u.twin.held = []) ∧
  (∀ (s : State) (n : Nat), fwRuns s = true → getF s fPM_FW_STATUS_STATE = 5 → SelRoom s → getF s fPM_STATUS_BANK = n →
     ∃ u, exec .fwCommit s = .next u ∧ (selector u).active = n ∧ (selector u).trial = none ∧ getF u fPM_FW_STATUS_STATE = 0) ∧
  (∀ (s : State) (n : Fin 20) (e : Nat), isWorking s n.val = true → (laserSrc s n.val).stage < 2 → engineOf s n.val = some e →
     dbm (getF s (fLAS_SRC_POWER n.val)) ≤ dbm (getF s (fLAS_SRC_P0 n.val)) - 250 →
     ∃ u, exec (.laserFailing n false) s = .next u ∧ (laserSrc u n.val).stage = 2 ∧ (laserSrc u n.val).due = true ∧ getF u fLAS_ERR_LASER_FAILING = 1) ∧
  (∀ (s : State), bitF s fOBS_TRACE_CTL_TRACE_EN = true →
     ∃ u, exec .traceStop s = .next u ∧ getF u fOBS_TRACE_CTL_TRACE_EN = 0 ∧ u.obs = { s.obs with active := false }) ∧
  (∀ (s : State), bitF s fPKG_AON_ON_LOCAL = true → ∃ u, exec .refRestore s = .next u ∧ getF u fPKG_AON_ON_LOCAL = 0) ∧
  (∀ (s : State), bitF s fTWN_STATUS_MAP_OK = true → twState s ≠ 2 → twState s ≠ 3 → ∃ u, exec .restoreRx s = .next u ∧ twState u = 3) ∧
  (∀ (s : State), ∃ u, exec .vinLoss s = .next u ∧ u.tiles = [] ∧ u.csr = [] ∧ u.now = 0 ∧ u.pm.pins.vin = false) ∧
  (∀ (s : State) (l : List Nat), bitF s fPM_STATUS_FW_RUNNING = true → since s s.pm.couplingAt 1000000000 = true →
     ∃ u, exec (.couplingRefine l) s = .next u ∧ couplingModel u = l ∧ u.pm.couplingAt = some s.now) ∧
  (∀ (s : State) (v : BitVec 32) (q : Nat), baseUp s = true → bits v.toNat 3 0 = q → getF s fHST_LOAD_STATUS_STATE ≠ 1 → getF s fPM_FW_STATUS_STATE ≠ 1 →
     rxMeets s (0x10000000000 + 0x1000000000 * q) 0x1000000000 = false →
     ∃ u, exec (.hstStageWrite v) s = .next u ∧ getF u fHST_STAGE_QUAD = q ∧ (v.getLsbD 31 = true → getF u fHST_STAGE_REJ = 0) ∧
       OnlyFields s u [fHST_STAGE_QUAD, fHST_STAGE_REJ]) ∧
  (∀ (s : State) (n : Fin 512) (r : Request), baseUp s = true → bitF s (fDB_SLOT_STATUS_BUSY n.val) = false →
     r = ⟨.doorbell n.val, toBytes 32 (slotReq s n.val), s.now⟩ → 0 < r.op →
     (n.val < 256 → bitF s fTIER_STATUS_LOADING = false → r.op ≤ 10 →
       ∃ u, exec (.dbSlotRing n) s = .next u ∧ bitF u (fDB_SLOT_STATUS_BUSY n.val) = true ∧ u.tier.reqs = s.tier.reqs ++ [r]) ∧
     (256 ≤ n.val → r.op ≤ 5 →
       ∃ u, exec (.dbSlotRing n) s = .next u ∧ bitF u (fDB_SLOT_STATUS_BUSY n.val) = true ∧ u.upd.reqs = s.upd.reqs ++ [r])) ∧
  (∀ (s : State) (n : Fin 512) (l1 l2 : List (Nat × List Byte)) (b : List Byte), s.host.slotDone = l1 ++ (n.val, b) :: l2 → (∀ x ∈ l1, x.1 ≠ n.val) →
     ∃ u, exec (.dbSlotDone n) s = .next u ∧ bitF u (fDB_SLOT_STATUS_BUSY n.val) = false ∧ bitF u (fDB_SLOT_STATUS_DONE n.val) = true ∧
       slotReply u n.val = ofBytes b ∧ u.host.slotDone = l1 ++ l2) ∧
  (∀ (s : State), baseUp s = true → ∃ u, exec .msixUnmask s = .next u ∧ u.host.msixMask = false ∧ u.host.msixPend = false ∧ u.csr = s.csr ∧
     (s.host.msixMask = true → s.host.msixPend = true → intCond s = true → u.wire = .msix s.host.msixAddr s.host.msixData :: s.wire))

/-! ### Device memory keeps its form -/

/-- No command breaks the canonical form of device memory: its cells stand at rising addresses, and none holds what an unlisted address reads as. -/
def Obligations.StepKeepsMemoryForm : Prop :=
  ∀ (s u : State), Memory.wf s.mem = true → step s = .next u → Memory.wf u.mem = true

/-- Device memory has its canonical form at reset. -/
def Obligations.ResetMemoryForm : Prop := Memory.wf State.reset.mem = true
end

