-- ==== Sys2Proof/Laws/Map.lean ====
section
/-!
SUPPORT. The laws of the sparse tables: a read after a write, writes that leave other keys alone, and the canonical form,
which every table operation keeps.
-/
namespace Sys2Proof.Machine

theorem mget_mins_same {V : Type} (d : Nat → V) (m : SMap V) (k : Nat) (v : V) : mget d (mins m k v) k = v := by
  induction m with
  | nil => simp [mins, mget]
  | cons p r ih =>
    obtain ⟨j, w⟩ := p
    by_cases h1 : j < k
    · have : j ≠ k := by omega
      simp [mins, h1, mget, this, ih]
    · by_cases h2 : j = k <;> simp [mins, h1, h2, mget]

theorem mget_mins_ne {V : Type} (d : Nat → V) (m : SMap V) {k i : Nat} (v : V) (h : i ≠ k) :
    mget d (mins m k v) i = mget d m i := by
  induction m with
  | nil => simp [mins, mget, Ne.symm h]
  | cons p r ih =>
    obtain ⟨j, w⟩ := p
    by_cases h1 : j < k
    · simp [mins, h1, mget, ih]
    · by_cases h2 : j = k
      · subst h2
        simp [mins, mget, Ne.symm h]
      · simp [mins, h1, h2, mget, Ne.symm h]

theorem mget_mdel_same {V : Type} (d : Nat → V) (m : SMap V) (k : Nat) : mget d (mdel m k) k = d k := by
  induction m with
  | nil => rfl
  | cons p r ih =>
    obtain ⟨j, w⟩ := p
    by_cases h : j = k
    · subst h
      simp [mdel, ih]
    · simp [mdel, h, mget, ih]

theorem mget_mdel_ne {V : Type} (d : Nat → V) (m : SMap V) {k i : Nat} (h : i ≠ k) : mget d (mdel m k) i = mget d m i := by
  induction m with
  | nil => rfl
  | cons p r ih =>
    obtain ⟨j, w⟩ := p
    by_cases h1 : j = k
    · subst h1
      simp [mdel, mget, ih, Ne.symm h]
    · simp [mdel, h1, mget, ih]

/-- Read after write, at the key that was written. -/
@[simp] theorem mget_mset_same {V : Type} [DecidableEq V] (d : Nat → V) (m : SMap V) (k : Nat) (v : V) :
    mget d (mset d m k v) k = v := by
  by_cases h : v = d k
  · simp [mset, h, mget_mdel_same]
  · simp [mset, h, mget_mins_same]

/-- Read after write, at any other key. -/
theorem mget_mset_ne {V : Type} [DecidableEq V] (d : Nat → V) (m : SMap V) {k i : Nat} (v : V) (h : i ≠ k) :
    mget d (mset d m k v) i = mget d m i := by
  by_cases h' : v = d k
  · simp [mset, h', mget_mdel_ne d m h]
  · simp [mset, h', mget_mins_ne d m v h]

/-- Read after write. -/
theorem mget_mset {V : Type} [DecidableEq V] (d : Nat → V) (m : SMap V) (k i : Nat) (v : V) :
    mget d (mset d m k v) i = if i = k then v else mget d m i := by
  by_cases h : i = k
  · subst h
    simp
  · simp [h, mget_mset_ne d m v h]

/-- A table with nothing listed reads as the defaults. -/
@[simp] theorem mget_nil {V : Type} (d : Nat → V) (k : Nat) : mget d [] k = d k := rfl

/-- Every key of the table is above a bound. -/
def mabove {V : Type} (b : Nat) (m : SMap V) : Prop := ∀ p ∈ m, b < p.1

theorem msorted_cons {V : Type} (j : Nat) (w : V) (r : SMap V) : msorted ((j, w) :: r) = true ↔ mabove j r ∧ msorted r = true := by
  induction r generalizing j w with
  | nil => simp [msorted, mabove]
  | cons p r ih =>
    obtain ⟨k, x⟩ := p
    constructor
    · intro h
      simp only [msorted, Bool.and_eq_true, decide_eq_true_eq] at h
      refine ⟨?_, h.2⟩
      intro q hq
      rcases List.mem_cons.mp hq with rfl | hq
      · exact h.1
      · exact Nat.lt_trans h.1 (((ih k x).mp h.2).1 q hq)
    · intro h
      simp only [msorted, Bool.and_eq_true, decide_eq_true_eq]
      exact ⟨h.1 (k, x) (by simp), h.2⟩

theorem mins_above {V : Type} {b : Nat} {m : SMap V} {k : Nat} (v : V) (h : mabove b m) (hk : b < k) : mabove b (mins m k v) := by
  induction m with
  | nil => simpa [mins, mabove] using hk
  | cons p r ih =>
    obtain ⟨j, w⟩ := p
    have hr : mabove b r := fun q hq => h q (by simp [hq])
    have hj : b < j := h (j, w) (by simp)
    intro q hq
    by_cases h1 : j < k
    · simp only [mins, h1, if_true] at hq
      rcases List.mem_cons.mp hq with rfl | hq
      · exact hj
      · exact ih hr q hq
    · by_cases h2 : j = k
      · subst h2
        simp only [mins, Nat.lt_irrefl, if_true, if_false] at hq
        rcases List.mem_cons.mp hq with rfl | hq
        · exact hk
        · exact hr q hq
      · simp only [mins, h1, h2, if_false] at hq
        rcases List.mem_cons.mp hq with rfl | hq
        · exact hk
        · exact h q hq

theorem mins_sorted {V : Type} (m : SMap V) (k : Nat) (v : V) (h : msorted m = true) : msorted (mins m k v) = true := by
  induction m with
  | nil => simp [mins, msorted]
  | cons p r ih =>
    obtain ⟨j, w⟩ := p
    have hs := (msorted_cons j w r).mp h
    by_cases h1 : j < k
    · simp only [mins, h1, if_true]
      exact (msorted_cons _ _ _).mpr ⟨mins_above v hs.1 h1, ih hs.2⟩
    · by_cases h2 : j = k
      · subst h2
        simp only [mins, Nat.lt_irrefl, if_true, if_false]
        exact (msorted_cons _ _ _).mpr hs
      · simp only [mins, h1, h2, if_false]
        refine (msorted_cons _ _ _).mpr ⟨?_, h⟩
        intro q hq
        rcases List.mem_cons.mp hq with rfl | hq
        · show k < j
          omega
        · have := hs.1 q hq
          omega

theorem mfilter_sorted {V : Type} (p : Nat × V → Bool) (m : SMap V) (h : msorted m = true) : msorted (m.filter p) = true := by
  induction m with
  | nil => rfl
  | cons q r ih =>
    obtain ⟨j, w⟩ := q
    have hs := (msorted_cons j w r).mp h
    by_cases hp : p (j, w) = true
    · rw [List.filter_cons_of_pos hp]
      exact (msorted_cons _ _ _).mpr ⟨fun q hq => hs.1 q (List.mem_filter.mp hq).1, ih hs.2⟩
    · rw [List.filter_cons_of_neg hp]
      exact ih hs.2

theorem mdel_eq_filter {V : Type} (m : SMap V) (k : Nat) : mdel m k = m.filter fun p => p.1 != k := by
  induction m with
  | nil => rfl
  | cons p r ih =>
    obtain ⟨j, w⟩ := p
    by_cases h : j = k <;> simp [mdel, h, ih]

theorem mem_mins {V : Type} {m : SMap V} {k : Nat} {v : V} {q : Nat × V} (h : q ∈ mins m k v) : q = (k, v) ∨ q ∈ m := by
  induction m with
  | nil => exact Or.inl (by simpa [mins] using h)
  | cons p r ih =>
    obtain ⟨j, w⟩ := p
    by_cases h1 : j < k
    · simp only [mins, h1, if_true] at h
      rcases List.mem_cons.mp h with rfl | h
      · exact Or.inr (by simp)
      · rcases ih h with h | h
        · exact Or.inl h
        · exact Or.inr (by simp [h])
    · by_cases h2 : j = k
      · subst h2
        simp only [mins, Nat.lt_irrefl, if_true, if_false] at h
        rcases List.mem_cons.mp h with rfl | h
        · exact Or.inl rfl
        · exact Or.inr (by simp [h])
      · simp only [mins, h1, h2, if_false] at h
        rcases List.mem_cons.mp h with rfl | h
        · exact Or.inl rfl
        · exact Or.inr h

theorem mwf_iff {V : Type} [DecidableEq V] (d : Nat → V) (m : SMap V) :
    mwf d m = true ↔ msorted m = true ∧ ∀ p ∈ m, p.2 ≠ d p.1 := by
  simp [mwf, List.all_eq_true]

/-- A filter keeps the canonical form. -/
theorem mwf_filter {V : Type} [DecidableEq V] (d : Nat → V) (p : Nat × V → Bool) (m : SMap V) (h : mwf d m = true) :
    mwf d (m.filter p) = true := by
  rw [mwf_iff] at *
  exact ⟨mfilter_sorted p m h.1, fun q hq => h.2 q (List.mem_filter.mp hq).1⟩

/-- A write keeps the canonical form. -/
theorem mwf_mset {V : Type} [DecidableEq V] (d : Nat → V) (m : SMap V) (k : Nat) (v : V) (h : mwf d m = true) :
    mwf d (mset d m k v) = true := by
  by_cases hv : v = d k
  · simp only [mset, hv, if_true, mdel_eq_filter]
    exact mwf_filter d _ m h
  · simp only [mset, hv, if_false]
    rw [mwf_iff] at *
    refine ⟨mins_sorted m k v h.1, fun q hq => ?_⟩
    rcases mem_mins hq with rfl | hq
    · exact hv
    · exact h.2 q hq

/-- Clearing keys keeps the canonical form. -/
theorem mwf_mclear {V : Type} [DecidableEq V] (d : Nat → V) (p : Nat → Bool) (m : SMap V) (h : mwf d m = true) :
    mwf d (mclear p m) = true := mwf_filter d _ m h

/-- A cleared key reads as its default, every other key as before. -/
theorem mget_mclear {V : Type} (d : Nat → V) (p : Nat → Bool) (m : SMap V) (k : Nat) :
    mget d (mclear p m) k = if p k then d k else mget d m k := by
  induction m with
  | nil => simp [mclear]
  | cons q r ih =>
    obtain ⟨j, w⟩ := q
    unfold mclear at *
    by_cases hj : p j = true
    · rw [List.filter_cons_of_neg (by simp [hj]), ih]
      by_cases hk : j = k
      · subst hk
        simp [hj]
      · simp [mget, hk]
    · rw [List.filter_cons_of_pos (by simp [hj])]
      by_cases hk : j = k
      · subst hk
        simp [mget, hj]
      · simp only [mget, hk, if_false]
        exact ih

end Sys2Proof.Machine
end

