-- ==== Sys2Proof/Laws/State.lean ====
section
/-!
SUPPORT. What every named update of State leaves unchanged: one lemma for each field, so that no later proof unfolds a
record update.
-/
namespace Sys2Proof.Machine

/-! ### setF -/

@[simp] theorem setF_now (s : State) (f : Fld) (v : Nat) : (setF s f v).now = s.now := rfl
@[simp] theorem setF_free (s : State) (f : Fld) (v : Nat) : (setF s f v).free = s.free := rfl
@[simp] theorem setF_wire (s : State) (f : Fld) (v : Nat) : (setF s f v).wire = s.wire := rfl
@[simp] theorem setF_readData (s : State) (f : Fld) (v : Nat) : (setF s f v).readData = s.readData := rfl
@[simp] theorem setF_halves (s : State) (f : Fld) (v : Nat) : (setF s f v).halves = s.halves := rfl
@[simp] theorem setF_tiles (s : State) (f : Fld) (v : Nat) : (setF s f v).tiles = s.tiles := rfl
@[simp] theorem setF_mem (s : State) (f : Fld) (v : Nat) : (setF s f v).mem = s.mem := rfl
@[simp] theorem setF_devq (s : State) (f : Fld) (v : Nat) : (setF s f v).devq = s.devq := rfl
@[simp] theorem setF_load (s : State) (f : Fld) (v : Nat) : (setF s f v).load = s.load := rfl
@[simp] theorem setF_phases (s : State) (f : Fld) (v : Nat) : (setF s f v).phases = s.phases := rfl
@[simp] theorem setF_fab (s : State) (f : Fld) (v : Nat) : (setF s f v).fab = s.fab := rfl
@[simp] theorem setF_mail (s : State) (f : Fld) (v : Nat) : (setF s f v).mail = s.mail := rfl
@[simp] theorem setF_tier (s : State) (f : Fld) (v : Nat) : (setF s f v).tier = s.tier := rfl
@[simp] theorem setF_upd (s : State) (f : Fld) (v : Nat) : (setF s f v).upd = s.upd := rfl
@[simp] theorem setF_twin (s : State) (f : Fld) (v : Nat) : (setF s f v).twin = s.twin := rfl
@[simp] theorem setF_pkg (s : State) (f : Fld) (v : Nat) : (setF s f v).pkg = s.pkg := rfl
@[simp] theorem setF_pwr (s : State) (f : Fld) (v : Nat) : (setF s f v).pwr = s.pwr := rfl
@[simp] theorem setF_host (s : State) (f : Fld) (v : Nat) : (setF s f v).host = s.host := rfl
@[simp] theorem setF_pm (s : State) (f : Fld) (v : Nat) : (setF s f v).pm = s.pm := rfl
@[simp] theorem setF_obs (s : State) (f : Fld) (v : Nat) : (setF s f v).obs = s.obs := rfl
@[simp] theorem setF_pending (s : State) (f : Fld) (v : Nat) : (setF s f v).pending = s.pending := rfl

/-! ### resetRegs -/

@[simp] theorem resetRegs_now (s : State) (p : Nat → Bool) : (resetRegs s p).now = s.now := rfl
@[simp] theorem resetRegs_free (s : State) (p : Nat → Bool) : (resetRegs s p).free = s.free := rfl
@[simp] theorem resetRegs_wire (s : State) (p : Nat → Bool) : (resetRegs s p).wire = s.wire := rfl
@[simp] theorem resetRegs_readData (s : State) (p : Nat → Bool) : (resetRegs s p).readData = s.readData := rfl
@[simp] theorem resetRegs_halves (s : State) (p : Nat → Bool) : (resetRegs s p).halves = s.halves := rfl
@[simp] theorem resetRegs_tiles (s : State) (p : Nat → Bool) : (resetRegs s p).tiles = s.tiles := rfl
@[simp] theorem resetRegs_mem (s : State) (p : Nat → Bool) : (resetRegs s p).mem = s.mem := rfl
@[simp] theorem resetRegs_devq (s : State) (p : Nat → Bool) : (resetRegs s p).devq = s.devq := rfl
@[simp] theorem resetRegs_load (s : State) (p : Nat → Bool) : (resetRegs s p).load = s.load := rfl
@[simp] theorem resetRegs_phases (s : State) (p : Nat → Bool) : (resetRegs s p).phases = s.phases := rfl
@[simp] theorem resetRegs_fab (s : State) (p : Nat → Bool) : (resetRegs s p).fab = s.fab := rfl
@[simp] theorem resetRegs_mail (s : State) (p : Nat → Bool) : (resetRegs s p).mail = s.mail := rfl
@[simp] theorem resetRegs_tier (s : State) (p : Nat → Bool) : (resetRegs s p).tier = s.tier := rfl
@[simp] theorem resetRegs_upd (s : State) (p : Nat → Bool) : (resetRegs s p).upd = s.upd := rfl
@[simp] theorem resetRegs_twin (s : State) (p : Nat → Bool) : (resetRegs s p).twin = s.twin := rfl
@[simp] theorem resetRegs_pkg (s : State) (p : Nat → Bool) : (resetRegs s p).pkg = s.pkg := rfl
@[simp] theorem resetRegs_pwr (s : State) (p : Nat → Bool) : (resetRegs s p).pwr = s.pwr := rfl
@[simp] theorem resetRegs_host (s : State) (p : Nat → Bool) : (resetRegs s p).host = s.host := rfl
@[simp] theorem resetRegs_pm (s : State) (p : Nat → Bool) : (resetRegs s p).pm = s.pm := rfl
@[simp] theorem resetRegs_obs (s : State) (p : Nat → Bool) : (resetRegs s p).obs = s.obs := rfl
@[simp] theorem resetRegs_pending (s : State) (p : Nat → Bool) : (resetRegs s p).pending = s.pending := rfl

/-! ### setTile -/

@[simp] theorem setTile_now (s : State) (t : Nat) (x : Tile) : (s.setTile t x).now = s.now := rfl
@[simp] theorem setTile_free (s : State) (t : Nat) (x : Tile) : (s.setTile t x).free = s.free := rfl
@[simp] theorem setTile_wire (s : State) (t : Nat) (x : Tile) : (s.setTile t x).wire = s.wire := rfl
@[simp] theorem setTile_readData (s : State) (t : Nat) (x : Tile) : (s.setTile t x).readData = s.readData := rfl
@[simp] theorem setTile_csr (s : State) (t : Nat) (x : Tile) : (s.setTile t x).csr = s.csr := rfl
@[simp] theorem setTile_halves (s : State) (t : Nat) (x : Tile) : (s.setTile t x).halves = s.halves := rfl
@[simp] theorem setTile_mem (s : State) (t : Nat) (x : Tile) : (s.setTile t x).mem = s.mem := rfl
@[simp] theorem setTile_devq (s : State) (t : Nat) (x : Tile) : (s.setTile t x).devq = s.devq := rfl
@[simp] theorem setTile_load (s : State) (t : Nat) (x : Tile) : (s.setTile t x).load = s.load := rfl
@[simp] theorem setTile_phases (s : State) (t : Nat) (x : Tile) : (s.setTile t x).phases = s.phases := rfl
@[simp] theorem setTile_fab (s : State) (t : Nat) (x : Tile) : (s.setTile t x).fab = s.fab := rfl
@[simp] theorem setTile_mail (s : State) (t : Nat) (x : Tile) : (s.setTile t x).mail = s.mail := rfl
@[simp] theorem setTile_tier (s : State) (t : Nat) (x : Tile) : (s.setTile t x).tier = s.tier := rfl
@[simp] theorem setTile_upd (s : State) (t : Nat) (x : Tile) : (s.setTile t x).upd = s.upd := rfl
@[simp] theorem setTile_twin (s : State) (t : Nat) (x : Tile) : (s.setTile t x).twin = s.twin := rfl
@[simp] theorem setTile_pkg (s : State) (t : Nat) (x : Tile) : (s.setTile t x).pkg = s.pkg := rfl
@[simp] theorem setTile_pwr (s : State) (t : Nat) (x : Tile) : (s.setTile t x).pwr = s.pwr := rfl
@[simp] theorem setTile_host (s : State) (t : Nat) (x : Tile) : (s.setTile t x).host = s.host := rfl
@[simp] theorem setTile_pm (s : State) (t : Nat) (x : Tile) : (s.setTile t x).pm = s.pm := rfl
@[simp] theorem setTile_obs (s : State) (t : Nat) (x : Tile) : (s.setTile t x).obs = s.obs := rfl
@[simp] theorem setTile_pending (s : State) (t : Nat) (x : Tile) : (s.setTile t x).pending = s.pending := rfl

/-! ### onTile -/

@[simp] theorem onTile_now (s : State) (t : Nat) (g : Tile → Tile) : (s.onTile t g).now = s.now := rfl
@[simp] theorem onTile_free (s : State) (t : Nat) (g : Tile → Tile) : (s.onTile t g).free = s.free := rfl
@[simp] theorem onTile_wire (s : State) (t : Nat) (g : Tile → Tile) : (s.onTile t g).wire = s.wire := rfl
@[simp] theorem onTile_readData (s : State) (t : Nat) (g : Tile → Tile) : (s.onTile t g).readData = s.readData := rfl
@[simp] theorem onTile_csr (s : State) (t : Nat) (g : Tile → Tile) : (s.onTile t g).csr = s.csr := rfl
@[simp] theorem onTile_halves (s : State) (t : Nat) (g : Tile → Tile) : (s.onTile t g).halves = s.halves := rfl
@[simp] theorem onTile_mem (s : State) (t : Nat) (g : Tile → Tile) : (s.onTile t g).mem = s.mem := rfl
@[simp] theorem onTile_devq (s : State) (t : Nat) (g : Tile → Tile) : (s.onTile t g).devq = s.devq := rfl
@[simp] theorem onTile_load (s : State) (t : Nat) (g : Tile → Tile) : (s.onTile t g).load = s.load := rfl
@[simp] theorem onTile_phases (s : State) (t : Nat) (g : Tile → Tile) : (s.onTile t g).phases = s.phases := rfl
@[simp] theorem onTile_fab (s : State) (t : Nat) (g : Tile → Tile) : (s.onTile t g).fab = s.fab := rfl
@[simp] theorem onTile_mail (s : State) (t : Nat) (g : Tile → Tile) : (s.onTile t g).mail = s.mail := rfl
@[simp] theorem onTile_tier (s : State) (t : Nat) (g : Tile → Tile) : (s.onTile t g).tier = s.tier := rfl
@[simp] theorem onTile_upd (s : State) (t : Nat) (g : Tile → Tile) : (s.onTile t g).upd = s.upd := rfl
@[simp] theorem onTile_twin (s : State) (t : Nat) (g : Tile → Tile) : (s.onTile t g).twin = s.twin := rfl
@[simp] theorem onTile_pkg (s : State) (t : Nat) (g : Tile → Tile) : (s.onTile t g).pkg = s.pkg := rfl
@[simp] theorem onTile_pwr (s : State) (t : Nat) (g : Tile → Tile) : (s.onTile t g).pwr = s.pwr := rfl
@[simp] theorem onTile_host (s : State) (t : Nat) (g : Tile → Tile) : (s.onTile t g).host = s.host := rfl
@[simp] theorem onTile_pm (s : State) (t : Nat) (g : Tile → Tile) : (s.onTile t g).pm = s.pm := rfl
@[simp] theorem onTile_obs (s : State) (t : Nat) (g : Tile → Tile) : (s.onTile t g).obs = s.obs := rfl
@[simp] theorem onTile_pending (s : State) (t : Nat) (g : Tile → Tile) : (s.onTile t g).pending = s.pending := rfl

/-! ### addF -/

@[simp] theorem addF_now (s : State) (f : Fld) (n : Nat) : (addF s f n).now = s.now := rfl
@[simp] theorem addF_free (s : State) (f : Fld) (n : Nat) : (addF s f n).free = s.free := rfl
@[simp] theorem addF_wire (s : State) (f : Fld) (n : Nat) : (addF s f n).wire = s.wire := rfl
@[simp] theorem addF_readData (s : State) (f : Fld) (n : Nat) : (addF s f n).readData = s.readData := rfl
@[simp] theorem addF_halves (s : State) (f : Fld) (n : Nat) : (addF s f n).halves = s.halves := rfl
@[simp] theorem addF_tiles (s : State) (f : Fld) (n : Nat) : (addF s f n).tiles = s.tiles := rfl
@[simp] theorem addF_mem (s : State) (f : Fld) (n : Nat) : (addF s f n).mem = s.mem := rfl
@[simp] theorem addF_devq (s : State) (f : Fld) (n : Nat) : (addF s f n).devq = s.devq := rfl
@[simp] theorem addF_load (s : State) (f : Fld) (n : Nat) : (addF s f n).load = s.load := rfl
@[simp] theorem addF_phases (s : State) (f : Fld) (n : Nat) : (addF s f n).phases = s.phases := rfl
@[simp] theorem addF_fab (s : State) (f : Fld) (n : Nat) : (addF s f n).fab = s.fab := rfl
@[simp] theorem addF_mail (s : State) (f : Fld) (n : Nat) : (addF s f n).mail = s.mail := rfl
@[simp] theorem addF_tier (s : State) (f : Fld) (n : Nat) : (addF s f n).tier = s.tier := rfl
@[simp] theorem addF_upd (s : State) (f : Fld) (n : Nat) : (addF s f n).upd = s.upd := rfl
@[simp] theorem addF_twin (s : State) (f : Fld) (n : Nat) : (addF s f n).twin = s.twin := rfl
@[simp] theorem addF_pkg (s : State) (f : Fld) (n : Nat) : (addF s f n).pkg = s.pkg := rfl
@[simp] theorem addF_pwr (s : State) (f : Fld) (n : Nat) : (addF s f n).pwr = s.pwr := rfl
@[simp] theorem addF_host (s : State) (f : Fld) (n : Nat) : (addF s f n).host = s.host := rfl
@[simp] theorem addF_pm (s : State) (f : Fld) (n : Nat) : (addF s f n).pm = s.pm := rfl
@[simp] theorem addF_obs (s : State) (f : Fld) (n : Nat) : (addF s f n).obs = s.obs := rfl
@[simp] theorem addF_pending (s : State) (f : Fld) (n : Nat) : (addF s f n).pending = s.pending := rfl

/-! ### satF -/

@[simp] theorem satF_now (s : State) (f : Fld) (n : Nat) : (satF s f n).now = s.now := rfl
@[simp] theorem satF_free (s : State) (f : Fld) (n : Nat) : (satF s f n).free = s.free := rfl
@[simp] theorem satF_wire (s : State) (f : Fld) (n : Nat) : (satF s f n).wire = s.wire := rfl
@[simp] theorem satF_readData (s : State) (f : Fld) (n : Nat) : (satF s f n).readData = s.readData := rfl
@[simp] theorem satF_halves (s : State) (f : Fld) (n : Nat) : (satF s f n).halves = s.halves := rfl
@[simp] theorem satF_tiles (s : State) (f : Fld) (n : Nat) : (satF s f n).tiles = s.tiles := rfl
@[simp] theorem satF_mem (s : State) (f : Fld) (n : Nat) : (satF s f n).mem = s.mem := rfl
@[simp] theorem satF_devq (s : State) (f : Fld) (n : Nat) : (satF s f n).devq = s.devq := rfl
@[simp] theorem satF_load (s : State) (f : Fld) (n : Nat) : (satF s f n).load = s.load := rfl
@[simp] theorem satF_phases (s : State) (f : Fld) (n : Nat) : (satF s f n).phases = s.phases := rfl
@[simp] theorem satF_fab (s : State) (f : Fld) (n : Nat) : (satF s f n).fab = s.fab := rfl
@[simp] theorem satF_mail (s : State) (f : Fld) (n : Nat) : (satF s f n).mail = s.mail := rfl
@[simp] theorem satF_tier (s : State) (f : Fld) (n : Nat) : (satF s f n).tier = s.tier := rfl
@[simp] theorem satF_upd (s : State) (f : Fld) (n : Nat) : (satF s f n).upd = s.upd := rfl
@[simp] theorem satF_twin (s : State) (f : Fld) (n : Nat) : (satF s f n).twin = s.twin := rfl
@[simp] theorem satF_pkg (s : State) (f : Fld) (n : Nat) : (satF s f n).pkg = s.pkg := rfl
@[simp] theorem satF_pwr (s : State) (f : Fld) (n : Nat) : (satF s f n).pwr = s.pwr := rfl
@[simp] theorem satF_host (s : State) (f : Fld) (n : Nat) : (satF s f n).host = s.host := rfl
@[simp] theorem satF_pm (s : State) (f : Fld) (n : Nat) : (satF s f n).pm = s.pm := rfl
@[simp] theorem satF_obs (s : State) (f : Fld) (n : Nat) : (satF s f n).obs = s.obs := rfl
@[simp] theorem satF_pending (s : State) (f : Fld) (n : Nat) : (satF s f n).pending = s.pending := rfl

/-! ### sendDev -/

@[simp] theorem sendDev_now (s : State) (ph cls : Nat) (b : List Byte) : (sendDev s ph cls b).now = s.now := rfl
@[simp] theorem sendDev_free (s : State) (ph cls : Nat) (b : List Byte) : (sendDev s ph cls b).free = s.free := rfl
@[simp] theorem sendDev_wire (s : State) (ph cls : Nat) (b : List Byte) : (sendDev s ph cls b).wire = s.wire := rfl
@[simp] theorem sendDev_readData (s : State) (ph cls : Nat) (b : List Byte) : (sendDev s ph cls b).readData = s.readData := rfl
@[simp] theorem sendDev_csr (s : State) (ph cls : Nat) (b : List Byte) : (sendDev s ph cls b).csr = s.csr := rfl
@[simp] theorem sendDev_halves (s : State) (ph cls : Nat) (b : List Byte) : (sendDev s ph cls b).halves = s.halves := rfl
@[simp] theorem sendDev_tiles (s : State) (ph cls : Nat) (b : List Byte) : (sendDev s ph cls b).tiles = s.tiles := rfl
@[simp] theorem sendDev_mem (s : State) (ph cls : Nat) (b : List Byte) : (sendDev s ph cls b).mem = s.mem := rfl
@[simp] theorem sendDev_load (s : State) (ph cls : Nat) (b : List Byte) : (sendDev s ph cls b).load = s.load := rfl
@[simp] theorem sendDev_phases (s : State) (ph cls : Nat) (b : List Byte) : (sendDev s ph cls b).phases = s.phases := rfl
@[simp] theorem sendDev_fab (s : State) (ph cls : Nat) (b : List Byte) : (sendDev s ph cls b).fab = s.fab := rfl
@[simp] theorem sendDev_mail (s : State) (ph cls : Nat) (b : List Byte) : (sendDev s ph cls b).mail = s.mail := rfl
@[simp] theorem sendDev_tier (s : State) (ph cls : Nat) (b : List Byte) : (sendDev s ph cls b).tier = s.tier := rfl
@[simp] theorem sendDev_upd (s : State) (ph cls : Nat) (b : List Byte) : (sendDev s ph cls b).upd = s.upd := rfl
@[simp] theorem sendDev_twin (s : State) (ph cls : Nat) (b : List Byte) : (sendDev s ph cls b).twin = s.twin := rfl
@[simp] theorem sendDev_pkg (s : State) (ph cls : Nat) (b : List Byte) : (sendDev s ph cls b).pkg = s.pkg := rfl
@[simp] theorem sendDev_pwr (s : State) (ph cls : Nat) (b : List Byte) : (sendDev s ph cls b).pwr = s.pwr := rfl
@[simp] theorem sendDev_host (s : State) (ph cls : Nat) (b : List Byte) : (sendDev s ph cls b).host = s.host := rfl
@[simp] theorem sendDev_pm (s : State) (ph cls : Nat) (b : List Byte) : (sendDev s ph cls b).pm = s.pm := rfl
@[simp] theorem sendDev_obs (s : State) (ph cls : Nat) (b : List Byte) : (sendDev s ph cls b).obs = s.obs := rfl
@[simp] theorem sendDev_pending (s : State) (ph cls : Nat) (b : List Byte) : (sendDev s ph cls b).pending = s.pending := rfl

/-! ### setFs -/

@[simp] theorem setFs_now (s : State) (l : List (Fld × Nat)) : (setFs s l).now = s.now := by
  induction l generalizing s with
  | nil => rfl
  | cons p r ih => exact ih (setF s p.1 p.2)
@[simp] theorem setFs_free (s : State) (l : List (Fld × Nat)) : (setFs s l).free = s.free := by
  induction l generalizing s with
  | nil => rfl
  | cons p r ih => exact ih (setF s p.1 p.2)
@[simp] theorem setFs_wire (s : State) (l : List (Fld × Nat)) : (setFs s l).wire = s.wire := by
  induction l generalizing s with
  | nil => rfl
  | cons p r ih => exact ih (setF s p.1 p.2)
@[simp] theorem setFs_readData (s : State) (l : List (Fld × Nat)) : (setFs s l).readData = s.readData := by
  induction l generalizing s with
  | nil => rfl
  | cons p r ih => exact ih (setF s p.1 p.2)
@[simp] theorem setFs_halves (s : State) (l : List (Fld × Nat)) : (setFs s l).halves = s.halves := by
  induction l generalizing s with
  | nil => rfl
  | cons p r ih => exact ih (setF s p.1 p.2)
@[simp] theorem setFs_tiles (s : State) (l : List (Fld × Nat)) : (setFs s l).tiles = s.tiles := by
  induction l generalizing s with
  | nil => rfl
  | cons p r ih => exact ih (setF s p.1 p.2)
@[simp] theorem setFs_mem (s : State) (l : List (Fld × Nat)) : (setFs s l).mem = s.mem := by
  induction l generalizing s with
  | nil => rfl
  | cons p r ih => exact ih (setF s p.1 p.2)
@[simp] theorem setFs_devq (s : State) (l : List (Fld × Nat)) : (setFs s l).devq = s.devq := by
  induction l generalizing s with
  | nil => rfl
  | cons p r ih => exact ih (setF s p.1 p.2)
@[simp] theorem setFs_load (s : State) (l : List (Fld × Nat)) : (setFs s l).load = s.load := by
  induction l generalizing s with
  | nil => rfl
  | cons p r ih => exact ih (setF s p.1 p.2)
@[simp] theorem setFs_phases (s : State) (l : List (Fld × Nat)) : (setFs s l).phases = s.phases := by
  induction l generalizing s with
  | nil => rfl
  | cons p r ih => exact ih (setF s p.1 p.2)
@[simp] theorem setFs_fab (s : State) (l : List (Fld × Nat)) : (setFs s l).fab = s.fab := by
  induction l generalizing s with
  | nil => rfl
  | cons p r ih => exact ih (setF s p.1 p.2)
@[simp] theorem setFs_mail (s : State) (l : List (Fld × Nat)) : (setFs s l).mail = s.mail := by
  induction l generalizing s with
  | nil => rfl
  | cons p r ih => exact ih (setF s p.1 p.2)
@[simp] theorem setFs_tier (s : State) (l : List (Fld × Nat)) : (setFs s l).tier = s.tier := by
  induction l generalizing s with
  | nil => rfl
  | cons p r ih => exact ih (setF s p.1 p.2)
@[simp] theorem setFs_upd (s : State) (l : List (Fld × Nat)) : (setFs s l).upd = s.upd := by
  induction l generalizing s with
  | nil => rfl
  | cons p r ih => exact ih (setF s p.1 p.2)
@[simp] theorem setFs_twin (s : State) (l : List (Fld × Nat)) : (setFs s l).twin = s.twin := by
  induction l generalizing s with
  | nil => rfl
  | cons p r ih => exact ih (setF s p.1 p.2)
@[simp] theorem setFs_pkg (s : State) (l : List (Fld × Nat)) : (setFs s l).pkg = s.pkg := by
  induction l generalizing s with
  | nil => rfl
  | cons p r ih => exact ih (setF s p.1 p.2)
@[simp] theorem setFs_pwr (s : State) (l : List (Fld × Nat)) : (setFs s l).pwr = s.pwr := by
  induction l generalizing s with
  | nil => rfl
  | cons p r ih => exact ih (setF s p.1 p.2)
@[simp] theorem setFs_host (s : State) (l : List (Fld × Nat)) : (setFs s l).host = s.host := by
  induction l generalizing s with
  | nil => rfl
  | cons p r ih => exact ih (setF s p.1 p.2)
@[simp] theorem setFs_pm (s : State) (l : List (Fld × Nat)) : (setFs s l).pm = s.pm := by
  induction l generalizing s with
  | nil => rfl
  | cons p r ih => exact ih (setF s p.1 p.2)
@[simp] theorem setFs_obs (s : State) (l : List (Fld × Nat)) : (setFs s l).obs = s.obs := by
  induction l generalizing s with
  | nil => rfl
  | cons p r ih => exact ih (setF s p.1 p.2)
@[simp] theorem setFs_pending (s : State) (l : List (Fld × Nat)) : (setFs s l).pending = s.pending := by
  induction l generalizing s with
  | nil => rfl
  | cons p r ih => exact ih (setF s p.1 p.2)

/-! ### postEvent -/

@[simp] theorem postEvent_now (s : State) (st sev src i a b : Nat) : (postEvent s st sev src i a b).now = s.now := by
  unfold postEvent postEventAt
  split <;> rfl
@[simp] theorem postEvent_free (s : State) (st sev src i a b : Nat) : (postEvent s st sev src i a b).free = s.free := by
  unfold postEvent postEventAt
  split <;> rfl
@[simp] theorem postEvent_wire (s : State) (st sev src i a b : Nat) : (postEvent s st sev src i a b).wire = s.wire := by
  unfold postEvent postEventAt
  split <;> rfl
@[simp] theorem postEvent_readData (s : State) (st sev src i a b : Nat) : (postEvent s st sev src i a b).readData = s.readData := by
  unfold postEvent postEventAt
  split <;> rfl
@[simp] theorem postEvent_halves (s : State) (st sev src i a b : Nat) : (postEvent s st sev src i a b).halves = s.halves := by
  unfold postEvent postEventAt
  split <;> rfl
@[simp] theorem postEvent_tiles (s : State) (st sev src i a b : Nat) : (postEvent s st sev src i a b).tiles = s.tiles := by
  unfold postEvent postEventAt
  split <;> rfl
@[simp] theorem postEvent_mem (s : State) (st sev src i a b : Nat) : (postEvent s st sev src i a b).mem = s.mem := by
  unfold postEvent postEventAt
  split <;> rfl
@[simp] theorem postEvent_devq (s : State) (st sev src i a b : Nat) : (postEvent s st sev src i a b).devq = s.devq := by
  unfold postEvent postEventAt
  split <;> rfl
@[simp] theorem postEvent_load (s : State) (st sev src i a b : Nat) : (postEvent s st sev src i a b).load = s.load := by
  unfold postEvent postEventAt
  split <;> rfl
@[simp] theorem postEvent_phases (s : State) (st sev src i a b : Nat) : (postEvent s st sev src i a b).phases = s.phases := by
  unfold postEvent postEventAt
  split <;> rfl
@[simp] theorem postEvent_fab (s : State) (st sev src i a b : Nat) : (postEvent s st sev src i a b).fab = s.fab := by
  unfold postEvent postEventAt
  split <;> rfl
@[simp] theorem postEvent_mail (s : State) (st sev src i a b : Nat) : (postEvent s st sev src i a b).mail = s.mail := by
  unfold postEvent postEventAt
  split <;> rfl
@[simp] theorem postEvent_tier (s : State) (st sev src i a b : Nat) : (postEvent s st sev src i a b).tier = s.tier := by
  unfold postEvent postEventAt
  split <;> rfl
@[simp] theorem postEvent_upd (s : State) (st sev src i a b : Nat) : (postEvent s st sev src i a b).upd = s.upd := by
  unfold postEvent postEventAt
  split <;> rfl
@[simp] theorem postEvent_twin (s : State) (st sev src i a b : Nat) : (postEvent s st sev src i a b).twin = s.twin := by
  unfold postEvent postEventAt
  split <;> rfl
@[simp] theorem postEvent_pkg (s : State) (st sev src i a b : Nat) : (postEvent s st sev src i a b).pkg = s.pkg := by
  unfold postEvent postEventAt
  split <;> rfl
@[simp] theorem postEvent_pwr (s : State) (st sev src i a b : Nat) : (postEvent s st sev src i a b).pwr = s.pwr := by
  unfold postEvent postEventAt
  split <;> rfl
@[simp] theorem postEvent_host (s : State) (st sev src i a b : Nat) : (postEvent s st sev src i a b).host = s.host := by
  unfold postEvent postEventAt
  split <;> rfl
@[simp] theorem postEvent_obs (s : State) (st sev src i a b : Nat) : (postEvent s st sev src i a b).obs = s.obs := by
  unfold postEvent postEventAt
  split <;> rfl
@[simp] theorem postEvent_pending (s : State) (st sev src i a b : Nat) : (postEvent s st sev src i a b).pending = s.pending := by
  unfold postEvent postEventAt
  split <;> rfl

/-! ### postTrace -/

@[simp] theorem postTrace_now (s : State) (ty i a b : Nat) : (postTrace s ty i a b).now = s.now := by
  unfold postTrace
  split
  · split <;> rfl
  · rfl
@[simp] theorem postTrace_free (s : State) (ty i a b : Nat) : (postTrace s ty i a b).free = s.free := by
  unfold postTrace
  split
  · split <;> rfl
  · rfl
@[simp] theorem postTrace_wire (s : State) (ty i a b : Nat) : (postTrace s ty i a b).wire = s.wire := by
  unfold postTrace
  split
  · split <;> rfl
  · rfl
@[simp] theorem postTrace_readData (s : State) (ty i a b : Nat) : (postTrace s ty i a b).readData = s.readData := by
  unfold postTrace
  split
  · split <;> rfl
  · rfl
@[simp] theorem postTrace_halves (s : State) (ty i a b : Nat) : (postTrace s ty i a b).halves = s.halves := by
  unfold postTrace
  split
  · split <;> rfl
  · rfl
@[simp] theorem postTrace_tiles (s : State) (ty i a b : Nat) : (postTrace s ty i a b).tiles = s.tiles := by
  unfold postTrace
  split
  · split <;> rfl
  · rfl
@[simp] theorem postTrace_mem (s : State) (ty i a b : Nat) : (postTrace s ty i a b).mem = s.mem := by
  unfold postTrace
  split
  · split <;> rfl
  · rfl
@[simp] theorem postTrace_devq (s : State) (ty i a b : Nat) : (postTrace s ty i a b).devq = s.devq := by
  unfold postTrace
  split
  · split <;> rfl
  · rfl
@[simp] theorem postTrace_load (s : State) (ty i a b : Nat) : (postTrace s ty i a b).load = s.load := by
  unfold postTrace
  split
  · split <;> rfl
  · rfl
@[simp] theorem postTrace_phases (s : State) (ty i a b : Nat) : (postTrace s ty i a b).phases = s.phases := by
  unfold postTrace
  split
  · split <;> rfl
  · rfl
@[simp] theorem postTrace_fab (s : State) (ty i a b : Nat) : (postTrace s ty i a b).fab = s.fab := by
  unfold postTrace
  split
  · split <;> rfl
  · rfl
@[simp] theorem postTrace_mail (s : State) (ty i a b : Nat) : (postTrace s ty i a b).mail = s.mail := by
  unfold postTrace
  split
  · split <;> rfl
  · rfl
@[simp] theorem postTrace_tier (s : State) (ty i a b : Nat) : (postTrace s ty i a b).tier = s.tier := by
  unfold postTrace
  split
  · split <;> rfl
  · rfl
@[simp] theorem postTrace_upd (s : State) (ty i a b : Nat) : (postTrace s ty i a b).upd = s.upd := by
  unfold postTrace
  split
  · split <;> rfl
  · rfl
@[simp] theorem postTrace_twin (s : State) (ty i a b : Nat) : (postTrace s ty i a b).twin = s.twin := by
  unfold postTrace
  split
  · split <;> rfl
  · rfl
@[simp] theorem postTrace_pkg (s : State) (ty i a b : Nat) : (postTrace s ty i a b).pkg = s.pkg := by
  unfold postTrace
  split
  · split <;> rfl
  · rfl
@[simp] theorem postTrace_pwr (s : State) (ty i a b : Nat) : (postTrace s ty i a b).pwr = s.pwr := by
  unfold postTrace
  split
  · split <;> rfl
  · rfl
@[simp] theorem postTrace_host (s : State) (ty i a b : Nat) : (postTrace s ty i a b).host = s.host := by
  unfold postTrace
  split
  · split <;> rfl
  · rfl
@[simp] theorem postTrace_pm (s : State) (ty i a b : Nat) : (postTrace s ty i a b).pm = s.pm := by
  unfold postTrace
  split
  · split <;> rfl
  · rfl
@[simp] theorem postTrace_pending (s : State) (ty i a b : Nat) : (postTrace s ty i a b).pending = s.pending := by
  unfold postTrace
  split
  · split <;> rfl
  · rfl

/-! ### fireInterrupt -/

@[simp] theorem fireInterrupt_now (s : State) : (fireInterrupt s).now = s.now := by
  simp only [fireInterrupt]
  split <;> split <;> rfl
@[simp] theorem fireInterrupt_free (s : State) : (fireInterrupt s).free = s.free := by
  simp only [fireInterrupt]
  split <;> split <;> rfl
@[simp] theorem fireInterrupt_readData (s : State) : (fireInterrupt s).readData = s.readData := by
  simp only [fireInterrupt]
  split <;> split <;> rfl
@[simp] theorem fireInterrupt_csr (s : State) : (fireInterrupt s).csr = s.csr := by
  simp only [fireInterrupt]
  split <;> split <;> rfl
@[simp] theorem fireInterrupt_halves (s : State) : (fireInterrupt s).halves = s.halves := by
  simp only [fireInterrupt]
  split <;> split <;> rfl
@[simp] theorem fireInterrupt_tiles (s : State) : (fireInterrupt s).tiles = s.tiles := by
  simp only [fireInterrupt]
  split <;> split <;> rfl
@[simp] theorem fireInterrupt_mem (s : State) : (fireInterrupt s).mem = s.mem := by
  simp only [fireInterrupt]
  split <;> split <;> rfl
@[simp] theorem fireInterrupt_devq (s : State) : (fireInterrupt s).devq = s.devq := by
  simp only [fireInterrupt]
  split <;> split <;> rfl
@[simp] theorem fireInterrupt_load (s : State) : (fireInterrupt s).load = s.load := by
  simp only [fireInterrupt]
  split <;> split <;> rfl
@[simp] theorem fireInterrupt_phases (s : State) : (fireInterrupt s).phases = s.phases := by
  simp only [fireInterrupt]
  split <;> split <;> rfl
@[simp] theorem fireInterrupt_fab (s : State) : (fireInterrupt s).fab = s.fab := by
  simp only [fireInterrupt]
  split <;> split <;> rfl
@[simp] theorem fireInterrupt_mail (s : State) : (fireInterrupt s).mail = s.mail := by
  simp only [fireInterrupt]
  split <;> split <;> rfl
@[simp] theorem fireInterrupt_tier (s : State) : (fireInterrupt s).tier = s.tier := by
  simp only [fireInterrupt]
  split <;> split <;> rfl
@[simp] theorem fireInterrupt_upd (s : State) : (fireInterrupt s).upd = s.upd := by
  simp only [fireInterrupt]
  split <;> split <;> rfl
@[simp] theorem fireInterrupt_twin (s : State) : (fireInterrupt s).twin = s.twin := by
  simp only [fireInterrupt]
  split <;> split <;> rfl
@[simp] theorem fireInterrupt_pkg (s : State) : (fireInterrupt s).pkg = s.pkg := by
  simp only [fireInterrupt]
  split <;> split <;> rfl
@[simp] theorem fireInterrupt_pwr (s : State) : (fireInterrupt s).pwr = s.pwr := by
  simp only [fireInterrupt]
  split <;> split <;> rfl
@[simp] theorem fireInterrupt_pm (s : State) : (fireInterrupt s).pm = s.pm := by
  simp only [fireInterrupt]
  split <;> split <;> rfl
@[simp] theorem fireInterrupt_obs (s : State) : (fireInterrupt s).obs = s.obs := by
  simp only [fireInterrupt]
  split <;> split <;> rfl
@[simp] theorem fireInterrupt_pending (s : State) : (fireInterrupt s).pending = s.pending := by
  simp only [fireInterrupt]
  split <;> split <;> rfl

/-! ### edge: the interrupt at a transition of the condition -/

@[simp] theorem edge_now (a s : State) : (edge a s).now = s.now := by
  unfold edge
  (repeat' split) <;> simp
@[simp] theorem edge_free (a s : State) : (edge a s).free = s.free := by
  unfold edge
  (repeat' split) <;> simp
@[simp] theorem edge_readData (a s : State) : (edge a s).readData = s.readData := by
  unfold edge
  (repeat' split) <;> simp
@[simp] theorem edge_csr (a s : State) : (edge a s).csr = s.csr := by
  unfold edge
  (repeat' split) <;> simp
@[simp] theorem edge_halves (a s : State) : (edge a s).halves = s.halves := by
  unfold edge
  (repeat' split) <;> simp
@[simp] theorem edge_tiles (a s : State) : (edge a s).tiles = s.tiles := by
  unfold edge
  (repeat' split) <;> simp
@[simp] theorem edge_mem (a s : State) : (edge a s).mem = s.mem := by
  unfold edge
  (repeat' split) <;> simp
@[simp] theorem edge_devq (a s : State) : (edge a s).devq = s.devq := by
  unfold edge
  (repeat' split) <;> simp
@[simp] theorem edge_load (a s : State) : (edge a s).load = s.load := by
  unfold edge
  (repeat' split) <;> simp
@[simp] theorem edge_phases (a s : State) : (edge a s).phases = s.phases := by
  unfold edge
  (repeat' split) <;> simp
@[simp] theorem edge_fab (a s : State) : (edge a s).fab = s.fab := by
  unfold edge
  (repeat' split) <;> simp
@[simp] theorem edge_mail (a s : State) : (edge a s).mail = s.mail := by
  unfold edge
  (repeat' split) <;> simp
@[simp] theorem edge_tier (a s : State) : (edge a s).tier = s.tier := by
  unfold edge
  (repeat' split) <;> simp
@[simp] theorem edge_upd (a s : State) : (edge a s).upd = s.upd := by
  unfold edge
  (repeat' split) <;> simp
@[simp] theorem edge_twin (a s : State) : (edge a s).twin = s.twin := by
  unfold edge
  (repeat' split) <;> simp
@[simp] theorem edge_pkg (a s : State) : (edge a s).pkg = s.pkg := by
  unfold edge
  (repeat' split) <;> simp
@[simp] theorem edge_pwr (a s : State) : (edge a s).pwr = s.pwr := by
  unfold edge
  (repeat' split) <;> simp
@[simp] theorem edge_pm (a s : State) : (edge a s).pm = s.pm := by
  unfold edge
  (repeat' split) <;> simp
@[simp] theorem edge_obs (a s : State) : (edge a s).obs = s.obs := by
  unfold edge
  (repeat' split) <;> simp
@[simp] theorem edge_pending (a s : State) : (edge a s).pending = s.pending := by
  unfold edge
  (repeat' split) <;> simp

/-! ### setLeaf -/

@[simp] theorem setLeaf_now (s : State) (i k : Nat) : (setLeaf s i k).now = s.now := by
  simp only [setLeaf]
  split <;> simp
@[simp] theorem setLeaf_free (s : State) (i k : Nat) : (setLeaf s i k).free = s.free := by
  simp only [setLeaf]
  split <;> simp
@[simp] theorem setLeaf_readData (s : State) (i k : Nat) : (setLeaf s i k).readData = s.readData := by
  simp only [setLeaf]
  split <;> simp
@[simp] theorem setLeaf_halves (s : State) (i k : Nat) : (setLeaf s i k).halves = s.halves := by
  simp only [setLeaf]
  split <;> simp
@[simp] theorem setLeaf_tiles (s : State) (i k : Nat) : (setLeaf s i k).tiles = s.tiles := by
  simp only [setLeaf]
  split <;> simp
@[simp] theorem setLeaf_mem (s : State) (i k : Nat) : (setLeaf s i k).mem = s.mem := by
  simp only [setLeaf]
  split <;> simp
@[simp] theorem setLeaf_devq (s : State) (i k : Nat) : (setLeaf s i k).devq = s.devq := by
  simp only [setLeaf]
  split <;> simp
@[simp] theorem setLeaf_load (s : State) (i k : Nat) : (setLeaf s i k).load = s.load := by
  simp only [setLeaf]
  split <;> simp
@[simp] theorem setLeaf_phases (s : State) (i k : Nat) : (setLeaf s i k).phases = s.phases := by
  simp only [setLeaf]
  split <;> simp
@[simp] theorem setLeaf_fab (s : State) (i k : Nat) : (setLeaf s i k).fab = s.fab := by
  simp only [setLeaf]
  split <;> simp
@[simp] theorem setLeaf_mail (s : State) (i k : Nat) : (setLeaf s i k).mail = s.mail := by
  simp only [setLeaf]
  split <;> simp
@[simp] theorem setLeaf_tier (s : State) (i k : Nat) : (setLeaf s i k).tier = s.tier := by
  simp only [setLeaf]
  split <;> simp
@[simp] theorem setLeaf_upd (s : State) (i k : Nat) : (setLeaf s i k).upd = s.upd := by
  simp only [setLeaf]
  split <;> simp
@[simp] theorem setLeaf_twin (s : State) (i k : Nat) : (setLeaf s i k).twin = s.twin := by
  simp only [setLeaf]
  split <;> simp
@[simp] theorem setLeaf_pkg (s : State) (i k : Nat) : (setLeaf s i k).pkg = s.pkg := by
  simp only [setLeaf]
  split <;> simp
@[simp] theorem setLeaf_pwr (s : State) (i k : Nat) : (setLeaf s i k).pwr = s.pwr := by
  simp only [setLeaf]
  split <;> simp
@[simp] theorem setLeaf_pm (s : State) (i k : Nat) : (setLeaf s i k).pm = s.pm := by
  simp only [setLeaf]
  split <;> simp
@[simp] theorem setLeaf_pending (s : State) (i k : Nat) : (setLeaf s i k).pending = s.pending := by
  simp only [setLeaf]
  split <;> simp

/-! ### setTileLeaf -/

@[simp] theorem setTileLeaf_now (s : State) (t : Nat) : (setTileLeaf s t).now = s.now := by
  simp only [setTileLeaf]
  split <;> simp
@[simp] theorem setTileLeaf_free (s : State) (t : Nat) : (setTileLeaf s t).free = s.free := by
  simp only [setTileLeaf]
  split <;> simp
@[simp] theorem setTileLeaf_readData (s : State) (t : Nat) : (setTileLeaf s t).readData = s.readData := by
  simp only [setTileLeaf]
  split <;> simp
@[simp] theorem setTileLeaf_halves (s : State) (t : Nat) : (setTileLeaf s t).halves = s.halves := by
  simp only [setTileLeaf]
  split <;> simp
@[simp] theorem setTileLeaf_tiles (s : State) (t : Nat) : (setTileLeaf s t).tiles = s.tiles := by
  simp only [setTileLeaf]
  split <;> simp
@[simp] theorem setTileLeaf_mem (s : State) (t : Nat) : (setTileLeaf s t).mem = s.mem := by
  simp only [setTileLeaf]
  split <;> simp
@[simp] theorem setTileLeaf_devq (s : State) (t : Nat) : (setTileLeaf s t).devq = s.devq := by
  simp only [setTileLeaf]
  split <;> simp
@[simp] theorem setTileLeaf_load (s : State) (t : Nat) : (setTileLeaf s t).load = s.load := by
  simp only [setTileLeaf]
  split <;> simp
@[simp] theorem setTileLeaf_phases (s : State) (t : Nat) : (setTileLeaf s t).phases = s.phases := by
  simp only [setTileLeaf]
  split <;> simp
@[simp] theorem setTileLeaf_fab (s : State) (t : Nat) : (setTileLeaf s t).fab = s.fab := by
  simp only [setTileLeaf]
  split <;> simp
@[simp] theorem setTileLeaf_mail (s : State) (t : Nat) : (setTileLeaf s t).mail = s.mail := by
  simp only [setTileLeaf]
  split <;> simp
@[simp] theorem setTileLeaf_tier (s : State) (t : Nat) : (setTileLeaf s t).tier = s.tier := by
  simp only [setTileLeaf]
  split <;> simp
@[simp] theorem setTileLeaf_upd (s : State) (t : Nat) : (setTileLeaf s t).upd = s.upd := by
  simp only [setTileLeaf]
  split <;> simp
@[simp] theorem setTileLeaf_twin (s : State) (t : Nat) : (setTileLeaf s t).twin = s.twin := by
  simp only [setTileLeaf]
  split <;> simp
@[simp] theorem setTileLeaf_pkg (s : State) (t : Nat) : (setTileLeaf s t).pkg = s.pkg := by
  simp only [setTileLeaf]
  split <;> simp
@[simp] theorem setTileLeaf_pwr (s : State) (t : Nat) : (setTileLeaf s t).pwr = s.pwr := by
  simp only [setTileLeaf]
  split <;> simp
@[simp] theorem setTileLeaf_pm (s : State) (t : Nat) : (setTileLeaf s t).pm = s.pm := by
  simp only [setTileLeaf]
  split <;> simp
@[simp] theorem setTileLeaf_pending (s : State) (t : Nat) : (setTileLeaf s t).pending = s.pending := by
  simp only [setTileLeaf]
  split <;> simp

/-! ### raise -/

@[simp] theorem raise_now (s : State) (f : Fld) : (raise s f).now = s.now := by
  simp only [raise]
  split <;> simp
@[simp] theorem raise_free (s : State) (f : Fld) : (raise s f).free = s.free := by
  simp only [raise]
  split <;> simp
@[simp] theorem raise_readData (s : State) (f : Fld) : (raise s f).readData = s.readData := by
  simp only [raise]
  split <;> simp
@[simp] theorem raise_halves (s : State) (f : Fld) : (raise s f).halves = s.halves := by
  simp only [raise]
  split <;> simp
@[simp] theorem raise_tiles (s : State) (f : Fld) : (raise s f).tiles = s.tiles := by
  simp only [raise]
  split <;> simp
@[simp] theorem raise_mem (s : State) (f : Fld) : (raise s f).mem = s.mem := by
  simp only [raise]
  split <;> simp
@[simp] theorem raise_devq (s : State) (f : Fld) : (raise s f).devq = s.devq := by
  simp only [raise]
  split <;> simp
@[simp] theorem raise_load (s : State) (f : Fld) : (raise s f).load = s.load := by
  simp only [raise]
  split <;> simp
@[simp] theorem raise_phases (s : State) (f : Fld) : (raise s f).phases = s.phases := by
  simp only [raise]
  split <;> simp
@[simp] theorem raise_fab (s : State) (f : Fld) : (raise s f).fab = s.fab := by
  simp only [raise]
  split <;> simp
@[simp] theorem raise_mail (s : State) (f : Fld) : (raise s f).mail = s.mail := by
  simp only [raise]
  split <;> simp
@[simp] theorem raise_tier (s : State) (f : Fld) : (raise s f).tier = s.tier := by
  simp only [raise]
  split <;> simp
@[simp] theorem raise_upd (s : State) (f : Fld) : (raise s f).upd = s.upd := by
  simp only [raise]
  split <;> simp
@[simp] theorem raise_twin (s : State) (f : Fld) : (raise s f).twin = s.twin := by
  simp only [raise]
  split <;> simp
@[simp] theorem raise_pkg (s : State) (f : Fld) : (raise s f).pkg = s.pkg := by
  simp only [raise]
  split <;> simp
@[simp] theorem raise_pwr (s : State) (f : Fld) : (raise s f).pwr = s.pwr := by
  simp only [raise]
  split <;> simp
@[simp] theorem raise_pm (s : State) (f : Fld) : (raise s f).pm = s.pm := by
  simp only [raise]
  split <;> simp
@[simp] theorem raise_pending (s : State) (f : Fld) : (raise s f).pending = s.pending := by
  simp only [raise]
  split <;> simp

/-! ### raiseIf -/

@[simp] theorem raiseIf_now (c : Bool) (s : State) (f : Fld) : (raiseIf c s f).now = s.now := by
  unfold raiseIf
  split <;> simp
@[simp] theorem raiseIf_free (c : Bool) (s : State) (f : Fld) : (raiseIf c s f).free = s.free := by
  unfold raiseIf
  split <;> simp
@[simp] theorem raiseIf_readData (c : Bool) (s : State) (f : Fld) : (raiseIf c s f).readData = s.readData := by
  unfold raiseIf
  split <;> simp
@[simp] theorem raiseIf_halves (c : Bool) (s : State) (f : Fld) : (raiseIf c s f).halves = s.halves := by
  unfold raiseIf
  split <;> simp
@[simp] theorem raiseIf_tiles (c : Bool) (s : State) (f : Fld) : (raiseIf c s f).tiles = s.tiles := by
  unfold raiseIf
  split <;> simp
@[simp] theorem raiseIf_mem (c : Bool) (s : State) (f : Fld) : (raiseIf c s f).mem = s.mem := by
  unfold raiseIf
  split <;> simp
@[simp] theorem raiseIf_devq (c : Bool) (s : State) (f : Fld) : (raiseIf c s f).devq = s.devq := by
  unfold raiseIf
  split <;> simp
@[simp] theorem raiseIf_load (c : Bool) (s : State) (f : Fld) : (raiseIf c s f).load = s.load := by
  unfold raiseIf
  split <;> simp
@[simp] theorem raiseIf_phases (c : Bool) (s : State) (f : Fld) : (raiseIf c s f).phases = s.phases := by
  unfold raiseIf
  split <;> simp
@[simp] theorem raiseIf_fab (c : Bool) (s : State) (f : Fld) : (raiseIf c s f).fab = s.fab := by
  unfold raiseIf
  split <;> simp
@[simp] theorem raiseIf_mail (c : Bool) (s : State) (f : Fld) : (raiseIf c s f).mail = s.mail := by
  unfold raiseIf
  split <;> simp
@[simp] theorem raiseIf_tier (c : Bool) (s : State) (f : Fld) : (raiseIf c s f).tier = s.tier := by
  unfold raiseIf
  split <;> simp
@[simp] theorem raiseIf_upd (c : Bool) (s : State) (f : Fld) : (raiseIf c s f).upd = s.upd := by
  unfold raiseIf
  split <;> simp
@[simp] theorem raiseIf_twin (c : Bool) (s : State) (f : Fld) : (raiseIf c s f).twin = s.twin := by
  unfold raiseIf
  split <;> simp
@[simp] theorem raiseIf_pkg (c : Bool) (s : State) (f : Fld) : (raiseIf c s f).pkg = s.pkg := by
  unfold raiseIf
  split <;> simp
@[simp] theorem raiseIf_pwr (c : Bool) (s : State) (f : Fld) : (raiseIf c s f).pwr = s.pwr := by
  unfold raiseIf
  split <;> simp
@[simp] theorem raiseIf_pm (c : Bool) (s : State) (f : Fld) : (raiseIf c s f).pm = s.pm := by
  unfold raiseIf
  split <;> simp
@[simp] theorem raiseIf_pending (c : Bool) (s : State) (f : Fld) : (raiseIf c s f).pending = s.pending := by
  unfold raiseIf
  split <;> simp

/-! ### Equality of states -/

/-- Two states with equal fields are equal. -/
@[ext] theorem state_ext {s u : State} (h0 : s.now = u.now) (h1 : s.free = u.free) (h2 : s.wire = u.wire) (h3 : s.readData = u.readData) (h4 : s.csr = u.csr) (h5 : s.halves = u.halves) (h6 : s.tiles = u.tiles) (h7 : s.mem = u.mem) (h8 : s.devq = u.devq) (h9 : s.load = u.load) (h10 : s.phases = u.phases) (h11 : s.fab = u.fab) (h12 : s.mail = u.mail) (h13 : s.tier = u.tier) (h14 : s.upd = u.upd) (h15 : s.twin = u.twin) (h16 : s.pkg = u.pkg) (h17 : s.pwr = u.pwr) (h18 : s.host = u.host) (h19 : s.pm = u.pm) (h20 : s.obs = u.obs) (h21 : s.pending = u.pending) : s = u := by
  cases s
  cases u
  simp only at *
  simp only [*]

end Sys2Proof.Machine
end

