-- ==== Sys2Proof/Laws/Regs.lean ====
section
/-!
SUPPORT. Reading register fields and tiles after a write of one: the value written, cut to its width, or the value before.
-/
namespace Sys2Proof.Machine

/-- The width of a field. -/
def Fld.width (f : Fld) : Nat := f.hi + 1 - f.lo

theorem getF_def (s : State) (f : Fld) : getF s f = mget csrDefault s.csr (fldKey f) := rfl

/-- What a field reads after it was written. -/
@[simp] theorem getF_setF_same (s : State) (f : Fld) (v : Nat) : getF (setF s f v) f = v % 2 ^ (f.hi + 1 - f.lo) := by
  simp [getF, setF]

/-- A write of a field leaves every field with another key alone. -/
theorem getF_setF_ne (s : State) {f g : Fld} (v : Nat) (h : fldKey g ≠ fldKey f) : getF (setF s f v) g = getF s g := by
  simp [getF, setF, mget_mset_ne _ _ _ h]

theorem getF_setF (s : State) (f g : Fld) (v : Nat) :
    getF (setF s f v) g = if fldKey g = fldKey f then v % 2 ^ (f.hi + 1 - f.lo) else getF s g := by
  simp [getF, setF, mget_mset]

/-- A field depends on the register file alone. -/
theorem getF_csr {s u : State} (h : u.csr = s.csr) (f : Fld) : getF u f = getF s f := by
  simp [getF, h]

@[simp] theorem getF_setTile (s : State) (t : Nat) (x : Tile) (f : Fld) : getF (s.setTile t x) f = getF s f := rfl
@[simp] theorem getF_onTile (s : State) (t : Nat) (g : Tile → Tile) (f : Fld) : getF (s.onTile t g) f = getF s f := rfl
@[simp] theorem getF_sendDev (s : State) (ph cls : Nat) (b : List Byte) (f : Fld) : getF (sendDev s ph cls b) f = getF s f := rfl

/-- A write of several fields leaves every field with another key alone. -/
theorem getF_setFs_ne (s : State) (l : List (Fld × Nat)) {g : Fld} (h : ∀ p ∈ l, fldKey g ≠ fldKey p.1) :
    getF (setFs s l) g = getF s g := by
  induction l generalizing s with
  | nil => rfl
  | cons p r ih =>
    have h1 := ih (setF s p.1 p.2) fun q hq => h q (List.mem_cons_of_mem _ hq)
    exact h1.trans (getF_setF_ne s p.2 (h p List.mem_cons_self))

@[simp] theorem setFs_nil (s : State) : setFs s [] = s := rfl
@[simp] theorem setFs_cons (s : State) (p : Fld × Nat) (l : List (Fld × Nat)) : setFs s (p :: l) = setFs (setF s p.1 p.2) l := rfl

/-- A tile that was replaced. -/
@[simp] theorem tile_setTile_same (s : State) (t : Nat) (x : Tile) : (s.setTile t x).tile t = x := by
  simp [State.setTile, State.tile]

/-- Replacing a tile leaves every other tile alone. -/
theorem tile_setTile_ne (s : State) {t u : Nat} (x : Tile) (h : u ≠ t) : (s.setTile t x).tile u = s.tile u := by
  simp [State.setTile, State.tile, mget_mset_ne _ _ _ h]

theorem tile_setTile (s : State) (t u : Nat) (x : Tile) : (s.setTile t x).tile u = if u = t then x else s.tile u := by
  by_cases h : u = t
  · subst h
    simp
  · simp [h, tile_setTile_ne s x h]

@[simp] theorem tile_onTile_same (s : State) (t : Nat) (g : Tile → Tile) : (s.onTile t g).tile t = g (s.tile t) := by
  simp [State.onTile]

theorem tile_onTile_ne (s : State) {t u : Nat} (g : Tile → Tile) (h : u ≠ t) : (s.onTile t g).tile u = s.tile u := by
  simp [State.onTile, tile_setTile_ne s _ h]

/-- A tile depends on the table of tiles alone. -/
theorem tile_tiles {s u : State} (h : u.tiles = s.tiles) (t : Nat) : u.tile t = s.tile t := by
  simp [State.tile, h]

@[simp] theorem tile_setF (s : State) (f : Fld) (v t : Nat) : (setF s f v).tile t = s.tile t := rfl
@[simp] theorem tile_addF (s : State) (f : Fld) (n t : Nat) : (addF s f n).tile t = s.tile t := rfl
@[simp] theorem tile_satF (s : State) (f : Fld) (n t : Nat) : (satF s f n).tile t = s.tile t := rfl
@[simp] theorem tile_setFs (s : State) (l : List (Fld × Nat)) (t : Nat) : (setFs s l).tile t = s.tile t :=
  tile_tiles (setFs_tiles s l) t
@[simp] theorem tile_raise (s : State) (f : Fld) (t : Nat) : (raise s f).tile t = s.tile t := tile_tiles (raise_tiles s f) t
@[simp] theorem tile_postEvent (s : State) (st sev src i a b t : Nat) : (postEvent s st sev src i a b).tile t = s.tile t :=
  tile_tiles (postEvent_tiles s st sev src i a b) t

/-- The register file after a write keeps its canonical form. -/
theorem setF_csr_wf (s : State) (f : Fld) (v : Nat) (h : mwf csrDefault s.csr = true) : mwf csrDefault (setF s f v).csr = true :=
  mwf_mset csrDefault s.csr (fldKey f) _ h

theorem resetRegs_csr_wf (s : State) (p : Nat → Bool) (h : mwf csrDefault s.csr = true) : mwf csrDefault (resetRegs s p).csr = true :=
  mwf_mclear csrDefault (fun k => p (k / 64)) s.csr h

end Sys2Proof.Machine
end

