-- ==== Sys2Proof/Laws/Memory.lean ====
section
/-!
SUPPORT. Every operation on device memory keeps its canonical form, and a byte reads back as it was written.
-/
namespace Sys2Proof.Machine

/-- A fold keeps a property that every step keeps. -/
theorem foldl_keeps {α β : Type} (P : α → Prop) (f : α → β → α) (l : List β) (a : α) (ha : P a) (h : ∀ x b, P x → P (f x b)) :
    P (l.foldl f a) := by
  induction l generalizing a with
  | nil => exact ha
  | cons b r ih => exact ih (f a b) (h a b ha)

/-- A fold leaves a projection alone that every step leaves alone. -/
theorem foldl_same {α β γ : Type} (g : α → γ) (f : α → β → α) (l : List β) (a : α) (h : ∀ x b, g (f x b) = g x) :
    g (l.foldl f a) = g a := by
  induction l generalizing a with
  | nil => rfl
  | cons b r ih => exact (ih (f a b)).trans (h a b)

/-- The canonical form depends on the bytes and on the quads with undefined contents alone. -/
theorem Memory.wf_congr {m n : Mem} (h1 : n.bytes = m.bytes) (h2 : n.undef = m.undef) (h : Memory.wf m = true) : Memory.wf n = true := by
  simpa [Memory.wf, h1, h2] using h

theorem putBytesD_wf (d : Nat → Byte) (m : List Host.Cell) (a : Nat) (b : List Byte) (h : mwf d m = true) :
    mwf d (putBytesD d m a b) = true := by
  induction b generalizing m a with
  | nil => exact h
  | cons x r ih => exact ih (mset d m a x) (a + 1) (mwf_mset d m a x h)

theorem mget_putBytesD_before (d : Nat → Byte) (m : List Host.Cell) (a : Nat) (b : List Byte) {k : Nat} (h : k < a) :
    mget d (putBytesD d m a b) k = mget d m k := by
  induction b generalizing m a with
  | nil => rfl
  | cons x r ih =>
    have h1 : k < a + 1 := by omega
    exact (ih (mset d m a x) (a + 1) h1).trans (mget_mset_ne d m x (by omega))

/-- Bytes entered from an address on read back, and every other byte is as before. -/
theorem mget_putBytesD (d : Nat → Byte) (m : List Host.Cell) (a : Nat) (b : List Byte) (k : Nat) :
    mget d (putBytesD d m a b) k = if a ≤ k ∧ k < a + b.length then b.getD (k - a) 0 else mget d m k := by
  induction b generalizing m a with
  | nil =>
    have : ¬(a ≤ k ∧ k < a) := by omega
    simp [putBytesD, this]
  | cons x r ih =>
    show mget d (putBytesD d (mset d m a x) (a + 1) r) k = _
    rw [ih]
    by_cases h1 : k = a
    · subst h1
      have h2 : ¬(k + 1 ≤ k ∧ k < k + 1 + r.length) := by omega
      rw [if_neg h2, if_pos ⟨Nat.le_refl k, by simp⟩]
      simp
    · by_cases h2 : a + 1 ≤ k ∧ k < a + 1 + r.length
      · have h3 : a ≤ k ∧ k < a + (x :: r).length := by
          simp only [List.length_cons]
          omega
        have h4 : k - a = (k - (a + 1)) + 1 := by omega
        rw [if_pos h2, if_pos h3, h4]
        simp
      · have h3 : ¬(a ≤ k ∧ k < a + (x :: r).length) := by
          simp only [List.length_cons]
          omega
        rw [if_neg h2, if_neg h3, mget_mset_ne d m x h1]

theorem putMem_wf (s : State) (a : Nat) (b : List Byte) (h : Memory.wf s.mem = true) : Memory.wf (putMem s a b).mem = true :=
  putBytesD_wf (devDefault s.mem.undef) s.mem.bytes a b h

/-- What memory reads after bytes were entered. -/
theorem memByte_putMem (s : State) (a k : Nat) (b : List Byte) :
    memByte (putMem s a b) k = if a ≤ k ∧ k < a + b.length then b.getD (k - a) 0 else memByte s k :=
  mget_putBytesD (devDefault s.mem.undef) s.mem.bytes a b k

theorem memByte_mem {s u : State} (h : u.mem = s.mem) (k : Nat) : memByte u k = memByte s k := by
  simp [memByte, h]

@[simp] theorem setErr_bytes (s : State) (u : Nat) (e : SMap Nat) : (setErr s u e).mem.bytes = s.mem.bytes := rfl
@[simp] theorem setErr_undef (s : State) (u : Nat) (e : SMap Nat) : (setErr s u e).mem.undef = s.mem.undef := rfl

theorem setErr_wf (s : State) (u : Nat) (e : SMap Nat) (h : Memory.wf s.mem = true) : Memory.wf (setErr s u e).mem = true := h

theorem noteCorrection_bytes (s : State) (u : Nat) (w : Bool) :
    (noteCorrection s u w).mem.bytes = s.mem.bytes ∧ (noteCorrection s u w).mem.undef = s.mem.undef := by
  simp only [noteCorrection]
  split <;> simp

/-- Where no change of its quad is under way, a request is served at once (R281). -/
theorem afterChange_steady {s : State} {u : Nat} (h : quadSteady s u = true) : afterChange s u = s := by
  simp [afterChange, h]

/-- Entries whose default does not differ keep their canonical form under another default. -/
theorem mwf_defaults {V : Type} [DecidableEq V] {d e : Nat → V} {m : SMap V} (h : mwf d m = true) (hd : ∀ p ∈ m, e p.1 = d p.1) :
    mwf e m = true := by
  rw [mwf_iff] at *
  exact ⟨h.1, fun p hp => by rw [hd p hp]; exact h.2 p hp⟩

/-- A change of a quad's mode keeps the canonical form: the quad's own entries go (R281). -/
theorem quadApply_wf (s : State) (q : Nat) (h : Memory.wf s.mem = true) : Memory.wf (quadApply s q).mem = true := by
  simp only [quadApply]
  split
  · exact h
  · split
    · exact h
    · simp only [setFs_mem]
      refine mwf_defaults (d := devDefault s.mem.undef) (m := mclear (fun a => quadOf a == q) s.mem.bytes) (mwf_mclear _ _ _ h) fun p hp => ?_
      have hq : quadOf p.1 ≠ q := by simpa [mclear] using (List.mem_filter.mp hp).2
      simp [devDefault, mget_mset_ne _ _ _ hq]

theorem afterChange_wf (s : State) (u : Nat) (h : Memory.wf s.mem = true) : Memory.wf (afterChange s u).mem = true := by
  simp only [afterChange]
  split
  · exact h
  · exact foldl_keeps (fun s : State => Memory.wf s.mem = true) _ _ _ h fun x _ hx => quadApply_wf x _ hx

@[simp] theorem countCorrected_mem (s : State) : (countCorrected s).mem = s.mem := by
  simp [countCorrected]

@[simp] theorem countBad_mem (s : State) (u : Nat) (p c : Bool) : (countBad s u p c).mem = s.mem := by
  simp only [countBad, postEvent_mem, raise_mem]
  split <;> simp

@[simp] theorem countCorrected_quadChange (s : State) : (countCorrected s).mem.quadChange = s.mem.quadChange := by simp

theorem noteCorrection_quadChange (s : State) (u : Nat) (w : Bool) : (noteCorrection s u w).mem.quadChange = s.mem.quadChange := by
  simp only [noteCorrection]
  split <;> simp

/-- A read of a unit changes no byte and no pending mode change beyond the change that it waits for. -/
theorem readUnit_bytes (s : State) (u : Nat) (c : Bool) :
    (readUnit s u c).s.mem.bytes = (afterChange s u).mem.bytes ∧ (readUnit s u c).s.mem.undef = (afterChange s u).mem.undef ∧
    (readUnit s u c).s.mem.quadChange = (afterChange s u).mem.quadChange := by
  simp only [readUnit]
  generalize afterChange s u = s
  split
  · rename_i l _
    by_cases hl : l.held (u % 4) = [] <;> simp [hl]
  · split
    · exact ⟨rfl, rfl, rfl⟩
    · have h := noteCorrection_bytes (countCorrected s) u false
      have h2 := noteCorrection_quadChange (countCorrected s) u false
      rw [countCorrected_mem] at h h2
      dsimp only
      split <;> exact ⟨h.1, h.2, h2⟩
    · simp

theorem readUnit_wf (s : State) (u : Nat) (c : Bool) (h : Memory.wf s.mem = true) : Memory.wf (readUnit s u c).s.mem = true :=
  Memory.wf_congr (readUnit_bytes s u c).1 (readUnit_bytes s u c).2.1 (afterChange_wf s u h)

theorem readUnits_wf (k u a n : Nat) (s : State) (acc : List (List Byte)) (bad : Option Nat) (h : Memory.wf s.mem = true) :
    Memory.wf (readUnits k u a n s acc bad).s.mem = true := by
  induction k generalizing u s acc bad with
  | zero => exact h
  | succ k ih => exact ih _ _ _ _ (readUnit_wf s u false h)

theorem sramCe_mem (s : State) : (sramCe s).mem = s.mem := by simp [sramCe]

theorem crossNetwork_mem (s : State) (a : Nat) (e : BitVec 39) : (crossNetwork s a e).2.mem = s.mem := by
  simp only [crossNetwork]
  split
  · rfl
  · exact sramCe_mem s
  · simp [freshWord]

/-- A crossing of the network takes the waiting errors of its units away and changes nothing else of device memory. -/
theorem crossRange_mem (s : State) (a n : Nat) : (crossRange s a n).2.mem = { s.mem with net := (crossRange s a n).2.mem.net } := by
  simp only [crossRange]
  split
  · rfl
  · have h : ∀ (l : List (Nat × BitVec 39)) (x : List Nat × State),
        (l.foldl (fun x p => (if (crossNetwork x.2 (p.1 * 64) p.2).1 then x.1 ++ [p.1] else x.1, (crossNetwork x.2 (p.1 * 64) p.2).2)) x).2.mem = x.2.mem := by
      intro l
      induction l with
      | nil => exact fun _ => rfl
      | cons p l ih => exact fun x => (ih _).trans (crossNetwork_mem _ _ _)
    rw [h]

theorem crossRange_wf (s : State) (a n : Nat) (h : Memory.wf s.mem = true) : Memory.wf (crossRange s a n).2.mem = true := by
  have h1 := crossRange_mem s a n
  exact Memory.wf_congr (by rw [h1]) (by rw [h1]) h

/-- Where no error waits for a unit of the range, nothing happens on the way. -/
theorem crossRange_open {s : State} {a n : Nat} (h : ∀ u, a / 64 ≤ u → u * 64 < a + n → UnitOpen s u) : crossRange s a n = ([], s) := by
  have : (s.mem.net.filter fun p => rangesMeet (p.1 * 64) 64 a n) = [] := by
    rw [List.filter_eq_nil_iff]
    intro p hp hm
    simp only [rangesMeet, Bool.and_eq_true, decide_eq_true_eq] at hm
    exact (h p.1 (by omega) (by omega)).2 p hp rfl
  simp [crossRange, this]

theorem memRead_wf (s : State) (a n : Nat) (h : Memory.wf s.mem = true) : Memory.wf (memRead s a n).s.mem = true := by
  unfold memRead
  split
  · exact h
  · exact crossRange_wf _ _ _ (readUnits_wf _ _ _ _ _ _ _ h)

theorem quadSteady_congr {s t : State} (h : t.mem.quadChange = s.mem.quadChange) (u : Nat) : quadSteady t u = quadSteady s u := by
  simp [quadSteady, h]

theorem readUnits_bytes (k u a n : Nat) (s : State) (acc : List (List Byte)) (bad : Option Nat)
    (h : ∀ v, u ≤ v → v < u + k → quadSteady s v = true) :
    (readUnits k u a n s acc bad).s.mem.bytes = s.mem.bytes ∧ (readUnits k u a n s acc bad).s.mem.undef = s.mem.undef := by
  induction k generalizing u s acc bad with
  | zero => exact ⟨rfl, rfl⟩
  | succ k ih =>
    have h0 := readUnit_bytes s u false
    rw [afterChange_steady (h u (by omega) (by omega))] at h0
    have h1 := ih (u + 1) (readUnit s u false).s (cutUnit (readUnit s u false).data u a n :: acc)
      (match bad with
       | some b => some b
       | none => if (readUnit s u false).outcome == .poisoned || (readUnit s u false).outcome == .uncorrectable then some (u * 64) else none)
      fun v hv hw => by rw [quadSteady_congr h0.2.2]; exact h v (by omega) (by omega)
    exact ⟨h1.1.trans h0.1, h1.2.trans h0.2.1⟩

/-- Where no change of a quad is under way, a read changes no byte of memory: it can only count, queue corrective writes and report. -/
theorem memByte_memRead {s : State} {a n : Nat} (h : ∀ u, a / 64 ≤ u → u * 64 < a + n → quadSteady s u = true) (k : Nat) :
    memByte (memRead s a n).s k = memByte s k := by
  unfold memRead
  split
  · rfl
  · have h1 := readUnits_bytes ((a + n - 1) / 64 + 1 - a / 64) (a / 64) a n s [] none fun v hv hw => h v hv (by omega)
    have h2 := crossRange_mem (readUnits ((a + n - 1) / 64 + 1 - a / 64) (a / 64) a n s [] none).s a n
    simp only [memByte]
    rw [h2]
    simp [h1.1, h1.2]

@[simp] theorem snoop_mem (s : State) (a n : Nat) : (snoop s a n).mem = s.mem := by
  unfold snoop
  refine foldl_same State.mem _ _ _ fun x p => ?_
  dsimp only
  split
  · rfl
  · split <;> simp

@[simp] theorem shTouch_mem (s : State) (b : Bool) (a : Nat) : (shTouch s b a).mem = s.mem := by
  unfold shTouch
  split
  · rfl
  · split <;> rfl
  · rfl

@[simp] theorem shWatch_mem (s : State) (b : Bool) (a n : Nat) : (shWatch s b a n).mem = s.mem := by
  unfold shWatch
  split
  · rfl
  · exact foldl_same State.mem _ _ _ fun x k => shTouch_mem x b _

theorem writeUnit_wf (s : State) (a : Nat) (b : List Byte) (h : Memory.wf s.mem = true) : Memory.wf (writeUnit s a b).mem = true := by
  have h := afterChange_wf s (a / 64) h
  simp only [writeUnit]
  generalize afterChange s (a / 64) = s at *
  split
  · refine putMem_wf _ a b ?_
    split
    · exact h
    · exact putMem_wf _ _ _ h
  · refine putMem_wf _ a b ?_
    split
    · exact h
    · split
      · exact h
      · refine setErr_wf _ _ _ (putMem_wf _ _ _ ?_)
        have hc := noteCorrection_bytes (countCorrected
          { s with mem := { s.mem with corrective := s.mem.corrective.filter (· != a / 64) } }) (a / 64) true
        rw [countCorrected_mem] at hc
        exact Memory.wf_congr (m := s.mem) hc.1 hc.2 h
      · exact setErr_wf _ _ _ (putMem_wf _ _ _ h)

theorem poisonUnit_wf (s : State) (u : Nat) (h : Memory.wf s.mem = true) : Memory.wf (poisonUnit s u).mem = true := by
  have h := afterChange_wf s u h
  simp only [poisonUnit]
  generalize afterChange s u = s at *
  split
  · rename_i l _
    refine Memory.wf_congr (m := (if (l.held (u % 4)).isEmpty then s else putMem s (u * 64) (applyErr (memBytes s (u * 64) 64) (l.held (u % 4)))).mem) ?_ ?_ ?_
    · split <;> rfl
    · split <;> rfl
    · split
      · exact h
      · exact putMem_wf _ _ _ h
  · refine setErr_wf _ _ _ ?_
    split
    · exact h
    · exact putMem_wf _ _ _ h

theorem memWriteBy_wf (b : Bool) (s : State) (a : Nat) (d : List Byte) (h : Memory.wf s.mem = true) :
    Memory.wf (memWriteBy b s a d).mem = true := by
  have h0 : Memory.wf (shWatch (snoop s a d.length) b a d.length).mem = true := by simpa using h
  have h1 := crossRange_wf _ a d.length h0
  generalize hw : crossRange (shWatch (snoop s a d.length) b a d.length) a d.length = w at h1
  have h2 : Memory.wf ((splitUnits (d.length + 1) a d).foldl (fun s p => writeUnit s p.1 p.2) w.2).mem = true :=
    foldl_keeps (fun s : State => Memory.wf s.mem = true) _ _ _ h1 fun x p hx => writeUnit_wf x p.1 p.2 hx
  have h3 := foldl_keeps (fun s : State => Memory.wf s.mem = true) poisonUnit w.1 _ h2 fun x u hx => poisonUnit_wf x u hx
  simp only [memWriteBy, hw]
  exact h3

theorem memWrite_wf (s : State) (a : Nat) (d : List Byte) (h : Memory.wf s.mem = true) : Memory.wf (memWrite s a d).mem = true :=
  memWriteBy_wf false s a d h

theorem memPoison_wf (s : State) (a n : Nat) (h : Memory.wf s.mem = true) : Memory.wf (memPoison s a n).mem = true := by
  unfold memPoison
  refine foldl_keeps (fun s : State => Memory.wf s.mem = true) _ _ _ ?_ fun x i hx => poisonUnit_wf x _ hx
  simpa using h

theorem memWriteP_wf (s : State) (a : Nat) (b : List Byte) (p : Bool) (h : Memory.wf s.mem = true) : Memory.wf (memWriteP s a b p).mem = true := by
  unfold memWriteP
  split
  · exact memPoison_wf _ _ _ (memWrite_wf s a b h)
  · exact memWrite_wf s a b h

theorem memWriteM_wf (s : State) (a : Nat) (b : List Byte) (l : List Nat) (h : Memory.wf s.mem = true) : Memory.wf (memWriteM s a b l).mem = true := by
  unfold memWriteM
  split
  · exact memWrite_wf s a b h
  · refine foldl_keeps (fun s : State => Memory.wf s.mem = true) _ _ _ h fun x p hx => ?_
    dsimp only
    split
    · exact memPoison_wf _ _ _ (memWrite_wf x _ _ hx)
    · exact memWrite_wf x _ _ hx

theorem zeroUnits_wf (s : State) (u n : Nat) (h : Memory.wf s.mem = true) : Memory.wf (zeroUnits s u n).mem = true := by
  show mwf (devDefault s.mem.undef) (mclear (fun a => decide (u ≤ a / 64) && decide (a / 64 < u + n)) s.mem.bytes) = true
  exact mwf_mclear _ _ _ h

/-- Both branches of a conditional keep a property. -/
theorem ite_keeps {α : Type} (P : α → Prop) {c : Prop} [Decidable c] {x y : α} (hx : P x) (hy : P y) : P (if c then x else y) := by
  split
  · exact hx
  · exact hy

theorem memZero_wf (s : State) (a n : Nat) (h : Memory.wf s.mem = true) : Memory.wf (memZero s a n).mem = true := by
  have h0 : Memory.wf (shWatch (snoop s a n) false a n).mem = true := by simpa using h
  let P (x : State) : Prop := Memory.wf x.mem = true
  have h1 (c : Prop) [Decidable c] (x : State) (e : Nat) (l : List Byte) (hx : P x) : P (if c then x else writeUnit x e l) :=
    ite_keeps P hx (writeUnit_wf x e l hx)
  exact ite_keeps P (memWrite_wf s a _ h) (h1 _ _ _ _ (zeroUnits_wf _ _ _ (h1 _ _ _ _ h0)))

/-- Memory after reset has its canonical form. -/
theorem reset_memory_wf : Memory.wf State.reset.mem = true := rfl



theorem applyErr_nil (d : List Byte) (h : d.length = 64) : applyErr d [] = d := by
  apply List.ext_getElem
  · simp [applyErr, h]
  · intro i h1 h2
    simp [applyErr, List.getD_eq_getElem?_getD, List.getElem?_eq_getElem h2]

theorem decodeUnit_nil : decodeUnit [] = (.clean, none) := by rfl

theorem memBytes_length (s : State) (a n : Nat) : (memBytes s a n).length = n := by simp [memBytes]

/-- Reading a unit without error returns its bytes and changes nothing. -/
theorem readUnit_clean {s : State} {u : Nat} (h : UnitClean s u) : readUnit s u false = ⟨memBytes s (u * 64) 64, .clean, s⟩ := by
  simp only [UnitClean] at h
  obtain ⟨⟨hq, _⟩, h⟩ := h
  simp only [readUnit, Bool.false_eq_true, if_false, afterChange_steady hq]
  split
  · rename_i l hl
    rw [hl] at h
    simp only at h
    simp only [h, if_true]
  · rename_i hl
    rw [hl] at h
    simp only at h
    simp [h, decodeUnit_nil, applyErr_nil _ (memBytes_length s _ _)]

theorem cutUnit_eq (s : State) (u a n : Nat) :
    cutUnit (memBytes s (u * 64) 64) u a n = ((List.range' (u * 64) 64).filter fun i => decide (a ≤ i) && decide (i < a + n)).map (memByte s) := by
  have h : (memBytes s (u * 64) 64).zipIdx = (List.range 64).map fun i => (memByte s (u * 64 + i), i) := by
    apply List.ext_getElem
    · simp [memBytes]
    · intro i h1 h2
      simp [memBytes]
  have h2 : List.range' (u * 64) 64 = (List.range 64).map fun i => u * 64 + i := by
    rw [List.range'_eq_map_range]
  rw [cutUnit, h, h2]
  simp only [List.filter_map, List.map_map]
  rfl

theorem readUnits_clean (s : State) (a n : Nat) (k u : Nat) (acc : List (List Byte)) (h : ∀ v, u ≤ v → v < u + k → UnitClean s v) :
    readUnits k u a n s acc none =
      ⟨acc.reverse.flatten ++ ((List.range' (u * 64) (k * 64)).filter fun i => decide (a ≤ i) && decide (i < a + n)).map (memByte s), none, s⟩ := by
  induction k generalizing u acc with
  | zero => simp [readUnits]
  | succ k ih =>
    simp only [readUnits, readUnit_clean (h u (by omega) (by omega))]
    have e : ((UnitOutcome.clean == UnitOutcome.poisoned) || (UnitOutcome.clean == UnitOutcome.uncorrectable)) = false := by decide
    simp only [e, Bool.false_eq_true, if_false]
    rw [ih _ _ fun v h1 h2 => h v (by omega) (by omega)]
    simp only [List.reverse_cons, List.flatten_append, List.flatten_cons, List.flatten_nil, List.append_nil, List.append_assoc, cutUnit_eq]
    congr 2
    rw [← List.map_append, ← List.filter_append]
    congr 2
    have : (k + 1) * 64 = 64 + k * 64 := by omega
    rw [this, ← List.range'_append_1]
    congr 2
    omega

theorem filter_range'_window (b m a n : Nat) (h1 : b ≤ a) (h2 : a + n ≤ b + m) :
    (List.range' b m).filter (fun i => decide (a ≤ i) && decide (i < a + n)) = List.range' a n := by
  have e : List.range' b m = List.range' b (a - b) ++ (List.range' a n ++ List.range' (a + n) (b + m - (a + n))) := by
    have h3 : List.range' a n ++ List.range' (a + n) (b + m - (a + n)) = List.range' a (n + (b + m - (a + n))) := List.range'_append_1
    rw [h3]
    have h4 := @List.range'_append_1 b (a - b) (n + (b + m - (a + n)))
    have h5 : b + (a - b) = a := by omega
    rw [h5] at h4
    rw [h4]
    congr 1
    omega
  rw [e, List.filter_append, List.filter_append]
  have f1 : (List.range' b (a - b)).filter (fun i => decide (a ≤ i) && decide (i < a + n)) = [] := by
    simp [List.filter_eq_nil_iff, List.mem_range'_1]; omega
  have f2 : (List.range' (a + n) (b + m - (a + n))).filter (fun i => decide (a ≤ i) && decide (i < a + n)) = [] := by
    simp [List.filter_eq_nil_iff, List.mem_range'_1]; omega
  have f3 : (List.range' a n).filter (fun i => decide (a ≤ i) && decide (i < a + n)) = List.range' a n := by
    simp [List.filter_eq_self, List.mem_range'_1]
  rw [f1, f2, f3]; simp

/-- A read of units without error returns the bytes and changes nothing. -/
theorem memRead_clean {s : State} {a n : Nat} (h : RangeClean s a n) : memRead s a n = ⟨memBytes s a n, none, s⟩ := by
  simp only [memRead]
  split
  · rename_i h0; subst h0; simp [memBytes]
  · rename_i h0
    rw [readUnits_clean s a n _ _ [] (fun v h1 h2 => h v h1 (by omega))]
    rw [filter_range'_window _ _ _ _ (by omega) (by omega)]
    simp [memBytes, List.range'_eq_map_range, crossRange_open fun v h1 h2 => (h v h1 h2).1]

theorem memByte_setErr (s : State) (u : Nat) (e : SMap Nat) (k : Nat) : memByte (setErr s u e) k = memByte s k := rfl



theorem eddyLine_div (s : State) {a b : Nat} (h : a / 256 = b / 256) : eddyLine s a = eddyLine s b := by simp [eddyLine, h]

/-- Whether a unit is held without error depends on device memory alone. -/
theorem UnitClean_mem {s u : State} (h : u.mem = s.mem) {v : Nat} (hv : UnitClean s v) : UnitClean u v := by
  simpa [UnitClean, UnitOpen, quadSteady, eddyLine, unitErr, h] using hv

/-- What a clean unit gives the write of some of its bytes. -/
theorem UnitClean.at {s : State} {a : Nat} (h : UnitClean s (a / 64)) :
    quadSteady s (a / 64) = true ∧ match eddyLine s a with
      | some l => l.held (a / 64 % 4) = []
      | none => unitErr s (a / 64) = [] := by
  rw [UnitClean, eddyLine_div s (a := a / 64 * 64) (b := a) (by omega)] at h
  exact ⟨h.1.1, h.2⟩

/-- The write of bytes of a unit without error: the line that holds it becomes dirty, or a whole codeword replaces the stored one. -/
theorem writeUnit_clean {s : State} {a : Nat} (b : List Byte) (h : UnitClean s (a / 64)) :
    ∃ (e : SMap (SMap Nat)) (l : List EddyLine), writeUnit s a b = { s with mem := { s.mem with
        bytes := putBytesD (devDefault s.mem.undef) s.mem.bytes a b, err := e, eddy := l
        corrective := s.mem.corrective.filter (· != a / 64) } } ∧
      (e = s.mem.err ∨ e = mset (fun _ => []) s.mem.err (a / 64) []) ∧
      ∃ f : EddyLine → EddyLine, l = s.mem.eddy.map f ∧ ∀ x, (f x).line = x.line ∧ (f x).bad = x.bad := by
  obtain ⟨hq, h⟩ := h.at
  simp only [writeUnit, afterChange_steady hq]
  have he : ∀ c, eddyLine { s with mem := { s.mem with corrective := c } } a = eddyLine s a := fun _ => rfl
  have hu : ∀ c, unitErr { s with mem := { s.mem with corrective := c } } (a / 64) = unitErr s (a / 64) := fun _ => rfl
  rw [he]
  split
  · rename_i l hl
    rw [hl] at h
    simp only at h
    simp only [h, if_true]
    exact ⟨_, _, rfl, .inl rfl, _, rfl, fun x => by split <;> exact ⟨rfl, rfl⟩⟩
  · rename_i hl
    rw [hl] at h
    simp only at h
    rw [hu, h, decodeUnit_nil]
    have hm : s.mem.eddy = s.mem.eddy.map id := by simp
    split
    · exact ⟨_, _, rfl, .inr rfl, id, hm, fun x => ⟨rfl, rfl⟩⟩
    · exact ⟨_, _, rfl, .inl rfl, id, hm, fun x => ⟨rfl, rfl⟩⟩

/-- Writing bytes of a unit without error. -/
theorem memByte_writeUnit {s : State} {a : Nat} (b : List Byte) (k : Nat) (h : UnitClean s (a / 64)) :
    memByte (writeUnit s a b) k = if a ≤ k ∧ k < a + b.length then b.getD (k - a) 0 else memByte s k := by
  obtain ⟨e, l, hw, _⟩ := writeUnit_clean b h
  rw [hw]
  show memByte (putMem s a b) k = _
  rw [memByte_putMem]

theorem find?_map_line {l : List EddyLine} {f : EddyLine → EddyLine} (hf : ∀ x, (f x).line = x.line) (n : Nat) :
    (l.map f).find? (fun x => x.line == n) = (l.find? (fun x => x.line == n)).map f := by
  induction l with
  | nil => rfl
  | cons x l ih =>
    simp only [List.map_cons, List.find?_cons, hf]
    split
    · rfl
    · exact ih

/-- A write of one unit leaves every unit without error so. -/
theorem writeUnit_sound {s : State} {a : Nat} (b : List Byte) (h : UnitClean s (a / 64)) {v : Nat} (hv : UnitClean s v) :
    UnitClean (writeUnit s a b) v := by
  obtain ⟨e, l, hw, h1, f, h2, h3⟩ := writeUnit_clean b h
  obtain ⟨ho, hv⟩ := hv
  rw [hw, h2]
  refine ⟨ho, ?_⟩
  have hl : ∀ n, (s.mem.eddy.map f).find? (fun x => x.line == n) = (s.mem.eddy.find? (fun x => x.line == n)).map f := fun n => find?_map_line (fun x => (h3 x).1) n
  simp only [eddyLine] at hv ⊢
  rw [hl]
  cases hf : s.mem.eddy.find? (fun x => x.line == v * 64 / 256) with
  | some x =>
    rw [hf] at hv
    simp only [Option.map_some, EddyLine.held, (h3 x).2]
    exact hv
  | none =>
    rw [hf] at hv
    simp only [Option.map_none, unitErr] at hv ⊢
    rcases h1 with h1 | h1
    · rw [h1]; exact hv
    · rw [h1, mget_mset]
      split
      · rfl
      · exact hv

theorem getD_take_drop (b : List Byte) (k i : Nat) : (b.drop k).getD i 0 = b.getD (k + i) 0 := by
  simp [List.getD_eq_getElem?_getD]

theorem writeUnits_bytes (f : Nat) : ∀ (a : Nat) (b : List Byte) (s : State), b.length < f → RangeClean s a b.length → ∀ k,
    memByte ((splitUnits f a b).foldl (fun s p => writeUnit s p.1 p.2) s) k =
      if a ≤ k ∧ k < a + b.length then b.getD (k - a) 0 else memByte s k := by
  induction f with
  | zero => intro a b s h; omega
  | succ f ih =>
    intro a b s hl hs k
    cases b with
    | nil =>
      simp only [splitUnits, List.foldl_nil, List.length_nil]
      rw [if_neg (by omega)]
    | cons x r =>
      simp only [splitUnits, List.foldl_cons]
      have hsound : UnitClean s (a / 64) := hs _ (by omega) (by simp only [List.length_cons]; omega)
      have hk : 0 < 64 - a % 64 := by omega
      generalize hb : x :: r = b at *
      have hbl : 0 < b.length := by rw [← hb]; simp
      rw [ih]
      · rw [memByte_writeUnit _ _ hsound]
        simp only [List.length_take, List.length_drop]
        by_cases h1 : a + (64 - a % 64) ≤ k ∧ k < a + (64 - a % 64) + (b.length - (64 - a % 64))
        · rw [if_pos h1, if_pos (by omega), getD_take_drop]
          congr 1
          omega
        · rw [if_neg h1]
          by_cases h2 : a ≤ k ∧ k < a + min (64 - a % 64) b.length
          · rw [if_pos h2, if_pos (by omega)]
            simp only [List.getD_eq_getElem?_getD, List.getElem?_take]
            rw [if_pos (by omega)]
          · rw [if_neg h2, if_neg (by omega)]
      · simp only [List.length_drop]; omega
      · intro v h1 h2
        apply writeUnit_sound _ hsound
        apply hs v
        · omega
        · simp only [List.length_drop] at h2; omega

@[simp] theorem eddyLine_mem {s u : State} (h : u.mem = s.mem) (a : Nat) : eddyLine u a = eddyLine s a := by simp [eddyLine, h]

theorem RangeClean_mem {s u : State} (h : u.mem = s.mem) {a n : Nat} (hs : RangeClean s a n) : RangeClean u a n :=
  fun v h1 h2 => UnitClean_mem h (hs v h1 h2)

/-- A write of bytes of units without error: nothing happens on the way to them. -/
theorem memWriteBy_clean {s : State} {a : Nat} (w : Bool) (b : List Byte) (h : RangeClean s a b.length) :
    memWriteBy w s a b = (splitUnits (b.length + 1) a b).foldl (fun s p => writeUnit s p.1 p.2) (shWatch (snoop s a b.length) w a b.length) := by
  have e : (shWatch (snoop s a b.length) w a b.length).mem = s.mem := by simp
  simp only [memWriteBy, crossRange_open fun v h1 h2 => (RangeClean_mem e h v h1 h2).1, List.foldl_nil]

/-- What memory reads after a write of bytes. -/
theorem memByte_memWriteBy {s : State} {a : Nat} (w : Bool) (b : List Byte) (h : RangeClean s a b.length) (k : Nat) :
    memByte (memWriteBy w s a b) k = if a ≤ k ∧ k < a + b.length then b.getD (k - a) 0 else memByte s k := by
  have e : (shWatch (snoop s a b.length) w a b.length).mem = s.mem := by simp
  rw [memWriteBy_clean w b h]
  rw [writeUnits_bytes _ _ _ _ (by omega) (RangeClean_mem e h)]
  rw [memByte_mem e]

theorem writeUnit_frame {s : State} {a : Nat} (b : List Byte) (h : UnitClean s (a / 64)) :
    writeUnit s a b = { s with mem := (writeUnit s a b).mem } := by
  obtain ⟨e, l, hw, _⟩ := writeUnit_clean b h
  rw [hw]

theorem splitUnits_sound (f : Nat) : ∀ (a : Nat) (b : List Byte) (s : State), b.length < f → RangeClean s a b.length →
    (splitUnits f a b).foldl (fun s p => writeUnit s p.1 p.2) s =
      { s with mem := ((splitUnits f a b).foldl (fun s p => writeUnit s p.1 p.2) s).mem } := by
  induction f with
  | zero => intro a b s h; omega
  | succ f ih =>
    intro a b s hl hs
    cases b with
    | nil => rfl
    | cons x r =>
      simp only [splitUnits, List.foldl_cons]
      have hsound : UnitClean s (a / 64) := hs _ (by omega) (by simp only [List.length_cons]; omega)
      generalize hb : x :: r = b at *
      have hbl : 0 < b.length := by rw [← hb]; simp
      rw [ih _ _ _ (by simp only [List.length_drop]; omega), writeUnit_frame _ hsound]
      intro v h1 h2
      apply writeUnit_sound _ hsound
      apply hs v
      · omega
      · simp only [List.length_drop] at h2; omega

/-- A fold whose steps each change only what `R` allows. -/
theorem foldl_rel {α β : Type} (R : α → α → Prop) (f : α → β → α) (hr : ∀ x, R x x) (ht : ∀ x y z, R x y → R y z → R x z) (h : ∀ x b, R x (f x b)) (l : List β) (a : α) :
    R a (l.foldl f a) := by
  induction l generalizing a with
  | nil => exact hr a
  | cons b l ih => exact ht _ _ _ (h a b) (ih _)

/-- What the snoop of a write may change: stream-buffer entries, and the counters of losses. -/
def Snooped (s u : State) : Prop :=
  (∀ j, u.tile j = { s.tile j with str := { (s.tile j).str with pf := (u.tile j).str.pf } }) ∧
  (∀ g : Fld, (∀ j, fldKey g ≠ fldKey (fTILE_STR_STALL_COUNT j 12)) → getF u g = getF s g) ∧
  u = { s with tiles := u.tiles, csr := u.csr }

theorem Snooped.trans {s u v : State} (h1 : Snooped s u) (h2 : Snooped u v) : Snooped s v := by
  obtain ⟨a1, b1, c1⟩ := h1
  obtain ⟨a2, b2, c2⟩ := h2
  refine ⟨fun j => ?_, fun g hg => by rw [b2 g hg, b1 g hg], ?_⟩
  · rw [a2 j, a1 j]
  · rw [c2, c1]

theorem snoopTile_only (a n : Nat) (x : Tile) : (snoopTile a n x).1 = { x with str := { x.str with pf := (snoopTile a n x).1.str.pf } } := rfl

theorem snoop_snooped (s : State) (a n : Nat) : Snooped s (snoop s a n) := by
  unfold snoop
  refine foldl_rel Snooped _ (fun x => ⟨fun _ => rfl, fun _ _ => rfl, rfl⟩) (fun _ _ _ => Snooped.trans) (fun x p => ?_) _ _
  dsimp only
  split
  · exact ⟨fun _ => rfl, fun _ _ => rfl, rfl⟩
  · have h1 : Snooped x (x.setTile p.1 (snoopTile a n (x.tile p.1)).1) := by
      refine ⟨fun j => ?_, fun g _ => rfl, rfl⟩
      by_cases hj : j = p.1
      · subst hj
        rw [tile_setTile_same]
        rfl
      · rw [tile_setTile_ne _ _ hj]
    split
    · exact h1
    · refine Snooped.trans h1 ⟨fun _ => rfl, fun g hg => ?_, rfl⟩
      exact getF_setF_ne _ _ (hg p.1)

theorem shTouch_frame (s : State) (w : Bool) (a : Nat) : shTouch s w a = { s with twin := (shTouch s w a).twin } := by
  unfold shTouch
  split
  · rfl
  · split <;> rfl
  · rfl

theorem shWatch_frame (s : State) (w : Bool) (a n : Nat) : shWatch s w a n = { s with twin := (shWatch s w a n).twin } := by
  unfold shWatch
  split
  · rfl
  · refine foldl_rel (fun s u : State => u = { s with twin := u.twin }) _ (fun _ => rfl) (fun x y z h1 h2 => ?_) (fun x k => shTouch_frame x w _) _ _
    rw [h2, h1]

/-- What a write of device memory does (R94, R253, R464), where no unit of the range is in error. -/
theorem memWriteBy_stored {s : State} {a : Nat} (w : Bool) (b : List Byte) (h : RangeClean s a b.length) : MemStored s (memWriteBy w s a b) a b := by
  have h1 := snoop_snooped s a b.length
  have h2 := shWatch_frame (snoop s a b.length) w a b.length
  have e : (shWatch (snoop s a b.length) w a b.length).mem = s.mem := by simp
  have h3 := splitUnits_sound (b.length + 1) a b (shWatch (snoop s a b.length) w a b.length) (by omega) (RangeClean_mem e h)
  refine ⟨memByte_memWriteBy w b h, ?_, ?_, ?_⟩
  · intro j
    have : ∀ j, (memWriteBy w s a b).tile j = (snoop s a b.length).tile j := by
      intro j
      rw [memWriteBy_clean w b h, h3, h2]
      rfl
    rw [this]
    exact h1.1 j
  · intro g hg _
    rw [← h1.2.1 g hg]
    apply getF_csr
    rw [memWriteBy_clean w b h, h3, h2]
  · rw [memWriteBy_clean w b h, h3, h2, h1.2.2]

theorem memWrite_stored {s : State} {a : Nat} (b : List Byte) (h : RangeClean s a b.length) : MemStored s (memWrite s a b) a b :=
  memWriteBy_stored false b h


end Sys2Proof.Machine
end

