-- ==== Sys2Proof/Laws/Eddy.lean ====
section
/-!
SUPPORT. What accesses under a cache hint do: where no error and no mode change stands in their lines, a read returns the bytes of memory
and a write stores its bytes, whatever the cache holds; and every such access keeps the canonical form of memory.
-/
namespace Sys2Proof.Machine

/-! ### What may move -/

theorem CacheMoved.refl (s : State) : CacheMoved s s := ⟨fun _ => rfl, fun _ h => h, fun _ _ => rfl, rfl⟩

theorem CacheMoved.trans {s u v : State} (h1 : CacheMoved s u) (h2 : CacheMoved u v) : CacheMoved s v := by
  obtain ⟨a1, b1, c1, d1⟩ := h1
  obtain ⟨a2, b2, c2, d2⟩ := h2
  refine ⟨fun k => (a2 k).trans (a1 k), fun w hw => b2 w (b1 w hw), fun g hg => (c2 g hg).trans (c1 g hg), ?_⟩
  rw [d2, d1]

/-- A change of the cache's own data alone: the bytes, the pending mode changes and the registers stay, no error appears outside the lines, and no line gains an error. -/
theorem CacheMoved.of_mem {s u : State} (hu : u = { s with mem := u.mem }) (hb : u.mem.bytes = s.mem.bytes) (hd : u.mem.undef = s.mem.undef)
    (hq : u.mem.quadChange = s.mem.quadChange) (hn : u.mem.net = s.mem.net) (hf : ∀ v, UnitFine s v → unitErr u v = [])
    (hl : ∀ l ∈ u.mem.eddy, l.bad = [] ∨ ∃ k ∈ s.mem.eddy, k.line = l.line ∧ k.bad = l.bad) : CacheMoved s u := by
  refine ⟨fun k => ?_, fun v hv => ⟨⟨by rw [quadSteady_congr hq]; exact hv.1.1, by rw [hn]; exact hv.1.2⟩, hf v hv, fun l hm hn => ?_⟩, fun g _ => ?_, ?_⟩
  · simp [memByte, hb, hd]
  · rcases hl l hm with h | ⟨k, hk, h1, h2⟩
    · rw [EddyLine.held, h]
      rfl
    · rw [EddyLine.held, ← h2]
      exact hv.2.2 k hk (h1.trans hn)
  · rw [hu]
    rfl
  · rw [hu]

theorem UnitFine.clean {s : State} {u : Nat} (h : UnitFine s u) : UnitClean s u := by
  refine ⟨h.1, ?_⟩
  split
  · rename_i l hl
    have h1 := List.find?_some hl
    refine h.2.2 l (List.mem_of_find?_eq_some hl) ?_
    simp only [beq_iff_eq] at h1
    omega
  · exact h.2.1

theorem LinesFine.clean {s : State} {a n : Nat} (h : LinesFine s a n) : RangeClean s a n :=
  fun u h1 h2 => (h u (by omega) (by omega)).clean

theorem LinesFine.moved {s u : State} {a n : Nat} (h : LinesFine s a n) (m : CacheMoved s u) : LinesFine u a n :=
  fun v h1 h2 => m.2.1 v (h v h1 h2)

theorem LinesFine.part {s : State} {a n b k : Nat} (h : LinesFine s a n) (h1 : a ≤ b) (h2 : b + k ≤ a + n) : LinesFine s b k :=
  fun v h3 h4 => h v (by omega) (by omega)

/-! ### The moves of the cache -/

theorem lruOf_mem {l : List EddyLine} {a : EddyLine} (h : lruOf l = some a) : a ∈ l := by
  induction l generalizing a with
  | nil => simp [lruOf] at h
  | cons b r ih =>
    cases hr : lruOf r with
    | none =>
      rw [lruOf, hr] at h
      exact List.mem_cons.mpr (.inl (Option.some.inj h).symm)
    | some c =>
      rw [lruOf, hr] at h
      dsimp only at h
      split at h
      · exact List.mem_cons.mpr (.inl (Option.some.inj h).symm)
      · exact List.mem_cons_of_mem _ (ih (by rw [hr, ← h]))

/-- Storing one unit of a line of the cache. -/
theorem storeBack_moved {s : State} {l : EddyLine} (hl : l ∈ s.mem.eddy) (i : Nat) (hi : i < 4) :
    CacheMoved s (setErr { s with mem := { s.mem with corrective := s.mem.corrective.filter (· != 4 * l.line + i) } } (4 * l.line + i)
      (if false || l.held i != [] then poisonOver (l.held i) else [])) := by
  refine CacheMoved.of_mem rfl rfl rfl rfl rfl (fun v hv => ?_) fun k hk => .inr ⟨k, hk, rfl, rfl⟩
  simp only [unitErr, setErr]
  rw [mget_mset]
  split
  · rename_i h
    have h5 := hv.2.2 l hl (by omega)
    have h4 : v % 4 = i := by omega
    rw [h4] at h5
    simp [h5]
  · exact hv.2.1

theorem writeBackLine_moved {s : State} {l : EddyLine} (hl : l ∈ s.mem.eddy) : CacheMoved s (writeBackLine s l false) := by
  unfold writeBackLine
  split
  · exact CacheMoved.refl s
  · have h : ∀ (is : List Nat) (u : State), (∀ i ∈ is, i < 4) → CacheMoved s u → u.mem.eddy = s.mem.eddy →
        CacheMoved s (is.foldl (fun s i => setErr { s with mem := { s.mem with corrective := s.mem.corrective.filter (· != 4 * l.line + i) } }
          (4 * l.line + i) (if false || l.held i != [] then poisonOver (l.held i) else [])) u) := by
      intro is
      induction is with
      | nil => exact fun u _ h _ => h
      | cons i is ih =>
        intro u hi h he
        refine ih _ (fun j hj => hi j (List.mem_cons_of_mem _ hj)) (h.trans (storeBack_moved (by rw [he]; exact hl) i (hi i List.mem_cons_self))) he
    exact h (List.range 4) s (fun i hi => List.mem_range.mp hi) (CacheMoved.refl s) rfl

theorem dropLine_moved (s : State) (n : Nat) : CacheMoved s (dropLine s n) :=
  CacheMoved.of_mem rfl rfl rfl rfl rfl (fun _ h => h.2.1) fun l hl => .inr ⟨l, (List.mem_filter.mp hl).1, rfl, rfl⟩

/-- A change of the lines' marks. -/
theorem mapLines_moved (s : State) (f : EddyLine → EddyLine) (tick : Nat) (h : ∀ l, (f l).line = l.line ∧ (f l).bad = l.bad) :
    CacheMoved s { s with mem := { s.mem with eddy := s.mem.eddy.map f, eddyTick := tick } } := by
  refine CacheMoved.of_mem rfl rfl rfl rfl rfl (fun _ h => h.2.1) fun l hl => ?_
  obtain ⟨k, hk, rfl⟩ := List.mem_map.mp hl
  exact .inr ⟨k, hk, (h k).1.symm, (h k).2.symm⟩

theorem satF_moved (s : State) (n : Nat) : CacheMoved s (satF s fMEM_EDDY_KEEP_OVER_COUNT n) :=
  ⟨fun _ => rfl, fun _ h => h, fun _ hg => getF_setF_ne s _ hg, rfl⟩

theorem keepLimit_moved (s : State) (n : Nat) : CacheMoved s (keepLimit s n) := by
  simp only [keepLimit]
  split
  · exact CacheMoved.refl s
  · split
    · exact CacheMoved.refl s
    · refine CacheMoved.trans (mapLines_moved s _ s.mem.eddyTick fun l => ?_) (satF_moved _ 1)
      split <;> simp

theorem makeRoom_moved (s : State) (n : Nat) : CacheMoved s (makeRoom s n) := by
  simp only [makeRoom]
  split
  · exact CacheMoved.refl s
  · split
    · exact CacheMoved.refl s
    · rename_i v hv
      refine CacheMoved.trans (writeBackLine_moved ?_) (dropLine_moved _ _)
      split at hv
      · rename_i w hw
        simp only [Option.some.injEq] at hv
        subst hv
        exact (List.mem_filter.mp (List.mem_of_find?_eq_some hw)).1
      · exact (List.mem_filter.mp (List.mem_filter.mp (lruOf_mem hv)).1).1

theorem allocLine_moved (s : State) (n : Nat) (k d : Bool) : CacheMoved s (allocLine s n k d []) := by
  simp only [allocLine]
  refine (makeRoom_moved s n).trans (CacheMoved.trans ?_ (keepLimit_moved _ n))
  refine CacheMoved.of_mem rfl rfl rfl rfl rfl (fun _ h => h.2.1) fun l hl => ?_
  rcases List.mem_append.mp hl with h | h
  · exact .inr ⟨l, h, rfl, rfl⟩
  · simp only [List.mem_singleton] at h
    exact .inl (by rw [h])

theorem hitLine_moved (s : State) (n h : Nat) (w : Bool) : CacheMoved s (hitLine s n h w) := by
  have hm : ∀ f : EddyLine → EddyLine, (∀ l, (f l).line = l.line ∧ (f l).bad = l.bad) →
      CacheMoved s { s with mem := { s.mem with eddy := s.mem.eddy.map f, eddyTick := s.mem.eddyTick + 1 } } := fun f hf => mapLines_moved s f _ hf
  simp only [hitLine]
  refine ite_keeps (CacheMoved s) (CacheMoved.trans (hm _ fun l => ?_) (keepLimit_moved _ n)) (hm _ fun l => ?_) <;>
  · split
    · exact ⟨rfl, rfl⟩
    · split <;> exact ⟨rfl, rfl⟩

/-! ### Reads -/

theorem memBytes_append (s : State) (a k m : Nat) : memBytes s a (k + m) = memBytes s a k ++ memBytes s (a + k) m := by
  simp [memBytes, List.range_add, Nat.add_assoc]

theorem memBytes_same {s u : State} (h : MemSame s u) (a n : Nat) : memBytes u a n = memBytes s a n := by
  simp [memBytes, h _]

theorem fetchLine_fine {s : State} {n : Nat} (h : ∀ i, i < 4 → UnitFine s (4 * n + i)) :
    fetchLine s n = ((List.range 4).map fun i => (i, memBytes s ((4 * n + i) * 64) 64, []), s) := by
  have e : ((UnitOutcome.clean == UnitOutcome.poisoned) || (UnitOutcome.clean == UnitOutcome.uncorrectable)) = false := by decide
  have h0 := readUnit_clean (h 0 (by omega)).clean
  have h1 := readUnit_clean (h 1 (by omega)).clean
  have h2 := readUnit_clean (h 2 (by omega)).clean
  have h3 := readUnit_clean (h 3 (by omega)).clean
  have hr : List.range 4 = [0, 1, 2, 3] := by decide
  simp only [fetchLine, hr, List.foldl_cons, List.foldl_nil, h0, h1, h2, h3, e, Bool.false_eq_true, if_false, List.map_cons, List.map_nil, List.nil_append, List.cons_append]

theorem lineRead_fine {s : State} {a n : Nat} (hint : Nat) (hn : 0 < n) (hw : a % 256 + n ≤ 256) (h : LinesFine s a n) :
    ∃ v, lineRead s a n hint = ⟨memBytes s a n, none, v⟩ ∧ CacheMoved s v := by
  simp only [lineRead]
  split
  · have hf := fetchLine_fine (s := s) (n := a / 256) fun i hi => h _ (by omega) (by omega)
    simp only [hf]
    have hr : List.range 4 = [0, 1, 2, 3] := by decide
    have hb : (((List.range 4).map fun i => (i, memBytes s ((4 * (a / 256) + i) * 64) 64, ([] : SMap Nat))).filter fun u => u.2.2 != []) = [] := by simp [hr]
    have hm := allocLine_moved s (a / 256) (hint == 2) false
    refine ⟨allocLine s (a / 256) (hint == 2) false [], ?_, hm⟩
    have hc := crossRange_open (s := allocLine s (a / 256) (hint == 2) false []) (a := a) (n := n) fun v h1 h2 => (hm.2.1 v (h v (by omega) (by omega))).1
    simp only [hb, List.map_nil, List.find?_nil, hc, List.head?_nil, Option.map_none]
    congr 1
    clear hc
    have hc : ((List.range 4).map fun i => cutUnit (memBytes s ((4 * (a / 256) + i) * 64) 64) (4 * (a / 256) + i) a n).flatten =
        ((List.range' (4 * (a / 256) * 64) (4 * 64)).filter fun i => decide (a ≤ i) && decide (i < a + n)).map (memByte s) := by
      have e : List.range' (4 * (a / 256) * 64) (4 * 64) = List.range' ((4 * (a / 256) + 0) * 64) 64 ++ (List.range' ((4 * (a / 256) + 1) * 64) 64 ++
          (List.range' ((4 * (a / 256) + 2) * 64) 64 ++ List.range' ((4 * (a / 256) + 3) * 64) 64)) := by
        have e1 : (4 * (a / 256) + 1) * 64 = (4 * (a / 256) + 0) * 64 + 64 := by omega
        have e2 : (4 * (a / 256) + 2) * 64 = (4 * (a / 256) + 0) * 64 + 64 + 64 := by omega
        have e3 : (4 * (a / 256) + 3) * 64 = (4 * (a / 256) + 0) * 64 + 64 + 64 + 64 := by omega
        have e0 : (4 * (a / 256) + 0) * 64 = 4 * (a / 256) * 64 := by omega
        rw [e1, e2, e3, List.range'_append_1, List.range'_append_1, List.range'_append_1, e0]
      simp only [e, hr, List.map_cons, List.map_nil, List.flatten_cons, List.flatten_nil, List.append_nil, cutUnit_eq, List.filter_append, List.map_append]
    rw [List.map_map]
    show ((List.range 4).map fun i => cutUnit (memBytes s ((4 * (a / 256) + i) * 64) 64) (4 * (a / 256) + i) a n).flatten = _
    rw [hc, filter_range'_window _ _ _ _ (by omega) (by omega)]
    simp [memBytes, List.range'_eq_map_range]
  · rw [memRead_clean h.clean]
    split
    · exact ⟨_, rfl, hitLine_moved s _ _ _⟩
    · exact ⟨s, rfl, CacheMoved.refl s⟩

/-- After the part in the first line, one line less is left. -/
theorem inLine_next (a n f : Nat) (h : 0 < n → a % 256 + n ≤ 256 * (f + 1)) :
    0 < n - inLine a n → (a + inLine a n) % 256 + (n - inLine a n) ≤ 256 * f := by
  unfold inLine
  by_cases hn : n ≤ 256 - a % 256
  · rw [Nat.min_eq_left hn]
    omega
  · rw [Nat.min_eq_right (by omega)]
    have : (a + (256 - a % 256)) % 256 = 0 := by omega
    omega

theorem readLines_fine (hint : Nat) (f : Nat) : ∀ (s : State) (a n : Nat) (acc : List (List Byte)), (0 < n → a % 256 + n ≤ 256 * f) → LinesFine s a n →
    ∃ v, readLines f s a n hint acc none = ⟨acc.reverse.flatten ++ memBytes s a n, none, v⟩ ∧ CacheMoved s v := by
  induction f with
  | zero =>
    intro s a n acc hl _
    have : n = 0 := by omega
    subst this
    exact ⟨s, by simp [readLines, memBytes], CacheMoved.refl s⟩
  | succ f ih =>
    intro s a n acc hl h
    simp only [readLines]
    split
    · rename_i h0
      subst h0
      exact ⟨s, by simp [memBytes], CacheMoved.refl s⟩
    · have hk : inLine a n ≤ n := by unfold inLine; omega
      have hk0 : 0 < inLine a n := by unfold inLine; omega
      have hk2 : a % 256 + inLine a n ≤ 256 := by unfold inLine; omega
      obtain ⟨v, hv, hm⟩ := lineRead_fine hint hk0 hk2 (h.part (Nat.le_refl a) (by omega))
      simp only [hv]
      obtain ⟨w, hw, hm2⟩ := ih v (a + inLine a n) (n - inLine a n) (memBytes s a (inLine a n) :: acc)
        (inLine_next a n f hl) ((h.part (by omega) (by omega)).moved hm)
      refine ⟨w, ?_, hm.trans hm2⟩
      rw [hw]
      have : memBytes s a n = memBytes s a (inLine a n) ++ memBytes s (a + inLine a n) (n - inLine a n) := by
        rw [← memBytes_append]
        congr 1
        omega
      rw [this, memBytes_same hm.1]
      simp

/-- Where no mode change is under way, nothing is waited for. -/
theorem reachQuad_steady {s : State} {a n : Nat} (h1 : quadSteady s (a / 64) = true) (h2 : quadSteady s ((a + n - 1) / 64) = true) :
    reachQuad s a n = (usesEddy s a || usesEddy s (a + n - 1), s) := by
  simp [reachQuad, afterChange_steady h1, afterChange_steady h2]

/-- A read under a hint whose lines hold no error returns the bytes of memory; only lines of the cache move. -/
theorem memReadH_fine {s : State} {a n : Nat} (hint : Nat) (h : LinesFine s a n) :
    ∃ v, memReadH s a n hint = ⟨memBytes s a n, none, v⟩ ∧ CacheMoved s v := by
  by_cases hn : n = 0
  · subst hn
    exact ⟨s, by simp [memReadH, memRead, memBytes], CacheMoved.refl s⟩
  · simp only [memReadH, reachQuad_steady (h (a / 64) (by omega) (by omega)).1.1 (h ((a + n - 1) / 64) (by omega) (by omega)).1.1]
    split
    · rw [memRead_clean h.clean]
      exact ⟨s, rfl, CacheMoved.refl s⟩
    · exact readLines_fine hint _ s a n [] (by omega) h

/-! ### Writes -/

theorem StoredBut.mono {l m : List Fld} {s u : State} {a : Nat} {b : List Byte} (hl : ∀ f ∈ l, f ∈ m) (h : StoredBut l s u a b) : StoredBut m s u a b := by
  refine ⟨h.1, h.2.1, fun g h1 h2 => h.2.2.1 g h1 fun hc => h2 ?_, h.2.2.2⟩
  obtain ⟨f, hf, he⟩ := List.mem_map.mp hc
  exact List.mem_map.mpr ⟨f, hl f hf, he⟩

/-- A write that moves lines before it. -/
theorem HintStored.after {s u v : State} {a : Nat} {b : List Byte} (h1 : CacheMoved s u) (h2 : HintStored u v a b) : HintStored s v a b := by
  obtain ⟨a1, b1, c1, d1⟩ := h1
  obtain ⟨a2, b2, c2, d2⟩ := h2
  have ht : ∀ j, u.tile j = s.tile j := fun j => by rw [d1]; rfl
  refine ⟨fun k => by rw [a2 k, a1 k], fun j => by rw [b2 j, ht j], fun g h1 h2 => ?_, ?_⟩
  · rw [c2 g h1 h2]
    exact c1 g (by simpa using h2)
  · rw [d2, d1]

/-- And one that moves lines after it. -/
theorem HintStored.before {s u v : State} {a : Nat} {b : List Byte} (h1 : HintStored s u a b) (h2 : CacheMoved u v) : HintStored s v a b := by
  obtain ⟨a1, b1, c1, d1⟩ := h1
  obtain ⟨a2, b2, c2, d2⟩ := h2
  have ht : ∀ j, v.tile j = u.tile j := fun j => by rw [d2]; rfl
  refine ⟨fun k => by rw [a2 k, a1 k], fun j => by rw [ht j]; exact b1 j, fun g h1 h2 => ?_, ?_⟩
  · rw [c2 g (by simpa using h2)]
    exact c1 g h1 h2
  · rw [d2, d1]

/-- Two writes of adjoining bytes are one write of both. -/
theorem HintStored.join {s u v : State} {a : Nat} {b c : List Byte} (h1 : HintStored s u a b) (h2 : HintStored u v (a + b.length) c) :
    HintStored s v a (b ++ c) := by
  obtain ⟨a1, b1, c1, d1⟩ := h1
  obtain ⟨a2, b2, c2, d2⟩ := h2
  refine ⟨fun k => ?_, fun j => ?_, fun g h1 h2 => (c2 g h1 h2).trans (c1 g h1 h2), ?_⟩
  · rw [a2 k, a1 k]
    simp only [List.length_append, List.getD_eq_getElem?_getD]
    by_cases h : a + b.length ≤ k ∧ k < a + b.length + c.length
    · rw [if_pos h, if_pos (by omega), List.getElem?_append_right (by omega)]
      congr 2
      omega
    · rw [if_neg h]
      by_cases h3 : a ≤ k ∧ k < a + b.length
      · rw [if_pos h3, if_pos (by omega), List.getElem?_append_left (by omega)]
      · rw [if_neg h3, if_neg (by omega)]
  · rw [b2 j, b1 j]
  · rw [d2, d1]

theorem writeUnit_fine {s : State} {a : Nat} (b : List Byte) (h : UnitFine s (a / 64)) {v : Nat} (hv : UnitFine s v) : UnitFine (writeUnit s a b) v := by
  obtain ⟨e, l, hw, h1, f, h2, h3⟩ := writeUnit_clean b h.clean
  obtain ⟨v1, v2, v3⟩ := hv
  rw [hw, h2]
  refine ⟨v1, ?_, fun l hl hn => ?_⟩
  · simp only [unitErr] at v2 ⊢
    rcases h1 with h1 | h1
    · rw [h1]; exact v2
    · rw [h1, mget_mset]
      split
      · rfl
      · exact v2
  · obtain ⟨k, hk, rfl⟩ := List.mem_map.mp hl
    have := v3 k hk ((h3 k).1.symm.trans hn)
    simp only [EddyLine.held, (h3 k).2]
    exact this

theorem UnitFine_mem {s u : State} (h : u.mem = s.mem) {v : Nat} (hv : UnitFine s v) : UnitFine u v := by
  simpa [UnitFine, UnitOpen, quadSteady, unitErr, h] using hv

theorem writeUnits_fine (f : Nat) : ∀ (a : Nat) (b : List Byte) (s : State), (∀ u, a / 64 ≤ u → u * 64 < a + b.length → UnitFine s u) → ∀ v, UnitFine s v →
    UnitFine ((splitUnits f a b).foldl (fun s p => writeUnit s p.1 p.2) s) v := by
  induction f with
  | zero => exact fun a b s _ v hv => hv
  | succ f ih =>
    intro a b s hs v hv
    cases b with
    | nil => exact hv
    | cons x r =>
      simp only [splitUnits, List.foldl_cons]
      have h0 : UnitFine s (a / 64) := hs _ (by omega) (by simp only [List.length_cons]; omega)
      generalize x :: r = b at *
      refine ih _ _ _ (fun u h1 h2 => writeUnit_fine _ h0 (hs u (by omega) ?_)) v (writeUnit_fine _ h0 hv)
      simp only [List.length_drop] at h2
      omega

theorem memWriteBy_fine {s : State} {a : Nat} (w : Bool) (b : List Byte) (h : ∀ u, a / 64 ≤ u → u * 64 < a + b.length → UnitFine s u) {v : Nat}
    (hv : UnitFine s v) : UnitFine (memWriteBy w s a b) v := by
  have e : (shWatch (snoop s a b.length) w a b.length).mem = s.mem := by simp
  rw [memWriteBy_clean w b fun u h1 h2 => (h u h1 h2).clean]
  exact writeUnits_fine _ a b _ (fun u h1 h2 => UnitFine_mem e (h u h1 h2)) v (UnitFine_mem e hv)

/-- A write of one line under a hint. -/
theorem lineWrite_stored {s : State} {a : Nat} (w : Bool) (b : List Byte) (hint : Nat) (h : LinesFine s a b.length) :
    HintStored s (lineWrite w s a b hint) a b ∧ ∀ v, UnitFine s v → UnitFine (lineWrite w s a b hint) v := by
  have hw : ∀ u, LinesFine u a b.length → HintStored u (memWriteBy w u a b) a b ∧ ∀ v, UnitFine u v → UnitFine (memWriteBy w u a b) v := fun u hu =>
    ⟨(memWriteBy_stored w b hu.clean).mono (by simp), fun v hv => memWriteBy_fine w b (fun x h1 h2 => hu x (by omega) (by omega)) hv⟩
  simp only [lineWrite]
  split
  · have hm := allocLine_moved s (a / 256) (hint == 2) true
    obtain ⟨h1, h2⟩ := hw _ (h.moved hm)
    exact ⟨HintStored.after hm h1, fun v hv => h2 v (hm.2.1 v hv)⟩
  · obtain ⟨h1, h2⟩ := hw s h
    split
    · have hm := hitLine_moved (memWriteBy w s a b) (a / 256) hint true
      exact ⟨h1.before hm, fun v hv => hm.2.1 v (h2 v hv)⟩
    · exact ⟨h1, h2⟩

theorem HintStored.nil (s : State) (a : Nat) : HintStored s s a [] :=
  ⟨fun k => by rw [if_neg (by simp only [List.length_nil]; omega)], fun _ => rfl, fun _ _ _ => rfl, rfl⟩

theorem writeLines_stored (w : Bool) (hint : Nat) (f : Nat) : ∀ (s : State) (a : Nat) (b : List Byte), (0 < b.length → a % 256 + b.length ≤ 256 * f) →
    LinesFine s a b.length → HintStored s (writeLines w f s a b hint) a b ∧ ∀ v, UnitFine s v → UnitFine (writeLines w f s a b hint) v := by
  induction f with
  | zero =>
    intro s a b hl _
    have : b = [] := List.length_eq_zero_iff.mp (by omega)
    subst this
    exact ⟨HintStored.nil s a, fun _ hv => hv⟩
  | succ f ih =>
    intro s a b hl h
    simp only [writeLines]
    split
    · rename_i h0
      simp only [List.isEmpty_iff] at h0
      subst h0
      exact ⟨HintStored.nil s a, fun _ hv => hv⟩
    · rename_i h0
      have hb : 0 < b.length := by
        cases b with
        | nil => simp at h0
        | cons x r => simp
      have hk : inLine a b.length ≤ b.length := by unfold inLine; omega
      have ht : (b.take (inLine a b.length)).length = inLine a b.length := by simp [hk]
      obtain ⟨h1, h2⟩ := lineWrite_stored (s := s) (a := a) w (b.take (inLine a b.length)) hint (by rw [ht]; exact h.part (Nat.le_refl a) (by omega))
      obtain ⟨h3, h4⟩ := ih (lineWrite w s a (b.take (inLine a b.length)) hint) (a + inLine a b.length) (b.drop (inLine a b.length))
        (by simp only [List.length_drop]; exact inLine_next a b.length f hl)
        (by simp only [List.length_drop]; exact fun v hv1 hv2 => h2 v (h v (by omega) (by omega)))
      refine ⟨?_, fun v hv => h4 v (h2 v hv)⟩
      have := h1.join (c := b.drop (inLine a b.length)) (by rw [ht]; exact h3)
      rwa [List.take_append_drop] at this

/-- A write under a hint whose lines hold no error stores its bytes. -/
theorem memWriteH_stored {s : State} {a : Nat} (w : Bool) (b : List Byte) (hint : Nat) (h : LinesFine s a b.length) :
    HintStored s (memWriteH w s a b hint) a b ∧ ∀ v, UnitFine s v → UnitFine (memWriteH w s a b hint) v := by
  have h0 : HintStored s (memWriteBy w s a b) a b ∧ ∀ v, UnitFine s v → UnitFine (memWriteBy w s a b) v :=
    ⟨(memWriteBy_stored w b h.clean).mono (by simp), fun v hv => memWriteBy_fine w b (fun x h1 h2 => h x (by omega) (by omega)) hv⟩
  by_cases hb : b.length = 0
  · have : b = [] := List.length_eq_zero_iff.mp hb
    subst this
    simpa [memWriteH] using h0
  · simp only [memWriteH, reachQuad_steady (h (a / 64) (by omega) (by omega)).1.1 (h ((a + b.length - 1) / 64) (by omega) (by omega)).1.1]
    split
    · exact h0
    · exact writeLines_stored w hint _ s a b (by omega) h

/-! ### The canonical form -/

theorem writeBackLine_wf (s : State) (l : EddyLine) (p : Bool) (h : Memory.wf s.mem = true) : Memory.wf (writeBackLine s l p).mem = true := by
  unfold writeBackLine
  split
  · exact h
  · exact foldl_keeps (fun s : State => Memory.wf s.mem = true) _ _ _ h fun x i hx => hx

theorem keepLimit_wf (s : State) (n : Nat) (h : Memory.wf s.mem = true) : Memory.wf (keepLimit s n).mem = true := by
  simp only [keepLimit]
  split
  · exact h
  · split
    · exact h
    · exact h

theorem makeRoom_wf (s : State) (n : Nat) (h : Memory.wf s.mem = true) : Memory.wf (makeRoom s n).mem = true := by
  simp only [makeRoom]
  split
  · exact h
  · split
    · exact h
    · exact writeBackLine_wf s _ false h

theorem allocLine_wf (s : State) (n : Nat) (k d : Bool) (p : SMap (SMap Nat)) (h : Memory.wf s.mem = true) : Memory.wf (allocLine s n k d p).mem = true :=
  keepLimit_wf _ n (makeRoom_wf s n h)

theorem hitLine_wf (s : State) (n k : Nat) (w : Bool) (h : Memory.wf s.mem = true) : Memory.wf (hitLine s n k w).mem = true := by
  simp only [hitLine]
  split
  · exact keepLimit_wf _ n h
  · exact h

theorem fetchLine_wf (s : State) (n : Nat) (h : Memory.wf s.mem = true) : Memory.wf (fetchLine s n).2.mem = true := by
  unfold fetchLine
  exact foldl_keeps (fun x : List (Nat × List Byte × SMap Nat) × State => Memory.wf x.2.mem = true) _ _ _ h fun x i hx => readUnit_wf x.2 _ false hx

theorem lineRead_wf (s : State) (a n k : Nat) (h : Memory.wf s.mem = true) : Memory.wf (lineRead s a n k).s.mem = true := by
  have h1 := memRead_wf s a n h
  have h2 := fetchLine_wf s (a / 256) h
  simp only [lineRead]
  generalize memRead s a n = r at h1
  generalize fetchLine s (a / 256) = f at h2
  split
  · exact crossRange_wf _ _ _ (allocLine_wf _ _ _ _ _ h2)
  · split
    · exact hitLine_wf _ _ _ _ h1
    · exact h1

theorem lineWrite_wf (w : Bool) (s : State) (a : Nat) (b : List Byte) (k : Nat) (h : Memory.wf s.mem = true) :
    Memory.wf (lineWrite w s a b k).mem = true := by
  simp only [lineWrite]
  split
  · exact memWriteBy_wf w _ a b (allocLine_wf s _ _ _ _ h)
  · split
    · exact hitLine_wf _ _ _ _ (memWriteBy_wf w s a b h)
    · exact memWriteBy_wf w s a b h

theorem readLines_wf (k f : Nat) : ∀ (s : State) (a n : Nat) (acc : List (List Byte)) (bad : Option Nat), Memory.wf s.mem = true →
    Memory.wf (readLines f s a n k acc bad).s.mem = true := by
  induction f with
  | zero => exact fun s a n acc bad h => h
  | succ f ih =>
    intro s a n acc bad h
    simp only [readLines]
    split
    · exact h
    · exact ih _ _ _ _ _ (lineRead_wf s a _ k h)

theorem writeLines_wf (w : Bool) (k f : Nat) : ∀ (s : State) (a : Nat) (b : List Byte), Memory.wf s.mem = true →
    Memory.wf (writeLines w f s a b k).mem = true := by
  induction f with
  | zero => exact fun s a b h => h
  | succ f ih =>
    intro s a b h
    simp only [writeLines]
    split
    · exact h
    · exact ih _ _ _ (lineWrite_wf w s a _ k h)

/-- Every access under a hint keeps the canonical form of memory. -/
theorem memReadH_wf (s : State) (a n k : Nat) (h : Memory.wf s.mem = true) : Memory.wf (memReadH s a n k).s.mem = true := by
  have h1 : Memory.wf (reachQuad s a n).2.mem = true := afterChange_wf _ _ (afterChange_wf s _ h)
  simp only [memReadH]
  split
  · exact memRead_wf s a n h
  · exact readLines_wf k _ _ a n [] none h1

theorem memWriteH_wf (w : Bool) (s : State) (a : Nat) (b : List Byte) (k : Nat) (h : Memory.wf s.mem = true) : Memory.wf (memWriteH w s a b k).mem = true := by
  have h1 : Memory.wf (reachQuad s a b.length).2.mem = true := afterChange_wf _ _ (afterChange_wf s _ h)
  simp only [memWriteH]
  split
  · exact memWriteBy_wf w s a b h
  · exact writeLines_wf w k _ _ a b h1

end Sys2Proof.Machine
end

