-- ==== Sys2Proof/Laws/Fabric.lean ====
section
/-!
SUPPORT. What sending and injecting packets may change.
-/
namespace Sys2Proof.Machine

/-- What the sending side of the fabric may change: the fabric's own state, the registers, interrupts and trace records, what
leaves the module, the running transfers, their requests and the stream-buffer entries of tiles, and the messages on their way; but no register of the
PWR_, CLK_ and PKG_ blocks. -/
def Pumped (s u : State) : Prop :=
  (∀ j, u.tile j = { s.tile j with str := { (s.tile j).str with run := (u.tile j).str.run, pf := (u.tile j).str.pf, loose := (u.tile j).str.loose } }) ∧
  u = { s with
    csr := u.csr, wire := u.wire, host := u.host, obs := u.obs, tiles := u.tiles, fab := u.fab
    mail := { s.mail with msgs := u.mail.msgs, sends := u.mail.sends } } ∧
  ∀ g : Fld, 0x200000 ≤ g.off → g.off < 0x400000 → g.lo < 64 → getF u g = getF s g

theorem Pumped.refl (s : State) : Pumped s s := ⟨fun _ => rfl, rfl, fun _ _ _ _ => rfl⟩

theorem Pumped.trans {s u v : State} (h1 : Pumped s u) (h2 : Pumped u v) : Pumped s v := by
  refine ⟨fun j => ?_, ?_, fun g a b c => by rw [h2.2.2 g a b c, h1.2.2 g a b c]⟩
  · rw [h2.1 j, h1.1 j]
  · rw [h2.2.1, h1.2.1]

/-- An update that leaves tiles alone. -/
theorem Pumped.of {s u : State} (h1 : u.tiles = s.tiles)
    (h2 : u = { s with
      csr := u.csr, wire := u.wire, host := u.host, obs := u.obs, tiles := u.tiles, fab := u.fab
      mail := { s.mail with msgs := u.mail.msgs, sends := u.mail.sends } })
    (h3 : ∀ g : Fld, 0x200000 ≤ g.off → g.off < 0x400000 → g.lo < 64 → getF u g = getF s g) : Pumped s u :=
  ⟨fun j => by rw [tile_tiles h1 j], h2, h3⟩

/-- An update that leaves tiles and registers alone. -/
theorem Pumped.of_csr {s u : State} (h1 : u.tiles = s.tiles) (h3 : u.csr = s.csr)
    (h2 : u = { s with
      csr := u.csr, wire := u.wire, host := u.host, obs := u.obs, tiles := u.tiles, fab := u.fab
      mail := { s.mail with msgs := u.mail.msgs, sends := u.mail.sends } }) : Pumped s u :=
  .of h1 h2 fun g _ _ _ => getF_csr h3 g

/-- Two fields at different offsets have different keys. -/
theorem fldKey_off {f g : Fld} (hf : f.lo < 64) (hg : g.lo < 64) (h : g.off ≠ f.off) : fldKey g ≠ fldKey f := by
  simp only [fldKey]
  omega

theorem setF_pumped (s : State) (f : Fld) (v : Nat) (hf : 0x400000 ≤ f.off) (hl : f.lo < 64) : Pumped s (setF s f v) :=
  .of rfl rfl fun g _ b c => getF_setF_ne _ _ (fldKey_off hl c (by omega))

theorem addF_pumped (s : State) (f : Fld) (v : Nat) (hf : 0x400000 ≤ f.off) (hl : f.lo < 64) : Pumped s (addF s f v) :=
  setF_pumped s f _ hf hl

/-- A trace record changes no register but its counter of losses. -/
theorem getF_postTrace (s : State) (a b c d : Nat) {g : Fld} (h : fldKey g ≠ fldKey fOBS_TRACE_LOST_COUNT) :
    getF (postTrace s a b c d) g = getF s g := by
  simp only [postTrace]
  split
  · split
    · rfl
    · exact getF_setF_ne _ _ h
  · rfl

/-- A leaf changes its own field and the counter of lost records. -/
theorem getF_setLeaf (s : State) (i k : Nat) {g : Fld} (h1 : fldKey g ≠ fldKey (fINT_CAUSE_LEAF i)) (h2 : fldKey g ≠ fldKey fOBS_TRACE_LOST_COUNT) :
    getF (setLeaf s i k) g = getF s g := by
  simp only [setLeaf]
  split
  · rfl
  · rw [getF_csr (edge_csr _ _), getF_postTrace _ _ _ _ _ h2, getF_setF_ne _ _ h1]

theorem mirrorOf_lt {off i b : Nat} (h : mirrorOf off = some (i, b)) : i < 12 := by
  simp only [mirrorOf] at h
  repeat' split at h
  all_goals simp at h
  all_goals omega

/-- Raising a source bit changes its own field, a leaf and the counter of lost records. -/
theorem getF_raise (s : State) (f : Fld) {g : Fld} (h0 : fldKey g ≠ fldKey f) (h1 : ∀ i, i < 12 → fldKey g ≠ fldKey (fINT_CAUSE_LEAF i))
    (h2 : fldKey g ≠ fldKey fOBS_TRACE_LOST_COUNT) : getF (raise s f) g = getF s g := by
  simp only [raise]
  split
  · rename_i i b hm
    rw [getF_setLeaf _ _ _ (h1 i (mirrorOf_lt hm)) h2, getF_setF_ne _ _ h0]
  · exact getF_setF_ne _ _ h0

theorem raise_pumped (s : State) (f : Fld) (hf : 0x400000 ≤ f.off) (hl : f.lo < 64) : Pumped s (raise s f) := by
  refine .of (by simp) ?_ fun g a b c => getF_raise _ _ (fldKey_off hl c (by omega)) ?_ ?_
  · ext1 <;> simp
  · intro i hi
    simp only [fldKey, fINT_CAUSE_LEAF]
    omega
  · simp only [fldKey, fOBS_TRACE_LOST_COUNT]
    omega

theorem onRun_pumped (s : State) (t no : Nat) (f : StrRun → StrRun) : Pumped s (onRun s t no f) := by
  refine ⟨fun j => ?_, rfl, fun _ _ _ _ => rfl⟩
  by_cases h : j = t
  · subst h
    simp [onRun]
  · simp [onRun, tile_onTile_ne _ _ h]

theorem failRun_pumped (s : State) (t no code addr : Nat) : Pumped s (failRun s t no code addr) := onRun_pumped s t no _

theorem onMsg_pumped (s : State) (no : Nat) (f : OutMsg → OutMsg) : Pumped s (onMsg s no f) := .of_csr rfl rfl rfl

theorem notLoose_pumped (s : State) (t id : Nat) : Pumped s (notLoose s t id) := by
  refine ⟨fun j => ?_, rfl, fun _ _ _ _ => rfl⟩
  by_cases h : j = t
  · subst h
    simp [notLoose]
  · simp [notLoose, tile_onTile_ne _ _ h]

theorem notPending_pumped (s : State) (t no id : Nat) : Pumped s (notPending s t no id) :=
  (notLoose_pumped s t id).trans (onRun_pumped _ t no _)

theorem dropEntry_pumped (s : State) (t slot addr : Nat) : Pumped s (dropEntry s t slot addr) := by
  simp only [dropEntry]
  split
  · exact .refl s
  · refine Pumped.trans ?_ (addF_pumped _ _ _ (by simp only [fTILE_STR_STALL_COUNT]; omega) (by simp [fTILE_STR_STALL_COUNT]))
    refine ⟨fun j => ?_, rfl, fun _ _ _ _ => rfl⟩
    by_cases h : j = t
    · subst h
      simp
    · simp [tile_setTile_ne _ _ h]

theorem pktLost_pumped (s : State) (o : OutPkt) : Pumped s (pktLost s o) := by
  simp only [pktLost]
  split
  · exact (notPending_pumped _ _ _ _).trans (failRun_pumped _ _ _ _ _)
  · exact (notLoose_pumped _ _ _).trans (dropEntry_pumped _ _ _ _)
  · exact ((onMsg_pumped s _ _).trans (setF_pumped _ _ _ (by simp only [fMBX_ERR_UNREACH]; omega) (by simp [fMBX_ERR_UNREACH]))).trans
      (raise_pumped _ _ (by decide) (by decide))
  · exact .of_csr rfl rfl rfl
  · exact .of_csr rfl rfl rfl
  · exact .refl s

theorem noRoute_pumped (s : State) (o : OutPkt) : Pumped s (noRoute s o) :=
  ((raise_pumped s _ (by decide) (by decide)).trans (addF_pumped _ _ _ (by decide) (by decide))).trans (pktLost_pumped _ _)

theorem sendTx_pumped (s : State) (k i : Nat) : Pumped s (sendTx s k i) := by
  simp only [sendTx]
  split
  · exact .refl s
  · split
    · exact .refl s
    · exact .of_csr rfl rfl rfl

theorem sendHeld_pumped (f : Nat) (s : State) (k : Nat) : Pumped s (sendHeld f s k) := by
  induction f generalizing s with
  | zero => exact .refl s
  | succ f ih =>
    simp only [sendHeld]
    split
    · exact .refl s
    · exact (sendTx_pumped s _ _).trans (ih _)

theorem transmit_pumped (s : State) (k : Nat) (p : Packet) (port : Option Nat) : Pumped s (transmit s k p port) := by
  simp only [transmit]
  exact (show Pumped s (setHop s k _) from .of_csr rfl rfl rfl).trans (sendHeld_pumped _ _ _)

theorem ready_pumped (s : State) (o : PktFor) (p : Packet) : Pumped s (ready s o p) := .of_csr rfl rfl rfl

theorem inject_pumped (s : State) (o : OutPkt) : Pumped s (inject s o) := by
  simp only [inject]
  split
  · exact noRoute_pumped s o
  · refine Pumped.trans ?_ (transmit_pumped _ _ _ _)
    have h0 : Pumped s (if o.p.cls = 1 then s else setRate s o.p.dest
        { rateOf s o.p.dest with nextFree := max s.now (rateOf s o.p.dest).nextFree + rateTime (rateNow s (rateOf s o.p.dest)) (32 + o.p.payload.length) }) := by
      split
      · exact .refl s
      · exact .of_csr rfl rfl rfl
    refine Pumped.trans h0 ?_
    have key : ∀ (a w : State) (fb : Bool), Pumped a w → Pumped a (if fb then addF (addF w (fCMP_FAB_EVENT_COUNT 0) 1) (fOPT_FAB_EVENT_COUNT 5) 1
        else addF w (fCMP_FAB_EVENT_COUNT 0) 1) := by
      intro a w fb hw
      have h1 := hw.trans (addF_pumped w (fCMP_FAB_EVENT_COUNT 0) 1 (by decide) (by decide))
      split
      · exact h1.trans (addF_pumped _ (fOPT_FAB_EVENT_COUNT 5) 1 (by decide) (by decide))
      · exact h1
    exact key _ _ _ (.of_csr rfl rfl rfl)

theorem pumpWait_pumped (f : Nat) (s : State) (l : List OutPkt) : Pumped s (pumpWait f s l) := by
  induction f generalizing s l with
  | zero => exact .refl s
  | succ f ih =>
    cases l with
    | nil => exact .refl s
    | cons o l =>
      simp only [pumpWait]
      split
      · exact ih _ _
      · split
        · refine Pumped.trans (Pumped.trans ?_ (inject_pumped _ o)) (ih _ _)
          exact .of_csr rfl rfl rfl
        · split
          · exact Pumped.trans (Pumped.trans (addF_pumped _ _ _ (by decide) (by decide)) (.of_csr rfl rfl rfl)) (ih _ _)
          · exact ih _ _

/-- What injecting the waiting packets may change. -/
theorem pump_pumped (s : State) : Pumped s (pump s) := pumpWait_pumped _ _ _

end Sys2Proof.Machine
end

