-- ==== Sys2Proof/Laws/Tile.lean ====
section
/-!
SUPPORT. What the shared operations of a tile do: issue by the control core, traps, the start of a queue's head.
-/
namespace Sys2Proof.Machine

theorem isLive_running {s : State} {t : Nat} (h : isLive s t = true) : isRunning s t = true := by
  simp [isLive] at h
  exact h.1

theorem isLive_not_aborting {s : State} {t : Nat} (h : isLive s t = true) : (s.tile t).aborting = false := by
  simp [isLive] at h
  exact h.2

/-- In a live task a unit acts as it always does. -/
theorem sameCycle_live {s : State} {t unit : Nat} (f : State → State) (h : isLive s t = true) : sameCycle s t unit f = f s := by
  simp [sameCycle, isLive_not_aborting h]

/-- The core executes the instruction at its pc. -/
theorem coreStep_ready {s : State} {t : Nat} {w : Word} {reads : List Nat} (body : State → Tile → State) (h : CoreReady s t w reads) :
    coreStep s t w reads body = body s (s.tile t) := by
  obtain ⟨h1, h2, h3, h4, h5, h6, h7, h8, h9⟩ := h
  simp only [coreStep, sameCycle_live _ h1]
  simp [h1, h2, h3, h4, h5, h6, h7, h8, h9]

/-- Replacing tile t is all that setTile does. -/
theorem setTile_becomes (s : State) (t : Nat) (x : Tile) : TileBecomes s (s.setTile t x) t x :=
  ⟨tile_setTile_same s t x, fun _ h => tile_setTile_ne s x h, rfl⟩

/-- The instruction changes tile t and moves past itself. -/
theorem advance_becomes (s : State) (t : Nat) (x : Tile) :
    TileBecomes s (advance (s.setTile t x) t) t { x with pc := (x.pc + 8) % 0x200000 } := by
  refine ⟨?_, ?_, rfl⟩
  · simp [advance]
  · intro j h
    simp [advance, tile_onTile_ne _ _ h, tile_setTile_ne _ _ h]

theorem advance_becomes' (s : State) (t : Nat) :
    TileBecomes s (advance s t) t { s.tile t with pc := pcNext (s.tile t) } := by
  refine ⟨?_, ?_, rfl⟩
  · simp [advance, pcNext]
  · intro j h
    simp [advance, tile_onTile_ne _ _ h]

@[simp] theorem writeS_pc (x : Tile) (n : Nat) (v : Word) : (writeS x n v).pc = x.pc := by
  simp only [writeS]
  split <;> rfl

/-- A core instruction whose only effect is one s register. -/
theorem coreWrite_ready {s : State} {t : Nat} {w : Word} {reads : List Nat} {sd : Nat} (f : Tile → Word) {i : Instr}
    (hi : exec i s = .next (coreWrite s t w reads sd f)) (h : CoreReady s t w (sd :: reads)) : CoreGives i s t sd (f (s.tile t)) := by
  refine ⟨_, hi, ?_⟩
  simp only [coreWrite, coreStep_ready _ h]
  have := advance_becomes s t (writeS (s.tile t) sd (f (s.tile t)))
  simpa [pcNext] using this

/-- The first trap of a live task. -/
theorem trap_taken {s : State} {t : Nat} (unit code pc info : Nat) (h : isLive s t = true) (hu : unit < 8) (hc : code < 256) :
    TrapTaken s (trap s t unit code pc info) t unit code pc info := by
  have h1 := isLive_running h
  have h2 := isLive_not_aborting h
  simp only [trap, h1, h2]
  simp only [Bool.not_true, Bool.false_eq_true, if_false]
  refine ⟨?_, ?_, ?_, ?_, ?_, ?_, ?_, ?_, ?_⟩
  · simp only [setFs_cons, setFs_nil, getF_onTile]
    rw [getF_setF_ne _ _ (by simp [fldKey, fTILE_TRAP_CAUSE_VALID, fTILE_TRAP_INFO_INFO] <;> omega),
      getF_setF_ne _ _ (by simp [fldKey, fTILE_TRAP_CAUSE_VALID, fTILE_TRAP_PC_PC] <;> omega),
      getF_setF_ne _ _ (by simp [fldKey, fTILE_TRAP_CAUSE_VALID, fTILE_TRAP_CAUSE_CODE]),
      getF_setF_ne _ _ (by simp [fldKey, fTILE_TRAP_CAUSE_VALID, fTILE_TRAP_CAUSE_UNIT]), getF_setF_same]
    simp [fTILE_TRAP_CAUSE_VALID]
  · simp only [setFs_cons, setFs_nil, getF_onTile]
    rw [getF_setF_ne _ _ (by simp [fldKey, fTILE_TRAP_CAUSE_UNIT, fTILE_TRAP_INFO_INFO] <;> omega),
      getF_setF_ne _ _ (by simp [fldKey, fTILE_TRAP_CAUSE_UNIT, fTILE_TRAP_PC_PC] <;> omega),
      getF_setF_ne _ _ (by simp [fldKey, fTILE_TRAP_CAUSE_UNIT, fTILE_TRAP_CAUSE_CODE]), getF_setF_same]
    simp [fTILE_TRAP_CAUSE_UNIT]
    omega
  · simp only [setFs_cons, setFs_nil, getF_onTile]
    rw [getF_setF_ne _ _ (by simp [fldKey, fTILE_TRAP_CAUSE_CODE, fTILE_TRAP_INFO_INFO] <;> omega),
      getF_setF_ne _ _ (by simp [fldKey, fTILE_TRAP_CAUSE_CODE, fTILE_TRAP_PC_PC] <;> omega), getF_setF_same]
    simp [fTILE_TRAP_CAUSE_CODE]
    omega
  · simp only [setFs_cons, setFs_nil, getF_onTile]
    rw [getF_setF_ne _ _ (by simp [fldKey, fTILE_TRAP_PC_PC, fTILE_TRAP_INFO_INFO] <;> omega), getF_setF_same]
    simp [fTILE_TRAP_PC_PC]
  · simp [fTILE_TRAP_INFO_INFO]
  · intro g hg
    simp only [trapFields, List.map_cons, List.map_nil, List.mem_cons, List.not_mem_nil, or_false, not_or] at hg
    simp [getF_setF, hg]
  · have hk : ∀ f ∈ trapFields t, fldKey (fCLK_DIE_FCODE (dieOf t)) ≠ fldKey f := by
      intro f hf
      simp only [trapFields, List.mem_cons, List.not_mem_nil, or_false] at hf
      rcases hf with rfl | rfl | rfl | rfl | rfl <;>
        simp [fldKey, fCLK_DIE_FCODE, dieOf, fTILE_TRAP_CAUSE_VALID, fTILE_TRAP_CAUSE_UNIT, fTILE_TRAP_CAUSE_CODE, fTILE_TRAP_PC_PC,
          fTILE_TRAP_INFO_INFO] <;> omega
    simp only [trapFields, List.forall_mem_cons] at hk
    simp [cyclesOf, tileMHz, getF_setF, hk]
  · intro j hj
    simp [tile_onTile_ne _ _ hj]
  · simp [State.onTile, State.setTile, setF]

/-! ### The start of a queue's head -/

@[simp] theorem getQueue_setQueue (x : Tile) (e : Engine) (q : List QEntry) : getQueue (setQueue x e q) e = q := by cases e <;> rfl

@[simp] theorem setQueue_setQueue (x : Tile) (e : Engine) (q r : List QEntry) : setQueue (setQueue x e q) e r = setQueue x e r := by
  cases e <;> rfl

@[simp] theorem getQueue_setTk (x : Tile) (e : Engine) (n : Nat) (l : List (Nat × Nat)) : getQueue (setTk x n l) e = getQueue x e := by
  cases e <;> rfl

/-- The instruction that an engine finds at its head is the first of its queue. -/
theorem headOf_queue {s : State} {t : Nat} {e : Engine} {maj min : Nat} {h : QEntry} (hh : headOf s t e maj min = some h) :
    getQueue (s.tile t) e = h :: (getQueue (s.tile t) e).tail := by
  simp only [headOf] at hh
  split at hh
  · simp at hh
  · split at hh
    · simp at hh
    · rename_i q l hq
      split at hh
      · rw [hq]
        simp at hh
        simp [hh]
      · simp at hh

/-- What the wait of a head's token changes once it is served: the counter and the head itself, of tile t alone. -/
theorem takeToken_true {s s1 : State} {t : Nat} {e : Engine} {h : QEntry} (hq : getQueue (s.tile t) e = h :: (getQueue (s.tile t) e).tail)
    (ht : takeToken s t e h = (true, s1)) :
    TileBecomes s s1 t (s1.tile t) ∧
    ∃ k : QEntry, k.word = h.word ∧ k.pc = h.pc ∧ k.sregs = h.sregs ∧ k.held = h.held ∧
      s1.tile t = setQueue { s.tile t with tk := (s1.tile t).tk } e (k :: (getQueue (s.tile t) e).tail) := by
  simp only [takeToken] at ht
  split at ht
  · simp only [Prod.mk.injEq, true_and] at ht
    subst ht
    refine ⟨⟨rfl, fun _ _ => rfl, rfl⟩, h, rfl, rfl, rfl, rfl, ?_⟩
    rw [← hq]
    cases e <;> rfl
  · split at ht
    · simp only [Prod.mk.injEq, true_and] at ht
      subst ht
      refine ⟨⟨rfl, fun j hj => by rw [tile_onTile_ne _ _ hj], rfl⟩, { h with tokenTaken := true, waitFrom := none }, rfl, rfl, rfl, rfl, ?_⟩
      rw [tile_onTile_same]
      have : getQueue (tkSub (s.tile t) (wWTK h.word) 1) e = h :: (getQueue (s.tile t) e).tail := by
        rw [tkSub, getQueue_setTk]
        exact hq
      rw [onHead, this]
      cases e <;> rfl
    · simp at ht

/-- What starting the head of a queue means. -/
theorem engineStart_starts {s s1 : State} {t : Nat} {e : Engine} {maj min : Nat} {h : QEntry} (body : QEntry → State → Option State)
    (hs : Starts s t e maj min h s1) :
    engineStart s t e maj min body = (match body h (popHead s1 t e) with | some s2 => s2 | none => s1) := by
  obtain ⟨h1, h2, h3⟩ := hs
  simp only [engineStart, sameCycle_live _ h1, h2, h3] <;> (cases body h (popHead s1 t e) <;> rfl)

/-- The state after the wait of the head, without the head. -/
theorem popHead_starts {s s1 : State} {t : Nat} {e : Engine} {maj min : Nat} {h : QEntry} (hs : Starts s t e maj min h s1) :
    TileBecomes s (popHead s1 t e) t (setQueue { s.tile t with tk := (s1.tile t).tk } e (getQueue (s.tile t) e).tail) := by
  obtain ⟨h1, h2, h3⟩ := hs
  obtain ⟨hb, k, -, -, -, -, hk⟩ := takeToken_true (headOf_queue h2) h3
  refine ⟨?_, fun j hj => ?_, ?_⟩
  · rw [popHead, tile_onTile_same, hk]
    simp only [getQueue_setQueue, setQueue_setQueue, List.tail_cons]
    cases e <;> rfl
  · rw [popHead, tile_onTile_ne _ _ hj, hb.2.1 j hj]
  · have := hb.2.2
    rw [popHead, State.onTile, State.setTile, this]

/-! ### Signals -/

theorem tkCount_setTk (x : Tile) (n j : Nat) (l : List (Nat × Nat)) :
    tkCount (setTk x n l) j = if j = n then l.foldl (fun a p => a + p.2) 0 else tkCount x j := by
  simp only [tkCount, setTk, mget_mset]
  split <;> rfl

/-- A trap changes no counter and no queue. -/
theorem trap_tile (s : State) (t unit code pc info j : Nat) :
    ∃ a b c, (trap s t unit code pc info).tile j = { s.tile j with aborting := a, trapTime := b, trapCycles := c } := by
  simp only [trap]
  split
  · exact ⟨_, _, _, rfl⟩
  · split
    · split <;> exact ⟨_, _, _, by simp; rfl⟩
    · by_cases h : j = t
      · subst h
        exact ⟨_, _, _, by rw [tile_onTile_same, tile_setFs]⟩
      · exact ⟨_, _, _, by rw [tile_onTile_ne _ _ h, tile_setFs]⟩

/-- A trap changes registers and the tile, and nothing else. -/
theorem trap_frame (s : State) (t unit code pc info : Nat) :
    trap s t unit code pc info = { s with csr := (trap s t unit code pc info).csr, tiles := (trap s t unit code pc info).tiles } := by
  simp only [trap]
  split
  · rfl
  · split
    · split <;> (ext1 <;> simp)
    · ext1 <;> simp [State.onTile]

/-- A trap of a tile leaves every other tile alone. -/
theorem trap_other (s : State) {t j : Nat} (unit code pc info : Nat) (h : j ≠ t) : (trap s t unit code pc info).tile j = s.tile j := by
  simp only [trap]
  split
  · rfl
  · split
    · split <;> simp
    · rw [tile_onTile_ne _ _ h, tile_setFs]

/-- So does a counter. -/
theorem tkAdd_other (s : State) {t j n k unit pc : Nat} (h : j ≠ t) : (tkAdd s t n k unit pc).tile j = s.tile j := by
  simp only [tkAdd]
  split
  · rfl
  · split
    · rw [trap_other _ _ _ _ _ h]
      split
      · rfl
      · rw [tile_onTile_ne _ _ h]
    · split
      · rfl
      · rw [tile_onTile_ne _ _ h]

/-- A signal raises its counter by one, up to 65,535, and changes no other counter. -/
theorem tkAdd_one {s : State} {t n unit pc : Nat} (hl : isLive s t = true) (j : Nat) :
    tkCount ((tkAdd s t n 1 unit pc).tile t) j =
      if j = n ∧ tkCount (s.tile t) j < 65535 then tkCount (s.tile t) j + 1 else tkCount (s.tile t) j := by
  simp only [tkAdd, hl]
  simp only [Bool.not_true, Bool.false_or]
  rw [if_neg (by decide)]
  by_cases hf : min 1 (65535 - tkCount (s.tile t) n) = 0
  · rw [if_pos hf, if_pos (by omega)]
    obtain ⟨a, b, c, h⟩ := trap_tile s t unit cTOKEN_OVERFLOW pc n t
    rw [h]
    by_cases hj : j = n
    · subst hj
      rw [if_neg (by omega)]
      rfl
    · rw [if_neg (by simp [hj])]
      rfl
  · rw [if_neg hf, if_neg (by omega)]
    have h1 : min 1 (65535 - tkCount (s.tile t) n) = 1 := by omega
    rw [h1, tile_onTile_same, tkCount_setTk]
    by_cases hj : j = n
    · subst hj
      rw [if_pos rfl, if_pos ⟨rfl, by omega⟩, List.foldl_append]
      rfl
    · rw [if_neg hj, if_neg (by simp [hj])]

/-- What adding to a counter leaves of the tile besides its counters. -/
theorem tkAdd_tile (s : State) (t n k unit pc j : Nat) :
    ∃ l a b c, (tkAdd s t n k unit pc).tile j = { s.tile j with tk := l, aborting := a, trapTime := b, trapCycles := c } := by
  simp only [tkAdd]
  split
  · exact ⟨_, _, _, _, rfl⟩
  · have h1 : ∀ u : State, (u = s ∨ ∃ l, u = s.onTile t fun x => setTk x n l) → ∃ l, u.tile j = { s.tile j with tk := l } := by
      intro u hu
      rcases hu with rfl | ⟨l, rfl⟩
      · exact ⟨_, rfl⟩
      · by_cases h : j = t
        · subst h
          exact ⟨_, by rw [tile_onTile_same]; rfl⟩
        · exact ⟨_, by rw [tile_onTile_ne _ _ h]⟩
    split
    · obtain ⟨l, hl⟩ := h1 (if min k (65535 - tkCount (s.tile t) n) = 0 then s else s.onTile t fun x => setTk x n (mget (fun _ => []) x.tk n ++ [(s.now, min k (65535 - tkCount (s.tile t) n))])) (by
        split
        · exact .inl rfl
        · refine .inr ⟨mget (fun _ => []) (s.tile t).tk n ++ [(s.now, min k (65535 - tkCount (s.tile t) n))], ?_⟩
          simp only [State.onTile])
      obtain ⟨a, b, c, h⟩ := trap_tile (if min k (65535 - tkCount (s.tile t) n) = 0 then s else s.onTile t fun x => setTk x n (mget (fun _ => []) x.tk n ++ [(s.now, min k (65535 - tkCount (s.tile t) n))])) t unit cTOKEN_OVERFLOW pc n j
      exact ⟨l, a, b, c, by rw [h, hl]⟩
    · split
      · exact ⟨_, _, _, _, rfl⟩
      · by_cases h : j = t
        · subst h
          exact ⟨_, _, _, _, by rw [tile_onTile_same]; rfl⟩
        · exact ⟨_, _, _, _, by rw [tile_onTile_ne _ _ h]⟩

/-- Adding to a counter changes registers and the tile, and nothing else. -/
theorem tkAdd_frame (s : State) (t n k unit pc : Nat) :
    tkAdd s t n k unit pc = { s with csr := (tkAdd s t n k unit pc).csr, tiles := (tkAdd s t n k unit pc).tiles } := by
  simp only [tkAdd]
  split
  · rfl
  · split
    · rw [trap_frame]
      split <;> rfl
    · split <;> rfl

/-- The signal of an instruction in a live task. -/
theorem applySignal_signals {s : State} {t unit : Nat} {h : QEntry} (hl : isLive s t = true) : SignalApplied s (applySignal s t unit h) t h := by
  intro j
  simp only [applySignal]
  split
  · rename_i hs
    rw [tkAdd_one hl]
    simp [hs]
  · rename_i hs
    simp [hs]

/-- What a signal leaves of the tile besides its counters. -/
theorem applySignal_tile (s : State) (t unit : Nat) (h : QEntry) (j : Nat) :
    ∃ l a b c, (applySignal s t unit h).tile j = { s.tile j with tk := l, aborting := a, trapTime := b, trapCycles := c } := by
  simp only [applySignal]
  split
  · exact tkAdd_tile _ _ _ _ _ _ _
  · exact ⟨_, _, _, _, rfl⟩

theorem applySignal_frame (s : State) (t unit : Nat) (h : QEntry) :
    applySignal s t unit h = { s with csr := (applySignal s t unit h).csr, tiles := (applySignal s t unit h).tiles } := by
  simp only [applySignal]
  split
  · exact tkAdd_frame _ _ _ _ _ _
  · rfl

/-- A task stays live while its die, its phase and its abort stay as they are. -/
theorem isLive_of {s u : State} {t : Nat} (h : isLive s t = true) (hd : dieUp u (dieOf t) = dieUp s (dieOf t))
    (hp : (u.tile t).phase = (s.tile t).phase) (ha : (u.tile t).aborting = (s.tile t).aborting) : isLive u t = true := by
  simp only [isLive, isRunning, tileState, hd, hp, ha] at h ⊢
  exact h

end Sys2Proof.Machine
end

