-- ==== Sys2Proof/Laws/Message.lean ====
section
/-!
SUPPORT. What the message unit does with the head of its queue, and what the Mailroom's operations on rings leave.
-/
namespace Sys2Proof.Machine

/-- The message unit acts on an instruction that was not held before. -/
theorem msgHead_starts {s s1 : State} {t min : Nat} {h : QEntry} (b : Bool) (body : QEntry → State → Except Nat State)
    (hs : Starts s t .message 0x28 min h s1) (hh : h.held = none) :
    msgHead s t min b body = (match body h s1 with
      | .ok s2 => s2
      | .error info => s1.onTile t fun x => onHead x .message fun q =>
          { q with held := some ((match q.held with | some (f, _) => f | none => s.now), info) }) := by
  obtain ⟨h1, h2, h3⟩ := hs
  have hd : headDeadline s t h = none := by simp [headDeadline, hh]
  simp only [msgHead, sameCycle_live _ h1, h2, h3, hd, Bool.false_and, Bool.false_eq_true, if_false] <;>
    (cases body h s1 <;> rfl)

/-- With nothing to deliver, the Mailroom does nothing. -/
theorem pumpDev_nil {s : State} (h : s.devq = []) : pumpDev s = s := by
  simp only [pumpDev, h, List.foldl_nil]
  ext1 <;> simp [h]

@[simp] theorem phRt_setPhRt_same (s : State) (p : Nat) (r : PhRt) : phRt (setPhRt s p r) p = r := by
  simp [phRt, setPhRt]

theorem phRt_setPhRt_ne (s : State) {p q : Nat} (r : PhRt) (h : q ≠ p) : phRt (setPhRt s p r) q = phRt s q := by
  simp [phRt, setPhRt, mget_mset_ne _ _ _ h]

theorem phRt_rts {s u : State} (h : u.mail.rts = s.mail.rts) (p : Nat) : phRt u p = phRt s p := by simp [phRt, h]
theorem phEntry_phs {s u : State} (h : u.mail.phs = s.mail.phs) (p : Nat) : phEntry u p = phEntry s p := by simp [phEntry, h]

@[simp] theorem onPhRt_same (s : State) (p : Nat) (f : PhRt → PhRt) : phRt (onPhRt s p f) p = f (phRt s p) := by simp [onPhRt]

/-- The head's token wait leaves everything but the tile. -/
theorem starts_frame {s s1 : State} {t : Nat} {e : Engine} {maj min : Nat} {h : QEntry} (hs : Starts s t e maj min h s1) :
    s1 = { s with tiles := s1.tiles } ∧ isLive s1 t = true ∧ (∀ j, j ≠ t → s1.tile j = s.tile j) ∧
    ∃ k : QEntry, k.word = h.word ∧ k.pc = h.pc ∧ k.sregs = h.sregs ∧ k.held = h.held ∧
      s1.tile t = setQueue { s.tile t with tk := (s1.tile t).tk } e (k :: (getQueue (s.tile t) e).tail) := by
  obtain ⟨h1, h2, h3⟩ := hs
  obtain ⟨hb, hk⟩ := takeToken_true (headOf_queue h2) h3
  refine ⟨hb.2.2, ?_, hb.2.1, hk⟩
  obtain ⟨k, -, -, -, -, hk⟩ := hk
  refine isLive_of h1 ?_ ?_ ?_
  · rw [hb.2.2]
    rfl
  · rw [hk]
    cases e <;> rfl
  · rw [hk]
    cases e <;> rfl

/-- The instruction at the head of a live message queue is over. -/
theorem msgDone_facts {s : State} {t : Nat} {h : QEntry} (hl : isLive s t = true) :
    ((msgDone s t h).tile t).msg.queue = (s.tile t).msg.queue.tail ∧ SignalApplied s (msgDone s t h) t h ∧
    (∃ l a b c, (msgDone s t h).tile t =
      { setQueue (s.tile t) .message (s.tile t).msg.queue.tail with tk := l, aborting := a, trapTime := b, trapCycles := c }) ∧
    (∀ j, j ≠ t → ∃ l a b c, (msgDone s t h).tile j = { s.tile j with tk := l, aborting := a, trapTime := b, trapCycles := c }) ∧
    msgDone s t h = { s with csr := (msgDone s t h).csr, tiles := (msgDone s t h).tiles } := by
  have hp : (popHead s t .message).tile t = setQueue (s.tile t) .message (s.tile t).msg.queue.tail := by
    rw [popHead, tile_onTile_same]
    rfl
  have hpl : isLive (popHead s t .message) t = true := isLive_of hl rfl (by rw [hp]; rfl) (by rw [hp]; rfl)
  obtain ⟨l, a, b, c, ht⟩ := applySignal_tile (popHead s t .message) t 4 h t
  refine ⟨?_, ?_, ⟨l, a, b, c, ?_⟩, ?_, ?_⟩
  · rw [msgDone, ht, hp]
    rfl
  · intro j
    have := applySignal_signals (unit := 4) (h := h) hpl j
    rw [hp] at this
    exact this
  · rw [msgDone, ht, hp]
  · intro j hj
    obtain ⟨l, a, b, c, ht⟩ := applySignal_tile (popHead s t .message) t 4 h j
    refine ⟨l, a, b, c, ?_⟩
    rw [msgDone, ht, popHead, tile_onTile_ne _ _ hj]
  · rw [msgDone, applySignal_frame]
    rfl

/-- A write leaves every sound unit sound. -/
theorem memWriteBy_sound {s : State} {a : Nat} (w : Bool) (b : List Byte) (h : RangeClean s a b.length) {v : Nat} (hv : UnitClean s v) :
    UnitClean (memWriteBy w s a b) v := by
  have e : (shWatch (snoop s a b.length) w a b.length).mem = s.mem := by simp
  rw [memWriteBy_clean w b h]
  have hs : RangeClean (shWatch (snoop s a b.length) w a b.length) a b.length := RangeClean_mem e h
  have hv' : UnitClean (shWatch (snoop s a b.length) w a b.length) v := UnitClean_mem e hv
  have key : ∀ (f a : Nat) (b : List Byte) (s : State), b.length < f → RangeClean s a b.length → UnitClean s v →
      UnitClean ((splitUnits f a b).foldl (fun s p => writeUnit s p.1 p.2) s) v := by
    intro f
    induction f with
    | zero => intro a b s h; omega
    | succ f ih =>
      intro a b s hl hs hv
      cases b with
      | nil => exact hv
      | cons x r =>
        simp only [splitUnits, List.foldl_cons]
        have hsound : UnitClean s (a / 64) := hs _ (by omega) (by simp only [List.length_cons]; omega)
        generalize hb : x :: r = b at *
        have hbl : 0 < b.length := by rw [← hb]; simp
        refine ih _ _ _ (by simp only [List.length_drop]; omega) ?_ (writeUnit_sound _ hsound hv)
        intro w h1 h2
        apply writeUnit_sound _ hsound
        apply hs w
        · omega
        · simp only [List.length_drop] at h2
          omega
  exact key _ _ _ _ (by omega) hs hv'

theorem memWrite_sound {s : State} {a : Nat} (b : List Byte) (h : RangeClean s a b.length) {c n : Nat} (hv : RangeClean s c n) :
    RangeClean (memWrite s a b) c n := fun v h1 h2 => memWriteBy_sound false b h (hv v h1 h2)

end Sys2Proof.Machine
end

