-- ==== Sys2Proof/Laws/Report.lean ====
section
/-!
SUPPORT. What the reporting of an event reads and writes: leaves, error bits, log events, and the fields they leave alone.
-/
namespace Sys2Proof.Machine

/-- The keys of the register fields that the reporting of an event may change besides the source bit: the leaves and the counters of lost
records. -/
def reportKey (k : Nat) : Bool :=
  (List.range 12).any (fun i => k == fldKey (fINT_CAUSE_LEAF i)) || (List.range 8).any (fun i => k == fldKey (fINT_CAUSE_TILE_LEAF i)) ||
  k == fldKey fOBS_TRACE_LOST_COUNT || k == fldKey fPM_LOG_STATUS_HW_LOST

theorem reportKey_leaf {k : Nat} (h : reportKey k = false) {i : Nat} (hi : i < 12) : k ≠ fldKey (fINT_CAUSE_LEAF i) := by
  simp [reportKey] at h
  exact h.1.1.1 i hi

theorem reportKey_tile {k : Nat} (h : reportKey k = false) {i : Nat} (hi : i < 8) : k ≠ fldKey (fINT_CAUSE_TILE_LEAF i) := by
  simp [reportKey] at h
  exact h.1.1.2 i hi

theorem reportKey_lost {k : Nat} (h : reportKey k = false) : k ≠ fldKey fOBS_TRACE_LOST_COUNT := by
  simp [reportKey] at h
  exact h.1.2

theorem reportKey_hw {k : Nat} (h : reportKey k = false) : k ≠ fldKey fPM_LOG_STATUS_HW_LOST := by
  simp [reportKey] at h
  exact h.2

theorem getF_postTrace_ne (s : State) (a b c d : Nat) {g : Fld} (h : reportKey (fldKey g) = false) :
    getF (postTrace s a b c d) g = getF s g := getF_postTrace s a b c d (reportKey_lost h)

theorem getF_setLeaf_ne (s : State) {i : Nat} (k : Nat) {g : Fld} (hi : i < 12) (h : reportKey (fldKey g) = false) :
    getF (setLeaf s i k) g = getF s g := getF_setLeaf s i k (reportKey_leaf h hi) (reportKey_lost h)

theorem getF_raise_ne (s : State) {f g : Fld} (h0 : fldKey g ≠ fldKey f) (h : reportKey (fldKey g) = false) :
    getF (raise s f) g = getF s g := getF_raise s f h0 (fun _ hi => reportKey_leaf h hi) (reportKey_lost h)

theorem getF_raiseIf_ne (c : Bool) (s : State) {f g : Fld} (h0 : fldKey g ≠ fldKey f) (h : reportKey (fldKey g) = false) :
    getF (raiseIf c s f) g = getF s g := by
  cases c
  · rfl
  · exact getF_raise_ne s h0 h

/-- The source bit is set. -/
theorem getF_raise_same (s : State) {f : Fld} (h : reportKey (fldKey f) = false) : getF (raise s f) f = 1 % 2 ^ (f.hi + 1 - f.lo) := by
  simp only [raise]
  split
  · rename_i i b hm
    rw [getF_setLeaf_ne _ _ (mirrorOf_lt hm) h, getF_setF_same]
  · exact getF_setF_same _ _ _

theorem getF_setTileLeaf_ne (s : State) {t : Nat} {g : Fld} (ht : t < 256) (h : reportKey (fldKey g) = false) :
    getF (setTileLeaf s t) g = getF s g := by
  simp only [setTileLeaf]
  split
  · rfl
  · rw [getF_csr (edge_csr _ _), getF_postTrace_ne _ _ _ _ _ h, getF_setF_ne _ _ (reportKey_tile h (by omega))]

theorem getF_postEvent_ne (s : State) (a b c d e f : Nat) {g : Fld} (h : reportKey (fldKey g) = false) :
    getF (postEvent s a b c d e f) g = getF s g := by
  simp only [postEvent, postEventAt]
  split
  · rfl
  · exact getF_setF_ne _ _ (reportKey_hw h)

theorem bit_setBit (x i : Nat) : bit (setBit x i) i = true := by
  unfold setBit
  split
  · assumption
  · rename_i h
    simp only [bit] at h ⊢
    rw [Nat.add_div_right _ (Nat.two_pow_pos i)]
    have h2 := Nat.mod_two_eq_zero_or_one (x / 2 ^ i)
    have h3 := Nat.mod_two_eq_zero_or_one (Nat.succ (x / 2 ^ i))
    simp at h ⊢
    omega

theorem bit_mod {x i n : Nat} (h : i < n) : bit (x % 2 ^ n) i = bit x i := by
  simp only [bit]
  have : x % 2 ^ n / 2 ^ i % 2 = x / 2 ^ i % 2 := by
    have e : 2 ^ n = 2 ^ i * 2 ^ (n - i) := by rw [← Nat.pow_add]; congr 1; omega
    rw [e, Nat.mod_mul_right_div_self, Nat.mod_mod_of_dvd]
    exact Nat.dvd_of_mod_eq_zero (by rw [show n - i = (n - i - 1) + 1 by omega, Nat.pow_succ, Nat.mul_mod_left])
  rw [this]

/-- The leaf is set. -/
theorem setLeaf_sets (s : State) {i k : Nat} (hk : k < 32) (hi : i < 12) : bit (getF (setLeaf s i k) (fINT_CAUSE_LEAF i)) k = true := by
  simp only [setLeaf]
  split
  · assumption
  · have hl : fldKey (fINT_CAUSE_LEAF i) ≠ fldKey fOBS_TRACE_LOST_COUNT := by
      simp only [fldKey, fINT_CAUSE_LEAF, fOBS_TRACE_LOST_COUNT]; omega
    rw [getF_csr (edge_csr _ _), getF_postTrace _ _ _ _ _ hl, getF_setF_same]
    exact (bit_mod hk).trans (bit_setBit _ _)

/-- The leaf of a tile is set. -/
theorem setTileLeaf_sets (s : State) {t : Nat} (ht : t < 256) : bit (getF (setTileLeaf s t) (fINT_CAUSE_TILE_LEAF (t / 32))) (t % 32) = true := by
  simp only [setTileLeaf]
  split
  · assumption
  · have hl : fldKey (fINT_CAUSE_TILE_LEAF (t / 32)) ≠ fldKey fOBS_TRACE_LOST_COUNT := by
      simp only [fldKey, fINT_CAUSE_TILE_LEAF, fOBS_TRACE_LOST_COUNT]; omega
    rw [getF_csr (edge_csr _ _), getF_postTrace _ _ _ _ _ hl, getF_setF_same]
    exact (bit_mod (show t % 32 < 32 by omega)).trans (bit_setBit _ _)

end Sys2Proof.Machine
end

