-- ==== Sys2Proof/Laws/Pm.lean ====
section
/-!
SUPPORT. What the operations of the Postmaster do: records, firmware operations, the bank selector, restarts.
-/
namespace Sys2Proof.Machine

@[simp] theorem getF_onPm (s : State) (f : Pm → Pm) (g : Fld) : getF (s.onPm f) g = getF s g := rfl
@[simp] theorem onPm_pm (s : State) (f : Pm → Pm) : (s.onPm f).pm = f s.pm := rfl
@[simp] theorem tile_onPm (s : State) (f : Pm → Pm) (j : Nat) : (s.onPm f).tile j = s.tile j := rfl
@[simp] theorem onPm_mem (s : State) (f : Pm → Pm) : (s.onPm f).mem = s.mem := rfl
@[simp] theorem onPm_now (s : State) (f : Pm → Pm) : (s.onPm f).now = s.now := rfl
@[simp] theorem unsaved_pm {s u : State} (h1 : u.pm.buf = s.pm.buf) (h2 : u.pm.saved = s.pm.saved) : unsaved u = unsaved s := by
  simp [unsaved, h1, h2]

theorem getLast_drop {α : Type} (l : List α) (x : α) (n : Nat) (h : n ≤ l.length) : ((l ++ [x]).drop n).getLast? = some x := by
  rw [List.drop_append_of_le_length h]
  simp

/-- A record that finds a place: it is the newest, with the next SEQ (R542). -/
theorem putRecord_room {s : State} (e : LogEvent) (h : (unsaved s).length < 16384) :
    putRecord s e = { s with pm := { s.pm with
      buf := (s.pm.buf ++ [(⟨s.pm.nextSeq, e⟩ : LogRec)]).drop (s.pm.buf.length + 1 - 16384), nextSeq := (s.pm.nextSeq + 1) % 2 ^ 32 } } := by
  simp only [putRecord, Nat.not_le.mpr h, if_false, List.length_append, List.length_singleton, State.onPm]

theorem putRecord_place {s : State} (e : LogEvent) (h : (unsaved s).length < 16384) :
    ∃ b n, putRecord s e = { s with pm := { s.pm with buf := b, nextSeq := n } } ∧ b.getLast? = some ⟨s.pm.nextSeq, e⟩ :=
  ⟨_, _, putRecord_room e h, getLast_drop s.pm.buf ⟨s.pm.nextSeq, e⟩ (s.pm.buf.length + 1 - 16384) (by omega)⟩

/-- A record that finds none is counted (R543). -/
theorem putRecord_full {s : State} (e : LogEvent) (h : 16384 ≤ (unsaved s).length) :
    putRecord s e = satF (s.onPm fun p => { p with dropN := p.dropN + 1 }) fPM_LOG_STATUS_DROPPED 1 := by
  simp only [putRecord, h, if_true]

/-- What a record changes at all: the buffer, the next SEQ and the counts of drops. -/
theorem putRecord_frame (s : State) (e : LogEvent) : putRecord s e = { s with
    csr := (putRecord s e).csr
    pm := { s.pm with buf := (putRecord s e).pm.buf, nextSeq := (putRecord s e).pm.nextSeq, dropN := (putRecord s e).pm.dropN } } := by
  by_cases h : 16384 ≤ (unsaved s).length
  · rw [putRecord_full e h]; simp [satF, setF, State.onPm]
  · obtain ⟨b, n, hb, -⟩ := putRecord_place e (Nat.not_le.mp h)
    rw [hb]

theorem getF_putRecord_ne (s : State) (e : LogEvent) {g : Fld} (h : fldKey g ≠ fldKey fPM_LOG_STATUS_DROPPED) :
    getF (putRecord s e) g = getF s g := by
  by_cases h' : 16384 ≤ (unsaved s).length
  · rw [putRecord_full e h']; exact getF_setF_ne _ _ h
  · obtain ⟨b, n, hb, -⟩ := putRecord_place e (Nat.not_le.mp h')
    rw [hb]
    rfl

theorem putRecord_last {s : State} (e : LogEvent) (h : (unsaved s).length < 16384) :
    (putRecord s e).pm.buf.getLast? = some ⟨s.pm.nextSeq, e⟩ := by
  obtain ⟨b, n, hb, hl⟩ := putRecord_place e h
  rw [hb]
  exact hl

/-- A record of firmware is the newest, if the buffer has a place. -/
theorem fwRecord_last {s : State} (status sev src inst a0 a1 : Nat) (h : (unsaved s).length < 16384) :
    (fwRecord s status sev src inst a0 a1).pm.buf.getLast? = some ⟨s.pm.nextSeq, s.now, status, sev, synced s, false, src, a0, inst, a1⟩ :=
  putRecord_last _ h

theorem getF_fwRecord_ne (s : State) (status sev src inst a0 a1 : Nat) {g : Fld} (h : fldKey g ≠ fldKey fPM_LOG_STATUS_DROPPED) :
    getF (fwRecord s status sev src inst a0 a1) g = getF s g := getF_putRecord_ne _ _ h

@[simp] theorem fwRecord_mem (s : State) (a b c d e f : Nat) : (fwRecord s a b c d e f).mem = s.mem := by
  rw [fwRecord, putRecord_frame]
@[simp] theorem fwRecord_tiles (s : State) (a b c d e f : Nat) : (fwRecord s a b c d e f).tiles = s.tiles := by
  rw [fwRecord, putRecord_frame]
@[simp] theorem tile_fwRecord (s : State) (a b c d e f j : Nat) : (fwRecord s a b c d e f).tile j = s.tile j :=
  tile_tiles (fwRecord_tiles s a b c d e f) j
@[simp] theorem fwRecord_now (s : State) (a b c d e f : Nat) : (fwRecord s a b c d e f).now = s.now := by
  rw [fwRecord, putRecord_frame]
@[simp] theorem fwRecord_nor (s : State) (a b c d e f : Nat) : (fwRecord s a b c d e f).pm.nor = s.pm.nor := by
  rw [fwRecord, putRecord_frame]
@[simp] theorem fwRecord_job (s : State) (a b c d e f : Nat) : (fwRecord s a b c d e f).pm.job = s.pm.job := by
  rw [fwRecord, putRecord_frame]
@[simp] theorem fwRecord_rollback (s : State) (a b c d e f : Nat) : (fwRecord s a b c d e f).pm.rollback = s.pm.rollback := by
  rw [fwRecord, putRecord_frame]
@[simp] theorem fwRecord_revoked (s : State) (a b c d e f : Nat) : (fwRecord s a b c d e f).pm.revoked = s.pm.revoked := by
  rw [fwRecord, putRecord_frame]

/-- The state and result of a firmware operation change only their fields and a leaf. -/
@[simp] theorem fwState_pm (s : State) (a b : Nat) : (fwState s a b).pm = s.pm := by
  simp only [fwState]
  split <;> simp
@[simp] theorem fwState_mem (s : State) (a b : Nat) : (fwState s a b).mem = s.mem := by
  simp only [fwState]
  split <;> simp
@[simp] theorem fwState_now (s : State) (a b : Nat) : (fwState s a b).now = s.now := by
  simp only [fwState]
  split <;> simp
@[simp] theorem fwState_tiles (s : State) (a b : Nat) : (fwState s a b).tiles = s.tiles := by
  simp only [fwState]
  split <;> simp
@[simp] theorem tile_fwState (s : State) (a b j : Nat) : (fwState s a b).tile j = s.tile j := tile_tiles (fwState_tiles s a b) j
theorem fwState_state (s : State) {a b : Nat} : getF (fwState s a b) fPM_FW_STATUS_STATE = a % 8 ∧
    getF (fwState s a b) fPM_FW_STATUS_RESULT = b % 256 := by
  simp only [fwState]
  split
  · rw [getF_setLeaf_ne _ _ (by decide) (by decide), getF_setLeaf_ne _ _ (by decide) (by decide)]
    simp only [setFs_cons, setFs_nil]
    rw [getF_setF_same, getF_setF_ne _ _ (by decide), getF_setF_same]
    exact ⟨rfl, rfl⟩
  · simp only [setFs_cons, setFs_nil]
    rw [getF_setF_same, getF_setF_ne _ _ (by decide), getF_setF_same]
    exact ⟨rfl, rfl⟩
theorem getF_fwState_ne (s : State) (a b : Nat) {g : Fld} (h1 : fldKey g ≠ fldKey fPM_FW_STATUS_STATE)
    (h2 : fldKey g ≠ fldKey fPM_FW_STATUS_RESULT) (h3 : reportKey (fldKey g) = false) : getF (fwState s a b) g = getF s g := by
  have h : getF (setFs s [(fPM_FW_STATUS_STATE, a), (fPM_FW_STATUS_RESULT, b)]) g = getF s g := by
    simp only [setFs_cons, setFs_nil]
    rw [getF_setF_ne _ _ h2, getF_setF_ne _ _ h1]
  simp only [fwState]
  split
  · rw [getF_setLeaf_ne _ _ (by decide) h3, h]
  · exact h

/-- A valid copy with a higher number, written over the one that is not in use, is then the one in use (R536, R545). -/
theorem putSelector_selector (n : Nor) (c : SelCopy) (hv : c.valid = true) (hs : n.selector.seq < c.seq) : (n.putSelector false c).selector = c := by
  unfold Nor.putSelector
  cases h : n.selects1
  · have e : n.selector = n.sel0 := by simp [Nor.selector, h]
    rw [e] at hs
    simp [Nor.selector, Nor.selects1, secondInUse, hv, hs]
  · have e : n.selector = n.sel1 := by simp [Nor.selector, h]
    rw [e] at hs
    simp [Nor.selector, Nor.selects1, secondInUse, hv]
    exact fun _ h2 => absurd h2 (Nat.lt_asymm hs)

theorem selector_write (s : State) (a : Nat) (t : Option Nat) (n : Nat) (hr : SelRoom s) :
    selector (writeSelector s a t n) = ⟨(selector s).seq + 1, a, t, n, true⟩ := by
  have h2 : ((selector s).seq + 1) % 2 ^ 32 = (selector s).seq + 1 := Nat.mod_eq_of_lt hr
  have h : selector (writeSelector s a t n) = (s.pm.nor.putSelector false ⟨((selector s).seq + 1) % 2 ^ 32, a, t, n, true⟩).selector := rfl
  rw [h, h2]
  exact putSelector_selector _ _ rfl (Nat.lt_succ_self _)

theorem selector_nor {s u : State} (h : u.pm.nor = s.pm.nor) : selector u = selector s := by
  simp [selector, h]

/-- A failed operation (R546). -/
theorem fwReject_rejected (s : State) (r : Nat) (h : r < 256) : FwRejected s (fwReject s r) r := by
  obtain ⟨h1, h2⟩ := fwState_state (s.onPm fun p => { p with job := none }) (a := 6) (b := r)
  simp only [fwReject]
  refine ⟨?_, ?_, ?_, ?_, fun hu => ⟨⟨s.pm.nextSeq, s.now, 0x104, 1, synced (fwState (s.onPm fun p => { p with job := none }) 6 r), false, 0, r, 0, 0⟩, ?_, rfl, rfl, rfl, rfl, rfl, rfl⟩, fun j => by simp, by simp⟩
  · rw [getF_raise_ne _ (by decide) (by decide), getF_fwRecord_ne _ _ _ _ _ _ _ (by decide), h1]
  · rw [getF_raise_ne _ (by decide) (by decide), getF_fwRecord_ne _ _ _ _ _ _ _ (by decide), h2]
    exact Nat.mod_eq_of_lt h
  · simp
  · exact getF_raise_same _ (by decide)
  · rw [raise_pm, fwRecord_last]
    · simp
    · rw [unsaved_pm (s := s) (by simp) (by simp)]
      exact hu

end Sys2Proof.Machine
end

