-- ==== Sys2Proof/Laws/Vector.lean ====
section
/-!
SUPPORT. What the vector engine's commit leaves when no window is open and nothing waits for memory.
-/
namespace Sys2Proof.Machine

/-- The state in which the body of a vector instruction runs. -/
theorem vec_popped {s s1 : State} {t : Nat} {maj min : Nat} {h : QEntry} (hs : Starts s t .vector maj min h s1) :
    isLive (popHead s1 t .vector) t = true ∧ ((popHead s1 t .vector).tile t).vec.r = (s.tile t).vec.r ∧
    ((popHead s1 t .vector).tile t).vec.win = (s.tile t).vec.win ∧ ((popHead s1 t .vector).tile t).vec.out = (s.tile t).vec.out ∧
    ((popHead s1 t .vector).tile t).oc = (s.tile t).oc ∧
    ((popHead s1 t .vector).tile t).vec.queue = (s1.tile t).vec.queue.tail ∧ (popHead s1 t .vector).mem = s1.mem ∧
    (∀ j, j ≠ t → (popHead s1 t .vector).tile j = s1.tile j) ∧
    (popHead s1 t .vector).tile t = setQueue (s1.tile t) .vector (s1.tile t).vec.queue.tail := by
  have hb := popHead_starts hs
  have hp : (popHead s1 t .vector).tile t = setQueue (s1.tile t) .vector (s1.tile t).vec.queue.tail := by
    rw [popHead, tile_onTile_same]
    rfl
  refine ⟨?_, ?_, ?_, ?_, ?_, ?_, rfl, fun j hj => by rw [popHead, tile_onTile_ne _ _ hj], hp⟩
  · refine isLive_of hs.1 ?_ (by rw [hb.1]; rfl) (by rw [hb.1]; rfl)
    rw [hb.2.2]
    rfl
  · rw [hb.1]; rfl
  · rw [hb.1]; rfl
  · rw [hb.1]; rfl
  · rw [hb.1]; rfl
  · rw [hp]; rfl

/-- The commit of an instruction without a window, a load or writes, with nothing outstanding. -/
theorem vCommit_idle {s : State} {t : Nat} {h : QEntry} {e : VEff} {fields : List Nat} (hl : isLive s t = true)
    (hw : (s.tile t).vec.win = none) (ho : (s.tile t).vec.out = []) (hn : e.load = none) (hc : e.outcomes = [])
    (hp : (effParts (s.tile t).vec.r e fields).2 = []) :
    ∃ l a b c, (vCommit s t h e fields).tile t = { s.tile t with
        vec := { (s.tile t).vec with r := (effParts (s.tile t).vec.r e fields).1, out := [], busyAt := s.now }
        tk := l, aborting := a, trapTime := b, trapCycles := c } ∧
      SignalApplied s (vCommit s t h e fields) t h ∧ (∀ j, j ≠ t → (vCommit s t h e fields).tile j = s.tile j) ∧
      (vCommit s t h e fields).mem = s.mem := by
  have key : vCommit s t h e fields = (applySignal (s.setTile t { s.tile t with
      vec := { (s.tile t).vec with r := (effParts (s.tile t).vec.r e fields).1, busyAt := s.now } }) t 2 h).onTile t
        fun x => { x with vec := { x.vec with out := [] } } := by
    simp only [vCommit, hw, hp, hn, hc, List.filter_nil, List.foldl_nil, countOutcomes, tile_setTile_same, ho, List.nil_append]
    by_cases hse : wSE h.word = true <;> simp only [setOut, vflush, sigOf, applySignal, hse, Bool.false_eq_true, if_false, if_true]
  generalize hwd : s.setTile t { s.tile t with
      vec := { (s.tile t).vec with r := (effParts (s.tile t).vec.r e fields).1, busyAt := s.now } } = w at key
  have hwt : w.tile t = { s.tile t with
      vec := { (s.tile t).vec with r := (effParts (s.tile t).vec.r e fields).1, busyAt := s.now } } := by rw [← hwd, tile_setTile_same]
  have hwl : isLive w t = true := isLive_of hl (by rw [← hwd]; rfl) (by rw [hwt]) (by rw [hwt])
  obtain ⟨l, a, b, c, ht⟩ := applySignal_tile w t 2 h t
  refine ⟨l, a, b, c, ?_, ?_, ?_, ?_⟩
  · rw [key, tile_onTile_same, ht, hwt]
  · intro j
    have := applySignal_signals (unit := 2) (h := h) hwl j
    rw [hwt] at this
    rw [key, tile_onTile_same]
    exact this
  · intro j hj
    rw [key, tile_onTile_ne _ _ hj]
    have hne : (applySignal w t 2 h).tile j = w.tile j := by
      simp only [applySignal]
      split
      · exact tkAdd_other w hj
      · rfl
    rw [hne, ← hwd, tile_setTile_ne _ _ hj]
  · rw [key]
    show (applySignal w t 2 h).mem = s.mem
    rw [applySignal_frame, ← hwd]
    rfl

/-- Without operand-cache mode a field names a register. -/
theorem isOc_off {r : VecRegs} (h : r.ocm = false) (n : Nat) : isOc r n = false := by simp [isOc, h]

theorem ocFault_off {x : Tile} (h : x.vec.r.ocm = false) (n : Nat) (l : List Nat) (w : Bool) : ocFault x n l w = none := by
  simp [ocFault, isOc_off h]

theorem vGet_off {x : Tile} (h : x.vec.r.ocm = false) (n b : Nat) : vGet x n b = x.vec.r.blk n b := by simp [vGet, isOc_off h]

theorem blk_setBlk_same (r : VecRegs) (n b : Nat) (v : VBlk) : (r.setBlk n b v).blk n b = v := by simp [VecRegs.blk, VecRegs.setBlk]

theorem blk_setBlk_ne (r : VecRegs) {n b m c : Nat} (v : VBlk) (hb : b < 2) (hc : c < 2) (h : ¬ (m = n ∧ c = b)) :
    (r.setBlk n b v).blk m c = r.blk m c := by
  simp only [VecRegs.blk, VecRegs.setBlk]
  rw [mget_mset_ne]
  omega

/-- The registers after an effect that writes blocks of one register only. -/
theorem effParts_blocks {r : VecRegs} (ho : r.ocm = false) (hp : r.pinc = false) (vd : Nat) (l : List (Nat × VBlk × Bool × Bool)) (f : List Nat) :
    effParts r (blocksEff vd l) f =
      ((l.foldl (fun r p => r.setBlk vd p.1 p.2.1) r).flags (l.any fun p => p.2.2.1) (l.any fun p => p.2.2.2), []) := by
  have key : ∀ (l : List (Nat × VBlk × Bool × Bool)) (a : VecRegs × List VWrite), a.2 = [] →
      (l.map fun p => (vd, p.1, p.2.1)).foldl (fun (a : VecRegs × List VWrite) b =>
        let q := writeBlk r b.1 b.2.1 b.2.2
        let regs := if isOc r b.1 then a.1 else a.1.setBlk b.1 b.2.1 b.2.2
        (regs, a.2 ++ q.2)) a = (l.foldl (fun r p => r.setBlk vd p.1 p.2.1) a.1, []) := by
    intro l
    induction l with
    | nil => intro a ha; simp [← ha]
    | cons p l ih =>
      intro a ha
      simp only [List.map_cons, List.foldl_cons]
      rw [ih]
      · simp [isOc_off ho]
      · simp [writeBlk, isOc_off ho, ha]
  have hpinc : ∀ (x : VecRegs), x.vmode = r.vmode → postInc x f = x := by
    intro x hx
    have : x.pinc = false := by simpa [VecRegs.pinc, hx] using hp
    simp [postInc, this]
  have hmode : ∀ (l : List (Nat × VBlk × Bool × Bool)) (x : VecRegs), (l.foldl (fun r p => r.setBlk vd p.1 p.2.1) x).vmode = x.vmode := by
    intro l
    induction l with
    | nil => exact fun _ => rfl
    | cons p l ih => intro x; rw [List.foldl_cons, ih]; rfl
  simp only [effParts, blocksEff, VEff.none]
  rw [key l (r, []) rfl]
  simp only [List.append_nil, id]
  rw [hpinc]
  simp [VecRegs.flags, hmode]

/-- Writing blocks of one register in turn. -/
theorem foldl_setBlk (vd : Nat) (f : Nat → VBlk) : ∀ (l : List Nat) (r : VecRegs), (∀ b ∈ l, b < 2) →
    (∀ b, b < 2 → (l.foldl (fun r b => r.setBlk vd b (f b)) r).blk vd b = if b ∈ l then f b else r.blk vd b) ∧
    (∀ n b, b < 2 → n ≠ vd → (l.foldl (fun r b => r.setBlk vd b (f b)) r).blk n b = r.blk n b) ∧
    (l.foldl (fun r b => r.setBlk vd b (f b)) r).k = r.k ∧ (l.foldl (fun r b => r.setBlk vd b (f b)) r).p = r.p ∧
    (l.foldl (fun r b => r.setBlk vd b (f b)) r).vl = r.vl ∧ (l.foldl (fun r b => r.setBlk vd b (f b)) r).vmode = r.vmode ∧
    (l.foldl (fun r b => r.setBlk vd b (f b)) r).bstat = r.bstat := by
  intro l
  induction l with
  | nil => intro r _; simp
  | cons c l ih =>
    intro r hl
    have hc : c < 2 := hl c (by simp)
    obtain ⟨i1, i2, i3, i4, i5, i6, i7⟩ := ih (r.setBlk vd c (f c)) (fun b hb => hl b (by simp [hb]))
    simp only [List.foldl_cons]
    refine ⟨?_, ?_, by rw [i3]; rfl, by rw [i4]; rfl, by rw [i5]; rfl, by rw [i6]; rfl, by rw [i7]; rfl⟩
    · intro b hb
      rw [i1 b hb]
      by_cases h1 : b ∈ l
      · simp [h1]
      · by_cases h2 : b = c
        · subst h2; simp [h1, blk_setBlk_same]
        · rw [blk_setBlk_ne _ _ hc hb (by tauto)]; simp [h1, h2]
    · intro n b hb hn
      rw [i2 n b hb hn, blk_setBlk_ne _ _ hc hb (by tauto)]

/-- An instruction whose run gives blocks of VD, in the BFX personality, with nothing outstanding. -/
theorem vec_blocks {s s1 : State} {t : Tid} {maj min : Nat} {h : QEntry} {i : Instr} {v : VRow} {g : Nat → Blk × Bool}
    (hs : Starts s t .vector maj min h s1) (hi : VecIdle (s.tile t) 0)
    (he : exec i s = vecCmd t .ok maj min s) (hv : vRow maj min = some v) (hpb : v.pb = true)
    (hm : (if wMaj h.word = 0x19 then [] else v.fields h) = v.fields h)
    (hr : ∃ q : Nat → VBlk × Bool × Bool, v.run t h (popHead s1 t .vector) =
      .ok (blocksEff (wVD h.word) (((s.tile t).vec.r.blocks (wKM h.word)).map fun b => (b, q b))) (popHead s1 t .vector) ∧
      ∀ b, (q b).1.b = (g b).1 ∧ (q b).2.1 = (g b).2 ∧ (q b).2.2 = (g b).1.isNonfin) :
    VecBlocks i s s1 t h g := by
  obtain ⟨q, hrun, hq⟩ := hr
  obtain ⟨p1, p2, p3, p4, p5, p6, p7, p8, p9⟩ := vec_popped hs
  generalize hw : popHead s1 t .vector = w at *
  obtain ⟨i1, i2, i3, i4⟩ := hi
  have hoc : (w.tile t).vec.r.ocm = false := by rw [p2]; simp [VecRegs.ocm, i3, bit]
  have hpi : (w.tile t).vec.r.pinc = false := by rw [p2]; simp [VecRegs.pinc, i3, bit]
  have hpe : (w.tile t).vec.r.pers = 0 := by rw [p2]; simp [VecRegs.pers, i3]
  set e := blocksEff (wVD h.word) (((s.tile t).vec.r.blocks (wKM h.word)).map fun b => (b, q b)) with hed
  have heff := effParts_blocks hoc hpi (wVD h.word) (((s.tile t).vec.r.blocks (wKM h.word)).map fun b => (b, q b)) (v.fields h)
  have hwin : windowFull (w.tile t) = false := by simp [windowFull, p3, i1]
  have hst : vStep t .ok v.pb v.pr v.fields v.run h w = some (vCommit w t h e (v.fields h)) := by
    have hb : (v.fields h).any (loadBusy (w.tile t)) = false := by
      rw [List.any_eq_false]
      intro n _
      simp [loadBusy, p4, i2]
    have hrb : (w.tile t).regBad = [] := by rw [← hw, (popHead_starts hs).1]; exact i4
    simp only [vStep, hb, hwin, hpe, hpb, hrun, hm, regFault, hrb, and_self, if_true]
    simp only [windowRoom, p3, i1]
    simp
  have hx : exec i s = .next (vCommit w t h e (v.fields h)) := by
    rw [he]
    simp only [vecCmd, hv]
    rw [engineStart_starts _ hs, hw]
    simp only [VRow.start, hst]
  obtain ⟨l, a, b, c, c1, c2, c3, c4⟩ := vCommit_idle (h := h) (e := e) (fields := v.fields h) p1 (by rw [p3, i1]) (by rw [p4, i2])
    (by rw [hed]; rfl) (by rw [hed]; rfl) (by rw [heff])
  refine ⟨_, hx, ?_⟩
  have hblk : ∀ b ∈ (s.tile t).vec.r.blocks (wKM h.word), b < 2 := by
    intro b hb
    simp [VecRegs.blocks] at hb
    omega
  obtain ⟨f1, f2, f3, f4, f5, f6, f7⟩ := foldl_setBlk (wVD h.word) (fun b => (q b).1) ((s.tile t).vec.r.blocks (wKM h.word)) (w.tile t).vec.r hblk
  rw [p2] at f3 f4 f5 f6 f7
  rw [heff] at c1
  simp only [List.foldl_map, List.any_map] at c1
  have hmem : ∀ b, b < 2 → (b ∈ (s.tile t).vec.r.blocks (wKM h.word) ↔ (s.tile t).vec.r.hasActive (wKM h.word) b = true) := by
    intro b hb
    simp [VecRegs.blocks, hb]
  refine ⟨⟨?_, ?_, ?_, ?_, ?_, ?_, ?_, ?_, ?_, ?_⟩, ?_, ?_, ?_, ?_, ?_, ?_, ?_, ?_, ?_⟩
  · rw [c1]; exact p6
  · intro j
    have := c2 j
    have hz : tkCount (w.tile t) j = tkCount (s1.tile t) j := by rw [p9]; rfl
    rw [hz] at this
    exact this
  · rw [c1]
  · rw [c1]; simp [p3, i1]
  · rw [c1, p9]; rfl
  · rw [c1, p9]; rfl
  · rw [c1, p9]; rfl
  · rw [c1, p9]; rfl
  · intro j hj; rw [c3 j hj, p8 j hj]
  · rw [c4, p7]
  · rw [c1]; exact p5
  · intro b hb
    rw [c1]
    show (VecRegs.blk _ _ _).b = _
    have := f1 b hb
    simp only [VecRegs.flags, VecRegs.blk] at this ⊢
    rw [this]
    by_cases hc : b ∈ (s.tile t).vec.r.blocks (wKM h.word)
    · rw [if_pos hc, if_pos ((hmem b hb).1 hc), (hq b).1]
    · rw [if_neg hc, if_neg (fun hh => hc ((hmem b hb).2 hh)), p2]
  · intro n b hb hn
    rw [c1]
    have := f2 n b hb hn
    simp only [VecRegs.flags, VecRegs.blk] at this ⊢
    rw [this, p2]
  · rw [c1]
    simp only [VecRegs.flags, f7, p2, Function.comp_def]
    have : ∀ b, (q b).2.1 = (g b).2 := fun b => (hq b).2.1
    simp only [this]
    generalize (List.any _ _) = z
    generalize (bit _ 1 || _) = y
    have : bit (s.tile t).vec.r.bstat 0 = ((s.tile t).vec.r.bstat % 2 == 1) := by simp [bit]
    rw [this]
    generalize ((s.tile t).vec.r.bstat % 2 == 1) = x
    cases x <;> cases y <;> cases z <;> rfl
  · rw [c1]
    simp only [VecRegs.flags, f7, p2, Function.comp_def]
    have : ∀ b, (q b).2.2 = (g b).1.isNonfin := fun b => (hq b).2.2
    simp only [this]
    generalize ((s.tile t).vec.r.bstat % 2 == 1 || _) = y
    generalize (List.any _ _) = z
    generalize bit (s.tile t).vec.r.bstat 1 = x
    cases x <;> cases y <;> cases z <;> rfl
  · rw [c1]; simp only [VecRegs.flags, p2]; exact f3
  · rw [c1]; simp only [VecRegs.flags, p2]; exact f4
  · rw [c1]; simp only [VecRegs.flags, p2]; exact f5
  · rw [c1]; simp only [VecRegs.flags, p2]; exact f6

/-- The blocks that `arith` gives. -/
theorem arith_run {w : State} {t : Nat} {h : QEntry} {useB sel useD : Bool} {bf rf} (hm : (w.tile t).vec.r.vmode = 0)
    (hb : useB = true → bcastFault (w.tile t) h = none) :
    ∃ q : Nat → VBlk × Bool × Bool, arith useB sel useD bf rf t h w =
      .ok (blocksEff (wVD h.word) (((w.tile t).vec.r.blocks (wKM h.word)).map fun b => (b, q b))) w ∧
      ∀ b, q b = bfxResult ((if useB then [vGet (w.tile t) (wVA h.word) b, bOperand (w.tile t) h b] else [vGet (w.tile t) (wVA h.word) b]) ++
          (if useD then [vGet (w.tile t) (wVD h.word) b] else []))
        ((w.tile t).vec.r.maskPoison (wKM h.word) || (sel && (w.tile t).vec.r.maskPoison (wIMM6 h.word % 8)))
        fun _ => bf ((w.tile t).vec.r.act (wKM h.word) b) (wIMM6 h.word) (vGet (w.tile t) (wVA h.word) b).b (bOperand (w.tile t) h b).b
          fun i => ((w.tile t).vec.r.mask (wIMM6 h.word % 8)).getLsbD (32 * b + i) := by
  have hoc : (w.tile t).vec.r.ocm = false := by simp [VecRegs.ocm, hm, bit]
  have hpe : (w.tile t).vec.r.pers = 0 := by simp [VecRegs.pers, hm]
  refine ⟨_, ?_, fun b => rfl⟩
  have hf : (if useB then bcastFault (w.tile t) h else none) = none := by
    cases useB
    · rfl
    · simp [hb]
  simp only [arith, ocFault_off hoc, hf, ite_self, firstFault, List.findSome?_cons, List.findSome?_nil, id, hpe, if_true]

/-- A block result of one operand, without its poison. -/
theorem bfxResult_one (a : VBlk) (p : Bool) (f : Unit → Blk × Bool) :
    (bfxResult [a] p f).1.b = (if a.b.isNonfin then (Blk.nonfinite, false) else f ()).1 ∧
    (bfxResult [a] p f).2.1 = (if a.b.isNonfin then (Blk.nonfinite, false) else f ()).2 ∧
    (bfxResult [a] p f).2.2 = (if a.b.isNonfin then (Blk.nonfinite, false) else f ()).1.isNonfin := by
  simp only [bfxResult, List.any_cons, List.any_nil, Bool.or_false]
  split <;> simp [Blk.isNonfin, Blk.nonfinite]

/-- A block result of two operands, without its poison. -/
theorem bfxResult_two (a b : VBlk) (p : Bool) (f : Unit → Blk × Bool) :
    (bfxResult [a, b] p f).1.b = (if a.b.isNonfin || b.b.isNonfin then (Blk.nonfinite, false) else f ()).1 ∧
    (bfxResult [a, b] p f).2.1 = (if a.b.isNonfin || b.b.isNonfin then (Blk.nonfinite, false) else f ()).2 ∧
    (bfxResult [a, b] p f).2.2 = (if a.b.isNonfin || b.b.isNonfin then (Blk.nonfinite, false) else f ()).1.isNonfin := by
  simp only [bfxResult, List.any_cons, List.any_nil, Bool.or_false]
  split <;> simp [Blk.isNonfin, Blk.nonfinite]

/-- Taking the head off its queue changes no operand. -/
theorem operands_popped {s s1 : State} {t : Nat} {maj min : Nat} {h : QEntry} (hs : Starts s t .vector maj min h s1) (hi : VecIdle (s.tile t) 0) :
    (∀ n b, vGet ((popHead s1 t .vector).tile t) n b = vGet (s.tile t) n b) ∧
    (∀ b, bOperand ((popHead s1 t .vector).tile t) h b = bOperand (s.tile t) h b) ∧
    (bcastFault ((popHead s1 t .vector).tile t) h = bcastFault (s.tile t) h) := by
  obtain ⟨p1, p2, p3, p4, p5, p6, p7, p8, p9⟩ := vec_popped hs
  have ho : (s.tile t).vec.r.ocm = false := by simp [VecRegs.ocm, hi.2.2.1, bit]
  have ho' : ((popHead s1 t .vector).tile t).vec.r.ocm = false := by rw [p2]; exact ho
  have g : ∀ n b, vGet ((popHead s1 t .vector).tile t) n b = vGet (s.tile t) n b := by
    intro n b; rw [vGet_off ho, vGet_off ho', p2]
  refine ⟨g, fun b => ?_, ?_⟩
  · simp only [bOperand, g, p2]
  · simp only [bcastFault, p2]

/-- An instruction with operand b that `arith` describes. -/
theorem arith_two {s s1 : State} {t : Tid} {maj min : Nat} {h : QEntry} {i : Instr} {v : VRow} {bf rf} {sel : Bool} {g : Nat → Blk × Bool}
    (hs : Starts s t .vector maj min h s1) (hi : VecIdle (s.tile t) 0) (hb : bcastFault (s.tile t) h = none)
    (he : exec i s = vecCmd t .ok maj min s) (hv : vRow maj min = some v) (hpb : v.pb = true) (hmaj : wMaj h.word = maj) (hne : maj ≠ 0x19)
    (hrun : v.run = arith true sel false bf rf)
    (hg : ∀ b, g b = if (vecA s t h b).isNonfin || (vecB s t h b).isNonfin then (Blk.nonfinite, false) else
      bf (vecAct s t h b) (wIMM6 h.word) (vecA s t h b) (vecB s t h b) fun i => ((s.tile t).vec.r.mask (wIMM6 h.word % 8)).getLsbD (32 * b + i)) :
    VecBlocks i s s1 t h g := by
  refine vec_blocks hs hi he hv hpb (by rw [if_neg (by rw [hmaj]; exact hne)]) ?_
  obtain ⟨p1, p2, p3, p4, p5, p6, p7, p8, p9⟩ := vec_popped hs
  obtain ⟨o1, o2, o3⟩ := operands_popped hs hi
  obtain ⟨q, q1, q2⟩ := arith_run (w := popHead s1 t .vector) (t := t) (h := h) (useB := true) (sel := sel) (useD := false) (bf := bf) (rf := rf)
    (by rw [p2]; exact hi.2.2.1) (fun _ => by rw [o3]; exact hb)
  refine ⟨q, by rw [hrun, q1, p2], fun b => ?_⟩
  rw [q2, hg]
  simp only [if_true, Bool.false_eq_true, if_false, List.append_nil, o1, o2, p2]
  exact bfxResult_two _ _ _ _

/-- An instruction without operand b that `arith` describes. -/
theorem arith_one {s s1 : State} {t : Tid} {maj min : Nat} {h : QEntry} {i : Instr} {v : VRow} {bf rf} {g : Nat → Blk × Bool}
    (hs : Starts s t .vector maj min h s1) (hi : VecIdle (s.tile t) 0)
    (he : exec i s = vecCmd t .ok maj min s) (hv : vRow maj min = some v) (hpb : v.pb = true) (hmaj : wMaj h.word = maj) (hne : maj ≠ 0x19)
    (hrun : v.run = arith false false false bf rf)
    (hg : ∀ b, g b = if (vecA s t h b).isNonfin then (Blk.nonfinite, false) else
      bf (vecAct s t h b) (wIMM6 h.word) (vecA s t h b) (vecB s t h b) fun i => ((s.tile t).vec.r.mask (wIMM6 h.word % 8)).getLsbD (32 * b + i)) :
    VecBlocks i s s1 t h g := by
  refine vec_blocks hs hi he hv hpb (by rw [if_neg (by rw [hmaj]; exact hne)]) ?_
  obtain ⟨p1, p2, p3, p4, p5, p6, p7, p8, p9⟩ := vec_popped hs
  obtain ⟨o1, o2, o3⟩ := operands_popped hs hi
  obtain ⟨q, q1, q2⟩ := arith_run (w := popHead s1 t .vector) (t := t) (h := h) (useB := false) (sel := false) (useD := false) (bf := bf) (rf := rf)
    (by rw [p2]; exact hi.2.2.1) (fun h => by simp at h)
  refine ⟨q, by rw [hrun, q1, p2], fun b => ?_⟩
  rw [q2, hg]
  simp only [Bool.false_eq_true, if_false, List.append_nil, o1, o2, p2]
  exact bfxResult_one _ _ _

/-- The head that starts has the major opcode asked for. -/
theorem starts_maj {s s1 : State} {t : Nat} {e : Engine} {maj min : Nat} {h : QEntry} (hs : Starts s t e maj min h s1) : wMaj h.word = maj := by
  have := hs.2.1
  simp only [headOf] at this
  split at this
  · simp at this
  · split at this
    · simp at this
    · split at this
      · rename_i hq; simp at this hq; rw [← this]; exact hq.1
      · simp at this

end Sys2Proof.Machine
end

