-- ==== Sys2Proof/Tests/Core.lean ====
section
/-!
SUPPORT. Small states for the tests, and witnesses of the hypotheses of the statements about registers and the control core.
-/
namespace Sys2Proof.Tests
open Sys2Proof Sys2Proof.Machine

set_option Elab.async false

/-- A READY module with running firmware, of which die C0 is UP. -/
def up : State :=
  setFs { State.reset with pm := { State.reset.pm with pins :=
      { Pins.reset with vin := true, pwrEn := true, aon := true, rails := true, good := true } } }
    [(fPKG_DIE_STATUS_STATE 0, 1), (fPM_STATUS_FW_RUNNING, 1), (fPM_STATUS_STAGE, 6)]

/-- Tile 0 of that module runs a task with the word w at pc 0. -/
def core (w : Word) (f : Tile → Tile) : State :=
  up.setTile 0 (f { Tile.reset with phase := .running, winSize := 4096, oc := putBytes [] 0 (toBytes 8 w.toNat) })

/-- s1 holds a, and s2 holds b. -/
def with12 (a b : Word) (x : Tile) : Tile := writeS (writeS x 1 a) 2 b

/-! ### Registers -/

/-- R13: TILE_WAIT_LIMIT takes a write, and TILE_DEFER_FOREIGN has an RC field. R12: TILE_START_ARG0 has two halves. -/
theorem witness_RegisterAccesses :
    (plainWord up 0x400020 = none ∧ (∃ r f, regAt 0x400020 = some r ∧ r.width = 32 ∧ f ∈ r.fields ∧ f.access = .rw) ∧ CsrOpen up 0x400020 ∧
      wholeRow up 0x400020 0xFFFFFFFF = none ∧ ∀ w, afterWrite w 0x400020 0xFFFFFFFF = w) ∧
    (plainWord up 0x400A10 = none ∧ (∃ r f, regAt 0x400A10 = some r ∧ r.width = 32 ∧ f ∈ r.fields ∧ f.access = .rc) ∧ CsrOpen up 0x400A10) ∧
    (plainWord up 0x400030 = none ∧ plainWord up 0x400034 = none ∧ regAt 0x400034 = none ∧ CsrOpen up 0x400030 ∧ ¬ CsrOpen State.reset 0x400030 ∧
      ∃ r, regAt 0x400030 = some r ∧ r.width = 64) := by
  refine ⟨⟨by decide +kernel, ⟨_, ⟨"LIMIT", 31, 0, .rw, 100000000⟩, rfl, by decide +kernel, by decide +kernel, rfl⟩, ⟨by decide +kernel, by decide +kernel, ?_⟩, by decide +kernel, fun _ => rfl⟩,
    ⟨by decide +kernel, ⟨_, ⟨"COUNT", 31, 0, .rc, 0⟩, rfl, by decide +kernel, by decide +kernel, rfl⟩, ⟨by decide +kernel, by decide +kernel, ?_⟩⟩,
    by decide +kernel, by decide +kernel, by decide +kernel, ⟨by decide +kernel, by decide +kernel, ?_⟩, fun h => absurd h.1 (by decide +kernel), _, rfl, rfl⟩
  all_goals intro t h; cases (show some 0 = some t from h); decide +kernel

/-! ### The control core -/

/-- Every ALU minor opcode is ready in both formats, also with the result in an operand, and with the greatest immediate. -/
theorem witness_ScalarInstructions :
    (∀ m ∈ List.range 0x17, AluReady (core (aluWord m 1 1 (.reg 2)) id) 0 m 1 1 (.reg 2) ∧ AluReady (core (aluWord m 63 0 (.imm (-1))) id) 0 m 63 0 (.imm (-1))) ∧
    (∀ m ∈ [6, 7, 8], ShiftReady (core (shiftWord m 1 1 (.reg 2)) id) 0 m 1 1 (.reg 2) ∧ ShiftReady (core (shiftWord m 3 1 (.imm 63)) id) 0 m 3 1 (.imm 63)) := by
  unfold AluReady ShiftReady CoreReady
  decide +kernel

/-- The counts of bits at their ends, LI and LIH, and the divisions: −2^63 by −1, and by 0. -/
theorem witness_ScalarInstructions_bits_divisions :
    (∀ m ∈ [0x17, 0x18, 0x19], CoreReady (core (srWord 1 m 1 2 0) id) 0 (srWord 1 m 1 2 0) [1, 2]) ∧
    (∀ i < 64, (0 : Word).getLsbD i = false) ∧ (-1 : Word).getLsbD 63 = true ∧ (-1 : Word).getLsbD 0 = true ∧
    (∀ m ∈ [0, 1], CoreReady (core (slWord 3 m 1 (2 ^ 18 - 1)) id) 0 (slWord 3 m 1 (2 ^ 18 - 1)) [1]) ∧
    (∀ m ∈ [0x0C, 0x0D, 0x0E, 0x0F], AluReady (core (aluWord m 3 1 (.reg 2)) (with12 (BitVec.intMin 64) (-1))) 0 m 3 1 (.reg 2) ∧
      AluReady (core (aluWord m 3 1 (.reg 2)) id) 0 m 3 1 (.reg 2)) ∧
    srcB ((core (aluWord 0x0C 3 1 (.reg 2)) (with12 (BitVec.intMin 64) (-1))).tile 0) (.reg 2) = -1 ∧
    srcB ((core (aluWord 0x0C 3 1 (.reg 2)) id).tile 0) (.reg 2) = 0 := by
  unfold AluReady CoreReady
  refine ⟨?_, ?_, ?_, ?_, ?_, ?_, ?_, ?_⟩ <;> decide +kernel

/-- Scalar loads and stores at aligned and misaligned, mapped and unmapped addresses, and the accesses to the operand cache at its last
word, past it, and in the code window. -/
theorem witness_ScalarMemory_issue :
    (∀ m ∈ List.range 7, CoreReady (core (smWord 4 m 3 1 3 0) (with12 7 0)) 0 (smWord 4 m 3 1 3 0) [3, 1]) ∧
    (∀ m ∈ List.range 4, CoreReady (core (smWord 5 m 3 1 3 0) (with12 7 0)) 0 (smWord 5 m 3 1 3 0) [3, 1]) ∧
    effAddr ((core (smWord 4 1 3 1 0 0) (with12 7 0)).tile 0) 1 0 % 2 ≠ 0 ∧ mapped 0x9000000000 = false ∧ mapped 0x8FFFFFFFF8 = true ∧
    (∀ m ∈ List.range 4, CoreReady (core (srWord 6 m 3 1 2) id) 0 (srWord 6 m 3 1 2) [3, 1, 2]) ∧
    (∀ n ∈ [0x1FFFF8, 0x200000, 4, 8], CoreReady (core (smWord 4 8 3 1 0 0) (with12 (.ofNat 64 n) 0)) 0 (smWord 4 8 3 1 0 0) [3, 1] ∧
      CoreReady (core (smWord 5 8 3 1 0 0) (with12 (.ofNat 64 n) 0)) 0 (smWord 5 8 3 1 0 0) [3, 1] ∧
      effAddr ((core (smWord 5 8 3 1 0 0) (with12 (.ofNat 64 n) 0)).tile 0) 1 0 = n) ∧
    inCode ((core (smWord 5 8 3 1 0 0) (with12 8 0)).tile 0) 8 8 = true ∧
    inCode ((core (smWord 5 8 3 1 0 0) (with12 0x1FFFF8 0)).tile 0) 0x1FFFF8 8 = false ∧
    ocUe ((core (smWord 4 8 3 1 0 0) (with12 0x1FFFF8 0)).tile 0) [(0x1FFFF8, 8)] = none := by
  unfold CoreReady
  refine ⟨?_, ?_, ?_, ?_, ?_, ?_, ?_, ?_, ?_, ?_⟩ <;> decide +kernel

/-- A clean memory: nothing is written, so no unit has an error. -/
theorem unitOpen_up {s : State} (h1 : s.mem = Mem.reset) (u : Nat) : UnitOpen s u := by
  simp only [UnitOpen, quadSteady, h1]
  exact ⟨rfl, fun p h => nomatch h⟩

theorem rangeClean_up (s : State) (h1 : s.mem = Mem.reset) (a n : Nat) : RangeClean s a n := by
  intro u _ _
  refine ⟨unitOpen_up h1 u, ?_⟩
  simp only [eddyLine, unitErr, h1]
  rfl

theorem linesFine_up (s : State) (h1 : s.mem = Mem.reset) (a n : Nat) : LinesFine s a n := by
  intro u _ _
  refine ⟨unitOpen_up h1 u, ?_⟩
  simp only [unitErr, h1]
  exact ⟨rfl, fun l h => nomatch h⟩

/-- A load, a store and an atomic of the core that wait for B, at the last word of the stacked memory. -/
theorem witness_ScalarMemory_complete :
    (∀ k ∈ [ScalarKind.load 8 true, .load 1 false, .store 8 (-1), .aadd 1, .aswap 1, .acas 1 0, .aor 1],
      OpReady (core 0 fun x => { x with ops := [⟨0, 0, 3, 0x8FFFFFFFF8, 0, k⟩] }) 0 0 ⟨0, 0, 3, 0x8FFFFFFFF8, 0, k⟩) ∧
    (∀ k, LinesFine (core 0 fun x => { x with ops := [⟨0, 0, 3, 0x8FFFFFFFF8, 0, k⟩] }) 0x8FFFFFFFF8 8) ∧
    NoSignals ((core 0 fun x => { x with ops := [⟨0, 0, 3, 0x8FFFFFFFF8, 0, .store 8 (-1)⟩] }).tile 0) := by
  refine ⟨?_, fun k => linesFine_up _ rfl _ _, ?_⟩
  · unfold OpReady; decide +kernel
  · unfold NoSignals; decide +kernel

/-- Branches and jumps, with the conditions at their ends; a target in the window and one outside it; a JALR target that is no multiple of 8. -/
theorem witness_ControlFlow_branches :
    (∀ m ∈ List.range 6, CoreReady (core (sbWord 7 m 1 2 511) (with12 (BitVec.intMin 64) (-1))) 0 (sbWord 7 m 1 2 511) [1, 2]) ∧
    (BitVec.intMin 64).toInt < (-1 : Word).toInt ∧ inWindow ((core 0 id).tile 0) (8 * 511) = true ∧ inWindow ((core 0 id).tile 0) 4096 = false ∧
    CoreReady (core (slWord 8 0 1 1) id) 0 (slWord 8 0 1 1) [1] ∧ CoreReady (core (siWord 9 0 1 1 0) (with12 4 0)) 0 (siWord 9 0 1 1 0) [1, 1] ∧
    (4 + 8 * (0 : BitVec 40).signExtend 64 : Word).toNat % 8 ≠ 0 := by
  unfold CoreReady
  refine ⟨?_, ?_, ?_, ?_, ?_, ?_, ?_⟩ <;> decide +kernel

/-- Control instructions, an illegal word, a fence on every scope with all complete and with a store under way, and issue into the last free
entry of a queue. -/
theorem witness_ControlFlow_control :
    (∀ m ∈ [0, 1], CoreReady (core (ctWord 0x30 m 0 0 0 0 0) id) 0 (ctWord 0x30 m 0 0 0 0 0) []) ∧
    CoreReady (core (ctWord 0x30 2 0 1 0 0 0) (with12 (-1) 0)) 0 (ctWord 0x30 2 0 1 0 0 0) [1] ∧
    CoreReady (core (ctWord 0x30 3 0 0 0 0 0xFFFFFF) id) 0 (ctWord 0x30 3 0 0 0 0 0xFFFFFF) [] ∧
    CoreReady (core 0 id) 0 0 [] ∧ legal (featureEff (core 0 id)) 0 = false ∧
    CoreReady (core (ctWord 0x30 4 0 0 0 0 31) id) 0 (ctWord 0x30 4 0 0 0 0 31) [] ∧
    (∀ i < 5, scopeDone ((core (ctWord 0x30 4 0 0 0 0 31) id).tile 0) i = true) ∧
    scopeDone ((core (ctWord 0x30 4 0 0 0 0 31) fun x => { x with ops := [⟨0, 0, 0, 0, 0, .store 8 0⟩] }).tile 0) 4 = false ∧
    CoreReady (core (ctWord 0x32 2 3 0 0x800 0 0) id) 0 (ctWord 0x32 2 3 0 0x800 0 0) (issueRegs (ctWord 0x32 2 3 0 0x800 0 0)) ∧
    legal (featureEff (core 0 id)) (ctWord 0x32 2 3 0 0x800 0 0) = true ∧ queueOf (ctWord 0x32 2 3 0 0x800 0 0) = some .vector ∧
    (List.replicate 63 (⟨0, 0, [], 0, none, false, none⟩ : QEntry)).length < Engine.vector.depth := by
  unfold CoreReady
  refine ⟨?_, ?_, ?_, ?_, ?_, ?_, ?_, ?_, ?_, ?_, ?_, ?_⟩ <;> decide +kernel

/-- A counter at its limit, an add that passes it, a wait that is served at once, one that begins, and one that goes on and is served. -/
theorem witness_ControlFlow_tokens :
    (let x := (core 0 fun x => setTk x 15 [(0, 65535)]).tile 0
     (∀ j < 16, tkCount x j ≤ 65535) ∧ tkCount x 15 = 65535 ∧ storesDone x = true) ∧
    (∀ m ∈ [0, 2, 5], CoreReady (core (ctWord 0x31 m 0 0 0 15 (if m = 2 then 65535 else 0)) id) 0 (ctWord 0x31 m 0 0 0 15 (if m = 2 then 65535 else 0)) []) ∧
    CoreReady (core (ctWord 0x31 3 1 0 0 15 0) id) 0 (ctWord 0x31 3 1 0 0 15 0) [1] ∧
    (∀ m ∈ [1, 4], CoreReady (core (ctWord 0x31 m 0 0 0 15 (if m = 4 then 65535 else 0)) id) 0 (ctWord 0x31 m 0 0 0 15 (if m = 4 then 65535 else 0)) []) ∧
    (let s := core (ctWord 0x31 1 0 0 0 15 0) fun x => { setTk x 15 [(0, 1)] with coreWait := some (0, 15, 1) }
     isLive s 0 = true ∧ clkRuns s 0 = true ∧ fetched (s.tile 0) = ctWord 0x31 1 0 0 0 15 0 ∧ waitServed s 0 15 1 (some 0) = true ∧ 1 ≤ tkCount (s.tile 0) 15) ∧
    (∀ n ∈ [0, 8, 9], CoreReady (core (ctWord 0x32 0 1 0 n 0 0) id) 0 (ctWord 0x32 0 1 0 n 0 0) [1]) := by
  unfold CoreReady
  refine ⟨?_, ?_, ?_, ?_, ?_, ?_⟩ <;> decide +kernel

end Sys2Proof.Tests
end

