-- ==== Sys2Proof/Tests/Mail.lean ====
section
/-!
SUPPORT. Witnesses of the hypotheses of the statements about tasks, messages, barriers and collectives.
-/
namespace Sys2Proof.Tests
open Sys2Proof Sys2Proof.Machine

set_option Elab.async false

/-- An instruction at the head of a queue, with the s registers of its issue. -/
def entry (w : Word) (regs : SMap Word) : QEntry := ⟨w, 0, regs, 0, none, false, none⟩

/-- Tile 0 runs a task with one instruction in a queue. -/
def engine (e : Engine) (h : QEntry) (f : Tile → Tile) : State :=
  up.setTile 0 (f (setQueue { Tile.reset with phase := .running } e [h]))

/-- A word of format MS that names a pigeonhole. -/
def msg (min sa sb ph : Nat) : Word := BitVec.ofNat 64 (0x28 * 2 ^ 58 + min * 2 ^ 52 + sa * 2 ^ 40 + sb * 2 ^ 34 + ph * 2 ^ 20)

/-! ### Tasks -/

/-- A tile whose TILE_START registers ask for a window of `n` pages at page `b` and an entry. -/
def startAt (n b e : Nat) (f : Tile → Tile) : State :=
  setFs (up.setTile 0 (f Tile.reset)) [(fTILE_START_WIN_SIZE 0, n), (fTILE_START_WIN_BASE 0, b), (fTILE_START_ENTRY_ENTRY 0, e)]

/-- R126 at its bounds: 64 pages that end at the end of the operand cache, and every condition broken alone. R119: a running task. -/
theorem witness_TaskLife_start :
    (let s := startAt 64 448 262136 id
     dieUp s (dieOf 0) = true ∧ (s.tile 0).phase ≠ .running ∧ (s.tile 0).phase ≠ .fenced ∧ getF s (fTILE_START_WIN_SIZE 0) * 4096 = 262144 ∧
     getF s (fTILE_START_WIN_BASE 0) * 4096 + getF s (fTILE_START_WIN_SIZE 0) * 4096 = 0x200000 ∧ getF s (fTILE_START_ENTRY_ENTRY 0) % 8 = 0 ∧
     getF s (fTILE_START_ENTRY_ENTRY 0) < getF s (fTILE_START_WIN_SIZE 0) * 4096 ∧ getF s fHST_LOAD_STATUS_STATE ≠ 1) ∧
    getF (startAt 0 0 0 id) (fTILE_START_WIN_SIZE 0) * 4096 < 4096 ∧ 262144 < getF (startAt 65 0 0 id) (fTILE_START_WIN_SIZE 0) * 4096 ∧
    getF (startAt 1 0 4 id) (fTILE_START_ENTRY_ENTRY 0) % 8 ≠ 0 ∧ 4096 ≤ getF (startAt 1 0 4096 id) (fTILE_START_ENTRY_ENTRY 0) ∧
    dieUp (startAt 1 0 0 fun x => { x with phase := .running }) 0 = true ∧ isLive (core 0 id) 0 = true ∧ clkRuns (core 0 id) 0 = true := by
  refine ⟨?_, ?_, ?_, ?_, ?_, ?_, ?_, ?_⟩ <;> decide +kernel

/-- 64 ns late, with the reset value of TILE_WAIT_LIMIT: a wait of the core, of a queue head, of a held message, and of a GWAIT of a barrier with a
limit of its own. -/
theorem witness_TaskLife_waits :
    (let s := { core 0 fun x => { x with coreWait := some (0, 3, 1) } with now := 100000064 }
     isLive s 0 = true ∧ (s.tile 0).coreWait = some (0, 3, 1) ∧ tokenLate s 0 3 1 0 = true) ∧
    (∀ n ∈ [1, 2, 3, 4], ∃ e, unitEngine n = some e ∧
      let s := { engine e { entry 0 [] with waitFrom := some 0 } id with now := 100000064 }
      isLive s 0 = true ∧ tokenLate s 0 (wWTK (entry 0 []).word) 1 0 = true) ∧
    (let h := { entry (msg 1 1 0 5) [] with held := some (0, 65536 + 5) }
     let s := { engine .message h id with now := 100000064 }
     isLive s 0 = true ∧ pastBy64 s (headDeadline s 0 h) = true ∧ recvServed s 0 h = false) ∧
    (let s := { engine .message (entry (msg 4 0 0 1023) []) fun x => { x with msg := { x.msg with gw := some ⟨1023, 0, 0, none, false⟩ } } with
       now := 200000064, mail := { MailSt.reset with bars := [(1023, ⟨⟨0, 0, 1, 100000000⟩, 0, []⟩)] } }
     isLive s 0 = true ∧ gwaitLate s 0 = some 1023) := by
  refine ⟨?_, ?_, ?_, ?_⟩
  · decide +kernel
  · intro n h
    simp only [List.mem_cons, List.not_mem_nil, or_false] at h
    obtain rfl | rfl | rfl | rfl := h
    · exact ⟨.matrix, rfl, by decide +kernel⟩
    · exact ⟨.vector, rfl, by decide +kernel⟩
    · exact ⟨.stream, rfl, by decide +kernel⟩
    · exact ⟨.message, rfl, by decide +kernel⟩
  · decide +kernel
  · decide +kernel

/-- A task after HALT with nothing left, and one whose abort is under way. -/
theorem witness_TaskLife_ends :
    (let s := core 0 fun x => { x with halting := true }
     isLive s 0 = true ∧ (s.tile 0).halting = true ∧ quiet (s.tile 0) = true) ∧
    (let s := core 0 fun x => { x with aborting := true }
     isRunning s 0 = true ∧ (s.tile 0).aborting = true) := by
  decide +kernel

/-! ### Messages -/

/-- A message instruction at the head of tile 0, with s1 = a and s2 = n; pigeonhole 5 is `e`, in the state `r`, and device memory holds b from 0 on. -/
def post (min sb : Nat) (a n : Word) (e : PhEntry) (r : PhRt) (b : List Byte) : State :=
  { engine .message (entry (msg min 1 sb 5) [(1, a), (2, n)]) id with
    mem := { Mem.reset with bytes := putBytes [] 0 b }
    mail := { MailSt.reset with phs := [(5, e)], rts := [(5, r)] } }

/-- A ring of two slots at 0x1000, the second of which is the last free one; its buffers of 64 bytes at 0x2000. -/
def ring : PhEntry := ⟨1, false, false, 2, 0x1000, 0x2000, 64, 0, 0, 0, 0⟩
def oneTaken : PhRt := { PhRt.start with queue := [⟨0, none, 0⟩], nextSlot := 1 }

/-- A send form with 64 bytes of bulk at 0x3000. -/
def form : List Byte := toBytes 16 0 ++ toBytes 8 0x3000 ++ toBytes 4 64 ++ toBytes 36 0

/-- No stored error: memory is clean. -/
theorem rangeClean_of {s : State} (h1 : s.mem.err = []) (h2 : s.mem.eddy = []) (h3 : s.mem.quadChange = []) (h4 : s.mem.net = []) (a n : Nat) :
    RangeClean s a n := by
  intro u _ _
  simp only [UnitClean, UnitOpen, eddyLine, unitErr, quadSteady, h1, h2, h3, h4]
  exact ⟨⟨rfl, fun p h => nomatch h⟩, rfl⟩

/-- MSEND into the last free slot of a ring, and by the owner into the last entry of its deferral queue. -/
theorem witness_MessageSend :
    (let s := post 0 0 0 0 ring oneTaken form
     let h := entry (msg 0 1 0 5) [(1, 0), (2, 0)]
     let f := sendForm (memBytes s 0 64)
     Starts s 0 .message 0x28 0 h (takeToken s 0 .message h).2 ∧ s.devq = [] ∧ (s.tile 0).msg.started = none ∧ h.held = none ∧ wCLASS h.word = 0 ∧
     namedPh h = some 5 ∧ capS h (wSA h.word) = 0 ∧ f.bulk = 0x3000 ∧ f.len = 64 ∧ f.resv = false ∧ mappedRange f.bulk f.len = true ∧
     slotFree s 5 = true ∧ pickSlot s 5 = some 1 ∧ formBad s 0 ring.bufSize f = false) ∧
    (∀ a n, RangeClean (post 0 0 0 0 ring oneTaken form) a n) ∧
    (∀ k ∈ [4, 5],
     let e := { PhEntry.none with kind := k, depth := if k = 4 then 64 else 16 }
     let s := post 0 0 0 0 e .start []
     itemRoom s e = true ∧ e.owner = 0 ∧ formBad s 0 0 (sendForm (memBytes s 0 64)) = false) := by
  refine ⟨?_, fun a n => rangeClean_of rfl rfl rfl rfl a n, ?_⟩
  · unfold Starts; decide +kernel
  · decide +kernel

/-- A packet in the ingress pool, with running state r of pigeonhole 5 and state m of the messages. -/
def pool (typ id addr : Nat) (payload : List Byte) (e : PhEntry) (r : PhRt) : State :=
  { up with
    mail := { MailSt.reset with phs := [(5, e)], rts := [(5, r)] }
    fab := { up.fab with inq := [⟨0, 7, ⟨0, 513, 0, false, false, false, false, typ, 0, 0, addr, id, payload⟩⟩] } }

/-- A MAIL packet for the last free slot, one that finds none, a reply to the request that holds the last slot and one to no request, bulk for the last bytes of a buffer, and a CREDIT packet. -/
theorem witness_MessagePackets :
    (let s := pool tMAIL (pktId 5 9 0) 0 (toBytes 64 0) ring oneTaken
     ∃ q, s.fab.inq[0]? = some q ∧ idDest q.p.id = 5 ∧ q.p.typ = tMAIL ∧ q.p.payload.length = 64 ∧ leAt q.p.payload 0x18 4 = 0 ∧
       bit (leAt q.p.payload 5 1) 3 = false ∧ (phRt s 5).parts = [] ∧ slotFree s 5 = true ∧ pickSlot s 5 = some 1) ∧
    (let s := pool tMAIL (pktId 5 9 0) 0 (toBytes 64 0) { ring with depth := 1 } oneTaken
     ∃ q, s.fab.inq[0]? = some q ∧ idDest q.p.id = 5 ∧ (phRt s 5).parts = [] ∧ slotFree s 5 = false ∧ (phRt s 5).lossFrom = none) ∧
    (∀ r ∈ [([513], requestKey 0 9), ([514], requestKey 0 9)],
     let s := pool tMAIL (pktId 5 9 0) 0 (toBytes 64 0) ring { oneTaken with resv := [r] }
     let s := { s with fab := { s.fab with inq := s.fab.inq.map fun q => { q with p := { q.p with cls := 1 } } } }
     ∃ q, s.fab.inq[0]? = some q ∧ idDest q.p.id = 5 ∧ q.p.cls = 1 ∧ (phRt s 5).parts = [] ∧ pickSlot s 5 = some 1 ∧
       firstIdx (fun l : List Nat × Nat => l.1.contains q.p.src && l.2 == replyKey q.p) (phRt s 5).resv =
         if r.1 = [513] then some 0 else none) ∧
    (let w : Partial := ⟨513, 9, 15, some 1, 0, none⟩
     let s := pool tBULK (pktId 5 9 15) 32 (toBytes 32 0) ring { PhRt.start with parts := [w] }
     ∃ q, s.fab.inq[0]? = some q ∧ idDest q.p.id = 5 ∧ w ∈ (phRt s 5).parts ∧ w.src = q.p.src ∧ w.sph = chanKey q.p ∧ w.tag = idTag q.p.id ∧
       q.p.addr % 2 ^ 32 + q.p.payload.length ≤ ring.bufSize) ∧
    (let s := pool tCREDIT (pktId 5 0 0) 65535 [] { PhEntry.none with kind := 2, target := 513, depth := 1 } .start
     ∃ q, s.fab.inq[0]? = some q ∧ idDest q.p.id = 5 ∧ q.p.typ = tCREDIT ∧ (phEntry s 5).kind = 2 ∧ s.mail.msgs = []) := by
  refine ⟨⟨_, rfl, ?_⟩, ⟨_, rfl, ?_⟩, fun r _ => ⟨_, rfl, ?_⟩, ⟨_, rfl, ?_⟩, ⟨_, rfl, ?_⟩⟩
  rotate_left 2
  · rename_i h
    simp only [List.mem_cons, List.not_mem_nil, or_false] at h
    rcases h with rfl | rfl <;> decide +kernel
  all_goals decide +kernel

/-- A started MSEND; MRECV and MTRY of the only descriptor; MTRY behind a message instruction; MTRY of an empty ring; MCOUNT of each kind; MCREDIT of every held slot. -/
theorem witness_MessageAcceptAndReceive :
    (let s := engine .message (entry (msg 0 1 0 5) []) fun x => { x with msg := { x.msg with started := some 3 } }
     isLive s 0 = true ∧ headOf s 0 .message 0x28 0 = some (entry (msg 0 1 0 5) []) ∧ (s.tile 0).msg.started = some 3 ∧ s.mail.msgs = []) ∧
    (let s := post 1 0 0x8FFFFFFFC0 0 ring oneTaken []
     let h := entry (msg 1 1 0 5) [(1, 0x8FFFFFFFC0), (2, 0)]
     Starts s 0 .message 0x28 1 h (takeToken s 0 .message h).2 ∧ namedPh h = some 5 ∧ (phEntry s 5).kind = 1 ∧
     (phRt s 5).queue = [⟨0, none, 0⟩] ∧ capS h (wSA h.word) = 0x8FFFFFFFC0 ∧ mappedRange 0x8FFFFFFFC0 64 = true ∧
     earlierRecv s 0 5 none = false ∧ earlierRecv (s.setTile 0 (setQueue (s.tile 0) .message [{ h with held := some (0, waitInfo 1 5) }])) 1 5 none = true) ∧
    (∀ n ∈ [8, 9], CoreReady (core (msWord n 3 (if n = 9 then 1 else 0) (.ph 16383)) id) 0 (msWord n 3 (if n = 9 then 1 else 0) (.ph 16383))
      (if n = 9 then [3, 1] else [3])) ∧
    (let w := msWord 9 3 1 (.ph 5)
     let s := core w fun x => setQueue x .message [entry (msg 2 0 2 5) []]
     CoreReady s 0 w [3, 1] ∧ (s.tile 0).msg.queue ≠ [] ∧ coreAccesses ((core w id).tile 0) 0 64 = false) ∧
    (let s := post 2 2 0 65535 ring { PhRt.start with held := List.replicate 2 ⟨0, none, 0⟩ } []
     let h := entry (msg 2 0 2 5) [(2, 2)]
     Starts (s.setTile 0 (setQueue (s.tile 0) .message [h])) 0 .message 0x28 2 h (s.setTile 0 (setQueue (s.tile 0) .message [h])) ∧
     wPH h.word = 5 ∧ capS h (wSB h.word) = 2 ∧ 2 ≤ (phRt s 5).held.length) := by
  unfold Starts CoreReady
  refine ⟨?_, ?_, ?_, ?_, ?_⟩ <;> decide +kernel

/-! ### Barriers -/

/-- Barrier 1023 in a state x, with `h` at the head of tile 0's message queue; the module is at (32, 0). -/
def barrier (h : QEntry) (x : Bar) : State :=
  let s := setFs (engine .message h id) [(fOPT_POS_LROW, 32), (fOPT_POS_LCOL, 0)]
  { s with mail := { MailSt.reset with bars := [(1023, x)] } }

def jobBar : Bar := ⟨⟨3, 0, 2, 0⟩, 4, [⟨4, [0, 0], some 0, [], none, []⟩, ⟨5, [0], none, [], none, []⟩]⟩

/-- GARRIVE completes the local stage of the instance after the current one, where the current one has all its local arrivals; GWAIT begins, and
ends on a closure at its deadline. -/
theorem witness_Barriers_tile :
    (let h := entry (msg 3 0 0 1023) []
     let s := barrier h jobBar
     Starts s 0 .message 0x28 3 h s ∧ barOf s 1023 = some jobBar ∧ wPH h.word % 1024 = 1023 ∧ jobBar.e.localN ≤ (barInst jobBar 4).loc.length ∧
     (barInst jobBar 5).loc.length < jobBar.e.localN) ∧
    (let h := entry (msg 4 0 0 1023) []
     let s := barrier h jobBar
     let g : GaugeWait := ⟨1023, 3, 0, some 100000000, true⟩
     let s2 := s.onTile 0 fun x => { x with msg := { x.msg with gw := some g } }
     Starts s 0 .message 0x28 4 h s ∧ (s.tile 0).msg.gw = none ∧ Starts s2 0 .message 0x28 4 h s2 ∧ (s2.tile 0).msg.gw = some g ∧
     gwDeadline s2 0 g = some 100000000) := by
  unfold Starts; decide +kernel

/-- Arrival packets at the first closed instance, the current one, the last of the three, and one beyond, from row and column members; the row
stage of a JOB barrier and the stage of a TILES barrier 64 ns after E. -/
theorem witness_Barriers_device :
    (∀ n ∈ [3, 4, 6, 7], ∀ col ∈ [0, 1],
     let s := { barrier (entry 0 []) jobBar with fab := { Fab.reset with inq :=
       [⟨0, 9, ⟨0, if col = 0 then 288 else 33, 3, false, false, false, false, tBARRIER, 0, 0, n, 1023 + col * 2 ^ 31, []⟩⟩] } }
     ∃ q, s.fab.inq[0]? = some q ∧ q.p.typ = tBARRIER ∧ q.p.id % 1024 = 1023 ∧ bit q.p.id 30 = false ∧ q.p.addr = n ∧ barOf s 1023 = some jobBar) ∧
    (let x : Bar := { jobBar with e := ⟨3, 1, 2, 0⟩ }
     let s := { barrier (entry 0 []) x with now := 64 }
     stageE s x = some (0, false) ∧ x.e.axis = 3 ∧ (barInst x x.cur).rowAt = none) ∧
    (let x : Bar := ⟨⟨0, 0, 2, 0⟩, 4, [⟨4, [0, 9], none, [], none, []⟩]⟩
     let s := { barrier (entry 0 []) x with now := 73 }
     stageE s x = some (9, false) ∧ isPhaseBarrier s 1023 = false ∧ x.e.axis ≠ 3) := by
  refine ⟨?_, ?_, ?_⟩
  · intro n hn c hc
    simp only [List.mem_cons, List.not_mem_nil, or_false] at hn hc
    obtain rfl | rfl | rfl | rfl := hn <;> obtain rfl | rfl := hc <;> exact ⟨_, rfl, by decide +kernel⟩
  · decide +kernel
  · decide +kernel

/-! ### Collectives -/

/-- Collective 255 of a kind over the row, shards of 32 elements; the module is member 0 of 64. -/
def coll (kind : Nat) (insts : List CollInst) : Coll :=
  ⟨⟨kind, false, false, false, 0, 1, 0, 0, 0, 32, 0x20000, 0x30000, 0, 5⟩, some 7, false, insts, [], none⟩

/-- Its module, with the descriptor b at 0, `h` at the head of tile 0's message queue, and q in the ingress pool. -/
def collState (c : Coll) (h : QEntry) (b : List Byte) (q : List InPkt) : State :=
  let s := setFs (engine .message h id) [(fOPT_POS_LROW, 32), (fOPT_POS_LCOL, 0)]
  { s with
    now := 64, mem := { Mem.reset with bytes := putBytes [] 0 b }, fab := { Fab.reset with inq := q }
    mail := { MailSt.reset with phs := [(5, ring)], colls := [(255, c)] } }

/-- MCOLL of the oldest open step, of a reduction and of an all-gather. -/
theorem witness_CollectiveStart :
    (∀ k ∈ [0, 1, 2],
     let h := entry (msg 5 1 0 0) [(1, 0)]
     let d := toBytes 1 255 ++ toBytes 1 1 ++ toBytes 2 9 ++ toBytes 4 7 ++ toBytes 8 0x10000 ++ toBytes 48 0
     let c := coll k []
     let s := collState c h d []
     Starts s 0 .message 0x28 5 h s ∧ s.devq = [] ∧ capS h (wSA h.word) = 0 ∧ memBytes s 0 64 = d ∧ leAt d 0 1 = 255 ∧ leAt d 1 1 ≤ 1 ∧
     leAt d 4 4 = 7 ∧ leAt d 8 8 = 0x10000 ∧ leAt d 16 48 = 0 ∧ collOf s 255 = some c ∧ axisN s 0 = 64 ∧ memberOf s 0 (ownLog s) = 0 ∧
     elemSize c.e.fmtIn = 4 ∧ mappedRange 0x10000 (64 * 32 * 4) = true ∧ oldestFor s c 7 = 7 ∧ instOf c 7 = none ∧ (phEntry s 5).kind = 1 ∧
     slotFree s 5 = true ∧ s.mail.sends = [] ∧ s.mail.msgs = [] ∧ s.fab.inq = [] ∧ s.mem.quadChange = []) ∧
    (∀ k a n, RangeClean (collState (coll k []) (entry (msg 5 1 0 0) [(1, 0)])
      (toBytes 1 255 ++ toBytes 1 1 ++ toBytes 2 9 ++ toBytes 4 7 ++ toBytes 8 0x10000 ++ toBytes 48 0) []) a n) := by
  refine ⟨?_, fun k a n => rangeClean_of rfl rfl rfl rfl a n⟩
  unfold Starts; decide +kernel

/-- A contribution to the open step stamped at its E, one with an earlier one behind it in the pool, a late one, and the last packet of a gather part. -/
theorem witness_CollectivePackets :
    (let q : InPkt := ⟨0, 0, ⟨0, 288, 3, false, false, false, false, tCOLL, 0, 7, 0, 255, toBytes 128 0⟩⟩
     let x : CollInst := { CollInst.start 7 with parts := [⟨2, 32, 0⟩], first := some 0 }
     let s := collState (coll 0 [x]) (entry 0 []) [] [q]
     s.fab.inq[0]? = some q ∧ collOf s 255 = some (coll 0 [x]) ∧ bit q.p.id 31 = false ∧ instOf (coll 0 [x]) 7 = some x ∧
     instE s (coll 0 [x]) x = some (0, false) ∧ q.stamp ≤ 0 ∧ (∀ y ∈ s.fab.inq, isContrib 255 y = true → q.stamp ≤ y.stamp)) ∧
    (let q : InPkt := ⟨0, 9, ⟨0, 288, 3, false, false, false, false, tCOLL, 0, 7, 0, 255, toBytes 128 0⟩⟩
     let s := collState (coll 0 []) (entry 0 []) [] [q, { q with stamp := 8 }]
     s.fab.inq[0]? = some q ∧ bit q.p.id 31 = false ∧ ∃ y ∈ s.fab.inq, isContrib 255 y = true ∧ y.stamp < q.stamp) ∧
    (let q : InPkt := ⟨0, 0, ⟨0, 288, 3, false, false, false, false, tCOLL, 0, 6, 0, 255, toBytes 128 0⟩⟩
     let x := CollInst.start 7
     let s := collState (coll 0 [x]) (entry 0 []) [] [q]
     (coll 0 [x]).oldest = some (q.p.step + 1) ∧ instOf (coll 0 [x]) (q.p.step + 1) = some x ∧ instE s (coll 0 [x]) x = none) ∧
    (let q : InPkt := ⟨0, 0, ⟨0, 288, 3, false, false, false, false, tCOLL, 0, 7, 0, 255 + 2 ^ 31, toBytes 128 0⟩⟩
     let x := CollInst.start 7
     let s := collState (coll 1 [x]) (entry 0 []) [] [q]
     bit q.p.id 31 = true ∧ memberOf s 0 q.p.src = 1 ∧ (coll 1 [x]).oldest = some q.p.step ∧ instOf (coll 1 [x]) 7 = some x ∧ x.gather = []) := by
  refine ⟨?_, ?_, ?_, ?_⟩ <;> decide +kernel

/-- A reduction 64 ns after its E, and an all-gather whose 64 shards have landed. -/
theorem witness_CollectiveEnd :
    (let x : CollInst := { CollInst.start 7 with parts := [⟨2, 32, 0⟩], first := some 0, own := true }
     let s := collState (coll 0 [x]) (entry 0 []) [] []
     (coll 0 [x]).oldest = some x.step ∧ instOf (coll 0 [x]) x.step = some x ∧ instE s (coll 0 [x]) x = some (0, false) ∧ 0 + 64 ≤ s.now ∧
     x.closed = none ∧ s.fab.inq = [] ∧ s.mem.quadChange = []) ∧
    (let x : CollInst := { CollInst.start 7 with gather := (List.range 64).map fun j => (j, 32) }
     let s := collState (coll 1 [x]) (entry 0 []) [] []
     (coll 1 [x]).insts = [x] ∧ ∀ j < axisN s 0, (j, 32) ∈ x.gather) := by
  decide +kernel

end Sys2Proof.Tests
end

