-- ==== Sys2Proof/Tests/Optics.lean ====
section
/-!
SUPPORT. Witnesses of the hypotheses of the statements about discovery, lanes and lasers.
-/
namespace Sys2Proof.Tests
open Sys2Proof Sys2Proof.Machine

set_option Elab.async false

/-! ### Discovery -/

/-- A discovery under way in DSTATE d, which began at 0 with a window of 500 ms. -/
def sweep (d : Nat) (l : List (Fld × Nat)) : State :=
  setFs { up with fab := { up.fab with disc := some ⟨0, 500, false⟩ } } ((fOPT_FAB_STATUS_DSTATE, d) :: l)

/-- A beacon (R381) of engine e from the module of a serial that claims an index, a row and a column. -/
def beaconBytes (e role serial index row col : Nat) : List Byte :=
  let b := toBytes 4 0x4E434245 ++ toBytes 1 1 ++ toBytes 1 e ++ toBytes 1 role ++ toBytes 1 0 ++ toBytes 8 serial ++ toBytes 1 index ++ toBytes 1 row ++
    toBytes 1 col ++ toBytes 41 0
  b ++ toBytes 4 (crc32 b)

def heard (s : State) (e : Nat) (b : List Byte) : State := setLane s e 3 { LaneRt.start with units := [⟨1, 0, []⟩, ⟨4, 0, b⟩] }

/-- The start of a discovery, its close, the next line set at the periods of both sides and 1 ns early, and
beacons out of a fabric lane and of the twin port, at the period and 1 ns early. -/
theorem witness_DiscoverySweep :
    (getF up fPM_STATUS_STAGE = 6 ∧ bitF up fCMP_PHASE_VALID = false ∧ bitF (setF up fCMP_PHASE_VALID 1) fCMP_PHASE_VALID = true) ∧
    (∀ d ∈ [1, 2], sweeping (sweep d []) = true ∧ (sweep d []).fab.disc = some ⟨0, 500, false⟩ ∧ getF (sweep d []) fOPT_FAB_STATUS_DSTATE = d) ∧
    (discPort (sweep 1 []) 15).txSet ≠ 2 ∧
    (∀ n ∈ [999999, 1000000, 3999999, 4000000], sweeping { sweep 1 [] with now := n } = true ∧ discPort { sweep 1 [] with now := n } 15 = .start) ∧
    (∀ n ∈ [9999, 10000], let s := { setLane (sweep 1 []) 15 20 { LaneRt.start with beaconAt := some 0 } with now := n }
     sweeping s = true ∧ (laneRt s 15 20).beaconAt = some 0 ∧ (0 + 10000 ≤ s.now ↔ n = 10000)) := by
  refine ⟨?_, ?_, ?_, ?_, ?_⟩ <;> decide +kernel

/-- A beacon with a bad checksum, and a good one outside a sweep and within one: the module's own, a peer's that claims an index, the twin's. -/
theorem witness_DiscoveryHears :
    (let b := beaconBytes 0 0 5 64 0 0
     let s := heard (sweep 1 []) 0 (b.take 60 ++ [0, 0, 0, 0])
     ∃ w, (laneRt s 0 3).units = [⟨1, 0, []⟩] ++ w :: [] ∧ w.utype = 4 ∧ crc32 ((w.body.take 64).take 60) ≠ leAt (w.body.take 64) 60 4) ∧
    (∀ x ∈ [(0, 0, 0, 0x7F), (0, 0, 5, 64), (16, 2, 5, 1)],
     let b := beaconBytes x.1 x.2.1 x.2.2.1 x.2.2.2 62 3
     let s := heard (sweep 2 [(fOPT_POS_ROW, 1), (fOPT_POS_COL, 3)]) x.1 b
     (laneRt s x.1 3).units = [⟨1, 0, []⟩] ++ ⟨4, 0, b⟩ :: [] ∧ b.take 64 = b ∧ b.length = 64 ∧ leAt b 0 4 = 0x4E434245 ∧ leAt b 4 1 = 1 ∧
     crc32 (b.take 60) = leAt b 60 4 ∧ sweeping s = true ∧ sweeping (heard up x.1 b) = false ∧ leAt b 8 8 = x.2.2.1 ∧ leAt b 5 1 = x.1 ∧
     getF s fOPT_SERIAL_SERIAL = getF up fOPT_SERIAL_SERIAL ∧ leAt b 0x11 1 % 128 = 63 - getF s fOPT_POS_ROW ∧
     leAt b 0x12 1 % 128 = getF s fOPT_POS_COL ∧ getF s fOPT_FAB_STATUS_DSTATE = 2) := by
  refine ⟨⟨_, rfl, rfl, by decide +kernel⟩, by decide +kernel⟩

/-- Every row port and every column port has heard its own beacon: the majorities of R382. -/
theorem witness_DiscoveryHears_position :
    (let s := sweep 1 ((List.range 16).map fun p => (fOPT_PORT_SELF p, if p < 8 then 3 else 1))
     majority s 0 = some 3 ∧ majority s 1 = some 1 ∧ getF s fOPT_FAB_STATUS_DSTATE = 1) ∧
    (let s := sweep 1 ((List.range 16).map fun p => (fOPT_PORT_SELF p, if p = 7 then 4 else if p < 8 then 3 else 1))
     majority s (portRole s 7) = some 3 ∧ getF s (fOPT_PORT_SELF 7) = 4) := by
  decide +kernel

/-- The end of a sweep at its window and by a close, with a position in the grid and without; and before that. -/
theorem witness_DiscoveryHears_end :
    (let s := { sweep 2 [(fOPT_POS_ROW, 63), (fOPT_POS_COL, 63)] with now := 500000000 }
     sweeping s = true ∧ 0 + 500 * 1000000 ≤ s.now ∧ getF s fOPT_POS_ROW = 63 ∧ getF s fOPT_POS_COL = 63 ∧ 23 ≤ 63 + 23 ∧ 63 < 41 + 23 ∧ 63 < 17 + 47 ∧
     s.fab.rowSub = [] ∧ s.fab.colSub = [] ∧ s.pm.evq.length < 1024) ∧
    (let s := { setF (sweep 1 []) fOPT_POS_ROW 0x7F with now := 24000000 }
     let s := { s with fab := { s.fab with disc := some ⟨0, 500, true⟩ } }
     sweeping s = true ∧ 0 + 24000000 ≤ s.now ∧ ¬ 0 + 500 * 1000000 ≤ s.now ∧ getF s fOPT_FAB_STATUS_DSTATE = 1) := by
  decide +kernel

/-! ### Lanes and lasers -/

/-- Lane 31 of engine 16 is in a state. -/
def lane (st : Nat) (r : LaneRt) : State := setLane (setF up (fOPT_LANE_LSTATE 16 31) st) 16 31 r

/-- A drop for each cause, the third within 1 s and the first; a return; the hold-out at its end and before; a margin scan and its end;
a recheck and a feed-forward update at their periods and 1 ns early; and a lock error that has lasted 2 µs and one that has not. -/
theorem witness_LanesDropAndReturn :
    (∀ n ∈ [0, 2],
     let r := { LaneRt.start with uncorr := List.replicate 17 0, drops := List.replicate n 0, logged := if n = 0 then none else some 0 }
     let s := lane lINSERVICE r
     laneRt s 16 31 = r ∧ laneState s 16 31 = lINSERVICE ∧ r.cwLock = false ∧ 16 < (r.uncorr.filter fun t => decide (s.now < t + 1000000)).length ∧
     s.pm.evq.length < 1024) ∧
    laneState (lane lDARK .start) 16 31 ≠ lINSERVICE ∧
    (let r := { LaneRt.start with identity := true, prbsPass := true }
     let s := lane lDROPPED r
     laneState s 16 31 = lDROPPED ∧ laneChecked s 16 31 = true ∧ laneQuiet s 16 31 = true ∧ r.holdFrom = none ∧ laneRt s 16 31 = r ∧ 16 ∉ s.fab.narrow ∧
     (∀ b ∈ [false, true], let s := lane lDROPPED { LaneRt.start with identity := true, outAt := if b then none else some 0 }
      laneChecked s 16 31 = false ∧ ringLocked s 16 31 = b)) ∧
    (let r := { LaneRt.start with holdFrom := some 0 }
     0 + 10000000000 ≤ ({ lane lDROPPED r with now := 10000000000 } : State).now ∧ (lane lDROPPED r).now < 0 + 10000000000) ∧
    (let s := lane lINSERVICE .start
     (laneRt s 16 31).scanFrom = none ∧ inRedraw s 16 = false ∧ inSwap s 16 = false ∧ (∀ k, k < 32 → laneState s 16 k ≠ lSCAN)) ∧
    laneState (lane lSCAN .start) 16 31 = lSCAN ∧
    (∀ n ∈ [9999999999, 10000000000],
     let s := { up with now := n, fab := { up.fab with narrow := [16], doneAt := [(80, some 0), (16, some (n - 999))] } }
     16 ∈ s.fab.narrow ∧ (periodOver s (64 + 16) 10000000000 = true ↔ n = 10000000000) ∧ periodOver s 16 1000 = false ∧ periodOver s 15 1000 = true) ∧
    (∀ n ∈ [1999, 2000], let s := { lane lINSERVICE { LaneRt.start with offFrom := some 0, scanFrom := some 0 } with now := n }
     laneState s 16 31 = lINSERVICE ∧ (laneRt s 16 31).offFrom = some 0 ∧ (0 + 2000 ≤ s.now ↔ n = 2000) ∧
     s.now < 0 + 1000000000 * getF s fOPT_SCAN_CTL_PERIOD_S) ∧
    (let s := { lane lINSERVICE .start with now := 1000000, fab := { (lane lINSERVICE .start).fab with temps := [(16, some (0, 40))] } }
     lockBound s 16 48 = some 6 ∧ lockBound s 16 49 = some 36 ∧ ringLocked s 16 31 = true ∧ lockShown s 16 31 48 100 = 6) := by
  refine ⟨?_, ?_, ?_, ?_, ?_, ?_, ?_, ?_, ?_⟩ <;> decide +kernel

/-- Source n stands in a stage. -/
def laser (n : Nat) (x : LaserSrc) (f : Fab → Fab) : State := { up with fab := f { up.fab with lasers := [(n, x)] } }

/-- A spare that cannot be calibrated, a working source that cannot, and one with a low power, each with a spare left and with none; a FADING one
by its power and drive; a request of a swap that is taken and one that is not. -/
theorem witness_Lasers_report :
    (let s := laser 19 ⟨3, none, false, none⟩ id
     periodOver s (32 + 19) 10000000000 = true ∧ s.fab.redraw = none ∧ s.fab.swaps = [] ∧ (laserSrc s 19).stage = 3 ∧ engineOf s 19 = none) ∧
    (let s := { up with fab := { up.fab with lasers := [(3, ⟨1, some 0, true, none⟩), (17, ⟨4, none, false, none⟩), (18, ⟨4, none, false, none⟩)] } }
     periodOver s (32 + 19) 10000000000 = true ∧ s.fab.redraw = none ∧ s.fab.swaps = [] ∧ (laserSrc s 19).stage = 3 ∧ engineOf s 19 = none ∧
     (laserSrc s 3).due = true ∧ engineOf s 3 = some 3) ∧
    (∀ left ∈ [true, false],
     let s := { up with fab := { up.fab with lasers := if left then [] else [(17, ⟨4, none, false, none⟩), (18, ⟨4, none, false, none⟩), (19, ⟨4, none, false, none⟩)] } }
     let s := setFs s [(fLAS_SRC_POWER 16, 0), (fLAS_SRC_DRIVE 16, 85)]
     (laserSrc s 16).stage = 0 ∧ engineOf s 16 = some 16 ∧ isWorking s 16 = true ∧ periodOver s (96 + 16) 1000000 = true ∧ (nextSpare s = none ↔ left = false) ∧ s.pm.evq.length < 1024 ∧
     85 ≤ getF s (fLAS_SRC_DRIVE 16)) ∧
    (let s := { up with fab := { up.fab with doneAt := [(32, some 0)] } }
     periodOver s (32 + 0) 10000000000 = false) ∧
    (let s := setF up (fOPT_LANE_LSTATE 0 0) lINSERVICE
     let s := { setLane s 0 0 { LaneRt.start with errBits := [(0, 2 ^ 60)] } with now := 1 }
     isWorking s 0 = true ∧ engineOf s 0 = some 0 ∧ (laserSrc s 0).stage = 0 ∧ berAbove s 0 1062 = true ∧
     (∀ b ∈ [true, false], let z := { setLaser s 0 ⟨0, none, false, some 0⟩ with now := 10000000000 - (!b).toNat }
      let z := setLane z 0 0 { LaneRt.start with errBits := [(z.now - 1, 2 ^ 60)] }
      berHeld z 0 = b)) ∧
    (isWorking up 19 = false ∧ (laserSrc (laser 3 ⟨2, none, true, none⟩ id) 3).stage = 2) := by
  decide +kernel

/-- A swap that is not due yet, one that is, with a spare left and with none; its start, and each of its steps, on a port and on the twin port,
the last also under a changed map that can be read and one that cannot. -/
theorem witness_Lasers_swap :
    (∀ due ∈ [true, false],
     let s := laser 3 ⟨1, some 0, due, none⟩ id
     laserSrc s 3 = ⟨1, some 0, due, none⟩ ∧ engineOf s 3 = some 3 ∧ s.now < 0 + 60000000000 ∧ nextSpare s ≠ none) ∧
    (let s := { up with fab := { up.fab with lasers := [(3, ⟨1, some 0, true, none⟩), (17, ⟨4, none, false, none⟩), (18, ⟨4, none, false, none⟩), (19, ⟨4, none, false, none⟩)] } }
     nextSpare s = none ∧ engineOf s 3 = some 3 ∧ (laserSrc s 3).due = true ∧ s.pm.evq.length < 1024) ∧
    (∀ e ∈ [0, 16],
     let s := laser e ⟨2, none, true, none⟩ id
     nextSpare s = some 17 ∧ (laserSrc s e).due = true ∧ inSwap s e = false ∧ swapFirst s e = true ∧ engineOf s e = some e ∧ s.mail.heldClose = []) ∧
    (let s := { up with fab := { up.fab with lasers := [(3, ⟨2, none, true, none⟩), (5, ⟨2, none, true, none⟩), (17, ⟨4, none, false, none⟩), (18, ⟨4, none, false, none⟩)] } }
     nextSpare s = some 19 ∧ inSwap s 3 = false ∧ swapFirst s 3 = true ∧ s.mail.heldClose = [] ∧ (laserSrc s 5).due = true ∧
     engineOf s 5 = some 5) ∧
    (∀ e ∈ [0, 16], ∀ k ∈ [0, 1, 2],
     let w : Swap := ⟨e, e, 17, 0, k, 2, 0⟩
     ∀ st ∈ [pDRAINING, pMISCABLED],
     let s := setF (laser e ⟨2, none, true, none⟩ fun f => { f with swaps := [w] }) (fOPT_PORT_PSTATE 0) st
     swapAt s e k = some w ∧ (e = 0 → portWorks s 0 = swapDraws s 0 ∧ (swapDraws s 0 = true ↔ st = pDRAINING))) ∧
    (∀ bad ∈ [true, false],
     let w : Swap := ⟨0, 0, 17, 0, 2, 2, 0⟩
     let s := setLane (laser 0 ⟨2, none, true, none⟩ fun f => { f with swaps := [w], mapBad := bad }) 0 0 { LaneRt.start with byte := 0 }
     let s := setF s (fOPT_PORT_PSTATE 0) pDRAINING
     swapAt s 0 2 = some w ∧ swapDraws s 0 = true ∧ s.fab.mapBad = bad ∧ changedLanes s s.fab.map 0 ≠ []) := by
  decide +kernel

theorem spareBeside_iff (s : State) (k : Nat) : SpareBeside s k ↔
    ∃ m ∈ List.range 20, m ≠ k ∧ (laserSrc s m).stage = 3 ∧ ∀ w ∈ s.fab.swaps, w.spare ≠ m := by
  simp [SpareBeside]

theorem noneDueBut_iff (s : State) (n : Nat) : NoneDueBut s n ↔
    ∀ m ∈ List.range 20, m ≠ n → (laserSrc s m).due = true → 2 < (laserSrc s m).stage ∨ ∃ w ∈ s.fab.swaps, w.old = m := by
  simp [NoneDueBut]

/-- A spare is left and no other source is due; and the last spare goes while another is due. -/
theorem witness_Lasers_spares :
    (let s := laser 19 ⟨3, none, false, none⟩ id
     SpareBeside s 19 ∧ NoneDueBut s 19) ∧
    SpareBeside (laser 0 ⟨2, none, true, none⟩ id) 17 ∧
    (∀ x ∈ [1, 2], let s := { up with fab := { up.fab with lasers :=
        [(3, ⟨x, some 0, true, none⟩), (5, ⟨2, none, true, none⟩), (17, ⟨4, none, false, none⟩), (18, ⟨4, none, false, none⟩)] } }
     ¬ SpareBeside s 19 ∧ ¬ NoneDueBut s 3) := by
  simp only [spareBeside_iff, noneDueBut_iff]
  decide +kernel

end Sys2Proof.Tests
end

