-- ==== Sys2Proof/Tests/Matrix.lean ====
section
/-!
SUPPORT. Witnesses of the hypotheses of the statements about the matrix unit.
-/
namespace Sys2Proof.Tests
open Sys2Proof Sys2Proof.Machine

set_option Elab.async false

/-- A tile with one element at each end. -/
theorem witness_EveryElementOfATile :
    (let a := { Acc.zero with elems := [(0, ⟨1, 0, 0, 0⟩), (16383, ⟨0x7F800000, 0, 0, 0⟩)] }
     mwf (fun _ => AccElem.zero) a.elems = true ∧ (∀ p ∈ a.elems, p.1 < 16384) ∧ (a.elem 127 127).special = true) := by
  decide +kernel

/-- A word of the matrix class (R142, R143). -/
def mm (min acc ovw a16 spr fa fb : Nat) : Word :=
  BitVec.ofNat 64 (0x10 * 2 ^ 58 + min * 2 ^ 52 + acc * 2 ^ 51 + ovw * 2 ^ 50 + a16 * 2 ^ 49 + spr * 2 ^ 48 + 1 * 2 ^ 40 + 2 * 2 ^ 34 + 3 * 2 ^ 28 +
    spr * 4 * 2 ^ 22 + fa * 2 ^ 14 + fb * 2 ^ 10)

/-- A product of 32 by 32 with K = 32 at the head of tile 0's queue, or one of 128 by 128 whose A ends at the end of the operand cache. -/
def mmEntry (acc ovw a16 spr fa fb : Nat) (big : Bool) : QEntry :=
  entry (mm 0 acc ovw a16 spr fa fb) [(1, if big then 0x1FE000 else 0), (2, 0x10000), (3, if big then 0xF0020 else 32), (4, 0x1000)]

/-- MM starts on each tile, whether it clears and predicts or not, with operands of 16 bits, and with 16-bit accumulation. -/
theorem witness_MatrixProduct_start :
    (∀ acc ∈ [0, 1], ∀ ovw ∈ [0, 1], ∀ spr ∈ [0, 1], ∀ big ∈ [true, false],
     let h := mmEntry acc ovw 0 spr 2 2 big
     let s := engine .matrix h id
     Starts s 0 .matrix 0x10 0 h s ∧ (s.tile 0).fill.bound ≠ some (mmOp h).acc ∧ mmFault h = none ∧ (s.tile 0).mat.run = [] ∧
     (s.tile 0).mat.recompute = [] ∧ ((s.tile 0).acc (mmOp h).acc).chain = [] ∧ (s.tile 0).mat.snap = none ∧ (mmOp h).acc = acc ∧ ocUe (s.tile 0) [historyRange (mmOp h)] = none ∧
     (mmOp h).spr = (spr == 1) ∧ (mmOp h).ovw = (ovw == 1)) ∧
    mmFault (mmEntry 0 0 1 0 5 6 false) = none := by
  unfold Starts; decide +kernel

/-- Tile 0 runs one matrix instruction; its accumulator a0 is a. -/
def matRun (w : MatWork) (a : Acc) : State :=
  up.setTile 0 { Tile.reset with phase := .running, mat := { MatUnit.reset with run := [⟨entry 0 [], w⟩], a0 := a } }

/-- The first chunk step and the last one, in both accumulation formats, also when the tile is full of terms; the end of the product; and
folds, due and not due. -/
theorem witness_MatrixProduct_steps :
    (∀ a16 ∈ [0, 1], ∀ last ∈ [true, false], ∀ l2 ∈ [0, 2 ^ 20],
     let op := mmOp (mmEntry 0 0 a16 1 5 6 false)
     let k := if last then op.steps - 1 else 0
     let s := matRun (.product op [] k) { Acc.zero with l2 := l2 }
     isLive s 0 = true ∧ clkRuns s 0 = true ∧ (s.tile 0).mat.run = [⟨entry 0 [], .product op [] k⟩] ∧ k < op.steps ∧ op.acc < 2 ∧
     ((s.tile 0).acc op.acc).l1 ≠ 2 ^ 20 ∧ ocUe (s.tile 0) (op.stepRanges [] k) = none) ∧
    (let op := mmOp (mmEntry 0 0 0 0 2 2 false)
     let s := matRun (.product op [] op.steps) .zero
     isLive s 0 = true ∧ clkRuns s 0 = true ∧ op.steps ≤ op.steps ∧ ((s.tile 0).acc op.acc).l1 ≠ 2 ^ 20) ∧
    (let s := matRun (.save 1 0) { Acc.zero with l1 := 2 ^ 20 }
     isLive s 0 = true ∧ clkRuns s 0 = true ∧ ((s.tile 0).acc 0).l1 = 2 ^ 20 ∧ ((s.tile 0).acc 1).l1 ≠ 2 ^ 20) := by
  decide +kernel

/-- The instructions on accumulator images start, with the image at the end of stacked DRAM. -/
theorem witness_AccumulatorImages_start :
    (∀ acc ∈ [0, 1], let h := entry (BitVec.ofNat 64 (0x10 * 2 ^ 58 + 1 * 2 ^ 52 + acc * 2 ^ 51)) []
     let s := engine .matrix h id
     Starts s 0 .matrix 0x10 1 h s ∧ acc = wf h.word 51 51 ∧ (s.tile 0).fill.bound ≠ some acc ∧ (s.tile 0).mat.recompute = [] ∧
     ((s.tile 0).acc acc).chain = [] ∧ (s.tile 0).mat.run = []) ∧
    (∀ min ∈ [2, 3, 4], ∀ acc ∈ [0, 1],
     let h := entry (BitVec.ofNat 64 (0x10 * 2 ^ 58 + min * 2 ^ 52 + acc * 2 ^ 51 + 1 * 2 ^ 40)) [(1, 0x47FFFBFFC0)]
     let s := engine .matrix h id
     Starts s 0 .matrix 0x10 min h s ∧ acc = wf h.word 51 51 ∧ capS h (wSA h.word) % 64 = 0 ∧ mappedRange (capS h (wSA h.word)) 262208 = true) := by
  unfold Starts; decide +kernel

/-- Memory that nothing has written reads as zeros. -/
theorem slice_empty {s : State} (h : s.mem = Mem.reset) (a k o n : Nat) (hk : o + n ≤ k) : slice (memBytes s a k) o n = List.replicate n 0 := by
  have hb : ∀ i, memByte s i = 0 := by
    intro i
    simp only [memByte, h]
    rfl
  apply List.ext_getElem
  · simp [slice]
  · intro i h1 h2
    simp only [slice, List.length_map, List.length_range] at h1
    have : o + i < k := by omega
    simp [slice, memBytes, hb, this]

/-- An image of zeros, in memory that nothing has written. -/
theorem witness_AccumulatorImages_done :
    (∀ w ∈ [MatWork.save 0 0x40, .merge 0 0x40, .restore 0 0x40],
     let s := matRun w .zero
     isLive s 0 = true ∧ clkRuns s 0 = true ∧ (s.tile 0).mat.run = [⟨entry 0 [], w⟩]) ∧
    (∀ w : MatWork, LinesFine (matRun w .zero) 0x40 262208) ∧
    (∀ w : MatWork, let b := memBytes (matRun w .zero) 0x40 262208
     (accOfImage b).lapsed = false ∧ imageBad b = false ∧ (Acc.zero).terms + (accOfImage b).terms + 4 ≤ 2 ^ 40) := by
  refine ⟨by decide +kernel, fun w => linesFine_up _ rfl _ _, fun w => ?_⟩
  simp only [accOfImage, Acc.terms, imageBad, leAt, slice_empty (s := matRun w .zero) rfl 0x40 262208 _ _ (by decide : 0 + 8 ≤ 262208),
    slice_empty (s := matRun w .zero) rfl 0x40 262208 _ _ (by decide : 8 + 4 ≤ 262208),
    slice_empty (s := matRun w .zero) rfl 0x40 262208 _ _ (by decide : 12 + 52 ≤ 262208)]
  decide +kernel

end Sys2Proof.Tests
end

