-- ==== Sys2Proof/Tests/Package.lean ====
section
/-!
SUPPORT. Witnesses of the hypotheses of the statements about the twin and the package.
-/
namespace Sys2Proof.Tests
open Sys2Proof Sys2Proof.Machine

set_option Elab.async false

/-! ### The twin -/

/-- A module that is in place, in a grid of 2 rows and 2 columns, with a loaded map of two IMAGE blocks and one LOG block, and a twin whose port is
up, in a state of TWN_STATUS. -/
def twin (st : Nat) (f : TwinSt → TwinSt) : State :=
  { setFs up [(fOPT_FAB_STATUS_DSTATE, 3), (fOPT_TWIN_TSTATE, 1), (fOPT_LANE_LSTATE 16 0, lINSERVICE), (fTWN_CTL_EN, 1), (fTWN_STATUS_MAP_OK, 1),
      (fTWN_STATUS_STATE, st), (fOPT_POS_LROW, 31), (fOPT_POS_LCOL, 1), (fOPT_POS_ROW, 31), (fOPT_POS_COL, 1), (fTWN_RX_BASE_ADDR, 0x18000000000)] with
    fab := { up.fab with shape := (2, 2) }
    twin := f { TwinSt.reset with ranges := [⟨0x100000, false, 2⟩, ⟨0x200000, true, 1⟩] } }

/-- A map (R459) of one range at a base. -/
def shadowMap (base : Nat) : List Byte := toBytes 8 base ++ toBytes 4 2 ++ toBytes 4 0

/-- A good map and one in the receiver area; the bounds of RANGES and of the address. -/
theorem witness_TwinShadowing_map :
    (∀ x ∈ [(0x100000, true), (0x18000000000, false)],
     let s := { setFs up [(fTWN_RX_BASE_ADDR, 0x18000000000), (fTWN_MAP_ADDR_ADDR, 0x8000)] with
       mem := { Mem.reset with bytes := putBytes [] 0x8000 (shadowMap x.1) } }
     let l : List ShadowRange := [⟨x.1, false, 2⟩]
     getF s fTWN_MAP_ADDR_ADDR = 0x8000 ∧ 0x8000 % 64 = 0 ∧ mappedRange 0x8000 16 = true ∧ twState s = 0 ∧
     (List.range 1).mapM (fun i => shEntry (slice (memBytes s 0x8000 16) (16 * i) 16)) = some l ∧ shMapOk s l = x.2) ∧
    (∀ p a n, RangeClean { up with mem := { Mem.reset with bytes := p } } a n) ∧ (65 : BitVec 7).toNat = 65 ∧ twState (twin 1 id) ≠ 0 := by
  refine ⟨by decide +kernel, fun p a n => rangeClean_of rfl rfl rfl rfl a n, by decide +kernel, by decide +kernel⟩

/-- The exchange of maps, equal and not; EN = 0 while shadowing is on and while it is off. -/
theorem witness_TwinShadowing_exchange :
    (let s := twin 0 id
     bitF s fTWN_CTL_EN = true ∧ bitF s fTWN_STATUS_MAP_OK = true ∧ twState s = 0 ∧ twinUp s = true ∧ shCount s false = 2 ∧ shCount s true = 1 ∧
     (0 : BitVec 32).toNat = s.twin.crc ∧ s.upd.waits = [] ∧ getF s fUPD_STEP_REC_ADDR % 64 = 0) ∧ twState (twin 1 id) = 1 ∧
    (∀ x ∈ [true, false], let s := setF (twin 1 fun w => { w with ownLanded := x, peerLanded := !x }) fTWN_STATUS_EXPOSED 1
     twState s = 1 ∧ bitF s fTWN_STATUS_EXPOSED = true ∧ s.twin.ownLanded = x ∧ s.twin.peerLanded = !x ∧ s.twin.record.1 = cmtStep s ∧ agreed s ≤ cmtStep s) := by
  decide +kernel

/-- Each kind of item is owed behind one that is not; a restore has a block left; an acknowledgement; and an IMAGE block that arrives while shadowing
is on, also for the other bank, and during a restore. -/
theorem witness_TwinShadowing_blocks :
    (∀ x ∈ [ShadowItem.image 1, .log 1 0, .header 1 true, .record 0], ∀ ever ∈ [true, false],
     let pre : List ShadowOwed := [⟨x, false, 1, true, false⟩]
     let y : ShadowOwed := ⟨x, true, 0, ever, true⟩
     let s := twin 1 fun w => { w with image := pre ++ [y], log := pre ++ [y], extra := pre ++ [y] }
     twinUp s = true ∧ twState s = 1 ∧ (∀ z ∈ pre, z.owed = false) ∧ y.owed = true ∧ 1 ≤ nextAgree s ∧ s.twin.gdata = [] ∧
     shAddr s false 1 = 0x110000 ∧ shAddr s true 0 = 0x200000) ∧
    (let r : Restore := ⟨[.image 1], 0, none⟩
     let s := twin 2 fun w => { w with restore := some r }
     twinUp s = true ∧ twState s = 2 ∧ s.twin.restore = some r ∧ rxImage s (curBank s 1) 1 % 64 = 0) ∧
    (∀ st f a n, RangeClean (twin st f) a n) ∧
    (∀ cur ∈ [[], [1]], let s := twin 1 fun w => { w with cur := cur }
     twState s = 1 ∧ 1 < shCount s false ∧ rxImage s (1 - curBank s 1) 1 = 0x18000000000 + (if cur = [] then 3 else 1) * 0x10000) ∧
    (let r : Restore := ⟨[.image 1], 0, none⟩
     let s := twin 3 fun w => { w with restore := some r }
     twState s = 3 ∧ s.twin.restore = some r ∧ .image 1 ∈ r.left ∧ shAddr s false 1 = 0x110000) := by
  refine ⟨by decide +kernel, by decide +kernel, fun st f a n => rangeClean_of rfl rfl rfl rfl a n, by decide +kernel, by decide +kernel⟩

/-- The arrival of a shadowed module and of one without a twin; one that has arrived, and one that has not resolved the step; a message of a member. -/
theorem witness_TwinAgreement_arrive :
    (let s := setF (twin 1 id) fUPD_STATUS_RES1_V 1
     nextAgree s = 1 ∧ (agreeOf s 1).own = false ∧ takesPart s = true ∧ isResolved s 1 = true ∧ shadowed s 1 = true ∧ noTwin s = false ∧
     (∀ col ∈ [true, false], agreeAt s col 0 (1 : BitVec 32).toNat = none ∧
      let z := { s with fab := { s.fab with inq := [⟨0, 0, agreePacket 0 col 1⟩] } }
      agreeAt z col (memberOf z col.toNat 0) (1 : BitVec 32).toNat = some 0 ∧ takesPart z = true ∧ agreed z < (1 : BitVec 32).toNat)) ∧
    (let s := setFs (twin 1 id) [(fUPD_STATUS_RES1_V, 1), (fOPT_TWIN_TSTATE, 3)]
     noTwin s = true ∧ takesPart s = true ∧ isResolved s 1 = true ∧ stageFull s false [0] = true ∧ stageFull s false [] = false) ∧
    isResolved (twin 1 id) 1 = false ∧ takesPart up = false := by
  decide +kernel

/-- The close of an agreement, and FORCE of the step that is next, of one that is not, and of one that is past. -/
theorem witness_TwinAgreement_close :
    (let a : Agreement := ⟨1, true, [0], true, [1]⟩
     let s := setF (twin 1 fun w => { w with agrees := [a], held := [0], pend := [1], slots := [0, 1] }) fTWN_TARGET_T 1
     nextAgree s = 1 ∧ agreeOf s 1 = a ∧ takesPart s = true ∧ a.own = true ∧ a.rowDone = true ∧ stageFull s true a.col = true ∧ s.upd.waits = [] ∧
     getF s fTWN_TARGET_T = agreed s + 1) ∧
    (let s := setF (twin 1 id) fTWN_TARGET_T 2
     agreed s < 2 ∧ getF s fTWN_TARGET_T = 2 ∧ 2 ≠ agreed s + 1) ∧
    getF (twin 1 id) fTWN_TARGET_T ≤ agreed (twin 1 id) := by
  decide +kernel

/-- The loss of a silent twin while shadowing is on and during a restore, and a twin port heard 49,999 ns ago; the start of a restore on both sides; and its end on both sides. -/
theorem witness_TwinAgreement_restore :
    (∀ st ∈ [1, 2, 3], let s := twin st id
     twState s = st ∧ s.twin.lost = false ∧ twinSilent s = true ∧ s.pm.evq.length < 1024) ∧
    (let s := twin 1 id
     twinSilent { s with now := 49999, fab := { s.fab with twinHeard := some 0 } } = false) ∧
    (bitF (twin 1 id) fTWN_STATUS_MAP_OK = true) ∧
    (∀ st ∈ [2, 3],
     let r : Restore := ⟨[], 0, some (1, true)⟩
     let s := twin st fun w => { w with restore := some r }
     s.twin.restore = some r ∧ r.left = [] ∧ r.flying = 0 ∧ twState s = st ∧ s.upd.waits = [] ∧ getF s fUPD_STEP_REC_ADDR = 0) ∧
    (∀ st f, leAt (memBytes (twin st f) 0 32768) 0 8 + 1 = 1) := by
  refine ⟨by decide +kernel, by decide +kernel, by decide +kernel, by decide +kernel, fun st f => ?_⟩
  have h : slice (memBytes (twin st f) 0 32768) 0 8 = List.replicate 8 0 := slice_empty rfl _ _ _ _ (by decide)
  simp only [leAt, h]
  rfl

/-! ### The package -/

/-- A flit (R487) of VC 4 with SEQ 15, and its CRC-32 as IEEE 802.3 gives it. -/
def flit : List Byte := toBytes 28 (4 + 16 * 15) ++ toBytes 4 0xA1BB38A3 ++ List.replicate 256 0

/-- Link n of die C0 with a direction from B, and the spares of the die. -/
def weir (n : Nat) (x : WeirDir) (spares : List (Option Nat)) : State :=
  setWeir (setDie up 0 { DieRt.start with spares := spares }) 0 n true x

/-- The link of a flit on VC 4 exists, whatever MSG says. -/
theorem witness_WeirLinks_unit : ∃ link : Fin 42, link.val < 40 ∧ linkOf 4 (Config.flitUnit flit) = link.val := by
  have h : linkOf 4 (Config.flitUnit flit) < 40 := by
    simp only [linkOf, Nat.reduceLeDiff, decide_false, Bool.and_false, Bool.false_eq_true, if_false]
    omega
  exact ⟨⟨linkOf 4 (Config.flitUnit flit), by omega⟩, h, rfl⟩

set_option maxRecDepth 100000 in
/-- A good flit that is new on its link, expected and not; one with an error; one that is resent; one that may not be sent. -/
theorem witness_WeirLinks_flit :
    (∀ link : Fin 42, link.val < 40 → ∀ e ∈ [0, 15],
     let x := { WeirDir.start with next := 15, expect := e }
     let s := weir link.val x [none, none]
     weirDir s 0 link.val true = x ∧ weirDir s 0 link.val (!true) = .start ∧ dieUp s 0 = true ∧ carries s 0 link.val = some link.val ∧ x.resend = [] ∧
     x.unacked.length < 8 ∧ 0 < x.credit.getD 4 0) ∧
    (let f := flit
     let got := replaceAt f 40 (f.getD 40 0 ^^^ 1)
     f.length = 288 ∧ flitFormed f = true ∧ flitVc f = 4 ∧ flitSeq f = 15 ∧ leAt f 1 1 % 16 = WeirDir.start.expect ∧ flitNak f = false ∧
     (∀ p ∈ (flitCredits f).zip WeirDir.start.owed, p.1 ≤ p.2) ∧ flitGood got = false ∧ sameFlit f f = true ∧ flitSeq f ≠ WeirDir.start.next) ∧
    (let x := { WeirDir.start with resend := [15], unacked := [(15, flit)], expect := 15 }
     x.resend = 15 :: [] ∧ (15, flit) ∈ x.unacked) := by
  decide +kernel

/-- Spares that replace and that do not; a NAK; and a link that fails for its NAKs, for its silence, and that does neither. -/
theorem witness_WeirLinks_fail :
    (∀ x ∈ [([none, none], 41, none), ([some 3, none], 3, none), ([some 3, some 5], 41, some 5), ([none, none], 39, some 39)],
     carries (weir 0 .start x.1) 0 x.2.1 = x.2.2) ∧
    (let x := { WeirDir.start with naking := true, nakDue := true, nakRun := 4 }
     weirDir (weir 39 x [none, none]) 0 39 true = x) ∧
    (∀ t ∈ [53, 54], let s := { weir 39 .start [none, none] with now := t }
     (64000 ≤ 1200 * (s.now - max WeirDir.start.goodAt (dieRt s 0).upAt)) ↔ t = 54) := by
  decide +kernel

/-- Die C0 in a state, with what is known of it. -/
def die (st n : Nat) (x : DieRt) : State :=
  { setDie (setFs up [(fPKG_DIE_STATUS_STATE 0, st), (fPKG_DIE_STATUS_ATTEMPTS 0, n)]) 0 x with now := 1000000 }

/-- The fence and the notice of a lost die that ran tile 3; an attempt that is due; RESET of a FAILED die and of a READY one. -/
theorem witness_DieLossAndAttempts_start :
    (∀ b ∈ [true, false],
     let x := { DieRt.start with fenced := b, ran := some [3] }
     let s := setF (die dLOST 0 x) (fTILE_REPORT_PH_EN 3) 1
     dieState s 0 = dLOST ∧ dieRt s 0 = x ∧ bitF s (fTILE_REPORT_PH_EN 3) = true ∧ s.pm.evq.length < 1024) ∧
    (∀ n ∈ [0, 2], let s := die dLOST n { DieRt.start with due := some 1000000 }
     dieState s 0 = dLOST ∧ 1000000 ≤ s.now ∧ (dieRt s 0).ran = none ∧ bitF s fPM_STATUS_FW_RUNNING = true ∧ s.pm.pins.rails = true ∧
     s.pm.fwFrom + 1000000 ≤ s.now ∧ getF s (fPKG_DIE_STATUS_ATTEMPTS 0) = n ∧ n < 3) ∧
    dieState (die dFAILED 3 .start) 0 = dFAILED ∧ dieState (die dREADY 0 .start) 0 ≠ dUP ∧ dieState (die dREADY 0 .start) 0 ≠ dFAILED := by
  decide +kernel

/-- Two links that fail, a spare among them, and three; feature words that are of their stepping and not. -/
theorem witness_DieLossAndAttempts_train :
    ((([3, 40, 3] : List (Fin 42)).map fun l => l.val).eraseDups = [3, 40]) ∧ replacedLinks [3, 40] = [none, some 3] ∧
    2 < (([3, 40, 5] : List (Fin 42)).map fun l => l.val).eraseDups.length ∧
    (match stepFeatures 0x20 with | some w => (0x1FF : BitVec 64).toNat != w | none => false) = false ∧
    (match stepFeatures 0x10 with | some w => (0x1FF : BitVec 64).toNat != w | none => false) = true := by
  decide +kernel

/-- Each stage of an attempt, the first and the last of the three; and the check during start-up and after it, also of a stepping that no rule knows. -/
theorem witness_DieLossAndAttempts_stages :
    (∀ st ∈ [Stage.reset, .clock, .train, .clear, .selfTest, .check], ∀ n ∈ [1, 3],
     let x := { DieRt.start with attempt := some (0, st) }
     let s := die dRESETTING n x
     dieRt s 0 = x ∧ getF s (fPKG_DIE_STATUS_ATTEMPTS 0) = n ∧ 0 + 10000 ≤ s.now) ∧
    (∀ stage ∈ [4, 6], ∀ code ∈ [0x20, 0x30],
     let s := setFs (die dRESETTING 1 { DieRt.start with attempt := some (0, .check) }) [(fPM_STATUS_STAGE, stage), (fPKG_BASE_ID_STEPPING, 0x11),
       (fPKG_DIE_STATUS_STEPPING 1, 0x20), (fPKG_DIE_STATUS_STEPPING 2, 0x20), (fPKG_DIE_STATUS_STEPPING 3, 0x20)]
     let others := (List.range 4).filter (fun e => e != 0 && dieState s e != dABSENT && dieState s e != dFAILED)
     stepsBad (getF s fPKG_BASE_ID_STEPPING) (code :: others.map fun e => getF s (fPKG_DIE_STATUS_STEPPING e)) = (code == 0x30) ∧
     getF s fPM_STATUS_STAGE = stage ∧ s.load.feat = none ∧ bitF s fCMP_PHASE_VALID = false ∧ bitF s (fPKG_DIE_CTL_HOLD 0) = false) := by
  decide +kernel

/-- Cluster 3 of die C0 in a state. -/
def cluster (st mode : Nat) (x : ClusterRt) (y : DieRt) : State :=
  { setDie (setCluster (setFs up [(fPKG_CLUSTER_STATE 3, st), (fPKG_CLUSTER_MODE 3, mode)]) 3 x) 0 y with now := 1000 }

/-- GATE and NAP, and why not; wakes from GATE, from NAP and out of OFF, alone, beside an earlier wake and beside one at the same instant on either
side; their end; OFF and what rejects it; the reference lost and back. -/
theorem witness_ClusterClockStates :
    (let s := cluster kRUN 0 { ClusterRt.start with idle := 64 } .start
     64 ≤ (clusterRt s 3).idle ∧ ClusterRt.start.idle < 64 ∧ dieUp s 0 = true ∧ clusterState s 3 = kRUN ∧ getF s (fPKG_CLUSTER_MODE 3) ≤ 1 ∧ (∀ t ∈ clusterTiles 3, tileIdle s t = true) ∧
     (∀ t ∈ clusterTiles 3, isRunning s t = false) ∧ clusterState s 3 ≠ kOFF) ∧
    (let s := (cluster kRUN 2 .start .start).setTile 48 { Tile.reset with phase := .running }
     1 < getF s (fPKG_CLUSTER_MODE 3) ∧ 48 ∈ clusterTiles 3 ∧ tileIdle s 48 = false ∧ isRunning s 48 = true) ∧
    (let s := setF (cluster kGATE 0 .start .start) fPKG_CLK_CTL_NAP_AFTER_US 1
     clusterState s 3 = kGATE ∧ (clusterRt s 3).since + 1000 * getF s fPKG_CLK_CTL_NAP_AFTER_US ≤ s.now) ∧
    (cluster kGATE 0 .start .start).now < (clusterRt (cluster kGATE 0 .start .start) 3).since + 1000 * getF (cluster kGATE 0 .start .start) fPKG_CLK_CTL_NAP_AFTER_US ∧
    (clusterRt (cluster kGATE 0 { ClusterRt.start with forced := true } .start) 3).forced = true ∧
    (∀ st ∈ [kNAP, kOFF], ∀ w ∈ [[], [(2, 1000, 1000)], [(2, 999, 1000)]],
     let s := cluster st 0 .start { DieRt.start with wakes := w }
     clusterState s 3 = st ∧ dieUp s 0 = true ∧ (dieRt s 0).wakes = w ∧ s.now = 1000) ∧
    (∀ t ∈ [1000, 1001],
     let y := { DieRt.start with wakes := [(3, 1000, t)] }
     let s := cluster kNAP 0 { ClusterRt.start with starts := [48] } y
     (dieRt s 0).wakes.find? (fun v => v.1 == 3) = some (3, 1000, t) ∧ (s.now < t ↔ t = 1001)) ∧
    (let s := cluster kNAP 2 { ClusterRt.start with forced := true, byLoop := true } { DieRt.start with wakes := [(3, 1000, 1000)] }
     getF s (fPKG_CLUSTER_MODE 3) = 2 ∧ (clusterRt s 3).forced = true ∧ (clusterRt s 3).byLoop = true ∧ s.pwr.eps = []) ∧
    (∀ st ∈ [kGATE, kNAP], ∀ a ∈ [(999, true), (998, false)],
     let s := (cluster st 0 { ClusterRt.start with since := 999 } .start).setTile 50 { Tile.reset with phase := .running, tk := [(3, [(a.1, 1)])] }
     clusterState s 3 = st ∧ ((clusterTiles 3).any fun t => tileWakes s t) = a.2) ∧
    bitF up fPKG_AON_ON_LOCAL = false ∧ bitF (setF up fPKG_AON_ON_LOCAL 1) fPKG_AON_ON_LOCAL = true := by
  refine ⟨?_, ?_, ?_, ?_, ?_, ?_, ?_, ?_, ?_, ?_, ?_⟩ <;> decide +kernel

end Sys2Proof.Tests
end

