-- ==== Sys2Proof/Tests/Redraw.lean ====
section
/-!
SUPPORT. Witnesses of the hypotheses of the statements about redraws and device memory.
-/
namespace Sys2Proof.Tests
open Sys2Proof Sys2Proof.Machine

set_option Elab.async false

/-- A redraw in which port 3 stands at a step; lane 0 of it has its identity and lane 1 has none, both in the state given. -/
def redrawing (k : PortStep) (lane : Nat) (f : Redraw → Redraw) : State :=
  let s := setFs up [(fOPT_LANE_LSTATE 3 0, lane), (fOPT_LANE_LSTATE 3 1, lane)]
  setLane { s with fab := { s.fab with redraw := some (f ⟨0, none, none, [3], [], [3], [], none, [(3, 0, k)]⟩) } } 3 0 { LaneRt.start with identity := true, prbsPass := true }

/-- Each step of a port; its return, as the last port of all and with a second wave to come; and the start of that wave. -/
theorem witness_PortRedraw_steps :
    (∀ k ∈ [PortStep.drain, .retune, .lock, .check], portStep (redrawing k lCHECK id) 3 = some k) ∧
    (newLanes (redrawing .retune 0 id) none 3)[31]?.isSome = true ∧ (redrawing .retune 0 id).pm.evq.length < 1024 ∧
    (let s := redrawing .check lCHECK id
     laneState s 3 0 = lCHECK ∧ laneState s 3 1 = lCHECK ∧ laneChecked s 3 0 = true ∧ (laneRt s 3 1).identity = false ∧ s.mail.heldClose = [] ∧
     { s with mail := { s.mail with heldClose := [(0, 0)] } }.mail.heldClose = (0, 0) :: []) ∧
    (∀ w ∈ [[], [5]],
     let s := redrawing .check lINSERVICE fun r => { r with wave2 := w }
     ∃ r, s.fab.redraw = some r ∧ portStep s 3 = some .check ∧ checksDone s 3 = true ∧ (∀ x ∈ r.wave1, x = 3) ∧ (∀ x ∈ r.running, x.1 = 3) ∧
       r.wave2 = w ∧ r.enter = none ∧ r.wave1End = none) ∧
    (let s := { redrawing .check 0 (fun r => { r with wave1 := [], running := [], wave1End := some 0, wave2 := [0, 15] }) with now := 100000 }
     ∃ r, s.fab.redraw = some r ∧ r.wave1End = some 0 ∧ 0 + 100000 ≤ s.now ∧ r.wave2 ≠ [] ∧ ∀ q ∈ r.wave2, q < 16) := by
  refine ⟨by decide +kernel, by decide +kernel, by decide +kernel, by decide +kernel, ?_, ⟨_, rfl, rfl, Nat.le_refl _, by decide +kernel, by decide +kernel⟩⟩
  intro w h
  simp only [List.mem_cons, List.not_mem_nil, or_false] at h
  obtain rfl | rfl := h <;> refine ⟨_, rfl, ?_, ?_, ?_, ?_, rfl, rfl, rfl⟩ <;> decide +kernel

/-- A late peer before its retry and at the end of its 10 ms; the end of a redraw with a phase to enter; APPLY while one is pending, late, with a bad substitution, staged, and at once. -/
theorem witness_PortRedraw_ends :
    (let s := redrawing .check lLATEPEER id
     laneState s 3 0 = lLATEPEER ∧ (laneRt s 3 0).identity = true ∧ s.now < (laneRt s 3 0).retryAt + 100000) ∧
    (let s := redrawing .check lLATEPEER id
     let s := { s with now := 10000001, fab := { s.fab with unpairedAt := [(3, 10000001)] } }
     laneState s 3 0 = lLATEPEER ∧ laneChecked s 3 0 = true ∧ ringLocked s 3 0 = true ∧ (laneRt s 3 0).retryAt + 100000 ≤ s.now ∧
     ringLocked (setF s (fOPT_LANE_LOCKERR 3 0) 11) 3 0 = false ∧
     mget (fun _ => 0) s.fab.unpairedAt 3 ≠ 0 ∧ mget (fun _ => 0) s.fab.unpairedAt 3 ≤ s.now ∧ s.pm.evq.length < 1024) ∧
    (let s := redrawing .check 0 fun r => { r with enter := some 15, wave1 := [], running := [] }
     ∃ r, s.fab.redraw = some r ∧ r.enter = some 15 ∧ r.wave1 = [] ∧ r.wave2 = [] ∧ r.running = [] ∧ s.mail.heldClose = []) ∧
    bitF (setF up fOPT_FAB_STATUS_PENDING 1) fOPT_FAB_STATUS_PENDING = true ∧
    (let s := setF up fCMP_PHASE_VALID 1
     bitF s fOPT_FAB_STATUS_PENDING = false ∧ bitF s fCMP_PHASE_VALID = true ∧ getF s fOPT_ROUTE_AT_AT_COUNT ≤ getF s (fCMP_PHASE_COUNT_COUNT 0)) ∧
    (let s := setFs up [(fCMP_PHASE_VALID, 1), (fOPT_ROUTE_AT_AT_COUNT, 1)]
     bitF s fOPT_FAB_STATUS_PENDING = false ∧ bitF s fCMP_PHASE_VALID = true ∧ ¬ getF s fOPT_ROUTE_AT_AT_COUNT ≤ getF s (fCMP_PHASE_COUNT_COUNT 0)) ∧
    bitF up fCMP_PHASE_VALID = false := by
  refine ⟨by decide +kernel, by decide +kernel, ⟨_, rfl, rfl, rfl, rfl, rfl, rfl⟩, ?_, ?_, ?_, ?_⟩ <;> decide +kernel

/-- Substitutions and dead positions at reset: none. -/
theorem witness_PortRedraw_subst : substBad up = false := by
  have hd : (List.range 133).all (fun i => getF up (fOPT_DEAD_DEAD i) == 0) = true := by decide +kernel
  have hr : (List.range 64).all (fun i => !bitF up (fOPT_ROWSUB_V i) && !bitF up (fOPT_COLSUB_V i)) = true := by decide +kernel
  simp only [List.all_eq_true, List.mem_range, beq_iff_eq, Bool.and_eq_true, Bool.not_eq_true'] at hd hr
  have dead : ∀ r < 65, ∀ c < 65, stagedDead up r c = false := by
    intro r h1 c h2
    simp [stagedDead, hd ((65 * r + c) / 32) (by omega), bit]
  simp only [substBad, Bool.or_eq_false_iff, List.any_eq_false, List.mem_range]
  refine ⟨⟨?_, ?_⟩, ?_⟩
  · intro x h
    simp [stagedRow, (hr x h).1]
  · intro y h
    simp [stagedCol, (hr y h).2]
  · intro r h1
    simp only [Bool.not_eq_true, List.any_eq_false, List.mem_range]
    intro c h2
    simp [dead r h1 c h2]

/-! ### Device memory -/

/-- A byte at 0x1000 whose unit has a stored error. -/
def flipped (err : SMap Nat) (f : Mem → Mem) : State :=
  { up with mem := f { Mem.reset with bytes := putBytes [] 0x1000 [7], err := [(0x40, err)] } }

/-- An unmapped address; a correct unit, one with an error in one symbol, one with errors in two, and the poison pattern; a line of the
Eddy cache; and the greatest and least symbol for the code. -/
theorem witness_DeviceMemory_reads :
    mapped 0x9000000000 = false ∧ mapped 0x1000 = true ∧
    (errXor (unitErr up 0x40) [] = [] ∧ eddyLine up (0x40 * 64) = none ∧ (decodeUnit []).1 = .clean) ∧
    (decodeUnit (errXor (unitErr (flipped [] id) 0x40) [(66, 0xFF)]) = (.corrected, some (66, 0xFF))) ∧
    (decodeUnit (unitErr (flipped [(3, 1)] id) 0x40) = (.corrected, some (3, 1))) ∧
    (decodeUnit (unitErr (flipped [(3, 1), (4, 2)] id) 0x40)).1 = .uncorrectable ∧ (decodeUnit (unitErr (flipped poisonErr id) 0x40)).1 = .poisoned ∧
    eddyLine (flipped [(3, 1)] id) (0x40 * 64) = none ∧
    (let l : EddyLine := ⟨0x10, false, false, true, [], 0⟩
     let s := flipped [] fun m => { m with eddy := [l] }
     eddyLine s (0x40 * 64) = some l ∧ l.held (0x40 % 4) = [] ∧ (l.hold 1 poisonErr).held 1 = poisonErr) ∧
    (let s := flipped [(3, 1)] fun m => { m with corrective := [0x40] }
     0x40 ∈ s.mem.corrective ∧ decodeUnit (unitErr s 0x40) = (.corrected, some (3, 1)) ∧ quadSteady s 0x40 = true) ∧
    (up.mem.dram.due up.now = true ∧ ScrubPass.due ⟨0, 9, false⟩ 8 = false ∧ poisonOver [] = poisonErr ∧ (decodeUnit (poisonOver [(9, 1), (2, 5)])).1 = .poisoned) ∧
    decodeWord (2 ^ 38 : BitVec 39) = .corrected 38 ∧ decodeWord (3 : BitVec 39) = .uncorrectable := by
  decide +kernel

/-- R295: the first and the last column of the code, a codeword, and a codeword with one wrong bit. -/
theorem test_secDed :
    columns.getD 0 0 = 7 ∧ columns.getD 31 0 = 0b1100010 ∧ encodeWord 1 = (7 : BitVec 39) <<< 32 ||| 1 ∧
    decodeWord (encodeWord 0xDEADBEEF ^^^ (1 : BitVec 39) <<< 17) = .corrected 17 := by
  decide +kernel

/-- Writes within a unit and to its last byte, and accesses of the Eddy cache in a quad where it is on and where it is off. -/
theorem witness_DeviceMemory_writes :
    mappedRange 0x103F 1 = true ∧ (∀ a n, RangeClean up a n) ∧ 0x10FF % 256 + 1 ≤ 256 ∧
    bitF up (fMEM_QUAD_EDDY (quadOf 0x1000)) = true ∧ bitF (setF up (fMEM_QUAD_EDDY 0) 0) (fMEM_QUAD_EDDY (quadOf 0x1000)) = false := by
  refine ⟨?_, fun a n => rangeClean_up _ rfl a n, ?_, ?_, ?_⟩ <;> decide +kernel

/-- An operand-cache word and a line of the Eddy cache with an error of two bits; the mode of a quad while it is locked, with a reserved value, with
the present one and with another; and a change that is due. -/
theorem witness_DeviceMemory_sram_quads :
    (0 ∉ (up.tile 0).ocBad ∧ up.pm.evq.length < 1024 ∧ RegWord.acc 1 16383 ∉ (up.tile 0).regBad ∧ sramDue up (.operandCache 0 0) = true ∧
      sramDue up (.registers 31 (.kreg 7)) = true ∧ sramDue up (.eddy 0x10) = true ∧ sramDue State.reset (.operandCache 0 0) = false) ∧
    (let l : EddyLine := ⟨0x10, false, false, true, [], 0⟩
     (flipped [] fun m => { m with eddy := [l] }).mem.eddy.find? (fun l => l.line == 0x10) = some l) ∧
    bitF (setF up fMEM_CTL_LOCK 1) fMEM_CTL_LOCK = true ∧ bits (3 : BitVec 32).toNat 1 0 = 3 ∧
    (bitF up fMEM_CTL_LOCK = false ∧ quadNext up 33 = (0, 1) ∧ bits (6 : BitVec 32).toNat 1 0 = 2 ∧ bits (6 : BitVec 32).toNat 2 2 = 1 ∧ bits (4 : BitVec 32).toNat 1 0 = 0) ∧
    (let s := flipped [] fun m => { m with quadChange := [(33, 2, 1)] }
     firstIdx (fun c : Nat × Nat × Nat => c.1 == 33) s.mem.quadChange = some 0 ∧ s.mem.quadChange[0]? = some (33, 2, 1)) := by
  decide +kernel

end Sys2Proof.Tests
end

