-- ==== Sys2Proof/Tests/Postmaster.lean ====
section
/-!
SUPPORT. Witnesses of the hypotheses of the statements about firmware, the log, observation, the host and the management endpoint.
-/
namespace Sys2Proof.Tests
open Sys2Proof Sys2Proof.Machine

set_option Elab.async false

/-! ### Firmware and the log -/

/-- A READY module in a state of PM_FW_STATUS, with given contents of the Postmaster. -/
def fw (st : Nat) (f : Pm → Pm) : State :=
  let s := setF up fPM_FW_STATUS_STATE st
  { s with pm := f s.pm }

/-- An image that holds one byte of code, and no MAGIC. -/
def fwImage : List Byte := replaceAt (List.replicate 610 0) 16 1

/-- A LOAD that is accepted and one of each bound that is not; operations that the state does not allow. -/
theorem witness_FirmwareOperations_load :
    (∀ st ∈ [0, 4, 6], ∀ x ∈ [(4096, 610, true), (0, 25165824, true), (2 ^ 32 - 4096, 610, true), (1, 610, false), (0, 609, false), (0, 25165825, false)],
     let s := setFs (fw st id) [(fPM_FW_SRC_OFFSET, x.1), (fPM_FW_SIZE_SIZE, x.2.1)]
     fwRuns s = true ∧ getF s fPM_FW_STATUS_STATE = st ∧ getF s fPM_FW_SRC_OFFSET = x.1 ∧ getF s fPM_FW_SIZE_SIZE = x.2.1 ∧
     (x.1 % 4096 = 0 ∧ 610 ≤ x.2.1 ∧ x.2.1 ≤ 25165824 ∧ x.1 + x.2.1 ≤ 2 ^ 36 ↔ x.2.2 = true)) ∧
    (∀ st f a n, RangeClean { fw st f with mem := Mem.reset } a n) ∧ getF (fw 1 id) fPM_FW_STATUS_STATE = 1 := by
  refine ⟨by decide +kernel, fun st f a n => rangeClean_of rfl rfl rfl rfl a n, by decide +kernel⟩

/-- A job whose image is poisoned, of another length than it says, and not an image; the erased and the programmed bank. -/
theorem witness_FirmwareOperations_verify :
    (∀ st ∈ [1, 2, 3], ∀ j ∈ [(⟨fwImage, true⟩ : FwJob), ⟨fwImage, false⟩, ⟨[], false⟩],
     let s := fw st fun p => { p with job := some j, nor := { p.nor with bank1 := .bytes j.image } }
     fwRuns s = true ∧ getF s fPM_FW_STATUS_STATE = st ∧ s.pm.job = some j ∧ inactiveBank s = 1 ∧ fwBankOf s 1 = .bytes j.image) ∧
    fwImage.length = 609 + fwSize fwImage ∧ fwCheck up fwImage ≠ 0 ∧ ([] : List Byte).length ≠ 609 + fwSize [] := by
  decide +kernel

/-- An image on trial; the watchdog that is due and the one that is not; the 60 s of trial. -/
theorem witness_FirmwareOperations_trial :
    (∀ st ∈ [4, 5], fwRuns (fw st id) = true ∧ getF (fw st id) fPM_FW_STATUS_STATE = st) ∧ getF up fPM_STATUS_BANK = 0 ∧
    (∀ x ∈ [(60000000000, true), (59999999999, false)], decide (up.pm.fwFrom + 60000000000 ≤ { up with now := x.1 }.now) = x.2) ∧
    (∀ x ∈ [(1000000000, true), (999999999, false)], decide (up.pm.fwFrom + 1000000000 ≤ { up with now := x.1 }.now) = x.2) := by
  decide +kernel

/-- The boot ROM before a choice, with the selector and the contents of bank 0. -/
def booting (rom : Rom) (c : SelCopy) (b : FwBank) : State :=
  { State.reset with pm := { Pm.reset with
      pins := { Pins.reset with vin := true, pwrEn := true, aon := true }
      rom := rom
      nor := { Nor.factory with sel0 := c, bank0 := b } } }

theorem factory_good (rom : Rom) (c : SelCopy) : bankGood (booting rom c .factory) 0 = true := by
  simp [bankGood, fwBankOf, booting, bit, Pm.reset]

/-- A start-up and a restart, with no trial, in each trial boot and after the last, from the active bank and from the other. -/
theorem witness_BootAndLog_boot :
    (∀ rom ∈ [Rom.cold, .restart 1 0], ∀ c ∈ [(⟨1, 0, none, 0, true⟩ : SelCopy), ⟨1, 1, none, 0, true⟩, ⟨1, 1, some 0, 0, true⟩, ⟨1, 1, some 0, 2, true⟩, ⟨1, 0, some 1, 3, true⟩], ∀ b ∈ [FwBank.factory, .bytes []],
     let s := booting rom c b
     selector s = c ∧ SelRoom s ∧ s.pm.pins.aon = true ∧ s.pm.pins.rst = false ∧ s.pm.pins.scan = false ∧ s.pm.chosen = none ∧ s.pm.rom ≠ .idle ∧ c.active < 2 ∧
     (∀ t ∈ c.trial, t < 2) ∧ bankGood s 1 = false) ∧
    (∀ rom c, bankGood (booting rom c .factory) 0 = true) ∧ bankGood (booting .cold ⟨1, 0, none, 0, true⟩ (.bytes [])) 0 = false ∧
    up.pm.rom = .idle := by
  unfold SelRoom
  refine ⟨by decide +kernel, factory_good, by decide +kernel, by decide +kernel⟩

/-- Firmware after a restart, READY and HALTED. -/
theorem witness_BootAndLog_resume :
    ∀ st ∈ [6, 8],
    let s := setF (booting (.restart 2 5) ⟨1, 0, none, 0, true⟩ .factory) fPM_STATUS_STAGE st
    let s := { s with pm := { s.pm with chosen := some 1 } }
    s.pm.rom = .restart 2 5 ∧ s.pm.chosen = some 1 ∧ s.pm.rolled = none ∧ s.pm.dropN = 0 ∧ s.pm.lostN = 0 ∧ stage s = st := by
  decide +kernel

def event : LogEvent := ⟨9, 0x114, 2, true, false, 0xC, 5, 1, 0⟩

/-- An event beside room in the buffer and beside none; the overflow record; a write of the log area of one record; a selected record that is
held and one that is not; the split. -/
theorem witness_BootAndLog_log :
    (let s := fw 0 fun p => { p with evq := [event] }
     fwRuns s = true ∧ s.pm.evq = event :: [] ∧ s.pm.dropN = 0 ∧ s.pm.lostN = 0 ∧ (unsaved s).length < 16384) ∧
    (let s := fw 0 fun p => { p with evq := [event], buf := List.replicate 16384 ⟨0, event⟩ }
     (unsaved s).length = 16384) ∧
    (let s := fw 0 fun p => { p with dropN := 3 }
     s.pm.evq = [] ∧ s.pm.dropN ≠ 0 ∧ (unsaved s).length < 16384) ∧
    fwRuns State.reset = false ∧
    (let s := fw 0 fun p => { p with buf := [⟨0, event⟩], persists := [(0, 5999)] }
     getF s fPM_FW_STATUS_STATE ≠ 2 ∧ getF s fPM_FW_STATUS_STATE ≠ 3 ∧ (unsaved s).take 1 = [⟨0, event⟩] ∧
     (s.pm.persists.filter fun x => decide (s.now < x.1 + 60000000000)).foldl (fun a x => a + x.2) 1 ≤ 6000 ∧ s.pm.nor.log.length + 1 ≤ 391168) ∧
    (∀ x ∈ [(0, 20000), (0, 19999), (1, 20000)],
     let s := { fw 0 (fun p => { p with buf := [⟨0, event⟩], selAt := some 0 }) with now := x.2 }
     let s := setF s fPM_LOG_SEL_SEQ x.1
     s.pm.selAt = some 0 ∧ findRecord s (getF s fPM_LOG_SEL_SEQ) = if x.1 = 0 then some ⟨0, event⟩ else none) ∧
    (fw 0 fun p => { p with splitDue := true }).pm.splitDue = true := by
  refine ⟨by decide +kernel, ?_, by decide +kernel, by decide +kernel, by decide +kernel, by decide +kernel, rfl⟩
  exact (congrArg List.length (List.filter_replicate_of_pos (p := fun r : LogRec => decide (0 ≤ r.seq)) (by decide))).trans List.length_replicate

/-! ### Observation -/

/-- A module with a trace ring of one page at the greatest page of stacked memory, and with selector 0 on TILE_STALL_0 of tile 0. -/
def traced (l : List (Fld × Nat)) (f : Obs → Obs) : State :=
  { setFs up ([(fOBS_TRACE_BASE_ADDR, 0x8FFFFFF000), (fOBS_TRACE_SIZE_PAGES, 1), (fOBS_SEL_EN 0, 1), (fOBS_SEL_W64 0, 1), (fOBS_SEL_OFFSET 0, 0x400A40)] ++ l) with
    obs := f Obs.reset
    now := 20000 }

def sample : TraceRec := ⟨9, 7, true, 0, 5, 0x400A40⟩

/-- A snapshot that starts, one that runs and one that ends, with a selector of a counter and with one of none. -/
theorem witness_TraceAndSnapshot_snapshot :
    (let s := traced [] id
     bitF s fOBS_STATUS_SNAP_BUSY = false ∧ selectors s = [0] ∧ selValue s 0 = some 0) ∧
    (let s := traced [(fOBS_SEL_OFFSET 0, 0)] id
     ∃ n ∈ selectors s, selValue s n = none) ∧
    bitF (traced [(fOBS_STATUS_SNAP_BUSY, 1)] id) fOBS_STATUS_SNAP_BUSY = true ∧
    (traced [] fun o => { o with snapAt := some 19000 }).obs.snapAt = some 19000 ∧ 19000 + 1000 ≤ (traced [] id).now := by
  decide +kernel

/-- A ring that is good, and one that ends beyond the memory; a session that runs and one that has drained; a firing. -/
theorem witness_TraceAndSnapshot_session :
    (∀ x ∈ [(1, true), (2, false)],
     let s := traced [(fOBS_TRACE_SIZE_PAGES, x.1)] id
     bitF s fOBS_TRACE_CTL_TRACE_EN = false ∧ getF s fOBS_TRACE_BASE_ADDR = 0x8FFFFFF000 ∧ 0x8FFFFFF000 % 4096 = 0 ∧ getF s fOBS_TRACE_SIZE_PAGES = x.1 ∧
     mappedRange 0x8FFFFFF000 (4096 * x.1) = x.2 ∧ s.obs.stage = []) ∧
    bitF (traced [(fOBS_TRACE_CTL_TRACE_EN, 1)] id) fOBS_TRACE_CTL_TRACE_EN = true ∧
    (let s := { traced [(fOBS_SAMPLE_CTL_PERIOD_US, 10), (fOBS_CTL_TYPES, 0x80)] (fun o => { o with active := true, firedAt := some 10000 }) with
       pwr := { PwrSt.reset with teleAt := some 20000 } }
     s.pwr.teleAt = some s.now ∧ since s s.obs.firedAt (1000 * getF s fOBS_SAMPLE_CTL_PERIOD_US) = true ∧ s.obs.stage.length + (selectors s).length ≤ 8192 ∧
     s.obs.active = true ∧ bit (getF s fOBS_CTL_TYPES) 7 = true) := by
  decide +kernel

/-- A write of the ring: the last record of a page, a LOST record, and a full ring; and one that is not due. -/
theorem witness_TraceAndSnapshot_write :
    (∀ x ∈ [(127, 0), (127, 1), (128, 0)],
     let s := traced [(fOBS_CTL_TYPES, 0x100), (fOBS_CTL_WRAP, 0)] fun o => { o with stage := [sample], nextSeq := x.1, dropped := x.2, wroteAt := some 19500 }
     s.obs.stage = sample :: [] ∧ since s s.obs.wroteAt 500 = true ∧ ringAt s x.1 = 0x8FFFFFF000 + 32 * (x.1 % 128) ∧ ringFull s = (x.1 == 128) ∧
     bit (getF s fOBS_CTL_TYPES) 8 = true ∧ unitErr s (ringAt s x.1 / 64) = []) ∧
    (∀ l f a n, RangeClean { traced l f with mem := Mem.reset } a n) ∧
    since (traced [] id) (some 19501) 500 = false := by
  refine ⟨by decide +kernel, fun l f a n => rangeClean_of rfl rfl rfl rfl a n, by decide +kernel⟩

/-- A selected record that the ring holds, one that it no longer holds and one that is not yet written; a release at HEAD + 1 and one above it. -/
theorem witness_TraceAndSnapshot_select :
    (∀ x ∈ [(1, 128, true), (127, 128, true), (0, 129, false), (128, 128, false)],
     let s := traced [(fOBS_TRACE_SEL_SEQ, x.1)] fun o => { o with selAt := some 0, nextSeq := x.2.1 }
     s.obs.selAt = some 0 ∧ 0 + 20000 ≤ s.now ∧ getF s fOBS_TRACE_SEL_SEQ = x.1 ∧
     decide (x.1 < s.obs.nextSeq ∧ s.obs.nextSeq ≤ x.1 + getF s fOBS_TRACE_SIZE_PAGES * 128) = x.2.2) ∧
    (let s := traced [(fOBS_TRACE_HEAD_SEQ, 7)] id
     (8 : BitVec 32).toNat ≤ getF s fOBS_TRACE_HEAD_SEQ + 1 ∧ getF s fOBS_TRACE_HEAD_SEQ + 1 < (9 : BitVec 32).toNat) := by
  decide +kernel

/-! ### The host and the management endpoint -/

/-- A module whose PCIe link is up, with LPDDR zero-filled or not, and with an error in its first unit of the window or none. -/
def linked (ready : Bool) (err : SMap (SMap Nat)) : State :=
  { up with host := { up.host with link := true }, mem := { Mem.reset with lpddrReady := ready, err := err } }

/-- The staging window: before LPDDR is ready and after, up to the end of the window, and a unit with an error. -/
theorem witness_HostInterface_window :
    (∀ r ∈ [true, false], let s := linked r []
     s.host.link = true ∧ s.mem.lpddrReady = r ∧ 0x10000000000 + 0x1000000000 * getF s fHST_STAGE_QUAD = 0x1F000000000) ∧
    State.reset.host.link = false ∧ [(1 : Byte), 2].take (0x1000000000 - (0xFFFFFFFFF : BitVec 36).toNat) = [1] ∧
    min (4096 : Fin 4097).val (0x1000000000 - (0xFFFFFFFFF : BitVec 36).toNat) = 1 ∧
    (∀ r a n, RangeClean (linked r []) a n) ∧
    (let s := linked true [(0x1F000000000 / 64, [(3, 1), (4, 2)])]
     (0x1F000000000 + (0 : BitVec 36).toNat) % 64 + 64 ≤ 64 ∧ (memRead s 0x1F000000000 64).bad.isSome = true) := by
  refine ⟨by decide +kernel, by decide +kernel, by decide +kernel, by decide +kernel, fun r a n => rangeClean_of rfl rfl rfl rfl a n, by decide +kernel⟩

/-- HST_STAGE: the same quad, another one, one during a load, and one that holds the receiver area; and a write of REJ = 1. -/
theorem witness_HostInterface_stage :
    (∀ x ∈ [(0, 0, 15, 0), (1, 0, 0, 3), (0, 1, 0, 3), (0, 0, 8, 8), (0, 0, 8, 0)],
     let s := setFs up [(fHST_LOAD_STATUS_STATE, x.1), (fPM_FW_STATUS_STATE, x.2.1), (fTWN_STATUS_MAP_OK, 1), (fTWN_RX_BASE_ADDR, 0x10000000000 + 0x1000000000 * x.2.2.2)]
     let s := { s with twin := { s.twin with ranges := [⟨0x100000, false, 2⟩] } }
     baseUp s = true ∧ getF s fHST_STAGE_QUAD = 15 ∧ getF s fHST_LOAD_STATUS_STATE = x.1 ∧ getF s fPM_FW_STATUS_STATE = x.2.1 ∧
     bits (BitVec.ofNat 32 x.2.2.1).toNat 3 0 = x.2.2.1 ∧ rxMeets s (0x10000000000 + 0x1000000000 * x.2.2.1) 0x1000000000 = (x.2.2.1 == x.2.2.2)) ∧
    (0x80000000 : BitVec 32).getLsbD 31 = true ∧ baseUp State.reset = false := by
  decide +kernel

/-- The rings of a slot of the directory and of a slot of the update engine, with the least and the greatest operation; a slot that is busy;
a completion behind one of another slot. -/
theorem witness_HostInterface_slots :
    (∀ x ∈ [(255, 1), (255, 10), (256, 1), (256, 5)], ∀ b ∈ [0, 1],
     let s := setF up (fDB_SLOT_STATUS_BUSY x.1) b
     let s := { s with host := { s.host with slotReq := [(x.1, x.2)] } }
     baseUp s = true ∧ bitF s (fDB_SLOT_STATUS_BUSY x.1) = (b == 1) ∧ bitF s fTIER_STATUS_LOADING = false ∧
     (⟨.doorbell x.1, toBytes 32 (slotReq s x.1), s.now⟩ : Request).op = x.2) ∧
    (let s := { up with host := { up.host with slotDone := [(3, []), (511, toBytes 32 1)] } }
     s.host.slotDone = [(3, [])] ++ ((511 : Fin 512).val, toBytes 32 1) :: [] ∧ (∀ x ∈ s.host.slotDone, x.1 ≠ (0 : Fin 512).val)) := by
  decide +kernel

/-- The endpoint over PCIe with firmware, without it, and HALTED. -/
def endpoint (run st : Nat) : State := setFs (linked true []) [(fPM_STATUS_FW_RUNNING, run), (fPM_STATUS_STAGE, st)]

theorem witness_ManagementEndpoint_states :
    (∀ x ∈ [(1, 6), (0, 6), (0, 8)], let s := endpoint x.1 x.2
     viaUp s 0 = true ∧ fwRuns s = (x.1 == 1) ∧ stage s = x.2 ∧ s.mem.lpddrReady = true ∧ s.pm.recovery = false) ∧
    { endpoint 0 8 with pm := { up.pm with recovery := true } }.pm.recovery = true ∧
    (∀ r st a n, RangeClean { endpoint r st with mem := Mem.reset } a n) ∧ bankGood (endpoint 0 8) 0 = true ∧
    (let s := { endpoint 0 8 with pm := { up.pm with nor := { Nor.factory with bank0 := .bytes [] } } }
     stage s = 8 ∧ bankGood s 0 = false) := by
  refine ⟨by decide +kernel, rfl, fun r st a n => rangeClean_of rfl rfl rfl rfl a n, ?_, by decide +kernel⟩
  have h : fwBankOf (endpoint 0 8) 0 = .factory ∧ (endpoint 0 8).pm.rollback = 0 ∧ (endpoint 0 8).pm.revoked = 0 := by decide +kernel
  simp only [bankGood, h]
  simp [bit]

/-- A 64-bit register and its offset, the last 4-byte offset of the space and the first one beyond, and a log of one record. -/
theorem witness_ManagementEndpoint_operands :
    ((∃ r, regAt 0xD00010 = some r ∧ r.width = 64) ∧ plainWord up 0xD00010 = none ∧ 0xD00010 % 8 = 0 ∧ 0x3FFFFFC < 0x4000000 ∧
     ¬ (((4 : BitVec 8) = 4 ∨ (4 : BitVec 8) = 8) ∧ (0x4000000 : BitVec 32).toNat < 0x4000000) ∧ ¬ (((5 : BitVec 8) = 4 ∨ (5 : BitVec 8) = 8) ∧ 0 < 1)) ∧
    (let s := { up with pm := { up.pm with buf := [⟨0xFFFFFFFF, event⟩] } }
     (List.range (32 : BitVec 8).toNat).filterMap (fun i => findRecord s ((0xFFFFFFFF + i) % 2 ^ 32)) = [⟨0xFFFFFFFF, event⟩]) ∧
    (33 : BitVec 8).toNat = 33 ∧ (List.replicate 1024 (0 : Byte)).length = 1024 := by
  refine ⟨⟨⟨_, rfl, rfl⟩, by decide +kernel, by decide, by decide, by decide, by decide⟩, by decide +kernel, rfl, List.length_replicate⟩

/-- The places of the exchange, algorithms that fit and that do not, operations at their bounds, and no firmware. -/
theorem witness_SpdmResponder :
    (∀ n ∈ [0, 1, 2, 3], let s := { linked true [] with pm := { up.pm with spdm := n } }
     viaUp s (0 : SpdmVia).val = true ∧ fwRuns s = true ∧ s.pm.spdm = n) ∧
    ((0x80 : BitVec 32).getLsbD 7 = true ∧ (2 : BitVec 32).getLsbD 1 = true ∧ (1 : BitVec 32).getLsbD 1 = false) ∧
    (1 ≤ (7 : BitVec 8).toNat ∧ (7 : BitVec 8).toNat ≤ 7 ∧ 7 < (8 : BitVec 8).toNat ∧ (8 : BitVec 8) ≠ 0xFF ∧ (1 : BitVec 8) ≠ 0) ∧
    fwRuns State.reset = false := by
  decide +kernel

/-- A step from a memory in its form: the input is applied to a module in reset. -/
theorem witness_StepKeepsMemoryForm :
    let s := { State.reset with pending := [.vinApply] }
    Memory.wf s.mem = true ∧ ∃ u, step s = .next u := ⟨by decide +kernel, _, rfl⟩

end Sys2Proof.Tests
end

