-- ==== Sys2Proof/Tests/Vector.lean ====
section
/-!
SUPPORT. Witnesses of the hypotheses of the statements about the vector engine.
-/
namespace Sys2Proof.Tests
open Sys2Proof Sys2Proof.Machine

set_option Elab.async false

/-- A word of format VR (R179), all lanes active, with the destination v31. -/
def vr (maj min va vb imm : Nat) : Word := BitVec.ofNat 64 (maj * 2 ^ 58 + min * 2 ^ 52 + 31 * 2 ^ 47 + va * 2 ^ 42 + vb * 2 ^ 37 + imm * 2 ^ 21)

/-- It is at the head of the vector queue of tile 0, whose vector registers are r. -/
def vec (h : QEntry) (r : VecRegs) : State := engine .vector h fun x => { x with vec := { x.vec with r := r } }

/-- Every instruction of MAJ 0x18, with the destination among its operands, in both personalities. -/
theorem witness_VectorArithmetic :
    (∀ m ∈ List.range 0x1C, ∀ mode ∈ [0, 1],
     let h := entry (vr 0x18 m 31 31 0x20) []
     let s := vec h { VecRegs.start with vmode := mode }
     (s.tile 0).vec.win = none ∧ (s.tile 0).vec.out = [] ∧ (s.tile 0).vec.r.vmode = mode ∧ bcastFault (s.tile 0) h = none ∧
     Starts s 0 .vector 0x18 m h s) := by
  unfold Starts; decide +kernel

/-- The seeds, reductions and VSPLAT of MAJ 0x1A with the greatest immediates, and VL at its least for a comparison. -/
theorem witness_VectorLogicReductionsMasks :
    (∀ m ∈ List.range 5,
     let h := entry (vr 0x1A m 31 0 63) []
     let s := vec h .start
     (s.tile 0).vec.r.vmode = 0 ∧ wIMM6 h.word = 63 ∧ Starts s 0 .vector 0x1A m h s) ∧
    (∀ m ∈ [0x10, 0x11, 0x12],
     let h := entry (vr 0x18 m 1 2 0) []
     let s := vec h { VecRegs.start with vl := 1 }
     bcastFault (s.tile 0) h = none ∧ (s.tile 0).vec.r.vl ≠ 0 ∧ Starts s 0 .vector 0x18 m h s) := by
  unfold Starts; decide +kernel

/-- VMOV in operand-cache mode with its pointers at the end of the operand cache, with and without PINC. -/
theorem witness_VectorPointers :
    (∀ mode ∈ [2, 6],
     let h := entry (BitVec.ofNat 64 (0x18 * 2 ^ 58 + 0x14 * 2 ^ 52 + 7 * 2 ^ 47 + 6 * 2 ^ 42)) []
     let s := vec h { VecRegs.start with vmode := mode, p := [(6, 0x1FFF00), (14, 0x1FFFF0), (15, 0x1FFFFE)] }
     (s.tile 0).vec.win = none ∧ (s.tile 0).vec.out = [] ∧ wVD h.word = 7 ∧ wVA h.word = 6 ∧ (s.tile 0).vec.r.ptr 7 = 0 ∧ (s.tile 0).vec.r.ptr 15 = 0x1FFFFE ∧
     Starts s 0 .vector 0x18 0x14 h s ∧ ocFault (s.tile 0) 6 ((s.tile 0).vec.r.blocks (wKM h.word)) false = none ∧
     ocFault (s.tile 0) 7 ((s.tile 0).vec.r.blocks (wKM h.word)) true = none) ∧
    (∀ mode ∈ [2, 6], ∀ b,
     let h := entry (BitVec.ofNat 64 (0x18 * 2 ^ 58 + 0x14 * 2 ^ 52 + 7 * 2 ^ 47 + 6 * 2 ^ 42)) []
     let s := vec h { VecRegs.start with vmode := mode, p := [(6, 0x1FFF00), (14, 0x1FFFF0), (15, 0x1FFFFE)] }
     vecA s 0 h b = bfxOf (ocBytes (s.tile 0) ((s.tile 0).vec.r.ptr 6 + 128 * b) 128)
       (leAt (ocBytes (s.tile 0) ((s.tile 0).vec.r.ptr 14 + b) 1) 0 1)) := by
  refine ⟨?_, ?_⟩
  · unfold Starts; decide +kernel
  · intro m hm b
    simp only [List.mem_cons, List.not_mem_nil, or_false] at hm
    obtain rfl | rfl := hm <;> rfl

/-- WRSP and RDSP of each register at the bounds of their values. -/
theorem witness_VectorSpecialRegisters :
    (∀ n ∈ [0x800, 0x801, 0x802, 0x810, 0x81F],
     let h := entry (ctWord 0x32 1 0 1 n 0 0) [(1, 64)]
     let s := vec h .start
     (s.tile 0).vec.r.bstat < 4 ∧ wSYS h.word = n ∧ capS h (wSA h.word) = 64 ∧ Starts s 0 .vector 0x32 1 h s) ∧
    (∀ n ∈ [0x800, 0x801, 0x802, 0x810, 0x81F],
     let h := entry (ctWord 0x32 1 0 1 n 0 0) [(1, -1)]
     let s := vec h .start
     2 ^ 21 ≤ capS h (wSA h.word) ∧ Starts s 0 .vector 0x32 1 h s) ∧
    (∀ n ∈ [0x800, 0x801, 0x802, 0x810, 0x81F],
     let h := entry (ctWord 0x32 2 63 0 n 0 0) []
     wSYS h.word = n ∧ Starts (vec h .start) 0 .vector 0x32 2 h (vec h .start)) := by
  unfold Starts; decide +kernel

/-! ### Windows and memory -/

/-- VRDACC of a verified and of an unverified tile. -/
theorem witness_VerificationWindow_vrdacc :
    (∀ c ∈ [false, true],
     let h := entry (BitVec.ofNat 64 (0x1A * 2 ^ 58 + 31 * 2 ^ 47 + 1 * 2 ^ 27 + 3 * 2 ^ 21)) [(1, 255)]
     let s := (vec h .start).onTile 0 fun x => { x with mat := { x.mat with a1 := { Acc.zero with chain := if c then [⟨mmOp h, [], false, 0⟩] else [] } } }
     Starts s 0 .vector 0x1A 0 h s ∧ wIMM6 h.word % 2 = 1 ∧ capS h (wSS h.word) = 255 ∧ (s.tile 0).vec.win = none ∧ (s.tile 0).vec.out = [] ∧
     (s.tile 0).fill.bound ≠ some 1 ∧ (s.tile 0).mat.run = [] ∧ 1 ∉ (s.tile 0).mat.recompute ∧ ((s.tile 0).acc 1).unverified = c) := by
  unfold Starts; decide +kernel

/-- VMOV joins a window with room for one more instruction; a window whose verification failed replays; a replay that had to wait. -/
theorem witness_VerificationWindow_open :
    (let h := entry (vr 0x18 0x14 31 0 0) []
     let w : Window := ⟨.start, List.replicate 255 h, [], [], [], [1], false⟩
     let s := (vec h .start).onTile 0 fun x => { x with vec := { x.vec with win := some w } }
     Starts s 0 .vector 0x18 0x14 h s ∧ (s.tile 0).vec.win = some w ∧ w.replay.length < 256 ∧ heldBytes w < 65536) ∧
    (let w : Window := ⟨.start, [], [], [], [], [1], true⟩
     let s := (vec (entry 0 []) .start).onTile 0 fun x => { x with vec := { x.vec with win := some w } }
     isLive s 0 = true ∧ clkRuns s 0 = true ∧ (s.tile 0).vec.win = some w ∧ (s.tile 0).mat.recompute = [] ∧ (s.tile 0).mat.run = [] ∧
     (s.tile 0).vec.redo = [] ∧ ∀ n ∈ w.accs, ((s.tile 0).acc n).unverified = false ∧ accWriting (s.tile 0) n = false) ∧
    (let s := (vec (entry 0 []) .start).onTile 0 fun x => { x with vec := { x.vec with redo := [entry (vr 0x18 0x14 31 0 0) []] } }
     isLive s 0 = true ∧ clkRuns s 0 = true ∧ (s.tile 0).vec.redo ≠ []) := by
  unfold Starts; decide +kernel

/-- VLD and VST of device memory and of the operand cache, at the ends of both, in a plain and in a scaled format. -/
theorem witness_VectorMemory :
    (∀ m ∈ [0, 1], ∀ oc ∈ [0, 1], ∀ fmt ∈ [0, 5],
     let h := entry (BitVec.ofNat 64 (0x19 * 2 ^ 58 + m * 2 ^ 52 + 31 * 2 ^ 47 + 1 * 2 ^ 41 + 2 * 2 ^ 35 + oc * 2 ^ 28 + fmt * 2 ^ 14))
       [(1, if oc = 1 then 0x1FFF00 else 0x8FFFFFFF00), (2, if oc = 1 then (if fmt = 5 then 0x1FFFFE else 0) else (if fmt = 5 then 0x8FFFFFFFFE else 0))]
     let s := vec h .start
     let bl := (s.tile 0).vec.r.blocks (wmKM h.word)
     Starts s 0 .vector 0x19 m h s ∧ (s.tile 0).vec.win = none ∧ (s.tile 0).vec.out = [] ∧ (s.tile 0).vec.r.bstat < 4 ∧
     vmFault (s.tile 0) h bl (m = 1) = none ∧ bl ≠ [] ∧ wmPRED h.word = false ∧ wmOC h.word = (oc == 1) ∧
     ocUe (s.tile 0) ((bl.map (vmBlk h)).flatMap fun k => [(k.addr, k.len), (k.saddr, k.slen)]) = none) := by
  unfold Starts; decide +kernel

/-- The data of a load returns, and the writes of a store become visible. -/
theorem witness_VectorMemory_complete :
    (let l : VLoad := ⟨31, 0, [⟨1, 0x8FFFFFFF80, 128, 0, 0⟩], List.replicate 64 true, 0, false, 0, false⟩
     let s := (vec (entry 0 []) .start).onTile 0 fun x => { x with vec := { x.vec with out := [⟨0, some 15, .load l⟩] } }
     isLive s 0 = true ∧ (s.tile 0).vec.out = [⟨0, some 15, .load l⟩] ∧ (s.tile 0).vec.win = none ∧ s.mem = Mem.reset) ∧
    (let w : VWrite := ⟨false, 0x8FFFFFFF80, toBytes 128 1⟩
     let s := (vec (entry 0 []) .start).onTile 0 fun x => { x with vec := { x.vec with out := [⟨0, none, .store [w]⟩] } }
     isLive s 0 = true ∧ (s.tile 0).vec.out = [⟨0, none, .store [w]⟩] ∧ s.mem = Mem.reset) := by
  decide +kernel

end Sys2Proof.Tests
end

