-- ==== Sys2Proof/Tests/Complete.lean ====
section
/-!
SUPPORT. Witnesses of the hypotheses of the statement about the commands that complete.
-/
namespace Sys2Proof.Tests
open Sys2Proof Sys2Proof.Machine

set_option Elab.async false

/-- The second half of a 64-bit register whose first one is held; VRDACC of a verified tile; a replay with nothing left to execute. -/
theorem witness_CommandsThatComplete_tile :
    (let s := setHalves up 0x400030 { halvesOf up 0x400030 with low := some 7 }
     0x400030 % 8 = 0 ∧ plainWord s 0x400034 = none ∧ regAt 0x400034 = none ∧ (∃ r, regAt 0x400030 = some r ∧ r.width = 64) ∧ CsrOpen s 0x400030 ∧
     (halvesOf s 0x400030).low = some 7) ∧
    (let h := entry (BitVec.ofNat 64 (0x1A * 2 ^ 58 + 31 * 2 ^ 47 + 1 * 2 ^ 27 + 3 * 2 ^ 21)) [(1, 255)]
     let s := vec h .start
     Starts s 0 .vector 0x1A 0 h s ∧ (s.tile 0).vec.out = [] ∧ (s.tile 0).vec.win = none ∧ (s.tile 0).vec.r.vmode = 0 ∧ wIMM6 h.word % 2 = 1 ∧
     capS h (wSS h.word) = 255 ∧ (s.tile 0).fill.bound ≠ some 1 ∧ (s.tile 0).mat.run = [] ∧ 1 ∉ (s.tile 0).mat.recompute ∧ ((s.tile 0).acc 1).unverified = false) ∧
    (let w : Window := ⟨.start, [], [], [], [], [1], true⟩
     let s := (vec (entry 0 []) .start).onTile 0 fun x => { x with vec := { x.vec with win := some w } }
     isLive s 0 = true ∧ clkRuns s 0 = true ∧ (s.tile 0).vec.redo = [] ∧ (s.tile 0).vec.win = some w ∧ w.failed = true ∧ w.replay = [] ∧
     (s.tile 0).vec.out = [] ∧ (s.tile 0).mat.recompute = [] ∧ ∀ n ∈ w.accs, ((s.tile 0).acc n).unverified = false ∧ accWriting (s.tile 0) n = false) ∧
    (let s := { core 0 fun x => { x with coreWait := some (0, 3, 1) } with now := 100000064 }
     isLive s 0 = true ∧ (s.tile 0).coreWait = some (0, 3, 1) ∧ tokenLate s 0 3 1 0 = true ∧ clkRuns s 0 = true) := by
  unfold Starts
  refine ⟨⟨by decide, by decide +kernel, by decide +kernel, ⟨_, rfl, rfl⟩,
    ⟨by decide +kernel, by decide +kernel, fun t h => by cases (show some 0 = some t from h); decide +kernel⟩, by decide +kernel⟩, ?_, ?_, ?_⟩ <;> decide +kernel

/-- The host's link with LPDDR ready; a cluster in OFF; a die that is UP; an agreement to close; firmware on trial; a weak source; a trace
session; the local oscillator; a loaded map; firmware that may refine the table; HST_STAGE; the slots; and a masked vector with a message pending. -/
theorem witness_CommandsThatComplete_rest :
    (let s := linked true []
     s.host.link = true ∧ s.mem.lpddrReady = true) ∧
    (let s := cluster kOFF 0 .start .start
     clusterState s 3 = kOFF ∧ dieUp s 0 = true ∧ (dieRt s 0).wakes = []) ∧
    (let s := { weir 39 .start [none, none] with now := 54 }
     dieUp s 0 = true ∧ (carries s 0 39).isSome = true ∧ weirSilent s 0 39 true = true) ∧
    (let s := twin 1 fun w => { w with agrees := [⟨1, true, [0], true, [1]⟩] }
     nextAgree s = 1 ∧ takesPart s = true ∧ (agreeOf s 1).own = true ∧ (agreeOf s 1).rowDone = true ∧ stageFull s true (agreeOf s 1).col = true ∧
     s.upd.waits = []) ∧
    (let s := fw 5 id
     fwRuns s = true ∧ getF s fPM_FW_STATUS_STATE = 5 ∧ getF s fPM_STATUS_BANK = 0) ∧
    (let s := setFs up [(fLAS_SRC_P0 16, 1000), (fLAS_SRC_POWER 16, 0)]
     isWorking s 16 = true ∧ (laserSrc s 16).stage < 2 ∧ engineOf s 16 = some 16 ∧ dbm (getF s (fLAS_SRC_POWER 16)) ≤ dbm (getF s (fLAS_SRC_P0 16)) - 250) ∧
    bitF (traced [(fOBS_TRACE_CTL_TRACE_EN, 1)] id) fOBS_TRACE_CTL_TRACE_EN = true ∧
    bitF (setF up fPKG_AON_ON_LOCAL 1) fPKG_AON_ON_LOCAL = true ∧
    (bitF (twin 1 id) fTWN_STATUS_MAP_OK = true ∧ twState (twin 1 id) ≠ 2 ∧ twState (twin 1 id) ≠ 3) ∧
    (bitF up fPM_STATUS_FW_RUNNING = true ∧ since up up.pm.couplingAt 1000000000 = true) ∧
    (baseUp up = true ∧ bits (0x8000000F : BitVec 32).toNat 3 0 = 15 ∧ getF up fHST_LOAD_STATUS_STATE ≠ 1 ∧ getF up fPM_FW_STATUS_STATE ≠ 1 ∧
     rxMeets up (0x10000000000 + 0x1000000000 * 15) 0x1000000000 = false) ∧
    (∀ x ∈ [(255, 10), (256, 5)], let s := { up with host := { up.host with slotReq := [x] } }
     baseUp s = true ∧ bitF s (fDB_SLOT_STATUS_BUSY x.1) = false ∧ bitF s fTIER_STATUS_LOADING = false ∧
     (⟨.doorbell x.1, toBytes 32 (slotReq s x.1), s.now⟩ : Request).op = x.2) ∧
    (let s := setFs { up with host := { up.host with slotDone := [(3, []), (511, toBytes 32 1)], msixPend := true } } [(fINT_CAUSE_LEAF 11, 1), (fINT_MASK_MASK 11, 0), (fINT_SUMMASK_MASK, 0)]
     s.host.slotDone = [(3, [])] ++ ((511 : Fin 512).val, toBytes 32 1) :: [] ∧ s.host.msixMask = true ∧ s.host.msixPend = true ∧ intCond s = true) := by
  refine ⟨?_, ?_, ?_, ?_, ?_, ?_, ?_, ?_, ?_, ?_, ?_, ?_, ?_⟩ <;> decide +kernel

end Sys2Proof.Tests
end

