-- ==== Sys2Proof/Tests/Fabric.lean ====
section
/-!
SUPPORT. Witnesses of the hypotheses of the statements about packets, rates, the timebase and the link layer.
-/
namespace Sys2Proof.Tests
open Sys2Proof Sys2Proof.Machine

set_option Elab.async false

/-- A packet of a type from module (32, 1) with its header fields. -/
def pkt (typ addr id step : Nat) (payload : List Byte) : Packet := ⟨32, 288, 0, false, false, false, false, typ, 4, step, addr, id, payload⟩

/-- The packet waits in the ingress pool of the module. -/
def arrived (p : Packet) : State := { setF up fUPD_STEP_OPEN 7 with fab := { up.fab with inq := [⟨0, 9, p⟩] } }

/-- A WRITE to the last bytes of LPDDR of no step and of the open one, one of the next step, a READ, and a VFENCE packet alone and with an earlier WRITE
of its tile behind it. -/
theorem witness_StreamPackets :
    (∀ n ∈ [0, 7],
     let q : InPkt := ⟨0, 9, pkt tWRITE 0x1FFFFFFFF00 0 n (toBytes 256 1)⟩
     (arrived q.p).fab.inq[0]? = some q ∧ fenceHeld (arrived q.p) q = false ∧ (q.p.step = 0 ∨ q.p.step = openStep (arrived q.p)) ∧ mappedRange q.p.addr q.p.payload.length = true) ∧
    (let q : InPkt := ⟨0, 9, pkt tWRITE 0x1FFFFFFFF00 0 8 (toBytes 256 1)⟩
     (arrived q.p).fab.inq[0]? = some q ∧ fenceHeld (arrived q.p) q = false ∧ q.p.step = openStep (arrived q.p) + 1 ∧ (arrived q.p).upd.groups = []) ∧
    (let q : InPkt := ⟨0, 9, pkt tREAD 0x1FFFFFFFE00 7 0 (toBytes 2 512)⟩
     (arrived q.p).fab.inq[0]? = some q ∧ leAt q.p.payload 0 2 = 512 ∧ mappedRange q.p.addr 512 = true ∧ slotAt (arrived q.p) q.p.addr = none) ∧
    (let q : InPkt := ⟨0, 9, pkt tVFENCE 0x1FFFFFFFFF8 0 0 (toBytes 8 2)⟩
     (arrived q.p).fab.inq[0]? = some q ∧ fenceHeld (arrived q.p) q = false ∧ mappedRange q.p.addr 8 = true) ∧
    (let q : InPkt := ⟨0, 9, pkt tVFENCE 0x1FFFFFFFFF8 0 0 (toBytes 8 2)⟩
     let o : InPkt := { q with p := { pkt tWRITE 0 0 0 [] with seq := 3 } }
     let s := { arrived q.p with fab := { up.fab with inq := [q, o] } }
     s.fab.inq[0]? = some q ∧ q.p.typ = tVFENCE ∧ fenceHeld s q = true) ∧
    (∀ p a n, RangeClean (arrived p) a n) := by
  refine ⟨?_, ?_, ?_, ?_, ?_, fun p a n => rangeClean_of rfl rfl rfl rfl a n⟩ <;> decide +kernel

/-- An SGET of 1,024 bytes of which segment 1 is on its way. -/
def sget : StrRun :=
  ⟨3, entry (BitVec.ofNat 64 (0x20 * 2 ^ 58 + 3 * 2 ^ 52 + 1 * 2 ^ 46 + 2 * 2 ^ 40 + 3 * 2 ^ 34 + 4 * 2 ^ 28)) [(1, 0x1000), (2, 0x2000), (3, 16), (4, 288)], 0, none,
    { RRead.start false with next := 4, pend := [1] }, [], none, none⟩

/-- The data of that segment, and a segment that failed. -/
theorem witness_StreamReadData :
    (∀ b ∈ [0, 7],
     let q : InPkt := ⟨0, 9, pkt tREADDATA 0x1100 (5 * 16777216 + 3 * 65536 + 1) 0 (toBytes 8 b ++ toBytes 256 (2 ^ 2047))⟩
     let s := (arrived q.p).setTile 5 { Tile.reset with phase := .running, str := { StrUnit.reset with run := [sget], nextNo := 4 } }
     s.fab.inq[0]? = some q ∧ q.p.payload.length = 8 + 256 ∧ leAt q.p.payload 0 1 = b ∧ q.p.id / 16777216 % 256 = 5 ∧ q.p.id % 65536 = 1 ∧
     sget.no % 128 = q.p.id / 65536 % 256 ∧ (s.tile 5).str.run = [sget] ∧ wMin sget.e.word = 3 ∧ wsOPT sget.e.word = false ∧ expectVer sget = none ∧
     sget.rr.step = 1 ∧ sget.rr.pend.find? (· % 65536 == 1) = some 1 ∧ (runSegs sget)[1]? = some (0x1100, 256, 256) ∧
     (runSegs sget).length ≤ sget.rr.next ∧ 1 ∈ sget.rr.pend ∧ sget.fail = none) := by
  decide +kernel

/-- A message to one receiver. -/
def outMsg (mc : Bool) (st : MsgState) : OutMsg := ⟨6, 6, 5, 0, 288, 5, 0, false, mc, toBytes 64 0, 0x4000, [], 0, 0, 0, true, st, some 0, false, 0⟩

/-- A multicast receiver and a gather window stalled past LIMIT_NS, a removed receiver with no packet in flight, and a loss interval of 1 s. -/
theorem witness_StreamLoss :
    (let s := { up with now := getF up fCMP_MC_STALL_LIMIT_NS + 1, mail := { MailSt.reset with msgs := [outMsg true .sending] } }
     s.mail.msgs[0]? = some (outMsg true .sending) ∧ stalled s (outMsg true .sending).stallFrom = true) ∧
    (let c : CollSend := ⟨255, 7, 1, 288, false, true, 0, 0, 0, some 0, false, false⟩
     let s := { up with now := getF up fCMP_MC_STALL_LIMIT_NS + 1, mail := { MailSt.reset with sends := [c] } }
     s.mail.sends[0]? = some c ∧ c.removed = false ∧ c.gather = true ∧ stalled s c.stallFrom = true) ∧
    (let m := { outMsg true .removed with took := true }
     let s := { up with mail := { MailSt.reset with msgs := [m] } }
     s.mail.msgs[0]? = some m ∧ m.state = .removed ∧ mayCatchUp s m = true ∧ m.desc.length = 64) ∧
    (let s := { up with now := 1000000000, mail := { MailSt.reset with rts := [(16383, { PhRt.start with lossFrom := some 0, lossN := 1 })] } }
     (phRt s 16383).lossFrom = some 0 ∧ 0 + 1000000000 ≤ s.now ∧ s.pm.evq.length < 1024) := by
  decide +kernel

/-- The ACK of a message's last packet, a marked ACK, a quiet window, 65 owed acknowledgements, a unit held too long, and a packet without its ACK at
the limit. -/
theorem witness_AcknowledgementAndRates :
    (let o : OutPkt := ⟨pkt tMAIL 0 0 0 [], .mail 5 6, some 0, 0, false⟩
     let q : InPkt := ⟨0, 9, { pkt tACK 0 0 0 (toBytes 4 4 ++ toBytes 4 0) with src := 32 }⟩
     let s := { up with fab := { up.fab with inq := [q], out := [o] }, mail := { MailSt.reset with msgs := [{ outMsg true .sending with flying := 1 }] } }
     s.fab.inq[0]? = some q ∧ ackItems q.p.payload = [(o.p.seq, false)] ∧ s.fab.out.find? (fun x => x.p.dest == q.p.src && x.p.seq == o.p.seq) = some o) ∧
    (let s := { arrived (pkt tACK 0 0 0 (toBytes 4 4 ++ toBytes 4 1)) with now := 4000 }
     ackItems (pkt tACK 0 0 0 (toBytes 4 4 ++ toBytes 4 1)).payload = [(4, true)] ∧ (rateOf s 288).lastCut = none ∧ bitF s fCMP_CC_PIN_EN = false ∧
     2 ^ ((rateOf s 288).sh + 8) ≤ (rateOf s 288).num * (256 - getF s fCMP_CC_CTL_CUT)) ∧
    (let s := { up with now := 4000, fab := { up.fab with rates := [(288, ⟨300, 0, some 0, 0, 0⟩)] } }
     (rateOf s 288).quietFrom + getF s fCMP_CC_CTL_WINDOW_US * 1000 ≤ s.now ∧
     (rateOf s 288).num + getF s fCMP_CC_CTL_ADD * 2 ^ (rateOf s 288).sh < 400 * 2 ^ (rateOf s 288).sh) ∧
    (let a : AckOwed := ⟨288, (List.range 65).map fun i => (2 ^ 32 - 1 - i, true)⟩
     ([a].find? fun x => x.src == 288) = some a ∧ ∀ x ∈ a.items, x.1 < 2 ^ 32) ∧
    (let p := { pkt tREAD 0x1000 0 0 [] with dest := 288, src := 32 }
     let v : TxUnit := ⟨p, none, none, 0, none, 0, none⟩
     let o : OutPkt := ⟨p, .stream 5 3, some 0, 0, false⟩
     let s := { up with now := 10000000000, fab := { up.fab with hops := [(1, { Hop.start with tx := [v] })], out := [o] } }
     (hopSt s 1).tx[0]? = some v ∧ v.heldFrom + getF s fCMP_FAB_LIMITS_HOLD_MS * 1000000 < s.now ∧
     s.fab.out.find? (fun x => x.p.dest == v.p.dest && x.p.seq == v.p.seq && x.p.src == v.p.src) = some o ∧
     s.fab.out[0]? = some o ∧ 0 + getF s fCMP_FAB_LIMITS_E2E_US * 1000 ≤ s.now) := by
  refine ⟨?_, ?_, ?_, ?_, ?_⟩ <;> decide +kernel

/-! ### Timebase and links -/

/-- The module at a physical position after discovery, with P0 the in-service row port and P8 the column port. -/
def placed (row col : Nat) : State :=
  setFs up [(fOPT_FAB_STATUS_DSTATE, 3), (fOPT_POS_ROW, row), (fOPT_POS_COL, col), (fOPT_POS_LROW, row), (fOPT_POS_LCOL, col),
    (fOPT_PORT_PSTATE 0, pINSERVICE), (fOPT_PORT_PSTATE 8, pINSERVICE)]

/-- A unit has come on a lane. -/
def onLane (s : State) (e l : Nat) (v : LinkUnit) : State := setLane s e l { LaneRt.start with units := [v] }

/-- A sync frame of the root and of another module; a frame of the parent at each level, first and later, and the one
that completes an exchange; a port 1 ns before and at its period; a lock without a frame for 10 ms. -/
theorem witness_TimebaseSync :
    (∀ r ∈ [0, 1], discovered (placed r 0) = true ∧ lowestPort (placed r 0) 8 = true ∧ rootPos (placed r 0) = some 0) ∧
    physOf (placed 0 0) 0 = ownPhys (placed 0 0) ∧ physOf (placed 1 0) 0 ≠ ownPhys (placed 1 0) ∧
    (let v : LinkUnit := ⟨5, 0, toBytes 8 (2 ^ 40) ++ toBytes 8 (2 ^ 40 + 5)⟩
     (takeUnit (onLane (placed 1 0) 8 0 v) 8 0 5).isSome = true ∧ syncLevel (onLane (placed 1 0) 8 0 v) = some 1 ∧
     portRole (onLane (placed 1 0) 8 0 v) 8 = 1 ∧ (takeUnit (onLane (placed 1 1) 0 0 v) 0 0 5).isSome = true ∧
     syncLevel (onLane (placed 1 1) 0 0 v) = some 2 ∧ portRole (onLane (placed 1 1) 0 0 v) 0 = 0 ∧
     syncPart (placed 0 0) 1 = .parent ∧ syncPart (placed 1 0) 1 = .child ∧ syncPart (placed 1 1) 1 = .none ∧
     ∀ b ∈ [false, true], ∀ valid ∈ [0, 1],
       let c : SyncLink := ⟨some 0, 0, 2 ^ 40 - 8, 2 ^ 40 - 6, true, some (2 ^ 40 - 4)⟩
       let z := setLane (placed 1 0) 8 0 { LaneRt.start with units := [v], tgt := some (0, 0) }
       let s := setF { z with fab := { z.fab with syncLinks := [(1, c)], syncFirst := b } } fCMP_PHASE_VALID valid
       (takeUnit s 8 0 5).isSome = true ∧ syncPart s 1 = .child ∧ leadsToParent s 8 = true ∧ syncLink s 1 = c ∧ leAt v.body 8 8 ≠ 0 ∧
       s.fab.syncFirst = b ∧ bitF s fCMP_PHASE_VALID = (valid == 1) ∧ c.t3 ≠ none) ∧
    (∀ n ∈ [999999, 1000000],
     let s := { placed 1 0 with now := n, fab := { (placed 1 0).fab with syncLinks := [(1, ⟨some 0, 0, 0, 0, false, none⟩)] } }
     discovered s = true ∧ lowestPort s 8 = true ∧ (syncLink s 1).sentAt = some 0 ∧ syncPart s 1 = .child ∧
     (let c : SyncLink := ⟨some 0, 0, 0, 0, true, none⟩
      syncLink { s with fab := { s.fab with syncLinks := [(1, c)] } } 1 = c ∧ c.heard = true ∧ c.t3 = none)) ∧
    (let s := { setF up fCMP_TB_STATUS_LOCKED 1 with now := 10000000, fab := { up.fab with syncAt := some 0 } }
     getF s fCMP_TB_STATUS_LOCKED = 1 ∧ 0 + 10000000 ≤ s.now ∧ s.pm.evq.length < 1024) := by
  refine ⟨?_, ?_, ?_, ?_, ?_, ?_⟩ <;> decide +kernel

set_option maxRecDepth 100000 in
/-- A correct codeword, and one with an error in its last symbol. -/
theorem witness_LinkTraffic_codeword : fecErrors (List.replicate 272 0) = some [] ∧ fecErrors (List.replicate 271 0 ++ [5]) = some [(271, 5)] := by
  decide +kernel

set_option maxRecDepth 100000 in
/-- A word with nine errors. -/
theorem witness_LinkTraffic_uncorrectable : fecErrors (List.replicate 263 0 ++ List.replicate 9 1) = none := by decide +kernel

set_option maxRecDepth 100000 in
/-- R438: the check symbols of a payload make a codeword without an error. -/
theorem test_fecEncode : fecErrors (fecEncode (toBytes 320 (0x9A5 * 2 ^ 2544))) = some [] := by decide +kernel

/-- R437: the five pairs of a symbol, from its most significant bits, in Gray code; symbols come back from their levels. -/
theorem test_pam4 :
    symLevels 0b0001111000 = [0, 1, 2, 3, 0] ∧ (levelSymbols (cwLevels [0x1B, 0x3FF])).take 2 = [0x1B, 0x3FF] := by
  decide +kernel

/-- A PACKET unit on a lane of the twin port, once new and once come before, with the greatest LSEQ; LINK_ACK, its sending, a replay 4 µs after the last
send, and an identity unit. -/
theorem witness_LinkTraffic_units :
    (let v : LinkUnit := ⟨1, 2 ^ 24 - 1, (pkt tWRITE 0 0 0 []).bytes⟩
     let s := onLane up 16 31 v
     let s2 := { s with fab := { s.fab with hops := [(130, { Hop.start with cum := 2 ^ 24, high := 2 ^ 24 - 1 })] } }
     (takeUnit s 16 31 1).map (·.1) = some v ∧ v.lseq < 2 ^ 24 ∧ laneHop s 16 31 = some 130 ∧ (packetOf v.body).isSome = true ∧
     takeSeq (hopSt s2 130) v.lseq = none ∧
     (takeSeq { Hop.start with cum := 2 ^ 24 - 1, high := 2 ^ 24 - 2 } v.lseq).isSome = true) ∧
    (let v : LinkUnit := ⟨2, 0, toBytes 4 (2 ^ 24 - 1) ++ toBytes 8 0⟩
     let s := onLane up 16 31 v
     (takeUnit s 16 31 2).map (·.1) = some v ∧ leAt v.body 4 8 = 0 ∧ (hopSt s 130).tx = []) ∧
    (let x : TxUnit := ⟨pkt tWRITE 0 0 0 [], none, some 5, 0, some 0, 16, none⟩
     let s := { setF up (fOPT_LANE_LSTATE 16 31) lINSERVICE with now := 4000, fab := { up.fab with hops := [(130, { Hop.start with unacked := true, tx := [x] })] } }
     (hopSt s 130).unacked = true ∧ lanesTo s 130 = [(16, 31)] ∧ (hopSt s 130).got = [] ∧ (hopSt s 130).tx[0]? = some x ∧ 0 + 4000 ≤ s.now) ∧
    (takeUnit (onLane up 0 0 ⟨3, 0, []⟩) 0 0 3).isSome = true ∧
    (let p := pkt tWRITE 0 0 0 []
     let s := onLane up 16 31 ⟨1, 5, p.bytes⟩
     let full := { s with fab := { s.fab with inq := List.replicate 128 ⟨16, 0, p⟩ } }
     poolFull s 130 16 p = false ∧ poolFull full 130 16 p = true ∧ (takeUnit full 16 31 1).isSome = true ∧
     ((packetOf p.bytes).isSome = true ∧ (takeSeq (hopSt full 130) 5).isSome = true ∧ getF full fOPT_TWIN_TSTATE ≠ 2) ∧
     getF (setF s fOPT_TWIN_TSTATE 2) fOPT_TWIN_TSTATE = 2) := by
  refine ⟨?_, ?_, ?_, ?_, ?_⟩ <;> decide +kernel

end Sys2Proof.Tests
end

