-- ==== Sys2Proof/Tests/Load.lean ====
section
/-!
SUPPORT. Witnesses of the hypotheses of the statements about the job image.
-/
namespace Sys2Proof.Tests
open Sys2Proof Sys2Proof.Machine

set_option Elab.async false

/-- An image (R128, R129) of one section with the given contents, a job of number 7, and a port split of 12:4. -/
def image (typ tiles dest size : Nat) (digest data : List Byte) : List Byte :=
  toBytes 4 0x314A4B44 ++ toBytes 4 1 ++ toBytes 4 128 ++ toBytes 4 1 ++ toBytes 8 128 ++ toBytes 8 (160 + data.length) ++ toBytes 8 0 ++
  toBytes 8 7 ++ toBytes 4 0 ++ toBytes 12 1 ++ digest ++ List.replicate 16 0 ++
  toBytes 2 typ ++ toBytes 2 0 ++ toBytes 4 tiles ++ toBytes 8 (if typ = 4 then 0 else 160) ++ toBytes 8 size ++ toBytes 8 dest ++ data

/-- The staging window holds it, at offset 4096; the load is at `next`. -/
def staged (next : Nat) (img : List Byte) : State :=
  { setFs up [(fHST_LOAD_OFF_OFFSET, 4096), (fHST_LOAD_SIZE_SIZE, img.length)] with
    mem := { Mem.reset with bytes := putBytes [] (stageBase up + 4096) img }
    load := { State.reset.load with run := if next = 0 then none else some ⟨stageBase up + 4096, img.length, next, img.take 128, [], true, 0⟩ } }

/-- TILE_DATA of 8 bytes for tiles 2 and 3, with a digest. -/
def tileData (dest digest : Nat) : List Byte := image 2 0x0302 dest 8 (toBytes 48 digest) [1, 2, 3, 4, 5, 6, 7, 8]

/-- The ring of DB_LOAD. -/
theorem witness_ImageLoading_start :
    (let img := tileData 8 0
     let s := staged 0 img
     let off := 4096
     let h := memBytes s (stageBase s + off) 128
     let tab := memBytes s (stageBase s + off + leAt h 16 8) (32 * leAt h 12 4)
     baseUp s = true ∧ getF s fHST_LOAD_STATUS_STATE ≠ 1 ∧ bitF s fPKG_STATUS_LIMITED = false ∧ stage s = 6 ∧
     getF s fHST_LOAD_OFF_OFFSET = off ∧ getF s fHST_LOAD_SIZE_SIZE = img.length ∧ off % 4096 = 0 ∧ off + img.length ≤ 2 ^ 36 ∧ 128 ≤ img.length ∧
     leAt h 12 4 ≤ 4096 ∧ leAt h 16 8 + 32 * leAt h 12 4 ≤ img.length ∧ stepOne img.length h tab = some [⟨2, 0, 0x0302, 160, 8, 8⟩]) ∧
    (∀ n img a k, RangeClean (staged n img) a k) := by
  refine ⟨by decide +kernel, fun n img a k => rangeClean_of rfl rfl rfl rfl a k⟩

/-- The digest of that image, as FIPS 180-4 gives it. -/
def goodDigest : Nat := 0x972149a3c612c042c982f9eb9a091abf2941fb95d9b79d7364e4d0509f8af1ff5791c63f40764acf0dcb4e2771f26890

theorem sha384_image : sha384 (digestInput (tileData 8 0)) = toBytes 48 goodDigest := by decide +kernel

/-- A bad digest; and the good one of an image that passes, and of one whose target tile 2 runs a task. -/
theorem witness_ImageLoading_digest :
    (let s := staged 2 (tileData 8 0)
     let img := memBytes s (stageBase up + 4096) 168
     (∃ w, s.load.run = some w ∧ w.next = 2 ∧ w.base = stageBase up + 4096 ∧ w.size = 168) ∧ sha384 (digestInput img) ≠ slice img 0x40 48) ∧
    (let s := staged 2 (tileData 8 goodDigest)
     let img := memBytes s (stageBase up + 4096) 168
     let l : List Sec := [⟨2, 0, 0x0302, 160, 8, 8⟩]
     sha384 (digestInput img) = slice img 0x40 48 ∧ stepOne 168 img (slice img (leAt img 16 8) (32 * leAt img 12 4)) = some l ∧
     loadCheck s (stageBase up + 4096) 168 img l = none ∧
     loadCheck (s.setTile 2 { Tile.reset with phase := .running }) (stageBase up + 4096) 168 img l = some (5, 5)) := by
  have h1 : memBytes (staged 2 (tileData 8 0)) (stageBase up + 4096) 168 = tileData 8 0 := by decide +kernel
  have h2 : memBytes (staged 2 (tileData 8 goodDigest)) (stageBase up + 4096) 168 = tileData 8 goodDigest := by decide +kernel
  have h3 : digestInput (tileData 8 goodDigest) = digestInput (tileData 8 0) := by decide +kernel
  simp only [h1, h2, h3, sha384_image]
  refine ⟨⟨⟨_, rfl, rfl, rfl, rfl⟩, ?_⟩, ?_, ?_, ?_, ?_⟩ <;> decide +kernel

/-- One section of each kind that is copied: TILE_DATA, CODE, MEM_DATA, MEM_ZERO and TASKS, whose task takes the whole operand cache's last
pages as its window. -/
theorem witness_ImageLoading_copy :
    (∀ x ∈ [(2, 0x0302, 8, 8, [1, 2, 3, 4, 5, 6, 7, 8]), (1, 0x3F00, 0x1FF000, 8, [1, 2, 3, 4, 5, 6, 7, 8]), (3, 0, 64, 8, [1, 2, 3, 4, 5, 6, 7, 8]),
        (4, 0, 64, 100, []), (6, 0, 0, 32, toBytes 2 63 ++ toBytes 2 1 ++ toBytes 4 0x1C0000 ++ toBytes 4 0x40000 ++ toBytes 4 0x3FFF8 ++ toBytes 8 1 ++ toBytes 8 2)],
     let s := staged 6 (image x.1 x.2.1 x.2.2.1 x.2.2.2.1 (toBytes 48 0) x.2.2.2.2)
     let y : Sec := ⟨x.1, 0, x.2.1, if x.1 = 4 then 0 else 160, x.2.2.2.1, x.2.2.1⟩
     ∃ w, s.load.run = some w ∧ w.next = 6 ∧
       stepOne w.size w.head (memBytes s (w.base + leAt w.head 16 8) (32 * leAt w.head 12 4)) = some [y] ∧ y.typ = x.1 ∧ (y.onTiles = true → ∀ t ∈ y.tileList, dieUp s (dieOf t) = true) ∧
       writesDown s { y with typ := 2, tiles := 0x4002 } [] = true ∧ (y.typ = 6 → let b := memBytes s (w.base + y.off) y.size
         (taskEntries b).length = 1 ∧ leAt b 0 2 = 63 ∧ dieUp s (dieOf 63) = true ∧ leAt b 4 4 % 4096 = 0 ∧ leAt b 4 4 < 0x200000 ∧ leAt b 8 4 % 4096 = 0 ∧
         leAt b 8 4 ≤ 0x40000 ∧ leAt b 0xC 4 < leAt b 8 4)) := by
  intro x h
  simp only [List.mem_cons, List.not_mem_nil, or_false] at h
  obtain rfl | rfl | rfl | rfl | rfl := h <;>
    refine ⟨_, rfl, rfl, ?_, rfl, ?_, ?_, ?_⟩ <;> decide +kernel

/-- The take-over, T_s with a task that starts and with one that does not, and the write of the settings. -/
theorem witness_ImageLoading_end :
    (let s := staged 7 (tileData 8 0)
     ∃ w, s.load.run = some w ∧ w.next = 7 ∧ s.fab.redraw = none ∧ leAt w.head 0x34 1 ≤ 2) ∧
    (∀ flag ∈ [0, 1],
     let b := toBytes 2 0 ++ toBytes 2 flag ++ toBytes 4 0x1C0000 ++ toBytes 4 0x40000 ++ toBytes 4 0x3FFF8 ++ toBytes 8 1 ++ toBytes 8 2
     let s := { up with load := { State.reset.load with run := some ⟨0, 168, 9, tileData 8 0, [b], true, 0⟩ } }
     (∃ w, s.load.run = some w ∧ w.next = 9 ∧ w.ts ≤ s.now ∧ w.tasks = [b] ∧ w.map = true) ∧ bit (leAt b 2 2) 0 = (flag == 1) ∧ leAt b 0 2 = 0 ∧
     dieUp s (dieOf 0) = true ∧ leAt b 4 4 + leAt b 0xC 4 < 0x200000) ∧
    (let s := { up with pm := { up.pm with splitDue := true } }
     fwRuns s = true ∧ s.pm.splitDue = true) := by
  refine ⟨⟨_, rfl, rfl, rfl, by decide +kernel⟩, ?_, by decide +kernel⟩
  intro flag h
  simp only [List.mem_cons, List.not_mem_nil, or_false] at h
  obtain rfl | rfl := h <;> refine ⟨⟨_, rfl, rfl, Nat.le_refl _, rfl, rfl⟩, ?_, ?_, ?_, ?_⟩ <;> decide +kernel

end Sys2Proof.Tests
end

