-- ==== Sys2Proof/Tests/Power.lean ====
section
/-!
SUPPORT. Witnesses of the hypotheses of the statements about power, clocks and temperature.
-/
namespace Sys2Proof.Tests
open Sys2Proof Sys2Proof.Machine

set_option Elab.async false

/-- A module 2 ms after the start of its timebase, with the loops of die C0. -/
def warm (x : DieLoop) (l : List (Fld × Nat)) : State :=
  { setFs up l with now := 2000000, pwr := { PwrSt.reset with dies := mset (fun _ => DieLoop.start) [] 0 x } }

/-- The DVFS decision lowers, raises, and does neither; and it is not due, or the die is not UP. -/
theorem witness_FrequencyAndTelemetry_dvfs :
    (∀ y ∈ ([(200001, 0, 0, 0, false), (0, 8 * 97, 0, 0, false), (0, 0, 0, 501, false), (189999, 8 * 95 - 1, 8 * 95 - 1, 249, true), (190000, 0, 0, 0, false), (200000, 0, 0, 500, false),
        (0, 0, 8 * 95, 0, false)] : List (Nat × Int × Int × Nat × Bool)),
     let x := { DieLoop.start with dvfsAt := some 1900000, raisedAt := some 1000000, sleepN := y.2.2.2.1, cycN := 1000, window := List.replicate 9 (0, 0) }
     let s := warm x [(fCLK_DIE_CHOICE 0, 5), (fCLK_DVFS_PIN_BUDGET 0, 200), (fCLK_FMAX_FCODE, 6)]
     let w := ((x.sleepN, x.cycN) :: x.window).take 10
     let sl := (w.map fun p => p.1).sum
     let all := (w.map fun p => p.2).sum
     dieLoop s 0 = x ∧ getF s (fCLK_DIE_CHOICE 0) = 5 ∧ 1000 * getF s (fCLK_DVFS_PIN_BUDGET 0) = 200000 ∧ dieUp s 0 = true ∧ since s x.dvfsAt 100000 = true ∧ since s x.raisedAt 1000000 = true ∧
     sl = y.2.2.2.1 ∧ all = 1000 ∧
     y.2.2.2.2 = (decide (w.length = 10) && decide (100 * y.1 < 95 * 200000) && decide (max y.2.1 y.2.2.1 < (8 * 95 : Int)) && decide (4 * sl < all) && decide (5 < getF s fCLK_FMAX_FCODE))) ∧
    since (warm { DieLoop.start with dvfsAt := some 1900001 } []) (some 1900001) 100000 = false ∧ dieUp up 1 = false ∧
    since (warm .start []) (some 1000001) 1000000 = false := by
  decide +kernel

/-- A rail that is at the setpoint of a higher FCODE and one that is below it; Sluice's eight cycles and fewer; a droop, one that goes on, one that ends; the removals of a cluster. -/
theorem witness_FrequencyAndTelemetry_removal :
    (∀ v ∈ [849999, 850000], let x := { DieLoop.start with uv := v }
     let s := warm x [(fCLK_DIE_FCODE 0, 5), (fCLK_DIE_CHOICE 0, 24), (fCLK_DIE_THERM 0, 30), (fCLK_DIE_CURR 0, 30)]
     dieLoop s 0 = x ∧ dieUp s 0 = true ∧ bitF s (fCLK_DVFS_PIN_EN 0) = false ∧
     min (if bitF s (fCLK_DVFS_PIN_EN 0) then getF s (fCLK_DVFS_PIN_FCODE 0) else 24) (min (getF s (fCLK_DIE_THERM 0)) (currCeil s)) = 24 ∧
     getF s (fCLK_DIE_FCODE 0) < 24 ∧ (v < 550000 + 12500 * 24 ↔ v = 849999)) ∧
    (let s := warm { DieLoop.start with currentAt := 1999995 } [(fCLK_DIE_FCODE 0, 24)]
     (s.now - 1999995) * tileMHz s 0 = 9000 ∧ (s.now - 1999996) * tileMHz s 0 = 7200) ∧
    (let y := { ClusterRt.start with droop := some 1999980 }
     let s := setCluster (warm { DieLoop.start with uv := 850000 } [(fCLK_DIE_FCODE 0, 24), (fCLK_DROOP_CTL_TH_MV, 40), (fPKG_CLUSTER_STATE 3, kRUN)]) 3 y
     clusterRt s 3 = y ∧ dieUp s (3 / 4) = true ∧ getF s fCLK_DROOP_CTL_TH_MV = 40 ∧ 1000 * (809 + 40) < 850000 ∧ 32000 ≤ (s.now - 1999980) * tileMHz s 0 ∧
     850000 + 10000 ≤ 1000 * (820 + 40) ∧ ¬ 850000 + 10000 ≤ 1000 * (819 + 40) ∧ clusterState s 3 = kRUN ∧ removalOf s 3 = (8, true)) := by
  decide +kernel

/-- A pin above a ceiling; values of FCODE and BUDGET at and beyond their limits; and a die whose tile 0 runs takes an FCODE. -/
theorem witness_FrequencyAndTelemetry_pin :
    (let s := warm .start [(fCLK_DIE_THERM 0, 29)]
     let v : BitVec 32 := 0x80E6001E
     s.pwr.eps = [] ∧ v.getLsbD 31 = true ∧ bits v.toNat 4 0 = 30 ∧ bits v.toNat 23 16 = 230 ∧ getF s (fCLK_DIE_THERM 0) < 30 ∧ s.pm.evq.length < 1024) ∧
    (let v : BitVec 32 := 0x0063001F
     bits v.toNat 4 0 = 31 ∧ bits v.toNat 23 16 = 99) ∧
    (let s := core 0 id
     dieUp s 0 = true ∧ 0 ∈ dieTiles 0 ∧ isRunning s 0 = true ∧ isRunning s 1 = false ∧ 64 ∉ dieTiles 0) := by
  decide +kernel

/-- Telemetry that is due and telemetry that is not; sensors of a die that is UP and of one that is not; and what firmware's tables need. -/
theorem witness_FrequencyAndTelemetry_copies :
    (let s := { up with pwr := { PwrSt.reset with teleAt := some 0 }, now := 100000 }
     s.pm.pins.aon = true ∧ since s s.pwr.teleAt 100000 = true ∧ dieUp s (7 / 8) = true ∧ dieUp s (8 / 8) = false ∧ dieUp s (2 - 2) = true ∧ dieUp s (1 - 1) = true ∧
     (List.replicate 45 (321 : Int))[44]? = some 321 ∧ (736 : Int) ∈ [(736 : Int)].take 8 ∧ since { s with now := 99999 } (some 0) 100000 = false) ∧
    dieUp up ((3 : Cluster).val / 4) = true ∧ bitF up fPM_STATUS_FW_RUNNING = true ∧ bitF State.reset fPM_STATUS_FW_RUNNING = false ∧
    dieState up 0 ≠ dLOST ∧ since up (dieLoop up 0).tableAt 1000000 = true ∧ since up up.pm.couplingAt 1000000000 = true := by
  decide +kernel

/-- The throttle lowers, is held back, and raises. -/
theorem witness_ThermalLoops_throttle :
    (let x := { DieLoop.start with lowerAt := some 1900000, raiseAt := some 1000000 }
     let s := warm x [(fCLK_DIE_FCODE 0, 1), (fCLK_DIE_THERM 0, 29)]
     dieLoop s 0 = x ∧ dieUp s 0 = true ∧ since s x.lowerAt 100000 = true ∧ since s x.raiseAt 1000000 = true ∧ getF s (fCLK_DIE_THERM 0) < 30) ∧
    (let x := { DieLoop.start with lowerAt := some 1900001 }
     since (warm x []) x.lowerAt 100000 = false) ∧
    ((8 * 100 : Int) ≤ 800 ∧ (8 * 97 : Int) < 777 ∧ (777 : Int) < 8 * 100) := by
  decide +kernel

/-- The rotation starts, stays, moves on from the last cluster to the first, and ends; the hold of R524 starts and ends. -/
theorem witness_ThermalLoops_rotation :
    (let s := setFs (warm .start []) [(fCLK_DIE_THERM 0, 0), (fPKG_CLUSTER_STATE 0, kRUN)]
     dieUp s 0 = true ∧ DieLoop.start.limit = false ∧ DieLoop.start.rot = none ∧ getF s (fCLK_DIE_THERM 0) = 0 ∧ (clusterRt s (4 * 0)).forced = false ∧
     clusterState s 0 = kRUN ∧ s.pm.evq.length < 1024) ∧
    (∀ t0 ∈ [1975000, 1975001],
     let x := { DieLoop.start with rot := some (3, t0) }
     let s := setCluster (setF (warm x []) (fPKG_CLUSTER_STATE 3) kGATE) 3 { ClusterRt.start with forced := true, woken := true }
     dieLoop s 0 = x ∧ dieUp s 0 = true ∧ (clusterRt s (4 * 0 + 3)).forced = true ∧ (clusterRt s 3).woken = true ∧ clusterState s 3 = kGATE ∧
     (s.now < t0 + 25000 ↔ t0 = 1975001)) ∧
    (let x := { DieLoop.start with limit := true }
     let s := setCluster (setF (warm x []) (fPKG_CLUSTER_STATE 3) kGATE) 3 { ClusterRt.start with forced := true, woken := true }
     dieLoop s 0 = x ∧ dieUp s 0 = true ∧ x.limit = true ∧ (clusterRt s 3).forced = true ∧ (clusterRt s 3).woken = true ∧ clusterState s 3 = kGATE) := by
  decide +kernel

/-- Trips of a sensor of a die and of the base die, of a regulator of a die and of another; the regulators that no trip is of. -/
theorem witness_ThermalLoops_trips :
    up.pm.pins.rails = true ∧ up.pm.pins.aon = true ∧ up.pm.evq.length < 1024 ∧ dieUp up (7 / 8) = true ∧ (7 : Fin 40).val < 32 ∧ 32 ≤ (39 : Fin 40).val ∧
    dieState up 0 ≠ dABSENT ∧ (2 : Fin 24).val = (0 : Die).val + 2 ∧ (18 : Fin 24).val < 22 ∧ 5 < (6 : Fin 24).val ∧ 22 ≤ (22 : Fin 24).val ∧
    (∀ st ∈ [dUP, dREADY], let x := { DieLoop.start with uv := 850000 }
     let s := warm x [(fPKG_DIE_STATUS_STATE 0, st)]
     dieLoop s 0 = x ∧ s.pm.pins.rails = true ∧ dieState s 0 = st ∧ (dieRt s 0).railOff = false ∧
     crosses s 2 0 764 = true ∧ crosses s 2 0 765 = false ∧ crosses s 2 1 935 = false ∧ crosses s 2 1 936 = true ∧ crosses s 2 2 3300 = false ∧ crosses s 2 2 3301 = true) ∧
    crosses up 18 0 809 = true := by
  decide +kernel

/-- A module with a state of the current limit. -/
def limited (f : PwrSt → PwrSt) : State :=
  { setFs up [(fCLK_DIE_FCODE 0, 20)] with now := 2000000, pwr := f PwrSt.reset }

/-- The bucket: due, with a removal, the fast path and the lowering on and off; and not due. -/
theorem witness_CurrentLimit_bucket :
    (let s := limited fun p => { p with bucketAt := some 1999000, removal := 8, quiet := 99, fast := true, fastQuiet := 99, lowering := true }
     s.pm.pins.aon = true ∧ since s s.pwr.bucketAt 1000 = true ∧ s.pwr.removal ≠ 0 ∧ s.pwr.fast = true ∧ s.pwr.lowering = true ∧ ¬ s.pwr.fastQuiet + 1 < 100) ∧
    (limited id).pwr.removal = 0 ∧ since (limited fun p => { p with bucketAt := some 1999001 }) (some 1999001) 1000 = false ∧ State.reset.pm.pins.aon = false ∧
    (let u := limited fun p => { p with power := [1448001] }
     meanAbove u 10 1448000 = true) ∧
    meanAbove (limited id) 10 1448000 = false := by
  decide +kernel

/-- The limit starts with an empty bucket and at 9.8 ms, lowers and does not, removes pulses, raises and does not; and the fast path. -/
theorem witness_CurrentLimit_steps :
    (let s := limited fun p => { p with bucket := 0, power := [1448001] }
     s.pwr.bucket = 0 ∧ s.pwr.lowering = false ∧ meanAbove s 10 1448000 = true ∧ dieUp s 0 = true ∧
     (List.range 4).foldl (fun a d => if dieUp s d then max a (getF s (fCLK_DIE_FCODE d)) else a) 0 = 20) ∧
    (let s := limited fun p => { p with run := 9800 }
     9800 ≤ s.pwr.run ∧ meanAbove s 10 1448000 = false ∧ s.pwr.removal = 0) ∧
    (let s := limited fun p => { p with lowering := true, curLowerAt := some 1950000, removal := 4 }
     s.pwr.lowering = true ∧ since s s.pwr.curLowerAt 50000 = true ∧ s.pwr.removal ≠ 0) ∧
    since (limited fun p => { p with curLowerAt := some 1950001 }) (some 1950001) 50000 = false ∧
    (let s := limited fun p => { p with run := 9950 }
     9950 ≤ s.pwr.run ∧ s.pwr.removal = 0) ∧
    (let s := setF (limited fun p => { p with bucket := 1000000000, curRaiseAt := some 1000000 }) (fCLK_DIE_CURR 0) 29
     currCeil s < 30 ∧ 1000000000 ≤ s.pwr.bucket ∧ meanAbove s 1000 1448000 = false ∧ since s s.pwr.curRaiseAt 1000000 = true) ∧
    30 ≤ currCeil (setF up (fCLK_DIE_CURR 0) 30) ∧ (limited id).pwr.bucket ≠ 0 ∧ (limited id).pwr.run < 9800 ∧
    (∀ q ∈ [1650000, 1650001], (limited fun p => { p with power := [q] }).pwr.power = q :: []) := by
  decide +kernel

/-! ### Start-up, power and resets -/

/-- A module with given pins, boot progress and registers. -/
def pins (p : Pins) (b : Boot) (l : List (Fld × Nat)) : State :=
  setFs { State.reset with pm := { State.reset.pm with pins := p, boot := b } } l

def aonPins : Pins := { Pins.reset with vin := true, pwrEn := true, aon := true }
def onPins : Pins := { aonPins with rails := true, good := true }

/-- A module in a stage of start-up, with running firmware. -/
def startUp (n : Nat) (b : Boot) (l : List (Fld × Nat)) : State :=
  pins onPins b ([(fPM_STATUS_FW_RUNNING, 1), (fPM_STATUS_STAGE, n)] ++ l)

/-- PWR_EN rises, during a power-down too; VAON comes up, over a log that holds a record and one that does not. -/
theorem witness_StartUpRows_power :
    (∀ down ∈ [true, false], let s := pins { Pins.reset with vin := true, down := down } .start []
     s.pm.pins.pwrEn = false ∧ s.pm.pins.vin = true ∧ s.pm.pins.down = down) ∧
    (∀ l ∈ [[], [(⟨7, ⟨0, 0x101, 0, true, false, 0, 0, 0, 0⟩⟩ : LogRec)]],
     let s := pins { Pins.reset with vin := true, pwrEn := true } .start []
     let s := { s with pm := { s.pm with nor := { s.pm.nor with log := l } } }
     s.pm.pins.pwrEn = true ∧ s.pm.pins.vin = true ∧ s.pm.pins.rst = false ∧ s.pm.pins.aon = false ∧ s.pm.pins.down = false ∧ s.tier.fops = []) ∧
    aonPins.aon = true := by
  decide +kernel

/-- Each row of start-up is at its stage. -/
theorem witness_StartUpRows_rows :
    startupAt (startUp 1 .start []) 1 = true ∧
    (∀ b ∈ [0, 1], let s := startUp 2 .start [(fPKG_AON_ON_LOCAL, b)]
     startupAt s 2 = true ∧ s.now + s.pm.boot.ramp < s.pm.boot.from_ + 130000000 ∧ bitF s fPKG_AON_ON_LOCAL = (b == 1) ∧
     { s with now := 130000000 }.pm.boot.from_ + 130000000 ≤ { s with now := 130000000 }.now + s.pm.boot.ramp ∧ onPins.rails = true ∧ onPins.perst = false ∧ (1 : BitVec 4).getLsbD 0 = true ∧
     (1 : BitVec 4).getLsbD 1 = false) ∧
    (startupAt (startUp 4 .start []) 4 = true ∧ Boot.start.trained = false ∧ Boot.start.ftl = false ∧ Boot.start.lpddr = false) ∧
    (∀ n ∈ [4, 5], let b := { Boot.start with trained := true }
     let s := startUp n b []
     startupAt s n = true ∧ s.pm.boot = b ∧ b.lpddr = false ∧ s.fab.opticsOn = none ∧ { s with fab := { s.fab with opticsOn := some 0 } }.fab.opticsOn ≠ none) := by
  decide +kernel

/-- A source without light at start-up, with a spare to take its place, and with the optics ready already. -/
theorem witness_StartUpRows_optics :
    (let s := startUp 4 .start []
     let s := { s with fab := { s.fab with opticsOn := some 0 } }
     startupAt s 4 = true ∧ s.fab.opticsOn ≠ none ∧ s.fab.ready = false ∧ (∀ k, k < 20 → (laserSrc s k).stage ≠ 2 ∧ ((laserSrc s k).stage = 4 → engineOf s k = none)) ∧
     (∀ st ∈ [2, 4], let s := setLaser s 16 ⟨st, none, true, none⟩
      (∀ j, j < 20 → ((laserSrc s j).stage = 2 ∨ (laserSrc s j).stage = 4 ∧ engineOf s j ≠ none ↔ j = 16)) ∧ s.fab.swaps = [] ∧ engineOf s 16 = some 16 ∧ nextSpare s = some 17) ∧
     { s.fab with ready := true }.ready = true) := by
  decide +kernel

/-- Steppings that fit, with one die that is held, and steppings that do not. -/
theorem witness_StartUpRows_steppings :
    ∀ x ∈ [(0x10, 0x11, false), (0x11, 0x20, false), (0x10, 0x20, true), (0x12, 0x11, true)],
    let b := { Boot.start with trained := true, stacked := true }
    let s := startUp 4 b [(fPKG_BASE_ID_STEPPING, x.1), (fPKG_DIE_STATUS_STATE 0, dREADY), (fPKG_DIE_STATUS_STATE 1, dREADY), (fPKG_DIE_STATUS_STATE 2, dFAILED),
      (fPKG_DIE_STATUS_STEPPING 0, x.2.1), (fPKG_DIE_STATUS_STEPPING 1, x.2.1), (fPKG_DIE_CTL_HOLD 1, 1)]
    startupAt s 4 = true ∧ s.pm.boot.stacked = true ∧ (∀ d, d < 4 → dieState s d = dABSENT ∨ dieState s d = dREADY ∨ dieState s d = dFAILED) ∧
    ((List.range 4).filter fun d => dieState s d == dREADY).map (fun d => getF s (fPKG_DIE_STATUS_STEPPING d)) = [x.2.1, x.2.1] ∧
    stepsBad (getF s fPKG_BASE_ID_STEPPING) [x.2.1, x.2.1] = x.2.2 ∧ bitF s (fPKG_DIE_CTL_HOLD 1) = true := by
  decide +kernel

/-- PWR_EN falls with and without VAON; the rails and VAON go off, with and without a rise that waits; the input leaves its range. -/
theorem witness_PowerAndResets_down :
    (onPins.pwrEn = true ∧ onPins.aon = true ∧ (clusterRt up 3).forced = false ∧ dieUp up (3 / 4) = true ∧ clusterState (setF up (fPKG_CLUSTER_STATE 3) kRUN) 3 = kRUN) ∧
    (let p := { Pins.reset with pwrEn := true }
     p.pwrEn = true ∧ p.aon = false) ∧
    (let p := { onPins with down := true, good := false }
     let s := pins p .start [(fPKG_DIE_STATUS_STATE 0, dUP)]
     s.pm.pins = p ∧ p.down = true ∧ p.rails = true ∧ dieState s 0 ≠ dABSENT ∧ s.pm.evq.length < 1024) ∧
    (∀ a ∈ [none, some (5, true)], let p := { aonPins with down := true, again := a }
     p.down = true ∧ p.rails = false ∧ p.again = a) := by
  decide +kernel

/-- MOD_RST_N with VAON and without, its release with VAON, without it, and without PWR_EN; TEST_EN, the link, and the boundary scan in both shift states. -/
theorem witness_PowerAndResets_resets :
    (onPins.rst = false ∧ onPins.down = false ∧ onPins.aon = true ∧ fCLK_FMAX_FCODE.lo < 64 ∧ keptReg fCLK_FMAX_FCODE.off = false ∧ Pins.reset.aon = false) ∧
    (let p := { aonPins with rst := true }
     p.rst = true ∧ p.aon = true ∧ p.pwrEn = true ∧ { p with aon := false }.pwrEn = true ∧ { p with aon := false, pwrEn := false }.rst = true) ∧
    (stage up = 6 ∧ up.pm.pins.scan = false ∧ baseUp up = true ∧ bitF up fPKG_AON_ON_LOCAL = false) ∧
    { up.host with link := true }.link = true ∧
    (∀ tap ∈ [Tap.shiftDr, .shiftIr, .captureDr, .captureIr, .exit1Ir, .exit1Dr], let p := { onPins with scan := true, jtag := { Jtag.reset with tap := tap, ir := [false] } }
     p.scan = true ∧ p.rails = true ∧ p.jtag.tap = tap ∧ p.jtag.bypass = false ∧ Jtag.reset.bypass = true) ∧
    (∀ st ∈ [4, 8], let s := setF { up with pm := { up.pm with boot := { up.pm.boot with held := 4 } } } fPM_STATUS_STAGE st
     linkMay s = true) := by
  decide +kernel

end Sys2Proof.Tests
end

