-- ==== Sys2Proof/WellFormed.lean ====
section
/-!
DEFINITION. What a well-formed command is: the bounds on operands that their types do not give. The machine gives every command a
meaning all the same.
-/
namespace Sys2Proof

/-- The symbols of an error pattern: no symbol twice, no error of 0 (R290). -/
def errOk (l : List (Fin 67 × BitVec 8)) : Bool := (l.map (·.1)).eraseDups.length == l.length && l.all fun p => p.2 != 0

/-- A range of n bytes inside one unit of `u` bytes. -/
def inUnit (u a n : Nat) : Bool := decide (1 ≤ n) && decide (a % u + n ≤ u)

/-- Is the command well formed? -/
def wellFormed : Instr → Bool
  -- Registers: the halves of a 64-bit register (R12). An access of another width or alignment has the outcome of R11.
  | .csrLowHalfRead off => off.toNat % 8 == 0
  | .csrLowHalfWrite off _ => off.toNat % 8 == 0
  | .csrHighHalfWrite off _ => off.toNat % 8 == 4
  -- Memory: an address of 52 bits, a range inside one access unit of 64 bytes or one Eddy line of 256 bytes.
  | .memRead a err => decide (a < 2 ^ 52) && errOk err.unit
  | .memWrite a b _ => decide (a < 2 ^ 52) && inUnit 64 a b.length
  | .correctiveWrite a => decide (a < 2 ^ 52)
  | .eddyAccess a n _ w => decide (a < 2 ^ 52) && inUnit 256 a n && (match w with | some b => b.length == n | none => true)
  | .dramScrub a err _ => decide (a < 2 ^ 52) && errOk err
  -- Links: a codeword of 1,360 levels (R437, R438), a flit of 288 bytes (R486).
  | .codewordReceive _ _ cw => cw.length == 1360
  | .weirFlit _ _ _ flit err => flit.length == 288 && err.all fun p => decide (p.1 < 288)
  | .rateWindow dest => decide (dest < 65536)
  -- Engines and sensors: one lock error for each lane, one sample for each sensor.
  | .feedforwardUpdate _ _ lock => lock.length == 32
  | .telemetryCopy temps volts currs engines stackTemps =>
    temps.length == 48 && volts.length == 24 && currs.length == 12 && engines.length == 17 && stackTemps.length == 8
  -- Shadow items: 64 KiB, a step record 32 KiB.
  | .shadowBlockAck (.arrived (.record _) data _) => data.length == 32768
  | .shadowBlockAck (.arrived _ data _) => data.length == 65536
  -- The host and the log: a payload of at most 512 bytes, at least one byte, at least one record.
  | .hostStagingWrite off data => decide (1 ≤ data.length) && decide (data.length ≤ 512) && decide (off.toNat + data.length ≤ 2 ^ 36)
  | .hostStagingRead off n => decide (1 ≤ n.val) && decide (off.toNat + n.val ≤ 2 ^ 36)
  | .logPersist n => decide (1 ≤ n)
  -- Start-up: VAON is in regulation within 5 ms (R537).
  | .vaonReady ramp => decide (ramp ≤ 5000000)
  | _ => true

end Sys2Proof
end

