-- ==== Sys2Proof/Tests/Slice0.lean ====
section
/-!
SUPPORT. Tests of WellFormed: an ill-formed command for each check, which the check refuses, and a well-formed one beside it.
-/
namespace Sys2Proof.Tests
open Sys2Proof

set_option Elab.async false

theorem test_wellFormed_csrLowHalfRead : wellFormed (.csrLowHalfRead 4) = false ∧ wellFormed (.csrLowHalfRead 8) = true := by decide +kernel

theorem test_wellFormed_csrLowHalfWrite : wellFormed (.csrLowHalfWrite 12 0) = false ∧ wellFormed (.csrLowHalfWrite 16 0) = true := by
  decide +kernel

theorem test_wellFormed_csrHighHalfWrite : wellFormed (.csrHighHalfWrite 8 0) = false ∧ wellFormed (.csrHighHalfWrite 12 0) = true := by
  decide +kernel

/-- An address of 53 bits, and an error pattern that names a symbol twice. -/
theorem test_wellFormed_memRead : wellFormed (.memRead (2 ^ 52) ⟨[], 0⟩) = false ∧ wellFormed (.memRead 0 ⟨[(1, 2), (1, 3)], 0⟩) = false ∧
    wellFormed (.memRead 0 ⟨[(1, 0)], 0⟩) = false ∧ wellFormed (.memRead 0 ⟨[(1, 2)], 0⟩) = true := by decide +kernel

/-- A write that crosses the end of its access unit. -/
theorem test_wellFormed_memWrite : wellFormed (.memWrite 63 [1, 2] ⟨false, 0⟩) = false ∧ wellFormed (.memWrite 0 [] ⟨false, 0⟩) = false ∧
    wellFormed (.memWrite 63 [1] ⟨false, 0⟩) = true := by decide +kernel

theorem test_wellFormed_correctiveWrite : wellFormed (.correctiveWrite (2 ^ 52)) = false ∧ wellFormed (.correctiveWrite 64) = true := by
  decide +kernel

/-- An access that crosses the end of its line, and a write whose bytes are not as many as it says. -/
theorem test_wellFormed_eddyAccess : wellFormed (.eddyAccess 255 2 0 none) = false ∧ wellFormed (.eddyAccess 0 2 0 (some [1])) = false ∧
    wellFormed (.eddyAccess 0 1 0 (some [1])) = true := by decide +kernel

theorem test_wellFormed_dramScrub : wellFormed (.dramScrub 0 [(3, 1), (3, 1)] false) = false ∧
    wellFormed (.dramScrub (2 ^ 52) [] false) = false ∧ wellFormed (.dramScrub 0 [(3, 1)] false) = true := by decide +kernel

theorem test_wellFormed_codewordReceive : wellFormed (.codewordReceive 0 0 [0]) = false ∧
    wellFormed (.codewordReceive 0 0 (List.replicate 1360 0)) = true := by decide +kernel

/-- A flit of one byte, and an error in a byte that no flit has. -/
theorem test_wellFormed_weirFlit : wellFormed (.weirFlit 0 0 false [0] []) = false ∧
    wellFormed (.weirFlit 0 0 false (List.replicate 288 0) [(288, 1)]) = false ∧
    wellFormed (.weirFlit 0 0 false (List.replicate 288 0) [(287, 1)]) = true := by decide +kernel

theorem test_wellFormed_rateWindow : wellFormed (.rateWindow 65536) = false ∧ wellFormed (.rateWindow 65535) = true := by decide +kernel

theorem test_wellFormed_feedforwardUpdate : wellFormed (.feedforwardUpdate 0 0 []) = false ∧
    wellFormed (.feedforwardUpdate 0 0 (List.replicate 32 0)) = true := by decide +kernel

theorem test_wellFormed_telemetryCopy : wellFormed (.telemetryCopy [] [] [] [] []) = false ∧ wellFormed (.telemetryCopy
    (List.replicate 48 0) (List.replicate 24 0) (List.replicate 12 0) (List.replicate 17 0) (List.replicate 8 0)) = true := by decide +kernel

/-- A block of one byte, and a step record of one byte. -/
theorem test_wellFormed_shadowBlockAck : wellFormed (.shadowBlockAck (.arrived (.record 0) [0] [])) = false ∧
    wellFormed (.shadowBlockAck (.arrived (.image 0) [0] [])) = false := by decide +kernel

theorem test_wellFormed_hostStagingWrite : wellFormed (.hostStagingWrite 0 []) = false ∧
    wellFormed (.hostStagingWrite (.ofNat 36 (2 ^ 36 - 1)) [1, 2]) = false ∧ wellFormed (.hostStagingWrite 0 [1]) = true := by decide +kernel

theorem test_wellFormed_hostStagingRead : wellFormed (.hostStagingRead 0 0) = false ∧
    wellFormed (.hostStagingRead (.ofNat 36 (2 ^ 36 - 1)) 2) = false ∧ wellFormed (.hostStagingRead 0 1) = true := by decide +kernel

theorem test_wellFormed_logPersist : wellFormed (.logPersist 0) = false ∧ wellFormed (.logPersist 1) = true := by decide +kernel

theorem test_wellFormed_vaonReady : wellFormed (.vaonReady 5000001) = false ∧ wellFormed (.vaonReady 5000000) = true := by decide +kernel

end Sys2Proof.Tests
end

