-- ==== Sys2Proof/Tests/Stream.lean ====
section
/-!
SUPPORT. Witnesses of the hypotheses of the statements about the stream engine and the deferral queue.
-/
namespace Sys2Proof.Tests
open Sys2Proof Sys2Proof.Machine

set_option Elab.async false

/-- A word of format ST (R243) with s1 to s4 as its operands. -/
def st (maj min ee opt fa fb : Nat) : Word :=
  BitVec.ofNat 64 (maj * 2 ^ 58 + min * 2 ^ 52 + 1 * 2 ^ 46 + 2 * 2 ^ 40 + 3 * 2 ^ 34 + 4 * 2 ^ 28 + ee * 2 ^ 24 + ee * 5 * 2 ^ 20 + opt * 2 ^ 19 +
    fa * 2 ^ 14 + fb * 2 ^ 10)

/-- A stream instruction with the values of its operands; bit 63 of an endpoint names the operand cache (R244). -/
def stEntry (maj min ee opt fa fb x y z w : Nat) : QEntry :=
  entry (st maj min ee opt fa fb) [(1, .ofNat 64 x), (2, .ofNat 64 y), (3, .ofNat 64 z), (4, .ofNat 64 w)]

def ocEnd (off : Nat) : Nat := 2 ^ 63 + off

/-- The operands with which each transfer starts, and those of a bad one. -/
def goodOps (min : Nat) : QEntry :=
  match min with
  | 0 => stEntry 0x20 0 1 0 0 0 0x10000000000 (ocEnd 0x1FFFC0) 1 100
  | 1 => stEntry 0x20 1 0 1 2 5 0 (ocEnd 0x10000) 1 (2 ^ 52 + 0x8000)
  | 2 => stEntry 0x20 2 1 0 0 0 3 0x40000 2 100
  | 3 => stEntry 0x20 3 0 0 0 0 0x1000 (ocEnd 0) 1 0x0102
  | 4 => stEntry 0x20 4 0 0 0 0 (ocEnd 0) 0x1000 1 0x0102
  | 5 => stEntry 0x20 5 0 0 0 0 9 8 0 0x8000
  | 6 => stEntry 0x20 6 0 0 2 0 0 (ocEnd 0) 1 3
  | _ => stEntry 0x20 7 0 0 0 0 0 (ocEnd 0x10000) 2 0

/-- Each transfer of MAJ 0x20 starts; and each stops on an endpoint with a bit set that R244 leaves 0. -/
theorem witness_TransferStarts :
    (∀ min ∈ List.range 8,
     let s := engine .stream (goodOps min) id
     Starts s 0 .stream 0x20 min (goodOps min) s ∧ strFault s (s.tile 0) (goodOps min) = none) ∧
    (∀ min ∈ List.range 8,
     let h := stEntry 0x20 min 0 0 0 0 (2 ^ 62) (2 ^ 62) 1 0
     let s := engine .stream h id
     Starts s 0 .stream 0x20 min h s ∧ (strFault s (s.tile 0) h).map (·.1) = some cBAD_OPERAND) := by
  unfold Starts; decide +kernel

/-- Tile 0 runs one transfer. -/
def strRun (r : StrRun) : State :=
  up.setTile 0 { Tile.reset with phase := .running, str := { StrUnit.reset with run := [r], nextNo := 1 } }

/-- A transfer of instruction h, started at 0, with a deadline of 36, so that 100 is 64 ns past it. -/
def sent (h : QEntry) : StrRun := ⟨0, h, 0, some 36, RRead.start false, [], none, none⟩

/-- An SMOVE of one segment that starts after instant d is not stamped by it. -/
theorem unstamped_after (x : Tile) (r : StrRun) (d a n : Nat) (hs : (devSources r).flatMap (fun p => split256 (p.2 / 256 + 2) p.1 p.2) = [(a, n)])
    (hp : pfServe x none a = none) (hd : d < r.start) : unstamped x 0 r d = some a := by
  have h : d < r.start + Config.portDelay 0 r.no a := Nat.lt_of_lt_of_le hd (Nat.le_add_right _ _)
  simp [unstamped, hs, hp, h]

/-- SMOVE from LPDDR and SFLASH 64 ns after their deadline, and one that has failed, with an error token and without. -/
theorem witness_TransferFailures :
    (∀ ee ∈ [0, 1], ∀ min ∈ [0, 2],
     let h := stEntry 0x20 min ee 0 0 0 0x10000000000 (ocEnd 0) 1 100
     let r := { sent h with start := 37, flash := if min = 2 then [3] else [] }
     let s := { strRun r with now := 100 }
     isLive s 0 = true ∧ (s.tile 0).str.run = [r] ∧ r.deadline = some 36 ∧ 36 + 64 ≤ s.now ∧ r.fail = none ∧ wsEE r.e.word = (ee == 1) ∧
     (wMin r.e.word = 0 ∧ (devSources r).flatMap (fun p => split256 (p.2 / 256 + 2) p.1 p.2) = [(0x10000000000, 64)] ∧
        pfServe (s.tile 0) none 0x10000000000 = none ∧ 36 < r.start ∨
      wMin r.e.word = 2 ∧ (lateTile r).isSome = true)) ∧
    (∀ ee ∈ [0, 1],
     let r := { sent (stEntry 0x20 3 ee 0 0 0 0 0 1 0) with fail := some (cLOWER_LATE, 0x1000) }
     let s := strRun r
     isLive s 0 = true ∧ (s.tile 0).str.run = [r] ∧ r.fail = some (cLOWER_LATE, 0x1000) ∧ cLOWER_LATE < 256 ∧ wsEE r.e.word = (ee == 1)) := by
  decide +kernel

/-- A product with SPR = 1 on a1 that waits for its SVERIFY: K = 32, the second quarter of its slabs skipped. -/
def spr (acc : Nat) : SprMM := ⟨acc, mmOp (mmEntry acc 0 0 1 5 5 false), [true], some 0, 0⟩

/-- SVERIFY with a record of zeros, and with one that is not zero; and the recompute of a chain with the snapshot or after a clear. -/
theorem witness_SkipVerification :
    (∀ acc ∈ [0, 1], ∀ bad ∈ [true, false],
     let h := stEntry 0x20 8 0 acc 0 0 0x2000 0 0 0
     let s := engine .stream h fun x => { x with mat := { x.mat with unpaired := [spr acc] }, oc := if bad then putBytes [] 0x2000 [1] else [] }
     let q := spr acc
     Starts s 0 .stream 0x20 8 h s ∧ acc = (wsOPT h.word).toNat ∧ bits (stX h) 63 21 = 0 ∧
     firstIdx (fun u : SprMM => u.acc == acc) (s.tile 0).mat.unpaired = some 0 ∧ q.place = some 0 ∧ h.held = none ∧
     bits (stX h) 20 0 + q.op.m / 32 * (q.op.kLen / 32) * recSquare q.op ≤ ocSize ∧ inCode (s.tile 0) q.op.zOff ((slabCount q.op + 7) / 8) = false ∧
     slabCount q.op = 1 ∧ (slabBytes (s.tile 0) q.op (bits (stX h) 20 0) 0).all (· == 0) = !bad ∧ (s.tile 0).mat.recompute = [] ∧
     verifyHeld (s.tile 0) (bits (stX h) 20 0, q.op.m / 32 * (q.op.kLen / 32) * recSquare q.op) (q.op.zOff, (slabCount q.op + 7) / 8) = false) ∧
    (∀ ovw ∈ [0, 1],
     let c : ChainMM := ⟨mmOp (mmEntry 0 ovw 0 1 5 5 false), [true], false, 8⟩
     let s := matRun (.save 1 0) { Acc.zero with chain := [c] }
     let s := s.onTile 0 fun x => { x with mat := { x.mat with run := [], recompute := [0, 1], snap := some (0, .zero) } }
     isLive s 0 = true ∧ clkRuns s 0 = true ∧ (s.tile 0).mat.run = [] ∧ (s.tile 0).mat.recompute = [0, 1] ∧ ((s.tile 0).acc 0).chain = [c] ∧ c.op.acc = 0) := by
  unfold Starts; decide +kernel

/-- The oldest transfer of each kind has all it needs. -/
theorem witness_TransferResults :
    (∀ min ∈ List.range 8,
     let r := { sent (goodOps min) with deadline := if min = 2 then some 36 else none, rr := { RRead.start false with next := 1 } }
     let s := strRun r
     isLive s 0 = true ∧ (s.tile 0).str.run = [r] ∧ r.fail = none ∧ wMin r.e.word = min ∧ wMaj r.e.word = 0x20 ∧ (s.tile 0).str.pf = [] ∧
     r.tardy = none ∧ s.mem.quadChange = [] ∧ s.now ≤ 36 ∧ (min = 3 ∨ min = 4 → (runSegs r).length ≤ r.rr.next) ∧ r.rr.pend = [] ∧ (s.tile 0).ops = [] ∧
     0 < (shapeOf 1).len ∧ (shapeOf 1).len ≤ (shapeOf 1).stride) ∧
    (∀ r a n, LinesFine (strRun r) a n) ∧
    (let r := { sent (stEntry 0x20 3 0 1 0 0 0x1000 (ocEnd 0) 1 0x0102) with rr := { RRead.start true with step := 3 } }
     wsOPT r.e.word = true ∧ r.rr.step = 3) ∧
    (let r := { sent (stEntry 0x20 5 0 0 0 0 9 8 0 0x0102) with rr := { RRead.start false with next := 1 } }
     bit (stW r.e) 15 = false ∧ wMaj (stEntry 0x21 0 0 0 0 0 0 0 0 0).word = 0x21) := by
  refine ⟨?_, fun r a n => linesFine_up _ rfl a n, ?_, ?_⟩ <;> decide +kernel

/-- SCVT of 32 FP16 numbers into MX FP8 with a history, and the block that comes of zeros: as many bytes as R264 says. -/
theorem witness_TransferResults_scvt :
    (let h := shapeOf 1
     let n := srcElems 2 h.len
     let es := (List.range (n / 32)).map fun k => emitBlk 5 (blockBfx 2 (slice (List.replicate 64 0) (k * runBytes 2) (runBytes 2)) []).1
       (some ([0], 1))
     n % 32 = 0 ∧ (es.flatMap Emit.run).length = n * fmtBits 5 / 8 ∧ (es.flatMap Emit.scales).length = scaleLen 5 n ∧
     (es.flatMap Emit.hist).length = scaleLen 5 n) := by
  decide +kernel

/-- PFSET of a stream of four entries of a round of two rows, once persistent; PFSTOP; a fill of an entry, also of a stale one; the shares of
TILE_STR_SPLIT at their bounds, and two that are rejected. -/
theorem witness_PrefetchStreams :
    (∀ per ∈ [0, 1],
     let h := stEntry 0x21 0 0 0 0 0 0x1000 (32 + 64 * per + 2 ^ 8 * 2) (1 + 2 ^ 16 * 2 + 2 ^ 32 * 7) 7
     let s := engine .stream h id
     Starts s 0 .stream 0x21 0 h s ∧ pfsetFault s (s.tile 0) h = none ∧ StrQuiet s 0 ∧ 7 = bits (stW h) 2 0 ∧ (pfsetStream h 0).remote = false) ∧
    (let h := stEntry 0x21 1 0 0 0 0 0 0 0 7
     let s := engine .stream h id
     Starts s 0 .stream 0x21 1 h s ∧ bits (stW h) 63 3 = 0 ∧ (s.tile 0).str.run = []) ∧
    (∀ stale ∈ [true, false],
     let e : PfEntry := ⟨0, 0x1000, true, stale, [], RRead.start false, 0, []⟩
     let s := core 0 fun x => setPf x 7 { PfStream.off with active := true, depth := 1, entries := [e] }
     (pfOf (s.tile 0) 7).entries[0]? = some e ∧ e.filling = true ∧ isRunning s 0 = true ∧ (pfOf (s.tile 0) 7).remote = false ∧
     (∀ d ∈ (pfOf (s.tile 0) 7).entries, d.no = e.no → d = e) ∧ s.fab.wait = [] ∧ mappedRange e.addr 4096 = true) ∧
    (dieUp up 0 = true ∧ dieUp State.reset 0 = false ∧ tileState up 0 ≠ .running ∧ tileState (core 0 id) 0 = .running ∧
     ∀ r ∈ [(18, 1, 1), (1, 18, 1), (1, 1, 18)], bits (BitVec.ofNat 32 (r.1 + 2 ^ 5 * r.2.1 + 2 ^ 10 * r.2.2)).toNat 4 0 = r.1 ∧
       r.1 + r.2.1 + r.2.2 = 20) := by
  unfold Starts StrQuiet; decide +kernel

/-! ### The deferral queue -/

/-- Tile 0 with a fill unit, with an item at the head of its queue. -/
def deferred (i : Nat) (f : FillUnit → FillUnit) (g : Tile → Tile) : State :=
  core 0 fun x => g { x with fill := f { x.fill with defer := [i] } }

/-- A PRODUCT (R215) of 32 by 32 with K = 64 in MX FP8, with an image at 0x100000. -/
def product (ovw fb : Nat) : Nat :=
  ovw * 2 ^ 8 + 5 * 2 ^ 16 + fb * 2 ^ 20 + 64 * 2 ^ 32 + 2 ^ 64 * 0x1000 + 2 ^ 128 * 0x2000 + 2 ^ 192 * 0x100000

/-- BIND, DRAIN and RELEASE, with a bound tile and without, with a resident block and without. -/
theorem witness_DeferralItems_short :
    (∀ a ∈ [0, 1],
     let i := 1 + 7 * 2 ^ 4 + a * 2 ^ 8 + 2 ^ 12
     let s := deferred i id id
     deferHead s 0 = some i ∧ itemType i = 1 ∧ a = (itemOvw i).toNat ∧ shortItemBad i true = false ∧ (s.tile 0).fill.bound = none ∧
     ((s.tile 0).acc a).unverified = false ∧ (s.tile 0).mat.run = [] ∧ (deferred i (fun f => { f with bound := some a }) id).tile 0 ≠ s.tile 0 ∧
     shortItemBad (i + 2 ^ 20) true = true) ∧
    (∀ k ∈ [2, 3], ∀ b ∈ [none, some 1], ∀ r ∈ [none, some (0x100000, 3)],
     let s := deferred k (fun f => { f with bound := b, res := r }) id
     deferHead s 0 = some k ∧ itemType k = k ∧ shortItemBad k false = false ∧ (s.tile 0).fill.bound = b ∧ (s.tile 0).fill.res = r) := by
  decide +kernel

/-- PRODUCT on the block that is held, on another and on none, with OVW and without; and a bad one. -/
theorem witness_DeferralItems_product :
    (∀ ovw ∈ [0, 1], ∀ b ∈ [none, some 1], ∀ r ∈ [none, some (0x100000, 0), some (0x200000, 1)],
     let i := product ovw 6
     let s := deferred i (fun f => { f with bound := b, res := r, level := 1 }) id
     let s := { s with load := { s.load with feat := some 0xFFFF } }
     deferHead s 0 = some i ∧ itemType i = 0 ∧ (s.tile 0).fill.slice = none ∧ productFault s i = none ∧ optHeld (s.tile 0) = false ∧ (s.tile 0).fill.bound = b ∧
     (s.tile 0).fill.res = r ∧ (s.tile 0).fill.level = 1 ∧ phaseHolds s = false ∧ itemImg i = 0x100000 ∧ itemOvw i = (ovw == 1) ∧
     queueStuck s 0 .matrix = true ∧ ocUe (s.tile 0) (maskRanges i) = none ∧ (s.tile 0).regBad = []) ∧
    productFault (deferred (product 0 15) id id) (product 0 15) = some cBAD_FORMAT := by
  decide +kernel

/-- Write-backs for each purpose, and a load. -/
theorem witness_DeferralTransfers :
    (∀ n ∈ [WbNext.toLoad, .toClear, .drain, .release, .idle],
     let s := deferred (product 0 6) (fun f => { f with bound := some 1, res := some (0x100000, 0), move := some (.writeBack n) }) id
     isLive s 0 = true ∧ (s.tile 0).fill.move = some (.writeBack n) ∧ (s.tile 0).fill.bound = some 1 ∧ (s.tile 0).fill.res = some (0x100000, 0) ∧
     (s.tile 0).fill.defer.headD 0 = product 0 6) ∧
    (let s := deferred (product 0 6) (fun f => { f with bound := some 1, move := some .load }) id
     isLive s 0 = true ∧ (s.tile 0).fill.move = some .load ∧ (s.tile 0).fill.bound = some 1 ∧ itemImg (product 0 6) = 0x100000) ∧
    (∀ f, LinesFine (deferred (product 0 6) f id) 0x100000 imageBytes ∧
      imageBad (memBytes (deferred (product 0 6) f id) 0x100000 imageBytes) = false) := by
  refine ⟨by decide +kernel, by decide +kernel, fun f => ⟨linesFine_up _ rfl _ _, ?_⟩⟩
  simp only [imageBad, leAt, imageBytes, slice_empty (s := deferred (product 0 6) f id) rfl 0x100000 262208 _ _ (by decide : 0 + 8 ≤ 262208),
    slice_empty (s := deferred (product 0 6) f id) rfl 0x100000 262208 _ _ (by decide : 8 + 4 ≤ 262208),
    slice_empty (s := deferred (product 0 6) f id) rfl 0x100000 262208 _ _ (by decide : 12 + 52 ≤ 262208)]
  decide +kernel

/-- The fill levels after idle cycles: work of the deferral queue, an optimizer item, neither, and the write-back for an optimizer item; and the
yield when the queue has work that can start. -/
theorem witness_IdleFill :
    (let s := { deferred (product 0 6) (fun f => { f with bound := some 0 }) id with now := 1000000 }
     isLive s 0 = true ∧ clkRuns s 0 = true ∧ (s.tile 0).fill.level = 0 ∧ matIdle s 0 = true ∧ phaseHolds s = false ∧ (s.tile 0).fill.defer ≠ [] ∧
     (s.tile 0).fill.bound = some 0) ∧
    (let s := { deferred 0 (fun f => { f with defer := [], opt := [0], optHead := some ⟨0, none⟩ }) id with now := 1000000 }
     vecIdle s 0 = true ∧ (s.tile 0).fill.defer = [] ∧ (s.tile 0).vec.win = none ∧ phaseHolds s = false ∧ (s.tile 0).fill.opt = [0] ∧
     optHeld (s.tile 0) = false ∧ (s.tile 0).fill.optHead ≠ none) ∧
    (let s := { deferred 0 (fun f => { f with defer := [] }) id with now := 1000000 }
     matIdle s 0 = true ∧ vecIdle s 0 = true ∧ canFillDefer s 0 = false ∧ canFillOpt s 0 = false) ∧
    (let s := { deferred 0 (fun f => { f with defer := [], opt := [0], bound := some 0, res := some (0, optGroup 0) }) id with now := 1000000 }
     matIdle s 0 = true ∧ optHeld (s.tile 0) = true ∧ (s.tile 0).fill.slice = none ∧ (s.tile 0).fill.move = none ∧ phaseHolds s = false ∧
     (s.tile 0).fill.bound = some 0) ∧
    (∀ l ∈ [1, 2, 3], ∀ e ∈ [Engine.matrix, .vector],
     let h := if e = .matrix then mmEntry 0 0 0 0 2 2 false else entry (vr 0x18 0x14 31 0 0) []
     let s := (engine e h fun x => { x with fill := { x.fill with level := l } })
     (fillHolds (s.tile 0) e = true ↔ l = 3 ∨ l = 1 ∧ e = .matrix ∨ l = 2 ∧ e = .vector) ∧ queueStuck s 0 e = false) := by
  decide +kernel

/-- The first slice of a product of 128 by 128 with one quadrant frozen, with a main-program queue that is empty. -/
theorem witness_DeferralSlices :
    (let i := product 1 6 + 15 * 2 ^ 24 + 0x0033 * 2 ^ 48
     let s := deferred i (fun f => { f with bound := some 1, res := some (0x100000, 0), level := 1, slice := some 0, quads := [(0, 64), (64, 0), (64, 64)] }) id
     let x := s.tile 0
     let op := itemOp i 1
     let qs := x.fill.quads
     deferHead s 0 = some i ∧ x.fill.slice = some 0 ∧ x.fill.bound = some 1 ∧ x.fill.level = 1 ∧ phaseHolds s = false ∧ queueStuck s 0 .matrix = true ∧
     ocUe x (sliceRanges i op 0) = none ∧ quadrants x i op = qs ∧ qs.length = 3 ∧ 0 + 1 < qs.length * (op.kLen / 32) ∧ (0 + 1) % qs.length ≠ 0 ∧ (x.acc 1).l2 < 2 ^ 20 ∧
     (x.acc 1).l1 + (stepsOf op 0).length < 2 ^ 20) := by
  decide +kernel

end Sys2Proof.Tests
end

