-- ==== Sys2Proof/Tests/Tier.lean ====
section
/-!
SUPPORT. Witnesses of the hypotheses of the statements about the tile directory, flash and the update engines.
-/
namespace Sys2Proof.Tests
open Sys2Proof Sys2Proof.Machine

set_option Elab.async false

/-! ### The directory -/

/-- Eight entries from 100 on, with two slots in each pool and flash backing from tile 1000 on. -/
def region : Region := ⟨100, 8, 0, 1, true, true, 16, 0x100000, 2, 2, 0x10000000000, 0x200000, 1000⟩

/-- A request of the device or of a doorbell slot (R311). -/
def dirReq (from_ : ReqFrom) (op flags e arg deadline addr count : Nat) : Request :=
  ⟨from_, toBytes 1 op ++ toBytes 1 flags ++ toBytes 2 0 ++ toBytes 4 e ++ toBytes 4 arg ++ toBytes 4 deadline ++ toBytes 8 addr ++ toBytes 4 count ++
    toBytes 4 0, 0⟩

/-- It is the oldest request; entry 107 is d. -/
def directory (r : Request) (d : DirEntry) (f : TierSt → TierSt) : State :=
  { up with tier := f { TierSt.reset with regions := [region], ents := [(107, d)], reqs := [r] } }

def resident (tier slot pin : Nat) (fback : Bool) : DirEntry := ⟨.resident, tier, true, fback, 0, false, pin, 3, 0x500, slot, 0⟩

/-- Every request at an entry at the end of its region. -/
theorem witness_DirectoryRequests :
    (∀ op ∈ [1, 2, 3, 4, 5, 6, 7, 8], ∀ d ∈ [DirEntry.empty, { DirEntry.empty with pin := 1 }, resident 0 1 0 true, resident 0 1 0 false, resident 1 1 0 true, resident 1 1 255 true, resident 0 1 2 true],
     let r := dirReq .device op (if op = 4 then 1 else 0) 107 0x600 0 0 0
     let s := directory r d id
     s.tier.reqs = [r] ∧ r.entry = 107 ∧ dirBad r = false ∧ r.op = op ∧ regionOf s 107 = some (0, region) ∧ dirEnt s 107 = d ∧ s.tier.waits = [] ∧ d.state ≠ .lost ∧ d.discard = false) ∧
    (let s := directory (dirReq .device 1 0 107 0 0 0 0) (resident 1 1 0 true) id
     freeSlots s 0 region 0 = [0, 1] ∧ freeSlots s 0 region 1 = [0] ∧ movesFull s = false ∧ ∀ a n, RangeClean s a n) ∧
    (let r := dirReq .device 1 8 107 0x600 0 0 0
     dirBad r = false ∧ bit r.flags 3 = true ∧ (resident 0 1 0 true).version / 256 ≠ r.arg / 256 ∧ r.sender = .device) ∧
    (let r := dirReq (.doorbell 3) 2 7 107 0x600 0 0 0
     dirBad r = false ∧ bit r.flags 0 = true ∧ bit r.flags 1 = true ∧ bit r.flags 2 = true) ∧
    (region.backing 107 = [1007] ∧ present (directory (dirReq .device 7 0 107 0 0 0 0) .empty id) 1007 = false ∧
     present (directory (dirReq .device 7 0 107 0 0 0 0) .empty fun x => { x with flash := [(1007, some ⟨[], []⟩)] }) 1007 = true) ∧
    (∀ op ∈ [1, 2, 3, 4, 6, 7, 8],
     let r := dirReq .device op (if op = 4 then 2 else 0) 107 0 0 0 0
     let s := directory r { DirEntry.empty with state := .lost } id
     dirBad r = false ∧ (dirEnt s 107).state = .lost ∧ regionOf s 107 = some (0, region)) := by
  refine ⟨by decide +kernel, ⟨by decide +kernel, by decide +kernel, by decide +kernel, fun a n => rangeClean_of rfl rfl rfl rfl a n⟩, ?_, ?_, ?_, ?_⟩ <;> decide +kernel

/-- The bytes of that region's entry of the region table (R307). -/
def regionBytes : List Byte :=
  toBytes 4 100 ++ toBytes 4 8 ++ toBytes 1 0 ++ toBytes 1 0xD ++ toBytes 1 16 ++ toBytes 5 0 ++ toBytes 8 0x100000 ++ toBytes 4 2 ++ toBytes 4 2 ++
  toBytes 8 0x10000000000 ++ toBytes 8 0x200000 ++ toBytes 16 1000

/-- A load of it and its end; FLASH_WRITE and FLASH_TRIM of tiles that back nothing. -/
theorem witness_DirectoryLoad :
    (let s := { setF up fTIER_REGION_TAB_ADDR 0x8000 with mem := { Mem.reset with bytes := putBytes [] 0x8000 regionBytes } }
     let v : BitVec 32 := 0x101
     let b := memBytes s (getF s fTIER_REGION_TAB_ADDR) (64 * 1)
     let l := (List.range 1).map fun i => regionFrom (slice b (64 * i) 64)
     v.getLsbD 0 = true ∧ bits v.toNat 14 8 = 1 ∧ bitF s fTIER_STATUS_LOADING = false ∧ dirBusy (setF s fTIER_CTL_REGIONS 1) = false ∧
     l = [(region, false)] ∧ regionFail 0 [] l = none) ∧
    (∀ p, RangeClean { setF up fTIER_REGION_TAB_ADDR 0x8000 with mem := { Mem.reset with bytes := p } } 0x8000 64) ∧
    (∀ op ∈ [9, 10],
     let r := dirReq .device op 0 0 7 0 (if op = 9 then 0x10000 else 0) 2
     let s := directory r .empty id
     s.tier.reqs = [r] ∧ dirBad r = false ∧ r.op = op ∧ (∀ k, k < r.count → backs s (r.arg + k) = false) ∧ s.tier.fops = []) := by
  refine ⟨by decide +kernel, fun p => rangeClean_of rfl rfl rfl rfl _ _, by decide +kernel⟩

/-- A move between the pools; a pool short of free slots; the decay of USE, 1 ns early and at its period; wear
moves with a retried tile and without; and a PIN that is late, with a move and behind another's. -/
theorem witness_DirectoryMoves :
    (∀ x ∈ [(DirState.evicting, 0, 1), (.promoting, 1, 0)],
     let d := { resident x.2.1 1 0 true with state := x.1 }
     let m : Move := ⟨107, x.2.2, 0, .background, 0⟩
     let s := directory (dirReq .device 8 0 107 0 0 0 0) d fun y => { y with moves := [m] }
     let src := region.slotAddr d.tier d.slot
     let dst := region.slotAddr m.tier m.slot
     s.tier.moves.find? (fun m => m.entry == 107) = some m ∧ dirEnt s 107 = d ∧ m.bad = 0 ∧ s.tier.fops = [] ∧ d.tier < 2 ∧ m.tier < 2 ∧ src % 64 = 0 ∧
     dst % 64 = 0 ∧ rangesMeet src region.tileBytes dst region.tileBytes = false ∧ d.slot ≠ noSlot ∧ m.why = .background ∧ s.tier.waits = [] ∧
     d.discard = false ∧ rangesMeet dst region.tileBytes region.ownerBase (4 * (region.stackSlots + region.lpddrSlots)) = false ∧
     d.slot < region.slots d.tier ∧ m.slot < region.slots m.tier) ∧
    (∀ tier ∈ [0, 1],
     let s := { up with tier := { TierSt.reset with
       regions := [{ region with lpddrSlots := 1, stackSlots := 1 }], ents := [(106, resident (1 - tier) 0 0 true), (107, resident tier 0 0 true)] } }
     let g := { region with lpddrSlots := 1, stackSlots := 1 }
     s.tier.regions[0]? = some g ∧ g.lowFree ≠ 0 ∧ 64 * (freeSlots s 0 g tier).length < g.lowFree * g.slots tier ∧ movesFull s = false ∧
     backgroundOf s 0 tier < 4 ∧ (chooseVictim s 0 g tier false).map (·.1) = some 107 ∧ regionOf s 107 = some (0, g) ∧ (dirEnt s 107).tier = tier ∧
     (dirEnt s 107).fback = true ∧ g.flash = true ∧ freeSlots s 0 g 1 = []) ∧
    (∀ n ∈ [9999999, 10000000],
     let s := { directory (dirReq .device 8 0 107 0 0 0 0) (resident 0 1 0 true) id with now := n }
     mwf (fun _ => DirEntry.empty) s.tier.ents = true ∧ (s.now < s.tier.useAt + 10000000 ↔ n = 9999999)) ∧
    (∀ l ∈ [[], [7]],
     let s := directory (dirReq .device 8 0 107 0 0 0 0) .empty fun x => { x with rewrites := l }
     bitF s fPM_STATUS_FW_RUNNING = true ∧ s.tier.rewrites = l ∧ s.tier.wearAt ≤ s.now ∧ (∀ o ∈ s.tier.fops, o.n ∉ s.tier.rewrites) ∧ 0 < getF s fTIER_FLASH_CTL_WEAR_MBPS) ∧
    (∀ own ∈ [true, false],
     let r := dirReq .device 1 0 107 0 36 0 0
     let w : WaitPin := ⟨107, r, own, false, none⟩
     let d := resident 1 1 1 true
     let s := { directory r (if own then d else { d with state := .promoting }) fun y => { y with waits := [w] } with now := 100 }
     s.tier.waits = [w] ∧ (w.own = true ∨ settled s w.entry = false) ∧ w.late = false ∧ w.r.deadline ≠ 0 ∧ w.r.stamp + w.r.deadline + 64 ≤ s.now ∧ (dirEnt s w.entry).discard = false ∧ w.r.entry = w.entry) := by
  refine ⟨?_, ?_, ?_, ?_, ?_⟩ <;> decide +kernel

/-- A read of a flash tile for a transfer, and a write for a request. -/
theorem witness_DirectoryFlash :
    (let f : FlashTile := ⟨List.replicate 65536 0, []⟩
     let h := entry (BitVec.ofNat 64 (0x20 * 2 ^ 58 + 2 * 2 ^ 52 + 1 * 2 ^ 46)) [(1, 1007)]
     let r : StrRun := ⟨4, h, 0, none, RRead.start false, [1007], none, none⟩
     let o : FlashOp := ⟨1007, .stream 0 4, none⟩
     let s := { core 0 fun x => { x with str := { x.str with run := [r] } } with tier := { TierSt.reset with flash := [(1007, some f)], fops := [o] } }
     s.tier.fops[0]? = some o ∧ o.write = none ∧ fopMayEnd s 0 o = true ∧ mget (fun _ => none) s.tier.flash o.n = some f ∧ f.poison = [] ∧
     (s.tile 0).str.run = [r] ∧ (s.tile 0).str.pf = [] ∧ s.fab.wait = [] ∧ r.no = 4 ∧ stX r.e ≤ o.n ∧ f.data.length = 65536 ∧ s.pm.evq.length < 1024 ∧ r.fail = none) ∧
    (let r := dirReq .device 9 0 0 7 0 0x10000 1
     let o : FlashOp := ⟨7, .request r, some ⟨[], []⟩⟩
     let s := { up with tier := { TierSt.reset with fops := [o] } }
     s.tier.fops[0]? = some o ∧ fopMayEnd s 0 o = true ∧ removeAt s.tier.fops 0 = []) := by
  refine ⟨⟨rfl, rfl, by decide +kernel, rfl, rfl, rfl, rfl, rfl, rfl, by decide +kernel, List.length_replicate, by decide +kernel, rfl⟩, by decide +kernel⟩

/-! ### The update engines -/

/-- A request to the update engines (R355). -/
def updReq (op flags group step first addr count : Nat) : Request :=
  ⟨.device, toBytes 1 op ++ toBytes 1 flags ++ toBytes 2 0 ++ toBytes 2 group ++ toBytes 2 0 ++ toBytes 4 step ++ toBytes 4 first ++ toBytes 4 count ++
    toBytes 4 0 ++ toBytes 8 addr, 0⟩

/-- Group 4095: two blocks of BFX for the weights, the moment and the gradients, updated by SGD with momentum. -/
def group (kind : Nat) (lzy priv : Bool) : Group :=
  ⟨kind, lzy, priv, false, false, 13, 13, 13, 13, 0, 0xFF, 0, 0, 2, 1, 0, 0, 0, 0, 0, 0x1000, 0x2000, 0x4000, 0x3000, 0, 0x10000, 0x8000⟩

def updating (g : Group) (b : List Byte) (f : UpdSt → UpdSt) : State :=
  { up with mem := { Mem.reset with bytes := putBytes [] 0x3000 b }, upd := f { UpdSt.reset with groups := [(4095, g)] } }

/-- UPDATE of a configured group in the committed step, the next one and a later one, resolved, non-finite or not resolved, and with deferred work
pending; and of a group that is not configured. -/
theorem witness_UpdateRequests_update :
    (∀ step ∈ [0, 1, 2], ∀ v ∈ [0, 1], ∀ nf ∈ [0, 1],
     let r := updReq 1 0 4095 step 1 0 1
     let s := setFs (updating (group 1 false false) [] fun x => { x with reqs := [r] }) [(fUPD_STATUS_RES1_V, v), (fUPD_STATUS_RES1_NONFIN, nf)]
     s.upd.reqs = [r] ∧ updBad r = false ∧ cmtStep s = 0 ∧ s.upd.waits = [] ∧ shActive s = false ∧ r.op = 1 ∧ itemFault s r.item = none ∧
     inEval s = false ∧ r.step = step ∧ gateShut s r.step = false ∧ deferPending s r.group = false) ∧
    (let s := updating (group 1 false false) [] id
     (∀ x ∈ s.upd.runs, x.stop ≤ x.given) ∧ deferPending (s.setTile 0 { Tile.reset with fill := { FillUnit.reset with res := some (0, 4095) } }) 4095 = true ∧ (groupOf s 4094).kind = 0) ∧
    (let q : UpdRun := ⟨updReq 1 0 4095 1 0 0 4000, 2048, (List.range 32).map fun k => ⟨64 * k, 64 * k + 64, none⟩, 4000, 0, 0⟩
     let s := updating (group 1 false false) [] fun x => { x with runs := [q] }
     32 ≤ engBusy s) := by
  decide +kernel

/-- RESOLVE, COMMIT, its effect, QUERY and SETSTEP. -/
theorem witness_UpdateRequests_steps :
    (∀ nf ∈ [0, 1], let r := updReq 2 nf 0 1 0 0 0
     let s := updating (group 1 false false) [] fun x => { x with reqs := [r] }
     updBad r = false ∧ r.op = 2 ∧ r.step = cmtStep s + 1 ∧ bitF s fUPD_STATUS_RES1_V = false ∧ s.pm.evq.length < 1024 ∧ bit r.flags 0 = (nf == 1) ∧
     (updReq 2 nf 0 0 0 0 0).step ≤ cmtStep s ∧ updBad (updReq 2 nf 0 0 0 0 0) = false) ∧
    (let r := updReq 3 0 0 1 0 0 0
     let s := updating (group 1 false false) [] fun x => { x with reqs := [r] }
     updBad r = false ∧ r.op = 3 ∧ s.upd.commit = none ∧ r.step = cmtStep s + 1 ∧ bitF s fUPD_STATUS_RES1_V = false ∧
     bitF (setF s fUPD_STATUS_RES1_V 1) fUPD_STATUS_RES1_V = true) ∧
    (let q := updReq 3 0 0 1 0 0 0
     let s := updating (group 1 false true) [] fun x => { x with commit := some q }
     s.upd.commit = some q ∧ s.upd.runs = [] ∧ s.fab.ahead = [] ∧ fillStarted s = false ∧ gateShut s 1 = false ∧ mwf (fun _ => Group.none) s.upd.groups = true ∧
     ∀ p ∈ s.upd.groups, p.1 < 4096) ∧
    (∀ g p a n, RangeClean (updating g p id) a n) ∧
    (let r := updReq 4 0 4095 0 0 0 0
     updBad r = false ∧ r.op = 4) ∧
    (∀ g ∈ [0xFFFF, 4095],
     let r := updReq 5 0 g 7 0 0 0
     let s := updating (group 1 false false) [] fun x => { x with reqs := [r] }
     updBad r = false ∧ r.op = 5 ∧ r.group = g ∧ bitF s fUPD_STATUS_RES1_V = false ∧ bitF s fUPD_STATUS_RES2_V = false ∧ s.upd.started = false) := by
  refine ⟨by decide +kernel, by decide +kernel, by decide +kernel, fun g p a n => rangeClean_of rfl rfl rfl rfl a n, by decide +kernel, by decide +kernel⟩

/-- The last block of a group, from a request and from a fill item; the last block of an engine's run with more to give; one with a gradient that is not finite; and the end of a request. -/
theorem witness_UpdateWork_block :
    (∀ nf ∈ [true, false],
     let g := group 1 false false
     let r := updReq 1 0 4095 1 1 0 1
     let q : UpdRun := ⟨r, 1, [⟨0, 1, none⟩], 1, 0, 0⟩
     let s := updating g (if nf then List.replicate 257 0 ++ [0xFF] else []) fun x => { x with runs := [q] }
     groupOf s 4095 = g ∧ r.item.group = 4095 ∧ (arrBlk s g.gBase g.gFmt g.nblk 1).isNonfin = nf ∧ 1 < g.nblk ∧ disjoint g.arrays = true ∧ g.adamw = false ∧
     (constants s g 1 1).2.1 = none ∧ (constants s g 1 1).2.2 = s ∧ s.upd.runs[0]? = some q ∧ q.parts[0]? = some ⟨0, 1, none⟩ ∧ blockHeld s 0 4095 1 = false ∧
     (∀ z ∈ s.upd.runs, z.stop ≤ z.given) ∧ q.r.item.first + 0 = 1 ∧ q.r.item.first = q.r.first) ∧
    (∀ g p a n, RangeClean (updating g p id) a n) ∧
    (let r := updReq 1 0 4095 1 0 0 130
     let p : UpdPart := ⟨63, 64, none⟩
     let q : UpdRun := ⟨r, 128, [p, ⟨64, 128, none⟩], 130, 63, 0⟩
     let s := updating { group 1 false false with nblk := 130 } [] fun x => { x with runs := [q] }
     s.upd.runs[0]? = some q ∧ q.parts[0]? = some p ∧ p.stop ≤ p.next + 1 ∧ engBusy s ≤ 32 ∧ q.given < q.stop ∧ blockHeld s 0 4095 63 = false) ∧
    (let e := 2 ^ 8 + 4095 * 2 ^ 16 + 2 ^ 32 + 2 ^ 64 + 2 ^ 96
     let s := { setF (updating (group 1 false false) [] id) fUPD_STATUS_RES1_V 1 with
       tiles := (core 0 fun x => { x with fill := { x.fill with opt := [e], optHead := some ⟨0, none⟩, level := 2 } }).tiles }
     (s.tile 0).fill.opt = [e] ∧ (s.tile 0).fill.optHead = some ⟨1 - (optItem e).first, none⟩ ∧ optItem e = ⟨4095, 0, 1, 1⟩ ∧ isLive s 0 = true ∧
     clkRuns s 0 = true ∧ (s.tile 0).fill.level = 2 ∧ phaseHolds s = false ∧ (s.tile 0).fill.defer = [] ∧ (s.tile 0).vec.win = none ∧ queueStuck s 0 .vector = true ∧
     bitF s fUPD_STATUS_RES1_V = true ∧ inEval s = false ∧ optBad e = false ∧ itemFault s (optItem e) = none ∧
     optStep e = cmtStep s + 1 ∧ gateShut s (optStep e) = false ∧ optHeld (s.tile 0) = false ∧ deferPending s 4095 = false) ∧
    (let q : UpdRun := ⟨updReq 1 0 4095 1 1 0 1, 1, [], 1, 1, 0⟩
     let s := updating (group 1 false false) [] fun x => { x with runs := [q] }
     s.upd.runs[0]? = some q ∧ q.done = true) := by
  refine ⟨by decide +kernel, fun g p a n => rangeClean_of rfl rfl rfl rfl a n, by decide +kernel, by decide +kernel, by decide +kernel⟩

/-- A row of a lazy group, named by the touch list at 0x3000: claimed already at this step, and not. -/
theorem witness_UpdateWork_lazy :
    (∀ seen ∈ [true, false],
     let g := { group 1 true false with gBase := 0x5000 }
     let r := updReq 1 0 4095 1 0 0x3000 1
     let q : UpdRun := ⟨r, 1, [⟨0, 1, none⟩], 1, 0, 0⟩
     let s := updating g (toBytes 4 1) fun x => { x with runs := [q] }
     let s := if seen then memWrite s 0x8008 (toBytes 4 1 ++ toBytes 4 1) else s
     groupOf s 4095 = g ∧ g.lzy = true ∧ g.priv = false ∧ s.upd.runs[0]? = some q ∧ q.parts[0]? = some ⟨0, 1, none⟩ ∧ q.r.item.group = 4095 ∧
     blockHeld s 0 q.r.group (q.r.first + 0) = false ∧ q.r.item.addr + 4 * (q.r.item.first + 0) = 0x3000 ∧
     leAt (memBytes s 0x3000 4) 0 4 = 1 ∧ 1 < g.nblk / max 1 g.rowBlocks ∧ 0 < g.rowBlocks ∧ g.hdrBase + 8 * 1 = 0x8008 ∧
     (leAt (memBytes s 0x8008 8) 4 4 = 1 ↔ seen = true) ∧
     (powT (memWrite s 0x8008 (toBytes 4 1 ++ toBytes 4 1)) g.pt1 0).2.1 = none ∧ (getF s (fUPD_GROUP_T 4095) + 1) % 2 ^ 32 = 1 ∧ g.adamw = false ∧ disjoint g.arrays = true ∧ s.mem.quadChange = []) := by
  decide +kernel

end Sys2Proof.Tests
end

section
/-!
PROOFS. Register accesses of the host (spec 00 R11 to R16): what a walk over the fields of one register leaves of each field, what `csrRead`
and `csrWrite` do in each of their cases, and the statement `RegisterAccesses`.
-/
namespace Sys2Proof.Machine

/-! ### The register table -/

theorem mem_regTable_of_regAt {off : Nat} {r : RegDef} (h : regAt off = some r) : r ∈ regTable := List.mem_of_find?_eq_some h

theorem base_le_of_regAt {off : Nat} {r : RegDef} (h : regAt off = some r) : r.base ≤ off := by
  have hc : r.covers off = true := List.find?_some (p := fun r : RegDef => r.covers off) h
  simp only [RegDef.covers, Bool.and_eq_true, decide_eq_true_eq] at hc
  exact hc.1

/-- The fields of every register lie within 64 bits, and no two of one register begin at the same bit. -/
theorem regTable_fields_apart : ∀ r ∈ regTable, (∀ f ∈ r.fields, f.lo ≤ f.hi ∧ f.hi < 64) ∧ (r.fields.map (·.lo)).Nodup := by
  decide +kernel

theorem fields_within_of_regAt {off : Nat} {r : RegDef} (h : regAt off = some r) : ∀ f ∈ r.fields, f.lo ≤ f.hi ∧ f.hi < 64 :=
  (regTable_fields_apart r (mem_regTable_of_regAt h)).1

theorem fields_lo_lt_of_regAt {off : Nat} {r : RegDef} (h : regAt off = some r) : ∀ f ∈ r.fields, f.lo < 64 := fun f hf => by
  have := fields_within_of_regAt h f hf
  omega

theorem fields_nodup_of_regAt {off : Nat} {r : RegDef} (h : regAt off = some r) : (r.fields.map (·.lo)).Nodup :=
  (regTable_fields_apart r (mem_regTable_of_regAt h)).2

/-- OBS_TRACE_CTL is the register at 0xD00004. -/
theorem base_of_regAt_traceCtl {r : RegDef} (h : regAt 0xD00004 = some r) : r.base = 0xD00004 := by
  have hb : (regAt 0xD00004).map (·.base) = some 0xD00004 := by decide +kernel
  rw [h] at hb
  exact Option.some.inj hb

/-! ### A walk over the fields of one register -/

/-- Field f of the register at an offset. -/
def FieldDef.place (f : FieldDef) (off : Nat) : Fld := ⟨off, f.hi, f.lo⟩

/-- The visit of a field writes that field of the register at the offset, or nothing. -/
def WritesOwnField (off : Nat) (p : State → FieldDef → State) : Prop := ∀ s f, p s f = s ∨ ∃ x, p s f = setF s (f.place off) x

/-- The two states agree on every field of the other registers. -/
def SameElsewhere (off : Nat) (s u : State) : Prop := ∀ g : Fld, g.lo < 64 → g.off ≠ off → getF u g = getF s g

theorem fldKey_ne_of_off_ne {f g : Fld} (hf : f.lo < 64) (hg : g.lo < 64) (h : g.off ≠ f.off) : fldKey g ≠ fldKey f := by
  simp only [fldKey]
  omega

theorem fldKey_place_inj {f g : FieldDef} {off : Nat} : fldKey (g.place off) = fldKey (f.place off) ↔ g.lo = f.lo := by
  simp only [fldKey, FieldDef.place]
  omega

section Walk
variable {off : Nat} {p : State → FieldDef → State} (hp : WritesOwnField off p)
include hp

/-- One visit changes no field with another key. -/
theorem WritesOwnField.getF_ne (s : State) (f : FieldDef) {g : Fld} (h : fldKey g ≠ fldKey (f.place off)) : getF (p s f) g = getF s g := by
  obtain h1 | ⟨x, h1⟩ := hp s f <;> rw [h1]
  exact getF_setF_ne s x h

/-- The walk changes no field whose key none of the visited fields has. -/
theorem WritesOwnField.getF_foldl_ne (l : List FieldDef) (s : State) {g : Fld} (h : ∀ f ∈ l, fldKey g ≠ fldKey (f.place off)) :
    getF (l.foldl p s) g = getF s g := by
  induction l generalizing s with
  | nil => rfl
  | cons f l ih =>
    rw [List.foldl_cons, ih _ fun f' hf' => h f' (List.mem_cons_of_mem _ hf'), hp.getF_ne s f (h f List.mem_cons_self)]

/-- The walk leaves the other registers. -/
theorem WritesOwnField.sameElsewhere_foldl {l : List FieldDef} (hl : ∀ f ∈ l, f.lo < 64) (s : State) : SameElsewhere off s (l.foldl p s) :=
  fun _ hg hne => hp.getF_foldl_ne l s fun f hf => fldKey_ne_of_off_ne (hl f hf) hg hne

/-- The walk changes the register file alone. -/
theorem WritesOwnField.foldl_eq (l : List FieldDef) (s : State) : l.foldl p s = { s with csr := (l.foldl p s).csr } := by
  induction l generalizing s with
  | nil => rfl
  | cons f l ih =>
    rw [List.foldl_cons]
    obtain h1 | ⟨x, h1⟩ := hp s f <;> rw [h1]
    · exact ih s
    · rw [ih (setF s (f.place off) x)]
      rfl

/-- A field of the list ends as its own visit leaves it, on a state that still agrees with the first one on it and on the other registers. -/
theorem WritesOwnField.getF_foldl_mem {l : List FieldDef} (hl : ∀ f ∈ l, f.lo < 64) (hn : (l.map (·.lo)).Nodup) {f : FieldDef} (hf : f ∈ l)
    (s : State) : ∃ v, SameElsewhere off s v ∧ getF v (f.place off) = getF s (f.place off) ∧
      getF (l.foldl p s) (f.place off) = getF (p v f) (f.place off) := by
  obtain ⟨a, b, rfl⟩ := List.append_of_mem hf
  have hapart : ∀ g ∈ a ++ b, fldKey (f.place off) ≠ fldKey (g.place off) := by
    intro g hg hk
    rw [List.map_append, List.map_cons, List.nodup_middle, List.nodup_cons, ← List.map_append] at hn
    exact hn.1 (List.mem_map.2 ⟨g, hg, (fldKey_place_inj.1 hk).symm⟩)
  refine ⟨a.foldl p s, hp.sameElsewhere_foldl (fun g hg => hl g (List.mem_append_left _ hg)) s, ?_, ?_⟩
  · exact hp.getF_foldl_ne a s fun g hg => hapart g (List.mem_append_left _ hg)
  · rw [List.foldl_append, List.foldl_cons, hp.getF_foldl_ne b _ fun g hg => hapart g (List.mem_append_right _ hg)]

end Walk

/-! ### Writes by access type (R13, R16) -/

/-- Whether a RW field takes a value does not rest on the register that is written. -/
theorem takes_of_sameElsewhere {s v : State} {r : RegDef} {off : Nat} (hr : regAt off = some r) (h : SameElsewhere off s v) (lo x : Nat) :
    takes v r off lo x = takes s r off lo x := by
  have hle := base_le_of_regAt hr
  have htrace : r.base = 0xD00010 ∨ r.base = 0xD00018 ∨ (r.base = 0xD00000 ∧ lo = 16) →
      bitF v fOBS_TRACE_CTL_TRACE_EN = bitF s fOBS_TRACE_CTL_TRACE_EN := fun hb => by
    have hne : fOBS_TRACE_CTL_TRACE_EN.off ≠ off := fun he => by
      have := base_of_regAt_traceCtl (he ▸ hr)
      omega
    rw [bitF, bitF, h _ (by decide) hne]
  have htwin : r.base = 0xC00010 → twState v = twState s := fun hb =>
    h _ (by decide) (by simp only [fTWN_STATUS_STATE]; omega)
  have hroute : r.base = 0xA00500 ∨ r.base = 0xA00600 ∨ r.base = 0xA00800 → bitF v fOPT_FAB_STATUS_PENDING = bitF s fOPT_FAB_STATUS_PENDING :=
    fun hb => by rw [bitF, bitF, h _ (by decide) (by simp only [fOPT_FAB_STATUS_PENDING]; omega)]
  have hdie : r.base = 0x300104 ∧ lo = 2 → dieState v ((off - r.base) / 0x40) = dieState s ((off - r.base) / 0x40) := fun hb =>
    h _ (by simp [fPKG_DIE_STATUS_STATE]) (by simp only [fPKG_DIE_STATUS_STATE]; omega)
  dsimp only [takes]
  congr 1
  split_ifs with h1 h2 h3 h4 h5
  · rfl
  · rw [htrace h2]
  · rw [htwin h3]
  · rw [hroute h4]
  · rw [hdie h5]
  · rfl

/-- The value that a write of v offers to field f: its bits, or the single bit of the last OPT_DEAD word. -/
def FieldDef.offered (f : FieldDef) (r : RegDef) (off v : Nat) : Nat :=
  if r.base = 0xA00800 ∧ off = 0xA00800 + 4 * 132 then v % 2 else bits v f.hi f.lo

theorem offered_lt (r : RegDef) (off v : Nat) {f : FieldDef} (h : f.lo ≤ f.hi) : f.offered r off v < 2 ^ (f.hi + 1 - f.lo) := by
  unfold FieldDef.offered
  split_ifs
  · calc v % 2 < 2 ^ 1 := Nat.mod_lt _ (by decide)
      _ ≤ 2 ^ (f.hi + 1 - f.lo) := Nat.pow_le_pow_right (by decide) (by omega)
  · exact Nat.mod_lt _ (Nat.two_pow_pos _)

section AccessTypes
variable (s : State) (r : RegDef) (off v : Nat) {f : FieldDef}

theorem putField_rw (h : f.access = .rw) :
    putField r off v s f = if takes s r off f.lo (f.offered r off v) then setF s (f.place off) (f.offered r off v) else s := by
  simp only [putField, h]
  rfl

theorem putField_w1c (h : f.access = .w1c) :
    putField r off v s f =
      if off = 0x100118 then s else setF s (f.place off) (getF s (f.place off) &&& ((f.place off).top - f.offered r off v)) := by
  simp only [putField, h]
  rfl

/-- A field of another type ignores writes (R13). -/
theorem putField_other (hrw : f.access ≠ .rw) (hw1c : f.access ≠ .w1c) : putField r off v s f = s := by
  cases h : f.access with
  | rw => exact absurd h hrw
  | w1c => exact absurd h hw1c
  | _ => simp only [putField, h]

theorem fieldAfterWrite_rw (h : f.access = .rw) :
    fieldAfterWrite s r off v f = if takes s r off f.lo (f.offered r off v) then f.offered r off v else getF s (f.place off) := by
  simp only [fieldAfterWrite, h]
  rfl

theorem fieldAfterWrite_w1c (h : f.access = .w1c) :
    fieldAfterWrite s r off v f =
      if off = 0x100118 then getF s (f.place off) else getF s (f.place off) &&& ((f.place off).top - f.offered r off v) := by
  simp only [fieldAfterWrite, h]
  rfl

theorem fieldAfterWrite_other (hrw : f.access ≠ .rw) (hw1c : f.access ≠ .w1c) : fieldAfterWrite s r off v f = getF s (f.place off) := by
  cases h : f.access with
  | rw => exact absurd h hrw
  | w1c => exact absurd h hw1c
  | _ => simp only [fieldAfterWrite, h, FieldDef.place]

end AccessTypes

theorem putField_writesOwnField (r : RegDef) (off v : Nat) : WritesOwnField off (putField r off v) := by
  intro s f
  by_cases hrw : f.access = .rw
  · rw [putField_rw s r off v hrw]
    split_ifs
    · exact .inr ⟨_, rfl⟩
    · exact .inl rfl
  by_cases hw1c : f.access = .w1c
  · rw [putField_w1c s r off v hw1c]
    split_ifs
    · exact .inl rfl
    · exact .inr ⟨_, rfl⟩
  · exact .inl (putField_other s r off v hrw hw1c)

theorem getF_putField {s : State} {r : RegDef} {off v : Nat} {f : FieldDef} (hf : f.lo ≤ f.hi) :
    getF (putField r off v s f) (f.place off) = fieldAfterWrite s r off v f := by
  by_cases hrw : f.access = .rw
  · rw [putField_rw s r off v hrw, fieldAfterWrite_rw s r off v hrw]
    split_ifs
    · rw [getF_setF_same]
      exact Nat.mod_eq_of_lt (offered_lt r off v hf)
    · rfl
  by_cases hw1c : f.access = .w1c
  · rw [putField_w1c s r off v hw1c, fieldAfterWrite_w1c s r off v hw1c]
    split_ifs
    · rfl
    · have hpos : 0 < 2 ^ ((f.place off).hi + 1 - (f.place off).lo) := Nat.two_pow_pos _
      rw [getF_setF_same]
      exact Nat.mod_eq_of_lt (Nat.and_lt_two_pow _ (by rw [Fld.top]; omega))
  · rw [putField_other s r off v hrw hw1c, fieldAfterWrite_other s r off v hrw hw1c]

theorem fieldAfterWrite_of_sameElsewhere {s u : State} {r : RegDef} {off : Nat} (hr : regAt off = some r) (h : SameElsewhere off s u)
    {f : FieldDef} (hf : getF u (f.place off) = getF s (f.place off)) (v : Nat) : fieldAfterWrite u r off v f = fieldAfterWrite s r off v f := by
  unfold FieldDef.place at hf
  simp only [fieldAfterWrite, hf, takes_of_sameElsewhere hr h]

/-- What a write's walk over the fields of its register leaves in each of them. -/
theorem getF_foldl_putField {s : State} {r : RegDef} {off : Nat} (hr : regAt off = some r) (v : Nat) {f : FieldDef} (hf : f ∈ r.fields) :
    getF (r.fields.foldl (putField r off v) s) (f.place off) = fieldAfterWrite s r off v f := by
  obtain ⟨u, hsame, hold, hlast⟩ :=
    (putField_writesOwnField r off v).getF_foldl_mem (fields_lo_lt_of_regAt hr) (fields_nodup_of_regAt hr) hf s
  rw [hlast, getF_putField (fields_within_of_regAt hr f hf).1, fieldAfterWrite_of_sameElsewhere hr hsame hold]

/-- The interrupt at a transition changes what leaves the module and the pending bit of the host interface alone. -/
theorem edge_eq (a s : State) : edge a s = { s with wire := (edge a s).wire, host := (edge a s).host } := by
  apply state_ext <;> simp

/-! ### Registers that take accesses -/

theorem regUp_iff_csrOpen {s : State} {off : Nat} : regUp s off = true ↔ CsrOpen s off := by
  have hdown : tileDown s off = false ↔ ∀ t, tileOfOff off = some t → dieUp s (dieOf t) = true := by
    unfold tileDown
    cases tileOfOff off <;> simp
  simp only [regUp, CsrOpen, Bool.and_eq_true, Bool.not_eq_true', hdown, and_assoc]
  cases pmFirmwareReg off <;> cases fwRuns s <;> simp

theorem regUp_eq_false_iff {s : State} {off : Nat} : regUp s off = false ↔ ¬ CsrOpen s off := by
  rw [← regUp_iff_csrOpen, Bool.not_eq_true]

/-- A whole write that starts no command writes each field by its access type. -/
theorem regWrite_eq_foldl {s : State} {r : RegDef} {off v : Nat} (ho : CsrOpen s off) (hrow : wholeRow s off v = none)
    (hafter : ∀ w, afterWrite w off v = w) : regWrite s r off v = edge s (r.fields.foldl (putField r off v) s) := by
  simp [regWrite, regUp_iff_csrOpen.2 ho, hrow, hafter]

/-- The read's visit of a field clears it where it is RC. -/
def clearIfRc (off : Nat) (s : State) (f : FieldDef) : State := if f.access = .rc then setF s (f.place off) 0 else s

theorem clearIfRc_writesOwnField (off : Nat) : WritesOwnField off (clearIfRc off) := by
  intro s f
  unfold clearIfRc
  split_ifs
  · exact .inr ⟨0, rfl⟩
  · exact .inl rfl

theorem clearRc_eq_foldl {s : State} {r : RegDef} {off : Nat} (ho : CsrOpen s off) : clearRc s r off = r.fields.foldl (clearIfRc off) s := by
  rw [clearRc, regUp_iff_csrOpen.2 ho]
  rfl

theorem getF_foldl_clearIfRc {s : State} {r : RegDef} {off : Nat} (hr : regAt off = some r) {f : FieldDef} (hf : f ∈ r.fields) :
    getF (r.fields.foldl (clearIfRc off) s) (f.place off) = if f.access = .rc then 0 else getF s (f.place off) := by
  obtain ⟨u, -, hold, hlast⟩ := (clearIfRc_writesOwnField off).getF_foldl_mem (fields_lo_lt_of_regAt hr) (fields_nodup_of_regAt hr) hf s
  rw [hlast, clearIfRc]
  split_ifs
  · simp
  · exact hold

/-! ### Halves of a 64-bit register (R12) -/

@[simp] theorem halvesOf_setHalves (s : State) (off : Nat) (h : Halves) : halvesOf (setHalves s off h) off = h := by
  simp [halvesOf, setHalves]

theorem halvesOf_congr {s u : State} (h : u.halves = s.halves) (off : Nat) : halvesOf u off = halvesOf s off := by
  rw [halvesOf, halvesOf, h]

/-! ### The cases of a read -/

section Cases
variable {s : State} {off : Nat} {r : RegDef}

theorem is64_of_regAt (hr : regAt off = some r) (hw : r.width = 64) : is64 off = true := by
  simp [is64, hr, hw]

theorem csrRead32_narrow (hp : plainWord s off = none) (hr : regAt off = some r) (hw : r.width = 32) :
    csrRead32 s off = (readReg s off, clearRc s r off) := by
  simp [csrRead32, hp, hr, hw]

theorem csrRead32_low_of_open (hp : plainWord s off = none) (hr : regAt off = some r) (hw : r.width = 64) (ho : CsrOpen s off) :
    csrRead32 s off = (readReg s off % 2 ^ 32, setHalves s off { halvesOf s off with high := some (readReg s off / 2 ^ 32) }) := by
  simp [csrRead32, hp, hr, hw, regUp_iff_csrOpen.2 ho]

theorem csrRead32_low_of_not_open (hp : plainWord s off = none) (hr : regAt off = some r) (hw : r.width = 64) (ho : ¬ CsrOpen s off) :
    csrRead32 s off = (readReg s off % 2 ^ 32, s) := by
  simp [csrRead32, hp, hr, hw, regUp_eq_false_iff.2 ho]

theorem csrRead32_high_latched {h : Nat} (ha : off % 8 = 0) (hp : plainWord s (off + 4) = none) (hr : regAt off = some r)
    (hr4 : regAt (off + 4) = none) (hw : r.width = 64) (ho : CsrOpen s off) (hh : (halvesOf s off).high = some h) :
    csrRead32 s (off + 4) = (h, setHalves s off { halvesOf s off with high := none }) := by
  have h4 : (off + 4) % 8 = 4 := by omega
  simp [csrRead32, hp, hr4, h4, is64_of_regAt hr hw, regUp_iff_csrOpen.2 ho, hh]

theorem csrRead32_high_of_not_open (ha : off % 8 = 0) (hp : plainWord s (off + 4) = none) (hr : regAt off = some r)
    (hr4 : regAt (off + 4) = none) (hw : r.width = 64) (ho : ¬ CsrOpen s off) :
    csrRead32 s (off + 4) = (readReg s off / 2 ^ 32, s) := by
  have h4 : (off + 4) % 8 = 4 := by omega
  simp [csrRead32, hp, hr4, h4, is64_of_regAt hr hw, regUp_eq_false_iff.2 ho]

theorem csrRead64_narrow (hp : plainWord s off = none) (hr : regAt off = some r) (hw : r.width = 32) : csrRead64 s off = 0 := by
  simp [csrRead64, hp, hr, hw]

/-! ### The cases of a write -/

theorem csrWrite32_narrow (v : Nat) (hp : plainWord s off = none) (hr : regAt off = some r) (hw : r.width = 32) :
    csrWrite32 s off v = regWrite s r off v := by
  simp [csrWrite32, hp, hr, hw]

theorem csrWrite32_low_of_open (v : Nat) (hp : plainWord s off = none) (hr : regAt off = some r) (hw : r.width = 64) (ho : CsrOpen s off) :
    csrWrite32 s off v = setHalves s off { halvesOf s off with low := some v } := by
  simp [csrWrite32, hp, hr, hw, regUp_iff_csrOpen.2 ho]

theorem csrWrite32_low_of_not_open (v : Nat) (hp : plainWord s off = none) (hr : regAt off = some r) (hw : r.width = 64)
    (ho : ¬ CsrOpen s off) : csrWrite32 s off v = s := by
  simp [csrWrite32, hp, hr, hw, regUp_eq_false_iff.2 ho]

/-- A write of a high half whose low half is held commits both. -/
theorem csrWrite32_high_held (v : Nat) {l : Nat} (ha : off % 8 = 0) (hp : plainWord s (off + 4) = none) (hr : regAt off = some r)
    (hr4 : regAt (off + 4) = none) (hw : r.width = 64) (ho : CsrOpen s off) (hl : (halvesOf s off).low = some l) :
    csrWrite32 s (off + 4) v = regWrite (setHalves s off { halvesOf s off with low := none }) r off (l + v * 2 ^ 32) := by
  have h4 : (off + 4) % 8 = 4 := by omega
  simp [csrWrite32, hp, hr4, h4, hr, hw, regUp_iff_csrOpen.2 ho, hl]

/-- A write of a high half alone writes the fields that reach into it. -/
theorem csrWrite32_high_alone (v : Nat) (ha : off % 8 = 0) (hp : plainWord s (off + 4) = none) (hr : regAt off = some r)
    (hr4 : regAt (off + 4) = none) (hw : r.width = 64) (ho : CsrOpen s off) (hl : (halvesOf s off).low = none) :
    csrWrite32 s (off + 4) v =
      regWrite s { r with fields := r.fields.filter fun f => decide (32 ≤ f.hi) } off (regNow s r off % 2 ^ 32 + v * 2 ^ 32) := by
  have h4 : (off + 4) % 8 = 4 := by omega
  simp [csrWrite32, hp, hr4, h4, hr, hw, regUp_iff_csrOpen.2 ho, hl]

theorem csrWrite32_high_of_not_open (v : Nat) (ha : off % 8 = 0) (hp : plainWord s (off + 4) = none) (hr : regAt off = some r)
    (hr4 : regAt (off + 4) = none) (ho : ¬ CsrOpen s off) : csrWrite32 s (off + 4) v = s := by
  have h4 : (off + 4) % 8 = 4 := by omega
  simp [csrWrite32, hp, hr4, h4, hr, regUp_eq_false_iff.2 ho]

theorem csrWrite64_narrow (v : Nat) (hp : plainWord s off = none) (hr : regAt off = some r) (hw : r.width = 32) : csrWrite64 s off v = s := by
  simp [csrWrite64, hp, hr, hw]

end Cases

/-! ### Accesses outside R11 -/

/-- An access of 8 or 16 bits, a misaligned one, or one of 64 bits to a 32-bit register. -/
def BadAccess (s : State) (off : Nat) (width : AccessWidth) : Prop :=
  width = .byte ∨ width = .half ∨ width = .word ∧ off % 4 ≠ 0 ∨ width = .wide ∧ off % 8 ≠ 0 ∨
    width = .wide ∧ plainWord s off = none ∧ ∃ r, regAt off = some r ∧ r.width = 32

theorem csrWrite_of_badAccess {s : State} {off : Nat} {width : AccessWidth} (h : BadAccess s off width) (v : Nat) :
    csrWrite s off width v = s := by
  obtain rfl | rfl | ⟨rfl, ha⟩ | ⟨rfl, ha⟩ | ⟨rfl, hp, r, hr, hw⟩ := h
  · rfl
  · rfl
  · exact if_neg ha
  · exact if_neg ha
  · simp [csrWrite, csrWrite64_narrow _ hp hr hw]

theorem csrRead_of_badAccess {s : State} {off : Nat} {width : AccessWidth} (h : BadAccess s off width) : csrRead s off width = (0, s) := by
  obtain rfl | rfl | ⟨rfl, ha⟩ | ⟨rfl, ha⟩ | ⟨rfl, hp, r, hr, hw⟩ := h
  · rfl
  · rfl
  · exact if_neg ha
  · simp [csrRead, ha]
  · simp [csrRead, csrRead64_narrow hp hr hw]

/-! ### The commands -/

theorem exec_csrWrite (off : BitVec 27) (width : AccessWidth) (v : Word) (s : State) :
    exec (.csrWrite off width v) s = .next (csrWrite s off.toNat width v.toNat) := rfl

theorem exec_rcFieldRead (off : BitVec 27) (width : AccessWidth) (s : State) :
    exec (.rcFieldRead ⟨off, width⟩) s = .next { (csrRead s off.toNat width).2 with readData := (csrRead s off.toNat width).1 } := rfl

theorem exec_csrWrite_word {off : BitVec 27} (h : off.toNat % 4 = 0) (v : Word) (s : State) :
    exec (.csrWrite off .word v) s = .next (csrWrite32 s off.toNat (v.toNat % 2 ^ 32)) := by
  rw [exec_csrWrite, csrWrite, if_pos h]

theorem exec_rcFieldRead_word {off : BitVec 27} (h : off.toNat % 4 = 0) (s : State) :
    exec (.rcFieldRead ⟨off, .word⟩) s = .next { (csrRead32 s off.toNat).2 with readData := (csrRead32 s off.toNat).1 } := by
  rw [exec_rcFieldRead, csrRead, if_pos h]

theorem exec_csrLowHalfRead {off : BitVec 27} (h : off.toNat % 4 = 0) (s : State) :
    exec (.csrLowHalfRead off) s = .next { (csrRead32 s off.toNat).2 with readData := (csrRead32 s off.toNat).1 } :=
  exec_rcFieldRead_word h s

/-- A write of the low or of the high half is a 32-bit write at its offset. -/
theorem csrWrite_half {off : Nat} (h : off % 4 = 0) (v : BitVec 32) (s : State) : csrWrite s off .word v.toNat = csrWrite32 s off v.toNat := by
  rw [csrWrite, if_pos h, Nat.mod_eq_of_lt v.isLt]

theorem exec_csrLowHalfWrite {off : BitVec 27} (h : off.toNat % 4 = 0) (v : BitVec 32) (s : State) :
    exec (.csrLowHalfWrite off v) s = .next (csrWrite32 s off.toNat v.toNat) := congrArg _ (csrWrite_half h v s)

theorem exec_csrHighHalfWrite {off : BitVec 27} (h : off.toNat % 4 = 0) (v : BitVec 32) (s : State) :
    exec (.csrHighHalfWrite off v) s = .next (csrWrite32 s off.toNat v.toNat) := congrArg _ (csrWrite_half h v s)

/-! ### The parts of the statement -/

theorem write32_by_access {s : State} {off : BitVec 27} {v : Word} {r : RegDef} {f : FieldDef} (ha : off.toNat % 4 = 0)
    (hp : plainWord s off.toNat = none) (hr : regAt off.toNat = some r) (hw : r.width = 32) (hf : f ∈ r.fields) (ho : CsrOpen s off.toNat)
    (hrow : wholeRow s off.toNat (v.toNat % 2 ^ 32) = none) (hafter : ∀ w, afterWrite w off.toNat (v.toNat % 2 ^ 32) = w) :
    Answers (.csrWrite off .word v) s fun u =>
      getF u (f.place off.toNat) = fieldAfterWrite s r off.toNat (v.toNat % 2 ^ 32) f ∧ SameElsewhere off.toNat s u ∧
      u = { s with csr := u.csr, wire := u.wire, host := u.host } := by
  have hwalk := putField_writesOwnField r off.toNat (v.toNat % 2 ^ 32)
  refine ⟨_, exec_csrWrite_word ha v s, ?_⟩
  rw [csrWrite32_narrow _ hp hr hw, regWrite_eq_foldl ho hrow hafter]
  refine ⟨?_, fun g hg hne => ?_, ?_⟩
  · rw [getF_csr (edge_csr _ _), getF_foldl_putField hr _ hf]
  · rw [getF_csr (edge_csr _ _), hwalk.sameElsewhere_foldl (fields_lo_lt_of_regAt hr) s g hg hne]
  · rw [edge_eq, hwalk.foldl_eq r.fields s]

theorem read32_clears_rc {s : State} {off : BitVec 27} {r : RegDef} {f : FieldDef} (ha : off.toNat % 4 = 0) (hp : plainWord s off.toNat = none)
    (hr : regAt off.toNat = some r) (hw : r.width = 32) (hf : f ∈ r.fields) (ho : CsrOpen s off.toNat) :
    Answers (.rcFieldRead ⟨off, .word⟩) s fun u =>
      u.readData = readReg s off.toNat ∧ getF u (f.place off.toNat) = (if f.access = .rc then 0 else getF s (f.place off.toNat)) ∧
      SameElsewhere off.toNat s u ∧ u = { s with csr := u.csr, readData := u.readData } := by
  have hwalk := clearIfRc_writesOwnField off.toNat
  refine ⟨_, exec_rcFieldRead_word ha s, ?_⟩
  rw [csrRead32_narrow hp hr hw, clearRc_eq_foldl ho]
  refine ⟨rfl, getF_foldl_clearIfRc hr hf, hwalk.sameElsewhere_foldl (fields_lo_lt_of_regAt hr) s, ?_⟩
  rw [hwalk.foldl_eq r.fields s]

section Halves
variable {s : State} {off hi : BitVec 27} {r : RegDef} (ha : off.toNat % 8 = 0) (hhi : hi.toNat = off.toNat + 4)
  (hr : regAt off.toNat = some r) (hrhi : regAt hi.toNat = none) (hw : r.width = 64)
include ha hhi hr hrhi hw

theorem lowRead_latches_for_highRead (hp : plainWord s off.toNat = none) (ho : CsrOpen s off.toNat) :
    Answers (.csrLowHalfRead off) s fun u =>
      u.readData = readReg s off.toNat % 2 ^ 32 ∧ u = { s with readData := u.readData, halves := u.halves } ∧
      ∀ w : State, w.halves = u.halves → plainWord w hi.toNat = none → CsrOpen w off.toNat → Answers (.csrLowHalfRead hi) w fun x =>
        x.readData = readReg s off.toNat / 2 ^ 32 ∧ (halvesOf x off.toNat).high = none := by
  refine ⟨_, exec_csrLowHalfRead (by omega) s, ?_⟩
  rw [csrRead32_low_of_open hp hr hw ho]
  refine ⟨rfl, rfl, fun w hwh hpw how => ⟨_, exec_csrLowHalfRead (by omega) w, ?_⟩⟩
  have hlatch : (halvesOf w off.toNat).high = some (readReg s off.toNat / 2 ^ 32) := by
    rw [halvesOf_congr (s := setHalves s off.toNat _) hwh, halvesOf_setHalves]
  rw [hhi] at hpw hrhi ⊢
  rw [csrRead32_high_latched ha hpw hr hrhi hw how hlatch]
  exact ⟨rfl, congrArg Halves.high (halvesOf_setHalves w off.toNat _)⟩

theorem lowWrite_held_for_highWrite (lo high : BitVec 32) (hp : plainWord s off.toNat = none) (ho : CsrOpen s off.toNat) :
    Answers (.csrLowHalfWrite off lo) s fun u =>
      u = { s with halves := u.halves } ∧ (halvesOf u off.toNat).low = some lo.toNat ∧
      ∀ w : State, w.halves = u.halves → plainWord w hi.toNat = none → CsrOpen w off.toNat → Answers (.csrHighHalfWrite hi high) w fun x =>
        x = regWrite (setHalves w off.toNat { halvesOf w off.toNat with low := none }) r off.toNat (lo.toNat + high.toNat * 2 ^ 32) := by
  refine ⟨_, exec_csrLowHalfWrite (by omega) lo s, ?_⟩
  rw [csrWrite32_low_of_open _ hp hr hw ho]
  refine ⟨rfl, by rw [halvesOf_setHalves], fun w hwh hpw how => ⟨_, exec_csrHighHalfWrite (by omega) high w, ?_⟩⟩
  have hheld : (halvesOf w off.toNat).low = some lo.toNat := by rw [halvesOf_congr hwh, halvesOf_setHalves]
  rw [hhi] at hpw hrhi ⊢
  exact csrWrite32_high_held _ ha hpw hr hrhi hw how hheld

theorem highWrite_commits_or_stands_alone (high : BitVec 32) (hp : plainWord s hi.toNat = none) (ho : CsrOpen s off.toNat) :
    (∀ lo, (halvesOf s off.toNat).low = some lo → exec (.csrHighHalfWrite hi high) s =
      .next (regWrite (setHalves s off.toNat { halvesOf s off.toNat with low := none }) r off.toNat (lo + high.toNat * 2 ^ 32))) ∧
    ((halvesOf s off.toNat).low = none → exec (.csrHighHalfWrite hi high) s =
      .next (regWrite s { r with fields := r.fields.filter fun f => decide (32 ≤ f.hi) } off.toNat
        (regNow s r off.toNat % 2 ^ 32 + high.toNat * 2 ^ 32))) := by
  rw [exec_csrHighHalfWrite (by omega) high s]
  rw [hhi] at hp hrhi ⊢
  exact ⟨fun lo hl => congrArg _ (csrWrite32_high_held _ ha hp hr hrhi hw ho hl),
    fun hl => congrArg _ (csrWrite32_high_alone _ ha hp hr hrhi hw ho hl)⟩

theorem halfAccesses_of_not_open (v : BitVec 32) (hp : plainWord s off.toNat = none) (hphi : plainWord s hi.toNat = none)
    (ho : ¬ CsrOpen s off.toNat) :
    exec (.csrLowHalfWrite off v) s = .next s ∧ exec (.csrHighHalfWrite hi v) s = .next s ∧
    exec (.csrLowHalfRead off) s = .next { s with readData := readReg s off.toNat % 2 ^ 32 } ∧
    exec (.csrLowHalfRead hi) s = .next { s with readData := readReg s off.toNat / 2 ^ 32 } := by
  rw [exec_csrLowHalfWrite (by omega), exec_csrHighHalfWrite (by omega), exec_csrLowHalfRead (by omega), exec_csrLowHalfRead (by omega)]
  rw [hhi] at hphi hrhi ⊢
  rw [csrWrite32_low_of_not_open _ hp hr hw ho, csrWrite32_high_of_not_open _ ha hphi hr hrhi ho, csrRead32_low_of_not_open hp hr hw ho,
    csrRead32_high_of_not_open ha hphi hr hrhi hw ho]
  exact ⟨rfl, rfl, rfl, rfl⟩

end Halves

/-- Settles O2: R11 by the access's width, R13 and R16 by the walk over the register's fields, R12 by the cases of a half access. That a
half belongs to the register, and that a register which takes no access neither holds nor latches one, is the model's choice (log 26). -/
theorem registerAccesses : Obligations.RegisterAccesses := by
  unfold Obligations.RegisterAccesses
  refine ⟨fun s off width v h => ⟨?_, ?_⟩, ⟨?_, ?_⟩, ?_, ?_, ?_, ?_⟩
  · rw [exec_csrWrite, csrWrite_of_badAccess h]
  · rw [exec_rcFieldRead, csrRead_of_badAccess h]
  · exact fun s off v r f ha hp hr hw hf ho hrow hafter => write32_by_access ha hp hr hw hf ho hrow hafter
  · exact fun s off r f ha hp hr hw hf ho => read32_clears_rc ha hp hr hw hf ho
  · exact fun s off hi r ha hhi hp _ hr hrhi hw ho => lowRead_latches_for_highRead ha hhi hr hrhi hw hp ho
  · exact fun s off hi lo high r ha hhi hp hr hrhi hw ho => lowWrite_held_for_highWrite ha hhi hr hrhi hw lo high hp ho
  · exact fun s off hi high r ha hhi hp hr hrhi hw ho => highWrite_commits_or_stands_alone ha hhi hr hrhi hw high hp ho
  · exact fun s off hi v r ha hhi hp hphi hr hrhi hw ho => halfAccesses_of_not_open ha hhi hr hrhi hw v hp hphi ho

end Sys2Proof.Machine
end

section
/-!
PROOFS. The scalar ALU instructions (spec 03 R102 to R104): what each of the model's shapes of an ALU instruction does where it is ready,
the results of the table as the model computes them, and the statement `ScalarInstructions`.
-/
namespace Sys2Proof.Machine

/-! ### The shapes of an ALU instruction -/

section Shapes
variable {s : State} {t : Tid} {m : Nat} {sd sa : SReg} {i : Instr} {v : Word}

theorem aluOp_gives {b : SrcB} {f : Word → Word → Word} (hi : exec i s = .next (aluOp t m sd sa b f s))
    (hv : f (readS (s.tile t) sa.val) (srcB (s.tile t) b) = v) (h : AluReady s t m sd sa b) : CoreGives i s t sd.val v :=
  hv ▸ coreWrite_ready (fun x => f (readS x sa.val) (srcB x b)) hi h

theorem shiftOp_gives {c : ShiftB} {f : Word → Nat → Word} (hi : exec i s = .next (shiftOp t m sd sa c f s))
    (hv : f (readS (s.tile t) sa.val) (shiftB (s.tile t) c) = v) (h : ShiftReady s t m sd sa c) : CoreGives i s t sd.val v :=
  hv ▸ coreWrite_ready (fun x => f (readS x sa.val) (shiftB x c)) hi h

theorem unaryOp_gives {f : Word → Word} (hi : exec i s = .next (unaryOp t m sd sa f s)) (hv : f (readS (s.tile t) sa.val) = v)
    (h : CoreReady s t (srWord 1 m sd.val sa.val 0) [sd.val, sa.val]) : CoreGives i s t sd.val v :=
  hv ▸ coreWrite_ready (fun x => f (readS x sa.val)) hi h

/-- A division by anything but 0 is an ordinary two-operand instruction. -/
theorem divOp_eq_aluOp {b : SrcB} (f : Word → Word → Word) (hb : srcB (s.tile t) b ≠ 0) (h : AluReady s t m sd sa b) :
    divOp t m sd sa b f s = aluOp t m sd sa b f s := by
  rw [divOp, aluOp, coreWrite, coreStep_ready _ h, coreStep_ready _ h, if_neg hb]

theorem divOp_gives {b : SrcB} {f : Word → Word → Word} (hb : srcB (s.tile t) b ≠ 0) (hi : exec i s = .next (divOp t m sd sa b f s))
    (hv : f (readS (s.tile t) sa.val) (srcB (s.tile t) b) = v) (h : AluReady s t m sd sa b) : CoreGives i s t sd.val v :=
  aluOp_gives (hi.trans (congrArg _ (divOp_eq_aluOp f hb h))) hv h

/-- A division by 0 aborts the task with DIV_ZERO (R103). -/
theorem divOp_traps {b : SrcB} {f : Word → Word → Word} (hb : srcB (s.tile t) b = 0) (hi : exec i s = .next (divOp t m sd sa b f s))
    (h : AluReady s t m sd sa b) : TrapsFirst i s t 0 0x05 (s.tile t).pc 0 := by
  refine ⟨_, hi, ?_⟩
  rw [divOp, coreStep_ready _ h, if_pos hb]
  exact trap_taken 0 cDIV_ZERO _ 0 h.1 (by decide) (by decide)

end Shapes

/-- An instruction that also reads the register it writes is ready with that register named once. -/
theorem CoreReady.cons_self {s : State} {t : Nat} {w : Word} {n : Nat} {l : List Nat} (h : CoreReady s t w (n :: l)) :
    CoreReady s t w (n :: n :: l) := by
  simpa [CoreReady] using h

/-! ### Products and shifts -/

theorem mul_eq_ofNat (x y : Word) : x * y = BitVec.ofNat 64 (x.toNat * y.toNat) := by
  simp [BitVec.ofNat_mul]

theorem shiftLeft_eq_ofNat (x : Word) (n : Nat) : x <<< n = BitVec.ofNat 64 (x.toNat * 2 ^ n) := by
  rw [← Nat.shiftLeft_eq]
  rfl

theorem ushiftRight_eq_ofNat (x : Word) (n : Nat) : x >>> n = BitVec.ofNat 64 (x.toNat / 2 ^ n) := by
  rw [← Nat.shiftRight_eq_div_pow, ← BitVec.toNat_ushiftRight, BitVec.ofNat_toNat, BitVec.setWidth_eq]

theorem sshiftRight_eq_ofInt (x : Word) (n : Nat) : x.sshiftRight n = BitVec.ofInt 64 (x.toInt / 2 ^ n) := by
  rw [BitVec.sshiftRight, Int.shiftRight_eq_div_pow]
  norm_cast

/-! ### Comparisons, minima and maxima -/

theorem boolW_eq_ite {p : Prop} [Decidable p] {c : Bool} (h : c = true ↔ p) : boolW c = if p then 1 else 0 := by
  simp only [boolW, h]

theorem minSigned_eq (x y : Word) : (if x.slt y then x else y) = BitVec.ofInt 64 (min x.toInt y.toInt) := by
  simp only [min_def_lt, apply_ite (BitVec.ofInt 64), BitVec.ofInt_toInt, BitVec.slt_iff_toInt_lt]

theorem maxSigned_eq (x y : Word) : (if x.slt y then y else x) = BitVec.ofInt 64 (max x.toInt y.toInt) := by
  simp only [max_def_lt, apply_ite (BitVec.ofInt 64), BitVec.ofInt_toInt, BitVec.slt_iff_toInt_lt]

theorem minUnsigned_eq (x y : Word) : (if x.ult y then x else y) = BitVec.ofNat 64 (min x.toNat y.toNat) := by
  simp only [min_def_lt, apply_ite (BitVec.ofNat 64), BitVec.ofNat_toNat, BitVec.setWidth_eq, BitVec.ult_iff_toNat_lt]

theorem maxUnsigned_eq (x y : Word) : (if x.ult y then y else x) = BitVec.ofNat 64 (max x.toNat y.toNat) := by
  simp only [max_def_lt, apply_ite (BitVec.ofNat 64), BitVec.ofNat_toNat, BitVec.setWidth_eq, BitVec.ult_iff_toNat_lt]

/-! ### Counts of bits -/

theorem popc_eq_length_filter (x : Word) : popc x = ((List.range 64).filter fun i => x.getLsbD i).length := by
  have h := List.foldl_filter (p := fun i => x.getLsbD i) (f := fun (c : Nat) (_ : Nat) => c + 1) (l := List.range 64) (init := 0)
  rw [popc, ← h, List.foldl_add_const, Nat.zero_add, Nat.one_mul]

/-- The leading zeros end at the highest bit that is set. -/
theorem clz_eq {x : Word} {n : Nat} (hn : n ≤ 64) (hz : ∀ i, 64 - n ≤ i → i < 64 → x.getLsbD i = false)
    (ho : n < 64 → x.getLsbD (63 - n) = true) : clz x = n := by
  have hlt : x.toNat < 2 ^ (64 - n) := Nat.lt_pow_two_of_testBit _ fun i hi =>
    if h : i < 64 then hz i hi h else BitVec.getLsbD_of_ge x i (by omega)
  obtain rfl | hn64 := hn.eq_or_lt
  · have hx : x = 0 := BitVec.eq_of_toNat_eq (by simpa using hlt)
    rw [clz, if_pos hx]
  · have hge : 2 ^ (63 - n) ≤ x.toNat := Nat.ge_two_pow_of_testBit (ho hn64)
    have hpos : 0 < 2 ^ (63 - n) := Nat.two_pow_pos _
    have hx : x ≠ 0 := by
      rintro rfl
      exact absurd hge (by simp)
    have hlog : x.toNat.log2 = 63 - n :=
      (Nat.log2_eq_iff (by omega)).2 ⟨hge, by rwa [show 63 - n + 1 = 64 - n by omega]⟩
    rw [clz, if_neg hx, hlog]
    omega

/-- The trailing zeros end at the lowest bit that is set. -/
theorem ctz_eq {x : Word} {n : Nat} (hn : n ≤ 64) (hz : ∀ i, i < n → x.getLsbD i = false) (ho : n < 64 → x.getLsbD n = true) :
    ctz x = n := by
  obtain rfl | hn64 := hn.eq_or_lt
  · have hnone : ((List.range 64).find? fun i => x.getLsbD i) = none :=
      List.find?_range_eq_none.2 fun i hi => by rw [hz i hi]; rfl
    rw [ctz, hnone, Option.getD_none]
  · have hsome : ((List.range 64).find? fun i => x.getLsbD i) = some n :=
      List.find?_range_eq_some.2 ⟨ho hn64, List.mem_range.2 hn64, fun i hi => by rw [hz i hi]; rfl⟩
    rw [ctz, hsome, Option.getD_some]

/-! ### The upper immediate -/

/-- The upper 18 bits of LIH stand above the lower 46 bits that SD keeps (R104). -/
theorem lih_value (imm : BitVec 18) (x : Word) : BitVec.ofNat 64 (imm.toNat * 2 ^ 46 + x.toNat % 2 ^ 46) = imm ++ x.truncate 46 := by
  have hlow : x.toNat % 2 ^ 46 < 2 ^ 46 := Nat.mod_lt _ (by decide)
  have happend : (imm ++ x.truncate 46).toNat = imm.toNat * 2 ^ 46 + x.toNat % 2 ^ 46 := by
    rw [BitVec.toNat_append, BitVec.truncate_eq_setWidth, BitVec.toNat_setWidth, ← Nat.shiftLeft_add_eq_or_of_lt hlow, Nat.shiftLeft_eq]
  rw [← happend, BitVec.ofNat_toNat, BitVec.setWidth_eq]

/-! ### Divisions -/

/-- The one signed quotient that does not fit wraps to the dividend (R103). -/
theorem div_value (x y : Word) : BitVec.ofInt 64 (x.toInt.tdiv y.toInt) =
    if x = BitVec.intMin 64 ∧ y = -1 then BitVec.intMin 64 else BitVec.ofInt 64 (x.toInt.tdiv y.toInt) :=
  (ite_eq_right_iff.2 (by rintro ⟨rfl, rfl⟩; decide)).symm

/-- With those operands the remainder is 0 (R103). -/
theorem rem_value (x y : Word) : BitVec.ofInt 64 (x.toInt.tmod y.toInt) =
    if x = BitVec.intMin 64 ∧ y = -1 then 0 else BitVec.ofInt 64 (x.toInt.tmod y.toInt) :=
  (ite_eq_right_iff.2 (by rintro ⟨rfl, rfl⟩; decide)).symm

/-! ### The statement -/

/-- Settles O3: every instruction has one of the shapes above, and its result is the table's; DIV, DIVU, REM and REMU split on b = 0. -/
theorem scalarInstructions : Obligations.ScalarInstructions := by
  unfold Obligations.ScalarInstructions
  refine ⟨?computing, ?comparing, ?counting, ?dividing⟩
  case computing =>
    rintro s t sd sa sb b _ _ _ rfl rfl rfl
    refine ⟨?add, ?sub, ?and, ?or, ?xor, ?andn, ?mul, ?mulh, ?mulhu⟩
    case mul => exact aluOp_gives rfl (mul_eq_ofNat _ _)
    all_goals exact aluOp_gives rfl rfl
  case comparing =>
    rintro s t sd sa b c _ _ _ rfl rfl rfl
    refine ⟨?slt, ?sltu, ?seq, ?min, ?max, ?minu, ?maxu, ?shl, ?shr, ?sra⟩
    case slt => exact aluOp_gives rfl (boolW_eq_ite BitVec.slt_iff_toInt_lt)
    case sltu => exact aluOp_gives rfl (boolW_eq_ite BitVec.ult_iff_toNat_lt)
    case seq => exact aluOp_gives rfl (boolW_eq_ite beq_iff_eq)
    case min => exact aluOp_gives rfl (minSigned_eq _ _)
    case max => exact aluOp_gives rfl (maxSigned_eq _ _)
    case minu => exact aluOp_gives rfl (minUnsigned_eq _ _)
    case maxu => exact aluOp_gives rfl (maxUnsigned_eq _ _)
    case shl => exact shiftOp_gives rfl (shiftLeft_eq_ofNat _ _)
    case shr => exact shiftOp_gives rfl (ushiftRight_eq_ofNat _ _)
    case sra => exact shiftOp_gives rfl (sshiftRight_eq_ofInt _ _)
  case counting =>
    rintro s t sd sa _ rfl
    refine ⟨?popc, ?clz, ?ctz, ?li, ?lih⟩
    case popc => exact unaryOp_gives rfl (congrArg _ (popc_eq_length_filter _))
    case clz => exact fun n hn hz ho => unaryOp_gives rfl (congrArg _ (clz_eq hn hz ho))
    case ctz => exact fun n hn hz ho => unaryOp_gives rfl (congrArg _ (ctz_eq hn hz ho))
    case li => exact fun imm h => coreWrite_ready (fun _ => imm.signExtend 64) rfl h
    case lih =>
      intro imm h
      rw [← lih_value]
      exact coreWrite_ready (fun x => BitVec.ofNat 64 (imm.toNat * 2 ^ 46 + (readS x sd.val).toNat % 2 ^ 46)) rfl h.cons_self
  case dividing =>
    rintro s t sd sa b _ _ rfl rfl
    refine ⟨fun hb => ⟨?div, ?divu, ?rem, ?remu⟩, fun hb => ⟨?div0, ?divu0, ?rem0, ?remu0⟩⟩
    case div => exact divOp_gives hb rfl (div_value _ _)
    case divu => exact divOp_gives hb rfl rfl
    case rem => exact divOp_gives hb rfl (rem_value _ _)
    case remu => exact divOp_gives hb rfl rfl
    all_goals exact divOp_traps hb rfl

end Sys2Proof.Machine
end

section
/-!
PROOFS. The symbol code of access units (spec 08 R290, R291): the powers of α make up the field, and an error within one symbol is found
and corrected.
-/
namespace Sys2Proof.Machine

/-! ### The field GF(2^8) of the symbol code (R290) -/

/-- A product by α is a shift, reduced by the polynomial where bit 7 leaves the byte. -/
theorem gfX_eq_xor {a : Nat} (ha : a < 256) : gfX a = a <<< 1 ^^^ (if a.testBit 7 then 0x11D else 0) := by
  have h7 : a.testBit 7 = !decide (a < 128) := by
    rw [Nat.testBit_eq_decide_div_mod_eq, Bool.eq_iff_iff]
    simp only [decide_eq_true_eq, Bool.not_eq_true', decide_eq_false_iff_not]
    omega
  rw [gfX, h7, Nat.shiftLeft_eq, Nat.mul_comm]
  by_cases h : a < 128 <;> simp [h]

theorem gfX_xor {a b : Nat} (ha : a < 256) (hb : b < 256) : gfX (a ^^^ b) = gfX a ^^^ gfX b := by
  rw [gfX_eq_xor ha, gfX_eq_xor hb, gfX_eq_xor (Nat.xor_lt_two_pow (n := 8) ha hb), Nat.shiftLeft_xor_distrib, Nat.testBit_xor]
  cases a.testBit 7 <;> cases b.testBit 7 <;> simp [Nat.xor_assoc, Nat.xor_comm, Nat.xor_left_comm]

theorem gfX_lt {a : Nat} (ha : a < 256) : gfX a < 256 := by
  revert a
  decide +kernel

theorem eq_zero_of_gfX_eq_zero {a : Nat} (ha : a < 256) (h : gfX a = 0) : a = 0 := by
  revert a
  decide +kernel

theorem gfX_inj {a b : Nat} (ha : a < 256) (hb : b < 256) (h : gfX a = gfX b) : a = b := by
  have hx : gfX (a ^^^ b) = 0 := by rw [gfX_xor ha hb, h, Nat.xor_self]
  exact Nat.xor_eq_zero_iff.1 (eq_zero_of_gfX_eq_zero (Nat.xor_lt_two_pow (n := 8) ha hb) hx)

/-- One round of a product: the running sum and the running multiple of the first factor. -/
def gfMulRound (b : Nat) (acc : Nat × Nat) (i : Nat) : Nat × Nat := (if bit b i then acc.1 ^^^ acc.2 else acc.1, gfX acc.2)

theorem gfMul_eq_foldl (a b : Nat) : gfMul a b = ((List.range 8).foldl (gfMulRound b) (0, a)).1 := rfl

theorem foldl_gfMulRound_gfX (b : Nat) (l : List Nat) {p q : Nat} (hp : p < 256) (hq : q < 256) :
    (l.foldl (gfMulRound b) (gfX p, gfX q)).1 = gfX (l.foldl (gfMulRound b) (p, q)).1 ∧ (l.foldl (gfMulRound b) (p, q)).1 < 256 := by
  induction l generalizing p q with
  | nil => exact ⟨rfl, hp⟩
  | cons i l ih =>
    by_cases h : bit b i
    · simpa [gfMulRound, h, gfX_xor hp hq] using ih (Nat.xor_lt_two_pow (n := 8) hp hq) (gfX_lt hq)
    · simpa [gfMulRound, h] using ih hp (gfX_lt hq)

theorem gfMul_gfX_left {a : Nat} (ha : a < 256) (b : Nat) : gfMul (gfX a) b = gfX (gfMul a b) :=
  (foldl_gfMulRound_gfX b (List.range 8) (p := 0) (by decide) ha).1

theorem gfMul_one_left {b : Nat} (hb : b < 256) : gfMul 1 b = b := by
  revert b
  decide +kernel

/-! ### The powers of α -/

theorem gfPow_zero : gfPow 0 = 1 := rfl

theorem gfPow_succ (n : Nat) : gfPow (n + 1) = gfX (gfPow n) := by
  rw [gfPow, List.range_succ, List.foldl_append]
  rfl

theorem gfPow_lt (n : Nat) : gfPow n < 256 := by
  induction n with
  | zero => decide
  | succ n ih => exact gfPow_succ n ▸ gfX_lt ih

theorem gfPow_ne_zero (n : Nat) : gfPow n ≠ 0 := by
  induction n with
  | zero => decide
  | succ n ih => exact fun h => ih (eq_zero_of_gfX_eq_zero (gfPow_lt n) (gfPow_succ n ▸ h))

theorem gfMul_gfPow (m n : Nat) : gfMul (gfPow m) (gfPow n) = gfPow (m + n) := by
  induction m with
  | zero => rw [gfPow_zero, gfMul_one_left (gfPow_lt n), Nat.zero_add]
  | succ m ih => rw [gfPow_succ, gfMul_gfX_left (gfPow_lt m), ih, Nat.succ_add, gfPow_succ]

theorem gfPow_add_right_inj {m n : Nat} (k : Nat) (h : gfPow (m + k) = gfPow (n + k)) : gfPow m = gfPow n := by
  induction k with
  | zero => exact h
  | succ k ih => exact ih (gfX_inj (gfPow_lt _) (gfPow_lt _) (by rw [← gfPow_succ, ← gfPow_succ]; exact h))

/-- α is primitive: no smaller power of it than the 255th is 1. -/
theorem gfPow_ne_one {n : Nat} (h0 : 0 < n) (hn : n < 255) : gfPow n ≠ 1 :=
  (by decide +kernel : ∀ n < 255, 0 < n → gfPow n ≠ 1) n hn h0

theorem gfPow_add_255 (n : Nat) : gfPow (n + 255) = gfPow n := by
  have h : gfPow 255 = 1 := by decide +kernel
  rw [Nat.add_comm, ← gfMul_gfPow, h, gfMul_one_left (gfPow_lt n)]

theorem gfPow_mod_255 (n : Nat) : gfPow (n % 255) = gfPow n := by
  have h (q r : Nat) : gfPow (r + 255 * q) = gfPow r := by
    induction q with
    | zero => rfl
    | succ q ih => rw [Nat.mul_succ, ← Nat.add_assoc, gfPow_add_255, ih]
  rw [← h (n / 255), Nat.mod_add_div]

theorem gfPow_ne_of_lt {m n : Nat} (h : m < n) (hn : n < m + 255) : gfPow m ≠ gfPow n := fun he => by
  have h1 : gfPow (n - m + m) = gfPow (0 + m) := by rw [Nat.sub_add_cancel h.le, Nat.zero_add, he]
  exact gfPow_ne_one (Nat.sub_pos_of_lt h) (by omega) (gfPow_add_right_inj m h1)

/-- Every byte but 0 is a power of α: the 255 powers differ from each other, and there are no more bytes. -/
theorem exists_gfPow_eq {x : Nat} (h0 : 0 < x) (hx : x < 256) : ∃ m, gfPow m = x := by
  have hmaps : Set.MapsTo gfPow (Finset.range 255) (Finset.Ioo 0 256) := fun m _ => by
    simpa using ⟨Nat.pos_of_ne_zero (gfPow_ne_zero m), gfPow_lt m⟩
  have hinj : Set.InjOn gfPow (Finset.range 255) := fun m hm n hn he => by
    simp only [Finset.coe_range, Set.mem_Iio] at hm hn
    rcases Nat.lt_trichotomy m n with h | h | h
    · exact absurd he (gfPow_ne_of_lt h (by omega))
    · exact h
    · exact absurd he.symm (gfPow_ne_of_lt h (by omega))
  obtain ⟨m, -, h⟩ := Finset.surjOn_of_injOn_of_card_le gfPow hmaps hinj (by simp) (Finset.mem_coe.2 (Finset.mem_Ioo.2 ⟨h0, hx⟩))
  exact ⟨m, h⟩

/-! ### An error within one symbol (R291) -/

theorem syndrome_single (i m j : Nat) : syndrome [(i, gfPow m)] j = gfPow (m + i * j) := by
  simp [syndrome, gfPow_mod_255, gfMul_gfPow]

/-- The search for the symbol: of the first 67 powers of α only the i-th takes S_0 to S_1. -/
theorem find_gfPow_ratio {i : Nat} (m : Nat) (hi : i < 67) :
    (List.range 67).find? (fun k => gfMul (gfPow m) (gfPow k) == gfPow (m + i)) = some i := by
  refine List.find?_range_eq_some.2 ⟨by simp [gfMul_gfPow], List.mem_range.2 hi, fun k hk => ?_⟩
  simpa [gfMul_gfPow] using gfPow_ne_of_lt (m := m + k) (n := m + i) (by omega) (by omega)

theorem decodeUnit_single {i x : Nat} (hi : i < 67) (h0 : 0 < x) (hx : x < 256) : decodeUnit [(i, x)] = (.corrected, some (i, x)) := by
  obtain ⟨m, rfl⟩ := exists_gfPow_eq h0 hx
  have hsquare : gfMul (gfPow (m + i)) (gfPow (m + i)) = gfMul (gfPow m) (gfPow (m + i * 2)) := by
    rw [gfMul_gfPow, gfMul_gfPow]
    congr 1
    omega
  simp [decodeUnit, syndrome_single, gfPow_ne_zero, hsquare, find_gfPow_ratio m hi]

theorem errXor_single_self (i : Nat) {x : Nat} (hx : x < 256) : errXor [(i, x)] [(i, x)] = [] := by
  simp [errXor, mget, mset, mdel, Nat.mod_eq_of_lt hx]

end Sys2Proof.Machine
end

section
/-!
PROOFS. The SEC-DED code of SRAM words (spec 08 R295, R296): check bits and syndromes are linear, a codeword's syndrome is 0, one wrong bit
is found and corrected, and two are detected.
-/
namespace Sys2Proof.Machine

/-! ### The check bits of a word (R295) -/

theorem columns_eq_filter : columns = ((List.range 128).filter fun p => ((List.range 7).filter (bit p)).length == 3).take 32 := by
  decide +kernel

theorem bit_eq_testBit (x i : Nat) : bit x i = x.testBit i := by
  rw [Nat.testBit_eq_decide_div_mod_eq]
  rfl

/-- The XOR of the columns of the data bits among `l` that are set. -/
def xorColumns (d : BitVec 32) : List Nat → Nat
  | [] => 0
  | k :: l => (if d.getLsbD k then columns.getD k 0 else 0) ^^^ xorColumns d l

theorem checkBits_eq_xorColumns (d : BitVec 32) : checkBits d = xorColumns d (List.range 32) := by
  have hfold (l : List Nat) (h : Nat) :
      (l.map fun k => (columns.getD k 0, k)).foldl (fun h p => if d.getLsbD p.2 then h ^^^ p.1 else h) h = h ^^^ xorColumns d l := by
    induction l generalizing h with
    | nil => simp [xorColumns]
    | cons k l ih =>
      rw [List.map_cons, List.foldl_cons, ih, xorColumns, ← Nat.xor_assoc]
      cases d.getLsbD k <;> simp
  have hcols : columns.zipIdx = (List.range 32).map fun k => (columns.getD k 0, k) := by decide +kernel
  rw [checkBits, hcols, hfold, Nat.zero_xor]

theorem succ_mod_two_beq_one (n : Nat) : ((n + 1) % 2 == 1) = !(n % 2 == 1) := by
  rw [Bool.eq_iff_iff]
  simp only [beq_iff_eq, Bool.not_eq_true', beq_eq_false_iff_ne]
  omega

theorem testBit_xorColumns (d : BitVec 32) (l : List Nat) (j : Nat) :
    (xorColumns d l).testBit j = ((l.filter fun k => d.getLsbD k && bit (columns.getD k 0) j).length % 2 == 1) := by
  induction l with
  | nil => simp [xorColumns]
  | cons k l ih =>
    have hk : (if d.getLsbD k then columns.getD k 0 else 0).testBit j = (d.getLsbD k && bit (columns.getD k 0) j) := by
      rw [bit_eq_testBit]
      cases d.getLsbD k <;> simp
    rw [xorColumns, Nat.testBit_xor, hk, ih, List.filter_cons]
    cases d.getLsbD k && bit (columns.getD k 0) j <;> simp [succ_mod_two_beq_one]

theorem xorColumns_xor (d e : BitVec 32) (l : List Nat) : xorColumns (d ^^^ e) l = xorColumns d l ^^^ xorColumns e l := by
  induction l with
  | nil => simp [xorColumns]
  | cons k l ih =>
    rw [xorColumns, xorColumns, xorColumns, ih, BitVec.getLsbD_xor]
    cases d.getLsbD k <;> cases e.getLsbD k <;> simp [Nat.xor_assoc, Nat.xor_comm, Nat.xor_left_comm]

theorem column_lt (k : Nat) : columns.getD k 0 < 2 ^ 7 := by
  rcases Nat.lt_or_ge k columns.length with h | h
  · rw [List.getD_eq_getElem _ _ h]
    exact (by decide : ∀ c ∈ columns, c < 2 ^ 7) _ (List.getElem_mem h)
  · rw [List.getD_eq_default _ _ h]
    decide

theorem xorColumns_lt (d : BitVec 32) (l : List Nat) : xorColumns d l < 2 ^ 7 := by
  induction l with
  | nil => simp [xorColumns]
  | cons k l ih =>
    refine Nat.xor_lt_two_pow ?_ ih
    split
    · exact column_lt k
    · decide

theorem bit_checkBits (d : BitVec 32) (j : Nat) :
    bit (checkBits d) j = (((List.range 32).filter fun k => d.getLsbD k && bit (columns.getD k 0) j).length % 2 == 1) := by
  rw [bit_eq_testBit, checkBits_eq_xorColumns, testBit_xorColumns]

theorem checkBits_xor (d e : BitVec 32) : checkBits (d ^^^ e) = checkBits d ^^^ checkBits e := by
  simp only [checkBits_eq_xorColumns, xorColumns_xor]

theorem checkBits_lt (d : BitVec 32) : checkBits d < 2 ^ 7 := checkBits_eq_xorColumns d ▸ xorColumns_lt d _

/-! ### Codewords and their syndromes (R295, R296) -/

theorem encodeWord_toNat (d : BitVec 32) : (encodeWord d).toNat = checkBits d * 2 ^ 32 + d.toNat := by
  have h := checkBits_lt d
  rw [encodeWord, BitVec.toNat_ofNat]
  omega

theorem encodeWord_data (d : BitVec 32) : (encodeWord d).setWidth 32 = d := by
  refine BitVec.eq_of_toNat_eq ?_
  rw [BitVec.toNat_setWidth, encodeWord_toNat]
  omega

theorem encodeWord_checkBits (d : BitVec 32) : (encodeWord d).toNat / 2 ^ 32 = checkBits d := by
  rw [encodeWord_toNat]
  omega

theorem wordSyndrome_xor (v w : BitVec 39) : wordSyndrome (v ^^^ w) = wordSyndrome v ^^^ wordSyndrome w := by
  simp only [wordSyndrome, BitVec.setWidth_xor, checkBits_xor, BitVec.toNat_xor, Nat.xor_div_two_pow]
  ac_rfl

theorem wordSyndrome_encodeWord (d : BitVec 32) : wordSyndrome (encodeWord d) = 0 := by
  rw [wordSyndrome, encodeWord_data, encodeWord_checkBits, Nat.xor_self]

/-- The syndrome of a codeword with bit k wrong and no other: the column of a data bit, and the check bit itself. -/
def bitColumn (k : Nat) : Nat := if k < 32 then columns.getD k 0 else 2 ^ (k - 32)

theorem wordSyndrome_single {k : Nat} (hk : k < 39) : wordSyndrome (BitVec.ofNat 39 (2 ^ k)) = bitColumn k := by
  revert k
  decide +kernel

/-! ### The decision (R296) -/

theorem decodeWord_clean {w : BitVec 39} (h : wordSyndrome w = 0) : decodeWord w = .clean := if_pos h

theorem decodeWord_data_bit {w : BitVec 39} {k : Nat} (hk : k < 32) (h : wordSyndrome w = columns.getD k 0) : decodeWord w = .corrected k := by
  have hfind : ∀ k < 32, columns.getD k 0 ≠ 0 ∧ columns.zipIdx.find? (fun p => p.1 == columns.getD k 0) = some (columns.getD k 0, k) := by
    decide +kernel
  obtain ⟨hne, hsome⟩ := hfind k hk
  rw [decodeWord, h, hsome, if_neg hne]

theorem decodeWord_check_bit {w : BitVec 39} {j : Nat} (hj : j < 7) (h : wordSyndrome w = 2 ^ j) : decodeWord w = .corrected (32 + j) := by
  have hfind : ∀ j < 7, columns.zipIdx.find? (fun p => p.1 == 2 ^ j) = none ∧ (List.range 7).find? (fun i => 2 ^ i == 2 ^ j) = some j := by
    decide +kernel
  obtain ⟨hnone, hsome⟩ := hfind j hj
  rw [decodeWord, h, hnone, hsome, if_neg (Nat.two_pow_pos j).ne']

theorem decodeWord_uncorrectable {w : BitVec 39} (h0 : wordSyndrome w ≠ 0) (hc : wordSyndrome w ∉ columns)
    (hb : ∀ j, j < 7 → wordSyndrome w ≠ 2 ^ j) : decodeWord w = .uncorrectable := by
  have hcol : columns.zipIdx.find? (fun p => p.1 == wordSyndrome w) = none :=
    List.find?_eq_none.2 fun p hp he => hc (beq_iff_eq.1 he ▸ List.fst_mem_of_mem_zipIdx hp)
  have hbit : (List.range 7).find? (fun j => 2 ^ j == wordSyndrome w) = none :=
    List.find?_eq_none.2 fun j hj he => hb j (List.mem_range.1 hj) (beq_iff_eq.1 he).symm
  rw [decodeWord, hcol, hbit, if_neg h0]

theorem decodeWord_bitColumn {w : BitVec 39} {k : Nat} (hk : k < 39) (h : wordSyndrome w = bitColumn k) : decodeWord w = .corrected k := by
  unfold bitColumn at h
  split at h
  · exact decodeWord_data_bit ‹_› h
  · rw [decodeWord_check_bit (by omega) h, Nat.add_sub_cancel' (by omega)]

/-! ### One wrong bit and two (R296) -/

/-- Is the number of set bits among the lowest n odd? -/
def oddWeight : Nat → Nat → Bool
  | 0, _ => false
  | n + 1, x => x.testBit n ^^ oddWeight n x

theorem oddWeight_xor (n x y : Nat) : oddWeight n (x ^^^ y) = (oddWeight n x ^^ oddWeight n y) := by
  induction n with
  | zero => rfl
  | succ n ih => simp only [oddWeight, ih, Nat.testBit_xor, Bool.xor_assoc, Bool.xor_left_comm]

/-- Every wrong bit has a syndrome of one or of three bits. -/
theorem oddWeight_bitColumn {k : Nat} (hk : k < 39) : oddWeight 7 (bitColumn k) = true := by
  revert k
  decide +kernel

theorem bitColumn_inj {j k : Nat} (hj : j < 39) (hk : k < 39) (h : bitColumn j = bitColumn k) : j = k := by
  have hj' := decodeWord_bitColumn hj (wordSyndrome_single hj)
  rw [decodeWord_bitColumn hk ((wordSyndrome_single hj).trans h)] at hj'
  exact (WordRead.corrected.inj hj').symm

theorem exists_bitColumn_of_mem_columns {x : Nat} (h : x ∈ columns) : ∃ k < 39, x = bitColumn k := by
  obtain ⟨k, hk, rfl⟩ := List.mem_iff_getElem.1 h
  have hk : k < 32 := hk
  exact ⟨k, by omega, by rw [bitColumn, if_pos hk, List.getD_eq_getElem]⟩

theorem two_pow_eq_bitColumn (j : Nat) : 2 ^ j = bitColumn (32 + j) := by
  rw [bitColumn, if_neg (by omega), Nat.add_sub_cancel_left]

/-- A syndrome other than 0 with an even number of set bits is none of a single wrong bit. -/
theorem decodeWord_even {w : BitVec 39} (h0 : wordSyndrome w ≠ 0) (he : oddWeight 7 (wordSyndrome w) = false) : decodeWord w = .uncorrectable := by
  have hne (k : Nat) (hk : k < 39) : wordSyndrome w ≠ bitColumn k := fun h => by
    rw [h, oddWeight_bitColumn hk] at he
    exact absurd he (by decide)
  refine decodeWord_uncorrectable h0 (fun hc => ?_) fun j hj => ?_
  · obtain ⟨k, hk, h⟩ := exists_bitColumn_of_mem_columns hc
    exact hne k hk h
  · exact two_pow_eq_bitColumn j ▸ hne (32 + j) (by omega)

/-- A word with bit k wrong. -/
theorem wordSyndrome_flip (w : BitVec 39) {k : Nat} (hk : k < 39) :
    wordSyndrome (w ^^^ BitVec.ofNat 39 (2 ^ k)) = wordSyndrome w ^^^ bitColumn k := by
  rw [wordSyndrome_xor, wordSyndrome_single hk]

theorem decodeWord_one_wrong_bit (d : BitVec 32) {k : Nat} (hk : k < 39) :
    decodeWord (encodeWord d ^^^ BitVec.ofNat 39 (2 ^ k)) = .corrected k :=
  decodeWord_bitColumn hk (by rw [wordSyndrome_flip _ hk, wordSyndrome_encodeWord, Nat.zero_xor])

theorem decodeWord_two_wrong_bits (d : BitVec 32) {j k : Nat} (hj : j < 39) (hk : k < 39) (hjk : j ≠ k) :
    decodeWord (encodeWord d ^^^ BitVec.ofNat 39 (2 ^ j) ^^^ BitVec.ofNat 39 (2 ^ k)) = .uncorrectable := by
  have hs : wordSyndrome (encodeWord d ^^^ BitVec.ofNat 39 (2 ^ j) ^^^ BitVec.ofNat 39 (2 ^ k)) = bitColumn j ^^^ bitColumn k := by
    rw [wordSyndrome_flip _ hk, wordSyndrome_flip _ hj, wordSyndrome_encodeWord, Nat.zero_xor]
  refine decodeWord_even ?_ ?_
  · rw [hs]
    exact fun h => hjk (bitColumn_inj hj hk (Nat.xor_eq_zero_iff.1 h))
  · rw [hs, oddWeight_xor, oddWeight_bitColumn hj, oddWeight_bitColumn hk]
    rfl

theorem wordData_clean {w : BitVec 39} (h : decodeWord w = .clean) : wordData w = w.setWidth 32 := by
  rw [wordData, h]

theorem wordData_corrected {w : BitVec 39} {k : Nat} (h : decodeWord w = .corrected k) :
    wordData w = (w ^^^ BitVec.ofNat 39 (2 ^ k)).setWidth 32 := by
  rw [wordData, h]

theorem wordData_one_wrong_bit (d : BitVec 32) {k : Nat} (hk : k < 39) : wordData (encodeWord d ^^^ BitVec.ofNat 39 (2 ^ k)) = d := by
  rw [wordData_corrected (decodeWord_one_wrong_bit d hk), BitVec.xor_assoc, BitVec.xor_self, BitVec.xor_zero, encodeWord_data]

end Sys2Proof.Machine
end

section
/-!
PROOFS. The interleave (spec 08 R277, R278): in each mode the place of a granule determines the granule and is within its range; and the
statement `SingleSymbolErrorsAreCorrected`.
-/
namespace Sys2Proof.Machine

/-! ### Fields of a granule index -/

theorem bits_lt (x hi lo : Nat) : bits x hi lo < 2 ^ (hi + 1 - lo) := Nat.mod_lt _ (Nat.two_pow_pos _)

/-- Two numbers agree on a field exactly where they agree on each of its bits. -/
theorem bits_eq_iff {x y hi lo : Nat} : bits x hi lo = bits y hi lo ↔ ∀ i, lo ≤ i → i ≤ hi → x.testBit i = y.testBit i := by
  have htest (z i : Nat) : (bits z hi lo).testBit i = (decide (i < hi + 1 - lo) && z.testBit (i + lo)) := by
    rw [bits, Nat.testBit_mod_two_pow, Nat.testBit_div_two_pow]
  constructor
  · intro h i hl hh
    have ht := congrArg (Nat.testBit · (i - lo)) h
    simpa [htest, Nat.sub_add_cancel hl, show i - lo < hi + 1 - lo by omega] using ht
  · refine fun h => Nat.eq_of_testBit_eq fun i => ?_
    rw [htest, htest]
    by_cases hi : i < hi + 1 - lo
    · rw [h (i + lo) (by omega) (by omega)]
    · simp [hi]

theorem bits_eq_of_within {x y hi lo : Nat} (h : bits x hi lo = bits y hi lo) {hi' lo' : Nat} (hl : lo ≤ lo') (hh : hi' ≤ hi) :
    bits x hi' lo' = bits y hi' lo' := bits_eq_iff.2 fun i h1 h2 => bits_eq_iff.1 h i (hl.trans h1) (h2.trans hh)

/-- A field that agrees and the one just below it that agrees make one that agrees. -/
theorem bits_eq_join {x y hi mid lo : Nat} (hhi : bits x hi (mid + 1) = bits y hi (mid + 1)) (hlo : bits x mid lo = bits y mid lo) :
    bits x hi lo = bits y hi lo := bits_eq_iff.2 fun i h1 h2 => by
  rcases Nat.lt_or_ge mid i with h | h
  · exact bits_eq_iff.1 hhi i h h2
  · exact bits_eq_iff.1 hlo i h1 h

theorem eq_of_bits_eq {x y n : Nat} (hx : x < 2 ^ (n + 1)) (hy : y < 2 ^ (n + 1)) (h : bits x n 0 = bits y n 0) : x = y := by
  simpa [bits, Nat.mod_eq_of_lt hx, Nat.mod_eq_of_lt hy] using h

theorem eq_of_xor_eq_xor {u v u' v' : Nat} (h : u ^^^ v = u' ^^^ v') (hv : v = v') : u = u' := by
  subst hv
  exact Nat.xor_left_inj.1 h

/-- The step of R278: where two indices agree on their bits from mid + 1 up, and on the field below hashed with a field of those bits, they
agree on that field too. -/
theorem bits_eq_unhash {x y hi mid lo p q : Nat} (h : bits x hi (mid + 1) = bits y hi (mid + 1))
    (hash : bits x mid lo ^^^ bits x p q = bits y mid lo ^^^ bits y p q) (hq : mid + 1 ≤ q := by decide) (hp : p ≤ hi := by decide) :
    bits x hi lo = bits y hi lo :=
  bits_eq_join h (eq_of_xor_eq_xor hash (bits_eq_of_within h hq hp))

/-! ### The places of R278 as functions of the granule index -/

/-- The index of a granule in its quad (R277). -/
def granuleOf (a : Nat) : Nat := (if isLpddr a then (a - 0x10000000000) % 0x1000000000 else a % 0x800000000) / 256

/-- The place of granule g of a stacked quad. -/
def stackedPlace (mode g : Nat) : Place :=
  match mode with
  | 1 => ⟨2 * (g / 2 ^ 25) + (bits (g % 2 ^ 25) 0 0 ^^^ bits (g % 2 ^ 25) 24 24), bits (g % 2 ^ 25) 6 1 ^^^ bits (g % 2 ^ 25) 23 18,
      bits (g % 2 ^ 25) 10 7 ^^^ bits (g % 2 ^ 25) 17 14, bits (g % 2 ^ 25) 24 11⟩
  | 2 => ⟨g / 2 ^ 24, bits (g % 2 ^ 24) 5 0 ^^^ bits (g % 2 ^ 24) 23 18, bits (g % 2 ^ 24) 9 6 ^^^ bits (g % 2 ^ 24) 17 14,
      bits (g % 2 ^ 24) 23 10⟩
  | _ => ⟨bits g 2 0 ^^^ bits g 26 24, bits g 8 3 ^^^ bits g 23 18, bits g 12 9 ^^^ bits g 17 14 ^^^ bits g 13 13, bits g 26 13⟩

/-- The LPDDR channel of a granule, which stands for its package and its channel of the package. -/
def lpddrChannel (mode g : Nat) : Nat :=
  match mode with
  | 1 => 16 * (g / 2 ^ 26) + (bits (g % 2 ^ 26) 3 0 ^^^ bits (g % 2 ^ 26) 25 22)
  | 2 => 4 * (g / 2 ^ 24) + (bits (g % 2 ^ 24) 1 0 ^^^ bits (g % 2 ^ 24) 23 22)
  | _ => bits g 5 0 ^^^ bits g 27 22

/-- The bank and the position of granule g of an LPDDR quad. -/
def lpddrBank (mode g : Nat) : Nat × Nat :=
  match mode with
  | 1 => (bits (g % 2 ^ 26) 7 4 ^^^ bits (g % 2 ^ 26) 21 18, bits (g % 2 ^ 26) 25 8)
  | 2 => (bits (g % 2 ^ 24) 5 2 ^^^ bits (g % 2 ^ 24) 21 18, bits (g % 2 ^ 24) 23 6)
  | _ => (bits g 9 6 ^^^ bits g 21 18, bits g 27 10)

/-- The place of granule g of an LPDDR quad. -/
def lpddrPlace (mode g : Nat) : Place := ⟨8 + lpddrChannel mode g / 4, lpddrChannel mode g % 4, (lpddrBank mode g).1, (lpddrBank mode g).2⟩

theorem granuleOf_stacked {a : Nat} (h : isLpddr a = false) : granuleOf a = a % 0x800000000 / 256 := by simp [granuleOf, h]

theorem granuleOf_lpddr {a : Nat} (h : isLpddr a = true) : granuleOf a = (a - 0x10000000000) % 0x1000000000 / 256 := by simp [granuleOf, h]

theorem hash_lt {x y n hi lo hi' lo' : Nat} (h : hi + 1 - lo = n) (h' : hi' + 1 - lo' = n) : bits x hi lo ^^^ bits y hi' lo' < 2 ^ n :=
  Nat.xor_lt_two_pow (h ▸ bits_lt x hi lo) (h' ▸ bits_lt y hi' lo')

theorem placeOf_stacked {mode a : Nat} (hm : mode < 3) (h : isLpddr a = false) : placeOf mode a = stackedPlace mode (granuleOf a) := by
  rw [granuleOf_stacked h, placeOf, if_neg (by simp [h])]
  match mode, hm with
  | 0, _ => rfl
  | 1, _ => simp [stackedPlace, Nat.div_div_eq_div_mul]
  | 2, _ => simp [stackedPlace, Nat.div_div_eq_div_mul]

theorem placeOf_lpddr {mode a : Nat} (hm : mode < 3) (h : isLpddr a = true) : placeOf mode a = lpddrPlace mode (granuleOf a) := by
  rw [granuleOf_lpddr h, placeOf, if_pos h]
  match mode, hm with
  | 0, _ => simp [lpddrPlace, lpddrChannel, lpddrBank]
  | 1, _ => simp [lpddrPlace, lpddrChannel, lpddrBank, Nat.div_div_eq_div_mul]
  | 2, _ =>
    have hc (g : Nat) : bits g 1 0 ^^^ bits g 23 22 < 4 := hash_lt (n := 2) rfl rfl
    simp [lpddrPlace, lpddrChannel, lpddrBank, Nat.div_div_eq_div_mul, Nat.mul_add_div, Nat.div_eq_of_lt (hc _), Nat.mod_eq_of_lt (hc _)]

/-! ### Different granules have different places -/

theorem mul_add_inj {n d e r t : Nat} (hr : r < n) (ht : t < n) (h : n * d + r = n * e + t) : d = e ∧ r = t := by
  have hn : 0 < n := Nat.zero_lt_of_lt hr
  constructor
  · simpa [Nat.mul_add_div hn, Nat.div_eq_of_lt hr, Nat.div_eq_of_lt ht] using congrArg (· / n) h
  · simpa [Nat.mod_eq_of_lt hr, Nat.mod_eq_of_lt ht] using congrArg (· % n) h

/-- Two granules in the same piece of a quad that agree on all bits of the index within the piece are one. -/
theorem eq_of_piece_eq {g k : Nat} (n : Nat) (hd : g / 2 ^ (n + 1) = k / 2 ^ (n + 1))
    (h : bits (g % 2 ^ (n + 1)) n 0 = bits (k % 2 ^ (n + 1)) n 0) : g = k :=
  Nat.ext_div_mod hd (eq_of_bits_eq (Nat.mod_lt _ (Nat.two_pow_pos _)) (Nat.mod_lt _ (Nat.two_pow_pos _)) h)

theorem stackedPlace_inj {mode g k : Nat} (hm : mode < 3) (hg : g < 2 ^ 27) (hk : k < 2 ^ 27) (h : stackedPlace mode g = stackedPlace mode k) :
    g = k := by
  match mode, hm with
  | 0, _ =>
    obtain ⟨hstack, hchan, hbank, hpos⟩ := Place.mk.inj h
    have hbit13 : bits g 13 13 = bits k 13 13 := bits_eq_of_within hpos (by decide) (by decide)
    have hbank := bits_eq_unhash hpos (eq_of_xor_eq_xor hbank hbit13)
    exact eq_of_bits_eq hg hk (bits_eq_unhash (bits_eq_unhash hbank hchan) hstack)
  | 1, _ =>
    obtain ⟨hstack, hchan, hbank, hpos⟩ := Place.mk.inj h
    obtain ⟨hslice, hstack⟩ := mul_add_inj (hash_lt (n := 1) rfl rfl) (hash_lt (n := 1) rfl rfl) hstack
    exact eq_of_piece_eq 24 hslice (bits_eq_unhash (bits_eq_unhash (bits_eq_unhash hpos hbank) hchan) hstack)
  | 2, _ =>
    obtain ⟨hstack, hchan, hbank, hpos⟩ := Place.mk.inj h
    exact eq_of_piece_eq 23 hstack (bits_eq_unhash (bits_eq_unhash hpos hbank) hchan)

theorem lpddrPlace_inj {mode g k : Nat} (hm : mode < 3) (hg : g < 2 ^ 28) (hk : k < 2 ^ 28) (h : lpddrPlace mode g = lpddrPlace mode k) :
    g = k := by
  obtain ⟨hpackage, hchan, hbank, hpos⟩ := Place.mk.inj h
  have hc : lpddrChannel mode g = lpddrChannel mode k := by omega
  match mode, hm with
  | 0, _ => exact eq_of_bits_eq hg hk (bits_eq_unhash (bits_eq_unhash hpos hbank) hc)
  | 1, _ =>
    obtain ⟨hslice, hc⟩ := mul_add_inj (hash_lt (n := 4) rfl rfl) (hash_lt (n := 4) rfl rfl) hc
    exact eq_of_piece_eq 25 hslice (bits_eq_unhash (bits_eq_unhash hpos hbank) hc)
  | 2, _ =>
    obtain ⟨hpackage, hc⟩ := mul_add_inj (hash_lt (n := 2) rfl rfl) (hash_lt (n := 2) rfl rfl) hc
    exact eq_of_piece_eq 23 hpackage (bits_eq_unhash (bits_eq_unhash hpos hbank) hc)

/-! ### Every part of a place is within its range -/

theorem stackedPlace_range {mode g : Nat} (hm : mode < 3) (hg : g < 2 ^ 27) :
    (stackedPlace mode g).ctl < 8 ∧ (stackedPlace mode g).chan < 64 ∧ (stackedPlace mode g).bank < 16 := by
  match mode, hm with
  | 0, _ =>
    have hbit13 : bits g 13 13 < 2 ^ 4 := (bits_lt g 13 13).trans (by decide)
    exact ⟨hash_lt (n := 3) rfl rfl, hash_lt (n := 6) rfl rfl, Nat.xor_lt_two_pow (n := 4) (hash_lt rfl rfl) hbit13⟩
  | 1, _ =>
    have hstack : bits (g % 2 ^ 25) 0 0 ^^^ bits (g % 2 ^ 25) 24 24 < 2 ^ 1 := hash_lt rfl rfl
    refine ⟨?_, hash_lt (n := 6) rfl rfl, hash_lt (n := 4) rfl rfl⟩
    show 2 * (g / 2 ^ 25) + (bits (g % 2 ^ 25) 0 0 ^^^ bits (g % 2 ^ 25) 24 24) < 8
    omega
  | 2, _ => exact ⟨Nat.div_lt_of_lt_mul hg, hash_lt (n := 6) rfl rfl, hash_lt (n := 4) rfl rfl⟩

theorem lpddrChannel_lt {mode g : Nat} (hm : mode < 3) (hg : g < 2 ^ 28) : lpddrChannel mode g < 64 := by
  match mode, hm with
  | 0, _ => exact hash_lt (n := 6) rfl rfl
  | 1, _ =>
    have hc : bits (g % 2 ^ 26) 3 0 ^^^ bits (g % 2 ^ 26) 25 22 < 2 ^ 4 := hash_lt rfl rfl
    simp only [lpddrChannel]
    omega
  | 2, _ =>
    have hc : bits (g % 2 ^ 24) 1 0 ^^^ bits (g % 2 ^ 24) 23 22 < 2 ^ 2 := hash_lt rfl rfl
    simp only [lpddrChannel]
    omega

theorem lpddrBank_lt {mode : Nat} (hm : mode < 3) (g : Nat) : (lpddrBank mode g).1 < 16 := by
  match mode, hm with
  | 0, _ => exact hash_lt (n := 4) rfl rfl
  | 1, _ => exact hash_lt (n := 4) rfl rfl
  | 2, _ => exact hash_lt (n := 4) rfl rfl

theorem lpddrPlace_range {mode g : Nat} (hm : mode < 3) (hg : g < 2 ^ 28) :
    8 ≤ (lpddrPlace mode g).ctl ∧ (lpddrPlace mode g).ctl < 24 ∧ (lpddrPlace mode g).chan < 4 ∧ (lpddrPlace mode g).bank < 16 := by
  have hc := lpddrChannel_lt hm hg
  refine ⟨Nat.le_add_right _ _, ?_, Nat.mod_lt _ (by decide), lpddrBank_lt hm g⟩
  show 8 + lpddrChannel mode g / 4 < 24
  omega

/-! ### Addresses of one quad (R277) -/

theorem isLpddr_iff {a : Nat} : isLpddr a = true ↔ 0x10000000000 ≤ a := decide_eq_true_iff

/-- The addresses of a quad lie all in stacked memory or all in LPDDR. -/
theorem isLpddr_eq_of_quadOf_eq {a b : Nat} (ha : mapped a = true) (hb : mapped b = true) (h : quadOf a = quadOf b) : isLpddr a = isLpddr b := by
  simp only [mapped, quadOf, isLpddr, Bool.or_eq_true, Bool.and_eq_true, decide_eq_true_eq] at *
  rw [decide_eq_decide]
  split at h <;> split at h <;> omega

/-- In one quad, two addresses are of one granule exactly where the granule index is the same. -/
theorem granuleOf_eq_iff {a b : Nat} (hl : isLpddr a = isLpddr b) (h : quadOf a = quadOf b) : granuleOf a = granuleOf b ↔ a / 256 = b / 256 := by
  cases hb : isLpddr b with
  | false =>
    rw [granuleOf_stacked (hl.trans hb), granuleOf_stacked hb]
    simp only [quadOf, hl, hb, Bool.false_eq_true, if_false] at h
    omega
  | true =>
    rw [granuleOf_lpddr (hl.trans hb), granuleOf_lpddr hb]
    simp only [quadOf, hl, hb, if_true] at h
    have ha' := isLpddr_iff.1 (hl.trans hb)
    have hb' := isLpddr_iff.1 hb
    omega

theorem granuleOf_lt_stacked {a : Nat} (h : isLpddr a = false) : granuleOf a < 2 ^ 27 := by
  rw [granuleOf_stacked h]
  omega

theorem granuleOf_lt_lpddr {a : Nat} (h : isLpddr a = true) : granuleOf a < 2 ^ 28 := by
  rw [granuleOf_lpddr h]
  omega

theorem placeOf_eq_iff {mode a b : Nat} (hm : mode < 3) (ha : mapped a = true) (hb : mapped b = true) (h : quadOf a = quadOf b) :
    placeOf mode a = placeOf mode b ↔ a / 256 = b / 256 := by
  have hl := isLpddr_eq_of_quadOf_eq ha hb h
  rw [← granuleOf_eq_iff hl h]
  cases hlb : isLpddr b with
  | false =>
    have hla := hl.trans hlb
    rw [placeOf_stacked hm hla, placeOf_stacked hm hlb]
    exact ⟨stackedPlace_inj hm (granuleOf_lt_stacked hla) (granuleOf_lt_stacked hlb), congrArg _⟩
  | true =>
    have hla := hl.trans hlb
    rw [placeOf_lpddr hm hla, placeOf_lpddr hm hlb]
    exact ⟨lpddrPlace_inj hm (granuleOf_lt_lpddr hla) (granuleOf_lt_lpddr hlb), congrArg _⟩

theorem placeOf_stacked_range {mode a : Nat} (hm : mode < 3) (h : isLpddr a = false) :
    (placeOf mode a).ctl < 8 ∧ (placeOf mode a).chan < 64 ∧ (placeOf mode a).bank < 16 :=
  placeOf_stacked hm h ▸ stackedPlace_range hm (granuleOf_lt_stacked h)

theorem placeOf_lpddr_range {mode a : Nat} (hm : mode < 3) (h : isLpddr a = true) :
    8 ≤ (placeOf mode a).ctl ∧ (placeOf mode a).ctl < 24 ∧ (placeOf mode a).chan < 4 ∧ (placeOf mode a).bank < 16 :=
  placeOf_lpddr hm h ▸ lpddrPlace_range hm (granuleOf_lt_lpddr h)

theorem placeOf_bank_lt {mode : Nat} (hm : mode < 3) (a : Nat) : (placeOf mode a).bank < 16 := by
  cases h : isLpddr a with
  | false => exact (placeOf_stacked_range hm h).2.2
  | true => exact (placeOf_lpddr_range hm h).2.2.2

/-! ### The statement -/

/-- Settles O32: a symbol error is a power of α, and its syndromes are powers whose exponents rise by the symbol's number; a wrong bit of an
SRAM word has its own column of odd weight as syndrome, and two have a sum of even weight; the position of a granule holds every bit that its
hashes use. -/
theorem singleSymbolErrorsAreCorrected : Obligations.SingleSymbolErrorsAreCorrected := by
  unfold Obligations.SingleSymbolErrorsAreCorrected
  refine ⟨?symbol, columns_eq_filter, fun d j => bit_checkBits d j, ?codeword, ?oneBit, ?twoBits, ?decision, ?places⟩
  case symbol => exact fun i x hi h0 hx => ⟨decodeUnit_single hi h0 hx, errXor_single_self i hx⟩
  case codeword =>
    intro d
    have hclean := decodeWord_clean (wordSyndrome_encodeWord d)
    exact ⟨encodeWord_data d, encodeWord_checkBits d, hclean, (wordData_clean hclean).trans (encodeWord_data d)⟩
  case oneBit => exact fun d k => ⟨decodeWord_one_wrong_bit d k.isLt, wordData_one_wrong_bit d k.isLt⟩
  case twoBits => exact fun d j k hjk => decodeWord_two_wrong_bits d j.isLt k.isLt (Fin.val_ne_of_ne hjk)
  case decision =>
    exact fun w => ⟨decodeWord_clean, fun k hk => decodeWord_data_bit hk, fun j hj => decodeWord_check_bit hj, decodeWord_uncorrectable⟩
  case places =>
    intro mode a b hm ha hb hq
    have hplace := placeOf_eq_iff hm ha hb hq
    refine ⟨mt hplace.1, hplace.2, placeOf_bank_lt hm a, fun hl => ?_, fun hl => ?_⟩
    · obtain ⟨hctl, hchan, -⟩ := placeOf_stacked_range hm hl
      exact ⟨hctl, hchan⟩
    · obtain ⟨hlo, hhi, hchan, -⟩ := placeOf_lpddr_range hm hl
      exact ⟨hlo, hhi, hchan⟩

end Sys2Proof.Machine
end

section
/-! PROOFS. The step of the queue, and device memory at reset. -/

namespace Sys2Proof.Machine
/-- Settles O1: `step` reads the queue of commands and runs its head on the state that keeps the tail. -/
theorem stepRunsTheFrontCommand : Obligations.StepRunsTheFrontCommand := by
  unfold Obligations.StepRunsTheFrontCommand
  intro s c rest h
  unfold step
  rw [h]

/-- Settles O59: by the law about the memory of `State.reset`. -/
theorem resetMemoryForm : Obligations.ResetMemoryForm := reset_memory_wf
end Sys2Proof.Machine
end

section
/-! PROOFS. Scalar loads, stores and atomics (O4). -/

namespace Sys2Proof.Machine

/-! ### Accesses of the core -/

/-- The checks of an access and its place behind those that wait (R106). -/
theorem memIssue_issues {s : State} {t : Tid} {w : Word} {reads : List Nat} {sd size hint : Nat} {addr : Tile → Nat} {kind : Tile → ScalarKind} {i : Instr}
    (hi : exec i s = .next (memIssue s t w reads sd size hint addr kind)) :
    IssuesAccess i s t w reads size (addr (s.tile t)) ⟨(s.tile t).pc, (s.tile t).issued, sd, addr (s.tile t), hint, kind (s.tile t)⟩ := by
  intro h
  rw [memIssue, coreStep_ready _ h] at hi
  dsimp only at hi
  refine ⟨fun hm => ⟨_, hi, ?_⟩, fun hm hu => ⟨_, hi, ?_⟩, fun hm hu => ⟨_, hi, ?_⟩⟩
  · rw [if_pos hm]
    exact trap_taken 0 cMISALIGNED _ _ h.1 (by decide) (by decide)
  · rw [if_neg (not_not_intro hm), if_pos (by simp [hu])]
    exact trap_taken 0 cADDR_UNMAPPED _ _ h.1 (by decide) (by decide)
  · rw [if_neg (not_not_intro hm), if_neg (by simp [hu])]
    exact advance_becomes s t _

/-- An instruction of the core that leaves y in its tile and moves past itself. -/
theorem coreStep_advances {s : State} {t : Nat} {w : Word} {reads : List Nat} {body : State → Tile → State} {i : Instr} {y : Tile}
    (hi : exec i s = .next (coreStep s t w reads body)) (h : CoreReady s t w reads) (hb : body s (s.tile t) = advance (s.setTile t y) t) :
    Answers i s fun u => TileBecomes s u t { y with pc := pcNext y } := by
  rw [coreStep_ready _ h, hb] at hi
  exact ⟨_, hi, advance_becomes s t y⟩

/-- An instruction of the core that aborts its task. -/
theorem coreStep_traps {s : State} {t : Nat} {w : Word} {reads : List Nat} {body : State → Tile → State} {i : Instr} {code info : Nat}
    (hi : exec i s = .next (coreStep s t w reads body)) (h : CoreReady s t w reads) (hb : body s (s.tile t) = trap s t 0 code (s.tile t).pc info)
    (hc : code < 256) : TrapsFirst i s t 0 code (s.tile t).pc info := by
  rw [coreStep_ready _ h, hb] at hi
  exact ⟨_, hi, trap_taken 0 code _ info h.1 (by decide) hc⟩

theorem pcNext_writeS (x : Tile) (n : Nat) (v : Word) : pcNext (writeS x n v) = pcNext x := by
  rw [pcNext, writeS_pc, pcNext]

theorem toBytes_length (n x : Nat) : (toBytes n x).length = n := by
  induction n generalizing x with
  | zero => rfl
  | succ n ih => rw [toBytes, List.length_cons, ih]

theorem ldo64_cases {s : State} {t : Tid} {sd sa : SReg} {o : BitVec 34} {a : Nat} (ha : effAddr (s.tile t) sa o = a)
    (h : CoreReady s t (smWord 4 8 sd.val sa.val 0 o.toNat) [sd.val, sa.val]) :
    (a % 8 ≠ 0 → TrapsFirst (.ldo64 t sd sa o) s t 0 0x03 (s.tile t).pc a) ∧
    (a % 8 = 0 → 0x200000 ≤ a → TrapsFirst (.ldo64 t sd sa o) s t 0 0x11 (s.tile t).pc a) ∧
    (a % 8 = 0 → a < 0x200000 → ocUe (s.tile t) [(a, 8)] = none →
      CoreGives (.ldo64 t sd sa o) s t sd.val (BitVec.ofNat 64 (ofBytes (ocBytes (s.tile t) a 8)))) := by
  subst ha
  refine ⟨fun h8 => coreStep_traps rfl h ?_ (by decide), fun h8 hr => coreStep_traps rfl h ?_ (by decide), fun h8 hr hu => ?_⟩
  · dsimp only
    rw [if_pos h8, cMISALIGNED]
  · dsimp only
    rw [if_neg (not_not_intro h8), if_pos (show ocSize ≤ _ from hr), cOC_RANGE]
  · have := coreStep_advances (i := .ldo64 t sd sa o) (y := writeS (s.tile t) sd.val (BitVec.ofNat 64 (ofBytes (ocBytes (s.tile t) (effAddr (s.tile t) sa o) 8)))) rfl h (by
      dsimp only
      rw [if_neg (not_not_intro h8), if_neg (show ¬ ocSize ≤ _ from Nat.not_le.mpr hr), hu])
    rwa [pcNext_writeS] at this

theorem sto64_cases {s : State} {t : Tid} {sd sa : SReg} {o : BitVec 34} {a : Nat} (ha : effAddr (s.tile t) sa o = a)
    (h : CoreReady s t (smWord 5 8 sd.val sa.val 0 o.toNat) [sd.val, sa.val]) :
    (a % 8 ≠ 0 → TrapsFirst (.sto64 t sd sa o) s t 0 0x03 (s.tile t).pc a) ∧
    (a % 8 = 0 → 0x200000 ≤ a → TrapsFirst (.sto64 t sd sa o) s t 0 0x11 (s.tile t).pc a) ∧
    (a % 8 = 0 → a < 0x200000 → inCode (s.tile t) a 8 = true → TrapsFirst (.sto64 t sd sa o) s t 0 0x08 (s.tile t).pc a) ∧
    (a % 8 = 0 → a < 0x200000 → inCode (s.tile t) a 8 = false → Answers (.sto64 t sd sa o) s fun u =>
      TileBecomes s u t { ocPut (s.tile t) a (toBytes 8 (readS (s.tile t) sd.val).toNat) with pc := pcNext (s.tile t) } ∧
      ∀ k, mget memDefault (u.tile t).oc k =
        if a ≤ k ∧ k < a + 8 then (toBytes 8 (readS (s.tile t) sd.val).toNat).getD (k - a) 0 else mget memDefault (s.tile t).oc k) := by
  subst ha
  refine ⟨fun h8 => coreStep_traps rfl h ?_ (by decide), fun h8 hr => coreStep_traps rfl h ?_ (by decide),
    fun h8 hr hc => coreStep_traps rfl h ?_ (by decide), fun h8 hr hc => ?_⟩
  · dsimp only
    rw [if_pos h8, cMISALIGNED]
  · dsimp only
    rw [if_neg (not_not_intro h8), if_pos (show ocSize ≤ _ from hr), cOC_RANGE]
  · dsimp only
    rw [if_neg (not_not_intro h8), if_neg (show ¬ ocSize ≤ _ from Nat.not_le.mpr hr), if_pos hc, cCODE_WRITE]
  · obtain ⟨u, hu, hb⟩ := coreStep_advances (i := .sto64 t sd sa o)
      (y := ocPut (s.tile t) (effAddr (s.tile t) sa o) (toBytes 8 (readS (s.tile t) sd.val).toNat)) rfl h (by
        dsimp only
        rw [if_neg (not_not_intro h8), if_neg (show ¬ ocSize ≤ _ from Nat.not_le.mpr hr), if_neg (by simp [hc])])
    refine ⟨u, hu, hb, fun k => ?_⟩
    rw [hb.1]
    have := mget_putBytesD memDefault (s.tile t).oc (effAddr (s.tile t) sa o) (toBytes 8 (readS (s.tile t) sd.val).toNat) k
    rwa [toBytes_length] at this


/-- A load of the core is one access (R105). -/
theorem load_issues {s : State} {t : Tid} {min size : Nat} {sd sa : SReg} {h : BitVec 2} {o : BitVec 34} {sgn : Bool} {i : Instr}
    (hi : exec i s = .next (loadOp t min sd sa h o size sgn s)) : Loads i s t min sd sa h o size sgn :=
  memIssue_issues hi

theorem store_issues {s : State} {t : Tid} {min size : Nat} {sd sa : SReg} {h : BitVec 2} {o : BitVec 34} {i : Instr}
    (hi : exec i s = .next (storeOp t min sd sa h o size s)) : Stores i s t min sd sa h o size :=
  memIssue_issues hi

theorem atomic_issues {s : State} {t : Tid} {min : Nat} {sd sa sb : SReg} {kind : Tile → ScalarKind} {k : ScalarKind}
    {i : Instr} (hi : exec i s = .next (atomicOp t min sd sa sb kind s)) (hk : kind (s.tile t) = k) : IssuesAtomic i s t min sd sa sb k := by
  subst hk
  exact memIssue_issues hi

/-! ### The completion of an access -/

theorem mem_of_mem_removeAt {α : Type} {l : List α} {i : Nat} {x : α} (h : x ∈ removeAt l i) : x ∈ l := by
  induction l generalizing i with
  | nil => exact h
  | cons y r ih =>
    cases i with
    | zero => exact List.mem_cons_of_mem _ h
    | succ i =>
      rw [removeAt, List.mem_cons] at h
      exact List.mem_cons.mpr (h.imp_right ih)

theorem firstIdx_eq_none {α : Type} {p : α → Bool} {l : List α} (h : ∀ x ∈ l, p x = false) : firstIdx p l = none := by
  induction l with
  | nil => rfl
  | cons y r ih => simp [firstIdx, h y, ih fun x hx => h x (List.mem_cons_of_mem _ hx)]

theorem NoSignals.withoutOp {x : Tile} (h : NoSignals x) (i : Nat) : NoSignals (withoutOp x i) := fun o ho => h o (mem_of_mem_removeAt ho)

theorem flushSignals_of_noSignals (f : Nat) {t : Nat} {s : State} (h : NoSignals (s.tile t)) : flushSignals f t s = s := by
  cases f with
  | zero => rfl
  | succ f => simp only [flushSignals, firstIdx_eq_none h]

theorem ofBytes_lt (l : List Byte) : ofBytes l < 256 ^ l.length := by
  induction l with
  | nil => simp [ofBytes]
  | cons b r ih =>
    rw [ofBytes, List.length_cons, pow_succ]
    have := b.isLt
    omega

theorem ofBytes_memBytes_lt (s : State) (a n : Nat) : ofBytes (memBytes s a n) < 2 ^ (8 * n) := by
  have := ofBytes_lt (memBytes s a n)
  rwa [memBytes_length, show (256 : Nat) = 2 ^ 8 from rfl, ← pow_mul] at this

/-- A value of n bytes fits a register, zero- or sign-extended. -/
theorem extend_toNat {n v : Nat} (hn : n ≤ 8) (hv : v < 2 ^ (8 * n)) : (BitVec.ofNat 64 v).toNat = v := by
  rw [BitVec.toNat_ofNat, Nat.mod_eq_of_lt (lt_of_lt_of_le hv (Nat.pow_le_pow_right (by decide) (by omega)))]

theorem extend_toInt {n : Nat} (v : Nat) (h0 : 0 < n) (hn : n ≤ 8) : (BitVec.ofInt 64 (sx (8 * n) v)).toInt = sx (8 * n) v := by
  have hp : 2 ^ (8 * n - 1) ≤ 2 ^ 63 := Nat.pow_le_pow_right (by decide) (by omega)
  have hd : 2 ^ (8 * n) = 2 * 2 ^ (8 * n - 1) := by rw [← pow_succ']; congr 1; omega
  have hm : v % 2 ^ (8 * n) < 2 ^ (8 * n) := Nat.mod_lt _ (by positivity)
  rw [BitVec.toInt_ofInt, Int.bmod_eq_of_le] <;> unfold sx <;> split <;> omega

/-- What the command does with an operation that nothing holds. -/
theorem scalarMemoryComplete_ready {s : State} {t : Tid} {i : Nat} {o : ScalarOp} (h : OpReady s t i o) :
    isRunning s t = true ∧ (s.tile t).aborting = false ∧ (s.tile t).ops[i]? = some o ∧
    (((s.tile t).ops.take i).any (fun p => rangesMeet p.addr p.size o.addr o.size) || (o.writes && fenced (s.tile t) o.ord)) = false := by
  obtain ⟨hl, ho, hr, hf⟩ := h
  exact ⟨isLive_running hl, isLive_not_aborting hl, ho, by simp only [hr, hf, Bool.or_self]⟩

/-- The value that a load of n bytes leaves in SD (R105). -/
def loadedWord (s : State) (a n : Nat) (sgn : Bool) : Word :=
  if sgn then BitVec.ofInt 64 (sx (8 * n) (ofBytes (memBytes s a n))) else BitVec.ofNat 64 (ofBytes (memBytes s a n))

/-! ### Two writes of one tile -/

theorem mins_mins {V : Type} (m : SMap V) (k : Nat) (v w : V) : mins (mins m k v) k w = mins m k w := by
  induction m with
  | nil => simp [mins]
  | cons p r ih =>
    obtain ⟨j, x⟩ := p
    rcases Nat.lt_trichotomy j k with h | rfl | h
    · simp [mins, h, ih]
    · simp [mins]
    · simp [mins, Nat.lt_asymm h, Nat.ne_of_gt h]

theorem mdel_mins {V : Type} (m : SMap V) (k : Nat) (v : V) : mdel (mins m k v) k = mdel m k := by
  induction m with
  | nil => simp [mins, mdel]
  | cons p r ih =>
    obtain ⟨j, x⟩ := p
    rcases Nat.lt_trichotomy j k with h | rfl | h
    · simp [mins, mdel, h, ih]
    · simp [mins, mdel]
    · simp [mins, mdel, Nat.lt_asymm h, Nat.ne_of_gt h]

/-- Of two writes of one tile the second stands, where the first one was listed. -/
theorem setTile_setTile (s : State) (t : Nat) {x : Tile} (y : Tile) (hx : x ≠ Tile.reset) : (s.setTile t x).setTile t y = s.setTile t y := by
  simp only [State.setTile, mset, if_neg hx, mins_mins, mdel_mins]

theorem withoutOp_ne_reset {s : State} {t : Nat} (i : Nat) (h : isRunning s t = true) : withoutOp (s.tile t) i ≠ Tile.reset := by
  intro hx
  have hp : (s.tile t).phase = .idle := congrArg Tile.phase hx
  simp only [isRunning, tileState, hp] at h
  split at h <;> exact absurd h (by decide)

section Complete
variable {s : State} {t : Tid} {i : Nat} {o : ScalarOp}

theorem exec_load {n : Nat} {sgn : Bool} {v : State} (h : OpReady s t i o) (hk : o.kind = .load n sgn)
    (hv : memReadH (s.setTile t (withoutOp (s.tile t) i)) o.addr n o.hint = ⟨memBytes s o.addr n, none, v⟩) :
    exec (.scalarMemoryComplete t i) s = .next (v.onTile t fun x => writeS x o.sd (loadedWord s o.addr n sgn)) := by
  obtain ⟨hr, ha, ho, hb⟩ := scalarMemoryComplete_ready h
  show execScalarMemoryComplete t i s = _
  simp only [execScalarMemoryComplete, sameCycle_live _ h.1, hr, ho, hb, hk, hv, ha]
  rfl

theorem exec_store {n : Nat} {d : Word} (h : OpReady s t i o) (hk : o.kind = .store n d) : exec (.scalarMemoryComplete t i) s =
    .next (flushSignals ((s.tile t).ops.length + 1) t (memWriteH false (s.setTile t (withoutOp (s.tile t) i)) o.addr (toBytes n d.toNat) o.hint)) := by
  obtain ⟨hr, ha, ho, hb⟩ := scalarMemoryComplete_ready h
  show execScalarMemoryComplete t i s = _
  simp only [execScalarMemoryComplete, sameCycle_live _ h.1, hr, ho, hb, hk]
  rfl

/-- A read-modify-write of the table of R107 that takes the word old to new. -/
def Modifies (k : ScalarKind) (old new : Word) : Prop :=
  ∃ b e, k = .aadd b ∧ new = old + b ∨ k = .aswap b ∧ new = b ∨ k = .acas b e ∧ new = (if old = e then b else old) ∨ k = .aor b ∧ new = old ||| b

theorem Modifies.atomicNew_eq {k : ScalarKind} {old new : Word} (h : Modifies k old new) : atomicNew k old = new := by
  obtain ⟨b, e, ⟨rfl, rfl⟩ | ⟨rfl, rfl⟩ | ⟨rfl, rfl⟩ | ⟨rfl, rfl⟩⟩ := h <;> rfl

/-- What the command answers for any operation that is no load, store or signal. -/
theorem exec_modify {k : ScalarKind} {v : State} (h : OpReady s t i o) (hk : o.kind = k)
    (hl : ∀ n g, k ≠ .load n g) (hs : ∀ n d, k ≠ .store n d) (hg : ∀ a b, k ≠ .signal a b)
    (hv : memReadH (s.setTile t (withoutOp (s.tile t) i)) o.addr 8 o.hint = ⟨memBytes s o.addr 8, none, v⟩) :
    exec (.scalarMemoryComplete t i) s = .next (flushSignals ((s.tile t).ops.length + 1) t
      ((memWriteH false v o.addr (toBytes 8 (atomicNew k (BitVec.ofNat 64 (ofBytes (memBytes s o.addr 8)))).toNat) o.hint).onTile t fun x =>
        writeS x o.sd (BitVec.ofNat 64 (ofBytes (memBytes s o.addr 8))))) := by
  obtain ⟨hr, ha, ho, hb⟩ := scalarMemoryComplete_ready h
  show execScalarMemoryComplete t i s = _
  simp only [execScalarMemoryComplete, sameCycle_live _ h.1, hr, ho, hb, hv, ha, hk]
  cases k with
  | load n g => exact absurd rfl (hl n g)
  | store n d => exact absurd rfl (hs n d)
  | signal a b => exact absurd rfl (hg a b)
  | aadd b => rfl
  | aswap b => rfl
  | acas b e => rfl
  | aor b => rfl

theorem exec_atomic {old new : Word} {v : State} (h : OpReady s t i o) (hk : Modifies o.kind old new)
    (hold : old = BitVec.ofNat 64 (ofBytes (memBytes s o.addr 8)))
    (hv : memReadH (s.setTile t (withoutOp (s.tile t) i)) o.addr 8 o.hint = ⟨memBytes s o.addr 8, none, v⟩) :
    exec (.scalarMemoryComplete t i) s = .next (flushSignals ((s.tile t).ops.length + 1) t
      ((memWriteH false v o.addr (toBytes 8 new.toNat) o.hint).onTile t fun x => writeS x o.sd old)) := by
  subst hold
  rw [← hk.atomicNew_eq]
  obtain ⟨b, e, ⟨hk, _⟩ | ⟨hk, _⟩ | ⟨hk, _⟩ | ⟨hk, _⟩⟩ := hk <;>
    exact exec_modify h rfl (by simp [hk]) (by simp [hk]) (by simp [hk]) hv

theorem load_completes {n : Nat} {sgn : Bool} (h : OpReady s t i o) (hk : o.kind = .load n sgn) (h0 : 0 < n) (hn : n ≤ 8) (hf : LinesFine s o.addr n) :
    Answers (.scalarMemoryComplete t i) s fun u => ∃ (v : Word) (w : State),
      CacheMoved s w ∧ u = w.setTile t (writeS (withoutOp (s.tile t) i) o.sd v) ∧
      (sgn = false → v.toNat = ofBytes (memBytes s o.addr n)) ∧ (sgn = true → v.toInt = sx (8 * n) (ofBytes (memBytes s o.addr n))) := by
  obtain ⟨v, hv, hm⟩ := memReadH_fine (s := s.setTile t (withoutOp (s.tile t) i)) o.hint (show LinesFine _ o.addr n from hf)
  refine ⟨_, exec_load h hk hv, loadedWord s o.addr n sgn, { s with mem := v.mem, csr := v.csr }, ⟨hm.1, hm.2.1, hm.2.2.1, rfl⟩, ?tile, ?zero, ?sign⟩
  case tile =>
    obtain ⟨_, _, _, he⟩ := hm
    rw [State.onTile, he]
    show State.setTile (State.setTile { s with mem := v.mem, csr := v.csr } t (withoutOp (s.tile t) i)) t
      (writeS (State.tile (State.setTile { s with mem := v.mem, csr := v.csr } t (withoutOp (s.tile t) i)) t) o.sd (loadedWord s o.addr n sgn)) = _
    rw [tile_setTile_same, setTile_setTile _ _ _ (withoutOp_ne_reset i (isLive_running h.1))]
  case zero =>
    rintro rfl
    exact extend_toNat hn (ofBytes_memBytes_lt s o.addr n)
  case sign =>
    rintro rfl
    exact extend_toInt _ h0 hn

/-- A write under a hint leaves the operations of the core. -/
theorem HintStored.noSignals {s u : State} {a : Nat} {b : List Byte} {t : Nat} (h : HintStored s u a b) (hs : NoSignals (s.tile t)) : NoSignals (u.tile t) := by
  rw [h.2.1 t]
  exact hs

theorem store_completes {n : Nat} {d : Word} (h : OpReady s t i o) (hk : o.kind = .store n d) (hf : LinesFine s o.addr n) (hs : NoSignals (s.tile t)) :
    Answers (.scalarMemoryComplete t i) s fun u => HintStored (s.setTile t (withoutOp (s.tile t) i)) u o.addr (toBytes n d.toNat) := by
  have hw := (memWriteH_stored (s := s.setTile t (withoutOp (s.tile t) i)) (a := o.addr) false (toBytes n d.toNat) o.hint
    (by rw [toBytes_length]; exact hf)).1
  refine ⟨_, exec_store h hk, ?_⟩
  rwa [flushSignals_of_noSignals]
  exact hw.noSignals (by rw [tile_setTile_same]; exact hs.withoutOp i)

theorem noSignals_writeS {x : Tile} (h : NoSignals x) (n : Nat) (v : Word) : NoSignals (writeS x n v) := by
  unfold writeS
  split
  · exact h
  · exact h

theorem atomic_completes {old new : Word} (h : OpReady s t i o) (hk : Modifies o.kind old new)
    (hf : LinesFine s o.addr 8) (hs : NoSignals (s.tile t)) (hold : old = BitVec.ofNat 64 (ofBytes (memBytes s o.addr 8))) :
    Answers (.scalarMemoryComplete t i) s fun u => ∃ v : State,
      HintStored (s.setTile t (withoutOp (s.tile t) i)) v o.addr (toBytes 8 new.toNat) ∧ u = v.setTile t (writeS (v.tile t) o.sd old) := by
  obtain ⟨v, hv, hm⟩ := memReadH_fine (s := s.setTile t (withoutOp (s.tile t) i)) o.hint (show LinesFine _ o.addr 8 from hf)
  have hw := HintStored.after hm (memWriteH_stored (s := v) (a := o.addr) false (toBytes 8 new.toNat) o.hint
    (by rw [toBytes_length]; exact LinesFine.moved (s := s.setTile t (withoutOp (s.tile t) i)) hf hm)).1
  refine ⟨_, exec_atomic h hk hold hv, _, hw, ?_⟩
  rw [flushSignals_of_noSignals]
  · rfl
  · rw [tile_onTile_same]
    exact noSignals_writeS (hw.noSignals (by rw [tile_setTile_same]; exact hs.withoutOp i)) _ _

end Complete

/-- Settles O4: the checks and the issue are those of one shape for every access, and the completion is a read or a write without error. -/
theorem scalarMemory : Obligations.ScalarMemory := by
  unfold Obligations.ScalarMemory
  refine ⟨?issue, ?core, ?complete⟩
  case issue =>
    intro s t sd sa h o
    exact ⟨load_issues rfl, load_issues rfl, load_issues rfl, load_issues rfl, load_issues rfl, load_issues rfl, load_issues rfl,
      store_issues rfl, store_issues rfl, store_issues rfl, store_issues rfl⟩
  case core =>
    rintro s t sd sa sb o _ a rfl ha
    exact ⟨ldo64_cases ha, sto64_cases ha, atomic_issues rfl rfl, atomic_issues rfl rfl, atomic_issues rfl rfl, atomic_issues rfl rfl⟩
  case complete =>
    intro s t i o h
    refine ⟨fun n sgn hk h0 hn hf => load_completes h hk h0 hn hf, fun n d hk hf hs => store_completes h hk hf hs, ?_⟩
    exact fun old new b e hk hf hs hold => atomic_completes h ⟨b, e, hk⟩ hf hs hold

end Sys2Proof.Machine
end

section
/-! PROOFS. Control flow and tokens (O5). -/

namespace Sys2Proof.Machine

/-! ### Branches and jumps -/

theorem inWindow_writeS (x : Tile) (n : Nat) (v : Word) (pc : Nat) : inWindow (writeS x n v) pc = inWindow x pc := by
  unfold writeS
  split <;> rfl

/-- A jump goes to a target in the code window, and aborts outside it (R108). -/
theorem coreStep_jumps {s : State} {t : Nat} {w : Word} {reads : List Nat} {body : State → Tile → State} {i : Instr} {x : Tile} {target : Int}
    (hi : exec i s = .next (coreStep s t w reads body)) (h : CoreReady s t w reads) (hb : body s (s.tile t) = goTo s t x target)
    (hx : ∀ pc, inWindow x pc = inWindow (s.tile t) pc) : JumpsTo i s t x target := by
  rw [coreStep_ready _ h, hb, goTo, hx] at hi
  constructor
  · intro hin
    rw [if_pos hin] at hi
    exact ⟨_, hi, setTile_becomes s t _⟩
  · intro hout
    rw [if_neg hout] at hi
    exact ⟨_, hi, trap_taken 0 _ _ 0 h.1 (by decide) (by decide)⟩

theorem coreStep_moves {s : State} {t : Nat} {w : Word} {reads : List Nat} {body : State → Tile → State} {i : Instr}
    (hi : exec i s = .next (coreStep s t w reads body)) (h : CoreReady s t w reads) (hb : body s (s.tile t) = advance s t) :
    Answers i s fun u => TileBecomes s u t { s.tile t with pc := pcNext (s.tile t) } := by
  rw [coreStep_ready _ h, hb] at hi
  exact ⟨_, hi, advance_becomes' s t⟩

theorem branch_branches {s : State} {t : Tid} {min : Nat} {sa sb : SReg} {o : BitVec 40} {c : Word → Word → Bool} {i : Instr} {p : Prop}
    (hi : exec i s = .next (branchOp t min sa sb o c s)) (hc : c (readS (s.tile t) sa.val) (readS (s.tile t) sb.val) = true ↔ p) :
    Branches i s t min sa sb o p := by
  refine fun h => ⟨fun hp => coreStep_jumps hi h ?_ fun _ => rfl, fun hp => coreStep_moves hi h ?_⟩
  · exact if_pos (hc.mpr hp)
  · exact if_neg fun hn => hp (hc.mp hn)

theorem jalr_cases {s : State} {t : Tid} {sd sa : SReg} {o : BitVec 40} {target : Word}
    (htg : target = readS (s.tile t) sa.val + 8 * o.signExtend 64) (h : CoreReady s t (siWord 9 0 sd.val sa.val o.toNat) [sd.val, sa.val]) :
    (target.toNat % 8 ≠ 0 → TrapsFirst (.jalr t sd sa o) s t 0 0x03 (s.tile t).pc target.toNat) ∧
    (target.toNat % 8 = 0 → JumpsTo (.jalr t sd sa o) s t (writeS (s.tile t) sd.val (BitVec.ofNat 64 ((s.tile t).pc + 8))) target.toNat) := by
  subst htg
  refine ⟨fun h8 => coreStep_traps rfl h ?_ (by decide), fun h8 => coreStep_jumps rfl h ?_ (inWindow_writeS _ _ _)⟩
  · exact if_pos h8
  · exact if_neg (not_not_intro h8)

/-! ### Control -/

theorem halt_answers {s : State} {t : Tid} (h : CoreReady s t (ctWord 0x30 1 0 0 0 0 0) []) :
    Answers (.halt t) s fun u => TileBecomes s u t { s.tile t with halting := true, haltPc := (s.tile t).pc } := by
  have hi : exec (.halt t) s = .next _ := congrArg Host.Outcome.next
    (coreStep_ready (fun s x => s.setTile t { x with halting := true, haltPc := x.pc }) h)
  exact ⟨_, hi, setTile_becomes s t _⟩

theorem fence_cases {s : State} {t : Tid} {k : BitVec 5} (hk : k ≠ 0) (h : CoreReady s t (ctWord 0x30 4 0 0 0 0 k.toNat) []) :
    ((∀ i, i < 5 → k.getLsbD i = true → scopeDone (s.tile t) i = true) →
      Answers (.fence t k) s fun u => TileBecomes s u t { s.tile t with pc := pcNext (s.tile t) }) ∧
    (∀ i, i < 5 → k.getLsbD i = true → scopeDone (s.tile t) i = false → exec (.fence t k) s = .next s) := by
  constructor
  · intro hd
    refine coreStep_moves rfl h ?_
    rw [if_neg hk, if_pos]
    simp only [List.all_eq_true, List.mem_range, Bool.or_eq_true, Bool.not_eq_true']
    exact fun i hi => (Bool.eq_false_or_eq_true (k.getLsbD i)).symm.imp_right (hd i hi)
  · intro i hi hb hd
    show execFence t k s = _
    rw [execFence, coreStep_ready _ h, if_neg hk, if_neg]
    simp only [List.all_eq_true, List.mem_range, Bool.or_eq_true, Bool.not_eq_true']
    intro ha
    simpa [hb, hd] using ha i hi

theorem queueIssue_answers {s : State} {t : Tid} {w : Word} {e : Engine} (h : CoreReady s t w (issueRegs w)) (hl : legal (featureEff s) w = true)
    (he : queueOf w = some e) (hn : (getQueue (s.tile t) e).length < e.depth) (hr : wMaj w = 0x32 ∧ wMin w = 2 → isPending (s.tile t) (wSD w) = false) :
    Answers (.queueIssue t w) s fun u => TileBecomes s u t
      { setQueue (s.tile t) e (getQueue (s.tile t) e ++ [⟨w, (s.tile t).pc, (s.tile t).s, (s.tile t).issued, none, false, none⟩]) with
        rdspWait := decide (wMaj w = 0x32 ∧ wMin w = 2), issued := (s.tile t).issued + 1, pc := pcNext (s.tile t) } := by
  have hd : (wMaj w == 0x32 && wMin w == 2) = decide (wMaj w = 0x32 ∧ wMin w = 2) := by
    rw [Bool.decide_and]
    rfl
  have hi : exec (.queueIssue t w) s = .next (advance (s.setTile t
      { setQueue (s.tile t) e (getQueue (s.tile t) e ++ [⟨w, (s.tile t).pc, (s.tile t).s, (s.tile t).issued, none, false, none⟩]) with
        rdspWait := decide (wMaj w = 0x32 ∧ wMin w = 2), issued := (s.tile t).issued + 1 }) t) := by
    show execQueueIssue t w s = _
    rw [execQueueIssue, coreStep_ready _ h, he]
    dsimp only
    rw [hl, hd, if_neg (by simp [Nat.not_le.mpr hn]), if_neg]
    simpa using hr
  refine ⟨_, hi, ?_⟩
  have := advance_becomes s t
    { setQueue (s.tile t) e (getQueue (s.tile t) e ++ [⟨w, (s.tile t).pc, (s.tile t).s, (s.tile t).issued, none, false, none⟩]) with
        rdspWait := decide (wMaj w = 0x32 ∧ wMin w = 2), issued := (s.tile t).issued + 1 }
  cases e <;> exact this

/-! ### Token counters -/

theorem foldl_add_start (l : List (Nat × Nat)) (a : Nat) : l.foldl (fun a p => a + p.2) a = a + l.foldl (fun a p => a + p.2) 0 := by
  induction l generalizing a with
  | nil => rfl
  | cons p r ih =>
    rw [List.foldl_cons, List.foldl_cons, ih, ih (0 + p.2)]
    omega

/-- Taking k from a counter that holds as much leaves the rest. -/
theorem sum_tkTake (l : List (Nat × Nat)) (k : Nat) :
    (tkTake l k).foldl (fun a p => a + p.2) 0 = l.foldl (fun a p => a + p.2) 0 - k := by
  induction l generalizing k with
  | nil => simp [tkTake]
  | cons p r ih =>
    obtain ⟨st, a⟩ := p
    rw [tkTake, List.foldl_cons, foldl_add_start r]
    split
    · rw [List.foldl_cons, foldl_add_start r]
      omega
    · rw [ih]
      omega

theorem tkCount_tkSub (x : Tile) (n k j : Nat) : tkCount (tkSub x n k) j = if j = n then tkCount x n - k else tkCount x j := by
  rw [tkSub, tkCount_setTk, sum_tkTake]
  rfl

/-- A signal of any amount raises its counter up to 65,535 and leaves the others (R91). -/
theorem tkCount_tkAdd {s : State} {t n k unit pc : Nat} (hl : isLive s t = true) (hc : tkCount (s.tile t) n ≤ 65535) (j : Nat) :
    tkCount ((tkAdd s t n k unit pc).tile t) j = if j = n then min (tkCount (s.tile t) n + k) 65535 else tkCount (s.tile t) j := by
  have hset : ∀ m, tkCount (setTk (s.tile t) n (mget (fun _ => []) (s.tile t).tk n ++ [(s.now, m)])) j =
      if j = n then tkCount (s.tile t) n + m else tkCount (s.tile t) j := by
    intro m
    rw [tkCount_setTk, List.foldl_append]
    rfl
  simp only [tkAdd, hl, Bool.not_true, Bool.false_or, beq_iff_eq]
  split
  next h0 =>
    split
    next hj => rw [hj]; omega
    next => rfl
  next h0 =>
    have htrap : ∀ u : State, tkCount ((trap u t unit cTOKEN_OVERFLOW pc n).tile t) j = tkCount (u.tile t) j := by
      intro u
      obtain ⟨a, b, c, h⟩ := trap_tile u t unit cTOKEN_OVERFLOW pc n t
      rw [h]
      rfl
    have hif : tkCount ((if min k (65535 - tkCount (s.tile t) n) = 0 then s else s.onTile t fun x =>
        setTk x n (mget (fun _ => []) x.tk n ++ [(s.now, min k (65535 - tkCount (s.tile t) n))])).tile t) j =
        if j = n then min (tkCount (s.tile t) n + k) 65535 else tkCount (s.tile t) j := by
      split
      next hz => split <;> [(subst j; omega); rfl]
      next hz =>
        rw [tile_onTile_same, hset]
        split <;> [omega; rfl]
    split
    · rw [htrap, hif]
    · exact hif

/-- A signal that fits its counter is all that changes in the tile. -/
theorem tkAdd_fits {s : State} {t n k unit pc : Nat} (hl : isLive s t = true) (hc : tkCount (s.tile t) n + k ≤ 65535) :
    TileBecomes s (tkAdd s t n k unit pc) t { s.tile t with tk := ((tkAdd s t n k unit pc).tile t).tk } := by
  refine ⟨?_, fun j hj => tkAdd_other s hj, ?_⟩ <;>
  · simp only [tkAdd, hl, Bool.not_true, Bool.false_or, beq_iff_eq]
    split
    · rfl
    · rw [if_neg (show ¬ min k (65535 - tkCount (s.tile t) n) < k by omega)]
      split
      · rfl
      · simp [setTk] <;> rfl

/-- A signal that does not fit leaves a trap record (R91). -/
theorem tkAdd_overflows {s : State} {t n k unit pc : Nat} (hl : isLive s t = true) (hc : tkCount (s.tile t) n ≤ 65535)
    (ho : 65535 < tkCount (s.tile t) n + k) (hu : unit < 8) (hn : n < 2 ^ 64) :
    ((tkAdd s t n k unit pc).tile t).aborting = true ∧ getF (tkAdd s t n k unit pc) (fTILE_TRAP_CAUSE_CODE t) = 0x06 ∧
    getF (tkAdd s t n k unit pc) (fTILE_TRAP_INFO_INFO t) = n := by
  have hlive : ∀ u, (u = s ∨ ∃ l, u = s.onTile t fun x => setTk x n l) → isLive u t = true := by
    rintro u (rfl | ⟨l, rfl⟩)
    · exact hl
    · exact isLive_of hl rfl (by rw [tile_onTile_same]; rfl) (by rw [tile_onTile_same]; rfl)
  have htrap : ∀ u, (u = s ∨ ∃ l, u = s.onTile t fun x => setTk x n l) →
      ((trap u t unit cTOKEN_OVERFLOW pc n).tile t).aborting = true ∧ getF (trap u t unit cTOKEN_OVERFLOW pc n) (fTILE_TRAP_CAUSE_CODE t) = 0x06 ∧
      getF (trap u t unit cTOKEN_OVERFLOW pc n) (fTILE_TRAP_INFO_INFO t) = n := by
    intro u hx
    obtain ⟨-, -, hcode, -, hinfo, -, htile, -, -⟩ := trap_taken unit cTOKEN_OVERFLOW pc n (hlive u hx) hu (by decide)
    rw [Nat.mod_eq_of_lt hn] at hinfo
    exact ⟨by rw [htile], hcode, hinfo⟩
  simp only [tkAdd, hl, Bool.not_true, Bool.false_or, beq_iff_eq]
  rw [if_neg (show ¬ k = 0 by omega), if_pos (show min k (65535 - tkCount (s.tile t) n) < k by omega)]
  split
  · exact htrap _ (.inl rfl)
  · exact htrap _ (.inr ⟨_, rfl⟩)

/-! ### Token instructions of the core -/

/-- What a signal of n leaves (R91, R110). -/
def Signals (i : Instr) (s : State) (t k n : Nat) : Prop :=
  Answers i s fun u => tkCount (u.tile t) k = min (tkCount (s.tile t) k + n) 65535 ∧
    (∀ j, j ≠ k → tkCount (u.tile t) j = tkCount (s.tile t) j) ∧ (u.tile t).pc = pcNext (s.tile t) ∧
    (tkCount (s.tile t) k + n ≤ 65535 → TileBecomes s u t { s.tile t with tk := (u.tile t).tk, pc := pcNext (s.tile t) }) ∧
    (65535 < tkCount (s.tile t) k + n →
      (u.tile t).aborting = true ∧ getF u (fTILE_TRAP_CAUSE_CODE t) = 0x06 ∧ getF u (fTILE_TRAP_INFO_INFO t) = k)

theorem signal_signals {s : State} {t : Tid} {w : Word} {k : Fin 16} {n : Nat} {i : Instr} (hi : exec i s = .next (coreSignal t w k.val n s))
    (h : CoreReady s t w []) (hd : storesDone (s.tile t) = true) (hc : tkCount (s.tile t) k.val ≤ 65535) : Signals i s t k n := by
  rw [coreSignal, coreStep_ready _ h, if_pos hd] at hi
  obtain ⟨htile, hother, hframe⟩ := advance_becomes' s t
  have hcount : ∀ j, tkCount ((advance s t).tile t) j = tkCount (s.tile t) j := fun j => by rw [htile]; rfl
  have hl : isLive (advance s t) t = true := isLive_of h.1 rfl (by rw [htile]) (by rw [htile])
  have hadd := tkCount_tkAdd (k := n) (unit := 0) (pc := (s.tile t).pc) hl (by rw [hcount]; exact hc)
  simp only [hcount] at hadd
  refine ⟨_, hi, ?count, ?other, ?pc, ?fits, ?overflow⟩
  case count => rw [hadd, if_pos rfl]
  case other => exact fun j hj => by rw [hadd, if_neg hj]
  case pc =>
    obtain ⟨l, a, b, c, he⟩ := tkAdd_tile (advance s t) t k.val n 0 (s.tile t).pc t
    rw [he, htile]
  case fits =>
    intro hf
    obtain ⟨ht, ho, hu⟩ := tkAdd_fits (unit := 0) (pc := (s.tile t).pc) hl (show tkCount ((advance s t).tile t) k.val + n ≤ 65535 by rw [hcount]; exact hf)
    refine ⟨by rw [ht, htile], fun j hj => by rw [ho j hj, hother j hj], ?_⟩
    rw [hu]
    rfl
  case overflow =>
    exact fun ho => tkAdd_overflows hl (by rw [hcount]; exact hc) (by rw [hcount]; exact ho) (by decide) (by omega)

/-- What a wait for n of counter k leaves in each of its three cases (R90, R92, R110). -/
def Waits (i : Instr) (s : State) (t : Nat) (w : Word) (k n : Nat) : Prop :=
  (CoreReady s t w [] → n ≤ tkCount (s.tile t) k → Answers i s fun u =>
    TileBecomes s u t { s.tile t with tk := (u.tile t).tk, pc := pcNext (s.tile t) } ∧ tkCount (u.tile t) k = tkCount (s.tile t) k - n ∧
    ∀ j, j ≠ k → tkCount (u.tile t) j = tkCount (s.tile t) j) ∧
  (CoreReady s t w [] → tkCount (s.tile t) k < n → Answers i s fun u => TileBecomes s u t { s.tile t with coreWait := some (s.now, k, n) }) ∧
  (∀ f, (s.tile t).coreWait = some (f, k, n) → isLive s t = true → clkRuns s t = true → fetched (s.tile t) = w →
    waitServed s t k n (some f) = true → n ≤ tkCount (s.tile t) k → Answers i s fun u =>
      TileBecomes s u t { s.tile t with tk := (u.tile t).tk, coreWait := none, pc := pcNext (s.tile t) } ∧
      tkCount (u.tile t) k = tkCount (s.tile t) k - n ∧ ∀ j, j ≠ k → tkCount (u.tile t) j = tkCount (s.tile t) j)

theorem wait_waits {s : State} {t : Tid} {w : Word} {k n : Nat} {i : Instr} (hi : exec i s = .next (coreWaitOp t w k n s)) : Waits i s t w k n := by
  refine ⟨fun h hn => ?taken, fun h hn => ?waiting, fun f hf hl hc hw hs hn => ?served⟩
  case taken =>
    have hb := advance_becomes s t (tkSub (s.tile t) k n)
    simp only [coreWaitOp, h.2.2.2.2.1, coreStep_ready _ h, waitServed, decide_eq_true hn, if_true] at hi
    refine ⟨_, hi, ⟨?_, hb.2⟩, ?_, fun j hj => ?_⟩
    · rw [hb.1]; rfl
    · rw [hb.1]; exact (tkCount_tkSub (s.tile t) k n k).trans (if_pos rfl)
    · rw [hb.1]; exact (tkCount_tkSub (s.tile t) k n j).trans (if_neg hj)
  case waiting =>
    simp only [coreWaitOp, h.2.2.2.2.1, coreStep_ready _ h, waitServed, decide_eq_true_eq, if_neg (Nat.not_le.mpr hn)] at hi
    exact ⟨_, hi, setTile_becomes s t _⟩
  case served =>
    have hb := advance_becomes s t { tkSub (s.tile t) k n with coreWait := none }
    simp only [coreWaitOp, hf, hl, hc, hw, hs, beq_self_eq_true, Bool.and_self, if_true] at hi
    refine ⟨_, hi, ⟨?_, hb.2⟩, ?_, fun j hj => ?_⟩
    · rw [hb.1]; rfl
    · rw [hb.1]; exact (tkCount_tkSub (s.tile t) k n k).trans (if_pos rfl)
    · rw [hb.1]; exact (tkCount_tkSub (s.tile t) k n j).trans (if_neg hj)

theorem tkclr_clears {s : State} {t : Tid} {k : Fin 16} (h : CoreReady s t (ctWord 0x31 5 0 0 0 k.val 0) []) : Answers (.tkclr t k) s fun u =>
    TileBecomes s u t { s.tile t with tk := (u.tile t).tk, pc := pcNext (s.tile t) } ∧ tkCount (u.tile t) k.val = 0 ∧
    ∀ j, j ≠ k.val → tkCount (u.tile t) j = tkCount (s.tile t) j := by
  obtain ⟨u, hu, hb⟩ := coreStep_advances (i := .tkclr t k) (y := setTk (s.tile t) k.val []) rfl h rfl
  refine ⟨u, hu, ⟨?_, hb.2⟩, ?_, fun j hj => ?_⟩
  · rw [hb.1]; rfl
  · rw [hb.1]; exact (tkCount_setTk (s.tile t) k.val k.val []).trans (if_pos rfl)
  · rw [hb.1]; exact (tkCount_setTk (s.tile t) k.val j []).trans (if_neg hj)

/-! ### The system registers -/

theorem rdsys_gives {s : State} {t : Tid} {sd : SReg} {n : BitVec 12} (h : CoreReady s t (ctWord 0x32 0 sd.val 0 n.toNat 0 0) [sd.val])
    (hn : n.toNat ≤ 8) : CoreGives (.rdsys t sd n) s t sd.val (BitVec.ofNat 64 (sysReg s t n.toNat)) := by
  have := coreStep_advances (i := .rdsys t sd n) (y := writeS (s.tile t) sd.val (BitVec.ofNat 64 (sysReg s t n.toNat))) rfl h (if_pos hn)
  rwa [pcNext_writeS] at this

theorem rdsys_traps {s : State} {t : Tid} {sd : SReg} {n : BitVec 12} (h : CoreReady s t (ctWord 0x32 0 sd.val 0 n.toNat 0 0) [sd.val])
    (hn : 8 < n.toNat) : TrapsFirst (.rdsys t sd n) s t 0 0x01 (s.tile t).pc (ctWord 0x32 0 sd.val 0 n.toNat 0 0).toNat :=
  coreStep_traps rfl h (if_neg (Nat.not_le.mpr hn)) (by decide)

/-- Settles O5: each instruction of the core is one case of the step of the core, and each token operation one of the counters. -/
theorem controlFlowAndTokens : Obligations.ControlFlowAndTokens := by
  unfold Obligations.ControlFlowAndTokens
  refine ⟨?branches, ?control, ?tokens, ?system⟩
  case branches =>
    rintro s t sd sa sb o _ _ _ rfl rfl rfl
    refine ⟨branch_branches rfl ?_, branch_branches rfl ?_, branch_branches rfl ?_, branch_branches rfl ?_, branch_branches rfl ?_,
      branch_branches rfl ?_, fun imm h => coreStep_jumps rfl h rfl (inWindow_writeS _ _ _), fun target ht h => jalr_cases ht h⟩
    · exact beq_iff_eq
    · exact bne_iff_ne
    · exact BitVec.slt_iff_toInt_lt
    · simp [BitVec.slt]
    · exact BitVec.ult_iff_toNat_lt
    · simp [BitVec.ult]
  case control =>
    rintro s t _ rfl
    refine ⟨fun h => coreStep_moves rfl h rfl, halt_answers, fun sa h => coreStep_traps rfl h rfl (by decide),
      fun imm h => coreStep_traps rfl h rfl (by decide), fun w h hl => coreStep_traps rfl h ?_ (by decide), fun k hk h => fence_cases hk h,
      fun w e h hl he hn hr => queueIssue_answers h hl he hn hr⟩
    exact if_neg (by simp [hl])
  case tokens =>
    rintro s t k _ rfl hc
    refine ⟨?signal, fun sd h => coreWrite_ready (fun x => BitVec.ofNat 64 (tkCount x k.val)) rfl h, tkclr_clears, ?wait⟩
    case signal =>
      rintro i w n (⟨rfl, rfl, rfl⟩ | ⟨m, rfl, rfl, rfl⟩) h hd
      · exact signal_signals rfl h hd (hc _)
      · exact signal_signals rfl h hd (hc _)
    case wait =>
      rintro i w n (⟨rfl, rfl, rfl⟩ | ⟨m, hm, rfl, rfl, rfl⟩)
      · exact wait_waits rfl
      · exact wait_waits (congrArg Host.Outcome.next (if_neg hm))
  case system =>
    refine fun s t sd n v h => ⟨?_, rdsys_traps h⟩
    rintro (⟨rfl, rfl⟩ | ⟨rfl, rfl⟩ | ⟨rfl, rfl⟩ | ⟨rfl, rfl⟩ | ⟨rfl, rfl⟩ | ⟨rfl, rfl⟩ | ⟨rfl, rfl⟩ | ⟨rfl, rfl⟩ | ⟨rfl, rfl⟩)
    · have := rdsys_gives h (by decide)
      rwa [show sysReg s t (0 : BitVec 12).toNat = t.val + 256 * (t.val % 64 / 16) + 1024 * (t.val / 64) by
        simp only [BitVec.ofNat_eq_ofNat, BitVec.toNat_ofNat, Nat.zero_mod, sysReg]; omega] at this
    all_goals exact rdsys_gives h (by decide)

end Sys2Proof.Machine
end

section
/-! PROOFS. The life of a task (O6). -/

namespace Sys2Proof.Machine

/-! ### What a wake event changes -/

theorem wakeRamp_csr (s : State) (c : Nat) : (wakeRamp s c).csr = s.csr := by
  unfold wakeRamp
  split <;> rfl

theorem wakeRamp_frame (s : State) (c : Nat) : wakeRamp s c = { s with pkg := (wakeRamp s c).pkg } := by
  unfold wakeRamp
  split <;> rfl

theorem wakeEvent_frame (s : State) (c : Nat) : wakeEvent s c = { s with csr := (wakeEvent s c).csr, pkg := (wakeEvent s c).pkg } := by
  unfold wakeEvent
  split
  · split <;> rfl
  · split
    · rw [wakeRamp_frame]
    · rfl

theorem getF_wakeEvent_ne (s : State) (c : Nat) {g : Fld} (h : fldKey g ≠ fldKey (fPKG_CLUSTER_STATE c)) : getF (wakeEvent s c) g = getF s g := by
  unfold wakeEvent
  split
  · split
    · rfl
    · exact getF_setF_ne s _ h
  · split
    · exact getF_csr (wakeRamp_csr s c) g
    · rfl

theorem wakeForStart_frame (s : State) (t : Nat) :
    wakeForStart s t = { s with csr := (wakeForStart s t).csr, pkg := (wakeForStart s t).pkg } := by
  simp only [wakeForStart]
  split
  · rw [wakeRamp_frame]
    rfl
  · exact wakeEvent_frame s _

theorem getF_wakeForStart_ne (s : State) (t : Nat) {g : Fld} (h : fldKey g ≠ fldKey (fPKG_CLUSTER_STATE (clusterOf t))) :
    getF (wakeForStart s t) g = getF s g := by
  simp only [wakeForStart]
  split
  · exact getF_csr (wakeRamp_csr _ _) g
  · exact getF_wakeEvent_ne s _ h

/-! ### The start of a task -/

theorem getF_setFs_zero (s : State) (l : List Fld) (g : Fld) :
    getF (setFs s (l.map fun f => (f, 0))) g = if fldKey g ∈ l.map fldKey then 0 else getF s g := by
  induction l generalizing s with
  | nil => simp
  | cons f r ih =>
    rw [List.map_cons, setFs_cons, ih, getF_setF]
    by_cases h : fldKey g = fldKey f <;> simp [h]

theorem readS_writeS (x : Tile) (n k : Nat) (v : Word) : readS (writeS x n v) k = if k = n ∧ k ≠ 0 then v else readS x k := by
  unfold readS writeS
  by_cases hk : k = 0
  · simp [hk]
  · by_cases hn : n = 0
    · have : k ≠ n := by omega
      simp [hk, hn]
    · simp [hk, hn, mget_mset]

/-- The conditions of R126 under which a START begins a task. -/
theorem startOk_iff {s : State} {t : Nat} (hd : dieUp s (dieOf t) = true) :
    startOk s t = true ↔ (s.tile t).phase ≠ .running ∧ (s.tile t).phase ≠ .fenced ∧ 4096 ≤ getF s (fTILE_START_WIN_SIZE t) * 4096 ∧
      getF s (fTILE_START_WIN_SIZE t) * 4096 ≤ 262144 ∧
      getF s (fTILE_START_WIN_BASE t) * 4096 + getF s (fTILE_START_WIN_SIZE t) * 4096 ≤ 0x200000 ∧
      getF s (fTILE_START_ENTRY_ENTRY t) % 8 = 0 ∧ getF s (fTILE_START_ENTRY_ENTRY t) < getF s (fTILE_START_WIN_SIZE t) * 4096 ∧
      ¬ (getF s fHST_LOAD_STATUS_STATE = 1 ∧ t ∈ s.load.targets) := by
  have hp : (((s.tile t).phase == .idle || (s.tile t).phase == .halted || (s.tile t).phase == .aborted) = true) ↔
      (s.tile t).phase ≠ .running ∧ (s.tile t).phase ≠ .fenced := by
    cases (s.tile t).phase <;> decide
  have ht : tileState s t = (s.tile t).phase := by rw [tileState, if_pos hd]
  simp only [startOk, ht, Bool.and_eq_true, hp, decide_eq_true_eq, beq_iff_eq, Bool.not_eq_true', Bool.and_eq_false_iff,
    List.contains_eq_mem, decide_eq_false_iff_not, and_assoc, not_and_or, beq_eq_false_iff_ne]
  exact Iff.rfl

theorem startTask_tile (s : State) (t base size entry arg0 arg1 reason : Nat) :
    (startTask s t base size entry arg0 arg1 reason).tile t = writeS (writeS { Tile.reset with
      phase := .running, pc := (base + entry) % 0x200000, winBase := base, winSize := size,
      oc := (s.tile t).oc, ocBad := (s.tile t).ocBad, cycSince := s.now,
      str := { StrUnit.reset with nextNo := (s.tile t).str.nextNo, loose := (s.tile t).str.loose } } 1 (BitVec.ofNat 64 arg0)) 2 (BitVec.ofNat 64 arg1) := by
  unfold startTask
  rw [tile_setTile_same]
  simp

theorem startTask_other (s : State) {t j : Nat} (base size entry arg0 arg1 reason : Nat) (h : j ≠ t) :
    (startTask s t base size entry arg0 arg1 reason).tile j = s.tile j := by
  unfold startTask
  rw [tile_setTile_ne _ _ h]
  simp

theorem startTask_frame (s : State) (t base size entry arg0 arg1 reason : Nat) :
    startTask s t base size entry arg0 arg1 reason =
      { s with csr := (startTask s t base size entry arg0 arg1 reason).csr, tiles := (startTask s t base size entry arg0 arg1 reason).tiles } := by
  unfold startTask
  apply state_ext <;> simp

theorem startTask_valid (s : State) (t base size entry arg0 arg1 reason : Nat) :
    getF (startTask s t base size entry arg0 arg1 reason) (fTILE_TRAP_CAUSE_VALID t) = 0 := by
  unfold startTask
  rw [getF_setTile, getF_setF_ne _ _ (by simp [fldKey, fTILE_TRAP_CAUSE_VALID, fTILE_VEC_REFEN_REASON] <;> omega), getF_setFs_zero, if_pos]
  simp [taskStartClears]

theorem startTask_reason (s : State) (t base size entry arg0 arg1 : Nat) {reason : Nat} (h : reason < 4) :
    getF (startTask s t base size entry arg0 arg1 reason) (fTILE_VEC_REFEN_REASON t) = reason := by
  unfold startTask
  rw [getF_setTile, getF_setF_same]
  exact Nat.mod_eq_of_lt h

/-- What a task start leaves (R81, R126). -/
theorem start_begins {s : State} {t : Tid} {replay : Bool} (hd : dieUp s (dieOf t) = true) (hok : startOk s t = true) :
    exec (.start t ⟨false, replay⟩) s = .next (startFromRegs s t replay) := by
  show execStart t ⟨false, replay⟩ s = _
  rw [execStart, hd, hok]
  rfl

theorem start_rejected {s : State} {t : Tid} {how : StartWrite} (hd : dieUp s (dieOf t) = true) (hok : (!how.both && startOk s t) = false) :
    Answers (.start t how) s fun u => getF u (fTILE_STATUS_START_REJ t) = 1 ∧ OnlyFields s u [fTILE_STATUS_START_REJ t] := by
  refine ⟨setF s (fTILE_STATUS_START_REJ t) 1, ?_, getF_setF_same _ _ _, fun g hg => getF_setF_ne s 1 (by simpa using hg), rfl⟩
  show execStart t how s = _
  rw [execStart, hd, hok]
  rfl

theorem tileStart_ne_cluster (t : Tid) : fldKey (fTILE_TRAP_CAUSE_VALID t) ≠ fldKey (fPKG_CLUSTER_STATE (clusterOf t)) ∧
    fldKey (fTILE_VEC_REFEN_REASON t) ≠ fldKey (fPKG_CLUSTER_STATE (clusterOf t)) := by
  constructor <;> simp [fldKey, fTILE_TRAP_CAUSE_VALID, fTILE_VEC_REFEN_REASON, fPKG_CLUSTER_STATE, clusterOf] <;> omega

theorem startReason_eq (s : State) (replay : Bool) :
    startReason s replay = if replay = true ∧ fwRuns s = true then 3 else if s.load.refpers = true then 2 else 0 := by
  simp only [startReason, Bool.and_eq_true]
  rfl

/-- What a START that is accepted leaves (R81, R126). -/
theorem start_answers {s : State} {t : Tid} (replay : Bool) (hd : dieUp s (dieOf t) = true) (hok : startOk s t = true) :
    Answers (.start t ⟨false, replay⟩) s fun u =>
      (u.tile t).phase = .running ∧
      (u.tile t).pc = getF s (fTILE_START_WIN_BASE t) * 4096 + getF s (fTILE_START_ENTRY_ENTRY t) ∧
      (u.tile t).winBase = getF s (fTILE_START_WIN_BASE t) * 4096 ∧ (u.tile t).winSize = getF s (fTILE_START_WIN_SIZE t) * 4096 ∧
      (∀ n, readS (u.tile t) n = if n = 1 then BitVec.ofNat 64 (getF s (fTILE_START_ARG0_ARG t))
        else if n = 2 then BitVec.ofNat 64 (getF s (fTILE_START_ARG1_ARG t)) else 0) ∧
      (∀ k, tkCount (u.tile t) k = 0) ∧ (u.tile t).oc = (s.tile t).oc ∧ (u.tile t).mat = .reset ∧ (u.tile t).vec = .reset ∧
      (u.tile t).fill = .reset ∧ (u.tile t).msg = .reset ∧ (u.tile t).str.queue = [] ∧ (u.tile t).ops = [] ∧
      getF u (fTILE_TRAP_CAUSE_VALID t) = 0 ∧
      getF u (fTILE_VEC_REFEN_REASON t) = (if replay = true ∧ fwRuns s = true then 3 else if s.load.refpers = true then 2 else 0) ∧
      (∀ j, j ≠ t.val → u.tile j = s.tile j) ∧ u = { s with csr := u.csr, tiles := u.tiles, pkg := u.pkg } := by
  obtain ⟨w, hw⟩ : ∃ w, w = startTask s t (getF s (fTILE_START_WIN_BASE t) * 4096) (getF s (fTILE_START_WIN_SIZE t) * 4096)
    (getF s (fTILE_START_ENTRY_ENTRY t)) (getF s (fTILE_START_ARG0_ARG t)) (getF s (fTILE_START_ARG1_ARG t)) (startReason s replay) := ⟨_, rfl⟩
  have he : exec (.start t ⟨false, replay⟩) s = .next (wakeForStart w t) := by
    rw [start_begins hd hok, startFromRegs, hw]
  have hpc : (getF s (fTILE_START_WIN_BASE t) * 4096 + getF s (fTILE_START_ENTRY_ENTRY t)) % 0x200000 =
      getF s (fTILE_START_WIN_BASE t) * 4096 + getF s (fTILE_START_ENTRY_ENTRY t) := by
    obtain ⟨-, -, -, -, h5, -, h7, -⟩ := (startOk_iff hd).mp hok
    exact Nat.mod_eq_of_lt (by omega)
  have htiles : (wakeForStart w t).tiles = w.tiles := by rw [wakeForStart_frame]
  have htile := tile_tiles htiles t
  rw [hw, startTask_tile, hpc, ← hw] at htile
  obtain ⟨hvalid, hreason⟩ := tileStart_ne_cluster t
  refine ⟨_, he, ?_⟩
  dsimp only
  rw [htile]
  refine ⟨rfl, rfl, rfl, rfl, fun n => ?_, fun k => rfl, rfl, rfl, rfl, rfl, rfl, rfl, rfl, ?_, ?_, fun j hj => ?_, ?_⟩
  · rw [readS_writeS, readS_writeS]
    by_cases h2 : n = 2
    · simp [h2]
    · by_cases h1 : n = 1
      · simp [h1]
      · simp [h1, h2, readS, Tile.reset]
  · rw [getF_wakeForStart_ne _ _ hvalid, hw, startTask_valid]
  · rw [getF_wakeForStart_ne _ _ hreason, hw, startTask_reason, startReason_eq]
    rw [startReason_eq]
    split <;> [decide; split <;> decide]
  · rw [tile_tiles htiles j, hw, startTask_other _ _ _ _ _ _ _ hj]
  · have hframe : w = { s with csr := w.csr, tiles := w.tiles } := by rw [hw]; exact startTask_frame _ _ _ _ _ _ _ _
    rw [htiles]
    refine (wakeForStart_frame w t).trans ?_
    generalize wakeForStart w t = v
    rw [hframe]

/-! ### Aborts from the host and late waits -/

theorem wakeEvent_runs {s : State} {c : Nat} (h : clusterState s c = kRUN) : wakeEvent s c = s := by
  rw [wakeEvent, h, if_neg (by decide), if_neg (by decide)]

theorem hostAbort_aborts {s : State} {t : Tid} (hl : isLive s t = true) (hc : clkRuns s t = true) :
    TrapsFirst (.hostAbort t) s t 0 0x0F (s.tile t).pc 0 := by
  have ht := trap_taken 0 cHOST_ABORT (s.tile t).pc 0 hl (by decide) (by decide)
  obtain ⟨-, -, -, -, -, hkept, -, -, -⟩ := id ht
  have hr : clusterState (trap s t 0 cHOST_ABORT (s.tile t).pc 0) (clusterOf t) = kRUN := by
    rw [clusterState, hkept]
    · exact beq_iff_eq.mp hc
    · simp only [trapFields, List.map_cons, List.map_nil, List.mem_cons, List.not_mem_nil, or_false, not_or]
      refine ⟨?_, ?_, ?_, ?_, ?_⟩ <;>
      simp [fldKey, fPKG_CLUSTER_STATE, fTILE_TRAP_CAUSE_VALID, fTILE_TRAP_CAUSE_UNIT, fTILE_TRAP_CAUSE_CODE, fTILE_TRAP_PC_PC,
        fTILE_TRAP_INFO_INFO, clusterOf] <;> omega
  refine ⟨_, ?_, ht⟩
  show execHostAbort t s = _
  rw [execHostAbort, if_pos (isLive_running hl), wakeEvent_runs hr]

theorem hostAbort_ignored {s : State} {t : Tid} (h : (s.tile t).phase ≠ .running) : exec (.hostAbort t) s = .next s := by
  show execHostAbort t s = _
  rw [execHostAbort, if_neg]
  unfold isRunning tileState
  split
  · simpa using h
  · decide

/-- A late wait of the core aborts the task (R92). -/
theorem coreWait_late {s : State} {t : Tid} {f tk n : Nat} (hl : isLive s t = true) (hw : (s.tile t).coreWait = some (f, tk, n))
    (hlate : tokenLate s t tk n f = true) : TrapsFirst (.waitTimeout t 0) s t 0 0x07 (s.tile t).pc (waitInfo 0 tk) := by
  refine ⟨_, ?_, trap_taken 0 cWAIT_TIMEOUT _ _ hl (by decide) (by decide)⟩
  show execWaitTimeout t 0 s = _
  rw [execWaitTimeout, sameCycle_live _ hl]
  simp only [hl, hw, hlate]
  rfl

section HeadWaits
variable {s : State} {t : Tid} {u : UnitNo} {e : Engine} {h : QEntry} {r : List QEntry} (hl : isLive s t = true)
  (hu : unitEngine u.val = some e) (hq : getQueue (s.tile t) e = h :: r)
include hl hu hq

theorem headWait_late {f : Nat} (hf : h.waitFrom = some f) (hlate : tokenLate s t (wWTK h.word) 1 f = true) :
    TrapsFirst (.waitTimeout t u) s t u.val 0x07 h.pc (waitInfo 0 (wWTK h.word)) := by
  refine ⟨_, ?_, trap_taken u.val cWAIT_TIMEOUT _ _ hl (by omega) (by decide)⟩
  show execWaitTimeout t u s = _
  rw [execWaitTimeout, sameCycle_live _ hl]
  simp only [hl, hu, hq, hf, hlate]
  rfl

theorem headHeld_late {since info : Nat} (hf : h.waitFrom = none) (hh : h.held = some (since, info))
    (hlate : pastBy64 s (headDeadline s t h) = true) (hs : recvServed s t h = false) :
    TrapsFirst (.waitTimeout t u) s t u.val 0x07 h.pc info := by
  refine ⟨_, ?_, trap_taken u.val cWAIT_TIMEOUT _ _ hl (by omega) (by decide)⟩
  show execWaitTimeout t u s = _
  rw [execWaitTimeout, sameCycle_live _ hl]
  simp only [hl, hu, hq, hf, hh, hlate, hs]
  rfl

theorem headGwait_late {b : Nat} (hf : h.waitFrom = none) (hh : h.held = none) (he : e = .message) (hlate : gwaitLate s t = some b) :
    TrapsFirst (.waitTimeout t u) s t 4 0x07 h.pc (waitInfo 2 b) := by
  refine ⟨_, ?_, trap_taken 4 cWAIT_TIMEOUT _ _ hl (by omega) (by decide)⟩
  show execWaitTimeout t u s = _
  rw [execWaitTimeout, sameCycle_live _ hl]
  subst he
  simp only [hl, hu, hq, hf, hh, hlate]
  rfl

end HeadWaits

/-! ### The end of a task -/

theorem postNotice_tile (s : State) (t j : Nat) (b : List Byte) : (postNotice s t b).tile j = s.tile j := by
  unfold postNotice
  split <;> rfl

theorem taskEnd_tile (s : State) (t code unit : Nat) (multi : Bool) (cycles j : Nat) :
    (taskEnd s t code unit multi cycles).tile j = if j = t then stopStreams (s.tile t) else s.tile j := by
  simp only [taskEnd, tile_tiles (postTrace_tiles _ _ _ _ _)]
  split
  · subst j
    rw [tile_onTile_same]
    rfl
  · rw [tile_onTile_ne _ _ (by assumption)]
    rfl

theorem taskEnd_frame (s : State) (t code unit : Nat) (multi : Bool) (cycles : Nat) : taskEnd s t code unit multi cycles =
    { s with csr := (taskEnd s t code unit multi cycles).csr, tiles := (taskEnd s t code unit multi cycles).tiles,
             obs := (taskEnd s t code unit multi cycles).obs } := by
  unfold taskEnd
  apply state_ext <;> simp

theorem taskEnd_now (s : State) (t code unit : Nat) (multi : Bool) (cycles : Nat) : (taskEnd s t code unit multi cycles).now = s.now := by
  rw [taskEnd_frame]

theorem getF_taskEnd_ne (s : State) (t code unit : Nat) (multi : Bool) (cycles : Nat) {g : Fld}
    (h : fldKey g ∉ [fTILE_VEC_END_BSTAT_NONFIN t, fTILE_VEC_END_BSTAT_SAT t, fTILE_VEC_REFEN_REASON t, fOBS_TRACE_LOST_COUNT].map fldKey) :
    getF (taskEnd s t code unit multi cycles) g = getF s g := by
  simp only [List.map_cons, List.map_nil, List.mem_cons, List.not_mem_nil, or_false, not_or] at h
  obtain ⟨h1, h2, h3, h4⟩ := h
  unfold taskEnd
  rw [getF_postTrace _ _ _ _ _ h4, getF_onTile, setFs_cons, setFs_cons, setFs_cons, setFs_nil, getF_setF_ne _ _ h3, getF_setF_ne _ _ h2,
    getF_setF_ne _ _ h1]

theorem reportEn_taskEnd (s : State) (t code unit : Nat) (multi : Bool) (cycles : Nat) :
    bitF (taskEnd s t code unit multi cycles) (fTILE_REPORT_PH_EN t) = bitF s (fTILE_REPORT_PH_EN t) ∧
    getF (taskEnd s t code unit multi cycles) (fTILE_REPORT_PH_PH t) = getF s (fTILE_REPORT_PH_PH t) := by
  constructor
  · unfold bitF
    rw [getF_taskEnd_ne]
    simp [fldKey, fTILE_REPORT_PH_EN, fTILE_VEC_END_BSTAT_NONFIN, fTILE_VEC_END_BSTAT_SAT, fTILE_VEC_REFEN_REASON, fOBS_TRACE_LOST_COUNT] <;> omega
  · rw [getF_taskEnd_ne]
    simp [fldKey, fTILE_REPORT_PH_PH, fTILE_VEC_END_BSTAT_NONFIN, fTILE_VEC_END_BSTAT_SAT, fTILE_VEC_REFEN_REASON, fOBS_TRACE_LOST_COUNT] <;> omega

theorem haltComplete_ends {s : State} {t : Tid} {x : Tile} (hx : s.tile t = x) (hl : isLive s t = true) (hh : x.halting = true) (hq : quiet x = true) :
    Answers (.haltComplete t) s fun u =>
      u.tile t = { stopStreams x with phase := .halted, halting := false } ∧ (∀ j, j ≠ t.val → u.tile j = s.tile j) ∧
      u.devq = (if bitF s (fTILE_REPORT_PH_EN t) then
          s.devq ++ [⟨getF s (fTILE_REPORT_PH_PH t), 0, noticePayload t 0 0 x.haltPc 0 s.now (cyclesOf s t) false false⟩] else s.devq) ∧
      FieldsKept s u [fTILE_VEC_END_BSTAT_NONFIN t, fTILE_VEC_END_BSTAT_SAT t, fTILE_VEC_REFEN_REASON t, fOBS_TRACE_LOST_COUNT] ∧
      u = { s with csr := u.csr, tiles := u.tiles, devq := u.devq, obs := u.obs } := by
  subst hx
  obtain ⟨w, hw⟩ : ∃ w, w = (taskEnd s t 0 0 false (cyclesOf s t)).onTile t fun x => { x with phase := .halted, halting := false } := ⟨_, rfl⟩
  have he : exec (.haltComplete t) s =
      .next (postNotice w t (noticePayload t 0 0 (s.tile t).haltPc 0 s.now (cyclesOf s t) false false)) := by
    show execHaltComplete t s = _
    simp only [execHaltComplete, hl, hh, hq, hw, Bool.and_self, if_true, onTile_now, taskEnd_now]
  have htile : ∀ j, j ≠ t.val → w.tile j = s.tile j := fun j hj => by rw [hw, tile_onTile_ne _ _ hj, taskEnd_tile, if_neg hj]
  have hframe : w = { s with csr := w.csr, tiles := w.tiles, obs := w.obs } := by
    rw [hw, State.onTile, State.setTile, taskEnd_frame]
  obtain ⟨hen, hph⟩ := reportEn_taskEnd s t 0 0 false (cyclesOf s t)
  have hen' : bitF w (fTILE_REPORT_PH_EN t) = bitF s (fTILE_REPORT_PH_EN t) := by rw [hw]; exact hen
  have hph' : getF w (fTILE_REPORT_PH_PH t) = getF s (fTILE_REPORT_PH_PH t) := by rw [hw]; exact hph
  have hq : w.devq = s.devq := by rw [hframe]
  refine ⟨_, he, ?_, fun j hj => by rw [postNotice_tile, htile j hj], ?_, ?_, ?_⟩
  · rw [postNotice_tile, hw, tile_onTile_same, taskEnd_tile, if_pos rfl]
  · rw [postNotice, hen', hph']
    split
    · rw [sendDev, hq]
    · exact hq
  · intro g hg
    have : getF (postNotice w t (noticePayload t 0 0 (s.tile t).haltPc 0 s.now (cyclesOf s t) false false)) g = getF w g := by
      unfold postNotice
      split <;> rfl
    rw [this, hw, getF_onTile, getF_taskEnd_ne _ _ _ _ _ _ hg]
  · unfold postNotice
    split
    · rw [hframe]
      rfl
    · exact hframe.trans (by rw [hq])

theorem taskAbortEnd_ends {s : State} {t : Tid} (hr : isRunning s t = true) (ha : (s.tile t).aborting = true) :
    Answers (.taskAbortEnd t) s fun u =>
      (u.tile t).phase = .aborted ∧ (u.tile t).aborting = false ∧ (∀ e, getQueue (u.tile t) e = []) ∧ (u.tile t).ops = [] ∧
      (u.tile t).coreWait = none ∧ (u.tile t).fill = .reset ∧ bit (getF u (fINT_CAUSE_TILE_LEAF (t.val / 32))) (t.val % 32) = true := by
  have hc : (!isRunning s t || !(s.tile t).aborting) = false := by rw [hr, ha]; rfl
  refine ⟨_, congrArg Host.Outcome.next (if_neg (by simp only [hc]; decide)), ?_⟩
  dsimp only
  rw [tile_tiles (setTileLeaf_tiles _ _), postNotice_tile, tile_onTile_same]
  exact ⟨rfl, rfl, fun e => by cases e <;> rfl, rfl, rfl, rfl, setTileLeaf_sets _ t.isLt⟩

/-- Settles O6: a task starts by the registers, and each of its ends is one command. -/
theorem taskLife : Obligations.TaskLife := by
  unfold Obligations.TaskLife
  refine ⟨?starts, ?ends⟩
  case starts =>
    rintro s t _ _ _ _ rfl rfl rfl rfl hd
    refine ⟨?begins, ?rejected, fun hl hc => hostAbort_aborts hl hc, hostAbort_ignored⟩
    case begins =>
      intro h1 h2 h3 h4 h5 h6 h7 h8 replay
      exact start_answers replay hd ((startOk_iff hd).mpr ⟨h1, h2, h3, h4, h5, h6, h7, h8⟩)
    case rejected =>
      intro both replay hbad
      refine start_rejected hd (Bool.eq_false_iff.mpr fun hok => ?_)
      rw [Bool.and_eq_true, startOk_iff hd] at hok
      obtain ⟨hboth, h1, h2, h3, h4, h5, h6, h7, h8⟩ := hok
      rcases hbad with hb | hb | hb | hb | hb | hb | hb | hb | hb
      · exact absurd hboth (by simp [hb])
      · exact h1 hb
      · exact h2 hb
      · omega
      · omega
      · omega
      · exact hb h6
      · omega
      · exact h8 hb
  case ends =>
    rintro s t _ rfl
    refine ⟨fun f tk n hl hw hlate => coreWait_late hl hw hlate, fun u e h r hl hu hq => ⟨?_, ?_, ?_⟩, haltComplete_ends rfl, taskAbortEnd_ends⟩
    · exact fun f hf hlate => headWait_late hl hu hq hf hlate
    · exact fun since info hf hh hlate hs => headHeld_late hl hu hq hf hh hlate hs
    · exact fun b hf hh he hlate => headGwait_late hl hu hq hf hh he hlate

end Sys2Proof.Machine
end

section
/-! PROOFS. Every element of a tile (O21). -/

namespace Sys2Proof.Machine

/-! ### One sweep over a sparse tile -/

/-- The table l holds keys from k on, in rising order, and lists no default. -/
def RisesFrom (k : Nat) (l : SMap AccElem) : Prop := mwf (fun _ => AccElem.zero) l = true ∧ ∀ p ∈ l, k ≤ p.1

/-- What is left of l once key k was visited. -/
def pastKey (k : Nat) : SMap AccElem → SMap AccElem
  | [] => []
  | (j, w) :: r => if j = k then r else (j, w) :: r

theorem mget_of_above {k : Nat} {l : SMap AccElem} (h : ∀ p ∈ l, k < p.1) : mget (fun _ => AccElem.zero) l k = .zero := by
  induction l with
  | nil => rfl
  | cons p r ih =>
    have hp := h p (List.mem_cons_self ..)
    rw [show mget (fun _ => AccElem.zero) (p :: r) k = if p.1 = k then p.2 else mget (fun _ => AccElem.zero) r k from rfl,
      if_neg (Nat.ne_of_gt hp), ih fun q hq => h q (List.mem_cons_of_mem _ hq)]

theorem risesFrom_cons {k j : Nat} {w : AccElem} {r : SMap AccElem} :
    RisesFrom k ((j, w) :: r) ↔ k ≤ j ∧ w ≠ .zero ∧ RisesFrom (j + 1) r := by
  unfold RisesFrom
  rw [mwf_iff, mwf_iff, msorted_cons]
  constructor
  · rintro ⟨⟨⟨ha, hs⟩, hd⟩, hk⟩
    exact ⟨hk _ (List.mem_cons_self ..), hd _ (List.mem_cons_self ..), ⟨hs, fun p hp => hd p (List.mem_cons_of_mem _ hp)⟩, ha⟩
  · rintro ⟨hk, hw, ⟨hs, hd⟩, ha⟩
    refine ⟨⟨⟨ha, hs⟩, ?_⟩, ?_⟩ <;> intro p hp <;> rcases List.mem_cons.mp hp with rfl | hp
    · exact hw
    · exact hd p hp
    · exact hk
    · have := ha p hp
      omega

theorem RisesFrom.mono {k j : Nat} {l : SMap AccElem} (h : RisesFrom k l) (hj : j ≤ k) : RisesFrom j l :=
  ⟨h.1, fun p hp => le_trans hj (h.2 p hp)⟩

/-- One step of the sweep visits key k, listed or not. -/
theorem sweep_succ (f : Nat → AccElem → AccElem) (c : Nat) {k : Nat} {l : SMap AccElem} (h : RisesFrom k l) :
    sweep f (c + 1) k l =
      if f k (mget (fun _ => AccElem.zero) l k) = .zero then sweep f c (k + 1) (pastKey k l)
      else (k, f k (mget (fun _ => AccElem.zero) l k)) :: sweep f c (k + 1) (pastKey k l) := by
  cases l with
  | nil => rfl
  | cons p r =>
    obtain ⟨j, w⟩ := p
    obtain ⟨hk, -, hr⟩ := risesFrom_cons.mp h
    by_cases hj : j = k
    · subst j
      simp [sweep, pastKey, mget]
    · have hz : mget (fun _ => AccElem.zero) r k = .zero := mget_of_above fun q hq => by
        have := hr.2 q hq
        omega
      simp [sweep, pastKey, mget, hj, hz]

theorem RisesFrom.pastKey {k : Nat} {l : SMap AccElem} (h : RisesFrom k l) : RisesFrom (k + 1) (pastKey k l) := by
  cases l with
  | nil => exact ⟨rfl, by simp [Machine.pastKey]⟩
  | cons p r =>
    obtain ⟨j, w⟩ := p
    obtain ⟨hk, hw, hr⟩ := risesFrom_cons.mp h
    rw [Machine.pastKey]
    split
    next hj => exact hj ▸ hr
    next hj => exact risesFrom_cons.mpr ⟨by omega, hw, hr⟩

theorem mget_pastKey {k i : Nat} (l : SMap AccElem) (hi : k < i) :
    mget (fun _ => AccElem.zero) (pastKey k l) i = mget (fun _ => AccElem.zero) l i := by
  cases l with
  | nil => rfl
  | cons p r =>
    obtain ⟨j, w⟩ := p
    rw [pastKey]
    split
    next hj => simp [mget, show j ≠ i by omega]
    next => rfl

theorem pastKey_below {k b : Nat} {l : SMap AccElem} (h : ∀ p ∈ l, p.1 < b) : ∀ p ∈ pastKey k l, p.1 < b := by
  intro p hp
  apply h
  cases l with
  | nil => exact hp
  | cons q r =>
    rw [pastKey] at hp
    split at hp
    · exact List.mem_cons_of_mem _ hp
    · exact hp

/-- A sweep gives every element of its range its value, and its result rises from k on, within the range. -/
theorem sweep_spec (f : Nat → AccElem → AccElem) (c : Nat) {k : Nat} {l : SMap AccElem} (h : RisesFrom k l) (hl : ∀ p ∈ l, p.1 < k + c) :
    (∀ i, mget (fun _ => AccElem.zero) (sweep f c k l) i = if k ≤ i ∧ i < k + c then f i (mget (fun _ => AccElem.zero) l i) else .zero) ∧
    RisesFrom k (sweep f c k l) ∧ ∀ p ∈ sweep f c k l, p.1 < k + c := by
  induction c generalizing k l with
  | zero =>
    have he : l = [] := List.eq_nil_iff_forall_not_mem.mpr fun p hp => absurd (hl p hp) (Nat.not_lt.mpr (h.2 p hp))
    subst he
    exact ⟨fun i => by rw [if_neg (by omega)]; rfl, h, hl⟩
  | succ c ih =>
    obtain ⟨hv, hr, hb⟩ := ih h.pastKey (pastKey_below fun p hp => by have := hl p hp; omega)
    rw [sweep_succ f c h]
    have hrest : ∀ i, i ≠ k → mget (fun _ => AccElem.zero) (sweep f c (k + 1) (pastKey k l)) i =
        if k ≤ i ∧ i < k + (c + 1) then f i (mget (fun _ => AccElem.zero) l i) else .zero := by
      intro i hi
      rw [hv]
      by_cases hc : k + 1 ≤ i ∧ i < k + 1 + c
      · rw [if_pos hc, if_pos (by omega), mget_pastKey l (by omega)]
      · rw [if_neg hc, if_neg (by omega)]
    split
    next hz =>
      refine ⟨fun i => ?_, hr.mono (by omega), fun p hp => by have := hb p hp; omega⟩
      by_cases hi : i = k
      · subst i
        rw [if_pos (by omega), hz, hv, if_neg (by omega)]
      · exact hrest i hi
    next hz =>
      refine ⟨fun i => ?_, risesFrom_cons.mpr ⟨le_refl k, hz, hr⟩, fun p hp => ?_⟩
      · by_cases hi : i = k
        · subst i
          rw [if_pos (by omega)]
          simp [mget]
        · rw [← hrest i hi]
          simp [mget, Ne.symm hi]
      · rcases List.mem_cons.mp hp with rfl | hp
        · show k < _
          omega
        · have := hb p hp
          omega

/-- An element that reads as other than zero is listed. -/
theorem mem_of_mget_ne {l : SMap AccElem} {i : Nat} (h : mget (fun _ => AccElem.zero) l i ≠ .zero) :
    (i, mget (fun _ => AccElem.zero) l i) ∈ l := by
  induction l with
  | nil => exact absurd rfl h
  | cons p r ih =>
    obtain ⟨j, w⟩ := p
    by_cases hj : j = i
    · subst j
      simp [mget]
    · simp only [mget, if_neg hj] at h ⊢
      exact List.mem_cons_of_mem _ (ih h)

/-- A listed element reads as its value. -/
theorem mget_of_mem {k : Nat} {l : SMap AccElem} (h : RisesFrom k l) {p : Nat × AccElem} (hp : p ∈ l) : mget (fun _ => AccElem.zero) l p.1 = p.2 := by
  induction l generalizing k with
  | nil => exact absurd hp List.not_mem_nil
  | cons q r ih =>
    obtain ⟨j, w⟩ := q
    obtain ⟨-, -, hr⟩ := risesFrom_cons.mp h
    rcases List.mem_cons.mp hp with rfl | hp
    · simp [mget]
    · have hj : j ≠ p.1 := by have := hr.2 p hp; omega
      simp only [mget, if_neg hj]
      exact ih hr hp

/-- Settles O21, by the sweep over the 16,384 elements. -/
theorem everyElementOfATile : Obligations.EveryElementOfATile := by
  unfold Obligations.EveryElementOfATile
  intro a f hw hb
  obtain ⟨hv, hr, hb'⟩ := sweep_spec f 16384 (k := 0) (l := a.elems) ⟨hw, fun _ _ => Nat.zero_le _⟩ (by simpa using hb)
  have hval : ∀ m n, m < 128 → n < 128 → (a.map f).elem m n = f (128 * m + n) (a.elem m n) := by
    intro m n hm hn
    rw [Acc.elem, Acc.map, hv, if_pos (by omega)]
    rfl
  refine ⟨hval, hr.1, fun p hp => by simpa using hb' p hp, ?_⟩
  simp only [Acc.map, Bool.or_eq_true, List.any_eq_true, Bool.and_eq_true, Bool.not_eq_true']
  refine or_congr_right ⟨?_, ?_⟩
  · rintro ⟨p, hp, hs, hn⟩
    have hlt := hb' p hp
    refine ⟨p.1 / 128, p.1 % 128, by omega, by omega, ?_⟩
    have hp1 : 128 * (p.1 / 128) + p.1 % 128 = p.1 := Nat.div_add_mod _ _
    have hf : f p.1 (mget (fun _ => AccElem.zero) a.elems p.1) = p.2 := by
      rw [← mget_of_mem hr hp, hv, if_pos (by omega)]
    rw [Acc.elem, hp1, hf]
    exact ⟨hs, hn⟩
  · rintro ⟨m, n, hm, hn, hs, ho⟩
    have hget : mget (fun _ => AccElem.zero) (sweep f 16384 0 a.elems) (128 * m + n) = f (128 * m + n) (a.elem m n) := hval m n hm hn
    refine ⟨(128 * m + n, f (128 * m + n) (a.elem m n)), ?_, hs, ho⟩
    rw [← hget]
    refine mem_of_mget_ne ?_
    rw [hget]
    intro hz
    rw [hz] at hs
    exact absurd hs (by decide)

end Sys2Proof.Machine
end

section
/-! PROOFS. Vector arithmetic (O16). -/

namespace Sys2Proof.Machine

/-! ### What a vector instruction leaves -/

/-- Neither operand-cache mode nor its increment is on in the two personalities that use registers alone. -/
theorem VecIdle.registers {x : Tile} {m : Nat} (h : VecIdle x m) (hm : m < 2) : x.vec.r.ocm = false ∧ x.vec.r.pinc = false ∧ x.vec.r.pers = m := by
  obtain ⟨-, -, hv, -⟩ := h
  have : m = 0 ∨ m = 1 := by omega
  rcases this with rfl | rfl <;> simp [VecRegs.ocm, VecRegs.pinc, VecRegs.pers, hv, bit]

/-- The fields whose pointers an instruction moves. -/
def movedFields (v : VRow) (h : QEntry) : List Nat := if wMaj h.word = 0x19 then [] else v.fields h

section Commit
variable {s s1 : State} {t : Tid} {maj min m : Nat} {h : QEntry} {i : Instr} {v : VRow} {e : VEff}

/-- With nothing outstanding an instruction that its personality has is over at once: its effect is on the registers alone. -/
theorem vStep_commits (hs : Starts s t .vector maj min h s1) (hi : VecIdle (s.tile t) m) (hm : m < 2) (hv0 : m = 0 → v.pb = true)
    (hv1 : m = 1 → v.pr = true) (hrun : v.run t h (popHead s1 t .vector) = .ok e (popHead s1 t .vector)) :
    v.start t .ok h (popHead s1 t .vector) = some (vCommit (popHead s1 t .vector) t h e (movedFields v h)) := by
  obtain ⟨-, p2, p3, p4, -, -, -, -, -⟩ := vec_popped hs
  obtain ⟨hw, ho, -, hb⟩ := id hi
  have hpe : ((popHead s1 t .vector).tile t).vec.r.pers = m := by rw [p2]; exact (hi.registers hm).2.2
  have hrb : ((popHead s1 t .vector).tile t).regBad = [] := by rw [(popHead_starts hs).1]; exact hb
  have hbusy : (v.fields h).any (loadBusy ((popHead s1 t .vector).tile t)) = false := by
    rw [List.any_eq_false]
    intro n _
    simp [loadBusy, p4, ho]
  have hwin : windowFull ((popHead s1 t .vector).tile t) = false := by simp [windowFull, p3, hw]
  have hper : ¬ ((m = 0 ∧ (!v.pb) = true) ∨ (m = 1 ∧ (!v.pr) = true)) := by
    rintro (⟨h0, hb⟩ | ⟨h1, hb⟩)
    · simp [hv0 h0] at hb
    · simp [hv1 h1] at hb
  simp only [VRow.start, vStep, hbusy, hwin, hpe, hrun, regFault, hrb, Bool.or_self, and_self, if_true, if_neg hper]
  simp [windowRoom, p3, hw, movedFields]

/-- The commit of an instruction with nothing outstanding leaves its engine done with it. -/
theorem vecDone_of_commit {u : State} {r : VecRegs} {now : Nat} {l : SMap (List (Nat × Nat))} {a : Bool} {tt tc : Nat} (hs : Starts s t .vector maj min h s1)
    (hwin : (s.tile t).vec.win = none) (htile : u.tile t = { (popHead s1 t .vector).tile t with
      vec := { ((popHead s1 t .vector).tile t).vec with r := r, out := [], busyAt := now }, tk := l, aborting := a, trapTime := tt, trapCycles := tc })
    (hsig : SignalApplied (popHead s1 t .vector) u t h) (hother : ∀ j, j ≠ t.val → u.tile j = (popHead s1 t .vector).tile j)
    (hmem : u.mem = (popHead s1 t .vector).mem) : VecDone s1 u t h := by
  obtain ⟨p1, p2, p3, p4, p5, p6, p7, p8, p9⟩ := vec_popped hs
  refine ⟨?_, fun j => ?_, ?_, ?_, ?_, ?_, ?_, ?_, fun j hj => ?_, ?_⟩
  · rw [htile]; exact p6
  · have hz : tkCount ((popHead s1 t .vector).tile t) j = tkCount (s1.tile t) j := by rw [p9]; rfl
    have := hsig j
    rwa [hz] at this
  · rw [htile]
  · rw [htile]; exact p3.trans hwin
  · rw [htile, p9]; rfl
  · rw [htile, p9]; rfl
  · rw [htile, p9]; rfl
  · rw [htile, p9]; rfl
  · rw [hother j hj, p8 j hj]
  · rw [hmem, p7]

theorem vec_commits (hs : Starts s t .vector maj min h s1) (hi : VecIdle (s.tile t) m) (hm : m < 2) (he : exec i s = vecCmd t .ok maj min s)
    (hv : vRow maj min = some v) (hv0 : m = 0 → v.pb = true) (hv1 : m = 1 → v.pr = true)
    (hrun : v.run t h (popHead s1 t .vector) = .ok e (popHead s1 t .vector)) (hload : e.load = none) (hout : e.outcomes = [])
    (hparts : (effParts (s.tile t).vec.r e (movedFields v h)).2 = []) :
    Answers i s fun u => VecDone s1 u t h ∧ (u.tile t).oc = (s.tile t).oc ∧ (u.tile t).vec.r = (effParts (s.tile t).vec.r e (movedFields v h)).1 := by
  have hx : exec i s = .next (vCommit (popHead s1 t .vector) t h e (movedFields v h)) := by
    rw [he, vecCmd, hv]
    dsimp only
    rw [engineStart_starts _ hs, vStep_commits hs hi hm hv0 hv1 hrun]
  obtain ⟨p1, p2, p3, p4, p5, p6, p7, p8, p9⟩ := vec_popped hs
  obtain ⟨l, a, b, c, c1, c2, c3, c4⟩ := vCommit_idle (h := h) (e := e) (fields := movedFields v h) p1 (by rw [p3, hi.1]) (by rw [p4, hi.2.1])
    hload hout (by rw [p2]; exact hparts)
  exact ⟨_, hx, vecDone_of_commit hs hi.1 c1 c2 c3 c4, by rw [c1]; exact p5, by rw [c1, p2]⟩

/-- An instruction that the personality does not have aborts the task for the vector engine (R203). -/
theorem vec_personality {pb : Bool} {fields : QEntry → List Nat} (run : VRun) (hs : Starts s t .vector maj min h s1) (hi : VecIdle (s.tile t) 1)
    (he : exec i s = vecCmd t .ok maj min s) (hv : vRow maj min = some ⟨pb, false, fields, run⟩) :
    Answers i s fun u => (u.tile t).aborting = true ∧ getF u (fTILE_TRAP_CAUSE_UNIT t) = 2 ∧ getF u (fTILE_TRAP_CAUSE_CODE t) = cVEC_PERSONALITY ∧
      (u.tile t).vec.r = (s.tile t).vec.r := by
  obtain ⟨p1, p2, p3, p4, -, -, -, -, -⟩ := vec_popped hs
  have hpe : ((popHead s1 t .vector).tile t).vec.r.pers = 1 := by rw [p2]; exact (hi.registers (by decide)).2.2
  have hbusy : (fields h).any (loadBusy ((popHead s1 t .vector).tile t)) = false := by
    rw [List.any_eq_false]
    intro n _
    simp [loadBusy, p4, hi.2.1]
  have hwin : windowFull ((popHead s1 t .vector).tile t) = false := by simp [windowFull, p3, hi.1]
  have hx : exec i s = .next (trap (popHead s1 t .vector) t 2 cVEC_PERSONALITY h.pc h.word.toNat) := by
    rw [he, vecCmd, hv]
    dsimp only
    rw [engineStart_starts _ hs]
    simp only [VRow.start, vStep, hbusy, hwin, hpe]
    rfl
  obtain ⟨-, hunit, hcode, -, -, -, htile, -, -⟩ := trap_taken 2 cVEC_PERSONALITY h.pc h.word.toNat p1 (by decide) (by decide)
  exact ⟨_, hx, by rw [htile], hunit, hcode, by rw [htile]; exact p2⟩

end Commit

/-! ### The reference personality -/

theorem mem_blocks {r : VecRegs} {km b : Nat} (hb : b < 2) : b ∈ r.blocks km ↔ r.hasActive km b = true := by
  simp [VecRegs.blocks, hb]

theorem blocks_lt {r : VecRegs} {km b : Nat} (h : b ∈ r.blocks km) : b < 2 := by
  simp [VecRegs.blocks] at h
  omega

theorem act_getD {r : VecRegs} {km b l : Nat} (hl : l < 32) : (r.act km b).getD l false = r.active km b l := by
  simp [VecRegs.act, hl]

/-- A lane of a result of the reference personality. -/
theorem refResult_lane (act : List Bool) (old : VBlk) (ins : List VBlk) (p : Bool) (f : Nat → Nat) {l : Nat} (hl : l < 32) :
    (refResult act old ins p f).1.b.m.getD l 0 = if act.getD l false then sgn32 (f l) else old.b.m.getD l 0 := by
  simp [refResult, hl]

section Reference
variable {w : State} {t : Nat} {h : QEntry} {useB sel useD : Bool} {bf : List Bool → Nat → Blk → Blk → (Nat → Bool) → Blk × Bool}
  {rf : Nat → Nat → Nat → Bool → Nat}

/-- The block b that the reference personality computes from the operands of h. -/
def refBlock (useB sel useD : Bool) (rf : Nat → Nat → Nat → Bool → Nat) (x : Tile) (h : QEntry) (b : Nat) : VBlk × Bool × Bool :=
  let act := x.vec.r.act (wKM h.word) b
  refResult act (vGet x (wVD h.word) b)
    ((if useB then [vGet x (wVA h.word) b, bOperand x h b] else [vGet x (wVA h.word) b]) ++ (if useD then [vGet x (wVD h.word) b] else []) ++
      (if act.all (·) then [] else [vGet x (wVD h.word) b]))
    (x.vec.r.maskPoison (wKM h.word) || (sel && x.vec.r.maskPoison (wIMM6 h.word % 8)))
    fun i => rf (lanePat (vGet x (wVA h.word) b) i) (lanePat (bOperand x h b) i) (lanePat (vGet x (wVD h.word) b) i)
      ((x.vec.r.mask (wIMM6 h.word % 8)).getLsbD (32 * b + i))

theorem arith_ref (hm : (w.tile t).vec.r.vmode = 1) (hb : useB = true → bcastFault (w.tile t) h = none) :
    arith useB sel useD bf rf t h w = .ok (blocksEff (wVD h.word) (((w.tile t).vec.r.blocks (wKM h.word)).map fun b =>
      (b, refBlock useB sel useD rf (w.tile t) h b))) w := by
  have hoc : (w.tile t).vec.r.ocm = false := by simp [VecRegs.ocm, hm, bit]
  have hpe : (w.tile t).vec.r.pers = 1 := by simp [VecRegs.pers, hm]
  have hf : (if useB then bcastFault (w.tile t) h else none) = none := by
    cases useB
    · rfl
    · exact hb rfl
  simp only [arith, hf, ocFault_off hoc, ite_self, firstFault, List.findSome?_cons, List.findSome?_nil, id, hpe]
  rfl

end Reference

/-- The registers after an effect on the blocks of one register: each block of the list holds its value. -/
theorem effParts_blk {r : VecRegs} (ho : r.ocm = false) (hp : r.pinc = false) (vd : Nat) (l : List Nat) (q : Nat → VBlk × Bool × Bool) (f : List Nat)
    (hl : ∀ b ∈ l, b < 2) : (effParts r (blocksEff vd (l.map fun b => (b, q b))) f).2 = [] ∧
    ∀ b, b < 2 → (effParts r (blocksEff vd (l.map fun b => (b, q b))) f).1.blk vd b = if b ∈ l then (q b).1 else r.blk vd b := by
  rw [effParts_blocks ho hp]
  refine ⟨rfl, fun b hb => ?_⟩
  rw [List.foldl_map]
  exact (foldl_setBlk vd (fun b => (q b).1) l r hl).1 b hb

theorem ref_lanes {s s1 : State} {t : Tid} {min : Nat} {h : QEntry} {i : Instr} {pb useD : Bool} {fields : QEntry → List Nat}
    {bf : List Bool → Nat → Blk → Blk → (Nat → Bool) → Blk × Bool} {rf : Nat → Nat → Nat → Bool → Nat} {f : Nat → Nat → Nat → Nat}
    (run : VRun) (hs : Starts s t .vector 0x18 min h s1) (hi : VecIdle (s.tile t) 1) (hb : bcastFault (s.tile t) h = none)
    (he : exec i s = vecCmd t .ok 0x18 min s) (hv : vRow 0x18 min = some ⟨pb, true, fields, run⟩) (hrun : run = arith true false useD bf rf) (hf : ∀ a b d k, rf a b d k = f a b d) :
    Answers i s fun u => VecDone s1 u t h ∧ ∀ b l, b < 2 → l < 32 → (s.tile t).vec.r.hasActive (wKM h.word) b = true →
      ((u.tile t).vec.r.blk (wVD h.word) b).b.m.getD l 0 =
        if (s.tile t).vec.r.active (wKM h.word) b l then
          sgn32 (f (lanePat (vGet (s.tile t) (wVA h.word) b) l) (lanePat (bOperand (s.tile t) h b) l)
            (lanePat ((s.tile t).vec.r.blk (wVD h.word) b) l))
        else ((s.tile t).vec.r.blk (wVD h.word) b).b.m.getD l 0 := by
  obtain ⟨-, p2, -, -, -, -, -, -, -⟩ := vec_popped hs
  obtain ⟨hoc, hpi, -⟩ := hi.registers (by decide)
  have hoc' : ((popHead s1 t .vector).tile t).vec.r.ocm = false := by rw [p2]; exact hoc
  have hget : ∀ n b, vGet ((popHead s1 t .vector).tile t) n b = vGet (s.tile t) n b := fun n b => by
    rw [vGet_off hoc, vGet_off hoc', p2]
  have hop : ∀ b, bOperand ((popHead s1 t .vector).tile t) h b = bOperand (s.tile t) h b := fun b => by
    simp only [bOperand, hget, p2]
  have hrun' : run t h (popHead s1 t .vector) = .ok (blocksEff (wVD h.word) (((s.tile t).vec.r.blocks (wKM h.word)).map fun b =>
      (b, refBlock true false useD rf ((popHead s1 t .vector).tile t) h b))) (popHead s1 t .vector) := by
    rw [hrun, arith_ref (by rw [p2]; exact hi.2.2.1) (fun _ => by simp only [bcastFault, p2]; exact hb), p2]
  obtain ⟨hnil, hblk⟩ := effParts_blk hoc hpi (wVD h.word) ((s.tile t).vec.r.blocks (wKM h.word))
    (refBlock true false useD rf ((popHead s1 t .vector).tile t) h) (movedFields ⟨pb, true, fields, run⟩ h) fun b hb => blocks_lt hb
  obtain ⟨u, hu, hdone, -, hregs⟩ := vec_commits hs hi (by decide) he hv (by simp) (fun _ => rfl) hrun' rfl rfl hnil
  refine ⟨u, hu, hdone, fun b l hb2 hl ha => ?_⟩
  rw [hregs, hblk b hb2, if_pos ((mem_blocks hb2).mpr ha), refBlock]
  rw [refResult_lane _ _ _ _ _ hl, hf, p2, act_getD hl, hget, hget, hop, vGet_off hoc (wVD h.word)]

section Rows
variable {s s1 : State} {t : Tid} {maj min : Nat} {h : QEntry} {i : Instr} {pr : Bool} {fields : QEntry → List Nat} {sel : Bool}
  {bf : List Bool → Nat → Blk → Blk → (Nat → Bool) → Blk × Bool} {rf : Nat → Nat → Nat → Bool → Nat} {g : Nat → Blk × Bool}

/-- A row of the table whose run is an operation of two operands, in the BFX personality. -/
theorem bfx_two (run : VRun) (hv : vRow maj min = some ⟨true, pr, fields, run⟩) (hrun : run = arith true sel false bf rf)
    (he : exec i s = vecCmd t .ok maj min s) (hne : maj ≠ 0x19) (hi : VecIdle (s.tile t) 0) (hb : bcastFault (s.tile t) h = none)
    (hs : Starts s t .vector maj min h s1)
    (hg : ∀ b, g b = if (vecA s t h b).isNonfin || (vecB s t h b).isNonfin then (Blk.nonfinite, false) else
      bf (vecAct s t h b) (wIMM6 h.word) (vecA s t h b) (vecB s t h b) fun i => ((s.tile t).vec.r.mask (wIMM6 h.word % 8)).getLsbD (32 * b + i)) :
    VecBlocks i s s1 t h g :=
  arith_two hs hi hb he hv rfl (starts_maj hs) hne hrun hg

/-- And one whose run is an operation of one operand. -/
theorem bfx_one (run : VRun) (hv : vRow maj min = some ⟨true, pr, fields, run⟩) (hrun : run = arith false false false bf rf)
    (he : exec i s = vecCmd t .ok maj min s) (hne : maj ≠ 0x19) (hi : VecIdle (s.tile t) 0) (hs : Starts s t .vector maj min h s1)
    (hg : ∀ b, g b = if (vecA s t h b).isNonfin then (Blk.nonfinite, false) else
      bf (vecAct s t h b) (wIMM6 h.word) (vecA s t h b) (vecB s t h b) fun i => ((s.tile t).vec.r.mask (wIMM6 h.word % 8)).getLsbD (32 * b + i)) :
    VecBlocks i s s1 t h g :=
  arith_one hs hi he hv rfl (starts_maj hs) hne hrun hg

end Rows

/-- Settles O16: the operations of the BFX personality pack each block, and those of the reference personality act on lanes. -/
theorem vectorArithmetic : Obligations.VectorArithmetic := by
  unfold Obligations.VectorArithmetic
  refine ⟨fun s s1 t h hi => ⟨fun hb => ?two, ?vabs, ?vneg, ?vscale, ?vnorm⟩, fun s s1 t h hi => ⟨?ref, ?absent⟩⟩
  case two =>
    exact ⟨fun hs => bfx_two runVadd rfl rfl rfl (by decide) hi hb hs fun _ => rfl,
      fun hs => bfx_two runVsub rfl rfl rfl (by decide) hi hb hs fun _ => rfl,
      fun hs => bfx_two runVrsub rfl rfl rfl (by decide) hi hb hs fun _ => rfl,
      fun hs => bfx_two runVmul rfl rfl rfl (by decide) hi hb hs fun _ => rfl,
      fun hs => bfx_two runVmulh rfl rfl rfl (by decide) hi hb hs fun _ => rfl,
      fun hs => bfx_two runVmin rfl rfl rfl (by decide) hi hb hs fun _ => rfl,
      fun hs => bfx_two runVmax rfl rfl rfl (by decide) hi hb hs fun _ => rfl,
      fun hs => bfx_two runValign rfl rfl rfl (by decide) hi hb hs fun _ => rfl⟩
  case vabs => exact fun hs => bfx_one runVabs rfl rfl rfl (by decide) hi hs fun _ => rfl
  case vneg => exact fun hs => bfx_one runVneg rfl rfl rfl (by decide) hi hs fun _ => rfl
  case vscale => exact fun hs => bfx_one runVscale rfl rfl rfl (by decide) hi hs fun _ => rfl
  case vnorm => exact fun hs => bfx_one runVnorm rfl rfl rfl (by decide) hi hs fun _ => rfl
  case ref =>
    rintro min i f hb hcase hs
    rcases hcase with ⟨rfl, rfl, rfl⟩ | ⟨rfl, rfl, rfl⟩ | ⟨rfl, rfl, rfl⟩ | ⟨rfl, rfl, rfl⟩ | ⟨rfl, rfl, rfl⟩ | ⟨rfl, rfl, rfl⟩ | ⟨rfl, rfl, rfl⟩
    · exact ref_lanes runVadd hs hi hb rfl rfl rfl fun _ _ _ _ => rfl
    · exact ref_lanes runVsub hs hi hb rfl rfl rfl fun _ _ _ _ => rfl
    · exact ref_lanes runVrsub hs hi hb rfl rfl rfl fun _ _ _ _ => rfl
    · exact ref_lanes runVmul hs hi hb rfl rfl rfl fun _ _ _ _ => rfl
    · exact ref_lanes runVfma hs hi hb rfl rfl rfl fun _ _ _ _ => rfl
    · exact ref_lanes runVmin hs hi hb rfl rfl rfl fun _ _ _ _ => rfl
    · exact ref_lanes runVmax hs hi hb rfl rfl rfl fun _ _ _ _ => rfl
  case absent =>
    rintro min i (⟨rfl, rfl⟩ | ⟨rfl, rfl⟩ | ⟨rfl, rfl⟩) hs
    · exact vec_personality runVmulh hs hi rfl rfl
    · exact vec_personality runVabs hs hi rfl rfl
    · exact vec_personality runVnorm hs hi rfl rfl

end Sys2Proof.Machine
end

section
/-! PROOFS. Vector logic, reductions and masks (O17). -/

namespace Sys2Proof.Machine

/-! ### Masks -/

/-- A number that is built from chosen powers of two has the chosen bits. -/
def bitsNat (p : Nat → Bool) (n : Nat) : Nat := (List.range n).foldl (fun a j => if p j then a + 2 ^ j else a) 0

theorem bitsNat_succ (p : Nat → Bool) (n : Nat) : bitsNat p (n + 1) = if p n then bitsNat p n + 2 ^ n else bitsNat p n := by
  rw [bitsNat, List.range_succ, List.foldl_append]
  rfl

theorem bitsNat_lt (p : Nat → Bool) (n : Nat) : bitsNat p n < 2 ^ n := by
  induction n with
  | zero => exact Nat.one_pos
  | succ n ih =>
    rw [bitsNat_succ, pow_succ]
    split <;> omega

theorem testBit_bitsNat (p : Nat → Bool) (n j : Nat) : (bitsNat p n).testBit j = (decide (j < n) && p j) := by
  induction n with
  | zero => simp [bitsNat]
  | succ n ih =>
    have hlt := bitsNat_lt p n
    rw [bitsNat_succ]
    by_cases hp : p n = true
    · rw [if_pos hp, Nat.add_comm, show 2 ^ n + bitsNat p n = 2 ^ n ||| bitsNat p n by
        simpa using Nat.two_pow_add_eq_or_of_lt hlt 1, Nat.testBit_or, ih, Nat.testBit_two_pow]
      by_cases hj : j = n
      · subst hj
        simp [hp]
      · have h1 : decide (n = j) = false := by simp [Ne.symm hj]
        have h2 : decide (j < n + 1) = decide (j < n) := by simp; omega
        rw [h1, h2, Bool.false_or]
    · rw [if_neg hp, ih]
      by_cases hj : j = n
      · subst hj
        simp [hp]
      · have h2 : decide (j < n + 1) = decide (j < n) := by simp; omega
        rw [h2]

theorem mask_setMask (r : VecRegs) (n k : Nat) (v : Word) (p : Bool) : (r.setMask n v p).mask k = if k = n ∧ k ≠ 0 then v else r.mask k := by
  unfold VecRegs.setMask VecRegs.mask
  by_cases hk : k = 0
  · simp [hk]
  · by_cases hn : n = 0
    · have : k ≠ n := by omega
      simp [hk, hn]
    · simp [hk, hn, mget_mset]

section MaskRows
variable {s s1 : State} {t : Tid} {maj min : Nat} {h : QEntry} {i : Instr} {pr : Bool} {fields : QEntry → List Nat}

theorem postInc_off {r : VecRegs} (h : r.pinc = false) (f : List Nat) : postInc r f = r := by
  simp [postInc, h]

/-- An instruction whose effect is one mask register (R176, R182). -/
theorem mask_commits (run : VRun) {n : Nat} {v : Word} {p : Bool} (hs : Starts s t .vector maj min h s1) (hi : VecIdle (s.tile t) 0)
    (he : exec i s = vecCmd t .ok maj min s) (hv : vRow maj min = some ⟨true, pr, fields, run⟩) (hn : n = wVD h.word)
    (hrun : run t h (popHead s1 t .vector) = .ok { VEff.none with k := some (n, v, p) } (popHead s1 t .vector)) : VecMask i s s1 t h v := by
  subst hn
  have hpi : (s.tile t).vec.r.pinc = false := (hi.registers (by decide)).2.1
  have hf : ((s.tile t).vec.r.flags false false).pinc = false := hpi
  have heff : effParts (s.tile t).vec.r { VEff.none with k := some (wVD h.word, v, p) } (movedFields ⟨true, pr, fields, run⟩ h) =
      (((s.tile t).vec.r.setMask (wVD h.word) v p).flags false false, []) := by
    have hm : (((s.tile t).vec.r.setMask (wVD h.word) v p).flags false false).pinc = false := by
      unfold VecRegs.setMask
      split <;> exact hpi
    simp only [effParts, VEff.none, List.foldl_nil, List.append_nil, id, postInc_off hm]
  obtain ⟨u, hu, hdone, hoc, hr⟩ := vec_commits hs hi (by decide) he hv (fun _ => rfl) (by simp) hrun rfl rfl (by rw [heff])
  rw [heff] at hr
  refine ⟨u, hu, hdone, hoc, fun k => ?_, ?_, ?_, ?_, ?_⟩
  · rw [hr]
    exact mask_setMask _ _ _ _ _
  all_goals
    rw [hr]
    unfold VecRegs.setMask
    split <;> rfl

end MaskRows

/-- A mask operation works on all 64 bits. -/
theorem maskOp_commits {s s1 : State} {t : Tid} {min : Nat} {h : QEntry} {i : Instr} {pr : Bool} {fields : QEntry → List Nat} (f : Word → Word → Word)
    (hs : Starts s t .vector 0x18 min h s1) (hi : VecIdle (s.tile t) 0) (he : exec i s = vecCmd t .ok 0x18 min s)
    (hv : vRow 0x18 min = some ⟨true, pr, fields, maskOp f⟩) :
    VecMask i s s1 t h (f ((s.tile t).vec.r.mask (wVA h.word)) ((s.tile t).vec.r.mask (wVB h.word))) := by
  obtain ⟨-, p2, -, -, -, -, -, -, -⟩ := vec_popped hs
  refine mask_commits (maskOp f) hs hi he hv rfl (p := (s.tile t).vec.r.maskPoison (wVA h.word) || (s.tile t).vec.r.maskPoison (wVB h.word)) ?_
  rw [maskOp, p2]

/-- The bit that a comparison leaves for lane j. -/
def compareBit (bf : Int × Int → Int × Int → Bool) (s : State) (t : Nat) (h : QEntry) (j : Nat) : Bool :=
  (s.tile t).vec.r.active (wKM h.word) (j / 32) (j % 32) && (!(vecA s t h (j / 32)).isNonfin && !(vecB s t h (j / 32)).isNonfin &&
    bf ((dyads (vecA s t h (j / 32))).getD (j % 32) (0, 0)) ((dyads (vecB s t h (j / 32))).getD (j % 32) (0, 0)))

theorem compare_commits {s s1 : State} {t : Tid} {min : Nat} {h : QEntry} {i : Instr} {pr : Bool} {fields : QEntry → List Nat}
    (bf : Int × Int → Int × Int → Bool) (rf : Val → Val → Bool)
    (hs : Starts s t .vector 0x18 min h s1) (hi : VecIdle (s.tile t) 0) (hb : bcastFault (s.tile t) h = none) (hvl : (s.tile t).vec.r.vl ≠ 0)
    (he : exec i s = vecCmd t .ok 0x18 min s) (hv : vRow 0x18 min = some ⟨true, pr, fields, compare bf rf⟩) :
    ∃ v : Word, VecMask i s s1 t h v ∧ ∀ j, j < 64 → (v.getLsbD j = true ↔ compareBit bf s t h j = true) := by
  obtain ⟨-, p2, -, -, -, -, -, -, -⟩ := vec_popped hs
  obtain ⟨o1, o2, o3⟩ := operands_popped hs hi
  obtain ⟨hoc, -, hpe⟩ := hi.registers (by decide)
  have hoc' : ((popHead s1 t .vector).tile t).vec.r.ocm = false := by rw [p2]; exact hoc
  refine ⟨BitVec.ofNat 64 (bitsNat (compareBit bf s t h) 64), mask_commits (compare bf rf) hs hi he hv rfl
    (p := (s.tile t).vec.r.maskPoison (wKM h.word) || ((s.tile t).vec.r.blocks (wKM h.word)).any fun b =>
      (vGet (s.tile t) (wVA h.word) b).poison || (bOperand (s.tile t) h b).poison) ?_, fun j hj => ?_⟩
  · simp only [compare, o3, hb, ocFault_off hoc', ite_self, firstFault, List.findSome?_cons, List.findSome?_nil, id, p2, if_neg hvl, o1, o2, hpe]
    rfl
  · rw [BitVec.getLsbD_ofNat, testBit_bitsNat]
    simp [hj]

/-! ### Reductions and seeds -/

theorem bfxResult_many (l : List VBlk) (p : Bool) (f : Unit → Blk × Bool) :
    (bfxResult l p f).1.b = (if l.any (fun v => v.b.isNonfin) then (Blk.nonfinite, false) else f ()).1 ∧
    (bfxResult l p f).2.1 = (if l.any (fun v => v.b.isNonfin) then (Blk.nonfinite, false) else f ()).2 ∧
    (bfxResult l p f).2.2 = (if l.any (fun v => v.b.isNonfin) then (Blk.nonfinite, false) else f ()).1.isNonfin := by
  simp only [bfxResult]
  split <;> simp_all [Blk.isNonfin, Blk.nonfinite]

/-- The blocks over which block b is reduced: itself, or with SPAN = 1 every block with an active lane (R189). -/
def spanOf (s : State) (t : Nat) (h : QEntry) (b : Nat) : List Nat :=
  if wIMM6 h.word % 2 = 1 then (s.tile t).vec.r.blocks (wKM h.word) else [b]

/-- The active lanes of those blocks. -/
def lanesOf (s : State) (t : Nat) (h : QEntry) (b : Nat) : List (Int × Int) :=
  (spanOf s t h b).flatMap fun c =>
    ((List.range 32).filter ((s.tile t).vec.r.active (wKM h.word) c)).map fun i => (dyads (vecA s t h c)).getD i (0, 0)

/-- The sum of the lanes in every lane (R189). -/
def sumLanes (act : List Bool) (ls : List (Int × Int)) (_ : Int) : Blk × Bool :=
  toBfx (maskVals act (List.replicate 32 (.fin (decide ((ls.foldl dyAdd (0, 0)).1 < 0)) (ls.foldl dyAdd (0, 0)).1.natAbs (ls.foldl dyAdd (0, 0)).2)))

/-- The greatest lane, or with ABS the greatest magnitude, in every lane (R190). -/
def topLanes (n : Nat) (act : List Bool) (ls : List (Int × Int)) (e : Int) : Blk × Bool :=
  pack act (List.replicate 32
    (match (ls.map fun p => if bit n 1 then ((p.1.natAbs : Int), p.2) else p) with | [] => (0, 0) | p :: l => l.foldl dyMax p)) e

theorem topLanes_eq (n : Nat) (act : List Bool) (ls : List (Int × Int)) (e : Int) :
    topLanes n act ls e = pack act (List.replicate 32
      (match (if bit n 1 then ls.map fun p => ((p.1.natAbs : Int), p.2) else ls) with | [] => (0, 0) | p :: l => l.foldl dyMax p)) e := by
  unfold topLanes
  cases bit n 1
  · simp
  · simp

theorem runVrmax_eq (t : Nat) (h : QEntry) (w : State) : runVrmax t h w = reduce (topLanes (wIMM6 h.word)) t h w := by
  rw [show topLanes (wIMM6 h.word) = _ from funext fun act => funext fun ls => funext fun e => topLanes_eq _ act ls e]
  rfl

theorem reduce_blocks {s s1 : State} {t : Tid} {min : Nat} {h : QEntry} {i : Instr} {pr : Bool} {fields : QEntry → List Nat}
    {run : VRun} {f : List Bool → List (Int × Int) → Int → Blk × Bool} {g : Nat → Blk × Bool}
    (hs : Starts s t .vector 0x1A min h s1) (hi : VecIdle (s.tile t) 0) (he : exec i s = vecCmd t .ok 0x1A min s)
    (hv : vRow 0x1A min = some ⟨true, pr, fields, run⟩) (hrun : ∀ w, run t h w = reduce f t h w)
    (hg : ∀ b, g b = if (spanOf s t h b).any (fun c => (vecA s t h c).isNonfin) then (Blk.nonfinite, false) else
      f (vecAct s t h b) (lanesOf s t h b) ((spanOf s t h b).foldl (fun e c => max e ((vecA s t h c).e : Int)) 0)) :
    VecBlocks i s s1 t h g := by
  obtain ⟨-, p2, -, -, -, -, -, -, -⟩ := vec_popped hs
  obtain ⟨o1, -, -⟩ := operands_popped hs hi
  obtain ⟨hoc, -, -⟩ := hi.registers (by decide)
  have hoc' : ((popHead s1 t .vector).tile t).vec.r.ocm = false := by rw [p2]; exact hoc
  refine vec_blocks hs hi he hv rfl (by rw [starts_maj hs]; rfl)
    ⟨fun b => bfxResult ((spanOf s t h b).map (vGet (s.tile t) (wVA h.word))) ((s.tile t).vec.r.maskPoison (wKM h.word)) fun _ =>
      f (vecAct s t h b) (lanesOf s t h b) ((spanOf s t h b).foldl (fun e c => max e ((vecA s t h c).e : Int)) 0), ?_, fun b => ?_⟩
  · show run t h _ = _
    rw [hrun]
    simp only [reduce, ocFault_off hoc', firstFault, List.findSome?_cons, List.findSome?_nil, id, p2, List.foldl_map,
      show ∀ n b, vGet ((popHead s1 t .vector).tile t) n b = vGet (s.tile t) n b from o1,
      show ∀ n, vGet ((popHead s1 t .vector).tile t) n = vGet (s.tile t) n from fun n => funext (o1 n)]
    rfl
  · have := bfxResult_many ((spanOf s t h b).map (vGet (s.tile t) (wVA h.word))) ((s.tile t).vec.r.maskPoison (wKM h.word)) fun _ =>
      f (vecAct s t h b) (lanesOf s t h b) ((spanOf s t h b).foldl (fun e c => max e ((vecA s t h c).e : Int)) 0)
    rw [List.any_map] at this
    rw [hg]
    exact this

theorem vseed_blocks {s s1 : State} {t : Tid} {h : QEntry} (hs : Starts s t .vector 0x1A 0x01 h s1) (hi : VecIdle (s.tile t) 0) :
    VecBlocks (.vseed t .ok) s s1 t h (ofOne s t h fun act a =>
      toBfx ((List.range 32).map fun i => if act.getD i false then
        (match seedOne (wIMM6 h.word % 4) (a.m.getD i 0) a.e with | some p => .fin (decide (p.1 < 0)) p.1.natAbs p.2 | none => .nan)
        else .fin false 0 0)) := by
  obtain ⟨-, p2, -, -, -, -, -, -, -⟩ := vec_popped hs
  obtain ⟨o1, -, -⟩ := operands_popped hs hi
  obtain ⟨hoc, -, -⟩ := hi.registers (by decide)
  have hoc' : ((popHead s1 t .vector).tile t).vec.r.ocm = false := by rw [p2]; exact hoc
  refine vec_blocks (v := ⟨true, false, fieldsVR true true false, runVseed⟩) hs hi rfl rfl rfl (by rw [starts_maj hs]; rfl)
    ⟨fun b => bfxResult [vGet (s.tile t) (wVA h.word) b] ((s.tile t).vec.r.maskPoison (wKM h.word)) fun _ =>
      toBfx ((List.range 32).map fun i => if (vecAct s t h b).getD i false then
        (match seedOne (wIMM6 h.word % 4) ((vecA s t h b).m.getD i 0) (vecA s t h b).e with
          | some p => .fin (decide (p.1 < 0)) p.1.natAbs p.2 | none => .nan)
        else .fin false 0 0), ?_, fun b => bfxResult_one _ _ _⟩
  show runVseed t h _ = _
  simp only [runVseed, ocFault_off hoc', firstFault, List.findSome?_cons, List.findSome?_nil, id, p2, o1]
  rfl

theorem vsplat_blocks {s s1 : State} {t : Tid} {h : QEntry} (hs : Starts s t .vector 0x1A 0x04 h s1) (hi : VecIdle (s.tile t) 0) :
    VecBlocks (.vsplat t .ok) s s1 t h
      (ofOne s t h fun act a => (maskBlk act ⟨a.e, List.replicate 32 (a.m.getD (wIMM6 h.word % 32) 0)⟩, false)) := by
  obtain ⟨-, p2, -, -, -, -, -, -, -⟩ := vec_popped hs
  obtain ⟨o1, -, -⟩ := operands_popped hs hi
  have hpe : ((popHead s1 t .vector).tile t).vec.r.pers = 0 := by rw [p2]; exact (hi.registers (by decide)).2.2
  obtain ⟨q, hq, hval⟩ := arith_run (w := popHead s1 t .vector) (t := t) (h := h) (useB := false) (sel := false) (useD := false)
    (bf := fun act n a _ _ => (maskBlk act ⟨a.e, List.replicate 32 (a.m.getD (n % 32) 0)⟩, false)) (rf := fun a _ _ _ => a)
    (by rw [p2]; exact hi.2.2.1) (by simp)
  refine vec_blocks (v := ⟨true, true, fieldsVR true true false, runSplat⟩) hs hi rfl rfl rfl (by rw [starts_maj hs]; rfl) ⟨q, ?_, fun b => ?_⟩
  · rw [p2] at hq
    rw [← hq]
    exact if_pos hpe
  · rw [hval]
    simp only [Bool.false_eq_true, if_false, List.append_nil, o1, p2]
    exact bfxResult_one _ _ _

/-- Settles O17: the rows of the table are operations of one or two operands, reductions or mask operations. -/
theorem vectorLogicReductionsMasks : Obligations.VectorLogicReductionsMasks := by
  unfold Obligations.VectorLogicReductionsMasks
  refine ⟨?blocks, ?masks⟩
  case blocks =>
    rintro s s1 t h _ _ hi rfl rfl
    refine ⟨fun hb => ?two, ?vshl, ?vsra, ?vsrr, ?vmov, ?vsplat, fun hs => vseed_blocks hs hi, ?reductions⟩
    case two =>
      exact ⟨fun hs => bfx_two runVand rfl rfl rfl (by decide) hi hb hs fun _ => rfl,
        fun hs => bfx_two runVor rfl rfl rfl (by decide) hi hb hs fun _ => rfl,
        fun hs => bfx_two runVxor rfl rfl rfl (by decide) hi hb hs fun _ => rfl,
        fun hs => bfx_two runVandn rfl rfl rfl (by decide) hi hb hs fun _ => rfl,
        fun hs => bfx_two runVsel rfl rfl rfl (by decide) hi hb hs fun _ => rfl⟩
    case vshl => exact fun hs => bfx_one runVshl rfl rfl rfl (by decide) hi hs fun _ => rfl
    case vsra => exact fun hs => bfx_one runVsra rfl rfl rfl (by decide) hi hs fun _ => rfl
    case vsrr => exact fun hs => bfx_one runVsrr rfl rfl rfl (by decide) hi hs fun _ => rfl
    case vmov => exact fun hs => bfx_one runVmov rfl rfl rfl (by decide) hi hs fun _ => rfl
    case vsplat => exact fun hs => vsplat_blocks hs hi
    case reductions =>
      rintro _ _ rfl rfl
      exact ⟨fun hs => reduce_blocks (run := runVrsum) (f := sumLanes) hs hi rfl rfl (fun _ => rfl) fun b => rfl,
        fun hs => reduce_blocks (run := runVrmax) (f := topLanes (wIMM6 h.word)) hs hi rfl rfl (runVrmax_eq t h) fun b => rfl⟩
  case masks =>
    rintro s s1 t h _ hi rfl
    refine ⟨?compare, fun hs => maskOp_commits (· &&& ·) hs hi rfl rfl, fun hs => maskOp_commits (· ||| ·) hs hi rfl rfl,
      fun hs => maskOp_commits (· ^^^ ·) hs hi rfl rfl⟩
    rintro min i p (⟨rfl, rfl, rfl⟩ | ⟨rfl, rfl, rfl⟩ | ⟨rfl, rfl, rfl⟩) hs hb hvl
    · obtain ⟨v, hv, hbits⟩ := compare_commits (i := .vcmplt t .ok) dyLt (valLt false) hs hi hb hvl rfl rfl
      exact ⟨v, hv, fun j hj => by rw [hbits j hj]; simp [compareBit, and_assoc]⟩
    · obtain ⟨v, hv, hbits⟩ := compare_commits (i := .vcmple t .ok) (fun p q => !dyLt q p) _ hs hi hb hvl rfl rfl
      exact ⟨v, hv, fun j hj => by rw [hbits j hj]; simp [compareBit, and_assoc]⟩
    · obtain ⟨v, hv, hbits⟩ := compare_commits (i := .vcmpeq t .ok) (fun p q => !dyLt p q && !dyLt q p) _ hs hi hb hvl rfl rfl
      exact ⟨v, hv, fun j hj => by rw [hbits j hj]; simp [compareBit, and_assoc]⟩

end Sys2Proof.Machine
end

section
/-! PROOFS. Vector pointers and special registers (O18). -/

namespace Sys2Proof.Machine

/-! ### A mask register with an uncorrectable word -/

/-- VMOV of v0 to itself under mask k1. -/
def maskedMove : QEntry := ⟨BitVec.ofNat 64 (0x18 * 2 ^ 58 + 0x14 * 2 ^ 52 + 1 * 2 ^ 34), 0, [], 0, none, false, none⟩

/-- Tile 0 in operand-cache mode with the pointer increment, where k1 holds an uncorrectable word. -/
def spoiltMaskTile : Tile :=
  { Tile.reset with
    phase := .running, regBad := [.kreg 1]
    vec := { VecUnit.reset with queue := [maskedMove], r := { VecRegs.start with vmode := 6, vl := 1 } } }

def spoiltMask : State := (setF State.reset (fPKG_DIE_STATUS_STATE 0) 1).setTile 0 spoiltMaskTile

theorem spoiltMask_tile : spoiltMask.tile (0 : Tid).val = spoiltMaskTile := tile_setTile_same _ _ _

theorem spoiltMask_starts : Starts spoiltMask 0 .vector 0x18 0x14 maskedMove spoiltMask := by
  refine ⟨by decide, by decide, ?_⟩
  rw [takeToken, if_pos (by decide)]

/-- The move reads the mask register, so that it aborts the task and moves no pointer. -/
theorem spoiltMask_pointer {u : State} (h : exec (.vmov 0 .ok) spoiltMask = .next u) : (u.tile (0 : Tid).val).vec.r.ptr 0 = 0 := by
  have hv : (match exec (.vmov 0 .ok) spoiltMask with | .next u => (u.tile 0).vec.r.ptr 0 | _ => 1) = 0 := by decide
  rwa [h] at hv

/-- Refutes O18: the statement says nothing of uncorrectable register words (R170). Where the mask register holds one, VMOV aborts the task
instead of moving the pointers. -/
theorem not_vectorPointersAndSpecialRegisters : ¬ Obligations.VectorPointersAndSpecialRegisters := by
  unfold Obligations.VectorPointersAndSpecialRegisters
  rintro ⟨hmove, -⟩
  obtain ⟨u, hu, -, -, -, -, hptr⟩ := hmove spoiltMask spoiltMask 0 maskedMove spoiltMaskTile.vec.r 0 0 0 0
    (fun b => (ofOne spoiltMask 0 maskedMove (fun act a => (maskBlk act a, false)) b).1) (by rw [spoiltMask_tile]; rfl) (by rw [spoiltMask_tile]; rfl)
    (by rw [spoiltMask_tile]) (by decide) (by decide) (by decide) (by decide) (by decide) (by decide) spoiltMask_starts
    (by rw [spoiltMask_tile]; decide) (by rw [spoiltMask_tile]; decide) rfl
    (fun b => by show (vGet (spoiltMask.tile (0 : Tid).val) _ b).b = _; rw [spoiltMask_tile]; rfl) (.inr rfl)
  have h0 := hptr 0 (by decide)
  rw [spoiltMask_pointer hu] at h0
  exact absurd h0 (by decide)

end Sys2Proof.Machine
end

section
/-! PROOFS. The verification window (O19). -/

namespace Sys2Proof.Machine

/-! ### Vector instructions while a verification window is open -/

section Window
variable {s s1 w2 : State} {t : Tid} {maj min : Nat} {h : QEntry} {i : Instr} {pr : Bool} {fields : QEntry → List Nat} {run : VRun} {e : VEff} {W : Window}

/-- An instruction that acts on registers alone commits where the window, if one is open, has room. -/
theorem vStep_goes (hs : Starts s t .vector maj min h s1) (hout : (s.tile t).vec.out = []) (hmode : (s.tile t).vec.r.vmode = 0)
    (hbad : (s.tile t).regBad = []) (hfull : windowFull (s.tile t) = false) (he : exec i s = vecCmd t .ok maj min s)
    (hv : vRow maj min = some ⟨true, pr, fields, run⟩) (hmaj : maj ≠ 0x19)
    (hrun : run t h (popHead s1 t .vector) = .ok e w2)
    (hroom : windowRoom (w2.tile t) ((effParts (w2.tile t).vec.r e (fields h)).2.foldl (fun a w => a + w.bytes.length) 0) = true) :
    exec i s = .next (vCommit w2 t h e (fields h)) := by
  obtain ⟨-, p2, p3, p4, -, -, -, -, -⟩ := vec_popped hs
  have hpe : ((popHead s1 t .vector).tile t).vec.r.pers = 0 := by rw [p2]; simp [VecRegs.pers, hmode]
  have hrb : ((popHead s1 t .vector).tile t).regBad = [] := by rw [(popHead_starts hs).1]; exact hbad
  have hbusy : (fields h).any (loadBusy ((popHead s1 t .vector).tile t)) = false := by
    rw [List.any_eq_false]
    intro n _
    simp [loadBusy, p4, hout]
  have hwin : windowFull ((popHead s1 t .vector).tile t) = false := by simpa only [windowFull, p3] using hfull
  have hinc : (if wMaj h.word = 0x19 then [] else fields h) = fields h := if_neg (by rw [starts_maj hs]; exact hmaj)
  rw [he, vecCmd, hv]
  dsimp only
  rw [engineStart_starts _ hs]
  simp only [VRow.start, vStep, hbusy, hwin, hpe, hrun, regFault, hrb, hinc, Bool.or_self, and_self, if_true, hroom]
  rfl

/-- Under an open window an instruction joins the replay buffer, and its signal waits (R198). -/
theorem vCommit_window {w : State} {fs : List Nat} (hw : (w.tile t).vec.win = some W) (hload : e.load = none) :
    vCommit w t h e fs = w.setTile t { w.tile t with vec := { (w.tile t).vec with
      r := (effParts (w.tile t).vec.r e fs).1
      win := some { W with replay := W.replay ++ [h], held := W.held ++ (effParts (w.tile t).vec.r e fs).2, outcomes := W.outcomes ++ e.outcomes,
                           sigs := W.sigs ++ ((sigOf h).toList.map fun k => (k, h.pc)) }
      busyAt := w.now } } := by
  simp [vCommit, hw, hload]

theorem sigOf_list (h : QEntry) : ((sigOf h).toList.map fun k => (k, h.pc)) = if wSE h.word then [(wSTK h.word, h.pc)] else [] := by
  unfold sigOf
  split <;> rfl

end Window

/-! ### Reads of an accumulator tile -/

section ReadAcc
variable {s s1 : State} {t : Tid} {h : QEntry} {v a : Nat}

/-- The value that VRDACC gives lane i of block b (R188). -/
def accLane (s : State) (t : Nat) (h : QEntry) (v a b i : Nat) : Val :=
  f32v (if bit (wIMM6 h.word) 1 then ((s.tile t).acc a).elem (64 * (bit v 7).toNat + 32 * b + i) (v % 128)
    else ((s.tile t).acc a).elem (v % 128) (64 * (bit v 7).toNat + 32 * b + i)).value

def accBlock (s : State) (t : Nat) (h : QEntry) (v a b : Nat) : Blk × Bool :=
  toBfx (maskVals (vecAct s t h b) ((List.range 32).map (accLane s t h v a b)))

/-- The blocks of VRDACC with their poison. -/
def accBlocks (s : State) (t : Nat) (h : QEntry) (v a b : Nat) : VBlk × Bool × Bool :=
  (⟨(accBlock s t h v a b).1, ((s.tile t).acc a).unverified || (s.tile t).vec.r.maskPoison (wKM h.word)⟩, (accBlock s t h v a b).2,
    (accBlock s t h v a b).1.isNonfin)

theorem runVrdacc_ok (hs : Starts s t .vector 0x1A 0x00 h s1) (ha : a = wIMM6 h.word % 2) (hv : capS h (wSS h.word) = v) (hv256 : v < 256)
    (hmode : (s.tile t).vec.r.vmode = 0) (hout : (s.tile t).vec.out = []) (hwin : (s.tile t).vec.win = none)
    (hbound : (s.tile t).fill.bound ≠ some a) (hmat : (s.tile t).mat.run = []) (hre : a ∉ (s.tile t).mat.recompute) :
    runVrdacc t h (popHead s1 t .vector) = .ok (blocksEff (wVD h.word) (((s.tile t).vec.r.blocks (wKM h.word)).map fun b =>
      (b, accBlocks s t h v a b)))
      (if ((s.tile t).acc a).unverified then openWindow (popHead s1 t .vector) t a else popHead s1 t .vector) := by
  subst ha hv
  obtain ⟨-, p2, p3, p4, -, -, -, -, -⟩ := vec_popped hs
  have hp := (popHead_starts hs).1
  have hoc : ((popHead s1 t .vector).tile t).vec.r.ocm = false := by rw [p2]; simp [VecRegs.ocm, hmode, bit]
  have hpe : (s.tile t).vec.r.pers = 0 := by simp [VecRegs.pers, hmode]
  have hacc : ((popHead s1 t .vector).tile t).acc = (s.tile t).acc := by rw [hp]; rfl
  have hfill : ((popHead s1 t .vector).tile t).fill = (s.tile t).fill := by rw [hp]; rfl
  have hmatu : ((popHead s1 t .vector).tile t).mat = (s.tile t).mat := by rw [hp]; rfl
  have hab : accBound ((popHead s1 t .vector).tile t) (wIMM6 h.word % 2) = false := by simp [accBound, hfill, hbound]
  have haw : accWriting ((popHead s1 t .vector).tile t) (wIMM6 h.word % 2) = false := by
    simp [accWriting, hfill, hmatu, hmat, hbound, hre]
  have hv' : capS h (wSS h.word) % 256 = capS h (wSS h.word) := Nat.mod_eq_of_lt hv256
  simp only [runVrdacc, hab, hv', ocFault_off hoc, firstFault, List.findSome?_cons, List.findSome?_nil, id, haw, p2, p3, p4, hout, hwin, hpe, hacc,
    anyLoad, ne_eq, not_true_eq_false, if_false, Bool.false_eq_true, List.any_nil, Bool.and_false, Bool.or_self, if_true, Option.isNone_none]
  rfl

theorem vrdacc_verified (hs : Starts s t .vector 0x1A 0x00 h s1) (ha : a = wIMM6 h.word % 2) (hv : capS h (wSS h.word) = v) (hv256 : v < 256)
    (hi : VecIdle (s.tile t) 0) (hbound : (s.tile t).fill.bound ≠ some a) (hmat : (s.tile t).mat.run = []) (hre : a ∉ (s.tile t).mat.recompute)
    (hver : ((s.tile t).acc a).unverified = false) : VecBlocks (.vrdacc t .ok) s s1 t h (accBlock s t h v a) := by
  obtain ⟨hwin, hout, hmode, hbad⟩ := id hi
  have hrun := runVrdacc_ok hs ha hv hv256 hmode hout hwin hbound hmat hre
  rw [hver, if_neg (by decide)] at hrun
  refine vec_blocks (v := ⟨true, true, fun h => [wVD h.word], runVrdacc⟩) hs hi rfl rfl rfl (by rw [starts_maj hs]; rfl) ⟨_, hrun, fun b => ⟨rfl, rfl, rfl⟩⟩

/-- A read of an unverified tile opens a window, and its blocks are poisoned (R196, R198). -/
theorem vrdacc_unverified (hs : Starts s t .vector 0x1A 0x00 h s1) (ha : a = wIMM6 h.word % 2) (hv : capS h (wSS h.word) = v) (hv256 : v < 256)
    (hi : VecIdle (s.tile t) 0) (hbound : (s.tile t).fill.bound ≠ some a) (hmat : (s.tile t).mat.run = []) (hre : a ∉ (s.tile t).mat.recompute)
    (hver : ((s.tile t).acc a).unverified = true) : Answers (.vrdacc t .ok) s fun u =>
      Counts s u (fTILE_VEC_WINDOWS_OPENED t) 1 ∧
      (∃ w, (u.tile t).vec.win = some w ∧ w.shadow = (s.tile t).vec.r ∧ w.replay = [h] ∧ w.accs = [a] ∧ w.failed = false ∧ w.held = []) ∧
      (∀ b, b < 2 → (s.tile t).vec.r.hasActive (wKM h.word) b = true → (u.tile t).vec.r.blk (wVD h.word) b = ⟨(accBlock s t h v a b).1, true⟩) ∧
      (u.tile t).tk = (s1.tile t).tk ∧ u.mem = s.mem := by
  obtain ⟨hwin, hout, hmode, hbad⟩ := id hi
  have hrun := runVrdacc_ok hs ha hv hv256 hmode hout hwin hbound hmat hre
  rw [hver, if_pos rfl] at hrun
  obtain ⟨-, p2, p3, p4, -, -, p7, -, p9⟩ := vec_popped hs
  obtain ⟨hoc, hpi, -⟩ := hi.registers (by decide)
  obtain ⟨hnil, hblk⟩ := effParts_blk hoc hpi (wVD h.word) ((s.tile t).vec.r.blocks (wKM h.word)) (accBlocks s t h v a) [wVD h.word]
    fun b hb => blocks_lt hb
  obtain ⟨w2, hw2⟩ : ∃ w2, w2 = openWindow (popHead s1 t .vector) t a := ⟨_, rfl⟩
  rw [← hw2] at hrun
  have htile : w2.tile t = { (popHead s1 t .vector).tile t with vec := { ((popHead s1 t .vector).tile t).vec with
      win := some ⟨(s.tile t).vec.r, [], [], [], [], [a], false⟩ } } := by
    rw [hw2, openWindow, tile_onTile_same, tile_addF, p2]
  have hr : (w2.tile t).vec.r = (s.tile t).vec.r := by rw [htile]; exact p2
  have hw : (w2.tile t).vec.win = some ⟨(s.tile t).vec.r, [], [], [], [], [a], false⟩ := by rw [htile]
  have he := vStep_goes (i := .vrdacc t .ok) (fields := fun h => [wVD h.word]) hs hout hmode hbad (by simp [windowFull, hwin]) rfl rfl (by decide) hrun
    (by rw [hr, hnil, windowRoom, hw]; rfl)
  rw [vCommit_window hw rfl, hr, hnil] at he
  refine ⟨_, he, ?_, ⟨_, by rw [tile_setTile_same], rfl, rfl, rfl, rfl, rfl⟩, fun b hb hact => ?_, ?_, ?_⟩
  · have hf : s1 = { s with tiles := s1.tiles } := (starts_frame hs).1
    have hcsr : (popHead s1 t .vector).csr = s.csr := by
      show s1.csr = s.csr
      rw [hf]
    rw [Counts, getF_setTile, hw2, openWindow, getF_onTile, addF, getF_setF_same, getF_csr hcsr]
  · rw [tile_setTile_same]
    dsimp only
    rw [hblk b hb, if_pos ((mem_blocks hb).mpr hact), accBlocks, hver]
    rfl
  · rw [tile_setTile_same, htile, p9]
    rfl
  · rw [setTile_mem, hw2]
    show (popHead s1 t .vector).mem = s.mem
    rw [p7, (starts_frame hs).1]

end ReadAcc

/-- VMOV under an open window (R198). -/
theorem vmov_window {s s1 : State} {t : Tid} {h : QEntry} {W : Window} (hs : Starts s t .vector 0x18 0x14 h s1) (hout : (s.tile t).vec.out = [])
    (hmode : (s.tile t).vec.r.vmode = 0) (hbad : (s.tile t).regBad = []) (hwin : (s.tile t).vec.win = some W) (hfail : W.failed = false)
    (hlen : W.replay.length < 256) (hheld : heldBytes W < 65536) :
    Answers (.vmov t .ok) s fun u => (u.tile t).tk = (s1.tile t).tk ∧ u.mem = s.mem ∧ (u.tile t).oc = (s.tile t).oc ∧
      (∃ w', (u.tile t).vec.win = some w' ∧ w'.replay = W.replay ++ [h] ∧ w'.shadow = W.shadow ∧ w'.held = W.held ∧
        w'.sigs = W.sigs ++ (if wSE h.word then [(wSTK h.word, h.pc)] else [])) ∧
      ∀ b, b < 2 → (s.tile t).vec.r.hasActive (wKM h.word) b = true → (u.tile t).vec.r.blk (wVD h.word) b =
        ⟨(ofOne s t h (fun act x => (maskBlk act x, false)) b).1,
          (s.tile t).vec.r.maskPoison (wKM h.word) || ((s.tile t).vec.r.blk (wVA h.word) b).poison⟩ := by
  obtain ⟨-, p2, p3, p4, p5, -, p7, -, p9⟩ := vec_popped hs
  have hoc : (s.tile t).vec.r.ocm = false := by simp [VecRegs.ocm, hmode, bit]
  have hpi : (s.tile t).vec.r.pinc = false := by simp [VecRegs.pinc, hmode, bit]
  have hoc' : ((popHead s1 t .vector).tile t).vec.r.ocm = false := by rw [p2]; exact hoc
  obtain ⟨q, hq, hval⟩ := arith_run (w := popHead s1 t .vector) (t := t) (h := h) (useB := false) (sel := false) (useD := false)
    (bf := fun act _ a _ _ => (maskBlk act a, false)) (rf := fun a _ _ _ => a) (by rw [p2]; exact hmode) (by simp)
  rw [p2] at hq
  obtain ⟨hnil, hblk⟩ := effParts_blk hoc hpi (wVD h.word) ((s.tile t).vec.r.blocks (wKM h.word)) q (fieldsVR true true false h)
    fun b hb => blocks_lt hb
  have hw : ((popHead s1 t .vector).tile t).vec.win = some W := by rw [p3, hwin]
  have he := vStep_goes (i := .vmov t .ok) (run := runVmov) hs hout hmode hbad (by simp [windowFull, hwin, hfail, hlen, hheld]) rfl rfl (by decide) hq
    (by rw [p2, hnil, windowRoom, hw]; simpa using Nat.le_of_lt hheld)
  rw [vCommit_window hw rfl, p2, hnil, List.append_nil, sigOf_list] at he
  refine ⟨_, he, ?_, ?_, ?_, ⟨{ W with
      replay := W.replay ++ [h], outcomes := W.outcomes ++ [], sigs := W.sigs ++ (if wSE h.word then [(wSTK h.word, h.pc)] else []) },
    congrArg (fun x => x.vec.win) (tile_setTile_same _ _ _), rfl, rfl, rfl, rfl⟩, fun b hb hact => ?_⟩
  · rw [tile_setTile_same, p9]
    rfl
  · rw [setTile_mem, p7, (starts_frame hs).1]
  · rw [tile_setTile_same]
    exact p5
  · rw [tile_setTile_same]
    dsimp only
    rw [hblk b hb, if_pos ((mem_blocks hb).mpr hact), hval]
    simp only [Bool.false_eq_true, if_false, List.append_nil, p2, Bool.false_and, Bool.or_false, ofOne, vecA, vecAct, vGet_off hoc, vGet_off hoc']
    simp only [bfxResult, List.any_cons, List.any_nil, Bool.or_false]
    split <;> rfl

/-! ### The replay -/

theorem windowReplay_starts {s : State} {t : Tid} {W : Window} (hl : isLive s t = true) (hc : clkRuns s t = true) (hredo : (s.tile t).vec.redo = [])
    (hout : (s.tile t).vec.out = []) (hbad : (s.tile t).regBad = [])
    (hwin : (s.tile t).vec.win = some W) (hfail : W.failed = true) (hre : (s.tile t).mat.recompute = [])
    (hacc : ∀ n ∈ W.accs, ((s.tile t).acc n).unverified = false ∧ accWriting (s.tile t) n = false) :
    ∃ v, exec (.windowReplay ⟨t, .ok⟩) s = .next (replayGo v t .ok W.replay) ∧ Counts s v (fTILE_VEC_WINDOWS_REPLAYS t) 1 ∧
      TileBecomes { s with csr := v.csr } v t { s.tile t with vec := { (s.tile t).vec with r := W.shadow, win := none, busyAt := s.now } } ∧
      FieldsKept s v [fTILE_VEC_WINDOWS_REPLAYS t] := by
  obtain ⟨y, hy⟩ : ∃ y, y = { s.tile t with vec := { (s.tile t).vec with r := W.shadow, win := none, busyAt := s.now } } := ⟨_, rfl⟩
  have hany : (W.accs.any fun a => ((s.tile t).acc a).unverified || accWriting (s.tile t) a) = false := by
    rw [List.any_eq_false]
    intro n hn
    simp [hacc n hn]
  refine ⟨addF (s.setTile t y) (fTILE_VEC_WINDOWS_REPLAYS t) 1, ?_, ?_, ⟨?_, fun j hj => ?_, ?_⟩, fun g hg => ?_⟩
  · show execWindowReplay ⟨t, .ok⟩ s = _
    simp only [execWindowReplay, sameCycle_live _ hl, hl, hc, hredo, hwin, hfail, hre, hany, hout, hbad, hy]
    rfl
  · rw [Counts, addF, getF_setF_same, getF_setTile]
  · rw [tile_addF, tile_setTile_same, hy]
  · rw [tile_addF, tile_setTile_ne _ _ hj]
    rfl
  · rfl
  · rw [addF, getF_setF_ne _ _ (by simpa using hg), getF_setTile]

theorem windowReplay_goesOn {s : State} {t : Tid} (hl : isLive s t = true) (hc : clkRuns s t = true) (hredo : (s.tile t).vec.redo ≠ []) :
    exec (.windowReplay ⟨t, .ok⟩) s = .next (replayGo s t .ok (s.tile t).vec.redo) := by
  show execWindowReplay ⟨t, .ok⟩ s = _
  have he : (s.tile t).vec.redo.isEmpty = false := by simpa using hredo
  simp only [execWindowReplay, sameCycle_live _ hl, hl, hc, he]
  rfl

/-- Settles O19: with nothing outstanding each instruction of the window is one commit, and the replay one command. -/
theorem verificationWindow : Obligations.VerificationWindow := by
  unfold Obligations.VerificationWindow
  rintro s s1 t h _ a hout rfl hmode hbad
  refine ⟨?vrdacc, fun w hs hw hf hn hb => vmov_window hs hout hmode hbad hw hf hn hb,
    fun w hl hc hredo hw hf hre hacc => windowReplay_starts hl hc hredo hout hbad hw hf hre hacc, windowReplay_goesOn⟩
  case vrdacc =>
    rintro v _ hs ha hv hv256 hwin hbound hmat hre rfl
    exact ⟨fun hver => vrdacc_verified hs ha hv hv256 ⟨hwin, hout, hmode, hbad⟩ hbound hmat hre hver,
      fun hver => vrdacc_unverified hs ha hv hv256 ⟨hwin, hout, hmode, hbad⟩ hbound hmat hre hver⟩

end Sys2Proof.Machine
end

section
/-! PROOFS. Vector loads and stores (O20). -/

namespace Sys2Proof.Machine

/-! ### Vector instructions on memory -/

theorem flags_none {r : VecRegs} (h : r.bstat < 4) : r.flags false false = r := by
  have hb : ((r.bstat % 2 == 1) || false).toNat + 2 * (bit r.bstat 1 || false).toNat = r.bstat := by
    have : r.bstat = 0 ∨ r.bstat = 1 ∨ r.bstat = 2 ∨ r.bstat = 3 := by omega
    rcases this with h | h | h | h <;> rw [h] <;> rfl
  rw [VecRegs.flags, hb]

theorem postInc_nil (r : VecRegs) : postInc r [] = r := by
  have : (List.range 8).filter ([] : List Nat).contains = [] := by decide
  simp [postInc, this]

section Start
variable {s s1 w2 : State} {t : Tid} {min : Nat} {h : QEntry} {i : Instr} {run : VRun} {e : VEff} {fields : QEntry → List Nat}

/-- A vector load or store without a window commits. -/
theorem vMem_goes (hs : Starts s t .vector 0x19 min h s1) (hout : (s.tile t).vec.out = []) (hwin : (s.tile t).vec.win = none)
    (hbad : (s.tile t).regBad = []) (he : exec i s = vecCmd t .ok 0x19 min s) (hv : vRow 0x19 min = some ⟨true, true, fields, run⟩)
    (hrun : run t h (popHead s1 t .vector) = .ok e w2) (hw2 : (w2.tile t).vec.win = none) : exec i s = .next (vCommit w2 t h e []) := by
  obtain ⟨-, p2, p3, p4, -, -, -, -, -⟩ := vec_popped hs
  have hrb : ((popHead s1 t .vector).tile t).regBad = [] := by rw [(popHead_starts hs).1]; exact hbad
  have hbusy : (fields h).any (loadBusy ((popHead s1 t .vector).tile t)) = false := by
    rw [List.any_eq_false]
    intro n _
    simp [loadBusy, p4, hout]
  have hfull : windowFull ((popHead s1 t .vector).tile t) = false := by simp only [windowFull, p3, hwin]
  have hinc : wMaj h.word = 0x19 := starts_maj hs
  rw [he, vecCmd, hv]
  dsimp only
  rw [engineStart_starts _ hs]
  simp only [VRow.start, vStep, hbusy, hfull, hrun, regFault, hrb, hinc, Bool.or_self, and_self, if_true, windowRoom, hw2, Bool.not_true,
    Bool.false_eq_true, and_false, or_self, if_false]

/-- A load of device memory waits for its data. -/
theorem vCommit_load {w : State} {l : VLoad} {r : VecRegs} (hw : (w.tile t).vec.win = none) (ho : (w.tile t).vec.out = [])
    (heff : effParts (w.tile t).vec.r e [] = (r, [])) (hload : e.load = some l) (hcnt : e.outcomes = [])
    (hl : { l with inWin := false, heldN := 0 } = l) : (vCommit w t h e []).tile t =
      { w.tile t with vec := { (w.tile t).vec with r := r, out := [⟨h.pc, sigOf h, .load l⟩], busyAt := w.now } } ∧
    (vCommit w t h e []).mem = w.mem := by
  have key : vCommit w t h e [] = (w.setTile t { w.tile t with vec := { (w.tile t).vec with r := r, busyAt := w.now } }).onTile t fun x =>
      { x with vec := { x.vec with out := [⟨h.pc, sigOf h, .load l⟩] } } := by
    simp only [vCommit, hw, heff, hload, hcnt, hl, List.filter_nil, List.foldl_nil, countOutcomes, setOut, tile_setTile_same, ho, List.nil_append, vflush]
  rw [key, tile_onTile_same, tile_setTile_same]
  exact ⟨rfl, rfl⟩

/-- A store holds the bytes that it writes to device memory. -/
theorem vCommit_dev {w : State} {d : VWrite} {ds : List VWrite} {r : VecRegs} (hw : (w.tile t).vec.win = none) (ho : (w.tile t).vec.out = [])
    (heff : effParts (w.tile t).vec.r e [] = (r, d :: ds)) (hload : e.load = none) (hcnt : e.outcomes = []) (hall : ∀ x ∈ d :: ds, x.oc = false) :
    (vCommit w t h e []).tile t =
      { w.tile t with vec := { (w.tile t).vec with r := r, out := [⟨h.pc, sigOf h, .store (d :: ds)⟩], busyAt := w.now } } ∧
    (vCommit w t h e []).mem = w.mem := by
  have h1 : (d :: ds).filter (·.oc) = [] := List.filter_eq_nil_iff.mpr fun x hx => by simp [hall x hx]
  have h2 : ((d :: ds).filter fun x => !x.oc) = d :: ds := List.filter_eq_self.mpr fun x hx => by simp [hall x hx]
  have key : vCommit w t h e [] = (w.setTile t { w.tile t with vec := { (w.tile t).vec with r := r, busyAt := w.now } }).onTile t fun x =>
      { x with vec := { x.vec with out := [⟨h.pc, sigOf h, .store (d :: ds)⟩] } } := by
    simp only [vCommit, hw, heff, h1, h2, hload, hcnt, List.foldl_nil, countOutcomes, setOut, tile_setTile_same, ho, List.nil_append, vflush]
  rw [key, tile_onTile_same, tile_setTile_same]
  exact ⟨rfl, rfl⟩

end Start

/-! ### The bytes and the checks of a load -/

section Load
variable {s s1 : State} {t : Tid} {h : QEntry} {l : VLoad}

/-- The load that VLD h starts. -/
def loadOf (r : VecRegs) (h : QEntry) : VLoad :=
  ⟨wVD h.word, wFA h.word, (r.blocks (wmKM h.word)).map (vmBlk h), r.act (wmKM h.word) 0 ++ r.act (wmKM h.word) 1, r.pers,
    r.maskPoison (wmKM h.word), 0, false⟩

theorem vld_device (hs : Starts s t .vector 0x19 0x00 h s1) (hwin : (s.tile t).vec.win = none) (hb : (s.tile t).vec.r.bstat < 4)
    (hbad : (s.tile t).regBad = []) (hout : (s.tile t).vec.out = []) (hf : vmFault (s.tile t) h ((s.tile t).vec.r.blocks (wmKM h.word)) false = none)
    (hbl : (s.tile t).vec.r.blocks (wmKM h.word) ≠ []) (hoc : wmOC h.word = false) : Answers (.vld t .ok) s fun u =>
      (u.tile t).vec.out = [⟨h.pc, sigOf h, .load (loadOf (s.tile t).vec.r h)⟩] ∧ (u.tile t).vec.r = (s.tile t).vec.r ∧
      (u.tile t).tk = (s1.tile t).tk ∧ u.mem = s.mem := by
  obtain ⟨-, p2, p3, p4, -, -, p7, -, p9⟩ := vec_popped hs
  have hpf : vmFault ((popHead s1 t .vector).tile t) h ((s.tile t).vec.r.blocks (wmKM h.word)) false = none := by
    rw [(popHead_starts hs).1]
    exact hf
  have hrun : runVld t h (popHead s1 t .vector) = .ok { VEff.none with load := some (loadOf (s.tile t).vec.r h) } (popHead s1 t .vector) := by
    simp only [runVld, p2, hpf, hoc, Bool.false_eq_true, if_false]
    rw [if_neg (by simpa using hbl)]
    rfl
  have heff : effParts ((popHead s1 t .vector).tile t).vec.r { VEff.none with load := some (loadOf (s.tile t).vec.r h) } [] = ((s.tile t).vec.r, []) := by
    simp only [p2, effParts, VEff.none, List.foldl_nil, List.append_nil, id, postInc_nil, flags_none hb]
  have he := vMem_goes (i := .vld t .ok) hs hout hwin hbad rfl rfl hrun (by rw [p3, hwin])
  obtain ⟨ht, hm⟩ := vCommit_load (h := h) (by rw [p3, hwin]) (by rw [p4, hout]) heff rfl rfl rfl
  refine ⟨_, he, ?_, ?_, ?_, ?_⟩
  · rw [ht]
  · rw [ht]
  · rw [ht, p9]; rfl
  · rw [hm, p7, (starts_frame hs).1]

/-- The effect of VLD from the operand cache. -/
def cacheLoad (s : State) (t : Nat) (h : QEntry) : VEff :=
  { VEff.none with
    regs := fun r => putLoaded r (loadOf (s.tile t).vec.r h).dest (loadBlocks r (loadOf (s.tile t).vec.r h) fun a n => ocBytes (s.tile t) a n) }

theorem vld_cache (hs : Starts s t .vector 0x19 0x00 h s1) (hwin : (s.tile t).vec.win = none) (hb : (s.tile t).vec.r.bstat < 4)
    (hbad : (s.tile t).regBad = []) (hout : (s.tile t).vec.out = []) (hf : vmFault (s.tile t) h ((s.tile t).vec.r.blocks (wmKM h.word)) false = none)
    (hoc : wmOC h.word = true)
    (hue : ocUe (s.tile t) ((loadOf (s.tile t).vec.r h).blks.flatMap fun k => [(k.addr, k.len), (k.saddr, k.slen)]) = none) :
    Answers (.vld t .ok) s fun u => VecDone s1 u t h ∧ (u.tile t).oc = (s.tile t).oc ∧
      (u.tile t).vec.r = putLoaded (s.tile t).vec.r (loadOf (s.tile t).vec.r h).dest
        (loadBlocks (s.tile t).vec.r (loadOf (s.tile t).vec.r h) fun a n => ocBytes (s.tile t) a n) := by
  obtain ⟨p1, p2, p3, p4, p5, p6, p7, p8, p9⟩ := vec_popped hs
  have hpf : vmFault ((popHead s1 t .vector).tile t) h ((s.tile t).vec.r.blocks (wmKM h.word)) false = none := by
    rw [(popHead_starts hs).1]
    exact hf
  have hpu : ocUe ((popHead s1 t .vector).tile t) ((loadOf (s.tile t).vec.r h).blks.flatMap fun k => [(k.addr, k.len), (k.saddr, k.slen)]) = none := by
    rw [(popHead_starts hs).1]
    exact hue
  have hview : ocView ((popHead s1 t .vector).tile t) = fun a n => ocBytes (s.tile t) a n := by
    funext a n
    simp only [ocView, p3, hwin, ocBytes, p5]
  have hrun : runVld t h (popHead s1 t .vector) = .ok (cacheLoad s t h) (popHead s1 t .vector) := by
    rw [loadOf] at hpu
    simp only [runVld, p2, hpf, hoc, if_true, hpu, hview]
    rfl
  have heff : effParts (s.tile t).vec.r (cacheLoad s t h) [] = (putLoaded (s.tile t).vec.r (loadOf (s.tile t).vec.r h).dest
      (loadBlocks (s.tile t).vec.r (loadOf (s.tile t).vec.r h) fun a n => ocBytes (s.tile t) a n), []) := by
    simp only [cacheLoad, effParts, VEff.none, List.foldl_nil, List.append_nil, postInc_nil, flags_none hb]
  have he := vMem_goes (i := .vld t .ok) hs hout hwin hbad rfl rfl hrun (by rw [p3, hwin])
  obtain ⟨l, a, b, c, c1, c2, c3, c4⟩ := vCommit_idle (h := h) (e := cacheLoad s t h) (fields := []) p1 (by rw [p3, hwin]) (by rw [p4, hout])
    rfl rfl (by rw [p2, heff])
  exact ⟨_, he, vecDone_of_commit hs hwin c1 c2 c3 c4, by rw [c1]; exact p5, by rw [c1, p2, heff]⟩

end Load

/-! ### The data of a load returns -/

/-- A task stays live through a move of the cache. -/
theorem CacheMoved.isLive {s u : State} {t : Tid} (m : CacheMoved s u) (h : isLive s t = true) : isLive u t = true := by
  obtain ⟨-, -, hf, hu⟩ := m
  have ht : u.tile t = s.tile t := tile_tiles (by rw [hu]) t
  refine isLive_of h ?_ (by rw [ht]) (by rw [ht])
  rw [dieUp, dieState, hf _ (by simp [fldKey, fPKG_DIE_STATUS_STATE, fMEM_EDDY_KEEP_OVER_COUNT, dieOf] <;> omega)]
  rfl

/-- Reading ranges without error in turn moves lines of the cache alone, and no check finds an error. -/
theorem readRanges_fine (l : List (Nat × Nat)) {s : State} (h : ∀ p ∈ l, LinesFine s p.1 p.2) :
    ∃ v, CacheMoved s v ∧ ∀ chk : State × Option Nat → Nat × Nat → State × Option Nat,
      (∀ w p, (memReadH w p.1 p.2 0).bad = none → chk (w, none) p = ((memReadH w p.1 p.2 0).s, none)) → l.foldl chk (s, none) = (v, none) := by
  induction l generalizing s with
  | nil => exact ⟨s, CacheMoved.refl s, fun _ _ => rfl⟩
  | cons p l ih =>
    obtain ⟨w, hw, hm⟩ := memReadH_fine 0 (h p (List.mem_cons_self ..))
    obtain ⟨v, hm', hv⟩ := ih fun q hq => (h q (List.mem_cons_of_mem _ hq)).moved hm
    refine ⟨v, hm.trans hm', fun chk hchk => ?_⟩
    rw [List.foldl_cons, hchk s p (by rw [hw]), hw]
    exact hv chk hchk

theorem loadBlocks_congr {r : VecRegs} {l : VLoad} {f g : Nat → Nat → List Byte}
    (h : ∀ k ∈ l.blks, f k.addr k.len = g k.addr k.len ∧ f k.saddr k.slen = g k.saddr k.slen) : loadBlocks r l f = loadBlocks r l g := by
  unfold loadBlocks
  refine List.map_congr_left fun k hk => ?_
  rw [(h k hk).1, (h k hk).2]

theorem healRegs_nil {x : Tile} (h : x.regBad = []) (l : List (Nat × Nat)) (k : Option Nat) : healRegs x l k = x := by
  simp [healRegs, h]

/-- A store without bytes left gives its signal and is over (R89). -/
theorem setOut_done (w : State) (t pc : Nat) (sig : Option Nat) : setOut w t [⟨pc, sig, .store []⟩] =
    ((match sig with | some k => tkAdd w t k 1 2 pc | none => w).onTile t fun x => { x with vec := { x.vec with out := [] } }) := by
  simp only [setOut, vflush]
  rfl

/-- The signal of an access that is over, and what stays. -/
theorem setOut_done_facts {w : State} {t pc : Nat} {sig : Option Nat} (hl : isLive w t = true) :
    ((setOut w t [⟨pc, sig, .store []⟩]).tile t).vec.out = [] ∧ ((setOut w t [⟨pc, sig, .store []⟩]).tile t).vec.r = (w.tile t).vec.r ∧
    (setOut w t [⟨pc, sig, .store []⟩]).mem = w.mem ∧
    ∀ j, tkCount ((setOut w t [⟨pc, sig, .store []⟩]).tile t) j =
      if sig = some j ∧ tkCount (w.tile t) j < 65535 then tkCount (w.tile t) j + 1 else tkCount (w.tile t) j := by
  rw [setOut_done, tile_onTile_same]
  cases sig with
  | none => exact ⟨rfl, rfl, rfl, fun j => by rw [if_neg (by simp)]; rfl⟩
  | some k =>
    refine ⟨rfl, ?_, ?_, fun j => ?_⟩
    · obtain ⟨l, a, b, c, h⟩ := tkAdd_tile w t k 1 2 pc t
      rw [h]
    · show (tkAdd w t k 1 2 pc).mem = w.mem
      rw [tkAdd_frame]
    · refine (tkAdd_one (unit := 2) (pc := pc) hl j).trans ?_
      simp only [Option.some.injEq, @eq_comm _ j k]

theorem vectorLoad_returns {s : State} {t : Tid} {pc : Nat} {sig : Option Nat} {l : VLoad} (hwin : (s.tile t).vec.win = none)
    (hbad : (s.tile t).regBad = []) (hl : isLive s t = true) (hout : (s.tile t).vec.out = [⟨pc, sig, .load l⟩])
    (hf : ∀ k ∈ l.blks, LinesFine s k.addr k.len ∧ LinesFine s k.saddr k.slen) :
    Answers (.vectorLoadReturn t 0) s fun u => (u.tile t).vec.out = [] ∧
      (u.tile t).vec.r = putLoaded (s.tile t).vec.r l.dest (loadBlocks (s.tile t).vec.r l fun a n => memBytes s a n) ∧ MemSame s u ∧
      ∀ j, tkCount (u.tile t) j = if sig = some j ∧ tkCount (s.tile t) j < 65535 then tkCount (s.tile t) j + 1 else tkCount (s.tile t) j := by
  have hranges : ∀ p ∈ (l.blks.map fun k => [(k.addr, k.len), (k.saddr, k.slen)]).flatten, LinesFine s p.1 p.2 := by
    intro p hp
    simp only [List.mem_flatten, List.mem_map] at hp
    obtain ⟨_, ⟨k, hk, rfl⟩, hp⟩ := hp
    simp only [List.mem_cons, List.not_mem_nil, or_false] at hp
    rcases hp with rfl | rfl
    · exact (hf k hk).1
    · exact (hf k hk).2
  obtain ⟨v, hm, hv⟩ := readRanges_fine _ hranges
  have htile : ∀ j, v.tile j = s.tile j := fun j => by
    obtain ⟨-, -, -, hu⟩ := hm
    exact tile_tiles (by rw [hu]) j
  have hblocks : loadBlocks (s.tile t).vec.r l (fun a n => (devView s a n []).data) = loadBlocks (s.tile t).vec.r l fun a n => memBytes s a n :=
    loadBlocks_congr fun k hk => by
      simp only [devView, memRead_clean (hf k hk).1.clean, memRead_clean (hf k hk).2.clean, List.foldl_nil, and_self]
  obtain ⟨x, hx⟩ : ∃ x, x = { s.tile t with vec := { (s.tile t).vec with
    r := putLoaded (s.tile t).vec.r l.dest (loadBlocks (s.tile t).vec.r l fun a n => memBytes s a n) } } := ⟨_, rfl⟩
  have he : exec (.vectorLoadReturn t 0) s = .next (setOut (v.setTile t x) t [⟨pc, sig, .store []⟩]) := by
    show execVectorLoadReturn t 0 s = _
    rw [execVectorLoadReturn, sameCycle_live _ hl, if_pos hl, hx, ← hblocks]
    have hlen : (s.tile t).vec.out[0]? = some ⟨pc, sig, .load l⟩ := by rw [hout]; rfl
    rw [loadReturn, hlen]
    dsimp only
    rw [hv _ fun w p h => by rw [h]]
    simp only [htile, healRegs_nil, hbad, hwin, hout, replaceAt, List.take_zero, heldDev, outWrites, List.map_nil, List.flatten_nil,
      List.nil_append]
  have hlive : isLive (v.setTile t x) t = true := by
    refine isLive_of (hm.isLive hl) rfl ?_ ?_ <;> rw [tile_setTile_same, htile, hx]
  obtain ⟨h1, h2, h3, h4⟩ := setOut_done_facts (pc := pc) (sig := sig) hlive
  refine ⟨_, he, h1, ?_, fun k => ?_, fun j => ?_⟩
  · rw [h2, tile_setTile_same, hx]
  · rw [memByte_mem h3]
    exact hm.1 k
  · rw [h4, tile_setTile_same, hx]
    rfl

/-! ### Stores -/

theorem storedBlk_outs (pers fmt : Nat) (act : List Bool) (v : VBlk) : (storedBlk pers fmt act v none).outs = [] := by
  have hblk : ∀ b, (emitBlk fmt b none).outs = [] := by
    intro b
    unfold emitBlk
    split
    · rfl
    · split
      · rfl
      · simp [emitOne]
  unfold storedBlk
  split <;> split
  · rfl
  · exact hblk _
  · rfl
  · exact hblk _

/-- What a store without prediction emits for block b. -/
def emitted (r : VecRegs) (h : QEntry) (b : Nat) : Emit :=
  storedBlk r.pers (wFA h.word) (r.act (wmKM h.word) b) (r.blk (wVD h.word) b) none

/-- And the writes of it: the run and, where the format has scales, its scales. -/
def emittedWrites (r : VecRegs) (h : QEntry) (b : Nat) : List VWrite :=
  ⟨wmOC h.word, (vmBlk h b).addr, (emitted r h b).run⟩ ::
    (if (vmBlk h b).slen = 0 then [] else [⟨wmOC h.word, (vmBlk h b).saddr, (emitted r h b).scales⟩])

theorem emittedWrites_oc {r : VecRegs} {h : QEntry} {b : Nat} {x : VWrite} (hx : x ∈ emittedWrites r h b) : x.oc = wmOC h.word := by
  unfold emittedWrites at hx
  split at hx <;> simp at hx <;> rcases hx with rfl | rfl <;> rfl

/-- The effect e with what block b adds to it. -/
def addStore (r : VecRegs) (h : QEntry) (e : VEff) (b : Nat) : VEff :=
  { e with
    writes := e.writes ++ emittedWrites r h b
    sat := e.sat || (emitted r h b).sat
    nonfin := e.nonfin || (emitted r h b).nonfin }

/-- The effect of the stores of the blocks of a list. -/
theorem foldl_addStore (r : VecRegs) (h : QEntry) (bl : List Nat) (e : VEff) : ∃ f n, bl.foldl (addStore r h) e =
    { e with writes := e.writes ++ bl.flatMap (emittedWrites r h), sat := f, nonfin := n } := by
  induction bl generalizing e with
  | nil => exact ⟨e.sat, e.nonfin, by simp⟩
  | cons b bl ih =>
    obtain ⟨f, n, hi⟩ := ih (addStore r h e b)
    exact ⟨f, n, by rw [List.foldl_cons, hi]; simp [addStore]⟩

/-- Storing the blocks in turn, where each store is without error, gathers their effects. -/
theorem foldl_stores {r : VecRegs} {h : QEntry} {w : State} (one : VEff × State × Option Nat → Nat → VEff × State × Option Nat)
    (hone : ∀ e b, one (e, w, none) b = (addStore r h e b, w, none)) (bl : List Nat) (e : VEff) :
    bl.foldl one (e, w, none) = (bl.foldl (addStore r h) e, w, none) := by
  induction bl generalizing e with
  | nil => rfl
  | cons b bl ih => rw [List.foldl_cons, hone, ih, List.foldl_cons]

section Store
variable {s s1 : State} {t : Tid} {h : QEntry}

theorem runVst_ok (hs : Starts s t .vector 0x19 0x01 h s1) (hf : vmFault (s.tile t) h ((s.tile t).vec.r.blocks (wmKM h.word)) true = none)
    (hpred : wmPRED h.word = false) : ∃ f n, runVst t h (popHead s1 t .vector) =
      .ok { VEff.none with writes := ((s.tile t).vec.r.blocks (wmKM h.word)).flatMap (emittedWrites (s.tile t).vec.r h), sat := f, nonfin := n }
        (popHead s1 t .vector) := by
  obtain ⟨-, p2, -, -, -, -, -, -, -⟩ := vec_popped hs
  have hpf : vmFault ((popHead s1 t .vector).tile t) h ((s.tile t).vec.r.blocks (wmKM h.word)) true = none := by
    rw [(popHead_starts hs).1]
    exact hf
  have hff : ∀ bl : List Nat, firstFault (bl.map fun b =>
      if wmPRED h.word && !mappedRange (histAt h b).1 (histAt h b).2 then some (cADDR_UNMAPPED, (histAt h b).1) else none) = none := by
    intro bl
    simp [firstFault, hpred]
  obtain ⟨f, n, he⟩ := foldl_addStore (s.tile t).vec.r h ((s.tile t).vec.r.blocks (wmKM h.word)) VEff.none
  refine ⟨f, n, ?_⟩
  have hnil : firstFault [none, none] = (none : Option (Nat × Nat)) := rfl
  rw [runVst]
  simp only [p2, hpf, hff, hnil]
  rw [foldl_stores (r := (s.tile t).vec.r) (h := h)]
  · rw [he]
    rfl
  · intro e b
    simp only [hpred, Bool.false_eq_true, if_false, devView, memRead, if_true, storedBlk_outs, List.append_nil]
    rfl

theorem effParts_writes {r : VecRegs} {e : VEff} (hk : e.k = none) (hb : e.blocks = []) (hr : e.regs = id) :
    effParts r e [] = (r.flags e.sat e.nonfin, e.writes) := by
  simp only [effParts, hk, hb, hr, List.foldl_nil, List.nil_append, id, postInc_nil]

/-- A store of device memory holds its bytes until they become visible (R89, R184). -/
theorem vst_device (hs : Starts s t .vector 0x19 0x01 h s1) (hwin : (s.tile t).vec.win = none) (hbad : (s.tile t).regBad = [])
    (hout : (s.tile t).vec.out = []) (hf : vmFault (s.tile t) h ((s.tile t).vec.r.blocks (wmKM h.word)) true = none) (hpred : wmPRED h.word = false)
    (hbl : (s.tile t).vec.r.blocks (wmKM h.word) ≠ []) (hoc : wmOC h.word = false) : Answers (.vst t .ok) s fun u =>
      (u.tile t).vec.out = [⟨h.pc, sigOf h, .store (((s.tile t).vec.r.blocks (wmKM h.word)).flatMap (emittedWrites (s.tile t).vec.r h))⟩] ∧
      (u.tile t).tk = (s1.tile t).tk ∧ MemSame s u ∧ (u.tile t).vec.r.v = (s.tile t).vec.r.v := by
  obtain ⟨-, p2, p3, p4, -, -, p7, -, p9⟩ := vec_popped hs
  obtain ⟨f, n, hrun⟩ := runVst_ok hs hf hpred
  obtain ⟨ws, hws⟩ : ∃ ws, ws = ((s.tile t).vec.r.blocks (wmKM h.word)).flatMap (emittedWrites (s.tile t).vec.r h) := ⟨_, rfl⟩
  rw [← hws] at hrun ⊢
  have hall : ∀ x ∈ ws, x.oc = false := by
    intro x hx
    rw [hws, List.mem_flatMap] at hx
    obtain ⟨b, -, hb⟩ := hx
    rw [emittedWrites_oc hb, hoc]
  have hne : ws ≠ [] := by
    obtain ⟨b, bl, hb⟩ := List.exists_cons_of_ne_nil hbl
    rw [hws, hb]
    exact List.cons_ne_nil _ _
  obtain ⟨d, ds, hd⟩ := List.exists_cons_of_ne_nil hne
  have he := vMem_goes (i := .vst t .ok) hs hout hwin hbad rfl rfl hrun (by rw [p3, hwin])
  have heff : effParts ((popHead s1 t .vector).tile t).vec.r { VEff.none with writes := ws, sat := f, nonfin := n } [] =
      ((s.tile t).vec.r.flags f n, d :: ds) := by
    rw [p2, effParts_writes rfl rfl rfl, hd]
  obtain ⟨ht, hm⟩ := vCommit_dev (h := h) (by rw [p3, hwin]) (by rw [p4, hout]) heff rfl rfl (by rw [← hd]; exact hall)
  refine ⟨_, he, by rw [ht, hd], by rw [ht, p9]; rfl, fun k => memByte_mem ?_ k, by rw [ht]; rfl⟩
  rw [hm, p7, (starts_frame hs).1]

theorem foldl_ocPut (ws : List VWrite) (x : Tile) :
    ∃ o b, ws.foldl (fun x w => ocPut x w.addr w.bytes) x = { x with oc := o, ocBad := b } := by
  induction ws generalizing x with
  | nil => exact ⟨x.oc, x.ocBad, rfl⟩
  | cons w ws ih =>
    obtain ⟨o, b, h⟩ := ih (ocPut x w.addr w.bytes)
    exact ⟨o, b, by rw [List.foldl_cons, h]; rfl⟩

theorem foldl_ocPut_oc (ws : List VWrite) {x y : Tile} (h : x.oc = y.oc) :
    (ws.foldl (fun x w => ocPut x w.addr w.bytes) x).oc = (ws.foldl (fun x w => ocPut x w.addr w.bytes) y).oc := by
  induction ws generalizing x y with
  | nil => exact h
  | cons w ws ih => exact ih (by simp only [ocPut, h])

/-- Writes of the operand cache are done when the instruction goes, and its signal follows. -/
theorem vCommit_cache {w : State} {e : VEff} {ws : List VWrite} {r : VecRegs} (hw : (w.tile t).vec.win = none) (ho : (w.tile t).vec.out = [])
    (heff : effParts (w.tile t).vec.r e [] = (r, ws)) (hload : e.load = none) (hcnt : e.outcomes = []) (hall : ∀ x ∈ ws, x.oc = true) :
    ∃ o b, ws.foldl (fun x w => ocPut x w.addr w.bytes) (w.tile t) = { w.tile t with oc := o, ocBad := b } ∧
      vCommit w t h e [] = (applySignal (w.setTile t { w.tile t with oc := o, ocBad := b, vec := { (w.tile t).vec with r := r, busyAt := w.now } })
        t 2 h).onTile t fun x => { x with vec := { x.vec with out := [] } } := by
  have h1 : ws.filter (·.oc) = ws := List.filter_eq_self.mpr hall
  have h2 : (ws.filter fun x => !x.oc) = [] := List.filter_eq_nil_iff.mpr fun x hx => by simp [hall x hx]
  obtain ⟨o, b, hput⟩ := foldl_ocPut ws (w.tile t)
  refine ⟨o, b, hput, ?_⟩
  have hsig (v : State) : (match sigOf h with | some k => tkAdd v t k 1 2 h.pc | none => v) = applySignal v t 2 h := by
    unfold sigOf applySignal
    cases wSE h.word <;> rfl
  simp only [vCommit, hw, heff, h1, h2, hload, hcnt, hput, countOutcomes, List.foldl_nil, tile_setTile_same, ho, List.nil_append, setOut_done, hsig]

/-- The signal of one tile leaves every other tile. -/
theorem applySignal_ne (w : State) (unit : Nat) (h : QEntry) {j t : Nat} (hj : j ≠ t) : (applySignal w t unit h).tile j = w.tile j := by
  unfold applySignal
  split
  · exact tkAdd_other w hj
  · rfl

/-- And one of the operand cache writes them at once. -/
theorem vst_cache (hs : Starts s t .vector 0x19 0x01 h s1) (hwin : (s.tile t).vec.win = none) (hbad : (s.tile t).regBad = [])
    (hout : (s.tile t).vec.out = []) (hf : vmFault (s.tile t) h ((s.tile t).vec.r.blocks (wmKM h.word)) true = none) (hpred : wmPRED h.word = false)
    (hoc : wmOC h.word = true) : Answers (.vst t .ok) s fun u => VecDone s1 u t h ∧ (u.tile t).vec.r.v = (s.tile t).vec.r.v ∧
      (u.tile t).oc = ((((s.tile t).vec.r.blocks (wmKM h.word)).flatMap (emittedWrites (s.tile t).vec.r h)).foldl
        (fun x w => ocPut x w.addr w.bytes) (s.tile t)).oc := by
  obtain ⟨p1, p2, p3, p4, p5, p6, p7, p8, p9⟩ := vec_popped hs
  obtain ⟨f, n, hrun⟩ := runVst_ok hs hf hpred
  obtain ⟨ws, hws⟩ : ∃ ws, ws = ((s.tile t).vec.r.blocks (wmKM h.word)).flatMap (emittedWrites (s.tile t).vec.r h) := ⟨_, rfl⟩
  rw [← hws] at hrun ⊢
  have hall : ∀ x ∈ ws, x.oc = true := by
    intro x hx
    rw [hws, List.mem_flatMap] at hx
    obtain ⟨b, -, hb⟩ := hx
    rw [emittedWrites_oc hb, hoc]
  have he := vMem_goes (i := .vst t .ok) hs hout hwin hbad rfl rfl hrun (by rw [p3, hwin])
  obtain ⟨v, hv⟩ : ∃ v, v = popHead s1 t .vector := ⟨_, rfl⟩
  rw [← hv] at he p1 p2 p3 p4 p5 p6 p7 p8 p9
  obtain ⟨o, b, hput, hc⟩ := vCommit_cache (h := h) (w := v) (by rw [p3, hwin]) (by rw [p4, hout])
    (effParts_writes (e := { VEff.none with writes := ws, sat := f, nonfin := n }) rfl rfl rfl) rfl rfl hall
  rw [hc] at he
  obtain ⟨w, hw⟩ : ∃ w, w = v.setTile t { v.tile t with oc := o, ocBad := b, vec := { (v.tile t).vec with r := (v.tile t).vec.r.flags f n, busyAt := v.now } } :=
    ⟨_, rfl⟩
  rw [← hw] at he
  have hwt : w.tile t = { v.tile t with oc := o, ocBad := b, vec := { (v.tile t).vec with r := (v.tile t).vec.r.flags f n, busyAt := v.now } } := by
    rw [hw, tile_setTile_same]
  have hwl : isLive w t = true := isLive_of p1 (by rw [hw]; rfl) (by rw [hwt]) (by rw [hwt])
  obtain ⟨l, a, tt, tc, ht⟩ := applySignal_tile w t 2 h t
  have hut := tile_onTile_same (applySignal w t 2 h) t fun x => { x with vec := { x.vec with out := [] } }
  rw [ht, hwt] at hut
  refine ⟨_, he, ⟨?queue, fun j => ?signal, ?out, ?win, ?sregs, ?mat, ?str, ?msg, fun j hj => ?other, ?mem⟩, ?regs, ?cache⟩
  case queue => rw [hut]; exact p6
  case signal =>
    have hz : tkCount (w.tile t) j = tkCount (s1.tile t) j := by rw [hwt, p9]; rfl
    have hu : tkCount (((applySignal w t 2 h).onTile t fun x => { x with vec := { x.vec with out := [] } }).tile t) j =
        tkCount ((applySignal w t 2 h).tile t) j := by rw [tile_onTile_same]; rfl
    rw [hu, ← hz]
    exact applySignal_signals hwl j
  case out => rw [hut]
  case win => rw [hut]; exact p3.trans hwin
  case sregs => rw [hut, p9]; rfl
  case mat => rw [hut, p9]; rfl
  case str => rw [hut, p9]; rfl
  case msg => rw [hut, p9]; rfl
  case other =>
    rw [tile_onTile_ne _ _ hj, applySignal_ne w 2 h hj, hw, tile_setTile_ne _ _ hj, p8 j hj]
  case mem =>
    rw [← p7]
    show (applySignal w t 2 h).mem = _
    rw [applySignal_frame, hw]
    rfl
  case regs => rw [hut, p2]; rfl
  case cache =>
    rw [hut, foldl_ocPut_oc ws p5.symm, hput]

end Store

/-! ### The bytes of a store become visible -/

/-- Byte k of device memory after the writes ws. -/
def writtenByte (ws : List VWrite) (k : Nat) (b : Byte) : Byte :=
  ws.foldl (fun b x => if x.addr ≤ k ∧ k < x.addr + x.bytes.length then x.bytes.getD (k - x.addr) 0 else b) b

/-- A write to device memory keeps a task live. -/
theorem HintStored.isLive {s u : State} {a : Nat} {b : List Byte} {t : Tid} (h : HintStored s u a b) (hl : isLive s t = true) : isLive u t = true := by
  obtain ⟨-, ht, hf, hu⟩ := h
  refine isLive_of hl ?_ (by rw [ht]) (by rw [ht])
  rw [dieUp, dieState, hf _ (by simp [fldKey, fPKG_DIE_STATUS_STATE, fTILE_STR_STALL_COUNT, dieOf] <;> omega)
    (by simp [fldKey, fPKG_DIE_STATUS_STATE, fMEM_EDDY_KEEP_OVER_COUNT, dieOf] <;> omega)]
  rfl

/-- Writes one after another leave their bytes, and of the tile change only the stream buffers. -/
theorem writes_land {t : Tid} (ws : List VWrite) {s : State} (hl : isLive s t = true) (hf : ∀ x ∈ ws, LinesFine s x.addr x.bytes.length) :
    isLive (ws.foldl (fun s v => memWriteH false s v.addr v.bytes 0) s) t = true ∧
    (∃ str, (ws.foldl (fun s v => memWriteH false s v.addr v.bytes 0) s).tile t = { s.tile t with str := str }) ∧
    ∀ k, memByte (ws.foldl (fun s v => memWriteH false s v.addr v.bytes 0) s) k = writtenByte ws k (memByte s k) := by
  induction ws generalizing s with
  | nil => exact ⟨hl, ⟨_, rfl⟩, fun _ => rfl⟩
  | cons w ws ih =>
    obtain ⟨hst, hfine⟩ := memWriteH_stored false w.bytes 0 (hf w List.mem_cons_self)
    obtain ⟨h1, ⟨str, h2⟩, h3⟩ := ih (hst.isLive hl) fun x hx v a b => hfine v (hf x (List.mem_cons_of_mem _ hx) v a b)
    exact ⟨h1, ⟨str, by rw [List.foldl_cons, h2, hst.2.1 t]⟩, fun k => by rw [List.foldl_cons, h3, hst.1 k]; rfl⟩

theorem vectorStore_lands {s : State} {t : Tid} {pc : Nat} {sig : Option Nat} {w : VWrite} {ws : List VWrite} (hl : isLive s t = true)
    (hout : (s.tile t).vec.out = [⟨pc, sig, .store (w :: ws)⟩]) (hf : ∀ x ∈ w :: ws, LinesFine s x.addr x.bytes.length) :
    Answers (.vectorStoreVisible t 0) s fun u => (u.tile t).vec.out = [] ∧ (u.tile t).vec.r = (s.tile t).vec.r ∧
      (∀ k, memByte u k = writtenByte (w :: ws) k (memByte s k)) ∧
      ∀ j, tkCount (u.tile t) j = if sig = some j ∧ tkCount (s.tile t) j < 65535 then tkCount (s.tile t) j + 1 else tkCount (s.tile t) j := by
  obtain ⟨hlive, ⟨str, htile⟩, hmem⟩ := writes_land (w :: ws) hl hf
  have hrun : isRunning s t = true := by
    simp only [isLive, Bool.and_eq_true] at hl
    exact hl.1
  have he : exec (.vectorStoreVisible t 0) s = .next (setOut ((w :: ws).foldl (fun s v => memWriteH false s v.addr v.bytes 0) s) t [⟨pc, sig, .store []⟩]) := by
    show execVectorStoreVisible t 0 s = _
    simp only [execVectorStoreVisible, hrun, Bool.not_true, Bool.false_eq_true, if_false, hout, List.getElem?_cons_zero, List.take_zero, List.any_nil, htile]
    rfl
  obtain ⟨h1, h2, h3, h4⟩ := setOut_done_facts (pc := pc) (sig := sig) hlive
  refine ⟨_, he, h1, by rw [h2, htile], fun k => by rw [memByte_mem h3, hmem], fun j => ?_⟩
  rw [h4, htile]
  rfl

/-- Settles O20: each vector access checks its operands, and then either moves its bytes at once or waits for the memory. -/
theorem vectorMemory : Obligations.VectorMemory := by
  unfold Obligations.VectorMemory
  intro s s1 t h r bl hwin hr hbstat hbl hbad
  subst hr hbl
  refine ⟨fun l hs hout hf hne hload => ?load, fun pc sig l hl hout hf => ?ret, fun ws hs hout hf hpred hne hws => ?store, fun pc sig w ws hl hout hf => ?land⟩
  case load =>
    subst hload
    exact ⟨vld_device hs hwin hbstat hbad hout hf hne, fun hoc hue => vld_cache hs hwin hbstat hbad hout hf hoc hue⟩
  case ret => exact vectorLoad_returns hwin hbad hl hout hf
  case store =>
    subst hws
    exact ⟨vst_device hs hwin hbad hout hf hpred hne, vst_cache hs hwin hbad hout hf hpred⟩
  case land => exact vectorStore_lands hl hout hf

end Sys2Proof.Machine
end

section
/-! PROOFS. Every step keeps the form of device memory (O58). -/

namespace Sys2Proof.Machine

/-! ### Device memory through the constructs of the model -/

@[simp] theorem ite_mem (c : Prop) [Decidable c] (s u : State) : (if c then s else u).mem = if c then s.mem else u.mem := apply_ite _ _ _ _

@[simp] theorem wf_ite (c : Prop) [Decidable c] (m n : Mem) : Memory.wf (if c then m else n) = if c then Memory.wf m else Memory.wf n :=
  apply_ite _ _ _ _

@[simp] theorem foldl_mem {β : Type} (f : State → β → State) (l : List β) (s : State) (h : ∀ x b, (f x b).mem = x.mem) :
    (l.foldl f s).mem = s.mem := foldl_same State.mem f l s h

theorem foldl_wf {β : Type} {f : State → β → State} (l : List β) {s : State} (hs : Memory.wf s.mem = true)
    (h : ∀ x b, Memory.wf x.mem = true → Memory.wf (f x b).mem = true) : Memory.wf (l.foldl f s).mem = true :=
  foldl_keeps (fun s : State => Memory.wf s.mem = true) f l s hs h

@[simp] theorem after_next (s u : State) : after s (.next u) = u := rfl
@[simp] theorem after_fault (s : State) (f : Fault) : after s (.fault f) = s := rfl

/-- The state that an action leaves, where it leaves one, has device memory in its canonical form. -/
def OkWf (e : Except Nat State) : Prop := ∀ u, e = .ok u → Memory.wf u.mem = true

theorem OkWf.ok {s : State} (h : Memory.wf s.mem = true) : OkWf (.ok s) := fun _ hu => Except.ok.inj hu ▸ h

theorem OkWf.error (n : Nat) : OkWf (.error n) := fun _ hu => absurd hu (by simp)

theorem wf_of_pair {α : Type} {p : α × State} {a : α} {u : State} (h : p = (a, u)) (hw : Memory.wf p.2.mem = true) : Memory.wf u.mem = true := by
  rwa [h] at hw

theorem wf_of_state {α : Type} {p : State × α} {a : α} {u : State} (h : p = (u, a)) (hw : Memory.wf p.1.mem = true) : Memory.wf u.mem = true := by
  rwa [h] at hw

theorem wf_of_triple {α β : Type} {p : α × β × State} {a : α} {b : β} {u : State} (h : p = (a, b, u)) (hw : Memory.wf p.2.2.mem = true) :
    Memory.wf u.mem = true := by
  rwa [h] at hw

/-- The state that an attempt leaves, where it succeeds, has device memory in its canonical form. -/
def OptWf (o : Option State) : Prop := ∀ u, o = some u → Memory.wf u.mem = true

theorem OptWf.some {s : State} (h : Memory.wf s.mem = true) : OptWf (some s) := fun _ hu => Option.some.inj hu ▸ h

theorem OptWf.none : OptWf none := fun _ hu => absurd hu (by simp)

theorem wf_of_some {o : Option State} {u : State} (h : o = some u) (hw : OptWf o) : Memory.wf u.mem = true := hw u h

/-- The state beside what an attempt answers, where it succeeds, has device memory in its canonical form. -/
def SomeWf {α : Type} (o : Option (α × State)) : Prop := ∀ p, o = some p → Memory.wf p.2.mem = true

theorem SomeWf.some {α : Type} {a : α} {s : State} (h : Memory.wf s.mem = true) : SomeWf (some (a, s)) := fun _ hu => Option.some.inj hu ▸ h

theorem SomeWf.none {α : Type} : SomeWf (none : Option (α × State)) := fun _ hu => absurd hu (by simp)

theorem wf_of_some_pair {α : Type} {o : Option (α × State)} {a : α} {u : State} (h : o = some (a, u)) (hw : SomeWf o) :
    Memory.wf u.mem = true := hw (a, u) h

theorem wf_of_ok {e : Except Nat State} {u : State} (h : e = .ok u) (hw : OkWf e) : Memory.wf u.mem = true := hw u h

/-! ### Device memory through Machine/Ops.lean -/

@[simp] theorem freshWord_mem (s : State) : (freshWord s).2.mem = s.mem := by simp [freshWord]
@[simp] theorem freshBytes_mem (s : State) (n : Nat) : (freshBytes s n).2.mem = s.mem := by simp [freshBytes]
@[simp] theorem freshBool_mem (s : State) : (freshBool s).2.mem = s.mem := by simp [freshBool]

@[simp] theorem postEventAt_mem (s : State) (time : Nat) (sync : Bool) (status sev src inst arg0 arg1 : Nat) :
    (postEventAt s time sync status sev src inst arg0 arg1).mem = s.mem := by
  simp [postEventAt]

/-! ### Device memory through Machine/ShadowOps.lean -/

@[simp] theorem shResolved_mem (s : State) (step : Nat) (nf : Bool) : (shResolved s step nf).mem = s.mem := by simp [shResolved]

@[simp] theorem shCommitted_mem (s : State) (step : Nat) (rec0 : List Byte) (bad : List Nat) : (shCommitted s step rec0 bad).mem = s.mem := by
  simp [shCommitted]

@[simp] theorem shRewind_mem (s : State) (c : Nat) : (shRewind s c).mem = s.mem := by simp [shRewind]

/-! ### Device memory through Machine/MemOps.lean -/

theorem noteCorrection_wf (s : State) (u : Nat) (w : Bool) (h : Memory.wf s.mem = true) : Memory.wf (noteCorrection s u w).mem = true :=
  Memory.wf_congr (noteCorrection_bytes s u w).1 (noteCorrection_bytes s u w).2 h

@[simp] theorem sramUe_mem (s : State) : (sramUe s).mem = s.mem := by simp [sramUe]

theorem memReadAll_wf (s : State) (a n : Nat) (h : Memory.wf s.mem = true) : Memory.wf (memReadAll s a n).2.2.mem = true :=
  crossRange_wf _ _ _ <| foldl_keeps (fun x : List (List Byte) × List Nat × State => Memory.wf x.2.2.mem = true) _ _ _ h
    fun x u hx => readUnit_wf x.2.2 u false hx

/-! ### Device memory through Machine/Eddy.lean -/

theorem dropLine_wf (s : State) (n : Nat) (h : Memory.wf s.mem = true) : Memory.wf (dropLine s n).mem = true := h

@[simp] theorem reachQuad_wf (s : State) (a n : Nat) (hmem : Memory.wf s.mem = true) : Memory.wf (reachQuad s a n).2.mem = true := by
  unfold reachQuad
  grind [afterChange_wf]

/-! ### Device memory through Machine/TileOps.lean -/

@[simp] theorem trap_mem (s : State) (t unit code pc info : Nat) : (trap s t unit code pc info).mem = s.mem := by
  simp only [trap]
  (repeat' split) <;> simp

@[simp] theorem sameCycle_mem {f : State → State} (s : State) (t unit : Nat) (h : ∀ x, (f x).mem = x.mem) : (sameCycle s t unit f).mem = s.mem := by
  unfold sameCycle
  dsimp only
  (repeat' split) <;> simp [h]

theorem sameCycle_wf {f : State → State} {s : State} (t unit : Nat) (hs : Memory.wf s.mem = true)
    (h : ∀ x, Memory.wf x.mem = true → Memory.wf (f x).mem = true) : Memory.wf (sameCycle s t unit f).mem = true := by
  unfold sameCycle
  dsimp only
  split
  · split
    · simpa using hs
    · exact h s hs
  · exact h s hs

@[simp] theorem trapSram_mem (s : State) (t unit pc info : Nat) : (trapSram s t unit pc info).mem = s.mem := by simp [trapSram]
@[simp] theorem tkAdd_mem (s : State) (t n k unit pc : Nat) : (tkAdd s t n k unit pc).mem = s.mem := by simp [tkAdd]
@[simp] theorem applySignal_mem (s : State) (t unit : Nat) (e : QEntry) : (applySignal s t unit e).mem = s.mem := by simp [applySignal]

@[simp] theorem takeToken_mem (s : State) (t : Nat) (e : Engine) (h : QEntry) : (takeToken s t e h).2.mem = s.mem := by
  simp only [takeToken]
  (repeat' split) <;> simp

@[simp] theorem popHead_mem (s : State) (t : Nat) (e : Engine) : (popHead s t e).mem = s.mem := by simp [popHead]

theorem engineStart_wf {s : State} {body : QEntry → State → Option State} (t : Nat) (e : Engine) (maj min : Nat) (hs : Memory.wf s.mem = true)
    (h : ∀ q x, Memory.wf x.mem = true → OptWf (body q x)) : Memory.wf (engineStart s t e maj min body).mem = true := by
  refine sameCycle_wf t _ hs fun x hx => ?_
  split
  · exact hx
  · next q _ =>
    have hk : (takeToken x t e q).2.mem = x.mem := takeToken_mem x t e q
    split
    · next ht =>
      rw [ht] at hk
      exact (congrArg Memory.wf hk).trans hx
    · next x1 ht =>
      rw [ht] at hk
      have h1 : Memory.wf x1.mem = true := (congrArg Memory.wf hk).trans hx
      split
      · next hb => exact h q _ (by rwa [popHead_mem]) _ hb
      · exact h1

@[simp] theorem advance_mem (s : State) (t : Nat) : (advance s t).mem = s.mem := by simp [advance]

@[simp] theorem coreStep_mem {body : State → Tile → State} (s : State) (t : Nat) (w : Word) (reads : List Nat) (h : ∀ u x, (body u x).mem = u.mem) :
    (coreStep s t w reads body).mem = s.mem := by
  refine sameCycle_mem s t 0 fun u => ?_
  dsimp only
  split
  · rfl
  · split
    · simp
    · split
      · simp
      · split <;> simp [h]

theorem coreStep_wf {body : State → Tile → State} {s : State} (t : Nat) (w : Word) (reads : List Nat) (hs : Memory.wf s.mem = true)
    (h : ∀ u x, Memory.wf u.mem = true → Memory.wf (body u x).mem = true) : Memory.wf (coreStep s t w reads body).mem = true := by
  refine sameCycle_wf t 0 hs fun u hu => ?_
  dsimp only
  split
  · exact hu
  · split
    · rwa [trap_mem]
    · split
      · rwa [trapSram_mem]
      · split
        · exact h _ _ hu
        · exact hu

@[simp] theorem coreWrite_mem (s : State) (t : Nat) (w : Word) (reads : List Nat) (sd : Nat) (f : Tile → Word) :
    (coreWrite s t w reads sd f).mem = s.mem := by
  simp [coreWrite]

@[simp] theorem startTask_mem (s : State) (t base size entry arg0 arg1 reason : Nat) : (startTask s t base size entry arg0 arg1 reason).mem = s.mem := by
  simp [startTask]

@[simp] theorem postNotice_mem (s : State) (t : Nat) (payload : List Byte) : (postNotice s t payload).mem = s.mem := by simp [postNotice]

@[simp] theorem taskEnd_mem (s : State) (t code unit : Nat) (multi : Bool) (cycles : Nat) : (taskEnd s t code unit multi cycles).mem = s.mem := by
  simp [taskEnd]

/-! ### Device memory through Machine/ClockOps.lean -/

@[simp] theorem setDie_mem (s : State) (d : Nat) (x : DieRt) : (setDie s d x).mem = s.mem := by simp [setDie]
@[simp] theorem setCluster_mem (s : State) (c : Nat) (x : ClusterRt) : (setCluster s c x).mem = s.mem := by simp [setCluster]
@[simp] theorem wakeRamp_mem (s : State) (c : Nat) : (wakeRamp s c).mem = s.mem := by simp [wakeRamp]
@[simp] theorem wakeEvent_mem (s : State) (c : Nat) : (wakeEvent s c).mem = s.mem := by simp [wakeEvent]
@[simp] theorem wakeForStart_mem (s : State) (t : Nat) : (wakeForStart s t).mem = s.mem := by simp [wakeForStart]
@[simp] theorem forceGate_mem (loop : Bool) (s : State) (c : Nat) : (forceGate loop s c).mem = s.mem := by simp [forceGate]
@[simp] theorem freeGate_mem (s : State) (c : Nat) : (freeGate s c).mem = s.mem := by simp [freeGate]
@[simp] theorem rampOver_mem (s : State) (c : Nat) : (rampOver s c).mem = s.mem := by simp [rampOver]

/-! ### Device memory through Machine/FabOps.lean -/

@[simp] theorem setLane_mem (s : State) (e l : Nat) (x : LaneRt) : (setLane s e l x).mem = s.mem := by simp [setLane]
@[simp] theorem onLane_mem (s : State) (e l : Nat) (f : LaneRt → LaneRt) : (onLane s e l f).mem = s.mem := by simp [onLane]
@[simp] theorem setLaneState_mem (s : State) (e l v : Nat) : (setLaneState s e l v).mem = s.mem := by simp [setLaneState]
@[simp] theorem setHop_mem (s : State) (k : Nat) (h : Hop) : (setHop s k h).mem = s.mem := by simp [setHop]
@[simp] theorem setLaser_mem (s : State) (n : Nat) (x : LaserSrc) : (setLaser s n x).mem = s.mem := by simp [setLaser]
@[simp] theorem noteBer_mem (s : State) (e : Nat) : (noteBer s e).mem = s.mem := by simp [noteBer]

@[simp] theorem sendUnit_mem (s : State) (eng lane utype lseq : Nat) (body : List Byte) : (sendUnit s eng lane utype lseq body).mem = s.mem := by
  simp [sendUnit]

@[simp] theorem sendTx_mem (s : State) (k i : Nat) : (sendTx s k i).mem = s.mem := by
  simp only [sendTx]
  (repeat' split) <;> simp

@[simp] theorem sendHeld_mem (f : Nat) (s : State) (k : Nat) : (sendHeld f s k).mem = s.mem := by
  induction f generalizing s with
  | zero => rfl
  | succ f ih =>
    rw [sendHeld]
    split <;> simp [ih]

@[simp] theorem sendLinkAck_mem (s : State) (k e l : Nat) : (sendLinkAck s k e l).mem = s.mem := by simp [sendLinkAck]

@[simp] theorem shareHops_mem (s : State) (p : Nat) : (shareHops s p).mem = s.mem :=
  foldl_mem _ _ _ fun x l => by split <;> simp

@[simp] theorem sendAllHeld_mem (s : State) : (sendAllHeld s).mem = s.mem := by simp [sendAllHeld]
@[simp] theorem transmit_mem (s : State) (k : Nat) (p : Packet) (inPort : Option Nat) : (transmit s k p inPort).mem = s.mem := by simp [transmit]
@[simp] theorem setRate_mem (s : State) (dest : Nat) (r : Rate) : (setRate s dest r).mem = s.mem := by simp [setRate]
@[simp] theorem onRun_mem (s : State) (t no : Nat) (f : StrRun → StrRun) : (onRun s t no f).mem = s.mem := by simp [onRun]
@[simp] theorem failRun_mem (s : State) (t no code addr : Nat) : (failRun s t no code addr).mem = s.mem := by simp [failRun]
@[simp] theorem onMsg_mem (s : State) (no : Nat) (f : OutMsg → OutMsg) : (onMsg s no f).mem = s.mem := by simp [onMsg]

@[simp] theorem dropEntry_mem (s : State) (t slot tag : Nat) : (dropEntry s t slot tag).mem = s.mem := by
  simp only [dropEntry]
  split <;> simp

@[simp] theorem notLoose_mem (s : State) (t id : Nat) : (notLoose s t id).mem = s.mem := by simp [notLoose]
@[simp] theorem notPending_mem (s : State) (t no id : Nat) : (notPending s t no id).mem = s.mem := by simp [notPending]

@[simp] theorem pktAcked_mem (s : State) (o : OutPkt) : (pktAcked s o).mem = s.mem := by
  simp only [pktAcked]
  split <;> simp

@[simp] theorem pktLost_mem (s : State) (o : OutPkt) : (pktLost s o).mem = s.mem := by
  simp only [pktLost]
  split <;> simp

@[simp] theorem noRoute_mem (s : State) (o : OutPkt) : (noRoute s o).mem = s.mem := by simp [noRoute]

@[simp] theorem inject_mem (s : State) (o : OutPkt) : (inject s o).mem = s.mem := by
  simp only [inject]
  split <;> simp

@[simp] theorem pumpWait_mem (f : Nat) (s : State) (l : List OutPkt) : (pumpWait f s l).mem = s.mem := by
  rw [(pumpWait_pumped f s l).2.1]

@[simp] theorem pump_mem (s : State) : (pump s).mem = s.mem := by simp [pump]
@[simp] theorem ready_mem (s : State) (owner : PktFor) (p : Packet) : (ready s owner p).mem = s.mem := by simp [ready]

/-! ### Device memory through Machine/PkgOps.lean -/

@[simp] theorem setDieState_mem (s : State) (d st : Nat) : (setDieState s d st).mem = s.mem := by simp [setDieState]
@[simp] theorem clearDegraded_mem (s : State) : (clearDegraded s).mem = s.mem := by simp [clearDegraded]
@[simp] theorem rejoinDie_mem (s : State) (d : Nat) : (rejoinDie s d).mem = s.mem := by simp [rejoinDie]
@[simp] theorem rejoinDies_mem (s : State) : (rejoinDies s).mem = s.mem := by simp [rejoinDies]
@[simp] theorem rejoinNow_mem (s : State) (d : Nat) : (rejoinNow s d).mem = s.mem := by simp [rejoinNow]

@[simp] theorem setReason_mem (s : State) (d v : Nat) : (setReason s d v).mem = s.mem := by
  unfold setReason
  exact foldl_mem _ _ _ fun x b => by simp

@[simp] theorem dropDie_mem (s : State) (d reason : Nat) : (dropDie s d reason).mem = s.mem := by simp [dropDie]
@[simp] theorem loseDie_mem (s : State) (d reason : Nat) : (loseDie s d reason).mem = s.mem := by simp [loseDie]
@[simp] theorem failAttempt_mem (s : State) (d stage : Nat) : (failAttempt s d stage).mem = s.mem := by simp [failAttempt]

@[simp] theorem railOffDie_mem (s : State) (d : Nat) : (railOffDie s d).mem = s.mem := by
  simp only [railOffDie]
  (repeat' split) <;> simp

@[simp] theorem resetTiles_mem (s : State) (d : Nat) : (resetTiles s d).mem = s.mem := by
  unfold resetTiles
  exact foldl_mem _ _ _ fun x b => by simp

/-! ### Device memory through Machine/RedrawOps.lean -/

@[simp] theorem dropLane_mem (s : State) (e l cause : Nat) : (dropLane s e l cause).mem = s.mem := by simp [dropLane]

@[simp] theorem tuneLane_mem (s : State) (p l : Nat) (n : Nat × Option (Nat × Nat)) (locking : Nat) (again : Bool) :
    (tuneLane s p l n locking again).mem = s.mem := by
  simp only [tuneLane]
  (repeat' split) <;> simp

@[simp] theorem tunePort_mem (s : State) (m : Option Nat) (p locking : Nat) (again : Bool) : (tunePort s m p locking again).mem = s.mem := by simp [tunePort]
@[simp] theorem sendIdentity_mem (s : State) (e l : Nat) : (sendIdentity s e l).mem = s.mem := by simp [sendIdentity]
@[simp] theorem sendIdentities_mem (s : State) (e : Nat) : (sendIdentities s e).mem = s.mem := by simp [sendIdentities]
@[simp] theorem holdPort_mem (s : State) (p : Nat) : (holdPort s p).mem = s.mem := by simp [holdPort]

@[simp] theorem releaseGwaits_mem (s : State) (b : Nat) : (releaseGwaits s b).mem = s.mem :=
  foldl_mem _ _ _ fun x p => by split <;> simp

@[simp] theorem enterPhase_mem (s : State) (p q : Nat) : (enterPhase s p q).mem = s.mem := by simp [enterPhase]
@[simp] theorem placeModule_mem (s : State) : (placeModule s).mem = s.mem := by simp [placeModule]
@[simp] theorem takeTables_mem (s : State) : (takeTables s).mem = s.mem := by simp [takeTables]
@[simp] theorem setUnpaired_mem (s : State) (p t : Nat) : (setUnpaired s p t).mem = s.mem := by simp [setUnpaired]
@[simp] theorem drainPorts_mem (s : State) (l : List Nat) : (drainPorts s l).mem = s.mem := by simp [drainPorts]
@[simp] theorem unretune_mem (s : State) (p : Nat) : (unretune s p).mem = s.mem := by simp [unretune]
@[simp] theorem redrawEnded_mem (s : State) (r : Redraw) : (redrawEnded s r).mem = s.mem := by simp [redrawEnded]
@[simp] theorem beginRedraw_mem (s : State) (m enter : Option Nat) : (beginRedraw s m enter).mem = s.mem := by simp [beginRedraw]
@[simp] theorem extendRedraw_mem (s : State) (r : Redraw) : (extendRedraw s r).mem = s.mem := by simp [extendRedraw]

@[simp] theorem phaseBoundary_mem (s : State) : (phaseBoundary s).mem = s.mem := by
  simp only [phaseBoundary]
  split
  · rfl
  · (repeat' split) <;> simp

@[simp] theorem releaseHeld_mem (f : Nat) (s : State) : (releaseHeld f s).mem = s.mem := by
  induction f generalizing s with
  | zero => rfl
  | succ f ih =>
    rw [releaseHeld]
    split <;> simp [ih]

@[simp] theorem redrawOver_mem (s : State) (r : Redraw) : (redrawOver s r).mem = s.mem := by simp [redrawOver]

/-! ### Device memory through Machine/MatrixOps.lean -/

@[simp] theorem lapse_mem (s : State) (t acc pc info : Nat) : (lapse s t acc pc info).mem = s.mem := by simp [lapse]

@[simp] theorem chunkStep_mem (s : State) (t : Nat) (op : MMOp) (skip : List Bool) (i pc : Nat) : (chunkStep s t op skip i pc).mem = s.mem := by
  simp [chunkStep]

@[simp] theorem foldDue_mem (s : State) (t acc : Nat) : (foldDue s t acc).mem = s.mem := by simp [foldDue]

@[simp] theorem wholeProduct_mem (c : Nat) (s : State) (t : Nat) (op : MMOp) (i pc : Nat) : (wholeProduct c s t op i pc).mem = s.mem := by
  induction c generalizing s i with
  | zero => rfl
  | succ c ih =>
    rw [wholeProduct]
    split <;> simp [ih]

/-! ### Device memory through Machine/VectorOps.lean -/

@[simp] theorem devView_wf (s : State) (a n : Nat) (ws : List VWrite) (hmem : Memory.wf s.mem = true) : Memory.wf (devView s a n ws).s.mem = true := by
  unfold devView
  grind [memRead_wf]

@[simp] theorem vflush_mem (t : Nat) (l : List VMem) (b : Bool) (s : State) : (vflush t l b s).2.mem = s.mem := by
  induction l generalizing b s with
  | nil => rfl
  | cons m r ih =>
    rw [vflush]
    split
    · split
      · exact ih _ _
      · rw [ih]
        split <;> simp
    · exact ih _ _
    · exact ih _ _

@[simp] theorem setOut_mem (s : State) (t : Nat) (l : List VMem) : (setOut s t l).mem = s.mem := by simp [setOut]

@[simp] theorem countOutcomes_mem (s : State) (t : Nat) (l : List Nat) : (countOutcomes s t l).mem = s.mem := by
  unfold countOutcomes
  exact foldl_mem _ _ _ fun x b => by simp

@[simp] theorem vCommit_mem (s : State) (t : Nat) (h : QEntry) (e : VEff) (fields : List Nat) : (vCommit s t h e fields).mem = s.mem := by
  unfold vCommit
  dsimp only
  split
  · simp
  · split <;> simp

/-- The state that a vector run hands on. -/
def VRes.st : VRes → State
  | .wait s => s
  | .fault _ _ s => s
  | .ok _ s => s

@[simp] theorem VRes.st_wait (s : State) : (VRes.wait s).st = s := rfl
@[simp] theorem VRes.st_fault (c i : Nat) (s : State) : (VRes.fault c i s).st = s := rfl
@[simp] theorem VRes.st_ok (e : VEff) (s : State) : (VRes.ok e s).st = s := rfl
@[simp] theorem VRes.st_ocTrap_mem (c i : Nat) (s : State) : (VRes.ocTrap c i s).st.mem = s.mem := by
  simp [VRes.ocTrap]

/-- A run of a vector instruction keeps the canonical form of device memory. -/
def VRun.KeepsForm (run : VRun) : Prop := ∀ t h s, Memory.wf s.mem = true → Memory.wf (run t h s).st.mem = true

theorem vCommitRoom_wf (c : Prop) [Decidable c] (t : Nat) (h : QEntry) (e : VEff) (l : List Nat) {s : State} (hs : Memory.wf s.mem = true) :
    OptWf (if c then some (vCommit s t h e l) else none) := by
  split
  · exact OptWf.some (by rwa [vCommit_mem])
  · exact OptWf.none

theorem vStep_wf {run : VRun} (t : Nat) (ue : RegErr) (pb pr : Bool) (fields : QEntry → List Nat) (hr : run.KeepsForm) (h : QEntry) (s : State)
    (hs : Memory.wf s.mem = true) : OptWf (vStep t ue pb pr fields run h s) := by
  have hrun := hr t h s hs
  unfold vStep
  dsimp only
  split
  · exact OptWf.none
  split
  · exact OptWf.some (by simpa using hs)
  split
  · exact OptWf.none
  · exact OptWf.some (by simpa using hs)
  · next hok _ =>
    rw [hok] at hrun
    exact OptWf.some (by simpa using hrun)
  · next hok _ =>
    rw [hok, VRes.st_ok] at hrun
    refine vCommitRoom_wf _ t h _ _ ?_
    split
    · exact hrun
    · rwa [onTile_mem]

theorem arith_keepsForm (useB sel useD : Bool) (bf : List Bool → Nat → Blk → Blk → (Nat → Bool) → Blk × Bool) (rf : Nat → Nat → Nat → Bool → Nat) :
    VRun.KeepsForm (arith useB sel useD bf rf) := fun t h s hs => by
  unfold arith
  dsimp only
  split <;> simpa using hs

theorem compare_keepsForm (bf : (Int × Int) → (Int × Int) → Bool) (rf : Val → Val → Bool) : VRun.KeepsForm (compare bf rf) := fun t h s hs => by
  unfold compare
  dsimp only
  split
  · simpa using hs
  · split <;> simpa using hs

theorem maskOp_keepsForm (f : Word → Word → Word) : VRun.KeepsForm (maskOp f) := fun _ _ _ hs => hs

/-! ### Device memory through Machine/StreamOps.lean -/

theorem readPieces_wf (t hint : Nat) (l : List (Nat × Nat)) (s : State) (acc : List (List Byte)) (bad : Option Nat)
    (hits : List (Nat × Nat × Nat × Nat)) (h : Memory.wf s.mem = true) : Memory.wf (readPieces t hint l s acc bad hits).s.mem = true := by
  induction l generalizing s acc bad hits with
  | nil => exact h
  | cons p r ih =>
    rw [readPieces]
    split
    · exact ih _ _ _ _ h
    · exact ih _ _ _ _ (memReadH_wf s _ _ _ h)

theorem readDirect_wf (s : State) (t hint : Nat) (oc : Bool) (l : List (Nat × Nat)) (h : Memory.wf s.mem = true) :
    Memory.wf (readDirect s t hint oc l).s.mem = true := by
  unfold readDirect
  split
  · simpa using h
  · exact foldl_keeps (fun x : List (List Byte) × Option Nat × State => Memory.wf x.2.2.mem = true) _ l ([], none, s) h
      fun x p hx => memReadH_wf x.2.2 p.1 p.2 hint hx

@[simp] theorem readSrc_wf (s : State) (t hint : Nat) (oc : Bool) (l : List (Nat × Nat))
    (hmem : Memory.wf s.mem = true) : Memory.wf (readSrc s t hint oc l).s.mem = true := by
  unfold readSrc
  grind [readDirect_wf, readPieces_wf]

@[simp] theorem pfConsume_mem (s : State) (t : Nat) (seen hits : List (Nat × Nat × Nat × Nat)) : (pfConsume s t seen hits).mem = s.mem := by
  unfold pfConsume
  exact foldl_mem _ _ _ fun x b => by simp

@[simp] theorem planMove_wf (s : State) (t : Nat) (e : QEntry) (hmem : Memory.wf s.mem = true) : Memory.wf (planMove s t e).s.mem = true := by
  simp [planMove, hmem]

theorem planCvt_wf (s : State) (t : Nat) (e : QEntry) (h : Memory.wf s.mem = true) : Memory.wf (planCvt s t e).s.mem = true := by
  unfold planCvt
  dsimp only
  split
  · exact memReadH_wf _ _ _ _ (readSrc_wf _ _ _ _ _ h)
  · exact readSrc_wf _ _ _ _ _ h

@[simp] theorem planRetain_wf (s : State) (t : Nat) (e : QEntry) (hmem : Memory.wf s.mem = true) : Memory.wf (planRetain s t e).s.mem = true := by
  simp [planRetain, hmem]

@[simp] theorem planExpand_wf (s : State) (t : Nat) (e : QEntry) (hmem : Memory.wf s.mem = true) : Memory.wf (planExpand s t e).s.mem = true := by
  unfold planExpand
  grind [readDirect_wf]

@[simp] theorem planOf_wf (s : State) (t : Nat) (r : StrRun) (hmem : Memory.wf s.mem = true) : Memory.wf (planOf s t r).s.mem = true := by
  unfold planOf
  grind [planCvt_wf, planExpand_wf, planMove_wf, planRetain_wf]

theorem doWrites_wf (s : State) (t hint : Nat) (l : List VWrite) (h : Memory.wf s.mem = true) : Memory.wf (doWrites s t hint l).mem = true :=
  foldl_wf l h fun x w hx => by
    split
    · exact hx
    · exact memWriteH_wf _ _ _ _ _ hx

@[simp] theorem issueFlash_mem (s : State) (t : Nat) : (issueFlash s t).mem = s.mem := by
  simp only [issueFlash]
  split <;> simp

@[simp] theorem issueReads_mem (t : Nat) (owner : PktFor) (dest : Nat) (sealed : Bool) (sub base : Nat) (segs : List (Nat × Nat × Nat))
    (vreg : Bool) (ver : Nat) (vchk : Option Nat) (serve : Nat → Nat → Option (Option Served)) (f : Nat) (rr : RRead) (s : State) (room : Nat) :
    (issueReads t owner dest sealed sub base segs vreg ver vchk serve f rr s room).2.mem = s.mem := by
  induction f generalizing rr s room with
  | zero => rfl
  | succ f ih =>
    rw [issueReads]
    dsimp only
    (repeat' split) <;> simp [ih]

theorem issueWrites_wf (t : Nat) (r : StrRun) (segs : List (Nat × Nat × Nat)) (f : Nat) (rr : RRead) (s : State) (room : Nat)
    (h : Memory.wf s.mem = true) : Memory.wf (issueWrites t r segs f rr s room).2.1.mem = true := by
  induction f generalizing rr s room with
  | zero => exact h
  | succ f ih =>
    rw [issueWrites]
    dsimp only
    split
    · exact h
    split
    · exact h
    split
    · exact readDirect_wf _ _ _ _ _ h
    · exact ih _ _ _ (by simpa using readDirect_wf _ _ _ _ _ h)

@[simp] theorem setRr_mem (s : State) (t no : Nat) (rr : RRead) : (setRr s t no rr).mem = s.mem := by simp [setRr]
@[simp] theorem sourceBad_mem (s : State) (t : Nat) (r : StrRun) (u : Nat) : (sourceBad s t r u).mem = s.mem := by simp [sourceBad]

theorem advanceRun_wf (s : State) (t : Nat) (before : List StrRun) (r : StrRun) (h : Memory.wf s.mem = true) :
    Memory.wf (advanceRun s t before r).mem = true := by
  unfold advanceRun
  dsimp only
  split
  · exact h
  split
  · simpa using h
  · have hw := issueWrites_wf t r (runSegs r) ((runSegs r).length + 1) r.rr s (256 - remOut (s.tile t)) h
    split
    · exact h
    · split <;> simpa using hw
  · split <;> simpa using h
  · exact h

theorem advanceRuns_wf (t f : Nat) (before : List StrRun) (s : State) (h : Memory.wf s.mem = true) :
    Memory.wf (advanceRuns t f before s).mem = true := by
  induction f generalizing before s with
  | zero => exact h
  | succ f ih =>
    rw [advanceRuns]
    split
    · exact h
    · exact ih _ _ (advanceRun_wf _ _ _ _ h)

@[simp] theorem putFill_mem (s : State) (t i : Nat) (old : PfEntry) (rr : RRead) (tag : Nat) : (putFill s t i old rr tag).mem = s.mem := by simp [putFill]

@[simp] theorem advanceFill_mem (s : State) (t i no : Nat) : (advanceFill s t i no).mem = s.mem := by
  unfold advanceFill
  dsimp only
  split
  · rfl
  · split <;> simp

@[simp] theorem advanceFills_mem (s : State) (t : Nat) : (advanceFills s t).mem = s.mem := by simp [advanceFills]

theorem pumpStream_wf (s : State) (t : Nat) (h : Memory.wf s.mem = true) : Memory.wf (pumpStream s t).mem = true := by
  unfold pumpStream
  split
  · simpa using h
  · simpa using advanceRuns_wf t _ _ (issueFlash s t) (by simpa using h)

/-! ### Device memory through Machine/Matrix.lean -/

theorem startMM_wf (t : Nat) (h : QEntry) (s : State) (hmem : Memory.wf s.mem = true) : OptWf (startMM t h s) := by
  unfold startMM
  dsimp only
  (repeat' split) <;> simp [hmem, OptWf.none, OptWf.some]

@[simp] theorem execMm_wf (t : Tid) (s : State) (hmem : Memory.wf s.mem = true) : Memory.wf (after s (execMm t s)).mem = true := by
  unfold execMm
  grind [after_next, engineStart_wf, startMM_wf]

@[simp] theorem execMmChunkStep_mem (t : Tid) (ue : Bool) (s : State) : (after s (execMmChunkStep t ue s)).mem = s.mem := by
  unfold execMmChunkStep
  rw [after_next]
  refine sameCycle_mem _ _ _ fun x => ?_
  dsimp only
  (repeat' split) <;> simp

@[simp] theorem execFold_mem (t : Tid) (f : FoldOf) (s : State) : (after s (execFold t f s)).mem = s.mem := by simp [execFold]

@[simp] theorem execMmComplete_mem (t : Tid) (s : State) : (after s (execMmComplete t s)).mem = s.mem := by
  simp only [execMmComplete]
  (repeat' split) <;> simp

theorem startMzero_wf (t : Nat) (h : QEntry) (s : State) (hmem : Memory.wf s.mem = true) : OptWf (startMzero t h s) := by
  unfold startMzero
  dsimp only
  (repeat' split) <;> simp [hmem, OptWf.none, OptWf.some]

@[simp] theorem execMzero_wf (t : Tid) (s : State) (hmem : Memory.wf s.mem = true) : Memory.wf (after s (execMzero t s)).mem = true := by
  unfold execMzero
  grind [after_next, engineStart_wf, startMzero_wf]

theorem startImage_wf (t : Nat) (h : QEntry) (work : Nat → Nat → MatWork) (s : State) (hmem : Memory.wf s.mem = true) : OptWf (startImage t h work s) := by
  unfold startImage
  dsimp only
  (repeat' split) <;> simp [hmem, OptWf.none, OptWf.some]

@[simp] theorem execMsave_wf (t : Tid) (s : State) (hmem : Memory.wf s.mem = true) : Memory.wf (after s (execMsave t s)).mem = true := by
  unfold execMsave
  grind [after_next, engineStart_wf, startImage_wf]

@[simp] theorem execMmerge_wf (t : Tid) (s : State) (hmem : Memory.wf s.mem = true) : Memory.wf (after s (execMmerge t s)).mem = true := by
  unfold execMmerge
  grind [after_next, engineStart_wf, startImage_wf]

@[simp] theorem execMrestore_wf (t : Tid) (s : State) (hmem : Memory.wf s.mem = true) : Memory.wf (after s (execMrestore t s)).mem = true := by
  unfold execMrestore
  grind [after_next, engineStart_wf, startImage_wf]

@[simp] theorem mergeImage_mem (s : State) (t acc : Nat) (b : List Byte) (pc : Nat) : (mergeImage s t acc b pc).mem = s.mem := by
  unfold mergeImage
  dsimp only
  split <;> split <;> simp

@[simp] theorem execAccImageTransferDone_wf (t : Tid) (ue : Bool) (s : State) (h : Memory.wf s.mem = true) :
    Memory.wf (after s (execAccImageTransferDone t ue s)).mem = true := by
  unfold execAccImageTransferDone
  rw [after_next]
  refine sameCycle_wf _ _ h fun x hx => ?_
  have hr (u : State) (a n k : Nat) (hu : u.mem = x.mem) : Memory.wf (memReadH u a n k).s.mem = true := memReadH_wf _ _ _ _ (by rwa [hu])
  dsimp only
  split
  · exact hx
  split
  · exact hx
  split
  · exact hx
  split
  · split
    · simpa using hx
    · rw [applySignal_mem]
      exact memWriteH_wf _ _ _ _ _ (by simpa using hx)
  · split
    · simpa using hx
    · split
      · rw [trap_mem]
        exact hr _ _ _ _ (setTile_mem _ _ _)
      · rw [applySignal_mem, mergeImage_mem]
        exact hr _ _ _ _ (setTile_mem _ _ _)
  · split
    · rw [trap_mem]
      exact hr _ _ _ _ (setTile_mem _ _ _)
    · split
      · rw [trap_mem]
        exact hr _ _ _ _ (setTile_mem _ _ _)
      · rw [applySignal_mem, onTile_mem]
        exact hr _ _ _ _ (setTile_mem _ _ _)
  · exact hx

theorem recomputeProduct_mem (t a : Nat) (s : State) (c : ChainMM) : (if !isLive s t then s else
    let s := if c.op.ovw then s.onTile t fun x => x.putAcc a (x.acc a).clear else s
    wholeProduct c.op.steps s t c.op 0 c.pc).mem = s.mem := by
  split
  · rfl
  · dsimp only
    split <;> simp

@[simp] theorem execVerifyRecompute_mem (u : AccUse) (s : State) : (after s (execVerifyRecompute u s)).mem = s.mem := by
  unfold execVerifyRecompute
  rw [after_next]
  refine sameCycle_mem _ _ _ fun x => ?_
  dsimp only
  split
  · rfl
  split
  · rfl
  split
  · simp
  · rw [apply_ite State.mem]
    simp only [addF_mem, onTile_mem, ite_self]
    rw [foldl_mem _ _ _ (recomputeProduct_mem _ _), setTile_mem]

/-! ### Device memory through Machine/Scalar.lean -/

@[simp] theorem aluOp_mem (t : Tid) (min : Nat) (sd sa : SReg) (b : SrcB) (f : Word → Word → Word) (s : State) : (aluOp t min sd sa b f s).mem = s.mem := by
  simp [aluOp]

@[simp] theorem shiftOp_mem (t : Tid) (min : Nat) (sd sa : SReg) (b : ShiftB) (f : Word → Nat → Word) (s : State) :
    (shiftOp t min sd sa b f s).mem = s.mem := by
  simp [shiftOp]

@[simp] theorem unaryOp_mem (t : Tid) (min : Nat) (sd sa : SReg) (f : Word → Word) (s : State) : (unaryOp t min sd sa f s).mem = s.mem := by simp [unaryOp]

@[simp] theorem divOp_mem (t : Tid) (min : Nat) (sd sa : SReg) (b : SrcB) (f : Word → Word → Word) (s : State) : (divOp t min sd sa b f s).mem = s.mem := by
  simp [divOp]

@[simp] theorem execAdd_mem (t : Tid) (sd sa : SReg) (b : SrcB) (s : State) : (after s (execAdd t sd sa b s)).mem = s.mem := by simp [execAdd]
@[simp] theorem execSub_mem (t : Tid) (sd sa : SReg) (b : SrcB) (s : State) : (after s (execSub t sd sa b s)).mem = s.mem := by simp [execSub]
@[simp] theorem execAnd_mem (t : Tid) (sd sa : SReg) (b : SrcB) (s : State) : (after s (execAnd t sd sa b s)).mem = s.mem := by simp [execAnd]
@[simp] theorem execOr_mem (t : Tid) (sd sa : SReg) (b : SrcB) (s : State) : (after s (execOr t sd sa b s)).mem = s.mem := by simp [execOr]
@[simp] theorem execXor_mem (t : Tid) (sd sa : SReg) (b : SrcB) (s : State) : (after s (execXor t sd sa b s)).mem = s.mem := by simp [execXor]
@[simp] theorem execAndn_mem (t : Tid) (sd sa : SReg) (b : SrcB) (s : State) : (after s (execAndn t sd sa b s)).mem = s.mem := by simp [execAndn]
@[simp] theorem execShl_mem (t : Tid) (sd sa : SReg) (b : ShiftB) (s : State) : (after s (execShl t sd sa b s)).mem = s.mem := by simp [execShl]
@[simp] theorem execShr_mem (t : Tid) (sd sa : SReg) (b : ShiftB) (s : State) : (after s (execShr t sd sa b s)).mem = s.mem := by simp [execShr]
@[simp] theorem execSra_mem (t : Tid) (sd sa : SReg) (b : ShiftB) (s : State) : (after s (execSra t sd sa b s)).mem = s.mem := by simp [execSra]
@[simp] theorem execMul_mem (t : Tid) (sd sa : SReg) (b : SrcB) (s : State) : (after s (execMul t sd sa b s)).mem = s.mem := by simp [execMul]
@[simp] theorem execMulh_mem (t : Tid) (sd sa sb : SReg) (s : State) : (after s (execMulh t sd sa sb s)).mem = s.mem := by simp [execMulh]
@[simp] theorem execMulhu_mem (t : Tid) (sd sa sb : SReg) (s : State) : (after s (execMulhu t sd sa sb s)).mem = s.mem := by simp [execMulhu]
@[simp] theorem execDiv_mem (t : Tid) (sd sa : SReg) (b : SrcB) (s : State) : (after s (execDiv t sd sa b s)).mem = s.mem := by simp [execDiv]
@[simp] theorem execDivu_mem (t : Tid) (sd sa : SReg) (b : SrcB) (s : State) : (after s (execDivu t sd sa b s)).mem = s.mem := by simp [execDivu]
@[simp] theorem execRem_mem (t : Tid) (sd sa : SReg) (b : SrcB) (s : State) : (after s (execRem t sd sa b s)).mem = s.mem := by simp [execRem]
@[simp] theorem execRemu_mem (t : Tid) (sd sa : SReg) (b : SrcB) (s : State) : (after s (execRemu t sd sa b s)).mem = s.mem := by simp [execRemu]
@[simp] theorem execSlt_mem (t : Tid) (sd sa : SReg) (b : SrcB) (s : State) : (after s (execSlt t sd sa b s)).mem = s.mem := by simp [execSlt]
@[simp] theorem execSltu_mem (t : Tid) (sd sa : SReg) (b : SrcB) (s : State) : (after s (execSltu t sd sa b s)).mem = s.mem := by simp [execSltu]
@[simp] theorem execSeq_mem (t : Tid) (sd sa : SReg) (b : SrcB) (s : State) : (after s (execSeq t sd sa b s)).mem = s.mem := by simp [execSeq]
@[simp] theorem execMin_mem (t : Tid) (sd sa : SReg) (b : SrcB) (s : State) : (after s (execMin t sd sa b s)).mem = s.mem := by simp [execMin]
@[simp] theorem execMax_mem (t : Tid) (sd sa : SReg) (b : SrcB) (s : State) : (after s (execMax t sd sa b s)).mem = s.mem := by simp [execMax]
@[simp] theorem execMinu_mem (t : Tid) (sd sa : SReg) (b : SrcB) (s : State) : (after s (execMinu t sd sa b s)).mem = s.mem := by simp [execMinu]
@[simp] theorem execMaxu_mem (t : Tid) (sd sa : SReg) (b : SrcB) (s : State) : (after s (execMaxu t sd sa b s)).mem = s.mem := by simp [execMaxu]
@[simp] theorem execPopc_mem (t : Tid) (sd sa : SReg) (s : State) : (after s (execPopc t sd sa s)).mem = s.mem := by simp [execPopc]
@[simp] theorem execClz_mem (t : Tid) (sd sa : SReg) (s : State) : (after s (execClz t sd sa s)).mem = s.mem := by simp [execClz]
@[simp] theorem execCtz_mem (t : Tid) (sd sa : SReg) (s : State) : (after s (execCtz t sd sa s)).mem = s.mem := by simp [execCtz]
@[simp] theorem execLi_mem (t : Tid) (sd : SReg) (imm : BitVec 46) (s : State) : (after s (execLi t sd imm s)).mem = s.mem := by simp [execLi]
@[simp] theorem execLih_mem (t : Tid) (sd : SReg) (imm : BitVec 18) (s : State) : (after s (execLih t sd imm s)).mem = s.mem := by simp [execLih]

@[simp] theorem memIssue_mem (s : State) (t : Tid) (w : Word) (reads : List Nat) (sd : Nat) (size hint : Nat) (addr : Tile → Nat) (kind : Tile → ScalarKind) :
    (memIssue s t w reads sd size hint addr kind).mem = s.mem := by
  simp [memIssue]

@[simp] theorem loadOp_mem (t : Tid) (min : Nat) (sd sa : SReg) (hint : BitVec 2) (offs : BitVec 34) (size : Nat) (sgn : Bool) (s : State) :
    (loadOp t min sd sa hint offs size sgn s).mem = s.mem := by
  simp [loadOp]

@[simp] theorem storeOp_mem (t : Tid) (min : Nat) (sd sa : SReg) (hint : BitVec 2) (offs : BitVec 34) (size : Nat) (s : State) :
    (storeOp t min sd sa hint offs size s).mem = s.mem := by
  simp [storeOp]

@[simp] theorem execLd8u_mem (t : Tid) (sd sa : SReg) (hint : BitVec 2) (offs : BitVec 34) (s : State) :
    (after s (execLd8u t sd sa hint offs s)).mem = s.mem := by
  simp [execLd8u]

@[simp] theorem execLd16u_mem (t : Tid) (sd sa : SReg) (hint : BitVec 2) (offs : BitVec 34) (s : State) :
    (after s (execLd16u t sd sa hint offs s)).mem = s.mem := by
  simp [execLd16u]

@[simp] theorem execLd32u_mem (t : Tid) (sd sa : SReg) (hint : BitVec 2) (offs : BitVec 34) (s : State) :
    (after s (execLd32u t sd sa hint offs s)).mem = s.mem := by
  simp [execLd32u]

@[simp] theorem execLd64_mem (t : Tid) (sd sa : SReg) (hint : BitVec 2) (offs : BitVec 34) (s : State) :
    (after s (execLd64 t sd sa hint offs s)).mem = s.mem := by
  simp [execLd64]

@[simp] theorem execLd8s_mem (t : Tid) (sd sa : SReg) (hint : BitVec 2) (offs : BitVec 34) (s : State) :
    (after s (execLd8s t sd sa hint offs s)).mem = s.mem := by
  simp [execLd8s]

@[simp] theorem execLd16s_mem (t : Tid) (sd sa : SReg) (hint : BitVec 2) (offs : BitVec 34) (s : State) :
    (after s (execLd16s t sd sa hint offs s)).mem = s.mem := by
  simp [execLd16s]

@[simp] theorem execLd32s_mem (t : Tid) (sd sa : SReg) (hint : BitVec 2) (offs : BitVec 34) (s : State) :
    (after s (execLd32s t sd sa hint offs s)).mem = s.mem := by
  simp [execLd32s]

@[simp] theorem execLdo64_mem (t : Tid) (sd sa : SReg) (offs : BitVec 34) (s : State) : (after s (execLdo64 t sd sa offs s)).mem = s.mem := by
  unfold execLdo64
  rw [after_next]
  refine coreStep_mem _ _ _ _ fun u x => ?_
  dsimp only
  (repeat' split) <;> simp

@[simp] theorem execSt8_mem (t : Tid) (sd sa : SReg) (hint : BitVec 2) (offs : BitVec 34) (s : State) :
    (after s (execSt8 t sd sa hint offs s)).mem = s.mem := by
  simp [execSt8]

@[simp] theorem execSt16_mem (t : Tid) (sd sa : SReg) (hint : BitVec 2) (offs : BitVec 34) (s : State) :
    (after s (execSt16 t sd sa hint offs s)).mem = s.mem := by
  simp [execSt16]

@[simp] theorem execSt32_mem (t : Tid) (sd sa : SReg) (hint : BitVec 2) (offs : BitVec 34) (s : State) :
    (after s (execSt32 t sd sa hint offs s)).mem = s.mem := by
  simp [execSt32]

@[simp] theorem execSt64_mem (t : Tid) (sd sa : SReg) (hint : BitVec 2) (offs : BitVec 34) (s : State) :
    (after s (execSt64 t sd sa hint offs s)).mem = s.mem := by
  simp [execSt64]

@[simp] theorem execSto64_mem (t : Tid) (sd sa : SReg) (offs : BitVec 34) (s : State) : (after s (execSto64 t sd sa offs s)).mem = s.mem := by
  simp [execSto64]

@[simp] theorem atomicOp_mem (t : Tid) (min : Nat) (sd sa sb : SReg) (kind : Tile → ScalarKind) (s : State) :
    (atomicOp t min sd sa sb kind s).mem = s.mem := by
  simp [atomicOp]

@[simp] theorem execAadd_mem (t : Tid) (sd sa sb : SReg) (s : State) : (after s (execAadd t sd sa sb s)).mem = s.mem := by simp [execAadd]
@[simp] theorem execAswap_mem (t : Tid) (sd sa sb : SReg) (s : State) : (after s (execAswap t sd sa sb s)).mem = s.mem := by simp [execAswap]
@[simp] theorem execAcas_mem (t : Tid) (sd sa sb : SReg) (s : State) : (after s (execAcas t sd sa sb s)).mem = s.mem := by simp [execAcas]
@[simp] theorem execAor_mem (t : Tid) (sd sa sb : SReg) (s : State) : (after s (execAor t sd sa sb s)).mem = s.mem := by simp [execAor]

@[simp] theorem flushSignals_mem (f t : Nat) (s : State) : (flushSignals f t s).mem = s.mem := by
  induction f generalizing s with
  | zero => rfl
  | succ f ih =>
    rw [flushSignals]
    split
    · rfl
    · split
      · rfl
      · split <;> simp [ih]

@[simp] theorem execScalarMemoryComplete_wf (t : Tid) (i : Nat) (s : State) (h : Memory.wf s.mem = true) :
    Memory.wf (after s (execScalarMemoryComplete t i s)).mem = true := by
  unfold execScalarMemoryComplete
  rw [after_next]
  refine sameCycle_wf _ _ h fun x hx => ?_
  have hr (u : State) (a n k : Nat) (hu : u.mem = x.mem) : Memory.wf (memReadH u a n k).s.mem = true := memReadH_wf _ _ _ _ (by rwa [hu])
  dsimp only
  split
  · exact hx
  split
  · exact hx
  split
  · exact hx
  split
  · exact hx
  · split
    · exact hr _ _ _ _ (setTile_mem _ _ _)
    · split
      · rw [trap_mem]
        exact hr _ _ _ _ (setTile_mem _ _ _)
      · rw [onTile_mem]
        exact hr _ _ _ _ (setTile_mem _ _ _)
  · rw [flushSignals_mem]
    exact memWriteH_wf _ _ _ _ _ (by rwa [setTile_mem])
  · split
    · split
      · exact hr _ _ _ _ (setTile_mem _ _ _)
      · rw [trap_mem]
        exact hr _ _ _ _ (setTile_mem _ _ _)
    · rw [flushSignals_mem, apply_ite State.mem, onTile_mem, ite_self]
      exact memWriteH_wf _ _ _ _ _ (hr _ _ _ _ (setTile_mem _ _ _))

@[simp] theorem goTo_mem (s : State) (t : Nat) (x : Tile) (target : Int) : (goTo s t x target).mem = s.mem := by simp [goTo]

@[simp] theorem branchOp_mem (t : Tid) (min : Nat) (sa sb : SReg) (offs : BitVec 40) (c : Word → Word → Bool) (s : State) :
    (branchOp t min sa sb offs c s).mem = s.mem := by
  simp [branchOp]

@[simp] theorem execBeq_mem (t : Tid) (sa sb : SReg) (offs : BitVec 40) (s : State) : (after s (execBeq t sa sb offs s)).mem = s.mem := by simp [execBeq]
@[simp] theorem execBne_mem (t : Tid) (sa sb : SReg) (offs : BitVec 40) (s : State) : (after s (execBne t sa sb offs s)).mem = s.mem := by simp [execBne]
@[simp] theorem execBlt_mem (t : Tid) (sa sb : SReg) (offs : BitVec 40) (s : State) : (after s (execBlt t sa sb offs s)).mem = s.mem := by simp [execBlt]
@[simp] theorem execBge_mem (t : Tid) (sa sb : SReg) (offs : BitVec 40) (s : State) : (after s (execBge t sa sb offs s)).mem = s.mem := by simp [execBge]
@[simp] theorem execBltu_mem (t : Tid) (sa sb : SReg) (offs : BitVec 40) (s : State) : (after s (execBltu t sa sb offs s)).mem = s.mem := by simp [execBltu]
@[simp] theorem execBgeu_mem (t : Tid) (sa sb : SReg) (offs : BitVec 40) (s : State) : (after s (execBgeu t sa sb offs s)).mem = s.mem := by simp [execBgeu]
@[simp] theorem execJal_mem (t : Tid) (sd : SReg) (imm : BitVec 46) (s : State) : (after s (execJal t sd imm s)).mem = s.mem := by simp [execJal]
@[simp] theorem execJalr_mem (t : Tid) (sd sa : SReg) (imm : BitVec 40) (s : State) : (after s (execJalr t sd sa imm s)).mem = s.mem := by simp [execJalr]

/-! ### Device memory through Machine/Vector.lean -/

theorem runVld_keepsForm : VRun.KeepsForm runVld := fun t h s hs => by
  unfold runVld
  dsimp only
  (repeat' split) <;> simpa using hs

theorem runVst_keepsForm : VRun.KeepsForm runVst := fun t h s hs => by
  unfold runVst
  dsimp only
  split
  · exact hs
  · generalize hf : List.foldl _ (VEff.none, s, none) _ = r
    have hr : Memory.wf r.2.1.mem = true := by
      rw [← hf]
      exact foldl_keeps (fun x : VEff × State × Option Nat => Memory.wf x.2.1.mem = true) _ _ _ hs fun x b hx => memRead_wf _ _ _ hx
    split <;> exact hr

@[simp] theorem openWindow_mem (s : State) (t acc : Nat) : (openWindow s t acc).mem = s.mem := by simp [openWindow]
@[simp] theorem joinWindow_mem (s : State) (t acc : Nat) : (joinWindow s t acc).mem = s.mem := by simp [joinWindow]

theorem runVrdacc_keepsForm : VRun.KeepsForm runVrdacc := fun t h s hs => by
  unfold runVrdacc
  dsimp only
  split
  · exact hs
  split
  · exact hs
  split
  · simpa using hs
  split
  · exact hs
  · simpa using hs

theorem runVseed_keepsForm : VRun.KeepsForm runVseed := fun t h s hs => by
  unfold runVseed
  dsimp only
  split <;> simpa using hs

theorem reduce_keepsForm (f : List Bool → List (Int × Int) → Int → Blk × Bool) : VRun.KeepsForm (reduce f) := fun t h s hs => by
  unfold reduce
  dsimp only
  split <;> simpa using hs

theorem runSplat_keepsForm : VRun.KeepsForm runSplat := fun t h s hs => by
  unfold runSplat runVsplatRef
  dsimp only
  split
  · exact arith_keepsForm _ _ _ _ _ t h s hs
  · split <;> simpa using hs

theorem runWrsp_keepsForm : VRun.KeepsForm runWrsp := fun t h s hs => by
  unfold runWrsp
  dsimp only
  (repeat' split) <;> exact hs

theorem vRow_keepsForm {maj min : Nat} {v : VRow} (h : vRow maj min = some v) : v.run.KeepsForm := by
  unfold vRow at h
  dsimp only at h
  split at h
  case h_37 => exact absurd h (by simp)
  all_goals rw [Option.some.injEq] at h; subst h
  all_goals dsimp only
  exacts [arith_keepsForm _ _ _ _ _, arith_keepsForm _ _ _ _ _, arith_keepsForm _ _ _ _ _, arith_keepsForm _ _ _ _ _,
    arith_keepsForm _ _ _ _ _, arith_keepsForm _ _ _ _ _, arith_keepsForm _ _ _ _ _, arith_keepsForm _ _ _ _ _,
    arith_keepsForm _ _ _ _ _, arith_keepsForm _ _ _ _ _, arith_keepsForm _ _ _ _ _, arith_keepsForm _ _ _ _ _,
    arith_keepsForm _ _ _ _ _, arith_keepsForm _ _ _ _ _, arith_keepsForm _ _ _ _ _, arith_keepsForm _ _ _ _ _,
    compare_keepsForm _ _, compare_keepsForm _ _, compare_keepsForm _ _, arith_keepsForm _ _ _ _ _,
    arith_keepsForm _ _ _ _ _, arith_keepsForm _ _ _ _ _, arith_keepsForm _ _ _ _ _, arith_keepsForm _ _ _ _ _,
    maskOp_keepsForm _, maskOp_keepsForm _, maskOp_keepsForm _, arith_keepsForm _ _ _ _ _,
    runVld_keepsForm, runVst_keepsForm, runVrdacc_keepsForm, runVseed_keepsForm,
    reduce_keepsForm _, fun t h s => reduce_keepsForm _ t h s, runSplat_keepsForm, runWrsp_keepsForm]

theorem VRow.start_wf {v : VRow} (t : Nat) (ue : RegErr) (hv : v.run.KeepsForm) (h : QEntry) (s : State) (hs : Memory.wf s.mem = true) :
    OptWf (v.start t ue h s) := vStep_wf t ue _ _ _ hv h s hs

theorem vecCmd_wf (t : Nat) (ue : RegErr) (maj min : Nat) (s : State) (h : Memory.wf s.mem = true) :
    Memory.wf (after s (vecCmd t ue maj min s)).mem = true := by
  unfold vecCmd
  dsimp only [after]
  split
  · exact h
  · next hv => exact engineStart_wf t _ _ _ h fun q x hx => VRow.start_wf t ue (vRow_keepsForm hv) q x hx

/-! ### Device memory through Machine/VectorCmds.lean -/

@[simp] theorem execVadd_wf (t : Tid) (ue : RegErr) (s : State) (hmem : Memory.wf s.mem = true) : Memory.wf (after s (execVadd t ue s)).mem = true := by
  unfold execVadd
  grind [vecCmd_wf]

@[simp] theorem execVsub_wf (t : Tid) (ue : RegErr) (s : State) (hmem : Memory.wf s.mem = true) : Memory.wf (after s (execVsub t ue s)).mem = true := by
  unfold execVsub
  grind [vecCmd_wf]

@[simp] theorem execVmul_wf (t : Tid) (ue : RegErr) (s : State) (hmem : Memory.wf s.mem = true) : Memory.wf (after s (execVmul t ue s)).mem = true := by
  unfold execVmul
  grind [vecCmd_wf]

@[simp] theorem execVmulh_wf (t : Tid) (ue : RegErr) (s : State) (hmem : Memory.wf s.mem = true) : Memory.wf (after s (execVmulh t ue s)).mem = true := by
  unfold execVmulh
  grind [vecCmd_wf]

@[simp] theorem execVfma_wf (t : Tid) (ue : RegErr) (s : State) (hmem : Memory.wf s.mem = true) : Memory.wf (after s (execVfma t ue s)).mem = true := by
  unfold execVfma
  grind [vecCmd_wf]

@[simp] theorem execVmin_wf (t : Tid) (ue : RegErr) (s : State) (hmem : Memory.wf s.mem = true) : Memory.wf (after s (execVmin t ue s)).mem = true := by
  unfold execVmin
  grind [vecCmd_wf]

@[simp] theorem execVmax_wf (t : Tid) (ue : RegErr) (s : State) (hmem : Memory.wf s.mem = true) : Memory.wf (after s (execVmax t ue s)).mem = true := by
  unfold execVmax
  grind [vecCmd_wf]

@[simp] theorem execVabs_wf (t : Tid) (ue : RegErr) (s : State) (hmem : Memory.wf s.mem = true) : Memory.wf (after s (execVabs t ue s)).mem = true := by
  unfold execVabs
  grind [vecCmd_wf]

@[simp] theorem execVneg_wf (t : Tid) (ue : RegErr) (s : State) (hmem : Memory.wf s.mem = true) : Memory.wf (after s (execVneg t ue s)).mem = true := by
  unfold execVneg
  grind [vecCmd_wf]

@[simp] theorem execVand_wf (t : Tid) (ue : RegErr) (s : State) (hmem : Memory.wf s.mem = true) : Memory.wf (after s (execVand t ue s)).mem = true := by
  unfold execVand
  grind [vecCmd_wf]

@[simp] theorem execVor_wf (t : Tid) (ue : RegErr) (s : State) (hmem : Memory.wf s.mem = true) : Memory.wf (after s (execVor t ue s)).mem = true := by
  unfold execVor
  grind [vecCmd_wf]

@[simp] theorem execVxor_wf (t : Tid) (ue : RegErr) (s : State) (hmem : Memory.wf s.mem = true) : Memory.wf (after s (execVxor t ue s)).mem = true := by
  unfold execVxor
  grind [vecCmd_wf]

@[simp] theorem execVandn_wf (t : Tid) (ue : RegErr) (s : State) (hmem : Memory.wf s.mem = true) : Memory.wf (after s (execVandn t ue s)).mem = true := by
  unfold execVandn
  grind [vecCmd_wf]

@[simp] theorem execVshl_wf (t : Tid) (ue : RegErr) (s : State) (hmem : Memory.wf s.mem = true) : Memory.wf (after s (execVshl t ue s)).mem = true := by
  unfold execVshl
  grind [vecCmd_wf]

@[simp] theorem execVsra_wf (t : Tid) (ue : RegErr) (s : State) (hmem : Memory.wf s.mem = true) : Memory.wf (after s (execVsra t ue s)).mem = true := by
  unfold execVsra
  grind [vecCmd_wf]

@[simp] theorem execVsrr_wf (t : Tid) (ue : RegErr) (s : State) (hmem : Memory.wf s.mem = true) : Memory.wf (after s (execVsrr t ue s)).mem = true := by
  unfold execVsrr
  grind [vecCmd_wf]

@[simp] theorem execVcmplt_wf (t : Tid) (ue : RegErr) (s : State) (hmem : Memory.wf s.mem = true) : Memory.wf (after s (execVcmplt t ue s)).mem = true := by
  unfold execVcmplt
  grind [vecCmd_wf]

@[simp] theorem execVcmple_wf (t : Tid) (ue : RegErr) (s : State) (hmem : Memory.wf s.mem = true) : Memory.wf (after s (execVcmple t ue s)).mem = true := by
  unfold execVcmple
  grind [vecCmd_wf]

@[simp] theorem execVcmpeq_wf (t : Tid) (ue : RegErr) (s : State) (hmem : Memory.wf s.mem = true) : Memory.wf (after s (execVcmpeq t ue s)).mem = true := by
  unfold execVcmpeq
  grind [vecCmd_wf]

@[simp] theorem execVsel_wf (t : Tid) (ue : RegErr) (s : State) (hmem : Memory.wf s.mem = true) : Memory.wf (after s (execVsel t ue s)).mem = true := by
  unfold execVsel
  grind [vecCmd_wf]

@[simp] theorem execVmov_wf (t : Tid) (ue : RegErr) (s : State) (hmem : Memory.wf s.mem = true) : Memory.wf (after s (execVmov t ue s)).mem = true := by
  unfold execVmov
  grind [vecCmd_wf]

@[simp] theorem execVscale_wf (t : Tid) (ue : RegErr) (s : State) (hmem : Memory.wf s.mem = true) : Memory.wf (after s (execVscale t ue s)).mem = true := by
  unfold execVscale
  grind [vecCmd_wf]

@[simp] theorem execValign_wf (t : Tid) (ue : RegErr) (s : State) (hmem : Memory.wf s.mem = true) : Memory.wf (after s (execValign t ue s)).mem = true := by
  unfold execValign
  grind [vecCmd_wf]

@[simp] theorem execVnorm_wf (t : Tid) (ue : RegErr) (s : State) (hmem : Memory.wf s.mem = true) : Memory.wf (after s (execVnorm t ue s)).mem = true := by
  unfold execVnorm
  grind [vecCmd_wf]

@[simp] theorem execVkand_wf (t : Tid) (ue : RegErr) (s : State) (hmem : Memory.wf s.mem = true) : Memory.wf (after s (execVkand t ue s)).mem = true := by
  unfold execVkand
  grind [vecCmd_wf]

@[simp] theorem execVkor_wf (t : Tid) (ue : RegErr) (s : State) (hmem : Memory.wf s.mem = true) : Memory.wf (after s (execVkor t ue s)).mem = true := by
  unfold execVkor
  grind [vecCmd_wf]

@[simp] theorem execVkxor_wf (t : Tid) (ue : RegErr) (s : State) (hmem : Memory.wf s.mem = true) : Memory.wf (after s (execVkxor t ue s)).mem = true := by
  unfold execVkxor
  grind [vecCmd_wf]

@[simp] theorem execVrsub_wf (t : Tid) (ue : RegErr) (s : State) (hmem : Memory.wf s.mem = true) : Memory.wf (after s (execVrsub t ue s)).mem = true := by
  unfold execVrsub
  grind [vecCmd_wf]

@[simp] theorem execVld_wf (t : Tid) (ue : RegErr) (s : State) (hmem : Memory.wf s.mem = true) : Memory.wf (after s (execVld t ue s)).mem = true := by
  unfold execVld
  grind [vecCmd_wf]

@[simp] theorem execVst_wf (t : Tid) (ue : RegErr) (s : State) (hmem : Memory.wf s.mem = true) : Memory.wf (after s (execVst t ue s)).mem = true := by
  unfold execVst
  grind [vecCmd_wf]

@[simp] theorem execVrdacc_wf (t : Tid) (ue : RegErr) (s : State) (hmem : Memory.wf s.mem = true) : Memory.wf (after s (execVrdacc t ue s)).mem = true := by
  unfold execVrdacc
  grind [vecCmd_wf]

@[simp] theorem execVseed_wf (t : Tid) (ue : RegErr) (s : State) (hmem : Memory.wf s.mem = true) : Memory.wf (after s (execVseed t ue s)).mem = true := by
  unfold execVseed
  grind [vecCmd_wf]

@[simp] theorem execVrsum_wf (t : Tid) (ue : RegErr) (s : State) (hmem : Memory.wf s.mem = true) : Memory.wf (after s (execVrsum t ue s)).mem = true := by
  unfold execVrsum
  grind [vecCmd_wf]

@[simp] theorem execVrmax_wf (t : Tid) (ue : RegErr) (s : State) (hmem : Memory.wf s.mem = true) : Memory.wf (after s (execVrmax t ue s)).mem = true := by
  unfold execVrmax
  grind [vecCmd_wf]

@[simp] theorem execVsplat_wf (t : Tid) (ue : RegErr) (s : State) (hmem : Memory.wf s.mem = true) : Memory.wf (after s (execVsplat t ue s)).mem = true := by
  unfold execVsplat
  grind [vecCmd_wf]

@[simp] theorem execWrsp_wf (t : Tid) (s : State) (hmem : Memory.wf s.mem = true) : Memory.wf (after s (execWrsp t s)).mem = true := by
  unfold execWrsp
  grind [vecCmd_wf]

theorem startRdsp_wf (t : Nat) (h : QEntry) (s : State) (hmem : Memory.wf s.mem = true) : OptWf (startRdsp t h s) := by
  unfold startRdsp
  dsimp only
  (repeat' split) <;> simp [hmem, OptWf.none, OptWf.some]

@[simp] theorem execRdsp_wf (t : Tid) (s : State) (hmem : Memory.wf s.mem = true) : Memory.wf (after s (execRdsp t s)).mem = true := by
  unfold execRdsp
  grind [after_next, engineStart_wf, startRdsp_wf]

theorem loadReturn_wf (s : State) (t i : Nat) (h : Memory.wf s.mem = true) : Memory.wf (loadReturn s t i).mem = true := by
  unfold loadReturn
  dsimp only
  split
  · generalize hf : List.foldl _ (s, none) _ = r
    have hr : Memory.wf r.1.mem = true := by
      rw [← hf]
      exact foldl_keeps (fun x : State × Option Nat => Memory.wf x.1.mem = true) _ _ _ h fun x p hx => memReadH_wf _ _ _ _ hx
    split
    · simpa using hr
    · split <;> simpa using hr
  · exact h

@[simp] theorem execVectorLoadReturn_wf (t : Tid) (i : Nat) (s : State) (h : Memory.wf s.mem = true) :
    Memory.wf (after s (execVectorLoadReturn t i s)).mem = true := by
  unfold execVectorLoadReturn
  rw [after_next]
  refine sameCycle_wf _ _ h fun x hx => ?_
  split
  · exact loadReturn_wf _ _ _ hx
  · exact hx

@[simp] theorem execVectorStoreVisible_wf (t : Tid) (i : Nat) (s : State) (h : Memory.wf s.mem = true) :
    Memory.wf (after s (execVectorStoreVisible t i s)).mem = true := by
  unfold execVectorStoreVisible
  rw [after_next]
  dsimp only
  split
  · exact h
  split
  · split
    · exact h
    · rw [setOut_mem]
      exact foldl_wf _ h fun x b hx => memWriteH_wf _ _ _ _ _ hx
  · exact h

theorem replayFrom_wf (t : Nat) (ue : RegErr) (l : List QEntry) (s : State) (hs : Memory.wf s.mem = true) :
    Memory.wf (replayFrom t ue l s).2.mem = true := by
  induction l generalizing s with
  | nil => exact hs
  | cons q r ih =>
    rw [replayFrom]
    split
    · exact hs
    split
    · exact ih _ hs
    · next hv =>
      have hq := VRow.start_wf t ue (vRow_keepsForm hv) q s hs
      split
      · exact hs
      · next hu =>
        exact ih _ (hq _ hu)

@[simp] theorem replayGo_wf (s : State) (t : Nat) (ue : RegErr) (l : List QEntry) (h : Memory.wf s.mem = true) :
    Memory.wf (replayGo s t ue l).mem = true := by
  unfold replayGo
  dsimp only
  rw [onTile_mem]
  exact replayFrom_wf _ _ _ _ h

@[simp] theorem execWindowReplay_wf (u : VecUse) (s : State) (h : Memory.wf s.mem = true) :
    Memory.wf (after s (execWindowReplay u s)).mem = true := by
  unfold execWindowReplay
  rw [after_next]
  refine sameCycle_wf _ _ h fun x hx => ?_
  dsimp only
  split
  · exact hx
  split
  · exact replayGo_wf _ _ _ _ hx
  split
  · exact hx
  split
  · exact hx
  · exact replayGo_wf _ _ _ _ (by simpa using hx)

@[simp] theorem closeWindow_mem (s : State) (t : Nat) : (closeWindow s t).mem = s.mem := by
  unfold closeWindow
  dsimp only
  split
  · rfl
  · split <;> simp

/-! ### Device memory through Machine/Stream.lean -/

@[simp] theorem pushRun_mem (s : State) (t : Nat) (e : QEntry) (flash : List Nat) : (pushRun s t e flash).mem = s.mem := by simp [pushRun]

theorem startXfer_wf (t : Nat) (e : QEntry) (s : State) (hmem : Memory.wf s.mem = true) : OptWf (startXfer t e s) := by
  unfold startXfer
  grind [OptWf, pumpStream_wf, pushRun_mem, trap_mem]

@[simp] theorem strCmd_wf (t min : Nat) (s : State) (hmem : Memory.wf s.mem = true) : Memory.wf (after s (strCmd t min s)).mem = true := by
  unfold strCmd
  grind [after_next, engineStart_wf, startXfer_wf]

@[simp] theorem execSmove_wf (t : Tid) (s : State) (hmem : Memory.wf s.mem = true) : Memory.wf (after s (execSmove t s)).mem = true := by
  simp [execSmove, hmem]

@[simp] theorem execScvt_wf (t : Tid) (s : State) (hmem : Memory.wf s.mem = true) : Memory.wf (after s (execScvt t s)).mem = true := by simp [execScvt, hmem]
@[simp] theorem execSget_wf (t : Tid) (s : State) (hmem : Memory.wf s.mem = true) : Memory.wf (after s (execSget t s)).mem = true := by simp [execSget, hmem]
@[simp] theorem execSput_wf (t : Tid) (s : State) (hmem : Memory.wf s.mem = true) : Memory.wf (after s (execSput t s)).mem = true := by simp [execSput, hmem]

@[simp] theorem execSvfence_wf (t : Tid) (s : State) (hmem : Memory.wf s.mem = true) : Memory.wf (after s (execSvfence t s)).mem = true := by
  simp [execSvfence, hmem]

@[simp] theorem execSretain_wf (t : Tid) (s : State) (hmem : Memory.wf s.mem = true) : Memory.wf (after s (execSretain t s)).mem = true := by
  simp [execSretain, hmem]

@[simp] theorem execSexpand_wf (t : Tid) (s : State) (hmem : Memory.wf s.mem = true) : Memory.wf (after s (execSexpand t s)).mem = true := by
  simp [execSexpand, hmem]

theorem startFlash_wf (t : Nat) (e : QEntry) (s : State) (hmem : Memory.wf s.mem = true) : OptWf (startFlash t e s) := by
  unfold startFlash
  grind [OptWf, pumpStream_wf, pushRun_mem, trap_mem]

@[simp] theorem execSflash_wf (t : Tid) (s : State) (hmem : Memory.wf s.mem = true) : Memory.wf (after s (execSflash t s)).mem = true := by
  unfold execSflash
  grind [after_next, engineStart_wf, startFlash_wf]

theorem startVerify_wf (t : Nat) (e : QEntry) (s : State) (hmem : Memory.wf s.mem = true) : OptWf (startVerify t e s) := by
  unfold startVerify
  dsimp only
  (repeat' split) <;> simp [hmem, OptWf.none, OptWf.some]

@[simp] theorem execSverify_wf (t : Tid) (s : State) (hmem : Memory.wf s.mem = true) : Memory.wf (after s (execSverify t s)).mem = true := by
  unfold execSverify
  grind [after_next, engineStart_wf, startVerify_wf]

@[simp] theorem pfDone_mem (s : State) (t : Nat) (e : QEntry) : (pfDone s t e).mem = s.mem := by simp [pfDone]

theorem startPfset_wf (t : Nat) (e : QEntry) (s : State) (hmem : Memory.wf s.mem = true) : OptWf (startPfset t e s) := by
  unfold startPfset
  grind [OptWf, pumpStream_wf, pfDone_mem, setTile_mem, trap_mem]

@[simp] theorem execPfset_wf (t : Tid) (s : State) (hmem : Memory.wf s.mem = true) : Memory.wf (after s (execPfset t s)).mem = true := by
  unfold execPfset
  grind [after_next, engineStart_wf, startPfset_wf]

theorem startPfstop_wf (t : Nat) (e : QEntry) (s : State) (hmem : Memory.wf s.mem = true) : OptWf (startPfstop t e s) := by
  unfold startPfstop
  dsimp only
  (repeat' split) <;> simp [hmem, OptWf.some]

@[simp] theorem execPfstop_wf (t : Tid) (s : State) (hmem : Memory.wf s.mem = true) : Memory.wf (after s (execPfstop t s)).mem = true := by
  unfold execPfstop
  grind [after_next, engineStart_wf, startPfstop_wf]

theorem goneFill_mem (s : State) (t : Nat) (f : Tile → Tile) (c : Fld) (n : Nat) : (addF (s.onTile t f) c n).mem = s.mem := by
  rw [addF_mem, onTile_mem]

@[simp] theorem execPrefetchFillReturn_wf (t : Tid) (slot : Fin 8) (i : Nat) (s : State) (h : Memory.wf s.mem = true) :
    Memory.wf (after s (execPrefetchFillReturn t slot i s)).mem = true := by
  unfold execPrefetchFillReturn
  rw [after_next]
  dsimp only
  split
  · exact h
  split
  · exact h
  split
  · split
    · exact pumpStream_wf _ _ ((congrArg Memory.wf (onTile_mem _ _ _)).trans h)
    · exact h
  split
  · exact pumpStream_wf _ _ ((congrArg Memory.wf (goneFill_mem _ _ _ _ _)).trans h)
  split
  · exact pumpStream_wf _ _ ((congrArg Memory.wf (goneFill_mem _ _ _ _ _)).trans h)
  · refine pumpStream_wf _ _ ?_
    split
    · exact (congrArg Memory.wf (goneFill_mem _ _ _ _ _)).trans (memReadH_wf _ _ _ _ h)
    · exact (congrArg Memory.wf (onTile_mem _ _ _)).trans (memReadH_wf _ _ _ _ h)

@[simp] theorem leaveLoose_mem (s : State) (t : Nat) (r : StrRun) : (leaveLoose s t r).mem = s.mem := by simp [leaveLoose]
@[simp] theorem popRun_mem (s : State) (t : Nat) : (popRun s t).mem = s.mem := by simp [popRun]

theorem mixture_wf (s : State) (t hint : Nat) (l : List VWrite) (h : Memory.wf s.mem = true) : Memory.wf (mixture s t hint l).mem = true :=
  foldl_wf _ h fun x w hx => by
    dsimp only
    split
    · exact doWrites_wf _ _ _ _ (by rwa [freshBool_mem])
    · rwa [freshBool_mem]

theorem endMixture_wf (s : State) (t : Nat) (r : StrRun) (h : Memory.wf s.mem = true) : Memory.wf (endMixture s t r).mem = true := by
  unfold endMixture
  split
  · exact h
  split
  · exact mixture_wf _ _ _ _ h
  · exact mixture_wf _ _ _ _ h
  · exact h
  · exact h
  · exact mixture_wf _ _ _ _ (planOf_wf _ _ _ h)

@[simp] theorem execTransferComplete_wf (t : Tid) (s : State) (h : Memory.wf s.mem = true) :
    Memory.wf (after s (execTransferComplete t s)).mem = true := by
  unfold execTransferComplete
  rw [after_next]
  refine sameCycle_wf _ _ h fun x hx => ?_
  dsimp only
  split
  · exact hx
  split
  · exact hx
  · generalize hp : (if wMaj _ = 0x21 then _ else _ : Plan) = p
    have hpw : Memory.wf p.s.mem = true := by
      rw [← hp]
      split
      · exact hx
      · exact planOf_wf _ _ _ hx
    split
    · rwa [sourceBad_mem, pfConsume_mem]
    · refine pumpStream_wf _ _ ?_
      simp only [applySignal_mem, popRun_mem, addF_mem, countOutcomes_mem, ite_mem, setF_mem, ite_self, pfConsume_mem]
      exact doWrites_wf _ _ _ _ hpw

@[simp] theorem runFails_mem (s : State) (t : Nat) (r : StrRun) (code addr : Nat) : (runFails s t r code addr).mem = s.mem := by simp [runFails]

@[simp] theorem execTransferLate_mem (t : Tid) (i : Nat) (s : State) : (after s (execTransferLate t i s)).mem = s.mem := by
  unfold execTransferLate
  rw [after_next]
  refine sameCycle_mem _ _ _ fun x => ?_
  dsimp only
  (repeat' split) <;> simp

@[simp] theorem execTransferErrorEnd_wf (t : Tid) (s : State) (h : Memory.wf s.mem = true) :
    Memory.wf (after s (execTransferErrorEnd t s)).mem = true := by
  unfold execTransferErrorEnd
  rw [after_next]
  refine sameCycle_wf _ _ h fun x hx => ?_
  dsimp only
  split
  · exact hx
  split
  · exact hx
  split
  · exact hx
  split
  · rwa [trap_mem]
  · refine pumpStream_wf _ _ ?_
    rw [tkAdd_mem, setFs_mem, popRun_mem, leaveLoose_mem]
    exact endMixture_wf _ _ _ hx

@[simp] theorem runData_mem (s : State) (t : Nat) (r : StrRun) (k : Nat) (q : ReadReply) : (runData s t r k q).mem = s.mem := by
  simp only [runData]
  split <;> simp

@[simp] theorem runReadData_wf (s : State) (t : Nat) (r : StrRun) (seg : Nat) (addr : Nat) (q : ReadReply)
    (hmem : Memory.wf s.mem = true) : Memory.wf (runReadData s t r seg addr q).mem = true := by
  unfold runReadData
  grind [pumpStream_wf, failRun_mem, runData_mem, setRr_mem, trap_mem]

@[simp] theorem onBatch_mem (s : State) (t i : Nat) (e : PfEntry) (f : PfEntry → RRead) : (onBatch s t i e f).mem = s.mem := by simp [onBatch]

@[simp] theorem fillReadData_mem (s : State) (t i : Nat) (e : PfEntry) (k : Nat) (q : ReadReply) : (fillReadData s t i e k q).mem = s.mem := by
  simp only [fillReadData]
  (repeat' split) <;> simp

@[simp] theorem strReadData_wf (s : State) (p : Packet) (hmem : Memory.wf s.mem = true) : Memory.wf (strReadData s p).mem = true := by
  unfold strReadData
  grind [pumpStream_wf, runReadData_wf, fillReadData_mem, notLoose_mem, setRr_mem]

@[simp] theorem execStrSplitWrite_mem (t : Tid) (v : BitVec 32) (s : State) : (after s (execStrSplitWrite t v s)).mem = s.mem := by simp [execStrSplitWrite]

/-! ### Device memory through Machine/TierOps.lean -/

@[simp] theorem sendReply_mem (s : State) (r : Request) (payload : List Byte) : (sendReply s r payload).mem = s.mem := by
  simp only [sendReply]
  split <;> simp

@[simp] theorem tierEvent_mem (s : State) (n : Nat) : (tierEvent s n).mem = s.mem := by simp [tierEvent]
@[simp] theorem setEnt_mem (s : State) (e : Nat) (d : DirEntry) : (setEnt s e d).mem = s.mem := by simp [setEnt]

theorem setOwner_wf (s : State) (g : Region) (tier slot v : Nat) (h : Memory.wf s.mem = true) : Memory.wf (setOwner s g tier slot v).mem = true :=
  memWrite_wf _ _ _ h

theorem takeSlot_mem {s u : State} {i n : Nat} {g : Region} {tier : Nat} (h : takeSlot s i g tier = some (n, u)) : u.mem = s.mem := by
  unfold takeSlot at h
  split at h
  · exact absurd h (by simp)
  · simp only [Option.some.injEq, Prod.mk.injEq] at h
    rw [← h.2, freshWord_mem]

theorem takeSlot_wf (s : State) (i : Nat) (g : Region) (tier : Nat) (h : Memory.wf s.mem = true) :
    SomeWf (takeSlot s i g tier) := fun p hp => (congrArg Memory.wf (takeSlot_mem hp)).trans h

@[simp] theorem dirPayload_mem (s : State) (r : Request) (status e : Nat) : (dirPayload s r status e).2.mem = s.mem := by
  simp only [dirPayload]
  split <;> simp

@[simp] theorem dirReply_mem (s : State) (r : Request) (status : Nat) : (dirReply s r status).mem = s.mem := by simp [dirReply]
@[simp] theorem entryLost_mem (s : State) (e : Nat) : (entryLost s e).mem = s.mem := by simp [entryLost]

theorem chooseVictim_mem {s u : State} {i v : Nat} {g : Region} {tier : Nat} {b : Bool} (h : chooseVictim s i g tier b = some (v, u)) : u.mem = s.mem := by
  unfold chooseVictim at h
  dsimp only at h
  split at h
  · exact absurd h (by simp)
  · simp only [Option.some.injEq, Prod.mk.injEq] at h
    rw [← h.2]

theorem chooseVictim_wf (s : State) (i : Nat) (g : Region) (tier : Nat) (b : Bool) (h : Memory.wf s.mem = true) :
    SomeWf (chooseVictim s i g tier b) := fun p hp => (congrArg Memory.wf (chooseVictim_mem hp)).trans h

theorem moveReads_wf (l : List Nat) (f : Nat → Nat) {b : List (List Byte) × List Nat × State} (h : Memory.wf b.2.2.mem = true) :
    Memory.wf (l.foldl (fun (b : List (List Byte) × List Nat × State) u =>
      let x := readUnit b.2.2 (f u) false
      (x.data :: b.1, (if x.outcome = .poisoned ∨ x.outcome = .uncorrectable then u :: b.2.1 else b.2.1), x.s)) b).2.2.mem = true :=
  foldl_keeps (fun x : List (List Byte) × List Nat × State => Memory.wf x.2.2.mem = true) _ _ _ h fun x u hx => readUnit_wf x.2.2 _ false hx

/-- The state in the middle of a triple has device memory in its canonical form. -/
def MiddleWf {α β : Type} (x : α × State × β) : Prop := Memory.wf x.2.1.mem = true

theorem MiddleWf.mk {α β : Type} {a : α} {u : State} {b : β} (h : Memory.wf u.mem = true) : MiddleWf (a, u, b) := h

theorem startMove_wf (s : State) (g : Region) (e tier slot : Nat) (why : MoveWhy) (h : Memory.wf s.mem = true) :
    Memory.wf (startMove s g e tier slot why).mem = true := by
  have h0 : Memory.wf (setEnt s e { dirEnt s e with state := if tier < (dirEnt s e).tier then .promoting else .evicting }).mem = true := by simpa using h
  unfold startMove
  generalize 1024 = k, 65536 = z, 64 = y
  extract_lets d u fops r u' m
  have hr : MiddleWf r := by
    unfold r
    split
    · refine foldl_keeps MiddleWf _ _ _ (MiddleWf.mk h0) fun x p hx => ?_
      exact MiddleWf.mk (moveReads_wf (b := ([], [], x.2.1)) _ _ hx)
    · exact MiddleWf.mk h0
  exact hr

@[simp] theorem leaveSlot_wf (s : State) (g : Region) (d : DirEntry) (hmem : Memory.wf s.mem = true) : Memory.wf (leaveSlot s g d).mem = true := by
  unfold leaveSlot
  grind [setOwner_wf]

@[simp] theorem nowFlash_wf (s : State) (g : Region) (e : Nat) (hmem : Memory.wf s.mem = true) : Memory.wf (nowFlash s g e).mem = true := by
  simp [nowFlash, hmem]

theorem evict_some_wf {s u : State} {i e target : Nat} {g : Region} {why : MoveWhy} {b : Bool} (hs : Memory.wf s.mem = true)
    (h : evict s i g e target why = some (b, u)) : Memory.wf u.mem = true := by
  unfold evict at h
  dsimp only at h
  split at h
  · split at h
    · next ht =>
      simp only [Option.some.injEq, Prod.mk.injEq] at h
      rw [← h.2]
      exact startMove_wf _ _ _ _ _ _ (by rwa [takeSlot_mem ht])
    · split at h
      · exact absurd h (by simp)
      · split at h <;> (simp only [Option.some.injEq, Prod.mk.injEq] at h; rw [← h.2])
        · exact nowFlash_wf _ _ _ hs
        · exact startMove_wf _ _ _ _ _ _ hs
  · split at h
    · exact absurd h (by simp)
    · split at h <;> (simp only [Option.some.injEq, Prod.mk.injEq] at h; rw [← h.2])
      · exact nowFlash_wf _ _ _ hs
      · exact startMove_wf _ _ _ _ _ _ hs

theorem evict_wf (s : State) (i : Nat) (g : Region) (e target : Nat) (why : MoveWhy) (h : Memory.wf s.mem = true) :
    SomeWf (evict s i g e target why) := fun _ hp => evict_some_wf h hp

@[simp] theorem makeEmpty_wf (s : State) (g : Region) (e : Nat) (hmem : Memory.wf s.mem = true) : Memory.wf (makeEmpty s g e).mem = true := by
  simp [makeEmpty, hmem]

@[simp] theorem applyDiscard_wf (s : State) (e : Nat) (hmem : Memory.wf s.mem = true) : Memory.wf (applyDiscard s e).mem = true := by
  simp only [applyDiscard]
  split <;> simp [hmem]

@[simp] theorem failPin_wf (s : State) (e : Nat) (r : Request) (status : Nat)
    (hmem : Memory.wf s.mem = true) : Memory.wf (failPin s e r status).mem = true := by
  simp [failPin, hmem]

@[simp] theorem waitPin_mem (s : State) (w : WaitPin) : (waitPin s w).mem = s.mem := by simp [waitPin]
@[simp] theorem grantPin_mem (s : State) (r : Request) (hit : Bool) : (grantPin s r hit).mem = s.mem := by simp [grantPin]

theorem fillEmpty_wf (s : State) (g : Region) (e tier slot : Nat) (h : Memory.wf s.mem = true) : Memory.wf (fillEmpty s g e tier slot).mem = true := by
  unfold fillEmpty
  refine setOwner_wf _ _ _ _ _ ?_
  rw [setEnt_mem]
  exact memZero_wf _ _ _ h

theorem pinInto_wf (s : State) (g : Region) (w : WaitPin) (tier slot : Nat) (h : Memory.wf s.mem = true) : Memory.wf (pinInto s g w tier slot).mem = true := by
  unfold pinInto
  dsimp only
  split
  · have hf := fillEmpty_wf s g w.entry tier slot h
    split
    · exact hf
    · split <;> simpa using hf
  · have hm := startMove_wf s g w.entry tier slot .pin h
    split <;> simpa using hm

theorem servePin_wf (s : State) (w : WaitPin) (h : Memory.wf s.mem = true) : Memory.wf (servePin s w).mem = true := by
  have fallback (u : State) (i : Nat) (g : Region) (hu : Memory.wf u.mem = true) : Memory.wf (if w.late then u
      else if w.r.must then failPin u w.entry w.r stFULL
      else
        match (if w.r.target = 0 ∧ ((dirEnt s w.entry).state = .empty ∨ (dirEnt s w.entry).tier = 2) then takeSlot u i g 1 else none) with
        | some (n, u) => pinInto u g w 1 n
        | none =>
          if (dirEnt s w.entry).state = .resident ∧ (dirEnt s w.entry).tier < 2 then grantPin u w.r true
          else failPin u w.entry w.r stFULL).mem = true := by
    split
    · exact hu
    split
    · exact failPin_wf _ _ _ _ hu
    split
    · next ht =>
      split at ht
      · exact pinInto_wf _ _ _ _ _ (by rwa [takeSlot_mem ht])
      · exact absurd ht (by simp)
    · split
      · rwa [grantPin_mem]
      · exact failPin_wf _ _ _ _ hu
  unfold servePin
  dsimp only
  generalize (if w.late then _ else otherPins s w.entry) = pins
  split
  · split <;> simpa using h
  split
  · split
    · exact h
    · exact failPin_wf _ _ _ _ h
  split
  · split <;> simpa using h
  split
  · split
    · exact h
    · split
      · exact failPin_wf _ _ _ _ h
      · rwa [grantPin_mem]
  split
  · rwa [waitPin_mem]
  split
  · next ht => exact pinInto_wf _ _ _ _ _ (by rwa [takeSlot_mem ht])
  split
  · rwa [waitPin_mem]
  split
  · exact fallback _ _ _ h
  · next v u hv =>
    have h1 : Memory.wf (if (dirEnt u v).hint = 1 then tierEvent u 5 else u).mem = true := by
      rw [apply_ite State.mem, tierEvent_mem, ite_self, chooseVictim_mem hv]
      exact h
    split
    · exact fallback _ _ _ h1
    · next he => rw [waitPin_mem]; exact evict_some_wf h1 he
    · next he =>
      have h2 := evict_some_wf h1 he
      split
      · next ht => exact pinInto_wf _ _ _ _ _ (by rwa [takeSlot_mem ht])
      · rwa [waitPin_mem]

theorem serveWaits_wf (f i : Nat) (s : State) (h : Memory.wf s.mem = true) : Memory.wf (serveWaits f i s).mem = true := by
  induction f generalizing i s with
  | zero => exact h
  | succ f ih =>
    rw [serveWaits]
    split
    · exact h
    split
    · exact ih _ _ h
    · have hp := servePin_wf { s with tier := { s.tier with waits := removeAt s.tier.waits i } } ‹_› h
      dsimp only
      split
      · exact ih _ _ hp
      · exact ih _ _ hp

theorem retryWaits_wf (s : State) (h : Memory.wf s.mem = true) : Memory.wf (retryWaits s).mem = true := serveWaits_wf _ _ _ h

@[simp] theorem readOwner_wf (s : State) (g : Region) (n : Nat) (hmem : Memory.wf s.mem = true) : Memory.wf (readOwner s g n).2.mem = true := by
  unfold readOwner
  grind [memRead_wf]

theorem findOwner_wf (k n : Nat) (s : State) (g : Region) (e : Nat) (h : Memory.wf s.mem = true) : Memory.wf (findOwner k n s g e).2.mem = true := by
  induction k generalizing n s with
  | zero => exact h
  | succ k ih =>
    rw [findOwner]
    have hr := readOwner_wf s g n h
    split
    · exact hr
    · exact ih _ _ hr

/-! ### Device memory through Machine/Tier.lean -/

@[simp] theorem execTierLoad_wf (v : BitVec 32) (s : State) (hmem : Memory.wf s.mem = true) : Memory.wf (after s (execTierLoad v s)).mem = true := by
  unfold execTierLoad
  grind [after_next, memRead_wf, setF_mem, setFs_mem]

@[simp] theorem execRegionLoadDone_wf (s : State) (hmem : Memory.wf s.mem = true) : Memory.wf (after s (execRegionLoadDone s)).mem = true := by
  unfold execRegionLoadDone
  dsimp only
  split
  · exact hmem
  · simp only [after_next, setFs_mem]
    exact foldl_wf (s := { s with tier := _ }) _ hmem fun x g hx => memWrite_wf _ _ _ hx

@[simp] theorem dirArrive_mem (s : State) (r : Request) : (dirArrive s r).mem = s.mem := by simp [dirArrive]

theorem dirTake_wf {body : Request → State → State} (op : Nat) (s : State) (h : Memory.wf s.mem = true)
    (hb : ∀ r x, Memory.wf x.mem = true → Memory.wf (body r x).mem = true) : Memory.wf (after s (dirTake op body s)).mem = true := by
  unfold dirTake
  rw [after_next]
  split
  · exact h
  split
  · exact h
  · dsimp only
    split
    · simpa using h
    · exact hb _ _ h

theorem onEntry_wf {body : Region → DirEntry → Request → State → State} (l : Bool) (r : Request) (s : State) (h : Memory.wf s.mem = true)
    (hb : ∀ g d r x, Memory.wf x.mem = true → Memory.wf (body g d r x).mem = true) : Memory.wf (onEntry l body r s).mem = true := by
  unfold onEntry
  split
  · simpa using h
  · dsimp only
    split
    · simpa using h
    · exact hb _ _ _ _ h

@[simp] theorem skewAbort_mem (s : State) (r : Request) (info : Nat) : (skewAbort s r info).mem = s.mem := by
  simp only [skewAbort]
  split <;> simp

@[simp] theorem execPin_wf (s : State) (hmem : Memory.wf s.mem = true) : Memory.wf (after s (execPin s)).mem = true := by
  unfold execPin
  grind [dirTake_wf, onEntry_wf, servePin_wf, dirReply_mem, setEnt_mem, skewAbort_mem, tierEvent_mem, waitPin_mem]

@[simp] theorem execUnpin_wf (s : State) (hmem : Memory.wf s.mem = true) : Memory.wf (after s (execUnpin s)).mem = true := by
  unfold execUnpin
  grind [applyDiscard_wf, dirTake_wf, onEntry_wf, dirReply_mem, setEnt_mem]

@[simp] theorem execHint_wf (s : State) (hmem : Memory.wf s.mem = true) : Memory.wf (after s (execHint s)).mem = true := by
  unfold execHint
  grind [dirTake_wf, onEntry_wf, dirReply_mem, setEnt_mem]

@[simp] theorem execEvict_wf (s : State) (hmem : Memory.wf s.mem = true) : Memory.wf (after s (execEvict s)).mem = true := by
  unfold execEvict
  grind [SomeWf, dirTake_wf, evict_wf, onEntry_wf, retryWaits_wf, dirReply_mem]

@[simp] theorem endLost_mem (s : State) (e : Nat) : (endLost s e).mem = s.mem := by
  unfold endLost
  dsimp only
  rw [foldl_mem, foldl_mem]
  · intro x b
    split
    · split <;> simp
    · rfl
  · intro x b
    split <;> simp

@[simp] theorem execFree_wf (s : State) (hmem : Memory.wf s.mem = true) : Memory.wf (after s (execFree s)).mem = true := by
  unfold execFree
  grind [dirTake_wf, findOwner_wf, makeEmpty_wf, memWrite_wf, onEntry_wf, retryWaits_wf, dirReply_mem, endLost_mem, setEnt_mem]

@[simp] theorem execSetver_wf (s : State) (hmem : Memory.wf s.mem = true) : Memory.wf (after s (execSetver s)).mem = true := by
  unfold execSetver
  grind [dirTake_wf, onEntry_wf, dirReply_mem, setEnt_mem]

@[simp] theorem execAttach_wf (s : State) (hmem : Memory.wf s.mem = true) : Memory.wf (after s (execAttach s)).mem = true := by
  unfold execAttach
  grind [dirTake_wf, onEntry_wf, dirReply_mem, setEnt_mem]

@[simp] theorem execQuery_wf (s : State) (hmem : Memory.wf s.mem = true) : Memory.wf (after s (execQuery s)).mem = true := by
  unfold execQuery
  grind [dirTake_wf, onEntry_wf, dirReply_mem]

@[simp] theorem execFlashWrite_wf (s : State) (hmem : Memory.wf s.mem = true) : Memory.wf (after s (execFlashWrite s)).mem = true := by
  unfold execFlashWrite
  grind [dirTake_wf, memRead_wf, dirReply_mem]

@[simp] theorem execFlashTrim_wf (s : State) (hmem : Memory.wf s.mem = true) : Memory.wf (after s (execFlashTrim s)).mem = true := by
  unfold execFlashTrim
  exact dirTake_wf _ _ hmem fun r x hx => by simp [hx]

theorem copySlot_wf (s : State) (src dst n : Nat) (h : Memory.wf s.mem = true) : Memory.wf (copySlot s src dst n).1.mem = true :=
  foldl_keeps (fun x : State × Bool => Memory.wf x.1.mem = true) _ _ _ h fun x i hx => by
    have hw := memWrite_wf (readUnit x.1 (src / 64 + i) false).s (dst + 64 * i) (readUnit x.1 (src / 64 + i) false).data (readUnit_wf _ _ _ hx)
    dsimp only
    split
    · exact memPoison_wf _ _ _ hw
    · exact hw

theorem moveEnds_wf (s : State) (m : Move) (st : Nat) (h : Memory.wf s.mem = true) : Memory.wf (moveEnds s m st).mem = true := by
  unfold moveEnds
  refine retryWaits_wf _ ?_
  have ha := applyDiscard_wf s m.entry h
  dsimp only
  split
  · rwa [dirReply_mem]
  · split
    · exact ha
    split
    · exact ha
    split
    · exact ha
    · split
      · rwa [grantPin_mem]
      · exact failPin_wf _ _ _ _ ha
  · exact ha

@[simp] theorem execMoveComplete_wf (e : Nat) (s : State) (hmem : Memory.wf s.mem = true) : Memory.wf (after s (execMoveComplete e s)).mem = true := by
  unfold execMoveComplete
  grind [after_next, copySlot_wf, leaveSlot_wf, moveEnds_wf, nowFlash_wf, retryWaits_wf, setOwner_wf, dirReply_mem, setEnt_mem, tierEvent_mem]

@[simp] theorem execBackgroundEvict_wf (i : Nat) (tier : Fin 2) (s : State)
    (hmem : Memory.wf s.mem = true) : Memory.wf (after s (execBackgroundEvict i tier s)).mem = true := by
  unfold execBackgroundEvict
  grind [SomeWf, after_next, chooseVictim_wf, evict_wf, retryWaits_wf]

@[simp] theorem execUseDecay_mem (s : State) : (after s (execUseDecay s)).mem = s.mem := by simp [execUseDecay]

@[simp] theorem execPinLate_wf (i : Nat) (s : State) (hmem : Memory.wf s.mem = true) : Memory.wf (after s (execPinLate i s)).mem = true := by
  unfold execPinLate
  grind [after_next, failPin_wf, retryWaits_wf, tierEvent_mem]

@[simp] theorem moveBad_mem (s : State) (e code : Nat) : (moveBad s e code).mem = s.mem := by simp [moveBad]

theorem flashToStream_wf (s : State) (t no n : Nat) (res : Option FlashTile) (code : Nat) (h : Memory.wf s.mem = true) :
    Memory.wf (flashToStream s t no n res code).mem = true := by
  unfold flashToStream
  dsimp only
  split
  · exact h
  · refine pumpStream_wf _ _ ?_
    (repeat' split) <;> simp [h]

theorem flashToMove_wf (s : State) (e n : Nat) (res : Option FlashTile) (code : Nat) (h : Memory.wf s.mem = true) :
    Memory.wf (flashToMove s e n res code).mem = true := by
  unfold flashToMove
  split
  · have hm (a : Nat) (f : FlashTile) : Memory.wf (f.poison.foldl (fun s u => memPoison s (a + 64 * u) 64) (memWrite s a f.data)).mem = true :=
      foldl_wf _ (memWrite_wf _ _ _ h) fun x u hx => memPoison_wf _ _ _ hx
    dsimp only
    split
    · exact hm _ _
    · rw [moveBad_mem]
      exact hm _ _
  · rwa [moveBad_mem]
  · exact h

@[simp] theorem execFlashTileReadDone_wf (i : Nat) (retried : Fin 17) (fail : Option (Fin 16)) (s : State)
    (hmem : Memory.wf s.mem = true) : Memory.wf (after s (execFlashTileReadDone i retried fail s)).mem = true := by
  unfold execFlashTileReadDone
  grind [after_next, flashToMove_wf, flashToStream_wf, addF_mem, freshWord_mem, postEvent_mem, raise_mem, tierEvent_mem]

@[simp] theorem flashSpare_mem (s : State) (spare : BitVec 8) (low : Bool) : (flashSpare s spare low).mem = s.mem := by simp [flashSpare]

@[simp] theorem execFlashProgramDone_mem (i : Nat) (full : Bool) (spare : BitVec 8) (low : Bool) (s : State) :
    (after s (execFlashProgramDone i full spare low s)).mem = s.mem := by
  simp only [execFlashProgramDone]
  (repeat' split) <;> simp

@[simp] theorem execWearMove_mem (w : WearBlock) (spare : BitVec 8) (low : Bool) (s : State) : (after s (execWearMove w spare low s)).mem = s.mem := by
  simp [execWearMove]

/-! ### Device memory through Machine/Fill.lean -/

@[simp] theorem deferTrap_mem (s : State) (t i code : Nat) : (deferTrap s t i code).mem = s.mem := by simp [deferTrap]
@[simp] theorem onFill_mem (s : State) (t : Nat) (f : FillUnit → FillUnit) : (State.onFill s t f).mem = s.mem := by simp [State.onFill]
@[simp] theorem itemDone_mem (s : State) (t i : Nat) : (itemDone s t i).mem = s.mem := by simp [itemDone]
@[simp] theorem beginSlices_mem (s : State) (t i a : Nat) : (beginSlices s t i a).mem = s.mem := by simp [beginSlices]

@[simp] theorem execProduct_mem (t : Tid) (s : State) : (after s (execProduct t s)).mem = s.mem := by
  unfold execProduct
  rw [after_next]
  refine sameCycle_mem _ _ _ fun x => ?_
  dsimp only
  (repeat' split) <;> simp

@[simp] theorem execBind_mem (t : Tid) (s : State) : (after s (execBind t s)).mem = s.mem := by
  unfold execBind
  rw [after_next]
  refine sameCycle_mem _ _ _ fun x => ?_
  dsimp only
  (repeat' split) <;> simp

@[simp] theorem execDrain_mem (t : Tid) (s : State) : (after s (execDrain t s)).mem = s.mem := by
  unfold execDrain
  rw [after_next]
  refine sameCycle_mem _ _ _ fun x => ?_
  dsimp only
  (repeat' split) <;> simp

@[simp] theorem execRelease_mem (t : Tid) (s : State) : (after s (execRelease t s)).mem = s.mem := by
  unfold execRelease
  rw [after_next]
  refine sameCycle_mem _ _ _ fun x => ?_
  dsimp only
  (repeat' split) <;> simp

@[simp] theorem writeBackLands_wf (s : State) (t : Nat) (hmem : Memory.wf s.mem = true) : Memory.wf (writeBackLands s t).mem = true := by
  unfold writeBackLands
  grind [memWriteH_wf]

@[simp] theorem loadLands_wf (s : State) (t : Nat) (hmem : Memory.wf s.mem = true) : Memory.wf (loadLands s t).mem = true := by
  unfold loadLands
  grind [memReadH_wf, onTile_mem]

@[simp] theorem execResidentTransferDone_wf (u : AccUse) (s : State)
    (hmem : Memory.wf s.mem = true) : Memory.wf (after s (execResidentTransferDone u s)).mem = true := by
  unfold execResidentTransferDone
  grind [after_next, memReadH_wf, sameCycle_wf, writeBackLands_wf, beginSlices_mem, deferTrap_mem, itemDone_mem, onFill_mem, onTile_mem, sramUe_mem,
    trapSram_mem]

@[simp] theorem countStep_mem (s : State) (t acc i : Nat) : (countStep s t acc i).mem = s.mem := by simp [countStep]

@[simp] theorem countSteps_mem (c : Nat) (s : State) (t acc i : Nat) : (countSteps c s t acc i).mem = s.mem := by
  induction c generalizing s with
  | zero => rfl
  | succ c ih => rw [countSteps, ih, countStep_mem]

@[simp] theorem execFillSlice_mem (u : AccUse) (s : State) : (after s (execFillSlice u s)).mem = s.mem := by
  unfold execFillSlice
  rw [after_next]
  refine sameCycle_mem _ _ _ fun x => ?_
  dsimp only
  (repeat' split) <;> simp

/-! ### Device memory through Machine/UpdOps.lean -/

@[simp] theorem buildPower_wf (s : State) (t : PowTable) (hmem : Memory.wf s.mem = true) : Memory.wf (buildPower s t).mem = true := by
  exact memWrite_wf _ _ _ hmem

@[simp] theorem powT_wf (s : State) (i n : Nat) (hmem : Memory.wf s.mem = true) : Memory.wf (powT s i n).2.2.mem = true := by
  unfold powT
  exact memRead_wf _ _ _ (memRead_wf _ _ _ hmem)

@[simp] theorem constants_wf (s : State) (g : Group) (n nb : Nat) (hmem : Memory.wf s.mem = true) : Memory.wf (constants s g n nb).2.2.mem = true := by
  simp only [constants]
  split <;> simp [hmem]

@[simp] theorem readArr_wf (s : State) (base fmt nblk b : Nat) (hmem : Memory.wf s.mem = true) : Memory.wf (readArr s base fmt nblk b).2.2.mem = true := by
  unfold readArr
  exact memReadH_wf _ _ _ _ (memReadH_wf _ _ _ _ hmem)

@[simp] theorem writeArr_wf (infab : Bool) (hint : Nat) (s : State) (base fmt nblk b : Nat) (v : Blk)
    (hmem : Memory.wf s.mem = true) : Memory.wf (writeArr infab hint s base fmt nblk b v).mem = true := by
  unfold writeArr
  grind [memWriteH_wf]

@[simp] theorem updateBlock_wf (s : State) (n b : Nat) (grad : Blk) (nb : Nat) (decay : Option (Nat × Nat)) (guard infab : Bool)
    (hmem : Memory.wf s.mem = true) : Memory.wf (updateBlock s n b grad nb decay guard infab).2.mem = true := by
  unfold updateBlock
  grind [constants_wf, readArr_wf, writeArr_wf, addF_mem]

@[simp] theorem updInfo_mem (s : State) (kind group step : Nat) : (updInfo s kind group step).mem = s.mem := by simp [updInfo]
@[simp] theorem nonfinLate_mem (s : State) (group step : Nat) : (nonfinLate s group step).mem = s.mem := by simp [nonfinLate]
@[simp] theorem stepReject_mem (s : State) (group step sender : Nat) : (stepReject s group step sender).mem = s.mem := by simp [stepReject]
@[simp] theorem nonfinStep_mem (s : State) : (nonfinStep s).mem = s.mem := by simp [nonfinStep]

@[simp] theorem resolve_mem (s : State) (step : Nat) (nf : Bool) : (resolve s step nf).2.mem = s.mem := by
  simp only [resolve]
  (repeat' split) <;> simp

@[simp] theorem writeStepRec_wf (s : State) (hmem : Memory.wf s.mem = true) : Memory.wf (writeStepRec s).mem = true := by
  exact memZero_wf _ _ _ (memWrite_wf _ _ _ (memWrite_wf _ _ _ (memWrite_wf _ _ _ hmem)))

@[simp] theorem takeGroups_wf (s : State) (g : GroupsSec) (hmem : Memory.wf s.mem = true) : Memory.wf (takeGroups s g).mem = true := by
  unfold takeGroups
  refine writeStepRec_wf _ ?_
  simp only [setFs_mem]
  with_reducible refine foldl_wf _ ?_ fun x p hx => by simpa using hx
  simpa using hmem

@[simp] theorem gradBlock_wf (s : State) (g : Group) (base i : Nat) (hmem : Memory.wf s.mem = true) : Memory.wf (gradBlock s g base i).2.2.mem = true := by
  simp [gradBlock, hmem]

@[simp] theorem plainStep_wf (s : State) (it : UpdItem) (p : UpdPos) (hmem : Memory.wf s.mem = true) : Memory.wf (plainStep s it p).s.mem = true := by
  simp only [plainStep]
  (repeat' split) <;> simp [hmem]

@[simp] theorem rowStep_wf (s : State) (it : UpdItem) (next : Nat) (w : RowRun)
    (hmem : Memory.wf s.mem = true) : Memory.wf (rowStep s it next w).s.mem = true := by
  simp only [rowStep]
  (repeat' split) <;> simp [hmem]

@[simp] theorem claimStep_wf (s : State) (it : UpdItem) (next : Nat) (hmem : Memory.wf s.mem = true) : Memory.wf (claimStep s it next).s.mem = true := by
  unfold claimStep
  grind [memRead_wf, memWrite_wf, powT_wf, rowStep_wf, addF_mem]

@[simp] theorem itemStep_wf (s : State) (it : UpdItem) (p : UpdPos) (hmem : Memory.wf s.mem = true) : Memory.wf (itemStep s it p).s.mem = true := by
  simp only [itemStep]
  (repeat' split) <;> simp [hmem]

/-! ### Device memory through Machine/Update.lean -/

@[simp] theorem updReply_mem (s : State) (r : Request) (status written : Nat) : (updReply s r status written).mem = s.mem := by simp [updReply]
@[simp] theorem updArrive_mem (s : State) (r : Request) : (updArrive s r).mem = s.mem := by simp [updArrive]

theorem updTake_wf {body : Request → State → State} (op : Nat) (s : State) (h : Memory.wf s.mem = true)
    (hb : ∀ r x, Memory.wf x.mem = true → Memory.wf (body r x).mem = true) : Memory.wf (after s (updTake op body s)).mem = true := by
  unfold updTake
  rw [after_next]
  split
  · exact h
  split
  · exact h
  · dsimp only
    split
    · rwa [updReply_mem]
    · exact hb _ _ h

@[simp] theorem updWait_mem (s : State) (r : Request) (gated : Bool) : (updWait s r gated).mem = s.mem := by simp [updWait]

@[simp] theorem spread_mem (f : Nat) (s : State) : (spread f s).mem = s.mem := by
  induction f generalizing s with
  | zero => rfl
  | succ f ih =>
    rw [spread]
    (repeat' split) <;> simp [ih]

@[simp] theorem updateReq_mem (s : State) (r : Request) (gated : Bool) : (updateReq s r gated).mem = s.mem := by
  simp only [updateReq]
  (repeat' split) <;> simp

@[simp] theorem updRetry_mem (s : State) : (updRetry s).mem = s.mem := by simp [updRetry]

@[simp] theorem execUpdate_wf (s : State) (hmem : Memory.wf s.mem = true) : Memory.wf (after s (execUpdate s)).mem = true := by
  unfold execUpdate
  grind [updTake_wf, updReply_mem, updateReq_mem]

@[simp] theorem foldWrite_wf (s : State) (n : Nat) (g : Group) (p : Packet) (hmem : Memory.wf s.mem = true) : Memory.wf (foldWrite s n g p).mem = true := by
  unfold foldWrite
  grind [memReadAll_wf, memWriteM_wf, memWrite_wf]

@[simp] theorem holdAhead_mem (s : State) (p : Packet) : (holdAhead s p).mem = s.mem := by simp [holdAhead]

@[simp] theorem putWrite_wf (s : State) (p : Packet) (again : Bool) (hmem : Memory.wf s.mem = true) : Memory.wf (putWrite s p again).mem = true := by
  unfold putWrite
  grind [foldWrite_wf, memWrite_wf, addF_mem, holdAhead_mem, stepReject_mem]

@[simp] theorem putVersion_wf (s : State) (p : Packet) (hmem : Memory.wf s.mem = true) : Memory.wf (putVersion s p).mem = true := by
  unfold putVersion
  grind [memWrite_wf, holdAhead_mem]

@[simp] theorem takeAhead_wf (s : State) (hmem : Memory.wf s.mem = true) : Memory.wf (takeAhead s).mem = true := by
  exact foldl_wf _ hmem fun x b hx => by simp [hx]

@[simp] theorem execResolve_wf (s : State) (hmem : Memory.wf s.mem = true) : Memory.wf (after s (execResolve s)).mem = true := by
  unfold execResolve
  exact updTake_wf _ _ hmem fun r x hx => by simp [hx]

@[simp] theorem execCommit_wf (s : State) (hmem : Memory.wf s.mem = true) : Memory.wf (after s (execCommit s)).mem = true := by
  unfold execCommit
  grind [after_next, updTake_wf, updReply_mem]

@[simp] theorem readRecord_wf (s : State) (hmem : Memory.wf s.mem = true) : Memory.wf (readRecord s).2.2.mem = true := by
  unfold readRecord
  grind [memReadAll_wf]

@[simp] theorem commitEffect_wf (s : State) (hmem : Memory.wf s.mem = true) : Memory.wf (commitEffect s).mem = true := by simp [commitEffect, hmem]

@[simp] theorem execCommitTakeEffect_wf (s : State) (hmem : Memory.wf s.mem = true) : Memory.wf (after s (execCommitTakeEffect s)).mem = true := by
  simp only [execCommitTakeEffect]
  split <;> simp [hmem]

@[simp] theorem execUpdQuery_wf (s : State) (hmem : Memory.wf s.mem = true) : Memory.wf (after s (execUpdQuery s)).mem = true := by
  unfold execUpdQuery
  exact updTake_wf _ _ hmem fun r x hx => by simp [hx]

@[simp] theorem execSetstep_wf (s : State) (hmem : Memory.wf s.mem = true) : Memory.wf (after s (execSetstep s)).mem = true := by
  unfold execSetstep
  exact updTake_wf _ _ hmem fun r x hx => by simp [hx]

@[simp] theorem execUpdateBlock_wf (k : BlockAt) (s : State) (hmem : Memory.wf s.mem = true) : Memory.wf (after s (execUpdateBlock k s)).mem = true := by
  simp only [execUpdateBlock]
  (repeat' split) <;> simp [hmem]

@[simp] theorem execUpdateDone_mem (i : Nat) (s : State) : (after s (execUpdateDone i s)).mem = s.mem := by
  simp only [execUpdateDone]
  split <;> simp

@[simp] theorem shGradient_mem (s : State) (a : Nat) (grad : List Byte) : (shGradient s a grad).mem = s.mem := by simp [shGradient]

@[simp] theorem infabBlock_wf (s : State) (n b : Nat) (grad : List Byte) (hmem : Memory.wf s.mem = true) : Memory.wf (infabBlock s n b grad).mem = true := by
  simp only [infabBlock]
  split <;> simp [hmem]

@[simp] theorem infabFallback_mem (s : State) (n : Nat) : (infabFallback s n).mem = s.mem := by simp [infabFallback]
@[simp] theorem optTrap_mem (s : State) (t i code : Nat) : (optTrap s t i code).mem = s.mem := by simp [optTrap]
@[simp] theorem optDone_mem (s : State) (t i : Nat) : (optDone s t i).mem = s.mem := by simp [optDone]

@[simp] theorem execOptFillUpdate_mem (t : Tid) (s : State) : (after s (execOptFillUpdate t s)).mem = s.mem := by
  unfold execOptFillUpdate
  rw [after_next]
  refine sameCycle_mem _ _ _ fun x => ?_
  dsimp only
  (repeat' split) <;> simp

@[simp] theorem execFillOptBlock_wf (t : Tid) (s : State) (hmem : Memory.wf s.mem = true) : Memory.wf (after s (execFillOptBlock t s)).mem = true := by
  unfold execFillOptBlock
  rw [after_next]
  refine sameCycle_wf _ _ hmem fun x hx => ?_
  dsimp only
  (repeat' split) <;> simp [hx]

/-! ### Device memory through Machine/MailOps.lean -/

@[simp] theorem setPhRt_mem (s : State) (p : Nat) (r : PhRt) : (setPhRt s p r).mem = s.mem := by simp [setPhRt]
@[simp] theorem onPhRt_mem (s : State) (p : Nat) (f : PhRt → PhRt) : (onPhRt s p f).mem = s.mem := by simp [onPhRt]

theorem takeRing_wf (s : State) (p : Nat) (reply : Option (Nat × Nat)) (h : Memory.wf s.mem = true) : SomeWf (takeRing s p reply) := by
  have pick (f : Nat → State) (hf : ∀ i, (f i).mem = s.mem) : SomeWf ((pickSlot s p).map fun i => (i, f i)) := by
    cases pickSlot s p with
    | none => exact SomeWf.none
    | some i => exact SomeWf.some ((congrArg Memory.wf (hf i)).trans h)
  unfold takeRing
  dsimp only
  split
  · split
    · exact SomeWf.none
    · exact pick _ fun i => setPhRt_mem _ _ _
  · split
    · exact pick _ fun i => setPhRt_mem _ _ _
    · exact SomeWf.none

theorem reserve_wf (s : State) (p : Nat) (who : List Nat) (key : Nat) (hmem : Memory.wf s.mem = true) : OptWf (reserve s p who key) := by
  unfold reserve
  (repeat' split) <;> simp [hmem, OptWf.none, OptWf.some]

@[simp] theorem fillSlot_wf (s : State) (p slot : Nat) (chan : Option (Nat × Nat × Nat)) (stamp : Nat) (desc : List Byte)
    (hmem : Memory.wf s.mem = true) : Memory.wf (fillSlot s p slot chan stamp desc).mem = true := by
  unfold fillSlot
  grind [memWrite_wf, addF_mem, onPhRt_mem]

@[simp] theorem ringOverrun_mem (s : State) (p : Nat) : (ringOverrun s p).mem = s.mem := by simp [ringOverrun]
@[simp] theorem noResv_mem (s : State) (p : Nat) : (noResv s p).mem = s.mem := by simp [noResv]
@[simp] theorem foreignItem_mem (s : State) (p : Nat) : (foreignItem s p).mem = s.mem := by simp [foreignItem]
@[simp] theorem strayReply_mem (s : State) (p : Nat) : (strayReply s p).mem = s.mem := by simp [strayReply]

theorem deliverDev_wf (s : State) (m : DevMsg) (h : Memory.wf s.mem = true) : Memory.wf (deliverDev s m).mem = true := by
  unfold deliverDev
  dsimp only
  split
  · (repeat' split) <;> simpa using h
  split
  · next ht => exact fillSlot_wf _ _ _ _ _ _ (wf_of_some_pair ht (takeRing_wf _ _ _ h))
  · split <;> simpa using h

@[simp] theorem pumpDev_wf (s : State) (hmem : Memory.wf s.mem = true) : Memory.wf (pumpDev s).mem = true := by
  exact foldl_wf _ hmem fun x b hx => deliverDev_wf _ _ hx

theorem sendMsg_wf (f : Nat) (s : State) (m : OutMsg) (h : Memory.wf s.mem = true) : Memory.wf (sendMsg f s m).1.mem = true := by
  induction f generalizing s m with
  | zero => exact h
  | succ f ih =>
    rw [sendMsg]
    have hr : Memory.wf (if m.mcast then memRead s (m.bulk + m.next) (min 512 (m.len - m.next))
        else ⟨slice m.data m.next (min 512 (m.len - m.next)), none, s⟩ : MemRead).s.mem = true := by
      split
      · exact memRead_wf _ _ _ h
      · exact h
    split
    · exact h
    split
    · rwa [ready_mem]
    · dsimp only
      split
      · rwa [trap_mem]
      · exact ih _ _ (by rwa [ready_mem])

theorem sendMsgs_wf (before l : List OutMsg) (s : State) (h : Memory.wf s.mem = true) : Memory.wf (sendMsgs before l s).mem = true := by
  induction l generalizing before s with
  | nil => exact h
  | cons m rest ih =>
    rw [sendMsgs]
    split
    · exact ih _ _ h
    · exact ih _ _ (by rw [onMsg_mem]; exact sendMsg_wf _ _ _ h)

@[simp] theorem dropMsgs_mem (s : State) : (dropMsgs s).mem = s.mem := by simp [dropMsgs]

theorem sendColl_wf (f : Nat) (s : State) (c : CollSend) (h : Memory.wf s.mem = true) : Memory.wf (sendColl f s c).1.mem = true := by
  induction f generalizing s c with
  | zero => exact h
  | succ f ih =>
    rw [sendColl]
    split
    · exact h
    · dsimp only
      split
      · exact h
      split
      · exact h
      · exact ih _ _ (by rw [ready_mem]; exact memRead_wf _ _ _ h)

theorem sendColls_wf (s : State) (h : Memory.wf s.mem = true) : Memory.wf (sendColls s).mem = true :=
  foldl_wf _ h fun x c hx => sendColl_wf 66 x c hx

@[simp] theorem pumpMail_wf (s : State) (hmem : Memory.wf s.mem = true) : Memory.wf (pumpMail s).mem = true := by
  unfold pumpMail
  grind [sendColls_wf, sendMsgs_wf, dropMsgs_mem, pump_mem]

/-! ### Device memory through Machine/Message.lean -/

theorem bodyResult_wf {e : Except Nat State} {s : State} (t : Nat) (f : Nat → Tile → Tile) (he : OkWf e) (hs : Memory.wf s.mem = true) :
    Memory.wf (match e with
      | .ok u => u
      | .error n => s.onTile t (f n)).mem = true := by
  cases e with
  | ok u => exact he u rfl
  | error n => simpa using hs

theorem msgHead_wf {body : QEntry → State → Except Nat State} (s : State) (t min : Nat) (b : Bool) (hs : Memory.wf s.mem = true)
    (h : ∀ q x, Memory.wf x.mem = true → OkWf (body q x)) : Memory.wf (msgHead s t min b body).mem = true := by
  refine sameCycle_wf t 4 hs fun x hx => ?_
  split
  · exact hx
  · next q _ =>
    have hk := takeToken_mem x t .message q
    split
    · next ht =>
      rw [ht] at hk
      exact (congrArg Memory.wf hk).trans hx
    · next x1 ht =>
      rw [ht] at hk
      have h1 : Memory.wf x1.mem = true := (congrArg Memory.wf hk).trans hx
      dsimp only
      split
      · split
        · exact h1
        · exact bodyResult_wf t _ (h q x1 h1) h1
      · split
        · exact h1
        · exact bodyResult_wf t _ (h q x1 h1) h1

@[simp] theorem msgDone_mem (s : State) (t : Nat) (h : QEntry) : (msgDone s t h).mem = s.mem := by simp [msgDone]

theorem msgTrap_wf (s : State) (t : Nat) (h : QEntry) (code info : Nat) (hmem : Memory.wf s.mem = true) : OkWf (msgTrap s t h code info) := by
  unfold msgTrap
  exact OkWf.ok (by simp [hmem])

theorem withForm_wf {go : SendForm → State → Except Nat State} (s : State) (t : Nat) (h : QEntry) (cls limit : Nat) (hs : Memory.wf s.mem = true)
    (hg : ∀ f x, Memory.wf x.mem = true → OkWf (go f x)) : OkWf (withForm s t h cls limit go) := by
  have hr := memRead_wf s (capS h (wSA h.word)) 64 hs
  unfold withForm
  dsimp only
  split
  · exact msgTrap_wf _ _ _ _ _ hs
  split
  · exact msgTrap_wf _ _ _ _ _ hr
  split
  · exact msgTrap_wf _ _ _ _ _ hr
  split
  · exact msgTrap_wf _ _ _ _ _ hr
  · exact hg _ _ hr

theorem withResv_wf {go : State → Except Nat State} (s : State) (f : SendForm) (who : List Nat) (key : Nat) (hs : Memory.wf s.mem = true)
    (hg : ∀ x, Memory.wf x.mem = true → OkWf (go x)) : OkWf (withResv s f who key go) := by
  unfold withResv
  split
  · split
    · next hr => exact hg _ (wf_of_some hr (reserve_wf _ _ _ _ hs))
    · exact OkWf.error _
  · exact hg _ hs

@[simp] theorem msgStarted_mem (s : State) (t group : Nat) : (msgStarted s t group).mem = s.mem := by simp [msgStarted]

theorem sendLocal_wf (s : State) (t p slot : Nat) (h : QEntry) (f : SendForm) (cls sph : Nat)
    (hmem : Memory.wf s.mem = true) : OkWf (sendLocal s t p slot h f cls sph) := by
  unfold sendLocal
  grind [OkWf, fillSlot_wf, memRead_wf, memWrite_wf, msgTrap_wf, msgStarted_mem]

theorem sendRemote_wf (s : State) (t : Nat) (h : QEntry) (f : SendForm) (cls sph dest destPh : Nat)
    (hmem : Memory.wf s.mem = true) : OkWf (sendRemote s t h f cls sph dest destPh) := by
  unfold sendRemote
  grind [OkWf, memRead_wf, msgTrap_wf, pumpMail_wf, msgStarted_mem]

theorem sendReplyMsg_wf (s : State) (t : Nat) (h : QEntry) (hmem : Memory.wf s.mem = true) : OkWf (sendReplyMsg s t h) := by
  unfold sendReplyMsg
  grind [OkWf, SomeWf, msgTrap_wf, sendLocal_wf, sendRemote_wf, takeRing_wf, withForm_wf, msgStarted_mem, noResv_mem, strayReply_mem]

@[simp] theorem setCredit_mem (s : State) (p dest n : Nat) : (setCredit s p dest n).mem = s.mem := by simp [setCredit]

theorem sendMcast_wf (s : State) (t p : Nat) (h : QEntry) (f : SendForm) (hmem : Memory.wf s.mem = true) : OkWf (sendMcast s t p h f) := by
  unfold sendMcast
  exact OkWf.ok (by simp [hmem])

theorem sendService_wf (s : State) (t p : Nat) (h : QEntry) (f : SendForm) (hmem : Memory.wf s.mem = true) : OkWf (sendService s t p h f) := by
  unfold sendService
  grind [OptWf, OkWf, memWrite_wf, msgTrap_wf, reserve_wf, addF_mem, dirArrive_mem, msgStarted_mem, onPhRt_mem, updArrive_mem]

@[simp] theorem sendItem_mem (s : State) (t p : Nat) (f : SendForm) : (sendItem s t p f).mem = s.mem := by simp [sendItem]

theorem sendTo_wf (s : State) (t p : Nat) (h : QEntry) (hmem : Memory.wf s.mem = true) : OkWf (sendTo s t p h) := by
  unfold sendTo
  grind [OkWf, SomeWf, msgTrap_wf, sendLocal_wf, sendMcast_wf, sendRemote_wf, sendService_wf, takeRing_wf, withForm_wf, withResv_wf, addF_mem,
    msgStarted_mem, sendItem_mem, setCredit_mem]

@[simp] theorem execMsend_wf (t : Tid) (s : State) (hmem : Memory.wf s.mem = true) : Memory.wf (after s (execMsend t s)).mem = true := by
  unfold execMsend
  grind [after_next, msgHead_wf, msgTrap_wf, pumpDev_wf, sendReplyMsg_wf, sendTo_wf]

@[simp] theorem execMsendAccept_mem (t : Tid) (s : State) : (after s (execMsendAccept t s)).mem = s.mem := by
  simp only [execMsendAccept]
  split <;> simp

theorem takeDesc_wf {s : State} {p : Nat} {i : RingItem} {r : MemRead} (h : takeDesc s p = some (i, r)) (hs : Memory.wf s.mem = true) :
    Memory.wf r.s.mem = true := by
  unfold takeDesc at h
  split at h
  · exact absurd h (by simp)
  · simp only [Option.some.injEq, Prod.mk.injEq] at h
    rw [← h.2]
    exact memRead_wf _ _ _ hs

@[simp] theorem holdSlot_mem (s : State) (p : Nat) : (holdSlot s p).mem = s.mem := by simp [holdSlot]

@[simp] theorem execMrecv_wf (t : Tid) (s : State) (hmem : Memory.wf s.mem = true) : Memory.wf (after s (execMrecv t s)).mem = true := by
  unfold execMrecv
  refine msgHead_wf _ _ _ _ (pumpDev_wf _ hmem) fun h x hx => ?_
  dsimp only
  split
  · exact msgTrap_wf _ _ _ _ _ hx
  split
  · exact msgTrap_wf _ _ _ _ _ hx
  split
  · exact msgTrap_wf _ _ _ _ _ hx
  split
  · exact OkWf.error _
  case _ r hd =>
    have hr : Memory.wf r.s.mem = true := takeDesc_wf hd hx
    refine ite_keeps OkWf (OkWf.error _) ?_
    split
    · exact msgTrap_wf _ _ _ _ _ hr
    · exact OkWf.ok (by simpa using memWrite_wf _ _ _ (by simpa using hr))

theorem whenAccepted_wf (x : Tile) {s go : State} (hs : Memory.wf s.mem = true) (hg : Memory.wf go.mem = true) :
    Memory.wf (whenAccepted x s go).mem = true := by
  unfold whenAccepted
  split
  · exact hg
  · exact hs

@[simp] theorem execMtry_wf (t : Tid) (sd sa : SReg) (sel : PhSel) (s : State)
    (hmem : Memory.wf s.mem = true) : Memory.wf (after s (execMtry t sd sa sel s)).mem = true := by
  unfold execMtry
  simp only [after_next]
  refine coreStep_wf _ _ _ (pumpDev_wf _ hmem) fun u x hu => ?_
  refine whenAccepted_wf _ hu (ite_keeps (fun s : State => Memory.wf s.mem = true) (by simpa using hu) ?_)
  split
  · simpa using hu
  split
  · simpa using hu
  split
  · exact hu
  split
  · simpa using hu
  case _ r hd =>
    have hr : Memory.wf r.s.mem = true := takeDesc_wf hd hu
    refine ite_keeps (fun s : State => Memory.wf s.mem = true) hu ?_
    split
    · simpa using hr
    · simpa using memWrite_wf _ _ _ (by simpa using hr)

@[simp] theorem execMcount_wf (t : Tid) (sd : SReg) (sel : PhSel) (s : State)
    (hmem : Memory.wf s.mem = true) : Memory.wf (after s (execMcount t sd sel s)).mem = true := by
  unfold execMcount
  grind [after_next, coreStep_wf, pumpDev_wf, whenAccepted_wf, advance_mem, onTile_mem, trap_mem]

@[simp] theorem returnCredit_mem (s : State) (i : RingItem) : (returnCredit s i).mem = s.mem := by
  simp only [returnCredit]
  split <;> simp

@[simp] theorem execMcredit_wf (t : Tid) (s : State) (hmem : Memory.wf s.mem = true) : Memory.wf (after s (execMcredit t s)).mem = true := by
  unfold execMcredit
  refine msgHead_wf _ _ _ _ (pumpDev_wf _ hmem) fun h x hx => ?_
  dsimp only
  split
  · exact msgTrap_wf _ _ _ _ _ hx
  split
  · exact msgTrap_wf _ _ _ _ _ hx
  refine OkWf.ok ?_
  simp only [msgDone_mem, pump_mem]
  exact foldl_wf _ (by simpa using hx) fun y k hy => by simpa using hy

/-! ### Device memory through Machine/Transport.lean -/

@[simp] theorem oweAck_mem (s : State) (src seq : Nat) (mark : Bool) : (oweAck s src seq mark).mem = s.mem := by simp [oweAck]

theorem takeIn_wf {body : InPkt → State → State} (s : State) (i typ : Nat) (hs : Memory.wf s.mem = true)
    (h : ∀ q x, Memory.wf x.mem = true → Memory.wf (body q x).mem = true) : Memory.wf (takeIn s i typ body).mem = true := by
  unfold takeIn
  split
  · exact hs
  split
  · exact hs
  · refine h _ _ ?_
    split
    · exact hs
    · rwa [oweAck_mem]

@[simp] theorem execAckBatchSend_mem (dest : Nat) (s : State) : (after s (execAckBatchSend dest s)).mem = s.mem := by
  simp only [execAckBatchSend]
  split <;> simp

@[simp] theorem endPartial_wf (s : State) (p : Nat) (w : Partial) (reply : Bool)
    (hmem : Memory.wf s.mem = true) : Memory.wf (endPartial s p w reply).mem = true := by
  unfold endPartial
  grind [fillSlot_wf, memWrite_wf, freshBytes_mem, noResv_mem, onPhRt_mem, ringOverrun_mem]

@[simp] theorem findPartial_wf (s : State) (p : Nat) (q : Packet) (hmem : Memory.wf s.mem = true) : Memory.wf (findPartial s p q).2.mem = true := by
  unfold findPartial
  grind [SomeWf, takeRing_wf, onPhRt_mem, setPhRt_mem]

@[simp] theorem stepPartial_wf (s : State) (p : Nat) (old new : Partial) (reply : Bool)
    (hmem : Memory.wf s.mem = true) : Memory.wf (stepPartial s p old new reply).mem = true := by
  simp only [stepPartial]
  split <;> simp [hmem]

@[simp] theorem execMail_wf (i : Nat) (s : State) (hmem : Memory.wf s.mem = true) : Memory.wf (after s (execMail i s)).mem = true := by
  unfold execMail
  grind [after_next, findPartial_wf, pumpDev_wf, stepPartial_wf, takeIn_wf, addF_mem, foreignItem_mem, noResv_mem, setF_mem, strayReply_mem]

@[simp] theorem execBulk_wf (i : Nat) (s : State) (hmem : Memory.wf s.mem = true) : Memory.wf (after s (execBulk i s)).mem = true := by
  unfold execBulk
  grind [after_next, findPartial_wf, memWrite_wf, stepPartial_wf, takeIn_wf]

@[simp] theorem execCredit_wf (i : Nat) (s : State) (hmem : Memory.wf s.mem = true) : Memory.wf (after s (execCredit i s)).mem = true := by
  unfold execCredit
  grind [after_next, takeIn_wf, addF_mem, onMsg_mem, setCredit_mem]

@[simp] theorem execWrite_wf (i : Nat) (s : State) (hmem : Memory.wf s.mem = true) : Memory.wf (after s (execWrite i s)).mem = true := by
  unfold execWrite
  grind [after_next, putWrite_wf, takeIn_wf]

@[simp] theorem serveRead_wf (s : State) (q : Packet) (hmem : Memory.wf s.mem = true) : Memory.wf (serveRead s q).mem = true := by
  unfold serveRead
  grind [memRead_wf, readOwner_wf, ready_mem, tierEvent_mem]

@[simp] theorem execRead_wf (i : Nat) (s : State) (hmem : Memory.wf s.mem = true) : Memory.wf (after s (execRead i s)).mem = true := by
  unfold execRead
  grind [after_next, serveRead_wf, takeIn_wf, pump_mem]

@[simp] theorem execVfence_wf (i : Nat) (s : State) (hmem : Memory.wf s.mem = true) : Memory.wf (after s (execVfence i s)).mem = true := by
  unfold execVfence
  grind [after_next, putVersion_wf, takeIn_wf]

@[simp] theorem backwater_mem (s : State) (d : Nat) : (backwater s d).mem = s.mem := by simp [backwater]
@[simp] theorem execRateWindow_mem (dest : Nat) (s : State) : (after s (execRateWindow dest s)).mem = s.mem := by simp [execRateWindow]

@[simp] theorem ackOne_mem (src : Nat) (s : State) (x : Nat × Bool) : (ackOne src s x).mem = s.mem := by
  simp only [ackOne]
  (repeat' split) <;> simp

@[simp] theorem pumpAll_wf (s : State) (hmem : Memory.wf s.mem = true) : Memory.wf (pumpAll s).mem = true := by
  exact pumpMail_wf _ (foldl_wf _ hmem fun x p hx => pumpStream_wf _ _ hx)

@[simp] theorem execAck_wf (i : Nat) (s : State) (hmem : Memory.wf s.mem = true) : Memory.wf (after s (execAck i s)).mem = true := by
  unfold execAck
  rw [after_next]
  exact takeIn_wf _ _ _ hmem fun q x hx => by simp [hx]

@[simp] theorem dropPacket_wf (s : State) (p : Packet) (hmem : Memory.wf s.mem = true) : Memory.wf (dropPacket s p).mem = true := by
  simp only [dropPacket]
  split <;> simp [hmem]

@[simp] theorem execHeldDrop_wf (hop i : Nat) (s : State) (hmem : Memory.wf s.mem = true) : Memory.wf (after s (execHeldDrop hop i s)).mem = true := by
  simp only [execHeldDrop]
  split <;> simp [hmem]

@[simp] theorem execE2eTimeout_wf (i : Nat) (s : State) (hmem : Memory.wf s.mem = true) : Memory.wf (after s (execE2eTimeout i s)).mem = true := by
  simp only [execE2eTimeout]
  (repeat' split) <;> simp [hmem]

@[simp] theorem execMcStallRemove_mem (coll : Bool) (i : Nat) (s : State) : (after s (execMcStallRemove coll i s)).mem = s.mem := by
  simp only [execMcStallRemove]
  (repeat' split) <;> simp

@[simp] theorem execCatchupSend_wf (coll : Bool) (i : Nat) (s : State)
    (hmem : Memory.wf s.mem = true) : Memory.wf (after s (execCatchupSend coll i s)).mem = true := by
  simp only [execCatchupSend]
  (repeat' split) <;> simp [hmem]

@[simp] theorem execRingOverrunIntervalEnd_wf (p : Ph) (s : State)
    (hmem : Memory.wf s.mem = true) : Memory.wf (after s (execRingOverrunIntervalEnd p s)).mem = true := by
  simp only [execRingOverrunIntervalEnd]
  (repeat' split) <;> simp [hmem]

/-! ### Device memory through Machine/Barrier.lean -/

@[simp] theorem setBar_mem (s : State) (b : Nat) (x : Bar) : (setBar s b x).mem = s.mem := by simp [setBar]
@[simp] theorem sendArrivals_mem (s : State) (b inst axis : Nat) : (sendArrivals s b inst axis).mem = s.mem := by simp [sendArrivals]
@[simp] theorem arriveLocal_mem (s : State) (b : Nat) (x : Bar) (n : Nat) : (arriveLocal s b x n).mem = s.mem := by simp [arriveLocal]

@[simp] theorem execGarrive_wf (t : Tid) (s : State) (hmem : Memory.wf s.mem = true) : Memory.wf (after s (execGarrive t s)).mem = true := by
  unfold execGarrive
  grind [OkWf, after_next, msgHead_wf, msgTrap_wf, arriveLocal_mem, msgDone_mem]

@[simp] theorem execGwait_wf (t : Tid) (s : State) (hmem : Memory.wf s.mem = true) : Memory.wf (after s (execGwait t s)).mem = true := by
  unfold execGwait
  grind [OkWf, after_next, msgHead_wf, msgTrap_wf, msgDone_mem, onTile_mem]

@[simp] theorem barrierClosed_wf (s : State) (b : Nat) (x : Bar) (byD : Bool)
    (hmem : Memory.wf s.mem = true) : Memory.wf (barrierClosed s b x byD).mem = true := by
  unfold barrierClosed
  have hf (u : State) (hu : Memory.wf u.mem = true) : Memory.wf (u.tiles.foldl (fun s p => match p.2.msg.gw with
      | some g => if g.bar = b ∧ g.inst = x.cur then
          s.onTile p.1 fun y => { y with msg := { y.msg with gw := some { g with closed := some s.now, go := !isPhaseBarrier u b } } } else s
      | none => s) u).mem = true := foldl_wf _ hu fun y p hy => by grind [onTile_mem]
  dsimp only
  grind [addF_mem, phaseBoundary_mem, postTrace_mem, setBar_mem, setF_mem]

@[simp] theorem execBarrierStageClose_wf (b : Fin 1024) (s : State)
    (hmem : Memory.wf s.mem = true) : Memory.wf (after s (execBarrierStageClose b s)).mem = true := by
  simp only [execBarrierStageClose]
  (repeat' split) <;> simp [hmem]

@[simp] theorem execBarrier_wf (i : Nat) (s : State) (hmem : Memory.wf s.mem = true) : Memory.wf (after s (execBarrier i s)).mem = true := by
  unfold execBarrier
  grind [after_next, takeIn_wf, addF_mem, raise_mem, setBar_mem]

/-! ### Device memory through Machine/Collective.lean -/

@[simp] theorem setColl_mem (s : State) (id : Nat) (c : Coll) : (setColl s id c).mem = s.mem := by simp [setColl]

@[simp] theorem addElems_wf (s : State) (base o : Nat) (l : List Nat) (bad : List Nat)
    (hmem : Memory.wf s.mem = true) : Memory.wf (addElems s base o l bad).mem = true := by
  unfold addElems
  grind [memReadAll_wf, memWriteM_wf]

@[simp] theorem countElems_wf (s : State) (id : Nat) (c : Coll) (i : CollInst) (idx o stamp : Nat) (l bad : List Nat) (nf : Bool)
    (hmem : Memory.wf s.mem = true) : Memory.wf (countElems s id c i idx o stamp l bad nf).mem = true := by
  unfold countElems
  grind [addElems_wf, memWriteM_wf, setColl_mem]

@[simp] theorem foldElems_wf (s : State) (id : Nat) (c : Coll) (i : CollInst) (tag idx o : Nat) (l bad : List Nat) (nf : Bool)
    (hmem : Memory.wf s.mem = true) : Memory.wf (foldElems s id c i tag idx o l bad nf).mem = true := by
  simp [foldElems, hmem]

@[simp] theorem collAhead_mem (s : State) : (collAhead s).mem = s.mem := by simp [collAhead]

@[simp] theorem collElems_wf (s : State) (id : Nat) (c : Coll) (pstep idx o stamp src : Nat) (l bad : List Nat) (nf : Bool)
    (hmem : Memory.wf s.mem = true) : Memory.wf (collElems s id c pstep idx o stamp src l bad nf).mem = true := by
  simp only [collElems]
  split <;> simp [hmem]

@[simp] theorem gatherLands_wf (s : State) (id : Nat) (c : Coll) (pstep idx off src : Nat) (b : List Byte) (bad : List Nat) (nf : Bool)
    (hmem : Memory.wf s.mem = true) : Memory.wf (gatherLands s id c pstep idx off src b bad nf).mem = true := by
  unfold gatherLands
  grind [memWriteM_wf, addF_mem, collAhead_mem, setColl_mem, stepReject_mem]

@[simp] theorem startPull_mem (s : State) (q : InPkt) : (startPull s q).mem = s.mem := by simp [startPull]

@[simp] theorem contribLands_wf (q : InPkt) (s : State) (hmem : Memory.wf s.mem = true) : Memory.wf (contribLands q s).mem = true := by
  simp only [contribLands]
  split <;> simp [hmem]

theorem drainContribs_wf (id f : Nat) (s : State) (h : Memory.wf s.mem = true) : Memory.wf (drainContribs id f s).mem = true := by
  induction f generalizing s with
  | zero => exact h
  | succ f ih =>
    rw [drainContribs]
    split
    · exact h
    · exact ih _ (takeIn_wf _ _ _ h fun q x hx => contribLands_wf q x hx)

@[simp] theorem execColl_wf (i : Nat) (s : State) (hmem : Memory.wf s.mem = true) : Memory.wf (after s (execColl i s)).mem = true := by
  unfold execColl
  grind [after_next, contribLands_wf, gatherLands_wf, takeIn_wf, pump_mem, startPull_mem]

@[simp] theorem pullData_wf (s : State) (p : Packet) (hmem : Memory.wf s.mem = true) : Memory.wf (pullData s p).mem = true := by
  simp only [pullData]
  (repeat' split) <;> simp [hmem]

@[simp] theorem execReadData_wf (i : Nat) (s : State) (hmem : Memory.wf s.mem = true) : Memory.wf (after s (execReadData i s)).mem = true := by
  unfold execReadData
  rw [after_next]
  exact takeIn_wf _ _ _ hmem fun q x hx => by simp [hx]

@[simp] theorem endNotice_mem (s : State) (id : Nat) (c : Coll) (i : CollInst) : (endNotice s id c i).mem = s.mem := by simp [endNotice]
@[simp] theorem endInst_mem (s : State) (id : Nat) (c : Coll) (i : CollInst) : (endInst s id c i).mem = s.mem := by simp [endInst]
@[simp] theorem collRegs_mem (s : State) (id : Nat) (i : CollInst) (byD : Bool) (n : Nat) : (collRegs s id i byD n).mem = s.mem := by simp [collRegs]

theorem reduced_wf (s : State) (c : Coll) (i : CollInst) (l : List Nat) (h : Memory.wf s.mem = true) : Memory.wf (reduced s c i l).2.2.mem = true := by
  unfold reduced
  split
  · exact foldl_keeps (fun x : List (Nat × Nat) × List Nat × State => Memory.wf x.2.2.mem = true) _ _ _ h fun x j hx => memReadAll_wf _ _ _ hx
  · exact memReadAll_wf _ _ _ h

@[simp] theorem writeOut_wf (s : State) (c : Coll) (step : Nat) (l bad : List Nat)
    (hmem : Memory.wf s.mem = true) : Memory.wf (writeOut s c step l bad).mem = true := by
  unfold writeOut
  dsimp only
  split
  · exact memWriteM_wf _ _ _ _ hmem
  · exact foldl_wf _ hmem fun x b hx => by grind [infabBlock_wf, memWriteM_wf, infabFallback_mem]

@[simp] theorem oweGather_mem (s : State) (id step : Nat) : (oweGather s id step).mem = s.mem := by simp [oweGather]

@[simp] theorem execCollClose_wf (id : Fin 256) (s : State) (hmem : Memory.wf s.mem = true) : Memory.wf (after s (execCollClose id s)).mem = true := by
  have hd := drainContribs_wf id.val s.fab.inq.length s hmem
  simp only [execCollClose, after_next]
  split
  · exact hmem
  split
  · exact hmem
  split
  · exact hmem
  refine ite_keeps (fun s : State => Memory.wf s.mem = true) hmem ?_
  refine pumpMail_wf _ ?_
  simp only [ite_mem, updRetry_mem, oweGather_mem, endInst_mem, setColl_mem, collRegs_mem, ite_self]
  refine memZero_wf _ _ _ (writeOut_wf _ _ _ _ _ ?_)
  refine ite_keeps (fun s : State => Memory.wf s.mem = true) (takeAhead_wf _ ?_) (reduced_wf _ _ _ _ hd)
  simpa using reduced_wf _ _ _ _ hd

@[simp] theorem execAgPartEnd_wf (id : Fin 256) (s : State) (hmem : Memory.wf s.mem = true) : Memory.wf (after s (execAgPartEnd id s)).mem = true := by
  simp only [execAgPartEnd]
  (repeat' split) <;> simp [hmem]

@[simp] theorem ownShard_wf (s : State) (id : Nat) (c : Coll) (step src : Nat) (nf : Bool)
    (hmem : Memory.wf s.mem = true) : Memory.wf (ownShard s id c step src nf).mem = true := by
  unfold ownShard
  grind [collElems_wf, gatherLands_wf, memReadAll_wf]

@[simp] theorem startColl_wf (s : State) (id : Nat) (c : Coll) (step tag src : Nat) (nfIn : Bool)
    (hmem : Memory.wf s.mem = true) : Memory.wf (startColl s id c step tag src nfIn).mem = true := by
  unfold startColl
  grind [drainContribs_wf, ownShard_wf, pumpMail_wf, endNotice_mem, freshWord_mem, setColl_mem]

@[simp] theorem execMcoll_wf (t : Tid) (s : State) (hmem : Memory.wf s.mem = true) : Memory.wf (after s (execMcoll t s)).mem = true := by
  unfold execMcoll
  grind [OptWf, OkWf, after_next, memRead_wf, msgHead_wf, msgTrap_wf, pumpDev_wf, reserve_wf, startColl_wf, msgDone_mem]

/-! ### Device memory through Machine/Control.lean -/

@[simp] theorem execIllegal_mem (t : Tid) (w : Word) (s : State) : (after s (execIllegal t w s)).mem = s.mem := by simp [execIllegal]

@[simp] theorem execQueueIssue_mem (t : Tid) (w : Word) (s : State) : (after s (execQueueIssue t w s)).mem = s.mem := by
  simp only [execQueueIssue]
  split <;> simp

@[simp] theorem execNop_mem (t : Tid) (s : State) : (after s (execNop t s)).mem = s.mem := by simp [execNop]

@[simp] theorem execHalt_mem (t : Tid) (s : State) : (after s (execHalt t s)).mem = s.mem := by
  unfold execHalt
  rw [after_next]
  refine sameCycle_mem _ _ _ fun x => ?_
  dsimp only
  (repeat' split) <;> simp

@[simp] theorem execAbort_mem (t : Tid) (sa : SReg) (s : State) : (after s (execAbort t sa s)).mem = s.mem := by simp [execAbort]
@[simp] theorem execBrk_mem (t : Tid) (imm : BitVec 24) (s : State) : (after s (execBrk t imm s)).mem = s.mem := by simp [execBrk]
@[simp] theorem execFence_mem (t : Tid) (scopes : BitVec 5) (s : State) : (after s (execFence t scopes s)).mem = s.mem := by simp [execFence]
@[simp] theorem coreSignal_mem (t : Tid) (w : Word) (n k : Nat) (s : State) : (coreSignal t w n k s).mem = s.mem := by simp [coreSignal]
@[simp] theorem execTksig_mem (t : Tid) (tk : Fin 16) (s : State) : (after s (execTksig t tk s)).mem = s.mem := by simp [execTksig]
@[simp] theorem execTkadd_mem (t : Tid) (tk : Fin 16) (n : BitVec 16) (s : State) : (after s (execTkadd t tk n s)).mem = s.mem := by simp [execTkadd]

@[simp] theorem coreWaitOp_mem (t : Tid) (w : Word) (tk n : Nat) (s : State) : (coreWaitOp t w tk n s).mem = s.mem := by
  simp only [coreWaitOp]
  split <;> simp

@[simp] theorem execTkwait_mem (t : Tid) (tk : Fin 16) (s : State) : (after s (execTkwait t tk s)).mem = s.mem := by simp [execTkwait]
@[simp] theorem execTkwaitn_mem (t : Tid) (tk : Fin 16) (n : BitVec 16) (s : State) : (after s (execTkwaitn t tk n s)).mem = s.mem := by simp [execTkwaitn]
@[simp] theorem execTkrd_mem (t : Tid) (sd : SReg) (tk : Fin 16) (s : State) : (after s (execTkrd t sd tk s)).mem = s.mem := by simp [execTkrd]
@[simp] theorem execTkclr_mem (t : Tid) (tk : Fin 16) (s : State) : (after s (execTkclr t tk s)).mem = s.mem := by simp [execTkclr]
@[simp] theorem execRdsys_mem (t : Tid) (sd : SReg) (sys : BitVec 12) (s : State) : (after s (execRdsys t sd sys s)).mem = s.mem := by simp [execRdsys]
@[simp] theorem startFromRegs_mem (s : State) (t : Nat) (replay : Bool) : (startFromRegs s t replay).mem = s.mem := by simp [startFromRegs]
@[simp] theorem execStart_mem (t : Tid) (how : StartWrite) (s : State) : (after s (execStart t how s)).mem = s.mem := by simp [execStart]
@[simp] theorem execHostAbort_mem (t : Tid) (s : State) : (after s (execHostAbort t s)).mem = s.mem := by simp [execHostAbort]
@[simp] theorem execHaltComplete_mem (t : Tid) (s : State) : (after s (execHaltComplete t s)).mem = s.mem := by simp [execHaltComplete]

/-! ### Device memory through Machine/Discovery.lean -/

@[simp] theorem setDiscPort_mem (s : State) (p : Nat) (d : DiscPort) : (setDiscPort s p d).mem = s.mem := by simp [setDiscPort]
@[simp] theorem execDiscStart_mem (s : State) : (after s (execDiscStart s)).mem = s.mem := by simp [execDiscStart]
@[simp] theorem execDiscClose_mem (s : State) : (after s (execDiscClose s)).mem = s.mem := by simp [execDiscClose]
@[simp] theorem execDiscSweepSet_mem (p : Port) (tx : Bool) (s : State) : (after s (execDiscSweepSet p tx s)).mem = s.mem := by simp [execDiscSweepSet]
@[simp] theorem execBeaconSend_mem (e : Eng) (l : Lane) (s : State) : (after s (execBeaconSend e l s)).mem = s.mem := by simp [execBeaconSend]
@[simp] theorem markPort_mem (s : State) (p v : Nat) : (markPort s p v).mem = s.mem := by simp [markPort]

@[simp] theorem markMiscabled_wf (s : State) (hmem : Memory.wf s.mem = true) : Memory.wf (markMiscabled s).mem = true := by
  exact foldl_wf _ hmem fun x p hx => by grind [markPort_mem, raise_mem]

@[simp] theorem findPosition_wf (s : State) (hmem : Memory.wf s.mem = true) : Memory.wf (findPosition s).mem = true := by
  unfold findPosition
  dsimp only
  (repeat' split) <;> simp [hmem]

@[simp] theorem setTwin_mem (s : State) : (setTwin s).mem = s.mem := by simp [setTwin]
@[simp] theorem hearPeer_mem (s : State) (p serial index heard : Nat) : (hearPeer s p serial index heard).mem = s.mem := by simp [hearPeer]

@[simp] theorem hearBeacon_wf (s : State) (e l : Nat) (b : List Byte) (hmem : Memory.wf s.mem = true) : Memory.wf (hearBeacon s e l b).mem = true := by
  simp [hearBeacon, hmem]

theorem takeUnit_wf (s : State) (e l ty : Nat) (hmem : Memory.wf s.mem = true) : SomeWf (takeUnit s e l ty) := by
  unfold takeUnit
  dsimp only
  (repeat' split) <;> simp [hmem, SomeWf.some, SomeWf.none]

@[simp] theorem execBeacon_wf (e : Eng) (l : Lane) (s : State) (hmem : Memory.wf s.mem = true) : Memory.wf (after s (execBeacon e l s)).mem = true := by
  unfold execBeacon
  grind [SomeWf, after_next, hearBeacon_wf, takeUnit_wf, addF_mem, setTwin_mem]

@[simp] theorem stopSweep_mem (s : State) : (stopSweep s).mem = s.mem := by simp [stopSweep]
@[simp] theorem twinLanes_mem (s : State) : (twinLanes s).mem = s.mem := by simp [twinLanes]

@[simp] theorem execDiscEnd_mem (halfRows : Fin 24) (cols : Fin 48) (s : State) : (after s (execDiscEnd halfRows cols s)).mem = s.mem := by
  simp only [execDiscEnd]
  split <;> simp

/-! ### Device memory through Machine/PowerOps.lean -/

@[simp] theorem setLoop_mem (s : State) (d : Nat) (x : DieLoop) : (setLoop s d x).mem = s.mem := by simp [setLoop]

@[simp] theorem setCurrCeil_mem (s : State) (v : Nat) : (setCurrCeil s v).mem = s.mem := by
  unfold setCurrCeil
  exact foldl_mem _ _ _ fun x b => by simp

@[simp] theorem setFcode_mem (s : State) (d k : Nat) : (setFcode s d k).mem = s.mem := by simp [setFcode]
@[simp] theorem railStep_mem (s : State) (d : Nat) : (railStep s d).mem = s.mem := by simp [railStep]

@[simp] theorem reviewEpisode_mem (s : State) (loop o : Nat) : (reviewEpisode s loop o).mem = s.mem := by
  simp only [reviewEpisode]
  (repeat' split) <;> simp

@[simp] theorem reviewEpisodes_mem (s : State) : (reviewEpisodes s).mem = s.mem := by simp [reviewEpisodes]
@[simp] theorem reviewGates_mem (s : State) (d : Nat) : (reviewGates s d).mem = s.mem := by simp [reviewGates]
@[simp] theorem setEngTemp_mem (s : State) (e v : Nat) : (setEngTemp s e v).mem = s.mem := by simp [setEngTemp]
@[simp] theorem lowerCurr_mem (s : State) : (lowerCurr s).mem = s.mem := by simp [lowerCurr]

@[simp] theorem settleFlash_wf (s : State) (hmem : Memory.wf s.mem = true) : Memory.wf (settleFlash s).mem = true := by
  refine foldl_wf _ hmem fun x b hx => ?_
  dsimp only
  (repeat' split) <;> simp [hx]

theorem railsDown_wf (s : State) : Memory.wf (railsDown s).mem = true := reset_memory_wf

theorem tripRails_wf (s : State) : Memory.wf (tripRails s).mem = true := by
  unfold tripRails
  dsimp only
  exact railsDown_wf _

theorem railFault_wf (s : State) (mon kind reading : Nat) : Memory.wf (railFault s mon kind reading).mem = true := by
  unfold railFault
  rw [postEvent_mem, raise_mem]
  exact tripRails_wf s

/-! ### Device memory through Machine/TwinOps.lean -/

@[simp] theorem onTwin_mem (s : State) (f : TwinSt → TwinSt) : (onTwin s f).mem = s.mem := by simp [onTwin]

theorem readShadow_wf (s : State) (a n : Nat) (h : Memory.wf s.mem = true) : Memory.wf (readShadow s a n).2.2.2.mem = true :=
  crossRange_wf _ _ _ <| foldl_keeps (fun x : List (List Byte) × List Nat × Option Nat × State => Memory.wf x.2.2.2.mem = true) _ _ _ h
    fun x k hx => readUnit_wf x.2.2.2 _ false hx

@[simp] theorem writeShadow_wf (s : State) (a : Nat) (data : List Byte) (poison : List Nat)
    (hmem : Memory.wf s.mem = true) : Memory.wf (writeShadow s a data poison).mem = true := by
  exact foldl_wf _ (memWrite_wf _ _ _ hmem) fun x k hx => memPoison_wf _ _ _ hx

theorem itemData_wf (s : State) (i : ShadowItem) (h : Memory.wf s.mem = true) : Memory.wf (itemData s i).2.2.2.mem = true := by
  cases i with
  | image i => exact readShadow_wf _ _ _ h
  | log n j => exact readShadow_wf _ _ _ h
  | header n nf => exact h
  | record n => exact h

theorem restoreData_wf (s : State) (i : ShadowItem) (h : Memory.wf s.mem = true) : Memory.wf (restoreData s i).2.2.2.mem = true := by
  cases i with
  | image i => exact readShadow_wf _ _ _ h
  | log n j => exact readShadow_wf _ _ _ h
  | header n nf => exact readShadow_wf _ _ _ h
  | record n => exact readShadow_wf _ _ _ h

@[simp] theorem shadowUe_mem (s : State) (o : Option Nat) : (shadowUe s o).mem = s.mem := by
  cases o with
  | none => rfl
  | some a => rw [shadowUe, postEvent_mem, raise_mem]

@[simp] theorem noteSend_mem (s : State) (x : ShadowItem) : (noteSend s x).mem = s.mem := by simp [noteSend]
@[simp] theorem noteAck_mem (s : State) (x : ShadowItem) : (noteAck s x).mem = s.mem := by simp [noteAck]
@[simp] theorem shResync_wf (s : State) (hmem : Memory.wf s.mem = true) : Memory.wf (shResync s).mem = true := by simp [shResync, hmem]
@[simp] theorem leaveExposed_mem (s : State) : (leaveExposed s).mem = s.mem := by simp [leaveExposed]

@[simp] theorem shLand_mem (s : State) : (shLand s).mem = s.mem := by
  simp only [shLand]
  (repeat' split) <;> simp

@[simp] theorem peerLands_mem (s : State) : (peerLands s).mem = s.mem := by simp [peerLands]
@[simp] theorem setAgree_mem (s : State) (a : Agreement) : (setAgree s a).mem = s.mem := by simp [setAgree]
@[simp] theorem sendAgree_mem (s : State) (col : Bool) (step : Nat) : (sendAgree s col step).mem = s.mem := by simp [sendAgree]
@[simp] theorem agreeAdvance_mem (s : State) (n : Nat) : (agreeAdvance s n).mem = s.mem := by simp [agreeAdvance]
@[simp] theorem agreeClose_mem (s : State) (n : Nat) : (agreeClose s n).mem = s.mem := by simp [agreeClose]

/-! ### Device memory through Machine/PmOps.lean -/

@[simp] theorem onPins_mem (s : State) (f : Pins → Pins) : (State.onPins s f).mem = s.mem := by simp [State.onPins]
@[simp] theorem onBoot_mem (s : State) (f : Boot → Boot) : (State.onBoot s f).mem = s.mem := by simp [State.onBoot]
@[simp] theorem setStage_mem (s : State) (n : Nat) : (setStage s n).mem = s.mem := by simp [setStage]

@[simp] theorem putRecord_mem (s : State) (e : LogEvent) : (putRecord s e).mem = s.mem := by
  unfold putRecord
  split
  · rw [satF_mem, onPm_mem]
  · exact onPm_mem _ _

@[simp] theorem overflowRecord_mem (s : State) : (overflowRecord s).mem = s.mem := by simp [overflowRecord]
@[simp] theorem setBank_mem (s : State) (n : Nat) (b : FwBank) : (setBank s n b).mem = s.mem := by simp [setBank]
@[simp] theorem showBank_mem (s : State) (n : Nat) : (showBank s n).mem = s.mem := by simp [showBank]

@[simp] theorem writeSelector_mem (s : State) (active : Nat) (trial : Option Nat) (trials : Nat) : (writeSelector s active trial trials).mem = s.mem := by
  simp [writeSelector]

@[simp] theorem tornSelector_mem (s : State) : (tornSelector s).mem = s.mem := by simp [tornSelector]
@[simp] theorem writeSettings_mem (s : State) (split : Nat) : (writeSettings s split).mem = s.mem := by simp [writeSettings]
@[simp] theorem tornSettings_mem (s : State) : (tornSettings s).mem = s.mem := by simp [tornSettings]

@[simp] theorem selectBank_mem (s : State) : (selectBank s).1.mem = s.mem := by
  simp only [selectBank]
  (repeat' split) <;> simp

@[simp] theorem startFirmware_mem (s : State) (n : Nat) : (startFirmware s n).mem = s.mem := by
  simp only [startFirmware]
  split <;> simp

@[simp] theorem stopFirmware_mem (s : State) : (stopFirmware s).mem = s.mem := by simp [stopFirmware]
@[simp] theorem restartPm_mem (s : State) (cause pc : Nat) : (restartPm s cause pc).mem = s.mem := by simp [restartPm]
@[simp] theorem fwReject_mem (s : State) (result : Nat) : (fwReject s result).mem = s.mem := by simp [fwReject]
@[simp] theorem enterLimited_mem (s : State) : (enterLimited s).mem = s.mem := by simp [enterLimited]
@[simp] theorem tryReady_mem (s : State) : (tryReady s).mem = s.mem := by simp [tryReady]
@[simp] theorem abandonLoad_mem (s : State) : (abandonLoad s).mem = s.mem := by simp [abandonLoad]

theorem unpowered_wf (s : State) (p : Pins) : Memory.wf (unpowered s p).mem = true := reset_memory_wf

@[simp] theorem trainLink_mem (s : State) : (trainLink s).mem = s.mem := by simp [trainLink]

@[simp] theorem manufactured_mem (s : State) : (manufactured s).mem = s.mem := by
  unfold manufactured
  exact foldl_mem _ _ _ fun x b => by simp

@[simp] theorem coldBoot_mem (s : State) (ramp : Nat) : (coldBoot s ramp).mem = s.mem := by simp [coldBoot]

/-! ### Device memory through Machine/Redraw.lean -/

@[simp] theorem onRedraw_mem (s : State) (f : Redraw → Redraw) : (onRedraw s f).mem = s.mem := by simp [onRedraw]
@[simp] theorem setPortStep_mem (s : State) (p : Nat) (st : PortStep) : (setPortStep s p st).mem = s.mem := by simp [setPortStep]
@[simp] theorem execRedrawDrainEnd_mem (p : Port) (s : State) : (after s (execRedrawDrainEnd p s)).mem = s.mem := by simp [execRedrawDrainEnd]

@[simp] theorem stopRedraw_mem (s : State) : (stopRedraw s).mem = s.mem := by
  simp only [stopRedraw]
  (repeat' split) <;> simp

@[simp] theorem execRedrawRetuneEnd_mem (p : Port) (ue : Bool) (s : State) : (after s (execRedrawRetuneEnd p ue s)).mem = s.mem := by
  simp [execRedrawRetuneEnd]

@[simp] theorem execRedrawLockEnd_mem (p : Port) (s : State) : (after s (execRedrawLockEnd p s)).mem = s.mem := by simp [execRedrawLockEnd]
@[simp] theorem sortLane_mem (s : State) (p l : Nat) (passed : Bool) : (sortLane s p l passed).mem = s.mem := by simp [sortLane]

@[simp] theorem execRedrawCheckEnd_mem (p : Port) (passed : BitVec 32) (s : State) : (after s (execRedrawCheckEnd p passed s)).mem = s.mem := by
  simp [execRedrawCheckEnd]

@[simp] theorem portEnters_mem (s : State) (p : Nat) : (portEnters s p).mem = s.mem := by simp [portEnters]
@[simp] theorem returnPort_mem (s : State) (p : Nat) : (returnPort s p).mem = s.mem := by simp [returnPort]

@[simp] theorem execPortReturn_mem (p : Port) (s : State) : (after s (execPortReturn p s)).mem = s.mem := by
  simp only [execPortReturn]
  (repeat' split) <;> simp

@[simp] theorem execWave2Start_mem (s : State) : (after s (execWave2Start s)).mem = s.mem := by
  simp only [execWave2Start]
  (repeat' split) <;> simp

@[simp] theorem execLatePeerRetry_mem (p : Port) (l : Lane) (pass : Bool) (s : State) : (after s (execLatePeerRetry p l pass s)).mem = s.mem := by
  simp [execLatePeerRetry]

@[simp] theorem execLaneUnpaired_mem (p : Port) (l : Lane) (s : State) : (after s (execLaneUnpaired p l s)).mem = s.mem := by simp [execLaneUnpaired]

@[simp] theorem execPhaseEnter_mem (s : State) : (after s (execPhaseEnter s)).mem = s.mem := by
  simp only [execPhaseEnter]
  (repeat' split) <;> simp

@[simp] theorem execApply_mem (phase : Fin 16) (s : State) : (after s (execApply phase s)).mem = s.mem := by
  simp only [execApply]
  (repeat' split) <;> simp

/-! ### Device memory through Machine/ImageOps.lean -/

@[simp] theorem takeMap_mem (s : State) (ph : Phases) : (takeMap s ph).mem = s.mem := by simp [takeMap]

@[simp] theorem takePhs_wf (s : State) (x : PhSec) (hmem : Memory.wf s.mem = true) : Memory.wf (takePhs s x).mem = true := by
  unfold takePhs
  simp only [setFs_mem]
  refine foldl_wf _ ?_ fun x c hx => memZero_wf _ _ _ hx
  refine foldl_wf _ (by simpa using hmem) fun x p hx => ?_
  (repeat' split) <;> simp [hx]

/-! ### Device memory through Machine/Image.lean -/

@[simp] theorem onLoad_mem (s : State) (f : Loader → Loader) : (State.onLoad s f).mem = s.mem := by simp [State.onLoad]
@[simp] theorem endLoad_mem (s : State) (code step : Nat) : (endLoad s code step).mem = s.mem := by simp [endLoad]

@[simp] theorem readHead_wf (s : State) (base size : Nat) (hmem : Memory.wf s.mem = true) : Memory.wf (readHead s base size).2.2.2.mem = true := by
  unfold readHead
  grind [memRead_wf]

@[simp] theorem execDbLoad_wf (s : State) (hmem : Memory.wf s.mem = true) : Memory.wf (after s (execDbLoad s)).mem = true := by
  simp only [execDbLoad]
  (repeat' split) <;> simp [hmem]

@[simp] theorem execImageDigestDone_wf (s : State) (hmem : Memory.wf s.mem = true) : Memory.wf (after s (execImageDigestDone s)).mem = true := by
  unfold execImageDigestDone
  grind [after_next, memRead_wf, endLoad_mem, onLoad_mem, setF_mem]

@[simp] theorem putSection_wf (s : State) (x : Sec) (b : List Byte) (hmem : Memory.wf s.mem = true) : Memory.wf (putSection s x b).mem = true := by
  unfold putSection
  split
  · exact foldl_wf _ hmem fun x t hx => doWrites_wf _ _ _ _ hx
  · grind [memWrite_wf, memZero_wf]

@[simp] theorem spoilSection_wf (s : State) (x : Sec) (b : List Byte) (hmem : Memory.wf s.mem = true) : Memory.wf (spoilSection s x b).mem = true := by
  unfold spoilSection
  split
  · exact foldl_wf _ hmem fun x t hx => mixture_wf _ _ _ _ hx
  · grind [mixture_wf]

@[simp] theorem putTask_mem (s : State) (b : List Byte) : (putTask s b).mem = s.mem := by simp [putTask]

theorem copySections_wf (base : Nat) (l : List Sec) (tasks : List (List Byte)) (s : State) (h : Memory.wf s.mem = true) :
    Memory.wf (copySections base l tasks s).2.2.mem = true := by
  induction l generalizing tasks s with
  | nil => exact h
  | cons x rest ih =>
    rw [copySections]
    have hr : Memory.wf (if x.typ = 1 ∨ x.typ = 2 ∨ x.typ = 3 ∨ x.typ = 6 then memRead s (base + x.off) x.size
        else ⟨[], none, s⟩ : MemRead).s.mem = true := by
      split
      · exact memRead_wf _ _ _ h
      · exact h
    generalize (if x.typ = 1 ∨ x.typ = 2 ∨ x.typ = 3 ∨ x.typ = 6 then memRead s (base + x.off) x.size
        else ⟨[], none, s⟩ : MemRead) = r at hr
    split
    · exact spoilSection_wf _ _ _ hr
    split
    · exact hr
    split
    · exact ih _ _ (by rwa [foldl_mem _ _ _ fun x b => putTask_mem x b])
    · exact ih _ _ (putSection_wf _ _ _ hr)

theorem ownerRead_wf (s : State) (base : Nat) (l : List Sec) (t : Nat) (h : Memory.wf s.mem = true) : Memory.wf (ownerRead s base l t).2.2.mem = true := by
  unfold ownerRead
  split
  · exact h
  · exact memRead_wf _ _ _ h

@[simp] theorem handMap_wf (s : State) (base : Nat) (l : List Sec) (hmem : Memory.wf s.mem = true) : Memory.wf (handMap s base l).2.mem = true := by
  unfold handMap
  grind [ownerRead_wf, takeMap_mem]

@[simp] theorem handGroups_wf (s : State) (base : Nat) (l : List Sec) (hmem : Memory.wf s.mem = true) : Memory.wf (handGroups s base l).2.mem = true := by
  have ha := ownerRead_wf s base l 8 hmem
  have hb := ownerRead_wf _ base l 9 ha
  unfold handGroups
  dsimp only
  split
  · exact hb
  split
  · split
    · exact foldl_wf _ (takeGroups_wf _ _ hb) fun x p hx => buildPower_wf _ _ hx
    · exact hb
  · exact hb

@[simp] theorem handPhs_wf (s : State) (base : Nat) (l : List Sec) (hmem : Memory.wf s.mem = true) : Memory.wf (handPhs s base l).2.mem = true := by
  unfold handPhs
  grind [ownerRead_wf, takePhs_wf]

@[simp] theorem handOver_wf (s : State) (base : Nat) (l : List Sec) (hmem : Memory.wf s.mem = true) : Memory.wf (handOver s base l).2.mem = true := by
  unfold handOver
  grind [handGroups_wf, handMap_wf, handPhs_wf]

@[simp] theorem execImageCopyDone_wf (s : State) (hmem : Memory.wf s.mem = true) : Memory.wf (after s (execImageCopyDone s)).mem = true := by
  unfold execImageCopyDone
  grind [after_next, copySections_wf, handOver_wf, endLoad_mem, onLoad_mem, setF_mem]

@[simp] theorem execImageTakeoverDone_mem (s : State) : (after s (execImageTakeoverDone s)).mem = s.mem := by
  simp only [execImageTakeoverDone]
  split <;> simp

@[simp] theorem startEntry_mem (s : State) (b : List Byte) : (startEntry s b).mem = s.mem := by simp [startEntry]

@[simp] theorem execLoadTaskStart_mem (s : State) : (after s (execLoadTaskStart s)).mem = s.mem := by
  simp only [execLoadTaskStart]
  split <;> simp

/-! ### Device memory through Machine/Firmware.lean -/

@[simp] theorem fwBusy_mem (s : State) : (fwBusy s).mem = s.mem := by simp [fwBusy]

@[simp] theorem fwLoad_wf (s : State) (hmem : Memory.wf s.mem = true) : Memory.wf (fwLoad s).mem = true := by
  unfold fwLoad
  grind [memRead_wf, fwBusy_mem, fwReject_mem, onPm_mem, setFs_mem]

@[simp] theorem execPmFwLoad_wf (s : State) (hmem : Memory.wf s.mem = true) : Memory.wf (after s (execPmFwLoad s)).mem = true := by simp [execPmFwLoad, hmem]

@[simp] theorem execFwVerifyDone_mem (s : State) : (after s (execFwVerifyDone s)).mem = s.mem := by
  simp only [execFwVerifyDone]
  split <;> simp

@[simp] theorem execFwEraseDone_mem (ok : Bool) (s : State) : (after s (execFwEraseDone ok s)).mem = s.mem := by
  simp only [execFwEraseDone]
  split <;> simp

@[simp] theorem execFwProgramDone_mem (ok : Bool) (s : State) : (after s (execFwProgramDone ok s)).mem = s.mem := by
  simp only [execFwProgramDone]
  split <;> simp

@[simp] theorem execFwReadbackDone_mem (ok : Bool) (s : State) : (after s (execFwReadbackDone ok s)).mem = s.mem := by
  simp only [execFwReadbackDone]
  split <;> simp

@[simp] theorem execActivate_mem (pc : BitVec 32) (s : State) : (after s (execActivate pc s)).mem = s.mem := by simp [execActivate]
@[simp] theorem commitTrial_mem (s : State) : (commitTrial s).mem = s.mem := by simp [commitTrial]
@[simp] theorem execFwCommit_mem (s : State) : (after s (execFwCommit s)).mem = s.mem := by simp [execFwCommit]
@[simp] theorem execTrialAutoCommit_mem (s : State) : (after s (execTrialAutoCommit s)).mem = s.mem := by simp [execTrialAutoCommit]
@[simp] theorem execWatchdog_mem (pc : BitVec 32) (s : State) : (after s (execWatchdog pc s)).mem = s.mem := by simp [execWatchdog]

@[simp] theorem execPostmasterRestart_mem (sram : Bool) (pc : BitVec 32) (s : State) : (after s (execPostmasterRestart sram pc s)).mem = s.mem := by
  simp [execPostmasterRestart]

@[simp] theorem execBootBankSelect_mem (s : State) : (after s (execBootBankSelect s)).mem = s.mem := by
  simp only [execBootBankSelect]
  (repeat' split) <;> simp

@[simp] theorem execFirmwareResume_mem (s : State) : (after s (execFirmwareResume s)).mem = s.mem := by
  simp only [execFirmwareResume]
  split <;> simp

@[simp] theorem execLogRecordWrite_mem (s : State) : (after s (execLogRecordWrite s)).mem = s.mem := by
  simp only [execLogRecordWrite]
  (repeat' split) <;> simp

@[simp] theorem execLogPersist_mem (n : Nat) (s : State) : (after s (execLogPersist n s)).mem = s.mem := by simp [execLogPersist]
@[simp] theorem execPmLogSel_mem (seq : BitVec 32) (s : State) : (after s (execPmLogSel seq s)).mem = s.mem := by simp [execPmLogSel]

@[simp] theorem execLogSelDataReady_wf (s : State) (hmem : Memory.wf s.mem = true) : Memory.wf (after s (execLogSelDataReady s)).mem = true := by
  simp only [execLogSelDataReady]
  split
  · exact hmem
  split
  · exact hmem
  split
  all_goals
    simp only [after_next]
    with_reducible refine foldl_wf _ ?_ fun x i hx => by rwa [setF_mem]
    simpa using hmem

@[simp] theorem execSettingsWrite_mem (s : State) : (after s (execSettingsWrite s)).mem = s.mem := by simp [execSettingsWrite]

/-! ### Device memory through Machine/Link.lean -/

@[simp] theorem sendLight_mem (s : State) : (sendLight s).mem = s.mem := by simp [sendLight]

@[simp] theorem execCodewordReceive_mem (e : Eng) (l : Lane) (cw : List (Fin 4)) (s : State) : (after s (execCodewordReceive e l cw s)).mem = s.mem := by
  simp only [execCodewordReceive]
  split <;> simp

@[simp] theorem relay_mem (s : State) (port : Nat) (p : Packet) : (relay s port p).mem = s.mem := by
  simp only [relay]
  (repeat' split) <;> simp

theorem arrive_wf (s : State) (k : Nat) (h : Hop) (q : InPkt) (hs : Memory.wf s.mem = true) :
    Memory.wf ({ (setHop s k h) with fab := { (setHop s k h).fab with inq := s.fab.inq ++ [q] } } : State).mem = true := by
  show Memory.wf (setHop s k h).mem = true
  rwa [setHop_mem]

theorem wf_if {c : Prop} [Decidable c] {f g : State} (hf : Memory.wf f.mem = true) (hg : Memory.wf g.mem = true) :
    Memory.wf (if c then f else g).mem = true := by
  split
  · exact hf
  · exact hg

@[simp] theorem execPacket_wf (e : Eng) (l : Lane) (s : State) (h : Memory.wf s.mem = true) : Memory.wf (after s (execPacket e l s)).mem = true := by
  unfold execPacket
  rw [after_next]
  split
  · next u s1 k ht _ =>
    have hu := wf_of_some_pair ht (takeUnit_wf _ _ _ _ h)
    have counted (x : State) (hx : x.mem = s1.mem) (f : Fld) : Memory.wf (addF x f 1).mem = true := by rwa [addF_mem, hx]
    refine wf_if hu ?_
    generalize packetOf u.body = o
    cases o with
    | none => exact counted s1 rfl _
    | some p =>
      generalize takeSeq (hopSt s k) u.lseq = r
      cases r with
      | none => exact counted _ (setHop_mem _ _ _) _
      | some q => exact wf_if h (wf_if (arrive_wf _ _ _ _ hu) (by rwa [relay_mem, setHop_mem]))
  · next ht _ => exact wf_of_some_pair ht (takeUnit_wf _ _ _ _ h)
  · exact h

@[simp] theorem execLinkAck_wf (e : Eng) (l : Lane) (s : State) (hmem : Memory.wf s.mem = true) : Memory.wf (after s (execLinkAck e l s)).mem = true := by
  unfold execLinkAck
  grind [SomeWf, after_next, takeUnit_wf, pump_mem, sendAllHeld_mem, setHop_mem]

@[simp] theorem execLinkAckSend_mem (hop : Nat) (s : State) : (after s (execLinkAckSend hop s)).mem = s.mem := by
  simp only [execLinkAckSend]
  split <;> simp

@[simp] theorem execLinkReplay_mem (hop i : Nat) (s : State) : (after s (execLinkReplay hop i s)).mem = s.mem := by
  simp only [execLinkReplay]
  split <;> simp

@[simp] theorem execIdentity_wf (e : Eng) (l : Lane) (s : State) (hmem : Memory.wf s.mem = true) : Memory.wf (after s (execIdentity e l s)).mem = true := by
  unfold execIdentity
  grind [SomeWf, after_next, takeUnit_wf, onLane_mem]

@[simp] theorem setLevel_mem (s : State) : (setLevel s).mem = s.mem := by
  simp only [setLevel]
  split <;> simp

@[simp] theorem setSyncLink_mem (s : State) (role : Nat) (x : SyncLink) : (setSyncLink s role x).mem = s.mem := by simp [setSyncLink]
@[simp] theorem execSyncExchange_mem (p : Port) (s : State) : (after s (execSyncExchange p s)).mem = s.mem := by simp [execSyncExchange]
@[simp] theorem acceptExchange_mem (s : State) (off : Int) : (acceptExchange s off).mem = s.mem := by simp [acceptExchange]

@[simp] theorem execSync_wf (p : Port) (l : Lane) (ns : Nat) (half : Bool) (s : State) (h : Memory.wf s.mem = true) :
    Memory.wf (after s (execSync p l ns half s)).mem = true := by
  unfold execSync
  generalize 2 * ns + half.toNat = t2
  rw [after_next]
  split
  · exact h
  · next ht =>
    have hu := wf_of_some_pair ht (takeUnit_wf _ _ _ _ h)
    dsimp only
    split
    · rwa [setLevel_mem]
    split
    · rwa [setLevel_mem]
    · rwa [setSyncLink_mem, setLevel_mem]
    · split
      · rwa [setLevel_mem]
      · split
        · split
          · rwa [setSyncLink_mem, setLevel_mem]
          · rwa [acceptExchange_mem, setSyncLink_mem, setLevel_mem]
        · rwa [setSyncLink_mem, setLevel_mem]

@[simp] theorem execSyncLost_wf (s : State) (hmem : Memory.wf s.mem = true) : Memory.wf (after s (execSyncLost s)).mem = true := by
  simp only [execSyncLost]
  (repeat' split) <;> simp [hmem]

/-! ### Device memory through Machine/Laser.lean -/

@[simp] theorem markDone_mem (s : State) (key : Nat) : (markDone s key).mem = s.mem := by simp [markDone]
@[simp] theorem setLockErr_mem (s : State) (e l : Nat) (v : BitVec 8) : (setLockErr s e l v).mem = s.mem := by simp [setLockErr]
@[simp] theorem setFeed_mem (s : State) (e : Nat) (temp : Int) : (setFeed s e temp).mem = s.mem := by simp [setFeed]

@[simp] theorem execFeedforwardUpdate_mem (e : Eng) (temp : BitVec 8) (lock : List (BitVec 8)) (s : State) :
    (after s (execFeedforwardUpdate e temp lock s)).mem = s.mem := by
  simp [execFeedforwardUpdate]

@[simp] theorem execLaneDrop_mem (e : Eng) (l : Lane) (cause : Fin 3) (s : State) : (after s (execLaneDrop e l cause s)).mem = s.mem := by simp [execLaneDrop]

@[simp] theorem execLaneRelock_mem (e : Eng) (l : Lane) (pass : Bool) (s : State) : (after s (execLaneRelock e l pass s)).mem = s.mem := by
  simp [execLaneRelock]

@[simp] theorem execLaneHoldoutEnd_wf (e : Eng) (l : Lane) (s : State)
    (hmem : Memory.wf s.mem = true) : Memory.wf (after s (execLaneHoldoutEnd e l s)).mem = true := by
  simp only [execLaneHoldoutEnd]
  (repeat' split) <;> simp [hmem]

@[simp] theorem execMarginScan_mem (e : Eng) (l : Lane) (s : State) : (after s (execMarginScan e l s)).mem = s.mem := by simp [execMarginScan]

@[simp] theorem execMarginScanEnd_mem (e : Eng) (l : Lane) (ok : Bool) (s : State) : (after s (execMarginScanEnd e l ok s)).mem = s.mem := by
  simp [execMarginScanEnd]

@[simp] theorem sparesExhausted_mem (s : State) (e : Nat) : (sparesExhausted s e).mem = s.mem := by simp [sparesExhausted]

@[simp] theorem keepSource_mem (s : State) (n : Nat) : (keepSource s n).mem = s.mem := by
  simp only [keepSource]
  split <;> simp

@[simp] theorem exhaustRest_mem (s : State) (but : Nat) : (exhaustRest s but).mem = s.mem := by simp [exhaustRest]

@[simp] theorem enterFailing_mem (s : State) (n : Nat) : (enterFailing s n).mem = s.mem := by
  simp only [enterFailing]
  split <;> simp

@[simp] theorem execLaserDriveAdjust_mem (n : Fin 20) (power : BitVec 16) (drive : Fin 101) (s : State) :
    (after s (execLaserDriveAdjust n power drive s)).mem = s.mem := by
  simp [execLaserDriveAdjust]

@[simp] theorem execCombCalibration_mem (n : Fin 20) (ok : Bool) (s : State) : (after s (execCombCalibration n ok s)).mem = s.mem := by
  simp [execCombCalibration]

@[simp] theorem execLaserFading_mem (n : Fin 20) (ber : Bool) (s : State) : (after s (execLaserFading n ber s)).mem = s.mem := by simp [execLaserFading]
@[simp] theorem execLaserFailing_mem (n : Fin 20) (ber : Bool) (s : State) : (after s (execLaserFailing n ber s)).mem = s.mem := by simp [execLaserFailing]

@[simp] theorem execFadingSwapDue_mem (n : Fin 20) (s : State) : (after s (execFadingSwapDue n s)).mem = s.mem := by
  simp only [execFadingSwapDue]
  (repeat' split) <;> simp

@[simp] theorem leaveRedraw_mem (s : State) (p : Nat) : (leaveRedraw s p).mem = s.mem := by
  simp only [leaveRedraw]
  split <;> simp

@[simp] theorem execSwapStart_mem (n : Fin 20) (s : State) : (after s (execSwapStart n s)).mem = s.mem := by
  simp only [execSwapStart]
  split <;> simp

@[simp] theorem setSwap_mem (s : State) (w : Swap) : (setSwap s w).mem = s.mem := by simp [setSwap]
@[simp] theorem retuneSwap_mem (s : State) (e : Nat) : (retuneSwap s e).mem = s.mem := by simp [retuneSwap]

@[simp] theorem execSwapSwitchDone_mem (e : Eng) (s : State) : (after s (execSwapSwitchDone e s)).mem = s.mem := by
  simp only [execSwapSwitchDone]
  split <;> simp

@[simp] theorem execSwapCheckEnd_mem (e : Eng) (passed : BitVec 32) (s : State) : (after s (execSwapCheckEnd e passed s)).mem = s.mem := by
  simp only [execSwapCheckEnd]
  split <;> simp

@[simp] theorem feedFrom_mem (s : State) (e old sp : Nat) : (feedFrom s e old sp).mem = s.mem := by simp [feedFrom]

@[simp] theorem execSwapReturn_mem (e : Eng) (s : State) : (after s (execSwapReturn e s)).mem = s.mem := by
  simp only [execSwapReturn]
  split <;> simp

@[simp] theorem replaceEarly_mem (s : State) (n : Nat) : (replaceEarly s n).mem = s.mem := by
  simp only [replaceEarly]
  split <;> simp

@[simp] theorem execOpticalReady_mem (s : State) : (after s (execOpticalReady s)).mem = s.mem := by simp [execOpticalReady]
@[simp] theorem execSwap_mem (n : Fin 20) (s : State) : (after s (execSwap n s)).mem = s.mem := by simp [execSwap]

@[simp] theorem execLaneRecheck_mem (e : Eng) (passed : BitVec 32) (s : State) : (after s (execLaneRecheck e passed s)).mem = s.mem := by
  simp [execLaneRecheck]

/-! ### Device memory through Machine/Twin.lean -/

@[simp] theorem execTwnLoad_wf (ranges : BitVec 7) (s : State) (hmem : Memory.wf s.mem = true) : Memory.wf (after s (execTwnLoad ranges s)).mem = true := by
  unfold execTwnLoad
  grind [after_next, memRead_wf, onTwin_mem, raise_mem, setF_mem]

@[simp] theorem execEn_mem (on : Bool) (s : State) : (after s (execEn on s)).mem = s.mem := by simp [execEn]

@[simp] theorem execMapExchange_wf (i l : Nat) (crc : BitVec 32) (s : State)
    (hmem : Memory.wf s.mem = true) : Memory.wf (after s (execMapExchange i l crc s)).mem = true := by
  simp [execMapExchange, hmem]

@[simp] theorem execShadowBlockSend_wf (k : ShadowKind) (s : State)
    (hmem : Memory.wf s.mem = true) : Memory.wf (after s (execShadowBlockSend k s)).mem = true := by
  unfold execShadowBlockSend
  grind [after_next, itemData_wf, restoreData_wf, addF_mem, noteSend_mem, onTwin_mem, shadowUe_mem]

@[simp] theorem receiveShadow_wf (s : State) (x : ShadowItem) (data : List Byte) (poison : List Nat)
    (hmem : Memory.wf s.mem = true) : Memory.wf (receiveShadow s x data poison).mem = true := by
  simp only [receiveShadow]
  split <;> simp [hmem]

@[simp] theorem receiveRestore_wf (s : State) (x : ShadowItem) (data : List Byte) (poison : List Nat)
    (hmem : Memory.wf s.mem = true) : Memory.wf (receiveRestore s x data poison).mem = true := by
  simp only [receiveRestore]
  (repeat' split) <;> simp [hmem]

@[simp] theorem execShadowBlockAck_wf (m : ShadowMsg) (s : State)
    (hmem : Memory.wf s.mem = true) : Memory.wf (after s (execShadowBlockAck m s)).mem = true := by
  simp only [execShadowBlockAck]
  split <;> simp [hmem]

@[simp] theorem execAgreementArrive_mem (s : State) : (after s (execAgreementArrive s)).mem = s.mem := by simp [execAgreementArrive]
@[simp] theorem countArrival_mem (s : State) (col : Bool) (j n : Nat) : (countArrival s col j n).mem = s.mem := by simp [countArrival]

@[simp] theorem execAgreementMessage_wf (col : Bool) (j : Fin 64) (step : BitVec 32) (s : State)
    (hmem : Memory.wf s.mem = true) : Memory.wf (after s (execAgreementMessage col j step s)).mem = true := by
  unfold execAgreementMessage
  grind [after_next, takeIn_wf, countArrival_mem, pump_mem]

@[simp] theorem execAgreementClose_mem (s : State) : (after s (execAgreementClose s)).mem = s.mem := by simp [execAgreementClose]
@[simp] theorem execForce_mem (s : State) : (after s (execForce s)).mem = s.mem := by simp [execForce]
@[simp] theorem execTwinLost_mem (s : State) : (after s (execTwinLost s)).mem = s.mem := by simp [execTwinLost]
@[simp] theorem execRestoreTx_mem (s : State) : (after s (execRestoreTx s)).mem = s.mem := by simp [execRestoreTx]
@[simp] theorem execRestoreRx_mem (s : State) : (after s (execRestoreRx s)).mem = s.mem := by simp [execRestoreRx]

@[simp] theorem takeRestored_wf (s : State) (t : Nat) (nf : Bool) (hmem : Memory.wf s.mem = true) : Memory.wf (takeRestored s t nf).mem = true := by
  unfold takeRestored
  simp only [setF_mem]
  refine takeAhead_wf _ ?_
  simp only [resolve_mem]
  exact foldl_wf _ (by simp [memRead_wf, hmem]) fun x g hx => by simp [hx]

@[simp] theorem execRestoreEnd_wf (s : State) (hmem : Memory.wf s.mem = true) : Memory.wf (after s (execRestoreEnd s)).mem = true := by
  simp only [execRestoreEnd]
  split <;> simp [hmem]

/-! ### Device memory through Machine/Host.lean -/

@[simp] theorem onHost_mem (s : State) (f : HostIf → HostIf) : (State.onHost s f).mem = s.mem := by simp [State.onHost]

@[simp] theorem execHostStagingWrite_wf (off : BitVec 36) (data : List Byte) (s : State)
    (hmem : Memory.wf s.mem = true) : Memory.wf (after s (execHostStagingWrite off data s)).mem = true := by
  unfold execHostStagingWrite
  grind [after_next, memWrite_wf, setLeaf_mem]

@[simp] theorem stagePiece_wf (s : State) (p : Nat × Nat) (hmem : Memory.wf s.mem = true) : Memory.wf (stagePiece s p).mem = true := by
  unfold stagePiece
  grind [memRead_wf, freshBytes_mem, setLeaf_mem]

@[simp] theorem execHostStagingRead_wf (off : BitVec 36) (n : Fin 4097) (s : State)
    (hmem : Memory.wf s.mem = true) : Memory.wf (after s (execHostStagingRead off n s)).mem = true := by
  unfold execHostStagingRead
  have hf (l : List (Nat × Nat)) : Memory.wf (l.foldl stagePiece s).mem = true := foldl_wf _ hmem fun x p hx => stagePiece_wf _ _ hx
  grind [after_next, setLeaf_mem]

@[simp] theorem hstStage_mem (s : State) (v : Nat) : (hstStage s v).mem = s.mem := by simp [hstStage]
@[simp] theorem execHstStageWrite_mem (v : BitVec 32) (s : State) : (after s (execHstStageWrite v s)).mem = s.mem := by simp [execHstStageWrite]
@[simp] theorem setReply_mem (s : State) (n v : Nat) : (setReply s n v).mem = s.mem := by simp [setReply]
@[simp] theorem execDbSlotRing_mem (n : Fin 512) (s : State) : (after s (execDbSlotRing n s)).mem = s.mem := by simp [execDbSlotRing]

@[simp] theorem execDbSlotDone_mem (n : Fin 512) (s : State) : (after s (execDbSlotDone n s)).mem = s.mem := by
  simp only [execDbSlotDone]
  (repeat' split) <;> simp

@[simp] theorem msixUnmask_mem (s : State) : (msixUnmask s).mem = s.mem := by simp [msixUnmask]
@[simp] theorem execMsixUnmask_mem (s : State) : (after s (execMsixUnmask s)).mem = s.mem := by simp [execMsixUnmask]

@[simp] theorem putPlain_mem (s : State) (off v : Nat) : (putPlain s off v).mem = s.mem := by
  simp only [putPlain]
  (repeat' split) <;> simp

/-! ### Device memory through Machine/Memory.lean -/

@[simp] theorem gainError_wf (s : State) (u : Nat) (e : List (Fin 67 × BitVec 8))
    (hmem : Memory.wf s.mem = true) : Memory.wf (gainError s u e).mem = true := by
  unfold gainError
  grind [setErr_wf]

@[simp] theorem answer_mem (s : State) (d : List Byte) (bad : Bool) : (answer s d bad).mem = s.mem := by simp [answer]

theorem spoil_wf (s : State) (u : Nat) (e : BitVec 39) (h : Memory.wf s.mem = true) : Memory.wf (spoil s u e).mem = true := by
  unfold spoil
  split
  · exact h
  · exact h

@[simp] theorem execMemRead_wf (a : Nat) (err : ReadErr) (s : State) (h : Memory.wf s.mem = true) : Memory.wf (after s (execMemRead a err s)).mem = true := by
  unfold execMemRead
  split
  · exact h
  · dsimp only
    rw [after_next, answer_mem]
    exact memRead_wf _ _ _ (spoil_wf _ _ _ (gainError_wf _ _ _ (afterChange_wf _ _ h)))

@[simp] theorem execMemWrite_wf (a : Nat) (b : List Byte) (err : WriteErr) (s : State) (h : Memory.wf s.mem = true) :
    Memory.wf (after s (execMemWrite a b err s)).mem = true := by
  unfold execMemWrite
  split
  · exact h
  · exact memWriteP_wf _ _ _ _ (spoil_wf _ _ _ h)

@[simp] theorem execCorrectiveWrite_wf (a : Nat) (s : State) (h : Memory.wf s.mem = true) :
    Memory.wf (after s (execCorrectiveWrite a s)).mem = true := by
  have ha := afterChange_wf s (a / 64) h
  unfold execCorrectiveWrite
  split
  · exact h
  · dsimp only
    rw [after_next]
    split
    · exact ha
    · split
      · exact ha
      · exact ha

@[simp] theorem execEddyAccess_wf (a n : Nat) (hint : Fin 4) (w : Option (List Byte)) (s : State)
    (hmem : Memory.wf s.mem = true) : Memory.wf (after s (execEddyAccess a n hint w s)).mem = true := by
  unfold execEddyAccess
  grind [after_next, after_fault, afterChange_wf, lineRead_wf, lineWrite_wf, answer_mem]

@[simp] theorem execDramScrub_wf (a : Nat) (err : List (Fin 67 × BitVec 8)) (last : Bool) (s : State) (h : Memory.wf s.mem = true) :
    Memory.wf (after s (execDramScrub a err last s)).mem = true := by
  unfold execDramScrub
  split
  · exact h
  · dsimp only
    rw [after_next]
    split
    · exact h
    · generalize hg : gainError (afterChange _ _) _ _ = u
      have hu : Memory.wf u.mem = true := by
        rw [← hg]
        exact gainError_wf _ _ _ (afterChange_wf _ _ h)
      have counted (x : State) (hx : Memory.wf x.mem = true) : Memory.wf (if last then addF x fMEM_SCRUB_PASSES_DRAM 1 else x).mem = true := by
        split
        · rwa [addF_mem]
        · exact hx
      refine counted _ ?_
      split
      · exact hu
      · exact noteCorrection_wf _ _ _ (by rwa [countCorrected_mem])
      · rwa [countBad_mem]

theorem sramError_wf (s : State) (w : SramAt) (h : Memory.wf s.mem = true) : Memory.wf (sramError s w).mem = true := by
  cases w with
  | eddy line =>
    dsimp only [sramError]
    split
    · exact h
    split
    · exact dropLine_wf _ _ (writeBackLine_wf _ _ _ (by rwa [sramUe_mem]))
    · generalize hf : fetchLine (dropLine (sramCe s) line) line = f
      have hw : Memory.wf f.2.mem = true := by
        rw [← hf]
        exact fetchLine_wf _ _ (dropLine_wf _ _ (by rwa [sramCe_mem]))
      exact hw
  | directory e => rwa [sramError, entryLost_mem, sramUe_mem]
  | streamBuf t slot i =>
    dsimp only [sramError]
    split
    · exact h
    · rwa [addF_mem, onTile_mem, sramUe_mem]
  | operandCache t n =>
    dsimp only [sramError]
    split
    · exact h
    · rwa [onTile_mem, sramUe_mem]
  | registers t w =>
    dsimp only [sramError]
    split
    · exact h
    · rwa [onTile_mem, sramUe_mem]
  | postmaster =>
    dsimp only [sramError]
    split
    · rwa [restartPm_mem, freshWord_mem]
    · exact h
  | replay k i =>
    dsimp only [sramError]
    split
    · split
      · exact h
      · exact dropPacket_wf _ _ (by rwa [setHop_mem, sramUe_mem])
    · exact h
  | datapath u => exact h

@[simp] theorem sramRewrite_mem (s : State) (w : SramAt) (d : BitVec 32) : (sramRewrite s w d).mem = s.mem := by
  simp only [sramRewrite]
  split <;> simp

theorem readSram_wf (s : State) (w : SramAt) (e : BitVec 39) (h : Memory.wf s.mem = true) : Memory.wf (readSram s w e).mem = true := by
  -- The code stays opaque: unfolded in place, the kernel would evaluate it.
  suffices key : ∀ f, f = @readSram → Memory.wf (f s w e).mem = true from key _ rfl
  intro f hf
  delta readSram at hf
  obtain ⟨dec, hdec⟩ : ∃ d, d = @decodeWord := ⟨_, rfl⟩
  rw [← hdec] at hf
  subst hf
  dsimp only
  generalize dec _ = o
  cases o with
  | clean => exact (congrArg Memory.wf (sramRewrite_mem _ _ _)).trans h
  | corrected i => exact (congrArg Memory.wf (sramRewrite_mem _ _ _)).trans (wf_if (by rwa [sramCe_mem]) h)
  | uncorrectable => exact sramError_wf _ _ h

theorem sramPass_wf (s : State) (w : SramAt) (last : Bool) (h : Memory.wf s.mem = true) : Memory.wf (sramPass s w last).mem = true := by
  unfold sramPass
  dsimp only
  split
  · exact h
  · exact h
  · rwa [setDie_mem]
  · exact h

@[simp] theorem execSramScrub_wf (w : SramAt) (e : BitVec 39) (last : Bool) (s : State) (h : Memory.wf s.mem = true) :
    Memory.wf (after s (execSramScrub w e last s)).mem = true := by
  unfold execSramScrub
  rw [after_next]
  split
  · exact h
  split
  · exact spoil_wf _ _ _ h
  · exact readSram_wf _ _ _ h
  · have hr := readSram_wf _ w e (sramPass_wf s w last h)
    exact wf_if ((congrArg Memory.wf (addF_mem _ _ _)).trans hr) hr

@[simp] theorem execMemQuadWrite_wf (q : Fin 34) (v : BitVec 32) (s : State) (h : Memory.wf s.mem = true) :
    Memory.wf (after s (execMemQuadWrite q v s)).mem = true := by
  unfold execMemQuadWrite
  rw [after_next]
  dsimp only
  split
  · exact h
  · exact h

@[simp] theorem execQuadModeChangeDone_wf (q : Fin 34) (s : State)
    (hmem : Memory.wf s.mem = true) : Memory.wf (after s (execQuadModeChangeDone q s)).mem = true := by
  unfold execQuadModeChangeDone
  grind [after_next, quadApply_wf]

/-! ### Device memory through Machine/Observe.lean -/

@[simp] theorem onObs_mem (s : State) (f : Obs → Obs) : (State.onObs s f).mem = s.mem := by simp [State.onObs]
@[simp] theorem checkSel_mem (s : State) : (checkSel s).mem = s.mem := by simp [checkSel]
@[simp] theorem execSnap_mem (s : State) : (after s (execSnap s)).mem = s.mem := by simp [execSnap]

@[simp] theorem execSnapDone_mem (s : State) : (after s (execSnapDone s)).mem = s.mem := by
  simp only [execSnapDone]
  split <;> simp

@[simp] theorem execTraceStart_mem (s : State) : (after s (execTraceStart s)).mem = s.mem := by simp [execTraceStart]
@[simp] theorem execTraceStop_mem (s : State) : (after s (execTraceStop s)).mem = s.mem := by simp [execTraceStop]
@[simp] theorem execTraceDrainDone_mem (s : State) : (after s (execTraceDrainDone s)).mem = s.mem := by simp [execTraceDrainDone]
@[simp] theorem execSamplerFire_mem (s : State) : (after s (execSamplerFire s)).mem = s.mem := by simp [execSamplerFire]
@[simp] theorem dropTrace_mem (s : State) : (dropTrace s).mem = s.mem := by simp [dropTrace]

@[simp] theorem putTrace_wf (s : State) (r : TraceRec) (hmem : Memory.wf s.mem = true) : Memory.wf (putTrace s r).2.mem = true := by
  unfold putTrace
  grind [memWriteH_wf, onObs_mem, setF_mem]

@[simp] theorem execTraceRecordWrite_wf (s : State) (hmem : Memory.wf s.mem = true) : Memory.wf (after s (execTraceRecordWrite s)).mem = true := by
  simp only [execTraceRecordWrite]
  split <;> simp [hmem]

@[simp] theorem execObsTraceSel_mem (seq : BitVec 32) (s : State) : (after s (execObsTraceSel seq s)).mem = s.mem := by simp [execObsTraceSel]
@[simp] theorem execObsTraceRead_mem (seq : BitVec 32) (s : State) : (after s (execObsTraceRead seq s)).mem = s.mem := by simp [execObsTraceRead]

@[simp] theorem execTraceSelDataReady_wf (s : State) (hmem : Memory.wf s.mem = true) : Memory.wf (after s (execTraceSelDataReady s)).mem = true := by
  simp only [execTraceSelDataReady]
  split
  · exact hmem
  split
  · exact hmem
  have ho (f : Obs → Obs) : Memory.wf (s.onObs f).mem = true := by simpa using hmem
  split
  all_goals
    simp only [after_next]
    with_reducible refine foldl_wf _ ?_ fun x i hx => by rwa [setF_mem]
  · exact memRead_wf _ _ _ (ho _)
  · simpa using hmem

/-! ### Device memory through Machine/Power.lean -/

@[simp] theorem execRailTrip_wf (mon : Fin 24) (kind : Fin 3) (reading : BitVec 32) (s : State)
    (hmem : Memory.wf s.mem = true) : Memory.wf (after s (execRailTrip mon kind reading s)).mem = true := by
  unfold execRailTrip
  grind [after_next, railFault_wf, railOffDie_mem]

@[simp] theorem execDvfsDecide_mem (d : Die) (power : Nat) (tj tjMax : Int) (s : State) : (after s (execDvfsDecide d power tj tjMax s)).mem = s.mem := by
  simp [execDvfsDecide]

@[simp] theorem execDvfsPinWrite_mem (d : Die) (value : BitVec 32) (s : State) : (after s (execDvfsPinWrite d value s)).mem = s.mem := by
  simp [execDvfsPinWrite]

@[simp] theorem execFcodeChangeDone_mem (d : Die) (s : State) : (after s (execFcodeChangeDone d s)).mem = s.mem := by simp [execFcodeChangeDone]

@[simp] theorem copySamples_mem (s : State) (held : Nat → Bool) (n : Nat) (l : List Nat) (valid value : Nat → Fld) :
    (copySamples s held n l valid value).mem = s.mem := by
  simp [copySamples]

@[simp] theorem stackHot_mem (s : State) (t : Int) : (stackHot s t).mem = s.mem := by simp [stackHot]

@[simp] theorem execTelemetryCopy_mem (temps : List Int) (volts currs engines : List Nat) (stackTemps : List Int) (s : State) :
    (after s (execTelemetryCopy temps volts currs engines stackTemps s)).mem = s.mem := by
  simp [execTelemetryCopy]

@[simp] theorem execThermThrottle_mem (d : Die) (tj base eng stackA stackB : Int) (s : State) :
    (after s (execThermThrottle d tj base eng stackA stackB s)).mem = s.mem := by
  simp [execThermThrottle]

@[simp] theorem execThermGateRotation_mem (d : Die) (tj : Int) (s : State) : (after s (execThermGateRotation d tj s)).mem = s.mem := by
  simp only [execThermGateRotation]
  (repeat' split) <;> simp

@[simp] theorem execThermLimit_mem (d : Die) (tj : Int) (s : State) : (after s (execThermLimit d tj s)).mem = s.mem := by simp [execThermLimit]

@[simp] theorem execThermTrip_wf (diode : Fin 40) (temp : Int) (s : State)
    (hmem : Memory.wf s.mem = true) : Memory.wf (after s (execThermTrip diode temp s)).mem = true := by
  unfold execThermTrip
  grind [after_next, tripRails_wf, postEvent_mem, railOffDie_mem, raise_mem]

@[simp] theorem execStackRefreshChange_mem (k : Fin 8) (temp : Int) (s : State) : (after s (execStackRefreshChange k temp s)).mem = s.mem := by
  simp [execStackRefreshChange]

theorem mem_if {c : Prop} [Decidable c] {f g : State} {m : Mem} (hf : f.mem = m) (hg : g.mem = m) : (if c then f else g).mem = m := by
  split
  · exact hf
  · exact hg

@[simp] theorem execBucketUpdate_mem (power : Nat) (s : State) : (after s (execBucketUpdate power s)).mem = s.mem := by
  unfold execBucketUpdate
  rw [after_next]
  exact mem_if rfl (mem_if rfl rfl)

@[simp] theorem execRunTimerExpiry_mem (s : State) : (after s (execRunTimerExpiry s)).mem = s.mem := by simp [execRunTimerExpiry]
@[simp] theorem execCurrCeilingLower_mem (s : State) : (after s (execCurrCeilingLower s)).mem = s.mem := by simp [execCurrCeilingLower]
@[simp] theorem execRunTimerRemoval_mem (s : State) : (after s (execRunTimerRemoval s)).mem = s.mem := by simp [execRunTimerRemoval]
@[simp] theorem execCurrCeilingRaise_mem (s : State) : (after s (execCurrCeilingRaise s)).mem = s.mem := by simp [execCurrCeilingRaise]

@[simp] theorem execFastPath_mem (s : State) : (after s (execFastPath s)).mem = s.mem := by
  simp only [execFastPath]
  split <;> simp

@[simp] theorem execSluiceEstimate_mem (d : Die) (issue : List (Nat × Nat)) (port : List Nat) (s : State) :
    (after s (execSluiceEstimate d issue port s)).mem = s.mem := by
  simp [execSluiceEstimate]

@[simp] theorem execSluiceCalibration_mem (d : Die) (table : List Nat) (s : State) : (after s (execSluiceCalibration d table s)).mem = s.mem := by
  simp [execSluiceCalibration]

@[simp] theorem execCouplingRefine_mem (model : List Nat) (s : State) : (after s (execCouplingRefine model s)).mem = s.mem := by simp [execCouplingRefine]

@[simp] theorem execDroopStretch_mem (c : Cluster) (mv : Nat) (s : State) : (after s (execDroopStretch c mv s)).mem = s.mem := by
  simp only [execDroopStretch]
  (repeat' split) <;> simp

@[simp] theorem execVinRange_mem (mv : Nat) (s : State) : (after s (execVinRange mv s)).mem = s.mem := by simp [execVinRange]

/-! ### Device memory through Machine/Task.lean -/

@[simp] theorem execWaitTimeout_mem (t : Tid) (u : UnitNo) (s : State) : (after s (execWaitTimeout t u s)).mem = s.mem := by
  unfold execWaitTimeout
  rw [after_next]
  refine sameCycle_mem _ _ _ fun x => ?_
  dsimp only
  (repeat' split) <;> simp

@[simp] theorem landStores_wf (s : State) (t : Nat) (hmem : Memory.wf s.mem = true) : Memory.wf (landStores s t).mem = true := by
  unfold landStores
  dsimp only
  with_reducible refine foldl_wf _ (foldl_wf _ hmem fun x o hx => ?_) fun x m hx => ?_
  · grind [memReadH_wf, memWriteH_wf]
  · grind [doWrites_wf]

@[simp] theorem stopSaves_wf (s : State) (t : Nat) (hmem : Memory.wf s.mem = true) : Memory.wf (stopSaves s t).mem = true := by
  exact foldl_wf _ hmem fun x r hx => by grind [mixture_wf]

@[simp] theorem stopTraffic_mem (s : State) (t : Nat) : (stopTraffic s t).mem = s.mem := by simp [stopTraffic]

@[simp] theorem execTaskAbortEnd_wf (t : Tid) (s : State) (hmem : Memory.wf s.mem = true) : Memory.wf (after s (execTaskAbortEnd t s)).mem = true := by
  have hl : Memory.wf (stopSaves ((s.tile t).str.run.foldl (fun s r => endMixture s t r) (landStores s t)) t).mem = true :=
    stopSaves_wf _ _ (foldl_wf _ (landStores_wf _ _ hmem) fun x r hx => endMixture_wf _ _ _ hx)
  unfold execTaskAbortEnd
  dsimp only
  split
  · exact hmem
  simp only [after_next, setTileLeaf_mem, postNotice_mem, onTile_mem, taskEnd_mem, stopTraffic_mem]
  split
  · exact writeBackLands_wf _ _ hl
  · exact loadLands_wf _ _ hl
  · exact hl

/-! ### Device memory through Machine/Package.lean -/

@[simp] theorem setWeir_mem (s : State) (d link : Nat) (down : Bool) (x : WeirDir) : (setWeir s d link down x).mem = s.mem := by simp [setWeir]

@[simp] theorem takeSideband_mem (s : State) (d link : Nat) (down : Bool) (f : List Byte) : (takeSideband s d link down f).mem = s.mem := by
  simp [takeSideband]

@[simp] theorem execWeirFlit_mem (d : Die) (link : Fin 42) (down : Bool) (flit : List Byte) (err : List (Nat × Byte)) (s : State) :
    (after s (execWeirFlit d link down flit err s)).mem = s.mem := by
  simp only [execWeirFlit]
  (repeat' split) <;> simp

@[simp] theorem execWeirNak_mem (d : Die) (link : Fin 42) (down : Bool) (s : State) : (after s (execWeirNak d link down s)).mem = s.mem := by
  simp [execWeirNak]

@[simp] theorem execWeirLinkFail_mem (d : Die) (link : Fin 42) (silent : Bool) (s : State) : (after s (execWeirLinkFail d link silent s)).mem = s.mem := by
  simp [execWeirLinkFail]

@[simp] theorem execClockLost_mem (d : Die) (s : State) : (after s (execClockLost d s)).mem = s.mem := by simp [execClockLost]

@[simp] theorem settleWrites_wf (s : State) (t : Nat) (hmem : Memory.wf s.mem = true) : Memory.wf (settleWrites s t).mem = true := by
  have hone {s : State} {f : State → State} (hs : Memory.wf s.mem = true) (hf : ∀ x, Memory.wf x.mem = true → Memory.wf (f x).mem = true) :
      Memory.wf (if (freshBool s).1 = true then f (freshBool s).2 else (freshBool s).2).mem = true :=
    ite_keeps (fun s : State => Memory.wf s.mem = true) (hf _ (by simpa using hs)) (by simpa using hs)
  unfold settleWrites
  dsimp only
  split
  all_goals
    try with_reducible refine mixture_wf _ _ _ _ ?_
    with_reducible refine stopSaves_wf _ _ ?_
    with_reducible refine foldl_wf _ ?_ fun x r hx => endMixture_wf _ _ _ hx
    with_reducible refine foldl_wf _ ?_ fun x m hx => ?_
    · with_reducible refine foldl_wf _ hmem fun x o hx => ?_
      split
      · exact hone hx fun y hy => memWriteH_wf _ _ _ _ _ hy
      · exact hx
      · exact hx
      · exact hone (f := fun y => memWriteH _ (memReadH y _ _ _).s _ (toBytes _ (atomicNew _ (BitVec.ofNat 64 (ofBytes (memReadH y _ _ _).data))).toNat) _)
          hx fun y hy => memWriteH_wf _ _ _ _ _ (memReadH_wf _ _ _ _ hy)
    · split
      · with_reducible refine foldl_wf _ hx fun y w hy => ?_
        exact hone hy fun z hz => doWrites_wf _ _ _ _ hz
      · exact hx

@[simp] theorem execDieLossFence_wf (d : Die) (s : State) (hmem : Memory.wf s.mem = true) : Memory.wf (after s (execDieLossFence d s)).mem = true := by
  unfold execDieLossFence
  dsimp only
  split
  · exact hmem
  · simp only [after_next, setDie_mem]
    exact foldl_wf _ (foldl_wf _ hmem fun x t hx => by simpa using settleWrites_wf _ _ hx) fun x t hx => by simpa using hx

@[simp] theorem execDieLostNotice_mem (d : Die) (s : State) : (after s (execDieLostNotice d s)).mem = s.mem := by
  simp only [execDieLostNotice]
  split <;> simp

@[simp] theorem startAttempt_mem (s : State) (d : Nat) : (startAttempt s d).mem = s.mem := by simp [startAttempt]
@[simp] theorem startDies_mem (s : State) : (startDies s).mem = s.mem := by simp [startDies]
@[simp] theorem execResetAttemptStart_mem (d : Die) (s : State) : (after s (execResetAttemptStart d s)).mem = s.mem := by simp [execResetAttemptStart]

@[simp] theorem endStage_mem {go : State → State} (d : Nat) (now_ : Stage) (no wait : Nat) (ok : Bool) (next_ : Stage) (s : State)
    (hg : ∀ x, (go x).mem = x.mem) :
    (Machine.after s (endStage d now_ no wait ok go next_ s)).mem = s.mem := by
  unfold endStage
  rw [after_next]
  split
  · split
    · rfl
    split
    · exact failAttempt_mem _ _ _
    · dsimp only
      rw [setDie_mem, hg]
  · rfl

@[simp] theorem clustersOff_mem (s : State) (d : Nat) : (clustersOff s d).mem = s.mem := by simp [clustersOff]

@[simp] theorem execAttemptResetEnd_mem (d : Die) (ok : Bool) (s : State) : (after s (execAttemptResetEnd d ok s)).mem = s.mem := by
  simp [execAttemptResetEnd]

@[simp] theorem execAttemptClockLock_mem (d : Die) (ok : Bool) (s : State) : (after s (execAttemptClockLock d ok s)).mem = s.mem :=
  endStage_mem _ _ _ _ _ _ _ fun _ => setF_mem _ _ _

@[simp] theorem execAttemptTrainEnd_mem (d : Die) (l : List (Fin 42)) (s : State) : (after s (execAttemptTrainEnd d l s)).mem = s.mem := by
  unfold execAttemptTrainEnd
  refine endStage_mem _ _ _ _ _ _ _ fun x => ?_
  simp only [setF_mem, setDie_mem]

@[simp] theorem clustersRun_mem (s : State) (d : Nat) : (clustersRun s d).mem = s.mem := by
  unfold clustersRun
  exact foldl_mem _ _ _ fun x b => by simp

@[simp] theorem execAttemptClearEnd_mem (d : Die) (ok : Bool) (s : State) : (after s (execAttemptClearEnd d ok s)).mem = s.mem := by
  simp [execAttemptClearEnd]

@[simp] theorem execAttemptSelfTestEnd_mem (d : Die) (ok : Bool) (s : State) : (after s (execAttemptSelfTestEnd d ok s)).mem = s.mem := by
  simp [execAttemptSelfTestEnd]

@[simp] theorem execAttemptCheck_mem (d : Die) (stepping : BitVec 8) (features : BitVec 64) (s : State) :
    (after s (execAttemptCheck d stepping features s)).mem = s.mem := by
  simp only [execAttemptCheck]
  split <;> simp

@[simp] theorem execReset_mem (d : Die) (s : State) : (after s (execReset d s)).mem = s.mem := by simp [execReset]
@[simp] theorem execRefLost_mem (s : State) : (after s (execRefLost s)).mem = s.mem := by simp [execRefLost]
@[simp] theorem execRefRestore_mem (s : State) : (after s (execRefRestore s)).mem = s.mem := by simp [execRefRestore]
@[simp] theorem execGateEntry_mem (c : Cluster) (s : State) : (after s (execGateEntry c s)).mem = s.mem := by simp [execGateEntry]
@[simp] theorem execNapEntry_mem (c : Cluster) (s : State) : (after s (execNapEntry c s)).mem = s.mem := by simp [execNapEntry]
@[simp] theorem execWakeEvent_mem (c : Cluster) (s : State) : (after s (execWakeEvent c s)).mem = s.mem := by simp [execWakeEvent]

@[simp] theorem execClusterWakeDone_wf (c : Cluster) (s : State)
    (hmem : Memory.wf s.mem = true) : Memory.wf (after s (execClusterWakeDone c s)).mem = true := by
  simp only [execClusterWakeDone]
  split
  · exact hmem
  · split
    · exact hmem
    · exact foldl_wf _ (by simpa using hmem) fun x t hx => by simpa using hx

@[simp] theorem execReqOff_wf (c : Cluster) (s : State) (hmem : Memory.wf s.mem = true) : Memory.wf (after s (execReqOff c s)).mem = true := by
  simp only [execReqOff]
  split
  · simpa using hmem
  split
  · exact hmem
  simp only [after_next]
  with_reducible refine foldl_wf _ ?_ fun x t hx => by simpa using hx
  simpa using hmem

@[simp] theorem execReqLeaveOff_mem (c : Cluster) (s : State) : (after s (execReqLeaveOff c s)).mem = s.mem := by simp [execReqLeaveOff]

/-! ### Device memory through Machine/Startup.lean -/

@[simp] theorem execVinApply_mem (s : State) : (after s (execVinApply s)).mem = s.mem := by simp [execVinApply]
@[simp] theorem execPwrEnRise_mem (slot : Fin 64) (testEn : Bool) (s : State) : (after s (execPwrEnRise slot testEn s)).mem = s.mem := by simp [execPwrEnRise]

@[simp] theorem execVaonReady_wf (ramp : Nat) (s : State) (hmem : Memory.wf s.mem = true) : Memory.wf (after s (execVaonReady ramp s)).mem = true := by
  unfold execVaonReady
  grind [after_next, unpowered_wf, coldBoot_mem, manufactured_mem, onPm_mem]

@[simp] theorem execPwrEnFall_mem (s : State) : (after s (execPwrEnFall s)).mem = s.mem := by simp [execPwrEnFall]

@[simp] theorem execRailsOff_wf (s : State) (hmem : Memory.wf s.mem = true) : Memory.wf (after s (execRailsOff s)).mem = true := by
  unfold execRailsOff
  grind [after_next, railsDown_wf]

@[simp] theorem execVaonOff_wf (s : State) (hmem : Memory.wf s.mem = true) : Memory.wf (after s (execVaonOff s)).mem = true := by
  unfold execVaonOff
  grind [after_next, unpowered_wf]

@[simp] theorem execVinShutdown_wf (mv : Nat) (s : State) (hmem : Memory.wf s.mem = true) : Memory.wf (after s (execVinShutdown mv s)).mem = true := by
  unfold execVinShutdown
  grind [after_next, railFault_wf]

@[simp] theorem execVinLoss_wf (s : State) (hmem : Memory.wf s.mem = true) : Memory.wf (after s (execVinLoss s)).mem = true := by
  unfold execVinLoss
  grind [after_next, unpowered_wf]

@[simp] theorem execModRstNAssert_wf (s : State) (hmem : Memory.wf s.mem = true) : Memory.wf (after s (execModRstNAssert s)).mem = true := by
  unfold execModRstNAssert
  grind [after_next, railsDown_wf, onPins_mem, resetRegs_mem, setF_mem, setStage_mem, stopFirmware_mem]

@[simp] theorem execModRstNDeassert_mem (slot : Fin 64) (testEn : Bool) (s : State) : (after s (execModRstNDeassert slot testEn s)).mem = s.mem := by
  simp [execModRstNDeassert]

@[simp] theorem execTestEnRise_mem (s : State) : (after s (execTestEnRise s)).mem = s.mem := by simp [execTestEnRise]
@[simp] theorem resetEndpoint_mem (s : State) : (resetEndpoint s).mem = s.mem := by simp [resetEndpoint]
@[simp] theorem execPerstN_mem (low : Bool) (s : State) : (after s (execPerstN low s)).mem = s.mem := by simp [execPerstN]
@[simp] theorem execFunctionLevelReset_mem (s : State) : (after s (execFunctionLevelReset s)).mem = s.mem := by simp [execFunctionLevelReset]
@[simp] theorem execRailSequenceDone_mem (s : State) : (after s (execRailSequenceDone s)).mem = s.mem := by simp [execRailSequenceDone]

@[simp] theorem execBaseResetRelease_mem (stepping : BitVec 8) (present : BitVec 4) (s : State) :
    (after s (execBaseResetRelease stepping present s)).mem = s.mem := by
  simp [execBaseResetRelease]

@[simp] theorem execOpticalEnable_mem (s : State) : (after s (execOpticalEnable s)).mem = s.mem := by simp [execOpticalEnable]
@[simp] theorem execMemoryTrainingDone_mem (ok : Bool) (s : State) : (after s (execMemoryTrainingDone ok s)).mem = s.mem := by simp [execMemoryTrainingDone]

@[simp] theorem execStackedZeroDone_wf (s : State) (h : Memory.wf s.mem = true) : Memory.wf (after s (execStackedZeroDone s)).mem = true := by
  unfold execStackedZeroDone
  rw [after_next]
  split
  · exact h
  · exact h

@[simp] theorem execSteppingCheck_mem (s : State) : (after s (execSteppingCheck s)).mem = s.mem := by simp [execSteppingCheck]
@[simp] theorem execFtlRebuildDone_mem (excluded : Fin 17) (s : State) : (after s (execFtlRebuildDone excluded s)).mem = s.mem := by simp [execFtlRebuildDone]

@[simp] theorem execLpddrZeroDone_wf (s : State) (h : Memory.wf s.mem = true) : Memory.wf (after s (execLpddrZeroDone s)).mem = true := by
  unfold execLpddrZeroDone
  rw [after_next]
  split
  · rw [tryReady_mem, onBoot_mem]
    exact h
  · exact h

@[simp] theorem execBoundaryScanTck_mem (tms : TestIn) (tdi : Bool) (s : State) : (after s (execBoundaryScanTck tms tdi s)).mem = s.mem := by
  simp [execBoundaryScanTck]

/-! ### Device memory through Machine/Csr.lean -/

@[simp] theorem setHalves_mem (s : State) (off : Nat) (h : Halves) : (setHalves s off h).mem = s.mem := by simp [setHalves]
@[simp] theorem clearRc_mem (s : State) (r : RegDef) (off : Nat) : (clearRc s r off).mem = s.mem := by simp [clearRc]

@[simp] theorem csrRead32_mem (s : State) (off : Nat) : (csrRead32 s off).2.mem = s.mem := by
  simp only [csrRead32]
  (repeat' split) <;> simp

@[simp] theorem csrRead_mem (s : State) (off : Nat) (width : AccessWidth) : (csrRead s off width).2.mem = s.mem := by
  simp only [csrRead]
  (repeat' split) <;> simp

@[simp] theorem putField_mem (r : RegDef) (off v : Nat) (s : State) (f : FieldDef) : (putField r off v s f).mem = s.mem := by
  simp only [putField]
  split <;> simp

@[simp] theorem clusterWrite_wf (s : State) (c v : Nat) (hmem : Memory.wf s.mem = true) : Memory.wf (clusterWrite s c v).mem = true := by
  simp only [clusterWrite]
  (repeat' split) <;> simp [hmem]

theorem OptWf.ite {c : Prop} [Decidable c] {o p : Option State} (ho : OptWf o) (hp : OptWf p) : OptWf (if c then o else p) := by
  split
  · exact ho
  · exact hp

theorem wf_of_mem {s u : State} (hu : u.mem = s.mem) (h : Memory.wf s.mem = true) : Memory.wf u.mem = true := by rwa [hu]

theorem wholeRow_wf (s : State) (off v : Nat) (h : Memory.wf s.mem = true) : OptWf (wholeRow s off v) := by
  unfold wholeRow
  refine .ite (.some (wf_if ?_ (wf_if ?_ h))) <| .ite (.some ?_) <| .ite (.some ?_) <| .ite (.some ?_) <| .ite (.some ?_) <| .ite (.some ?_) <|
    .ite (.some ?_) <| .ite (.some ?_) <| .ite (.some ?_) <| .ite (.some ?_) <| .ite (.some (wf_if ?_ h)) <| .ite (.some (wf_if ?_ h)) .none
  · exact wf_of_mem (execStart_mem _ _ _) h
  · exact wf_of_mem (execHostAbort_mem _ _) h
  · exact wf_of_mem (execStrSplitWrite_mem _ _ _) h
  · exact execMemQuadWrite_wf _ _ _ h
  · exact execTierLoad_wf _ _ h
  · exact wf_of_mem (execDvfsPinWrite_mem _ _ _) h
  · exact clusterWrite_wf _ _ _ h
  · exact wf_of_mem (execPmLogSel_mem _ _) h
  · exact wf_of_mem (execObsTraceSel_mem _ _) h
  · exact wf_of_mem (execObsTraceRead_mem _ _) h
  · exact wf_of_mem (hstStage_mem _ _) h
  · exact execDbLoad_wf _ h
  · exact wf_of_mem (execDbSlotRing_mem _ _) h

@[simp] theorem fwCtl_wf (s : State) (v : Nat) (hmem : Memory.wf s.mem = true) : Memory.wf (fwCtl s v).mem = true := by simp [fwCtl, hmem]
@[simp] theorem twnCtl_wf (s : State) (v : Nat) (hmem : Memory.wf s.mem = true) : Memory.wf (twnCtl s v).mem = true := by simp [twnCtl, hmem]

@[simp] theorem afterWrite_wf (s : State) (off v : Nat) (hmem : Memory.wf s.mem = true) : Memory.wf (afterWrite s off v).mem = true := by
  simp [afterWrite, hmem]

@[simp] theorem regWrite_wf (s : State) (r : RegDef) (off v : Nat) (hmem : Memory.wf s.mem = true) : Memory.wf (regWrite s r off v).mem = true := by
  unfold regWrite
  have hf : Memory.wf (edge s (r.fields.foldl (putField r off v) s)).mem = true := by simp [hmem]
  have := wholeRow_wf s off v hmem
  grind [afterWrite_wf, OptWf]

@[simp] theorem csrWrite32_wf (s : State) (off v : Nat) (hmem : Memory.wf s.mem = true) : Memory.wf (csrWrite32 s off v).mem = true := by
  simp only [csrWrite32]
  (repeat' split) <;> simp [hmem]

@[simp] theorem csrWrite64_wf (s : State) (off v : Nat) (hmem : Memory.wf s.mem = true) : Memory.wf (csrWrite64 s off v).mem = true := by
  simp only [csrWrite64]
  (repeat' split) <;> simp [hmem]

@[simp] theorem csrWrite_wf (s : State) (off : Nat) (width : AccessWidth) (v : Nat)
    (hmem : Memory.wf s.mem = true) : Memory.wf (csrWrite s off width v).mem = true := by
  simp only [csrWrite]
  split <;> simp [hmem]

@[simp] theorem execCsrWrite_wf (off : BitVec 27) (width : AccessWidth) (v : Word) (s : State)
    (hmem : Memory.wf s.mem = true) : Memory.wf (after s (execCsrWrite off width v s)).mem = true := by
  simp [execCsrWrite, hmem]

@[simp] theorem readInto_mem (s : State) (off : Nat) (width : AccessWidth) : (readInto s off width).mem = s.mem := by simp [readInto]
@[simp] theorem execCsrLowHalfRead_mem (off : BitVec 27) (s : State) : (after s (execCsrLowHalfRead off s)).mem = s.mem := by simp [execCsrLowHalfRead]

@[simp] theorem execCsrLowHalfWrite_wf (off : BitVec 27) (v : BitVec 32) (s : State)
    (hmem : Memory.wf s.mem = true) : Memory.wf (after s (execCsrLowHalfWrite off v s)).mem = true := by
  simp [execCsrLowHalfWrite, hmem]

@[simp] theorem execCsrHighHalfWrite_wf (off : BitVec 27) (v : BitVec 32) (s : State)
    (hmem : Memory.wf s.mem = true) : Memory.wf (after s (execCsrHighHalfWrite off v s)).mem = true := by
  simp [execCsrHighHalfWrite, hmem]

@[simp] theorem execRcFieldRead_mem (at_ : FieldRead) (s : State) : (after s (execRcFieldRead at_ s)).mem = s.mem := by simp [execRcFieldRead]

/-! ### Device memory through Machine/Idle.lean -/

@[simp] theorem execIdleFillStart_mem (t : Tid) (s : State) : (after s (execIdleFillStart t s)).mem = s.mem := by simp [execIdleFillStart]
@[simp] theorem execFillYield_mem (t : Tid) (s : State) : (after s (execFillYield t s)).mem = s.mem := by simp [execFillYield]

/-! ### Device memory through Machine/Mgmt.lean -/

@[simp] theorem respond_mem (o s : State) (via typ cmd code : Nat) (data : List Byte) : (respond o s via typ cmd code data).mem = s.mem := by simp [respond]
@[simp] theorem execMctpControl_mem (via : Via) (c : MctpCtl) (s : State) : (after s (execMctpControl via c s)).mem = s.mem := by simp [execMctpControl]

@[simp] theorem execDynamicAddress_mem (addr : BitVec 7) (ibi : Bool) (s : State) : (after s (execDynamicAddress addr ibi s)).mem = s.mem := by
  simp [execDynamicAddress]

theorem needsFirmware_wf {go : State → State} (s : State) (via cmd : Nat) (h : Memory.wf s.mem = true)
    (hg : ∀ x, Memory.wf x.mem = true → Memory.wf (go x).mem = true) : Memory.wf (needsFirmware s via cmd go).mem = true := by
  unfold needsFirmware
  split
  · exact h
  split
  · rwa [respond_mem]
  · exact hg _ h

@[simp] theorem execGetSummary_mem (via : Via) (s : State) : (after s (execGetSummary via s)).mem = s.mem := by simp [execGetSummary]

@[simp] theorem execReadCsr_wf (via : Via) (off : BitVec 32) (width : BitVec 8) (s : State)
    (hmem : Memory.wf s.mem = true) : Memory.wf (after s (execReadCsr via off width s)).mem = true := by
  unfold execReadCsr
  rw [after_next]
  exact needsFirmware_wf _ _ _ hmem fun x hx => by simp [hx]

@[simp] theorem execWriteCsr_wf (via : Via) (off : BitVec 32) (width : BitVec 8) (v : Word) (s : State)
    (hmem : Memory.wf s.mem = true) : Memory.wf (after s (execWriteCsr via off width v s)).mem = true := by
  unfold execWriteCsr
  rw [after_next]
  exact needsFirmware_wf _ _ _ hmem fun x hx => by simp [hx]

@[simp] theorem execReadLog_wf (via : Via) (first : BitVec 32) (n : BitVec 8) (s : State)
    (hmem : Memory.wf s.mem = true) : Memory.wf (after s (execReadLog via first n s)).mem = true := by
  unfold execReadLog
  rw [after_next]
  exact needsFirmware_wf _ _ _ hmem fun x hx => by simp [hx]

@[simp] theorem recoveryWrite_mem (s : State) (off : Nat) (data : List Byte) : (recoveryWrite s off data).mem = s.mem := by simp [recoveryWrite]

@[simp] theorem execFwWrite_wf (via : Via) (off : BitVec 32) (data : List (BitVec 8)) (s : State)
    (hmem : Memory.wf s.mem = true) : Memory.wf (after s (execFwWrite via off data s)).mem = true := by
  unfold execFwWrite
  grind [after_next, memWrite_wf, freshWord_mem, recoveryWrite_mem, respond_mem, setLeaf_mem]

@[simp] theorem execFwLoad_wf (via : Via) (s : State) (hmem : Memory.wf s.mem = true) : Memory.wf (after s (execFwLoad via s)).mem = true := by
  simp [execFwLoad, hmem]

/-! ### Device memory through Machine/Spdm.lean -/

@[simp] theorem spdmError_mem (s : State) (via code : Nat) : (spdmError s via code).mem = s.mem := by simp [spdmError]

theorem spdmAt_wf {go : State → State} (s : State) (via n : Nat) (h : Memory.wf s.mem = true)
    (hg : ∀ x, Memory.wf x.mem = true → Memory.wf (go x).mem = true) : Memory.wf (spdmAt s via n go).mem = true := by
  unfold spdmAt
  split
  · exact h
  split
  · rwa [spdmError_mem]
  · exact hg _ h

@[simp] theorem setSpdm_mem (s : State) (n : Nat) : (setSpdm s n).mem = s.mem := by simp [setSpdm]
@[simp] theorem execGetVersion_mem (via : SpdmVia) (s : State) : (after s (execGetVersion via s)).mem = s.mem := by simp [execGetVersion]

@[simp] theorem execGetCapabilities_wf (via : SpdmVia) (s : State)
    (hmem : Memory.wf s.mem = true) : Memory.wf (after s (execGetCapabilities via s)).mem = true := by
  unfold execGetCapabilities
  rw [after_next]
  exact spdmAt_wf _ _ _ hmem fun x hx => by simp [hx]

@[simp] theorem execNegotiateAlgorithms_wf (via : SpdmVia) (asym hash : BitVec 32) (s : State)
    (hmem : Memory.wf s.mem = true) : Memory.wf (after s (execNegotiateAlgorithms via asym hash s)).mem = true := by
  unfold execNegotiateAlgorithms
  rw [after_next]
  exact spdmAt_wf _ _ _ hmem fun x hx => by simp [hx]

@[simp] theorem execGetDigests_wf (via : SpdmVia) (s : State) (hmem : Memory.wf s.mem = true) : Memory.wf (after s (execGetDigests via s)).mem = true := by
  unfold execGetDigests
  rw [after_next]
  exact spdmAt_wf _ _ _ hmem fun x hx => by simp [hx]

@[simp] theorem execGetCertificate_wf (via : SpdmVia) (slot : BitVec 8) (off len : BitVec 16) (s : State)
    (hmem : Memory.wf s.mem = true) : Memory.wf (after s (execGetCertificate via slot off len s)).mem = true := by
  unfold execGetCertificate
  rw [after_next]
  exact spdmAt_wf _ _ _ hmem fun x hx => by simp [hx]

@[simp] theorem execChallenge_wf (via : SpdmVia) (slot : BitVec 8) (s : State)
    (hmem : Memory.wf s.mem = true) : Memory.wf (after s (execChallenge via slot s)).mem = true := by
  unfold execChallenge
  rw [after_next]
  exact spdmAt_wf _ _ _ hmem fun x hx => by simp [hx]

@[simp] theorem execGetMeasurements_wf (via : SpdmVia) (op : BitVec 8) (sig : Bool) (s : State)
    (hmem : Memory.wf s.mem = true) : Memory.wf (after s (execGetMeasurements via op sig s)).mem = true := by
  unfold execGetMeasurements
  grind [after_next, spdmAt_wf, freshBytes_mem, respond_mem, spdmError_mem]

/-! ### Device memory through Machine/Tick.lean -/

@[simp] theorem timeOn_mem (s : State) : (timeOn s).mem = s.mem := by simp [timeOn]
@[simp] theorem tickTile_mem (s : State) (t : Nat) : (tickTile s t).mem = s.mem := by simp [tickTile]
@[simp] theorem tickCluster_mem (s : State) (c : Nat) : (tickCluster s c).mem = s.mem := by simp [tickCluster]
@[simp] theorem tickDie_mem (s : State) (d : Nat) : (tickDie s d).mem = s.mem := by simp [tickDie]

@[simp] theorem tick_wf (s : State) (hmem : Memory.wf s.mem = true) : Memory.wf (tick s).mem = true := by
  unfold tick
  dsimp only
  split
  · have h1 : Memory.wf (timeOn ((List.range 4).foldl tickDie (s.tiles.foldl (fun a p => tickTile a p.1) s))).mem = true := by simp [hmem]
    have h2 := pumpAll_wf _ (pumpDev_wf _ h1)
    grind [sendAllHeld_mem, startDies_mem, sendLight_mem]
  · exact hmem

/-! ### Device memory through Machine/Step.lean -/

@[simp] theorem withFetchWord_mem (s : State) (nbits w : Nat) : (State.withFetchWord s nbits w).mem = s.mem := by
  simp only [State.withFetchWord]
  split <;> simp

/-! ### Device memory through every command -/

theorem exec_wf (c : Instr) {s : State} (hmem : Memory.wf s.mem = true) : Memory.wf (after s (exec c s)).mem = true := by
  cases c <;> simp only [exec] <;> simp [hmem]

/-- Settles O58: an empty queue lets time pass, and otherwise the command at the front acts. -/
theorem stepKeepsMemoryForm : Obligations.StepKeepsMemoryForm := by
  unfold Obligations.StepKeepsMemoryForm
  intro s u hmem hstep
  unfold step at hstep
  split at hstep
  · cases hstep
    exact tick_wf _ hmem
  · next c rest _ =>
    have h := exec_wf c (s := { s with pending := rest }) hmem
    rwa [hstep] at h

end Sys2Proof.Machine
end

section
/-! PROOFS. The current limit (O49). -/

namespace Sys2Proof.Machine

/-- A field away from the cause leaves, the lost traces and the dropped records holds no report. -/
theorem reportKey_off {g : Fld} (h : g.lo < 64 ∧ (g.off < 0x100100 ∨ 0x100240 ≤ g.off) ∧ g.off ≠ 0xD00028 ∧ g.off ≠ 0x10C) : reportKey (fldKey g) = false := by
  obtain ⟨hl, hc, ht, hp⟩ := h
  simp only [reportKey, fldKey, fINT_CAUSE_LEAF, fINT_CAUSE_TILE_LEAF, fOBS_TRACE_LOST_COUNT, fPM_LOG_STATUS_HW_LOST, Bool.or_eq_false_iff, List.any_eq_false,
    List.mem_range, beq_eq_false_iff_ne, beq_iff_eq]
  refine ⟨⟨⟨fun i hi => ?_, fun i hi => ?_⟩, ?_⟩, ?_⟩ <;> omega

/-! ### The review of pin episodes -/

section Review
variable (s : State) (loop o : Nat)

/-- What a review of an episode changes: the register file, the episodes, the reports. -/
theorem reviewEpisode_frame : ∃ e, (reviewEpisode s loop o).pwr = { s.pwr with eps := e } ∧ (reviewEpisode s loop o).tiles = s.tiles ∧
    (reviewEpisode s loop o).now = s.now := by
  unfold reviewEpisode
  dsimp only
  split
  · split
    · exact ⟨_, rfl, rfl, rfl⟩
    · split <;> exact ⟨_, by simp; rfl, by simp, by simp⟩
  · split <;> exact ⟨_, rfl, rfl, rfl⟩

theorem getF_reviewEpisode_ne {g : Fld} (hr : reportKey (fldKey g) = false) (hc : fldKey g ≠ fldKey (fPWR_CONFLICT_COUNT loop))
    (hp : fldKey g ≠ fldKey fPWR_ERR_PIN_OVERRIDE) : getF (reviewEpisode s loop o) g = getF s g := by
  unfold reviewEpisode
  dsimp only
  split
  · split
    · rfl
    · split <;> rw [getF_postEvent_ne _ _ _ _ _ _ _ hr, getF_raise_ne _ hp hr, satF, getF_setF_ne _ _ hc] <;> rfl
  · split <;> rfl

end Review

theorem getF_reviewEpisodes_ne (s : State) {g : Fld} (hr : reportKey (fldKey g) = false) (hc : ∀ l, l < 3 → fldKey g ≠ fldKey (fPWR_CONFLICT_COUNT l))
    (hp : fldKey g ≠ fldKey fPWR_ERR_PIN_OVERRIDE) : getF (reviewEpisodes s) g = getF s g := by
  unfold reviewEpisodes
  dsimp only
  rw [foldl_same (fun s => getF s g) _ _ _ fun x c => getF_reviewEpisode_ne x 2 c hr (hc 2 (by decide)) hp]
  refine foldl_same (fun s => getF s g) _ _ _ fun x d => ?_
  rw [getF_reviewEpisode_ne _ 1 d hr (hc 1 (by decide)) hp, getF_reviewEpisode_ne _ 0 d hr (hc 0 (by decide)) hp]

theorem reviewEpisodes_frame (s : State) : ∃ e, (reviewEpisodes s).pwr = { s.pwr with eps := e } ∧ (reviewEpisodes s).tiles = s.tiles ∧
    (reviewEpisodes s).now = s.now := by
  let P (u : State) : Prop := ∃ e, u.pwr = { s.pwr with eps := e } ∧ u.tiles = s.tiles ∧ u.now = s.now
  have one (u : State) (l o : Nat) (h : P u) : P (reviewEpisode u l o) := by
    obtain ⟨e, h1, h2, h3⟩ := h
    obtain ⟨e', k1, k2, k3⟩ := reviewEpisode_frame u l o
    exact ⟨e', by rw [k1, h1], by rw [k2, h2], by rw [k3, h3]⟩
  exact foldl_keeps P _ _ _ (foldl_keeps P _ _ _ ⟨_, rfl, rfl, rfl⟩ fun u d h => one _ _ _ (one _ _ _ h)) fun u c h => one _ _ _ h

/-! ### The common ceiling -/

theorem setCurrCeil_frame (s : State) (v : Nat) : (setCurrCeil s v).pwr = s.pwr ∧ (setCurrCeil s v).tiles = s.tiles ∧ (setCurrCeil s v).mem = s.mem :=
  ⟨rfl, rfl, rfl⟩

theorem getF_setCurrCeil (s : State) (v : Nat) {d : Nat} (hd : d < 4) : getF (setCurrCeil s v) (fCLK_DIE_CURR d) = v % 32 := by
  simp only [setCurrCeil, List.range, List.range.loop, List.foldl_cons, List.foldl_nil, getF_setF]
  interval_cases d <;> rfl

theorem getF_setCurrCeil_ne (s : State) (v : Nat) {g : Fld} (h : ∀ d, d < 4 → fldKey g ≠ fldKey (fCLK_DIE_CURR d)) :
    getF (setCurrCeil s v) g = getF s g := by
  simp only [setCurrCeil, List.range, List.range.loop, List.foldl_cons, List.foldl_nil]
  rw [getF_setF_ne _ _ (h 3 (by decide)), getF_setF_ne _ _ (h 2 (by decide)), getF_setF_ne _ _ (h 1 (by decide)), getF_setF_ne _ _ (h 0 (by decide))]

/-- The highest FCODE in force. -/
def topCode (s : State) : Nat := (List.range 4).foldl (fun a d => if dieUp s d then max a (getF s (fCLK_DIE_FCODE d)) else a) 0

/-- A change of the common ceiling, and the review of the episodes that follows it. -/
theorem newCeil_facts (s : State) (v : Nat) : (∀ d, d < 4 → getF (reviewEpisodes (setCurrCeil s v)) (fCLK_DIE_CURR d) = v % 32) ∧
    (∀ d, d < 4 → getF (reviewEpisodes (setCurrCeil s v)) (fCLK_DIE_FCODE d) = getF s (fCLK_DIE_FCODE d)) ∧
    getF (reviewEpisodes (setCurrCeil s v)) fPWR_ERR_POWER_LIMIT = getF s fPWR_ERR_POWER_LIMIT ∧
    (∃ e, (reviewEpisodes (setCurrCeil s v)).pwr = { s.pwr with eps := e }) ∧
    (∀ j, (reviewEpisodes (setCurrCeil s v)).tile j = s.tile j) ∧ (reviewEpisodes (setCurrCeil s v)).mem = s.mem := by
  obtain ⟨e, h1, h2, -⟩ := reviewEpisodes_frame (setCurrCeil s v)
  refine ⟨fun d hd => ?_, fun d hd => ?_, ?_, ⟨e, h1⟩, fun j => tile_tiles h2 j, by simp⟩
  · rw [getF_reviewEpisodes_ne _ (reportKey_off (by simp [fCLK_DIE_CURR]; omega)) (fun l hl => by simp [fldKey, fCLK_DIE_CURR, fPWR_CONFLICT_COUNT]; omega)
      (by simp [fldKey, fCLK_DIE_CURR, fPWR_ERR_PIN_OVERRIDE]; omega), getF_setCurrCeil s v hd]
  · rw [getF_reviewEpisodes_ne _ (reportKey_off (by simp [fCLK_DIE_FCODE]; omega)) (fun l hl => by simp [fldKey, fCLK_DIE_FCODE, fPWR_CONFLICT_COUNT]; omega)
      (by simp [fldKey, fCLK_DIE_FCODE, fPWR_ERR_PIN_OVERRIDE]; omega), getF_setCurrCeil_ne s v fun e he => by simp [fldKey, fCLK_DIE_FCODE, fCLK_DIE_CURR]; omega]
  · rw [getF_reviewEpisodes_ne _ (by decide) (fun l hl => by simp [fldKey, fPWR_ERR_POWER_LIMIT, fPWR_CONFLICT_COUNT]; omega) (by decide),
      getF_setCurrCeil_ne s v fun e he => by simp [fldKey, fPWR_ERR_POWER_LIMIT, fCLK_DIE_CURR]; omega]

theorem lowerCurr_facts {s : State} (hup : ∃ d, d < 4 ∧ dieUp s d = true) : (∀ d, d < 4 → getF (lowerCurr s) (fCLK_DIE_CURR d) = (topCode s - 1) % 32) ∧
    (∀ d, d < 4 → getF (lowerCurr s) (fCLK_DIE_FCODE d) = getF s (fCLK_DIE_FCODE d)) ∧
    getF (lowerCurr s) fPWR_ERR_POWER_LIMIT = getF s fPWR_ERR_POWER_LIMIT ∧
    (∃ e, (lowerCurr s).pwr = { s.pwr with eps := e, curLowerAt := some s.now }) ∧ (∀ j, (lowerCurr s).tile j = s.tile j) ∧ (lowerCurr s).mem = s.mem := by
  have hany : ((List.range 4).any (dieUp { s with pwr := { s.pwr with curLowerAt := some s.now } })) = true := by
    obtain ⟨d, hd, hu⟩ := hup
    exact List.any_eq_true.mpr ⟨d, List.mem_range.mpr hd, hu⟩
  simp only [lowerCurr, hany, if_true]
  exact newCeil_facts _ _

/-- Lowering leaves the tiles and the memory alone, and the limit reported, whether or not a die is up. -/
theorem lowerCurr_keeps (s : State) : getF (lowerCurr s) fPWR_ERR_POWER_LIMIT = getF s fPWR_ERR_POWER_LIMIT ∧ (lowerCurr s).pwr.lowering = s.pwr.lowering ∧
    (∀ j, (lowerCurr s).tile j = s.tile j) ∧ (lowerCurr s).mem = s.mem := by
  simp only [lowerCurr]
  split
  · obtain ⟨-, -, h1, ⟨e, h2⟩, h3, h4⟩ := newCeil_facts { s with pwr := { s.pwr with curLowerAt := some s.now } }
      ((List.range 4).foldl (fun a d => if dieUp s d then max a (getF s (fCLK_DIE_FCODE d)) else a) 0 - 1)
    exact ⟨h1, by rw [h2], h3, h4⟩
  · exact ⟨rfl, rfl, fun _ => rfl, rfl⟩

/-! ### The bucket and the run timer -/

section Bucket
variable {s : State} {power : Nat}

/-- The power state that a sample leaves, but for the lowering of the ceiling. -/
def sampled (s : State) (power : Nat) : PwrSt :=
  let p := s.pwr
  let high := decide (1450000 < power)
  let quiet := if high then 0 else p.quiet + 1
  let fastQuiet := if power ≤ 1600000 then p.fastQuiet + 1 else 0
  { p with
    bucket := min 2000000000 (p.bucket + 1448000 - power)
    run := if high then p.run + 1 else 0
    power := (power :: p.power).take 1000
    bucketAt := some s.now
    quiet := quiet
    fastQuiet := fastQuiet
    removal := if p.removal = 0 then 0 else if high then min 12 (p.removal + 4) else if 100 ≤ quiet then 0 else p.removal
    fast := p.fast && decide (fastQuiet < 100) }

theorem sampled_lowering : (sampled s power).lowering = s.pwr.lowering :=
  have keeps (p : PwrSt) (a b : Nat) (c : List Nat) (d : Option Nat) (e f g : Nat) (h : Bool) : { p with
      bucket := a, run := b, power := c, bucketAt := d, quiet := e, fastQuiet := f, removal := g, fast := h }.lowering = p.lowering := rfl
  keeps _ _ _ _ _ _ _ _ _

/-- The lowering of the ceiling ends once the mean is below the limit and no pulse is removed. -/
def endLowering (u : State) : State :=
  if u.pwr.lowering && !meanAbove u 10 1448000 && u.pwr.removal == 0 then { u with pwr := { u.pwr with lowering := false } } else u

theorem endLowering_eq (u : State) : endLowering u =
    { u with pwr := { u.pwr with lowering := u.pwr.lowering && (meanAbove u 10 1448000 || u.pwr.removal != 0) } } := by
  unfold endLowering
  split
  · next h =>
    simp only [Bool.and_eq_true, Bool.not_eq_true', beq_iff_eq] at h
    obtain ⟨⟨hl, hm⟩, hr⟩ := h
    simp [hm, hr]
  · next h =>
    have hk : (u.pwr.lowering && (meanAbove u 10 1448000 || u.pwr.removal != 0)) = u.pwr.lowering := by
      cases hl : u.pwr.lowering <;> cases hm : meanAbove u 10 1448000 <;> simp_all
    rw [hk]

theorem bucketUpdate_samples (hon : s.pm.pins.aon = true) (hat : since s s.pwr.bucketAt 1000 = true) :
    exec (.bucketUpdate power) s = .next (endLowering { s with pwr := sampled s power }) := by
  show Host.Outcome.next (if (!s.pm.pins.aon || !since s s.pwr.bucketAt 1000) = true then s else endLowering { s with pwr := sampled s power }) = _
  rw [if_neg (by simp [hon, hat])]

theorem meanAbove_power {s u : State} (h : u.pwr.power = s.pwr.power) (n mw : Nat) : meanAbove u n mw = meanAbove s n mw := by
  simp only [meanAbove, h]

theorem endLowering_facts (s : State) (p : PwrSt) : (endLowering { s with pwr := p }).pwr = { p with
      lowering := p.lowering && (meanAbove (endLowering { s with pwr := p }) 10 1448000 || (endLowering { s with pwr := p }).pwr.removal != 0) } ∧
    endLowering { s with pwr := p } = { s with pwr := (endLowering { s with pwr := p }).pwr } := by
  rw [endLowering_eq]
  exact ⟨rfl, rfl⟩

/-- The removals that a sample leaves. -/
theorem sampled_removal : ((s.pwr.removal = 0 → (sampled s power).removal = 0) ∧
    (s.pwr.removal ≠ 0 → 1450000 < power → (sampled s power).removal = min 12 (s.pwr.removal + 4)) ∧
    (s.pwr.removal ≠ 0 → power ≤ 1450000 → (sampled s power).removal = if 100 ≤ s.pwr.quiet + 1 then 0 else s.pwr.removal)) := by
  refine ⟨fun h => ?_, fun h hp => ?_, fun h hp => ?_⟩
  · simp only [sampled, h, if_true]
  · simp only [sampled, h, hp, if_false, decide_true, if_true]
  · simp only [sampled, h, Nat.not_lt.mpr hp, if_false, decide_false, Bool.false_eq_true]

theorem sampled_fast : (sampled s power).fast = true ↔ s.pwr.fast = true ∧ (1600000 < power ∨ s.pwr.fastQuiet + 1 < 100) := by
  have h : (sampled s power).fast = (s.pwr.fast && decide ((if power ≤ 1600000 then s.pwr.fastQuiet + 1 else 0) < 100)) := rfl
  rw [h, Bool.and_eq_true, decide_eq_true_iff]
  refine and_congr_right fun _ => ?_
  split <;> omega

end Bucket

/-! ### The commands of the limit -/

section Limit
variable {s : State}

theorem bucketUpdate_clause {power : Nat} (hon : s.pm.pins.aon = true) (hat : since s s.pwr.bucketAt 1000 = true) : Answers (.bucketUpdate power) s fun u =>
    u.pwr.bucket = min 2000000000 (s.pwr.bucket + 1448000 - power) ∧ u.pwr.run = (if 1450000 < power then s.pwr.run + 1 else 0) ∧
    u.pwr.power = (power :: s.pwr.power).take 1000 ∧
    (s.pwr.removal = 0 → u.pwr.removal = 0) ∧ (s.pwr.removal ≠ 0 → 1450000 < power → u.pwr.removal = min 12 (s.pwr.removal + 4)) ∧
    (s.pwr.removal ≠ 0 → power ≤ 1450000 → u.pwr.removal = if 100 ≤ s.pwr.quiet + 1 then 0 else s.pwr.removal) ∧
    (u.pwr.fast = true ↔ s.pwr.fast = true ∧ (1600000 < power ∨ s.pwr.fastQuiet + 1 < 100)) ∧
    (s.pwr.lowering = true → (meanAbove u 10 1448000 = true ∨ u.pwr.removal ≠ 0) → u.pwr.lowering = true) ∧
    (meanAbove u 10 1448000 = false → u.pwr.removal = 0 → u.pwr.lowering = false) ∧ u = { s with pwr := u.pwr } := by
  obtain ⟨p, hp⟩ : ∃ p, p = sampled s power := ⟨_, rfl⟩
  have hbucket : p.bucket = min 2000000000 (s.pwr.bucket + 1448000 - power) := by rw [hp]; rfl
  have hrun : p.run = if decide (1450000 < power) = true then s.pwr.run + 1 else 0 := by rw [hp]; rfl
  have hpower : p.power = (power :: s.pwr.power).take 1000 := by rw [hp]; rfl
  have hlow : p.lowering = s.pwr.lowering := by rw [hp]; exact sampled_lowering
  have hfast := sampled_fast (s := s) (power := power)
  obtain ⟨r1, r2, r3⟩ := sampled_removal (s := s) (power := power)
  have he := bucketUpdate_samples (power := power) hon hat
  rw [← hp] at hfast r1 r2 r3 he
  obtain ⟨hu, hs⟩ := endLowering_facts s p
  generalize endLowering { s with pwr := p } = u at he hu hs
  have hr : u.pwr.removal = p.removal := by rw [hu]
  have hl : u.pwr.lowering = (s.pwr.lowering && (meanAbove u 10 1448000 || u.pwr.removal != 0)) := by rw [← hlow]; exact congrArg PwrSt.lowering hu
  refine ⟨u, he, ?bucket, ?run, ?power, ?_, ?_, ?_, ?fast, ?stays, ?ends, hs⟩
  case bucket => rw [hu, ← hbucket]
  case run => rw [hu]; exact hrun.trans (if_congr decide_eq_true_iff rfl rfl)
  case power => rw [hu, ← hpower]
  case fast => rw [hu]; exact hfast
  case stays =>
    intro h1 h2
    rw [hl, h1, Bool.true_and, Bool.or_eq_true, bne_iff_ne]
    exact h2
  case ends =>
    intro h1 h2
    rw [hl, h1, h2]
    simp
  all_goals rwa [hr]

theorem bucketUpdate_idle {power : Nat} (h : s.pm.pins.aon = false ∨ since s s.pwr.bucketAt 1000 = false) : exec (.bucketUpdate power) s = .next s := by
  show Host.Outcome.next (if (!s.pm.pins.aon || !since s s.pwr.bucketAt 1000) = true then s else endLowering { s with pwr := sampled s power }) = _
  rw [if_pos (by rcases h with h | h <;> simp [h])]

/-- The start of the lowering, reported once. -/
def limitRaised (s : State) : State := raise { s with pwr := { s.pwr with lowering := true } } fPWR_ERR_POWER_LIMIT

theorem limitRaised_facts (s : State) : getF (limitRaised s) fPWR_ERR_POWER_LIMIT = 1 ∧ (limitRaised s).pwr = { s.pwr with lowering := true } ∧
    (∀ g, fldKey g ≠ fldKey fPWR_ERR_POWER_LIMIT → reportKey (fldKey g) = false → getF (limitRaised s) g = getF s g) ∧
    (∀ j, (limitRaised s).tile j = s.tile j) ∧ (limitRaised s).mem = s.mem ∧ (limitRaised s).now = s.now := by
  refine ⟨getF_raise_same _ (by decide), raise_pwr _ _, fun g h1 h2 => ?_, fun j => tile_tiles (raise_tiles _ _) j, raise_mem _ _, raise_now _ _⟩
  rw [limitRaised, getF_raise_ne _ h1 h2]
  rfl

theorem topCode_limitRaised (s : State) : topCode (limitRaised s) = topCode s := by
  obtain ⟨-, -, hg, -⟩ := limitRaised_facts s
  have hf (d : Nat) (hd : d < 4) : getF (limitRaised s) (fCLK_DIE_FCODE d) = getF s (fCLK_DIE_FCODE d) :=
    hg _ (by simp [fldKey, fCLK_DIE_FCODE, fPWR_ERR_POWER_LIMIT]; omega) (reportKey_off (by simp [fCLK_DIE_FCODE]; omega))
  have hu (d : Nat) (hd : d < 4) : dieUp (limitRaised s) d = dieUp s d := by
    rw [dieUp, dieState, hg _ (by simp [fldKey, fPKG_DIE_STATUS_STATE, fPWR_ERR_POWER_LIMIT]; omega) (reportKey_off (by simp [fPKG_DIE_STATUS_STATE]; omega))]
    rfl
  refine List.foldl_ext _ _ _ fun a d hd => ?_
  rw [hf d (List.mem_range.mp hd), hu d (List.mem_range.mp hd)]

theorem limitRaised_up (s : State) {d : Nat} (hd : d < 4) : dieUp (limitRaised s) d = dieUp s d := by
  obtain ⟨-, -, hg, -⟩ := limitRaised_facts s
  rw [dieUp, dieState, hg _ (by simp [fldKey, fPKG_DIE_STATUS_STATE, fPWR_ERR_POWER_LIMIT]; omega) (reportKey_off (by simp [fPKG_DIE_STATUS_STATE]; omega))]
  rfl

/-- The run timer and the bucket start the lowering (R526). -/
theorem runTimerExpiry_lowers (hc : s.pwr.bucket = 0 ∨ 9800 ≤ s.pwr.run) (hl : s.pwr.lowering = false) : Answers .runTimerExpiry s fun u =>
    getF u fPWR_ERR_POWER_LIMIT = 1 ∧ u.pwr.lowering = true ∧
    (since s s.pwr.curLowerAt 50000 = true → (meanAbove s 10 1448000 = true ∨ s.pwr.removal ≠ 0) → (∃ d, d < 4 ∧ dieUp s d = true) →
      ∀ d, d < 4 → getF u (fCLK_DIE_CURR d) = (topCode s - 1) % 32) ∧
    ((since s s.pwr.curLowerAt 50000 = false ∨ meanAbove s 10 1448000 = false ∧ s.pwr.removal = 0) →
      ∀ d, d < 4 → getF u (fCLK_DIE_CURR d) = getF s (fCLK_DIE_CURR d)) ∧ (∀ j, u.tile j = s.tile j) ∧ u.mem = s.mem := by
  obtain ⟨h1, h2, h3, h4, h5, h6⟩ := limitRaised_facts s
  have hsince : since (limitRaised s) (limitRaised s).pwr.curLowerAt 50000 = since s s.pwr.curLowerAt 50000 := by
    rw [h2]
    unfold since
    rw [h6]
  have hmean : meanAbove (limitRaised s) 10 1448000 = meanAbove s 10 1448000 := meanAbove_power (by rw [h2]) _ _
  have hrem : (limitRaised s).pwr.removal = s.pwr.removal := by rw [h2]
  have he : exec .runTimerExpiry s = .next (if (since s s.pwr.curLowerAt 50000 && (meanAbove s 10 1448000 || s.pwr.removal != 0)) = true then
      lowerCurr (limitRaised s) else limitRaised s) := by
    show execRunTimerExpiry s = _
    rw [execRunTimerExpiry, if_pos ⟨hc, by rw [hl]; rfl⟩]
    show Host.Outcome.next (if (since (limitRaised s) (limitRaised s).pwr.curLowerAt 50000 &&
      (meanAbove (limitRaised s) 10 1448000 || (limitRaised s).pwr.removal != 0)) = true then _ else _) = _
    rw [hsince, hmean, hrem]
    rfl
  obtain ⟨k1, k2, k3, k4⟩ := lowerCurr_keeps (limitRaised s)
  refine ⟨_, he, ?_⟩
  split
  · next h =>
    simp only [Bool.and_eq_true, Bool.or_eq_true, bne_iff_ne] at h
    refine ⟨k1.trans h1, by rw [k2, h2], fun _ _ hup d hd => ?_, fun hn => ?_, fun j => (k3 j).trans (h4 j), k4.trans h5⟩
    · obtain ⟨e, he, hu⟩ := hup
      rw [(lowerCurr_facts ⟨e, he, by rwa [limitRaised_up s he]⟩).1 d hd, topCode_limitRaised]
    · rcases hn with hn | ⟨hn, hm⟩
      · rw [hn] at h
        exact absurd h.1 (by decide)
      · rw [hn] at h
        exact absurd hm (h.2.resolve_left (by decide))
  · next h =>
    refine ⟨h1, by rw [h2], fun ha hb _ => absurd ?_ h, fun _ d hd => h3 _ (by simp [fldKey, fCLK_DIE_CURR, fPWR_ERR_POWER_LIMIT]; omega)
      (reportKey_off (by simp [fCLK_DIE_CURR]; omega)), h4, h5⟩
    simpa [ha] using hb

theorem currCeilingLower_lowers (hl : s.pwr.lowering = true) (hs : since s s.pwr.curLowerAt 50000 = true)
    (hm : meanAbove s 10 1448000 = true ∨ s.pwr.removal ≠ 0) (hup : ∃ d, d < 4 ∧ dieUp s d = true) : Answers .currCeilingLower s fun u =>
      (∀ d, d < 4 → getF u (fCLK_DIE_CURR d) = (topCode s - 1) % 32) ∧ u.pwr.curLowerAt = some s.now ∧
      (∀ d, d < 4 → getF u (fCLK_DIE_FCODE d) = getF s (fCLK_DIE_FCODE d)) ∧ (∀ j, u.tile j = s.tile j) ∧ u.mem = s.mem := by
  obtain ⟨h1, h2, -, ⟨e, h3⟩, h4, h5⟩ := lowerCurr_facts hup
  have he : exec .currCeilingLower s = .next (lowerCurr s) := by
    show execCurrCeilingLower s = _
    rw [execCurrCeilingLower, if_pos (by simpa [hl, hs] using hm)]
  exact ⟨_, he, h1, by rw [h3], h2, h4, h5⟩

theorem currCeilingRaise_raises (hc : currCeil s < 30) (hb : 1000000000 ≤ s.pwr.bucket) (hm : meanAbove s 1000 1448000 = false)
    (hs : since s s.pwr.curRaiseAt 1000000 = true) : Answers .currCeilingRaise s fun u =>
      (∀ d, d < 4 → getF u (fCLK_DIE_CURR d) = currCeil s + 1) ∧ u.pwr.curRaiseAt = some s.now ∧ (∀ j, u.tile j = s.tile j) ∧ u.mem = s.mem := by
  obtain ⟨h1, -, -, ⟨e, h2⟩, h3, h4⟩ := newCeil_facts { s with pwr := { s.pwr with curRaiseAt := some s.now } } (currCeil s + 1)
  have he : exec .currCeilingRaise s =
      .next (reviewEpisodes (setCurrCeil { s with pwr := { s.pwr with curRaiseAt := some s.now } } (currCeil s + 1))) := by
    show execCurrCeilingRaise s = _
    rw [execCurrCeilingRaise, if_pos ⟨hc, hb, by rw [hm]; rfl, hs⟩]
  exact ⟨_, he, fun d hd => by rw [h1 d hd, Nat.mod_eq_of_lt (by omega)], by rw [h2], h3, h4⟩

/-- Above 1,650 W the fast path acts, and the limit is reported (R528). -/
theorem fastPath_acts {q : Nat} {l : List Nat} (hp : s.pwr.power = q :: l) (hq : 1650000 < q) : Answers .fastPath s fun u =>
    u.pwr = { s.pwr with fast := true, fastQuiet := 0 } ∧ getF u fPWR_ERR_POWER_LIMIT = 1 ∧
    (∀ d, d < 4 → getF u (fCLK_DIE_CURR d) = getF s (fCLK_DIE_CURR d)) ∧ (∀ j, u.tile j = s.tile j) ∧ u.mem = s.mem := by
  have he : exec .fastPath s = .next (raise { s with pwr := { s.pwr with fast := true, fastQuiet := 0 } } fPWR_ERR_POWER_LIMIT) := by
    show execFastPath s = _
    simp only [execFastPath, hp, hq, if_true]
  refine ⟨_, he, raise_pwr _ _, getF_raise_same _ (by decide), fun d hd => ?_, fun j => tile_tiles (raise_tiles _ _) j, raise_mem _ _⟩
  rw [getF_raise_ne _ (by simp [fldKey, fCLK_DIE_CURR, fPWR_ERR_POWER_LIMIT]; omega) (reportKey_off (by simp [fCLK_DIE_CURR]; omega))]
  rfl

end Limit

/-- Settles O49: each command of the current limit acts under its condition and does nothing otherwise. -/
theorem currentLimit : Obligations.CurrentLimit := by
  unfold Obligations.CurrentLimit
  intro s p f hp hf
  subst hp hf
  refine ⟨fun power hon hat => bucketUpdate_clause hon hat, fun power h => bucketUpdate_idle h, runTimerExpiry_lowers, fun hb hr => ?timer,
    fun hl hs hm hup => currCeilingLower_lowers hl hs hm hup, fun h => ?lower, fun hr h0 => ?removal, fun hr => ?noRemoval,
    fun hc hb hm hs => currCeilingRaise_raises hc hb hm hs, fun h => ?noRaise, fun q l hq => ⟨fastPath_acts hq, fun h => ?noFast⟩⟩
  case timer =>
    show execRunTimerExpiry s = _
    rw [execRunTimerExpiry, if_neg fun h => h.1.elim hb (by omega)]
  case lower =>
    show execCurrCeilingLower s = _
    rw [execCurrCeilingLower, if_neg]
    rcases h with h | h <;> simp [h]
  case removal =>
    show execRunTimerRemoval s = _
    rw [execRunTimerRemoval, if_pos ⟨hr, h0⟩]
  case noRemoval =>
    show execRunTimerRemoval s = _
    rw [execRunTimerRemoval, if_neg fun h => by omega]
  case noRaise =>
    show execCurrCeilingRaise s = _
    rw [execCurrCeilingRaise, if_neg fun k => by omega]
  case noFast =>
    show execFastPath s = _
    simp only [execFastPath, hq, Nat.not_lt.mpr h, if_false]

end Sys2Proof.Machine
end

section
/-! PROOFS. The SPDM responder (O57). -/

namespace Sys2Proof.Machine

/-! ### The place of a request in the exchange -/

section Exchange
variable {s : State} {via n : Nat}

theorem spdmUp_of (hv : viaUp s via = true) (hf : fwRuns s = true) : spdmUp s via = true := by
  rw [spdmUp, hv, hf]
  rfl

theorem spdmUp_off (h : viaUp s via = false ∨ fwRuns s = false) : spdmUp s via = false := by
  rw [spdmUp]
  rcases h with h | h <;> simp [h]

theorem spdmAt_place (go : State → State) (hu : spdmUp s via = true) (hn : s.pm.spdm = n) : spdmAt s via n go = go s := by
  simp [spdmAt, hu, hn]

theorem spdmAt_unexpected (go : State → State) (hu : spdmUp s via = true) (hn : s.pm.spdm ≠ n) : spdmAt s via n go = spdmError s via 4 := by
  simp [spdmAt, hu, hn]

theorem spdmAt_silent (go : State → State) (hu : spdmUp s via = false) : spdmAt s via n go = s := by
  simp [spdmAt, hu]

end Exchange

/-! ### The requests at their places -/

section Requests
variable {s : State} {via : SpdmVia}

theorem negotiateAlgorithms_answers (asym hash : BitVec 32) (hu : spdmUp s via.val = true) (h2 : s.pm.spdm = 2) :
    exec (.negotiateAlgorithms via asym hash) s = .next (if asym.getLsbD 7 = true ∧ hash.getLsbD 1 = true then
      respond s (setSpdm s 3) via.val 5 0x63 0 [0x80, 0, 0, 0, 2, 0, 0, 0] else spdmError s via.val 1) := by
  show Host.Outcome.next (spdmAt s via.val 2 _) = _
  rw [spdmAt_place _ hu h2]
  refine congrArg Host.Outcome.next (if_congr (by rw [Bool.and_eq_true]) ?_ rfl)
  rfl

theorem getCertificate_answers (slot : BitVec 8) (off len : BitVec 16) (hu : spdmUp s via.val = true) (h3 : s.pm.spdm = 3) :
    exec (.getCertificate via slot off len) s = .next (if slot ≠ 0 ∨ (chain s).length ≤ off.toNat then spdmError s via.val 1 else
      respond s s via.val 5 0x02 0 (toBytes 2 (((chain s).drop off.toNat).take len.toNat).length ++
        toBytes 2 ((chain s).length - off.toNat - (((chain s).drop off.toNat).take len.toNat).length) ++ ((chain s).drop off.toNat).take len.toNat)) := by
  show Host.Outcome.next (spdmAt s via.val 3 _) = _
  rw [spdmAt_place _ hu h3]

theorem challenge_signs (hu : spdmUp s via.val = true) (h3 : s.pm.spdm = 3) : Answers (.challenge via 0) s fun u =>
    ∃ x, x.length = 128 ∧ u.wire = .mctp (viaAddress s via.val) via.val 5 0x03 0 (sha384 (chain s) ++ x) :: s.wire ∧
      u = { s with wire := u.wire, free := u.free } := by
  have he : exec (.challenge via 0) s = .next (respond s (freshBytes s 128).2 via.val 5 0x03 0 (sha384 (chain s) ++ (freshBytes s 128).1)) := by
    show Host.Outcome.next (spdmAt s via.val 3 _) = _
    rw [spdmAt_place _ hu h3, if_neg (by simp)]
  exact ⟨_, he, _, by simp [freshBytes], rfl, rfl⟩

theorem challenge_otherSlot {slot : BitVec 8} (hs : slot ≠ 0) (hu : spdmUp s via.val = true) (h3 : s.pm.spdm = 3) :
    exec (.challenge via slot) s = .next (spdmError s via.val 1) := by
  show Host.Outcome.next (spdmAt s via.val 3 _) = _
  rw [spdmAt_place _ hu h3, if_pos hs]

/-- The measurement blocks that an operation names. -/
theorem blocksOf_some {op : BitVec 8} {l : List Nat}
    (h : op = 0 ∧ l = [] ∨ op = 0xFF ∧ l = [1, 2, 3, 4, 5, 6, 7] ∨ 1 ≤ op.toNat ∧ op.toNat ≤ 7 ∧ l = [op.toNat]) : blocksOf op.toNat = some l := by
  rcases h with ⟨rfl, rfl⟩ | ⟨rfl, rfl⟩ | ⟨h1, h7, rfl⟩
  · rfl
  · rfl
  · rw [blocksOf, if_neg (by omega), if_neg (by omega), if_pos h7]

theorem blocksOf_none {op : BitVec 8} (h : 7 < op.toNat) (hf : op ≠ 0xFF) : blocksOf op.toNat = none := by
  have hne : op.toNat ≠ 0xFF := fun h => hf (BitVec.eq_of_toNat_eq h)
  rw [blocksOf, if_neg (by omega), if_neg hne, if_neg (by omega)]

theorem getMeasurements_answers {op : BitVec 8} {sig : Bool} {l : List Nat} (hl : blocksOf op.toNat = some l) (hu : spdmUp s via.val = true)
    (h3 : s.pm.spdm = 3) : Answers (.getMeasurements via op sig) s fun u => ∃ x, x.length = (if sig = true then 128 else 0) ∧
      u.wire = .mctp (viaAddress s via.val) via.val 5 0x60 7 ((l.flatMap fun i => BitVec.ofNat 8 i :: measurement s i) ++ x) :: s.wire ∧
      u = { s with wire := u.wire, free := u.free } := by
  have he : exec (.getMeasurements via op sig) s = .next (if sig = true then
      respond s (freshBytes s 128).2 via.val 5 0x60 7 ((l.flatMap fun i => BitVec.ofNat 8 i :: measurement s i) ++ (freshBytes s 128).1)
      else respond s s via.val 5 0x60 7 (l.flatMap fun i => BitVec.ofNat 8 i :: measurement s i)) := by
    show Host.Outcome.next (spdmAt s via.val 3 _) = _
    rw [spdmAt_place _ hu h3, hl]
  cases sig
  · exact ⟨_, he, [], rfl, by rw [List.append_nil]; rfl, rfl⟩
  · exact ⟨_, he, _, by simp [freshBytes], rfl, rfl⟩

theorem getMeasurements_invalid {op : BitVec 8} {sig : Bool} (hl : blocksOf op.toNat = none) (hu : spdmUp s via.val = true)
    (h3 : s.pm.spdm = 3) : exec (.getMeasurements via op sig) s = .next (spdmError s via.val 1) := by
  show Host.Outcome.next (spdmAt s via.val 3 _) = _
  rw [spdmAt_place _ hu h3, hl]

/-- A request stands at place n of the exchange: it goes through `spdmAt` there. -/
def StandsAt (s : State) (via : SpdmVia) (c : Instr) (n : Nat) : Prop := ∃ go, exec c s = .next (spdmAt s via.val n go)

theorem request_stands {c : Instr} {n : Nat} (h : c = Instr.getCapabilities via ∧ n = 1 ∨ (∃ a h, c = .negotiateAlgorithms via a h) ∧ n = 2 ∨
    c = .getDigests via ∧ n = 3 ∨ (∃ x y z, c = .getCertificate via x y z) ∧ n = 3 ∨ (∃ x, c = .challenge via x) ∧ n = 3 ∨
    (∃ x y, c = .getMeasurements via x y) ∧ n = 3) : StandsAt s via c n := by
  rcases h with ⟨rfl, rfl⟩ | ⟨⟨_, _, rfl⟩, rfl⟩ | ⟨rfl, rfl⟩ | ⟨⟨_, _, _, rfl⟩, rfl⟩ | ⟨⟨_, rfl⟩, rfl⟩ | ⟨⟨_, _, rfl⟩, rfl⟩ <;> exact ⟨_, rfl⟩

theorem request_silent {c : Instr} {n : Nat} (hs : StandsAt s via c n) (hu : spdmUp s via.val = false) : exec c s = .next s := by
  obtain ⟨go, he⟩ := hs
  rw [he, spdmAt_silent _ hu]

end Requests

/-- Settles O57: each request is answered at its place of the exchange, and at any other is unexpected. -/
theorem spdmResponder : Obligations.SpdmResponder := by
  unfold Obligations.SpdmResponder
  intro s via
  refine ⟨fun hv hf => ?_, fun h c hc => ?silent⟩
  · have hu : spdmUp s via.val = true := spdmUp_of hv hf
    refine ⟨?version, fun h1 => ?capabilities, fun asym hash h2 => ⟨fun ha hh => ?algorithms, fun hn => ?noAlgorithms⟩, fun h3 c hc => ?_,
      fun c n hc hn => ?unexpected⟩
    case version =>
      show Host.Outcome.next (if spdmUp s via.val = true then _ else s) = _
      rw [if_pos hu]
      rfl
    case capabilities =>
      show Host.Outcome.next (spdmAt s via.val 1 _) = _
      rw [spdmAt_place _ hu h1]
      rfl
    case algorithms =>
      rw [negotiateAlgorithms_answers asym hash hu h2, if_pos ⟨ha, hh⟩]
      rfl
    case noAlgorithms =>
      rw [negotiateAlgorithms_answers asym hash hu h2, if_neg hn]
      rfl
    case unexpected =>
      obtain ⟨go, he⟩ := request_stands (s := s) hc
      rw [he, spdmAt_unexpected _ hu hn]
      rfl
    obtain rfl : c = chain s := hc.symm
    refine ⟨?digests, fun off len ho => ?certificate, fun slot off len hs => ?noCertificate, challenge_signs hu h3,
      fun slot hs => challenge_otherSlot hs hu h3, fun op sig l hl => getMeasurements_answers (blocksOf_some hl) hu h3,
      fun op sig h7 hf => getMeasurements_invalid (blocksOf_none h7 hf) hu h3⟩
    case digests =>
      show Host.Outcome.next (spdmAt s via.val 3 _) = _
      rw [spdmAt_place _ hu h3]
      rfl
    case certificate =>
      rw [getCertificate_answers 0 off len hu h3, if_neg (not_or.mpr ⟨by simp, Nat.not_le.mpr ho⟩)]
      rfl
    case noCertificate =>
      rw [getCertificate_answers slot off len hu h3, if_pos hs]
      rfl
  case silent =>
    have hu : spdmUp s via.val = false := spdmUp_off h
    rcases hc with rfl | h | h | h | h | h | h
    · show Host.Outcome.next (if spdmUp s via.val = true then _ else s) = _
      rw [if_neg (by simp [hu])]
    · exact request_silent (n := 1) (request_stands (.inl ⟨h, rfl⟩)) hu
    · exact request_silent (n := 2) (request_stands (.inr (.inl ⟨h, rfl⟩))) hu
    · exact request_silent (n := 3) (request_stands (.inr (.inr (.inl ⟨h, rfl⟩)))) hu
    · exact request_silent (n := 3) (request_stands (.inr (.inr (.inr (.inl ⟨h, rfl⟩))))) hu
    · exact request_silent (n := 3) (request_stands (.inr (.inr (.inr (.inr (.inl ⟨h, rfl⟩)))))) hu
    · exact request_silent (n := 3) (request_stands (.inr (.inr (.inr (.inr (.inr ⟨h, rfl⟩)))))) hu

end Sys2Proof.Machine
end

section
/-! PROOFS. Accumulator images (O23). -/

namespace Sys2Proof.Machine

/-! ### The start of a matrix instruction -/

section Popped
variable {s s1 : State} {t : Tid} {min : Nat} {h : QEntry}

/-- The tile in which the body of a matrix instruction runs. -/
def matPopped (s s1 : State) (t : Nat) : Tile :=
  { s.tile t with tk := (s1.tile t).tk, mat := { (s.tile t).mat with queue := (s1.tile t).mat.queue.tail } }

theorem mat_popped (hs : Starts s t .matrix 0x10 min h s1) : isLive (popHead s1 t .matrix) t = true ∧
    (popHead s1 t .matrix).tile t = matPopped s s1 t ∧ (∀ j, j ≠ t.val → (popHead s1 t .matrix).tile j = s.tile j) ∧
    popHead s1 t .matrix = { s with tiles := (popHead s1 t .matrix).tiles } := by
  obtain ⟨hp, ho, hf⟩ := popHead_starts hs
  obtain ⟨hl, hq, htk⟩ := hs
  obtain ⟨hb, k, -, -, -, -, hk⟩ := takeToken_true (headOf_queue hq) htk
  have htile : (popHead s1 t .matrix).tile t = matPopped s s1 t := by
    rw [hp, matPopped, hk]
    rfl
  refine ⟨isLive_of hl ?_ (by rw [htile]; rfl) (by rw [htile]; rfl), htile, ho, hf⟩
  rw [hf]
  rfl

/-- What a matrix instruction does that starts and changes only its tile. -/
theorem matrix_starts {i : Instr} {body : QEntry → State → Option State} (hs : Starts s t .matrix 0x10 min h s1)
    (hi : exec i s = .next (engineStart s t .matrix 0x10 min body)) {u : State} (hb : body h (popHead s1 t .matrix) = some u) : exec i s = .next u := by
  rw [hi, engineStart_starts body hs, hb]

end Popped

/-- A state that differs in its tiles alone still does after a write of a tile. -/
theorem setTile_frame {s w : State} (hf : w = { s with tiles := w.tiles }) (t : Nat) (x : Tile) : w.setTile t x = { s with tiles := (w.setTile t x).tiles } := by
  obtain ⟨l, rfl⟩ : ∃ l, w = { s with tiles := l } := ⟨_, hf⟩
  rfl

/-! ### A signal at the end of an instruction -/

/-- What a signal changes, from a live tile. -/
theorem applySignal_facts {w : State} {t : Nat} (unit : Nat) (h : QEntry) (hl : isLive w t = true) :
    (∃ l a b c, (applySignal w t unit h).tile t = { w.tile t with tk := l, aborting := a, trapTime := b, trapCycles := c }) ∧
    SignalApplied w (applySignal w t unit h) t h ∧ (∀ j, j ≠ t → (applySignal w t unit h).tile j = w.tile j) ∧
    (applySignal w t unit h).mem = w.mem :=
  ⟨applySignal_tile w t unit h t, applySignal_signals hl, fun _ hj => applySignal_ne w unit h hj, applySignal_mem w t unit h⟩

theorem SignalApplied.of_counters {s w u : State} {t : Nat} {h : QEntry} (hk : (w.tile t).tk = (s.tile t).tk) (hs : SignalApplied w u t h) :
    SignalApplied s u t h := by
  have ht (j : Nat) : tkCount (w.tile t) j = tkCount (s.tile t) j := by simp only [tkCount, hk]
  intro j
  rw [hs j, ht j]

/-! ### Accumulator tiles -/

section Tiles
variable {x : Tile} {a : Nat}

@[simp] theorem acc_setAcc_same (x : Tile) (a : Nat) (v : Acc) : (x.setAcc a v).acc a = v := by
  unfold Tile.setAcc Tile.acc
  split <;> simp_all

theorem acc_setAcc_other (x : Tile) (v : Acc) (ha : a < 2) : (x.setAcc a v).acc (1 - a) = x.acc (1 - a) := by
  unfold Tile.setAcc Tile.acc
  split <;> split <;> first | rfl | omega

/-- A write of an accumulator tile leaves the rest of the tile. -/
theorem setAcc_frame (x : Tile) (a : Nat) (v : Acc) : ∃ v0 v1, x.setAcc a v = { x with mat := { x.mat with a0 := v0, a1 := v1 } } := by
  unfold Tile.setAcc
  split
  · exact ⟨v, x.mat.a1, rfl⟩
  · exact ⟨x.mat.a0, v, rfl⟩

@[simp] theorem setAcc_run (x : Tile) (a : Nat) (v : Acc) : (x.setAcc a v).mat.run = x.mat.run := by
  unfold Tile.setAcc
  split <;> rfl

theorem healAcc_good (hb : x.regBad = []) (a : Nat) : healAcc x a = x := by simp [healAcc, hb]

theorem putAcc_good (hb : x.regBad = []) (a : Nat) (v : Acc) : x.putAcc a v = x.setAcc a v := by rw [Tile.putAcc, healAcc_good hb]

theorem accBad_good (hb : x.regBad = []) (a : Nat) (p : Nat → Bool) : accBad x a p = false := by simp [accBad, hb]

theorem accBound_other (h : x.fill.bound ≠ some a) : accBound x a = false := by simpa [accBound] using h

theorem unverified_nil {v : Acc} (h : v.chain = []) : v.unverified = false := by simp [Acc.unverified, h]

end Tiles

/-! ### Images of accumulator tiles -/

section Image
variable {s s1 : State} {t : Tid} {h : QEntry} {a addr : Nat}

theorem mzero_clears (hs : Starts s t .matrix 0x10 1 h s1) (ha : a = wf h.word 51 51) (hb : (s.tile t).regBad = []) (hbound : (s.tile t).fill.bound ≠ some a)
    (hre : (s.tile t).mat.recompute = []) (hc : ((s.tile t).acc a).chain = []) (hrun : (s.tile t).mat.run = []) : Answers (.mzero t) s fun u =>
      (u.tile t).acc a = Acc.zero ∧ (u.tile t).acc (1 - a) = (s.tile t).acc (1 - a) ∧
      (u.tile t).mat.queue = (s1.tile t).mat.queue.tail ∧ SignalApplied s1 u t h ∧ (u.tile t).oc = (s.tile t).oc ∧ (u.tile t).vec = (s.tile t).vec ∧
      (∀ j, j ≠ t.val → u.tile j = s.tile j) ∧ u.mem = s.mem := by
  obtain ⟨hl, hp, ho, hf⟩ := mat_popped hs
  have ha2 : a < 2 := by rw [ha]; exact Nat.mod_lt _ (by decide)
  have hclear : ((matPopped s s1 t).acc a).clear = Acc.zero := by
    show ({ Acc.zero with chain := ((s.tile t).acc a).chain } : Acc) = _
    rw [hc]
    rfl
  obtain ⟨w, hw⟩ : ∃ w, w = (popHead s1 t .matrix).setTile t { (matPopped s s1 t).setAcc a Acc.zero with
    mat := { ((matPopped s s1 t).setAcc a Acc.zero).mat with busyAt := (popHead s1 t .matrix).now } } := ⟨_, rfl⟩
  have hbody : startMzero t h (popHead s1 t .matrix) = some (applySignal w t 1 h) := by
    have h1 : (matPopped s s1 t).mat.recompute = [] := hre
    have h2 : ((matPopped s s1 t).acc a).unverified = false := unverified_nil hc
    have h3 : (matPopped s s1 t).mat.run = [] := hrun
    have h6 : ((matPopped s s1 t).setAcc a Acc.zero).mat.run = [] := by rw [setAcc_run, h3]
    have h4 : accBound (matPopped s s1 t) a = false := accBound_other hbound
    have h5 : (matPopped s s1 t).regBad = [] := hb
    simp only [startMzero, ← ha, hp, h1, h2, h3, h4, h6, putAcc_good h5, hclear, hw, saveBefore, List.isEmpty_nil, List.any_nil, Bool.not_true, Bool.or_false,
      Bool.false_and, Bool.false_eq_true, if_false]
  have he := matrix_starts (i := .mzero t) hs rfl hbody
  obtain ⟨v0, v1, hset⟩ := setAcc_frame (matPopped s s1 t) a Acc.zero
  have hwt : w.tile t = { (matPopped s s1 t).setAcc a Acc.zero with
      mat := { ((matPopped s s1 t).setAcc a Acc.zero).mat with busyAt := (popHead s1 t .matrix).now } } := by rw [hw, tile_setTile_same]
  have hwl : isLive w t = true := isLive_of hl (by rw [hw]; rfl) (by rw [hwt, hset, hp]) (by rw [hwt, hset, hp])
  obtain ⟨⟨l, b, c, d, ht⟩, hsig, hother, hmem⟩ := applySignal_facts 1 h hwl
  have hacc (n : Nat) : ((applySignal w t 1 h).tile t).acc n = ((matPopped s s1 t).setAcc a Acc.zero).acc n := by rw [ht, hwt]; rfl
  refine ⟨_, he, ?_, ?_, ?_, hsig.of_counters ?_, ?_, ?_, fun j hj => ?_, ?_⟩
  · rw [hacc, acc_setAcc_same]
  · rw [hacc, acc_setAcc_other _ _ ha2]
    rfl
  · rw [ht, hwt, hset]
    rfl
  · rw [hwt, hset]
    rfl
  · rw [ht, hwt, hset]
    rfl
  · rw [ht, hwt, hset]
    rfl
  · rw [hother j hj, hw, tile_setTile_ne _ _ hj, ho j hj]
  · rw [hmem, hw]
    show (popHead s1 t .matrix).mem = s.mem
    rw [hf]

/-- A transfer of an image begins. -/
theorem image_begins {i : Instr} {min : Nat} {work : Nat → Nat → MatWork} (hs : Starts s t .matrix 0x10 min h s1)
    (hi : exec i s = .next (engineStart s t .matrix 0x10 min fun h s => startImage t h work s)) (ha : a = wf h.word 51 51) (haddr : capS h (wSA h.word) = addr)
    (hbound : (s.tile t).fill.bound ≠ some a) (hal : addr % 64 = 0) (hmap : mappedRange addr 262208 = true) (hre : (s.tile t).mat.recompute = [])
    (hc : ((s.tile t).acc a).chain = []) (hrun : ∀ r ∈ (s.tile t).mat.run, r.acc ≠ a) : Answers i s fun u =>
      (u.tile t).mat.run = (s.tile t).mat.run ++ [⟨h, work a addr⟩] ∧ (u.tile t).mat.a0 = (s.tile t).mat.a0 ∧ (u.tile t).mat.a1 = (s.tile t).mat.a1 ∧
      (u.tile t).mat.queue = (s1.tile t).mat.queue.tail ∧ (u.tile t).tk = (s1.tile t).tk ∧ (∀ j, j ≠ t.val → u.tile j = s.tile j) ∧
      u = { s with tiles := u.tiles } := by
  obtain ⟨hl, hp, ho, hf⟩ := mat_popped hs
  have hbody : startImage t h work (popHead s1 t .matrix) = some ((popHead s1 t .matrix).setTile t { matPopped s s1 t with
      mat := { (matPopped s s1 t).mat with run := (matPopped s s1 t).mat.run ++ [⟨h, work a addr⟩], busyAt := (popHead s1 t .matrix).now } }) := by
    have h1 : (matPopped s s1 t).mat.recompute = [] := hre
    have h2 : ((matPopped s s1 t).acc a).unverified = false := unverified_nil hc
    have h3 : ((matPopped s s1 t).mat.run.any fun r => r.acc == a) = false := List.any_eq_false.mpr fun r hr => by simpa using hrun r hr
    have h4 : accBound (matPopped s s1 t) a = false := accBound_other hbound
    have h5 : mappedRange addr imageBytes = true := hmap
    simp [startImage, ← ha, haddr, hp, h1, h2, h3, h4, h5, hal]
  refine ⟨_, matrix_starts hs hi hbody, ?_, ?_, ?_, ?_, ?_, fun j hj => ?_, setTile_frame hf _ _⟩
  · rw [tile_setTile_same]; rfl
  · rw [tile_setTile_same]; rfl
  · rw [tile_setTile_same]; rfl
  · rw [tile_setTile_same]; rfl
  · rw [tile_setTile_same]; rfl
  · rw [tile_setTile_ne _ _ hj, ho j hj]

/-! ### The end of a transfer -/

theorem denseElems_length (n k : Nat) (m : SMap AccElem) : (denseElems n k m).length = n := by
  fun_induction denseElems n k m <;> simp_all

theorem elemBytes_length (e : AccElem) : (elemBytes e).length = 16 := by simp [elemBytes, toBytes_length]

theorem image_length (v : Acc) : v.image.length = 262208 := by
  have h (l : List AccElem) : ((l.map elemBytes).flatten).length = l.length * 16 := by
    simp [List.length_flatten, Function.comp_def, elemBytes_length]
  simp only [Acc.image, List.length_append, toBytes_length, List.length_replicate, h, denseElems_length]

/-- The tile without its only transfer. -/
def transferTaken (s : State) (t : Nat) : Tile := { s.tile t with mat := { (s.tile t).mat with run := [], busyAt := s.now } }

section Ends
variable {e : QEntry} {v : State} {d : List Byte}

/-- The transfer that is over is the first one, and no check of the tile fails. -/
theorem first_transfer {r : MatRun} (hm : r.moves = true) : firstIdx (fun r : MatRun => r.moves) [r] = some 0 := by rw [firstIdx, if_pos hm]

theorem save_ends (hl : isLive s t = true) (hk : clkRuns s t = true) (hrun : (s.tile t).mat.run = [⟨e, .save a addr⟩]) (hb : (s.tile t).regBad = []) :
    exec (.accImageTransferDone t false) s =
      .next (applySignal (memWriteH false (s.setTile t (transferTaken s t)) addr ((s.tile t).acc a).image 0) t 1 e) := by
  show Host.Outcome.next (sameCycle s t 1 _) = _
  rw [sameCycle_live _ hl]
  simp only [hl, hk, hrun, first_transfer (r := ⟨e, .save a addr⟩) rfl, accBad_good hb, Bool.not_true, Bool.or_self, Bool.false_eq_true, if_false,
    List.getElem?_cons_zero, removeAt]
  rfl

theorem merge_ends (hl : isLive s t = true) (hk : clkRuns s t = true) (hrun : (s.tile t).mat.run = [⟨e, .merge a addr⟩]) (hb : (s.tile t).regBad = [])
    (hv : memReadH (s.setTile t (transferTaken s t)) addr imageBytes 0 = ⟨d, none, v⟩) :
    exec (.accImageTransferDone t false) s = .next (applySignal (mergeImage v t a d e.pc) t 1 e) := by
  show Host.Outcome.next (sameCycle s t 1 _) = _
  rw [sameCycle_live _ hl]
  rw [transferTaken] at hv
  simp only [hl, hk, hrun, first_transfer (r := ⟨e, .merge a addr⟩) rfl, accBad_good hb, Bool.not_true, Bool.or_self, Bool.false_eq_true, if_false,
    List.getElem?_cons_zero, removeAt, hv]

theorem restore_ends (hl : isLive s t = true) (hk : clkRuns s t = true) (hrun : (s.tile t).mat.run = [⟨e, .restore a addr⟩])
    (hv : memReadH (s.setTile t (transferTaken s t)) addr imageBytes 0 = ⟨d, none, v⟩) (hd : imageBad d = false) :
    exec (.accImageTransferDone t false) s = .next (applySignal (v.onTile t fun x => x.putAcc a (accOfImage d)) t 1 e) := by
  show Host.Outcome.next (sameCycle s t 1 _) = _
  rw [sameCycle_live _ hl]
  rw [transferTaken] at hv
  simp only [hl, hk, hrun, first_transfer (r := ⟨e, .restore a addr⟩) rfl, Bool.not_true, Bool.or_self, Bool.false_eq_true, if_false,
    List.getElem?_cons_zero, removeAt, hv, hd]

theorem transferTaken_live (hl : isLive s t = true) : isLive (s.setTile t (transferTaken s t)) t = true :=
  isLive_of hl rfl (by rw [tile_setTile_same]; rfl) (by rw [tile_setTile_same]; rfl)

theorem save_writes (hl : isLive s t = true) (hk : clkRuns s t = true) (hrun : (s.tile t).mat.run = [⟨e, .save a addr⟩]) (hb : (s.tile t).regBad = [])
    (hf : LinesFine s addr 262208) : Answers (.accImageTransferDone t false) s fun u =>
      (u.tile t).mat.run = [] ∧ (u.tile t).mat.a0 = (s.tile t).mat.a0 ∧ (u.tile t).mat.a1 = (s.tile t).mat.a1 ∧ SignalApplied s u t e ∧
      ∀ k, memByte u k = if addr ≤ k ∧ k < addr + 262208 then ((s.tile t).acc a).image.getD (k - addr) 0 else memByte s k := by
  have hlines : LinesFine (s.setTile t (transferTaken s t)) addr ((s.tile t).acc a).image.length := by
    rw [image_length]
    exact hf
  have hst := (memWriteH_stored false ((s.tile t).acc a).image 0 hlines).1
  have he := save_ends hl hk hrun hb
  generalize memWriteH false (s.setTile t (transferTaken s t)) addr ((s.tile t).acc a).image 0 = w at he hst
  have hwl : isLive w t = true := hst.isLive (transferTaken_live hl)
  obtain ⟨hbytes, htile, -, -⟩ := hst
  have hw := htile t
  rw [tile_setTile_same] at hw
  obtain ⟨⟨l, b, c, d, ht⟩, hsig, -, hmem⟩ := applySignal_facts 1 e hwl
  refine ⟨_, he, ?_, ?_, ?_, hsig.of_counters ?_, fun k => ?_⟩
  · rw [ht, hw]; rfl
  · rw [ht, hw]; rfl
  · rw [ht, hw]; rfl
  · rw [hw]; rfl
  · rw [memByte_mem hmem, hbytes, image_length]
    rfl

/-- What is left once the tile a of the accumulators holds v. -/
theorem accumulator_loaded {v : State} {n : Acc} (hm : CacheMoved (s.setTile t (transferTaken s t)) v) (ha : a < 2) (hl : isLive s t = true) {w : State}
    (hw : w = v.setTile t ((transferTaken s t).setAcc a n)) : ((applySignal w t 1 e).tile t).mat.run = [] ∧
      ((applySignal w t 1 e).tile t).acc a = n ∧ ((applySignal w t 1 e).tile t).acc (1 - a) = (s.tile t).acc (1 - a) ∧
      SignalApplied s (applySignal w t 1 e) t e ∧ MemSame s (applySignal w t 1 e) := by
  obtain ⟨v0, v1, hset⟩ := setAcc_frame (transferTaken s t) a n
  have hvl := hm.isLive (transferTaken_live hl)
  obtain ⟨hsame, -, -, hv⟩ := hm
  have hvt : v.tile t = transferTaken s t := (tile_tiles (by rw [hv]) t).trans (tile_setTile_same ..)
  have hwt : w.tile t = (transferTaken s t).setAcc a n := by rw [hw, tile_setTile_same]
  have hwl : isLive w t = true := isLive_of hvl (by rw [hw]; rfl) (by rw [hwt, hset, hvt]) (by rw [hwt, hset, hvt])
  obtain ⟨⟨l, b, c, d, ht⟩, hsig, -, hmem⟩ := applySignal_facts 1 e hwl
  have hacc (k : Nat) : ((applySignal w t 1 e).tile t).acc k = ((transferTaken s t).setAcc a n).acc k := by rw [ht, hwt]; rfl
  refine ⟨?_, ?_, ?_, hsig.of_counters ?_, fun k => ?_⟩
  · rw [ht, hwt, hset]; rfl
  · rw [hacc, acc_setAcc_same]
  · rw [hacc, acc_setAcc_other _ _ ha]; rfl
  · rw [hwt, hset]; rfl
  · rw [memByte_mem hmem, hw]
    exact hsame k

theorem merge_adds (ha : a < 2) (hl : isLive s t = true) (hk : clkRuns s t = true) (hrun : (s.tile t).mat.run = [⟨e, .merge a addr⟩])
    (hb : (s.tile t).regBad = []) (hf : LinesFine s addr 262208)
    (hterms : ((s.tile t).acc a).terms + (accOfImage (memBytes s addr 262208)).terms + 4 ≤ 2 ^ 40)
    (hlapsed : (accOfImage (memBytes s addr 262208)).lapsed = false) : Answers (.accImageTransferDone t false) s fun u =>
      (u.tile t).mat.run = [] ∧ (u.tile t).acc a = mergeAcc ((s.tile t).acc a) (accOfImage (memBytes s addr 262208)) ∧
      (u.tile t).acc (1 - a) = (s.tile t).acc (1 - a) ∧ SignalApplied s u t e ∧ MemSame s u := by
  obtain ⟨v, hv, hm⟩ := memReadH_fine (s := s.setTile t (transferTaken s t)) 0 (show LinesFine _ addr imageBytes from hf)
  have hd : memBytes (s.setTile t (transferTaken s t)) addr imageBytes = memBytes s addr 262208 := rfl
  rw [hd] at hv
  have hvt : v.tile t = transferTaken s t := (tile_tiles (by rw [hm.2.2.2]) t).trans (tile_setTile_same ..)
  have hmerge : mergeImage v t a (memBytes s addr 262208) e.pc =
      v.setTile t ((transferTaken s t).setAcc a (mergeAcc ((s.tile t).acc a) (accOfImage (memBytes s addr 262208)))) := by
    have hacc : (transferTaken s t).acc a = (s.tile t).acc a := rfl
    simp only [mergeImage, hvt, hacc, Nat.not_lt.mpr hterms, false_and, if_false, hlapsed, Bool.false_eq_true]
  refine ⟨_, merge_ends hl hk hrun hb hv, ?_⟩
  rw [hmerge]
  exact accumulator_loaded hm ha hl rfl

theorem restore_loads (ha : a < 2) (hl : isLive s t = true) (hk : clkRuns s t = true) (hrun : (s.tile t).mat.run = [⟨e, .restore a addr⟩])
    (hb : (s.tile t).regBad = []) (hf : LinesFine s addr 262208) (hbad : imageBad (memBytes s addr 262208) = false) :
    Answers (.accImageTransferDone t false) s fun u =>
      (u.tile t).mat.run = [] ∧ (u.tile t).acc a = accOfImage (memBytes s addr 262208) ∧ (u.tile t).acc (1 - a) = (s.tile t).acc (1 - a) ∧
      SignalApplied s u t e ∧ MemSame s u := by
  obtain ⟨v, hv, hm⟩ := memReadH_fine (s := s.setTile t (transferTaken s t)) 0 (show LinesFine _ addr imageBytes from hf)
  have hd : memBytes (s.setTile t (transferTaken s t)) addr imageBytes = memBytes s addr 262208 := rfl
  rw [hd] at hv
  have hvt : v.tile t = transferTaken s t := (tile_tiles (by rw [hm.2.2.2]) t).trans (tile_setTile_same ..)
  refine ⟨_, restore_ends hl hk hrun hv hbad, accumulator_loaded hm ha hl ?_⟩
  rw [State.onTile, hvt, putAcc_good (show (transferTaken s t).regBad = [] from hb)]

end Ends

end Image

/-- Settles O23: each instruction begins where its tile is free, and its image is written, added or loaded. -/
theorem accumulatorImages : Obligations.AccumulatorImages := by
  unfold Obligations.AccumulatorImages
  intro s s1 t h a addr x hx hb
  subst hx
  refine ⟨fun hs ha hbound hre hc hrun => mzero_clears hs ha hb hbound hre hc hrun, fun i min w hi hs ha haddr hbound hal hmap hre hc hrun => ?begin,
    fun e hl hk hrun hf => save_writes hl hk hrun hb hf,
    fun e ha hl hk hrun hf hterms hlapsed => merge_adds ha hl hk hrun hb hf hterms hlapsed,
    fun e ha hl hk hrun hf hbad => restore_loads ha hl hk hrun hb hf hbad⟩
  case begin =>
    rcases hi with ⟨rfl, rfl, rfl⟩ | ⟨rfl, rfl, rfl⟩ | ⟨rfl, rfl, rfl⟩
    · exact image_begins (work := .save) hs rfl ha haddr hbound hal hmap hre hc hrun
    · exact image_begins (work := .merge) hs rfl ha haddr hbound hal hmap hre hc hrun
    · exact image_begins (work := .restore) hs rfl ha haddr hbound hal hmap hre hc hrun

end Sys2Proof.Machine
end

section
/-! PROOFS. Matrix products (O22). -/

namespace Sys2Proof.Machine

@[simp] theorem setAcc_unpaired (x : Tile) (a : Nat) (v : Acc) : (x.setAcc a v).mat.unpaired = x.mat.unpaired := by
  unfold Tile.setAcc
  split <;> rfl

@[simp] theorem setAcc_snap (x : Tile) (a : Nat) (v : Acc) : (x.setAcc a v).mat.snap = x.mat.snap := by
  unfold Tile.setAcc
  split <;> rfl

/-! ### The start of a product -/

section Start
variable {s s1 : State} {t : Tid} {h : QEntry}

/-- The accumulator with which the product h starts. -/
def startAcc (x : Tile) (h : QEntry) : Acc := { (if (mmOp h).ovw then Acc.zero else x.acc (mmOp h).acc) with
  chain := if (mmOp h).spr then [⟨mmOp h, skipBits x (mmOp h), false, h.pc⟩] else [] }

/-- The tile on which the product h has started. -/
def mmStarted (s s1 : State) (t : Nat) (h : QEntry) : Tile :=
  let x := s.tile t
  let op := mmOp h
  let p := (matPopped s s1 t).setAcc op.acc (startAcc x h)
  { p with mat := { p.mat with
    run := [⟨h, .product op (skipBits x op) 0⟩]
    unpaired := if op.spr then x.mat.unpaired ++ [⟨op.acc, op, skipBits x op, some 0, s.now⟩] else x.mat.unpaired
    busyAt := s.now
    snap := if op.spr && !op.ovw then some (op.acc, x.acc op.acc) else none } }

theorem startMM_starts (hs : Starts s t .matrix 0x10 0 h s1) (hb : (s.tile t).regBad = []) (hbound : (s.tile t).fill.bound ≠ some (mmOp h).acc)
    (hf : mmFault h = none) (hrun : (s.tile t).mat.run = []) (hre : (s.tile t).mat.recompute = [])
    (hue : (mmOp h).spr = true → ocUe (s.tile t) [historyRange (mmOp h)] = none) (hc : ((s.tile t).acc (mmOp h).acc).chain = [])
    (hsnap : (s.tile t).mat.snap = none) :
    startMM t h (popHead s1 t .matrix) = some ((popHead s1 t .matrix).setTile t (mmStarted s s1 t h)) := by
  obtain ⟨-, hp, -, hw⟩ := mat_popped hs
  have hnow : (popHead s1 t .matrix).now = s.now := by rw [hw]
  have h1 : (matPopped s s1 t).mat.recompute = [] := hre
  have h2 : (matPopped s s1 t).acc (mmOp h).acc = (s.tile t).acc (mmOp h).acc := rfl
  have h3 : (matPopped s s1 t).mat.run = [] := hrun
  have h4 : accBound (matPopped s s1 t) (mmOp h).acc = false := accBound_other hbound
  have h5 : healAcc (matPopped s s1 t) (mmOp h).acc = matPopped s s1 t := healAcc_good (x := matPopped s s1 t) hb _
  have h6 : skipBits (matPopped s s1 t) (mmOp h) = skipBits (s.tile t) (mmOp h) := rfl
  have h7 (hspr : (mmOp h).spr = true) : ocUe (matPopped s s1 t) [historyRange (mmOp h)] = none := hue hspr
  have h8 : (matPopped s s1 t).mat.snap = none := hsnap
  have h9 : (matPopped s s1 t).mat.unpaired = (s.tile t).mat.unpaired := rfl
  cases hspr : (mmOp h).spr <;> cases hovw : (mmOp h).ovw <;>
    simp [startMM, mmStarted, startAcc, Acc.clear, hspr, hovw, hp, hnow, h1, h2, h3, h4, h5, h6, h7, h8, h9, hf, hc]

theorem mm_starts (hs : Starts s t .matrix 0x10 0 h s1) (hb : (s.tile t).regBad = []) (hbound : (s.tile t).fill.bound ≠ some (mmOp h).acc)
    (hf : mmFault h = none) (hrun : (s.tile t).mat.run = []) (hre : (s.tile t).mat.recompute = [])
    (hue : (mmOp h).spr = true → ocUe (s.tile t) [historyRange (mmOp h)] = none) (hc : ((s.tile t).acc (mmOp h).acc).chain = [])
    (hsnap : (s.tile t).mat.snap = none) (h2 : (mmOp h).acc < 2) : Answers (.mm t) s fun u =>
      (u.tile t).mat.run = [⟨h, .product (mmOp h) (skipBits (s.tile t) (mmOp h)) 0⟩] ∧ (u.tile t).acc (mmOp h).acc = startAcc (s.tile t) h ∧
      (u.tile t).acc (1 - (mmOp h).acc) = (s.tile t).acc (1 - (mmOp h).acc) ∧
      (u.tile t).mat.unpaired = (if (mmOp h).spr then (s.tile t).mat.unpaired ++
        [⟨(mmOp h).acc, mmOp h, skipBits (s.tile t) (mmOp h), some 0, s.now⟩] else (s.tile t).mat.unpaired) ∧
      (u.tile t).mat.snap = (if (mmOp h).spr ∧ (mmOp h).ovw = false then some ((mmOp h).acc, (s.tile t).acc (mmOp h).acc) else none) ∧
      (u.tile t).mat.queue = (s1.tile t).mat.queue.tail ∧ (u.tile t).tk = (s1.tile t).tk ∧ (u.tile t).oc = (s.tile t).oc ∧
      (u.tile t).vec = (s.tile t).vec ∧ (∀ j, j ≠ t.val → u.tile j = s.tile j) ∧ u = { s with tiles := u.tiles } := by
  obtain ⟨-, -, ho, hw⟩ := mat_popped hs
  obtain ⟨v0, v1, hset⟩ := setAcc_frame (matPopped s s1 t) (mmOp h).acc (startAcc (s.tile t) h)
  refine ⟨_, matrix_starts (i := .mm t) hs rfl (startMM_starts hs hb hbound hf hrun hre hue hc hsnap), ?_⟩
  beta_reduce
  rw [tile_setTile_same]
  refine ⟨rfl, ?_, ?_, rfl, ?_, ?_, ?_, ?_, ?_, fun j hj => by rw [tile_setTile_ne _ _ hj, ho j hj], setTile_frame hw _ _⟩
  · exact acc_setAcc_same _ _ _
  · exact acc_setAcc_other _ _ h2
  · exact if_congr (by simp) rfl rfl
  all_goals
    simp only [mmStarted, hset]
    rfl

end Start

/-! ### A step of a product -/

/-- A trap leaves the registers that do not hold its record. -/
theorem getF_trap_ne (s : State) (t unit code pc info : Nat) {g : Fld} (hm : fldKey g ≠ fldKey (fTILE_TRAP_CAUSE_MULTI t))
    (h : ∀ f ∈ trapFields t, fldKey g ≠ fldKey f) : getF (trap s t unit code pc info) g = getF s g := by
  simp only [trapFields, List.mem_cons, List.not_mem_nil, or_false, forall_eq_or_imp, forall_eq] at h
  obtain ⟨hv, hu, hc, hp, hi⟩ := h
  simp only [trap]
  split
  · rfl
  split
  · split
    · rw [getF_setFs_ne _ _ (by simp [hu, hc, hp, hi]), getF_setF_ne _ _ hm]
    · exact getF_setF_ne _ _ hm
  · rw [getF_onTile, getF_setFs_ne _ _ (by simp [hv, hu, hc, hp, hi])]

/-- An event leaves the registers other than the count of lost events. -/
theorem getF_postEvent_other (s : State) (a b c d e f : Nat) {g : Fld} (h : fldKey g ≠ fldKey fPM_LOG_STATUS_HW_LOST) :
    getF (postEvent s a b c d e f) g = getF s g := by
  simp only [postEvent, postEventAt]
  split
  · rfl
  · exact getF_setF_ne _ _ h

/-- A lapse marks the tile, and its leaf is set; a trap may follow. -/
theorem lapse_facts (s : State) (t : Tid) (acc pc info : Nat) : (∃ a b c, (lapse s t acc pc info).tile t =
      { (s.tile t).setAcc acc { (s.tile t).acc acc with lapsed := true } with aborting := a, trapTime := b, trapCycles := c }) ∧
    (∀ j, j ≠ t.val → (lapse s t acc pc info).tile j = s.tile j) ∧ (lapse s t acc pc info).mem = s.mem ∧
    bit (getF (lapse s t acc pc info) (fINT_CAUSE_LEAF 4)) 0 = true := by
  obtain ⟨w, hw⟩ : ∃ w, w = postEvent (setLeaf (s.onTile t fun x => x.setAcc acc { x.acc acc with lapsed := true }) 4 0) 0x20 1 5 t acc 0 := ⟨_, rfl⟩
  have htiles : w.tiles = (s.onTile t fun x => x.setAcc acc { x.acc acc with lapsed := true }).tiles := by rw [hw, postEvent_tiles, setLeaf_tiles]
  have hself : w.tile t = (s.tile t).setAcc acc { (s.tile t).acc acc with lapsed := true } := by rw [tile_tiles htiles, tile_onTile_same]
  have hother (j : Nat) (hj : j ≠ t.val) : w.tile j = s.tile j := by rw [tile_tiles htiles, tile_onTile_ne _ _ hj]
  have hmem : w.mem = s.mem := by rw [hw, postEvent_mem, setLeaf_mem]; rfl
  have hleaf : bit (getF w (fINT_CAUSE_LEAF 4)) 0 = true := by
    rw [hw, getF_postEvent_other _ _ _ _ _ _ _ (by decide)]
    exact setLeaf_sets _ (by decide) (by decide)
  have he : lapse s t acc pc info = if bitF w (fTILE_MAT_CTL_LAPSE_TRAP t) then trap w t 1 cBOUND_LAPSED pc info else w := by rw [hw]; rfl
  rw [he]
  split
  · obtain ⟨a, b, c, ht⟩ := trap_tile w t 1 cBOUND_LAPSED pc info t
    refine ⟨⟨a, b, c, by rw [ht, hself]⟩, fun j hj => by rw [trap_other _ _ _ _ _ hj, hother j hj], by rw [trap_mem, hmem], ?_⟩
    rw [getF_trap_ne _ _ _ _ _ _ (by simp [fldKey, fINT_CAUSE_LEAF, fTILE_TRAP_CAUSE_MULTI]; omega) (by
      simp only [trapFields, List.mem_cons, List.not_mem_nil, or_false, forall_eq_or_imp, forall_eq, fldKey, fINT_CAUSE_LEAF, fTILE_TRAP_CAUSE_VALID,
        fTILE_TRAP_CAUSE_UNIT, fTILE_TRAP_CAUSE_CODE, fTILE_TRAP_PC_PC, fTILE_TRAP_INFO_INFO]
      omega)]
    exact hleaf
  · exact ⟨⟨_, _, _, hself⟩, hother, hmem, hleaf⟩

section Step
variable {s : State} {t : Tid} {e : QEntry} {op : MMOp} {skip : List Bool} {k : Nat}

/-- The term that step k adds to element key, with its overflow (R148 to R152). -/
def termOf (x : Tile) (op : MMOp) (skip : List Bool) (k key : Nat) : Option (Nat × Bool) :=
  if key / 128 < op.m ∧ key % 128 < op.n then stepTerm x op skip k (key / 128) (key % 128) else none

/-- Whether a term of the step overflows. -/
def stepOverflows (x : Tile) (op : MMOp) (skip : List Bool) (k : Nat) : Bool :=
  op.a16 && (List.range 16384).any fun key => match termOf x op skip k key with | some (_, o) => o | none => false

/-- The accumulator after step k, but for the lapse of its bound. -/
def stepAcc (x : Tile) (op : MMOp) (skip : List Bool) (k : Nat) : Acc :=
  { (x.acc op.acc).map (fun key e => match termOf x op skip k key with | some (v, _) => e.term v | none => e) with
    l1 := (x.acc op.acc).l1 + 1
    ovf16 := (x.acc op.acc).ovf16 || stepOverflows x op skip k }

/-- The tile on which the step counts as done. -/
def stepTaken (s : State) (t : Nat) (e : QEntry) (op : MMOp) (skip : List Bool) (k : Nat) : Tile :=
  { s.tile t with mat := { (s.tile t).mat with run := [⟨e, .product op skip (k + 1)⟩], busyAt := s.now } }

theorem chunkStep_runs (hl : isLive s t = true) (hk : clkRuns s t = true) (hb : (s.tile t).regBad = [])
    (hrun : (s.tile t).mat.run = [⟨e, .product op skip k⟩]) (hlt : k < op.steps) (h1 : ((s.tile t).acc op.acc).l1 ≠ 2 ^ 20)
    (hue : ocUe (s.tile t) (op.stepRanges skip k) = none) : exec (.mmChunkStep t false) s = .next (
      if ((s.tile t).acc op.acc).l2 = 2 ^ 20 ∧ (!((s.tile t).acc op.acc).lapsed) = true then
        lapse (s.setTile t ((stepTaken s t e op skip k).setAcc op.acc (stepAcc (s.tile t) op skip k))) t op.acc e.pc op.acc
      else s.setTile t ((stepTaken s t e op skip k).setAcc op.acc (stepAcc (s.tile t) op skip k))) := by
  have hfirst : firstIdx (fun r : MatRun => r.stepping (s.tile t)) [⟨e, .product op skip k⟩] = some 0 := by
    rw [firstIdx, if_pos (by simp [MatRun.stepping, hlt])]
  show Host.Outcome.next (sameCycle s t 1 _) = _
  rw [sameCycle_live _ hl]
  simp only [hl, hk, hrun, hfirst, h1, hue, accBad_good hb, Bool.not_true, Bool.or_self, Bool.false_eq_true, if_false, List.getElem?_cons_zero, replaceAt]
  show Host.Outcome.next (chunkStep (s.setTile t (stepTaken s t e op skip k)) t op skip k e.pc) = _
  have hacc (n : Nat) : (stepTaken s t e op skip k).acc n = (s.tile t).acc n := rfl
  have hterm (i m n : Nat) : stepTerm (stepTaken s t e op skip k) op skip i m n = stepTerm (s.tile t) op skip i m n := rfl
  simp only [chunkStep, tile_setTile_same, hacc, hterm]
  rw [setTile_setTile _ _ _ fun h => absurd (congrArg (fun x => x.mat.run) h) (List.cons_ne_nil _ _)]
  rfl

/-- The accumulator map of a step, spelled with the bounds of the product. -/
theorem stepAcc_map (x : Tile) (op : MMOp) (skip : List Bool) (k : Nat) : (x.acc op.acc).map (fun key v => if key / 128 < op.m ∧ key % 128 < op.n then
      (match stepTerm x op skip k (key / 128) (key % 128) with | some (z, _) => v.term z | none => v) else v) =
    (x.acc op.acc).map (fun key e => match termOf x op skip k key with | some (v, _) => e.term v | none => e) := by
  congr 1
  funext key v
  simp only [termOf]
  split <;> rfl

theorem stepOverflows_iff (x : Tile) (op : MMOp) (skip : List Bool) (k : Nat) : stepOverflows x op skip k = true ↔
    op.a16 = true ∧ ∃ m n z, m < op.m ∧ n < op.n ∧ m < 128 ∧ n < 128 ∧ stepTerm x op skip k m n = some (z, true) := by
  simp only [stepOverflows, Bool.and_eq_true, List.any_eq_true, List.mem_range]
  refine and_congr_right fun _ => ⟨?_, ?_⟩
  · rintro ⟨key, hkey, h⟩
    simp only [termOf] at h
    split at h
    · next z o hs =>
      split at hs
      · next hb => exact ⟨key / 128, key % 128, z, hb.1, hb.2, by omega, by omega, by rw [hs, h]⟩
      · exact absurd hs (by simp)
    · exact absurd h (by decide)
  · rintro ⟨m, n, z, hm, hn, hm', hn', h⟩
    have hd : (128 * m + n) / 128 = m := by omega
    have hr : (128 * m + n) % 128 = n := by omega
    refine ⟨128 * m + n, by omega, ?_⟩
    rw [termOf, hd, hr, if_pos ⟨hm, hn⟩, h]

theorem step_adds (h2 : op.acc < 2) (hl : isLive s t = true) (hk : clkRuns s t = true) (hb : (s.tile t).regBad = [])
    (hrun : (s.tile t).mat.run = [⟨e, .product op skip k⟩]) (hlt : k < op.steps) (h1 : ((s.tile t).acc op.acc).l1 ≠ 2 ^ 20)
    (hue : ocUe (s.tile t) (op.stepRanges skip k) = none) : Answers (.mmChunkStep t false) s fun u =>
      (u.tile t).mat.run = [⟨e, .product op skip (k + 1)⟩] ∧
      (u.tile t).acc op.acc = { stepAcc (s.tile t) op skip k with
        lapsed := ((s.tile t).acc op.acc).lapsed || decide (((s.tile t).acc op.acc).l2 = 2 ^ 20) } ∧
      (u.tile t).acc (1 - op.acc) = (s.tile t).acc (1 - op.acc) ∧ (u.tile t).oc = (s.tile t).oc ∧ (u.tile t).vec = (s.tile t).vec ∧
      (u.tile t).tk = (s.tile t).tk ∧ (∀ j, j ≠ t.val → u.tile j = s.tile j) ∧ u.mem = s.mem ∧
      (((s.tile t).acc op.acc).l2 = 2 ^ 20 → ((s.tile t).acc op.acc).lapsed = false → bit (getF u (fINT_CAUSE_LEAF 4)) 0 = true) ∧
      (¬ (((s.tile t).acc op.acc).l2 = 2 ^ 20 ∧ ((s.tile t).acc op.acc).lapsed = false) → u = { s with tiles := u.tiles }) := by
  have he := chunkStep_runs hl hk hb hrun hlt h1 hue
  have hlapsed : (stepAcc (s.tile t) op skip k).lapsed = ((s.tile t).acc op.acc).lapsed := rfl
  obtain ⟨y, hy⟩ : ∃ y, y = (stepTaken s t e op skip k).setAcc op.acc (stepAcc (s.tile t) op skip k) := ⟨_, rfl⟩
  rw [← hy] at he
  have hacc : y.acc op.acc = stepAcc (s.tile t) op skip k := by rw [hy, acc_setAcc_same]
  have hoth : y.acc (1 - op.acc) = (s.tile t).acc (1 - op.acc) := by rw [hy, acc_setAcc_other _ _ h2]; rfl
  obtain ⟨v0, v1, hset⟩ := setAcc_frame (stepTaken s t e op skip k) op.acc (stepAcc (s.tile t) op skip k)
  rw [← hy] at hset
  refine ⟨_, he, ?_⟩
  split
  · next hc =>
    obtain ⟨⟨a, b, c, ht⟩, ho, hm, hbit⟩ := lapse_facts (s.setTile t y) t op.acc e.pc op.acc
    rw [tile_setTile_same] at ht
    obtain ⟨w0, w1, hset'⟩ := setAcc_frame y op.acc { y.acc op.acc with lapsed := true }
    have hu (n : Nat) : ((lapse (s.setTile t y) t op.acc e.pc op.acc).tile t).acc n = (y.setAcc op.acc { y.acc op.acc with lapsed := true }).acc n := by
      rw [ht]; rfl
    refine ⟨?_, ?_, ?_, ?_, ?_, ?_, fun j hj => by rw [ho j hj, tile_setTile_ne _ _ hj], hm, fun _ _ => hbit,
      fun hn => absurd ⟨hc.1, by simpa using hc.2⟩ hn⟩
    · rw [ht, hset', hset]; rfl
    · rw [hu, acc_setAcc_same, hacc, hc.1]
      simp
    · rw [hu, acc_setAcc_other _ _ h2, hoth]
    · rw [ht, hset', hset]; rfl
    · rw [ht, hset', hset]; rfl
    · rw [ht, hset', hset]; rfl
  · next hc =>
    have hl2 : (((s.tile t).acc op.acc).lapsed || decide (((s.tile t).acc op.acc).l2 = 2 ^ 20)) = ((s.tile t).acc op.acc).lapsed := by
      cases hv : ((s.tile t).acc op.acc).lapsed
      · simpa [hv] using hc
      · rfl
    rw [tile_setTile_same]
    refine ⟨?_, ?_, hoth, ?_, ?_, ?_, fun j hj => tile_setTile_ne _ _ hj, rfl, fun ha hb => absurd ⟨ha, by rw [hb]; rfl⟩ hc, fun _ => rfl⟩
    · rw [hset]; rfl
    · rw [hacc, hl2, ← hlapsed]
    · rw [hset]; rfl
    · rw [hset]; rfl
    · rw [hset]; rfl

/-! ### Folds and the end of a product -/

theorem fold_acts {a : AccNo} (hl : isLive s t = true) (hk : clkRuns s t = true) (hb : (s.tile t).regBad = []) (h1 : ((s.tile t).acc a).l1 = 2 ^ 20) :
    Answers (.fold t ⟨a, false⟩) s fun u => TileBecomes s u t ((s.tile t).setAcc a
      { ((s.tile t).acc a).map (fun _ e => e.fold) with l1 := 0, l2 := min (((s.tile t).acc a).l2 + 1) (2 ^ 20), folded := true }) := by
  have he : exec (.fold t ⟨a, false⟩) s = .next (s.setTile t ((s.tile t).setAcc a ((s.tile t).acc a).fold)) := by
    show Host.Outcome.next (sameCycle s t 1 _) = _
    rw [sameCycle_live _ hl]
    simp only [hl, hk, h1, accBad_good hb, foldDue, Bool.not_true, Bool.or_self, bne_self_eq_false, Bool.false_eq_true, if_false, if_true]
  exact ⟨_, he, setTile_becomes _ _ _⟩

theorem fold_idle {a : AccNo} (ue : Bool) (hl : isLive s t = true) (h1 : ((s.tile t).acc a).l1 ≠ 2 ^ 20) : exec (.fold t ⟨a, ue⟩) s = .next s := by
  show Host.Outcome.next (sameCycle s t 1 _) = _
  rw [sameCycle_live _ hl]
  exact congrArg Host.Outcome.next (if_pos (by simp only [Bool.or_eq_true, bne_iff_ne]; exact .inr h1))

theorem mm_completes (hl : isLive s t = true) (hk : clkRuns s t = true) (hrun : (s.tile t).mat.run = [⟨e, .product op skip k⟩]) (hge : op.steps ≤ k)
    (h1 : ((s.tile t).acc op.acc).l1 ≠ 2 ^ 20) : Answers (.mmComplete t) s fun u =>
      (u.tile t).mat = { (s.tile t).mat with run := [] } ∧ SignalApplied s u t e ∧ (u.tile t).oc = (s.tile t).oc ∧ (u.tile t).vec = (s.tile t).vec ∧
      (∀ j, j ≠ t.val → u.tile j = s.tile j) ∧ u.mem = s.mem := by
  have hdone : firstIdx (fun r : MatRun => !r.moves && !r.stepping (s.tile t)) [⟨e, .product op skip k⟩] = some 0 := by
    rw [firstIdx, if_pos (by simp only [MatRun.moves, MatRun.stepping, Nat.not_lt.mpr hge, beq_false_of_ne h1]; rfl)]
  obtain ⟨w, hw⟩ : ∃ w, w = s.setTile t { s.tile t with mat := { (s.tile t).mat with run := [] } } := ⟨_, rfl⟩
  have he : exec (.mmComplete t) s = .next (applySignal w t 1 e) := by
    show execMmComplete t s = _
    simp only [execMmComplete, hl, hk, hrun, hdone, Bool.not_true, Bool.or_self, Bool.false_eq_true, if_false, List.getElem?_cons_zero, removeAt,
      List.take_zero, saveBefore, List.any_nil, hw]
  have hwt : w.tile t = { s.tile t with mat := { (s.tile t).mat with run := [] } } := by rw [hw, tile_setTile_same]
  have hwl : isLive w t = true := isLive_of hl (by rw [hw]; rfl) (by rw [hwt]) (by rw [hwt])
  obtain ⟨⟨l, b, c, d, ht⟩, hsig, ho, hmem⟩ := applySignal_facts 1 e hwl
  refine ⟨_, he, by rw [ht, hwt], hsig.of_counters (by rw [hwt]), by rw [ht, hwt], by rw [ht, hwt], fun j hj => ?_, by rw [hmem, hw]; rfl⟩
  rw [ho j hj, hw, tile_setTile_ne _ _ hj]

end Step

/-- Settles O22: a product starts, adds one term in each step, folds where it must, and completes with its signal. -/
theorem matrixProduct : Obligations.MatrixProduct := by
  unfold Obligations.MatrixProduct
  intro s s1 t h op x hx hb
  subst hx
  refine ⟨fun hs hop hbound hf hrun hre hue hc hsnap h2 => ?start, fun e skip k a hl hk hrun hlt h2 ha h1 hue => ?step,
    fun a hl hk => ⟨fold_acts hl hk hb, fun h1 ue => fold_idle ue hl h1⟩, fun e skip k hl hk hrun hge h1 => mm_completes hl hk hrun hge h1⟩
  case start =>
    subst hop
    exact mm_starts hs hb hbound hf hrun hre hue hc hsnap h2
  case step =>
    subst ha
    obtain ⟨u, he, hr, hacc, hrest⟩ := step_adds h2 hl hk hb hrun hlt h1 hue
    refine ⟨u, he, hr, ⟨((s.tile t).acc op.acc).ovf16 || stepOverflows (s.tile t) op skip k, ?_, ?_⟩, hrest⟩
    · rw [hacc, stepAcc, ← stepAcc_map] <;> rfl
    · rw [Bool.or_eq_true, stepOverflows_iff]

end Sys2Proof.Machine
end

section
/-! PROOFS. Starts and failures of transfers (O25). -/

namespace Sys2Proof.Machine

/-! ### Two transfers of one number -/

/-- An SFLASH of the flash tiles 3 and 4 with an error token, from s1 to s4. -/
def twoTiles : QEntry := ⟨9232451856512319488, 0, [(1, 3), (2, 0x40000), (3, 2), (4, 100)], 0, none, false, none⟩

/-- The same instruction, under way as transfer 0 with no flash tile left to ask for. -/
def askedAll : StrRun := ⟨0, twoTiles, 0, none, RRead.start false, [], none, none⟩

/-- Tile 0 with that transfer, the instruction at the head of its queue, and 0 as the number of the next transfer. -/
def sameNumberTile : Tile :=
  { Tile.reset with
    phase := .running
    str := { StrUnit.reset with queue := [twoTiles], run := [askedAll] } }

def sameNumber : State := (setF State.reset (fPKG_DIE_STATUS_STATE 0) 1).setTile 0 sameNumberTile

theorem sameNumber_tile : sameNumber.tile (0 : Tid).val = sameNumberTile := tile_setTile_same _ _ _

theorem sameNumber_starts : Starts sameNumber 0 .stream 0x20 2 twoTiles sameNumber := by
  refine ⟨by decide, by decide, ?_⟩
  rw [takeToken, if_pos (by decide)]

/-- The older transfer is still the first one when the new one has started. -/
theorem sameNumber_older {u : State} (h : exec (.sflash 0) sameNumber = .next u) : askedAll ∈ (u.tile (0 : Tid).val).str.run := by
  have hv : (match exec (.sflash 0) sameNumber with | .next u => (u.tile 0).str.run.head? | _ => none) = some askedAll := by decide
  rw [h] at hv
  exact List.mem_of_mem_head? hv

/-- Refutes O25: the statement takes the number and the instruction for the name of the new transfer, but nothing in it keeps an older transfer from
bearing both. Such a one, with its flash tiles asked for, stays in the list, and its flash tiles are not those of the instruction. -/
theorem not_transferStartsAndFailures : ¬ Obligations.TransferStartsAndFailures := by
  unfold Obligations.TransferStartsAndFailures
  rintro ⟨hstart, -⟩
  obtain ⟨hgood, -⟩ := hstart sameNumber sameNumber 0 twoTiles (.sflash 0) 2 (.inr (.inr (.inl ⟨rfl, rfl⟩))) sameNumber_starts
  obtain ⟨u, hu, -, hflash⟩ := hgood (by decide) rfl
  have hold := (hflash rfl).1 askedAll (sameNumber_older hu) (by rw [sameNumber_tile]; rfl) rfl
  exact absurd hold (by decide)

end Sys2Proof.Machine
end

section
/-! PROOFS. Items of the deferral queue (O29). -/

namespace Sys2Proof.Machine

/-! ### The head item -/

section Items
variable {s : State} {t : Tid} {i a : Nat}

theorem deferHead_live (h : deferHead s t = some i) : isLive s t = true := by
  unfold deferHead at h
  by_contra hl
  simp [hl] at h

theorem deferHead_still (h : deferHead s t = some i) : (s.tile t).fill.move = none := by
  unfold deferHead at h
  cases hm : (s.tile t).fill.move with
  | none => rfl
  | some m => simp [hm] at h

/-- A fault of the head item is the first of its task, for the matrix unit with pc 0. -/
theorem deferTrap_first {code : Nat} {c : Instr} (hl : isLive s t = true) (hc : code < 256) (he : exec c s = .next (deferTrap s t i code)) :
    TrapsFirst c s t 1 code 0 i := by
  have h := trap_taken 1 code 0 (i % 2 ^ 64) hl (by decide) hc
  obtain ⟨hv, hu, hcode, hpc, hinfo, hk, ht, ho, hs⟩ := h
  rw [Nat.mod_mod] at hinfo
  exact ⟨_, he, hv, hu, hcode, hpc, hinfo, hk, ht, ho, hs⟩

/-- The head item completes, where only the fill unit has changed so far. -/
theorem itemDone_facts {g : FillUnit} {v : State} (hl : isLive s t = true) (hv : TileBecomes s v t { s.tile t with fill := g })
    (hg : g.defer = (s.tile t).fill.defer ∧ g.move = (s.tile t).fill.move ∧ g.opt = (s.tile t).fill.opt ∧ g.level = (s.tile t).fill.level) :
    ItemDone s (itemDone v t i) t i ∧ ((itemDone v t i).tile t).fill.bound = g.bound ∧
    ((itemDone v t i).tile t).fill.res = g.res ∧ ((itemDone v t i).tile t).mat = (s.tile t).mat := by
  obtain ⟨h1, h2, h3, h4⟩ := hg
  obtain ⟨hself, hother, hrest⟩ := hv
  obtain ⟨w, hw⟩ : ∃ w, w = v.onFill t fun f =>
    { f with defer := f.defer.tail, slice := none, quads := [], level := if f.level = 1 ∧ f.defer.length ≤ 1 then 0 else f.level } := ⟨_, rfl⟩
  have he : itemDone v t i = if itemSe i then tkAdd w t (itemStk i) 1 1 0 else w := by rw [hw]; rfl
  have hwt : w.tile t = { s.tile t with fill := { g with
      defer := g.defer.tail, slice := none, quads := [], level := if g.level = 1 ∧ g.defer.length ≤ 1 then 0 else g.level } } := by
    rw [hw, State.onFill, tile_onTile_same, hself]
  have hwl : isLive w t = true := isLive_of hl (by rw [hw, hrest]; rfl) (by rw [hwt]) (by rw [hwt])
  have hwo (j : Nat) (hj : j ≠ t.val) : w.tile j = s.tile j := by rw [hw, State.onFill, tile_onTile_ne _ _ hj, hother j hj]
  have hwk (j : Nat) : tkCount (w.tile t) j = tkCount (s.tile t) j := by rw [hwt]; rfl
  have hwm : w.mem = s.mem := by rw [hw, hrest]; rfl
  rw [he]
  split
  · next hse =>
    obtain ⟨l, b, c, d, ht⟩ := tkAdd_tile w t (itemStk i) 1 1 0 t
    refine ⟨⟨?_, ?_, ?_, ?_, ?_, ?_, fun j => ?_, ?_, ?_, fun j hj => ?_, ?_⟩, ?_, ?_, ?_⟩
    · rw [ht, hwt, ← h1]
    · rw [ht, hwt]
    · rw [ht, hwt]
    · rw [ht, hwt, ← h2]
    · rw [ht, hwt, ← h3]
    · rw [ht, hwt, ← h1, ← h4]
    · rw [tkAdd_one hwl j, hwk]
      exact if_congr (by simp [hse]) rfl rfl
    · rw [ht, hwt]
    · rw [ht, hwt]
    · rw [tkAdd_other _ hj, hwo j hj]
    · rw [tkAdd_mem, hwm]
    · rw [ht, hwt]
    · rw [ht, hwt]
    · rw [ht, hwt]
  · next hse =>
    refine ⟨⟨?_, ?_, ?_, ?_, ?_, ?_, fun j => ?_, ?_, ?_, hwo, hwm⟩, ?_, ?_, ?_⟩
    · rw [hwt, ← h1]
    · rw [hwt]
    · rw [hwt]
    · rw [hwt, ← h2]
    · rw [hwt, ← h3]
    · rw [hwt, ← h1, ← h4]
    · rw [hwk, if_neg fun h => hse h.1]
    · rw [hwt]
    · rw [hwt]
    · rw [hwt]
    · rw [hwt]
    · rw [hwt]

theorem productFault_lt {c : Nat} (h : productFault s i = some c) : c < 256 := by
  unfold productFault at h
  dsimp only at h
  (repeat' split at h) <;> cases h <;> decide

/-! ### BIND, DRAIN and RELEASE -/

theorem bind_acts (hh : deferHead s t = some i) (ht : itemType i = 1) (hb : shortItemBad i true = false) (hn : (s.tile t).fill.bound = none)
    (hu : ((s.tile t).acc (itemOvw i).toNat).unverified = false) (hr : ∀ r ∈ (s.tile t).mat.run, r.acc ≠ (itemOvw i).toNat) : Answers (.bind t) s fun u =>
      ItemDone s u t i ∧ (u.tile t).fill.bound = some (itemOvw i).toNat ∧ (u.tile t).fill.res = (s.tile t).fill.res ∧ (u.tile t).mat = (s.tile t).mat := by
  have hl := deferHead_live hh
  have hrun : ((s.tile t).mat.run.any fun r => r.acc == (itemOvw i).toNat) = false := List.any_eq_false.mpr fun r hm => by simpa using hr r hm
  have he : exec (.bind t) s = .next (itemDone (s.onFill t fun f => { f with bound := some (itemOvw i).toNat }) t i) := by
    show Host.Outcome.next (sameCycle s t 1 _) = _
    rw [sameCycle_live _ hl]
    simp [hh, ht, hb, hn, hu, hrun]
  exact ⟨_, he, itemDone_facts hl (setTile_becomes _ _ _) ⟨rfl, rfl, rfl, rfl⟩⟩

theorem bind_faults (hh : deferHead s t = some i) (ht : itemType i = 1) (hb : shortItemBad i true = true ∨ (s.tile t).fill.bound ≠ none) :
    TrapsFirst (.bind t) s t 1 cDEFER_BAD 0 i := by
  have hl := deferHead_live hh
  refine deferTrap_first hl (by decide) ?_
  show Host.Outcome.next (sameCycle s t 1 _) = _
  rw [sameCycle_live _ hl]
  have hc : (shortItemBad i true || (s.tile t).fill.bound.isSome) = true := by
    rw [Bool.or_eq_true, Option.isSome_iff_ne_none]
    exact hb
  simp only [hh, ht, hc, ne_eq, not_true_eq_false, if_false, if_true]

section Short
variable (hh : deferHead s t = some i) (hb : shortItemBad i false = false)
include hh hb

theorem drain_done (ht : itemType i = 2) (hn : (s.tile t).fill.bound = some a) (hr : (s.tile t).fill.res = none) : Answers (.drain t) s fun u =>
    ItemDone s u t i ∧ (u.tile t).fill.bound = some a ∧ (u.tile t).mat = (s.tile t).mat := by
  have hl := deferHead_live hh
  have he : exec (.drain t) s = .next (itemDone s t i) := by
    show Host.Outcome.next (sameCycle s t 1 _) = _
    rw [sameCycle_live _ hl]
    simp [hh, ht, hb, hn, hr]
  obtain ⟨h1, h2, -, h4⟩ := itemDone_facts (i := i) hl (g := (s.tile t).fill) ⟨rfl, fun _ _ => rfl, rfl⟩ ⟨rfl, rfl, rfl, rfl⟩
  exact ⟨_, he, h1, h2.trans hn, h4⟩

theorem drain_writesBack (ht : itemType i = 2) (hn : (s.tile t).fill.bound = some a) (hr : (s.tile t).fill.res ≠ none) : Answers (.drain t) s fun u =>
    TileBecomes s u t { s.tile t with fill := { (s.tile t).fill with move := some (.writeBack .drain) } } := by
  have hl := deferHead_live hh
  obtain ⟨r, hr⟩ := Option.ne_none_iff_exists'.mp hr
  have he : exec (.drain t) s = .next (s.onFill t fun f => { f with move := some (.writeBack .drain) }) := by
    show Host.Outcome.next (sameCycle s t 1 _) = _
    rw [sameCycle_live _ hl]
    simp [hh, ht, hb, hn, hr]
  exact ⟨_, he, setTile_becomes _ _ _⟩

theorem drain_unbound (ht : itemType i = 2) (hn : (s.tile t).fill.bound = none) : TrapsFirst (.drain t) s t 1 cDEFER_UNBOUND 0 i := by
  have hl := deferHead_live hh
  refine deferTrap_first hl (by decide) ?_
  show Host.Outcome.next (sameCycle s t 1 _) = _
  rw [sameCycle_live _ hl]
  simp [hh, ht, hb, hn]

theorem release_done (ht : itemType i = 3) (hn : (s.tile t).fill.bound = none ∨ (s.tile t).fill.res = none) : Answers (.release t) s fun u =>
    ItemDone s u t i ∧ (u.tile t).fill.bound = none ∧ (u.tile t).mat = (s.tile t).mat := by
  have hl := deferHead_live hh
  have he : exec (.release t) s = .next (itemDone (s.onFill t fun f => { f with bound := none }) t i) := by
    show Host.Outcome.next (sameCycle s t 1 _) = _
    rw [sameCycle_live _ hl]
    simp only [hh, ht, hb, ne_eq, not_true_eq_false, if_false, Bool.false_eq_true]
    rcases hn with hn | hn <;> rw [hn]
    cases (s.tile t).fill.bound <;> rfl
  obtain ⟨h1, h2, -, h4⟩ := itemDone_facts (i := i) hl (setTile_becomes s t _) (g := { (s.tile t).fill with bound := none }) ⟨rfl, rfl, rfl, rfl⟩
  exact ⟨_, he, h1, h2, h4⟩

theorem release_writesBack (ht : itemType i = 3) (hn : (s.tile t).fill.bound ≠ none) (hr : (s.tile t).fill.res ≠ none) : Answers (.release t) s fun u =>
    TileBecomes s u t { s.tile t with fill := { (s.tile t).fill with move := some (.writeBack .release) } } := by
  have hl := deferHead_live hh
  obtain ⟨r, hr⟩ := Option.ne_none_iff_exists'.mp hr
  obtain ⟨b, hn⟩ := Option.ne_none_iff_exists'.mp hn
  have he : exec (.release t) s = .next (s.onFill t fun f => { f with move := some (.writeBack .release) }) := by
    show Host.Outcome.next (sameCycle s t 1 _) = _
    rw [sameCycle_live _ hl]
    simp [hh, ht, hb, hn, hr]
  exact ⟨_, he, setTile_becomes _ _ _⟩

end Short

/-! ### PRODUCT -/

theorem product_faults {c : Nat} (hh : deferHead s t = some i) (ht : itemType i = 0) (hs : (s.tile t).fill.slice = none) (hf : productFault s i = some c) :
    TrapsFirst (.product t) s t 1 c 0 i := by
  have hl := deferHead_live hh
  refine deferTrap_first hl (productFault_lt hf) ?_
  show Host.Outcome.next (sameCycle s t 1 _) = _
  rw [sameCycle_live _ hl]
  simp [hh, ht, hs, hf]

theorem product_unbound (hh : deferHead s t = some i) (ht : itemType i = 0) (hs : (s.tile t).fill.slice = none) (hf : productFault s i = none)
    (hn : (s.tile t).fill.bound = none) : TrapsFirst (.product t) s t 1 cDEFER_UNBOUND 0 i := by
  have hl := deferHead_live hh
  refine deferTrap_first hl (by decide) ?_
  show Host.Outcome.next (sameCycle s t 1 _) = _
  rw [sameCycle_live _ hl]
  simp [hh, ht, hs, hf, hn]

/-- What a PRODUCT that reaches the resident block leaves: its tile is y, and the stall counter F counts. -/
theorem stall_counted {F : Fld} {u : State} {y : Tile} (hu : TileBecomes (addF s F 1) u t y) : u.tile t = y ∧ (∀ j, j ≠ t.val → u.tile j = s.tile j) ∧
    Counts s u F 1 ∧ OnlyFields s { u with tiles := s.tiles } [F] := by
  obtain ⟨hy, ho, hs⟩ := hu
  have hg (g : Fld) : getF u g = getF (addF s F 1) g := getF_csr (by rw [hs]) g
  refine ⟨hy, fun j hj => ho j hj, ?_, fun g hk => ?_, ?_⟩
  · rw [Counts, hg, addF, getF_setF_same]
  · have hne : fldKey g ≠ fldKey F := by simpa using hk
    exact (hg g).trans (getF_setF_ne _ _ hne)
  · rw [hs]
    rfl

/-- The slices begin, where the row mask can be read. -/
theorem beginSlices_becomes {w : State} (hue : ocUe (w.tile t) (maskRanges i) = none) : TileBecomes w (beginSlices w t i a) t
    { w.tile t with fill := { (w.tile t).fill with
      slice := some 0, quads := quadrants (w.tile t) i (itemOp i a), move := none, res := some (itemImg i, itemGroup i) } } := by
  obtain ⟨v, hv⟩ : ∃ v, v = w.setTile t { w.tile t with fill := { (w.tile t).fill with
      slice := some 0, quads := quadrants (w.tile t) i (itemOp i a), move := none, res := some (itemImg i, itemGroup i) } } := ⟨_, rfl⟩
  have hvt : ocUe (v.tile t) (maskRanges i) = none := by rw [hv, tile_setTile_same]; exact hue
  have he : beginSlices w t i a = if (ocUe (v.tile t) (maskRanges i)).isSome then deferTrap (sramUe v) t i cMEM_UNCORRECTABLE else v := by
    rw [hv]
    rfl
  rw [he, hvt, hv]
  exact setTile_becomes _ _ _

/-- The row mask and the quadrants read the operand cache alone. -/
theorem quadrants_oc {x y : Tile} (h : y.oc = x.oc) (op : MMOp) : quadrants y i op = quadrants x i op := by
  simp only [quadrants, frozen, h]

theorem setAcc_oc (x : Tile) (n : Nat) (v : Acc) : (x.setAcc n v).oc = x.oc := by
  obtain ⟨v0, v1, h⟩ := setAcc_frame x n v
  rw [h]

/-- The slices of a PRODUCT begin on the bound tile, cleared first with OVW. -/
theorem clearedSlices_become {w : State} (hb : (w.tile t).regBad = []) (hm : (w.tile t).fill.move = none) (hue : ocUe (w.tile t) (maskRanges i) = none) :
    TileBecomes w (beginSlices (if itemOvw i then w.onTile t fun x => x.putAcc a (x.acc a).clear else w) t i a) t
      { (if itemOvw i then (w.tile t).setAcc a ((w.tile t).acc a).clear else w.tile t) with fill := { (w.tile t).fill with
        slice := some 0, quads := quadrants (w.tile t) i (itemOp i a), res := some (itemImg i, itemGroup i) } } := by
  split
  · obtain ⟨v0, v1, hset⟩ := setAcc_frame (w.tile t) a ((w.tile t).acc a).clear
    have hvt : (w.onTile t fun x => x.putAcc a (x.acc a).clear).tile t = (w.tile t).setAcc a ((w.tile t).acc a).clear := by
      rw [tile_onTile_same, putAcc_good hb]
    obtain ⟨h1, h2, h3⟩ := beginSlices_becomes (a := a) (w := w.onTile t fun x => x.putAcc a (x.acc a).clear) (t := t) (i := i) (by rw [hvt, hset]; exact hue)
    refine ⟨h1.trans ?_, fun j hj => by rw [h2 j hj, tile_onTile_ne _ _ hj], h3.trans rfl⟩
    rw [hvt, quadrants_oc (setAcc_oc ..), hset, ← hm]
  · obtain ⟨h1, h2, h3⟩ := beginSlices_becomes (a := a) hue
    exact ⟨h1.trans (by rw [← hm]), h2, h3⟩

section Reach
variable (hh : deferHead s t = some i) (ht : itemType i = 0) (hs : (s.tile t).fill.slice = none) (hf : productFault s i = none)
  (hn : (s.tile t).fill.bound = some a) (hlev : (s.tile t).fill.level = 1) (hhold : phaseHolds s = false) (hopt : optHeld (s.tile t) = false)
  (hstuck : queueStuck s t .matrix = true)
include hh ht hs hf hn hlev hhold hopt hstuck

theorem product_hits (hb : (s.tile t).regBad = []) (hue : ocUe (s.tile t) (maskRanges i) = none) {g : Nat}
    (hr : (s.tile t).fill.res = some (itemImg i, g)) : Answers (.product t) s fun u =>
      u.tile t = { (if itemOvw i then (s.tile t).setAcc a ((s.tile t).acc a).clear else s.tile t) with fill := { (s.tile t).fill with
        slice := some 0, quads := quadrants (s.tile t) i (itemOp i a), res := some (itemImg i, itemGroup i) } } ∧
      (∀ j, j ≠ t.val → u.tile j = s.tile j) ∧ Counts s u (fTILE_STALL_COUNT t 10) 1 ∧
      OnlyFields s { u with tiles := s.tiles } [fTILE_STALL_COUNT t 10] := by
  have hl := deferHead_live hh
  have he : exec (.product t) s = .next (beginSlices (if itemOvw i then (addF s (fTILE_STALL_COUNT t 10) 1).onTile t fun x => x.putAcc a (x.acc a).clear
      else addF s (fTILE_STALL_COUNT t 10) 1) t i a) := by
    show Host.Outcome.next (sameCycle s t 1 _) = _
    rw [sameCycle_live _ hl]
    simp [hh, ht, hs, hf, hn, hlev, hhold, hopt, hstuck, hr]
  have hm := deferHead_still hh
  have hbec := clearedSlices_become (w := addF s (fTILE_STALL_COUNT t 10) 1) (a := a) (i := i) hb hm hue
  exact ⟨_, he, stall_counted hbec⟩

theorem product_replaces {ad g : Nat} (hr : (s.tile t).fill.res = some (ad, g)) (hne : ad ≠ itemImg i) : Answers (.product t) s fun u =>
    u.tile t = { s.tile t with fill := { (s.tile t).fill with move := some (.writeBack (if itemOvw i then .toClear else .toLoad)) } } ∧
    (∀ j, j ≠ t.val → u.tile j = s.tile j) ∧ Counts s u (fTILE_STALL_COUNT t 11) 1 ∧
    OnlyFields s { u with tiles := s.tiles } [fTILE_STALL_COUNT t 11] := by
  have hl := deferHead_live hh
  have he : exec (.product t) s = .next ((addF s (fTILE_STALL_COUNT t 11) 1).onFill t fun f =>
      { f with move := some (.writeBack (if itemOvw i then .toClear else .toLoad)) }) := by
    show Host.Outcome.next (sameCycle s t 1 _) = _
    rw [sameCycle_live _ hl]
    cases ho : itemOvw i <;> simp [hh, ht, hs, hf, hn, hlev, hhold, hopt, hstuck, hr, hne, ho]
  exact ⟨_, he, stall_counted (setTile_becomes _ _ _)⟩

theorem product_fills (hb : (s.tile t).regBad = []) (hue : ocUe (s.tile t) (maskRanges i) = none) (hr : (s.tile t).fill.res = none) :
    Answers (.product t) s fun u => u.tile t = (if itemOvw i then { (s.tile t).setAcc a ((s.tile t).acc a).clear with fill := { (s.tile t).fill with
        slice := some 0, quads := quadrants (s.tile t) i (itemOp i a), res := some (itemImg i, itemGroup i) } }
      else { s.tile t with fill := { (s.tile t).fill with move := some .load } }) ∧
    (∀ j, j ≠ t.val → u.tile j = s.tile j) ∧ Counts s u (fTILE_STALL_COUNT t 11) 1 ∧
    OnlyFields s { u with tiles := s.tiles } [fTILE_STALL_COUNT t 11] := by
  have hl := deferHead_live hh
  cases ho : itemOvw i
  · have he : exec (.product t) s = .next ((addF s (fTILE_STALL_COUNT t 11) 1).onFill t fun f => { f with move := some .load }) := by
      show Host.Outcome.next (sameCycle s t 1 _) = _
      rw [sameCycle_live _ hl]
      simp [hh, ht, hs, hf, hn, hlev, hhold, hopt, hstuck, hr, ho]
    exact ⟨_, he, stall_counted (setTile_becomes _ _ _)⟩
  · have he : exec (.product t) s = .next (beginSlices ((addF s (fTILE_STALL_COUNT t 11) 1).onTile t fun x => x.putAcc a (x.acc a).clear) t i a) := by
      show Host.Outcome.next (sameCycle s t 1 _) = _
      rw [sameCycle_live _ hl]
      simp [hh, ht, hs, hf, hn, hlev, hhold, hopt, hstuck, hr, ho]
    have hm := deferHead_still hh
    have hbec := clearedSlices_become (w := addF s (fTILE_STALL_COUNT t 11) 1) (a := a) (i := i) hb hm hue
    rw [ho] at hbec
    exact ⟨_, he, stall_counted hbec⟩

end Reach

end Items

/-- Settles O29: the head item acts by its type, on the resident block or by a fault. -/
theorem deferralItems : Obligations.DeferralItems := by
  unfold Obligations.DeferralItems
  intro s t i a x f hx hb hf hh
  subst hx hf
  refine ⟨fun ht ha => ?bind, fun ht hs => ⟨drain_done hh hs ht, drain_writesBack hh hs ht, drain_unbound hh hs ht⟩,
    fun ht hs => ⟨release_done hh hs ht, release_writesBack hh hs ht⟩, fun ht hs => ⟨fun c hf => product_faults hh ht hs hf, product_unbound hh ht hs,
      fun hf hn hlev hhold hopt hstuck hue => ⟨fun g hr => ?hit, fun ad g hr hne => ?other, fun hr => ?none⟩⟩⟩
  case bind =>
    subst ha
    exact ⟨bind_acts hh ht, bind_faults hh ht⟩
  case hit => exact product_hits hh ht hs hf hn hlev hhold hopt hstuck hb hue hr
  case other => exact product_replaces hh ht hs hf hn hlev hhold hopt hstuck hr hne
  case none => exact product_fills hh ht hs hf hn hlev hhold hopt hstuck hb hue hr

end Sys2Proof.Machine
end

section
/-! PROOFS. Acknowledgements and send rates (O13). -/

namespace Sys2Proof.Machine

/-! ### A packet of the acknowledged message that finds no route -/

/-- A multicast message whose last packet is in flight. -/
def lastInFlight : OutMsg := ⟨0, 0, 0, 0, 0, 0, 0, false, true, [], 0, [], 0, 0, 1, true, .sending, none, false, 0⟩

/-- That packet, to the module itself with sequence number 0. -/
def flyingPacket : OutPkt := ⟨blankPacket 0 tMAIL, .mail 0 0, some 0, 0, false⟩

/-- Another packet of the message, which waits for injection, to position 1. -/
def waitingPacket : OutPkt := ⟨blankPacket 1 tMAIL, .mail 0 0, none, 1, false⟩

/-- The acknowledgement of the packet in flight. -/
def lastAck : InPkt := ⟨0, 0, { blankPacket 0 tACK with payload := List.replicate 8 0 }⟩

def strayWaits : State :=
  { State.reset with
    fab := { State.reset.fab with inq := [lastAck], out := [flyingPacket], wait := [waitingPacket] }
    mail := { State.reset.mail with msgs := [lastInFlight] } }

/-- The message ends FAILED: the waiting packet is taken up once the message is acknowledged, and it has no route (R373). -/
theorem strayWaits_fails {u : State} (h : exec (.ack 0) strayWaits = .next u) : u.mail.msgs.map (fun m => (m.no, m.state)) = [(0, .failed)] := by
  have hv : (match exec (.ack 0) strayWaits with | .next u => u.mail.msgs.map (fun m => (m.no, m.state)) | _ => []) = [(0, .failed)] := by decide
  rw [h] at hv
  exact hv

/-- Refutes O13: the statement allows one packet in flight, but does not say that no packet of the message waits. One that waits is injected at
once; where it has no route the message fails. -/
theorem not_acknowledgementAndRates : ¬ Obligations.AcknowledgementAndRates := by
  unfold Obligations.AcknowledgementAndRates
  intro h
  obtain ⟨hack, -⟩ := h strayWaits
  obtain ⟨u, hu, -, hall⟩ := hack 0 lastAck flyingPacket 0 0 lastInFlight rfl rfl (by decide) (by decide) (by decide) rfl (by decide) rfl (by decide) rfl rfl
    (by decide) rfl
  have hf := strayWaits_fails hu
  obtain ⟨x, hx, hxs⟩ := List.mem_map.1 (show (0, MsgState.failed) ∈ u.mail.msgs.map fun m => (m.no, m.state) by rw [hf]; decide)
  obtain ⟨hno, hst⟩ := Prod.mk.inj hxs
  rw [hall x hx hno] at hst
  exact absurd hst (by decide)

end Sys2Proof.Machine
end

section
/-! PROOFS. Gauge barriers (O9). -/

namespace Sys2Proof.Machine

/-! ### Two entries for one tile -/

/-- A barrier of the module alone, whose one arrival came at 0. -/
def arrived : Bar := ⟨⟨0, 1, 1, 1000⟩, 0, [⟨0, [0], none, [], none, []⟩]⟩

/-- Tile 0 in a GWAIT on a barrier. -/
def gwaiting (b : Nat) : Tile := { Tile.reset with msg := { Tile.reset.msg with gw := some ⟨b, 0, 0, none, false⟩ } }

/-- 100 ns after the arrival at barrier 0; tile 0 waits on barrier 1, and a second entry of its number on barrier 0. -/
def doubledTile : State :=
  { State.reset with
    now := 100
    tiles := [(0, gwaiting 1), (0, gwaiting 0)]
    mail := { State.reset.mail with bars := [(0, arrived)] } }

/-- The wait of tile 0 becomes that of the second entry. -/
theorem doubledTile_gw {u : State} (h : exec (.barrierStageClose 0) doubledTile = .next u) :
    (u.tile 0).msg.gw = some ⟨0, 0, 0, some 100, true⟩ := by
  have hv : (match exec (.barrierStageClose 0) doubledTile with | .next u => (u.tile 0).msg.gw | _ => none) = some ⟨0, 0, 0, some 100, true⟩ := by decide
  rw [h] at hv
  exact hv

/-- Refutes O9: the closure goes through the list of the tiles' entries, which no hypothesis keeps from naming a tile twice. The wait of the entry
that is not read replaces the one that is. -/
theorem not_barriers : ¬ Obligations.Barriers := by
  unfold Obligations.Barriers
  rintro ⟨-, hbar⟩
  obtain ⟨-, -, hclose⟩ := hbar doubledTile 0 arrived rfl
  obtain ⟨u, hu, -, -, -, -, hgw⟩ := hclose 0 false (by decide) (by decide) (by decide) rfl rfl
  have hother := hgw 0 ⟨1, 0, 0, none, false⟩ rfl
  rw [doubledTile_gw hu, if_neg (by decide)] at hother
  exact absurd hother (by decide)

end Sys2Proof.Machine
end

section
/-! PROOFS. Contributions, closure and end of a collective (O11). -/

namespace Sys2Proof.Machine

/-! ### A message of tile 260 -/

/-- Collective 1, of no elements, with a limit of 10 ns. -/
def emptyShard : CollEntry := ⟨0, false, false, false, 0, 0, 0, 0, 10, 0, 0, 0, 0, 0⟩

/-- Its instance of step 5, whose first contribution came at 0. -/
def stepFive : CollInst := { CollInst.start 5 with first := some 0 }

/-- A multicast message of tile 260 with 64 bytes of bulk at address 0. -/
def strayBulk : OutMsg := ⟨0, 0, 0, 260, 0, 0, 0, false, true, [], 0, [], 64, 0, 0, false, .sending, none, false, 0⟩

/-- The message of a tile that the module does not have goes on when the collective closes, and its bulk meets an error of the B network. -/
def strayTile : State :=
  { (setF State.reset (fPKG_DIE_STATUS_STATE 4) 1).setTile 260 { Tile.reset with phase := .running } with
    now := 100
    mem := { Mem.reset with net := [(0, 3)] }
    mail := { State.reset.mail with colls := [(1, ⟨emptyShard, some 5, false, [stepFive], [], none⟩)], msgs := [strayBulk] } }

/-- The program counter of that tile's trap record is the STEP of CMP_COLL_1. -/
theorem strayTile_step {u : State} (h : exec (.collClose 1) strayTile = .next u) : getF u (fCMP_COLL_STEP (1 : Fin 256)) = 0 := by
  have hv : (match exec (.collClose 1) strayTile with | .next u => getF u (fCMP_COLL_STEP 1) | _ => 1) = 0 := by decide
  rw [h] at hv
  exact hv

theorem strayTile_accClean : RangeClean strayTile (accBase ⟨emptyShard, some 5, false, [stepFive], [], none⟩ 5) (8 * 0) := by
  intro u h1 h2
  have hb : accBase ⟨emptyShard, some 5, false, [stepFive], [], none⟩ 5 = 0 := rfl
  omega

theorem strayTile_outClean : RangeClean strayTile emptyShard.out (outBytes 0 []).length := by
  intro u h1 h2
  have hb : emptyShard.out = 0 := rfl
  have hl : (outBytes 0 []).length = 0 := rfl
  omega

/-- Refutes O11: nothing in the statement keeps the numbers of the tiles that send messages below 256. The abort of tile 260, whose message goes
on as the collective closes, writes its trap record over the register that the closure has written. -/
theorem not_collectivePacketsAndEnd : ¬ Obligations.CollectivePacketsAndEnd := by
  unfold Obligations.CollectivePacketsAndEnd
  rintro ⟨-, hend⟩
  obtain ⟨hclose, -⟩ := hend strayTile 1 ⟨emptyShard, some 5, false, [stepFive], [], none⟩ stepFive rfl rfl
  obtain ⟨u, hu, -, ⟨-, -, -, hstep⟩, -⟩ := hclose 10 true [] [] 0 rfl rfl (by decide) (by decide) rfl rfl rfl rfl strayTile_accClean rfl rfl rfl
    strayTile_outClean (fun _ hq => absurd hq List.not_mem_nil)
  rw [strayTile_step hu] at hstep
  exact absurd hstep (by decide)

end Sys2Proof.Machine
end

section
/-! PROOFS. Image loading (O24). -/

namespace Sys2Proof.Machine

/-! ### The last sequence number of the settings block -/

/-- Firmware runs, a PORT_SPLIT of 0 is to be written, and the copy in use holds a PORT_SPLIT of 1 under the last 32-bit sequence number. -/
def lastSeq : State :=
  (setF State.reset fPM_STATUS_FW_RUNNING 1).onPm fun p => { p with splitDue := true, nor := { p.nor with set0 := ⟨2 ^ 32 - 1, 1, true⟩ } }

/-- The new copy has the sequence number 0, and the old one stays in use. -/
theorem lastSeq_split {u : State} (h : exec .settingsWrite lastSeq = .next u) : settingsSplit u = 1 := by
  have hv : (match exec .settingsWrite lastSeq with | .next u => settingsSplit u | _ => 0) = 1 := by decide
  rw [h] at hv
  exact hv

/-- Refutes O24: the sequence number of the settings block wraps at 32 bits, and the statement does not exclude the last one. -/
theorem not_imageLoading : ¬ Obligations.ImageLoading := by
  unfold Obligations.ImageLoading
  rintro ⟨-, hend⟩
  obtain ⟨-, -, -, hset⟩ := hend lastSeq
  obtain ⟨u, hu, hsplit, -⟩ := hset (by decide) rfl
  rw [lastSeq_split hu] at hsplit
  exact absurd hsplit (by decide)

end Sys2Proof.Machine
end

section
/-! PROOFS. The work of the update engines (O37). -/

namespace Sys2Proof.Machine

/-- A request of the host's doorbell slot 0 with no flag set. -/
def blankRequest : Request := ⟨.doorbell 0, [], 0⟩

/-- A finished run of that request whose status is 256: the reply has one byte for it. -/
def wideRun : UpdRun := ⟨blankRequest, 0, [], 0, 0, 256⟩

def wideStatus : State := { State.reset with upd := { State.reset.upd with runs := [wideRun] } }

/-- The status byte of the reply in the doorbell slot. -/
def repliedStatus (s : State) : Option Nat := s.host.slotDone.head?.map fun p => leAt p.2 0 1

theorem repliedStatus_updateDone {u : State} (h : exec (.updateDone 0) wideStatus = .next u) : repliedStatus u = some 0 := by
  have hv : (match exec (.updateDone 0) wideStatus with | .next u => repliedStatus u | _ => none) = some 0 := by decide
  rw [h] at hv
  exact hv

theorem wideStatus_unitFine (u : Nat) : UnitFine wideStatus u :=
  ⟨⟨rfl, fun p hp => absurd hp List.not_mem_nil⟩, rfl, fun l hl => absurd hl List.not_mem_nil⟩

theorem wideStatus_arrClean (base fmt nblk b : Nat) : ArrClean wideStatus base fmt nblk b :=
  ⟨fun u _ _ => wideStatus_unitFine u, fun _ u _ _ => wideStatus_unitFine u⟩

/-- Refutes O37: the status of a run is a number that the state does not bound, and the reply holds its low byte alone: a finished run of status
256 is answered with status 0. -/
theorem not_updateWork : ¬ Obligations.UpdateWork := by
  unfold Obligations.UpdateWork
  intro h
  obtain ⟨-, -, hdone, -⟩ := h wideStatus 0 0 0 0 0 wideRun ⟨0, 0, none⟩ ⟨0, 0, 0, 0⟩ (groupOf wideStatus 0) _ .zero .zero .zero ⟨0, 0, 0, 0, 0, 0, 0, 0⟩
    (.zero, .zero, .zero) _ rfl rfl rfl rfl rfl rfl (wideStatus_arrClean _ _ _ _)
  obtain ⟨u, hu, ⟨b, hsent, -, hstatus, -⟩, -⟩ := hdone rfl rfl
  have hb := repliedStatus_updateDone hu
  obtain ⟨hslot, -⟩ : u.host.slotDone = [] ++ [(0, b)] ∧ _ := hsent
  simp [repliedStatus, hslot] at hb
  exact absurd (hb.symm.trans hstatus) (by decide)

end Sys2Proof.Machine
end

section
/-! PROOFS. Folds, and the fields that a command changes. -/

namespace Sys2Proof.Machine

/-! ### Folds whose steps concern one element each -/

/-- A fold over steps for different elements: what the step of `b` establishes, and the other steps keep, holds after the fold. -/
theorem foldl_settles {α β : Type} {f : α → β → α} {l : List β} {a : α} {b : β} (I P : α → Prop) (hI : I a) (hstep : ∀ x c, c ∈ l → I x → I (f x c))
    (hset : ∀ x, I x → P (f x b)) (hkeep : ∀ x c, c ∈ l → c ≠ b → I x → P x → P (f x c)) (hb : b ∈ l) : P (l.foldl f a) := by
  have main : ∀ (l' : List β) (a : α), (∀ c ∈ l', c ∈ l) → I a → (P a ∨ b ∈ l') → P (l'.foldl f a) := by
    intro l'
    induction l' with
    | nil => exact fun a _ _ h => h.resolve_right List.not_mem_nil
    | cons c r ih =>
      intro a hl hI h
      have hc := hl c List.mem_cons_self
      refine ih (f a c) (fun d hd => hl d (List.mem_cons_of_mem _ hd)) (hstep a c hc hI) ?_
      by_cases hcb : c = b
      · exact .inl (hcb ▸ hset a hI)
      · rcases h with h | h
        · exact .inl (hkeep a c hc hcb hI h)
        · exact .inr ((List.mem_cons.mp h).resolve_left fun e => hcb e.symm)
  exact main l a (fun _ h => h) hI (.inr hb)

/-- A fold keeps what the steps of its own elements keep. -/
theorem foldl_keeps_mem {α β : Type} (P : α → Prop) {f : α → β → α} {l : List β} {a : α} (ha : P a) (h : ∀ x, ∀ b ∈ l, P x → P (f x b)) :
    P (l.foldl f a) := by
  induction l generalizing a with
  | nil => exact ha
  | cons b r ih => exact ih (h a b List.mem_cons_self ha) fun x c hc => h x c (List.mem_cons_of_mem _ hc)

/-- A fold whose steps change one tile each gives each tile of the list its new value, and leaves the others. -/
theorem tile_foldl {f : State → Nat → State} {l : List Nat} {s : State} (I : State → Prop) (G : Nat → Tile → Tile) (hI : I s) (hn : l.Nodup)
    (hstep : ∀ x t, I x → I (f x t)) (hown : ∀ x t, I x → (f x t).tile t = G t (x.tile t)) (hother : ∀ x t j, j ≠ t → (f x t).tile j = x.tile j) (j : Nat) :
    (l.foldl f s).tile j = if j ∈ l then G j (s.tile j) else s.tile j := by
  induction l generalizing s with
  | nil => rfl
  | cons t r ih =>
    obtain ⟨ht, hr⟩ := List.nodup_cons.mp hn
    rw [List.foldl_cons, ih (hstep s t hI) hr]
    by_cases hj : j = t
    · subst hj
      rw [if_neg ht, if_pos List.mem_cons_self, hown s j hI]
    · simp only [List.mem_cons, hj, false_or, hother s t j hj]

theorem dieTiles_nodup (d : Nat) : (dieTiles d).Nodup := List.nodup_range.map fun a b h => by simpa using h

/-! ### Commands that change a few fields -/

section Kept
variable {s u v : State} {l : List Fld}

theorem FieldsKept.refl (s : State) (l : List Fld) : FieldsKept s s l := fun _ _ => rfl

theorem FieldsKept.trans (h1 : FieldsKept s u l) (h2 : FieldsKept u v l) : FieldsKept s v l := fun g hg => (h2 g hg).trans (h1 g hg)

theorem FieldsKept.mono {l' : List Fld} (h : FieldsKept s u l) (hl : ∀ f ∈ l, f ∈ l') : FieldsKept s u l' := fun g hg => h g fun hm => by
  obtain ⟨f, hf, he⟩ := List.mem_map.mp hm
  exact hg (List.mem_map.mpr ⟨f, hl f hf, he⟩)

theorem FieldsKept.setF {f : Fld} (h : FieldsKept s u l) (hf : f ∈ l) (n : Nat) : FieldsKept s (setF u f n) l := fun g hg =>
  (getF_setF_ne u n fun e => hg (List.mem_map.mpr ⟨f, hf, e.symm⟩)).trans (h g hg)

theorem FieldsKept.addF {f : Fld} (h : FieldsKept s u l) (hf : f ∈ l) (n : Nat) : FieldsKept s (addF u f n) l := h.setF hf _

theorem FieldsKept.setFs {ps : List (Fld × Nat)} (h : FieldsKept s u l) (hp : ∀ p ∈ ps, p.1 ∈ l) : FieldsKept s (setFs u ps) l := fun g hg =>
  (getF_setFs_ne u ps fun p hm e => hg (List.mem_map.mpr ⟨p.1, hp p hm, e.symm⟩)).trans (h g hg)

/-- Fields that a command leaves, with a key of their own. -/
theorem FieldsKept.getF (h : FieldsKept s u l) {g : Fld} (hg : ∀ f ∈ l, fldKey g ≠ fldKey f) : Machine.getF u g = Machine.getF s g := h g fun hm => by
  obtain ⟨f, hf, he⟩ := List.mem_map.mp hm
  exact hg f hf he.symm

/-- A write of fields changes the register file alone. -/
theorem setFs_frame (s : State) (ps : List (Fld × Nat)) : setFs s ps = { s with csr := (setFs s ps).csr } := by
  induction ps generalizing s with
  | nil => rfl
  | cons p r ih => exact ih (Machine.setF s p.1 p.2)

theorem onlyFields_setF (s : State) (f : Fld) (n : Nat) : OnlyFields s (Machine.setF s f n) [f] := ⟨(FieldsKept.refl s _).setF (by simp) n, rfl⟩

theorem onlyFields_addF (s : State) (f : Fld) (n : Nat) : OnlyFields s (Machine.addF s f n) [f] := onlyFields_setF s f _

theorem onlyFields_setFs {ps : List (Fld × Nat)} (s : State) (h : ∀ p ∈ ps, p.1 ∈ l) : OnlyFields s (Machine.setFs s ps) l :=
  ⟨(FieldsKept.refl s _).setFs h, setFs_frame s ps⟩

theorem OnlyFields.refl (s : State) (l : List Fld) : OnlyFields s s l := ⟨FieldsKept.refl s l, rfl⟩

theorem OnlyFields.setF {f : Fld} (h : OnlyFields s u l) (hf : f ∈ l) (n : Nat) : OnlyFields s (Machine.setF u f n) l := by
  obtain ⟨h1, h2⟩ := h
  exact ⟨h1.setF hf n, congrArg (fun w : State => { w with csr := (Machine.setF u f n).csr }) h2⟩

theorem OnlyFields.addF {f : Fld} (h : OnlyFields s u l) (hf : f ∈ l) (n : Nat) : OnlyFields s (Machine.addF u f n) l := h.setF hf _

end Kept

/-- An event that finds room in the queue. -/
theorem postEventAt_room {s : State} (time : Nat) (sync : Bool) (st sev src i a b : Nat) (h : s.pm.evq.length < 1024) : postEventAt s time sync st sev src i a b =
    { s with pm := { s.pm with evq := s.pm.evq ++ [⟨time, st, sev, sync, true, src, a, i, b⟩] } } := if_pos h

theorem postEvent_room {s : State} (st sev src i a b : Nat) (h : s.pm.evq.length < 1024) : (postEvent s st sev src i a b).pm.evq =
    s.pm.evq ++ [⟨s.now, st, sev, synced s, true, src, a, i, b⟩] := by rw [postEvent, postEventAt_room _ _ _ _ _ _ _ _ h]

/-- What a raise of a count does. -/
theorem counts_addF (s : State) (f : Fld) (n : Nat) : Counts s (addF s f n) f n := getF_setF_same s f _

/-- A saturating count. -/
theorem getF_satF_same (s : State) (f : Fld) (n : Nat) : getF (satF s f n) f = min f.top (getF s f + n) := by
  have h : min f.top (getF s f + n) < 2 ^ (f.hi + 1 - f.lo) := by
    have := Nat.two_pow_pos (f.hi + 1 - f.lo)
    simp only [Fld.top]
    omega
  rw [satF, getF_setF_same, Nat.mod_eq_of_lt h]

end Sys2Proof.Machine
end

section
/-! PROOFS. Frequency changes and telemetry (O47). -/

namespace Sys2Proof.Machine

/-! ### The DVFS loop -/

section Dvfs
variable {s : State} {d : Die}

theorem foldl_fst_sum (w : List (Nat × Nat)) : w.foldl (fun a p => a + p.1) 0 = (w.map fun p => p.1).sum ∧
    w.foldl (fun a p => a + p.2) 0 = (w.map fun p => p.2).sum := by
  constructor <;> rw [List.sum_eq_foldl, List.foldl_map]

theorem dieLoop_setLoop_same (s : State) (d : Nat) (x : DieLoop) : dieLoop (setLoop s d x) d = x := mget_mset_same _ _ _ _

theorem dieLoop_setLoop_ne (s : State) {d e : Nat} (x : DieLoop) (h : e ≠ d) : dieLoop (setLoop s d x) e = dieLoop s e := mget_mset_ne _ _ _ h

/-- What the loop decides, with its window of ten samples. -/
theorem dvfsDecide_decides {power : Nat} {tj tm : Int} {x : DieLoop} {b c sl all : Nat} {w : List (Nat × Nat)} {good : Bool} (hx : dieLoop s d.val = x)
    (hc : getF s (fCLK_DIE_CHOICE d.val) = c) (hb : 1000 * getF s (fCLK_DVFS_PIN_BUDGET d.val) = b) (hw : w = ((x.sleepN, x.cycN) :: x.window).take 10)
    (hsl : sl = (w.map fun p => p.1).sum) (hall : all = (w.map fun p => p.2).sum)
    (hgood : good = (decide (w.length = 10) && decide (100 * power < 95 * b) && decide (max tj tm < 8 * 95) && decide (4 * sl < all) &&
      decide (c < getF s fCLK_FMAX_FCODE))) (hup : dieUp s d.val = true) (hat : since s x.dvfsAt 100000 = true) :
    exec (.dvfsDecide d power tj tm) s = .next (
      if b < power ∨ 8 * 97 ≤ tj ∨ all < 2 * sl then
        setF (setLoop s d.val { x with dvfsAt := some s.now, sleepN := 0, cycN := 0, window := w }) (fCLK_DIE_CHOICE d.val) (c - 1)
      else if good = true ∧ since s x.raisedAt 1000000 = true then
        setF (setLoop s d.val { x with dvfsAt := some s.now, sleepN := 0, cycN := 0, window := w, raisedAt := some s.now }) (fCLK_DIE_CHOICE d.val) (c + 1)
      else setLoop s d.val { x with dvfsAt := some s.now, sleepN := 0, cycN := 0, window := w }) := by
  subst hx hc hb hw hsl hall hgood
  show execDvfsDecide d power tj tm s = _
  simp only [execDvfsDecide, hup, hat, Bool.not_true, Bool.or_self, Bool.false_eq_true, if_false, (foldl_fst_sum _).1, (foldl_fst_sum _).2]
  simp only [Bool.or_eq_true, Bool.and_eq_true, decide_eq_true_eq, or_assoc]
  simp only [degC]
  rfl

theorem dvfsDecide_idle {power : Nat} {tj tm : Int} (h : dieUp s d.val = false ∨ since s (dieLoop s d.val).dvfsAt 100000 = false) :
    exec (.dvfsDecide d power tj tm) s = .next s := by
  show execDvfsDecide d power tj tm s = _
  rw [execDvfsDecide, if_pos (by rcases h with h | h <;> simp [h])]

/-- A choice of the loop: the field of the choice and the loop's own record. -/
theorem choice_facts (s : State) (d : Die) (x : DieLoop) (v : Nat) :
    getF (setF (setLoop s d.val x) (fCLK_DIE_CHOICE d.val) v) (fCLK_DIE_CHOICE d.val) = v % 32 ∧
    dieLoop (setF (setLoop s d.val x) (fCLK_DIE_CHOICE d.val) v) d.val = x ∧
    OnlyFields s { setF (setLoop s d.val x) (fCLK_DIE_CHOICE d.val) v with pwr := s.pwr } [fCLK_DIE_CHOICE d.val] :=
  ⟨getF_setF_same _ _ _, dieLoop_setLoop_same s d.val x, (FieldsKept.refl s _).setF (List.mem_singleton.mpr rfl) v, rfl⟩

end Dvfs

/-! ### The pin -/

/-- An episode opens where the pin is held away from its value and none was open: it is counted and reported. -/
theorem reviewEpisode_opens {s : State} {loop o : Nat} (he : s.pwr.eps = []) (hh : heldAway s loop o = true) (hl : loop < 3) :
    getF (reviewEpisode s loop o) fPWR_ERR_PIN_OVERRIDE = 1 ∧
    getF (reviewEpisode s loop o) (fPWR_CONFLICT_COUNT loop) = min (fPWR_CONFLICT_COUNT loop).top (getF s (fPWR_CONFLICT_COUNT loop) + 1) ∧
    (loop ≠ 2 → s.pm.evq.length < 1024 → ∃ e, (reviewEpisode s loop o).pm.evq = s.pm.evq ++ [e] ∧ e.status = 0x116 ∧ e.inst = o ∧ e.arg0 = loop) := by
  obtain ⟨e1, h1⟩ : ∃ e1, e1 = raise (satF { s with pwr := { s.pwr with eps := [⟨loop, o, none⟩] } } (fPWR_CONFLICT_COUNT loop) 1) fPWR_ERR_PIN_OVERRIDE := ⟨_, rfl⟩
  have hr : reviewEpisode s loop o = if loop = 2 then postEvent e1 0x116 1 2 (16 + o) 0 2 else postEvent e1 0x116 1 2 o loop (getF e1 (fCLK_DVFS_PIN_FCODE o)) := by
    simp only [reviewEpisode, he, hh, List.filter_nil, List.find?_nil, if_true, h1]
  have hover : getF e1 fPWR_ERR_PIN_OVERRIDE = 1 := by rw [h1]; exact getF_raise_same (f := fPWR_ERR_PIN_OVERRIDE) _ (by decide)
  have hcount : getF e1 (fPWR_CONFLICT_COUNT loop) = min (fPWR_CONFLICT_COUNT loop).top (getF s (fPWR_CONFLICT_COUNT loop) + 1) := by
    rw [h1, getF_raise_ne _ (by simp [fldKey, fPWR_CONFLICT_COUNT, fPWR_ERR_PIN_OVERRIDE]; omega) (reportKey_off (by simp [fPWR_CONFLICT_COUNT]; omega)), getF_satF_same]
    rfl
  have hevq : e1.pm.evq = s.pm.evq := by rw [h1, raise_pm]; rfl
  rw [hr]
  refine ⟨?_, ?_, fun h2 hroom => ?_⟩
  · split <;> rw [getF_postEvent_ne _ _ _ _ _ _ _ (by decide), hover]
  · split <;> rw [getF_postEvent_ne _ _ _ _ _ _ _ (reportKey_off (by simp [fPWR_CONFLICT_COUNT]; omega)), hcount]
  · rw [if_neg h2, postEvent_room _ _ _ _ _ _ (by rwa [hevq]), hevq]
    exact ⟨_, rfl, rfl, rfl, rfl⟩

/-- A later review keeps the override reported and the events queued. -/
theorem reviewEpisode_override {s : State} {loop o : Nat} (h : getF s fPWR_ERR_PIN_OVERRIDE = 1) : getF (reviewEpisode s loop o) fPWR_ERR_PIN_OVERRIDE = 1 := by
  unfold reviewEpisode
  dsimp only
  split
  · split
    · exact h
    · split <;> rw [getF_postEvent_ne _ _ _ _ _ _ _ (by decide)] <;> exact getF_raise_same (f := fPWR_ERR_PIN_OVERRIDE) _ (by decide)
  · split <;> exact h

theorem postEvent_evq_mem {s : State} (st sev src i a b : Nat) {e : LogEvent} (h : e ∈ s.pm.evq) : e ∈ (postEvent s st sev src i a b).pm.evq := by
  unfold postEvent postEventAt
  split
  · exact List.mem_append_left _ h
  · exact h

theorem reviewEpisode_evq (s : State) (loop o : Nat) (e : LogEvent) (h : e ∈ s.pm.evq) : e ∈ (reviewEpisode s loop o).pm.evq := by
  unfold reviewEpisode
  dsimp only
  split
  · split
    · exact h
    · split <;> refine postEvent_evq_mem _ _ _ _ _ _ ?_ <;> rw [raise_pm] <;> exact h
  · split <;> exact h

/-- The fields of a pin after a write: each in its range, or as it was. -/
def pinned (s : State) (d : Die) (v : Nat) : State :=
  let s := setF s (fCLK_DVFS_PIN_EN d.val) (bits v 31 31)
  let s := if bits v 4 0 ≤ 30 then setF s (fCLK_DVFS_PIN_FCODE d.val) (bits v 4 0) else s
  if 100 ≤ bits v 23 16 ∧ bits v 23 16 ≤ 230 then setF s (fCLK_DVFS_PIN_BUDGET d.val) (bits v 23 16) else s

theorem pinned_facts (s : State) (d : Die) (v : Nat) : getF (pinned s d v) (fCLK_DVFS_PIN_EN d.val) = (bits v 31 31) % 2 ∧
    getF (pinned s d v) (fCLK_DVFS_PIN_FCODE d.val) = (if bits v 4 0 ≤ 30 then bits v 4 0 else getF s (fCLK_DVFS_PIN_FCODE d.val)) ∧
    getF (pinned s d v) (fCLK_DVFS_PIN_BUDGET d.val) = (if 100 ≤ bits v 23 16 ∧ bits v 23 16 ≤ 230 then bits v 23 16 else getF s (fCLK_DVFS_PIN_BUDGET d.val)) ∧
    OnlyFields s (pinned s d v) [fCLK_DVFS_PIN_EN d.val, fCLK_DVFS_PIN_FCODE d.val, fCLK_DVFS_PIN_BUDGET d.val] := by
  have hen := onlyFields_setF s (fCLK_DVFS_PIN_EN d.val) (bits v 31 31)
  have honly : OnlyFields s (pinned s d v) [fCLK_DVFS_PIN_EN d.val, fCLK_DVFS_PIN_FCODE d.val, fCLK_DVFS_PIN_BUDGET d.val] := by
    have h0 : OnlyFields s (setF s (fCLK_DVFS_PIN_EN d.val) (bits v 31 31)) [fCLK_DVFS_PIN_EN d.val, fCLK_DVFS_PIN_FCODE d.val, fCLK_DVFS_PIN_BUDGET d.val] :=
      (OnlyFields.refl s _).setF (by simp) _
    unfold pinned
    dsimp only
    split <;> split
    · exact (h0.setF (by simp) _).setF (by simp) _
    · exact h0.setF (by simp) _
    · exact h0.setF (by simp) _
    · exact h0
  have hcode : bits v 4 0 < 32 := Nat.mod_lt _ (by decide)
  have hbudget : bits v 23 16 < 256 := Nat.mod_lt _ (by decide)
  refine ⟨?_, ?_, ?_, honly⟩ <;> unfold pinned <;> dsimp only <;> split <;> split <;>
    simp [getF_setF, fldKey, fCLK_DVFS_PIN_EN, fCLK_DVFS_PIN_FCODE, fCLK_DVFS_PIN_BUDGET, hcode, hbudget]

theorem pin_facts (s : State) (d : Die) (v : BitVec 32) : Answers (.dvfsPinWrite d v) s fun u => getF u (fCLK_DVFS_PIN_EN d.val) = (v.getLsbD 31).toNat ∧
      getF u (fCLK_DVFS_PIN_FCODE d.val) = (if bits v.toNat 4 0 ≤ 30 then bits v.toNat 4 0 else getF s (fCLK_DVFS_PIN_FCODE d.val)) ∧
      getF u (fCLK_DVFS_PIN_BUDGET d.val) = (if 100 ≤ bits v.toNat 23 16 ∧ bits v.toNat 23 16 ≤ 230 then bits v.toNat 23 16 else getF s (fCLK_DVFS_PIN_BUDGET d.val)) ∧
      (s.pwr.eps = [] → v.getLsbD 31 = true → getF s (fCLK_DIE_THERM d.val) < getF u (fCLK_DVFS_PIN_FCODE d.val) → getF u fPWR_ERR_PIN_OVERRIDE = 1 ∧
        getF u (fPWR_CONFLICT_COUNT 0) = min (fPWR_CONFLICT_COUNT 0).top (getF s (fPWR_CONFLICT_COUNT 0) + 1) ∧
        (s.pm.evq.length < 1024 → ∃ e ∈ u.pm.evq, e.status = 0x116 ∧ e.inst = d.val ∧ e.arg0 = 0)) ∧
      getF u (fCLK_DIE_FCODE d.val) = getF s (fCLK_DIE_FCODE d.val) ∧ (∀ j, u.tile j = s.tile j) ∧ u.mem = s.mem := by
  obtain ⟨p, hp⟩ : ∃ p, p = pinned s d v.toNat := ⟨_, rfl⟩
  have he : exec (.dvfsPinWrite d v) s = .next (reviewEpisode (reviewEpisode p 0 d.val) 1 d.val) := by rw [hp]; rfl
  obtain ⟨hen, hcode, hbudget, honly, hframe⟩ := pinned_facts s d v.toNat
  rw [← hp] at hen hcode hbudget honly hframe
  obtain ⟨q, hq⟩ : ∃ q, q = reviewEpisode p 0 d.val := ⟨_, rfl⟩
  have hkept {g : Fld} (h1 : reportKey (fldKey g) = false) (h2 : ∀ l, l < 2 → fldKey g ≠ fldKey (fPWR_CONFLICT_COUNT l)) (h3 : fldKey g ≠ fldKey fPWR_ERR_PIN_OVERRIDE) :
      getF (reviewEpisode q 1 d.val) g = getF p g := by
    rw [getF_reviewEpisode_ne _ 1 d.val h1 (h2 1 (by decide)) h3, hq, getF_reviewEpisode_ne _ 0 d.val h1 (h2 0 (by decide)) h3]
  have hdie {g : Fld} (h : g.lo < 64 ∧ 0x200100 ≤ g.off ∧ g.off < 0x200200) : getF (reviewEpisode q 1 d.val) g = getF p g := by
    obtain ⟨h1, h2, h3⟩ := h
    exact hkept (reportKey_off (by omega)) (fun l hl => by simp only [fldKey, fPWR_CONFLICT_COUNT]; omega) (by simp only [fldKey, fPWR_ERR_PIN_OVERRIDE]; omega)
  rw [← hq] at he
  refine ⟨_, he, ?_, ?_, ?_, fun heps hset hlow => ?_, ?_, fun j => ?_, ?_⟩
  · rw [hdie (by simp [fCLK_DVFS_PIN_EN]; omega), hen, BitVec.getLsbD, Nat.toNat_testBit]
    simp [bits]
  · rw [hdie (by simp [fCLK_DVFS_PIN_FCODE]; omega), hcode]
  · rw [hdie (by simp [fCLK_DVFS_PIN_BUDGET]; omega), hbudget]
  · rw [hdie (by simp [fCLK_DVFS_PIN_FCODE]; omega)] at hlow
    have hon : getF p (fCLK_DVFS_PIN_EN d.val) = 1 := by
      have hb := Nat.toNat_testBit v.toNat 31
      rw [show v.toNat.testBit 31 = true from hset] at hb
      rw [hen]
      simpa [bits] using hb.symm
    have htherm : getF p (fCLK_DIE_THERM d.val) = getF s (fCLK_DIE_THERM d.val) := honly.getF <| by
      simp [fldKey, fCLK_DIE_THERM, fCLK_DVFS_PIN_EN, fCLK_DVFS_PIN_FCODE, fCLK_DVFS_PIN_BUDGET]
      omega
    have hheld : heldAway p 0 d.val = true := by
      simp only [heldAway, if_true, bitF, hon, htherm, Bool.and_eq_true, decide_eq_true_iff]
      exact ⟨rfl, hlow⟩
    obtain ⟨h1, h2, h3⟩ := reviewEpisode_opens (o := d.val) (by rw [hframe]; exact heps) hheld (by decide)
    rw [← hq] at h1 h2 h3
    refine ⟨?_, ?_, fun hroom => ?_⟩
    · exact reviewEpisode_override h1
    · rw [getF_reviewEpisode_ne _ 1 d.val (by decide) (by decide) (by decide), h2, honly.getF]
      simp [fldKey, fPWR_CONFLICT_COUNT, fCLK_DVFS_PIN_EN, fCLK_DVFS_PIN_FCODE, fCLK_DVFS_PIN_BUDGET]
      omega
    · obtain ⟨e, hevq, h4, h5, h6⟩ := h3 (by decide) (by rw [hframe]; exact hroom)
      exact ⟨e, reviewEpisode_evq q 1 d.val e (by rw [hevq]; simp), h4, h5, h6⟩
  · rw [hdie (by simp [fCLK_DIE_FCODE]; omega), honly.getF]
    simp [fldKey, fCLK_DIE_FCODE, fCLK_DVFS_PIN_EN, fCLK_DVFS_PIN_FCODE, fCLK_DVFS_PIN_BUDGET]
    omega
  · obtain ⟨_, -, h1, -⟩ := reviewEpisode_frame q 1 d.val
    obtain ⟨_, -, h2, -⟩ := reviewEpisode_frame p 0 d.val
    rw [tile_tiles h1, hq, tile_tiles h2, hframe]
    rfl
  · rw [reviewEpisode_mem, hq, reviewEpisode_mem, hframe]

/-! ### A change of the code -/

theorem fcodeOf_eq {s : State} {d c : Nat} (hc : getF s (fCLK_DIE_CHOICE d) = c) : fcodeOf s d =
    min (if bitF s (fCLK_DVFS_PIN_EN d) then getF s (fCLK_DVFS_PIN_FCODE d) else c) (min (getF s (fCLK_DIE_THERM d)) (currCeil s)) := by
  subst hc
  rfl

/-- The cycle counters of the running tiles of a die go on. -/
def cyclesGo (now mhz : Nat) (run : Bool) (x : Tile) : Tile :=
  if run then { x with cycBase := x.cycBase + (now - x.cycSince) * mhz, cycSince := now } else x

theorem setFcode_facts (s : State) (d k : Nat) :
    (∀ j, (setFcode s d k).tile j = if j ∈ dieTiles d then cyclesGo s.now (tileMHz s d) (isRunning s j) (s.tile j) else s.tile j) ∧
    getF (setFcode s d k) (fCLK_DIE_FCODE d) = k % 32 ∧ OnlyFields s { setFcode s d k with tiles := s.tiles } [fCLK_DIE_FCODE d] := by
  let I (x : State) : Prop := x.now = s.now ∧ (∀ j, isRunning x j = isRunning s j) ∧ x = { s with tiles := x.tiles }
  let f (x : State) (t : Nat) : State := if isRunning x t then
    x.onTile t fun y => { y with cycBase := y.cycBase + (x.now - y.cycSince) * tileMHz s d, cycSince := x.now } else x
  have hstep (x : State) (t : Nat) (h : I x) : I (f x t) := by
    obtain ⟨h1, h2, h3⟩ := h
    simp only [f]
    split
    · refine ⟨h1, fun j => ?_, ?_⟩
      · rw [← h2 j]
        by_cases hj : j = t
        · subst hj
          simp [isRunning, tileState, dieUp, dieState]
        · simp [isRunning, tileState, dieUp, dieState, tile_onTile_ne x _ hj]
      · rw [h3]
        rfl
    · exact ⟨h1, h2, h3⟩
  have hI : I s := ⟨rfl, fun _ => rfl, rfl⟩
  have hown (x : State) (t : Nat) (h : I x) : (f x t).tile t = cyclesGo s.now (tileMHz s d) (isRunning s t) (x.tile t) := by
    obtain ⟨h1, h2, -⟩ := h
    simp only [f, cyclesGo, ← h2 t, ← h1]
    split
    · exact tile_onTile_same _ _ _
    · rfl
  have hother (x : State) (t j : Nat) (hj : j ≠ t) : (f x t).tile j = x.tile j := by
    simp only [f]
    split
    · exact tile_onTile_ne x _ hj
    · rfl
  obtain ⟨u, hu⟩ : ∃ u, u = (dieTiles d).foldl f s := ⟨_, rfl⟩
  have heq : setFcode s d k = setF u (fCLK_DIE_FCODE d) k := by rw [hu]; rfl
  have htile := tile_foldl (f := f) I (fun t x => cyclesGo s.now (tileMHz s d) (isRunning s t) x) hI (dieTiles_nodup d) hstep hown hother
  obtain ⟨-, -, hframe⟩ : I u := by
    rw [hu]
    exact foldl_keeps I _ _ _ hI fun x t => hstep x t
  rw [← hu] at htile
  rw [heq]
  refine ⟨fun j => htile j, getF_setF_same _ _ _, ?_⟩
  rw [hframe]
  exact onlyFields_setF s _ k

theorem fcodeChangeDone_changes {s : State} {d : Die} {c k : Nat} (hc : getF s (fCLK_DIE_CHOICE d.val) = c)
    (hk : k = min (if bitF s (fCLK_DVFS_PIN_EN d.val) then getF s (fCLK_DVFS_PIN_FCODE d.val) else c) (min (getF s (fCLK_DIE_THERM d.val)) (currCeil s)))
    (hup : dieUp s d.val = true) (h : k ≤ getF s (fCLK_DIE_FCODE d.val) ∨ 550000 + 12500 * k ≤ (dieLoop s d.val).uv) : Answers (.fcodeChangeDone d) s fun u =>
      getF u (fCLK_DIE_FCODE d.val) = k % 32 ∧
      (∀ t ∈ dieTiles d.val, isRunning s t = true → u.tile t = { s.tile t with cycBase := (s.tile t).cycBase + (s.now - (s.tile t).cycSince) * tileMHz s d.val, cycSince := s.now }) ∧
      (∀ t, (t ∉ dieTiles d.val ∨ isRunning s t = false) → u.tile t = s.tile t) ∧ OnlyFields s { u with tiles := s.tiles } [fCLK_DIE_FCODE d.val] := by
  obtain ⟨htile, hcode, honly⟩ := setFcode_facts s d.val k
  have he : exec (.fcodeChangeDone d) s = .next (setFcode s d.val k) := by
    show execFcodeChangeDone d s = _
    simp only [execFcodeChangeDone, fcodeOf_eq hc, ← hk, hup, Bool.true_and]
    rw [if_pos (by rw [Bool.or_eq_true, decide_eq_true_iff, decide_eq_true_iff]; exact h)]
  refine ⟨_, he, hcode, fun t ht hr => ?_, fun t ht => ?_, honly⟩
  · rw [htile, if_pos ht, cyclesGo, if_pos hr]
  · rw [htile]
    rcases ht with ht | ht
    · rw [if_neg ht]
    · simp [cyclesGo, ht]

theorem fcodeChangeDone_waits {s : State} {d : Die} {c k : Nat} (hc : getF s (fCLK_DIE_CHOICE d.val) = c)
    (hk : k = min (if bitF s (fCLK_DVFS_PIN_EN d.val) then getF s (fCLK_DVFS_PIN_FCODE d.val) else c) (min (getF s (fCLK_DIE_THERM d.val)) (currCeil s)))
    (hlow : getF s (fCLK_DIE_FCODE d.val) < k) (huv : (dieLoop s d.val).uv < 550000 + 12500 * k) : exec (.fcodeChangeDone d) s = .next s := by
  show execFcodeChangeDone d s = _
  simp only [execFcodeChangeDone, fcodeOf_eq hc, ← hk]
  rw [if_neg]
  rw [Bool.and_eq_true, Bool.or_eq_true, decide_eq_true_iff, decide_eq_true_iff]
  rintro ⟨-, h | h⟩
  · exact absurd h (Nat.not_le.mpr hlow)
  · exact absurd h (Nat.not_le.mpr huv)

/-! ### Telemetry -/

section Samples
variable {held : Nat → Bool} {n : Nat} {l : List Nat} {valid value : Nat → Fld}

theorem copySamples_only (s : State) (fs : List Fld) (hv : ∀ i, i < n → valid i ∈ fs) (hw : ∀ i, i < n → value i ∈ fs) :
    OnlyFields s (copySamples s held n l valid value) fs := by
  refine foldl_keeps_mem (fun u => OnlyFields s u fs) (OnlyFields.refl s fs) fun u p hp hu => ?_
  have hi : p.2 < n := by
    have := List.snd_lt_of_mem_zipIdx hp
    simp only [List.length_take] at this
    omega
  split
  · exact hu
  · exact (hu.setF (hv _ hi) _).setF (hw _ hi) _

/-- A sample that is not held is shown. -/
theorem copySamples_shows (s : State) {i v : Nat} (hi : i < n) (hl : l[i]? = some v) (hh : held i = false)
    (hkey : ∀ j, j < n → fldKey (valid i) ≠ fldKey (value j) ∧ (j ≠ i → fldKey (valid j) ≠ fldKey (valid i) ∧ fldKey (value j) ≠ fldKey (value i)))
    (hkey2 : ∀ j, j < n → fldKey (value i) ≠ fldKey (valid j)) (hbit : (valid i).lo = (valid i).hi) :
    getF (copySamples s held n l valid value) (valid i) = 1 ∧
    getF (copySamples s held n l valid value) (value i) = v % 2 ^ ((value i).hi + 1 - (value i).lo) := by
  have hmem : (v, i) ∈ (l.take n).zipIdx := List.mem_zipIdx_iff_getElem?.mpr (by rw [List.getElem?_take_of_lt hi, hl])
  refine foldl_settles (b := (v, i)) (fun _ => True) (fun u : State => getF u (valid i) = 1 ∧ getF u (value i) = v % 2 ^ ((value i).hi + 1 - (value i).lo))
    trivial (fun _ _ _ _ => trivial) (fun u _ => ?_) (fun u p hp hne _ hu => ?_) hmem
  · simp only [hh, Bool.false_eq_true, if_false, setFs_cons, setFs_nil]
    refine ⟨?_, getF_setF_same _ _ _⟩
    rw [getF_setF_ne _ _ (hkey i hi).1, getF_setF_same, hbit]
    simp
  · have hlt : p.2 < n := by
      have := List.snd_lt_of_mem_zipIdx hp
      simp only [List.length_take] at this
      omega
    have hji : p.2 ≠ i := by
      intro h
      have h1 := List.mem_zipIdx_iff_getElem?.mp hp
      have h2 := List.mem_zipIdx_iff_getElem?.mp hmem
      rw [h] at h1
      rw [h1] at h2
      exact hne (Prod.ext (Option.some.inj h2) h)
    obtain ⟨k1, k2⟩ := hkey p.2 hlt
    obtain ⟨k3, k4⟩ := k2 hji
    split
    · exact hu
    · simp only [setFs_cons, setFs_nil]
      rw [getF_setF_ne _ _ k1, getF_setF_ne _ _ k3.symm, getF_setF_ne _ _ k4.symm, getF_setF_ne _ _ (hkey2 p.2 hlt)]
      exact hu

/-- A sample that is held keeps its field. -/
theorem copySamples_holds (s : State) {g : Fld} (h : ∀ j, j < n → held j = false → fldKey g ≠ fldKey (valid j) ∧ fldKey g ≠ fldKey (value j)) :
    getF (copySamples s held n l valid value) g = getF s g := by
  refine foldl_keeps_mem (fun u => getF u g = getF s g) rfl fun u p hp hu => ?_
  have hi : p.2 < n := by
    have := List.snd_lt_of_mem_zipIdx hp
    simp only [List.length_take] at this
    omega
  split
  · exact hu
  · next hh =>
    obtain ⟨h1, h2⟩ := h p.2 hi (by simpa using hh)
    simp only [setFs_cons, setFs_nil]
    rw [getF_setF_ne _ _ h2, getF_setF_ne _ _ h1, hu]

end Samples

/-- The fields that telemetry does not sample. -/
theorem copySamples_frame (s : State) (held : Nat → Bool) (n : Nat) (l : List Nat) (valid value : Nat → Fld) :
    copySamples s held n l valid value = { s with csr := (copySamples s held n l valid value).csr } := by
  obtain ⟨-, h⟩ := copySamples_only (held := held) (l := l) s ((List.range n).map valid ++ (List.range n).map value)
    (fun i hi => List.mem_append_left _ (List.mem_map_of_mem (List.mem_range.mpr hi))) (fun i hi => List.mem_append_right _ (List.mem_map_of_mem (List.mem_range.mpr hi)))
  exact h

section Telemetry
variable (s : State) (temps : List Int) (volts currs engines : List Nat) (hotStacks : List Int)

/-- The sampled sensors. -/
def sampledSensors : State :=
  let s := { s with pwr := { s.pwr with teleAt := some s.now } }
  let s := copySamples s (heldTemp s) 48 (temps.map (twos 12)) fPWR_TEMP_VALID fPWR_TEMP_TEMP
  let s := copySamples s (heldVolt s) 24 volts fPWR_VOLT_VALID fPWR_VOLT_MV
  copySamples s (heldCurr s) 12 currs fPWR_CURR_VALID fPWR_CURR_DA

/-- The temperatures of the engines, the coolant and the stacks, over them. -/
def reportedHeat : State :=
  let s := (engines.take 17).zipIdx.foldl (fun s p => setEngTemp s p.2 p.1) (sampledSensors s temps volts currs)
  let s := raiseIf (match temps[44]? with | some t => decide (degC 40 < t) | none => false) s fPWR_ERR_COOLANT_HOT
  (hotStacks.take 8).foldl stackHot s

theorem sampledSensors_keeps {g : Fld} (h : g.lo < 64 ∧ (g.off < 0x200400 ∨ 0x2005C0 ≤ g.off)) : getF (sampledSensors s temps volts currs) g = getF s g := by
  obtain ⟨hl, ho⟩ := h
  unfold sampledSensors
  dsimp only
  rw [copySamples_holds, copySamples_holds, copySamples_holds]
  · rfl
  all_goals
    intro j hj _
    simp only [fldKey, fPWR_TEMP_VALID, fPWR_TEMP_TEMP, fPWR_VOLT_VALID, fPWR_VOLT_MV, fPWR_CURR_VALID, fPWR_CURR_DA]
    omega

theorem sampledSensors_frame : ∃ c, sampledSensors s temps volts currs = { s with csr := c, pwr := { s.pwr with teleAt := some s.now } } := by
  unfold sampledSensors
  dsimp only
  rw [copySamples_frame, copySamples_frame _ _ 24, copySamples_frame _ _ 48]
  exact ⟨_, rfl⟩

/-- The voltages and the currents stand behind the temperatures. -/
theorem voltsCurrs_keep (s : State) (p q : Nat → Bool) (l m : List Nat) {g : Fld} (h : g.lo < 64 ∧ g.off < 0x200500) :
    getF (copySamples (copySamples s p 24 l fPWR_VOLT_VALID fPWR_VOLT_MV) q 12 m fPWR_CURR_VALID fPWR_CURR_DA) g = getF s g := by
  obtain ⟨hl, ho⟩ := h
  rw [copySamples_holds, copySamples_holds]
  all_goals
    intro j hj _
    simp only [fldKey, fPWR_VOLT_VALID, fPWR_VOLT_MV, fPWR_CURR_VALID, fPWR_CURR_DA]
    omega

theorem sampledSensors_temp {n : Nat} {t : Int} (hn : n < 48) (ht : temps[n]? = some t) (hup : n < 32 → dieUp s (n / 8) = true) :
    getF (sampledSensors s temps volts currs) (fPWR_TEMP_VALID n) = 1 ∧ getF (sampledSensors s temps volts currs) (fPWR_TEMP_TEMP n) = (t % 4096).toNat := by
  have hsample : (temps.map (twos 12))[n]? = some (twos 12 t) := by rw [List.getElem?_map, ht]; rfl
  have hfree : heldTemp { s with pwr := { s.pwr with teleAt := some s.now } } n = false := by
    show heldTemp s n = false
    by_cases h : n < 32
    · simp [heldTemp, hup h]
    · simp [heldTemp, h]
  obtain ⟨h1, h2⟩ := copySamples_shows { s with pwr := { s.pwr with teleAt := some s.now } } (valid := fPWR_TEMP_VALID) (value := fPWR_TEMP_TEMP) hn hsample hfree
    (fun j hj => by simp only [fldKey, fPWR_TEMP_VALID, fPWR_TEMP_TEMP]; omega) (fun j hj => by simp only [fldKey, fPWR_TEMP_VALID, fPWR_TEMP_TEMP]; omega) rfl
  unfold sampledSensors
  dsimp only
  rw [voltsCurrs_keep _ _ _ _ _ (by simp only [fPWR_TEMP_VALID]; omega), h1, voltsCurrs_keep _ _ _ _ _ (by simp only [fPWR_TEMP_TEMP]; omega), h2]
  have : twos 12 t < 4096 := by
    simp only [twos]
    omega
  exact ⟨rfl, Nat.mod_eq_of_lt this⟩

/-- The temperature of a sensor of a die that is down stays. -/
theorem sampledSensors_tempHeld {n : Nat} (hn : n < 32) (hup : dieUp s (n / 8) = false) :
    getF (sampledSensors s temps volts currs) (fPWR_TEMP_VALID n) = getF s (fPWR_TEMP_VALID n) ∧
    getF (sampledSensors s temps volts currs) (fPWR_TEMP_TEMP n) = getF s (fPWR_TEMP_TEMP n) := by
  have hheld (j : Nat) (h : heldTemp { s with pwr := { s.pwr with teleAt := some s.now } } j = false) : j ≠ n := by
    rintro rfl
    have : heldTemp s j = false := h
    simp [heldTemp, hn, hup] at this
  unfold sampledSensors
  dsimp only
  rw [voltsCurrs_keep _ _ _ _ _ (by simp only [fPWR_TEMP_VALID]; omega), voltsCurrs_keep _ _ _ _ _ (by simp only [fPWR_TEMP_TEMP]; omega), copySamples_holds, copySamples_holds]
  · exact ⟨rfl, rfl⟩
  all_goals
    intro j hj hh
    have := hheld j hh
    simp only [fldKey, fPWR_TEMP_VALID, fPWR_TEMP_TEMP]
    omega

/-- Sampling leaves the dies as they are. -/
theorem copySamples_dieUp (s : State) (held : Nat → Bool) {valid value : Nat → Fld} (l : List Nat) {n : Nat} {d : Nat} (hd : d < 4)
    (hv : ∀ j, j < n → 0x200400 ≤ (valid j).off ∧ (valid j).off < 0x200600 ∧ 0x200400 ≤ (value j).off ∧ (value j).off < 0x200600 ∧ (valid j).lo < 64 ∧ (value j).lo < 64) :
    dieUp (copySamples s held n l valid value) d = dieUp s d := by
  rw [dieUp, dieState, copySamples_holds]
  · rfl
  · intro j hj _
    obtain ⟨h1, h2, h3, h4, h5, h6⟩ := hv j hj
    simp only [fldKey, fPKG_DIE_STATUS_STATE]
    omega

theorem sampledSensors_volt {n v : Nat} (hn : n < 24) (hv : volts[n]? = some v) (hup : 2 ≤ n → n ≤ 5 → dieUp s (n - 2) = true) :
    getF (sampledSensors s temps volts currs) (fPWR_VOLT_VALID n) = 1 ∧
    getF (sampledSensors s temps volts currs) (fPWR_VOLT_MV n) = v % 2 ^ ((fPWR_VOLT_MV n).hi + 1 - (fPWR_VOLT_MV n).lo) := by
  let s1 := copySamples { s with pwr := { s.pwr with teleAt := some s.now } } (heldTemp { s with pwr := { s.pwr with teleAt := some s.now } }) 48
    (temps.map (twos 12)) fPWR_TEMP_VALID fPWR_TEMP_TEMP
  let s2 := copySamples s1 (heldVolt s1) 24 volts fPWR_VOLT_VALID fPWR_VOLT_MV
  have hfree : heldVolt s1 n = false := by
    by_cases h : 2 ≤ n ∧ n ≤ 5
    · have hd : dieUp s1 (n - 2) = dieUp s (n - 2) := copySamples_dieUp _ _ _ (by omega) fun j hj => by simp only [fPWR_TEMP_VALID, fPWR_TEMP_TEMP]; omega
      simp [heldVolt, hd, hup h.1 h.2]
    · simp only [heldVolt, Bool.and_eq_false_iff, decide_eq_false_iff_not]
      omega
  obtain ⟨h1, h2⟩ := copySamples_shows s1 (valid := fPWR_VOLT_VALID) (value := fPWR_VOLT_MV) hn hv hfree
    (fun j hj => by simp only [fldKey, fPWR_VOLT_VALID, fPWR_VOLT_MV]; omega) (fun j hj => by simp only [fldKey, fPWR_VOLT_VALID, fPWR_VOLT_MV]; omega) rfl
  refine ⟨(copySamples_holds s2 ?_).trans h1, (copySamples_holds s2 ?_).trans h2⟩
  all_goals
    intro j hj _
    simp only [fldKey, fPWR_VOLT_VALID, fPWR_VOLT_MV, fPWR_CURR_VALID, fPWR_CURR_DA]
    omega

theorem sampledSensors_curr {n v : Nat} (hn : n < 12) (hv : currs[n]? = some v) (hup : 1 ≤ n → n ≤ 4 → dieUp s (n - 1) = true) :
    getF (sampledSensors s temps volts currs) (fPWR_CURR_VALID n) = 1 ∧
    getF (sampledSensors s temps volts currs) (fPWR_CURR_DA n) = v % 2 ^ ((fPWR_CURR_DA n).hi + 1 - (fPWR_CURR_DA n).lo) := by
  let s1 := copySamples { s with pwr := { s.pwr with teleAt := some s.now } } (heldTemp { s with pwr := { s.pwr with teleAt := some s.now } }) 48
    (temps.map (twos 12)) fPWR_TEMP_VALID fPWR_TEMP_TEMP
  let s2 := copySamples s1 (heldVolt s1) 24 volts fPWR_VOLT_VALID fPWR_VOLT_MV
  have hfree : heldCurr s2 n = false := by
    by_cases h : 1 ≤ n ∧ n ≤ 4
    · have hd1 : dieUp s1 (n - 1) = dieUp s (n - 1) := copySamples_dieUp _ _ _ (by omega) fun j hj => by simp only [fPWR_TEMP_VALID, fPWR_TEMP_TEMP]; omega
      have hd2 : dieUp s2 (n - 1) = dieUp s1 (n - 1) := copySamples_dieUp _ _ _ (by omega) fun j hj => by simp only [fPWR_VOLT_VALID, fPWR_VOLT_MV]; omega
      simp [heldCurr, hd2, hd1, hup h.1 h.2]
    · simp only [heldCurr, Bool.and_eq_false_iff, decide_eq_false_iff_not]
      omega
  exact copySamples_shows s2 (valid := fPWR_CURR_VALID) (value := fPWR_CURR_DA) hn hv hfree
    (fun j hj => by simp only [fldKey, fPWR_CURR_VALID, fPWR_CURR_DA]; omega) (fun j hj => by simp only [fldKey, fPWR_CURR_VALID, fPWR_CURR_DA]; omega) rfl

/-! The heat that engines, coolant and stacks report. -/

theorem getF_setEngTemp_ne (s : State) (e v : Nat) {g : Fld} (h1 : fldKey g ≠ fldKey (fOPT_ENG_TEMP e)) (h2 : fldKey g ≠ fldKey (fOPT_ENG_HOT e))
    (h3 : fldKey g ≠ fldKey fOPT_LINK_ERR_ENG_HOT) (h4 : reportKey (fldKey g) = false) : getF (setEngTemp s e v) g = getF s g := by
  rw [setEngTemp, getF_raiseIf_ne _ _ h3 h4, setFs_cons, setFs_cons, setFs_nil, getF_setF_ne _ _ h2, getF_setF_ne _ _ h1]

theorem setEngTemp_facts (s : State) {e : Nat} (v : Nat) (he : e < 17) : getF (setEngTemp s e v) (fOPT_ENG_TEMP e) = v % 256 ∧
    getF (setEngTemp s e v) (fOPT_ENG_HOT e) = (if 83 ≤ sx 8 (v % 256) then 1 else 0) ∧
    (83 ≤ sx 8 (v % 256) → getF (setEngTemp s e v) fOPT_LINK_ERR_ENG_HOT = 1) := by
  refine ⟨?_, ?_, fun h => ?_⟩
  · rw [setEngTemp, getF_raiseIf_ne _ _ (by simp [fldKey, fOPT_ENG_TEMP, fOPT_LINK_ERR_ENG_HOT]; omega) (reportKey_off (by simp [fOPT_ENG_TEMP]; omega)), setFs_cons,
      setFs_cons, setFs_nil, getF_setF_ne _ _ (by simp [fldKey, fOPT_ENG_TEMP, fOPT_ENG_HOT]), getF_setF_same]
    rfl
  · rw [setEngTemp, getF_raiseIf_ne _ _ (by simp [fldKey, fOPT_ENG_HOT, fOPT_LINK_ERR_ENG_HOT]; omega) (reportKey_off (by simp [fOPT_ENG_HOT]; omega)), setFs_cons,
      setFs_cons, setFs_nil, getF_setF_same]
    by_cases h : 83 ≤ sx 8 (v % 256) <;> simp [h, fOPT_ENG_HOT]
  · simp only [setEngTemp, h, decide_true, raiseIf, if_true]
    exact getF_raise_same (f := fOPT_LINK_ERR_ENG_HOT) _ (by decide)

/-- The temperatures of the engines, written one after the other. -/
def enginesShown (u : State) (engines : List Nat) : State := (engines.take 17).zipIdx.foldl (fun s p => setEngTemp s p.2 p.1) u

theorem mem_enginesShown {engines : List Nat} {p : Nat × Nat} (hp : p ∈ (engines.take 17).zipIdx) : p.2 < 17 ∧ engines[p.2]? = some p.1 := by
  have h1 := List.mem_zipIdx_iff_getElem?.mp hp
  have h2 : p.2 < 17 := by
    have := List.snd_lt_of_mem_zipIdx hp
    simp only [List.length_take] at this
    omega
  rw [List.getElem?_take_of_lt h2] at h1
  exact ⟨h2, h1⟩

theorem enginesShown_keeps (u : State) (engines : List Nat) {g : Fld} (h1 : ∀ e, e < 17 → fldKey g ≠ fldKey (fOPT_ENG_TEMP e) ∧ fldKey g ≠ fldKey (fOPT_ENG_HOT e))
    (h3 : fldKey g ≠ fldKey fOPT_LINK_ERR_ENG_HOT) (h4 : reportKey (fldKey g) = false) : getF (enginesShown u engines) g = getF u g := by
  refine foldl_keeps_mem (fun x => getF x g = getF u g) rfl fun x p hp hx => ?_
  obtain ⟨h, -⟩ := mem_enginesShown hp
  rw [getF_setEngTemp_ne x p.2 p.1 (h1 p.2 h).1 (h1 p.2 h).2 h3 h4, hx]

theorem enginesShown_frame (u : State) (engines : List Nat) : (enginesShown u engines).pwr = u.pwr ∧ (enginesShown u engines).tiles = u.tiles ∧
    (enginesShown u engines).mem = u.mem := by
  refine foldl_keeps (fun x : State => x.pwr = u.pwr ∧ x.tiles = u.tiles ∧ x.mem = u.mem) _ _ _ ⟨rfl, rfl, rfl⟩ fun x p h => ?_
  simpa [setEngTemp] using h

theorem enginesShown_shows (u : State) {engines : List Nat} {n v : Nat} (hn : n < 17) (hv : engines[n]? = some v) :
    getF (enginesShown u engines) (fOPT_ENG_TEMP n) = v % 256 ∧
    getF (enginesShown u engines) (fOPT_ENG_HOT n) = (if 83 ≤ sx 8 (v % 256) then 1 else 0) ∧
    (83 ≤ sx 8 (v % 256) → getF (enginesShown u engines) fOPT_LINK_ERR_ENG_HOT = 1) := by
  have hmem : (v, n) ∈ (engines.take 17).zipIdx := List.mem_zipIdx_iff_getElem?.mpr (by rw [List.getElem?_take_of_lt hn, hv])
  refine foldl_settles (b := (v, n)) (fun _ => True) (fun x : State => getF x (fOPT_ENG_TEMP n) = v % 256 ∧
    getF x (fOPT_ENG_HOT n) = (if 83 ≤ sx 8 (v % 256) then 1 else 0) ∧ (83 ≤ sx 8 (v % 256) → getF x fOPT_LINK_ERR_ENG_HOT = 1))
    trivial (fun _ _ _ _ => trivial) (fun x _ => setEngTemp_facts x v hn) (fun x p hp hne _ hx => ?_) hmem
  obtain ⟨hp1, hp2⟩ := mem_enginesShown hp
  have hpn : p.2 ≠ n := fun h => hne (Prod.ext (by rw [h, hv] at hp2; exact (Option.some.inj hp2).symm) h)
  obtain ⟨h1, h2, h3⟩ := hx
  refine ⟨?_, ?_, fun h => ?_⟩
  · rw [getF_setEngTemp_ne x p.2 p.1 (by simp [fldKey, fOPT_ENG_TEMP]; omega) (by simp [fldKey, fOPT_ENG_TEMP, fOPT_ENG_HOT]; omega)
      (by simp [fldKey, fOPT_ENG_TEMP, fOPT_LINK_ERR_ENG_HOT]; omega) (reportKey_off (by simp [fOPT_ENG_TEMP]; omega)), h1]
  · rw [getF_setEngTemp_ne x p.2 p.1 (by simp [fldKey, fOPT_ENG_TEMP, fOPT_ENG_HOT]; omega) (by simp [fldKey, fOPT_ENG_HOT]; omega)
      (by simp [fldKey, fOPT_ENG_HOT, fOPT_LINK_ERR_ENG_HOT]; omega) (reportKey_off (by simp [fOPT_ENG_HOT]; omega)), h2]
  · rw [setEngTemp]
    cases hot : decide (83 ≤ sx 8 (p.1 % 256))
    · simp only [raiseIf, Bool.false_eq_true, if_false, setFs_cons, setFs_nil]
      rw [getF_setF_ne _ _ (by simp [fldKey, fOPT_ENG_HOT, fOPT_LINK_ERR_ENG_HOT]; omega), getF_setF_ne _ _ (by simp [fldKey, fOPT_ENG_TEMP, fOPT_LINK_ERR_ENG_HOT]; omega), h3 h]
    · exact getF_raise_same (f := fOPT_LINK_ERR_ENG_HOT) _ (by decide)

/-- A stack above its limit is reported, and stays so. -/
theorem getF_stackHot_ne (u : State) (t : Int) {g : Fld} (h1 : fldKey g ≠ fldKey fPWR_ERR_STACK_HOT) (h2 : reportKey (fldKey g) = false) :
    getF (stackHot u t) g = getF u g := getF_raiseIf_ne _ _ h1 h2

theorem stackHot_hot (u : State) {t : Int} (h : 8 * 92 ≤ t) : getF (stackHot u t) fPWR_ERR_STACK_HOT = 1 := by
  have hd : decide (degC 92 ≤ t) = true := decide_eq_true h
  rw [stackHot, hd]
  exact getF_raise_same (f := fPWR_ERR_STACK_HOT) _ (by decide)

theorem stackHot_stays {u : State} (t : Int) (h : getF u fPWR_ERR_STACK_HOT = 1) : getF (stackHot u t) fPWR_ERR_STACK_HOT = 1 := by
  unfold stackHot raiseIf
  split
  · exact getF_raise_same (f := fPWR_ERR_STACK_HOT) _ (by decide)
  · exact h

theorem stackHots_facts (u : State) (l : List Int) : ((l.foldl stackHot u).pwr = u.pwr ∧ (l.foldl stackHot u).tiles = u.tiles ∧ (l.foldl stackHot u).mem = u.mem) ∧
    (∀ t ∈ l, 8 * 92 ≤ t → getF (l.foldl stackHot u) fPWR_ERR_STACK_HOT = 1) ∧
    ∀ g, fldKey g ≠ fldKey fPWR_ERR_STACK_HOT → reportKey (fldKey g) = false → getF (l.foldl stackHot u) g = getF u g := by
  refine ⟨?_, fun t ht hh => ?_, fun g h1 h2 => foldl_same (fun x => getF x g) _ _ _ fun x t => getF_stackHot_ne x t h1 h2⟩
  · refine foldl_keeps (fun x : State => x.pwr = u.pwr ∧ x.tiles = u.tiles ∧ x.mem = u.mem) _ _ _ ⟨rfl, rfl, rfl⟩ fun x t h => ?_
    simpa [stackHot] using h
  · exact foldl_settles (b := t) (fun _ => True) (fun x => getF x fPWR_ERR_STACK_HOT = 1) trivial (fun _ _ _ _ => trivial) (fun x _ => stackHot_hot x hh)
      (fun x v _ _ _ hx => stackHot_stays v hx) ht

end Telemetry

/-- Telemetry copies every sensor that is not held, and reports what is hot (R519, R520). -/
theorem telemetryCopy_copies {s : State} {temps : List Int} {volts currs engines : List Nat} {hotStacks : List Int} (hon : s.pm.pins.aon = true)
    (hat : since s s.pwr.teleAt 100000 = true) : Answers (.telemetryCopy temps volts currs engines hotStacks) s fun u =>
      (∀ n t, n < 48 → temps[n]? = some t → (n < 32 → dieUp s (n / 8) = true) → getF u (fPWR_TEMP_VALID n) = 1 ∧ getF u (fPWR_TEMP_TEMP n) = (t % 4096).toNat) ∧
      (∀ n, n < 32 → dieUp s (n / 8) = false → getF u (fPWR_TEMP_VALID n) = getF s (fPWR_TEMP_VALID n) ∧ getF u (fPWR_TEMP_TEMP n) = getF s (fPWR_TEMP_TEMP n)) ∧
      (∀ n v, n < 24 → volts[n]? = some v → (2 ≤ n → n ≤ 5 → dieUp s (n - 2) = true) → getF u (fPWR_VOLT_VALID n) = 1 ∧
        getF u (fPWR_VOLT_MV n) = v % 2 ^ ((fPWR_VOLT_MV n).hi + 1 - (fPWR_VOLT_MV n).lo)) ∧
      (∀ n v, n < 12 → currs[n]? = some v → (1 ≤ n → n ≤ 4 → dieUp s (n - 1) = true) → getF u (fPWR_CURR_VALID n) = 1 ∧
        getF u (fPWR_CURR_DA n) = v % 2 ^ ((fPWR_CURR_DA n).hi + 1 - (fPWR_CURR_DA n).lo)) ∧
      (∀ n v, n < 17 → engines[n]? = some v → getF u (fOPT_ENG_TEMP n) = v % 256 ∧ getF u (fOPT_ENG_HOT n) = (if 83 ≤ sx 8 (v % 256) then 1 else 0) ∧
        (83 ≤ sx 8 (v % 256) → getF u fOPT_LINK_ERR_ENG_HOT = 1)) ∧
      (∀ t, temps[44]? = some t → 8 * 40 < t → getF u fPWR_ERR_COOLANT_HOT = 1) ∧ (∀ t ∈ hotStacks.take 8, 8 * 92 ≤ t → getF u fPWR_ERR_STACK_HOT = 1) ∧
      u.pwr = { s.pwr with teleAt := some s.now } ∧ (∀ j, u.tile j = s.tile j) ∧ u.mem = s.mem := by
  obtain ⟨hot, hhot⟩ : ∃ hot, hot = (match temps[44]? with | some t => decide (degC 40 < t) | none => false) := ⟨_, rfl⟩
  obtain ⟨a, ha⟩ : ∃ a, a = sampledSensors s temps volts currs := ⟨_, rfl⟩
  obtain ⟨c, hc⟩ : ∃ c, c = raiseIf hot (enginesShown a engines) fPWR_ERR_COOLANT_HOT := ⟨_, rfl⟩
  have he : exec (.telemetryCopy temps volts currs engines hotStacks) s = .next ((hotStacks.take 8).foldl stackHot c) := by
    show execTelemetryCopy temps volts currs engines hotStacks s = _
    rw [execTelemetryCopy, if_neg (by simp [hon, hat]), hc, ha, hhot]
    rfl
  obtain ⟨⟨f1, f2, f3⟩, hstack, hkeep⟩ := stackHots_facts c (hotStacks.take 8)
  obtain ⟨g1, g2, g3⟩ := enginesShown_frame a engines
  obtain ⟨csr, hframe⟩ := sampledSensors_frame s temps volts currs
  rw [← ha] at hframe
  have hshown {g : Fld} (h1 : fldKey g ≠ fldKey fPWR_ERR_STACK_HOT) (h2 : fldKey g ≠ fldKey fPWR_ERR_COOLANT_HOT) (h3 : reportKey (fldKey g) = false) :
      getF ((hotStacks.take 8).foldl stackHot c) g = getF (enginesShown a engines) g := by
    rw [hkeep g h1 h3, hc, getF_raiseIf_ne _ _ h2 h3]
  have hsensor {g : Fld} (h : g.lo < 64 ∧ 0x200400 ≤ g.off ∧ g.off < 0x200600) : getF ((hotStacks.take 8).foldl stackHot c) g = getF a g := by
    obtain ⟨h1, h2, h3⟩ := h
    have hr : reportKey (fldKey g) = false := reportKey_off (by omega)
    rw [hshown (by simp only [fldKey, fPWR_ERR_STACK_HOT]; omega) (by simp only [fldKey, fPWR_ERR_COOLANT_HOT]; omega) hr,
      enginesShown_keeps a engines (fun e he => by simp only [fldKey, fOPT_ENG_TEMP, fOPT_ENG_HOT]; omega) (by simp only [fldKey, fOPT_LINK_ERR_ENG_HOT]; omega) hr]
  refine ⟨_, he, fun n t hn ht hup => ?temp, fun n hn hup => ?held, fun n v hn hv hup => ?volt, fun n v hn hv hup => ?curr, fun n v hn hv => ?engine, fun t ht hh => ?coolant,
    hstack, ?pwr, fun j => ?tile, ?mem⟩
  case temp =>
    rw [hsensor (by simp only [fPWR_TEMP_VALID]; omega), hsensor (by simp only [fPWR_TEMP_TEMP]; omega), ha]
    exact sampledSensors_temp s temps volts currs hn ht hup
  case held =>
    rw [hsensor (by simp only [fPWR_TEMP_VALID]; omega), hsensor (by simp only [fPWR_TEMP_TEMP]; omega), ha]
    exact sampledSensors_tempHeld s temps volts currs hn hup
  case volt =>
    rw [hsensor (by simp only [fPWR_VOLT_VALID]; omega), hsensor (by simp only [fPWR_VOLT_MV]; omega), ha]
    exact sampledSensors_volt s temps volts currs hn hv hup
  case curr =>
    rw [hsensor (by simp only [fPWR_CURR_VALID]; omega), hsensor (by simp only [fPWR_CURR_DA]; omega), ha]
    exact sampledSensors_curr s temps volts currs hn hv hup
  case engine =>
    rw [hshown (by simp [fldKey, fOPT_ENG_TEMP, fPWR_ERR_STACK_HOT]; omega) (by simp [fldKey, fOPT_ENG_TEMP, fPWR_ERR_COOLANT_HOT]; omega) (reportKey_off (by simp [fOPT_ENG_TEMP]; omega)),
      hshown (by simp [fldKey, fOPT_ENG_HOT, fPWR_ERR_STACK_HOT]; omega) (by simp [fldKey, fOPT_ENG_HOT, fPWR_ERR_COOLANT_HOT]; omega) (reportKey_off (by simp [fOPT_ENG_HOT]; omega)),
      hshown (by decide) (by decide) (by decide)]
    exact enginesShown_shows a hn hv
  case coolant =>
    have hd : hot = true := by rw [hhot, ht]; exact decide_eq_true hh
    rw [hkeep _ (by decide) (by decide), hc, hd]
    exact getF_raise_same (f := fPWR_ERR_COOLANT_HOT) _ (by decide)
  case pwr => rw [f1, hc, raiseIf_pwr, g1, hframe]
  case tile => rw [tile_tiles f2, hc, tile_tiles (raiseIf_tiles _ _ _), tile_tiles g2, hframe]; rfl
  case mem => rw [f3, hc, raiseIf_mem, g3, hframe]

/-! ### Droop, Sluice and the tables -/

theorem removedIn_all (a : Nat) {k : Nat} (hk : k ≤ 16) : removedIn (16 * a) 16 k = k := by
  have hmod (i : Nat) : (16 * a + i) * k % 16 = i * k % 16 := by
    rw [Nat.add_mul, Nat.mul_assoc, Nat.mul_add_mod]
  simp only [removedIn, hmod]
  interval_cases k <;> rfl

theorem sluiceK_facts (demand allowed : Nat) : sluiceK demand allowed ≤ 12 ∧ (∀ k, k < sluiceK demand allowed → 16 * allowed < demand * (16 - k)) ∧
    (4 * demand ≤ 16 * allowed → demand * (16 - sluiceK demand allowed) ≤ 16 * allowed) := by
  unfold sluiceK
  cases h : (List.range 13).find? fun k => decide (demand * (16 - k) ≤ 16 * allowed) with
  | none =>
    rw [List.find?_eq_none] at h
    have hall (k : Nat) (hk : k < 13) : 16 * allowed < demand * (16 - k) := by
      have := h k (List.mem_range.mpr hk)
      simpa using this
    refine ⟨Nat.le_refl _, fun k hk => hall k (Nat.lt_succ_of_lt hk), fun hd => ?_⟩
    have := hall 12 (by decide)
    simp only [Option.getD_none]
    omega
  | some m =>
    rw [List.find?_range_eq_some] at h
    obtain ⟨h1, h2, h3⟩ := h
    have hm : m < 13 := List.mem_range.mp h2
    refine ⟨Nat.le_of_lt_succ hm, fun k hk => ?_, fun _ => by simpa using h1⟩
    simpa using h3 k hk

theorem sluiceEstimate_estimates {s : State} {d : Die} {issue : List (Nat × Nat)} {port : List Nat} {demand k : Nat} (hup : dieUp s d.val = true)
    (hd : demand = sluiceCurrent (sluiceTable s d.val) issue port)
    (hk : k = sluiceK demand ((dieLoop s d.val).current + 40 * (s.now - (dieLoop s d.val).currentAt)))
    (ht : 8000 ≤ (s.now - (dieLoop s d.val).currentAt) * tileMHz s d.val) : Answers (.sluiceEstimate d issue port) s fun u =>
      dieLoop u d.val = { dieLoop s d.val with sluice := k, current := demand * (16 - k) / 16, currentAt := s.now } ∧
      u = { s with pwr := { s.pwr with dies := u.pwr.dies } } := by
  have he : exec (.sluiceEstimate d issue port) s = .next (setLoop s d.val { dieLoop s d.val with sluice := k, current := demand * (16 - k) / 16, currentAt := s.now }) := by
    show execSluiceEstimate d issue port s = _
    simp only [execSluiceEstimate, ← hd, ← hk]
    rw [if_neg (by simpa [hup] using ht)]
  exact ⟨_, he, dieLoop_setLoop_same _ _ _, rfl⟩

theorem droopStretch_steps {s : State} {c : Cluster} {mv th : Nat} {d : Die} (hup : dieUp s (c.val / 4) = true) (hc : c.val / 4 = d.val)
    (hth : getF s fCLK_DROOP_CTL_TH_MV = th) : exec (.droopStretch c mv) s = .next (
      if 1000 * (mv + th) < (dieLoop s d.val).uv then setCluster s c.val { clusterRt s c.val with droop := some ((clusterRt s c.val).droop.getD s.now) }
      else match (clusterRt s c.val).droop with
        | some t => if 32000 ≤ (s.now - t) * tileMHz s d.val ∧ (dieLoop s d.val).uv + 10000 ≤ 1000 * (mv + th) then
            setCluster s c.val { clusterRt s c.val with droop := none } else s
        | none => s) := by
  subst hth
  rw [hc] at hup
  show execDroopStretch c mv s = _
  simp only [execDroopStretch, hup, hc, Bool.not_true, Bool.false_eq_true, if_false] <;> rfl

theorem clusterRt_setCluster_same (s : State) (c : Nat) (x : ClusterRt) : clusterRt (setCluster s c x) c = x := mget_mset_same _ _ _ _

theorem clusterRt_setCluster_ne (s : State) {c e : Nat} (x : ClusterRt) (h : e ≠ c) : clusterRt (setCluster s c x) e = clusterRt s e := mget_mset_ne _ _ _ h

theorem droopStretch_clauses {s : State} {c : Cluster} {mv th : Nat} {d : Die} {y : ClusterRt} (hup : dieUp s (c.val / 4) = true) (hc : c.val / 4 = d.val)
    (hth : getF s fCLK_DROOP_CTL_TH_MV = th) (hy : clusterRt s c.val = y) :
      (1000 * (mv + th) < (dieLoop s d.val).uv → Answers (.droopStretch c mv) s fun u => clusterRt u c.val = { y with droop := some (y.droop.getD s.now) } ∧
        u = { s with pkg := { s.pkg with clusters := u.pkg.clusters } }) ∧
      (∀ t, y.droop = some t → 32000 ≤ (s.now - t) * tileMHz s d.val → (dieLoop s d.val).uv + 10000 ≤ 1000 * (mv + th) → Answers (.droopStretch c mv) s fun u =>
        clusterRt u c.val = { y with droop := none } ∧ u = { s with pkg := { s.pkg with clusters := u.pkg.clusters } }) ∧
      ((dieLoop s d.val).uv ≤ 1000 * (mv + th) → (y.droop = none ∨ 1000 * (mv + th) < (dieLoop s d.val).uv + 10000 ∨
        ∃ t, y.droop = some t ∧ (s.now - t) * tileMHz s d.val < 32000) → exec (.droopStretch c mv) s = .next s) := by
  subst hy
  have he := droopStretch_steps (mv := mv) hup hc hth
  refine ⟨fun h => ?_, fun t ht h1 h2 => ?_, fun h1 h2 => ?_⟩
  · rw [if_pos h] at he
    exact ⟨_, he, clusterRt_setCluster_same _ _ _, rfl⟩
  · rw [if_neg (by omega), ht] at he
    dsimp only at he
    rw [if_pos ⟨h1, h2⟩] at he
    exact ⟨_, he, clusterRt_setCluster_same _ _ _, rfl⟩
  · rw [he, if_neg (by omega)]
    rcases h2 with h2 | h2 | ⟨t, ht, h2⟩
    · rw [h2]
    · split
      · rw [if_neg (by omega)]
      · rfl
    · rw [ht]
      dsimp only
      rw [if_neg (by omega)]

theorem removalOf_run {s : State} {c : Nat} (hup : dieUp s (c / 4) = true) (hrun : clusterState s c = kRUN) : removalOf s c =
    if (clusterRt s c).droop.isSome = true ∧ max (dieLoop s (c / 4)).sluice (max s.pwr.removal (if s.pwr.fast then 4 else 0)) < 8 then (8, true)
    else (max (dieLoop s (c / 4)).sluice (max s.pwr.removal (if s.pwr.fast then 4 else 0)), false) := by
  have hd : dieState s (c / 4) = dUP := beq_iff_eq.mp hup
  simp only [removalOf, hd, hrun, and_self, if_true]

theorem sluiceCalibration_loads {s : State} {d : Die} {l : List Nat} (hf : bitF s fPM_STATUS_FW_RUNNING = true) (hs : dieState s d.val ≠ dLOST)
    (ht : since s (dieLoop s d.val).tableAt 1000000 = true) : Answers (.sluiceCalibration d l) s fun u =>
      dieLoop u d.val = { dieLoop s d.val with tableAt := some s.now } ∧ sluiceTable u d.val = l ∧
      (∀ e, e < 4 → e ≠ d.val → sluiceTable u e = sluiceTable s e) ∧
      u = { s with pwr := { s.pwr with dies := u.pwr.dies }, pm := { s.pm with nor := { s.pm.nor with sluice := u.pm.nor.sluice } } } := by
  have he : exec (.sluiceCalibration d l) s = .next ((setLoop s d.val { dieLoop s d.val with tableAt := some s.now }).onPm fun p =>
      { p with nor := p.nor.putSluice d.val l }) := by
    show execSluiceCalibration d l s = _
    simp only [execSluiceCalibration, hf, ht, Bool.true_and, Bool.and_true, bne_iff_ne, ne_eq, hs, not_false_eq_true, if_true]
  refine ⟨_, he, dieLoop_setLoop_same _ _ _, ?_, fun e _ hne => ?_, rfl⟩
  · simp [sluiceTable, Nor.putSluice]
  · simp [sluiceTable, Nor.putSluice, setLoop, mget_mset_ne _ _ _ hne]

/-- Settles O47: each loop of the clocks acts on the fields and records named, under its condition. -/
theorem frequencyAndTelemetry : Obligations.FrequencyAndTelemetry := by
  unfold Obligations.FrequencyAndTelemetry
  intro s d x c hx hc
  refine ⟨fun power tj tm b w sl all good hb hw hsl hall hgood => ⟨fun hup hat => ?decide, fun h => dvfsDecide_idle (by rw [hx]; exact h)⟩, pin_facts s d,
    fun k hk => ⟨fun h1 h2 => fcodeChangeDone_waits hc hk h1 (by rw [hx]; exact h2), fun hup h => fcodeChangeDone_changes hc hk hup (by rw [hx]; exact h)⟩,
    fun hup => ?down, fun temps volts currs engines hotStacks hon hat => telemetryCopy_copies hon hat, fun temps volts currs engines hotStacks hat => ?idle,
    fun issue port demand k hup hd hk => ⟨fun ht => ?estimate, fun ht => ?early⟩, fun cl mv th y hup hcl hth hy => ?droop, fun cl r hcl hr => ?removal,
    fun a k => removedIn_all a, sluiceK_facts, fun l hf => ⟨fun hs ht => ?table, fun ht => ?coupling⟩, fun l hf => ?noFirmware⟩
  case decide =>
    have he := dvfsDecide_decides hx hc hb hw hsl hall hgood hup hat
    refine ⟨fun h => ?_, fun hg hp ha hr => ?_, fun hp ht ha hg => ?_⟩
    · rw [if_pos h] at he
      exact ⟨_, he, choice_facts s d _ _⟩
    · have hgd := (hgood.symm.trans hg)
      simp only [Bool.and_eq_true, decide_eq_true_iff] at hgd
      rw [if_neg (by omega), if_pos ⟨hg, hr⟩] at he
      exact ⟨_, he, choice_facts s d _ _⟩
    · rw [if_neg (by omega), if_neg (by rintro ⟨h1, h2⟩; rcases hg with hg | hg <;> simp_all)] at he
      exact ⟨_, he, dieLoop_setLoop_same _ _ _, rfl⟩
  case down =>
    show execFcodeChangeDone d s = _
    simp only [execFcodeChangeDone, hup, Bool.false_and, Bool.false_eq_true, if_false]
  case idle =>
    show execTelemetryCopy temps volts currs engines hotStacks s = _
    rw [execTelemetryCopy, if_pos (by simp [hat])]
  case estimate =>
    subst hx
    exact sluiceEstimate_estimates hup hd hk ht
  case early =>
    subst hx
    show execSluiceEstimate d issue port s = _
    simp only [execSluiceEstimate]
    rw [if_pos (by simp [ht])]
  case droop =>
    subst hx
    exact droopStretch_clauses hup hcl hth hy
  case removal =>
    subst hx hr
    refine ⟨fun hup hrun => ?_, fun hrun => ?_⟩
    · have hrem := removalOf_run (s := s) (c := cl.val) (by rw [hcl]; exact hup) hrun
      rw [hcl] at hrem
      refine ⟨fun hd => ?_, fun hd => ?_⟩
      · rw [hrem, hd]
        rfl
      · rw [hrem]
        simp only [Option.isSome_iff_ne_none.mpr hd, true_and]
    · simp only [removalOf, hrun, and_false, if_false]
  case table =>
    subst hx
    exact sluiceCalibration_loads hf hs ht
  case coupling =>
    show execCouplingRefine l s = _
    rw [execCouplingRefine, if_pos (by simp [hf, ht])]
    rfl
  case noFirmware =>
    refine ⟨?_, ?_⟩
    · show execSluiceCalibration d l s = _
      simp only [execSluiceCalibration, hf, Bool.false_and, Bool.false_eq_true, if_false]
    · show execCouplingRefine l s = _
      simp only [execCouplingRefine, hf, Bool.false_and, Bool.false_eq_true, if_false]

end Sys2Proof.Machine
end

section
/-! PROOFS. Fields of byte strings. -/

namespace Sys2Proof.Machine

/-! ### Fields of byte strings -/

theorem ofBytes_toBytes (n x : Nat) : ofBytes (toBytes n x) = x % 2 ^ (8 * n) := by
  induction n generalizing x with
  | zero => simp [toBytes, ofBytes, Nat.mod_one]
  | succ n ih =>
    simp only [toBytes, ofBytes, ih, BitVec.toNat_ofNat]
    rw [show 8 * (n + 1) = 8 + 8 * n by ring, Nat.pow_add, Nat.mod_mul]

@[simp] theorem slice_length (l : List Byte) (o n : Nat) : (slice l o n).length = n := by simp [slice]

theorem leAt_lt (l : List Byte) (o n : Nat) : leAt l o n < 2 ^ (8 * n) := by
  have := ofBytes_lt (slice l o n)
  rwa [slice_length, show (256 : Nat) = 2 ^ 8 from rfl, ← Nat.pow_mul] at this

theorem slice_append_left {l m : List Byte} {o n : Nat} (h : o + n ≤ l.length) : slice (l ++ m) o n = slice l o n := by
  refine List.map_congr_left fun i hi => ?_
  have := List.mem_range.mp hi
  simp [List.getD_eq_getElem?_getD, List.getElem?_append_left (show o + i < l.length by omega)]

theorem slice_append_right {l m : List Byte} {o n : Nat} (h : l.length ≤ o) : slice (l ++ m) o n = slice m (o - l.length) n := by
  refine List.map_congr_left fun i _ => ?_
  rw [List.getD_eq_getElem?_getD, List.getElem?_append_right (by omega), List.getD_eq_getElem?_getD]
  congr 2
  omega

theorem slice_whole (l : List Byte) : slice l 0 l.length = l := by
  refine List.ext_getElem (by simp) fun i h1 h2 => ?_
  simp [slice, List.getD_eq_getElem?_getD, h2]

theorem leAt_append_left {l m : List Byte} {o n : Nat} (h : o + n ≤ l.length) : leAt (l ++ m) o n = leAt l o n := by rw [leAt, slice_append_left h, leAt]

theorem leAt_append_right {l m : List Byte} {o n : Nat} (h : l.length ≤ o) : leAt (l ++ m) o n = leAt m (o - l.length) n := by
  rw [leAt, slice_append_right h, leAt]

theorem leAt_whole {l : List Byte} {n : Nat} (h : l.length = n) : leAt l 0 n = ofBytes l := by rw [leAt, ← h, slice_whole]

theorem leAt_toBytes (n x : Nat) : leAt (toBytes n x) 0 n = x % 2 ^ (8 * n) := by rw [leAt_whole (toBytes_length n x), ofBytes_toBytes]

/-- A field of a string that is one field after another. -/
theorem leAt_field (n x : Nat) (m : List Byte) : leAt (toBytes n x ++ m) 0 n = x % 2 ^ (8 * n) := by
  rw [leAt_append_left (by rw [toBytes_length]; omega), leAt_toBytes]

end Sys2Proof.Machine
end

section
/-! PROOFS. Trace and snapshots (O54). -/

namespace Sys2Proof.Machine

section Trace
variable {s : State} {o : Obs}

/-! ### Snapshots -/

theorem checkSel_only (s : State) : OnlyFields s (checkSel s) [fOBS_STATUS_SEL_BAD] := by
  unfold checkSel
  split
  · exact onlyFields_setF s _ 1
  · exact OnlyFields.refl s _

theorem checkSel_bad (h : ∃ n ∈ selectors s, selValue s n = none) : getF (checkSel s) fOBS_STATUS_SEL_BAD = 1 := by
  obtain ⟨n, hn, hv⟩ := h
  rw [checkSel, if_pos (List.any_eq_true.mpr ⟨n, hn, by rw [hv]; rfl⟩), getF_setF_same]
  rfl

/-- The last of several writes to a field decides what it reads. -/
theorem getF_setFs_mem (s : State) (l : List (Fld × Nat)) {f : Fld} {v : Nat} (hm : (f, v) ∈ l) (hu : ∀ p ∈ l, fldKey p.1 = fldKey f → p = (f, v)) :
    getF (setFs s l) f = v % 2 ^ (f.hi + 1 - f.lo) := by
  refine foldl_settles (f := fun s (p : Fld × Nat) => setF s p.1 p.2) (b := (f, v)) (fun _ => True) (fun x => getF x f = v % 2 ^ (f.hi + 1 - f.lo)) trivial (fun _ _ _ _ => trivial)
    (fun x _ => getF_setF_same x f v) (fun x p hp hne _ hx => ?_) hm
  show getF (setF x p.1 p.2) f = _
  rw [getF_setF_ne _ _ fun e => hne (hu p hp e.symm), hx]

/-- The values that a snapshot takes. -/
def snapValues (s : State) : List (Fld × Nat) :=
  ((List.range 16).map fun n => (fOBS_SNAP_VALUE n, if bitF s (fOBS_SEL_EN n) then (selValue s n).getD 0 else 0)) ++
    [(fOBS_SNAP_TIME_TIME, s.now), (fOBS_STATUS_SNAP_BUSY, 1)]

theorem mem_snapValues {p : Fld × Nat} (hp : p ∈ snapValues s) :
    (∃ n, n < 16 ∧ p = (fOBS_SNAP_VALUE n, if bitF s (fOBS_SEL_EN n) then (selValue s n).getD 0 else 0)) ∨ p = (fOBS_SNAP_TIME_TIME, s.now) ∨ p = (fOBS_STATUS_SNAP_BUSY, 1) := by
  simp only [snapValues, List.mem_append, List.mem_map, List.mem_range, List.mem_cons, List.not_mem_nil, or_false] at hp
  rcases hp with ⟨n, hn, rfl⟩ | hp
  · exact .inl ⟨n, hn, rfl⟩
  · exact .inr hp

theorem fldKey_snapValue (n : Nat) : fldKey (fOBS_SNAP_VALUE n) = 872448000 + 512 * n := by
  show (0xD00200 + 0x8 * n) * 64 + 0 = _
  omega

/-- Every field of a snapshot is written once. -/
theorem getF_snap {p : Fld × Nat} (w : State) (hp : p ∈ snapValues s) : getF (setFs w (snapValues s)) p.1 = p.2 % 2 ^ (p.1.hi + 1 - p.1.lo) := by
  refine getF_setFs_mem _ _ hp fun q hq hkey => ?_
  have htime : fldKey fOBS_SNAP_TIME_TIME = 872418816 := rfl
  have hbusy : fldKey fOBS_STATUS_SNAP_BUSY = 872415746 := rfl
  rcases mem_snapValues hp with ⟨n, _, rfl⟩ | rfl | rfl <;> rcases mem_snapValues hq with ⟨m, _, rfl⟩ | rfl | rfl <;>
    simp only [fldKey_snapValue, htime, hbusy] at hkey
  · obtain rfl : m = n := by omega
    rfl
  · omega
  · omega
  · omega
  · rfl
  · omega
  · omega
  · omega
  · rfl

theorem snap_fields {f : Fld} {n : Nat} (hp : (f, n) ∈ snapValues s) : f ∈ [fOBS_STATUS_SEL_BAD, fOBS_SNAP_TIME_TIME, fOBS_STATUS_SNAP_BUSY] ++ (List.range 16).map fOBS_SNAP_VALUE := by
  rcases mem_snapValues hp with ⟨m, hm, h⟩ | h | h <;> obtain ⟨rfl, -⟩ := Prod.mk.inj h
  · exact List.mem_append_right _ (List.mem_map.mpr ⟨m, List.mem_range.mpr hm, rfl⟩)
  · simp
  · simp

theorem getF_snap_bad (w : State) : getF (setFs w (snapValues s)) fOBS_STATUS_SEL_BAD = getF w fOBS_STATUS_SEL_BAD := by
  refine getF_setFs_ne _ _ fun p hp => ?_
  rcases mem_snapValues hp with ⟨n, _, rfl⟩ | rfl | rfl
  · rw [fldKey_snapValue, show fldKey fOBS_STATUS_SEL_BAD = 872415748 from rfl]
    omega
  · exact show fldKey fOBS_STATUS_SEL_BAD ≠ fldKey fOBS_SNAP_TIME_TIME by decide
  · exact show fldKey fOBS_STATUS_SEL_BAD ≠ fldKey fOBS_STATUS_SNAP_BUSY by decide

theorem snap_takes (hf : bitF s fOBS_STATUS_SNAP_BUSY = false) : Answers .snap s fun u =>
      (∀ n, n < 16 → getF u (fOBS_SNAP_VALUE n) = (if bitF s (fOBS_SEL_EN n) = true then (selValue s n).getD 0 else 0) % 2 ^ 64) ∧
      getF u fOBS_SNAP_TIME_TIME = s.now % 2 ^ 64 ∧ getF u fOBS_STATUS_SNAP_BUSY = 1 ∧ ((∃ n ∈ selectors s, selValue s n = none) → getF u fOBS_STATUS_SEL_BAD = 1) ∧
      u.obs = { s.obs with snapAt := some s.now } ∧
      OnlyFields s { u with obs := s.obs } ([fOBS_STATUS_SEL_BAD, fOBS_SNAP_TIME_TIME, fOBS_STATUS_SNAP_BUSY] ++ (List.range 16).map fOBS_SNAP_VALUE) := by
  obtain ⟨w, hw⟩ : ∃ w, w = setFs (checkSel s) (snapValues s) := ⟨_, rfl⟩
  have he : exec .snap s = .next (w.onObs fun x => { x with snapAt := some w.now }) := by
    show execSnap s = _
    rw [execSnap, if_neg (by simp [hf]), hw]
    rfl
  obtain ⟨hk, hs⟩ := checkSel_only s
  have hframe : w = { s with csr := w.csr } := hw ▸ (setFs_frame _ _).trans (by rw [hs])
  have hvals : ∀ p ∈ snapValues s, getF w p.1 = p.2 % 2 ^ (p.1.hi + 1 - p.1.lo) := fun p hp => hw ▸ getF_snap _ hp
  have hbad : getF w fOBS_STATUS_SEL_BAD = getF (checkSel s) fOBS_STATUS_SEL_BAD := hw ▸ getF_snap_bad _
  have hkept : FieldsKept s w ([fOBS_STATUS_SEL_BAD, fOBS_SNAP_TIME_TIME, fOBS_STATUS_SNAP_BUSY] ++ (List.range 16).map fOBS_SNAP_VALUE) :=
    hw ▸ (FieldsKept.mono hk (by simp)).setFs fun p hp => snap_fields hp
  clear hw
  refine ⟨_, he, fun n hn => ?_, ?_, ?_, fun hb => ?_, ?_, fun g hg => hkept g hg, ?_⟩
  · exact hvals (fOBS_SNAP_VALUE n, _) (List.mem_append_left _ (List.mem_map.mpr ⟨n, List.mem_range.mpr hn, rfl⟩))
  · exact hvals (fOBS_SNAP_TIME_TIME, s.now) (List.mem_append_right _ (by simp))
  · exact hvals (fOBS_STATUS_SNAP_BUSY, 1) (List.mem_append_right _ (by simp))
  · exact hbad.trans (checkSel_bad hb)
  · rw [hframe]
    rfl
  · rw [hframe]
    rfl

theorem snap_ends (ho : s.obs = o) {t : Nat} (ht : o.snapAt = some t) : (s.now < t + 1000 → exec .snapDone s = .next s) ∧
      (t + 1000 ≤ s.now → Answers .snapDone s fun u => getF u fOBS_STATUS_SNAP_BUSY = 0 ∧ u.obs = { o with snapAt := none } ∧
        OnlyFields s { u with obs := o } [fOBS_STATUS_SNAP_BUSY]) := by
  subst ho
  have he : exec .snapDone s = .next (if s.now < t + 1000 then s else (setF s fOBS_STATUS_SNAP_BUSY 0).onObs fun o => { o with snapAt := none }) := by
    show execSnapDone s = _
    rw [execSnapDone, ht]
  refine ⟨fun h => he.trans (by rw [if_pos h]), fun h => ⟨_, he.trans (congrArg _ (if_neg (by omega))), getF_setF_same s fOBS_STATUS_SNAP_BUSY 0, rfl, onlyFields_setF s _ 0⟩⟩

/-! ### Sessions -/

theorem traceStart_begins (hen : bitF s fOBS_TRACE_CTL_TRACE_EN = false) {a n : Nat} (ha : getF s fOBS_TRACE_BASE_ADDR = a) (hn : getF s fOBS_TRACE_SIZE_PAGES = n)
    (h1 : a % 4096 = 0) (h2 : 0 < n) (h3 : n ≤ 1048576) (h4 : mappedRange a (4096 * n) = true) : Answers .traceStart s fun u => getF u fOBS_TRACE_CTL_TRACE_EN = 1 ∧
        getF u fOBS_STATUS_ACTIVE = 1 ∧ getF u fOBS_TRACE_LOST_COUNT = 0 ∧ u.obs = { s.obs with active := true, stage := [], dropped := 0, nextSeq := 0 } ∧
        OnlyFields s { u with obs := s.obs } [fOBS_TRACE_CTL_TRACE_EN, fOBS_STATUS_ACTIVE, fOBS_TRACE_LOST_COUNT, fOBS_TRACE_HEAD_SEQ] := by
  obtain ⟨w, hw⟩ : ∃ w, w = setFs s [(fOBS_TRACE_CTL_TRACE_EN, 1), (fOBS_STATUS_ACTIVE, 1), (fOBS_TRACE_LOST_COUNT, 0), (fOBS_TRACE_HEAD_SEQ, 0)] := ⟨_, rfl⟩
  have he : exec .traceStart s = .next (w.onObs fun o => { o with active := true, stage := [], dropped := 0, nextSeq := 0 }) := by
    show execTraceStart s = _
    rw [execTraceStart, if_neg (by simp [hen]), ha, hn, if_neg (by simp [h4]; omega), hw]
  have hval : ∀ p ∈ [(fOBS_TRACE_CTL_TRACE_EN, 1), (fOBS_STATUS_ACTIVE, 1), (fOBS_TRACE_LOST_COUNT, 0), (fOBS_TRACE_HEAD_SEQ, 0)],
      getF w p.1 = p.2 % 2 ^ (p.1.hi + 1 - p.1.lo) := fun p hp => hw ▸ getF_setFs_mem s _ hp (by revert p; decide)
  have honly : OnlyFields s w [fOBS_TRACE_CTL_TRACE_EN, fOBS_STATUS_ACTIVE, fOBS_TRACE_LOST_COUNT, fOBS_TRACE_HEAD_SEQ] := hw ▸ onlyFields_setFs s (by simp)
  clear hw
  obtain ⟨hk, hframe⟩ := honly
  refine ⟨_, he, hval (_, 1) (.head _), hval (_, 1) (.tail _ (.head _)), hval (_, 0) (.tail _ (.tail _ (.head _))), ?_, fun g hg => hk g hg, ?_⟩ <;> rw [hframe] <;> rfl

theorem traceStart_rejects (hen : bitF s fOBS_TRACE_CTL_TRACE_EN = false) {a n : Nat} (ha : getF s fOBS_TRACE_BASE_ADDR = a) (hn : getF s fOBS_TRACE_SIZE_PAGES = n)
    (h : a % 4096 ≠ 0 ∨ n = 0 ∨ 1048576 < n ∨ mappedRange a (4096 * n) = false) : Answers .traceStart s fun u => getF u fOBS_STATUS_RING_BAD = 1 ∧
        OnlyFields s u [fOBS_STATUS_RING_BAD] := by
  have he : exec .traceStart s = .next (setF s fOBS_STATUS_RING_BAD 1) := by
    show execTraceStart s = _
    rw [execTraceStart, if_neg (by simp [hen]), ha, hn, if_pos (by simpa using h)]
  exact ⟨_, he, getF_setF_same s _ 1, onlyFields_setF s _ 1⟩

theorem traceStop_off (hen : bitF s fOBS_TRACE_CTL_TRACE_EN = false) : exec .traceStop s = .next s := by
  show execTraceStop s = _
  rw [execTraceStop, if_neg (by simp [hen])]

theorem traceStop_ends (hen : bitF s fOBS_TRACE_CTL_TRACE_EN = true) : Answers .traceStop s fun u => getF u fOBS_TRACE_CTL_TRACE_EN = 0 ∧
      u.obs = { s.obs with active := false } ∧ OnlyFields s { u with obs := s.obs } [fOBS_TRACE_CTL_TRACE_EN] := by
  have he : exec .traceStop s = .next ((setF s fOBS_TRACE_CTL_TRACE_EN 0).onObs fun o => { o with active := false }) := by
    show execTraceStop s = _
    rw [execTraceStop, if_pos hen]
  exact ⟨_, he, getF_setF_same s fOBS_TRACE_CTL_TRACE_EN 0, rfl, onlyFields_setF s _ 0⟩

theorem traceStart_on (hen : bitF s fOBS_TRACE_CTL_TRACE_EN = true) : exec .traceStart s = .next s := by
  show execTraceStart s = _
  rw [execTraceStart, if_pos hen]

theorem traceDrain_ends (hen : bitF s fOBS_TRACE_CTL_TRACE_EN = false) (hs : s.obs.stage = []) : Answers .traceDrainDone s fun u =>
    getF u fOBS_STATUS_ACTIVE = 0 ∧ OnlyFields s u [fOBS_STATUS_ACTIVE] := by
  have he : exec .traceDrainDone s = .next (setF s fOBS_STATUS_ACTIVE 0) := by
    show execTraceDrainDone s = _
    rw [execTraceDrainDone, if_pos (by simp [hen, hs])]
  exact ⟨_, he, getF_setF_same s _ 0, onlyFields_setF s _ 0⟩

theorem traceDrain_waits (hs : s.obs.stage ≠ []) : exec .traceDrainDone s = .next s := by
  show execTraceDrainDone s = _
  rw [execTraceDrainDone, if_neg (by simp [hs])]

/-! ### The sampler -/

/-- Records that all find room in the staging buffer. -/
theorem posts_room (l : List (Nat × Nat × Nat)) (s : State) (hl : s.obs.stage.length + l.length ≤ 8192) :
    l.foldl (fun s x => postTrace s 7 x.1 x.2.1 x.2.2) s = { s with obs := { s.obs with stage := s.obs.stage ++
      (if s.obs.active = true ∧ bit (getF s fOBS_CTL_TYPES) 7 = true then l.map fun x => (⟨s.now, 7, synced s, x.1, x.2.1, x.2.2⟩ : TraceRec) else []) } } := by
  induction l generalizing s with
  | nil => simp
  | cons x l ih =>
    rw [List.length_cons] at hl
    by_cases hp : s.obs.active = true ∧ bit (getF s fOBS_CTL_TYPES) 7 = true
    · obtain ⟨v, hv⟩ : ∃ v : State, v = { s with obs := { s.obs with stage := s.obs.stage ++ [⟨s.now, 7, synced s, x.1, x.2.1, x.2.2⟩] } } := ⟨_, rfl⟩
      have h1 : postTrace s 7 x.1 x.2.1 x.2.2 = v := by rw [postTrace, if_pos (by simp [hp]), if_pos (by omega), hv]
      have hp' : v.obs.active = true ∧ bit (getF v fOBS_CTL_TYPES) 7 = true := hv ▸ hp
      have hsync : synced v = synced s := hv ▸ rfl
      rw [List.foldl_cons, h1, ih v (by simp [hv]; omega), if_pos hp, if_pos hp', hsync, hv]
      simp
    · have h1 : postTrace s 7 x.1 x.2.1 x.2.2 = s := by rw [postTrace, if_neg (by simpa using hp)]
      rw [List.foldl_cons, h1, ih _ (by omega), if_neg hp, if_neg hp]

theorem sampler_fires (ht : s.pwr.teleAt = some s.now) (hp : since s s.obs.firedAt (1000 * getF s fOBS_SAMPLE_CTL_PERIOD_US) = true)
    (hl : s.obs.stage.length + (selectors s).length ≤ 8192) : Answers .samplerFire s fun u => u.obs.firedAt = some s.now ∧
        u.obs.stage = s.obs.stage ++ (if s.obs.active = true ∧ bit (getF s fOBS_CTL_TYPES) 7 = true then
          (selectors s).map fun n => (⟨s.now, 7, synced s, n, (selValue s n).getD 0, getF s (fOBS_SEL_OFFSET n)⟩ : TraceRec) else []) ∧
        OnlyFields s { u with obs := s.obs } [fOBS_STATUS_SEL_BAD] := by
  obtain ⟨w, hw⟩ : ∃ w, w = (checkSel s).onObs fun o => { o with firedAt := some s.now } := ⟨_, rfl⟩
  obtain ⟨hk, hs⟩ := checkSel_only s
  have hframe : w = { s with csr := w.csr, obs := { s.obs with firedAt := some s.now } } := by
    rw [hw, hs]
    rfl
  have hkept : FieldsKept s w [fOBS_STATUS_SEL_BAD] := hw ▸ hk
  have htypes : getF w fOBS_CTL_TYPES = getF s fOBS_CTL_TYPES := hkept.getF (by decide)
  have hsync : synced w = synced s := congrArg (· == 1) (hkept.getF (g := fCMP_TB_STATUS_LOCKED) (by decide))
  have he : exec .samplerFire s = .next (((selectors s).map fun n => (n, (selValue s n).getD 0, getF s (fOBS_SEL_OFFSET n))).foldl
      (fun s x => postTrace s 7 x.1 x.2.1 x.2.2) w) := by
    show execSamplerFire s = _
    rw [execSamplerFire, if_neg (by simp [ht, hp]), hw]
  have hobs : w.obs = { s.obs with firedAt := some s.now } := by rw [hframe]
  have hnow : w.now = s.now := by rw [hframe]
  rw [posts_room _ _ (by simpa [hobs] using hl), htypes, hsync, hobs, hnow, List.map_map] at he
  exact ⟨_, he, rfl, rfl, fun g hg => hkept g hg, by rw [hframe]⟩

theorem sampler_waits (ht : s.pwr.teleAt ≠ some s.now) : exec .samplerFire s = .next s := by
  show execSamplerFire s = _
  rw [execSamplerFire, if_pos (.inl ht)]

/-! ### The ring -/

theorem meetsBad_fine {u : Nat} (h : UnitFine s u) : meetsBad s u = false := by
  obtain ⟨-, herr, heddy⟩ := h
  rw [meetsBad]
  split
  next l hl =>
    have hline : l.line = u / 4 := by
      have h1 : l.line = u * 64 / 256 := by simpa using List.find?_some hl
      omega
    simp [heddy l (List.mem_of_find?_eq_some hl) hline]
  next =>
    rw [herr]
    rfl

theorem traceRec_length (r : TraceRec) (q : Nat) : (r.bytes q).length = 32 := by simp [TraceRec.bytes, toBytes_length]

theorem traceRec_fields (r : TraceRec) (q : Nat) : (r.bytes q).length = 32 ∧ leAt (r.bytes q) 0 8 = r.time % 2 ^ 64 ∧ leAt (r.bytes q) 8 4 = q % 2 ^ 32 ∧
    leAt (r.bytes q) 0xC 1 = r.typ % 256 ∧ leAt (r.bytes q) 0xD 1 = r.synced.toNat ∧ leAt (r.bytes q) 0xE 2 = r.inst % 2 ^ 16 ∧
    leAt (r.bytes q) 0x10 8 = r.arg0 % 2 ^ 64 ∧ leAt (r.bytes q) 0x18 8 = r.arg1 % 2 ^ 64 := by
  have hb : r.synced.toNat % 256 = r.synced.toNat := Nat.mod_eq_of_lt (by cases r.synced <;> decide)
  refine ⟨traceRec_length r q, ?_⟩
  simp [TraceRec.bytes, leAt_append_left, leAt_append_right, leAt_toBytes, toBytes_length, hb]

/-- A record that the ring has room for. -/
theorem putTrace_room {a q : Nat} (r : TraceRec) (hq : s.obs.nextSeq = q) (ha : ringAt s q = a) (hf : LinesFine s a 32) (hfull : ringFull s = false) :
    putTrace s r = (true, (setF (memWriteH false s a (r.bytes q) 1) fOBS_TRACE_HEAD_SEQ q).onObs fun o => { o with nextSeq := q + 1 }) := by
  have hm : meetsBad s (a / 64) = false := meetsBad_fine (hf (a / 64) (by omega) (by omega))
  rw [putTrace, hq, ha, if_neg (by simp [hfull, hm])]

/-- What a written record leaves: its bytes and the head of the ring. -/
theorem record_written {a q : Nat} (r : TraceRec) (hf : LinesFine s a 32) {u : State}
    (hu : u = setF (memWriteH false s a (r.bytes q) 1) fOBS_TRACE_HEAD_SEQ q) :
    (∀ k, memByte u k = if a ≤ k ∧ k < a + 32 then (r.bytes q).getD (k - a) 0 else memByte s k) ∧ getF u fOBS_TRACE_HEAD_SEQ = q % 2 ^ 32 ∧ u.obs = s.obs := by
  obtain ⟨⟨hb, -, -, hs⟩, -⟩ := memWriteH_stored false (r.bytes q) 1 (show LinesFine s a (r.bytes q).length by rwa [traceRec_length])
  rw [traceRec_length] at hb
  rw [hu]
  exact ⟨hb, getF_setF_same _ fOBS_TRACE_HEAD_SEQ q, by rw [show (setF (memWriteH false s a (r.bytes q) 1) fOBS_TRACE_HEAD_SEQ q).obs = (memWriteH false s a (r.bytes q) 1).obs from rfl, hs]⟩

/-- The state that the write of a record starts from. -/
def atWrite (s : State) : State := s.onObs fun o => { o with wroteAt := some s.now }

theorem writes_record {r : TraceRec} {rest : List TraceRec} {q a : Nat} (hs : s.obs.stage = r :: rest) (ht : since s s.obs.wroteAt 500 = true)
    (hq : s.obs.nextSeq = q) (ha : ringAt s q = a) (hf : LinesFine s a 32) (hfull : ringFull s = false) (hd : s.obs.dropped = 0) :
    Answers .traceRecordWrite s fun u =>
        (∀ k, memByte u k = if a ≤ k ∧ k < a + 32 then (r.bytes q).getD (k - a) 0 else memByte s k) ∧ getF u fOBS_TRACE_HEAD_SEQ = q % 2 ^ 32 ∧
        u.obs = { s.obs with stage := rest, nextSeq := q + 1, wroteAt := some s.now } := by
  have he : exec .traceRecordWrite s = .next ((putTrace (atWrite s) r).2.onObs fun o => { o with stage := rest }) := by
    show execTraceRecordWrite s = _
    have hput := putTrace_room (s := atWrite s) r hq ha hf hfull
    simp only [execTraceRecordWrite, hs, ht]
    rw [if_neg (by simp), if_neg (fun h => h.1 hd), ← atWrite, if_pos (by rw [hput])]
  rw [putTrace_room (s := atWrite s) r hq ha hf hfull] at he
  obtain ⟨w, hw⟩ : ∃ w, w = setF (memWriteH false (atWrite s) a (r.bytes q) 1) fOBS_TRACE_HEAD_SEQ q := ⟨_, rfl⟩
  obtain ⟨hb, hh, ho⟩ := record_written (s := atWrite s) r hf hw
  rw [← hw] at he
  clear hw
  refine ⟨_, he, hb, hh, ?_⟩
  show { w.obs with nextSeq := q + 1, stage := rest } = _
  rw [ho]
  rfl

/-- The record that stands for dropped ones. -/
def lostRec (s : State) : TraceRec := ⟨s.now, 8, synced s, 0, s.obs.dropped, 0⟩

theorem writes_lost {r : TraceRec} {rest : List TraceRec} {q a : Nat} (hs : s.obs.stage = r :: rest) (ht : since s s.obs.wroteAt 500 = true)
    (hq : s.obs.nextSeq = q) (ha : ringAt s q = a) (hf : LinesFine s a 32) (hfull : ringFull s = false) (hd : s.obs.dropped ≠ 0)
    (h8 : bit (getF s fOBS_CTL_TYPES) 8 = true) : Answers .traceRecordWrite s fun u =>
        (∀ k, memByte u k = if a ≤ k ∧ k < a + 32 then ((lostRec s).bytes q).getD (k - a) 0 else memByte s k) ∧
        getF u fOBS_TRACE_HEAD_SEQ = q % 2 ^ 32 ∧ u.obs = { s.obs with dropped := 0, nextSeq := q + 1, wroteAt := some s.now } := by
  have he : exec .traceRecordWrite s = .next ((putTrace (atWrite s) (lostRec s)).2.onObs fun o => { o with dropped := 0 }) := by
    show execTraceRecordWrite s = _
    have hput := putTrace_room (s := atWrite s) (lostRec s) hq ha hf hfull
    simp only [execTraceRecordWrite, hs, ht]
    rw [if_neg (by simp), if_pos ⟨hd, h8, show (!ringFull s) = true by simp [hfull]⟩]
    exact congrArg Host.Outcome.next (if_pos (congrArg Prod.fst hput))
  rw [putTrace_room (s := atWrite s) _ hq ha hf hfull] at he
  obtain ⟨w, hw⟩ : ∃ w, w = setF (memWriteH false (atWrite s) a ((lostRec s).bytes q) 1) fOBS_TRACE_HEAD_SEQ q := ⟨_, rfl⟩
  obtain ⟨hb, hh, ho⟩ := record_written (s := atWrite s) _ hf hw
  rw [← hw] at he
  clear hw
  refine ⟨_, he, hb, hh, ?_⟩
  show { w.obs with nextSeq := q + 1, dropped := 0 } = _
  rw [ho]
  rfl

theorem drops_record {r : TraceRec} {rest : List TraceRec} (hs : s.obs.stage = r :: rest) (ht : since s s.obs.wroteAt 500 = true) (hfull : ringFull s = true) :
    Answers .traceRecordWrite s fun u => u.obs = { s.obs with stage := rest, dropped := s.obs.dropped + 1, wroteAt := some s.now } ∧
        Counts s u fOBS_TRACE_LOST_COUNT 1 ∧ OnlyFields s { u with obs := s.obs } [fOBS_TRACE_LOST_COUNT] := by
  obtain ⟨w, hw⟩ : ∃ w : State, w = { s with obs := { s.obs with stage := rest, dropped := s.obs.dropped + 1, wroteAt := some s.now } } := ⟨_, rfl⟩
  have he : exec .traceRecordWrite s = .next (addF w fOBS_TRACE_LOST_COUNT 1) := by
    show execTraceRecordWrite s = _
    have hput : putTrace (atWrite s) r = (false, atWrite s) := if_pos (by rw [show ringFull (atWrite s) = true from hfull]; rfl)
    simp only [execTraceRecordWrite, hs, ht]
    rw [if_neg (by simp), if_neg (by simp [show ringFull (s.onObs fun o => { o with wroteAt := some s.now }) = true from hfull]), ← atWrite, hput, hw]
    rfl
  have hkept : FieldsKept s w [fOBS_TRACE_LOST_COUNT] := hw ▸ FieldsKept.refl s _
  have hcount : Counts s (addF w fOBS_TRACE_LOST_COUNT 1) fOBS_TRACE_LOST_COUNT 1 := hw ▸ counts_addF s _ 1
  refine ⟨_, he, ?_, hcount, hkept.addF (List.mem_singleton_self _) 1, ?_⟩
  · rw [show (addF w fOBS_TRACE_LOST_COUNT 1).obs = w.obs from rfl, hw]
  · rw [hw]
    rfl

theorem record_waits (h : s.obs.stage = [] ∨ since s s.obs.wroteAt 500 = false) : exec .traceRecordWrite s = .next s := by
  show execTraceRecordWrite s = _
  rw [execTraceRecordWrite]
  split
  next => rfl
  next r rest hs => rw [if_pos (by simpa [hs] using h)]

/-- R582: the ring holds the last records of the session. -/
theorem ringHolds_iff {q : Nat} (hn : s.obs.nextSeq ≤ 2 ^ 32) (hq : q < 2 ^ 32) :
    ringHolds s q = true ↔ q < s.obs.nextSeq ∧ s.obs.nextSeq ≤ q + getF s fOBS_TRACE_SIZE_PAGES * 128 := by
  simp only [ringHolds, Bool.and_eq_true, decide_eq_true_eq]
  omega

/-! ### A selected record -/

/-- The four words of a served record. -/
def servedWords (w : State) (g : Nat → Nat) : State := (List.range 4).foldl (fun s i => setF s (fOBS_TRACE_DATA_DATA i) (g i)) w

theorem servedWords_only (w : State) (g : Nat → Nat) : OnlyFields w (servedWords w g) ((List.range 4).map fOBS_TRACE_DATA_DATA) :=
  foldl_keeps_mem (fun x => OnlyFields w x _) (OnlyFields.refl w _) fun _ i hi hx => hx.setF (List.mem_map.mpr ⟨i, hi, rfl⟩) _

theorem fldKey_traceData (n : Nat) : fldKey (fOBS_TRACE_DATA_DATA n) = 872464896 + 512 * n := by
  show (0xD00308 + 0x8 * n) * 64 + 0 = _
  omega

theorem getF_servedWords (w : State) (g : Nat → Nat) {i : Nat} (hi : i < 4) : getF (servedWords w g) (fOBS_TRACE_DATA_DATA i) = g i % 2 ^ 64 := by
  refine foldl_settles (f := fun s i => setF s (fOBS_TRACE_DATA_DATA i) (g i)) (fun _ => True) (fun x => getF x (fOBS_TRACE_DATA_DATA i) = g i % 2 ^ 64) trivial
    (fun _ _ _ _ => trivial) (fun x _ => getF_setF_same x (fOBS_TRACE_DATA_DATA i) (g i)) (fun x c _ hne _ hx => ?_) (List.mem_range.mpr hi)
  rw [getF_setF_ne _ _ (by rw [fldKey_traceData, fldKey_traceData]; omega), hx]

theorem getF_servedWords_miss (w : State) (g : Nat → Nat) : getF (servedWords w g) fOBS_STATUS_SEL_MISS = getF w fOBS_STATUS_SEL_MISS :=
  (servedWords_only w g).1.getF fun f hf => by
    obtain ⟨i, -, rfl⟩ := List.mem_map.mp hf
    rw [fldKey_traceData, show fldKey fOBS_STATUS_SEL_MISS = 872415749 from rfl]
    omega

/-- A word of a served record. -/
theorem word_memBytes (s : State) (a : Nat) {i : Nat} (hi : i < 4) : leAt (memBytes s a 32) (8 * i) 8 = leAt (memBytes s (a + 8 * i) 8) 0 8 := by
  rw [leAt, leAt]
  congr 1
  refine List.map_congr_left fun j hj => ?_
  have := List.mem_range.mp hj
  simp [memBytes, List.getD_eq_getElem?_getD, show 8 * i + j < 32 by omega, this, Nat.add_assoc]

section Selected
variable {t q a : Nat} (ht : s.obs.selAt = some t) (hq : getF s fOBS_TRACE_SEL_SEQ = q) (ha : ringAt s q = a)
include ht

theorem sel_waits (hw : s.now < t + 20000) : exec .traceSelDataReady s = .next s := by
  show execTraceSelDataReady s = _
  simp only [execTraceSelDataReady, ht]
  rw [if_pos hw]

include hq

theorem sel_misses (hw : t + 20000 ≤ s.now) (hr : ringHolds s q = false) : Answers .traceSelDataReady s fun u =>
        (∀ i, i < 4 → getF u (fOBS_TRACE_DATA_DATA i) = 0) ∧ getF u fOBS_STATUS_SEL_MISS = 1 ∧ u.obs = { s.obs with selAt := none } ∧
        OnlyFields s { u with obs := s.obs } (fOBS_STATUS_SEL_MISS :: (List.range 4).map fOBS_TRACE_DATA_DATA) := by
  obtain ⟨v, hv⟩ : ∃ v, v = setF (s.onObs fun o => { o with selAt := none }) fOBS_STATUS_SEL_MISS 1 := ⟨_, rfl⟩
  have he : exec .traceSelDataReady s = .next (servedWords v fun _ => 0) := by
    show execTraceSelDataReady s = _
    simp only [execTraceSelDataReady, ht]
    rw [if_neg (by omega), show getF (s.onObs fun o => { o with selAt := none }) fOBS_TRACE_SEL_SEQ = q from hq, if_neg, hv]
    · rfl
    · rw [show ringHolds (s.onObs fun o => { o with selAt := none }) q = false from hr]
      decide
  obtain ⟨hk, hs⟩ := servedWords_only v fun _ => 0
  have hmiss : getF v fOBS_STATUS_SEL_MISS = 1 := hv ▸ getF_setF_same _ _ 1
  have hframe : v = { s with csr := v.csr, obs := { s.obs with selAt := none } } := hv ▸ rfl
  have hv1 : FieldsKept s v [fOBS_STATUS_SEL_MISS] := hv ▸ (onlyFields_setF s fOBS_STATUS_SEL_MISS 1).1
  clear hv
  refine ⟨_, he, fun i hi => getF_servedWords v _ hi, (getF_servedWords_miss v _).trans hmiss, ?_,
    fun g hg => (FieldsKept.mono hv1 (by simp)).trans (hk.mono fun f hf => List.mem_cons_of_mem _ hf) g hg, ?_⟩
  · rw [hs, hframe]
  · rw [hs, hframe]

include ha

theorem sel_served (hw : t + 20000 ≤ s.now) (hr : ringHolds s q = true) (hc : RangeClean s a 32) : Answers .traceSelDataReady s fun u =>
        (∀ i, i < 4 → getF u (fOBS_TRACE_DATA_DATA i) = leAt (memBytes s (a + 8 * i) 8) 0 8) ∧ u.obs = { s.obs with selAt := none } ∧
        OnlyFields s { u with obs := s.obs } ((List.range 4).map fOBS_TRACE_DATA_DATA) := by
  obtain ⟨v, hv⟩ : ∃ v, v = s.onObs fun o => { o with selAt := none } := ⟨_, rfl⟩
  have hread : memRead v a 32 = ⟨memBytes s a 32, none, v⟩ := hv ▸ memRead_clean (s := s.onObs fun o => { o with selAt := none }) hc
  obtain ⟨g, hg⟩ : ∃ g : Nat → Nat, g = fun i => leAt (memBytes s a 32) (8 * i) 8 := ⟨_, rfl⟩
  have he : exec .traceSelDataReady s = .next (servedWords v g) := by
    show execTraceSelDataReady s = _
    simp only [execTraceSelDataReady, ht]
    rw [if_neg (by omega), ← hv, show getF v fOBS_TRACE_SEL_SEQ = q from hv ▸ hq, if_pos (hv ▸ hr), show ringAt v q = a from hv ▸ ha, hread, hg]
    rfl
  have hword : ∀ i, i < 4 → g i = leAt (memBytes s (a + 8 * i) 8) 0 8 := fun i hi => hg ▸ word_memBytes s a hi
  clear hg
  obtain ⟨hk, hs⟩ := servedWords_only v g
  have hframe : v = { s with obs := { s.obs with selAt := none } } := hv
  have hv1 : FieldsKept s v [] := hv ▸ FieldsKept.refl s []
  clear hv
  refine ⟨_, he, fun i hi => ?_, ?_, fun g hg => ((FieldsKept.mono hv1 (by simp)).trans hk) g hg, ?_⟩
  · rw [getF_servedWords v g hi, hword i hi, Nat.mod_eq_of_lt (leAt_lt _ _ _)]
  · rw [hs, hframe]
  · rw [hs, hframe]

end Selected
end Trace

/-- Settles O54, by the new states of a snapshot, of a session's commands, of the sampler, and of the ring's writer and reader. -/
theorem traceAndSnapshot : Obligations.TraceAndSnapshot := by
  unfold Obligations.TraceAndSnapshot
  rintro s _ rfl
  refine ⟨snap_takes, fun h => ?_, fun t ht => snap_ends rfl ht, fun a n hen ha hn => ⟨traceStart_begins hen ha hn, traceStart_rejects hen ha hn, traceStop_off hen, traceDrain_ends hen⟩,
    traceDrain_waits, fun h => ⟨traceStart_on h, traceStop_ends h⟩, sampler_fires, sampler_waits, fun r rest q a hs ht hq ha hf => ⟨writes_record hs ht hq ha hf,
    writes_lost hs ht hq ha hf, drops_record hs ht⟩, record_waits, traceRec_fields, fun seq => ?_, fun seq => ⟨fun h => ?_, fun h => ?_⟩, fun q => rfl,
    fun q => ringHolds_iff, fun t q a ht hq ha => ⟨sel_waits ht, sel_served ht hq ha, sel_misses ht hq⟩⟩
  · show execSnap s = _
    rw [execSnap, if_pos h]
  · refine ⟨_, rfl, (getF_setF_same s fOBS_TRACE_SEL_SEQ _).trans (Nat.mod_eq_of_lt seq.isLt), rfl, onlyFields_setF s _ _⟩
  · show execObsTraceRead seq s = _
    rw [execObsTraceRead, if_pos h]
  · refine ⟨setF s fOBS_TRACE_READ_SEQ seq.toNat, ?_, (getF_setF_same s fOBS_TRACE_READ_SEQ _).trans (Nat.mod_eq_of_lt seq.isLt), onlyFields_setF s _ _⟩
    show execObsTraceRead seq s = _
    rw [execObsTraceRead, if_neg (by omega)]

end Sys2Proof.Machine
end

section
/-! PROOFS. The management endpoint (O56). -/

namespace Sys2Proof.Machine

/-! ### Registers after a reset, and a restart of the Postmaster -/

/-- What a field reads after a reset of a set of registers. -/
theorem getF_resetRegs (s : State) (p : Nat → Bool) {f : Fld} (h : f.lo < 64) : getF (resetRegs s p) f = if p f.off then csrDefault (fldKey f) else getF s f := by
  have hk : fldKey f / 64 = f.off := by rw [fldKey]; omega
  exact (mget_mclear csrDefault (fun k => p (k / 64)) s.csr (fldKey f)).trans (by rw [hk]; rfl)

theorem getF_stopFirmware_ne (s : State) {f : Fld} (h : f.lo < 64) (hne : fldKey f ≠ fldKey fPM_STATUS_FW_RUNNING) :
    getF (stopFirmware s) f = if pmFirmwareReg f.off then csrDefault (fldKey f) else getF s f :=
  (getF_setF_ne (resetRegs s pmFirmwareReg) 0 hne).trans (getF_resetRegs s pmFirmwareReg h)

theorem getF_satF_ne (s : State) {f g : Fld} (n : Nat) (h : fldKey g ≠ fldKey f) : getF (satF s f n) g = getF s g := getF_setF_ne s _ h

/-- R547: what a restart of the Postmaster leaves. -/
theorem restartPm_restarted (s : State) (cause pc : Nat) : Restarted s (restartPm s cause pc) cause pc := by
  have hkeep : ∀ {g : Fld}, fldKey g ≠ fldKey fPM_ERR_PM_RESTART → fldKey g ≠ fldKey fPM_STATUS_RESTARTS → reportKey (fldKey g) = false →
      getF (restartPm s cause pc) g = getF (stopFirmware s) g := fun h1 h2 h3 => (getF_raise_ne _ h1 h3).trans (getF_satF_ne _ 1 h2)
  have hpm : (raise (satF (stopFirmware s) fPM_STATUS_RESTARTS 1) fPM_ERR_PM_RESTART).pm = { s.pm with job := none, spdm := 0, recovery := false } := raise_pm _ _
  refine ⟨?_, rfl, rfl, ?_, ?_, getF_raise_same (f := fPM_ERR_PM_RESTART) _ (by decide), ?_, ?_, ?_, fun f hl hf => ?_, fun j => ?_, ?_⟩
  · exact (hkeep (by decide) (by decide) (by decide)).trans (getF_setF_same (resetRegs s pmFirmwareReg) fPM_STATUS_FW_RUNNING 0)
  · exact (congrArg Pm.job hpm :)
  · exact (congrArg Pm.spdm hpm :)
  · refine (getF_raise_ne (f := fPM_ERR_PM_RESTART) _ (by decide) (by decide)).trans ((getF_satF_same (stopFirmware s) fPM_STATUS_RESTARTS 1).trans ?_)
    rw [getF_stopFirmware_ne s (by decide) (by decide), if_neg (by decide)]
    rfl
  · exact (congrArg Pm.buf hpm :)
  · exact (congrArg Pm.evq hpm :)
  · have hoff : f.off = 4 ∨ (0x10 ≤ f.off ∧ f.off < 0x40) := by simpa [pmFirmwareReg] using hf
    have hne : ∀ {g : Fld}, g.off = 0 ∨ g.off = 0x48 → g.lo < 64 → fldKey f ≠ fldKey g := fun h1 h2 => by simp only [fldKey]; omega
    rw [hkeep (hne (.inr rfl) (by decide)) (hne (.inl rfl) (by decide)) (reportKey_off (by omega)), getF_stopFirmware_ne s hl (hne (.inl rfl) (by decide)), if_pos hf]
  · exact tile_tiles (raise_tiles (satF (stopFirmware s) fPM_STATUS_RESTARTS 1) fPM_ERR_PM_RESTART) j
  · exact (restartPm_mem s cause pc)

/-! ### Messages that have left stay on the wire -/

theorem edge_wire_mem (before : State) {s : State} {o : Out} (h : o ∈ s.wire) : o ∈ (edge before s).wire := by
  rw [edge]
  split_ifs
  · exact h
  · rw [fireInterrupt]
    split_ifs <;> simp [h]
  · exact h

theorem setLeaf_wire_mem {s : State} (i k : Nat) {o : Out} (h : o ∈ s.wire) : o ∈ (setLeaf s i k).wire := by
  rw [setLeaf]
  split
  · exact h
  · refine edge_wire_mem s ?_
    rw [postTrace]
    split_ifs <;> exact h

theorem raise_wire_mem (s : State) (f : Fld) {o : Out} (h : o ∈ s.wire) : o ∈ (raise s f).wire := by
  rw [raise]
  split
  · exact setLeaf_wire_mem _ _ h
  · exact h

/-! ### Control messages -/

section Endpoint
variable {s : State} {via : Via} (hv : viaUp s via.val = true)
include hv

theorem mctpControl_answers (h : fwRuns s = true ∨ halted s = true) (c : MctpCtl) : Answers (.mctpControl via c) s fun u => ∃ cmd code b e,
      u.wire = .mctp (viaAddress s via.val) via.val 0 cmd code b :: s.wire ∧ u.pm = { s.pm with eid := e } ∧ u = { s with wire := u.wire, pm := u.pm, free := u.free } ∧
      (c = .getEid → cmd = 2 ∧ code = 0 ∧ b = [BitVec.ofNat 8 s.pm.eid, 0, 0]) ∧ (c = .getTypes → cmd = 5 ∧ code = 0 ∧ b = [2, 5, 0x7F]) ∧
      (∀ op v, c = .setEid op v → cmd = 1 ∧ (op.val < 2 → v ≠ 0 → v ≠ 0xFF → code = 0 ∧ b = [0, v, 0] ∧ e = v.toNat) ∧
        (op.val < 2 → v = 0 ∨ v = 0xFF → code = 2 ∧ b = [])) ∧
      (∀ x, c = .other x → cmd = x.toNat ∧ code = 5 ∧ b = []) ∧
      (∀ t, c = .getVersion t → cmd = 4 ∧ (t = 5 ∨ t = 0x7F → code = 0)) ∧ (∀ n, c = .getVendor n → cmd = 6 ∧ (n = 0 → code = 0) ∧ (n ≠ 0 → code = 2)) ∧
      ((∀ op v, c = .setEid op v → 2 ≤ op.val ∨ v = 0 ∨ v = 0xFF) → e = s.pm.eid) := by
  have he : exec (.mctpControl via c) s = .next (respond s (({ s with free := s.free + 4 } : State).onPm fun p => { p with eid := (controlAnswer s c).2.2.2 }) via.val 0
      (controlAnswer s c).1 (controlAnswer s c).2.1 (controlAnswer s c).2.2.1) := by
    show execMctpControl via c s = _
    rw [execMctpControl, if_neg (by rcases h with h | h <;> simp [hv, h])]
  refine ⟨_, he, _, _, _, _, rfl, rfl, rfl, ?_⟩
  cases c with
  | setEid op v =>
    have hset : op.val < 2 → controlAnswer s (.setEid op v) = if v = 0 ∨ v = 0xFF then (1, 2, [], s.pm.eid) else (1, 0, [0, v, 0], v.toNat) := fun h => by
      rw [controlAnswer, if_neg (by omega)]
      exact if_congr (or_iff_right (by omega)) rfl rfl
    refine ⟨nofun, nofun, ?_, nofun, nofun, nofun, fun h => ?_⟩
    · rintro _ _ ⟨⟩
      refine ⟨?_, fun h1 h2 h3 => ?_, fun h1 h2 => ?_⟩
      · simp only [controlAnswer]
        split_ifs <;> rfl
      · rw [hset h1, if_neg (not_or.mpr ⟨h2, h3⟩)]
        exact ⟨rfl, rfl, rfl⟩
      · rw [hset h1, if_pos h2]
        exact ⟨rfl, rfl⟩
    · rcases h op v rfl with h' | h'
      · simp only [controlAnswer]
        split_ifs with h1 h2
        · rfl
        · rfl
        · exact absurd (.inl (by omega)) h2
      · simp only [controlAnswer]
        split_ifs with h1 h2
        · rfl
        · rfl
        · exact absurd (.inr h') h2
  | getEid => exact ⟨fun _ => ⟨rfl, rfl, rfl⟩, nofun, nofun, nofun, nofun, nofun, fun _ => rfl⟩
  | getVersion t =>
    refine ⟨nofun, nofun, nofun, nofun, ?_, nofun, fun _ => ?_⟩
    · rintro _ ⟨⟩
      refine ⟨?_, fun h => ?_⟩
      · simp only [controlAnswer]
        split_ifs <;> rfl
      · simp only [controlAnswer]
        rw [if_pos (by tauto)]
    · simp only [controlAnswer]
      split_ifs <;> rfl
  | getTypes => exact ⟨nofun, fun _ => ⟨rfl, rfl, rfl⟩, nofun, nofun, nofun, nofun, fun _ => rfl⟩
  | getVendor n =>
    refine ⟨nofun, nofun, nofun, nofun, nofun, ?_, fun _ => ?_⟩
    · rintro _ ⟨⟩
      simp only [controlAnswer]
      split_ifs with h
      · exact ⟨rfl, fun _ => rfl, absurd h⟩
      · exact ⟨rfl, fun h' => absurd h' h, fun _ => rfl⟩
    · simp only [controlAnswer]
      split_ifs <;> rfl
  | other c =>
    refine ⟨nofun, nofun, nofun, ?_, nofun, nofun, fun _ => rfl⟩
    rintro _ ⟨⟩
    exact ⟨rfl, rfl, rfl⟩

/-! ### Vendor commands -/

theorem needsFirmware_off (hr : fwRuns s = false) (cmd : Nat) (go : State → State) :
    needsFirmware s via.val cmd go = { s with wire := .mctp (viaAddress s via.val) via.val 0x7F cmd 3 [] :: s.wire } := by
  simp [needsFirmware, hv, hr, respond]

theorem needsFirmware_runs (hr : fwRuns s = true) (cmd : Nat) (go : State → State) : needsFirmware s via.val cmd go = go s := by
  simp [needsFirmware, hv, hr]

theorem getSummary_answers : exec (.getSummary via) s = .next { s with wire := .mctp (viaAddress s via.val) via.val 0x7F 1 0 (toBytes 4 (readReg s 0) ++ toBytes 4 (readReg s 0x100000) ++
      toBytes 4 (readReg s 0x300000) ++ toBytes 4 (readReg s 0x100)) :: s.wire } := by
  show execGetSummary via s = _
  rw [execGetSummary, if_pos hv]
  simp [respond]

omit hv in
theorem csrRead_readData (s : State) (off : Nat) (width : AccessWidth) : (csrRead s off width).2.readData = s.readData := by
  have hclear : ∀ r, (clearRc s r off).readData = s.readData := fun r => by
    rw [clearRc]
    split
    · rfl
    · refine foldl_keeps_mem (fun x : State => x.readData = s.readData) rfl fun x f _ hx => ?_
      split
      · exact hx
      · exact hx
  have h32 : (csrRead32 s off).2.readData = s.readData := by
    rw [csrRead32]
    split
    · rfl
    · split
      next r hr =>
        dsimp only
        split_ifs
        · rfl
        · rfl
        · exact hclear r
      next =>
        split_ifs
        · split <;> rfl
        · split <;> rfl
        · rfl
  cases width with
  | word =>
    rw [csrRead]
    split
    · exact h32
    · rfl
  | wide => rfl
  | half => rfl
  | byte => rfl

/-- The two widths of a register access of the management endpoint. -/
def accessOf (width : AccessWidth) (n : Nat) : Prop := width = .word ∧ n = 4 ∨ width = .wide ∧ n = 8

omit hv in
theorem accessOf_width {width : AccessWidth} {n : Nat} (h : accessOf width n) : (BitVec.ofNat 8 n).toNat = n ∧ (if BitVec.ofNat 8 n == 8 then AccessWidth.wide else .word) = width ∧
    ∀ off, off < 0x4000000 → accessOk off (BitVec.ofNat 8 n) = true := by
  rcases h with ⟨rfl, rfl⟩ | ⟨rfl, rfl⟩ <;> exact ⟨rfl, rfl, fun off h => by simp [accessOk, h]⟩

section Firmware
variable (hr : fwRuns s = true)
include hr

theorem readCsr_runs {off : BitVec 32} {w : BitVec 8} (h : accessOk off.toNat w = true) : exec (.readCsr via off w) s =
    .next (respond s (csrRead s off.toNat (if w == 8 then .wide else .word)).2 via.val 0x7F 2 0 (toBytes w.toNat (csrRead s off.toNat (if w == 8 then .wide else .word)).1)) := by
  show execReadCsr via off w s = _
  rw [execReadCsr, needsFirmware_runs hv hr, if_neg (by simp [h])]

theorem readCsr_field {off : BitVec 32} {o : BitVec 27} (ho : off.toNat = o.toNat) (h : o.toNat < 0x4000000) {width : AccessWidth} {n : Nat} (hn : accessOf width n) :
    Answers (.rcFieldRead ⟨o, width⟩) s fun w => exec (.readCsr via off (BitVec.ofNat 8 n)) s =
      .next { w with readData := s.readData, wire := .mctp (viaAddress s via.val) via.val 0x7F 2 0 (toBytes n w.readData) :: w.wire } := by
  obtain ⟨h1, h2, h3⟩ := accessOf_width hn
  refine ⟨readInto s o.toNat width, rfl, ?_⟩
  rw [readCsr_runs hv hr (h3 _ (ho ▸ h)), h1, h2, ho]
  have hd := csrRead_readData s o.toNat width
  obtain ⟨r, hr⟩ : ∃ r, r = csrRead s o.toNat width := ⟨_, rfl⟩
  rw [readInto, ← hr]
  rw [← hr] at hd
  exact congrArg (fun d => Host.Outcome.next { r.2 with readData := d, wire := .mctp (viaAddress s via.val) via.val 0x7F 2 0 (toBytes n r.1) :: r.2.wire }) hd

theorem readCsr_whole {off : BitVec 32} {o : Nat} (ho : off.toNat = o) (h : o < 0x4000000) {r : RegDef} (h8 : o % 8 = 0) (hp : plainWord s o = none) (hr' : regAt o = some r)
    (hw : r.width = 64) : exec (.readCsr via off 8) s =
        .next { s with wire := .mctp (viaAddress s via.val) via.val 0x7F 2 0 (toBytes 8 (readReg s o)) :: s.wire } := by
  have hread : csrRead s o .wide = (readReg s o, s) := by
    rw [csrRead, if_pos h8, csrRead64, hp, hr']
    exact congrArg (·, s) (if_pos hw)
  rw [readCsr_runs hv hr (by simp [accessOk, ho, h]), ho]
  exact congrArg (fun q => Host.Outcome.next (respond s q.2 via.val 0x7F 2 0 (toBytes 8 q.1))) hread

theorem writeCsr_runs {off : BitVec 32} {o : BitVec 27} (ho : off.toNat = o.toNat) (h : o.toNat < 0x4000000) {width : AccessWidth} {n : Nat} (hn : accessOf width n) (v : Word) :
    Answers (.csrWrite o width v) s fun w =>
        exec (.writeCsr via off (BitVec.ofNat 8 n) v) s = .next { w with wire := .mctp (viaAddress s via.val) via.val 0x7F 3 0 [] :: w.wire } := by
  obtain ⟨h1, h2, h3⟩ := accessOf_width hn
  refine ⟨csrWrite s o.toNat width v.toNat, rfl, ?_⟩
  show execWriteCsr via off _ v s = _
  rw [execWriteCsr, needsFirmware_runs hv hr, if_neg (by simp [h3 _ (ho ▸ h)]), h2, ho]
  rfl

theorem access_refused {off : BitVec 32} {w : BitVec 8} (v : Word) (h : ¬ ((w = 4 ∨ w = 8) ∧ off.toNat < 0x4000000)) :
    exec (.readCsr via off w) s = .next { s with wire := .mctp (viaAddress s via.val) via.val 0x7F 2 1 [] :: s.wire } ∧
    exec (.writeCsr via off w v) s = .next { s with wire := .mctp (viaAddress s via.val) via.val 0x7F 3 1 [] :: s.wire } := by
  have hbad : accessOk off.toNat w = false := by simpa [accessOk] using h
  refine ⟨?_, ?_⟩
  · show execReadCsr via off w s = _
    rw [execReadCsr, needsFirmware_runs hv hr, if_pos (by simp [hbad]), respond]
  · show execWriteCsr via off w v s = _
    rw [execWriteCsr, needsFirmware_runs hv hr, if_pos (by simp [hbad]), respond]

theorem readLog_runs (first : BitVec 32) (n : BitVec 8) {l : List LogRec} (hl : ((List.range n.toNat).filterMap fun i => findRecord s ((first.toNat + i) % 2 ^ 32)) = l) :
    (0 < n.toNat → n.toNat ≤ 32 → exec (.readLog via first n) s =
      .next { s with wire := .mctp (viaAddress s via.val) via.val 0x7F 4 0 (BitVec.ofNat 8 l.length :: l.flatMap LogRec.bytes) :: s.wire }) ∧
    (n.toNat = 0 ∨ 32 < n.toNat → exec (.readLog via first n) s = .next { s with wire := .mctp (viaAddress s via.val) via.val 0x7F 4 1 [] :: s.wire }) := by
  refine ⟨fun h1 h2 => ?_, fun h => ?_⟩
  · show execReadLog via first n s = _
    rw [execReadLog, needsFirmware_runs hv hr, if_neg (by omega), hl]
    rfl
  · show execReadLog via first n s = _
    rw [execReadLog, needsFirmware_runs hv hr, if_pos h, respond]

end Firmware

theorem commands_unavailable (hr : fwRuns s = false) (off : BitVec 32) (w : BitVec 8) (v : Word) (n : BitVec 8) :
    exec (.readCsr via off w) s = .next { s with wire := .mctp (viaAddress s via.val) via.val 0x7F 2 3 [] :: s.wire } ∧
    exec (.writeCsr via off w v) s = .next { s with wire := .mctp (viaAddress s via.val) via.val 0x7F 3 3 [] :: s.wire } ∧
    exec (.readLog via off n) s = .next { s with wire := .mctp (viaAddress s via.val) via.val 0x7F 4 3 [] :: s.wire } := by
  refine ⟨?_, ?_, ?_⟩
  · show execReadCsr via off w s = _
    rw [execReadCsr, needsFirmware_off hv hr]
  · show execWriteCsr via off w v s = _
    rw [execWriteCsr, needsFirmware_off hv hr]
  · show execReadLog via off n s = _
    rw [execReadLog, needsFirmware_off hv hr]

/-! ### Firmware over the management endpoint -/

theorem fwWrite_refused (off : BitVec 32) {data : List Byte} (h : data.length = 0 ∨ 1024 < data.length) :
    exec (.fwWrite via off data) s = .next { s with wire := .mctp (viaAddress s via.val) via.val 0x7F 5 1 [] :: s.wire } := by
  show execFwWrite via off data s = _
  rw [execFwWrite, if_neg (by simp [hv]), if_pos h, respond]

theorem fwWrite_stages {off : BitVec 32} {data : List Byte} {a : Nat} (h0 : 0 < data.length) (h1 : data.length ≤ 1024)
    (ha : stageBase s + (getF s fPM_FW_SRC_OFFSET + off.toNat) = a) (hh : halted s = false) (hr : fwRuns s = true) (hl : s.mem.lpddrReady = true)
    (hn : getF s fPM_FW_SRC_OFFSET + off.toNat + data.length ≤ 0x1000000000) (hc : RangeClean s a data.length) :
        Answers (.fwWrite via off data) s fun u => u.wire = .mctp (viaAddress s via.val) via.val 0x7F 5 0 [] :: s.wire ∧ MemStored s { u with wire := s.wire } a data := by
  have he : exec (.fwWrite via off data) s = .next (respond s (memWrite s a data) via.val 0x7F 5 0 []) := by
    show execFwWrite via off data s = _
    have hs : ¬ stageSize < getF s fPM_FW_SRC_OFFSET + off.toNat + data.length := by simpa only [stageSize, not_lt] using hn
    simp only [execFwWrite, hv, hh, hr, stageOpen, hl, ha, if_neg hs]
    rw [if_neg (by simp), if_neg (by omega), if_neg (by simp), if_pos trivial, if_neg (by simp)]
  obtain ⟨hb, ht, hg, hs⟩ := memWrite_stored data hc
  have hw : (memWrite s a data).wire = s.wire := by rw [hs]
  refine ⟨_, he, congrArg _ hw, hb, ht, hg, ?_⟩
  exact congrArg (fun w : State => { w with wire := s.wire }) hs

omit hv in
/-- The bytes of an overlay that begins no later than the string ends. -/
theorem overlay_get {l b : List Byte} {o : Nat} (h : o ≤ l.length) {k : Nat} (hk : k < (overlay l o b).length) :
    (overlay l o b).length = max l.length (o + b.length) ∧ (overlay l o b)[k]? = some (if o ≤ k ∧ k < o + b.length then b.getD (k - o) 0 else l.getD k 0xFF) := by
  have hlen : (overlay l o b).length = max l.length (o + b.length) := by simp [overlay]; omega
  refine ⟨hlen, ?_⟩
  have ht : (l.take o).length = o := by simp [h]
  rw [overlay]
  by_cases h1 : k < o
  · rw [List.append_assoc, List.getElem?_append_left (by omega), if_neg (by omega), List.getElem?_take_of_lt h1, List.getD_eq_getElem?_getD, List.getElem?_eq_getElem (by omega)]
    rfl
  · by_cases h2 : k < o + b.length
    · rw [List.getElem?_append_left (by simp; omega), List.getElem?_append_right (by omega), ht, if_pos ⟨by omega, h2⟩, List.getD_eq_getElem?_getD, List.getElem?_eq_getElem (by omega)]
      rfl
    · have hl : k < l.length := by omega
      rw [List.getElem?_append_right (by simp; omega), if_neg (by omega), List.getElem?_drop, List.getD_eq_getElem?_getD]
      rw [show o + b.length + (k - (l.take o ++ b).length) = k by simp; omega, List.getElem?_eq_getElem hl]
      rfl

omit hv in
/-- An erased byte past the programmed ones reads as one that is not there. -/
theorem padded_get (old : List Byte) (n k : Nat) : (old ++ List.replicate n (0xFF : Byte)).getD k 0xFF = old.getD k 0xFF := by
  by_cases h : k < old.length
  · rw [List.getD_append _ _ _ _ h]
  · rw [List.getD_append_right _ _ _ _ (by omega), List.getD_eq_default old _ (by omega)]
    by_cases hn : k - old.length < n
    · rw [List.getD_replicate _ hn]
    · rw [List.getD_eq_default _ _ (by rw [List.length_replicate]; omega)]

/-- The bytes of bank 0 that a write of recovery goes over. -/
def recoveryOld (s : State) : List Byte := if s.pm.recovery then bank0Bytes s else []

theorem fwWrite_recovers {off : BitVec 32} {data : List Byte} (h0 : 0 < data.length) (h1 : data.length ≤ 1024) (hh : halted s = true)
    (hn : off.toNat + data.length ≤ 25165824) : Answers (.fwWrite via off data) s fun u => u.wire = .mctp (viaAddress s via.val) via.val 0x7F 5 0 [] :: s.wire ∧
        u.pm.recovery = true ∧ u = { s with wire := u.wire, pm := u.pm } ∧ ∃ old b, (s.pm.recovery = true → old = bank0Bytes s) ∧ (s.pm.recovery = false → old = []) ∧
          fwBankOf u 0 = .bytes b ∧ b.length = max old.length (off.toNat + data.length) ∧
          ∀ k, k < b.length → b[k]? = some (if off.toNat ≤ k ∧ k < off.toNat + data.length then data.getD (k - off.toNat) 0 else old.getD k 0xFF) := by
  have he : exec (.fwWrite via off data) s = .next (respond s (recoveryWrite s off.toNat data) via.val 0x7F 5 0 []) := by
    show execFwWrite via off data s = _
    rw [execFwWrite, if_neg (by simp [hv]), if_neg (by omega), if_pos hh, if_neg (by omega)]
  have hpad : off.toNat ≤ (recoveryOld s ++ List.replicate (off.toNat - (recoveryOld s).length) (0xFF : Byte)).length := by simp; omega
  have hb := fun k hk => overlay_get (b := data) hpad (k := k) hk
  have hlen : (overlay (recoveryOld s ++ List.replicate (off.toNat - (recoveryOld s).length) (0xFF : Byte)) off.toNat data).length =
      max (recoveryOld s).length (off.toNat + data.length) := by
    simp [overlay]
    omega
  refine ⟨_, he, rfl, rfl, rfl, recoveryOld s, _, fun h => if_pos h, fun h => if_neg (by simp [h]), rfl, hlen, fun k hk => ?_⟩
  obtain ⟨-, h⟩ := hb k hk
  rwa [padded_get] at h

omit hv in
theorem bankGood_frame {u : State} (h : u.pm = s.pm) (n : Nat) : bankGood u n = bankGood s n := by simp only [bankGood, fwBankOf, fwCheck, h]

omit hv in
theorem showBank_only (s : State) (n : Nat) : OnlyFields s (showBank s n) [fPM_FW_BANK_VALID n, fPM_FW_BANK_SVN n, fPM_FW_BANK_VERSION n] := by
  rw [showBank]
  split
  · exact onlyFields_setFs s (by simp)
  · exact onlyFields_setFs s (by simp)

theorem fwLoad_runs (hh : halted s = false) (hr : fwRuns s = true) : Answers .pmFwLoad s fun w => exec (.fwLoad via) s =
      .next { w with wire := .mctp (viaAddress s via.val) via.val 0x7F 6 (if getF w fPM_FW_STATUS_RESULT = 7 then 2 else 0) [] :: w.wire } := by
  refine ⟨fwLoad s, rfl, ?_⟩
  show execFwLoad via s = _
  rw [execFwLoad, if_neg (by simp [hv]), if_neg (by simp [hh]), if_pos hr]
  rfl

theorem fwLoad_bad (hh : halted s = true) (hg : bankGood s 0 = false) : Answers (.fwLoad via) s fun u => halted u = true ∧
      u.wire = .mctp (viaAddress s via.val) via.val 0x7F 6 1 [] :: s.wire ∧ u.pm = s.pm ∧
      OnlyFields s { u with wire := s.wire } [fPM_FW_BANK_VALID 0, fPM_FW_BANK_SVN 0, fPM_FW_BANK_VERSION 0] := by
  have he : exec (.fwLoad via) s = .next (respond s (showBank s 0) via.val 0x7F 6 1 []) := by
    show execFwLoad via s = _
    rw [execFwLoad, if_neg (by simp [hv]), if_pos hh]
    exact congrArg Host.Outcome.next (if_pos (by rw [hg]; rfl))
  obtain ⟨hk, hs⟩ := showBank_only s 0
  have hpm : (showBank s 0).pm = s.pm := by rw [hs]
  have hst : stage (showBank s 0) = stage s := hk.getF (by decide)
  have hrun : fwRuns (showBank s 0) = fwRuns s := congrArg (· == 1) (hk.getF (g := fPM_STATUS_FW_RUNNING) (by decide))
  refine ⟨_, he, ?_, congrArg (List.cons _) (show (showBank s 0).wire = s.wire by rw [hs]), hpm, fun g hg => hk g hg, congrArg (fun w : State => { w with wire := s.wire }) hs⟩
  show ((stage (showBank s 0) == 8 && !fwRuns (showBank s 0)) || (showBank s 0).pm.pins.scan) = true
  rw [hst, hrun, hpm]
  exact hh

theorem fwLoad_recovers (hh : halted s = true) (hg : bankGood s 0 = true) (hsel : SelRoom s) : Answers (.fwLoad via) s fun u =>
      Out.mctp (viaAddress s via.val) via.val 0x7F 6 0 [] ∈ u.wire ∧ (selector u).active = 0 ∧ (selector u).trial = none ∧ ∃ cause pc, Restarted s u cause pc := by
  obtain ⟨w, hw⟩ : ∃ w, w = respond s (freshWord (freshWord (showBank s 0)).2).2 via.val 0x7F 6 0 [] := ⟨_, rfl⟩
  obtain ⟨cause, pc, he⟩ : ∃ cause pc, exec (.fwLoad via) s = .next (restartPm (writeSelector w 0 none (selector s).trials) cause pc) := by
    refine ⟨(freshWord (showBank s 0)).1.toNat % 4, (freshWord (freshWord (showBank s 0)).2).1.toNat % 2 ^ 32, ?_⟩
    show execFwLoad via s = _
    rw [execFwLoad, if_neg (by simp [hv]), if_pos hh, hw]
    exact congrArg Host.Outcome.next (if_neg (by rw [hg]; decide))
  obtain ⟨hk, hs⟩ := showBank_only s 0
  have hframe : w = { s with wire := .mctp (viaAddress s via.val) via.val 0x7F 6 0 [] :: s.wire, csr := w.csr, free := w.free } := by
    rw [hw, hs]
    rfl
  have hkept : FieldsKept s w [fPM_FW_BANK_VALID 0, fPM_FW_BANK_SVN 0, fPM_FW_BANK_VERSION 0] := hw ▸ hk
  clear hw
  have hpm : w.pm = s.pm := by rw [hframe]
  obtain ⟨x, hx⟩ : ∃ x, x = writeSelector w 0 none (selector s).trials := ⟨_, rfl⟩
  have hselx : selector x = ⟨(selector w).seq + 1, 0, none, (selector s).trials, true⟩ := hx ▸ selector_write w 0 none _ (by rwa [SelRoom, selector_nor (congrArg Pm.nor hpm)])
  rw [← hx] at he
  obtain ⟨h1, h2, h3, h4, h5, h6, h7, h8, h9, h10, h11, h12⟩ := restartPm_restarted x cause pc
  have hxs : x = { w with pm := x.pm } := hx ▸ rfl
  have hbuf : x.pm.buf = s.pm.buf := hx ▸ (congrArg Pm.buf hpm :)
  have hevq : x.pm.evq = s.pm.evq := hx ▸ (congrArg Pm.evq hpm :)
  have hcount : getF x fPM_STATUS_RESTARTS = getF s fPM_STATUS_RESTARTS := (hx ▸ rfl : getF x fPM_STATUS_RESTARTS = getF w fPM_STATUS_RESTARTS).trans (hkept.getF (by decide))
  have htile : ∀ j, x.tile j = s.tile j := fun j => tile_tiles (by rw [hxs, hframe]) j
  have hmem : x.mem = s.mem := by rw [hxs, hframe]
  clear hx
  have hnor : (restartPm x cause pc).pm.nor = x.pm.nor := (congrArg Pm.nor (raise_pm (satF (stopFirmware x) fPM_STATUS_RESTARTS 1) fPM_ERR_PM_RESTART) :)
  refine ⟨_, he, ?_, ?_, ?_, cause, pc, h1, h2, h3, h4, h5, h6, hcount ▸ h7, h8.trans hbuf, h9.trans hevq, h10, fun j => (h11 j).trans (htile j), h12.trans hmem⟩
  · refine raise_wire_mem (satF (stopFirmware x) fPM_STATUS_RESTARTS 1) fPM_ERR_PM_RESTART (show _ ∈ x.wire from ?_)
    rw [hxs, hframe]
    exact List.mem_cons_self
  · rw [selector_nor hnor, hselx]
  · rw [selector_nor hnor, hselx]

theorem dynamicAddress_answers (addr : BitVec 7) (ibi : Bool) : exec (.dynamicAddress addr ibi) s = .next { s with
      pm := { s.pm with i3c := some addr.toNat }
      host := { s.host with ibi := ibi }
      wire := .i3cId (provisionalId s) :: s.wire } := by
  have hup : (s.pm.pins.aon && !s.pm.pins.rst) = true := by
    unfold viaUp at hv
    exact (Bool.and_eq_true_iff.mp hv).1
  show execDynamicAddress addr ibi s = _
  rw [execDynamicAddress, if_pos hup]
  rfl

end Endpoint

/-- Settles O56, by the answer of each command of the management endpoint. -/
theorem managementEndpoint : Obligations.ManagementEndpoint := by
  unfold Obligations.ManagementEndpoint
  intro s via hv
  refine ⟨mctpControl_answers hv, getSummary_answers hv, fun _ hr off o v ho h => ⟨fun width n hn => readCsr_field hv hr ho h hn, fun r h8 hp hr' hw => readCsr_whole hv hr ho h h8 hp hr' hw,
    fun width n hn => writeCsr_runs hv hr ho h hn v⟩, fun _ hr off w v h => access_refused hv hr v h, fun _ hr first n l hl => readLog_runs hv hr first n hl,
    fun hr off w v n => commands_unavailable hv hr off w v n,
    fun off data a h0 h1 ha => ⟨fwWrite_stages hv h0 h1 ha, fwWrite_recovers hv h0 h1⟩, fun off data h => fwWrite_refused hv off h, fwLoad_runs hv, fwLoad_recovers hv, fwLoad_bad hv,
    dynamicAddress_answers hv, ?_, ?_, ?_⟩
  · rw [provisionalId]
    omega
  · rw [macAddress]
    omega
  · rw [macAddress]
    omega

end Sys2Proof.Machine
end
